-- ==== Sys2Proof/Word.lean ====
section
/-! DEFINITION. The words of the J16 (00 R7, R10; 02 R41, R77): bytes, dwords and vector
registers, and their plainest arithmetic. -/

namespace Sys2Proof

/-- A byte of memory (R7). -/
abbrev Byte := BitVec 8

/-- A dword: a scalar register or a system register (R41). -/
abbrev Word := BitVec 64

/-- A vector register (R41). -/
abbrev Vec := BitVec 128

/-- A dirty-sector signature (R268). -/
abbrev Sig := BitVec 512

/-- A register field of an encoding (R69, R71). -/
abbrev Reg := BitVec 5

/-- `sext(e, n)` of R77: a field read as a two's-complement number, as a 64-bit pattern. -/
def sext {n : Nat} (e : BitVec n) : Word := e.signExtend 64

/-- `zext(e, n)` of R77. -/
def zext {n : Nat} (e : BitVec n) : Word := e.setWidth 64

/-- `e[hi:lo]` of R77, as a number. -/
def bits (e hi lo : Nat) : Nat := (e >>> lo) % 2 ^ (hi + 1 - lo)

/-- A condition as the dword 1 or 0. -/
def ofBool (b : Bool) : Word := if b then 1 else 0

end Sys2Proof
end

