-- ==== Sys2Proof/Config.lean ====
section
/-! DEFINITION. What the manual fixes for one GLJ-16A0 module, and the values that it leaves
open. An open value is an opaque constant: nothing in Lean can evaluate it, so a statement that
holds of this model holds whatever the value is. -/

namespace Sys2Proof.Config

/-! ## Figures of the module (00 R1, R3) -/

def dies : Nat := 16
def clustersPerDie : Nat := 3200
def localStoreBytes : Nat := 49152

/-- The maximum packet lifetime L in cycles (21 R370). -/
def packetLifetime : Nat := 1048576

/-- The timeout of a remote request in cycles (21 R382). -/
def remoteTimeout : Nat := 3145728

/-! ## Values the manual leaves open -/

/-- A latency in cycles that the manual does not fix. The first argument names the path, the second
is the counter `State.free`, which every use advances. -/
opaque latency : Nat → Nat → Nat

/-- The latency paths, named. -/
def latReply : Nat := 0
def latMesh : Nat := 1
def latWalk : Nat := 2
def latFetch : Nat := 3
def latEngine : Nat := 4
def latSave : Nat := 5
def latSpill : Nat := 6
def latFabric : Nat := 8
def latBarrier : Nat := 9

/-- How many elements a bound stream has read ahead, before the bound of four (03 R98). -/
opaque readAhead : Nat → Nat

/-- The per-core pseudo-random sequence of steal targets (14 R286). -/
opaque stealTarget : Nat → Nat → Nat

/-- Whether the remote-data cache keeps a copy of a line that it may hold (13 R261). -/
opaque rdcKeeps : Nat → Bool

/-- Whether the memory of a spill area refuses a write or a read-back (04 R124, 06 R166). -/
opaque spillFails : Nat → Bool

/-- The address of a context's entry, by core and number, which no rule gives (04 R121). -/
opaque entryAddress : Nat → Nat → Nat

/-- The pc at which the copy microcode, whose listing the manual does not give, stands (10 R230, R236). -/
opaque microcodePc : Nat → Word

/-- What a core of another module answers to a channel that the loader declares (01 R38, 23 R427). -/
opaque farDeclares : Nat → Nat

/-- A draw of the module's random source (19 R351). -/
opaque randomKey : Nat → BitVec 256

/-- ML-DSA-65 verification of a message under a public key (20 R358, R366). -/
opaque mldsaVerify : List Word → List Word → List Word → Bool

/-- ML-KEM-768: the shared secret of an exchange (20 R365, 21 R375). -/
opaque mlkemShared : List Word → List Word

/-- A free value of a sensor, a response body or a count that another standard defines
(20 R357, R361). -/
opaque freeWord : Nat → Word

/-- Whether a boot image verifies, by stage and boot count (20 R358). -/
opaque imageVerifies : Nat → Nat → Bool

/-- The security version that a boot image carries (20 R359). -/
opaque imageVersion : Nat → Nat → Nat

/-- A key of a polder unwrapped under a shared secret, by its number (20 R365). -/
opaque unwrapKey : List Word → List Word → Nat → BitVec 256

/-- The first word of the digest of a polder's configuration list (20 R362). -/
opaque configDigest : List Word → Word

/-- The first 32 bytes and the digest words of a boot image (20 R358). -/
opaque imageDigest : Nat → Nat → List Word

end Sys2Proof.Config
end

