-- ==== Sys2Proof/Syntax.lean ====
section
/-! DEFINITION. The steps of the J16: one constructor of `Instr` for every row of the table of
operations and events. A row with an encoding is one half of a bundle (02 R64, R68, R71); a row
without one is an event of the device, which 95_what_each_step_holds.md lists as one
indivisible step, and it carries the places and the messages that the event concerns. -/

namespace Sys2Proof

/-! ## Operand groups of the wider formats -/

/-- The fields of format MEM (R68, R69). -/
structure MemF where
  disp : BitVec 7
  scope : BitVec 3
  order : BitVec 2
  w : BitVec 3
  s1 : Reg
  d : Reg
  deriving DecidableEq, Repr, Inhabited

/-- The fields of format MRR with a two-bit size in f (R208, R416, R418). -/
structure MrrF where
  size : BitVec 2
  order : BitVec 2
  scope : BitVec 3
  s2 : Reg
  s1 : Reg
  d : Reg
  deriving DecidableEq, Repr, Inhabited

/-- The fields of an atomic (R209): `wide` is f[4]. -/
structure AmoF where
  wide : BitVec 1
  order : BitVec 2
  scope : BitVec 3
  s2 : Reg
  s1 : Reg
  d : Reg
  deriving DecidableEq, Repr, Inhabited

/-- The fields of XRED (R420): f[3] is .ord and f[2] the NaN mode. -/
structure XredF where
  ord : BitVec 1
  nan : BitVec 1
  order : BitVec 2
  scope : BitVec 3
  s2 : Reg
  s1 : Reg
  d : Reg
  deriving DecidableEq, Repr, Inhabited

/-- The fields of CPY, CPY2D and CPYG (R251, R252): f[4] selects a ring, f[3:0] names it. -/
structure CpyF where
  ring : BitVec 1
  q : BitVec 4
  s3 : Reg
  s2 : Reg
  s1 : Reg
  d : Reg
  deriving DecidableEq, Repr, Inhabited

/-- The fields of MMA (R241): f[4] is .wait and f[3:0] the A type. -/
structure MmaF where
  wait : BitVec 1
  ty : BitVec 4
  s3 : Reg
  s2 : Reg
  s1 : Reg
  d : Reg
  deriving DecidableEq, Repr, Inhabited

/-- The fields of format V (R71). -/
structure VF where
  mode : BitVec 2
  ty : BitVec 4
  vc : Reg
  vb : Reg
  va : Reg
  vd : Reg
  deriving DecidableEq, Repr, Inhabited

/-! ## What events carry -/

/-- A task record with the tags that the device keeps beside it (R280, R330, R283). -/
structure TaskRec where
  world : Nat
  prio : Nat
  /-- Entry pc, in bytes. -/
  pc : Nat
  arg0 : Word
  arg1 : Word
  launch : Nat
  /-- Completion counter, in bytes; 0 for none. -/
  done : Nat
  seeded : Bool
  /-- The logical core that the record was seeded or pushed to (R257). -/
  logical : Nat
  /-- Code range of the launch (R34), first byte and the byte past the end. -/
  codeLo : Nat
  codeHi : Nat
  /-- The cycle since which the record has waited at its level (R283). -/
  since : Nat
  /-- The signature that the push released and the install acquires (R330). -/
  sig : Sig
  deriving DecidableEq, Repr, Inhabited

/-- A task record that the host pushes to a logical core (R294): the four dwords of R280. -/
structure HostTask where
  logical : Nat
  d0 : Word
  d1 : Word
  d2 : Word
  d3 : Word
  deriving DecidableEq, Repr

/-- What answers a steal request of a core for a polder (R286): a record, or nothing. -/
structure StealAnswer where
  world : Nat
  task : Option TaskRec
  deriving DecidableEq, Repr

/-- The steward's answer to a miss (R304): code 0 and a leaf, or a fault's cause and, for 0x08 and 0x12, its address. -/
structure WalkAnswer where
  entry : Word
  code : Nat
  deriving DecidableEq, Repr

/-- Who waits for a reply: a context of a core (R61), a live tag of a complex (R382), or the
copy hart or matrix engine of a cluster. -/
inductive ReplyTo where
  | ctx (core num : Nat)
  | tag (die idx gen : Nat)
  /-- A core that steals for a world (R286). -/
  | thief (core world : Nat)
  /-- A request of another module: its complex and tag there, and the die of this module that serves it. -/
  | remote (module die idx gen here : Nat)
  /-- A token register (R59). -/
  | token (core num reg : Nat)
  | copy (cluster id : Nat)
  /-- An unlanded STTK of a complex, by its world, generation and sequence (R393). -/
  | sttk (die world gen seq : Nat)
  /-- A dependent store with its token (R419). -/
  | dep (core num : Nat) (token : Word)
  /-- An XRED: its token register, its record, and whether it is an acquire (R421, R422). -/
  | xred (core num reg record : Nat) (acq : Bool)
  /-- The write of a reduction's result into its record, by its number at the core (R421). -/
  | redWrite (core id : Nat)
  | job (cluster id : Nat)
  /-- A fill of a die's remote-data cache from another module (R261, R382). -/
  | fill (die id : Nat)
  /-- An add to a block counter of another module: cluster, world, module, address and increment (R310). -/
  | counter (cluster world module pa n : Nat)
  /-- The read of a launch queue's next record, which waits for a walk (R276, R301). -/
  | queue (world queue : Nat)
  /-- A graph-send packet that the copy hart of a cluster works on (R424). -/
  | dest (cluster id : Nat)
  | none
  deriving DecidableEq, Repr, Inhabited

/-- What a reply carries (R198, R382, R383). -/
inductive Reply where
  | data (bytes : List Byte)
  /-- The access is performed at its home at this instant (R263). -/
  | home
  | done
  /-- A fault with its cause code, at a byte of the part asked for (R111, R195). -/
  | fault (code byte : Nat)
  | gone
  /-- The code of a status word (R214). -/
  | status (code : Nat)
  deriving DecidableEq, Repr, Inhabited

/-- The handler of an active message (R160). -/
inductive SvcOp where
  | load | store | atomic (f : Nat) | fill | sync | peek | setfe | steal
  deriving DecidableEq, Repr, Inhabited

/-- An active message (R160): `off` is a window address below 0x2_0000 of the target core. -/
structure ActiveMsg where
  op : SvcOp
  world : Nat
  off : Nat
  size : Nat
  data : List Byte
  cmp : Word
  /-- The signature that a release carries, or 0 (R270). -/
  sig : Sig
  acq : Bool
  /-- The sender endpoint, whose requests keep their order (R161), and who takes the reply. -/
  sender : Nat
  from_ : ReplyTo
  deriving DecidableEq, Repr, Inhabited

/-- A DATA or TOKEN message on its way to a core (R162, R163). -/
structure MailMsg where
  typ : Nat
  mbox : Nat
  sender : Nat
  world : Nat
  d1 : Word
  d2 : Word
  d3 : Word
  /-- The signature carried under R270; `rel` says whether one is. -/
  sig : Sig
  rel : Bool
  /-- Who takes the status of the SEND (R214); of a TOKEN, the request that it completes. -/
  from_ : ReplyTo
  deriving DecidableEq, Repr, Inhabited

/-- A fabric packet (R376, R377). -/
structure Packet where
  typ : Nat
  cls : Nat
  world : Nat
  pgen : Nat
  hop : Nat
  hops : List Nat
  dst : Nat
  src : Nat
  tagIdx : Nat
  tagGen : Nat
  op : Word
  status : Word
  data : List Word
  deriving DecidableEq, Repr, Inhabited

/-- A link frame (R371): `ok` is whether its tag verified. -/
structure Frame where
  seq : Nat
  ack : Nat
  nak : Bool
  null : Bool
  ok : Bool
  flit : List Word
  deriving DecidableEq, Repr, Inhabited

/-- A contribution to a reduction slot (R385, R420). -/
structure Contribution where
  slot : Nat
  gen : Nat
  op : Nat
  ty : Nat
  prop : Bool
  ord : Bool
  n : Nat
  i : Nat
  /-- Deadline in cycles, 1 to 2^28. -/
  dl : Nat
  lt : Bool
  module : Nat
  world : Nat
  data : Vec
  rel : Bool
  sig : Sig
  from_ : ReplyTo
  deriving DecidableEq, Repr, Inhabited

/-- A dependent store on its way to its holder (R396, R401). -/
structure DepStore where
  token : Word
  expiry : Nat
  size : Nat
  data : List Byte
  pa : Nat
  /-- For a local-store aperture, the target core and window offset. -/
  target : Option (Nat × Nat)
  module : Nat
  world : Nat
  pgen : Nat
  /-- Who takes the status of the STDEP (R419). -/
  from_ : ReplyTo
  sig : Sig
  /-- The cycle of issue: resend time counts toward expiry (R396). -/
  issued : Nat
  deriving DecidableEq, Repr, Inhabited

/-- A local-time event or tide mark (R406, R413). -/
structure LtEvent where
  stamp : Nat
  src : Nat
  seq : Nat
  ch : Nat
  p0 : Word
  p1 : Word
  p2 : Word
  sig : Sig
  /-- Who takes the status of the TSEND (R429). -/
  from_ : ReplyTo
  deriving DecidableEq, Repr, Inhabited

/-- The signed message of a migration (R365, R366). -/
structure MigMsg where
  world : Nat
  key : List Word
  body : List Word
  sig : List Word
  deriving DecidableEq, Repr, Inhabited

/-- A linked program that the loader places (R29, R35, R37 to R40, R218, R257, R276, R389). -/
structure Program where
  world : Nat
  /-- Physical addresses and contents of what it places in memory: sections, already relocated, and page tables. -/
  images : List (Nat × List Byte)
  /-- Physical address of the root table (R295). -/
  root : Nat
  /-- Virtual addresses of .text: its first byte and the byte behind it. -/
  textFirst : Nat
  textEnd : Nat
  /-- Virtual addresses of .data, the largest .align of both sections (R32), and the die of the .data pages, or none for
  spread (R39). -/
  dataFirst : Nat := 0
  dataEnd : Nat := 0
  textAlign : Nat := 1
  dataAlign : Nat := 1
  home : Option Nat := none
  lstore : List Byte
  /-- Entries of the type table: identifier and four dwords (R315), and a place for a new table. -/
  types : List (Nat × List Word)
  tablePa : Nat
  tableVa : Nat
  /-- Where the core table stands (R389). -/
  corePa : Nat
  /-- The cores that the launch is placed on, with the base and bound of a share where another world has one (R158, R219). -/
  shares : List (Nat × Nat × Nat)
  /-- Cores of other modules in the polder, above the slot bits of their endpoints (R389, R390). -/
  far : List Nat := []
  /-- Rings: number, base, size and tile size in bytes (R37). -/
  rings : List (Nat × Nat × Nat × Nat)
  /-- Channels: logical core, index, logical source core, freeboard (R38). -/
  channels : List (Nat × Nat × Nat × Nat)
  handler : Word
  queue : Nat
  /-- The eight dwords of the launch record (R277). -/
  record : List Word
  deriving DecidableEq, Repr, Inhabited

/-! ## The steps -/

/-- One constructor for every row of the table of operations and events. -/
inductive Instr where
  -- Integer arithmetic (R79, R80)
  | add (d a b : Reg) | sub (d a b : Reg) | and (d a b : Reg) | or (d a b : Reg)
  | xor (d a b : Reg) | sll (d a b : Reg) | srl (d a b : Reg) | sra (d a b : Reg)
  | slt (d a b : Reg) | sltu (d a b : Reg) | min (d a b : Reg) | max (d a b : Reg)
  | minu (d a b : Reg) | maxu (d a b : Reg) | mul (d a b : Reg) | mulh (d a b : Reg)
  | mulhu (d a b : Reg) | div (d a b : Reg) | divu (d a b : Reg) | rem (d a b : Reg)
  | remu (d a b : Reg) | clz (d a : Reg) | ctz (d a : Reg) | popc (d a : Reg)
  -- Immediates (R81 to R83)
  | addi (d a : Reg) (i : BitVec 15) | andi (d a : Reg) (i : BitVec 15)
  | ori (d a : Reg) (i : BitVec 15) | xori (d a : Reg) (i : BitVec 15)
  | slti (d a : Reg) (i : BitVec 15) | sltiu (d a : Reg) (i : BitVec 15)
  | slli (d a : Reg) (n : BitVec 6) | srli (d a : Reg) (n : BitVec 6)
  | srai (d a : Reg) (n : BitVec 6) | lui (d : Reg) (i : BitVec 20)
  | limm (d : Reg) (i : BitVec 32) | limmZx (d : Reg) (i : BitVec 32)
  | limmHi (d : Reg) (i : BitVec 32)
  -- Fat pointers (R84 to R87)
  | padd (d a b : Reg) (h : BitVec 3) | paddi (d a : Reg) (i : BitVec 15)
  | pset (d a b : Reg) (k : BitVec 2) | pget (d a : Reg) (k : BitVec 2)
  | pchk (d a b c : Reg) | pchkTrap (d a b c : Reg)
  -- Branches and jumps (R88 to R90, R97)
  | beq (a b : Reg) (o : BitVec 15) | bne (a b : Reg) (o : BitVec 15)
  | blt (a b : Reg) (o : BitVec 15) | bge (a b : Reg) (o : BitVec 15)
  | bltu (a b : Reg) (o : BitVec 15) | bgeu (a b : Reg) (o : BitVec 15)
  | beod (n k : BitVec 2) (o : BitVec 15) | jal (d : Reg) (i : BitVec 32)
  | jalr (d a : Reg) (i : BitVec 15)
  -- Streams (R92 to R96)
  | sbind (n : BitVec 2) (t : BitVec 3) (a : Reg) | sfree (n : BitVec 2)
  | sskip (n : BitVec 2) (a : Reg)
  -- System registers, traps, stopping, fences, hints (R100 to R109)
  | gets (d : Reg) (sn : BitVec 10) | sets (sn : BitVec 10) (a : Reg)
  | trap (i : BitVec 15) | eret | halt | nop
  | fence (o : BitVec 2) (s : BitVec 3) | fenceEng (o : BitVec 2) (s : BitVec 3)
  | bbc (a : Reg) (i : BitVec 15)
  | pref (a : Reg) (p : BitVec 7) | prefWr (a : Reg) (p : BitVec 7)
  | ipref (l : BitVec 1) (a b : Reg) | ipin (l : BitVec 1) (d a b : Reg)
  | iunpin (l : BitVec 1) (a b : Reg)
  -- Translation control (R338, R339)
  | tbinvPage (d a : Reg) | tbinvRange (d a b : Reg) | tbinvAll (d : Reg)
  | tbinvWorld (d b : Reg)
  -- Memory (R199 to R208)
  | ld (m : MemF) | st (m : MemF) | lds (m : MemF) | stf (m : MemF) | ldp (m : MemF)
  | sfe (m : MemF) | vld (m : MemF) | vst (m : MemF) | vldt (m : MemF) | vldd (m : MemF)
  | vldx (m : MrrF) | vstx (m : MrrF)
  -- Atomics (R209 to R212)
  | amoadd (m : AmoF) | amoand (m : AmoF) | amoor (m : AmoF) | amoxor (m : AmoF)
  | amoswap (m : AmoF) | amomin (m : AmoF) | amomax (m : AmoF) | amominu (m : AmoF)
  | amomaxu (m : AmoF) | amocas (m : AmoF) | amofadd (m : AmoF)
  -- Messages (R213 to R216)
  | send (r : BitVec 1) (mb : BitVec 4) (d a b c : Reg) | recv (q : BitVec 1) (d a : Reg)
  | mbpeek (d a : Reg)
  -- Copies, matrix jobs, rings, groups (R237 to R256)
  | cpy (c : CpyF) | cpy2d (c : CpyF) | cpyl (q : BitVec 4) (d a : Reg) | cpyg (c : CpyF)
  | mma (m : MmaF) | mmam (w : BitVec 1) (d a b c : Reg) | qcfg (n : BitVec 4) (d a : Reg)
  | qpush (n : BitVec 4) (d a : Reg) | mhint (a : Reg) | gbar (s : BitVec 3) (a : Reg)
  -- Tasks and graphs (R327 to R337)
  | spawn (i : BitVec 1) (d a b c : Reg) | tdone | tyield (d a b : Reg)
  | gcopy (w : BitVec 1) (d a : Reg) | gsend (w : BitVec 1) (d a b c : Reg)
  | gcmp (w : BitVec 1) (d a : Reg) | ghash (w : BitVec 1) (d a : Reg)
  | gfree (w : BitVec 1) (d a : Reg) | gstat (d a : Reg) | gstatStop (d a : Reg)
  -- Fabric stores, reductions, local time (R415 to R431)
  | sttk (m : MrrF) | stdep (m : MrrF) | xredAdd (x : XredF) | xredMin (x : XredF)
  | xredMax (x : XredF) | ltset (d a : Reg) | tide (d : Reg) | tideBound (d a : Reg)
  | tsend (d a b c : Reg) | trecv (d : Reg) | chdcl (k : BitVec 3) (d a b : Reg)
  | ltstat (sel : BitVec 3) (d a : Reg)
  -- Polder commands (R351 to R354)
  | wsetForm (d a b : Reg) | wsetGrant (d a b : Reg) | wsetReclaim (d a b : Reg)
  | wsetShare (d a b : Reg) | wsetPeer (d a b : Reg) | wsetSeal (d a b : Reg)
  | wsetDrain (d a b : Reg) | wsetFree (d a b : Reg) | wsealGenerate (d a b : Reg)
  | wsealInstall (d a b : Reg) | wsealDestroy (d a b : Reg)
  -- V-ops (R174)
  | vnop | vadd (v : VF) | vsub (v : VF) | vmul (v : VF) | vfma (v : VF) | vfms (v : VF)
  | vmin (v : VF) | vmax (v : VF) | vabs (v : VF) | vneg (v : VF) | vand (v : VF)
  | vor (v : VF) | vxor (v : VF) | vnot (v : VF) | vsll (v : VF) | vsrl (v : VF)
  | vsra (v : VF) | vcmpeq (v : VF) | vcmplt (v : VF) | vcmple (v : VF) | vsel (v : VF)
  | vcvt (v : VF) | vshuf (v : VF) | vbcast (v : VF) | vext (v : VF) | vins (v : VF)
  | vdot (v : VF) | vsumr (v : VF) | vmaxr (v : VF) | vrcp (v : VF) | vrsq (v : VF)
  | vrcps (v : VF) | vrsqs (v : VF) | vexp2 (v : VF) | vlog2 (v : VF) | vmodadd (v : VF)
  | vmodsub (v : VF) | vmodmul (v : VF) | vbfly (v : VF)
  -- Events of the slot and the core
  | longLatencyResult (slot : Nat) | localStorePass (slot : Nat) | energyRefill (core : Nat)
  | completionWrite (core num reg : Nat) (status : Word) (sig : Sig)
  | contextNumberRelease (core num : Nat)
  | remoteReply (rcv : ReplyTo) (r : Reply) (sig : Sig)
  | holdReply (die idx gen : Nat) | holdReplyResend (die n : Nat)
  | remoteTimeout (die idx gen : Nat) | tagQuarantineEnd (die idx : Nat)
  | registerMissMicroTrap (slot : Nat) | registerFetchDone (slot : Nat)
  | icacheFill (slot : Nat) | noticeTaken (slot : Nat)
  | stewardResume (slot : Nat) | stewardForwardTrap (slot : Nat)
  | stewardAbortTask (slot : Nat) | stewardCollect (core num : Nat)
  | preemption (core world : Nat) | contextSave (slot : Nat) | contextInstall (slot : Nat)
  | contextSpill (cluster : Nat) | spillReadback (core num : Nat)
  | sliceExpiry (slot : Nat) | watchdogExpiry (slot : Nat)
  | debugStop (core num : Nat) | debugResume (slot : Nat) | debugStep (slot : Nat)
  | debugContextAccess (slot off : Nat) (write : Option Word)
  | breakpointSet (core n pc mask : Nat) | breakpointHit (slot : Nat)
  | taskPop (core world : Nat) | dequeReadback (core world : Nat)
  | stealRequest (core world : Nat) | stealBackoffEnd (core world : Nat)
  | serviceQueueArrival (core : Nat) (m : ActiveMsg)
  | serviceLoad (core : Nat) | serviceStore (core : Nat) | serviceAtomic (core : Nat)
  | serviceFill (core : Nat) | serviceSyncLoad (core : Nat) | serviceSteal (core : Nat)
  | mailboxDataArrival (core : Nat) (m : MailMsg)
  | tokenMessageArrival (core : Nat) (m : MailMsg)
  -- Events of the cluster
  | ringReservationGrant (cluster ring : Nat) | tilePublish (cluster ring idx : Nat)
  | matrixJobStart (cluster : Nat) | shadowPause (cluster : Nat)
  | normalJobResume (cluster : Nat) | matrixJobRetire (cluster id : Nat)
  | engineRampUpEnd (cluster : Nat) | engineWarmEnd (cluster : Nat)
  | engineRampDownEnd (cluster : Nat)
  | copyKickTake (cluster : Nat) | copyRequestComplete (cluster id : Nat)
  | copyYield (cluster id : Nat) | qcfgApply (cluster ring : Nat)
  | barrierComplete (world launch group : Nat)
  | barrierRelease (core num : Nat) (sig : Sig)
  -- Events of the die
  | rdcFillArrival (die line : Nat) | rdcCopyExpiry (die line : Nat) | signatureBankAge
  | hbmWriteBack (line : Nat)
  | launchTailWrite (world queue : Nat) (tail : Nat) | launchRecordRead (world queue : Nat)
  | dispatchChoice (die : Nat) | taskSeeding (die : Nat) | ageingRaise (core : Nat)
  | gangPlacement (world launch : Nat) | urgentInstall (die : Nat)
  | nodeEvaluation (world launch : Nat)
  | vfSoftReset (world queue : Nat) | vfHardReset (world queue : Nat)
  | vfFaultRead (world : Nat) | vfRegisterWrite (world off : Nat) (value : Word)
  | hostTaskPush (world : Nat) (task : HostTask)
  | missTableAdmit (cluster : Nat) | pageWalk (die : Nat) | pageWalkDone (die walker : Nat)
  | stewardWalkReply (die : Nat) (world key : Nat) (answer : WalkAnswer)
  | blockCounterFlush (cluster : Nat) (world addr : Nat) | traceHeaderRewrite (core : Nat)
  | graphRequestFinish (cluster id : Nat)
  | objectPacketArrival (cluster : Nat) (p : Packet) | gsendAckArrival (cluster : Nat) (p : Packet)
  | gsendFinishArrival (cluster : Nat) (p : Packet) | gsendDoneArrival (cluster : Nat) (p : Packet)
  -- Events of the module
  | dieLinkDown (a b : Nat) | drainTimerExpiry (world : Nat) | coldReset | warmReset
  | fuseMinimumRaise (stage : Nat) (version : Nat) | stewardSramError (addr : Nat)
  | stewardWatchdogExpiry | mctpControlMessage (typ : Nat) (body : List Word)
  | pldmMessage (body : List Word) | spdmRequest (fn : Nat) (body : List Word)
  | vfFunctionLevelReset (world : Nat) | pfFunctionLevelReset
  | migrationPrepare (world : Nat) (source : Bool) | migrationTransfer (world : Nat) (m : MigMsg)
  | migrationReceipt (world : Nat) | migrationErase (m : MigMsg) | migrationCommit (m : MigMsg)
  | migrationAbort (m : MigMsg) (source : Bool) | recoveryWindowExpiry (world : Nat)
  | thermalWarning (die : Nat) | supplyDroopWarning | coolantFlowWarning | thermalTrip (die : Nat)
  -- Events of the fabric
  | linkFrameReceive (port : Nat) (f : Frame) | nullFrameSend (port : Nat)
  | linkResync (port : Nat) (shared : Option (List Word)) | linkRekey (port : Nat) (shared : List Word)
  | packetForward (port : Nat) (p : Packet) | creditWaitDrop (port : Nat)
  | pathTableWrite (die module index : Nat) (d0 d1 : Word) | pathChangeEffect (die module : Nat)
  | remoteRequestArrival (die : Nat) (p : Packet)
  | reductionContributionArrival (die : Nat) (c : Contribution)
  | reductionDeadline (die slot : Nat) | reductionSlotFree (die slot : Nat)
  | reductionResultArrival (core num reg record : Nat) (status : Word) (bitmap : Word) (data : Vec) (sig : Sig)
  | sttkLanding (die world gen seq : Nat) (sig : Sig)
  | sttkFailure (die world gen seq : Nat) (code : Nat)
  | depstoreArrival (die : Nat) (s : DepStore) | sluiceFullReply (die : Nat) (s : DepStore)
  | holdArrival (die : Nat) (token : Word) (holder : Nat) | holdRetry (die : Nat) (token : Word)
  | releaseArrival (die : Nat) (token : Word) (failed retry : Bool) (clean : Nat) (sig : Sig)
  | sluiceExpiry (die n : Nat)
  | declareArrival (core : Nat) (from_ k f world : Nat) (who : ReplyTo)
  | declareReply (core k : Nat) (who : ReplyTo) (code : Nat)
  | tideArrival (core ch src : Nat) (t : Nat) | eventArrival (core : Nat) (e : LtEvent)
  | floorExchange (die : Nat) | floorReportArrival (die : Nat) (core bound launch : Nat)
  | keyedAtomicApply (die : Nat) | localTimeModeExit (core : Nat)
  | programLoad (p : Program) | launchQueueConfigure (world queue base size leader : Nat)
  | stealReplyArrival (core : Nat) (r : StealAnswer) | depstoreResend (die : Nat) (s : DepStore)
  | linkBringUp (port : Nat) (shared : List Word)
  deriving DecidableEq, Repr

end Sys2Proof
end

