-- ==== Sys2Proof/Machine/State.lean ====
section
/-! DEFINITION. The state of one J16 module as plain data. Slots, cores, clusters, dies, polders
and links stand in sparse tables keyed by number, and a key that a table does not list holds the
reset value of its kind. A slot's key is its endpoint within the module, bits [21:0] of R4, so its
core is key / 8, its cluster key / 64 and its die key / 2^18. -/

namespace Sys2Proof.Machine

/-- A sparse table keyed by number, keys rising. -/
abbrev NMap (α : Type) := List (Nat × α)

/-! ## Events that the machine itself brings about -/

/-- The steps that follow from the state of the machine, as its agenda holds them: each is the row of
the table of operations and events of the same name. -/
inductive Event where
  | longLatencyResult (slot : Nat)
  | localStorePass (slot : Nat)
  | energyRefill (core : Nat)
  | completionWrite (core : Nat) (num : Nat) (reg : Nat) (status : Word) (sig : Sig)
  | contextNumberRelease (core : Nat) (num : Nat)
  | remoteReply (rcv : ReplyTo) (r : Reply) (sig : Sig)
  | holdReply (die : Nat) (idx : Nat) (gen : Nat)
  | holdReplyResend (die : Nat) (n : Nat)
  | remoteTimeout (die : Nat) (idx : Nat) (gen : Nat)
  | tagQuarantineEnd (die : Nat) (idx : Nat)
  | registerMissMicroTrap (slot : Nat)
  | registerFetchDone (slot : Nat)
  | icacheFill (slot : Nat)
  | noticeTaken (slot : Nat)
  | preemption (core : Nat) (world : Nat)
  | contextSave (slot : Nat)
  | contextInstall (slot : Nat)
  | contextSpill (cluster : Nat)
  | spillReadback (core : Nat) (num : Nat)
  | sliceExpiry (slot : Nat)
  | watchdogExpiry (slot : Nat)
  | breakpointHit (slot : Nat)
  | taskPop (core : Nat) (world : Nat)
  | dequeReadback (core : Nat) (world : Nat)
  | stealRequest (core : Nat) (world : Nat)
  | stealBackoffEnd (core : Nat) (world : Nat)
  | serviceQueueArrival (core : Nat) (m : ActiveMsg)
  | serviceLoad (core : Nat)
  | serviceStore (core : Nat)
  | serviceAtomic (core : Nat)
  | serviceFill (core : Nat)
  | serviceSyncLoad (core : Nat)
  | serviceSteal (core : Nat)
  | mailboxDataArrival (core : Nat) (m : MailMsg)
  | tokenMessageArrival (core : Nat) (m : MailMsg)
  | ringReservationGrant (cluster : Nat) (ring : Nat)
  | tilePublish (cluster : Nat) (ring : Nat) (idx : Nat)
  | matrixJobStart (cluster : Nat)
  | shadowPause (cluster : Nat)
  | normalJobResume (cluster : Nat)
  | matrixJobRetire (cluster : Nat) (id : Nat)
  | engineRampUpEnd (cluster : Nat)
  | engineWarmEnd (cluster : Nat)
  | engineRampDownEnd (cluster : Nat)
  | copyKickTake (cluster : Nat)
  | copyRequestComplete (cluster : Nat) (id : Nat)
  | copyYield (cluster : Nat) (id : Nat)
  | qcfgApply (cluster : Nat) (ring : Nat)
  | barrierComplete (world : Nat) (launch : Nat) (group : Nat)
  | barrierRelease (core : Nat) (num : Nat) (sig : Sig)
  | rdcFillArrival (die : Nat) (line : Nat)
  | rdcCopyExpiry (die : Nat) (line : Nat)
  | signatureBankAge
  | launchRecordRead (world : Nat) (queue : Nat)
  | dispatchChoice (die : Nat)
  | taskSeeding (die : Nat)
  | ageingRaise (core : Nat)
  | gangPlacement (world : Nat) (launch : Nat)
  | urgentInstall (die : Nat)
  | nodeEvaluation (world : Nat) (launch : Nat)
  | missTableAdmit (cluster : Nat)
  | pageWalk (die : Nat)
  | pageWalkDone (die : Nat) (walker : Nat)
  | blockCounterFlush (cluster : Nat) (world : Nat) (addr : Nat)
  | traceHeaderRewrite (core : Nat)
  | graphRequestFinish (cluster : Nat) (id : Nat)
  | drainTimerExpiry (world : Nat)
  | pathChangeEffect (die : Nat) (module : Nat)
  | reductionContributionArrival (die : Nat) (c : Contribution)
  | reductionDeadline (die : Nat) (slot : Nat)
  | reductionSlotFree (die : Nat) (slot : Nat)
  | reductionResultArrival (core : Nat) (num : Nat) (reg : Nat) (record : Nat) (status : Word) (bitmap : Word) (data : Vec) (sig : Sig)
  | sttkLanding (die : Nat) (world : Nat) (gen : Nat) (seq : Nat) (sig : Sig)
  | sttkFailure (die : Nat) (world : Nat) (gen : Nat) (seq : Nat) (code : Nat)
  | depstoreArrival (die : Nat) (s : DepStore)
  | depstoreResend (die : Nat) (s : DepStore)
  | sluiceFullReply (die : Nat) (s : DepStore)
  | holdArrival (die : Nat) (token : Word) (holder : Nat)
  | holdRetry (die : Nat) (token : Word)
  | releaseArrival (die : Nat) (token : Word) (failed : Bool) (retry : Bool) (clean : Nat) (sig : Sig)
  | sluiceExpiry (die : Nat) (n : Nat)
  | declareArrival (core : Nat) (from_ : Nat) (k : Nat) (f : Nat) (world : Nat) (who : ReplyTo)
  | declareReply (core : Nat) (k : Nat) (who : ReplyTo) (code : Nat)
  | tideArrival (core : Nat) (ch : Nat) (src : Nat) (t : Nat)
  | eventArrival (core : Nat) (e : LtEvent)
  | floorExchange (die : Nat)
  | floorReportArrival (die : Nat) (core : Nat) (bound : Nat) (launch : Nat)
  | keyedAtomicApply (die : Nat)
  | localTimeModeExit (core : Nat)
  | stealReplyArrival (core : Nat) (r : StealAnswer)
  | recoveryWindowExpiry (world : Nat)
  | nullFrameSend (port : Nat)
  | creditWaitDrop (port : Nat)
  | packetForward (port : Nat) (p : Packet)
  | remoteRequestArrival (die : Nat) (p : Packet)
  | objectPacketArrival (cluster : Nat) (p : Packet)
  | gsendAckArrival (cluster : Nat) (p : Packet)
  | gsendFinishArrival (cluster : Nat) (p : Packet)
  | gsendDoneArrival (cluster : Nat) (p : Packet)
  deriving DecidableEq, Repr, Inhabited

/-! ## The thread slot -/

/-- The slot states of R47. -/
inductive SlotState where
  | empty | ready | waitToken | waitMem | waitLong | waitRecv | waitEngine | waitBarrier
  | waitFetch | halted | stopped | swapped | lost
  deriving DecidableEq, Repr, Inhabited

/-- A stream: its descriptor, indices and end flags (R92 to R94, R117), and the elements already
read ahead (R98). -/
structure Stream where
  bound : Bool
  ty : BitVec 3
  base : BitVec 16
  ndim1 : Nat
  cnt : List (BitVec 16)
  str : List (BitVec 16)
  idx : List Nat
  eod : List Bool
  ahead : List Word
  deriving DecidableEq, Repr, Inhabited

/-- An unbound stream. -/
def Stream.unbound : Stream :=
  { bound := false, ty := 0, base := 0, ndim1 := 0, cnt := [], str := [], idx := [], eod := [],
    ahead := [] }

/-- What a parked memory access does when it is performed (R197): the memory instructions (R199 to
R210), a read of a pending graph state (R337), a record read of XRED (R421), an STTK that waits for an
entry (R393), the phases of FENCE, TDONE and TYIELD (R106, R331, R332). -/
inductive MemOp where
  | ld | st | lds | stf | ldp | sfe | vld | vst | vldd | amo | vldt | vldx | vstx
  | gstat | qpush | xred | sttk | fence | tdone | tyield
  deriving DecidableEq, Repr, Inhabited

/-- Where a byte of an access stands (R194, R298): the own local store, home memory of this module,
memory of another module, or a window address of a core's local store. -/
inductive Target where
  | own (off : Nat)
  | home (pa : Nat)
  | peer (module pa : Nat)
  | aper (module core off : Nat)
  deriving DecidableEq, Repr, Inhabited

/-- A parked memory access (R197). -/
structure MemReq where
  op : MemOp
  /-- Access type w of R69, or f of an atomic. -/
  w : Nat
  rd : Nat
  /-- The addresses of the bytes accessed, in order. -/
  vas : List Nat
  data : List Byte
  cmp : Word
  acq : Bool
  rel : Bool
  scope : Nat
  /-- The target of every byte, once translated. -/
  segs : List Target
  /-- Bytes read so far, by position. -/
  got : List (Nat × Byte)
  /-- Bytes already performed, and bytes that the outstanding request performs. -/
  pos : Nat
  asked : Nat
  /-- The live tag of the complex, if a request has left its die (R382). -/
  tag : Option (Nat × Nat)
  /-- The chunks still to be served of a multi-pass access (R153). -/
  chunks : List Nat
  /-- The step that a TDONE or TYIELD has reached, or a word that the operation keeps. -/
  phase : Nat
  extra : Word
  /-- The key (t, s, q) of an atomic of a core in local-time mode (R409). -/
  key : Option (Nat × Nat × Nat)
  issued : Nat
  translated : Nat
  /-- The cycle in which the access was performed where it was served (R309). -/
  served : Nat
  sampled : Bool
  /-- The level that served the access (R309). -/
  level : Nat
  deriving DecidableEq, Repr, Inhabited

/-- An access of the matrix engine or the copy hart in flight: of `n` bytes from one target up (R228, R230). -/
structure UnitAcc where
  write : Bool
  tgt : Target
  n : Nat
  data : List Byte
  /-- The request has been sent, and its live tag if it has left its die (R382). -/
  sent : Bool
  tag : Option (Nat × Nat)
  /-- An atomic add of the data in place of a store (R326). -/
  add : Bool := false
  deriving DecidableEq, Repr, Inhabited

/-- A matrix job (R225, R241 to R246). -/
structure Job where
  id : Nat
  shadow : Bool
  /-- The slot of the core that issued it (R162). -/
  slot : Nat
  core : Nat
  ctx : Nat
  rd : Nat
  modular : Bool
  aty : Nat
  desc : Word
  nk : Nat
  /-- Memory address of the result, or none for ring qd. -/
  mem : Option Nat
  q : Nat
  world : Nat
  lsbase : Nat
  lsbound : Nat
  /-- Next tile of qa, qb, qc claimed at the start. -/
  claimA : Nat
  claimB : Nat
  claimC : Nat
  resv : Option Nat
  asked : Bool
  started : Bool
  /-- K steps already made, in cycles, before the last pause; and the cycle the steps run from. -/
  doneCycles : Nat
  since : Nat
  /-- sr.modq at issue (R246). -/
  modq : Nat
  /-- The result once computed, its status, how much of it is written, and the write in flight (R244). -/
  result : List Byte
  status : Nat
  written : Nat
  acc : Option UnitAcc
  sig : Sig
  /-- Retired: its entry frees in the next cycle (R225). -/
  done : Bool
  deriving DecidableEq, Repr, Inhabited

/-- The kinds of copy-hart request. -/
inductive CopyKind where
  | cpy | cpy2d | cpyl | cpyg | gcopy | gcmp | ghash | gfree | gsend
  deriving DecidableEq, Repr, Inhabited

/-- What a running graph request knows of an object that it has reached: header bits [31:0], its type entry and its
length word (R316). -/
structure GObj where
  k : Nat
  hdr : Nat
  array : Bool
  words : Nat
  lenoff : Nat
  esize : Nat
  ptrmap : Nat
  eptrmap : Nat
  len : Nat
  deriving DecidableEq, Repr, Inhabited

/-- A graph request while it runs: the graph operation record and what the request keeps beside it (R317 to R326,
R424). -/
structure GraphSt where
  /-- The record has been read, and its code 0x01 written (R320). -/
  loaded : Bool
  begun : Bool
  root : Nat
  arg : Nat
  limit : Nat
  lgc : Nat
  base : Nat
  n : Nat
  kind : Nat
  pend : Bool
  phase : Nat
  cur : Nat
  pv : Nat
  pv2 : Nat
  tb : Nat
  freed : Nat
  objs : List GObj
  /-- Stored reference counts as phase 2 has read them (R326). -/
  counts : List (Nat × Nat)
  /-- The SHAKE256 state of GHASH: 25 lanes, and the position in the block in dwords. -/
  hash : List Word
  pos : Nat
  /-- What the step in progress has read or has been answered, and whether it is an object word. -/
  cache : List (Nat × Bool × List Byte)
  fin : Bool
  count : Nat
  deriving DecidableEq, Repr, Inhabited

def GraphSt.zero : GraphSt :=
  { loaded := false, begun := false, root := 0, arg := 0, limit := 0, lgc := 0, base := 0, n := 0, kind := 0, pend := false, phase := 0,
    cur := 0, pv := 0, pv2 := 0, tb := 0, freed := 0, objs := [], counts := [], hash := [], pos := 0, cache := [],
    fin := false, count := 0 }

/-- A graph-send packet at its destination: what its step has read, and the access in flight with its key (R424). -/
structure GDest where
  id : Nat
  /-- FINISH, not OBJECT. -/
  fin : Bool
  packet : Packet
  cache : List (Nat × Bool × List Byte)
  acc : Option UnitAcc
  key : Nat
  deriving DecidableEq, Repr, Inhabited

/-- A copy-hart request in a kick slot or running (R230, R231). -/
structure CopyReq where
  id : Nat
  kind : CopyKind
  /-- The slot of the core that issued it (R162). -/
  slot : Nat
  core : Nat
  ctx : Nat
  urgent : Bool
  world : Nat
  rd : Nat
  /-- Operand register values in the order of the instruction's fields. -/
  ops : List Word
  ring : Option Nat
  lsbase : Nat
  lsbound : Nat
  /-- Taken from its kick slot, and running now. -/
  taken : Bool
  running : Bool
  /-- Bytes already done. -/
  progress : Nat
  /-- The tile being filled, the bytes read for the unit that is written next, and how many of them are
  written. -/
  tile : Option Nat
  buf : List Byte
  wrote : Nat
  /-- The code of a failed read, 0 for none: what was read before it is written first (R238). -/
  failing : Nat
  /-- The access in flight, and the element of a list whose address has been read (R251, R252). -/
  acc : Option UnitAcc
  elem : Option (Nat × List Byte)
  /-- The access in flight reads object words, whose line is watched from that instant on (R322). -/
  askObj : Bool
  /-- The record of a CPYL, once read. -/
  record : List Byte
  /-- The cycle in which the request was taken last (R231). -/
  since : Nat
  sig : Sig
  status : Option Word
  /-- Graph requests: watched lines, mut and a stop asked for (R322, R337). -/
  watches : List Nat
  mutated : Nat
  stop : Bool
  g : GraphSt
  deriving DecidableEq, Repr, Inhabited

/-- What a parked bundle waits for. -/
inductive Wait where
  | none
  /-- Pending registers: the bundle issues again once none of them is pending (R57, R58). -/
  | reissue (mask : BitVec 32)
  | fetch (addr : Nat)
  | regMiss (regs : List Nat)
  /-- A long-latency result: of a divide, or none where only a V-op's is awaited. -/
  | long (dst : Option (Nat × Word))
  /-- HALT beside a long-latency V-op: the slot is HALTED once that result is written. -/
  | longHalt
  | mem (r : MemReq)
  | recv (mask : Nat) (vd : Nat) (acq : Bool)
  | trecv (vd : Nat)
  /-- A full job queue, with the job, and full kick slots, with the request (R225, R230). -/
  | jobFull (j : Job) (wait : Bool)
  | kickFull (r : CopyReq) (wait : Bool)
  /-- The completion of the token register of a .wait form (R245, R333). -/
  | engineToken (rd : Nat)
  /-- A ring reservation of QPUSH (R248). -/
  | reservation (ring : Nat) (r : MemReq)
  | barrier (group scope : Nat)
  deriving DecidableEq, Repr, Inhabited

/-- V-op results held until the bundle commits (R65). -/
structure Held where
  vregs : List (Nat × Vec)
  xreg : Option (Nat × Word)
  flags : BitVec 5
  deriving DecidableEq, Repr, Inhabited

def Held.none : Held := { vregs := [], xreg := .none, flags := 0 }

/-- A thread slot with the context it holds (R41, R45, R117). -/
structure Slot where
  state : SlotState
  /-- The state at save of a swapped context, or the state a stop interrupted. -/
  saved : SlotState
  pc : Word
  npc : Word
  x : Vector Word 32
  v : Vector Vec 32
  streams : Vector Stream 4
  pending : BitVec 32
  /-- sr.present: bit n for x register n, bit 32 + n for v register n (R48). -/
  present : Word
  prio : Nat
  inh : Bool
  clamp : Bool
  epc : Word
  cause : Word
  tval : Word
  estatus : Word
  tvec : Word
  arg0 : Word
  arg1 : Word
  done : Word
  groups : Word
  launch : Word
  round : Word
  fflags : BitVec 5
  modq : Word
  tkerr : Word
  logical : Word
  world : Nat
  lsbase : Word
  lsbound : Word
  bbcbase : Word
  ctxNum : Nat
  seeded : Bool
  codeLo : Nat
  codeHi : Nat
  alarm : Option Word
  undelivered : Option Word
  stopPending : Bool
  stepping : Bool
  /-- The cycle in which the last long-latency result in progress is written. -/
  longUntil : Nat
  sliceUsed : Nat
  /-- The cycle from which the slice counts, and the cycle of the last install (R118, R122). -/
  installedAt : Nat
  lastInstall : Nat
  waitSince : Nat
  wdogPosted : Bool
  wait : Wait
  held : Held
  /-- Streams that the parked bundle read, to be advanced at its commit (R94). -/
  streamsRead : BitVec 4
  /-- The bits of the bundle that a parked slot waits to commit. -/
  bundle : Word
  /-- Accumulator banks (R268) and whether later stores publish after a FENCE (R270). -/
  accCur : Sig
  accPrev : Sig
  fenceRel : Bool
  /-- Signatures that token registers carry until their first read (R273). -/
  tokenSigs : List (Nat × Sig)
  /-- Asynchronous requests not yet completed (R106). -/
  outstanding : Nat
  /-- TDONE has sent its counter add (R331), so the slot is no pre-emption candidate. -/
  addSent : Bool
  /-- A hard reset discards the context at its next issue turn (R292). -/
  doomed : Bool
  deriving DecidableEq, Repr, Inhabited

/-- A slot with no context: state EMPTY. -/
def Slot.reset : Slot :=
  { state := .empty, saved := .empty, pc := 0, npc := 0, x := Vector.replicate 32 0,
    v := Vector.replicate 32 0, streams := Vector.replicate 4 Stream.unbound, pending := 0,
    present := BitVec.allOnes 64, prio := 0, inh := false, clamp := false, epc := 0, cause := 0,
    tval := 0, estatus := 0, tvec := 0, arg0 := 0, arg1 := 0, done := 0, groups := 0, launch := 0,
    round := 0, fflags := 0, modq := 0, tkerr := 0, logical := 0, world := 0, lsbase := 0,
    lsbound := 0, bbcbase := 0, ctxNum := 0, seeded := false, codeLo := 0, codeHi := 0,
    alarm := .none, undelivered := .none, stopPending := false, stepping := false, longUntil := 0, sliceUsed := 0,
    installedAt := 0, lastInstall := 0, waitSince := 0, wdogPosted := false, wait := .none, held := Held.none,
    streamsRead := 0, bundle := 0, accCur := 0, accPrev := 0, fenceRel := false, tokenSigs := [],
    outstanding := 0, addSent := false, doomed := false }

/-- What a slot holds that nothing has been put into: slot 6 waits for a request (R47, R51). -/
def Slot.idle (k : Nat) : Slot := if k % 8 = 6 then { Slot.reset with state := .waitRecv } else Slot.reset

/-! ## The core -/

/-- A mailbox: its world and its messages in arrival order (R162). -/
structure Mailbox where
  owner : Option Nat
  msgs : List MailMsg
  deriving DecidableEq, Repr, Inhabited

/-- A waiter of a full/empty word (R157): its word, who it is and for which world, and how wide it reads. -/
structure Waiter where
  word : Nat
  who : ReplyTo
  world : Nat
  off : Nat
  size : Nat
  deriving DecidableEq, Repr, Inhabited

/-- An input channel (R404). -/
structure InChan where
  src : Nat
  f : Nat
  m : Nat
  declared : Bool
  /-- The register that the declaration completes, with its context. -/
  ctx : Nat
  reg : Nat
  deriving DecidableEq, Repr, Inhabited

/-- An output channel (R404, R431). -/
structure OutChan where
  core : Nat
  k : Nat
  f : Nat
  seq : Nat
  world : Nat
  deriving DecidableEq, Repr, Inhabited

/-- The stealing state of a core (R286): die of the ring being tried, requests sent there, and the
cycle at which the wait after a full failure ends. -/
structure Steal where
  active : Bool
  dieStep : Nat
  tries : Nat
  backoff : Option Nat
  deriving DecidableEq, Repr, Inhabited

/-- An instruction-cache line: world, line number of its virtual address, and its bundles. -/
structure ILine where
  world : Nat
  line : Nat
  bundles : List Word
  deriving DecidableEq, Repr, Inhabited

/-- A pin of a context on a line (R109). -/
structure IPin where
  core : Nat
  ctx : Nat
  world : Nat
  line : Nat
  deriving DecidableEq, Repr, Inhabited

/-- The result of a reduction on its way into its record (R421): the parts still to be written, each by its address, and
the token that is written once they are. -/
structure RedWrite where
  id : Nat
  num : Nat
  reg : Nat
  world : Nat
  lsbase : Nat
  lsbound : Nat
  parts : List (Nat × List Byte)
  acc : Option UnitAcc
  status : Word
  sig : Sig
  deriving DecidableEq, Repr, Inhabited

/-- A trace record of the current cycle: its slot, dword 0 without the delta, and the further dwords (R307 to R309). -/
structure TraceRec where
  slot : Nat
  head : Nat
  rest : List Word
  deriving DecidableEq, Repr, Inhabited

/-- A publication signature with its two banks (R268, R270). -/
structure PubSig where
  cur : Sig
  prev : Sig
  deriving DecidableEq, Repr, Inhabited

/-- One core (R151 to R168, R402 to R409, R306 to R311). -/
structure Core where
  /-- Local-store bytes, canonical as `State.mem` is. -/
  ls : List Host.Cell
  /-- Words whose full/empty bit says empty, rising (R155). -/
  emptyWords : List Nat
  waiters : List Waiter
  parkedLds : List Waiter
  /-- Per world, the share [base, bound) (R158). -/
  shares : NMap (Nat × Nat)
  svc : List ActiveMsg
  mesh : List ActiveMsg
  mail : Vector Mailbox 16
  /-- Slots blocked in RECV, by context number, oldest first (R164). -/
  recvq : List Nat
  /-- Resident task records, bottom first (R165). -/
  deque : List TaskRec
  spilled : List (List TaskRec)
  energy : Nat
  bankCycle : Nat
  bankMask : BitVec 8
  ctxNums : List Nat
  /-- Context numbers not yet reusable (R61). -/
  quarantined : List Nat
  icache : List ILine
  pins : List IPin
  pubSig : NMap PubSig
  redWrites : List RedWrite
  /-- By world. -/
  steal : NMap Steal
  -- local time
  ltWorld : Option Nat
  clock : Nat
  bound : Nat
  inCh : Vector (Option InChan) 8
  outCh : Vector (Option OutChan) 8
  events : List LtEvent
  trecvq : List Nat
  lastEvent : Option (Nat × Nat)
  atomSeq : Nat
  /-- Stamps of this core's atomics that no home has applied yet (R409). -/
  unapplied : List Nat
  -- observation
  trace : Word
  traceNext : Nat
  traceWraps : Nat
  traceLost : Nat
  traceLast : Nat
  /-- Records of this cycle, written at its end in slot order (R308); a value written to sr.trace in this cycle, which
  takes effect at the next (R306). -/
  tracePend : List TraceRec
  traceNew : Option Word
  dropped : Nat
  misses : Nat
  tlbMisses : Nat
  dieTlbMisses : Nat
  lateReplies : Nat
  softErrors : Nat
  msgDropped : Nat
  samples : Nat
  breakpoints : Vector (Option (Nat × Nat)) 4
  deriving DecidableEq, Repr, Inhabited

def Core.reset : Core :=
  { ls := [], emptyWords := [], waiters := [], parkedLds := [], shares := [], svc := [], mesh := [],
    mail := Vector.replicate 16 { owner := .none, msgs := [] }, recvq := [], deque := [],
    spilled := [], energy := 1024, bankCycle := 0, bankMask := 0, ctxNums := [],
    quarantined := [], icache := [], pins := [], pubSig := [], redWrites := [],
    steal := [],
    ltWorld := .none, clock := 0, bound := 0, inCh := Vector.replicate 8 .none,
    outCh := Vector.replicate 8 .none, events := [], trecvq := [], lastEvent := .none,
    atomSeq := 0, unapplied := [], trace := 0, traceNext := 128, traceWraps := 0,
    traceLost := 0, traceLast := 0, tracePend := [], traceNew := .none, dropped := 0, misses := 0, tlbMisses := 0, dieTlbMisses := 0,
    lateReplies := 0, softErrors := 0, msgDropped := 0, samples := 0,
    breakpoints := Vector.replicate 4 .none }

/-! ## The cluster -/

/-- A reservation request that waits at a ring (R249): a slot's QPUSH by core and context, a matrix
job by number, or the copy hart's request by number. -/
inductive RingReq where
  | slot (core num : Nat)
  | job (id : Nat)
  | copy (id : Nat)
  deriving DecidableEq, Repr, Inhabited

/-- A ring (R220, R221): its two dwords, the hidden counters, tiles published or retired out of
order, waiting reservation requests in order with their cycle and rank (R249), and configurations that wait
under R247 (core, context, token register, the requester's world and the word). -/
structure Ring where
  world : Nat
  cap : Nat
  tsz : Nat
  base : Nat
  head : Nat
  tail : Nat
  resv : Nat
  claim : Nat
  published : List Nat
  retired : List Nat
  waiting : List (Nat × Nat × RingReq)
  config : List (Nat × Nat × Nat × Nat × Word)
  deriving DecidableEq, Repr, Inhabited

def Ring.reset : Ring :=
  { world := 0, cap := 0, tsz := 0, base := 0, head := 0, tail := 0, resv := 0, claim := 0,
    published := [], retired := [], waiting := [], config := [] }

/-- Where the engine stands in its ramps (R229). -/
inductive Ramp where
  | idle
  | up (until_ : Nat) (warm : Nat)
  | on
  | warm (until_ : Nat)
  | down (until_ : Nat)
  deriving DecidableEq, Repr, Inhabited

/-- The matrix engine (R224 to R229): queues in issue order, the running and the paused job. -/
structure Engine where
  normal : List Job
  shadow : List Job
  running : Option Nat
  paused : Option Nat
  ramp : Ramp
  warmUntil : Nat
  lastCore : Nat
  deriving DecidableEq, Repr, Inhabited

/-- An idle engine. Core 0 of the cluster is served first, since the round-robin of R225 stands at core 7; mark DESIGN
CHOICE (log entry 112). -/
def Engine.reset : Engine :=
  { normal := [], shadow := [], running := .none, paused := .none, ramp := .idle, warmUntil := 0,
    lastCore := 7 }

/-- A context-cache entry or a spilled one (R119, R120). -/
structure CtxEntry where
  core : Nat
  slot : Slot
  lastUse : Nat
  lost : Bool
  /-- The cycle since which the context has been ready (R283, R284). -/
  since : Nat
  deriving DecidableEq, Repr, Inhabited

/-- A translation-buffer entry: world, first virtual address, page size and leaf (R300). -/
structure TlbEntry where
  world : Nat
  va : Nat
  size : Nat
  leaf : Word
  deriving DecidableEq, Repr, Inhabited

/-- A cached block counter (R310). -/
structure BlockCounter where
  world : Nat
  addr : Nat
  count : Nat
  deriving DecidableEq, Repr, Inhabited

/-- One cluster (R220 to R236, R300, R301, R310). -/
structure Cluster where
  store : List Host.Cell
  rings : Vector Ring 16
  engine : Engine
  kicks : List CopyReq
  stagger : Word
  cache : List CtxEntry
  spilled : List CtxEntry
  tlb : List TlbEntry
  bbc : List BlockCounter
  pins : List IPin
  /-- Misses that wait in the cluster for the miss table: world, address and who waits (R301). -/
  missQueue : List (Nat × Nat × ReplyTo)
  /-- The cluster instruction cache of 64 KiB, the last line used first (R1, R108). -/
  icache : List ILine
  /-- Errors corrected in the cluster's storage (R236). -/
  softErrors : Nat
  /-- Graph-send packets that the copy hart is working on (R424). -/
  dests : List GDest
  deriving DecidableEq, Repr, Inhabited

def Cluster.reset : Cluster :=
  { store := [], rings := Vector.replicate 16 Ring.reset, engine := Engine.reset, kicks := [],
    stagger := 0, cache := [], spilled := [], tlb := [], bbc := [], pins := [], missQueue := [], icache := [], softErrors := 0, dests := [] }

/-! ## The die -/

/-- A copy in the remote-data cache (R261). -/
structure RdcLine where
  /-- Global line number: module × 2^42 + pa / 64. -/
  line : Nat
  /-- The world that the plaintext line is tagged with (R347). -/
  world : Nat
  data : List Byte
  filled : Nat
  deriving DecidableEq, Repr, Inhabited

/-- A fill in flight (R261): the value the home served, who waits, and whether it may be installed. -/
structure RdcFill where
  line : Nat
  world : Nat
  data : List Byte
  install : Bool
  waiters : List ReplyTo
  /-- The number that a fill from another module is known by. -/
  id : Nat
  deriving DecidableEq, Repr, Inhabited

/-- An entry of the miss table (R301): its walker while a walk is in progress, whether a TBINV has overtaken it, and
who waits. -/
structure MissEntry where
  world : Nat
  key : Nat
  /-- The address of the first miss: its walk indexes the last level by it (R296). -/
  va : Nat
  /-- The cluster that the entry counts against. -/
  cluster : Nat
  walker : Option Nat
  stale : Bool
  /-- The place in the order of joining, the cluster, and who waits (R302). -/
  waiters : List (Nat × Nat × ReplyTo)
  deriving DecidableEq, Repr, Inhabited

/-- A TBINV that waits for the accesses that used a dropped entry (R339): who issued it, the world, the cycle and
the pages dropped; and what engines and gateways had on its way for that world then: unit accesses, STTK stores by die,
generation and sequence, and dependent stores. -/
structure TbInv where
  core : Nat
  ctx : Nat
  reg : Nat
  world : Nat
  since : Nat
  pages : List (Nat × Nat)
  accs : List UnitAcc
  toks : List (Nat × Nat × Nat)
  deps : List DepStore
  deriving DecidableEq, Repr, Inhabited

/-- A hatbox record (R368). -/
structure HatRec where
  cycle : Nat
  kind : Nat
  code : Nat
  endpoint : Nat
  where_ : Word
  detail : Word
  deriving DecidableEq, Repr, Inhabited

/-- The state of a tag (R382). -/
inductive TagUse where
  | free
  | live (who : ReplyTo) (module : Nat) (deadline : Nat)
  | quarantine (until_ : Nat)
  deriving DecidableEq, Repr, Inhabited

structure Tag where
  gen : Nat
  use : TagUse
  /-- The core whose request drew the tag last (R307). -/
  core : Option Nat := none
  deriving DecidableEq, Repr, Inhabited

def Tag.reset : Tag := { gen := 0, use := .free }

/-- A request parked at this die's target side, for which hold replies are sent (R382). -/
structure ParkedReq where
  n : Nat
  module : Nat
  die : Nat
  idx : Nat
  gen : Nat
  deriving DecidableEq, Repr, Inhabited

/-- A reduction slot (R384). -/
inductive RedState where
  | free | opened | done
  deriving DecidableEq, Repr, Inhabited

structure RedSlot where
  state : RedState
  gen : Nat
  world : Nat
  module : Nat
  op : Nat
  ty : Nat
  prop : Bool
  ord : Bool
  n : Nat
  deadline : Nat
  /-- Recorded contributions in arrival order. -/
  arrived : List Contribution
  /-- A contribution was withdrawn under R388. -/
  lost : Bool
  deriving DecidableEq, Repr, Inhabited

def RedSlot.reset : RedSlot :=
  { state := .free, gen := 0, world := 0, module := 0, op := 0, ty := 0, prop := false,
    ord := false, n := 0, deadline := 0, arrived := [], lost := false }

/-- A sequence space of a complex (R393, R394, R397). -/
structure TokSpace where
  alloc : Nat
  mark : Nat
  /-- Sequences above the watermark that have landed or failed. -/
  settled : List Nat
  windows : List (Nat × Nat)
  landed : PubSig
  deriving DecidableEq, Repr, Inhabited

/-- An entry of the token table (R393, R397): an STTK that has not resolved, and its noted holders. -/
structure TokEntry where
  world : Nat
  pgen : Nat
  seq : Nat
  core : Nat
  ctx : Nat
  /-- The store: where it goes, its bytes, and the signature that a release carries. -/
  tgt : Target
  data : List Byte
  rel : Bool
  sig : Sig
  /-- The store has been performed at its home; its done reply is on its way. -/
  performed : Bool
  /-- The complexes that hold stores with this token: module × 16 + die. -/
  holders : List Nat
  deriving DecidableEq, Repr, Inhabited

/-- A held dependent store (R398). -/
structure Sluiced where
  n : Nat
  store : DepStore
  expiry : Nat
  deriving DecidableEq, Repr, Inhabited

/-- A keyed atomic that its home holds (R409): the context that waits, and its access. -/
structure KeyedAtomic where
  t : Nat
  s : Nat
  q : Nat
  launch : Nat
  core : Nat
  ctx : Nat
  pa : Nat
  req : MemReq
  /-- An atomic of another module: the world that admits it here, and its packet (R383). -/
  away : Option (Nat × Packet)
  deriving DecidableEq, Repr, Inhabited

/-- One direction pair of a port's link (R371 to R375). -/
structure Link where
  up : Bool
  key : List Word
  /-- Nonce counter of the next first transmission. -/
  counter : Nat
  seq : Nat
  expect : Nat
  /-- Replay buffer: sequence, counter, whether the flit ends its packet, and the flit. -/
  replay : List (Nat × Nat × Bool × List Word)
  /-- Packets that wait for credit, with the cycle since which they wait. -/
  queue : List (Nat × Packet)
  /-- Flits of a packet that has not come in full. -/
  rx : List (List Word)
  /-- Frames handed to the lanes, oldest first. -/
  wire : List Frame
  fails : Nat
  resyncFails : Nat
  accepted : Nat
  stopped : Bool
  deriving DecidableEq, Repr, Inhabited

def Link.reset : Link :=
  { up := false, key := [], counter := 0, seq := 0, expect := 0, replay := [], queue := [], rx := [],
    wire := [], fails := 0, resyncFails := 0, accepted := 0, stopped := false }

/-- A path-table entry's path (R379). -/
structure Path where
  hops : List Nat
  valid : Bool
  deriving DecidableEq, Repr, Inhabited

/-- A floor report held by a die (R409): core, bound and launch. -/
structure FloorRec where
  core : Nat
  bound : Nat
  launch : Nat
  deriving DecidableEq, Repr, Inhabited

/-- One die with its gateway complex. -/
structure Die where
  rdc : List RdcLine
  fills : List RdcFill
  /-- Lines of other modules with a store of this die on its way, by the tag of the store and the global line number: no
  fill of one is installed (R261). -/
  storing : List (Nat × Nat)
  tlb : List TlbEntry
  miss : List MissEntry
  /-- The cluster whose miss was admitted last, for the turn of the clusters while the table is full (R301). It is 4,095 at
  reset, so that cluster 0 comes first; mark DESIGN CHOICE (log entry 112). -/
  missTurn : Nat
  /-- Pointer entries that walks have read, by world and physical address, the last used first (R301). -/
  ptrs : List (Nat × Nat)
  tbinvs : List TbInv
  hatbox : List HatRec
  tags : NMap Tag
  /-- Requests that wait for a free tag, in order (R382). -/
  tagQueue : List ReplyTo
  /-- Dependent stores sent to other modules, by their tag, for the answer that a sluice is full (R396). -/
  sentDeps : NMap DepStore
  parked : List ParkedReq
  red : NMap RedSlot
  spaces : NMap TokSpace
  tokens : List TokEntry
  sluice : List Sluiced
  sluiceNext : Nat
  marks : List (Nat × Nat)
  keyed : List KeyedAtomic
  floors : List FloorRec
  pubSig : NMap PubSig
  /-- Paths by 4 × module + index, and changes that wait under R381. -/
  paths : NMap Path
  pathChanges : List (Nat × Path)
  /-- Per level, the pair (polder, queue) served last (R282). -/
  lastServed : NMap (Nat × Nat)
  urgent : List TaskRec
  dropped : Nat
  /-- Errors corrected, and copies fetched again, in the home cache and the remote-data cache (R275). -/
  softErrors : Nat
  deriving DecidableEq, Repr, Inhabited

def Die.reset : Die :=
  { rdc := [], fills := [], storing := [], tlb := [], miss := [], missTurn := 4095, ptrs := [], tbinvs := [], hatbox := [], tags := [], tagQueue := [], sentDeps := [], parked := [],
    red := [], spaces := [], tokens := [], sluice := [], sluiceNext := 0, marks := [], keyed := [],
    floors := [], pubSig := [], paths := [], pathChanges := [],
    lastServed := [], urgent := [], dropped := 0, softErrors := 0 }

/-! ## Polders -/

inductive PolderState where
  | free | forming | live | draining
  deriving DecidableEq, Repr, Inhabited

/-- A peer entry (R350). -/
structure Peer where
  smod : Nat
  sworld : Nat
  ls : Bool
  ra : Bool
  w : Bool
  r : Bool
  count : Nat
  first : Nat
  deriving DecidableEq, Repr, Inhabited

/-- A launch queue (R276, R364). -/
structure Queue where
  configured : Bool
  base : Nat
  size : Nat
  leader : Nat
  read : Nat
  tail : Nat
  stopped : Bool
  soft : Bool
  /-- Records that a link has made eligible and that wait for a handle, with the loop node whose body they are (R280,
  R289). -/
  links : List (Nat × Option Nat)
  deriving DecidableEq, Repr, Inhabited

def Queue.reset : Queue :=
  { configured := false, base := 0, size := 0, leader := 0, read := 0, tail := 0, stopped := false,
    soft := false, links := [] }

/-- The launch states of R278. -/
inductive LaunchState where
  | queued | waiting | running | done | cancelled | aborted | refused
  deriving DecidableEq, Repr, Inhabited

/-- A live launch (R277, R280). -/
structure Launch where
  handle : Nat
  queue : Nat
  addr : Nat
  kind : Nat
  prio : Nat
  count : Nat
  target : Nat
  arg0 : Word
  done : Nat
  first : Nat
  last : Nat
  /-- Group entries: index, first, last, step, gang (R279). -/
  groups : List (Nat × Nat × Nat × Nat × Bool)
  linka : Nat
  linkb : Nat
  waits : Nat
  state : LaunchState
  eligible : Bool
  /-- How many tasks have been seeded, the next task that each die looks at, and the live-task count (R281,
  R331). -/
  next : Nat
  seededAt : NMap Nat
  live : Nat
  /-- The number of the choice that started the record, and sr.split as it was accepted under (R282, R293). -/
  chosen : Nat
  split : Word
  gangPlaced : Bool
  /-- The loop node whose body this record is (R289). -/
  loopOf : Option Nat
  since : Nat
  order : Nat
  deriving DecidableEq, Repr, Inhabited

/-- Whether the host places the tasks of a launch (R294). -/
def Launch.place (l : Launch) : Bool := l.split.getLsbD 2

/-- A group's barrier (R234, R255). -/
structure Barrier where
  launch : Nat
  group : Nat
  gen : Nat
  /-- Task index, core, context number and GBAR scope of each arrival. -/
  arrived : List (Nat × Nat × Nat × Nat)
  ended : List Nat
  sig : Sig
  deriving DecidableEq, Repr, Inhabited

/-- Where a migration stands (R365, R366). -/
inductive MigState where
  | none | prepared | transferring | staged | erased | orphaned
  deriving DecidableEq, Repr, Inhabited

/-- One polder (R45, R345). -/
structure Polder where
  state : PolderState
  gen : Nat
  peers : List Peer
  /-- K1, K2, KI and whether they were generated rather than installed. -/
  keys : Option (BitVec 256 × BitVec 256 × BitVec 256 × Bool)
  drain : Nat
  tbase : Word
  ptbase : Word
  hvec : Word
  split : Word
  slice : Word
  ageLimit : Word
  tkExpiry : Word
  wdog : Word
  /-- Core keys of the logical cores, in order (R257). -/
  cores : List Nat
  queues : Vector Queue 8
  launches : List Launch
  barriers : List Barrier
  code : List (Nat × Nat)
  /-- VF registers: host-routed fault records, oldest first (R364). -/
  faults : List (List Word)
  resetReg : BitVec 8
  hresetReg : BitVec 8
  ignored : Nat
  sessions : Nat
  mig : MigState
  orchestrator : List Word
  windowSecs : Nat
  refusedSigs : Nat
  deriving DecidableEq, Repr, Inhabited

def Polder.reset : Polder :=
  { state := .free, gen := 0, peers := [], keys := .none, drain := 0, tbase := 0, ptbase := 0,
    hvec := 0, split := 0, slice := 0x10000, ageLimit := 0x40000, tkExpiry := 0x100000,
    wdog := 0x1000000, cores := [], queues := Vector.replicate 8 Queue.reset, launches := [],
    barriers := [], code := [], faults := [], resetReg := 0, hresetReg := 0, ignored := 0,
    sessions := 0, mig := .none, orchestrator := [], windowSecs := 600, refusedSigs := 0 }

/-! ## The steward -/

/-- The steward and the module's fixed parts (R356 to R368). -/
structure Steward where
  booted : Bool
  bootStage : Nat
  boots : Nat
  measurements : List (List Word)
  /-- Fused minimum version of each stage (R359). -/
  fuses : NMap Nat
  tripPin : Bool
  reports : List Word
  sessions0 : Nat
  /-- Fault records posted by R114: endpoint, pc, cause, tval. -/
  posted : List (Nat × Word × Word × Word)
  deriving DecidableEq, Repr, Inhabited

/-- A line written to HBM (R347): ciphertext, tag and fresh bit. -/
structure HbmLine where
  cipher : List Byte
  tag : BitVec 56
  deriving DecidableEq, Repr, Inhabited

/-- What an error has struck (R121, R168, R236, R275): a word of a local store, a home line, a tile, a context's entry,
the oldest message of a mailbox, the bottom-most record of a world in a deque, a copy, a job in a queue, a request in a
kick slot, the state of a ring. -/
inductive Place where
  | ls (core word : Nat)
  | home (line : Nat)
  | store (cluster tile : Nat)
  | ctx (core num : Nat)
  | mail (core mbox : Nat)
  | deque (core world : Nat)
  | copy (die line : Nat)
  | job (cluster id : Nat)
  | kick (cluster id : Nat)
  | ring (cluster ring : Nat)
  deriving DecidableEq, Repr, Inhabited

/-! ## The issuing bundle -/

/-- What the step keeps while one bundle issues: registers as they stood at issue for the second
half (R65, R101), and the fault-priority row of a trap that a half took (R67). -/
structure Issue where
  snap : Option Slot
  prio : Option Nat
  /-- The streams that the bundle reads and that advance at its end (R94). -/
  reads : BitVec 4 := 0
  deriving DecidableEq, Repr, Inhabited

/-! ## The whole state -/

structure State where
  /-- Cycles since reset: sr.cycle of every core (R52). -/
  cycle : Nat
  /-- Position in the issue order of the cores within the cycle. -/
  cursor : Nat
  /-- Events due, by cycle, earliest first. -/
  agenda : List (Nat × Event)
  /-- Counter of the free values. -/
  free : Nat
  /-- The issuing slot. -/
  cur : Nat
  iss : Issue
  moduleNo : Nat
  slots : NMap Slot
  cores : NMap Core
  clusters : NMap Cluster
  dies : NMap Die
  polders : NMap Polder
  links : NMap Link
  /-- Home memory: physical bytes, addresses rising, no entry equal to 0. -/
  mem : List Host.Cell
  /-- Lines sealed in HBM and in no home cache (R347). -/
  hbm : NMap HbmLine
  /-- Places with an error that ECC cannot correct, and places with a single-bit error (R168, R236, R275). -/
  poison : List Place
  flipped : List Place
  /-- Owner of each granule that has one (R344). -/
  granules : NMap Nat
  downLinks : List (Nat × Nat)
  steward : Steward
  /-- The last value that a debug access or the host read. -/
  readOut : Word
  nextId : Nat
  deriving DecidableEq, Repr, Inhabited

/-- Why the machine stops. No step of this model ends in a fault. -/
inductive Fault where
  /-- Raised by nothing: every behaviour the manual gives the device is a next state. Safe. -/
  | noFault
  deriving DecidableEq, Repr

/-- Why an instruction has no meaning. -/
inductive Refusal where
  /-- Raised by a dispatch arm that has no meaning yet. Safe. -/
  | notModelled (mnemonic : String)
  deriving DecidableEq, Repr

def Steward.reset : Steward :=
  { booted := true, bootStage := 3, boots := 0,
    measurements := [Config.imageDigest 0 0, Config.imageDigest 1 0, Config.imageDigest 2 0, Config.imageDigest 3 0], fuses := [], tripPin := false,
    reports := [], sessions0 := 0, posted := [] }

/-- The module right after reset: nothing installed, nothing listed in memory, every polder FREE. -/
def State.reset : State :=
  { cycle := 0, cursor := 0, agenda := [], free := 0, cur := 0,
    iss := { snap := .none, prio := .none }, moduleNo := 0, slots := [], cores := [],
    clusters := [], dies := [], polders := [], links := [], mem := [], hbm := [], poison := [], flipped := [],
    granules := [], downLinks := [], steward := Steward.reset, readOut := 0,
    nextId := 0 }

end Sys2Proof.Machine
end

