-- ==== Sys2Proof/Machine/Bytes.lean ====
section
/-! DEFINITION. Sparse tables, memory cells and byte order. A table is kept with its keys rising;
memory lists no byte equal to 0, which is what an unlisted address reads as. -/

namespace Sys2Proof.Machine

/-! ## Sparse tables -/

def NMap.find {α : Type} : NMap α → Nat → Option α
  | [], _ => none
  | (a, v) :: m, k => if a = k then some v else NMap.find m k

def NMap.erase {α : Type} : NMap α → Nat → NMap α
  | [], _ => []
  | (a, v) :: m, k => if a = k then NMap.erase m k else (a, v) :: NMap.erase m k

/-- Insert before the first greater key. -/
def NMap.ins {α : Type} : NMap α → Nat → α → NMap α
  | [], k, v => [(k, v)]
  | (a, w) :: m, k, v => if k < a then (k, v) :: (a, w) :: m else (a, w) :: NMap.ins m k v

def NMap.set {α : Type} (m : NMap α) (k : Nat) (v : α) : NMap α := (m.erase k).ins k v

/-! ## Memory cells -/

/-- The byte at an address: 0 where none is listed. -/
def cellGet (m : List Host.Cell) (a : Nat) : Byte := (NMap.find m a).getD 0

/-- Write one byte, keeping the canonical form. -/
def cellSet (m : List Host.Cell) (a : Nat) (b : Byte) : List Host.Cell :=
  if b = 0 then NMap.erase m a else NMap.set m a b

/-- `n` bytes from address `a` up. -/
def cellRead (m : List Host.Cell) (a : Nat) : Nat → List Byte
  | 0 => []
  | n + 1 => cellGet m a :: cellRead m (a + 1) n

/-- Write bytes from address `a` up. -/
def cellWrite (m : List Host.Cell) (a : Nat) : List Byte → List Host.Cell
  | [] => m
  | b :: bs => cellWrite (cellSet m a b) (a + 1) bs

/-- Keys strictly above `lo`, strictly rising, no byte 0. -/
def cellsFrom : Option Nat → List Host.Cell → Bool
  | _, [] => true
  | lo, (a, b) :: m => (match lo with | none => true | some l => decide (l < a)) && b != 0 && cellsFrom (some a) m

/-- The canonical form of a memory: addresses strictly rising and no listed byte 0. -/
def Memory.wf (m : List Host.Cell) : Bool := cellsFrom none m

/-! ## Little-endian bytes (R7) -/

/-- The number that bytes hold, lowest first. -/
def leNat : List Byte → Nat
  | [] => 0
  | b :: bs => b.toNat + 256 * leNat bs

/-- The `n` low bytes of a number, lowest first. -/
def toLe (v : Nat) : Nat → List Byte
  | 0 => []
  | n + 1 => BitVec.ofNat 8 v :: toLe (v / 256) n

/-- Bytes as a dword. -/
def leWord (bs : List Byte) : Word := BitVec.ofNat 64 (leNat bs)

/-- Bytes as a vector register. -/
def leVec (bs : List Byte) : Vec := BitVec.ofNat 128 (leNat bs)

/-- Dwords as bytes. -/
def wordBytes (ws : List Word) : List Byte := ws.flatMap (fun w => toLe w.toNat 8)

/-- Bytes as dwords. -/
def toWords : List Byte → Nat → List Word
  | _, 0 => []
  | bs, n + 1 => leWord (bs.take 8) :: toWords (bs.drop 8) n

/-- `lane(v, i, w)` of R77. -/
def lane (v : Vec) (i w : Nat) : Nat := (v.toNat >>> (i * w)) % 2 ^ w

/-- The vector whose lanes, lowest first, are the listed numbers. -/
def ofLanes (w : Nat) : List Nat → Nat
  | [] => 0
  | a :: as => a % 2 ^ w + 2 ^ w * ofLanes w as

def vecOf (w : Nat) (as : List Nat) : Vec := BitVec.ofNat 128 (ofLanes w as)

/-- The lanes of a vector, lowest first. -/
def lanes (v : Vec) (w : Nat) : List Nat := (List.range (128 / w)).map (fun i => lane v i w)

/-- A number of `w` bits read as two's complement. -/
def signedOf (w a : Nat) : Int := if a < 2 ^ (w - 1) then (a : Int) else (a : Int) - 2 ^ w

/-- An integer as a `w`-bit pattern. -/
def wrapTo (w : Nat) (e : Int) : Nat := (e % (2 ^ w : Int)).toNat

/-- Replace the element of a list at a place. -/
def setAt {α : Type} : List α → Nat → α → List α
  | [], _, _ => []
  | _ :: as, 0, v => v :: as
  | a :: as, n + 1, v => a :: setAt as n v

/-- Keep the last `n` elements. -/
def lastN {α : Type} (n : Nat) (l : List α) : List α := l.drop (l.length - n)

end Sys2Proof.Machine
end

