-- ==== Sys2Proof/Machine/Crypto.lean ====
section
/-! DEFINITION. The published algorithms that the seal units and the graph hash use: AES-256 in XTS mode
and KMAC256 (19 R347), SHAKE256 (16 R324). -/

namespace Sys2Proof.Machine

/-! ## AES-256 -/

/-- A product by x in the field of AES. -/
def xtime (a : Byte) : Byte := (a <<< 1) ^^^ (if a.msb then 0x1B else 0)

def gfMul (a b : Byte) : Nat → Byte
  | 0 => 0
  | n + 1 => (if b.getLsbD 0 then a else 0) ^^^ gfMul (xtime a) (b >>> 1) n

def gfPow (a acc : Byte) (e : Nat) : Nat → Byte
  | 0 => acc
  | n + 1 => gfPow (gfMul a a 8) (if e % 2 = 1 then gfMul acc a 8 else acc) (e / 2) n

/-- The inverse in the field, 0 for 0. -/
def gfInv (a : Byte) : Byte := gfPow a 1 254 8

def aesSub (a : Byte) : Byte :=
  let b := gfInv a
  b ^^^ b.rotateLeft 1 ^^^ b.rotateLeft 2 ^^^ b.rotateLeft 3 ^^^ b.rotateLeft 4 ^^^ 0x63

def aesSubInv (a : Byte) : Byte := gfInv (a.rotateLeft 1 ^^^ a.rotateLeft 3 ^^^ a.rotateLeft 6 ^^^ 0x05)

def xorBytes (a b : List Byte) : List Byte := List.zipWith (· ^^^ ·) a b

/-- Round-key words in reverse order, newest first, grown until word `i + n`. -/
def aesExpand (i : Nat) (rc : Byte) (ws : List (List Byte)) : Nat → List (List Byte)
  | 0 => ws
  | n + 1 =>
    let t := (ws[0]?).getD []
    let u :=
      if i % 8 = 0 then xorBytes ((t.drop 1 ++ t.take 1).map aesSub) [rc, 0, 0, 0]
      else if i % 8 = 4 then t.map aesSub else t
    aesExpand (i + 1) (if i % 8 = 0 then xtime rc else rc) (xorBytes ((ws[7]?).getD []) u :: ws) n

/-- The fifteen round keys of a 32-byte key. -/
def aesKeys (key : List Byte) : List (List Byte) :=
  let ws := (aesExpand 8 1 ((List.range 8).map (fun i => (key.drop (4 * i)).take 4)).reverse 52).reverse
  (List.range 15).map (fun r => ((ws.drop (4 * r)).take 4).flatten)

def byteAt (st : List Byte) (i : Nat) : Byte := (st[i]?).getD 0

def shiftRows (st : List Byte) : List Byte :=
  (List.range 16).map (fun i => byteAt st ((i % 4) + 4 * ((i / 4 + i % 4) % 4)))

def shiftRowsInv (st : List Byte) : List Byte :=
  (List.range 16).map (fun i => byteAt st ((i % 4) + 4 * ((i / 4 + 4 - i % 4) % 4)))

/-- One column product with the circulant row `k`. -/
def mixWith (k : List Byte) (st : List Byte) : List Byte :=
  (List.range 16).map (fun i =>
    (List.range 4).foldl (fun a j =>
      a ^^^ gfMul (byteAt st (i / 4 * 4 + j)) (byteAt k ((j + 4 - i % 4) % 4)) 8) 0)

def aesEncrypt (keys : List (List Byte)) (b : List Byte) : List Byte :=
  let k (i : Nat) := (keys[i]?).getD []
  let s0 := xorBytes b (k 0)
  let s1 := (List.range 13).foldl (fun s r =>
    xorBytes (mixWith [2, 3, 1, 1] (shiftRows (s.map aesSub))) (k (r + 1))) s0
  xorBytes (shiftRows (s1.map aesSub)) (k 14)

def aesDecrypt (keys : List (List Byte)) (b : List Byte) : List Byte :=
  let k (i : Nat) := (keys[i]?).getD []
  let s0 := (shiftRowsInv (xorBytes b (k 14))).map aesSubInv
  let s1 := (List.range 13).foldl (fun s r =>
    (shiftRowsInv (mixWith [14, 11, 13, 9] (xorBytes s (k (13 - r))))).map aesSubInv) s0
  xorBytes s1 (k 0)

/-- The next tweak of XTS. -/
def xtsNext (t : List Byte) : List Byte :=
  let v := leNat t * 2
  toLe (if v < 2 ^ 128 then v else (v % 2 ^ 128) ^^^ 0x87) 16

/-- XTS over the whole blocks of one data unit. -/
def xtsBlocks (f : List Byte → List Byte) (t data : List Byte) : Nat → List Byte
  | 0 => []
  | n + 1 => xorBytes (f (xorBytes (data.take 16) t)) t ++ xtsBlocks f (xtsNext t) (data.drop 16) n

/-- AES-256-XTS of a 64-byte data unit. -/
def xtsEncrypt (k1 k2 : List Byte) (tweak : Nat) (line : List Byte) : List Byte :=
  xtsBlocks (aesEncrypt (aesKeys k1)) (aesEncrypt (aesKeys k2) (toLe tweak 16)) line 4

def xtsDecrypt (k1 k2 : List Byte) (tweak : Nat) (line : List Byte) : List Byte :=
  xtsBlocks (aesDecrypt (aesKeys k1)) (aesEncrypt (aesKeys k2) (toLe tweak 16)) line 4

/-! ## Keccak -/

def laneAt (st : List Word) (i : Nat) : Word := (st[i]?).getD 0

/-- The register of the round constants moves on: a product by x modulo x^8 + x^6 + x^5 + x^4 + 1. -/
def rcStep (r : Byte) : Byte := (r <<< 1) ^^^ (if r.msb then 0x71 else 0)

/-- A round constant from seven bits of the register, which stand at the places 2^j − 1; with the register after them. -/
def rcNext (r : Byte) : Word × Byte :=
  (List.range 7).foldl (fun p j => (if p.2.getLsbD 0 then p.1 ^^^ ((1 : Word) <<< (2 ^ j - 1)) else p.1, rcStep p.2)) (0, r)

/-- The mixing of columns: each lane takes the sums of the columns beside its own. -/
def mixColumns (st : List Word) : List Word :=
  let sum (x : Nat) : Word := (List.range 5).foldl (fun a y => a ^^^ laneAt st (x % 5 + 5 * y)) 0
  let effect := (List.range 5).map (fun x => sum (x + 4) ^^^ (sum (x + 1)).rotateLeft 1)
  (List.range 25).map (fun i => laneAt st i ^^^ laneAt effect (i % 5))

/-- Where the lane x + 5 y goes. -/
def laneMoves (i : Nat) : Nat := i / 5 + 5 * ((2 * (i % 5) + 3 * (i / 5)) % 5)

/-- The lanes move round one cycle of 24 places; the one that makes move t is rotated by the triangular number of t + 1. -/
def moveLanes (st : List Word) : List Word :=
  ((List.range 24).foldl (fun p t =>
    let j := laneMoves p.1
    (j, p.2.set j ((laneAt st p.1).rotateLeft ((t + 1) * (t + 2) / 2 % 64)))) (1, st)).2

/-- Each lane of a row takes the next one's complement masked by the one after. -/
def mixRows (st : List Word) : List Word :=
  (List.range 25).map (fun i =>
    let row := i / 5 * 5
    laneAt st i ^^^ (laneAt st ((i + 2) % 5 + row) &&& ~~~laneAt st ((i + 1) % 5 + row)))

/-- The permutation: 24 rounds. -/
def keccakF (st : List Word) : List Word :=
  ((List.range 24).foldl (fun p _ =>
    let (rc, r) := rcNext p.2
    let out := mixRows (moveLanes (mixColumns p.1))
    (out.set 0 (laneAt out 0 ^^^ rc), r)) (st, 1)).1

/-- Absorb whole blocks of 136 bytes. -/
def absorb (st : List Word) (bs : List Byte) : Nat → List Word
  | 0 => st
  | n + 1 =>
    let blk := toWords (bs.take 136) 17 ++ List.replicate 8 0
    absorb (keccakF (List.zipWith (· ^^^ ·) st blk)) (bs.drop 136) n

/-- The sponge of rate 136 with suffix byte `suf`; at most 136 bytes of output. -/
def sponge256 (suf : Byte) (msg : List Byte) (out : Nat) : List Byte :=
  let pad := 136 - msg.length % 136
  let padded :=
    if pad = 1 then msg ++ [suf ||| 0x80] else msg ++ [suf] ++ List.replicate (pad - 2) 0 ++ [0x80]
  (wordBytes (absorb (List.replicate 25 0) padded (padded.length / 136))).take out

def shake256 (msg : List Byte) (out : Nat) : List Byte := sponge256 0x1F msg out

/-- The bytes of a number, highest first, at least one. -/
def beBytes (n : Nat) : List Byte :=
  let k := Nat.max 1 ((List.range 8).foldl (fun a i => if 256 ^ i ≤ n then i + 1 else a) 0)
  (toLe n k).reverse

def leftEncode (n : Nat) : List Byte := BitVec.ofNat 8 (beBytes n).length :: beBytes n
def rightEncode (n : Nat) : List Byte := beBytes n ++ [BitVec.ofNat 8 (beBytes n).length]
def encodeString (bs : List Byte) : List Byte := leftEncode (8 * bs.length) ++ bs
def bytepad (bs : List Byte) (w : Nat) : List Byte :=
  let z := leftEncode w ++ bs
  z ++ List.replicate ((w - z.length % w) % w) 0

/-- KMAC256 with an empty customization string; `bits` is L, a multiple of 8. -/
def kmac256 (key msg : List Byte) (bits : Nat) : List Byte :=
  let name : List Byte := [0x4B, 0x4D, 0x41, 0x43]
  let x := bytepad (encodeString key) 136 ++ msg ++ rightEncode bits
  sponge256 0x04 (bytepad (encodeString name ++ encodeString []) 136 ++ x) (bits / 8)

end Sys2Proof.Machine
end

