-- ==== Sys2Proof/Machine/Flags.lean ====
section
/-! DEFINITION. Floating-point formats, rounding and the flags that a rounding raises (05 R128,
R131, R132, R133). -/

namespace Sys2Proof.Machine

/-! ## The flags of sr.fflags (R48) -/

def flNX : BitVec 5 := 0b00001
def flUF : BitVec 5 := 0b00010
def flOF : BitVec 5 := 0b00100
def flDZ : BitVec 5 := 0b01000
def flNV : BitVec 5 := 0b10000

/-- A flag where a condition holds. -/
def flagIf (c : Bool) (f : BitVec 5) : BitVec 5 := if c then f else 0

/-! ## Formats (R128) -/

/-- How a format treats values above its largest finite one: by R131, or by R133 with or without an
infinity. -/
inductive FmtKind where
  | ieee | e5m2 | e4m3
  deriving DecidableEq, Repr

structure Fmt where
  ew : Nat
  mw : Nat
  bias : Nat
  kind : FmtKind
  deriving DecidableEq, Repr

def Fmt.f64 : Fmt := ⟨11, 52, 1023, .ieee⟩
def Fmt.f32 : Fmt := ⟨8, 23, 127, .ieee⟩
def Fmt.f16 : Fmt := ⟨5, 10, 15, .ieee⟩
def Fmt.bf16 : Fmt := ⟨8, 7, 127, .ieee⟩
def Fmt.e5m2 : Fmt := ⟨5, 2, 15, .e5m2⟩
def Fmt.e4m3 : Fmt := ⟨4, 3, 7, .e4m3⟩

namespace Fmt

def width (f : Fmt) : Nat := 1 + f.ew + f.mw
/-- Pattern of the sign bit. -/
def signBit (f : Fmt) : Nat := 2 ^ (f.ew + f.mw)
/-- The exponent field of all ones, fraction 0. -/
def infPat (f : Fmt) : Nat := (2 ^ f.ew - 1) * 2 ^ f.mw
/-- Pattern of the largest finite value. -/
def maxPat (f : Fmt) : Nat := match f.kind with | .e4m3 => 0x7E | _ => f.infPat - 1
/-- The canonical quiet NaN (R129). -/
def nanPat (f : Fmt) : Nat := match f.kind with | .ieee => f.infPat + 2 ^ (f.mw - 1) | .e5m2 => 0x7E | .e4m3 => 0x7F
/-- Exponent of the smallest subnormal's unit. -/
def unitExp (f : Fmt) : Int := 1 - (f.bias : Int) - (f.mw : Int)

end Fmt

/-- A pattern with a sign. -/
def withSign (f : Fmt) (neg : Bool) (p : Nat) : Nat := if neg then f.signBit + p else p

/-! ## Rounding (R131) -/

/-- Rounding modes of sr.round (R48): 0 nearest even, 1 toward zero, 2 down, 3 up. -/
abbrev RMode := Nat

def rne : RMode := 0

def bitLen (m : Nat) : Nat := if m = 0 then 0 else Nat.log2 m + 1

/-- Whether a magnitude with quotient `q`, remainder `r` of `2^k` rounds away from zero. -/
def roundsUp (rm : RMode) (neg : Bool) (q r k : Nat) : Bool :=
  if k = 0 ∨ r = 0 then false
  else if rm = 0 then decide (2 ^ (k - 1) < r) || (decide (r = 2 ^ (k - 1)) && decide (q % 2 = 1))
  else if rm = 1 then false
  else if rm = 2 then neg
  else !neg

/-- The magnitude `m × 2^e` in units of `2^q`, rounded; and whether it is inexact. -/
def roundUnits (rm : RMode) (neg : Bool) (m : Nat) (e q : Int) : Nat × Bool :=
  if q ≤ e then (m * 2 ^ (e - q).toNat, false)
  else
    let k := (q - e).toNat
    let t := m / 2 ^ k
    let r := m % 2 ^ k
    (if roundsUp rm neg t r k then t + 1 else t, decide (r ≠ 0))

/-- What a magnitude beyond the largest finite one becomes (R131, R133). -/
def overflowPat (f : Fmt) (rm : RMode) (neg : Bool) : Nat :=
  match f.kind with
  | .ieee => if rm = 0 ∨ (rm = 2 ∧ neg) ∨ (rm = 3 ∧ !neg) then f.infPat else f.maxPat
  | _ => f.maxPat

/-- `round(e, fmt, rm)` of the nonzero value `± m × 2^e` (R131 to R133): pattern and flags. Tininess
is judged after a rounding with unbounded exponent range. -/
def roundFin (f : Fmt) (rm : RMode) (neg : Bool) (m : Nat) (e : Int) : Nat × BitVec 5 :=
  let top : Int := e + (bitLen m : Int) - 1
  let q0 : Int := top - f.mw
  let q : Int := if q0 < f.unitExp then f.unitExp else q0
  let (units, inexact) := roundUnits rm neg m e q
  let pat := ((q - f.unitExp).toNat) * 2 ^ f.mw + units
  if f.maxPat < pat then (withSign f neg (overflowPat f rm neg), flOF ||| flNX)
  else
    let free := (roundUnits rm neg m e q0).1
    let tiny := decide (q0 < f.unitExp) && !(decide (q0 + 1 = f.unitExp) && decide (free = 2 ^ (f.mw + 1)))
    (withSign f neg pat, flagIf inexact flNX ||| flagIf (inexact && tiny) flUF)

end Sys2Proof.Machine
end

