-- ==== Sys2Proof/Machine/Float.lean ====
section
/-! DEFINITION. Values of the floating-point formats and the arithmetic on them (05 R127 to R150,
07 R175 to R191): every operation computes the exact value and rounds it once. -/

namespace Sys2Proof.Machine

/-- The value of a pattern (R128): a NaN, quiet or signalling; an infinity; or `± m × 2^e`. -/
inductive FVal where
  | nan (signalling : Bool)
  | inf (neg : Bool)
  | fin (neg : Bool) (m : Nat) (e : Int)
  deriving DecidableEq, Repr, Inhabited

def FVal.isNan : FVal → Bool | .nan _ => true | _ => false
def FVal.isSnan : FVal → Bool | .nan s => s | _ => false
def FVal.neg? : FVal → Bool | .nan _ => false | .inf n => n | .fin n _ _ => n
def FVal.isZero : FVal → Bool | .fin _ 0 _ => true | _ => false

/-- The value with its sign changed. -/
def FVal.flip : FVal → FVal | .nan s => .nan s | .inf n => .inf (!n) | .fin n m e => .fin (!n) m e

/-- The value of a pattern of a format (R128, R129). -/
def decodeF (f : Fmt) (p : Nat) : FVal :=
  let neg := decide (p / f.signBit % 2 = 1)
  let mag := p % f.signBit
  let ex := mag / 2 ^ f.mw
  let fr := mag % 2 ^ f.mw
  match f.kind with
  | .e4m3 =>
    if mag = 0x7F then .nan false
    else if ex = 0 then .fin neg fr f.unitExp else .fin neg (2 ^ f.mw + fr) (f.unitExp + (ex - 1 : Int))
  | k =>
    if ex = 2 ^ f.ew - 1 then
      if fr = 0 then .inf neg else .nan (decide (k = .ieee) && decide (fr < 2 ^ (f.mw - 1)))
    else if ex = 0 then .fin neg fr f.unitExp
    else .fin neg (2 ^ f.mw + fr) (f.unitExp + (ex - 1 : Int))

/-- A result placed in a format (R129, R131, R133): pattern and flags. -/
def roundVal (f : Fmt) (rm : RMode) : FVal → Nat × BitVec 5
  | .nan _ => (f.nanPat, 0)
  | .inf n => match f.kind with
    | .e4m3 => (withSign f n f.maxPat, flNV)
    | _ => (withSign f n f.infPat, 0)
  | .fin n 0 _ => (withSign f n 0, 0)
  | .fin n (m + 1) e => roundFin f rm n (m + 1) e

/-- An integer times a power of two, with a sign for zero. -/
def ofInt (i : Int) (e : Int) (zeroNeg : Bool) : FVal :=
  if i = 0 then .fin zeroNeg 0 e else .fin (decide (i < 0)) i.natAbs e

/-- The finite value as an integer in units of `2^u`, for `u ≤ e`. -/
def unitsOf (neg : Bool) (m : Nat) (e u : Int) : Int :=
  let a : Int := (m : Int) * 2 ^ (e - u).toNat
  if neg then -a else a

/-- The exact sum (R129): its value and NV for a signalling NaN or ∞ − ∞. -/
def addF (rm : RMode) (a b : FVal) : FVal × BitVec 5 :=
  let nv := flagIf (a.isSnan || b.isSnan) flNV
  match a, b with
  | .nan _, _ => (.nan false, nv)
  | _, .nan _ => (.nan false, nv)
  | .inf x, .inf y => if x = y then (.inf x, 0) else (.nan false, flNV)
  | .inf x, _ => (.inf x, 0)
  | _, .inf y => (.inf y, 0)
  | .fin na ma ea, .fin nb mb eb =>
    let u := if ea ≤ eb then ea else eb
    let sum := unitsOf na ma ea u + unitsOf nb mb eb u
    (ofInt sum u (if na = nb then na else decide (rm = 2)), 0)

/-- The exact product (R129): its value and NV for a signalling NaN or 0 × ∞. -/
def mulF (a b : FVal) : FVal × BitVec 5 :=
  let nv := flagIf (a.isSnan || b.isSnan) flNV
  match a, b with
  | .nan _, _ => (.nan false, nv)
  | _, .nan _ => (.nan false, nv)
  | .inf x, .inf y => (.inf (x != y), 0)
  | .inf x, .fin y m _ => if m = 0 then (.nan false, flNV) else (.inf (x != y), 0)
  | .fin x m _, .inf y => if m = 0 then (.nan false, flNV) else (.inf (x != y), 0)
  | .fin x ma ea, .fin y mb eb => (.fin (x != y) (ma * mb) (ea + eb), 0)

/-- `a × b + c` before its rounding (R177): 0 × ∞ is invalid whatever c is. -/
def fmaF (rm : RMode) (a b c : FVal) : FVal × BitVec 5 :=
  let (p, f1) := mulF a b
  let (r, f2) := addF rm p c
  (r, f1 ||| f2)

/-- Round an exact value and its flags into a pattern. -/
def finishF (f : Fmt) (rm : RMode) (r : FVal × BitVec 5) : Nat × BitVec 5 :=
  let (p, fl) := roundVal f rm r.1
  (p, r.2 ||| fl)

/-- Order of two values that are no NaN, −0 equal to +0: -1, 0 or 1. -/
def cmpF : FVal → FVal → Int
  | .inf x, .inf y => if x = y then 0 else if x then -1 else 1
  | .inf x, _ => if x then -1 else 1
  | _, .inf y => if y then 1 else -1
  | .fin na ma ea, .fin nb mb eb =>
    let u := if ea ≤ eb then ea else eb
    let a := unitsOf na ma ea u
    let b := unitsOf nb mb eb u
    if a < b then -1 else if b < a then 1 else 0
  | _, _ => 0

/-- The order of VMIN and VMAX (R178): −0 below +0. -/
def lessF (a b : FVal) : Bool :=
  decide (cmpF a b = -1) || (decide (cmpF a b = 0) && a.neg? && !b.neg?)

/-- VMIN and VMAX on one lane (R178). -/
def minMaxF (f : Fmt) (isMax : Bool) (pa pb : Nat) : Nat × BitVec 5 :=
  let a := decodeF f pa
  let b := decodeF f pb
  let nv := flagIf (a.isSnan || b.isSnan) flNV
  if a.isNan && b.isNan then (f.nanPat, nv)
  else if a.isNan then (pb, nv)
  else if b.isNan then (pa, nv)
  else (if (if isMax then lessF a b else lessF b a) then pb else pa, nv)

/-! ## Conversions (R133 to R135) -/

/-- A value rounded to an integer in a mode, and whether that was inexact. -/
def toIntF (rm : RMode) (neg : Bool) (m : Nat) (e : Int) : Int × Bool :=
  let (u, inexact) := roundUnits rm neg m e 0
  (if neg then -(u : Int) else u, inexact)

/-- Float to an integer type of `w` bits (R134). -/
def floatToInt (rm : RMode) (signed : Bool) (w : Nat) (v : FVal) : Nat × BitVec 5 :=
  let lo : Int := if signed then -(2 ^ (w - 1) : Int) else 0
  let hi : Int := if signed then 2 ^ (w - 1) - 1 else 2 ^ w - 1
  match v with
  | .nan _ => (0, flNV)
  | .inf n => (wrapTo w (if n then lo else hi), flNV)
  | .fin n m e =>
    let (i, inexact) := toIntF rm n m e
    if i < lo then (wrapTo w lo, flNV)
    else if hi < i then (wrapTo w hi, flNV)
    else (wrapTo w i, flagIf inexact flNX)

/-! ## Estimates (R147 to R149) -/

/-- A positive value normalised to `1.f × 2^e`: the top 8 bits of f, and e. -/
def normTop (m : Nat) (e : Int) : Nat × Int :=
  let n := bitLen m
  (m * 2 ^ 9 / 2 ^ (n - 1 + 1) % 256, e + (n : Int) - 1)

/-- The fraction bits of an estimate (R147 step 6). -/
def estFrac (f : Fmt) (k : Nat) : Nat := if 11 ≤ f.mw then k * 2 ^ (f.mw - 11) else k / 2 ^ (11 - f.mw)

/-- `± (1 + k/2^11) × 2^E` placed in a format (R147 steps 6 to 8). -/
def estPat (f : Fmt) (neg : Bool) (k : Nat) (E : Int) : Nat × BitVec 5 :=
  if (2 ^ f.ew - 2 - (f.bias : Int)) < E then (withSign f neg f.infPat, flOF ||| flNX)
  else if E < 1 - (f.bias : Int) then (withSign f neg 0, flUF ||| flNX)
  else (withSign f neg ((E + f.bias).toNat * 2 ^ f.mw + estFrac f k), flNX)

/-- Integer square root by bits, for results below `2^fuel`. -/
def isqrtBits (n acc : Nat) : Nat → Nat
  | 0 => acc
  | b + 1 => isqrtBits n (if (acc + 2 ^ b) * (acc + 2 ^ b) ≤ n then acc + 2 ^ b else acc) b

/-- VRCP on one lane (R147, R149). -/
def rcpF (f : Fmt) (p : Nat) : Nat × BitVec 5 :=
  match decodeF f p with
  | .nan s => (f.nanPat, flagIf s flNV)
  | .inf n => (withSign f n 0, 0)
  | .fin n 0 _ => (withSign f n f.infPat, flDZ)
  | .fin n (m + 1) e =>
    let (i, ex) := normTop (m + 1) e
    let den := 513 + 2 * i
    let num := (511 - 2 * i) * 2048
    estPat f n ((2 * num + den) / (2 * den)) (-ex - 1)

/-- VRSQ on one lane (R148, R149). -/
def rsqF (f : Fmt) (p : Nat) : Nat × BitVec 5 :=
  match decodeF f p with
  | .nan s => (f.nanPat, flagIf s flNV)
  | .inf n => if n then (f.nanPat, flNV) else (0, 0)
  | .fin n 0 _ => (withSign f n f.infPat, flDZ)
  | .fin true (_ + 1) _ => (f.nanPat, flNV)
  | .fin false (m + 1) e =>
    let (i, ex) := normTop (m + 1) e
    let odd := (ex % 2).toNat
    -- 4096 / √m for m = (513 + 2i) / 512 × 2^odd, to the nearest integer
    let r4 := 4 * (2 ^ 24 * 512) / ((513 + 2 * i) * 2 ^ odd)
    let k := (isqrtBits r4 0 14 + 1) / 2 - 2048
    estPat f false k (-((ex - odd) / 2) - 1)

/-- One operand a zero and the other an infinity (R150). -/
def zeroTimesInf : FVal → FVal → Bool
  | .inf _, .fin _ m _ => m == 0
  | .fin _ m _, .inf _ => m == 0
  | _, _ => false

/-- VRCPS (two = 2, halved = false) and VRSQS (three, halved) on one lane (R150). -/
def stepF (f : Fmt) (rm : RMode) (c : Nat) (halve : Bool) (a b : FVal) : Nat × BitVec 5 :=
  if zeroTimesInf a b then
    roundVal f rm (.fin false c (if halve then -1 else 0))
  else
    let (p, f1) := mulF a b
    let (r, f2) := addF rm (.fin false c 0) p.flip
    let r1 := match r with | .fin n m e => FVal.fin n m (if halve then e - 1 else e) | v => v
    finishF f rm (r1, f1 ||| f2)

/-! ## VEXP2 and VLOG2 (R191): fixed point with 400 fraction bits, the last bit sticky -/

def fixBits : Nat := 400

/-- ln 2 in fixed point: the sum of 1 / (k × 2^k) for k from `k` on, `fuel` terms. -/
def ln2Sum (k : Nat) : Nat → Nat
  | 0 => 0
  | n + 1 => 2 ^ (fixBits + 20) / (k * 2 ^ k) + ln2Sum (k + 1) n

def ln2Fix : Nat := ln2Sum 1 430 / 2 ^ 20

/-- exp(y) in fixed point by its series, `t` the term of index `k`. -/
def expSum (y t k : Nat) : Nat → Nat
  | 0 => 0
  | n + 1 => t + expSum y (t * y / 2 ^ fixBits / (k + 1)) (k + 1) n

/-- 2^f in fixed point for a fraction f in fixed point. -/
def exp2Fix (fr : Nat) : Nat := expSum (fr * ln2Fix / 2 ^ fixBits) (2 ^ fixBits) 0 120

/-- atanh(z) / z summed: z^(2j+1) / (2j+1). -/
def atanhSum (z2 t j : Nat) : Nat → Nat
  | 0 => 0
  | n + 1 => t / (2 * j + 1) + atanhSum z2 (t * z2 / 2 ^ fixBits) (j + 1) n

/-- log2(m / 2^n) for 2^n ≤ m < 2^(n+1), in fixed point. -/
def log2Fix (m n : Nat) : Nat :=
  let z := (m - 2 ^ n) * 2 ^ fixBits / (m + 2 ^ n)
  2 * atanhSum (z * z / 2 ^ fixBits) z 0 140 * 2 ^ fixBits / ln2Fix

/-- VEXP2 on one lane. -/
def exp2F (f : Fmt) (rm : RMode) (p : Nat) : Nat × BitVec 5 :=
  match decodeF f p with
  | .nan s => (f.nanPat, flagIf s flNV)
  | .inf n => (if n then 0 else f.infPat, 0)
  | .fin _ 0 _ => roundVal f rm (.fin false 1 0)
  | .fin n (m + 1) e =>
    -- beyond these bounds the result has overflowed, or lies below half of every subnormal
    if 12 < e + (bitLen (m + 1) : Int) then
      if n then roundFin f rm false 1 (-5000) else roundFin f rm false 1 5000
    else
      let a : Int := unitsOf n (m + 1) (e + fixBits) 0
      let k : Int := a / 2 ^ fixBits
      let fr := (a % 2 ^ fixBits).toNat
      if fr = 0 then roundFin f rm false 1 k
      else roundFin f rm false (2 * exp2Fix fr + 1) (k - fixBits - 1)

/-- VLOG2 on one lane. -/
def log2F (f : Fmt) (rm : RMode) (p : Nat) : Nat × BitVec 5 :=
  match decodeF f p with
  | .nan s => (f.nanPat, flagIf s flNV)
  | .inf n => if n then (f.nanPat, flNV) else (f.infPat, 0)
  | .fin _ 0 _ => (withSign f true f.infPat, flDZ)
  | .fin true (_ + 1) _ => (f.nanPat, flNV)
  | .fin false (m + 1) e =>
    let n := bitLen (m + 1) - 1
    let k : Int := e + n
    if m + 1 = 2 ^ n then roundVal f rm (ofInt k 0 false)
    else
      let v : Int := 2 * (k * 2 ^ fixBits + log2Fix (m + 1) n) + 1
      roundVal f rm (ofInt v (-(fixBits : Int) - 1) false)

end Sys2Proof.Machine
end

