-- ==== Sys2Proof/Machine/Ops.lean ====
section
/-! DEFINITION. The shared operations on the state: tables, registers, the issuing slot, taking a
trap and returning from one, completions, parking and waking, the hatbox and the state-change
log. -/

namespace Sys2Proof.Machine

abbrev Out := Host.Outcome State Fault Refusal

/-! ## Places -/

def coreOf (slot : Nat) : Nat := slot / 8
def clusterOf (slot : Nat) : Nat := slot / 64
def dieOf (slot : Nat) : Nat := slot / 262144
def dieOfCore (core : Nat) : Nat := core / 32768
def clusterOfCore (core : Nat) : Nat := core / 8
def dieOfCluster (cluster : Nat) : Nat := cluster / 4096

namespace State

def slot (s : State) (k : Nat) : Slot := (NMap.find s.slots k).getD (Slot.idle k)
def core (s : State) (k : Nat) : Core := (NMap.find s.cores k).getD Core.reset
def cluster (s : State) (k : Nat) : Cluster := (NMap.find s.clusters k).getD Cluster.reset
def die (s : State) (k : Nat) : Die := (NMap.find s.dies k).getD Die.reset
def polder (s : State) (k : Nat) : Polder := (NMap.find s.polders k).getD Polder.reset
def link (s : State) (k : Nat) : Link := (NMap.find s.links k).getD Link.reset

def setSlot (s : State) (k : Nat) (v : Slot) : State := { s with slots := NMap.set s.slots k v }
def setCore (s : State) (k : Nat) (v : Core) : State := { s with cores := NMap.set s.cores k v }
def setCluster (s : State) (k : Nat) (v : Cluster) : State := { s with clusters := NMap.set s.clusters k v }
def setDie (s : State) (k : Nat) (v : Die) : State := { s with dies := NMap.set s.dies k v }
def setPolder (s : State) (k : Nat) (v : Polder) : State := { s with polders := NMap.set s.polders k v }
def setLink (s : State) (k : Nat) (v : Link) : State := { s with links := NMap.set s.links k v }

def modSlot (s : State) (k : Nat) (f : Slot → Slot) : State := s.setSlot k (f (s.slot k))
def modCore (s : State) (k : Nat) (f : Core → Core) : State := s.setCore k (f (s.core k))
def modCluster (s : State) (k : Nat) (f : Cluster → Cluster) : State := s.setCluster k (f (s.cluster k))
def modDie (s : State) (k : Nat) (f : Die → Die) : State := s.setDie k (f (s.die k))
def modPolder (s : State) (k : Nat) (f : Polder → Polder) : State := s.setPolder k (f (s.polder k))
def modLink (s : State) (k : Nat) (f : Link → Link) : State := s.setLink k (f (s.link k))

/-- The issuing slot. -/
def me (s : State) : Slot := s.slot s.cur
def modMe (s : State) (f : Slot → Slot) : State := s.modSlot s.cur f

/-- The next value of the counter that free values are drawn at. -/
def tick (s : State) : State := { s with free := s.free + 1 }

/-- A fresh number for a request. -/
def freshId (s : State) : State := { s with nextId := s.nextId + 1 }

end State

/-- Put an event into the agenda behind those that are due no later. -/
def agendaIns : List (Nat × Event) → Nat → Event → List (Nat × Event)
  | [], due, i => [(due, i)]
  | (d, j) :: r, due, i => if due < d then (due, i) :: (d, j) :: r else (d, j) :: agendaIns r due i

def State.at_ (s : State) (due : Nat) (i : Event) : State :=
  { s with agenda := agendaIns s.agenda due i }

/-- An event that comes about in this cycle and takes effect in the next (R53). -/
def State.next1 (s : State) (i : Event) : State := s.at_ (s.cycle + 1) i

/-- An event after a latency that the manual does not fix. -/
def State.later (s : State) (path : Nat) (i : Event) : State :=
  s.tick.at_ (s.cycle + 1 + Config.latency path s.free) i

/-- An event after an open latency that the manual bounds by `most` cycles. -/
def State.within (s : State) (path most : Nat) (i : Event) : State :=
  s.tick.at_ (s.cycle + 1 + Nat.min (Config.latency path s.free) (most - 1)) i

/-! ## Status words -/

/-- The state field of sr.status (R47). -/
def SlotState.code : SlotState → Nat
  | .empty => 0 | .ready => 1 | .waitToken => 2 | .waitMem => 3 | .waitLong => 4 | .waitRecv => 5
  | .waitEngine => 6 | .waitBarrier => 7 | .waitFetch => 8 | .halted => 9 | .stopped => 10
  | .swapped => 11 | .lost => 12

/-- The state of a code (R47); 13 to 15 name none. -/
def SlotState.ofCode (n : Nat) : SlotState :=
  (([.empty, .ready, .waitToken, .waitMem, .waitLong, .waitRecv, .waitEngine, .waitBarrier, .waitFetch, .halted, .stopped,
    .swapped, .lost] : List SlotState)[n]?).getD .empty

/-- A state's class in the state-change log (R308). -/
def SlotState.class : SlotState → Nat
  | .ready => 0
  | .waitToken | .waitRecv | .waitBarrier => 1
  | .waitMem | .waitFetch | .waitLong | .waitEngine => 2
  | .empty | .halted | .stopped | .swapped | .lost => 3

/-- A state that parks a bundle. -/
def SlotState.waiting : SlotState → Bool
  | .waitToken | .waitMem | .waitLong | .waitRecv | .waitEngine | .waitBarrier | .waitFetch => true
  | _ => false

/-- sr.status of a slot (R46) with the given state code. -/
def statusWord (s : State) (k code : Nat) : Word :=
  BitVec.ofNat 64 ((s.slot k).prio % 64 * 256 + (if (s.slot k).inh then 128 else 0)
    + (if (s.slot k).clamp then 64 else 0)
    + (if (s.core (coreOf k)).ltWorld.isSome then 32 else 0)
    + (if k % 8 = 7 then 16 else 0) + code)

/-- sr.endpoint (R4, R45). -/
def endpoint (s : State) (k : Nat) : Word := BitVec.ofNat 64 (s.moduleNo * 4194304 + k)

/-! ## Registers of one slot -/

namespace Slot

/-- `X[n]` (R42): x0 reads zero. -/
def getX (sl : Slot) (r : Reg) : Word := if r = 0 then 0 else sl.x[r.toNat]'r.isLt

def getV (sl : Slot) (r : Reg) : Vec := sl.v[r.toNat]'r.isLt

/-- A write of an x register (R42, R121): x0 discards it; the register becomes present. -/
def putX (sl : Slot) (r : Reg) (w : Word) : Slot :=
  if r = 0 then sl
  else { sl with x := sl.x.set r.toNat w r.isLt, present := sl.present ||| (1#64 <<< r.toNat) }

def putV (sl : Slot) (r : Reg) (w : Vec) : Slot :=
  { sl with v := sl.v.set r.toNat w r.isLt, present := sl.present ||| (1#64 <<< (32 + r.toNat)) }

def pend (sl : Slot) (r : Reg) : Slot :=
  if r = 0 then sl else { sl with pending := sl.pending ||| (1#32 <<< r.toNat) }

def unpend (sl : Slot) (r : Reg) : Slot :=
  { sl with pending := sl.pending &&& ~~~(1#32 <<< r.toNat) }

def isPending (sl : Slot) (r : Reg) : Bool := r != 0 && sl.pending.getLsbD r.toNat

def addFlags (sl : Slot) (f : BitVec 5) : Slot := { sl with fflags := sl.fflags ||| f }

/-- Stream N is register x(24 + N) while it is bound (R43). -/
def streamOf (sl : Slot) (r : Reg) : Option Stream :=
  if h : 24 ≤ r.toNat ∧ r.toNat < 28 then
    let st := sl.streams[r.toNat - 24]'(by omega)
    if st.bound then some st else none
  else none

end Slot

/-- A register number from a table value. -/
def regOf (n : Nat) : Reg := BitVec.ofNat 5 n

/-! ## Streams (R92 to R99) -/

/-- Element size in bytes of an access type (R69). -/
def tySize (t : Nat) : Nat := if t % 4 = 3 then 8 else if t % 4 = 2 then 4 else if t % 4 = 1 then 2 else 1

/-- A loaded element, extended as its access type states (R69). -/
def extendTy (t : Nat) (bs : List Byte) : Word :=
  if 4 ≤ t then BitVec.ofInt 64 (signedOf (8 * bs.length) (leNat bs)) else leWord bs

namespace Stream

def cntOf (st : Stream) (k : Nat) : Nat := ((st.cnt[k]?).getD 0).toNat
def strOf (st : Stream) (k : Nat) : Int := ((st.str[k]?).getD 0).toInt
def idxOf (st : Stream) (k : Nat) : Nat := (st.idx[k]?).getD 0

/-- Byte offset of the element at the current indices. -/
def addr (st : Stream) : Nat :=
  ((st.base.toNat : Int) + (st.idxOf 0 : Int) * st.strOf 0 + (st.idxOf 1 : Int) * st.strOf 1
    + (st.idxOf 2 : Int) * st.strOf 2 + (st.idxOf 3 : Int) * st.strOf 3).toNat

/-- The inner loop of R94 from dimension `k` on, with `fuel` dimensions left. -/
def bump (st : Stream) (k : Nat) : Nat → Stream
  | 0 => st
  | fuel + 1 =>
    if st.idxOf k + 1 < st.cntOf k then { st with idx := setAt st.idx k (st.idxOf k + 1) }
    else
      bump { st with idx := setAt st.idx k 0, eod := setAt st.eod k true } (k + 1) fuel

/-- One advance (R94). -/
def advance (st : Stream) : Stream :=
  bump { st with eod := [false, false, false, false], ahead := st.ahead.drop 1 } 0 (st.ndim1 + 1)

/-- Number of elements of the region. -/
def total (st : Stream) : Nat :=
  (List.range (st.ndim1 + 1)).foldl (fun a k => a * st.cntOf k) 1

/-- The indices after `n` steps from the first element. -/
def idxAfter (st : Stream) (n : Nat) : List Nat :=
  let c0 := st.cntOf 0; let c1 := if 1 ≤ st.ndim1 then st.cntOf 1 else 1
  let c2 := if 2 ≤ st.ndim1 then st.cntOf 2 else 1
  [n % c0, n / c0 % c1, n / (c0 * c1) % c2, n / (c0 * c1 * c2)]

/-- The linear position of the current indices. -/
def position (st : Stream) : Nat :=
  let c0 := st.cntOf 0; let c1 := if 1 ≤ st.ndim1 then st.cntOf 1 else 1
  let c2 := if 2 ≤ st.ndim1 then st.cntOf 2 else 1
  st.idxOf 0 + c0 * (st.idxOf 1 + c1 * (st.idxOf 2 + c2 * st.idxOf 3))

/-- `n` advances without reading (R95): dimension k ends in one of them exactly when the position
passes a multiple of the region's extent up to k. -/
def skip (st : Stream) (n : Nat) : Stream :=
  if n = 0 then st
  else
    let p := st.position
    let ext (k : Nat) : Nat := (List.range (k + 1)).foldl (fun a j => a * st.cntOf j) 1
    { st with
      idx := st.idxAfter ((p + n) % st.total)
      eod := (List.range 4).map (fun k => decide (k ≤ st.ndim1) && decide (p / ext k < (p + n) / ext k))
      ahead := [] }

end Stream

/-- The element of a bound stream at its current indices, as the local store of the core stands. -/
def elementNow (s : State) (k : Nat) (st : Stream) : Word :=
  extendTy st.ty.toNat (cellRead (s.core (coreOf k)).ls st.addr (tySize st.ty.toNat))

/-- The element that a read of a bound stream delivers (R94, R98): the one read ahead, if any. -/
def element (s : State) (k : Nat) (st : Stream) : Word := (st.ahead.head?).getD (elementNow s k st)

/-- The uncorrectable word that the element at the current indices stands in (R168). -/
def streamPoison (s : State) (k : Nat) (st : Stream) : Option Nat :=
  if s.poison.isEmpty then none
  else
    ((List.range (tySize st.ty.toNat)).find? (fun i => s.poison.contains (.ls (coreOf k) ((st.addr + i) / 8)))).map
      (fun i => (st.addr + i) / 8 * 8)

/-- Elements read ahead from the current indices, at most `n`, and none from an uncorrectable word on (R98, R168). -/
def aheadFrom (s : State) (k : Nat) (st : Stream) : Nat → List Word
  | 0 => []
  | n + 1 => if (streamPoison s k st).isSome then [] else elementNow s k st :: aheadFrom s k st.advance n

/-- The read-ahead of a stream after a synchronisation point or an advance: some number of
elements, at most four (R98). -/
def refill (s : State) (k : Nat) (st : Stream) : Stream :=
  if st.bound then
    { st with ahead := st.ahead ++ (aheadFrom s k { st with ahead := [] } (Config.readAhead s.free % 5)).drop st.ahead.length }
  else st

/-- A stream synchronisation point of slot `k` (R98): what was read ahead is read afresh. -/
def syncStreams (s : State) (k : Nat) : State :=
  (s.modSlot k (fun sl => { sl with streams := sl.streams.map (fun st => refill s k { st with ahead := [] }) })).tick

/-- Single-bit errors at places that are read: each is corrected and written back, and counted by `count` (R168, R236,
R275). -/
def correct (s : State) (ps : List Place) (count : State → State) : State :=
  if s.flipped.isEmpty then s
  else
    ps.foldl (fun t p => if t.flipped.contains p then count { t with flipped := t.flipped.filter (· != p) } else t) s

/-- A soft error of a core's storage is counted (R168, R307). -/
def countCore (c : Nat) (s : State) : State := s.modCore c (fun co => { co with softErrors := co.softErrors + 1 })

/-- The errors of the local-store words that hold physical bytes are corrected as the words are read (R168). -/
def lsCorrect (s : State) (c : Nat) (ps : List Nat) : State := correct s (ps.map (fun p => .ls c (p / 8))) (countCore c)

/-- Claim the banks of a cycle for the bundle that issues in it (R153). -/
def claimBanks (s : State) (c : Nat) (mask : BitVec 8) : State :=
  s.modCore c (fun co => { co with bankCycle := s.cycle, bankMask := if co.bankCycle = s.cycle then co.bankMask ||| mask else mask })

/-- Both halves of a bundle deliver one element, as the local store stands at issue (R65, R94): the streams that the
bundle reads hold it from then on, and what the read-ahead did not hold claims its bank (R153). -/
def settleStreams (s : State) (k : Nat) (mask : BitVec 4) : State :=
  if mask = 0 then s
  else
    let fresh (st : Stream) (i : Nat) : Bool := mask.getLsbD i && st.bound && st.ahead.isEmpty
    let banks := (s.slot k).streams.toList.zipIdx.foldl (fun b p => if fresh p.1 p.2 then b ||| 1#8 <<< (p.1.addr / 16 % 8) else b) 0
    let bytes := (s.slot k).streams.toList.zipIdx.flatMap (fun p =>
      if fresh p.1 p.2 then (List.range (tySize p.1.ty.toNat)).map (p.1.addr + ·) else [])
    (if banks = 0 then s else claimBanks (lsCorrect s (coreOf k) bytes) (coreOf k) banks).modSlot k (fun sl => { sl with
      streams := sl.streams.mapFinIdx (fun i st _ => if fresh st i then { st with ahead := [elementNow s k st] } else st) })

/-- The address of an uncorrectable word that a bundle would read through a stream (R168). -/
def streamFault (s : State) (k : Nat) (mask : BitVec 4) : Option Nat :=
  ((s.slot k).streams.toList.zipIdx.filter (fun p => mask.getLsbD p.2 && p.1.bound && p.1.ahead.isEmpty)).findSome?
    (fun p => streamPoison s k p.1)

/-- Advance the streams named by a mask, once each (R94). -/
def advanceStreams (s : State) (k : Nat) (mask : BitVec 4) : State :=
  if mask = 0 then s
  else
    (s.modSlot k (fun sl => { sl with
      streams := sl.streams.mapFinIdx (fun i st _ =>
        if mask.getLsbD i && st.bound then refill s k st.advance else st) })).tick

/-! ## Reads of the issuing bundle -/

/-- `X[n]` as a source of the issuing bundle (R42, R43, R65): the registers as they stood at issue,
a bound stream giving its current element. -/
def State.rx (s : State) (r : Reg) : Word :=
  let sl := s.iss.snap.getD s.me
  match sl.streamOf r with
  | some st => element s s.cur st
  | none => sl.getX r

/-- `V[n]` as a source of the issuing bundle. -/
def State.rv (s : State) (r : Reg) : Vec := (s.iss.snap.getD s.me).getV r

/-- sr.round.mode and sr.modq as they stood at issue (R101). -/
def State.rmode (s : State) : Nat := (s.iss.snap.getD s.me).round.toNat % 4
def State.rmodq (s : State) : Nat := (s.iss.snap.getD s.me).modq.toNat

/-! ## Hatbox and state-change log -/

/-- Put a record behind those of its die, in ascending endpoint among those of its cycle (R368). -/
def hatIns (r : HatRec) : List HatRec → List HatRec
  | [] => [r]
  | x :: xs => if x.cycle = r.cycle ∧ r.endpoint < x.endpoint then r :: x :: xs else x :: hatIns r xs

/-- A hatbox record of a die; the newest 4,096 are kept (R368). -/
def hatPost (s : State) (die kind code ep : Nat) (w d : Word) : State :=
  s.modDie die (fun x => { x with
    hatbox := hatIns (HatRec.mk s.cycle kind code ep w d) (lastN 4095 x.hatbox) })

/-- A report to the steward. -/
def stewardNote (s : State) (ep : Nat) (a b c : Word) : State :=
  { s with steward := { s.steward with posted := s.steward.posted ++ [(ep, a, b, c)] } }

/-- A failed spill or read-back is reported (R166). -/
def spillFailed (s : State) (c : Nat) : State :=
  let ep := s.moduleNo * 4194304 + c * 8
  stewardNote (hatPost s.tick (c / 32768) 0x0B 0 ep 0 0) ep 0 0 0

/-- What an uncorrectable place held is dropped, written to the hatbox, and the endpoint that it was destined for, or that
asked for it, is posted to the steward (R168, R236). -/
def dropPoisoned (s : State) (p : Place) (die ep : Nat) (w : Word) : State :=
  stewardNote (hatPost { s with poison := s.poison.filter (· != p) } die 0x05 0x12 ep w 0) ep w 0x12 0

/-- The module's own endpoint for events of a die (R368): slot 0 of core 0 of its cluster 0. -/
def dieEndpoint (s : State) (die : Nat) : Nat := s.moduleNo * 4194304 + die * 262144

/-- Raw bytes of home memory. -/
def State.peekMem (s : State) (pa n : Nat) : List Byte := cellRead s.mem pa n
def State.pokeMem (s : State) (pa : Nat) (bs : List Byte) : State :=
  { s with mem := cellWrite s.mem pa bs }

def traceBase (t : Word) : Nat := bits t.toNat 40 12 * 4096
def traceSize (t : Word) : Nat := 2 ^ (bits t.toNat 11 8 + 12)

/-- Append one trace record (R307), which wraps before it where it does not fit and after it where it fills the
buffer: a write outside world 0's memory is dropped and recorded. -/
def tracePut (s : State) (c : Nat) (ws : List Word) : State :=
  let co := s.core c
  let n := 8 * ws.length
  let (at_, before) := if co.traceNext + n ≤ traceSize co.trace then (co.traceNext, 0) else (128, 1)
  let (next, after) := if at_ + n = traceSize co.trace then (128, 1) else (at_ + n, 0)
  let s1 := s.modCore c (fun x => { x with traceNext := next, traceWraps := x.traceWraps + before + after })
  if NMap.find s.granules ((traceBase co.trace + at_) / 33554432) = some 0 then
    s1.pokeMem (traceBase co.trace + at_) (wordBytes ws)
  else
    hatPost (s1.modCore c (fun x => { x with traceLost := x.traceLost + 1 })) (dieOfCore c) 0x0B 0
      (s.moduleNo * 4194304 + c * 8) (BitVec.ofNat 64 (traceBase co.trace + at_)) 0

/-- Keep a trace record for the end of the cycle. -/
def traceKeep (s : State) (c : Nat) (r : TraceRec) : State :=
  s.modCore c (fun x => { x with tracePend := x.tracePend ++ [r] })

/-- The record of a slot's change of class (R308). -/
def traceClass (s : State) (k cls : Nat) : State :=
  if (s.core (coreOf k)).trace.getLsbD 0 then
    traceKeep s (coreOf k) { slot := k % 8, head := k % 8 * 2 ^ 59 + cls * 2 ^ 57, rest := [(s.slot k).pc] }
  else s

/-- Write one record with the cycles since the previous one, after a record of kind 1 if the gap is long (R308). -/
def traceRecord (s : State) (c : Nat) (r : TraceRec) : State :=
  let gap := s.cycle - (s.core c).traceLast
  let (s1, delta) :=
    if 4096 ≤ gap then (tracePut s c [BitVec.ofNat 64 (2 ^ 62), BitVec.ofNat 64 s.cycle], 0) else (s, gap)
  (tracePut s1 c (BitVec.ofNat 64 (r.head + delta) :: r.rest)).modCore c (fun x => { x with traceLast := s.cycle })

/-- Records in slot order; those of one slot keep their order. -/
def traceSorted (l : List TraceRec) : List TraceRec := (List.range 8).flatMap (fun i => l.filter (·.slot == i))

/-- The end of a cycle for the trace of a core: its records are written in slot order (R308). -/
def traceFlush (s : State) (c : Nat) : State :=
  (traceSorted (s.core c).tracePend).foldl (fun t r => traceRecord t c r) s
    |>.modCore c (fun x => { x with tracePend := [] })

/-- Put a slot into a state (R47), restarting its watchdog (R123) and logging a change of class; a stop holds its
slice where it stands (R122). -/
def State.toState (s : State) (k : Nat) (st : SlotState) : State :=
  let old := (s.slot k).state
  if old = st then s
  else
    let s1 := s.modSlot k (fun sl => { sl with
      state := st, waitSince := s.cycle, wdogPosted := false
      sliceUsed := if st = .stopped then s.cycle - sl.installedAt else sl.sliceUsed })
    if old.class = st.class then s1 else traceClass s1 k st.class

/-- READY, or STOPPED where a stop is pending (R125). -/
def State.toReady (s : State) (k : Nat) : State :=
  if (s.slot k).stopPending then
    (s.toState k .stopped).modSlot k (fun sl => { sl with stopPending := false })
  else s.toState k .ready

/-! ## Taking a trap (R110 to R115) -/

/-- sr.split for the work of a launch: as it was when the launch was accepted; the present value for work of no launch
(R293). -/
def State.splitOf (s : State) (world launch : Nat) : Word :=
  match (s.polder world).launches.find? (·.handle == launch) with
  | some l => l.split
  | none => (s.polder world).split

/-- sr.split for the task of a slot. -/
def Slot.split (s : State) (sl : Slot) : Word := s.splitOf sl.world (sl.launch.toNat % 1024)

/-- The causes that R111 routes to the tenant; 0x10 goes there while sr.split.pfault is 0. -/
def tenantCause (split : Word) (code : Nat) : Bool :=
  code == 0x06 || code == 0x0B || code == 0x0E || code == 0x11 || code == 0x12 || code == 0x13
    || code == 0x14 || (code == 0x10 && !split.getLsbD 1)

/-- A trap whose handler is the steward (R114). -/
def stewardTrap (s : State) (k : Nat) (cause val : Word) : State :=
  let sl := s.slot k
  let ep := (endpoint s k).toNat
  let s1 := s.modSlot k (fun sl => { sl with
    estatus := statusWord s k 1, epc := sl.pc, cause := cause, tval := val, wait := .none,
    held := Held.none, streamsRead := 0, addSent := false })
  let s2 := s1.toState k .halted
  let s3 := { s2 with steward := { s2.steward with
    posted := s2.steward.posted ++ [(ep, sl.pc, cause, val)] } }
  let s4 := hatPost s3 (dieOf k) 0x01 (cause.toNat % 256) ep sl.pc val
  if cause.toNat % 256 = 0x10 ∧ (Slot.split s sl).getLsbD 1 then
    s4.modPolder sl.world (fun p => { p with faults := p.faults ++ [[BitVec.ofNat 64 ep, sl.pc, cause, val]] })
  else s4

/-- A trap that enters the tenant handler (R112). -/
def tenantTrap (s : State) (k : Nat) (cause val : Word) : State :=
  (s.modSlot k (fun sl => { sl with
    estatus := statusWord s k 1, epc := sl.pc, tval := val, cause := cause, inh := true,
    pc := sl.tvec, npc := sl.tvec, wait := .none, held := Held.none, streamsRead := 0, addSent := false })).toReady k

/-- A trap of slot `k` with its cause (R110: bit 8 marks a notice) and value: to the tenant handler,
or to the steward where R111, R113 or R115 says so. -/
def takeTrapAt (s : State) (k : Nat) (cause : Nat) (val : Word) : State :=
  let sl := s.slot k
  let code := cause % 256
  if tenantCause (Slot.split s sl) code then
    if sl.inh then stewardTrap s k 0x1A (BitVec.ofNat 64 code)
    else if sl.tvec = 0 then stewardTrap s k (BitVec.ofNat 64 cause) val
    else tenantTrap s k (BitVec.ofNat 64 cause) val
  else stewardTrap s k (BitVec.ofNat 64 cause) val

/-- A trap of the issuing bundle at a row of the priority table (R67, R77): no other effect. -/
def trapAt (s : State) (row cause : Nat) (val : Word) : State :=
  let s1 := takeTrapAt s s.cur cause val
  { s1 with iss := { s1.iss with prio := some row } }

def trapOut (s : State) (row cause : Nat) (val : Word) : Out := .next (trapAt s row cause val)

/-- Return from a trap handler (R103). -/
def returnFromTrap (s : State) : State :=
  s.modMe (fun sl => { sl with npc := sl.epc, inh := sl.estatus.getLsbD 7, clamp := sl.estatus.getLsbD 6 })

/-! ## Writes of the issuing bundle -/

/-- Run `k` unless `d` is the register of a bound stream, which traps (R43). -/
def guardX (s : State) (d : Reg) (k : Out) : Out :=
  if ((s.iss.snap.getD s.me).streamOf d).isSome then trapOut s 4 0x0C (zext d) else k

/-- `X[d] := w` of an A-op. -/
def writeX (s : State) (d : Reg) (w : Word) : Out := guardX s d (.next (s.modMe (·.putX d w)))

/-- Results of a V-op (R65): held while the bundle's A-op waits, written otherwise. -/
def vResult (vs : List (Nat × Vec)) (x : Option (Nat × Word)) (flags : BitVec 5) (sl : Slot) : Slot :=
  if sl.state.waiting then
    { sl with held := { vregs := sl.held.vregs ++ vs, xreg := x.orElse (fun _ => sl.held.xreg),
                        flags := sl.held.flags ||| flags } }
  else
    let sl1 := vs.foldl (fun a p => a.putV (regOf p.1) p.2) sl
    let sl2 := match x with | some (r, w) => sl1.putX (regOf r) w | none => sl1
    sl2.addFlags flags

/-- An asynchronous request of the issuing bundle: its token register becomes pending (R57), and the request
counts until it completes (R106). -/
def Slot.startToken (sl : Slot) (d : Reg) : Slot := { sl.pend d with outstanding := sl.outstanding + 1 }

/-- The issuing bundle has no effect and issues again at the slot's next turn: no tag is free for a request
that leaves the die (R382). -/
def retryOut (s : State) : Out := .next { s with iss := { s.iss with prio := some 99 } }

/-! ## Parking and waking -/

/-- `park(state)` of R77: the issuing slot leaves the rotation, waiting for `w`. -/
def park (s : State) (k : Nat) (st : SlotState) (w : Wait) : State :=
  (s.modSlot k (fun sl => { sl with wait := w })).toState k st

/-- The held V-op results and the bundle's end: written, and the pc moved on (R65). -/
def Slot.commit (sl : Slot) : Slot :=
  let sl1 := sl.held.vregs.foldl (fun a p => a.putV (regOf p.1) p.2) sl
  let sl2 := match sl.held.xreg with | some (r, w) => sl1.putX (regOf r) w | none => sl1
  let sl3 := sl2.addFlags sl.held.flags
  { sl3 with held := Held.none, wait := .none, pc := sl.npc, bundle := 0 }

/-- The A-op of a parked bundle has completed: the bundle commits and the slot is READY (R65, R53).
While a long-latency result of the bundle is in progress, the slot waits for that too (R74). -/
def finishBundle (s : State) (k : Nat) : State :=
  if s.cycle < (s.slot k).longUntil then park s k .waitLong (.long none)
  else
    let m := (s.slot k).streamsRead
    let halts := decide ((s.slot k).wait = .longHalt)
    let s1 := s.modSlot k (fun sl => { sl.commit with streamsRead := 0 })
    let s2 := advanceStreams s1 k m
    if halts then s2.toState k .halted else s2.toReady k

/-- The parked bundle issues again at the slot's next turn. -/
def reissue (s : State) (k : Nat) : State :=
  (s.modSlot k (fun sl => { sl with wait := .none, held := Held.none, streamsRead := 0 })).toReady k

/-- A swapped context's parked bundle commits in the saved context (R60). -/
def Slot.commitSaved (sl : Slot) : Slot :=
  let m := sl.streamsRead
  { sl.commit with
    saved := .ready, streamsRead := 0
    streams := sl.streams.mapFinIdx (fun i st _ => if m.getLsbD i && st.bound then st.advance else st) }

/-! ## Contexts by core and number (R61) -/

/-- A slot that holds a context: slot 6 never does (R50), and a LOST context stands in its entry (R124). -/
def SlotState.holds (st : SlotState) (k : Nat) : Bool :=
  k % 8 != 6 && st != .empty && st != .swapped && st != .lost

/-- The first of slots `k .. k + n - 1` that holds the context. -/
def findSlot (s : State) (num : Nat) (k : Nat) : Nat → Option Nat
  | 0 => none
  | n + 1 =>
    if (s.slot k).state.holds k = true ∧ (s.slot k).ctxNum = num then some k
    else findSlot s num (k + 1) n

/-- The slot that holds context `num` of core `c`. -/
def ctxSlot (s : State) (c num : Nat) : Option Nat := findSlot s num (c * 8) 8

def hasEntry (c num : Nat) (l : List CtxEntry) : Bool := l.any (fun e => e.core == c && e.slot.ctxNum == num)

def modEntry (c num : Nat) (f : CtxEntry → CtxEntry) (l : List CtxEntry) : List CtxEntry :=
  l.map (fun e => if e.core == c && e.slot.ctxNum == num then f e else e)

/-- The entry of a swapped context, resident or spilled. -/
def ctxEntry (s : State) (c num : Nat) : Option CtxEntry :=
  let cl := s.cluster (clusterOfCore c)
  (cl.cache ++ cl.spilled).find? (fun e => e.core == c && e.slot.ctxNum == num)

/-- Change a swapped context in its entry. -/
def State.modEntryAt (s : State) (c num : Nat) (f : CtxEntry → CtxEntry) : State :=
  s.modCluster (clusterOfCore c) (fun cl => { cl with
    cache := modEntry c num f cl.cache, spilled := modEntry c num f cl.spilled })

/-- The context wherever it stands. -/
def ctxOf (s : State) (c num : Nat) : Option Slot :=
  match ctxSlot s c num with
  | some k => some (s.slot k)
  | none => (ctxEntry s c num).map (·.slot)

/-- Change a swapped context (R60), not a LOST one (R124). One that becomes ready waits from now on, and pre-emption
is considered (R283, R284). -/
def State.modSaved (s : State) (c num : Nat) (f : Slot → Slot) : State :=
  match ctxEntry s c num with
  | some e =>
    if e.lost then s else
    let sl := f e.slot
    let becomes := e.slot.saved != .ready && sl.saved == .ready
    let s1 := s.modEntryAt c num (fun x => { x with slot := sl, since := if becomes then s.cycle else x.since })
    if becomes then s1.next1 (.preemption c sl.world) else s1
  | none => s

/-- A completion, message or reply that names no live context is dropped, counted and recorded (R61). -/
def dropCompletion (s : State) (c num : Nat) (d : Word) : State :=
  hatPost (s.modCore c (fun x => { x with msgDropped := x.msgDropped + 1 })) (dieOfCore c) 0x04 0
    (s.moduleNo * 4194304 + c * 8) (BitVec.ofNat 64 num) d

/-- A failure of an untracked request (R62). -/
def Slot.untracked (sl : Slot) (status : Word) : Slot :=
  if status.toNat % 256 ≠ 0 ∧ !sl.tkerr.getLsbD 8 then { sl with tkerr := BitVec.ofNat 64 (256 + status.toNat % 256) } else sl

/-- `complete(n, s)` on the registers (R59, R60, R62): x0 records a first failure. -/
def Slot.complete (sl : Slot) (reg : Nat) (status : Word) (sig : Sig) : Slot :=
  if reg = 0 then sl.untracked status
  else
    { (sl.putX (regOf reg) status).unpend (regOf reg) with
      tokenSigs := if sig = 0 then sl.tokenSigs else (reg, sig) :: sl.tokenSigs }

/-- Whether a completion ends the wait of a parked bundle by reissue (R58). -/
def wakesOn (sl : Slot) : Bool :=
  match sl.wait with
  | .reissue mask => sl.pending &&& mask == 0
  | _ => false

/-- Whether a FENCE.eng, a TDONE or a TYIELD that waits for tokens or requests has none left (R106,
R331). -/
def drained (sl : Slot) : Bool :=
  match sl.wait with
  | .mem r =>
    match r.op with
    | .fence => sl.outstanding == 0
    | .tdone | .tyield => if r.phase = 0 then sl.pending == 0 else r.phase == 1 && sl.outstanding == 0
    | _ => false
  | _ => false

/-- The first read of a token register ORs in the signature it carries; a .wait form takes it as its
wait ends (R231, R273). -/
def Slot.tokenAcquire (sl : Slot) (reg : Nat) : Slot :=
  let sg := (sl.tokenSigs.filter (fun p => p.1 == reg)).foldl (fun a p => a ||| p.2) 0
  { sl with accCur := sl.accCur ||| sg, tokenSigs := sl.tokenSigs.filter (fun p => p.1 != reg) }

/-- An asynchronous completion (R59 to R62). To a LOST context it is dropped, counted and recorded: R60 has the write
made as usual, R124 has it dropped; mark DEDUCED (log entry 100). -/
def completeCtx (s : State) (c num reg : Nat) (status : Word) (sig : Sig) : State :=
  match ctxSlot s c num with
  | some k =>
    -- nothing is delivered to a polder that is being torn down (R353)
    if (s.polder (s.slot k).world).state = .draining then dropCompletion s c num status else
    let s1 := s.modSlot k (fun sl =>
      { sl.complete reg status sig with outstanding := sl.outstanding - 1 })
    let sl := s1.slot k
    if sl.wait = .engineToken reg ∧ reg ≠ 0 then finishBundle s1 k
    else if wakesOn sl then reissue s1 k
    else if drained sl then s1.next1 (.remoteReply (.ctx c num) .done 0)
    else s1
  | none =>
    match ctxEntry s c num with
    | some e =>
      if e.lost then dropCompletion s c num status
      else
        s.modSaved c num (fun x =>
          let sl := { x.complete reg status sig with outstanding := x.outstanding - 1 }
          if sl.wait = .engineToken reg ∧ reg ≠ 0 then sl.commitSaved
          else if wakesOn sl then { sl with saved := .ready, wait := .none } else sl)
    | none => dropCompletion s c num status

/-- A completion whose A-op result `f` writes a parked bundle's registers, wherever the context stands;
a context that is not parked in this way takes nothing. -/
def finishCtx (s : State) (c num : Nat) (f : Slot → Slot) : State :=
  match ctxSlot s c num with
  | some k => finishBundle (s.modSlot k f) k
  | none =>
    match ctxEntry s c num with
    | some e => if e.lost then dropCompletion s c num 0 else s.modSaved c num (fun x => (f x).commitSaved)
    | none => dropCompletion s c num 0

/-- A fault of a parked bundle found after issue (R67, R197): taken where the context is installed;
a swapped context takes it when it issues again after its install. -/
def faultCtx (s : State) (c num : Nat) (cause : Nat) (val : Word) : State :=
  match ctxSlot s c num with
  | some k => takeTrapAt s k cause val
  | none => s.modSaved c num (fun x => { x with saved := .ready, wait := .none, held := Held.none, streamsRead := 0 })

end Sys2Proof.Machine
end

