-- ==== Sys2Proof/Decode.lean ====
section
/-! DEFINITION. The encoding of bundles (02 R64, R68 to R76, and the field tables of the instruction
chapters): the decoder, which reads any bits and rejects a reserved encoding by name (R70), and the
encoder. -/

namespace Sys2Proof

/-! ## Reserved encodings (R70) -/

/-- Why a half of a bundle is no instruction. -/
inductive Reserved where
  /-- A reserved major opcode, 0x00, or a reserved V-op operation. -/
  | opcode
  /-- A value of f that the instruction does not list. -/
  | function
  /-- A field marked 0 that holds nonzero, VNOP's among them. -/
  | field
  | scope
  | order
  /-- A value of w, or a V-op element type, that the instruction does not accept. -/
  | type
  | mode
  /-- A register number that the instruction does not accept. -/
  | register
  /-- A system-register number that is not in the list of R45. -/
  | sysreg
  /-- An immediate in a V-op register field, out of its range. -/
  | immediate
  /-- A step that is no half of a bundle. -/
  | event
  deriving DecidableEq, Repr

/-- The half of a bundle that a step is, or an event. -/
inductive Half where
  | a | v | event
  deriving DecidableEq, Repr

def Instr.half : Instr → Half

  | .add .. | .sub .. | .and .. | .or .. | .xor .. | .sll ..
  | .srl .. | .sra .. | .slt .. | .sltu .. | .min .. | .max ..
  | .minu .. | .maxu .. | .mul .. | .mulh .. | .mulhu .. | .div ..
  | .divu .. | .rem .. | .remu .. | .clz .. | .ctz .. | .popc ..
  | .addi .. | .andi .. | .ori .. | .xori .. | .slti .. | .sltiu ..
  | .slli .. | .srli .. | .srai .. | .lui .. | .limm .. | .limmZx ..
  | .limmHi .. | .padd .. | .paddi .. | .pset .. | .pget .. | .pchk ..
  | .pchkTrap .. | .beq .. | .bne .. | .blt .. | .bge .. | .bltu ..
  | .bgeu .. | .beod .. | .jal .. | .jalr .. | .sbind .. | .sfree ..
  | .sskip .. | .gets .. | .sets .. | .trap .. | .eret | .halt
  | .nop | .fence .. | .fenceEng .. | .bbc .. | .pref .. | .prefWr ..
  | .ipref .. | .ipin .. | .iunpin .. | .tbinvPage .. | .tbinvRange .. | .tbinvAll ..
  | .tbinvWorld .. | .ld .. | .st .. | .lds .. | .stf .. | .ldp ..
  | .sfe .. | .vld .. | .vst .. | .vldt .. | .vldd .. | .vldx ..
  | .vstx .. | .amoadd .. | .amoand .. | .amoor .. | .amoxor .. | .amoswap ..
  | .amomin .. | .amomax .. | .amominu .. | .amomaxu .. | .amocas .. | .amofadd ..
  | .send .. | .recv .. | .mbpeek .. | .cpy .. | .cpy2d .. | .cpyl ..
  | .cpyg .. | .mma .. | .mmam .. | .qcfg .. | .qpush .. | .mhint ..
  | .gbar .. | .spawn .. | .tdone | .tyield .. | .gcopy .. | .gsend ..
  | .gcmp .. | .ghash .. | .gfree .. | .gstat .. | .gstatStop .. | .sttk ..
  | .stdep .. | .xredAdd .. | .xredMin .. | .xredMax .. | .ltset .. | .tide ..
  | .tideBound .. | .tsend .. | .trecv .. | .chdcl .. | .ltstat .. | .wsetForm ..
  | .wsetGrant .. | .wsetReclaim .. | .wsetShare .. | .wsetPeer .. | .wsetSeal .. | .wsetDrain ..
  | .wsetFree .. | .wsealGenerate .. | .wsealInstall .. | .wsealDestroy .. => .a
  | .vnop | .vadd .. | .vsub .. | .vmul .. | .vfma .. | .vfms ..
  | .vmin .. | .vmax .. | .vabs .. | .vneg .. | .vand .. | .vor ..
  | .vxor .. | .vnot .. | .vsll .. | .vsrl .. | .vsra .. | .vcmpeq ..
  | .vcmplt .. | .vcmple .. | .vsel .. | .vcvt .. | .vshuf .. | .vbcast ..
  | .vext .. | .vins .. | .vdot .. | .vsumr .. | .vmaxr .. | .vrcp ..
  | .vrsq .. | .vrcps .. | .vrsqs .. | .vexp2 .. | .vlog2 .. | .vmodadd ..
  | .vmodsub .. | .vmodmul .. | .vbfly .. => .v
  | .longLatencyResult .. | .localStorePass .. | .energyRefill .. | .completionWrite .. | .contextNumberRelease .. | .remoteReply ..
  | .holdReply .. | .holdReplyResend .. | .remoteTimeout .. | .tagQuarantineEnd .. | .registerMissMicroTrap .. | .registerFetchDone ..
  | .icacheFill .. | .noticeTaken .. | .stewardResume .. | .stewardForwardTrap .. | .stewardAbortTask .. | .stewardCollect ..
  | .preemption .. | .contextSave .. | .contextInstall .. | .contextSpill .. | .spillReadback .. | .sliceExpiry ..
  | .watchdogExpiry .. | .debugStop .. | .debugResume .. | .debugStep .. | .debugContextAccess .. | .breakpointSet ..
  | .breakpointHit .. | .taskPop .. | .dequeReadback .. | .stealRequest .. | .stealBackoffEnd .. | .serviceQueueArrival ..
  | .serviceLoad .. | .serviceStore .. | .serviceAtomic .. | .serviceFill .. | .serviceSyncLoad .. | .serviceSteal ..
  | .mailboxDataArrival .. | .tokenMessageArrival .. | .ringReservationGrant .. | .tilePublish .. | .matrixJobStart .. | .shadowPause ..
  | .normalJobResume .. | .matrixJobRetire .. | .engineRampUpEnd .. | .engineWarmEnd .. | .engineRampDownEnd .. | .copyKickTake ..
  | .copyRequestComplete .. | .copyYield .. | .qcfgApply .. | .barrierComplete .. | .barrierRelease .. | .rdcFillArrival ..
  | .rdcCopyExpiry .. | .signatureBankAge | .hbmWriteBack .. | .launchTailWrite .. | .launchRecordRead .. | .dispatchChoice ..
  | .taskSeeding .. | .ageingRaise .. | .gangPlacement .. | .urgentInstall .. | .nodeEvaluation .. | .vfSoftReset ..
  | .vfHardReset .. | .vfFaultRead .. | .vfRegisterWrite .. | .hostTaskPush .. | .missTableAdmit .. | .pageWalk ..
  | .pageWalkDone .. | .stewardWalkReply .. | .blockCounterFlush .. | .traceHeaderRewrite .. | .graphRequestFinish .. | .objectPacketArrival ..
  | .gsendAckArrival .. | .gsendFinishArrival .. | .gsendDoneArrival .. | .dieLinkDown .. | .drainTimerExpiry .. | .coldReset
  | .warmReset | .fuseMinimumRaise .. | .stewardSramError .. | .stewardWatchdogExpiry | .mctpControlMessage .. | .pldmMessage ..
  | .spdmRequest .. | .vfFunctionLevelReset .. | .pfFunctionLevelReset | .migrationPrepare .. | .migrationTransfer .. | .migrationReceipt ..
  | .migrationErase .. | .migrationCommit .. | .migrationAbort .. | .recoveryWindowExpiry .. | .thermalWarning .. | .supplyDroopWarning
  | .coolantFlowWarning | .thermalTrip .. | .linkFrameReceive .. | .nullFrameSend .. | .linkResync .. | .linkRekey ..
  | .packetForward .. | .creditWaitDrop .. | .pathTableWrite .. | .pathChangeEffect .. | .remoteRequestArrival .. | .reductionContributionArrival ..
  | .reductionDeadline .. | .reductionSlotFree .. | .reductionResultArrival .. | .sttkLanding .. | .sttkFailure .. | .depstoreArrival ..
  | .sluiceFullReply .. | .holdArrival .. | .holdRetry .. | .releaseArrival .. | .sluiceExpiry .. | .declareArrival ..
  | .declareReply .. | .tideArrival .. | .eventArrival .. | .floorExchange .. | .floorReportArrival .. | .keyedAtomicApply ..
  | .localTimeModeExit .. | .programLoad .. | .launchQueueConfigure .. | .stealReplyArrival .. | .depstoreResend .. | .linkBringUp .. => .event

/-- The numbers of R45. -/
def sysregListed (n : Nat) : Bool :=
  n < 0x06 || (0x08 ≤ n && n < 0x0D) || (0x10 ≤ n && n < 0x15) || (0x18 ≤ n && n < 0x1B)
    || (0x20 ≤ n && n < 0x2C) || (0x30 ≤ n && n < 0x34)

/-- A rejection unless the condition holds. -/
def okIf (c : Bool) (r : Reserved) : Option Reserved := if c then none else some r

/-- Two checks in order. -/
def andThen (a b : Option Reserved) : Option Reserved := match a with | some r => some r | none => b

def noAcq (o : BitVec 2) : Bool := o == 0 || o == 2
def noRel (o : BitVec 2) : Bool := o == 0 || o == 1

/-- Scope in a range and order by a test (R196, R415). -/
def ordered (s : BitVec 3) (o : BitVec 2) (lo hi : Nat) (ok : BitVec 2 → Bool) : Option Reserved :=
  andThen (okIf (decide (lo ≤ s.toNat) && decide (s.toNat ≤ hi)) .scope) (okIf (ok o) .order)

/-- An even register pair, which may not reach a stream register's pair (R415). -/
def pairOk (r : Reg) : Option Reserved :=
  okIf (r.toNat % 2 == 0 && r != 24 && r != 26) .register

def evenOk (r : Reg) : Option Reserved := okIf (r.toNat % 2 == 0) .register

/-- Lane width of a V-op element type (R169). -/
def typeWidth (t : Nat) : Nat :=
  if t = 0 ∨ t = 4 ∨ t = 12 ∨ t = 13 then 8
  else if t = 1 ∨ t = 5 ∨ t = 10 ∨ t = 11 then 16
  else if t = 2 ∨ t = 6 ∨ t = 9 then 32
  else 64

def isI (t : Nat) : Bool := t < 8
def isF (t : Nat) : Bool := 8 ≤ t && t < 14
def isIF (t : Nat) : Bool := t < 14
def isH (t : Nat) : Bool := 9 ≤ t && t < 12
def isH64 (t : Nat) : Bool := 8 ≤ t && t < 12
def isAny (t : Nat) : Bool := t < 15
def isM (t : Nat) : Bool := t == 14

/-- The checks of R170: type, mode by type, and the fields vb and vc where the operation marks
them 0. -/
def vCheck (v : VF) (ty : Nat → Bool) (mode : Nat → Nat → Bool) (b c : Bool) : Option Reserved :=
  andThen (okIf (ty v.ty.toNat) .type) <| andThen (okIf (mode v.ty.toNat v.mode.toNat) .mode) <|
    okIf ((b || v.vb == 0) && (c || v.vc == 0)) .field

def mPlain (_ m : Nat) : Bool := m == 0
def mRnd (_ m : Nat) : Bool := m < 3
def mSat (t m : Nat) : Bool := if isI t then m < 2 else m < 3
def mAbs (t m : Nat) : Bool := if isI t then m < 2 else m == 0
def mQuiet (t m : Nat) : Bool := if isI t then m == 0 else m < 2
def mTwo (_ m : Nat) : Bool := m < 2
def mDot (t m : Nat) : Bool := if isI t then m == 0 else m < 3

/-- Number of parts of a conversion (R183). -/
def cvtParts (st dt : Nat) : Nat :=
  Nat.max (typeWidth st) (typeWidth dt) / Nat.min (typeWidth st) (typeWidth dt)

/-- The check that makes a half of a bundle an instruction, after its fields are read (R70, R170 and
the field tables). `none` says that the instruction is well formed. -/
def Instr.reserved : Instr → Option Reserved
  | .pset _ _ _ k => okIf (k != 3) .function
  | .sbind _ t _ => okIf (t != 7) .function
  | .gets _ n | .sets n _ => okIf (sysregListed n.toNat) .sysreg
  | .fence o s | .fenceEng o s => ordered s o 1 5 (fun o => o != 0)
  | .ld m => andThen (okIf (m.w != 7) .type) (ordered m.scope m.order 0 5 noRel)
  | .lds m => andThen (okIf (m.w != 7) .type) (ordered m.scope m.order 1 5 noRel)
  | .st m => andThen (okIf (decide (m.w.toNat < 4)) .type) (ordered m.scope m.order 0 5 noAcq)
  | .stf m => andThen (okIf (decide (m.w.toNat < 4)) .type) (ordered m.scope m.order 1 5 noAcq)
  | .ldp m => andThen (okIf (m.w == 3) .type) (ordered m.scope m.order 1 5 noRel)
  | .sfe m => andThen (okIf (m.w == 3) .type) (ordered m.scope m.order 1 5 noAcq)
  | .vld m => andThen (okIf (decide (m.w.toNat < 5)) .type) (ordered m.scope m.order 0 5 noRel)
  | .vst m => andThen (okIf (decide (m.w.toNat < 5)) .type) (ordered m.scope m.order 0 5 noAcq)
  | .vldt m => andThen (okIf (m.d.toNat % 8 == 0) .register) (ordered m.scope m.order 0 1 noRel)
  | .vldd m =>
    andThen (okIf (m.w == 0) .type) <| andThen (okIf (m.s1.toNat % 4 == 0 && m.s1 != 24) .register)
      (ordered m.scope m.order 0 5 noRel)
  | .vldx m => ordered m.scope m.order 0 1 noRel
  | .vstx m => ordered m.scope m.order 0 1 noAcq
  | .amoadd m | .amoand m | .amoor m | .amoxor m | .amoswap m | .amomin m | .amomax m | .amominu m
  | .amomaxu m | .amocas m | .amofadd m => ordered m.scope m.order 1 5 (fun _ => true)
  | .recv _ d _ => evenOk d
  | .cpy c | .cpyg c => okIf (if c.ring = 1 then c.s1 == 0 else c.q == 0) .field
  | .cpy2d c => andThen (okIf (if c.ring = 1 then c.s1 == 0 else c.q == 0) .field) (pairOk c.s3)
  | .mma m => okIf (decide (m.ty.toNat < 8)) .function
  | .gbar s _ => okIf (decide (1 ≤ s.toNat) && decide (s.toNat ≤ 5)) .scope
  | .spawn _ _ _ _ c => pairOk c
  | .sttk m => ordered m.scope m.order 3 5 noAcq
  | .stdep m => ordered m.scope m.order 5 5 (fun o => o == 2)
  | .xredAdd x | .xredMin x | .xredMax x =>
    andThen (pairOk x.s1) (ordered x.scope x.order 4 5 (fun o => o == 0 || o == 3))
  | .tsend _ _ _ c => pairOk c
  | .trecv d => evenOk d
  | .vadd v | .vsub v => vCheck v isIF mSat true false
  | .vmul v => vCheck v isIF mRnd true false
  | .vfma v | .vfms v => vCheck v isF mRnd true true
  | .vmin v | .vmax v | .vcmpeq v => vCheck v isIF mPlain true false
  | .vabs v | .vneg v => vCheck v isIF mAbs false false
  | .vand v | .vor v | .vxor v => vCheck v isAny mPlain true false
  | .vnot v => vCheck v isAny mPlain false false
  | .vsll v | .vsrl v | .vsra v => vCheck v isI mPlain true false
  | .vcmplt v | .vcmple v => vCheck v isIF mQuiet true false
  | .vsel v | .vshuf v => vCheck v isAny mPlain true true
  | .vcvt v =>
    andThen (vCheck v isIF mRnd true true) <| andThen (okIf (isIF v.vb.toNat) .immediate)
      (okIf (decide (v.vc.toNat < cvtParts v.vb.toNat v.ty.toNat)) .immediate)
  | .vbcast v => vCheck v isAny mPlain false false
  | .vext v | .vins v =>
    andThen (vCheck v isAny mPlain true false)
      (okIf (decide (v.vb.toNat < 128 / typeWidth v.ty.toNat)) .immediate)
  | .vdot v => vCheck v isIF mDot true true
  | .vsumr v => vCheck v isIF mDot false true
  | .vmaxr v => vCheck v isIF mTwo false false
  | .vrcp v | .vrsq v => vCheck v isH mPlain false false
  | .vrcps v | .vrsqs v => vCheck v isH64 mRnd true false
  | .vexp2 v | .vlog2 v => vCheck v isH mRnd false false
  | .vmodadd v | .vmodsub v | .vmodmul v => vCheck v isM mPlain true false
  | .vbfly v => andThen (vCheck v isM mPlain true true) (evenOk v.vd)
  | .add .. | .sub .. | .and .. | .or .. | .xor .. | .sll ..
  | .srl .. | .sra .. | .slt .. | .sltu .. | .min .. | .max ..
  | .minu .. | .maxu .. | .mul .. | .mulh .. | .mulhu .. | .div ..
  | .divu .. | .rem .. | .remu .. | .clz .. | .ctz .. | .popc ..
  | .addi .. | .andi .. | .ori .. | .xori .. | .slti .. | .sltiu ..
  | .slli .. | .srli .. | .srai .. | .lui .. | .limm .. | .limmZx ..
  | .limmHi .. | .padd .. | .paddi .. | .pget .. | .pchk .. | .pchkTrap ..
  | .beq .. | .bne .. | .blt .. | .bge .. | .bltu .. | .bgeu ..
  | .beod .. | .jal .. | .jalr .. | .sfree .. | .sskip .. | .trap ..
  | .eret | .halt | .nop | .bbc .. | .pref .. | .prefWr ..
  | .ipref .. | .ipin .. | .iunpin .. | .tbinvPage .. | .tbinvRange .. | .tbinvAll ..
  | .tbinvWorld .. | .send .. | .mbpeek .. | .cpyl .. | .mmam .. | .qcfg ..
  | .qpush .. | .mhint .. | .tdone | .tyield .. | .gcopy .. | .gsend ..
  | .gcmp .. | .ghash .. | .gfree .. | .gstat .. | .gstatStop .. | .ltset ..
  | .tide .. | .tideBound .. | .chdcl .. | .ltstat .. | .wsetForm .. | .wsetGrant ..
  | .wsetReclaim .. | .wsetShare .. | .wsetPeer .. | .wsetSeal .. | .wsetDrain .. | .wsetFree ..
  | .wsealGenerate .. | .wsealInstall .. | .wsealDestroy .. | .vnop => none
  | .longLatencyResult .. | .localStorePass .. | .energyRefill .. | .completionWrite .. | .contextNumberRelease .. | .remoteReply ..
  | .holdReply .. | .holdReplyResend .. | .remoteTimeout .. | .tagQuarantineEnd .. | .registerMissMicroTrap .. | .registerFetchDone ..
  | .icacheFill .. | .noticeTaken .. | .stewardResume .. | .stewardForwardTrap .. | .stewardAbortTask .. | .stewardCollect ..
  | .preemption .. | .contextSave .. | .contextInstall .. | .contextSpill .. | .spillReadback .. | .sliceExpiry ..
  | .watchdogExpiry .. | .debugStop .. | .debugResume .. | .debugStep .. | .debugContextAccess .. | .breakpointSet ..
  | .breakpointHit .. | .taskPop .. | .dequeReadback .. | .stealRequest .. | .stealBackoffEnd .. | .serviceQueueArrival ..
  | .serviceLoad .. | .serviceStore .. | .serviceAtomic .. | .serviceFill .. | .serviceSyncLoad .. | .serviceSteal ..
  | .mailboxDataArrival .. | .tokenMessageArrival .. | .ringReservationGrant .. | .tilePublish .. | .matrixJobStart .. | .shadowPause ..
  | .normalJobResume .. | .matrixJobRetire .. | .engineRampUpEnd .. | .engineWarmEnd .. | .engineRampDownEnd .. | .copyKickTake ..
  | .copyRequestComplete .. | .copyYield .. | .qcfgApply .. | .barrierComplete .. | .barrierRelease .. | .rdcFillArrival ..
  | .rdcCopyExpiry .. | .signatureBankAge | .hbmWriteBack .. | .launchTailWrite .. | .launchRecordRead .. | .dispatchChoice ..
  | .taskSeeding .. | .ageingRaise .. | .gangPlacement .. | .urgentInstall .. | .nodeEvaluation .. | .vfSoftReset ..
  | .vfHardReset .. | .vfFaultRead .. | .vfRegisterWrite .. | .hostTaskPush .. | .missTableAdmit .. | .pageWalk ..
  | .pageWalkDone .. | .stewardWalkReply .. | .blockCounterFlush .. | .traceHeaderRewrite .. | .graphRequestFinish .. | .objectPacketArrival ..
  | .gsendAckArrival .. | .gsendFinishArrival .. | .gsendDoneArrival .. | .dieLinkDown .. | .drainTimerExpiry .. | .coldReset
  | .warmReset | .fuseMinimumRaise .. | .stewardSramError .. | .stewardWatchdogExpiry | .mctpControlMessage .. | .pldmMessage ..
  | .spdmRequest .. | .vfFunctionLevelReset .. | .pfFunctionLevelReset | .migrationPrepare .. | .migrationTransfer .. | .migrationReceipt ..
  | .migrationErase .. | .migrationCommit .. | .migrationAbort .. | .recoveryWindowExpiry .. | .thermalWarning .. | .supplyDroopWarning
  | .coolantFlowWarning | .thermalTrip .. | .linkFrameReceive .. | .nullFrameSend .. | .linkResync .. | .linkRekey ..
  | .packetForward .. | .creditWaitDrop .. | .pathTableWrite .. | .pathChangeEffect .. | .remoteRequestArrival .. | .reductionContributionArrival ..
  | .reductionDeadline .. | .reductionSlotFree .. | .reductionResultArrival .. | .sttkLanding .. | .sttkFailure .. | .depstoreArrival ..
  | .sluiceFullReply .. | .holdArrival .. | .holdRetry .. | .releaseArrival .. | .sluiceExpiry .. | .declareArrival ..
  | .declareReply .. | .tideArrival .. | .eventArrival .. | .floorExchange .. | .floorReportArrival .. | .keyedAtomicApply ..
  | .localTimeModeExit .. | .programLoad .. | .launchQueueConfigure .. | .stealReplyArrival .. | .depstoreResend .. | .linkBringUp .. => some .event

/-! ## Raw fields of the two halves -/

/-- The fields that every A-op format is cut into (R68): format REG names them; the others join
neighbours. -/
structure RawA where
  f : BitVec 5
  s3 : Reg
  s2 : Reg
  s1 : Reg
  d : Reg
  op : BitVec 7
  deriving DecidableEq, Repr

/-- The fields of a V-op word (R71). -/
structure RawV where
  v : VF
  op : BitVec 6
  deriving DecidableEq, Repr

def RawA.of (w : BitVec 32) : RawA :=
  { f := w.extractLsb' 27 5, s3 := w.extractLsb' 22 5, s2 := w.extractLsb' 17 5,
    s1 := w.extractLsb' 12 5, d := w.extractLsb' 7 5, op := w.extractLsb' 0 7 }

def RawA.word (r : RawA) : BitVec 32 := r.f ++ r.s3 ++ r.s2 ++ r.s1 ++ r.d ++ r.op

def RawV.of (w : BitVec 32) : RawV :=
  { v := { mode := w.extractLsb' 30 2, ty := w.extractLsb' 26 4, vc := w.extractLsb' 21 5,
           vb := w.extractLsb' 16 5, va := w.extractLsb' 11 5, vd := w.extractLsb' 6 5 },
    op := w.extractLsb' 0 6 }

def RawV.word (r : RawV) : BitVec 32 :=
  r.v.mode ++ r.v.ty ++ r.v.vc ++ r.v.vb ++ r.v.va ++ r.v.vd ++ r.op

namespace RawA

/-- imm15 of format IMM. -/
def imm15 (r : RawA) : BitVec 15 := r.f ++ r.s3 ++ r.s2
/-- imm20 of format UPP. -/
def imm20 (r : RawA) : BitVec 20 := r.f ++ r.s3 ++ r.s2 ++ r.s1
/-- off of format BR: its high ten bits stand in [31:22], its low five in [11:7]. -/
def off (r : RawA) : BitVec 15 := r.f ++ r.s3 ++ r.d
/-- sn of format SYS. -/
def sn (r : RawA) : BitVec 10 := r.f ++ r.s3
/-- disp of format MEM, [31:25]. -/
def disp (r : RawA) : BitVec 7 := r.f ++ r.s3.extractLsb' 3 2
/-- scope of MEM and MRR, [24:22]. -/
def scope (r : RawA) : BitVec 3 := r.s3.extractLsb' 0 3
/-- order of MEM, [21:20], and of MRR, [26:25]. -/
def orderMem (r : RawA) : BitVec 2 := r.s2.extractLsb' 3 2
def orderMrr (r : RawA) : BitVec 2 := r.s3.extractLsb' 3 2
/-- w of MEM, [19:17]. -/
def w (r : RawA) : BitVec 3 := r.s2.extractLsb' 0 3

def mem (r : RawA) : MemF := ⟨r.disp, r.scope, r.orderMem, r.w, r.s1, r.d⟩
/-- Format MRR with the element size in f[1:0]. -/
def mrr (r : RawA) : MrrF := ⟨r.f.extractLsb' 0 2, r.orderMrr, r.scope, r.s2, r.s1, r.d⟩
def amo (r : RawA) : AmoF := ⟨r.f.extractLsb' 4 1, r.orderMrr, r.scope, r.s2, r.s1, r.d⟩
def xred (r : RawA) : XredF :=
  ⟨r.f.extractLsb' 3 1, r.f.extractLsb' 2 1, r.orderMrr, r.scope, r.s2, r.s1, r.d⟩
def cpy (r : RawA) : CpyF := ⟨r.f.extractLsb' 4 1, r.f.extractLsb' 0 4, r.s3, r.s2, r.s1, r.d⟩
def mma (r : RawA) : MmaF := ⟨r.f.extractLsb' 4 1, r.f.extractLsb' 0 4, r.s3, r.s2, r.s1, r.d⟩

end RawA

/-! ## The decoder -/

abbrev Decoded := Except Reserved Instr

/-- A field that must hold 0. -/
def zero {n : Nat} (x : BitVec n) (k : Decoded) : Decoded := if x = 0 then k else .error .field

/-- A value of f below a bound. -/
def below (f : BitVec 5) (n : Nat) (k : Decoded) : Decoded := if f.toNat < n then k else .error .function

/-- A field whose value selects the instruction, f or a register field, as the tables list it. -/
def unlisted : Decoded := .error .function

/-- ALU (R79). -/
def decodeAlu (r : RawA) : Decoded :=
  zero r.s3 <| match r.f.toNat with
  | 0 => .ok (.add r.d r.s1 r.s2)
  | 1 => .ok (.sub r.d r.s1 r.s2)
  | 2 => .ok (.and r.d r.s1 r.s2)
  | 3 => .ok (.or r.d r.s1 r.s2)
  | 4 => .ok (.xor r.d r.s1 r.s2)
  | 5 => .ok (.sll r.d r.s1 r.s2)
  | 6 => .ok (.srl r.d r.s1 r.s2)
  | 7 => .ok (.sra r.d r.s1 r.s2)
  | 8 => .ok (.slt r.d r.s1 r.s2)
  | 9 => .ok (.sltu r.d r.s1 r.s2)
  | 10 => .ok (.min r.d r.s1 r.s2)
  | 11 => .ok (.max r.d r.s1 r.s2)
  | 12 => .ok (.minu r.d r.s1 r.s2)
  | 13 => .ok (.maxu r.d r.s1 r.s2)
  | 14 => .ok (.mul r.d r.s1 r.s2)
  | 15 => .ok (.mulh r.d r.s1 r.s2)
  | 16 => .ok (.mulhu r.d r.s1 r.s2)
  | 17 => .ok (.div r.d r.s1 r.s2)
  | 18 => .ok (.divu r.d r.s1 r.s2)
  | 19 => .ok (.rem r.d r.s1 r.s2)
  | 20 => .ok (.remu r.d r.s1 r.s2)
  | 21 => zero r.s2 (.ok (.clz r.d r.s1))
  | 22 => zero r.s2 (.ok (.ctz r.d r.s1))
  | 23 => zero r.s2 (.ok (.popc r.d r.s1))
  | _ => unlisted

/-- A shift by an immediate: imm15[14:6] is 0 (R69, R81). -/
def decodeShift (r : RawA) (k : Reg → Reg → BitVec 6 → Instr) : Decoded :=
  zero (r.imm15.extractLsb' 6 9) (.ok (k r.d r.s1 (r.imm15.extractLsb' 0 6)))

/-- LIMM (R83): s1 selects the variant. -/
def decodeLimm (r : RawA) (hi : BitVec 32) : Decoded :=
  zero r.f <| zero r.s3 <| zero r.s2 <| match r.s1.toNat with
  | 0 => .ok (.limm r.d hi)
  | 1 => .ok (.limmZx r.d hi)
  | 2 => .ok (.limmHi r.d hi)
  | _ => unlisted

/-- A stream register field: 24 to 27 (R93). -/
def streamField (x : Reg) (k : BitVec 2 → Decoded) : Decoded :=
  if x.extractLsb' 2 3 = 6 then k (x.extractLsb' 0 2) else .error .register

/-- BEOD (R97). -/
def decodeBeod (r : RawA) : Decoded :=
  streamField r.s1 fun n =>
    if r.s2.extractLsb' 2 3 = 0 then .ok (.beod n (r.s2.extractLsb' 0 2) r.off) else .error .register

/-- The level field of IPREF, IPIN and IUNPIN (R108). -/
def decodeLevel (r : RawA) (k : BitVec 1 → Decoded) : Decoded :=
  below r.f 2 (zero r.s3 (k (r.f.extractLsb' 0 1)))

/-- PREF (R204): every field but the base, the displacement and d is fixed. -/
def decodePref (r : RawA) : Decoded :=
  if r.w ≠ 3 then .error .type
  else if r.scope ≠ 3 then .error .scope
  else if r.orderMem ≠ 0 then .error .order
  else match r.d.toNat with
    | 0 => .ok (.pref r.s1 r.disp)
    | 1 => .ok (.prefWr r.s1 r.disp)
    | _ => .error .field

/-- TBINV (R327). -/
def decodeTbinv (r : RawA) : Decoded :=
  zero r.s3 <| match r.f.toNat with
  | 0 => zero r.s2 (.ok (.tbinvPage r.d r.s1))
  | 1 => .ok (.tbinvRange r.d r.s1 r.s2)
  | 2 => zero r.s1 (zero r.s2 (.ok (.tbinvAll r.d)))
  | 3 => zero r.s1 (.ok (.tbinvWorld r.d r.s2))
  | _ => unlisted

/-- AMO (R209). -/
def decodeAmo (r : RawA) : Decoded :=
  match (r.f.extractLsb' 0 4).toNat with
  | 0 => .ok (.amoadd r.amo)
  | 1 => .ok (.amoand r.amo)
  | 2 => .ok (.amoor r.amo)
  | 3 => .ok (.amoxor r.amo)
  | 4 => .ok (.amoswap r.amo)
  | 5 => .ok (.amomin r.amo)
  | 6 => .ok (.amomax r.amo)
  | 7 => .ok (.amominu r.amo)
  | 8 => .ok (.amomaxu r.amo)
  | 9 => .ok (.amocas r.amo)
  | 10 => .ok (.amofadd r.amo)
  | _ => unlisted

/-- XRED (R420). -/
def decodeXred (r : RawA) : Decoded :=
  if r.f.extractLsb' 4 1 = 1 then .error .function
  else match (r.f.extractLsb' 0 2).toNat with
    | 0 => .ok (.xredAdd r.xred)
    | 1 => .ok (.xredMin r.xred)
    | 2 => .ok (.xredMax r.xred)
    | _ => unlisted

/-- f is 0, or 16 for .wait (R246, R327). -/
def decodeWait (r : RawA) (k : BitVec 1 → Decoded) : Decoded :=
  if r.f.extractLsb' 0 4 = 0 then k (r.f.extractLsb' 4 1) else .error .function

/-- A graph instruction (R327). -/
def decodeGraph (r : RawA) (k : BitVec 1 → Reg → Reg → Instr) : Decoded :=
  zero r.s3 (zero r.s2 (decodeWait r fun w => .ok (k w r.d r.s1)))

/-- WSET and WSEAL (R351). -/
def decodeWset (r : RawA) : Decoded :=
  zero r.s3 <| match r.f.toNat with
  | 0 => .ok (.wsetForm r.d r.s1 r.s2)
  | 1 => .ok (.wsetGrant r.d r.s1 r.s2)
  | 2 => .ok (.wsetReclaim r.d r.s1 r.s2)
  | 3 => .ok (.wsetShare r.d r.s1 r.s2)
  | 4 => .ok (.wsetPeer r.d r.s1 r.s2)
  | 5 => .ok (.wsetSeal r.d r.s1 r.s2)
  | 6 => .ok (.wsetDrain r.d r.s1 r.s2)
  | 7 => .ok (.wsetFree r.d r.s1 r.s2)
  | _ => unlisted

def decodeWseal (r : RawA) : Decoded :=
  zero r.s3 <| match r.f.toNat with
  | 0 => .ok (.wsealGenerate r.d r.s1 r.s2)
  | 1 => .ok (.wsealInstall r.d r.s1 r.s2)
  | 2 => .ok (.wsealDestroy r.d r.s1 r.s2)
  | _ => unlisted

/-- Every field above the opcode is 0 (R103 to R105). -/
def decodeBare (r : RawA) (i : Instr) : Decoded :=
  zero r.f (zero r.s3 (zero r.s2 (zero r.s1 (zero r.d (.ok i)))))

/-- The A-op map (R75), before the checks of `Instr.reserved`. -/
def decodeRawA (r : RawA) (hi : BitVec 32) : Decoded :=
  match r.op.toNat with
  | 0x01 => decodeAlu r
  | 0x02 => .ok (.addi r.d r.s1 r.imm15)
  | 0x03 => .ok (.andi r.d r.s1 r.imm15)
  | 0x04 => .ok (.ori r.d r.s1 r.imm15)
  | 0x05 => .ok (.xori r.d r.s1 r.imm15)
  | 0x06 => .ok (.slti r.d r.s1 r.imm15)
  | 0x07 => .ok (.sltiu r.d r.s1 r.imm15)
  | 0x08 => decodeShift r .slli
  | 0x09 => decodeShift r .srli
  | 0x0A => decodeShift r .srai
  | 0x0B => .ok (.lui r.d r.imm20)
  | 0x0C => decodeLimm r hi
  | 0x10 => zero r.s3 (below r.f 8 (.ok (.padd r.d r.s1 r.s2 (r.f.extractLsb' 0 3))))
  | 0x11 => .ok (.paddi r.d r.s1 r.imm15)
  | 0x12 => zero r.s3 (below r.f 4 (.ok (.pset r.d r.s1 r.s2 (r.f.extractLsb' 0 2))))
  | 0x13 => zero r.s3 (zero r.s2 (below r.f 4 (.ok (.pget r.d r.s1 (r.f.extractLsb' 0 2)))))
  | 0x14 => match r.f.toNat with
    | 0 => .ok (.pchk r.d r.s1 r.s2 r.s3)
    | 1 => .ok (.pchkTrap r.d r.s1 r.s2 r.s3)
    | _ => unlisted
  | 0x18 => .ok (.beq r.s1 r.s2 r.off)
  | 0x19 => .ok (.bne r.s1 r.s2 r.off)
  | 0x1A => .ok (.blt r.s1 r.s2 r.off)
  | 0x1B => .ok (.bge r.s1 r.s2 r.off)
  | 0x1C => .ok (.bltu r.s1 r.s2 r.off)
  | 0x1D => .ok (.bgeu r.s1 r.s2 r.off)
  | 0x1E => decodeBeod r
  | 0x20 => zero r.f (zero r.s3 (zero r.s2 (zero r.s1 (.ok (.jal r.d hi)))))
  | 0x21 => .ok (.jalr r.d r.s1 r.imm15)
  | 0x22 => zero r.s3 <| zero r.s2 <| below r.f 8 <| streamField r.d fun n =>
      .ok (.sbind n (r.f.extractLsb' 0 3) r.s1)
  | 0x23 => zero r.f <| zero r.s3 <| zero r.s2 <| zero r.s1 <| streamField r.d fun n => .ok (.sfree n)
  | 0x24 => zero r.f <| zero r.s3 <| zero r.s2 <| streamField r.d fun n => .ok (.sskip n r.s1)
  | 0x28 => zero r.s2 (zero r.s1 (.ok (.gets r.d r.sn)))
  | 0x29 => zero r.s2 (zero r.d (.ok (.sets r.sn r.s1)))
  | 0x2A => zero r.s1 (zero r.d (.ok (.trap r.imm15)))
  | 0x2B => decodeBare r .eret
  | 0x2C => decodeBare r .halt
  | 0x2D => decodeBare r .nop
  | 0x2E => zero r.s2 <| zero r.s1 <| zero r.d <| match r.f.toNat with
    | 0 => .ok (.fence r.orderMrr r.scope)
    | 1 => .ok (.fenceEng r.orderMrr r.scope)
    | _ => unlisted
  | 0x2F => zero r.d (.ok (.bbc r.s1 r.imm15))
  | 0x30 => decodePref r
  | 0x31 => zero r.d (decodeLevel r fun l => .ok (.ipref l r.s1 r.s2))
  | 0x32 => decodeLevel r fun l => .ok (.ipin l r.d r.s1 r.s2)
  | 0x33 => zero r.d (decodeLevel r fun l => .ok (.iunpin l r.s1 r.s2))
  | 0x34 => decodeTbinv r
  | 0x38 => .ok (.ld r.mem)
  | 0x39 => .ok (.st r.mem)
  | 0x3A => .ok (.lds r.mem)
  | 0x3B => .ok (.stf r.mem)
  | 0x3C => .ok (.ldp r.mem)
  | 0x3D => .ok (.sfe r.mem)
  | 0x40 => .ok (.vld r.mem)
  | 0x41 => .ok (.vst r.mem)
  | 0x42 => .ok (.vldt r.mem)
  | 0x43 => .ok (.vldd r.mem)
  | 0x44 => below r.f 4 (.ok (.vldx r.mrr))
  | 0x45 => below r.f 4 (.ok (.vstx r.mrr))
  | 0x47 => decodeAmo r
  | 0x48 => .ok (.send (r.f.extractLsb' 4 1) (r.f.extractLsb' 0 4) r.d r.s1 r.s2 r.s3)
  | 0x49 => zero r.s3 (zero r.s2 (below r.f 2 (.ok (.recv (r.f.extractLsb' 0 1) r.d r.s1))))
  | 0x4A => zero r.f (zero r.s3 (zero r.s2 (.ok (.mbpeek r.d r.s1))))
  | 0x4C => .ok (.cpy r.cpy)
  | 0x4D => .ok (.cpy2d r.cpy)
  | 0x4E => zero r.s3 <| zero r.s2 <|
      if r.f.extractLsb' 4 1 = 1 then .ok (.cpyl (r.f.extractLsb' 0 4) r.d r.s1) else .error .function
  | 0x4F => .ok (.cpyg r.cpy)
  | 0x50 => .ok (.mma r.mma)
  | 0x51 => decodeWait r fun w => .ok (.mmam w r.d r.s1 r.s2 r.s3)
  | 0x52 => zero r.f <| zero r.s3 <| if r.s2.extractLsb' 4 1 = 0
      then .ok (.qcfg (r.s2.extractLsb' 0 4) r.d r.s1) else .error .register
  | 0x53 => zero r.f <| zero r.s3 <| if r.s2.extractLsb' 4 1 = 0
      then .ok (.qpush (r.s2.extractLsb' 0 4) r.d r.s1) else .error .register
  | 0x54 => zero r.f (zero r.s3 (zero r.s2 (zero r.d (.ok (.mhint r.s1)))))
  | 0x55 => zero r.s3 (zero r.s2 (zero r.d (below r.f 8 (.ok (.gbar (r.f.extractLsb' 0 3) r.s1)))))
  | 0x58 => below r.f 2 (.ok (.spawn (r.f.extractLsb' 0 1) r.d r.s1 r.s2 r.s3))
  | 0x59 => decodeBare r .tdone
  | 0x5A => zero r.f (zero r.s3 (.ok (.tyield r.d r.s1 r.s2)))
  | 0x5C => decodeGraph r .gcopy
  | 0x5D => decodeWait r fun w => .ok (.gsend w r.d r.s1 r.s2 r.s3)
  | 0x5E => decodeGraph r .gcmp
  | 0x5F => decodeGraph r .ghash
  | 0x60 => decodeGraph r .gfree
  | 0x61 => zero r.s3 <| zero r.s2 <| match r.f.toNat with
    | 0 => .ok (.gstat r.d r.s1)
    | 1 => .ok (.gstatStop r.d r.s1)
    | _ => unlisted
  | 0x64 => below r.f 4 (.ok (.sttk r.mrr))
  | 0x65 => below r.f 4 (.ok (.stdep r.mrr))
  | 0x66 => decodeXred r
  | 0x68 => zero r.f (zero r.s3 (zero r.s2 (.ok (.ltset r.d r.s1))))
  | 0x69 => zero r.s3 <| zero r.s2 <| match r.f.toNat with
    | 0 => zero r.s1 (.ok (.tide r.d))
    | 1 => .ok (.tideBound r.d r.s1)
    | _ => unlisted
  | 0x6A => zero r.f (.ok (.tsend r.d r.s1 r.s2 r.s3))
  | 0x6B => zero r.f (zero r.s3 (zero r.s2 (zero r.s1 (.ok (.trecv r.d)))))
  | 0x6C => zero r.s3 (below r.f 8 (.ok (.chdcl (r.f.extractLsb' 0 3) r.d r.s1 r.s2)))
  | 0x6D => zero r.s3 (zero r.s2 (below r.f 8 (.ok (.ltstat (r.f.extractLsb' 0 3) r.d r.s1))))
  | 0x70 => decodeWset r
  | 0x71 => decodeWseal r
  | _ => .error .opcode

/-- The V-op map (R76), before the checks of `Instr.reserved`. VNOP is the all-zero word (R64). -/
def decodeRawV (r : RawV) : Decoded :=
  match r.op.toNat with
  | 0 => if r.v = ⟨0, 0, 0, 0, 0, 0⟩ then .ok .vnop else .error .field
  | 1 => .ok (.vadd r.v)
  | 2 => .ok (.vsub r.v)
  | 3 => .ok (.vmul r.v)
  | 4 => .ok (.vfma r.v)
  | 5 => .ok (.vfms r.v)
  | 6 => .ok (.vmin r.v)
  | 7 => .ok (.vmax r.v)
  | 8 => .ok (.vabs r.v)
  | 9 => .ok (.vneg r.v)
  | 10 => .ok (.vand r.v)
  | 11 => .ok (.vor r.v)
  | 12 => .ok (.vxor r.v)
  | 13 => .ok (.vnot r.v)
  | 14 => .ok (.vsll r.v)
  | 15 => .ok (.vsrl r.v)
  | 16 => .ok (.vsra r.v)
  | 17 => .ok (.vcmpeq r.v)
  | 18 => .ok (.vcmplt r.v)
  | 19 => .ok (.vcmple r.v)
  | 20 => .ok (.vsel r.v)
  | 21 => .ok (.vcvt r.v)
  | 22 => .ok (.vshuf r.v)
  | 23 => .ok (.vbcast r.v)
  | 24 => .ok (.vext r.v)
  | 25 => .ok (.vins r.v)
  | 26 => .ok (.vdot r.v)
  | 27 => .ok (.vsumr r.v)
  | 28 => .ok (.vmaxr r.v)
  | 32 => .ok (.vrcp r.v)
  | 33 => .ok (.vrsq r.v)
  | 34 => .ok (.vrcps r.v)
  | 35 => .ok (.vrsqs r.v)
  | 36 => .ok (.vexp2 r.v)
  | 37 => .ok (.vlog2 r.v)
  | 40 => .ok (.vmodadd r.v)
  | 41 => .ok (.vmodsub r.v)
  | 42 => .ok (.vmodmul r.v)
  | 43 => .ok (.vbfly r.v)
  | _ => .error .opcode

/-- Reject what the field checks exclude. -/
def checked (d : Decoded) : Decoded :=
  match d with
  | .ok i => match i.reserved with
    | none => .ok i
    | some e => .error e
  | .error e => .error e

/-- The A-op of a bundle with the given halves. -/
def decodeA (lo hi : BitVec 32) : Decoded := checked (decodeRawA (RawA.of lo) hi)

def decodeV (w : BitVec 32) : Decoded := checked (decodeRawV (RawV.of w))

/-- Whether bits [63:32] are an immediate (R64): LIMM and JAL, whatever else the A-op holds. -/
def wideOp (lo : BitVec 32) : Bool := (RawA.of lo).op == 0x0C || (RawA.of lo).op == 0x20

/-- The two halves of a bundle; the high half of a wide bundle is no V-op (R64). -/
def decodeBundle (b : BitVec 64) : Decoded × Decoded :=
  let lo := b.extractLsb' 0 32
  let hi := b.extractLsb' 32 32
  (decodeA lo hi, if wideOp lo then .ok .vnop else decodeV hi)

/-- What the decoder reads from an instruction of `nbits` bits, numbered from the A-op's bit 0: an
A-op, or, where the low 32 bits are no A-op, the V-op whose word they are. -/
def decodeTableWord (nbits w : Nat) : Option Instr :=
  let b := BitVec.ofNat 64 (w % 2 ^ nbits)
  match decodeA (b.extractLsb' 0 32) (b.extractLsb' 32 32) with
  | .ok i => some i
  | .error _ =>
    match decodeV (b.extractLsb' 0 32) with
    | .ok i => some i
    | .error _ => none

/-! ## The encoder -/

namespace RawA

/-- The word fields of each format from its own fields, with the major opcode. -/
def ofReg (op : BitVec 7) (f : BitVec 5) (s3 s2 s1 d : Reg) : RawA := ⟨f, s3, s2, s1, d, op⟩
def ofImm (op : BitVec 7) (i : BitVec 15) (s1 d : Reg) : RawA :=
  ⟨i.extractLsb' 10 5, i.extractLsb' 5 5, i.extractLsb' 0 5, s1, d, op⟩
def ofUpp (op : BitVec 7) (i : BitVec 20) (d : Reg) : RawA :=
  ⟨i.extractLsb' 15 5, i.extractLsb' 10 5, i.extractLsb' 5 5, i.extractLsb' 0 5, d, op⟩
def ofBr (op : BitVec 7) (o : BitVec 15) (s2 s1 : Reg) : RawA :=
  ⟨o.extractLsb' 10 5, o.extractLsb' 5 5, s2, s1, o.extractLsb' 0 5, op⟩
def ofSys (op : BitVec 7) (n : BitVec 10) (s1 d : Reg) : RawA :=
  ⟨n.extractLsb' 5 5, n.extractLsb' 0 5, 0, s1, d, op⟩
def ofMem (op : BitVec 7) (m : MemF) : RawA :=
  ⟨m.disp.extractLsb' 2 5, m.disp.extractLsb' 0 2 ++ m.scope, m.order ++ m.w, m.s1, m.d, op⟩
def ofMrr (op : BitVec 7) (f : BitVec 5) (o : BitVec 2) (s : BitVec 3) (s2 s1 d : Reg) : RawA :=
  ⟨f, o ++ s, s2, s1, d, op⟩
def ofSize (op : BitVec 7) (m : MrrF) : RawA :=
  ofMrr op ((0 : BitVec 3) ++ m.size) m.order m.scope m.s2 m.s1 m.d
def ofAmo (f : BitVec 4) (m : AmoF) : RawA := ofMrr 0x47 (m.wide ++ f) m.order m.scope m.s2 m.s1 m.d
def ofXred (f : BitVec 2) (x : XredF) : RawA :=
  ofMrr 0x66 ((0 : BitVec 1) ++ x.ord ++ x.nan ++ f) x.order x.scope x.s2 x.s1 x.d
def ofCpy (op : BitVec 7) (c : CpyF) : RawA := ofReg op (c.ring ++ c.q) c.s3 c.s2 c.s1 c.d
def ofWait (op : BitVec 7) (w : BitVec 1) (s3 s2 s1 d : Reg) : RawA :=
  ofReg op (w ++ (0 : BitVec 4)) s3 s2 s1 d
/-- A stream register's number. -/
def streamReg (n : BitVec 2) : Reg := (6 : BitVec 3) ++ n

end RawA

open RawA in
/-- The A-op fields of an instruction, with the immediate half of a wide bundle. -/
def encodeRawA : Instr → Option (RawA × BitVec 32)
  | .add d a b => some (ofReg 0x01 0 0 b a d, 0)
  | .sub d a b => some (ofReg 0x01 1 0 b a d, 0)
  | .and d a b => some (ofReg 0x01 2 0 b a d, 0)
  | .or d a b => some (ofReg 0x01 3 0 b a d, 0)
  | .xor d a b => some (ofReg 0x01 4 0 b a d, 0)
  | .sll d a b => some (ofReg 0x01 5 0 b a d, 0)
  | .srl d a b => some (ofReg 0x01 6 0 b a d, 0)
  | .sra d a b => some (ofReg 0x01 7 0 b a d, 0)
  | .slt d a b => some (ofReg 0x01 8 0 b a d, 0)
  | .sltu d a b => some (ofReg 0x01 9 0 b a d, 0)
  | .min d a b => some (ofReg 0x01 10 0 b a d, 0)
  | .max d a b => some (ofReg 0x01 11 0 b a d, 0)
  | .minu d a b => some (ofReg 0x01 12 0 b a d, 0)
  | .maxu d a b => some (ofReg 0x01 13 0 b a d, 0)
  | .mul d a b => some (ofReg 0x01 14 0 b a d, 0)
  | .mulh d a b => some (ofReg 0x01 15 0 b a d, 0)
  | .mulhu d a b => some (ofReg 0x01 16 0 b a d, 0)
  | .div d a b => some (ofReg 0x01 17 0 b a d, 0)
  | .divu d a b => some (ofReg 0x01 18 0 b a d, 0)
  | .rem d a b => some (ofReg 0x01 19 0 b a d, 0)
  | .remu d a b => some (ofReg 0x01 20 0 b a d, 0)
  | .clz d a => some (ofReg 0x01 21 0 0 a d, 0)
  | .ctz d a => some (ofReg 0x01 22 0 0 a d, 0)
  | .popc d a => some (ofReg 0x01 23 0 0 a d, 0)
  | .addi d a i => some (ofImm 0x02 i a d, 0)
  | .andi d a i => some (ofImm 0x03 i a d, 0)
  | .ori d a i => some (ofImm 0x04 i a d, 0)
  | .xori d a i => some (ofImm 0x05 i a d, 0)
  | .slti d a i => some (ofImm 0x06 i a d, 0)
  | .sltiu d a i => some (ofImm 0x07 i a d, 0)
  | .slli d a n => some (ofImm 0x08 ((0 : BitVec 9) ++ n) a d, 0)
  | .srli d a n => some (ofImm 0x09 ((0 : BitVec 9) ++ n) a d, 0)
  | .srai d a n => some (ofImm 0x0A ((0 : BitVec 9) ++ n) a d, 0)
  | .lui d i => some (ofUpp 0x0B i d, 0)
  | .limm d i => some (ofReg 0x0C 0 0 0 0 d, i)
  | .limmZx d i => some (ofReg 0x0C 0 0 0 1 d, i)
  | .limmHi d i => some (ofReg 0x0C 0 0 0 2 d, i)
  | .padd d a b h => some (ofReg 0x10 ((0 : BitVec 2) ++ h) 0 b a d, 0)
  | .paddi d a i => some (ofImm 0x11 i a d, 0)
  | .pset d a b k => some (ofReg 0x12 ((0 : BitVec 3) ++ k) 0 b a d, 0)
  | .pget d a k => some (ofReg 0x13 ((0 : BitVec 3) ++ k) 0 0 a d, 0)
  | .pchk d a b c => some (ofReg 0x14 0 c b a d, 0)
  | .pchkTrap d a b c => some (ofReg 0x14 1 c b a d, 0)
  | .beq a b o => some (ofBr 0x18 o b a, 0)
  | .bne a b o => some (ofBr 0x19 o b a, 0)
  | .blt a b o => some (ofBr 0x1A o b a, 0)
  | .bge a b o => some (ofBr 0x1B o b a, 0)
  | .bltu a b o => some (ofBr 0x1C o b a, 0)
  | .bgeu a b o => some (ofBr 0x1D o b a, 0)
  | .beod n k o => some (ofBr 0x1E o ((0 : BitVec 3) ++ k) (streamReg n), 0)
  | .jal d i => some (ofReg 0x20 0 0 0 0 d, i)
  | .jalr d a i => some (ofImm 0x21 i a d, 0)
  | .sbind n t a => some (ofReg 0x22 ((0 : BitVec 2) ++ t) 0 0 a (streamReg n), 0)
  | .sfree n => some (ofReg 0x23 0 0 0 0 (streamReg n), 0)
  | .sskip n a => some (ofReg 0x24 0 0 0 a (streamReg n), 0)
  | .gets d n => some (ofSys 0x28 n 0 d, 0)
  | .sets n a => some (ofSys 0x29 n a 0, 0)
  | .trap i => some (ofImm 0x2A i 0 0, 0)
  | .eret => some (ofReg 0x2B 0 0 0 0 0, 0)
  | .halt => some (ofReg 0x2C 0 0 0 0 0, 0)
  | .nop => some (ofReg 0x2D 0 0 0 0 0, 0)
  | .fence o s => some (ofMrr 0x2E 0 o s 0 0 0, 0)
  | .fenceEng o s => some (ofMrr 0x2E 1 o s 0 0 0, 0)
  | .bbc a i => some (ofImm 0x2F i a 0, 0)
  | .pref a p => some (ofMem 0x30 ⟨p, 3, 0, 3, a, 0⟩, 0)
  | .prefWr a p => some (ofMem 0x30 ⟨p, 3, 0, 3, a, 1⟩, 0)
  | .ipref l a b => some (ofReg 0x31 ((0 : BitVec 4) ++ l) 0 b a 0, 0)
  | .ipin l d a b => some (ofReg 0x32 ((0 : BitVec 4) ++ l) 0 b a d, 0)
  | .iunpin l a b => some (ofReg 0x33 ((0 : BitVec 4) ++ l) 0 b a 0, 0)
  | .tbinvPage d a => some (ofReg 0x34 0 0 0 a d, 0)
  | .tbinvRange d a b => some (ofReg 0x34 1 0 b a d, 0)
  | .tbinvAll d => some (ofReg 0x34 2 0 0 0 d, 0)
  | .tbinvWorld d b => some (ofReg 0x34 3 0 b 0 d, 0)
  | .ld m => some (ofMem 0x38 m, 0)
  | .st m => some (ofMem 0x39 m, 0)
  | .lds m => some (ofMem 0x3A m, 0)
  | .stf m => some (ofMem 0x3B m, 0)
  | .ldp m => some (ofMem 0x3C m, 0)
  | .sfe m => some (ofMem 0x3D m, 0)
  | .vld m => some (ofMem 0x40 m, 0)
  | .vst m => some (ofMem 0x41 m, 0)
  | .vldt m => some (ofMem 0x42 m, 0)
  | .vldd m => some (ofMem 0x43 m, 0)
  | .vldx m => some (ofSize 0x44 m, 0)
  | .vstx m => some (ofSize 0x45 m, 0)
  | .amoadd m => some (ofAmo 0 m, 0)
  | .amoand m => some (ofAmo 1 m, 0)
  | .amoor m => some (ofAmo 2 m, 0)
  | .amoxor m => some (ofAmo 3 m, 0)
  | .amoswap m => some (ofAmo 4 m, 0)
  | .amomin m => some (ofAmo 5 m, 0)
  | .amomax m => some (ofAmo 6 m, 0)
  | .amominu m => some (ofAmo 7 m, 0)
  | .amomaxu m => some (ofAmo 8 m, 0)
  | .amocas m => some (ofAmo 9 m, 0)
  | .amofadd m => some (ofAmo 10 m, 0)
  | .send r mb d a b c => some (ofReg 0x48 (r ++ mb) c b a d, 0)
  | .recv q d a => some (ofReg 0x49 ((0 : BitVec 4) ++ q) 0 0 a d, 0)
  | .mbpeek d a => some (ofReg 0x4A 0 0 0 a d, 0)
  | .cpy c => some (ofCpy 0x4C c, 0)
  | .cpy2d c => some (ofCpy 0x4D c, 0)
  | .cpyl q d a => some (ofReg 0x4E ((1 : BitVec 1) ++ q) 0 0 a d, 0)
  | .cpyg c => some (ofCpy 0x4F c, 0)
  | .mma m => some (ofReg 0x50 (m.wait ++ m.ty) m.s3 m.s2 m.s1 m.d, 0)
  | .mmam w d a b c => some (ofWait 0x51 w c b a d, 0)
  | .qcfg n d a => some (ofReg 0x52 0 0 ((0 : BitVec 1) ++ n) a d, 0)
  | .qpush n d a => some (ofReg 0x53 0 0 ((0 : BitVec 1) ++ n) a d, 0)
  | .mhint a => some (ofReg 0x54 0 0 0 a 0, 0)
  | .gbar s a => some (ofReg 0x55 ((0 : BitVec 2) ++ s) 0 0 a 0, 0)
  | .spawn i d a b c => some (ofReg 0x58 ((0 : BitVec 4) ++ i) c b a d, 0)
  | .tdone => some (ofReg 0x59 0 0 0 0 0, 0)
  | .tyield d a b => some (ofReg 0x5A 0 0 b a d, 0)
  | .gcopy w d a => some (ofWait 0x5C w 0 0 a d, 0)
  | .gsend w d a b c => some (ofWait 0x5D w c b a d, 0)
  | .gcmp w d a => some (ofWait 0x5E w 0 0 a d, 0)
  | .ghash w d a => some (ofWait 0x5F w 0 0 a d, 0)
  | .gfree w d a => some (ofWait 0x60 w 0 0 a d, 0)
  | .gstat d a => some (ofReg 0x61 0 0 0 a d, 0)
  | .gstatStop d a => some (ofReg 0x61 1 0 0 a d, 0)
  | .sttk m => some (ofSize 0x64 m, 0)
  | .stdep m => some (ofSize 0x65 m, 0)
  | .xredAdd x => some (ofXred 0 x, 0)
  | .xredMin x => some (ofXred 1 x, 0)
  | .xredMax x => some (ofXred 2 x, 0)
  | .ltset d a => some (ofReg 0x68 0 0 0 a d, 0)
  | .tide d => some (ofReg 0x69 0 0 0 0 d, 0)
  | .tideBound d a => some (ofReg 0x69 1 0 0 a d, 0)
  | .tsend d a b c => some (ofReg 0x6A 0 c b a d, 0)
  | .trecv d => some (ofReg 0x6B 0 0 0 0 d, 0)
  | .chdcl k d a b => some (ofReg 0x6C ((0 : BitVec 2) ++ k) 0 b a d, 0)
  | .ltstat sel d a => some (ofReg 0x6D ((0 : BitVec 2) ++ sel) 0 0 a d, 0)
  | .wsetForm d a b => some (ofReg 0x70 0 0 b a d, 0)
  | .wsetGrant d a b => some (ofReg 0x70 1 0 b a d, 0)
  | .wsetReclaim d a b => some (ofReg 0x70 2 0 b a d, 0)
  | .wsetShare d a b => some (ofReg 0x70 3 0 b a d, 0)
  | .wsetPeer d a b => some (ofReg 0x70 4 0 b a d, 0)
  | .wsetSeal d a b => some (ofReg 0x70 5 0 b a d, 0)
  | .wsetDrain d a b => some (ofReg 0x70 6 0 b a d, 0)
  | .wsetFree d a b => some (ofReg 0x70 7 0 b a d, 0)
  | .wsealGenerate d a b => some (ofReg 0x71 0 0 b a d, 0)
  | .wsealInstall d a b => some (ofReg 0x71 1 0 b a d, 0)
  | .wsealDestroy d a b => some (ofReg 0x71 2 0 b a d, 0)
  | .vnop | .vadd .. | .vsub .. | .vmul .. | .vfma .. | .vfms ..
  | .vmin .. | .vmax .. | .vabs .. | .vneg .. | .vand .. | .vor ..
  | .vxor .. | .vnot .. | .vsll .. | .vsrl .. | .vsra .. | .vcmpeq ..
  | .vcmplt .. | .vcmple .. | .vsel .. | .vcvt .. | .vshuf .. | .vbcast ..
  | .vext .. | .vins .. | .vdot .. | .vsumr .. | .vmaxr .. | .vrcp ..
  | .vrsq .. | .vrcps .. | .vrsqs .. | .vexp2 .. | .vlog2 .. | .vmodadd ..
  | .vmodsub .. | .vmodmul .. | .vbfly .. | .longLatencyResult .. | .localStorePass .. | .energyRefill ..
  | .completionWrite .. | .contextNumberRelease .. | .remoteReply .. | .holdReply .. | .holdReplyResend .. | .remoteTimeout ..
  | .tagQuarantineEnd .. | .registerMissMicroTrap .. | .registerFetchDone .. | .icacheFill .. | .noticeTaken .. | .stewardResume ..
  | .stewardForwardTrap .. | .stewardAbortTask .. | .stewardCollect .. | .preemption .. | .contextSave .. | .contextInstall ..
  | .contextSpill .. | .spillReadback .. | .sliceExpiry .. | .watchdogExpiry .. | .debugStop .. | .debugResume ..
  | .debugStep .. | .debugContextAccess .. | .breakpointSet .. | .breakpointHit .. | .taskPop .. | .dequeReadback ..
  | .stealRequest .. | .stealBackoffEnd .. | .serviceQueueArrival .. | .serviceLoad .. | .serviceStore .. | .serviceAtomic ..
  | .serviceFill .. | .serviceSyncLoad .. | .serviceSteal .. | .mailboxDataArrival .. | .tokenMessageArrival .. | .ringReservationGrant ..
  | .tilePublish .. | .matrixJobStart .. | .shadowPause .. | .normalJobResume .. | .matrixJobRetire .. | .engineRampUpEnd ..
  | .engineWarmEnd .. | .engineRampDownEnd .. | .copyKickTake .. | .copyRequestComplete .. | .copyYield .. | .qcfgApply ..
  | .barrierComplete .. | .barrierRelease .. | .rdcFillArrival .. | .rdcCopyExpiry .. | .signatureBankAge | .hbmWriteBack ..
  | .launchTailWrite .. | .launchRecordRead .. | .dispatchChoice .. | .taskSeeding .. | .ageingRaise .. | .gangPlacement ..
  | .urgentInstall .. | .nodeEvaluation .. | .vfSoftReset .. | .vfHardReset .. | .vfFaultRead .. | .vfRegisterWrite ..
  | .hostTaskPush .. | .missTableAdmit .. | .pageWalk .. | .pageWalkDone .. | .stewardWalkReply .. | .blockCounterFlush ..
  | .traceHeaderRewrite .. | .graphRequestFinish .. | .objectPacketArrival .. | .gsendAckArrival .. | .gsendFinishArrival .. | .gsendDoneArrival ..
  | .dieLinkDown .. | .drainTimerExpiry .. | .coldReset | .warmReset | .fuseMinimumRaise .. | .stewardSramError ..
  | .stewardWatchdogExpiry | .mctpControlMessage .. | .pldmMessage .. | .spdmRequest .. | .vfFunctionLevelReset .. | .pfFunctionLevelReset
  | .migrationPrepare .. | .migrationTransfer .. | .migrationReceipt .. | .migrationErase .. | .migrationCommit .. | .migrationAbort ..
  | .recoveryWindowExpiry .. | .thermalWarning .. | .supplyDroopWarning | .coolantFlowWarning | .thermalTrip .. | .linkFrameReceive ..
  | .nullFrameSend .. | .linkResync .. | .linkRekey .. | .packetForward .. | .creditWaitDrop .. | .pathTableWrite ..
  | .pathChangeEffect .. | .remoteRequestArrival .. | .reductionContributionArrival .. | .reductionDeadline .. | .reductionSlotFree .. | .reductionResultArrival ..
  | .sttkLanding .. | .sttkFailure .. | .depstoreArrival .. | .sluiceFullReply .. | .holdArrival .. | .holdRetry ..
  | .releaseArrival .. | .sluiceExpiry .. | .declareArrival .. | .declareReply .. | .tideArrival .. | .eventArrival ..
  | .floorExchange .. | .floorReportArrival .. | .keyedAtomicApply .. | .localTimeModeExit .. | .programLoad .. | .launchQueueConfigure ..
  | .stealReplyArrival .. | .depstoreResend .. | .linkBringUp .. => none

/-- The V-op fields of an instruction. -/
def encodeRawV : Instr → Option RawV
  | .vnop => some ⟨⟨0, 0, 0, 0, 0, 0⟩, 0⟩
  | .vadd v => some ⟨v, 1⟩
  | .vsub v => some ⟨v, 2⟩
  | .vmul v => some ⟨v, 3⟩
  | .vfma v => some ⟨v, 4⟩
  | .vfms v => some ⟨v, 5⟩
  | .vmin v => some ⟨v, 6⟩
  | .vmax v => some ⟨v, 7⟩
  | .vabs v => some ⟨v, 8⟩
  | .vneg v => some ⟨v, 9⟩
  | .vand v => some ⟨v, 10⟩
  | .vor v => some ⟨v, 11⟩
  | .vxor v => some ⟨v, 12⟩
  | .vnot v => some ⟨v, 13⟩
  | .vsll v => some ⟨v, 14⟩
  | .vsrl v => some ⟨v, 15⟩
  | .vsra v => some ⟨v, 16⟩
  | .vcmpeq v => some ⟨v, 17⟩
  | .vcmplt v => some ⟨v, 18⟩
  | .vcmple v => some ⟨v, 19⟩
  | .vsel v => some ⟨v, 20⟩
  | .vcvt v => some ⟨v, 21⟩
  | .vshuf v => some ⟨v, 22⟩
  | .vbcast v => some ⟨v, 23⟩
  | .vext v => some ⟨v, 24⟩
  | .vins v => some ⟨v, 25⟩
  | .vdot v => some ⟨v, 26⟩
  | .vsumr v => some ⟨v, 27⟩
  | .vmaxr v => some ⟨v, 28⟩
  | .vrcp v => some ⟨v, 32⟩
  | .vrsq v => some ⟨v, 33⟩
  | .vrcps v => some ⟨v, 34⟩
  | .vrsqs v => some ⟨v, 35⟩
  | .vexp2 v => some ⟨v, 36⟩
  | .vlog2 v => some ⟨v, 37⟩
  | .vmodadd v => some ⟨v, 40⟩
  | .vmodsub v => some ⟨v, 41⟩
  | .vmodmul v => some ⟨v, 42⟩
  | .vbfly v => some ⟨v, 43⟩
  | .add .. | .sub .. | .and .. | .or .. | .xor .. | .sll ..
  | .srl .. | .sra .. | .slt .. | .sltu .. | .min .. | .max ..
  | .minu .. | .maxu .. | .mul .. | .mulh .. | .mulhu .. | .div ..
  | .divu .. | .rem .. | .remu .. | .clz .. | .ctz .. | .popc ..
  | .addi .. | .andi .. | .ori .. | .xori .. | .slti .. | .sltiu ..
  | .slli .. | .srli .. | .srai .. | .lui .. | .limm .. | .limmZx ..
  | .limmHi .. | .padd .. | .paddi .. | .pset .. | .pget .. | .pchk ..
  | .pchkTrap .. | .beq .. | .bne .. | .blt .. | .bge .. | .bltu ..
  | .bgeu .. | .beod .. | .jal .. | .jalr .. | .sbind .. | .sfree ..
  | .sskip .. | .gets .. | .sets .. | .trap .. | .eret | .halt
  | .nop | .fence .. | .fenceEng .. | .bbc .. | .pref .. | .prefWr ..
  | .ipref .. | .ipin .. | .iunpin .. | .tbinvPage .. | .tbinvRange .. | .tbinvAll ..
  | .tbinvWorld .. | .ld .. | .st .. | .lds .. | .stf .. | .ldp ..
  | .sfe .. | .vld .. | .vst .. | .vldt .. | .vldd .. | .vldx ..
  | .vstx .. | .amoadd .. | .amoand .. | .amoor .. | .amoxor .. | .amoswap ..
  | .amomin .. | .amomax .. | .amominu .. | .amomaxu .. | .amocas .. | .amofadd ..
  | .send .. | .recv .. | .mbpeek .. | .cpy .. | .cpy2d .. | .cpyl ..
  | .cpyg .. | .mma .. | .mmam .. | .qcfg .. | .qpush .. | .mhint ..
  | .gbar .. | .spawn .. | .tdone | .tyield .. | .gcopy .. | .gsend ..
  | .gcmp .. | .ghash .. | .gfree .. | .gstat .. | .gstatStop .. | .sttk ..
  | .stdep .. | .xredAdd .. | .xredMin .. | .xredMax .. | .ltset .. | .tide ..
  | .tideBound .. | .tsend .. | .trecv .. | .chdcl .. | .ltstat .. | .wsetForm ..
  | .wsetGrant .. | .wsetReclaim .. | .wsetShare .. | .wsetPeer .. | .wsetSeal .. | .wsetDrain ..
  | .wsetFree .. | .wsealGenerate .. | .wsealInstall .. | .wsealDestroy .. | .longLatencyResult .. | .localStorePass ..
  | .energyRefill .. | .completionWrite .. | .contextNumberRelease .. | .remoteReply .. | .holdReply .. | .holdReplyResend ..
  | .remoteTimeout .. | .tagQuarantineEnd .. | .registerMissMicroTrap .. | .registerFetchDone .. | .icacheFill .. | .noticeTaken ..
  | .stewardResume .. | .stewardForwardTrap .. | .stewardAbortTask .. | .stewardCollect .. | .preemption .. | .contextSave ..
  | .contextInstall .. | .contextSpill .. | .spillReadback .. | .sliceExpiry .. | .watchdogExpiry .. | .debugStop ..
  | .debugResume .. | .debugStep .. | .debugContextAccess .. | .breakpointSet .. | .breakpointHit .. | .taskPop ..
  | .dequeReadback .. | .stealRequest .. | .stealBackoffEnd .. | .serviceQueueArrival .. | .serviceLoad .. | .serviceStore ..
  | .serviceAtomic .. | .serviceFill .. | .serviceSyncLoad .. | .serviceSteal .. | .mailboxDataArrival .. | .tokenMessageArrival ..
  | .ringReservationGrant .. | .tilePublish .. | .matrixJobStart .. | .shadowPause .. | .normalJobResume .. | .matrixJobRetire ..
  | .engineRampUpEnd .. | .engineWarmEnd .. | .engineRampDownEnd .. | .copyKickTake .. | .copyRequestComplete .. | .copyYield ..
  | .qcfgApply .. | .barrierComplete .. | .barrierRelease .. | .rdcFillArrival .. | .rdcCopyExpiry .. | .signatureBankAge
  | .hbmWriteBack .. | .launchTailWrite .. | .launchRecordRead .. | .dispatchChoice .. | .taskSeeding .. | .ageingRaise ..
  | .gangPlacement .. | .urgentInstall .. | .nodeEvaluation .. | .vfSoftReset .. | .vfHardReset .. | .vfFaultRead ..
  | .vfRegisterWrite .. | .hostTaskPush .. | .missTableAdmit .. | .pageWalk .. | .pageWalkDone .. | .stewardWalkReply ..
  | .blockCounterFlush .. | .traceHeaderRewrite .. | .graphRequestFinish .. | .objectPacketArrival .. | .gsendAckArrival .. | .gsendFinishArrival ..
  | .gsendDoneArrival .. | .dieLinkDown .. | .drainTimerExpiry .. | .coldReset | .warmReset | .fuseMinimumRaise ..
  | .stewardSramError .. | .stewardWatchdogExpiry | .mctpControlMessage .. | .pldmMessage .. | .spdmRequest .. | .vfFunctionLevelReset ..
  | .pfFunctionLevelReset | .migrationPrepare .. | .migrationTransfer .. | .migrationReceipt .. | .migrationErase .. | .migrationCommit ..
  | .migrationAbort .. | .recoveryWindowExpiry .. | .thermalWarning .. | .supplyDroopWarning | .coolantFlowWarning | .thermalTrip ..
  | .linkFrameReceive .. | .nullFrameSend .. | .linkResync .. | .linkRekey .. | .packetForward .. | .creditWaitDrop ..
  | .pathTableWrite .. | .pathChangeEffect .. | .remoteRequestArrival .. | .reductionContributionArrival .. | .reductionDeadline .. | .reductionSlotFree ..
  | .reductionResultArrival .. | .sttkLanding .. | .sttkFailure .. | .depstoreArrival .. | .sluiceFullReply .. | .holdArrival ..
  | .holdRetry .. | .releaseArrival .. | .sluiceExpiry .. | .declareArrival .. | .declareReply .. | .tideArrival ..
  | .eventArrival .. | .floorExchange .. | .floorReportArrival .. | .keyedAtomicApply .. | .localTimeModeExit .. | .programLoad ..
  | .launchQueueConfigure .. | .stealReplyArrival .. | .depstoreResend .. | .linkBringUp .. => none

/-- The low and high words of an A-op: the high one is the immediate of a wide bundle. -/
def encodeA (i : Instr) : Option (BitVec 32 × BitVec 32) :=
  (encodeRawA i).map fun p => (p.1.word, p.2)

def encodeV (i : Instr) : Option (BitVec 32) := (encodeRawV i).map RawV.word

/-- The bundle of two halves: an A-op and a V-op, or a wide A-op beside VNOP. -/
def encodeBundle (a v : Instr) : Option (BitVec 64) :=
  match encodeA a, encodeV v with
  | some (lo, hi), some w => if wideOp lo then some (hi ++ lo) else some (w ++ lo)
  | _, _ => none

end Sys2Proof
end

