-- ==== Sys2Proof/WellFormed.lean ====
section
/-! DEFINITION. Well-formed instructions: the encodings that no row of R70 excludes. -/

namespace Sys2Proof

/-- An operation of a bundle that no check of its fields rejects. -/
def Instr.WellFormed (i : Instr) : Prop := i.reserved = none

/-- The same as a test. -/
def Instr.wellFormed (i : Instr) : Bool := i.reserved == none

end Sys2Proof
end

