-- ==== Sys2Proof/Machine/Operands.lean ====
section
/-! DEFINITION. Operand forms: the registers that each half of a bundle names (02 R58, R66, R74;
03, 07, 08, 11, 17, 23), the budget cost of a V-op (06 R167), and addresses in the local store (06
R151 to R153, R158, R159; 08 R194, R195). -/

namespace Sys2Proof.Machine

/-! ## Registers that an instruction names -/

/-- The x and v registers that a half reads and writes. -/
structure RegUse where
  xr : List Reg
  xw : List Reg
  vr : List Reg
  vw : List Reg
  deriving DecidableEq, Repr, Inhabited

/-- Reads and writes of x registers only. -/
def useX (xr xw : List Reg) : RegUse := ⟨xr, xw, [], []⟩

/-- A V-op of v registers only. -/
def useV (vr vw : List Reg) : RegUse := ⟨[], [], vr, vw⟩

/-- The registers of a half. A token register counts as written (R57), a store's data register as
read (R69). SFREE N counts as writing x(24+N), which reads zero afterwards, whether stream N is bound or not, and SBIND
and SSKIP as neither reading nor writing it: the spec names no register for them beside the base; mark DESIGN CHOICE
(log entry 103). -/
def regUse : Instr → RegUse
  | .add d a b | .sub d a b | .and d a b | .or d a b | .xor d a b | .sll d a b | .srl d a b | .sra d a b
  | .slt d a b | .sltu d a b | .min d a b | .max d a b | .minu d a b | .maxu d a b | .mul d a b | .mulh d a b
  | .mulhu d a b | .div d a b | .divu d a b | .rem d a b | .remu d a b => useX [a, b] [d]
  | .clz d a | .ctz d a | .popc d a => useX [a] [d]
  | .addi d a _ | .andi d a _ | .ori d a _ | .xori d a _ | .slti d a _ | .sltiu d a _
  | .slli d a _ | .srli d a _ | .srai d a _ | .paddi d a _ | .jalr d a _ => useX [a] [d]
  | .lui d _ | .limm d _ | .limmZx d _ | .jal d _ => useX [] [d]
  | .limmHi d _ => useX [d] [d]
  | .padd d a b _ | .pset d a b _ => useX [a, b] [d]
  | .pget d a _ => useX [a] [d]
  | .pchk d a b c | .pchkTrap d a b c => useX [a, b, c] [d]
  | .beq a b _ | .bne a b _ | .blt a b _ | .bge a b _ | .bltu a b _ | .bgeu a b _ => useX [a, b] []
  | .beod .. => useX [] []
  | .sbind _ _ a | .sskip _ a => useX [a] []
  | .sfree n => useX [] [RawA.streamReg n]
  | .gets d _ => useX [] [d]
  | .sets _ a => useX [a] []
  | .trap _ | .eret | .halt | .nop | .fence .. | .fenceEng .. | .tdone => useX [] []
  | .bbc a _ | .pref a _ | .prefWr a _ | .mhint a | .gbar _ a => useX [a] []
  | .ipref _ a b | .iunpin _ a b => useX [a, b] []
  | .ipin _ d a b | .tbinvRange d a b => useX [a, b] [d]
  | .tbinvPage d a => useX [a] [d]
  | .tbinvAll d => useX [] [d]
  | .tbinvWorld d b => useX [b] [d]
  | .ld m | .lds m | .ldp m => useX [m.s1] [m.d]
  | .st m | .stf m | .sfe m => useX [m.s1, m.d] []
  | .vld m => ⟨[m.s1], [], [], [m.d]⟩
  | .vst m => ⟨[m.s1], [], [m.d], []⟩
  | .vldt m => ⟨[m.s1], [], [], (List.range 8).map (fun j => m.d + regOf j)⟩
  | .vldd m => ⟨[m.s1, m.s1 + 1, m.s1 + 2], [], [], [m.d]⟩
  | .vldx m => ⟨[m.s1], [], [m.s2], [m.d]⟩
  | .vstx m => ⟨[m.s1], [], [m.s2, m.d], []⟩
  | .amoadd m | .amoand m | .amoor m | .amoxor m | .amoswap m | .amomin m | .amomax m | .amominu m
  | .amomaxu m | .amofadd m => useX [m.s1, m.s2] [m.d]
  | .amocas m => useX [m.s1, m.s2, m.d] [m.d]
  | .send _ _ d a b c => ⟨[a, c], [d], [b], []⟩
  | .recv _ d a => ⟨[a], [], [], [d, d + 1]⟩
  | .mbpeek d a | .cpyl _ d a | .qcfg _ d a | .qpush _ d a => useX [a] [d]
  | .cpy c | .cpyg c => useX [c.s1, c.s2, c.s3] [c.d]
  | .cpy2d c => useX [c.s1, c.s2, c.s3, c.s3 + 1] [c.d]
  | .mma m => useX [m.s1, m.s2, m.s3] [m.d]
  | .mmam _ d a b c | .gsend _ d a b c => useX [a, b, c] [d]
  | .spawn _ d a b c => useX [a, b, c, c + 1] [d]
  | .tyield d a b | .chdcl _ d a b => useX [a, b] [d]
  | .gcopy _ d a | .gcmp _ d a | .ghash _ d a | .gfree _ d a | .ltstat _ d a => useX [a] [d]
  | .gstat d a | .gstatStop d a | .ltset d a | .tideBound d a => useX [a] [d]
  | .tide d => useX [] [d]
  | .sttk m => useX [m.d, m.s1] [m.s2]
  | .stdep m => useX [m.d, m.s1, m.s2] []
  | .xredAdd x | .xredMin x | .xredMax x => useX [x.s1, x.s1 + 1, x.s2] [x.d]
  | .tsend d a b c => ⟨[a, c, c + 1], [d], [b], []⟩
  | .trecv d => useV [] [d, d + 1]
  | .wsetForm d a b | .wsetGrant d a b | .wsetReclaim d a b | .wsetShare d a b | .wsetPeer d a b | .wsetSeal d a b
  | .wsetDrain d a b | .wsetFree d a b | .wsealGenerate d a b | .wsealInstall d a b | .wsealDestroy d a b => useX [a, b] [d]
  | .vnop => useX [] []
  | .vadd v | .vsub v | .vmul v | .vmin v | .vmax v | .vand v | .vor v | .vxor v | .vsll v | .vsrl v
  | .vsra v | .vcmpeq v | .vcmplt v | .vcmple v | .vrcps v | .vrsqs v | .vmodadd v | .vmodsub v
  | .vmodmul v => useV [v.va, v.vb] [v.vd]
  | .vfma v | .vfms v | .vsel v | .vshuf v | .vdot v => useV [v.va, v.vb, v.vc] [v.vd]
  | .vabs v | .vneg v | .vnot v | .vmaxr v | .vrcp v | .vrsq v | .vexp2 v | .vlog2 v =>
    useV [v.va] [v.vd]
  | .vcvt v =>
    if typeWidth v.ty.toNat < typeWidth v.vb.toNat then useV [v.va, v.vd] [v.vd]
    else useV [v.va] [v.vd]
  | .vbcast v => ⟨[v.va], [], [], [v.vd]⟩
  | .vext v => ⟨[], [v.vd], [v.va], []⟩
  | .vins v => ⟨[v.va], [], [v.vd], [v.vd]⟩
  | .vsumr v => useV [v.va, v.vc] [v.vd]
  | .vbfly v => useV [v.va, v.vb, v.vc] [v.vd, v.vd + 1]
  | .longLatencyResult .. | .localStorePass .. | .energyRefill .. | .completionWrite .. | .contextNumberRelease .. | .remoteReply ..
  | .holdReply .. | .holdReplyResend .. | .remoteTimeout .. | .tagQuarantineEnd .. | .registerMissMicroTrap .. | .registerFetchDone ..
  | .icacheFill .. | .noticeTaken .. | .stewardResume .. | .stewardForwardTrap .. | .stewardAbortTask .. | .stewardCollect ..
  | .preemption .. | .contextSave .. | .contextInstall .. | .contextSpill .. | .spillReadback .. | .sliceExpiry ..
  | .watchdogExpiry .. | .debugStop .. | .debugResume .. | .debugStep .. | .debugContextAccess .. | .breakpointSet ..
  | .breakpointHit .. | .taskPop .. | .dequeReadback .. | .stealRequest .. | .stealBackoffEnd .. | .serviceQueueArrival ..
  | .serviceLoad .. | .serviceStore .. | .serviceAtomic .. | .serviceFill .. | .serviceSyncLoad .. | .serviceSteal ..
  | .mailboxDataArrival .. | .tokenMessageArrival .. | .ringReservationGrant .. | .tilePublish .. | .matrixJobStart .. | .shadowPause ..
  | .normalJobResume .. | .matrixJobRetire .. | .engineRampUpEnd .. | .engineWarmEnd .. | .engineRampDownEnd .. | .copyKickTake ..
  | .copyRequestComplete .. | .copyYield .. | .qcfgApply .. | .barrierComplete .. | .barrierRelease .. | .rdcFillArrival ..
  | .rdcCopyExpiry .. | .signatureBankAge | .hbmWriteBack .. | .launchTailWrite .. | .launchRecordRead .. | .dispatchChoice ..
  | .taskSeeding .. | .ageingRaise .. | .gangPlacement .. | .urgentInstall .. | .nodeEvaluation .. | .vfSoftReset ..
  | .vfHardReset .. | .vfFaultRead .. | .vfRegisterWrite .. | .hostTaskPush .. | .missTableAdmit .. | .pageWalk ..
  | .pageWalkDone .. | .stewardWalkReply .. | .blockCounterFlush .. | .traceHeaderRewrite .. | .graphRequestFinish .. | .objectPacketArrival ..
  | .gsendAckArrival .. | .gsendFinishArrival .. | .gsendDoneArrival .. | .dieLinkDown .. | .drainTimerExpiry .. | .coldReset
  | .warmReset | .fuseMinimumRaise .. | .stewardSramError .. | .stewardWatchdogExpiry | .mctpControlMessage .. | .pldmMessage ..
  | .spdmRequest .. | .vfFunctionLevelReset .. | .pfFunctionLevelReset | .migrationPrepare .. | .migrationTransfer .. | .migrationReceipt ..
  | .migrationErase .. | .migrationCommit .. | .migrationAbort .. | .recoveryWindowExpiry .. | .thermalWarning .. | .supplyDroopWarning
  | .coolantFlowWarning | .thermalTrip .. | .linkFrameReceive .. | .nullFrameSend .. | .linkResync .. | .linkRekey ..
  | .packetForward .. | .creditWaitDrop .. | .pathTableWrite .. | .pathChangeEffect .. | .remoteRequestArrival .. | .reductionContributionArrival ..
  | .reductionDeadline .. | .reductionSlotFree .. | .reductionResultArrival .. | .sttkLanding .. | .sttkFailure .. | .depstoreArrival ..
  | .sluiceFullReply .. | .holdArrival .. | .holdRetry .. | .releaseArrival .. | .sluiceExpiry .. | .declareArrival ..
  | .declareReply .. | .tideArrival .. | .eventArrival .. | .floorExchange .. | .floorReportArrival .. | .keyedAtomicApply ..
  | .localTimeModeExit .. | .programLoad .. | .launchQueueConfigure .. | .stealReplyArrival .. | .depstoreResend .. | .linkBringUp .. => useX [] []

/-- Both halves write one register (R66); x0 is written by neither. -/
def doubleWrite (a v : RegUse) : Bool :=
  a.xw.any (fun r => r != 0 && v.xw.contains r) || a.vw.any (fun r => v.vw.contains r)

/-- The x registers for which a pending bit parks the bundle (R58). -/
def awaited (a v : RegUse) : List Reg := a.xr ++ a.xw ++ v.xr ++ v.xw

/-- Registers as a mask; x0 is never pending. -/
def maskOf (rs : List Reg) : BitVec 32 := rs.foldl (fun m r => m ||| (1#32 <<< r.toNat)) 0

/-- Whether a register named by the bundle is pending. -/
def pendsOn (sl : Slot) (a v : RegUse) : Bool := (awaited a v).any sl.isPending

/-- Present bits that a bundle's reads need (R121): bit n of an x register, bit 32 + n of a v
register. -/
def neededRegs (a v : RegUse) : List Nat :=
  (a.xr ++ v.xr).map (·.toNat) ++ (a.vr ++ v.vr).map (fun r => 32 + r.toNat)

/-- The absent registers among those that a bundle reads; x0 and a bound stream's register are never
absent. -/
def absentRegs (sl : Slot) (a v : RegUse) : List Nat :=
  (neededRegs a v).filter (fun n =>
    n != 0 && !sl.present.getLsbD n && !(decide (n < 32) && (sl.streamOf (regOf n)).isSome))

/-- The bound streams that a bundle reads, as a mask (R94). -/
def streamsReadBy (sl : Slot) (a v : RegUse) : BitVec 4 :=
  (a.xr ++ v.xr).foldl (fun m r => if (sl.streamOf r).isSome then m ||| (1#4 <<< (r.toNat - 24)) else m) 0

/-! ## Budget costs (R167) -/

/-- The cost of a class by lane width: 8 or 16, 32, 64. -/
def costBy (w c16 c32 c64 : Nat) : Nat := if w ≤ 16 then c16 else if w = 32 then c32 else c64

/-- Units that a V-op costs. -/
def vCost : Instr → Nat
  | .vand _ | .vor _ | .vxor _ | .vnot _ | .vsll _ | .vsrl _ | .vsra _ | .vsel _ | .vshuf _
  | .vbcast _ | .vext _ | .vins _ | .vabs _ | .vneg _ | .vmin _ | .vmax _ | .vcmpeq _ | .vcmplt _
  | .vcmple _ => 1
  | .vadd v | .vsub v | .vsumr v | .vmaxr v => costBy (typeWidth v.ty.toNat) 2 2 3
  | .vcvt v => costBy (Nat.max (typeWidth v.ty.toNat) (typeWidth v.vb.toNat)) 2 2 3
  | .vmul v | .vfma v | .vfms v | .vdot v | .vrcps v | .vrsqs v => costBy (typeWidth v.ty.toNat) 3 4 8
  | .vrcp _ | .vrsq _ | .vexp2 _ | .vlog2 _ => 4
  | .vmodadd _ | .vmodsub _ => 3
  | .vmodmul _ | .vbfly _ => 16
  | .add .. | .sub .. | .and .. | .or .. | .xor .. | .sll ..
  | .srl .. | .sra .. | .slt .. | .sltu .. | .min .. | .max ..
  | .minu .. | .maxu .. | .mul .. | .mulh .. | .mulhu .. | .div ..
  | .divu .. | .rem .. | .remu .. | .clz .. | .ctz .. | .popc ..
  | .addi .. | .andi .. | .ori .. | .xori .. | .slti .. | .sltiu ..
  | .slli .. | .srli .. | .srai .. | .lui .. | .limm .. | .limmZx ..
  | .limmHi .. | .padd .. | .paddi .. | .pset .. | .pget .. | .pchk ..
  | .pchkTrap .. | .beq .. | .bne .. | .blt .. | .bge .. | .bltu ..
  | .bgeu .. | .beod .. | .jal .. | .jalr .. | .sbind .. | .sfree ..
  | .sskip .. | .gets .. | .sets .. | .trap .. | .eret | .halt
  | .nop | .fence .. | .fenceEng .. | .bbc .. | .pref .. | .prefWr ..
  | .ipref .. | .ipin .. | .iunpin .. | .tbinvPage .. | .tbinvRange .. | .tbinvAll ..
  | .tbinvWorld .. | .ld .. | .st .. | .lds .. | .stf .. | .ldp ..
  | .sfe .. | .vld .. | .vst .. | .vldt .. | .vldd .. | .vldx ..
  | .vstx .. | .amoadd .. | .amoand .. | .amoor .. | .amoxor .. | .amoswap ..
  | .amomin .. | .amomax .. | .amominu .. | .amomaxu .. | .amocas .. | .amofadd ..
  | .send .. | .recv .. | .mbpeek .. | .cpy .. | .cpy2d .. | .cpyl ..
  | .cpyg .. | .mma .. | .mmam .. | .qcfg .. | .qpush .. | .mhint ..
  | .gbar .. | .spawn .. | .tdone | .tyield .. | .gcopy .. | .gsend ..
  | .gcmp .. | .ghash .. | .gfree .. | .gstat .. | .gstatStop .. | .sttk ..
  | .stdep .. | .xredAdd .. | .xredMin .. | .xredMax .. | .ltset .. | .tide ..
  | .tideBound .. | .tsend .. | .trecv .. | .chdcl .. | .ltstat .. | .wsetForm ..
  | .wsetGrant .. | .wsetReclaim .. | .wsetShare .. | .wsetPeer .. | .wsetSeal .. | .wsetDrain ..
  | .wsetFree .. | .wsealGenerate .. | .wsealInstall .. | .wsealDestroy .. | .vnop | .longLatencyResult ..
  | .localStorePass .. | .energyRefill .. | .completionWrite .. | .contextNumberRelease .. | .remoteReply .. | .holdReply ..
  | .holdReplyResend .. | .remoteTimeout .. | .tagQuarantineEnd .. | .registerMissMicroTrap .. | .registerFetchDone .. | .icacheFill ..
  | .noticeTaken .. | .stewardResume .. | .stewardForwardTrap .. | .stewardAbortTask .. | .stewardCollect .. | .preemption ..
  | .contextSave .. | .contextInstall .. | .contextSpill .. | .spillReadback .. | .sliceExpiry .. | .watchdogExpiry ..
  | .debugStop .. | .debugResume .. | .debugStep .. | .debugContextAccess .. | .breakpointSet .. | .breakpointHit ..
  | .taskPop .. | .dequeReadback .. | .stealRequest .. | .stealBackoffEnd .. | .serviceQueueArrival .. | .serviceLoad ..
  | .serviceStore .. | .serviceAtomic .. | .serviceFill .. | .serviceSyncLoad .. | .serviceSteal .. | .mailboxDataArrival ..
  | .tokenMessageArrival .. | .ringReservationGrant .. | .tilePublish .. | .matrixJobStart .. | .shadowPause .. | .normalJobResume ..
  | .matrixJobRetire .. | .engineRampUpEnd .. | .engineWarmEnd .. | .engineRampDownEnd .. | .copyKickTake .. | .copyRequestComplete ..
  | .copyYield .. | .qcfgApply .. | .barrierComplete .. | .barrierRelease .. | .rdcFillArrival .. | .rdcCopyExpiry ..
  | .signatureBankAge | .hbmWriteBack .. | .launchTailWrite .. | .launchRecordRead .. | .dispatchChoice .. | .taskSeeding ..
  | .ageingRaise .. | .gangPlacement .. | .urgentInstall .. | .nodeEvaluation .. | .vfSoftReset .. | .vfHardReset ..
  | .vfFaultRead .. | .vfRegisterWrite .. | .hostTaskPush .. | .missTableAdmit .. | .pageWalk .. | .pageWalkDone ..
  | .stewardWalkReply .. | .blockCounterFlush .. | .traceHeaderRewrite .. | .graphRequestFinish .. | .objectPacketArrival .. | .gsendAckArrival ..
  | .gsendFinishArrival .. | .gsendDoneArrival .. | .dieLinkDown .. | .drainTimerExpiry .. | .coldReset | .warmReset
  | .fuseMinimumRaise .. | .stewardSramError .. | .stewardWatchdogExpiry | .mctpControlMessage .. | .pldmMessage .. | .spdmRequest ..
  | .vfFunctionLevelReset .. | .pfFunctionLevelReset | .migrationPrepare .. | .migrationTransfer .. | .migrationReceipt .. | .migrationErase ..
  | .migrationCommit .. | .migrationAbort .. | .recoveryWindowExpiry .. | .thermalWarning .. | .supplyDroopWarning | .coolantFlowWarning
  | .thermalTrip .. | .linkFrameReceive .. | .nullFrameSend .. | .linkResync .. | .linkRekey .. | .packetForward ..
  | .creditWaitDrop .. | .pathTableWrite .. | .pathChangeEffect .. | .remoteRequestArrival .. | .reductionContributionArrival .. | .reductionDeadline ..
  | .reductionSlotFree .. | .reductionResultArrival .. | .sttkLanding .. | .sttkFailure .. | .depstoreArrival .. | .sluiceFullReply ..
  | .holdArrival .. | .holdRetry .. | .releaseArrival .. | .sluiceExpiry .. | .declareArrival .. | .declareReply ..
  | .tideArrival .. | .eventArrival .. | .floorExchange .. | .floorReportArrival .. | .keyedAtomicApply .. | .localTimeModeExit ..
  | .programLoad .. | .launchQueueConfigure .. | .stealReplyArrival .. | .depstoreResend .. | .linkBringUp .. => 0

/-! ## Addresses (R194) -/

/-- The 57-bit address in a register. -/
def addr57 (w : Word) : Nat := w.toNat % 2 ^ 57

/-- ea of format MEM with a scale in bytes. -/
def eaMem (base : Word) (disp : BitVec 7) (scale : Nat) : Nat :=
  addr57 (base + sext disp * BitVec.ofNat 64 scale)

/-- The first address of translated memory. -/
def translatedBase : Nat := 0x20000

/-! ## The local store (R151 to R153) -/

/-- The physical byte of a swizzled offset: chunk and row XOR, within the row. -/
def swizzle (a : Nat) : Nat := a / 128 * 128 + ((a / 16 % 8) ^^^ (a / 128 % 8)) * 16 + a % 16

/-- The physical byte that a window address names, if it lies in a window. -/
def lsPhys (ea : Nat) : Option Nat :=
  if ea < 0xC000 then some ea
  else if 0x10000 ≤ ea ∧ ea < 0x1C000 then some (swizzle (ea - 0x10000))
  else none

/-- A physical byte inside a share. -/
def inShare (lo hi p : Nat) : Bool := decide (lo ≤ p) && decide (p < hi)

/-- A window address whose byte lies in the share [lo, hi). -/
def lsOk (lo hi ea : Nat) : Bool :=
  match lsPhys ea with
  | some p => inShare lo hi p
  | none => false

/-- The first of `n` bytes from `ea` up that lies outside the share or the windows (R195, R159). -/
def lsFail (lo hi ea : Nat) : Nat → Option Nat
  | 0 => none
  | n + 1 => if lsOk lo hi ea then lsFail lo hi (ea + 1) n else some ea

/-- The physical bytes of `n` window addresses from `ea` up. -/
def lsBytes (ea n : Nat) : List Nat := (List.range n).filterMap (fun i => lsPhys (ea + i))

/-- The distinct chunks that bytes touch, in order of first touch. -/
def chunksOf (ps : List Nat) : List Nat := (ps.map (· / 16)).eraseDups

/-- The passes of an access: the most chunks that it touches in one bank (R153). -/
def passes (chunks : List Nat) : Nat :=
  (List.range 8).foldl (fun m b => Nat.max m (chunks.filter (fun c => c % 8 == b)).length) 0

/-- One pass: the first chunk of each bank not in `busy`, and the chunks left over. -/
def onePass (busy : BitVec 8) : List Nat → List Nat × List Nat × BitVec 8
  | [] => ([], [], busy)
  | c :: cs =>
    if busy.getLsbD (c % 8) then
      let (now, rest, b) := onePass busy cs
      (now, c :: rest, b)
    else
      let (now, rest, b) := onePass (busy ||| (1#8 <<< (c % 8))) cs
      (c :: now, rest, b)

/-- The bytes that a list of physical positions holds. -/
def lsGet (co : Core) (ps : List Nat) : List Byte := ps.map (cellGet co.ls)

/-- Write bytes to physical positions, in order. -/
def lsPut (ls : List Host.Cell) : List (Nat × Byte) → List Host.Cell
  | [] => ls
  | (p, b) :: r => lsPut (cellSet ls p b) r

/-- The share of a world on a core (R158). -/
def shareOf (co : Core) (world : Nat) : Nat × Nat := (NMap.find co.shares world).getD (0, 0)

/-! ## Access sizes -/

/-- Element size of VLD and VST (R205). -/
def vldElem (w : BitVec 3) : Nat := 2 ^ w.toNat

end Sys2Proof.Machine
end

