-- ==== Sys2Proof/Machine/Signature.lean ====
section
/-! DEFINITION. Dirty-sector signatures: hashes, accumulators, publication and acquisition (13 R268 to
R273). -/

namespace Sys2Proof.Machine

/-- `rot(n, k)` of a 52-bit sector number (R269). -/
def rot52 (n k : Nat) : Nat := (n * 2 ^ k + n / 2 ^ (52 - k)) % 2 ^ 52

/-- `fold(v)`: the XOR of the six 9-bit fields of v (R269). -/
def fold9 (v : Nat) : Nat :=
  (List.range 6).foldl (fun a i => a ^^^ (v / 2 ^ (9 * i) % 512)) 0

/-- The signature of one sector (R269). -/
def sectorSig (n : Nat) : Sig :=
  (1 : Sig) <<< fold9 n ||| (1 : Sig) <<< fold9 (rot52 n 26) ||| (1 : Sig) <<< fold9 (rot52 n 13)

/-- The sector number of a byte (R259). -/
def sectorOf (module pa : Nat) : Nat := module * 2 ^ 40 + pa / 256

/-- The signature of the sectors that `n` bytes from `pa` up touch; `n` is at most 256. -/
def bytesSig (module pa n : Nat) : Sig :=
  if n = 0 then 0 else sectorSig (sectorOf module pa) ||| sectorSig (sectorOf module (pa + n - 1))

/-- A global line number: module and line of the physical address (R259). -/
def lineKey (module pa : Nat) : Nat := module * 2 ^ 42 + pa / 64

/-- A line matches a signature when its sector's three bits are set (R269). -/
def lineMatches (sig : Sig) (line : Nat) : Bool :=
  let h := sectorSig (line / 4)
  sig &&& h == h

/-- Home slice number (R260). -/
def sliceOf (pa : Nat) : Nat :=
  (pa / 2 ^ 6 % 128) ^^^ (pa / 2 ^ 13 % 128) ^^^ (pa / 2 ^ 20 % 128) ^^^ (pa / 2 ^ 27 % 128)

def PubSig.zero : PubSig := { cur := 0, prev := 0 }
def PubSig.value (p : PubSig) : Sig := p.cur ||| p.prev
def PubSig.add (p : PubSig) (sig : Sig) : PubSig := { p with cur := p.cur ||| sig }
/-- previous := current and current := 0 (R268). -/
def PubSig.age (p : PubSig) : PubSig := { cur := 0, prev := p.cur }

/-- The accumulator's value (R268). -/
def Slot.acc (sl : Slot) : Sig := sl.accCur ||| sl.accPrev

def Slot.addAcc (sl : Slot) (sig : Sig) : Slot := { sl with accCur := sl.accCur ||| sig }

/-- Publish at a home slice, for a world (R270). -/
def publishHome (s : State) (pa world : Nat) (sig : Sig) : State :=
  s.modDie (pa / 2 ^ 37) (fun d =>
    let key := sliceOf pa * 32 + world
    { d with pubSig := NMap.set d.pubSig key (((NMap.find d.pubSig key).getD PubSig.zero).add sig) })

/-- The publication signature of a line's home slice for a world. -/
def homeSig (s : State) (pa world : Nat) : Sig :=
  ((NMap.find (s.die (pa / 2 ^ 37)).pubSig (sliceOf pa * 32 + world)).getD PubSig.zero).value

/-- Publish at a core, for a world (R270, R273). -/
def publishCore (s : State) (c world : Nat) (sig : Sig) : State :=
  s.modCore c (fun co =>
    { co with pubSig := NMap.set co.pubSig world (((NMap.find co.pubSig world).getD PubSig.zero).add sig) })

def coreSig (s : State) (c world : Nat) : Sig :=
  ((NMap.find (s.core c).pubSig world).getD PubSig.zero).value

/-- Invalidate the copies of a die that match a signature, and keep fills of matching lines in flight
from being installed (R271). -/
def invalidateMatching (s : State) (die : Nat) (sig : Sig) : State :=
  s.modDie die (fun d => { d with
    rdc := d.rdc.filter (fun l => !lineMatches sig l.line)
    fills := d.fills.map (fun f => if lineMatches sig f.line then { f with install := false } else f) })

/-- Change the context of a core by number, wherever it stands. -/
def State.modCtx (s : State) (c num : Nat) (f : Slot → Slot) : State :=
  match ctxSlot s c num with
  | some k => s.modSlot k f
  | none => s.modEntryAt c num (fun e => { e with slot := f e.slot })

/-- An acquire of a context receives a signature (R271). -/
def acquireCtx (s : State) (c num : Nat) (sig : Sig) : State :=
  invalidateMatching (s.modCtx c num (·.addAcc sig)) (dieOfCore c) sig

/-- The token registers that a bundle reads deliver their signatures (R273). -/
def acquireTokens (s : State) (k : Nat) (regs : List Reg) : State :=
  let sl := s.slot k
  let hit := sl.tokenSigs.filter (fun p => regs.any (fun r => r.toNat == p.1))
  if hit.isEmpty then s
  else
    let sig := hit.foldl (fun a p => a ||| p.2) 0
    invalidateMatching
      (s.modSlot k (fun x => { x.addAcc sig with
        tokenSigs := x.tokenSigs.filter (fun p => !regs.any (fun r => r.toNat == p.1)) }))
      (dieOf k) sig

end Sys2Proof.Machine
end

