-- ==== Sys2Proof/Machine/LocalStore.lean ====
section
/-! DEFINITION. The local store of a core: bytes, uncorrectable words, full/empty bits and their
waiters (06 R153 to R159, R168). -/

namespace Sys2Proof.Machine

/-- The first uncorrectable word among physical bytes (R168), as the address of that word. -/
def lsPoison (s : State) (c : Nat) (ps : List Nat) : Option Nat :=
  (ps.find? (fun p => s.poison.contains (.ls c (p / 8)))).map (fun p => p / 8 * 8)

/-- Read physical bytes. -/
def lsRead (s : State) (c : Nat) (ps : List Nat) : List Byte := lsGet (s.core c) ps

/-- Write bytes to physical positions; a word written whole is sound again. -/
def lsWrite (s : State) (c : Nat) (ps : List Nat) (bs : List Byte) : State :=
  let s0 := lsCorrect s c ps
  let s1 := s0.modCore c (fun co => { co with ls := lsPut co.ls (ps.zip bs) })
  if s1.poison.isEmpty then s1
  else
    { s1 with poison := s1.poison.filter (fun q =>
        match q with
        | .ls c' w => !(c' == c && (List.range 8).all (fun i => ps.contains (w * 8 + i)))
        | _ => true) }

/-- Whether a word is full (R155). -/
def isFull (co : Core) (word : Nat) : Bool := !co.emptyWords.contains word

def insWord (w : Nat) : List Nat → List Nat
  | [] => [w]
  | a :: as => if w < a then w :: a :: as else if w = a then a :: as else a :: insWord w as

def setEmptyBit (co : Core) (word : Nat) : Core := { co with emptyWords := insWord word co.emptyWords }
def setFullBit (co : Core) (word : Nat) : Core := { co with emptyWords := co.emptyWords.filter (· != word) }

/-- The result that a synchronising load delivers to a waiting context of the own core. -/
def ldsResult (r : MemReq) (bs : List Byte) (sl : Slot) : Slot := sl.putX (regOf r.rd) (extendTy r.w bs)

/-- Deliver a synchronising load's data to its waiter (R157): a context of the own core is released at
once, a requester elsewhere is sent its reply with the core's publication signature (R271, R274). -/
def deliverLds (s : State) (c : Nat) (w : Waiter) (bs : List Byte) : State :=
  match w.who with
  | .ctx c' num =>
    if c' = c then
      match (ctxOf s c num).map Slot.wait with
      | some (.mem r) =>
        let world := ((ctxOf s c num).map (·.world)).getD 0
        let s1 := if r.acq then acquireCtx s c num (coreSig s c world) else s
        finishCtx s1 c num (ldsResult r bs)
      | _ => s
    else
      let world := ((ctxOf s c' num).map (·.world)).getD 0
      s.later Config.latMesh (.remoteReply w.who (.data bs) (coreSig s c world))
  | who => s.later Config.latMesh (.remoteReply who (.data bs) (coreSig s c w.world))

/-- The bytes that a waiter reads. -/
def waiterBytes (s : State) (c : Nat) (w : Waiter) : List Byte := lsRead s c (lsBytes w.off w.size)

/-- Perform synchronising loads that hold no entry again, oldest first, until one takes the freed
entry (R157). -/
def retryLds (s : State) (c : Nat) : Nat → State
  | 0 => s
  | n + 1 =>
    match (s.core c).parkedLds with
    | [] => s
    | w :: rest =>
      let s1 := s.modCore c (fun co => { co with parkedLds := rest })
      if isFull (s1.core c) w.word then
        let bs := waiterBytes s1 c w
        retryLds (deliverLds (s1.modCore c (fun co => setEmptyBit co w.word)) c w bs) c n
      else s1.modCore c (fun co => { co with waiters := co.waiters ++ [w] })

/-- A word has become full: the oldest waiter reads it and leaves it empty (R155, R157). -/
def releaseWaiter (s : State) (c word : Nat) : State :=
  match (s.core c).waiters.find? (·.word == word) with
  | none => s
  | some w =>
    let bs := waiterBytes s c w
    let s1 := s.modCore c (fun co => setEmptyBit { co with waiters := co.waiters.erase w } word)
    retryLds (deliverLds s1 c w bs) c (s1.core c).parkedLds.length

/-- Set a word's full/empty bit (R155, R203). -/
def setFe (s : State) (c word : Nat) (full : Bool) : State :=
  if full then releaseWaiter (s.modCore c (fun co => setFullBit co word)) c word
  else s.modCore c (fun co => setEmptyBit co word)

/-- Join a word's queue, or wait without an entry where 64 are held (R157). -/
def joinWaiters (s : State) (c : Nat) (w : Waiter) : State :=
  s.modCore c (fun co =>
    if co.waiters.length < 64 then { co with waiters := co.waiters ++ [w] }
    else { co with parkedLds := co.parkedLds ++ [w] })

/-- Forget the waits of a context that is discarded; the entries that they free go to the loads that hold none
(R157). -/
def dropWaiters (s : State) (c num : Nat) : State :=
  let held := ((s.core c).waiters.filter (·.who == .ctx c num)).length
  let s1 := s.modCore c (fun co => { co with
    waiters := co.waiters.filter (·.who != .ctx c num)
    parkedLds := co.parkedLds.filter (·.who != .ctx c num) })
  (List.range held).foldl (fun t _ => retryLds t c (t.core c).parkedLds.length) s1

/-- Set a range of words to zero and full, as a new share (R155). -/
def clearShare (s : State) (c lo hi : Nat) : State :=
  { s.modCore c (fun co => { co with
      ls := co.ls.filter (fun p => !inShare lo hi p.1)
      emptyWords := co.emptyWords.filter (fun w => !inShare lo hi (w * 8)) }) with
    poison := s.poison.filter (fun q =>
      match q with
      | .ls c' w => !(c' == c && inShare lo hi (w * 8))
      | _ => true) }

end Sys2Proof.Machine
end

