-- ==== Sys2Proof/Machine/Packet.lean ====
section
/-! DEFINITION. Leaving the die: the die-to-die links, the path table, the tags of a gateway complex and
the packets that it hands to a port (19 R342, R343; 21 R376 to R382). -/

namespace Sys2Proof.Machine

/-! ## Die-to-die links (R2, R342, R343) -/

/-- The links from die `a` along its row to column `c`, at most `n` of them. -/
def rowLinks (a c : Nat) : Nat → List (Nat × Nat)
  | 0 => []
  | n + 1 =>
    if a % 4 = c then []
    else
      let b := if a % 4 < c then a + 1 else a - 1
      (Nat.min a b, Nat.max a b) :: rowLinks b c n

/-- The links from die `a` along its column to row `r`. -/
def colLinks (a r : Nat) : Nat → List (Nat × Nat)
  | 0 => []
  | n + 1 =>
    if a / 4 = r then []
    else
      let b := if a / 4 < r then a + 4 else a - 4
      (Nat.min a b, Nat.max a b) :: colLinks b r n

/-- The links that traffic from die `a` to die `b` crosses: columns first, then rows. -/
def dieRoute (a b : Nat) : List (Nat × Nat) := rowLinks a (b % 4) 3 ++ colLinks (a / 4 * 4 + b % 4) (b / 4) 3

/-- Whether the way from one die to another crosses a down link. -/
def crossesDown (s : State) (a b : Nat) : Bool := (dieRoute a b).any (fun l => s.downLinks.contains l)

/-! ## Schedules that keep an order (R161, R162, R378) -/

/-- The latest cycle at which an event that satisfies `p` is due. -/
def lastDue (p : Event → Bool) : List (Nat × Event) → Nat
  | [] => 0
  | (d, e) :: r => if p e then Nat.max d (lastDue p r) else lastDue p r

/-- An event after an open latency, never ahead of an earlier one of its order. -/
def State.laterAfter (s : State) (path : Nat) (p : Event → Bool) (e : Event) : State :=
  s.tick.at_ (Nat.max (s.cycle + 1 + Config.latency path s.free) (lastDue p s.agenda)) e

/-! ## Tags (R382) -/

/-- The lowest number from `n` on that no entry in use takes. -/
def lowestFree : NMap Tag → Nat → Nat
  | [], n => n
  | (k, t) :: r, n => if k = n ∧ t.use ≠ .free then lowestFree r (n + 1) else if k < n then lowestFree r n else if k = n then n else n

def tagCount : Nat := 16384

def getTag (s : State) (die idx : Nat) : Tag := (NMap.find (s.die die).tags idx).getD Tag.reset

def setTag (s : State) (die idx : Nat) (t : Tag) : State :=
  s.modDie die (fun d => { d with tags := NMap.set d.tags idx t })

/-- The core that a request belongs to, if it is a core's. -/
def replyCore : ReplyTo → Option Nat
  | .ctx c _ | .thief c _ | .token c _ _ | .dep c _ _ | .xred c _ _ _ _ | .redWrite c _ => some c
  | .tag _ _ _ | .remote _ _ _ _ _ | .copy _ _ | .sttk _ _ _ _ | .job _ _ | .fill _ _ | .counter _ _ _ _ _ | .queue _ _
  | .dest _ _ | .none => none

/-- Draw a tag of a complex for a request to `module`; none where all are in use. Its timeout runs from
now. -/
def drawTag (s : State) (die : Nat) (who : ReplyTo) (module : Nat) : Option (Nat × Nat × State) :=
  let idx := lowestFree (s.die die).tags 0
  if idx < tagCount then
    let t := getTag s die idx
    let due := s.cycle + Config.remoteTimeout
    some (idx, t.gen, (setTag s die idx { t with use := .live who module due, core := replyCore who }).at_ due (.remoteTimeout die idx t.gen))
  else none

/-- The tag of a reply, if it is live under that generation. -/
def liveTag (s : State) (die idx gen : Nat) : Option ReplyTo :=
  let t := getTag s die idx
  match t.use with
  | .live who _ _ => if t.gen = gen then some who else none
  | _ => none

/-- The context that sent a request of a complex. -/
def senderOf (s : State) (w : ReplyTo) : Option (Nat × Nat) :=
  let of : ReplyTo → Option (Nat × Nat)
    | .xred c n _ _ _ => some (c, n)
    | .dep c n _ => some (c, n)
    | .ctx c n => some (c, n)
    | _ => none
  match w with
  | .tag d i g => (liveTag s d i g).bind of
  | w => of w

/-- The live tag of a complex for a requester. -/
def tagOf (s : State) (die : Nat) (who : ReplyTo) : Option Nat :=
  ((s.die die).tags.find? (fun p => match p.2.use with | .live w _ _ => w == who | _ => false)).map (·.1)

/-- The store of a tag is no longer on its way: its lines may be cached again, by fills that start from now on
(R261). -/
def Die.stored (d : Die) (idx : Nat) : Die :=
  let ls := (d.storing.filter (·.1 == idx)).map (·.2)
  if ls.isEmpty then d
  else
    { d with
      storing := d.storing.filter (·.1 != idx)
      rdc := d.rdc.filter (fun l => !ls.contains l.line)
      fills := d.fills.map (fun f => if ls.contains f.line then { f with install := false } else f) }

/-- Free a tag; the oldest request that waits for one goes on in the next cycle. -/
def freeTag (s : State) (die idx : Nat) : State :=
  let s1 := s.modDie die (fun d => { d.stored idx with
    tags := NMap.set d.tags idx { (NMap.find d.tags idx).getD Tag.reset with use := .free } })
  match (s1.die die).tagQueue with
  | w :: r => (s1.modDie die (fun d => { d with tagQueue := r })).next1 (.remoteReply w .done 0)
  | [] => s1

/-- A reply without a live tag: dropped, counted at its complex and at the core whose request drew the tag last, and recorded
(R198, R307, R382). -/
def lateReply (s : State) (die idx gen : Nat) : State :=
  let s0 := match (getTag s die idx).core with
    | some c => s.modCore c (fun co => { co with lateReplies := co.lateReplies + 1 })
    | none => s
  let s1 := s0.modDie die (fun d => { d with dropped := d.dropped + 1 })
  hatPost s1 die 0x03 0 (dieEndpoint s die) (BitVec.ofNat 64 idx) (BitVec.ofNat 64 gen)

/-! ## Paths and packets (R376 to R380) -/

/-- The valid paths to a module at a complex, in ascending index. -/
def validPaths (s : State) (die module : Nat) : List (List Nat) :=
  (List.range 4).filterMap (fun i =>
    match NMap.find (s.die die).paths (4 * module + i) with
    | some p => if p.valid then some p.hops else none
    | none => none)

/-- Path choice (R380). -/
def choosePath (s : State) (die src dst : Nat) : Option (List Nat) :=
  let ps := validPaths s die (dst / 4194304)
  if ps.isEmpty then none else ps[(src ^^^ dst) % ps.length]?

/-- A packet that a gateway drops: counted and recorded (R370, R377, R380). -/
def dropPacket (s : State) (die : Nat) (p : Packet) : State :=
  let s1 := s.modDie die (fun d => { d with dropped := d.dropped + 1 })
  hatPost s1 die 0x04 0 (dieEndpoint s die) (BitVec.ofNat 64 p.dst) (BitVec.ofNat 64 p.typ)

/-! ## Flits and frames (R371 to R376) -/

/-- The header flit. -/
def packetHeader (p : Packet) : List Word :=
  let hop (i : Nat) : Nat := (p.hops[i]?).getD 0
  let pack (lo n : Nat) : Nat := (List.range n).foldl (fun a i => a + hop (lo + i) * 64 ^ i) 0
  [BitVec.ofNat 64 (p.typ + p.hops.length * 2 ^ 8 + p.hop * 2 ^ 12 + (1 + p.data.length / 8) * 2 ^ 16 + p.cls * 2 ^ 20
      + p.world * 2 ^ 21 + p.pgen * 2 ^ 26),
    BitVec.ofNat 64 p.dst, BitVec.ofNat 64 p.src, BitVec.ofNat 64 (p.tagGen + p.tagIdx * 2 ^ 8),
    BitVec.ofNat 64 (pack 0 10), BitVec.ofNat 64 (pack 10 2), p.op, p.status]

/-- Words in flits of eight. -/
def flitsOf : Nat → List Word → List (List Word)
  | 0, _ => []
  | n + 1, ws => ws.take 8 :: flitsOf n (ws.drop 8)

def packetFlits (p : Packet) : List (List Word) := packetHeader p :: flitsOf (p.data.length / 8) p.data

/-- The number of flits that a header names. -/
def headerFlits (h : List Word) : Nat := bits ((h.head?).getD 0).toNat 19 16

/-- A packet from its flits; none where a reserved bit is set or a count is out of range. -/
def readPacket (fs : List (List Word)) : Option Packet :=
  match fs with
  | [] => none
  | h :: rest =>
    let d (i : Nat) : Nat := ((h[i]?).getD 0).toNat
    let nh := bits (d 0) 11 8
    let hop (i : Nat) : Nat := if i < 10 then bits (d 4) (6 * i + 5) (6 * i) else bits (d 5) (6 * (i - 10) + 5) (6 * (i - 10))
    if d 0 / 2 ^ 34 ≠ 0 ∨ d 1 / 2 ^ 34 ≠ 0 ∨ d 2 / 2 ^ 34 ≠ 0 ∨ d 3 / 2 ^ 22 ≠ 0 ∨ d 4 / 2 ^ 60 ≠ 0 ∨ d 5 / 2 ^ 12 ≠ 0
        ∨ nh = 0 ∨ 12 < nh ∨ headerFlits h = 0 ∨ 9 < headerFlits h ∨ rest.length + 1 ≠ headerFlits h then none
    else
      some
        { typ := bits (d 0) 7 0, cls := bits (d 0) 20 20, world := bits (d 0) 25 21, pgen := bits (d 0) 33 26,
          hop := bits (d 0) 15 12, hops := (List.range nh).map hop, dst := d 1, src := d 2, tagIdx := bits (d 3) 21 8,
          tagGen := bits (d 3) 7 0, op := (h[6]?).getD 0, status := (h[7]?).getD 0, data := rest.flatMap id }

/-- Hand a frame to the lanes: every frame carries the next sequence expected from the far end. -/
def Link.put (l : Link) (seq : Nat) (null nak : Bool) (flit : List Word) : Link :=
  { l with wire := l.wire ++ [{ seq := seq, ack := l.expect, nak := nak, null := null, ok := true, flit := flit }] }

/-- First transmissions of flits: each takes the next sequence and counter, and stands in the replay buffer. -/
def Link.sendFlits (l : Link) : List (List Word) → Link
  | [] => l
  | f :: fs =>
    let l1 := l.put l.seq false false f
    sendFlits { l1 with
      seq := (l.seq + 1) % 512, counter := l.counter + 1, replay := l.replay ++ [(l.seq, l.counter, fs.isEmpty, f)] } fs

/-- The first reply of a queue that no earlier packet between its two endpoints precedes, and the queue without it. -/
def readyReply (seen : List (Nat × Nat)) : List (Nat × Packet) → Option ((Nat × Packet) × List (Nat × Packet))
  | [] => none
  | x :: r =>
    if x.2.cls = 1 ∧ seen.contains (x.2.src, x.2.dst) = false then some (x, r)
    else (readyReply ((x.2.src, x.2.dst) :: seen) r).map (fun y => (y.1, x :: y.2))

/-- The packet that a port sends next: a reply never waits behind a request (R376), unless R378 orders the two; the oldest
packet where no reply is ready. -/
def nextPacket (q : List (Nat × Packet)) : Option ((Nat × Packet) × List (Nat × Packet)) :=
  match q with
  | [] => none
  | x :: r => some ((readyReply [] (x :: r)).getD (x, r))

/-- Send the packets that wait while the replay buffer has room for them. -/
def Link.drain (l : Link) : Nat → Link
  | 0 => l
  | n + 1 =>
    match nextPacket l.queue with
    | none => l
    | some ((_, p), rest) =>
      let fs := packetFlits p
      if l.up ∧ l.stopped = false ∧ l.replay.length + fs.length ≤ 256 then drain (({ l with queue := rest }).sendFlits fs) n else l

/-- Hand a packet to a port of this module: its frames leave in order, or it waits for room, 65,536 cycles at most;
a port that is down drops it (R370, R373, R380). -/
def toPort (s : State) (port : Nat) (p : Packet) : State :=
  if (s.link port).up then
    let s1 := s.modLink port (fun l => ({ l with queue := l.queue ++ [(s.cycle, p)] }).drain (l.queue.length + 1))
    if (s1.link port).queue.isEmpty then s1 else s1.at_ (s.cycle + 65536) (.creditWaitDrop port)
  else dropPacket s (port / 4) p

/-- A packet from an endpoint of a world of this module; `hops` and `hop` are filled in when it is
sent. -/
def mkPacket (s : State) (typ cls world src dst idx gen : Nat) (op status : Word) (data : List Word) : Packet :=
  { typ := typ, cls := cls, world := world, pgen := (s.polder world).gen, hop := 0, hops := [], dst := dst,
    src := src, tagIdx := idx, tagGen := gen, op := op, status := status, data := data }

/-- Send a packet from a die of this module: along the chosen path, or not at all where none is valid
(R380). -/
def sendPacket (s : State) (die : Nat) (p : Packet) : Option State :=
  match choosePath s die p.src p.dst with
  | some (h :: hs) => some (toPort s h { p with hops := h :: hs, hop := 1 })
  | _ => none

/-- Whether a module can be reached from a complex. -/
def hasPath (s : State) (die module : Nat) : Bool := !(validPaths s die module).isEmpty

/-- Dword 6 of an access packet (R376). -/
def accessOp (addr sizeCode f swz order scope : Nat) : Word :=
  BitVec.ofNat 64 (addr % 2 ^ 48 + sizeCode * 2 ^ 48 + f * 2 ^ 51 + swz * 2 ^ 56 + order * 2 ^ 57 + scope * 2 ^ 59)

/-- The size code of R376: 1, 2, 4, 8, 16, 64 bytes. -/
def sizeCode (n : Nat) : Nat :=
  if n = 1 then 0 else if n = 2 then 1 else if n = 4 then 2 else if n = 8 then 3 else if n = 16 then 4 else 5

/-- The number of bytes of a size code. -/
def codeSize (c : Nat) : Nat := if c = 5 then 64 else 2 ^ c

/-- The greatest size of R376 that is at most `n`, up to 16. -/
def packetSize (n : Nat) : Nat :=
  if 16 ≤ n then 16 else if 8 ≤ n then 8 else if 4 ≤ n then 4 else if 2 ≤ n then 2 else 1

/-- Bytes as the dwords of a flit. -/
def flitOf (bs : List Byte) : List Word :=
  (List.range 8).map (fun i => leWord ((bs.drop (8 * i)).take 8))

/-! ## Requests of other modules -/

/-- The signature that a packet carries from a data word on. -/
def packetSig (p : Packet) (i : Nat) : Sig :=
  if p.data.length ≤ i then 0 else BitVec.ofNat 512 (leNat (wordBytes ((p.data.drop i).take 8)))

/-- The requester that a packet of another module names, at the die that serves it. -/
def packetWho (die : Nat) (p : Packet) : ReplyTo := .remote (p.src / 4194304) (p.src / 262144 % 16) p.tagIdx p.tagGen die

/-- The bytes that a packet carries. -/
def packetBytes (p : Packet) (n : Nat) : List Byte := (wordBytes (p.data.take 8)).take n

end Sys2Proof.Machine
end

