-- ==== Sys2Proof/Machine/Home.lean ====
section
/-! DEFINITION. The home of a line: sealed lines in HBM, reads and writes at the home slice, copies in the
remote-data cache and watched lines (13 R260 to R264, R268, R275; 16 R322; 19 R344, R347, R348). -/

namespace Sys2Proof.Machine

/-! ## Sealing (R347, R348) -/

def keyBytes (k : BitVec 256) : List Byte := toLe k.toNat 32

/-- The owner of a physical address's granule. -/
def ownerOf (s : State) (pa : Nat) : Option Nat := NMap.find s.granules (pa / 33554432)

/-- The keys of the owner of a line. -/
def lineKeys (s : State) (line : Nat) : Option (BitVec 256 × BitVec 256 × BitVec 256) :=
  match ownerOf s (line * 64) with
  | some w => (s.polder w).keys.map (fun k => (k.1, k.2.1, k.2.2.1))
  | none => none

/-- The tag of a ciphertext: KMAC256 over the line number and the ciphertext. -/
def sealTag (ki : BitVec 256) (line : Nat) (cipher : List Byte) : BitVec 56 :=
  BitVec.ofNat 56 (leNat (kmac256 (keyBytes ki) (cipher ++ toLe line 8) 56))

/-- The sealed form of a line, where its owner has keys. -/
def sealLine (s : State) (line : Nat) (data : List Byte) : Option HbmLine :=
  (lineKeys s line).map (fun k =>
    let c := xtsEncrypt (keyBytes k.1) (keyBytes k.2.1) line data
    { cipher := c, tag := sealTag k.2.2 line c })

/-- The plaintext of a sealed line, if its tag is right. -/
def unsealLine (s : State) (line : Nat) (h : HbmLine) : Option (List Byte) :=
  match lineKeys s line with
  | some k =>
    if sealTag k.2.2 line h.cipher = h.tag then some (xtsDecrypt (keyBytes k.1) (keyBytes k.2.1) line h.cipher)
    else none
  | none => none

/-- A soft error of a die's caches is counted (R275). -/
def countDie (die : Nat) (s : State) : State := s.modDie die (fun d => { d with softErrors := d.softErrors + 1 })

/-- Bring one line into its home cache; `none` where it is uncorrectable or its tag fails (R275,
R348). -/
def fetchLine (s : State) (line : Nat) : Option State :=
  if s.poison.contains (.home line) then none
  else
    let s1 := correct s [.home line] (countDie (line * 64 / 2 ^ 37))
    match NMap.find s1.hbm line with
    | none => some s1
    | some h => (unsealLine s1 line h).map (fun bs => { s1.pokeMem (line * 64) bs with hbm := NMap.erase s1.hbm line })

/-- The lines that `n` bytes from `pa` up touch. -/
def linesOf (pa n : Nat) : List Nat := (List.range ((pa + n - 1) / 64 + 1 - pa / 64)).map (fun i => pa / 64 + i)

/-- Bring lines into their home caches; the first line that fails, if any. -/
def fetchLines (s : State) : List Nat → Except Nat State
  | [] => .ok s
  | l :: ls => match fetchLine s l with | some t => fetchLines t ls | none => .error l

/-- An integrity failure of a home line: recorded with its address (R348). -/
def integrityRecord (s : State) (line : Nat) : State :=
  hatPost s (line * 64 / 2 ^ 37) 0x05 0x12 (dieEndpoint s (line * 64 / 2 ^ 37)) (BitVec.ofNat 64 (line * 64)) 0

/-- Read bytes at their home; the failing line where integrity fails. -/
def homeRead (s : State) (pa n : Nat) : Except Nat (State × List Byte) :=
  match fetchLines s (linesOf pa n) with
  | .ok t => .ok (t, t.peekMem pa n)
  | .error l => .error l

/-! ## Remote-data cache (R261, R262) -/

/-- Whether a die homes a physical address of this module. -/
def homeDie (pa : Nat) : Nat := pa / 2 ^ 37

/-- The copy of a line that a world may read: lines are tagged with their world (R347). -/
def findCopy (s : State) (die world line : Nat) : Option RdcLine :=
  (s.die die).rdc.find? (fun l => l.line == line && l.world == world)

/-- Drop the copies of a line, and keep its fills in flight from being installed (R261). -/
def dropCopies (s : State) (die line : Nat) : State :=
  if (s.die die).rdc.isEmpty ∧ (s.die die).fills.isEmpty then s
  else s.modDie die (fun d => { d with
    rdc := d.rdc.filter (·.line != line)
    fills := d.fills.map (fun f => if f.line = line then { f with install := false } else f) })

/-- The copy that serves a read: an uncorrectable one is invalidated and counted, so that its line is fetched again
(R275), and one that the cache has evicted by now is gone (R261). -/
def useCopy (s : State) (die world line : Nat) : State × Option RdcLine :=
  match findCopy s die world line with
  | none => (s, none)
  | some cp =>
    if s.poison.contains (.copy die line) then
      (countDie die { dropCopies s die line with poison := s.poison.filter (· != .copy die line) }, none)
    else if Config.rdcKeeps s.free then ((correct s [.copy die line] (countDie die)).tick, some cp)
    else ((s.modDie die (fun d => { d with rdc := d.rdc.erase cp })).tick, none)

/-- How many lines the 24 MiB cache holds (R1). -/
def rdcLines : Nat := 393216

/-- Overlay bytes at an offset. -/
def overlay (old : List Byte) (off : Nat) (bs : List Byte) : List Byte :=
  old.take off ++ bs ++ old.drop (off + bs.length)

/-- A store of the same die updates the copy, and keeps a fill in flight from being installed (R261). -/
def updateCopies (s : State) (die module pa : Nat) (bs : List Byte) : State :=
  let first := lineKey module pa
  let last := lineKey module (pa + bs.length - 1)
  let touch (l : RdcLine) : RdcLine :=
    if first = l.line then { l with data := (overlay l.data (pa % 64) (bs.take (64 - pa % 64))).take 64 }
    else if last = l.line then { l with data := (overlay l.data 0 (bs.drop (64 - pa % 64))).take 64 }
    else l
  let d := s.die die
  if d.rdc.isEmpty ∧ d.fills.isEmpty then s
  else s.modDie die (fun d => { d with
    rdc := d.rdc.map touch
    fills := d.fills.map (fun f => if f.line = first ∨ f.line = last then { f with install := false } else f) })

/-- Refresh the copies of the lines of bytes read at their homes, each byte by its module and physical address
(R262). -/
def refreshCopies (s : State) (die : Nat) (bs : List (Nat × Nat × Byte)) : State :=
  if (s.die die).rdc.isEmpty then s
  else s.modDie die (fun d => { d with rdc := d.rdc.map (fun l =>
    { l with data := bs.foldl (fun x b => if lineKey b.1 b.2.1 = l.line then setAt x (b.2.1 % 64) b.2.2 else x) l.data }) })

/-- A store of a die to bytes of another module leaves under a tag: from now until the tag is free the die keeps no copy
of their lines, since it cannot tell the instant at which the store is performed (R261). -/
def peerStoreSent (s : State) (die idx module pa n : Nat) : State :=
  (linesOf pa n).foldl (fun t l =>
    (dropCopies t die (module * 2 ^ 42 + l)).modDie die (fun d => { d with storing := d.storing ++ [(idx, module * 2 ^ 42 + l)] })) s

/-! ## Watched lines (R322) -/

/-- A store to a watched line sets the mut of every graph request that watches it, the storing request
itself apart. -/
def hitWatchesBut (s : State) (self : Option Nat) (lines : List Nat) : State :=
  let hit (r : CopyReq) : Bool := some r.id != self && r.watches.any lines.contains
  if s.clusters.any (fun p => p.2.kicks.any hit) then
    { s with clusters := s.clusters.map (fun p => (p.1, { p.2 with
        kicks := p.2.kicks.map (fun r => if hit r then { r with mutated := 1 } else r) })) }
  else s

def hitWatches (s : State) (lines : List Nat) : State := hitWatchesBut s none lines

/-- The watch key of a word of a core's local store: line of the offset within the core, beside the
lines of memory. -/
def lsWatchKey (core off : Nat) : Nat := 2 ^ 60 + core * 1024 + off / 64

/-- A store to physical bytes of a core's local store, by a copy-hart request or another agent. -/
def lsStoreBut (s : State) (self : Option Nat) (c : Nat) (ps : List Nat) (bs : List Byte) : State :=
  hitWatchesBut (lsWrite s c ps bs) self (ps.map (lsWatchKey c))

/-- A store to physical bytes of a core's local store. -/
def lsStore (s : State) (c : Nat) (ps : List Nat) (bs : List Byte) : State := lsStoreBut s none c ps bs

/-- A graph request watches lines from now on: at most 4,096, and mut says so where one finds no place (R322). -/
def addWatches (s : State) (cl id : Nat) (keys : List Nat) : State :=
  s.modCluster cl (fun c => { c with kicks := c.kicks.map (fun x =>
    if x.id = id then
      let add := keys.filter (fun k => !x.watches.contains k)
      let room := 4096 - x.watches.length
      { x with watches := x.watches ++ add.take room
               mutated := if room < add.length ∧ x.mutated ≠ 1 then 2 else x.mutated }
    else x) })

/-! ## Stores at the home (R260) -/

/-- Write bytes at their home, the lines having been brought in. Lines written whole need no fetch. -/
def homeWrite (s : State) (self : Option Nat) (pa : Nat) (bs : List Byte) : Except Nat State :=
  let ls := linesOf pa bs.length
  let part := ls.filter (fun l => !(decide (pa ≤ l * 64) && decide (l * 64 + 64 ≤ pa + bs.length)))
  match fetchLines s part with
  | .ok t =>
    let t1 := t.pokeMem pa bs
    let t2 := if t1.hbm.isEmpty then t1 else { t1 with hbm := t1.hbm.filter (fun p => !ls.contains p.1) }
    let t3 :=
      if t2.poison.isEmpty then t2
      else { t2 with poison := t2.poison.filter (fun q => match q with | .home l => !ls.contains l | _ => true) }
    .ok (hitWatchesBut t3 self ls)
  | .error l => .error l

/-- Forget everything that a granule holds: its lines read as zero (R348, R351). -/
def freshGranule (s : State) (g : Nat) : State :=
  let inG (a : Nat) : Bool := a / 33554432 == g
  { s with
    mem := s.mem.filter (fun p => !inG p.1)
    hbm := s.hbm.filter (fun p => !inG (p.1 * 64))
    poison := s.poison.filter (fun q => match q with | .home l => !inG (l * 64) | _ => true) }

/-! ## Fills -/

/-- The oldest fill of a line for a world that is still in flight and may be installed. -/
def openFill (s : State) (die world line : Nat) : Option RdcFill :=
  (s.die die).fills.find? (fun f => f.line == line && f.world == world && f.install)

/-- Start a fill: the data is what the home holds now (R261). -/
def startFill (s : State) (die world line : Nat) (data : List Byte) (who : List ReplyTo) : State :=
  (s.freshId.modDie die (fun d => { d with
    fills := d.fills ++ [{ line := line, world := world, data := data, install := true, waiters := who, id := s.nextId }] })).laterAfter
    Config.latReply (fun e => match e with | .rdcFillArrival d l => d == die && l == line | _ => false)
    (.rdcFillArrival die line)

def joinFill (s : State) (die id : Nat) (who : ReplyTo) : State :=
  s.modDie die (fun d => { d with fills := d.fills.map (fun f => if f.id = id then { f with waiters := f.waiters ++ [who] } else f) })

/-! ## Atomics (R209 to R211) -/

/-- The new value of an atomic of `size` bytes and its flags. `f` is f[3:0] and `wide` f[4]. -/
def amoNew (f : Nat) (wide : Bool) (size m b c : Nat) : Nat × BitVec 5 :=
  let w := 8 * size
  if f = 0 then ((m + b) % 2 ^ w, 0)
  else if f = 1 then (m &&& b, 0)
  else if f = 2 then (m ||| b, 0)
  else if f = 3 then (m ^^^ b, 0)
  else if f = 4 then (b, 0)
  else if f = 5 then (if signedOf w m < signedOf w b then m else b, 0)
  else if f = 6 then (if signedOf w m < signedOf w b then b else m, 0)
  else if f = 7 then (Nat.min m b, 0)
  else if f = 8 then (Nat.max m b, 0)
  else if f = 9 then (if m = c then b else m, 0)
  else
    let fm := if wide then Fmt.bf16 else Fmt.f32
    finishF fm 0 (addF 0 (decodeF fm m) (decodeF fm b))

/-- The access size of an atomic. -/
def amoSize (f : Nat) (wide : Bool) : Nat :=
  if f = 10 then (if wide then 2 else 4) else if wide then 8 else 4

end Sys2Proof.Machine
end

