-- ==== Sys2Proof/Machine/Translate.lean ====
section
/-! DEFINITION. Address translation: entries, walks, translation buffers, the miss table and the checks of a
translated access (15 R295 to R304). -/

namespace Sys2Proof.Machine

/-! ## Entries (R297, R298) -/

/-- The level of a leaf by its size field, and the page size. -/
def pageSize (code : Nat) : Nat := if code = 0 then 2 ^ 16 else if code = 1 then 2 ^ 25 else 2 ^ 34

structure Leaf where
  word : Word
  deriving DecidableEq, Repr, Inhabited

namespace Leaf
def e (l : Leaf) : Nat := l.word.toNat
def size (l : Leaf) : Nat := pageSize (bits l.e 10 9)
def kind (l : Leaf) : Nat := bits l.e 7 6
def readable (l : Leaf) : Bool := l.word.getLsbD 2
def writable (l : Leaf) : Bool := l.word.getLsbD 3
def executable (l : Leaf) : Bool := l.word.getLsbD 4
def remoteAtomic (l : Leaf) : Bool := l.word.getLsbD 5
def swizzled (l : Leaf) : Bool := l.word.getLsbD 8
def pa (l : Leaf) : Nat := bits l.e 40 12 * 4096
def module (l : Leaf) : Nat := bits l.e 63 52
/-- The core key of a leaf of kind 2. -/
def core (l : Leaf) : Nat := bits l.e 51 33
end Leaf

/-- A malformed entry at a level (R299, step 2), its group apart. -/
def malformedEntry (w : Word) (level : Nat) : Bool :=
  let e := w.toNat
  let sz := bits e 10 9
  let kind := bits e 7 6
  let leaf := w.getLsbD 1
  w.getLsbD 11 ||
  if leaf then
    decide (3 ≤ level) || sz == 3 || sz != level || kind == 3
      || (kind != 2 && w.getLsbD 8)
      || (kind == 0 && bits e 63 41 != 0)
      || (kind == 1 && bits e 51 41 != 0)
      || (kind != 2 && bits e 40 12 * 4096 % pageSize sz != 0)
      || (kind == 2 && (sz != 0 || bits e 32 12 != 0 || decide (3200 ≤ bits e 47 36)))
  else level == 0 || bits e 63 41 != 0 || sz != 0 || w.getLsbD 8 || kind != 0 || w.getLsbD 5

/-! ## Walks (R296) -/

inductive WalkResult where
  | leaf (l : Leaf)
  /-- A page fault (V = 0). -/
  | absent
  /-- A malformed table, with the physical address of the entry. -/
  | malformed (pa : Nat)
  /-- An entry's line fails its integrity check. -/
  | integrity (line : Nat)
  /-- No buffer holds the page, so that the miss table has to be asked (R300). -/
  | missing
  deriving DecidableEq, Repr, Inhabited

/-- Read a dword of a table at its home. -/
def tableWord (s : State) (pa : Nat) : Except Nat Word :=
  match homeRead s pa 8 with | .ok (_, bs) => .ok (leWord bs) | .error l => .error l

/-- The 16 entries of a leaf's group are equal. -/
def groupEqual (s : State) (table idx : Nat) (w : Word) : Bool :=
  (List.range 16).all (fun i =>
    match tableWord s (table + 8 * (idx / 16 * 16 + i)) with | .ok v => v == w | .error _ => false)

/-- Walk from a table at `level` down. -/
def walkFrom (s : State) (va table : Nat) : Nat → WalkResult
  | 0 => .absent
  | level + 1 =>
    let idx := va / 2 ^ (12 + 9 * level) % 512
    let at_ := table + 8 * idx
    match tableWord s at_ with
    | .error l => .integrity l
    | .ok w =>
      if !w.getLsbD 0 then .absent
      else if malformedEntry w level then .malformed at_
      else if w.getLsbD 1 then
        if groupEqual s table idx w then .leaf ⟨w⟩ else .malformed at_
      else walkFrom s va (bits w.toNat 40 12 * 4096) level

/-- The walk of a virtual address of a world. -/
def walk (s : State) (world va : Nat) : WalkResult :=
  if 2 ^ 57 ≤ va then .absent
  else walkFrom s va (bits (s.polder world).ptbase.toNat 40 12 * 4096) 5

/-- The physical addresses of the entries that a walk from a table at `level` down reads. -/
def walkReads (s : State) (va table : Nat) : Nat → List Nat
  | 0 => []
  | level + 1 =>
    let at_ := table + 8 * (va / 2 ^ (12 + 9 * level) % 512)
    match tableWord s at_ with
    | .error _ => [at_]
    | .ok w =>
      if w.getLsbD 0 && !w.getLsbD 1 && !malformedEntry w level then at_ :: walkReads s va (bits w.toNat 40 12 * 4096) level
      else [at_]

/-- What a walk leaves at the die that makes it: each entry is read with an acquire at .mod (R296), whose signatures
invalidate the die's copies (R271), and the pointer entries go into the walkers' cache of 256 (R301). The walk reads its
entries at their homes, so that the cache changes nothing but time and a store to an entry is seen by every later walk
(R303). -/
def walkEffect (s : State) (die world va : Nat) : State :=
  let ps := walkReads s va (bits (s.polder world).ptbase.toNat 40 12 * 4096) 5
  let s1 := ps.foldl (fun t pa => invalidateMatching t die (homeSig s pa world)) s
  s1.modDie die (fun d =>
    { d with ptrs := ((ps.dropLast.map (fun pa => (world, pa))).reverse ++ d.ptrs.filter (fun p => !(p.1 == world && ps.contains p.2))).take 256 })

/-! ## Translation buffers (R300) -/

def TlbEntry.covers (t : TlbEntry) (world va : Nat) : Bool :=
  t.world == world && decide (t.va ≤ va) && decide (va < t.va + t.size)

def tlbFind (l : List TlbEntry) (world va : Nat) : Option TlbEntry := l.find? (·.covers world va)

/-- Put an entry first; the list keeps the order of last use. -/
def tlbTouch (l : List TlbEntry) (t : TlbEntry) (cap : Nat) : List TlbEntry := (t :: l.filter (· != t)).take cap

def tlbCluster (s : State) (cl : Nat) (t : TlbEntry) : State :=
  s.modCluster cl (fun c => { c with tlb := tlbTouch c.tlb t 64 })

def tlbDie (s : State) (die : Nat) (t : TlbEntry) : State :=
  s.modDie die (fun d => { d with tlb := tlbTouch d.tlb t 12288 })

def entryOf (world va : Nat) (l : Leaf) : TlbEntry :=
  { world := world, va := va / l.size * l.size, size := l.size, leaf := l.word }

/-- Look an address up in the cluster's buffer and then in the die's, counting the misses. -/
def lookup (s : State) (core world va : Nat) : State × Option Leaf :=
  let cl := clusterOfCore core
  match tlbFind (s.cluster cl).tlb world va with
  | some t => (tlbCluster s cl t, some ⟨t.leaf⟩)
  | none =>
    let s1 := s.modCore core (fun c => { c with tlbMisses := c.tlbMisses + 1 })
    match tlbFind (s.die (dieOfCore core)).tlb world va with
    | some t => (tlbCluster (tlbDie s1 (dieOfCore core) t) cl t, some ⟨t.leaf⟩)
    | none => (s1.modCore core (fun c => { c with dieTlbMisses := c.dieTlbMisses + 1 }), none)

/-! ## Checks (R299, steps 3 to 6; R194, R212) -/

/-- What an access asks of a page. -/
inductive Need where
  | load | store | atomic
  /-- LDS, STF, LDP and SFE act on local stores only (R200 to R203). -/
  | fullEmptyLoad | fullEmptyStore
  deriving DecidableEq, Repr, Inhabited

def Need.writes : Need → Bool
  | .store | .atomic | .fullEmptyStore => true
  | .load | .fullEmptyLoad => false

/-- Whether a page refuses an access of a world (access violation). -/
def refuses (s : State) (l : Leaf) (world va : Nat) (need : Need) : Bool :=
  let away := (l.kind == 1) || (l.kind == 2 && l.module != s.moduleNo)
  (if need.writes then !l.writable else !l.readable)
    || ((need == .fullEmptyLoad || need == .fullEmptyStore) && l.kind != 2)
    || (l.kind == 2 && decide (0xC000 ≤ va % 65536))
    || (need == .atomic && away && !l.remoteAtomic)
    || ((l.kind == 0 || (l.kind == 1 && l.module == s.moduleNo)) && ownerOf s (l.pa + va % l.size) != some world)

/-- Where a byte of a page stands; a leaf that names this module is no other module's. -/
def targetOf (s : State) (l : Leaf) (va : Nat) : Target :=
  if l.kind = 2 then .aper l.module l.core (va % 65536 + (if l.swizzled then 0x10000 else 0))
  else if l.kind = 1 ∧ l.module ≠ s.moduleNo then .peer l.module (l.pa + va % l.size)
  else .home (l.pa + va % l.size)

/-! ## The miss table (R301 to R304) -/

def missKey (va : Nat) : Nat := va / 65536

/-- Queue a miss of a requester in its cluster. -/
def queueMiss (s : State) (cluster world va : Nat) (who : ReplyTo) : State :=
  (s.modCluster cluster (fun c => { c with missQueue := c.missQueue ++ [(world, va, who)] })).next1
    (.missTableAdmit cluster)

/-- Whether the steward walks for a polder (R304). -/
def walksBySteward (s : State) (world : Nat) : Bool := (s.polder world).split.getLsbD 0

/-- Walkers that have no entry. -/
def freeWalker (d : Die) : Option Nat :=
  (List.range 64).find? (fun w => !d.miss.any (fun e => e.walker == some w))

/-! ## Engines, hints and dispatchers -/

/-- The leaf that the buffers of a cluster and its die hold for an address: what engines and dispatchers use, which wait
in the miss table where no buffer holds the page. An address that no table reaches is absent. -/
def resolve (s : State) (cluster world va : Nat) : WalkResult :=
  if 2 ^ 57 ≤ va then .absent
  else
    match tlbFind (s.cluster cluster).tlb world va with
    | some t => .leaf ⟨t.leaf⟩
    | none =>
      match tlbFind (s.die (dieOfCluster cluster)).tlb world va with
      | some t => .leaf ⟨t.leaf⟩
      | none => .missing

/-- A use of a page: its entry is the last one used in both buffers (R300). -/
def touchPage (s : State) (cluster world va : Nat) : State :=
  match tlbFind (s.cluster cluster).tlb world va with
  | some t => tlbCluster s cluster t
  | none =>
    match tlbFind (s.die (dieOfCluster cluster)).tlb world va with
    | some t => tlbCluster (tlbDie s (dieOfCluster cluster) t) cluster t
    | none => s

/-- The leaf for a hint's address: from the buffers, or from a walk of the hint's own, which waits behind no demand miss,
raises no fault and installs the leaf that it finds (R302, R305). The walkers do not walk for a polder whose walks are
the steward's (R304). -/
def hintLeaf (s : State) (cluster world va : Nat) : State × Option Leaf :=
  match resolve s cluster world va with
  | .leaf l => (touchPage s cluster world va, some l)
  | .missing =>
    if walksBySteward s world then (s, none)
    else
      let die := dieOfCluster cluster
      match walk s world va with
      | .leaf l => (tlbCluster (tlbDie (walkEffect s die world va) die (entryOf world va l)) cluster (entryOf world va l), some l)
      | _ => (walkEffect s die world va, none)
  | _ => (s, none)

end Sys2Proof.Machine
end

