-- ==== Sys2Proof/Machine/Access.lean ====
section
/-! DEFINITION. A memory access of a slot from issue to completion (08 R194 to R212; 06 R153, R154; 13 R261 to
R271; 15 R299, R302, R309; 21 R382). -/

namespace Sys2Proof.Machine

/-! ## Decoding under a format (R136 to R141, R207) -/

/-- The binary16 levels of the QN4 codebook (R141). -/
def qn4Level (code : Nat) : Nat :=
  (([0xBC00, 0xB9A9, 0xB856, 0xB6AB, 0xB4F9, 0xB2E9, 0xB013, 0xA963, 0x2963, 0x3013, 0x32E9, 0x34F9, 0x36AB,
    0x3856, 0x39A9, 0x3C00] : List Nat)[code % 16]?).getD 0

/-- `s × (q − z)` in binary32 (R138). -/
def scaledInt (scale : Nat) (q z : Int) : Nat × BitVec 5 :=
  match decodeF Fmt.e4m3 scale with
  | .nan _ => (Fmt.f32.nanPat, 0)
  | v => finishF Fmt.f32 0 (mulF v (ofInt (q - z) 0 false))

/-- A QN4 element (R140). -/
def qn4Value (code s sup : Nat) : Nat × BitVec 5 :=
  let v := (mulF (decodeF Fmt.f16 (qn4Level code)) (.fin false (s + 1) (-8))).1
  finishF Fmt.f32 0 (mulF v (decodeF Fmt.f32 sup))

/-- Lane width of the elements that a format decodes to (R207). -/
def vlddWidth (fmt : Nat) : Nat :=
  if fmt = 0 ∨ fmt = 4 ∨ fmt = 5 then 8
  else if fmt = 2 ∨ fmt = 3 ∨ fmt = 12 then 16
  else if fmt = 1 ∨ fmt = 11 ∨ fmt = 6 ∨ fmt = 7 ∨ fmt = 8 then 32 else 64

/-- A format code that a decoding access refuses (R137). -/
def badFormat (p : Word) : Bool :=
  let fmt := bits p.toNat 63 60
  let blk := bits p.toNat 59 57
  fmt == 0xD || fmt == 0xE || (fmt == 7 && blk != 3) || ((fmt == 6 || fmt == 8) && blk == 0)

def hasSidecar (fmt : Nat) : Bool := fmt == 6 || fmt == 7 || fmt == 8

/-- The addresses of the bytes of element `i`, in the order in which they are decoded (R138, R140). -/
def elementBytes (fmt blk p sc i : Nat) : List Nat :=
  let b := i / 2 ^ (blk + 3)
  if fmt = 6 then [p + i, sc + 2 * b, sc + 2 * b + 1]
  else if fmt = 8 then [p + i / 2, sc + 2 * b, sc + 2 * b + 1]
  else if fmt = 7 then
    let g := sc + 260 * (b / 256)
    [p + i / 2, g + 4 + b % 256, g, g + 1, g + 2, g + 3]
  else
    let n := vlddWidth fmt / 8
    (List.range n).map (fun k => p + i * n + k)

/-- Element `i` from its bytes. -/
def decodeElement (fmt i : Nat) (bs : List Byte) : Nat × BitVec 5 :=
  let b (k : Nat) : Nat := ((bs[k]?).getD 0).toNat
  let nib := if i % 2 = 0 then b 0 % 16 else b 0 / 16
  if fmt = 6 then scaledInt (b 1) (signedOf 8 (b 0)) (signedOf 8 (b 2))
  else if fmt = 8 then scaledInt (b 1) (signedOf 4 nib) (signedOf 8 (b 2))
  else if fmt = 7 then qn4Value nib (b 1) (leNat (bs.drop 2))
  else (leNat bs, 0)

/-- The decoded lanes of a VLDD. -/
def vlddLanes (fmt i0 per : Nat) (bs : List Byte) : Nat → List (Nat × BitVec 5)
  | 0 => []
  | n + 1 => decodeElement fmt i0 (bs.take per) :: vlddLanes fmt (i0 + 1) per (bs.drop per) n

/-! ## Requests -/

def MemReq.new (op : MemOp) (w rd : Nat) (vas : List Nat) : MemReq :=
  { op := op, w := w, rd := rd, vas := vas, data := [], cmp := 0, acq := false, rel := false, scope := 0,
    segs := [], got := [], pos := 0, asked := 0, tag := none, chunks := [], phase := 0, extra := 0, key := none,
    issued := 0, translated := 0, served := 0, sampled := false, level := 0 }

/-- The effective address, which a fault of an access reports: the lowest address of a store whose bytes are sent in
another order. -/
def MemReq.ea (r : MemReq) : Nat :=
  match r.op with
  | .vst => r.vas.foldl Nat.min ((r.vas.head?).getD 0)
  | _ => (r.vas.head?).getD 0

/-- What an access asks of a page (R299). -/
def MemReq.need (r : MemReq) : Need :=
  match r.op with
  | .st | .vst | .sttk => .store
  | .amo | .tdone => .atomic
  | .lds | .ldp => .fullEmptyLoad
  | .stf | .sfe => .fullEmptyStore
  | .ld | .vld | .vldd | .vldt | .vldx | .gstat | .qpush | .xred | .fence | .tyield => .load
  | .vstx => .store

/-- Bytes gathered, in order of position. -/
def MemReq.bytes (r : MemReq) : List Byte :=
  (List.range r.vas.length).map (fun i => (NMap.find r.got i).getD 0)

def MemReq.isStore (r : MemReq) : Bool :=
  match r.op with
  | .st | .stf | .sfe | .vst | .vstx => true
  | _ => false

/-- Relaxed loads are served by a copy (R262). -/
def MemReq.fromCopy (r : MemReq) : Bool :=
  match r.op with
  | .ld | .vld | .vldd | .xred => !r.acq
  | _ => false

/-! ## What an access writes when it completes -/

/-- What GSTAT returns (R337, R340): GOR dword 4; the state of a running request (phase 1); or, while the request
waits in a kick slot (phase 2), the count of dword 5 and the mut of dword 4 with code 0x01. -/
def gstatValue (r : MemReq) (bs : List Byte) : Word :=
  if r.phase = 1 then r.extra
  else if r.phase = 2 then
    BitVec.ofNat 64 (bits (leNat (bs.drop 8)) 47 8 * 2 ^ 16 + bits (leNat bs) 9 8 * 2 ^ 8 + 1)
  else leWord bs

/-- The result of an access of `bs` on its slot. -/
def MemReq.result (r : MemReq) (bs : List Byte) (sl : Slot) : Slot :=
  match r.op with
  | .ld | .lds => sl.putX (regOf r.rd) (extendTy r.w bs)
  | .ldp => sl.putX (regOf r.rd) (leWord bs &&& 1)
  | .vld => sl.putV (regOf r.rd) (leVec bs)
  | .vldx =>
    sl.putV (regOf r.rd) (leVec bs)
  | .vldt =>
    (List.range 8).foldl (fun a j =>
      a.putV (regOf (r.rd + j)) (vecOf 16 ((List.range 8).map (fun i => leNat ((bs.drop (16 * i + 2 * j)).take 2))))) sl
  | .vldd =>
    let fmt := r.w
    let n := 128 / vlddWidth fmt
    let ls := vlddLanes fmt r.cmp.toNat (bs.length / n) bs n
    (sl.putV (regOf r.rd) (vecOf (vlddWidth fmt) (ls.map (·.1)))).addFlags (ls.foldl (fun a p => a ||| p.2) 0)
  | .amo =>
    let f := r.w % 16
    let fl := (amoNew f (decide (16 ≤ r.w)) bs.length (leNat bs) (leNat r.data) r.cmp.toNat).2
    (sl.putX (regOf r.rd) (leWord bs)).addFlags fl
  | .gstat => sl.putX (regOf r.rd) (gstatValue r bs)
  | .st | .stf | .sfe | .vst | .vstx | .qpush | .xred | .sttk | .fence | .tdone | .tyield => sl

def insertNat (a : Nat) : List Nat → List Nat
  | [] => [a]
  | b :: bs => if a ≤ b then a :: b :: bs else b :: insertNat a bs

/-- Addresses in rising order: the lowest failing byte is reported (R195). -/
def rising (l : List Nat) : List Nat := l.foldr insertNat []

/-! ## Own local store -/

/-- The physical bytes of window addresses. -/
def physOf (vas : List Nat) : List Nat := vas.filterMap lsPhys

/-- A release at a core publishes the accumulator there (R270). -/
def releaseAtCore (s : State) (c num core : Nat) (rel : Bool) : State :=
  match ctxOf s c num with
  | some sl =>
    if rel ∨ sl.fenceRel then
      let s1 := publishCore s core sl.world sl.acc
      if rel then s1.modCtx c num (fun x => { x with fenceRel := false }) else s1
    else s
  | none => s

/-- An acquire of a context at a core (R271, R274). -/
def acquireAtCore (s : State) (c num core : Nat) : State :=
  match ctxOf s c num with
  | some sl => acquireCtx s c num (coreSig s core sl.world)
  | none => s

/-- Serve some chunks of a local access: read or write every byte that lies in one of them. -/
def serveChunks (s : State) (c : Nat) (r : MemReq) (now : List Nat) : State × MemReq :=
  let ps := physOf r.vas
  let idx := (List.range ps.length).filter (fun i => now.contains ((ps[i]?).getD 0 / 16))
  if r.isStore then
    let sel := idx.map (fun i => ((ps[i]?).getD 0, (r.data[i]?).getD 0))
    (lsStore s c (sel.map (·.1)) (sel.map (·.2)), r)
  else
    (lsCorrect s c (idx.map (fun i => (ps[i]?).getD 0)), { r with got := idx.foldl (fun g i => NMap.set g i (cellGet (s.core c).ls ((ps[i]?).getD 0))) r.got })

/-- A local access of several chunks that needs `p` passes: it completes at issue if p is 1, and makes one
pass per cycle otherwise (R153). -/
def localPasses (s : State) (r : MemReq) : Out :=
  let k := s.cur
  let c := coreOf k
  let (now, rest, mask) := onePass 0 (chunksOf (physOf r.vas))
  let (s1, r1) := serveChunks (claimBanks s c mask) c r now
  if rest.isEmpty then .next (s1.modMe (r1.result r1.bytes))
  else .next (park s1 k .waitMem (.mem { r1 with chunks := rest }))

/-- The rows of R67 that a trap of a local access takes: 7 for the first byte outside the share or the
windows, then an uncorrectable word. -/
def localFault (s : State) (vas : List Nat) : Option (Nat × Nat) :=
  let lo := s.me.lsbase.toNat
  let hi := s.me.lsbound.toNat
  match vas.find? (fun a => !lsOk lo hi a) with
  | some a => some (0x11, a)
  | none => (lsPoison s (coreOf s.cur) (physOf vas)).map (fun p => (0x12, p))

/-- The state in which an access of one chunk makes its pass: its bank is claimed (R153), and single-bit errors of its words
are corrected (R168). -/
def singlePass (s : State) (c : Nat) (ps : List Nat) : State :=
  claimBanks (lsCorrect s c ps) c (1#8 <<< ((ps.head?).getD 0 / 16 % 8))

/-- An access to the own local store (R197, R200 to R203, R210). -/
def localAccess (s : State) (r : MemReq) : Out :=
  let k := s.cur
  let c := coreOf k
  let num := s.me.ctxNum
  match localFault s (if r.op = .vldd then rising r.vas else r.vas) with
  | some (code, a) => trapOut s 7 code (BitVec.ofNat 64 a)
  | none =>
    let ps := physOf r.vas
    let word := (ps.head?).getD 0 / 8
    let s0 := singlePass s c ps
    match r.op with
    | .ldp =>
      let s1 := if r.acq then acquireAtCore s0 c num c else s0
      .next (s1.modMe (fun sl => sl.putX (regOf r.rd) (ofBool (isFull (s.core c) word))))
    | .sfe =>
      .next (setFe (releaseAtCore s0 c num c r.rel) c word ((leWord r.data).getLsbD 0))
    | .stf =>
      let s1 := releaseAtCore s0 c num c r.rel
      .next (setFe (lsStore s1 c ps r.data) c word true)
    | .lds =>
      if isFull (s.core c) word then
        let bs := lsRead s0 c ps
        let s1 := if r.acq then acquireAtCore s0 c num c else s0
        .next ((s1.modCore c (fun co => setEmptyBit co word)).modMe (r.result bs))
      else
        let s1 := park s0 k .waitMem (.mem r)
        .next (joinWaiters s1 c { word := word, who := .ctx c num, world := s.me.world, off := r.ea, size := r.vas.length })
    | .amo =>
      let bs := lsRead s0 c ps
      let v := (amoNew (r.w % 16) (decide (16 ≤ r.w)) bs.length (leNat bs) (leNat r.data) r.cmp.toNat).1
      let s1 := releaseAtCore (lsStore s0 c ps (toLe v bs.length)) c num c r.rel
      let s2 := if r.acq then acquireAtCore s1 c num c else s1
      .next (s2.modMe (r.result bs))
    | .st | .vst | .vstx => localPasses (releaseAtCore s c num c r.rel) r
    | .ld | .vld | .vldd | .vldt | .vldx | .gstat | .qpush | .xred | .sttk | .fence | .tdone | .tyield =>
      localPasses (if r.acq then acquireAtCore s c num c else s) r

/-- A further pass of a multi-pass access, in the cycle that has just ended (R153, R154). -/
def execLocalStorePass (slot : Nat) (s : State) : Out :=
  match (s.slot slot).wait with
  | .mem r =>
    if r.chunks.isEmpty then .next s
    else
      let c := coreOf slot
      let co := s.core c
      let busy := if co.bankCycle + 1 = s.cycle then co.bankMask else 0
      let (now, rest, mask) := onePass busy r.chunks
      let s0 := s.modCore c (fun x => { x with bankCycle := s.cycle - 1, bankMask := mask })
      let (s1, r1) := serveChunks s0 c r now
      let s2 := s1.modSlot slot (fun sl => { sl with wait := .mem { r1 with chunks := rest } })
      if rest.isEmpty then
        match r1.op with
        | .qpush | .xred => .next (s2.next1 (.remoteReply (.ctx c (s.slot slot).ctxNum) .done 0))
        | _ => .next (finishBundle (s2.modSlot slot (r1.result r1.bytes)) slot)
      else .next s2
  | _ => .next s

/-! ## Translated accesses -/

inductive TransResult where
  | ok (ts : List Target)
  | miss (va : Nat)
  | fault (code : Nat) (val : Nat)
  deriving DecidableEq, Repr, Inhabited

/-- Translate and check the bytes of an access of a world on a core, lowest address first (R195,
R299). -/
def translateVas (core world : Nat) (lo hi : Nat) (need : Need) : State → List Nat → State × TransResult
  | s, [] => (s, .ok [])
  | s, va :: vas =>
    if 2 ^ 57 ≤ va then (s, .fault 0x11 va)
    else if va < translatedBase then
      if lsOk lo hi va then
        match translateVas core world lo hi need s vas with
        | (t, .ok ts) => (t, .ok (.own va :: ts))
        | r => r
      else (s, .fault 0x11 va)
    else
      match lookup s core world va with
      | (t, none) => (t, .miss va)
      | (t, some l) =>
        if refuses t l world va need then (t, .fault 0x11 va)
        else
          match translateVas core world lo hi need t vas with
          | (u, .ok ts) => (u, .ok (targetOf t l va :: ts))
          | r => r

/-- Translate an access: its bytes are checked in rising order. -/
def translateReq (s : State) (core : Nat) (sl : Slot) (r : MemReq) : State × TransResult :=
  let lo := sl.lsbase.toNat
  let hi := sl.lsbound.toNat
  if r.op = .vldd then
    match translateVas core sl.world lo hi r.need s (rising r.vas) with
    | (t, .ok _) => translateVas core sl.world lo hi r.need t r.vas
    | x => x
  else translateVas core sl.world lo hi r.need s r.vas

/-- Set the access of a parked context. -/
def setReq (s : State) (c num : Nat) (r : MemReq) : State := s.modCtx c num (fun sl => { sl with wait := .mem r })

/-- How many leading targets one request at a home performs at one instant: a relaxed load reads another die's memory by
runs of bytes that follow each other in one line (R262), apart from all else. -/
def homeRun (die : Nat) (fromCopy : Bool) (ts : List Target) : Nat :=
  let copied (pa : Nat) : Bool := fromCopy && homeDie pa != die
  let rec run (pa : Nat) : List Target → Nat
    | .home q :: r => if q = pa ∧ q % 64 ≠ 0 then 1 + run (pa + 1) r else 0
    | _ => 0
  let rec atOnce : List Target → Nat
    | .own _ :: r => 1 + atOnce r
    | .home pa :: r => if copied pa then 0 else 1 + atOnce r
    | _ => 0
  match ts with
  | .home pa :: r => if copied pa then 1 + run (pa + 1) r else atOnce ts
  | _ => atOnce ts

/-- How many further targets continue a peer target within its line, or an aperture target, byte by byte. -/
def contigRun : Target → List Target → Nat
  | .peer m a, .peer m' a' :: r => if m = m' ∧ a' = a + 1 ∧ a' % 64 ≠ 0 then 1 + contigRun (.peer m' a') r else 0
  | .aper m c o, .aper m' c' o' :: r => if m = m' ∧ c = c' ∧ o' = o + 1 then 1 + contigRun (.aper m' c' o') r else 0
  | _, _ => 0

/-- The active message that serves part of an access at a core (R160). -/
def svcOpOf (op : MemOp) (f : Nat) : SvcOp :=
  match op with
  | .st | .vst | .vstx | .sttk => .store
  | .stf => .fill
  | .lds => .sync
  | .ldp => .peek
  | .sfe => .setfe
  | .amo | .tdone => .atomic f
  | .ld | .vld | .vldd | .vldt | .vldx | .gstat | .qpush | .xred | .fence | .tyield => .load

/-- The packet type of an access (R377), and the marks by which the full/empty forms are told apart in the
f field. -/
def packetKind (op : MemOp) (f : Nat) : Nat × Nat :=
  match op with
  | .st | .vst | .vstx | .sttk => (0x02, 0)
  | .stf => (0x02, 1)
  | .sfe => (0x02, 2)
  | .lds => (0x01, 1)
  | .ldp => (0x01, 2)
  | .amo | .tdone => (0x03, f)
  | .ld | .vld | .vldd | .vldt | .vldx | .gstat | .qpush | .xred | .fence | .tyield => (0x01, 0)

/-- Which arrivals keep the order of one sender at one core (R161). -/
def sameSender (core sender : Nat) (e : Event) : Bool :=
  match e with
  | .serviceQueueArrival c m => c == core && m.sender == sender
  | _ => false

/-- Send an active message to a core of this module. -/
def sendActive (s : State) (core : Nat) (m : ActiveMsg) : State :=
  s.laterAfter Config.latMesh (sameSender core m.sender) (.serviceQueueArrival core m)

/-- The order field of a packet. -/
def orderCode (acq rel : Bool) : Nat := (if acq then 1 else 0) + (if rel then 2 else 0)

/-- The signature that a release carries to a core (R270). -/
def carriedSig (sl : Slot) (r : MemReq) : Sig := if r.rel || sl.fenceRel then sl.acc else 0

/-- The status code of an engine request, or of the record access of an XRED, for the cause of a fault (R237, R253, R299,
R421); no path gives 0x08 (R380). -/
def unitCode (cause : Nat) : Nat :=
  if cause = 0x10 then 0x07
  else if cause = 0x08 then 0x05
  else if cause = 0x11 ∨ cause = 0x17 then 0x08
  else if cause = 0x12 then 0x09
  else if cause = 0x15 then 0x0A
  else 0x0B

/-- A fault of a parked access: taken by its context, or, for the record of an XRED, the code of its token
(R421). -/
def faultAccess (s : State) (c num : Nat) (r : MemReq) (code : Nat) (val : Word) : State :=
  if r.op = .xred then
    (finishCtx s c num (·.startToken (regOf r.rd))).next1
      (.completionWrite c num r.rd (BitVec.ofNat 64 (unitCode code)) 0)
  else faultCtx s c num code val

/-- Draw a tag for the part of an access that leaves its die, or wait for one. -/
def withTag (s : State) (c num : Nat) (r : MemReq) (module : Nat) (k : Nat → Nat → MemReq → State → State) : State :=
  match drawTag s (dieOfCore c) (.ctx c num) module with
  | some (idx, gen, s1) =>
    let r1 := { r with tag := some (idx, gen) }
    k idx gen r1 (setReq s1 c num r1)
  | none =>
    (setReq s c num { r with asked := 0 }).modDie (dieOfCore c) (fun d => { d with tagQueue := d.tagQueue ++ [.ctx c num] })

/-- The endpoint of a context's slot; slot 0 of its core while it is swapped. -/
def ctxEndpoint (s : State) (c num : Nat) : Nat :=
  s.moduleNo * 4194304 + (match ctxSlot s c num with | some k => k | none => c * 8)

/-- The packet that asks another module for part of an access (R376); the accumulator that a release publishes travels
in flit 2, and the key of an atomic in local-time mode behind its operands in flit 1 (R409). -/
def accessPacket (s : State) (c num : Nat) (r : MemReq) (world dst idx gen addr n swz : Nat) : Packet :=
  let (typ, f) := packetKind r.op (r.w % 32)
  let rel := r.rel || ((ctxOf s c num).getD Slot.reset).fenceRel
  let sig := carriedSig ((ctxOf s c num).getD Slot.reset) r
  let key := match r.key with
    | some (t, e, q) =>
      let ops := (r.data.drop r.pos).take n ++ toLe r.cmp.toNat 8
      List.replicate (24 - ops.length) 0 ++ toLe 1 8 ++ toLe t 8 ++ toLe e 8 ++ toLe q 8
    | none => []
  mkPacket s typ 0 world (ctxEndpoint s c num) dst idx gen (accessOp addr (sizeCode n) f swz (orderCode r.acq rel) r.scope) 0
    (if rel then flitOf ((r.data.drop r.pos).take n ++ toLe r.cmp.toNat 8 ++ key) ++ toWords (toLe sig.toNat 64) 8
      else if typ = 0x01 then []
      else flitOf ((r.data.drop r.pos).take n ++ toLe r.cmp.toNat 8 ++ key))

/-- An atomic of a core in local-time mode has been applied, or has failed: its stamp no longer bounds the
core (R409). -/
def dropStamp (s : State) (c : Nat) (r : MemReq) : State :=
  match r.key with
  | some (t, _, _) => s.modCore c (fun co => { co with unapplied := co.unapplied.erase t })
  | none => s

/-- Record the sample of a load that has completed (R309): served at one instant, so that it spends no cycle at the
serving level; the reply of another module or of a core names no such instant, and all its cycles are outbound
(mark DEDUCED, log entry 37). -/
def sampleRecord (s : State) (c num : Nat) (r : MemReq) : State :=
  if r.sampled then
    let sat (n : Nat) : Nat := Nat.min n 65535
    let slotNo := ((ctxSlot s c num).getD 0) % 8
    let pc := ((ctxOf s c num).map (·.pc)).getD 0
    traceKeep s c { slot := slotNo, head := 2 * 2 ^ 62 + slotNo * 2 ^ 59 + r.level * 2 ^ 56, rest := [pc, BitVec.ofNat 64 r.ea,
      BitVec.ofNat 64 (sat (r.translated - r.issued) + sat (r.served - r.translated) * 2 ^ 16 + sat (s.cycle - r.served) * 2 ^ 48)] }
  else s

/-- The access is complete: its result is written and its bundle commits. A QPUSH, an XRED and a TDONE
go on from here. -/
def finishAccess (s : State) (c num : Nat) (r : MemReq) : State :=
  match r.op with
  | .qpush | .xred | .sttk | .tdone => (setReq s c num r).next1 (.remoteReply (.ctx c num) .done 0)
  | _ => finishCtx (sampleRecord s c num r) c num (r.result r.bytes)

/-- A store or atomic of a context to another module is on its way (R261). -/
def MemReq.sentStore (s : State) (die idx : Nat) (r : MemReq) (m pa n : Nat) : State :=
  match r.need with
  | .store | .atomic | .fullEmptyStore => peerStoreSent s die idx m pa n
  | .load | .fullEmptyLoad => s

/-- Send on the next part of a translated access, or complete it. An STTK or STDEP is sent once its target is
known. -/
def advanceAccess (s : State) (c num : Nat) (r : MemReq) : State :=
  let die := dieOfCore c
  let sl := (ctxOf s c num).getD Slot.reset
  let ts := if r.op = .sttk then [] else r.segs.drop r.pos
  match ts with
  | [] => finishAccess s c num r
  | .own _ :: _ | .home _ :: _ =>
    let n := homeRun die r.fromCopy ts
    let r1 := { r with asked := n }
    let away := (ts.take n).filterMap (fun t => match t with | .home pa => if homeDie pa = die then none else some (homeDie pa) | _ => none)
    match away with
    | [] => (setReq s c num r1).later Config.latReply (.remoteReply (.ctx c num) .home 0)
    | d :: _ =>
      withTag s c num r1 s.moduleNo (fun idx gen _ s1 =>
        if crossesDown s die d then s1 else s1.later Config.latReply (.remoteReply (.tag die idx gen) .home 0))
  | .peer m pa :: rest =>
    let run := 1 + contigRun (.peer m pa) rest
    if r.fromCopy then
      (setReq s c num { r with asked := Nat.min run (64 - pa % 64) }).later Config.latReply (.remoteReply (.ctx c num) .home 0)
    else
      let n := packetSize run
      let dst := m * 4194304 + homeDie pa * 262144
      if hasPath s die m then
        withTag s c num { r with asked := n } m (fun idx gen r1 s1 =>
          let s2 := r1.sentStore s1 die idx m pa n
          (sendPacket s2 die (accessPacket s2 c num r1 sl.world dst idx gen pa n 0)).getD s2)
      else faultAccess s c num r 0x17 (BitVec.ofNat 64 dst)
  | .aper m core off :: rest =>
    let run := 1 + contigRun (.aper m core off) rest
    let n := if m = s.moduleNo then Nat.min 16 run else packetSize run
    let r1 := { r with asked := n }
    let msg (who : ReplyTo) : ActiveMsg :=
      { op := svcOpOf r.op (r.w % 32), world := sl.world, off := off, size := n, data := (r.data.drop r.pos).take n,
        cmp := r.cmp, sig := carriedSig sl r, acq := r.acq, sender := ctxEndpoint s c num, from_ := who }
    let dst := m * 4194304 + core * 8 + 6
    if m = s.moduleNo then
      if dieOfCore core = die then sendActive (setReq s c num r1) core (msg (.ctx c num))
      else
        withTag s c num r1 m (fun idx gen _ s1 =>
          if crossesDown s die (dieOfCore core) then s1 else sendActive s1 core (msg (.tag die idx gen)))
    else if hasPath s die m then
      withTag s c num r1 m (fun idx gen r2 s1 =>
        (sendPacket s1 die (accessPacket s1 c num r2 sl.world dst idx gen (off % 65536) n (off / 65536))).getD s1)
    else faultAccess s c num r 0x17 (BitVec.ofNat 64 dst)

/-- Count a load to translated memory for sampling (R309). -/
def countSample (s : State) (c : Nat) (r : MemReq) : State × Bool :=
  let samp := bits (s.core c).trace.toNat 7 4
  let counts := match r.op with
    | .ld | .vld | .vldd => true
    | .lds | .amo | .ldp => r.acq
    | _ => false
  if samp ≠ 0 ∧ counts = true then
    let n := (s.core c).samples + 1
    (s.modCore c (fun x => { x with samples := n }), n % 2 ^ (samp + 5) == 0)
  else (s, false)

/-- The key of an atomic issued on a core in local-time mode (R409). -/
def atomicKey (s : State) (c : Nat) (r : MemReq) : State × Option (Nat × Nat × Nat) :=
  if r.op = .amo ∧ (s.core c).ltWorld.isSome = true then
    let co := s.core c
    (s.modCore c (fun x => { x with atomSeq := x.atomSeq + 1, unapplied := x.unapplied ++ [x.clock] }),
      some (co.clock, s.moduleNo * 4194304 + c * 8, co.atomSeq))
  else (s, none)

/-- The endpoint that a target names in a module that no path leads to (R4, R380). -/
def noPathTo (s : State) (die : Nat) (t : Target) : Option Nat :=
  match t with
  | .peer m pa => if hasPath s die m then none else some (m * 4194304 + homeDie pa * 262144)
  | .aper m core _ => if m = s.moduleNo ∨ hasPath s die m = true then none else some (m * 4194304 + core * 8 + 6)
  | _ => none

/-- A vector store goes to other modules and cores first and to homes of this module last, so that one whose other part is
refused has written nothing (R197). -/
def MemReq.farFirst (r : MemReq) : MemReq :=
  let far (t : Target) : Bool := match t with | .own _ | .home _ => false | .peer _ _ | .aper _ _ _ => true
  if r.op = .vst ∧ r.segs.any far = true then
    let all := r.vas.zip (r.data.zip r.segs)
    let ord := all.filter (fun x => far x.2.2) ++ all.filter (fun x => !far x.2.2)
    { r with vas := ord.map (·.1), data := ord.map (·.2.1), segs := ord.map (·.2.2) }
  else r

/-- The first line of a store's home bytes that fails its integrity check, found before anything is sent (R197). -/
def storeFails (s : State) (r : MemReq) : Option Nat :=
  if r.op = .vst then
    match fetchLines s ((r.segs.filterMap (fun t => match t with | .home pa => some (pa / 64) | _ => none)).eraseDups) with
    | .ok _ => none
    | .error l => some l
  else none

/-- Go on with an access once it is translated: where no path leads to a module that it names, or a line of a store
fails, it is refused before any part of it is sent (R4, R197). -/
def accessTranslated (s : State) (c num : Nat) (r : MemReq) (ts : List Target) : State :=
  let toHome := ts.any (fun t => match t with | .home _ => true | .peer _ _ => true | _ => false)
  let r1 := { r with segs := ts, translated := s.cycle, served := s.cycle }
  match (if r.op = .sttk then none else ts.findSome? (noPathTo s (dieOfCore c))) with
  | some dst => faultAccess s c num r1 0x17 (BitVec.ofNat 64 dst)
  | none =>
    match (if ts.any (fun t => match t with | .peer _ _ | .aper _ _ _ => true | _ => false) then storeFails s r1 else none) with
    | some l => faultAccess (integrityRecord s l) c num r1 0x12 (BitVec.ofNat 64 (l * 64))
    | none =>
      let (s1, key) := if toHome then atomicKey s c r else (s, none)
      advanceAccess s1 c num { r1.farFirst with key := key }

/-- Begin an access at issue: faults found now trap at row 7, and a miss waits in the cluster (R197,
R299, R301). -/
def beginAccess (s : State) (r : MemReq) : Out :=
  let k := s.cur
  let c := coreOf k
  let sl := s.me
  if r.vas.all (fun a => a < translatedBase) then localAccess s r
  else
    let (s0, smp) := countSample s c r
    let r0 := { r with issued := s.cycle, sampled := smp }
    match translateReq s0 c sl r with
    | (_, .fault code val) => trapOut s 7 code (BitVec.ofNat 64 val)
    | (s1, .miss va) =>
      .next (queueMiss (park s1 k .waitMem (.mem r0)) (clusterOf k) sl.world va (.ctx c sl.ctxNum))
    | (s1, .ok ts) => .next (accessTranslated (park s1 k .waitMem (.mem r0)) c sl.ctxNum r0 ts)

/-- Translate the access of a waiting context again, after a walk (R302). -/
def retryAccess (s : State) (c num : Nat) (r : MemReq) : State :=
  match ctxOf s c num with
  | none => s
  | some sl =>
    match translateReq s c sl r with
    | (_, .fault code val) => faultAccess s c num r code (BitVec.ofNat 64 val)
    | (s1, .miss va) => queueMiss s1 (clusterOfCore c) sl.world va (.ctx c num)
    | (s1, .ok ts) => accessTranslated s1 c num r ts

/-! ## Performing an access at its home (R260 to R264, R268 to R271) -/

/-- Hold a parked request at the target: the requester's timeout restarts now and every packet lifetime
(R382). -/
def holdRequest (s : State) (tdie : Nat) (who : ReplyTo) : State :=
  let put (module die idx gen : Nat) : State :=
    let n := s.nextId
    ((s.freshId.modDie tdie (fun d => { d with parked := d.parked ++ [{ n := n, module := module, die := die, idx := idx, gen := gen }] })).at_
      (s.cycle + 1) (.holdReplyResend tdie n))
  match who with
  | .tag die idx gen => put s.moduleNo die idx gen
  | .remote module die idx gen _ => put module die idx gen
  | _ => s

/-- The parked request has been served. -/
def unholdRequest (s : State) (tdie : Nat) (who : ReplyTo) : State :=
  match who with
  | .tag die idx gen =>
    s.modDie tdie (fun d => { d with parked := d.parked.filter (fun p => !(p.module == s.moduleNo && p.die == die && p.idx == idx && p.gen == gen)) })
  | .remote module die idx gen _ =>
    s.modDie tdie (fun d => { d with parked := d.parked.filter (fun p => !(p.module == module && p.die == die && p.idx == idx && p.gen == gen)) })
  | _ => s

/-- The physical lines among targets. -/
def homeLines (ts : List Target) : List Nat :=
  (ts.filterMap (fun t => match t with | .home pa => some (pa / 64) | _ => none)).eraseDups

def homeAddrs (ts : List Target) : List Nat := ts.filterMap (fun t => match t with | .home pa => some pa | _ => none)

/-- One byte of a target of this core or a home. -/
def readTarget (s : State) (c : Nat) (t : Target) : Byte :=
  match t with
  | .own off => cellGet (s.core c).ls ((lsPhys off).getD 0)
  | .home pa => cellGet s.mem pa
  | _ => 0

def writeTarget (s : State) (c : Nat) (t : Target) (b : Byte) : State :=
  match t with
  | .own off => lsStore s c [(lsPhys off).getD 0] [b]
  | .home pa => updateCopies (s.pokeMem pa [b]) (dieOfCore c) s.moduleNo pa [b]
  | _ => s

def writeTargets (s : State) (c : Nat) : List (Target × Byte) → State
  | [] => s
  | (t, b) :: r => writeTargets (writeTarget s c t b) c r

/-- The signature of the sectors of home targets. -/
def targetsSig (module : Nat) (ts : List Target) : Sig :=
  (homeAddrs ts).foldl (fun a pa => a ||| sectorSig (sectorOf module pa)) 0

/-- A store of a context has been performed at homes: accumulator, publication at the slice of each line, watches
(R268, R270, R322). -/
def storePerformed (s : State) (c num : Nat) (rel : Bool) (ts : List Target) : State :=
  let s1 := hitWatches (s.modCtx c num (·.addAcc (targetsSig s.moduleNo ts))) (homeLines ts)
  match ctxOf s1 c num, homeLines ts with
  | some sl, l :: ls =>
    if rel ∨ sl.fenceRel then
      let s2 := (l :: ls).foldl (fun t x => publishHome t (x * 64) sl.world sl.acc) s1
      if rel then s2.modCtx c num (fun x => { x with fenceRel := false }) else s2
    else s1
  | _, _ => s1

/-- An acquire of a context at the homes of its targets: the signature of each slice (R271). -/
def acquirePerformed (s : State) (c num : Nat) (ts : List Target) : State :=
  match ctxOf s c num with
  | some sl => (homeLines ts).foldl (fun t l => acquireCtx t c num (homeSig s (l * 64) sl.world)) s
  | none => s

/-- The level that serves a home access (R309). -/
def homeLevel (s : State) (die : Nat) (ts : List Target) : Nat :=
  match homeAddrs ts with
  | pa :: _ =>
    let sealed := (NMap.find s.hbm (pa / 64)).isSome
    if homeDie pa = die then (if sealed then 1 else 0) else if sealed then 4 else 3
  | [] => 0

/-- Put bytes read into the request, from its position on. -/
def MemReq.take (r : MemReq) (bs : List Byte) : MemReq :=
  { r with
    got := (List.range bs.length).foldl (fun g i => NMap.set g (r.pos + i) ((bs[i]?).getD 0)) r.got
    pos := r.pos + r.asked, asked := 0, tag := none }

/-- The physical bytes of the own local store among targets. -/
def ownBytes (ts : List Target) : List Nat := ts.filterMap (fun t => match t with | .own off => lsPhys off | _ => none)

/-- Bytes read at homes of this module, by module and address. -/
def homeValues (s : State) (ts : List Target) (bs : List Byte) : List (Nat × Nat × Byte) :=
  (ts.zip bs).filterMap (fun x => match x.1 with | .home pa => some (s.moduleNo, pa, x.2) | _ => none)

/-- Perform the part of an access that stands at homes of this module, at this instant: the next request, or the address
of the line or word that fails. -/
def performHome (s : State) (c num : Nat) (r : MemReq) : Except (State × Nat) (State × MemReq) :=
  let die := dieOfCore c
  let ts := (r.segs.drop r.pos).take r.asked
  let level := homeLevel s die ts
  match lsPoison s c (ownBytes ts), fetchLines s (homeLines ts) with
  | some a, _ => .error (s, a)
  | none, .error l => .error (integrityRecord s l, l * 64)
  | none, .ok t0 =>
    let t := lsCorrect t0 c (ownBytes ts)
    match r.op with
    | .st | .vst =>
      let t1 := writeTargets t c (ts.zip (r.data.drop r.pos))
      .ok (storePerformed t1 c num r.rel ts, { r with pos := r.pos + r.asked, asked := 0, tag := none })
    | .amo | .tdone =>
      let old := ts.map (readTarget t c)
      let v := (amoNew (r.w % 16) (decide (16 ≤ r.w)) old.length (leNat old) (leNat r.data) r.cmp.toNat).1
      let t1 := writeTargets t c (ts.zip (toLe v old.length))
      let t2 := storePerformed t1 c num r.rel ts
      let t3 := if r.acq then acquirePerformed t2 c num ts else t2
      .ok (t3, { r.take old with level := level, served := s.cycle })
    | .ld | .vld | .vldd | .gstat | .lds | .stf | .ldp | .sfe | .vldt | .vldx | .vstx | .qpush | .xred | .sttk | .fence
    | .tyield =>
      let bs := ts.map (readTarget t c)
      let t1 := if r.acq then acquirePerformed t c num ts else t
      let t2 := if r.acq then refreshCopies t1 die (homeValues s ts bs) else t1
      .ok (t2, { r.take bs with level := level, served := s.cycle })

/-- A fault of an access found after issue. -/
def accessFault (s : State) (c num : Nat) (r : MemReq) (code : Nat) (val : Nat) : State :=
  let s1 := match r.tag with | some (idx, _) => freeTag s (dieOfCore c) idx | none => s
  faultAccess (dropStamp s1 c r) c num r code (BitVec.ofNat 64 val)

/-- The read of a copy-hart request that waits for a line takes its bytes of it (R262). -/
def fillCopyHart (line : Nat) (data : List Byte) (s : State) (cl id : Nat) : State :=
  match ((s.cluster cl).kicks.find? (·.id == id)).bind (·.acc) with
  | some a =>
    let take (m pa : Nat) : State :=
      if a.sent ∧ lineKey m pa = line then s.next1 (.remoteReply (.copy cl id) (.data ((data.drop (pa % 64)).take a.n)) 0) else s
    match a.tgt with
    | .home pa => take s.moduleNo pa
    | .peer m pa => take m pa
    | _ => s
  | none => s

/-- The bytes of a line that a context or a copy-hart request waits for have arrived (R261): its access goes on. -/
def fillWaiter (line : Nat) (data : List Byte) (s : State) (w : ReplyTo) : State :=
  match w with
  | .ctx c num =>
    match (ctxOf s c num).map Slot.wait with
    | some (.mem r) =>
      match r.segs.drop r.pos with
      | .home pa :: _ =>
        if r.asked ≠ 0 ∧ lineKey s.moduleNo pa = line then advanceAccess s c num (r.take ((data.drop (pa % 64)).take r.asked)) else s
      | .peer m pa :: _ =>
        if r.asked ≠ 0 ∧ lineKey m pa = line then
          advanceAccess s c num { r.take ((data.drop (pa % 64)).take r.asked) with served := s.cycle }
        else s
      | _ => s
    | _ => s
  | .copy cl id => fillCopyHart line data s cl id
  | _ => s

/-- A fill ends with its data: it is installed if it may be and the cache keeps it, in a cache that holds 24 MiB (R1), and
the reads that wait for it go on (R261). -/
def fillArrived (s : State) (die : Nat) (f : RdcFill) (data : List Byte) : State :=
  let s1 := s.modDie die (fun d => { d with fills := d.fills.erase f })
  let keep := f.install && Config.rdcKeeps s.free && (findCopy s die f.world f.line).isNone
  let s2 :=
    if keep then
      (s1.modDie die (fun d => { d with
        rdc := lastN rdcLines (d.rdc ++ [{ line := f.line, world := f.world, data := data, filled := s.cycle }]) })).tick.at_
        (s.cycle + 32768) (.rdcCopyExpiry die f.line)
    else s1.tick
  f.waiters.foldl (fillWaiter f.line data) s2

/-- The value that sr.tval takes of a fault of the part of an access that is under way, found at a byte of it: the
effective address of one that had no answer or whose polder is gone (R198), the line of another module's memory or the
word of a core's local store that failed (R111, R168, R348), or the first failing byte (R195). -/
def faultVal (r : MemReq) (code byte : Nat) : Nat :=
  let va := ((r.vas.drop (r.pos + byte)).head?).getD r.ea
  if code = 0x15 ∨ code = 0x16 then r.ea
  else if code = 0x12 then
    match r.segs.drop (r.pos + byte) with
    | .peer _ pa :: _ => pa / 64 * 64
    | _ => va / 8 * 8
  else va

/-- A fill that fails: every read that waits for it takes the fault. -/
def fillFailed (s : State) (die : Nat) (f : RdcFill) (code : Nat) : State :=
  f.waiters.foldl (fun t w =>
    match w with
    | .ctx c num =>
      match (ctxOf t c num).map Slot.wait with
      | some (.mem r) => if r.asked ≠ 0 then accessFault t c num { r with tag := none } code (faultVal r code 0) else t
      | _ => t
    | .copy cl id => t.next1 (.remoteReply (.copy cl id) (.fault code 0) 0)
    | _ => t) (s.modDie die (fun d => { d with fills := d.fills.erase f }))

/-- A read of another die's memory for a requester: served by the copy, by a fill in flight, or by a fill of its own
(R261, R262). Answers the bytes, or the state in which the requester waits for the fill. -/
def serveCopy (s : State) (die world : Nat) (who : ReplyTo) (pa n : Nat) : Except Nat (State × Option (List Byte)) :=
  let line := lineKey s.moduleNo pa
  match useCopy s die world line with
  | (s1, some cp) => .ok (s1, some ((cp.data.drop (pa % 64)).take n))
  | (s1, none) =>
    match openFill s1 die world line with
    | some f => .ok (joinFill s1 die f.id who, none)
    | none =>
      match homeRead s1 (pa / 64 * 64) 64 with
      | .error l => .error l
      | .ok (t, bs) => .ok (startFill t die world line bs [who], none)

/-- Hold a keyed atomic at its home (R409). -/
def holdKeyed (s : State) (c num : Nat) (r : MemReq) (pa : Nat) (k : Nat × Nat × Nat) : State :=
  let launch := ((ctxOf s c num).map (fun sl => sl.launch.toNat % 1024)).getD 0
  let a : KeyedAtomic :=
    { t := k.1, s := k.2.1, q := k.2.2, launch := launch, core := c, ctx := num, pa := pa, req := r, away := none }
  let s1 := s.modDie (homeDie pa) (fun d => { d with keyed := d.keyed ++ [a] })
  let s2 := match r.tag with
    | some (idx, gen) => holdRequest s1 (homeDie pa) (.tag (dieOfCore c) idx gen)
    | none => s1
  s2.next1 (.keyedAtomicApply (homeDie pa))

/-- Ask another module for the line of a fill, once a tag is free (R382). -/
def sendFill (s : State) (die : Nat) (f : RdcFill) : State :=
  let m := f.line / 2 ^ 42
  let pa := f.line % 2 ^ 42 * 64
  let who := ReplyTo.fill die f.id
  match drawTag s die who m with
  | some (idx, gen, s1) =>
    (sendPacket s1 die (mkPacket s1 0x01 0 f.world (dieEndpoint s1 die) (m * 4194304 + homeDie pa * 262144) idx gen
      (accessOp pa (sizeCode 64) 0 0 0 0) 0 [])).getD s1
  | none => s.modDie die (fun d => { d with tagQueue := d.tagQueue ++ [who] })

/-- Start a fill of a line of another module: it may be installed unless a store of the die to the line is on its way
(R261). -/
def startPeerFill (s : State) (die world line : Nat) (who : List ReplyTo) : State :=
  let f : RdcFill :=
    { line := line, world := world, data := [], install := !(s.die die).storing.any (·.2 == line), waiters := who, id := s.nextId }
  sendFill (s.freshId.modDie die (fun d => { d with fills := d.fills ++ [f] })) die f

/-- The reply to a fill from another module; `done` says that a tag is free. -/
def fillReply (s : State) (die id : Nat) (p : Reply) : State :=
  match (s.die die).fills.find? (·.id == id) with
  | none => s
  | some f =>
    match p with
    | .data bs => fillArrived s die f bs
    | .done => sendFill s die f
    | .fault code _ => fillFailed s die f code
    | .gone => fillFailed s die f 0x16
    | .home | .status _ => s

/-- A read of another module's memory for a requester: served by the copy, by a fill in flight, or by a fill that a
packet asks for (R261, R262, R382). -/
def serveAway (s : State) (die world : Nat) (who : ReplyTo) (m pa n : Nat) : State × Option (List Byte) :=
  let line := lineKey m pa
  match useCopy s die world line with
  | (s1, some cp) => (s1, some ((cp.data.drop (pa % 64)).take n))
  | (s1, none) =>
    match openFill s1 die world line with
    | some f => (joinFill s1 die f.id who, none)
    | none => (startPeerFill s1 die world line [who], none)

/-- A relaxed load from another module. -/
def servePeerCopy (s : State) (c num : Nat) (r : MemReq) (m pa : Nat) : State :=
  let world := ((ctxOf s c num).getD Slot.reset).world
  match serveAway (setReq s c num { r with level := 5 }) (dieOfCore c) world (.ctx c num) m pa r.asked with
  | (s1, some bs) => advanceAccess s1 c num { r.take bs with level := 2, served := s.cycle }
  | (s1, none) => s1

/-- The instant at which a home serves part of an access: go on, or fault. -/
def accessAtHome (s : State) (c num : Nat) (r : MemReq) : State :=
  let die := dieOfCore c
  let free (t : State) : State := match r.tag with | some (idx, _) => freeTag t die idx | none => t
  match r.segs.drop r.pos, r.key with
  | .peer m pa :: _, _ => servePeerCopy s c num r m pa
  | .home pa :: _, some k => holdKeyed s c num r pa k
  | .home pa :: _, none =>
    if r.fromCopy ∧ homeDie pa ≠ die then
      match serveCopy s die ((ctxOf s c num).getD Slot.reset).world (.ctx c num) pa r.asked with
      | .error l => accessFault (integrityRecord s l) c num r 0x12 (l * 64)
      | .ok (t, some bs) => advanceAccess (free t) c num { r.take bs with level := 2, served := s.cycle }
      | .ok (t, none) => setReq (free t) c num { r with tag := none, level := homeLevel s die [.home pa], served := s.cycle }
    else
      match performHome s c num r with
      | .error (t, a) => accessFault t c num r 0x12 a
      | .ok (t, r1) => advanceAccess (free t) c num r1
  | _, _ =>
    match performHome s c num r with
    | .error (t, a) => accessFault t c num r 0x12 a
    | .ok (t, r1) => advanceAccess (free t) c num r1

/-- The level of an access that another module or a core has served. -/
def servedLevel (r : MemReq) : Nat :=
  match r.segs.drop r.pos with
  | .aper _ _ _ :: _ => 6
  | _ => 5

/-- The module and physical address of the part of a store, atomic or acquire load that another module serves. -/
def peerPart (r : MemReq) : Option (Nat × Nat) :=
  match r.segs.drop r.pos with
  | .peer m pa :: _ => some (m, pa)
  | _ => none

/-- A store or atomic of a context has been performed at another module (R261, R268): its sectors go into the
accumulator. -/
def peerPerformed (s : State) (c num : Nat) (r : MemReq) : State :=
  match peerPart r with
  | some (m, pa) =>
    match r.need with
    | .store | .atomic | .fullEmptyStore =>
      s.modCtx c num (·.addAcc (bytesSig m pa r.asked))
    | .load | .fullEmptyLoad => s
  | none => s

/-- The bytes that an acquire load has read at another module. -/
def peerValues (r : MemReq) (bs : List Byte) : List (Nat × Nat × Byte) :=
  match peerPart r, r.need with
  | some (m, pa), .load => bs.mapIdx (fun i b => (m, pa + i, b))
  | _, _ => []

/-- A reply to a waiting access of a context. -/
def accessReply (s : State) (c num : Nat) (r : MemReq) (p : Reply) (sig : Sig) : State :=
  match p with
  | .home => if r.asked = 0 then s else accessAtHome s c num r
  | .data bs =>
    if r.asked = 0 then s
    else
      let s0 := peerPerformed s c num r
      let s1 := if r.acq then acquireCtx s0 c num sig else s0
      let s2 := if r.rel then s1.modCtx c num (fun x => { x with fenceRel := false }) else s1
      let s3 := refreshCopies s2 (dieOfCore c) (peerValues r bs)
      advanceAccess (dropStamp s3 c r) c num { r.take bs with level := servedLevel r, served := s.cycle, key := none }
  | .done =>
    if r.asked = 0 then
      if r.segs.isEmpty then retryAccess s c num r else advanceAccess s c num r
    else
      let s0 := peerPerformed s c num r
      let s1 := if r.rel then s0.modCtx c num (fun x => { x with fenceRel := false }) else s0
      advanceAccess s1 c num { r with pos := r.pos + r.asked, asked := 0, tag := none }
  | .fault code byte => accessFault s c num { r with tag := none } code (faultVal r code byte)
  | .gone => accessFault s c num { r with tag := none } 0x16 (faultVal r 0x16 0)
  | .status _ => s

/-- The copy of a line arrives at its die (R261). -/
def execRdcFillArrival (die line : Nat) (s : State) : Out :=
  match (s.die die).fills.find? (fun f => f.line == line && !f.data.isEmpty) with
  | none => .next s
  | some f => .next (fillArrived s die f f.data)

/-- A copy reaches the end of its lifetime (R261). -/
def execRdcCopyExpiry (die line : Nat) (s : State) : Out :=
  .next (s.modDie die (fun d => { d with rdc := d.rdc.filter (fun l => !(l.line == line && decide (l.filled + 32768 ≤ s.cycle))) }))

end Sys2Proof.Machine
end

