-- ==== Sys2Proof/Machine/Scalar.lean ====
section
/-! DEFINITION. Scalar, immediate, fat-pointer and branch instructions (03 R79 to R90). -/

namespace Sys2Proof.Machine

/-! ## Integer arithmetic (R79, R80) -/

/-- Leading zero bits. -/
def clzWord (a : Word) : Nat := if a = 0 then 64 else 63 - Nat.log2 a.toNat

/-- Trailing zero bits among the low `n`. -/
def ctzBits (a : Nat) : Nat → Nat
  | 0 => 0
  | n + 1 => if a % 2 = 1 then 0 else 1 + ctzBits (a / 2) n

/-- 1 bits among the low `n`. -/
def popBits (a : Nat) : Nat → Nat
  | 0 => 0
  | n + 1 => a % 2 + popBits (a / 2) n

/-- The high half of a signed product. -/
def mulhWord (a b : Word) : Word := BitVec.ofInt 64 (a.toInt * b.toInt / 2 ^ 64)

def mulhuWord (a b : Word) : Word := BitVec.ofNat 64 (a.toNat * b.toNat / 2 ^ 64)

/-- DIV: toward zero; by 0, all ones; −2^63 by −1 wraps (R80). -/
def divWord (a b : Word) : Word := if b = 0 then BitVec.allOnes 64 else BitVec.ofInt 64 (a.toInt.tdiv b.toInt)

def divuWord (a b : Word) : Word := if b = 0 then BitVec.allOnes 64 else BitVec.ofNat 64 (a.toNat / b.toNat)

/-- REM: sign of a; by 0, a itself (R80). -/
def remWord (a b : Word) : Word := if b = 0 then a else BitVec.ofInt 64 (a.toInt.tmod b.toInt)

def remuWord (a b : Word) : Word := if b = 0 then a else BitVec.ofNat 64 (a.toNat % b.toNat)

/-- A fixed-latency result from two registers. -/
def alu (f : Word → Word → Word) (d a b : Reg) (s : State) : Out := writeX s d (f (s.rx a) (s.rx b))

/-- A fixed-latency result from one register. -/
def alu1 (f : Word → Word) (d a : Reg) (s : State) : Out := writeX s d (f (s.rx a))

/-- A divide: the slot is in WAIT_LONG, and the result is written 36 cycles after issue (R80); the slot is
eligible from the cycle after that write (R52, R53). -/
def longDivide (f : Word → Word → Word) (d a b : Reg) (s : State) : Out :=
  guardX s d <|
    let v := f (s.rx a) (s.rx b)
    let s1 := s.modMe (fun sl => { sl with longUntil := Nat.max sl.longUntil (s.cycle + 37) })
    .next ((park s1 s.cur .waitLong (.long (some (d.toNat, v)))).at_ (s.cycle + 37) (.longLatencyResult s.cur))

def execAdd (d a b : Reg) (s : State) : Out := alu (fun a b => a + b) d a b s
def execSub (d a b : Reg) (s : State) : Out := alu (fun a b => a - b) d a b s
def execAnd (d a b : Reg) (s : State) : Out := alu (fun a b => a &&& b) d a b s
def execOr (d a b : Reg) (s : State) : Out := alu (fun a b => a ||| b) d a b s
def execXor (d a b : Reg) (s : State) : Out := alu (fun a b => a ^^^ b) d a b s
def execSll (d a b : Reg) (s : State) : Out := alu (fun a b => a <<< (b.toNat % 64)) d a b s
def execSrl (d a b : Reg) (s : State) : Out := alu (fun a b => a >>> (b.toNat % 64)) d a b s
def execSra (d a b : Reg) (s : State) : Out := alu (fun a b => a.sshiftRight (b.toNat % 64)) d a b s
def execSlt (d a b : Reg) (s : State) : Out := alu (fun a b => ofBool (a.slt b)) d a b s
def execSltu (d a b : Reg) (s : State) : Out := alu (fun a b => ofBool (a.ult b)) d a b s
def execMin (d a b : Reg) (s : State) : Out := alu (fun a b => if a.slt b then a else b) d a b s
def execMax (d a b : Reg) (s : State) : Out := alu (fun a b => if a.slt b then b else a) d a b s
def execMinu (d a b : Reg) (s : State) : Out := alu (fun a b => if a.ult b then a else b) d a b s
def execMaxu (d a b : Reg) (s : State) : Out := alu (fun a b => if a.ult b then b else a) d a b s
def execMul (d a b : Reg) (s : State) : Out := alu (fun a b => a * b) d a b s
def execMulh (d a b : Reg) (s : State) : Out := alu mulhWord d a b s
def execMulhu (d a b : Reg) (s : State) : Out := alu mulhuWord d a b s
def execDiv (d a b : Reg) (s : State) : Out := longDivide divWord d a b s
def execDivu (d a b : Reg) (s : State) : Out := longDivide divuWord d a b s
def execRem (d a b : Reg) (s : State) : Out := longDivide remWord d a b s
def execRemu (d a b : Reg) (s : State) : Out := longDivide remuWord d a b s

def execClz (d a : Reg) (s : State) : Out := alu1 (fun a => BitVec.ofNat 64 (clzWord a)) d a s
def execCtz (d a : Reg) (s : State) : Out := alu1 (fun a => BitVec.ofNat 64 (ctzBits a.toNat 64)) d a s
def execPopc (d a : Reg) (s : State) : Out := alu1 (fun a => BitVec.ofNat 64 (popBits a.toNat 64)) d a s

/-! ## Immediates (R81 to R83) -/

/-- A result from a register and a sign-extended imm15. -/
def aluImm (f : Word → Word → Word) (d a : Reg) (i : BitVec 15) (s : State) : Out :=
  writeX s d (f (s.rx a) (sext i))

/-- A shift by imm15[5:0]. -/
def shiftImm (f : Word → Nat → Word) (d a : Reg) (n : BitVec 6) (s : State) : Out :=
  writeX s d (f (s.rx a) n.toNat)

def execAddi (d a : Reg) (i : BitVec 15) (s : State) : Out := aluImm (fun a b => a + b) d a i s
def execAndi (d a : Reg) (i : BitVec 15) (s : State) : Out := aluImm (fun a b => a &&& b) d a i s
def execOri (d a : Reg) (i : BitVec 15) (s : State) : Out := aluImm (fun a b => a ||| b) d a i s
def execXori (d a : Reg) (i : BitVec 15) (s : State) : Out := aluImm (fun a b => a ^^^ b) d a i s
def execSlti (d a : Reg) (i : BitVec 15) (s : State) : Out := aluImm (fun a b => ofBool (a.slt b)) d a i s
def execSltiu (d a : Reg) (i : BitVec 15) (s : State) : Out := aluImm (fun a b => ofBool (a.ult b)) d a i s
def execSlli (d a : Reg) (n : BitVec 6) (s : State) : Out := shiftImm (fun a k => a <<< k) d a n s
def execSrli (d a : Reg) (n : BitVec 6) (s : State) : Out := shiftImm (fun a k => a >>> k) d a n s
def execSrai (d a : Reg) (n : BitVec 6) (s : State) : Out := shiftImm (fun a k => a.sshiftRight k) d a n s

/-- LUI (R82): imm20 in bits [31:12], bit 31 copied upward. -/
def execLui (d : Reg) (i : BitVec 20) (s : State) : Out := writeX s d (sext (i ++ (0 : BitVec 12)))

def execLimm (d : Reg) (i : BitVec 32) (s : State) : Out := writeX s d (sext i)
def execLimmZx (d : Reg) (i : BitVec 32) (s : State) : Out := writeX s d (zext i)
/-- LIMM.hi (R83) reads X[d] and replaces its high half. -/
def execLimmHi (d : Reg) (i : BitVec 32) (s : State) : Out :=
  writeX s d (i ++ (s.rx d).extractLsb' 0 32)

/-! ## Fat pointers (R84 to R87) -/

/-- Advance a pointer's address by a signed number of bytes; `wrapped` is reported on a carry. -/
def pointerAdd (d : Reg) (p : Word) (by_ : Int) (wrapped : Word) (s : State) : Out :=
  guardX s d <|
    let a : Int := (addr57 p : Int) + by_
    if a < 0 ∨ (2 ^ 57 : Int) ≤ a then trapOut s 5 0x05 wrapped
    else .next (s.modMe (·.putX d (p.extractLsb' 57 7 ++ BitVec.ofInt 57 a)))

def execPadd (d a b : Reg) (h : BitVec 3) (s : State) : Out :=
  pointerAdd d (s.rx a) ((s.rx b).toInt * 2 ^ h.toNat) (s.rx a + s.rx b <<< h.toNat) s

def execPaddi (d a : Reg) (i : BitVec 15) (s : State) : Out :=
  pointerAdd d (s.rx a) i.toInt (s.rx a + sext i) s

/-- The pointer that PSET forms (R85). -/
def psetWord (p q : Word) (k : BitVec 2) : Word :=
  if k = 0 then q.extractLsb' 0 4 ++ p.extractLsb' 0 60
  else if k = 1 then p.extractLsb' 60 4 ++ q.extractLsb' 0 3 ++ p.extractLsb' 0 57
  else p.extractLsb' 57 7 ++ q.extractLsb' 0 57

/-- A reserved format code of a pointer (R85, R87). -/
def reservedFormat (p : Word) : Bool := p.extractLsb' 60 4 == 0xD || p.extractLsb' 60 4 == 0xE

def execPset (d a b : Reg) (k : BitVec 2) (s : State) : Out :=
  guardX s d <|
    let r := psetWord (s.rx a) (s.rx b) k
    if reservedFormat r then trapOut s 5 0x07 r else .next (s.modMe (·.putX d r))

/-- The field that PGET extracts (R86). -/
def pgetWord (p : Word) (k : BitVec 2) : Word :=
  if k = 0 then zext (p.extractLsb' 60 4)
  else if k = 1 then zext (p.extractLsb' 57 3)
  else if k = 2 then zext (p.extractLsb' 0 57)
  else if p.extractLsb' 57 3 = 0 then 0 else BitVec.ofNat 64 (2 ^ ((p.extractLsb' 57 3).toNat + 3))

def execPget (d a : Reg) (k : BitVec 2) (s : State) : Out := writeX s d (pgetWord (s.rx a) k)

/-- The check of PCHK (R87). -/
def pointerIn (p lo hi : Word) : Bool :=
  decide (addr57 lo ≤ addr57 p) && decide (addr57 p < addr57 hi) && !reservedFormat p

def execPchk (d a b c : Reg) (s : State) : Out := writeX s d (ofBool (pointerIn (s.rx a) (s.rx b) (s.rx c)))

def execPchkTrap (d a b c : Reg) (s : State) : Out :=
  guardX s d <|
    if pointerIn (s.rx a) (s.rx b) (s.rx c) then .next (s.modMe (·.putX d (s.rx a)))
    else trapOut s 5 0x06 (s.rx a)

/-! ## Branches and jumps (R88 to R90) -/

/-- The pc is 57 bits wide (R41). -/
def pcAdd (pc : Word) (o : Word) : Word := (pc + o) &&& 0x1FFFFFFFFFFFFFF

/-- Branch to pc + sext(off) × 8 if the condition holds, else go on at pc + 8. -/
def branchIf (c : Bool) (o : BitVec 15) (s : State) : Out :=
  .next (s.modMe (fun sl => { sl with npc := if c then pcAdd sl.pc (sext o * 8) else pcAdd sl.pc 8 }))

def execBeq (a b : Reg) (o : BitVec 15) (s : State) : Out := branchIf (s.rx a == s.rx b) o s
def execBne (a b : Reg) (o : BitVec 15) (s : State) : Out := branchIf (s.rx a != s.rx b) o s
def execBlt (a b : Reg) (o : BitVec 15) (s : State) : Out := branchIf ((s.rx a).slt (s.rx b)) o s
def execBge (a b : Reg) (o : BitVec 15) (s : State) : Out := branchIf (!(s.rx a).slt (s.rx b)) o s
def execBltu (a b : Reg) (o : BitVec 15) (s : State) : Out := branchIf ((s.rx a).ult (s.rx b)) o s
def execBgeu (a b : Reg) (o : BitVec 15) (s : State) : Out := branchIf (!(s.rx a).ult (s.rx b)) o s

/-- JAL (R89). -/
def execJal (d : Reg) (i : BitVec 32) (s : State) : Out :=
  guardX s d (.next (s.modMe (fun sl =>
    { sl.putX d (pcAdd sl.pc 8) with npc := pcAdd sl.pc (sext i * 8) })))

/-- A target of JALR, sr.epc, sr.tvec or a continuation: a multiple of 8 below 2^57. -/
def badTarget (t : Word) : Bool := t.extractLsb' 0 3 != 0 || t.extractLsb' 57 7 != 0

/-- JALR (R90). -/
def execJalr (d a : Reg) (i : BitVec 15) (s : State) : Out :=
  guardX s d <|
    let t := s.rx a + sext i
    if badTarget t then trapOut s 5 0x03 t
    else .next (s.modMe (fun sl => { sl.putX d (pcAdd sl.pc 8) with npc := t }))

end Sys2Proof.Machine
end

