-- ==== Sys2Proof/Machine/Control.lean ====
section
/-! DEFINITION. Streams, system registers, traps, return and stopping (02 R44 to R49; 03 R92 to R105). -/

namespace Sys2Proof.Machine

/-- The A-op bits that an illegal-instruction trap reports (R78). -/
def aBits (i : Instr) : Word := match encodeA i with | some p => zext p.1 | none => 0

/-! ## Streams (R92 to R97) -/

/-- Change stream `n` of the issuing slot. -/
def setStream (n : BitVec 2) (f : Stream → Stream) (sl : Slot) : Slot :=
  { sl with streams := sl.streams.set n.toNat (f (sl.streams[n.toNat]'n.isLt)) n.isLt }

def getStream (sl : Slot) (n : BitVec 2) : Stream := sl.streams[n.toNat]'n.isLt

def splitWord (w : Word) : List (BitVec 16) :=
  [w.extractLsb' 0 16, w.extractLsb' 16 16, w.extractLsb' 32 16, w.extractLsb' 48 16]

/-- A stream descriptor's dwords as a stream at its first element (R92, R93). -/
def streamFrom (t : BitVec 3) (d0 d1 d2 : Word) : Stream :=
  { bound := true, ty := t, base := d0.extractLsb' 0 16, ndim1 := bits d0.toNat 18 16,
    cnt := splitWord d1, str := splitWord d2, idx := [0, 0, 0, 0],
    eod := [false, false, false, false], ahead := [] }

/-- Check 3 of R93. -/
def Stream.wellFormed (st : Stream) : Bool :=
  let size := tySize st.ty.toNat
  decide (st.ndim1 ≤ 3)
    && (List.range 4).all (fun k =>
        if k ≤ st.ndim1 then decide (1 ≤ st.cntOf k) else st.cntOf k == 0 && st.strOf k == 0)
    && st.base.toNat % size == 0
    && (List.range 4).all (fun k => st.strOf k % (size : Int) == 0)

/-- The least or greatest element address, at a corner of the index space (R93). -/
def Stream.corner (st : Stream) (high : Bool) : Int :=
  (List.range 4).foldl (fun a k =>
    let e : Int := ((st.cntOf k : Int) - 1) * st.strOf k
    if st.cntOf k = 0 then a else if decide (0 < e) == high then a + e else a) (st.base.toNat : Int)

/-- Check 4 of R93. -/
def Stream.inRange (st : Stream) (lo hi : Nat) : Bool :=
  decide ((lo : Int) ≤ st.corner false) && decide (st.corner true + tySize st.ty.toNat ≤ (hi : Int))

/-- Stream `n` does not advance at the end of the bundle: it has been bound, freed or moved on by the bundle itself. -/
def State.dropRead (s : State) (n : BitVec 2) : State :=
  { s with iss := { s.iss with reads := s.iss.reads &&& ~~~(1#4 <<< n.toNat) } }

/-- SBIND (R93): the four checks in order; the descriptor is read in one pass over its two banks (R153). -/
def execSbind (n : BitVec 2) (t : BitVec 3) (a : Reg) (s : State) : Out :=
  let x := s.rx a
  let off := x.toNat
  let lo := s.me.lsbase.toNat
  let hi := s.me.lsbound.toNat
  if off % 32 ≠ 0 ∨ off < lo ∨ hi < off + 32 then trapOut s 5 0x0B x
  else
    let ps := lsBytes off 32
    match lsPoison s (coreOf s.cur) ps with
    | some p => trapOut s 7 0x12 (BitVec.ofNat 64 p)
    | none =>
      let ws := toWords (lsRead s (coreOf s.cur) ps) 4
      let d0 := ws.getD 0 0
      if d0.extractLsb' 19 45 ≠ 0 ∨ ws.getD 3 0 ≠ 0 then trapOut s 5 0x08 x
      else
        let st := streamFrom t d0 (ws.getD 1 0) (ws.getD 2 0)
        if !st.wellFormed then trapOut s 5 0x0A x
        else if !st.inRange lo hi then trapOut s 5 0x0B x
        else
          let s0 := claimBanks (lsCorrect s (coreOf s.cur) ps) (coreOf s.cur) ((1#8 <<< (off / 16 % 8)) ||| (1#8 <<< (off / 16 % 8 + 1)))
          .next ((s0.modMe (setStream n (fun _ => refill s s.cur st))).dropRead n).tick

/-- SFREE (R96): the register reads zero until it is written. -/
def execSfree (n : BitVec 2) (s : State) : Out :=
  if (getStream s.me n).bound then
    .next ((s.modMe (fun sl =>
      let r := RawA.streamReg n
      { setStream n (fun _ => Stream.unbound) sl with
        x := sl.x.set r.toNat 0 r.isLt, present := sl.present ||| (1#64 <<< r.toNat) })).dropRead n)
  else .next s

/-- SSKIP (R95, R98). A bundle that reads the stream too has its one advance (R94) before the steps of SSKIP, so that
the flags are those of R95; mark DESIGN CHOICE (log entry 101). -/
def execSskip (n : BitVec 2) (a : Reg) (s : State) : Out :=
  let st := getStream s.me n
  if st.bound then
    let k := (s.rx a).toNat % st.total
    let first (st : Stream) : Stream := if s.iss.reads.getLsbD n.toNat then st.advance else st
    .next ((s.modMe (setStream n (fun st => refill s s.cur { (first st).skip k with ahead := [] }))).dropRead n).tick
  else trapOut s 5 0x09 (zext n)

/-- BEOD (R97): the flag as it stood at issue; a dimension beyond the last gives not taken. -/
def execBeod (n k : BitVec 2) (o : BitVec 15) (s : State) : Out :=
  let st := getStream s.me n
  if st.bound then
    branchIf (decide (k.toNat ≤ st.ndim1) && (st.eod[k.toNat]?).getD false) o s
  else trapOut s 5 0x09 (zext n)

/-! ## System registers (R44 to R49, R100, R122) -/

/-- The value of a system register at issue. -/
def sysRead (s : State) (n : Nat) : Word :=
  let sl := s.me
  let po := s.polder sl.world
  let co := s.core (coreOf s.cur)
  if n = 0x000 then statusWord s s.cur 1
  else if n = 0x001 then sl.epc
  else if n = 0x002 then sl.cause
  else if n = 0x003 then sl.tval
  else if n = 0x004 then sl.estatus
  else if n = 0x005 then sl.tvec
  else if n = 0x008 then sl.arg0
  else if n = 0x009 then sl.arg1
  else if n = 0x00A then sl.done
  else if n = 0x00B then sl.groups
  else if n = 0x00C then sl.launch
  else if n = 0x010 then sl.round
  else if n = 0x011 then zext sl.fflags
  else if n = 0x012 then sl.modq
  else if n = 0x013 then sl.tkerr
  else if n = 0x014 then sl.present ||| 1
  else if n = 0x018 then BitVec.ofNat 64 s.cycle
  else if n = 0x019 then endpoint s s.cur
  else if n = 0x01A then sl.logical
  else if n = 0x020 then BitVec.ofNat 64 sl.world
  else if n = 0x021 then sl.lsbase
  else if n = 0x022 then sl.lsbound
  else if n = 0x023 then po.tbase
  else if n = 0x024 then po.ptbase
  else if n = 0x025 then po.split
  else if n = 0x026 then po.slice
  else if n = 0x027 then po.ageLimit
  else if n = 0x028 then po.tkExpiry
  else if n = 0x029 then po.wdog
  else if n = 0x02A then (s.cluster (clusterOf s.cur)).stagger
  else if n = 0x02B then po.hvec
  else if n = 0x030 then BitVec.ofNat 64 co.clock
  else if n = 0x031 then BitVec.ofNat 64 co.energy
  else if n = 0x032 then co.trace
  else sl.bbcbase

/-- Registers whose fields are all RO (R44, R45). -/
def sysReadOnly (n : Nat) : Bool :=
  n == 0x004 || (0x008 ≤ n && n ≤ 0x00C) || n == 0x014 || (0x018 ≤ n && n ≤ 0x01A)
    || n == 0x030 || n == 0x031

/-- RWS registers (R45). -/
def sysPrivileged (n : Nat) : Bool := (0x020 ≤ n && n ≤ 0x02B) || n == 0x032

/-- The writable bits of a register whose map marks the others reserved (R12). -/
def sysMask (n : Nat) : Word :=
  if n = 0x002 ∨ n = 0x013 then 0x1FF
  else if n = 0x020 then 0x1F
  else if n = 0x023 then 0x1FFFFFFFFFFFFE0
  else if n = 0x024 then 0x1FFFFFFF000
  else if n = 0x025 then 0x7F
  else if n = 0x02A then 0xFFFF
  else if n = 0x032 then 0x1FFFFFFFFF1
  else BitVec.allOnes 64

/-- Write a polder register. -/
def polderWrite (n : Nat) (v : Word) (p : Polder) : Polder :=
  if n = 0x023 then { p with tbase := v }
  else if n = 0x024 then { p with ptbase := v }
  else if n = 0x025 then { p with split := v }
  else if n = 0x026 then { p with slice := if v ≠ 0 ∧ v.toNat < 32 then 32 else v }
  else if n = 0x027 then { p with ageLimit := v }
  else if n = 0x028 then { p with tkExpiry := v }
  else if n = 0x029 then { p with wdog := v }
  else { p with hvec := v }

/-- Write a register of the slot under its access code (R11, R46, R48). The spec gives no outcome for a sr.world above
20 or a share that R158 would refuse; world 0's value is stored as written; mark DESIGN CHOICE (log entry 102). -/
def slotWrite (n : Nat) (v : Word) (sl : Slot) : Slot :=
  if n = 0x000 then { sl with clamp := sl.clamp && !v.getLsbD 6 }
  else if n = 0x001 then { sl with epc := v }
  else if n = 0x002 then { sl with cause := v }
  else if n = 0x003 then { sl with tval := v }
  else if n = 0x005 then { sl with tvec := v }
  else if n = 0x010 then { sl with round := v &&& 3 }
  else if n = 0x011 then { sl with fflags := sl.fflags &&& ~~~(v.extractLsb' 0 5) }
  else if n = 0x012 then { sl with modq := v }
  else if n = 0x013 then { sl with tkerr := v }
  else if n = 0x020 then { sl with world := v.toNat }
  else if n = 0x021 then { sl with lsbase := v }
  else if n = 0x022 then { sl with lsbound := v }
  else { sl with bbcbase := v }

/-- The header of a trace buffer is written at every write of sr.trace (R306, R307). -/
def traceHeader (s : State) (c : Nat) : State :=
  let co := s.core c
  let ws := [BitVec.ofNat 64 co.traceNext, BitVec.ofNat 64 co.traceWraps, BitVec.ofNat 64 co.traceLost,
    BitVec.ofNat 64 s.cycle, BitVec.ofNat 64 co.dropped, BitVec.ofNat 64 co.misses,
    BitVec.ofNat 64 co.tlbMisses, BitVec.ofNat 64 co.dieTlbMisses, BitVec.ofNat 64 co.lateReplies,
    BitVec.ofNat 64 co.softErrors, 0, 0, 0, 0, 0, 0]
  if NMap.find s.granules (traceBase co.trace / 33554432) = some 0 then
    s.pokeMem (traceBase co.trace) (wordBytes ws)
  else
    hatPost s (dieOfCore c) 0x0B 0 (s.moduleNo * 4194304 + c * 8) (BitVec.ofNat 64 (traceBase co.trace)) 0

/-- A write of sr.trace takes effect as the next cycle begins: the buffer starts again and its header is written (R306,
R307). -/
def traceApply (s : State) (c : Nat) : State :=
  match (s.core c).traceNew with
  | some v => traceHeader (s.modCore c (fun co => { co with trace := v, traceNew := none, traceNext := 128, traceLast := s.cycle })) c
  | none => s

/-- Write a register held per cluster, core or polder, or the slot's own. -/
def sysWrite (n : Nat) (v : Word) (s : State) : State :=
  if n = 0x02A then s.modCluster (clusterOf s.cur) (fun cl => { cl with stagger := v })
  else if n = 0x032 then
    s.modCore (coreOf s.cur) (fun co => { co with traceNew := some v })
  else if n = 0x026 ∧ v ≠ 0 ∧ v.toNat < 32 then
    (s.modPolder s.me.world (polderWrite n v)).modMe (fun sl => { sl with clamp := true })
  else if 0x023 ≤ n ∧ n ≤ 0x02B then s.modPolder s.me.world (polderWrite n v)
  else s.modMe (slotWrite n v)

/-- A modulus that R49 rejects. -/
def badModulus (v : Word) : Bool := v.toNat % 2 == 0 || v.toNat < 3 || decide (2 ^ 62 ≤ v.toNat)

def execGets (d : Reg) (sn : BitVec 10) (s : State) : Out := writeX s d (sysRead s sn.toNat)

/-- SETS (R44, R100). -/
def execSets (sn : BitVec 10) (a : Reg) (s : State) : Out :=
  let n := sn.toNat
  let v := s.rx a
  if sysReadOnly n ∨ (n = 0x010 ∧ 4 ≤ v.toNat % 8) then trapOut s 1 0x01 (aBits (.sets sn a))
  else if sysPrivileged n ∧ s.me.world ≠ 0 then trapOut s 3 0x02 (zext sn)
  else if (n = 0x001 ∨ n = 0x005 ∨ n = 0x02B) ∧ badTarget v then trapOut s 5 0x03 v
  else if n = 0x012 ∧ badModulus v then trapOut s 5 0x0D v
  else .next (sysWrite n (v &&& sysMask n) s)

/-! ## Traps, return and stopping (R102 to R105) -/

/-- TRAP (R102): software trap with the immediate as its value. -/
def execTrap (i : BitVec 15) (s : State) : Out := trapOut s 5 0x0E (zext i)

/-- ERET (R103): outside a handler it is an illegal instruction. -/
def execEret (s : State) : Out :=
  if s.me.inh then .next (returnFromTrap s) else trapOut s 1 0x01 (aBits .eret)

/-- HALT (R104): the context stays installed, at this bundle. -/
def execHalt (s : State) : Out :=
  .next ((s.modMe (fun sl => { sl with npc := sl.pc })).toState s.cur .halted)

/-- NOP (R105) has no effect. -/
def execNop (s : State) : Out := .next s

end Sys2Proof.Machine
end

