-- ==== Sys2Proof/Machine/Memory.lean ====
section
/-! DEFINITION. The memory instructions (08 R194 to R216), prefetch and pinning (03 R107 to R109), fences (03
R106; 13 R272) and translation control (17 R338, R339). -/

namespace Sys2Proof.Machine

/-- `n` byte addresses from `ea` up. -/
def span (ea n : Nat) : List Nat := (List.range n).map (fun i => ea + i)

/-- The order suffixes (R69): acquire part and release part. -/
def acqPart (o : BitVec 2) : Bool := o.getLsbD 0
def relPart (o : BitVec 2) : Bool := o.getLsbD 1

/-- A request of format MEM for `n` bytes. -/
def memReq (op : MemOp) (m : MemF) (ea n : Nat) : MemReq :=
  { MemReq.new op m.w.toNat m.d.toNat (span ea n) with acq := acqPart m.order, rel := relPart m.order, scope := m.scope.toNat }

/-- Check alignment at row 5, then begin the access (R195). -/
def alignedAccess (s : State) (r : MemReq) (unit : Nat) : Out :=
  if r.ea % unit ≠ 0 then trapOut s 5 0x04 (BitVec.ofNat 64 r.ea) else beginAccess s r

/-! ## Scalar and full/empty accesses (R199 to R203) -/

def execLd (m : MemF) (s : State) : Out :=
  guardX s m.d <|
    let n := tySize m.w.toNat
    alignedAccess s (memReq .ld m (eaMem (s.rx m.s1) m.disp n) n) n

def execSt (m : MemF) (s : State) : Out :=
  let n := tySize m.w.toNat
  alignedAccess s { memReq .st m (eaMem (s.rx m.s1) m.disp n) n with data := toLe (s.rx m.d).toNat n } n

def execLds (m : MemF) (s : State) : Out :=
  guardX s m.d <|
    let n := tySize m.w.toNat
    alignedAccess s (memReq .lds m (eaMem (s.rx m.s1) m.disp n) n) n

def execStf (m : MemF) (s : State) : Out :=
  let n := tySize m.w.toNat
  alignedAccess s { memReq .stf m (eaMem (s.rx m.s1) m.disp n) n with data := toLe (s.rx m.d).toNat n } n

def execLdp (m : MemF) (s : State) : Out :=
  guardX s m.d <| alignedAccess s (memReq .ldp m (eaMem (s.rx m.s1) m.disp 8) 8) 8

def execSfe (m : MemF) (s : State) : Out :=
  alignedAccess s { memReq .sfe m (eaMem (s.rx m.s1) m.disp 8) 8 with data := toLe (s.rx m.d).toNat 8 } 8

/-! ## Vector accesses (R205 to R208) -/

def execVld (m : MemF) (s : State) : Out :=
  let n := vldElem m.w
  alignedAccess s (memReq .vld m (eaMem (s.rx m.s1) m.disp n) 16) n

def execVst (m : MemF) (s : State) : Out :=
  let n := vldElem m.w
  alignedAccess s { memReq .vst m (eaMem (s.rx m.s1) m.disp n) 16 with data := toLe (s.rv m.d).toNat 16 } n

/-- VLDT (R206): eight rows of 16 bytes from the own local store. -/
def execVldt (m : MemF) (s : State) : Out :=
  let ea := eaMem (s.rx m.s1) m.disp 16
  let pitch := 16 * 2 ^ m.w.toNat
  let r := { memReq .vldt m ea 16 with vas := (List.range 8).flatMap (fun i => span (ea + i * pitch) 16) }
  if ea % 16 ≠ 0 then trapOut s 5 0x04 (BitVec.ofNat 64 ea) else localAccess s r

/-- VLDD (R207). The rules name no effective address for it, which R195 puts in sr.tval where it is misaligned: the value
is the address of its first element, or the sidecar where that is misaligned; mark DESIGN CHOICE (log entry 111). -/
def execVldd (m : MemF) (s : State) : Out :=
  let p := s.rx m.s1
  let sc := addr57 (s.rx (m.s1 + 1))
  let fmt := bits p.toNat 63 60
  let blk := bits p.toNat 59 57
  if badFormat p then trapOut s 5 0x07 p
  else
    let i0 := (s.rx (m.s1 + 2) + sext m.disp).toNat
    let wd := vlddWidth fmt
    let n := 128 / wd
    let r := { memReq .vldd m 0 0 with
      w := fmt, cmp := BitVec.ofNat 64 i0
      vas := (List.range n).flatMap (fun j => elementBytes fmt blk (addr57 p) sc (i0 + j)) }
    let size := if fmt = 6 ∨ fmt = 7 ∨ fmt = 8 then 1 else wd / 8
    if addr57 p % size ≠ 0 then trapOut s 5 0x04 (BitVec.ofNat 64 r.ea)
    else if hasSidecar fmt ∧ sc % (if fmt = 7 then 4 else 2) ≠ 0 then trapOut s 5 0x04 (BitVec.ofNat 64 sc)
    else beginAccess s r

/-- The lane addresses of a gather or scatter (R208). -/
def laneAddrs (base : Word) (idx : Vec) (size : Nat) : List Nat :=
  (lanes idx (8 * size)).map (fun l => addr57 (base + BitVec.ofNat 64 (l * size)))

/-- A gather or scatter: alignment of every lane first, then the windows and the share. -/
def laneAccess (s : State) (op : MemOp) (m : MrrF) (data : List Byte) : Out :=
  let size := 2 ^ m.size.toNat
  let as := laneAddrs (s.rx m.s1) (s.rv m.s2) size
  match as.find? (fun a => a % size ≠ 0) with
  | some a => trapOut s 5 0x04 (BitVec.ofNat 64 a)
  | none =>
    localAccess s { MemReq.new op 0 m.d.toNat (as.flatMap (fun a => span a size)) with
      data := data, acq := acqPart m.order, rel := relPart m.order, scope := m.scope.toNat }

def execVldx (m : MrrF) (s : State) : Out := laneAccess s .vldx m []
def execVstx (m : MrrF) (s : State) : Out := laneAccess s .vstx m (toLe (s.rv m.d).toNat 16)

/-! ## Atomics (R209 to R212) -/

/-- An atomic with operation code `f`. -/
def atomic (f : Nat) (m : AmoF) (s : State) : Out :=
  guardX s m.d <|
    let wide := m.wide == 1
    let n := amoSize f wide
    let r := { MemReq.new .amo (f + (if wide then 16 else 0)) m.d.toNat (span (addr57 (s.rx m.s1)) n) with
      data := toLe (s.rx m.s2).toNat n, cmp := BitVec.ofNat 64 ((s.rx m.d).toNat % 2 ^ (8 * n))
      acq := acqPart m.order, rel := relPart m.order, scope := m.scope.toNat }
    alignedAccess s r n

def execAmoadd (m : AmoF) (s : State) : Out := atomic 0 m s
def execAmoand (m : AmoF) (s : State) : Out := atomic 1 m s
def execAmoor (m : AmoF) (s : State) : Out := atomic 2 m s
def execAmoxor (m : AmoF) (s : State) : Out := atomic 3 m s
def execAmoswap (m : AmoF) (s : State) : Out := atomic 4 m s
def execAmomin (m : AmoF) (s : State) : Out := atomic 5 m s
def execAmomax (m : AmoF) (s : State) : Out := atomic 6 m s
def execAmominu (m : AmoF) (s : State) : Out := atomic 7 m s
def execAmomaxu (m : AmoF) (s : State) : Out := atomic 8 m s
def execAmocas (m : AmoF) (s : State) : Out := atomic 9 m s
def execAmofadd (m : AmoF) (s : State) : Out := atomic 10 m s

/-! ## Prefetch (R204, R305) -/

/-- A hint that is dropped is counted. -/
def dropHint (s : State) (n : Nat) : State := s.modCore (coreOf s.cur) (fun c => { c with dropped := c.dropped + n })

/-- A read prefetch fills a copy of a line homed on another die or module (R262), unless the die holds one or has asked
for it; no path drops it. -/
def prefetchFill (s : State) (die world : Nat) (t : Target) : State :=
  let held (line : Nat) : Bool := (findCopy s die world line).isSome || (openFill s die world line).isSome
  match t with
  | .home pa =>
    let line := lineKey s.moduleNo pa
    if homeDie pa = die ∨ held line = true then s
    else
      match homeRead s (pa / 64 * 64) 64 with
      | .ok (u, bs) => startFill u die world line bs []
      | .error _ => s
  | .peer m pa =>
    if held (lineKey m pa) = true then s
    else if hasPath s die m then startPeerFill s die world (lineKey m pa) []
    else dropHint s 1
  | .own _ | .aper _ _ _ => dropHint s 1

/-- A data prefetch: dropped and counted where its page is unmapped, not readable, forbidden or a local-store window, or,
with intent to write, not writable (R204, R305); that intent fills nothing on another die (R262), and a line homed on
this die is in its home cache whenever it is read. -/
def prefetch (a : Reg) (p : BitVec 7) (write : Bool) (s : State) : Out :=
  let ea := eaMem (s.rx a) p 8
  let world := s.me.world
  if ea < translatedBase then .next (dropHint s 1)
  else
    match hintLeaf s (clusterOf s.cur) world ea with
    | (s1, none) => .next (dropHint s1 1)
    | (s1, some l) =>
      if l.kind = 2 ∨ refuses s1 l world ea .load = true ∨ (write = true ∧ refuses s1 l world ea .store = true) then
        .next (dropHint s1 1)
      else if write then .next s1
      else .next (prefetchFill s1 (dieOf s.cur) world (targetOf s1 l ea))

def execPref (a : Reg) (p : BitVec 7) (s : State) : Out := prefetch a p false s
def execPrefWr (a : Reg) (p : BitVec 7) (s : State) : Out := prefetch a p true s

/-! ## Fences (R106, R272) -/

/-- What a FENCE does when its ordering holds: accumulator, invalidations, publication by the later stores,
and with .eng the signatures of the requests that it waited for (R272, R273). -/
def fenceEffect (s : State) (c num : Nat) (r : MemReq) : State :=
  let s1 := s.modCtx c num (fun sl =>
    let sl1 := { sl with fenceRel := r.rel }
    let sl2 := if r.acq then { sl1 with accCur := BitVec.allOnes 512, accPrev := BitVec.allOnes 512 } else sl1
    if r.w = 1 then
      sl2.addAcc ((sl.tokenSigs.foldl (fun a p => a ||| p.2) 0) ||| coreSig s c sl.world)
    else sl2)
  let s2 :=
    if r.acq ∧ 4 ≤ r.scope then
      let away (l : Nat) : Bool := r.scope == 5 || l / 2 ^ 42 == s.moduleNo
      s1.modDie (dieOfCore c) (fun d => { d with
        rdc := d.rdc.filter (fun l => !away l.line)
        fills := d.fills.map (fun f => if away f.line then { f with install := false } else f) })
    else s1
  match ctxSlot s2 c num with
  | some k => syncStreams s2 k
  | none => s2

/-- A fence waits in WAIT_MEM; with .eng until every asynchronous request of the slot has completed. -/
def fence (o : BitVec 2) (sc : BitVec 3) (eng : Bool) (s : State) : Out :=
  let r := { MemReq.new .fence (if eng then 1 else 0) 0 [] with acq := acqPart o, rel := relPart o, scope := sc.toNat }
  let s1 := park s s.cur .waitMem (.mem r)
  if eng ∧ s.me.outstanding ≠ 0 then .next s1
  else .next (s1.later Config.latReply (.remoteReply (.ctx (coreOf s.cur) s.me.ctxNum) .done 0))

def execFence (o : BitVec 2) (sc : BitVec 3) (s : State) : Out := fence o sc false s
def execFenceEng (o : BitVec 2) (sc : BitVec 3) (s : State) : Out := fence o sc true s

/-! ## Block counters (R107, R310) -/

/-- Where a hint may write eight bytes at an address of a world: in the memory of this or another module. `need` is what
its access asks of the page. -/
def hintTarget (s : State) (cluster world va : Nat) (need : Need) : State × Option Target :=
  if va < translatedBase ∨ 2 ^ 57 ≤ va then (s, none)
  else
    match hintLeaf s cluster world va with
    | (s1, some l) => (s1, if l.kind = 2 ∨ refuses s1 l world va need = true then none else some (targetOf s1 l va))
    | (s1, none) => (s1, none)

/-- An add to a counter that cannot be made is dropped and counted (R310). -/
def dropAdd (s : State) (cluster : Nat) : State := s.modCore (cluster * 8) (fun c => { c with dropped := c.dropped + 1 })

/-- Send an add to a counter of another module to its home, once a tag is free (R310, R382). -/
def sendAdd (s : State) (cluster world m pa n : Nat) : State :=
  let die := dieOfCluster cluster
  let who := ReplyTo.counter cluster world m pa n
  if hasPath s die m then
    match drawTag s die who m with
    | some (idx, gen, s1) =>
      let s2 := peerStoreSent s1 die idx m pa 8
      (sendPacket s2 die (mkPacket s2 0x03 0 world (dieEndpoint s2 die) (m * 4194304 + homeDie pa * 262144) idx gen
        (accessOp pa (sizeCode 8) 16 0 0 0) 0 (flitOf (toLe n 8)))).getD s2
    | none => s.modDie die (fun d => { d with tagQueue := d.tagQueue ++ [who] })
  else dropAdd s cluster

/-- The reply to such an add; `done` without one says that a tag is free. -/
def counterReply (s : State) (cluster world m pa n : Nat) (p : Reply) : State :=
  match p with
  | .done => sendAdd s cluster world m pa n
  | .fault _ _ | .gone => dropAdd s cluster
  | .data _ | .home | .status _ => s

/-- Add one pending increment to its counter at its home; a fault drops it (R310). -/
def flushCounter (s : State) (cluster world addr : Nat) : State :=
  match (s.cluster cluster).bbc.find? (fun b => b.world == world && b.addr == addr) with
  | none => s
  | some b =>
    let s1 := s.modCluster cluster (fun c => { c with bbc := c.bbc.erase b })
    match hintTarget s1 cluster world addr .atomic with
    | (s2, some (.home pa)) =>
      match homeRead s2 pa 8 with
      | .error l => dropAdd (integrityRecord s2 l) cluster
      | .ok (t, bs) =>
        match homeWrite t none pa (toLe (leNat bs + b.count) 8) with
        | .ok u => updateCopies u (dieOfCluster cluster) s.moduleNo pa (toLe (leNat bs + b.count) 8)
        | .error _ => dropAdd t cluster
    | (s2, some (.peer m pa)) => sendAdd s2 cluster world m pa b.count
    | (s2, _) => dropAdd s2 cluster

def execBbc (a : Reg) (i : BitVec 15) (s : State) : Out :=
  let sl := s.me
  let cl := clusterOf s.cur
  if sl.bbcbase = 0 then .next s
  else
    let va := (sl.bbcbase + (s.rx a + zext i) * 8).toNat
    match hintTarget s cl sl.world va .store with
    | (s0, none) => .next (dropHint s0 1)
    | (s0, some _) =>
      let bbc := (s0.cluster cl).bbc
      match bbc.find? (fun b => b.world == sl.world && b.addr == va) with
      | some b =>
        let s1 := s0.modCluster cl (fun c => { c with
          bbc := c.bbc.map (fun x => if x = b then { x with count := x.count + 1 } else x) })
        .next (if b.count + 1 = 2 ^ 32 - 1 then s1.next1 (.blockCounterFlush cl sl.world va) else s1)
      | none =>
        -- the oldest of 256 counters is evicted for the new one
        let s1 := match bbc with
          | b :: _ => if 256 ≤ bbc.length then flushCounter s0 cl b.world b.addr else s0
          | [] => s0
        .next (s1.modCluster cl (fun c => { c with bbc := c.bbc ++ [{ world := sl.world, addr := va, count := 1 }] }))

def execBlockCounterFlush (cluster world addr : Nat) (s : State) : Out := .next (flushCounter s cluster world addr)

/-- Flush every pending increment of a world in a cluster (R310). -/
def flushWorld (s : State) (cluster world : Nat) : State :=
  ((s.cluster cluster).bbc.filter (·.world == world)).foldl (fun t b => flushCounter t cluster b.world b.addr) s

/-! ## Instruction caches (R108, R109) -/

/-- Put a line first into an instruction cache of `cap` lines; a pinned line is never evicted (R109). -/
def cacheLine (cap : Nat) (pins : List IPin) (ls : List ILine) (l : ILine) : List ILine :=
  let rest := ls.filter (fun x => !(x.world == l.world && x.line == l.line))
  let pinned (x : ILine) : Bool := pins.any (fun p => p.world == x.world && p.line == x.line)
  let kept := rest.filter pinned
  l :: (kept ++ (rest.filter (fun x => !pinned x)).take (cap - 1 - kept.length))

/-- Put a line into a core's instruction cache of 8 KiB (R1). -/
def icacheInsert (s : State) (c world line : Nat) (bs : List Word) : State :=
  s.modCore c (fun co => { co with icache := cacheLine 128 co.pins co.icache { world := world, line := line, bundles := bs } })

/-- Put a line into a cluster's instruction cache of 64 KiB (R1). -/
def clusterInsert (s : State) (cl world line : Nat) (bs : List Word) : State :=
  s.modCluster cl (fun x => { x with icache := cacheLine 1024 x.pins x.icache { world := world, line := line, bundles := bs } })

def clusterLine (s : State) (cl world line : Nat) : Option (List Word) :=
  ((s.cluster cl).icache.find? (fun l => l.world == world && l.line == line)).map (·.bundles)

/-- The bundles of the line of a fetched address, or the cause and value of the fault: a page without X is a fetch outside
code, and so is one of another module or of a local store, where nothing executes (mark DEDUCED, log entry 106); a page of another
owner is an access violation (R299). -/
def codeLine (s : State) (world va : Nat) (l : Leaf) : Except (Nat × Nat × State) (State × List Word) :=
  let at_ := va / 64 * 64
  if !l.executable then .error (0x0F, va, s)
  else
    match targetOf s l at_ with
    | .home pa =>
      if ownerOf s pa ≠ some world then .error (0x11, va, s)
      else
        match homeRead s pa 64 with
        | .ok (t, bs) => .ok (t, toWords bs 8)
        | .error x => .error (0x12, x * 64, integrityRecord s x)
    | _ => .error (0x0F, va, s)

/-- Bring a line into a cluster's instruction cache for a hint or a pin (R108, R305); answers its bundles. -/
def bringLine (s : State) (cl world line : Nat) : State × Option (List Word) :=
  match clusterLine s cl world line with
  | some bs => (clusterInsert s cl world line bs, some bs)
  | none =>
    match hintLeaf s cl world (line * 64) with
    | (s1, none) => (s1, none)
    | (s1, some l) =>
      match codeLine s1 world (line * 64) l with
      | .ok (t, bs) => (clusterInsert t cl world line bs, some bs)
      | .error (_, _, t) => (t, none)

/-- Bring a line into a level: 0 the core's cache, otherwise the cluster's alone. -/
def bringTo (s : State) (level : BitVec 1) (c world line : Nat) : State × Bool :=
  match bringLine s (clusterOfCore c) world line with
  | (t, some bs) => (if level = 0 then icacheInsert t c world line bs else t, true)
  | (t, none) => (t, false)

/-- The lines that a range [a, a + n) touches and that the code range holds, and how many lines of the range
lie outside it. -/
def codeLines (sl : Slot) (a n : Nat) : List Nat × Nat :=
  if n = 0 then ([], 0)
  else
    let first := a / 64
    let last := (a + n - 1) / 64
    let lo := Nat.max first (sl.codeLo / 64)
    let hi := Nat.min last ((sl.codeHi + 63) / 64 - 1)
    let ls := if lo ≤ hi ∧ sl.codeLo < sl.codeHi then (List.range (hi + 1 - lo)).map (fun i => lo + i) else []
    (ls, last + 1 - first - ls.length)

/-- IPREF (R108): lines into the level; lines outside the code range or on a page that refuses them are dropped and
counted (R305). -/
def execIpref (l : BitVec 1) (a b : Reg) (s : State) : Out :=
  let sl := s.me
  let (ls, out) := codeLines sl (addr57 (s.rx a)) (s.rx b).toNat
  .next (ls.foldl (fun t ln =>
    match bringTo t l (coreOf s.cur) sl.world ln with
    | (u, true) => u
    | (u, false) => dropHint u 1) (dropHint s out))

/-- Distinct lines that pins name. -/
def pinnedLines (ps : List IPin) : List (Nat × Nat) := (ps.map (fun p => (p.world, p.line))).eraseDups

/-- IPIN (R108, R109): all of the range or none of it, within the capacity of the level. -/
def execIpin (l : BitVec 1) (d a b : Reg) (s : State) : Out :=
  guardX s d <|
    let k := s.cur
    let c := coreOf k
    let cl := clusterOf k
    let sl := s.me
    let (ls, out) := codeLines sl (addr57 (s.rx a)) (s.rx b).toNat
    let outside := out ≠ 0 ∨ (ls ≠ [] ∧ (addr57 (s.rx a) < sl.codeLo ∨ sl.codeHi < addr57 (s.rx a) + (s.rx b).toNat))
    let old := if l = 0 then (s.core c).pins else (s.cluster cl).pins
    let new : List IPin := ls.map (fun ln => { core := c, ctx := sl.ctxNum, world := sl.world, line := ln })
    let all := old ++ new.filter (fun p => !old.contains p)
    let cap := if l = 0 then 64 else 512
    let code := if outside then 1 else if cap < (pinnedLines all).length then 2 else 0
    let s1 := s.modMe (·.startToken d)
    let s2 :=
      if code = 0 then
        ls.foldl (fun t ln => (bringTo t l c sl.world ln).1)
          (if l = 0 then s1.modCore c (fun co => { co with pins := all }) else s1.modCluster cl (fun x => { x with pins := all }))
      else s1
    .next (s2.later Config.latFetch (.completionWrite c sl.ctxNum d.toNat (BitVec.ofNat 64 code) 0))

/-- IUNPIN (R108): this context's pins on the lines. -/
def execIunpin (l : BitVec 1) (a b : Reg) (s : State) : Out :=
  let c := coreOf s.cur
  let lo := addr57 (s.rx a) / 64
  let n := (s.rx b).toNat
  let hit (p : IPin) : Bool :=
    p.core == c && p.ctx == s.me.ctxNum && n != 0 && decide (lo ≤ p.line) && decide (p.line ≤ (addr57 (s.rx a) + n - 1) / 64)
  if l = 0 then .next (s.modCore c (fun co => { co with pins := co.pins.filter (fun p => !hit p) }))
  else .next (s.modCluster (clusterOf s.cur) (fun x => { x with pins := x.pins.filter (fun p => !hit p) }))

/-- Release every pin of a context (R109). -/
def dropPins (s : State) (c num : Nat) : State :=
  (s.modCore c (fun co => { co with pins := co.pins.filter (fun p => p.ctx != num) })).modCluster (clusterOfCore c)
    (fun x => { x with pins := x.pins.filter (fun p => !(p.core == c && p.ctx == num)) })

/-- A line reaches a slot in WAIT_FETCH, by way of its cluster's cache and its core's (R47, R53). -/
def fetched (s : State) (slot world line : Nat) (bs : List Word) : State :=
  ((icacheInsert (clusterInsert s (clusterOf slot) world line bs) (coreOf slot) world line bs).modSlot slot
    (fun x => { x with wait := .none })).toReady slot

/-- A missing line is looked for: in the cluster's cache, or through the context's page at its home; a page that no buffer
holds is asked for in the miss table, where the slot keeps waiting (R300). -/
def execIcacheFill (slot : Nat) (s : State) : Out :=
  let sl := s.slot slot
  match sl.wait with
  | .fetch a =>
    if sl.state = .waitFetch then
      match clusterLine s (clusterOf slot) sl.world (a / 64) with
      | some bs => .next (fetched s slot sl.world (a / 64) bs)
      | none =>
        if 2 ^ 57 ≤ a then .next (takeTrapAt s slot 0x10 (BitVec.ofNat 64 a))
        else
          match lookup s (coreOf slot) sl.world a with
          | (s1, none) => .next (queueMiss s1 (clusterOf slot) sl.world a (.ctx (coreOf slot) sl.ctxNum))
          | (s1, some l) =>
            match codeLine s1 sl.world a l with
            | .ok (t, bs) => .next (fetched t slot sl.world (a / 64) bs)
            | .error (code, val, t) => .next (takeTrapAt t slot code (BitVec.ofNat 64 val))
    else .next s
  | _ => .next s

/-! ## Translation control (R338, R339) -/

/-- Whether an entry of a world overlaps [lo, hi). -/
def TlbEntry.overlaps (t : TlbEntry) (world lo hi : Nat) : Bool :=
  t.world == world && decide (t.va < hi) && decide (lo < t.va + t.size)

/-- Drop the translations of a world that overlap a range, everywhere, clear its pointer entries, and mark the walks of
keys that a page of any size may share with the range; answers the pages dropped (R303, R339). -/
def dropTranslations (s : State) (world lo hi : Nat) : State × List (Nat × Nat) :=
  let hit (t : TlbEntry) : Bool := t.overlaps world lo hi
  let pages := (s.clusters.flatMap (fun p => p.2.tlb.filter hit) ++ s.dies.flatMap (fun p => p.2.tlb.filter hit)).map
    (fun t => (t.va, t.size))
  ({ s with
      clusters := s.clusters.map (fun p => (p.1, { p.2 with tlb := p.2.tlb.filter (fun t => !hit t) }))
      dies := s.dies.map (fun p => (p.1, { p.2 with
        tlb := p.2.tlb.filter (fun t => !hit t)
        ptrs := p.2.ptrs.filter (·.1 != world)
        miss := p.2.miss.map (fun e =>
          let far := e.key * 65536 / 2 ^ 34
          if e.world = world ∧ (e.walker.isSome ∨ walksBySteward s world) ∧ lo / 2 ^ 34 ≤ far ∧ far ≤ (hi - 1) / 2 ^ 34 then
            { e with stale := true }
          else e) })) },
    pages.eraseDups)

/-- Accesses of slots and swapped contexts that are under way with a page of a TBINV. -/
def usesDropped (t : TbInv) (sl : Slot) : Bool :=
  sl.world == t.world &&
    match sl.wait with
    | .mem r =>
      !r.segs.isEmpty && decide (r.translated ≤ t.since)
        && r.vas.any (fun a => t.pages.any (fun p => decide (p.1 ≤ a) && decide (a < p.1 + p.2)))
    | _ => false

/-- The accesses of engines, copy harts and reductions that are on their way for a world. -/
def worldAccs (s : State) (world : Nat) : List UnitAcc :=
  s.clusters.flatMap (fun p =>
      (p.2.kicks.filter (·.world == world)).filterMap (·.acc)
        ++ ((p.2.engine.normal ++ p.2.engine.shadow).filter (·.world == world)).filterMap (·.acc))
    ++ s.cores.flatMap (fun p => (p.2.redWrites.filter (·.world == world)).filterMap (·.acc))

/-- The STTK stores of a world that have not been performed. -/
def worldToks (s : State) (world : Nat) : List (Nat × Nat × Nat) :=
  s.dies.flatMap (fun p => (p.2.tokens.filter (fun e => e.world == world && !e.performed)).map (fun e => (p.1, e.pgen, e.seq)))

/-- The dependent stores of a world of this module that are sent or held. -/
def worldDeps (s : State) (world : Nat) : List DepStore :=
  let mine (d : DepStore) : Bool := d.world == world && d.module == s.moduleNo
  s.dies.flatMap (fun p => p.2.sentDeps.map (·.2) ++ p.2.sluice.map (·.store)) ++ s.agenda.filterMap (fun e =>
    match e.2 with
    | .depstoreArrival _ d | .depstoreResend _ d => some d
    | _ => none) |>.filter mine

def tbinvBusy (s : State) (t : TbInv) : Bool :=
  t.accs.any (worldAccs s t.world).contains || t.toks.any (worldToks s t.world).contains || t.deps.any (worldDeps s t.world).contains
    || s.slots.any (fun p => usesDropped t p.2)
    || s.clusters.any (fun p => p.2.cache.any (fun e => usesDropped t e.slot) || p.2.spilled.any (fun e => usesDropped t e.slot))

/-- A TBINV: a release at .mod, then the drop; the token is written when no access uses a dropped entry. -/
def tbinv (d : Reg) (world lo hi : Nat) (s : State) : Out :=
  let k := s.cur
  let s1 := s.modMe (fun sl => { sl.startToken d with fenceRel := true })
  let (s2, pages) := dropTranslations s1 world lo hi
  let t : TbInv :=
    { core := coreOf k, ctx := s.me.ctxNum, reg := d.toNat, world := world, since := s.cycle, pages := pages
      accs := if pages.isEmpty then [] else worldAccs s world
      toks := if pages.isEmpty then [] else worldToks s world
      deps := if pages.isEmpty then [] else worldDeps s world }
  .next (s2.modDie (dieOf k) (fun x => { x with tbinvs := x.tbinvs ++ [t] }))

/-- A TBINV that ends at once with a code. -/
def tbinvCode (d : Reg) (code : Nat) (s : State) : Out :=
  .next ((s.modMe (·.startToken d)).next1 (.completionWrite (coreOf s.cur) s.me.ctxNum d.toNat (BitVec.ofNat 64 code) 0))

def execTbinvPage (d a : Reg) (s : State) : Out :=
  guardX s d <| tbinv d s.me.world (addr57 (s.rx a)) (addr57 (s.rx a) + 1) s

def execTbinvRange (d a b : Reg) (s : State) : Out :=
  guardX s d <|
    let lo := addr57 (s.rx a)
    let n := (s.rx b).toNat
    if 2 ^ 57 < lo + n then tbinvCode d 0x0C s
    else if n = 0 then tbinvCode d 0 s
    else tbinv d s.me.world lo (lo + n) s

def execTbinvAll (d : Reg) (s : State) : Out := guardX s d <| tbinv d s.me.world 0 (2 ^ 57) s

def execTbinvWorld (d b : Reg) (s : State) : Out :=
  if s.me.world ≠ 0 then trapOut s 3 0x02 (aBits (.tbinvWorld d b))
  else
    guardX s d <|
      let w := (s.rx b).toNat % 32
      if 20 < w then tbinvCode d 0x05 s else tbinv d w 0 (2 ^ 57) s

/-! ## Messages (R213 to R217) -/

/-- Answer a requester: a status word to a token register, a reply to anybody else. -/
def answer (s : State) (path : Nat) (who : ReplyTo) (r : Reply) (sig : Sig) : State :=
  match who with
  | .token c n reg =>
    s.later path (.completionWrite c n reg (match r with | .status k => BitVec.ofNat 64 k | _ => 0) sig)
  | .none => s
  | w => s.later path (.remoteReply w r sig)

/-- Which arrivals keep the order of one sender at one mailbox (R162). -/
def sameMail (core sender : Nat) (e : Event) : Bool :=
  match e with
  | .mailboxDataArrival c m => c == core && m.sender == sender
  | _ => false

def execSend (r : BitVec 1) (mb : BitVec 4) (d a b c : Reg) (s : State) : Out :=
  guardX s d <|
    let k := s.cur
    let die := dieOf k
    let dst := (s.rx a).toNat % 2 ^ 34
    let module := dst / 4194304
    let core := dst / 8 % 524288
    let sl := s.me
    let v := s.rv b
    let me := (endpoint s k).toNat
    let rel := r == 1
    let sig : Sig := if rel then sl.acc else 0
    let msg (who : ReplyTo) : MailMsg :=
      { typ := 0, mbox := mb.toNat, sender := me, world := sl.world, d1 := v.extractLsb' 0 64, d2 := v.extractLsb' 64 64,
        d3 := s.rx c, sig := sig, rel := rel, from_ := who }
    let tok := ReplyTo.token (coreOf k) sl.ctxNum d.toNat
    if 3200 ≤ dst / 64 % 4096 then trapOut s 5 0x17 (BitVec.ofNat 64 dst)
    else
      let s1 := s.modMe (fun x => { x.startToken d with fenceRel := x.fenceRel && !rel })
      if module = s.moduleNo then
        if dieOfCore core = die then
          .next (s1.laterAfter Config.latMesh (sameMail core me) (.mailboxDataArrival core (msg tok)))
        else
          match drawTag s1 die tok module with
          | none => retryOut s
          | some (idx, gen, s2) =>
            if crossesDown s die (dieOfCore core) then .next s2
            else .next (s2.laterAfter Config.latMesh (sameMail core me) (.mailboxDataArrival core (msg (.tag die idx gen))))
      else if !hasPath s die module then
        .next (s1.next1 (.completionWrite (coreOf k) sl.ctxNum d.toNat 0x05 0))
      else
        match drawTag s1 die tok module with
        | none => retryOut s
        | some (idx, gen, s2) =>
          let d0 := BitVec.ofNat 64 (mb.toNat * 2 ^ 56 + me)
          let p := mkPacket s2 0x07 0 sl.world me (dst / 8 * 8) idx gen 0 0
            ([d0, v.extractLsb' 0 64, v.extractLsb' 64 64, s.rx c, 0, 0, 0, 0]
              ++ (if rel then toWords (toLe sig.toNat 64) 8 else []))
          .next ((sendPacket s2 die p).getD s2)

/-- The registers that a received message writes (R215). -/
def mailResult (vd : Nat) (m : MailMsg) (sl : Slot) : Slot :=
  let d0 : Word := BitVec.ofNat 64 (m.typ * 2 ^ 60 + m.mbox * 2 ^ 56 + m.sender)
  (sl.putV (regOf vd) (m.d2 ++ m.d1)).putV (regOf (vd + 1)) (m.d3 ++ d0)

/-- Mailboxes in a mask that belong to a world. -/
def ownMail (co : Core) (world mask : Nat) : Nat :=
  (List.range 16).foldl (fun a i =>
    match co.mail.toList[i]? with
    | some b => if mask / 2 ^ i % 2 = 1 ∧ b.owner = some world then a + 2 ^ i else a
    | none => a) 0

def setMail (co : Core) (i : Nat) (f : Mailbox → Mailbox) : Core :=
  { co with mail := co.mail.mapFinIdx (fun j b _ => if j = i then f b else b) }

/-- Uncorrectable messages at the head of the mailboxes that a slot reads are dropped, and the slot is posted to the
steward; correctable ones are corrected (R168). -/
def checkMail (s : State) (c mask k : Nat) : State :=
  if s.poison.isEmpty ∧ s.flipped.isEmpty then s
  else
    ((List.range 16).filter (fun i => mask / 2 ^ i % 2 = 1)).foldl (fun t i =>
      let u := correct t [.mail c i] (countCore c)
      if u.poison.contains (.mail c i) then
        dropPoisoned (u.modCore c (fun co => setMail co i (fun b => { b with msgs := b.msgs.drop 1 }))) (.mail c i) (dieOfCore c)
          (endpoint s k).toNat (BitVec.ofNat 64 i)
      else u) s

/-- RECV (R215): the oldest message of the lowest mailbox that holds one, or wait. -/
def execRecv (q : BitVec 1) (d a : Reg) (s0 : State) : Out :=
  let k := s0.cur
  let c := coreOf k
  let mask := ownMail (s0.core c) s0.me.world ((s0.rx a).toNat % 65536)
  let acq := q == 1
  let s := checkMail s0 c mask k
  let co := s.core c
  if mask = 0 then trapOut s 7 0x11 (s.rx a)
  else
    match (List.range 16).find? (fun i => mask / 2 ^ i % 2 = 1 ∧ ((co.mail.toList[i]?).map (·.msgs)).getD [] ≠ []) with
    | some i =>
      match ((co.mail.toList[i]?).map (·.msgs)).getD [] with
      | m :: _ =>
        let s1 := s.modCore c (fun x => setMail x i (fun b => { b with msgs := b.msgs.drop 1 }))
        let s2 := if acq ∧ m.rel then acquireCtx s1 c s.me.ctxNum m.sig else s1
        .next (s2.modMe (mailResult d.toNat m))
      | [] => .next s
    | none =>
      .next ((park s k .waitRecv (.recv mask d.toNat acq)).modCore c (fun x => { x with recvq := x.recvq ++ [s.me.ctxNum] }))

/-- MBPEEK (R216). -/
def execMbpeek (d a : Reg) (s : State) : Out :=
  let co := s.core (coreOf s.cur)
  let mask := ownMail co s.me.world ((s.rx a).toNat % 65536)
  writeX s d (BitVec.ofNat 64 ((List.range 16).foldl (fun acc i =>
    if mask / 2 ^ i % 2 = 1 then acc + (((co.mail.toList[i]?).map (·.msgs.length)).getD 0) * 2 ^ (3 * i) else acc) 0))

/-- The oldest slot parked in RECV whose mask holds a mailbox (R164). -/
def oldestReceiver (s : State) (c mbox : Nat) : Option (Nat × Nat × Bool) :=
  (s.core c).recvq.findSome? (fun num =>
    match (ctxOf s c num).map Slot.wait with
    | some (.recv mask vd acq) => if mask / 2 ^ mbox % 2 = 1 then some (num, vd, acq) else none
    | _ => none)

/-- A polder whose requests are answered POLDER_GONE (R353). -/
def polderGone (s : State) (world : Nat) : Bool :=
  world != 0 && ((s.polder world).state == .draining || (s.polder world).state == .free)

/-- A DATA message reaches its core: delivered to the oldest slot that waits for it, kept, or refused (R162 to
R164, R214, R217). -/
def execMailboxDataArrival (core : Nat) (m : MailMsg) (s : State) : Out :=
  let reply (t : State) (code : Nat) : Out := .next (answer t Config.latMesh m.from_ (.status code) 0)
  if m.typ ≠ 0 then
    .next (hatPost (s.modCore core (fun co => { co with msgDropped := co.msgDropped + 1 })) (dieOfCore core) 0x04 0
      (s.moduleNo * 4194304 + core * 8) (BitVec.ofNat 64 m.typ) m.d1)
  else if polderGone s m.world then reply s 0x03
  else
    match (s.core core).mail.toList[m.mbox]? with
    | none => reply s 0x02
    | some b =>
      if b.owner ≠ some m.world then reply s 0x02
      else
        match oldestReceiver s core m.mbox with
        | some (num, vd, acq) =>
          let s1 := s.modCore core (fun co => { co with recvq := co.recvq.erase num })
          let s2 := if acq ∧ m.rel then acquireCtx s1 core num m.sig else s1
          reply (finishCtx s2 core num (mailResult vd m)) 0
        | none =>
          if b.msgs.length < 4 then reply (s.modCore core (fun co => setMail co m.mbox (fun b => { b with msgs := b.msgs ++ [m] }))) 0
          else reply s 0x01

/-- The number of the request that a TOKEN completes. -/
def requestOf (w : ReplyTo) : Nat :=
  match w with
  | .copy _ id | .job _ id => id
  | _ => 0

/-- A TOKEN message performs a completion; one for a register that is not pending is dropped (R162, R163). A slot
that waits for the request takes the signature as its wait ends (R231, R245); a request without a token register is
known by its number. -/
def execTokenMessageArrival (core : Nat) (m : MailMsg) (s : State) : Out :=
  let num := bits m.d1.toNat 31 16
  let reg := bits m.d1.toNat 12 8
  let drop := hatPost (s.modCore core (fun co => { co with msgDropped := co.msgDropped + 1 })) (dieOfCore core) 0x04 0
    (s.moduleNo * 4194304 + core * 8) m.d1 m.d2
  match ctxOf s core num with
  | none => .next drop
  | some sl =>
    if reg ≠ 0 ∧ !sl.isPending (regOf reg) then .next drop
    else
      let s1 := completeCtx s core num reg m.d2 m.sig
      if reg ≠ 0 ∧ sl.wait = .engineToken reg then
        .next (invalidateMatching (s1.modCtx core num (·.tokenAcquire reg)) (dieOfCore core) m.sig)
      else if reg = 0 ∧ sl.wait = .engineToken (32 + requestOf m.from_) then .next (finishCtx s1 core num id)
      else .next s1

/-- An asynchronous completion (R59 to R62). -/
def execCompletionWrite (core num reg : Nat) (status : Word) (sig : Sig) (s : State) : Out :=
  .next (completeCtx s core num reg status sig)

end Sys2Proof.Machine
end

