-- ==== Sys2Proof/Machine/Service.lean ====
section
/-! DEFINITION. The service queue of a core and the handlers of slot 6 (06 R157, R159 to R161, R166; 14 R286;
21 R382). -/

namespace Sys2Proof.Machine

/-- Slot 6 leaves WAIT_RECV as a request comes in, and enters it as none is left (R47, R51). -/
def wakeService (s : State) (c : Nat) : State :=
  if (s.slot (c * 8 + 6)).state = .waitRecv then s.toState (c * 8 + 6) .ready else s

def idleService (s : State) (c : Nat) : State :=
  if (s.core c).svc.isEmpty ∧ (s.slot (c * 8 + 6)).state = .ready then s.toState (c * 8 + 6) .waitRecv else s

/-- An active message enters the service queue, or waits in the mesh while the queue holds 16 (R161). -/
def execServiceQueueArrival (core : Nat) (m : ActiveMsg) (s : State) : Out :=
  .next (wakeService (s.modCore core (fun co =>
    if co.svc.length < 16 ∧ co.mesh.isEmpty then { co with svc := co.svc ++ [m] } else { co with mesh := co.mesh ++ [m] })) core)

/-- The request at the head has been served: the oldest request in the mesh takes the place that is free, and slot 6 waits
while there is none. -/
def popService (s : State) (c : Nat) : State :=
  idleService (s.modCore c (fun co => { co with svc := co.svc.drop 1 ++ co.mesh.take 1, mesh := co.mesh.drop 1 })) c

/-- The first fault of a request with the byte that it is found at: one outside the share or the windows, then one of an
uncorrectable word (R159, R168). -/
def serviceFault (s : State) (c : Nat) (m : ActiveMsg) : Option (Nat × Nat) :=
  let (lo, hi) := shareOf (s.core c) m.world
  match lsFail lo hi m.off m.size with
  | some a => some (0x11, a - m.off)
  | none =>
    ((List.range m.size).find? (fun i => (lsPoison s c (lsBytes (m.off + i) 1)).isSome)).map (fun i => (0x12, i))

/-- The signature that a release of a request publishes at the core (R270). -/
def publishSent (s : State) (c : Nat) (m : ActiveMsg) : State := if m.sig = 0 then s else publishCore s c m.world m.sig

/-- What an acquire of a request receives (R271). -/
def sentSig (s : State) (c : Nat) (m : ActiveMsg) : Sig := if m.acq then coreSig s c m.world else 0

/-- Whether a handler serves a request of this kind. -/
def SvcOp.isLoad : SvcOp → Bool
  | .load | .peek => true
  | _ => false

def SvcOp.isAtomic : SvcOp → Bool
  | .atomic _ => true
  | _ => false

def SvcOp.isFill : SvcOp → Bool
  | .fill | .setfe => true
  | _ => false

/-- One bundle of slot 6: the head of the queue, if the handler is for its kind. It claims its banks as an issuing bundle
does (R153). -/
def serve (s : State) (c : Nat) (kind : SvcOp → Bool) (k : State → ActiveMsg → State) : Out :=
  match (s.core c).svc with
  | [] => .next s
  | m :: _ =>
    if kind m.op then
      let ps := lsBytes m.off m.size
      let s1 := claimBanks (popService s c) c (ps.foldl (fun b p => b ||| 1#8 <<< (p / 16 % 8)) 0)
      match serviceFault s c m with
      | some (code, byte) => .next (answer s1 Config.latMesh m.from_ (.fault code byte) 0)
      | none => .next (k (lsCorrect s1 c ps) m)
    else .next s

/-- The copy-hart request that an active message serves. -/
def servedReq (s : State) (w : ReplyTo) : Option (Nat × Nat) :=
  match w with
  | .copy cl id => some (cl, id)
  | .tag die idx gen => match liveTag s die idx gen with | some (.copy cl id) => some (cl, id) | _ => none
  | _ => none

/-- An object word that a graph request reads: its line is watched from this instant on (R322, R333). -/
def watchServed (s : State) (core : Nat) (m : ActiveMsg) (p : Nat) : State :=
  match servedReq s m.from_ with
  | some (cl, id) =>
    if (s.cluster cl).kicks.any (fun r => r.id == id && r.askObj) then addWatches s cl id [lsWatchKey core p] else s
  | none => s

/-- Load and peek (R200, R202). -/
def execServiceLoad (core : Nat) (s : State) : Out :=
  serve s core SvcOp.isLoad fun t m =>
    let ps := lsBytes m.off m.size
    let bs := if m.op = .peek then toLe (ofBool (isFull (t.core core) ((ps.head?).getD 0 / 8))).toNat 8 else lsRead t core ps
    answer (watchServed t core m ((ps.head?).getD 0)) Config.latMesh m.from_ (.data bs) (sentSig t core m)

def execServiceStore (core : Nat) (s : State) : Out :=
  serve s core (· == .store) fun t m =>
    answer (publishSent (lsStoreBut t ((servedReq t m.from_).map (·.2)) core (lsBytes m.off m.size) m.data) core m) Config.latMesh m.from_ .done 0

def execServiceAtomic (core : Nat) (s : State) : Out :=
  serve s core SvcOp.isAtomic fun t m =>
    let f := match m.op with | .atomic f => f | _ => 0
    let ps := lsBytes m.off m.size
    let old := lsRead t core ps
    let v := (amoNew (f % 16) (decide (16 ≤ f)) m.size (leNat old) (leNat m.data) m.cmp.toNat).1
    let t1 := publishSent (lsStoreBut t ((servedReq t m.from_).map (·.2)) core ps (toLe v m.size)) core m
    answer t1 Config.latMesh m.from_ (.data old) (sentSig t1 core m)

/-- Fill, as STF, and the setting of a bit, as SFE (R201, R203). -/
def execServiceFill (core : Nat) (s : State) : Out :=
  serve s core SvcOp.isFill fun t m =>
    let ps := lsBytes m.off m.size
    let word := (ps.head?).getD 0 / 8
    let t1 := publishSent t core m
    let t2 := if m.op = .fill then setFe (lsStore t1 core ps m.data) core word true
      else setFe t1 core word ((leWord m.data).getLsbD 0)
    answer t2 Config.latMesh m.from_ .done 0

/-- A synchronising load: its data if the word is full, or a place in the word's queue, held by hold replies
(R157, R382). -/
def execServiceSyncLoad (core : Nat) (s : State) : Out :=
  serve s core (· == .sync) fun t m =>
    let ps := lsBytes m.off m.size
    let word := (ps.head?).getD 0 / 8
    if isFull (t.core core) word then
      answer (t.modCore core (fun co => setEmptyBit co word)) Config.latMesh m.from_ (.data (lsRead t core ps)) (sentSig t core m)
    else
      let t1 := holdRequest t (dieOfCore core) m.from_
      joinWaiters t1 core { word := word, who := m.from_, world := m.world, off := m.off, size := m.size }

/-- The last record that `p` holds of in a list whose first element is the bottom-most. -/
def lastOf (p : TaskRec → Bool) (l : List TaskRec) : Option TaskRec := l.reverse.find? p

/-- Remove the last occurrence of a record. -/
def eraseLast (r : TaskRec) (l : List TaskRec) : List TaskRec := (l.reverse.erase r).reverse

/-- The record that a thief takes of those that `p` holds of: spilled records are read back first, and the record is the
top-most (R165, R166). The earliest-spilled batch lies above all others. -/
def stealFrom (co : Core) (p : TaskRec → Bool) : Option (TaskRec × Core) :=
  let rec batches : List (List TaskRec) → Option (TaskRec × List (List TaskRec))
    | [] => none
    | b :: bs =>
      match lastOf p b with
      | some r => some (r, (eraseLast r b :: bs).filter (!·.isEmpty))
      | none => (batches bs).map (fun q => (q.1, b :: q.2))
  match batches co.spilled with
  | some (r, bs) => some (r, { co with spilled := bs })
  | none => (lastOf p co.deque).map (fun r => (r, { co with deque := eraseLast r co.deque }))

/-- A record that a thief of a world may take: one that the host has not placed (R293, R294). -/
def stealable (s : State) (world : Nat) (r : TaskRec) : Bool := r.world == world && !(s.splitOf r.world r.launch).getLsbD 2

/-- A steal (R166): a spilled record is read back for it, alone, and the rest of its batch stays spilled; a read-back that
fails is reported, leaves the records where they were, and gives the thief none. -/
def stealBack (s : State) (core world : Nat) : State × Option TaskRec :=
  match stealFrom (s.core core) (stealable s world) with
  | none => (s, none)
  | some (r, co) =>
    if co.spilled == (s.core core).spilled then (s.setCore core co, some r)
    else if Config.spillFails s.free then (spillFailed s core, none)
    else (s.tick.setCore core co, some r)

/-- The core and world that a steal request comes from: named in it, or by the tag that it drew (R286, R382). -/
def thiefOf (s : State) (w : ReplyTo) : Option (Nat × Nat) :=
  match w with
  | .thief c world => some (c, world)
  | .tag die idx gen => match liveTag s die idx gen with | some (.thief c world) => some (c, world) | _ => none
  | _ => none

/-- Steal (R160, R286): a record of the thief's world, or none. -/
def execServiceSteal (core : Nat) (s : State) : Out :=
  match (s.core core).svc with
  | m :: _ =>
    if m.op = .steal then
      let s1 := popService s core
      match thiefOf s m.from_ with
      | none => .next s1
      | some (t, world) =>
        match stealBack s1 core m.world with
        | (s2, some r) => .next (s2.later Config.latMesh (.stealReplyArrival t ⟨world, some r⟩))
        | (s2, none) => .next (s2.later Config.latMesh (.stealReplyArrival t ⟨world, none⟩))
    else .next s
  | [] => .next s

/-- Whether a parked request is still parked at a die: an unserved synchronising load of one of its cores, a
keyed atomic, or a recorded contribution (R157, R385, R409). -/
def stillParked (s : State) (die : Nat) (p : ParkedReq) : Bool :=
  let mine (w : ReplyTo) : Bool :=
    (match w with | .remote m d i g _ => m == p.module && d == p.die && i == p.idx && g == p.gen | _ => false)
      || (p.module == s.moduleNo && w == .tag p.die p.idx p.gen)
  s.cores.any (fun q => dieOfCore q.1 == die && (q.2.waiters.any (fun w => mine w.who) || q.2.parkedLds.any (fun w => mine w.who)))
    || (s.die die).keyed.any (fun a =>
      match a.away, a.req.tag with
      | some (_, p), _ => mine (packetWho die p)
      | none, some (i, g) => mine (.tag (dieOfCore a.core) i g)
      | none, none => false)
    || (s.die die).red.any (fun q => q.2.state == .opened && q.2.arrived.any (fun c => mine c.from_))

/-- A hold reply restarts the timeout of its request (R382); one without a live tag is dropped. -/
def execHoldReply (die idx gen : Nat) (s : State) : Out :=
  let t := getTag s die idx
  match t.use with
  | .live who module _ =>
    if t.gen = gen then
      let due := s.cycle + Config.remoteTimeout
      .next ((setTag s die idx { t with use := .live who module due }).at_ due (.remoteTimeout die idx gen))
    else .next (lateReply s die idx gen)
  | _ => .next (lateReply s die idx gen)

/-- A target sends a hold reply for a request that it has parked, and again every packet lifetime (R382). -/
def execHoldReplyResend (die n : Nat) (s : State) : Out :=
  match (s.die die).parked.find? (·.n == n) with
  | none => .next s
  | some p =>
    if stillParked s die p then
      let s1 :=
        if p.module = s.moduleNo then s.later Config.latMesh (.holdReply p.die p.idx p.gen)
        else
          let pk := mkPacket s 0x06 1 0 (dieEndpoint s die) (p.module * 4194304 + p.die * 262144) p.idx p.gen 0 0 []
          (sendPacket s die pk).getD s
      .next (s1.at_ (s.cycle + Config.packetLifetime) (.holdReplyResend die n))
    else .next (s.modDie die (fun d => { d with parked := d.parked.filter (·.n != n) }))

end Sys2Proof.Machine
end

