-- ==== Sys2Proof/Machine/Unit.lean ====
section
/-! DEFINITION. The accesses of the matrix engine and the copy hart, their status codes and their completion
messages (06 R160, R163; 08 R194; 10 R228, R230, R231; 11 R237, R244, R251, R253; 21 R382). -/

namespace Sys2Proof.Machine

/-- Who makes an access: a job or a copy-hart request of a cluster, for a world and share of one of its cores. -/
structure UnitUser where
  who : ReplyTo
  cluster : Nat
  core : Nat
  num : Nat
  world : Nat
  lo : Nat
  hi : Nat
  /-- Its reads are served by its die's copies: those of a copy request; object words are read at their homes (R262, R322). -/
  copies : Bool := false
  deriving DecidableEq, Repr, Inhabited

/-- In place of a cause: no buffer holds the page, which has to be walked for. -/
def needsWalk : Nat := 256

/-- Where `n` bytes of one line or one aligned block stand, or the cause of the fault (R194, R299). -/
def unitTarget (s : State) (u : UnitUser) (va n : Nat) (write : Bool) : Except Nat Target :=
  if va < translatedBase then
    match lsFail u.lo u.hi va n with
    | none => .ok (.own va)
    | some _ => .error 0x11
  else
    match resolve s u.cluster u.world va with
    | .absent => .error 0x10
    | .malformed _ => .error 0x08
    | .integrity _ => .error 0x12
    | .missing => .error needsWalk
    | .leaf l => if refuses s l u.world va (if write then .store else .load) then .error 0x11 else .ok (targetOf s l va)

/-- `unitTarget` of an access that is about to be made: it uses its page, or its requester waits in the miss table and is
told when to ask again (R300, R302). -/
def unitFind (s : State) (u : UnitUser) (va n : Nat) (write : Bool) : State × Except Nat Target :=
  match unitTarget s u va n write with
  | .error c => (if c = needsWalk then queueMiss s u.cluster u.world va u.who else s, .error c)
  | .ok t => (if va < translatedBase then s else touchPage s u.cluster u.world va, .ok t)

/-- The bytes of a packet from an address up: no aligned unit of eight bytes and no line is cut (R251, R376). -/
def packetPart (pa n : Nat) : Nat :=
  if pa % 64 = 0 ∧ 64 ≤ n then 64
  else if pa % 8 = 0 then packetSize (Nat.min n (64 - pa % 64))
  else packetSize (Nat.min n (8 - pa % 8))

/-- How many bytes one request for a target carries: 16 to a local store, up to the end of an aligned unit of eight bytes
(R251), a packet to another module, all of it at a home or from a copy. -/
def unitSize (s : State) (u : UnitUser) (write : Bool) (t : Target) (n : Nat) : Nat :=
  match t with
  | .own off => Nat.min (16 - off % 8) n
  | .home _ => n
  | .peer _ pa => if write = false ∧ u.copies = true then Nat.min n (64 - pa % 64) else packetPart pa n
  | .aper m _ off => if m = s.moduleNo then Nat.min (16 - off % 8) n else packetPart off n

/-- A number for each copy hart and each engine of a cluster as a sender of active messages. -/
def unitSender (u : UnitUser) : Nat :=
  2 ^ 40 + u.cluster * 2 + (match u.who with | .job _ _ => 1 | _ => 0)

/-- The active message of an access to a local store. -/
def unitMsg (u : UnitUser) (a : UnitAcc) (off : Nat) (who : ReplyTo) : ActiveMsg :=
  { op := if a.add then .atomic 16 else if a.write then .store else .load, world := u.world, off := off, size := a.n, data := a.data, cmp := 0,
    sig := 0, acq := false, sender := unitSender u, from_ := who }

/-- The packet of an access to another module. -/
def unitPacket (s : State) (u : UnitUser) (a : UnitAcc) (dst idx gen addr swz : Nat) : Packet :=
  mkPacket s (if a.add then 0x03 else if a.write then 0x02 else 0x01) 0 u.world (ctxEndpoint s u.core u.num) dst idx gen
    (accessOp addr (sizeCode a.n) (if a.add then 16 else 0) swz 0 0) 0 (if a.write then flitOf a.data else [])

/-- Draw a tag for a request that leaves its die, and go on; or wait for one (R382). -/
def unitTag (s : State) (u : UnitUser) (a : UnitAcc) (module : Nat) (k : Nat → Nat → State → State) : State × UnitAcc :=
  let die := dieOfCluster u.cluster
  match drawTag s die u.who module with
  | some (idx, gen, s1) => (k idx gen s1, { a with sent := true, tag := some (idx, gen) })
  | none => (s.modDie die (fun d => { d with tagQueue := d.tagQueue ++ [u.who] }), a)

/-- Send an access on its way; the cause where no path leads there (R380). -/
def unitIssue (s : State) (u : UnitUser) (a : UnitAcc) : Except Nat (State × UnitAcc) :=
  let die := dieOfCluster u.cluster
  match a.tgt with
  | .own off => .ok (sendActive s u.core (unitMsg u a off u.who), { a with sent := true })
  | .home pa =>
    if homeDie pa = die then .ok (s.later Config.latReply (.remoteReply u.who .home 0), { a with sent := true })
    else
      .ok (unitTag s u a s.moduleNo (fun idx gen s1 =>
        if crossesDown s die (homeDie pa) then s1 else s1.later Config.latReply (.remoteReply (.tag die idx gen) .home 0)))
  | .peer m pa =>
    let dst := m * 4194304 + homeDie pa * 262144
    if !hasPath s die m then .error 0x17
    else if a.write = false ∧ u.copies = true then
      match serveAway s die u.world u.who m pa a.n with
      | (s1, some bs) => .ok (s1.later Config.latReply (.remoteReply u.who (.data bs) 0), { a with sent := true })
      | (s1, none) => .ok (s1, { a with sent := true })
    else
      .ok (unitTag s u a m (fun idx gen s1 =>
        let s2 := if a.write then peerStoreSent s1 die idx m pa a.n else s1
        (sendPacket s2 die (unitPacket s2 u a dst idx gen pa 0)).getD s2))
  | .aper m core off =>
    if m = s.moduleNo then
      if dieOfCore core = die then .ok (sendActive s core (unitMsg u a off u.who), { a with sent := true })
      else
        .ok (unitTag s u a m (fun idx gen s1 =>
          if crossesDown s die (dieOfCore core) then s1 else sendActive s1 core (unitMsg u a off (.tag die idx gen))))
    else if hasPath s die m then
      .ok (unitTag s u a m (fun idx gen s1 =>
        (sendPacket s1 die (unitPacket s1 u a (m * 4194304 + core * 8 + 6) idx gen (off % 65536) (off / 65536))).getD s1))
    else .error 0x17

/-- The copies of a die take bytes that one of its agents has stored (R261). -/
def copiesTake (s : State) (die pa : Nat) (bs : List Byte) : State :=
  (List.range (bs.length / 64 + 1)).foldl (fun t i =>
    let part := (bs.drop (64 * i)).take 64
    if part.isEmpty then t else updateCopies t die s.moduleNo (pa + 64 * i) part) s

/-- A store of an agent of a die at its home, or an atomic add of eight bytes (R260, R261, R326). -/
def homeStore (s : State) (die : Nat) (self : Option Nat) (pa : Nat) (add : Bool) (bs : List Byte) : Except Nat State :=
  if add then
    match homeRead s pa 8 with
    | .error l => .error l
    | .ok (t, old) =>
      let v := toLe ((leNat old + leNat bs) % 2 ^ 64) 8
      (homeWrite t self pa v).map (fun x => copiesTake x die pa v)
  else (homeWrite s self pa bs).map (fun x => copiesTake x die pa bs)

/-- The instant of an access at its home (R260 to R263): the bytes read, none while a copy is filled for them, or the cause
of the fault. -/
def unitPerform (s : State) (u : UnitUser) (self : Option Nat) (a : UnitAcc) : Except (Nat × State) (State × Option (List Byte)) :=
  let die := dieOfCluster u.cluster
  match a.tgt with
  | .home pa =>
    if a.write then
      match homeStore s die self pa a.add a.data with
      | .ok t => .ok (t, some [])
      | .error l => .error (0x12, integrityRecord s l)
    else if homeDie pa ≠ die ∧ u.copies = true then
      match serveCopy s die u.world u.who pa a.n with
      | .ok r => .ok r
      | .error l => .error (0x12, integrityRecord s l)
    else
      match homeRead s pa a.n with
      | .ok (t, bs) => .ok (t, some bs)
      | .error l => .error (0x12, integrityRecord s l)
  | _ => .ok (s, some [])

/-- The sectors that a write has written (R268). -/
def unitSig (s : State) (a : UnitAcc) : Sig :=
  let of (m pa : Nat) : Sig :=
    (List.range (a.n / 256 + 1)).foldl (fun x i => x ||| bytesSig m (pa + 256 * i) (Nat.min 256 (a.n - 256 * i))) 0
  if a.write then
    match a.tgt with
    | .home pa => of s.moduleNo pa
    | .peer m pa => of m pa
    | _ => 0
  else 0

/-- The completion of a request: a TOKEN message to the requester's core, with the slot that issued the request, the
register and the context number (R162, R163, R231). `who` is the request. -/
def sendToken (s : State) (core slot num reg : Nat) (status : Word) (who : ReplyTo) (world : Nat) (sig : Sig) : State :=
  s.later Config.latMesh (.tokenMessageArrival core
    { typ := 1, mbox := 0, sender := s.moduleNo * 4194304 + core * 8, world := world,
      d1 := BitVec.ofNat 64 (num % 65536 * 65536 + reg * 256 + slot % 8), d2 := status, d3 := 0,
      sig := sig, rel := true, from_ := who })

/-- What a .wait form waits for: its token register, or its request where it names none (R62, R245). -/
def waitKey (rd id : Nat) : Nat := if rd = 0 then 32 + id else rd

/-- The waits of the contexts of a cluster, oldest first, by core and context number. -/
def clusterWaits (s : State) (cl : Nat) (p : Wait → Bool) : List (Nat × Nat) :=
  let rec ins (x : Nat × Nat × Nat) : List (Nat × Nat × Nat) → List (Nat × Nat × Nat)
    | [] => [x]
    | y :: ys => if x.1 < y.1 then x :: y :: ys else y :: ins x ys
  let live := (s.slots.filter (fun q => clusterOf q.1 == cl && p q.2.wait)).map
    (fun q => (q.2.waitSince, coreOf q.1, q.2.ctxNum))
  let swapped := (((s.cluster cl).cache ++ (s.cluster cl).spilled).filter (fun e => !e.lost && p e.slot.wait)).map
    (fun e => (e.slot.waitSince, e.core, e.slot.ctxNum))
  ((live ++ swapped).foldl (fun l x => ins x l) []).map (·.2)

end Sys2Proof.Machine
end

