-- ==== Sys2Proof/Machine/Ring.lean ====
section
/-! DEFINITION. The rings of a cluster: checks, reservations, publication, pops, configuration and QPUSH (10 R220
to R223, R236; 11 R243, R247 to R249). -/

namespace Sys2Proof.Machine

def ringOf (c : Cluster) (q : Nat) : Ring := (c.rings.toList[q]?).getD Ring.reset

/-- Change one ring of a cluster. -/
def modRing (s : State) (cl q : Nat) (f : Ring → Ring) : State :=
  s.modCluster cl (fun c => { c with rings := c.rings.mapFinIdx (fun i r _ => if i = q then f r else r) })

/-- The distance between two counters. -/
def tilesFrom (a b : Nat) : Nat := (b + 2 ^ 32 - a) % 2 ^ 32

def bump32 (a n : Nat) : Nat := (a + n) % 2 ^ 32

def Ring.tileBytes (r : Ring) : Nat := r.tsz * 64

/-- The cluster-store byte at which tile `n` lies (R220). -/
def Ring.tileAt (r : Ring) (n : Nat) : Nat := r.base * 256 + n % r.cap * r.tileBytes

/-- The checks of a named ring, with the tile size that the request needs, if any (R243): the code, 0 where they
pass. A ring whose state is uncorrectable fails its request with the integrity code until it is configured again
(R236; mark DEDUCED, log entry 107). -/
def ringCheck (s : State) (cl q world : Nat) (size : Option Nat) : Nat :=
  let r := ringOf (s.cluster cl) q
  if s.poison.contains (.ring cl q) then 0x09
  else if r.cap = 0 then 0x02
  else if r.world ≠ world then 0x01
  else if (size.map (fun n => decide (n ≠ r.tileBytes))).getD false then 0x03
  else 0

/-! ## Reservations (R221, R249) -/

def askIns (cyc rank : Nat) (x : RingReq) : List (Nat × Nat × RingReq) → List (Nat × Nat × RingReq)
  | [] => [(cyc, rank, x)]
  | (c, k, y) :: r => if cyc < c ∨ (cyc = c ∧ rank < k) then (cyc, rank, x) :: (c, k, y) :: r else (c, k, y) :: askIns cyc rank x r

/-- A reservation request reaches a ring in this cycle; it is granted from the next on. -/
def askRing (s : State) (cl q rank : Nat) (x : RingReq) : State :=
  (modRing s cl q (fun r => { r with waiting := askIns s.cycle rank x r.waiting })).next1 (.ringReservationGrant cl q)

/-- The rank of the copy hart, after every core. -/
def copyRank : Nat := 8

/-! ## Publication and pops (R221, R222) -/

/-- Move a counter past every number of a list that follows it, one by one. -/
def runPast (n : Nat) (done : List Nat) : Nat → Nat × List Nat
  | 0 => (n, done)
  | fuel + 1 => if done.contains n then runPast (bump32 n 1) (done.filter (· != n)) fuel else (n, done)

def Ring.publish (r : Ring) (n : Nat) : Ring :=
  let l := r.published ++ [n]
  let p := runPast r.tail l l.length
  { r with tail := p.1, published := p.2 }

def Ring.retire (r : Ring) (ns : List Nat) : Ring :=
  let l := r.retired ++ ns
  let p := runPast r.head l l.length
  { r with head := p.1, retired := p.2 }

/-- A soft error of a cluster's storage is counted (R236). -/
def countCluster (cl : Nat) (s : State) : State := s.modCluster cl (fun c => { c with softErrors := c.softErrors + 1 })

/-- The single-bit errors of a ring's state and of tiles of it are corrected as they are read (R236). -/
def correctTiles (s : State) (cl q : Nat) (ns : List Nat) : State :=
  if s.flipped.isEmpty then s
  else
    let r := ringOf (s.cluster cl) q
    correct s (.ring cl q :: ns.flatMap (fun n => (List.range r.tsz).map (fun i => .store cl (r.tileAt n / 64 + i)))) (countCluster cl)

/-- Write a tile into the cluster store; what is written is sound. -/
def writeTile (s : State) (cl q n : Nat) (bs : List Byte) : State :=
  let r := ringOf (s.cluster cl) q
  let a := r.tileAt n
  let s1 := s.modCluster cl (fun c => { c with store := cellWrite c.store a bs })
  { s1 with poison := s1.poison.filter (fun p =>
      match p with
      | .store c u => !(c == cl && decide (a ≤ u * 64) && decide (u * 64 + 64 ≤ a + bs.length))
      | _ => true) }

/-- The bytes of a tile, or none where one of its words is uncorrectable (R236). -/
def readTile (s : State) (cl q n : Nat) : Option (List Byte) :=
  let r := ringOf (s.cluster cl) q
  let a := r.tileAt n
  if s.poison.any (fun p =>
      match p with
      | .store c u => c == cl && decide (a ≤ u * 64) && decide (u * 64 < a + r.tileBytes)
      | _ => false) then none
  else some (cellRead (s.cluster cl).store a r.tileBytes)

/-! ## Configuration (R247) -/

/-- Nothing reserved or claimed is still to be published or retired. -/
def Ring.quiet (r : Ring) : Bool := r.resv == r.tail && r.claim == r.head

/-- The new state of a ring, or the code of the first check that fails. -/
def ringConfig (c : Cluster) (q world : Nat) (w : Word) : Except Nat Ring :=
  let r := ringOf c q
  let n := w.toNat
  let cap := bits n 28 17
  let tsz := bits n 16 10
  let base := bits n 9 0
  let lo := base * 256
  let hi := lo + cap * tsz * 64
  if r.cap ≠ 0 ∧ r.world ≠ world then .error 0x01
  else if bits n 63 34 ≠ 0 ∨ tsz = 0 ∨ 64 < tsz ∨ 3072 < cap ∨ 767 < base then .error 0x05
  else if r.head ≠ r.tail then .error 0x0D
  else if 196608 < hi ∨ (List.range 16).any (fun i =>
      let o := ringOf c i
      i != q && o.cap != 0 && cap != 0 && decide (lo < o.base * 256 + o.cap * o.tileBytes) && decide (o.base * 256 < hi)) then .error 0x0E
  else .ok { Ring.reset with world := world, cap := cap, tsz := tsz, base := base, waiting := r.waiting, config := r.config }

/-- QCFG (R247): the configuration waits at the ring. -/
def execQcfg (n : BitVec 4) (d a : Reg) (s : State) : Out :=
  guardX s d <|
    let cl := clusterOf s.cur
    let s1 := modRing (s.modMe (·.startToken d)) cl n.toNat (fun r => { r with
      config := r.config ++ [(coreOf s.cur, s.me.ctxNum, d.toNat, s.me.world, s.rx a)] })
    .next (s1.next1 (.qcfgApply cl n.toNat))

/-- A ring has become quiet or has room: what waits for that goes on. -/
def ringMoves (s : State) (cl q : Nat) : State :=
  let r := ringOf (s.cluster cl) q
  let s1 := if r.config.isEmpty then s else s.next1 (.qcfgApply cl q)
  if r.waiting.isEmpty then s1 else s1.next1 (.ringReservationGrant cl q)

/-! ## QPUSH (R248) -/

/-- The window of a local-store address: offsets at or above 0x1_0000 are the swizzled one. -/
def sameWindow (a n : Nat) : Bool := a / 65536 == (a + n - 1) / 65536

def execQpush (n : BitVec 4) (d a : Reg) (s : State) : Out :=
  guardX s d <|
    let k := s.cur
    let sl := s.me
    let cl := clusterOf k
    let q := n.toNat
    let code := ringCheck s cl q sl.world none
    let size := (ringOf (s.cluster cl) q).tileBytes
    let ea := addr57 (s.rx a)
    let vas := (List.range size).map (ea + ·)
    if code ≠ 0 then
      .next ((s.modMe (·.startToken d)).next1 (.completionWrite (coreOf k) sl.ctxNum d.toNat (BitVec.ofNat 64 code) 0))
    else if ea % 16 ≠ 0 then trapOut s 7 0x04 (BitVec.ofNat 64 ea)
    else if translatedBase ≤ ea then trapOut s 7 0x11 (BitVec.ofNat 64 ea)
    else
      match localFault s vas with
      | some (c, v) => trapOut s 7 c (BitVec.ofNat 64 v)
      | none =>
        let r := { MemReq.new .qpush 0 d.toNat vas with cmp := BitVec.ofNat 64 q }
        .next (askRing (park s k .waitEngine (.reservation q r)) cl q (coreOf k % 8) (.slot (coreOf k) sl.ctxNum))

/-- The tile of a QPUSH has been read: the bundle commits, and the tile is published within 8 cycles (R248). -/
def qpushDone (s : State) (c num : Nat) (r : MemReq) : State :=
  let cl := clusterOfCore c
  let q := r.cmp.toNat
  let idx := r.extra.toNat
  let s1 := finishCtx s c num (·.startToken (regOf r.rd))
  let lat := Nat.min (Config.latency Config.latEngine s1.free) 7
  ((writeTile s1.tick cl q idx r.bytes).at_ (s1.cycle + 1 + lat) (.tilePublish cl q idx)).at_ (s1.cycle + 1 + lat)
    (.completionWrite c num r.rd 0 0)

/-- The reservation of a QPUSH has been made: its tile is read, with passes in the cycles that follow (R248); a
swapped context's tile is read at once. -/
def qpushGranted (s : State) (c num idx : Nat) : State :=
  match (ctxOf s c num).map Slot.wait with
  | some (.reservation _ r) =>
    let r1 := { r with extra := BitVec.ofNat 64 idx, chunks := chunksOf (physOf r.vas) }
    match ctxSlot s c num with
    | some k => park s k .waitMem (.mem r1)
    | none =>
      let bs := lsRead s c (physOf r.vas)
      qpushDone s c num { r1 with chunks := [], got := (List.range bs.length).map (fun i => (i, (bs[i]?).getD 0)) }
  | _ => s

end Sys2Proof.Machine
end

