-- ==== Sys2Proof/Machine/Matrix.lean ====
section
/-! DEFINITION. The arithmetic of a matrix job: tiles, their elements, chunk-exact sums and results (05 R142 to
R144; 11 R239, R240, R244, R246). -/

namespace Sys2Proof.Machine

/-! ## Tiles (R224, R239) -/

/-- K per tile of an A type; MMAM is type 8. -/
def tileK (t : Nat) : Nat := if t = 2 ∨ t = 4 then 128 else if t = 5 ∨ t = 6 ∨ t = 8 then 32 else if t = 7 then 16 else 64

def tileA (t : Nat) : Nat := if t = 2 then 1216 else if t = 3 ∨ t = 4 then 1088 else if t = 8 then 512 else 1024
def tileB (t : Nat) : Nat := if t = 2 ∨ t = 4 then 2048 else if t = 8 then 512 else 1024

/-- Cycles that one tile of K lasts. -/
def tileCycles (t : Nat) : Nat := if t = 7 then 128 else if t = 8 then 32 else 64

/-- Cycles from one chunk boundary to the next. -/
def boundaryCycles (t : Nat) : Nat := if t = 2 ∨ t = 4 then 8 else if t = 7 then 32 else if t = 8 then 1 else 16

/-- Elements of one chunk (R143). -/
def chunkLen (t : Nat) : Nat := if t = 5 ∨ t = 6 then 8 else if t = 7 then 4 else 16

/-- The B types that an A type accepts (R239). -/
def acceptsB (t b : Nat) : Bool := if t = 0 ∨ t = 1 ∨ t = 2 then b == 0 || b == 1 else b == 0

/-- Bytes of a result tile by format (R239). -/
def resultBytes (modular : Bool) (ofmt : Nat) : Nat :=
  if modular then 64 else if ofmt = 0 then 1024 else if ofmt = 1 then 512 else 256

/-! ## Elements (R240) -/

def byteN (bs : List Byte) (i : Nat) : Nat := ((bs[i]?).getD 0).toNat

def numAt (bs : List Byte) (i n : Nat) : Nat := leNat ((bs.drop i).take n)

/-- The nibble of code (i, k). -/
def nibbleAt (bs : List Byte) (i k : Nat) : Nat :=
  let b := byteN bs (64 * i + k / 2)
  if k % 2 = 0 then b % 16 else b / 16

/-- A pattern of binary32 with the flags of its decoding. -/
def fromF32 (p : Nat × BitVec 5) : FVal × BitVec 5 := (decodeF Fmt.f32 p.1, p.2)

/-- Element (i, k) of an A tile. -/
def elemA (t : Nat) (bs : List Byte) (i k : Nat) : FVal × BitVec 5 :=
  if t = 0 then (decodeF Fmt.e4m3 (byteN bs (64 * i + k)), 0)
  else if t = 1 then (decodeF Fmt.e5m2 (byteN bs (64 * i + k)), 0)
  else if t = 2 then
    fromF32 (qn4Value (nibbleAt bs i k) (byteN bs (1024 + 2 * i + k / 64)) (numAt bs (1056 + 8 * i + 4 * (k / 64)) 4))
  else if t = 3 then
    fromF32 (scaledInt (byteN bs (1024 + 2 * i)) (signedOf 8 (byteN bs (64 * i + k))) (signedOf 8 (byteN bs (1025 + 2 * i))))
  else if t = 4 then
    let b := 1024 + 4 * i + 2 * (k / 64)
    fromF32 (scaledInt (byteN bs b) (signedOf 4 (nibbleAt bs i k)) (signedOf 8 (byteN bs (b + 1))))
  else if t = 5 then (decodeF Fmt.bf16 (numAt bs (2 * (32 * i + k)) 2), 0)
  else if t = 6 then (decodeF Fmt.f16 (numAt bs (2 * (32 * i + k)) 2), 0)
  else (decodeF Fmt.f32 (numAt bs (4 * (16 * i + k)) 4), 0)

/-- Element (k, n) of a B tile. -/
def elemB (t btype : Nat) (bs : List Byte) (k n : Nat) : FVal :=
  if t ≤ 4 then decodeF (if btype = 1 then Fmt.e5m2 else Fmt.e4m3) (byteN bs (n * tileK t + k))
  else if t = 5 then decodeF Fmt.bf16 (numAt bs (2 * (32 * n + k)) 2)
  else if t = 6 then decodeF Fmt.f16 (numAt bs (2 * (32 * n + k)) 2)
  else decodeF Fmt.f32 (numAt bs (4 * (16 * n + k)) 4)

/-! ## Chunk-exact sums (R143, R144) -/

/-- One chunk: the products and the accumulator summed exactly and rounded once. A quiet NaN beside infinities of both signs
is the canonical NaN without NV, by the first bullet of R144 and against the second; mark DEDUCED (log entry 109). -/
def chunkSum (acc : Nat) (ab : List (FVal × FVal)) : Nat × BitVec 5 :=
  let a := decodeF Fmt.f32 acc
  let ps := ab.map (fun p => mulF p.1 p.2)
  let vs := a :: ps.map (·.1)
  let nv := ps.foldl (fun f p => f ||| p.2) (flagIf a.isSnan flNV)
  if vs.any (·.isNan) then (Fmt.f32.nanPat, nv)
  else
    let isInf (neg : Bool) (v : FVal) : Bool := match v with | .inf n => n == neg | _ => false
    if vs.any (isInf true) ∧ vs.any (isInf false) then (Fmt.f32.nanPat, flNV)
    else if vs.any (isInf true) then (withSign Fmt.f32 true Fmt.f32.infPat, 0)
    else if vs.any (isInf false) then (Fmt.f32.infPat, 0)
    else roundVal Fmt.f32 rne ((ps.map (·.1)).foldl (fun x v => (addF rne x v).1) a)

/-- Chunks in ascending K; the last holds the remainder. -/
def chunkExact (n acc : Nat) (fl : BitVec 5) (ab : List (FVal × FVal)) : Nat → Nat × BitVec 5
  | 0 => (acc, fl)
  | fuel + 1 =>
    if ab.isEmpty then (acc, fl)
    else
      let r := chunkSum acc (ab.take n)
      chunkExact n r.1 (fl ||| r.2) (ab.drop n) fuel

/-- The rounding of an element into the result format (R131, R133). -/
def resultElem (ofmt acc : Nat) : Nat × BitVec 5 :=
  if ofmt = 0 then (acc, 0)
  else
    let f := if ofmt = 1 then Fmt.bf16 else if ofmt = 2 then Fmt.e4m3 else Fmt.e5m2
    finishF f rne (decodeF Fmt.f32 acc, 0)

/-- A floating-point job: its result bytes and flags. -/
def matrixResult (t btype ofmt : Nat) (as bs : List (List Byte)) (c : Option (List Byte)) : List Byte × BitVec 5 :=
  let kt := tileK t
  let rows := (List.range 16).map (fun i => as.flatMap (fun a => (List.range kt).map (elemA t a i)))
  let cols := (List.range 16).map (fun n => bs.flatMap (fun b => (List.range kt).map (fun k => elemB t btype b k n)))
  let dec := rows.foldl (fun f r => r.foldl (fun g e => g ||| e.2) f) 0
  let size := if ofmt = 0 then 4 else if ofmt = 1 then 2 else 1
  let elems := (List.range 16).flatMap (fun i => (List.range 16).map (fun n =>
    let c0 := match c with | some l => numAt l (4 * (16 * i + n)) 4 | none => 0
    let ab := (((rows[i]?).getD []).map (·.1)).zip ((cols[n]?).getD [])
    let acc := chunkExact (chunkLen t) c0 0 ab ab.length
    let r := resultElem ofmt acc.1
    (r.1, acc.2 ||| r.2)))
  (elems.flatMap (fun e => toLe e.1 size), elems.foldl (fun f e => f ||| e.2) dec)

/-- A modular job (R142, R246). -/
def modularResult (q : Nat) (as bs : List (List Byte)) (c : Option (List Byte)) : List Byte :=
  let elem (x y : Nat) : Nat :=
    let c0 := match c with | some l => numAt l (8 * (2 * x + y)) 8 % q | none => 0
    (as.zip bs).foldl (fun acc p =>
      (List.range 32).foldl (fun z k =>
        (z + (numAt p.1 (8 * (32 * x + k)) 8 % q) * (numAt p.2 (8 * (32 * y + k)) 8 % q)) % q) acc) c0
  toLe (elem 0 0) 8 ++ toLe (elem 0 1) 8 ++ toLe (elem 1 0) 8 ++ toLe (elem 1 1) 8 ++ List.replicate 32 0

end Sys2Proof.Machine
end

