-- ==== Sys2Proof/Machine/Cluster.lean ====
section
/-! DEFINITION. The matrix engine of a cluster: acceptance, readiness, planes, ramps, retirement; reservation
grants and tile publication (10 R221 to R229, R236; 11 R241 to R246, R249, R250; 12 R258). -/

namespace Sys2Proof.Machine

/-! ## Jobs -/

namespace Job
def d (j : Job) : Nat := j.desc.toNat
def btype (j : Job) : Nat := bits j.d 21 20
def ofmt (j : Job) : Nat := bits j.d 19 18
def cin (j : Job) : Nat := bits j.d 17 16
def qd (j : Job) : Nat := bits j.d 15 12
def qc (j : Job) : Nat := bits j.d 11 8
def qb (j : Job) : Nat := bits j.d 7 4
def qa (j : Job) : Nat := bits j.d 3 0
/-- The K steps, in cycles. -/
def total (j : Job) : Nat := j.nk * tileCycles j.aty
def outBytes (j : Job) : Nat := resultBytes j.modular j.ofmt
def accBytes (j : Job) : Nat := if j.modular then 64 else 1024

/-- How many tiles of a ring the job claims, whichever operands name it (R225). -/
def need (j : Job) (q : Nat) : Nat :=
  (if j.qa = q then j.nk else 0) + (if j.qb = q then j.nk else 0) + (if j.cin = 1 ∧ j.qc = q then 1 else 0)

/-- The rings of the operands, in the order of the checks. -/
def operands (j : Job) : List Nat := [j.qa, j.qb] ++ (if j.cin = 1 then [j.qc] else [])

/-- The named rings with the tile sizes that the job needs. -/
def named (j : Job) : List (Nat × Nat) :=
  [(j.qa, tileA j.aty), (j.qb, tileB j.aty)] ++ (if j.cin = 1 then [(j.qc, j.accBytes)] else [])
    ++ (if j.mem.isNone then [(j.qd, j.outBytes)] else [])

/-- Reserved bits and values of the descriptor (R242, R246). -/
def badDesc (j : Job) : Bool :=
  bits j.d 63 22 != 0 || !acceptsB j.aty j.btype || (j.modular && j.ofmt != 0) || decide (1 < j.cin)
    || (j.mem.isSome && j.qd != 0) || (j.cin == 0 && j.qc != 0)
    || (j.mem.isNone && (j.qd == j.qa || j.qd == j.qb))
end Job

/-- The checks of the rings that a job names: the code, 0 where they pass. -/
def jobRings (s : State) (j : Job) : Nat :=
  let cl := clusterOfCore j.core
  match j.named.findSome? (fun p => let c := ringCheck s cl p.1 j.world (some p.2); if c = 0 then none else some c) with
  | some c => c
  | none => if j.operands.any (fun q => decide ((ringOf (s.cluster cl) q).cap < j.need q)) then 0x04 else 0

/-- The checks of R243 in their order: the code, 0 where the job is accepted. -/
def jobCheck (s : State) (j : Job) : Nat :=
  if j.badDesc then 0x05
  else if j.nk = 0 then 0x0C
  else if jobRings s j ≠ 0 then jobRings s j
  else
    match j.mem with
    | some a => if a % j.outBytes = 0 then 0 else 0x0F
    | none => 0

/-- The tiles that the job claims have been published beyond the claim counters (R243). -/
def jobOperands (c : Cluster) (j : Job) : Bool :=
  j.operands.all (fun q => let r := ringOf c q; decide (j.need q ≤ tilesFrom r.claim r.tail))

/-- Ready to start (R243). -/
def jobReady (c : Cluster) (j : Job) : Bool := !j.started && jobOperands c j && (j.mem.isSome || j.resv.isSome)

def Engine.jobs (e : Engine) : List Job := e.shadow ++ e.normal
def Engine.find (e : Engine) (id : Nat) : Option Job := e.jobs.find? (·.id == id)

def modEngine (s : State) (cl : Nat) (f : Engine → Engine) : State := s.modCluster cl (fun c => { c with engine := f c.engine })

def modJob (s : State) (cl id : Nat) (f : Job → Job) : State :=
  modEngine s cl (fun e => { e with
    normal := e.normal.map (fun j => if j.id = id then f j else j)
    shadow := e.shadow.map (fun j => if j.id = id then f j else j) })

/-- The oldest shadow job that has not started. -/
def shadowHead (e : Engine) : Option Job := e.shadow.find? (fun j => !j.started)

def shadowReady (c : Cluster) : Option Job := (shadowHead c.engine).filter (jobReady c)

/-- The normal job that starts next: round-robin over cores, each core's jobs in issue order (R225). -/
def normalPick (c : Cluster) : Option Job :=
  (List.range 8).findSome? (fun i =>
    let core := (c.engine.lastCore + 1 + i) % 8
    (c.engine.normal.find? (fun j => !j.started && j.core % 8 == core)).filter (jobReady c))

/-- Something that the engine would run now (R226). -/
def hasWork (c : Cluster) : Bool := (shadowReady c).isSome || c.engine.paused.isSome || (normalPick c).isSome

/-- Ramp cycles (R229, R232). -/
def rampCycles (c : Cluster) : Nat := let n := bits c.stagger.toNat 15 8; if n = 0 then 32 else 8 * n

/-! ## Reservation requests of jobs (R243, R249) -/

/-- Accepted jobs whose operands have been published ask for their result tile, in core order. -/
def askJobs (s : State) (cl : Nat) : State :=
  let ready := (s.cluster cl).engine.jobs.filter (fun j => j.mem.isNone && !j.asked && jobOperands (s.cluster cl) j)
  ready.foldl (fun t j => askRing (modJob t cl j.id (fun x => { x with asked := true })) cl j.qd (j.core % 8) (.job j.id)) s

/-! ## The engine's time line (R226, R229, R258) -/

/-- K steps made by the running job up to the start of this cycle, in cycles. -/
def jobDone (s : State) (j : Job) : Nat := j.doneCycles + (s.cycle - j.since)

/-- The cycle after the last K step of a running job. -/
def jobEnd (j : Job) : Nat := j.since + (j.total - j.doneCycles)

/-- A ready shadow job pauses the running normal job at its next chunk boundary (R226). -/
def pauseAt (s : State) (cl : Nat) : State :=
  let c := s.cluster cl
  match c.engine.running.bind (fun id => c.engine.normal.find? (·.id == id)), shadowReady c with
  | some j, some _ =>
    let step := boundaryCycles j.aty
    let b := j.since + ((jobDone s j / step + 1) * step - j.doneCycles)
    if b < jobEnd j then s.at_ b (.shadowPause cl) else s
  | _, _ => s

/-- The engine takes note of work that has come up (R226, R229). -/
def engineWake (s : State) (cl : Nat) : State :=
  let c := s.cluster cl
  match c.engine.ramp with
  | .idle =>
    if hasWork c then
      let u := s.cycle + rampCycles c
      (modEngine s cl (fun e => { e with ramp := .up u 0 })).at_ u (.engineRampUpEnd cl)
    else s
  | .up _ _ => s
  | .on => if c.engine.running.isNone then s.next1 (.matrixJobStart cl) else pauseAt s cl
  | .warm _ | .down _ => if hasWork c then s.next1 (.matrixJobStart cl) else s

/-- Claim the tiles of a job and start its K steps now (R222, R227). -/
def startJob (s : State) (cl : Nat) (j : Job) : State :=
  let claim (t : State) (q n : Nat) : State × Nat :=
    (modRing t cl q (fun r => { r with claim := bump32 r.claim n }), (ringOf (t.cluster cl) q).claim)
  let (s1, ca) := claim s j.qa j.nk
  let (s2, cb) := claim s1 j.qb j.nk
  let (s3, cc) := if j.cin = 1 then claim s2 j.qc 1 else (s2, 0)
  let s4 := modJob s3 cl j.id (fun x => { x with
    started := true, claimA := ca, claimB := cb, claimC := cc, since := s.cycle, doneCycles := 0 })
  let s5 := modEngine s4 cl (fun e => { e with
    running := some j.id, ramp := .on, lastCore := if j.shadow then e.lastCore else j.core % 8 })
  pauseAt (s5.at_ (s.cycle + j.total) (.matrixJobStart cl)) cl

/-- The end of a burst: warm while a warm period runs, else the ramp-down. -/
def endBurst (s : State) (cl : Nat) : State :=
  let c := s.cluster cl
  if s.cycle < c.engine.warmUntil then
    (modEngine s cl (fun e => { e with ramp := .warm e.warmUntil })).at_ c.engine.warmUntil (.engineWarmEnd cl)
  else
    let u := s.cycle + rampCycles c
    (modEngine s cl (fun e => { e with ramp := .down u })).at_ u (.engineRampDownEnd cl)

/-- Jobs that have not started and whose entry is uncorrectable are dropped, and their slots are posted to the steward; a
result tile that one has reserved is published as zeros (R236). -/
def dropBadJobs (s : State) (cl : Nat) : State :=
  if s.poison.isEmpty then s
  else
    ((s.cluster cl).engine.jobs.filter (fun j => !j.started && s.poison.contains (.job cl j.id))).foldl (fun t j =>
      let t1 := dropPoisoned t (.job cl j.id) (dieOfCluster cl) (s.moduleNo * 4194304 + j.core * 8 + j.slot) (BitVec.ofNat 64 j.id)
      let t2 := match j.resv with
        | some idx => modRing (writeTile t1 cl j.qd idx (List.replicate j.outBytes 0)) cl j.qd (fun r => r.publish idx)
        | none => t1
      (modEngine t2 cl (fun e => { e with
        normal := e.normal.filter (·.id != j.id), shadow := e.shadow.filter (·.id != j.id) })).next1
          (.remoteReply (.job cl j.id) .done 0)) s

/-- Choose what the engine runs from this cycle on: a shadow job, the paused job once no shadow job is left to run, a
normal job, or nothing (R226, R258). -/
def engineChoose (s0 : State) (cl : Nat) : State :=
  let s := dropBadJobs s0 cl
  let c := s.cluster cl
  match shadowReady c with
  | some j => startJob s cl j
  | none =>
    if c.engine.paused.isSome then (if (shadowHead c.engine).isNone then s.at_ s.cycle (.normalJobResume cl) else s)
    else
      match normalPick c with
      | some j => startJob s cl j
      | none => if c.engine.ramp = .on then endBurst s cl else s

/-- The running job's K steps are over, if they are: its result is written in the 8 cycles that follow (R244). -/
def endSteps (s : State) (cl : Nat) : State :=
  let e := (s.cluster cl).engine
  match e.running.bind e.find with
  | some j =>
    if jobEnd j ≤ s.cycle then
      (modEngine s cl (fun x => { x with running := none })).at_ (jobEnd j + 8) (.matrixJobRetire cl j.id)
    else s
  | none => s

/-- A job starts: at the end of the previous job's steps, or at once while the engine is warm or ramps down. -/
def execMatrixJobStart (cluster : Nat) (s : State) : Out :=
  let s1 := endSteps s cluster
  let e := (s1.cluster cluster).engine
  if e.running.isSome then .next s1
  else
    match e.ramp with
    | .idle | .up _ _ => .next (engineWake s1 cluster)
    | .on | .warm _ | .down _ => .next (engineChoose s1 cluster)

/-- A normal job pauses at a chunk boundary, and the shadow job starts (R226). -/
def execShadowPause (cluster : Nat) (s : State) : Out :=
  let c := s.cluster cluster
  match c.engine.running.bind (fun id => c.engine.normal.find? (·.id == id)), shadowReady c with
  | some j, some _ =>
    if s.cycle < jobEnd j ∧ jobDone s j % boundaryCycles j.aty = 0 ∧ j.since < s.cycle then
      let s1 := modJob s cluster j.id (fun x => { x with doneCycles := jobDone s j })
      .next (engineChoose (modEngine s1 cluster (fun e => { e with running := none, paused := some j.id })) cluster)
    else .next s
  | _, _ => .next s

/-- The paused job goes on, with its accumulator and progress (R226). -/
def execNormalJobResume (cluster : Nat) (s : State) : Out :=
  let c := s.cluster cluster
  match c.engine.running, c.engine.paused.bind c.engine.find, shadowHead c.engine with
  | none, some j, none =>
    let s1 := modJob s cluster j.id (fun x => { x with since := s.cycle })
    let s2 := modEngine s1 cluster (fun e => { e with running := some j.id, paused := none })
    .next (s2.at_ (s.cycle + (j.total - j.doneCycles)) (.matrixJobStart cluster))
  | none, some _, some _ => .next (engineChoose s cluster)
  | _, _, _ => .next s

/-- The end of a ramp-up: a ready job starts, or the engine is warm (R229). -/
def execEngineRampUpEnd (cluster : Nat) (s : State) : Out :=
  match (s.cluster cluster).engine.ramp with
  | .up u _ =>
    if u ≤ s.cycle then .next (engineChoose (modEngine s cluster (fun e => { e with ramp := .on })) cluster) else .next s
  | _ => .next s

/-- The end of a warm period: the ramp-down begins (R229). -/
def execEngineWarmEnd (cluster : Nat) (s : State) : Out :=
  match (s.cluster cluster).engine.ramp with
  | .warm u => if u ≤ s.cycle then .next (endBurst s cluster) else .next s
  | _ => .next s

/-- The end of a ramp-down: the engine is idle (R229). -/
def execEngineRampDownEnd (cluster : Nat) (s : State) : Out :=
  match (s.cluster cluster).engine.ramp with
  | .down u =>
    if u ≤ s.cycle then .next (engineWake (modEngine s cluster (fun e => { e with ramp := .idle })) cluster) else .next s
  | _ => .next s

/-- MHINT (R229, R250). The warm period of an MHINT of n cycles in cycle m ends n cycles after it: m + n is the first cycle
of the ramp-down, as the cycles 1 to n after the hint are the warm ones; mark DESIGN CHOICE (log entry 112). -/
def execMhint (a : Reg) (s : State) : Out :=
  let n := Nat.min (s.rx a).toNat 65535
  let cl := clusterOf s.cur
  let c := s.cluster cl
  if n = 0 then .next s
  else
    match c.engine.ramp with
    | .idle =>
      let u := s.cycle + rampCycles c
      .next ((modEngine s cl (fun e => { e with ramp := .up u n, warmUntil := u + n })).at_ u (.engineRampUpEnd cl))
    | .up _ _ | .on => .next (modEngine s cl (fun e => { e with warmUntil := Nat.max e.warmUntil (s.cycle + n) }))
    | .warm u =>
      if u < s.cycle + n then
        .next ((modEngine s cl (fun e => { e with warmUntil := s.cycle + n, ramp := .warm (s.cycle + n) })).at_ (s.cycle + n) (.engineWarmEnd cl))
      else .next s
    | .down _ =>
      .next ((modEngine s cl (fun e => { e with warmUntil := s.cycle + n, ramp := .warm (s.cycle + n) })).at_ (s.cycle + n) (.engineWarmEnd cl))

/-! ## Acceptance (R225, R243, R245) -/

def hasRoom (s : State) (j : Job) : Bool :=
  let e := (s.cluster (clusterOfCore j.core)).engine
  if j.shadow then decide (e.shadow.length < 4)
  else decide (e.normal.length < 32) && decide ((e.normal.filter (·.core == j.core)).length < 4)

/-- A job reaches its queue: accepted, or refused with its code. Its token register becomes pending. -/
def jobArrive (s : State) (j : Job) : State :=
  let cl := clusterOfCore j.core
  let s1 := s.modCtx j.core j.ctx (·.startToken (regOf j.rd))
  let code := jobCheck s1 j
  if code ≠ 0 then sendToken s1 j.core j.slot j.ctx j.rd (BitVec.ofNat 64 code) (.job cl j.id) j.world 0
  else
    engineWake (askJobs (modEngine s1 cl (fun e =>
      if j.shadow then { e with shadow := e.shadow ++ [j] } else { e with normal := e.normal ++ [j] })) cl) cl

/-- The job of an MMA or MMAM that issues now. -/
def newJob (s : State) (t modq : Nat) (rd : Reg) (desc nk : Word) (mem : Option Nat) : Job :=
  { id := s.nextId, shadow := s.cur % 8 == 7, slot := s.cur % 8, core := coreOf s.cur, ctx := s.me.ctxNum, rd := rd.toNat, modular := t == 8,
    aty := t, desc := desc, nk := nk.toNat, mem := mem, q := 0, world := s.me.world, lsbase := s.me.lsbase.toNat,
    lsbound := s.me.lsbound.toNat, claimA := 0, claimB := 0, claimC := 0, resv := none, asked := false, started := false,
    doneCycles := 0, since := 0, modq := modq, result := [], status := 0, written := 0, acc := none, sig := 0, done := false }

/-- Issue of a job: a full queue parks the slot until an entry frees. -/
def issueJob (s : State) (j : Job) (wait : Bool) : Out :=
  let s0 := s.freshId
  if hasRoom s j then
    let s1 := jobArrive s0 j
    .next (if wait then park s1 s.cur .waitEngine (.engineToken (waitKey j.rd j.id)) else s1)
  else .next (park s0 s.cur .waitEngine (.jobFull j wait))

/-- The memory address of a result, or none for a ring. -/
def resultMem (s : State) (c : Reg) : Option Nat := if c = 0 then none else some (addr57 (s.rx c))

/-- MMA (R241 to R245). -/
def execMma (m : MmaF) (s : State) : Out :=
  guardX s m.d (issueJob s (newJob s m.ty.toNat 0 m.d (s.rx m.s1) (s.rx m.s2) (resultMem s m.s3)) (m.wait == 1))

/-- MMAM (R246). -/
def execMmam (w : BitVec 1) (d a b c : Reg) (s : State) : Out :=
  guardX s d <|
    if s.rmodq = 0 then trapOut s 5 0x0D 0
    else issueJob s (newJob s 8 s.rmodq d (s.rx a) (s.rx b) (resultMem s c)) (w == 1)

/-- A context that waited for a queue entry gets it: its bundle commits, or it waits for the job (R225, R245). -/
def jobAdmitted (s : State) (j : Job) (wait : Bool) : State :=
  let s1 := jobArrive s j
  if wait then s1.modCtx j.core j.ctx (fun sl => { sl with wait := .engineToken (waitKey j.rd j.id) })
  else finishCtx s1 j.core j.ctx id

/-- Entries have freed: the contexts that wait for one are served, oldest first. -/
def admitJobs (s : State) (cl : Nat) : State :=
  (clusterWaits s cl (fun w => match w with | .jobFull _ _ => true | _ => false)).foldl (fun t p =>
    match (ctxOf t p.1 p.2).map Slot.wait with
    | some (.jobFull j wait) => if hasRoom t j then jobAdmitted t j wait else t
    | _ => t) s

/-! ## Retirement (R222, R228, R244) -/

def jobUser (cl : Nat) (j : Job) : UnitUser :=
  { who := .job cl j.id, cluster := cl, core := j.core, num := j.ctx, world := j.world, lo := j.lsbase, hi := j.lsbound }

/-- The numbers of `n` tiles from a counter on. -/
def tileNums (a n : Nat) : List Nat := (List.range n).map (bump32 a)

/-- The job retires: its claimed tiles pop, its token is completed, or its accumulator is published at the core where it
is untracked (R273), and its entry frees in the next cycle (R225). -/
def finishJob (s : State) (cl : Nat) (j : Job) (status : Nat) : State :=
  let pop (t : State) (q a n : Nat) : State := ringMoves (modRing t cl q (fun r => r.retire (tileNums a n))) cl q
  let s1 := if j.started then pop (pop s j.qa j.claimA j.nk) j.qb j.claimB j.nk else s
  let s2 := if j.started ∧ j.cin = 1 then pop s1 j.qc j.claimC 1 else s1
  let s3 := modJob s2 cl j.id (fun x => { x with done := true, started := true, acc := none, result := j.result })
  let s4 := if j.rd = 0 then publishCore s3 j.core j.world j.sig else s3
  (sendToken s4 j.core j.slot j.ctx j.rd (BitVec.ofNat 64 status) (.job cl j.id) j.world j.sig).next1 (.remoteReply (.job cl j.id) .done 0)

/-- The entry of a job that has retired frees, and the contexts that wait for one are served. -/
def freeEntry (s : State) (cl id : Nat) : State :=
  admitJobs (modEngine s cl (fun e => { e with normal := e.normal.filter (·.id != id), shadow := e.shadow.filter (·.id != id) })) cl

/-- Where a job's memory result names a core of this module, the whole of it is checked against the share there before any
byte is written (R244). -/
def resultRefused (s : State) (j : Job) (t : Target) : Bool :=
  match t with
  | .aper m core off =>
    m == s.moduleNo && j.written == 0
      && (lsFail (shareOf (s.core core) j.world).1 (shareOf (s.core core) j.world).2 off j.result.length).isSome
  | _ => false

/-- Write the next part of a memory result, or retire. -/
def jobAdvance (s : State) (cl : Nat) (j : Job) : State :=
  let left := j.result.length - j.written
  if left = 0 then finishJob s cl j j.status
  else
    match unitFind s (jobUser cl j) ((j.mem.getD 0) + j.written) (if j.mem.getD 0 < translatedBase then left else 1) true with
    | (s0, .error c) => if c = needsWalk then s0 else finishJob s0 cl j (unitCode c)
    | (s0, .ok t) =>
      let n := unitSize s0 (jobUser cl j) true t left
      if resultRefused s0 j t then finishJob s0 cl j 0x08
      else
        match unitIssue s0 (jobUser cl j)
            { write := true, tgt := t, n := n, data := (j.result.drop j.written).take n, sent := false, tag := none } with
        | .error c => finishJob s0 cl j (unitCode c)
        | .ok (s1, a) => modJob s1 cl j.id (fun x => { x with acc := some a })

/-- The result and status of a job from its tiles; none where a tile is uncorrectable (R236, R238, R244). -/
def jobResult (s : State) (cl : Nat) (j : Job) : Option (List Byte × Nat) :=
  let tiles (q a n : Nat) : Option (List (List Byte)) := (tileNums a n).mapM (readTile s cl q)
  match tiles j.qa j.claimA j.nk, tiles j.qb j.claimB j.nk, (if j.cin = 1 then (readTile s cl j.qc j.claimC).map some else some none) with
  | some as, some bs, some c =>
    if j.modular then some (modularResult j.modq as bs c, 0)
    else
      let r := matrixResult j.aty j.btype j.ofmt as bs c
      some (r.1, if r.2 = 0 then 0 else 0x10 + r.2.toNat * 256)
  | _, _, _ => none

/-- The end of the 8 cycles in which a result is written: published into its reserved tile, or written to memory as a
whole once its translation and access have been checked (R244). A ring tile whose job fails is published as
zeros. -/
def execMatrixJobRetire (cluster id : Nat) (s : State) : Out :=
  let e := (s.cluster cluster).engine
  match e.find id with
  | none => .next s
  | some j =>
    if !j.started || j.done || e.running == some id || e.paused == some id || !j.result.isEmpty then .next s
    else
      let s := correctTiles (correctTiles (correctTiles s cluster j.qa (tileNums j.claimA j.nk)) cluster j.qb
        (tileNums j.claimB j.nk)) cluster j.qc (if j.cin = 1 then [j.claimC] else [])
      let (data, code) := match jobResult s cluster j with
        | some r => r
        | none => (List.replicate j.outBytes 0, 0x09)
      match j.mem with
      | none =>
        let idx := j.resv.getD 0
        let s1 := ringMoves (modRing (writeTile s cluster j.qd idx data) cluster j.qd (fun r => r.publish idx)) cluster j.qd
        .next (engineWake (askJobs (finishJob s1 cluster j code) cluster) cluster)
      | some _ =>
        if code = 0x09 then .next (finishJob s cluster j code)
        else
          let j1 := { j with result := data, status := code }
          .next (jobAdvance (modJob s cluster id (fun _ => j1)) cluster j1)

/-- The number of a job in flight. -/
def jobOf (s : State) (cl id : Nat) : Option Job := (s.cluster cl).engine.find id

/-- A reply to the write of a job's result. -/
def jobReply (s : State) (cl id : Nat) (r : Reply) : State :=
  match jobOf s cl id with
  | none => engineWake (admitJobs s cl) cl
  | some j =>
    if j.done then freeEntry s cl id
    else
    match j.acc with
    | none =>
      match r with
      | .fault c _ => if j.started ∧ !j.result.isEmpty then finishJob s cl j (unitCode c) else s
      | .status c => if j.started then s else finishJob s cl j c
      | .done => if j.started ∧ !j.result.isEmpty then jobAdvance s cl j else s
      | .data _ | .home | .gone => s
    | some a =>
      let go (t : State) (x : UnitAcc) : State :=
        let j1 := { j with acc := none, written := j.written + x.n, sig := j.sig ||| unitSig t x }
        jobAdvance (modJob t cl id (fun _ => j1)) cl j1
      let stop (t : State) (c : Nat) : State := finishJob t cl j (unitCode c)
      match r with
      | .home =>
        match unitPerform s (jobUser cl j) none a with
        | .ok (t, _) => go t a
        | .error (c, t) => stop t c
      | .done | .data _ =>
        if a.sent then go s a
        else jobAdvance (modJob s cl id (fun x => { x with acc := none })) cl { j with acc := none }
      | .fault c _ => stop s c
      | .gone => stop s 0x16
      | .status c => if c = 0 then go s a else stop s 0x16

/-! ## Grants and publication (R221, R249) -/

/-- The code of a reservation request that its ring no longer admits: another world's QCFG has come between (R223), or its
request has ended. -/
def askerCheck (s : State) (cl q : Nat) (x : RingReq) : Nat :=
  match x with
  | .slot c num =>
    let sl := (ctxOf s c num).getD Slot.reset
    match sl.wait with
    | .reservation _ r => ringCheck s cl q sl.world (some r.vas.length)
    | _ => 0
  | .job id => match (s.cluster cl).engine.find id with | some j => if j.done then 0x01 else jobRings s j | none => 0x01
  | .copy id => match (s.cluster cl).kicks.find? (·.id == id) with | some r => ringCheck s cl q r.world none | none => 0x01

/-- A reservation request ends with a code: the QPUSH, the job or the copy does. -/
def askerFails (s : State) (cl code : Nat) (x : RingReq) : State :=
  match x with
  | .slot c num =>
    match (ctxOf s c num).map Slot.wait with
    | some (.reservation _ r) =>
      (finishCtx s c num (·.startToken (regOf r.rd))).next1 (.completionWrite c num r.rd (BitVec.ofNat 64 code) 0)
    | _ => s
  | .job id => s.next1 (.remoteReply (.job cl id) (.status code) 0)
  | .copy id => s.next1 (.remoteReply (.copy cl id) (.status code) 0)

/-- Jobs that have not started and whose rings have changed hands end with the code of the check that fails (R223). -/
def recheckJobs (s : State) (cl : Nat) : State :=
  ((s.cluster cl).engine.jobs.filter (fun j => !j.started && j.resv.isNone)).foldl (fun t j =>
    if jobRings t j = 0 then t else t.next1 (.remoteReply (.job cl j.id) (.status (jobRings t j)) 0)) s

/-- Grant reservations in order while there is room; a request of this cycle waits for the next. -/
def grantLoop (s : State) (cl q : Nat) : Nat → State × List (RingReq × Nat)
  | 0 => (s, [])
  | fuel + 1 =>
    let r := ringOf (s.cluster cl) q
    match r.waiting with
    | (cyc, _, x) :: rest =>
      if cyc < s.cycle ∧ askerCheck s cl q x ≠ 0 then
        grantLoop (askerFails (modRing s cl q (fun y => { y with waiting := rest })) cl (askerCheck s cl q x) x) cl q fuel
      else if cyc < s.cycle ∧ tilesFrom r.head r.resv < r.cap then
        let s1 := modRing s cl q (fun y => { y with waiting := rest, resv := bump32 y.resv 1 })
        let p := grantLoop s1 cl q fuel
        (p.1, (x, r.resv) :: p.2)
      else (s, [])
    | [] => (s, [])

/-- A granted request goes on: a QPUSH reads its tile, a job may start, the copy hart fills the tile. -/
def ringGranted (s : State) (cl : Nat) (x : RingReq) (idx : Nat) : State :=
  match x with
  | .slot c num => qpushGranted s c num idx
  | .job id => engineWake (modJob s cl id (fun j => { j with resv := some idx })) cl
  | .copy id =>
    (s.modCluster cl (fun c => { c with kicks := c.kicks.map (fun k => if k.id = id then { k with tile := some idx } else k) })).next1
      (.remoteReply (.copy cl id) .done 0)

def execRingReservationGrant (cluster ring : Nat) (s : State) : Out :=
  let p := grantLoop s cluster ring (ringOf (s.cluster cluster) ring).waiting.length
  .next (p.2.foldl (fun t g => ringGranted t cluster g.1 g.2) p.1)

/-- The oldest configuration of a ring is applied or refused, once the ring is quiet. -/
def execQcfgApply (cluster ring : Nat) (s : State) : Out :=
  let r := ringOf (s.cluster cluster) ring
  match r.config with
  | [] => .next s
  | (core, num, reg, world, w) :: rest =>
    if r.quiet then
      let (s1, code) := match ringConfig (s.cluster cluster) ring world w with
        | .ok n => (modRing { s with poison := s.poison.filter (· != .ring cluster ring) } cluster ring (fun _ => n), 0)
        | .error e => (s, e)
      let s2 := modRing s1 cluster ring (fun x => { x with config := rest })
      let s3 := s2.next1 (.completionWrite core num reg (BitVec.ofNat 64 code) 0)
      let s4 := if code = 0 then recheckJobs s3 cluster else s3
      .next ((if rest.isEmpty then s4 else s4.next1 (.qcfgApply cluster ring)).next1 (.ringReservationGrant cluster ring))
    else .next s

/-- A tile that its producer has written is published (R221): what waits for it may start. -/
def publishTile (s : State) (cl q n : Nat) : State :=
  engineWake (askJobs (ringMoves (modRing s cl q (fun r => r.publish n)) cl q) cl) cl

def execTilePublish (cluster ring idx : Nat) (s : State) : Out := .next (publishTile s cluster ring idx)

end Sys2Proof.Machine
end

