-- ==== Sys2Proof/Machine/LocalTime.lean ====
section
/-! DEFINITION. Local-time mode: clocks, channels, timestamped events, safe time, keyed atomics and their
floors (22 R402 to R414; 23 R426 to R431; 25 R434, R435). -/

namespace Sys2Proof.Machine

/-! ## The mode (R402) -/

/-- A core's number among all cores of all modules: endpoint bits [33:3]. -/
def globalCore (s : State) (c : Nat) : Nat := s.moduleNo * 524288 + c

/-- The endpoint of slot 0 of a core (R409). -/
def coreEndpoint (s : State) (c : Nat) : Nat := globalCore s c * 8

/-- A world that may not use local time on a core: another world's mode or output channels hold it. -/
def ltHeld (co : Core) (world : Nat) : Bool :=
  (match co.ltWorld with | some w => w != world | none => false)
    || co.outCh.toList.any (fun o => match o with | some oc => oc.world != world | none => false)

def ltEnter (s : State) (c world : Nat) : State := s.modCore c (fun co => { co with ltWorld := some world })

/-- The world check of the local-time instructions, first at row 5 (R426). -/
def ltCheck (s : State) (k : Out) : Out := if ltHeld (s.core (coreOf s.cur)) s.me.world then trapOut s 5 0x11 0 else k

/-- A halted, stopped or LOST slot of the mode's world holds the core's clock (R414). -/
def ltFrozen (s : State) (c : Nat) : Bool :=
  (List.range 8).any (fun i =>
    let sl := s.slot (c * 8 + i)
    (sl.state == .halted || sl.state == .stopped || sl.state == .lost) && (s.core c).ltWorld == some sl.world)

/-- The software bound takes the place of the safe time (R405). -/
def softTime (s : State) (c : Nat) : Bool :=
  match (s.core c).ltWorld with
  | some w => (s.polder w).split.getLsbD 6
  | none => false

/-- The safe time that the core computes: the least m + f over its declared channels, capped (R405). -/
def hardSafe (co : Core) : Nat :=
  co.inCh.toList.foldl (fun a ch =>
    match ch with
    | some i => if i.declared then Nat.min a (i.m + i.f) else a
    | none => a) (2 ^ 64 - 1)

def safeTime (s : State) (c : Nat) : Nat := if softTime s c then (s.core c).bound else hardSafe (s.core c)

/-! ## Sending in the order of a channel (R378) -/

/-- Local-time arrivals at a core: they keep one order. -/
def ltArrivalAt (core : Nat) (e : Event) : Bool :=
  match e with
  | .tideArrival c _ _ _ => c == core
  | .eventArrival c _ => c == core
  | .declareReply c _ _ _ => c == core
  | _ => false

/-- A packet of local time to another module (R413). -/
def ltPacket (s : State) (sub world src dst idx gen : Nat) (data : List Word) : Packet :=
  mkPacket s 0x0D 0 world src dst idx gen (BitVec.ofNat 64 (sub * 2 ^ 60)) 0 data

/-- Send the clock as a tide mark on one output channel. -/
def sendTide (s : State) (c : Nat) (oc : OutChan) : State :=
  let t := (s.core c).clock
  if oc.core / 524288 = s.moduleNo then
    let d := oc.core % 524288
    if crossesDown s (dieOfCore c) (dieOfCore d) then s
    else s.laterAfter Config.latFabric (ltArrivalAt d) (.tideArrival d oc.k (coreEndpoint s c) t)
  else
    (sendPacket s (dieOfCore c) (ltPacket s 2 oc.world (coreEndpoint s c) (oc.core * 8) 0 0
      [BitVec.ofNat 64 t, BitVec.ofNat 64 oc.k, 0, 0, 0, 0, 0, 0])).getD s

def sendTides (c : Nat) : State → List (Option OutChan) → State
  | s, [] => s
  | s, some oc :: r => sendTides c (sendTide s c oc) r
  | s, none :: r => sendTides c s r

/-- The bound that a core reports: the least of its clock and its unapplied atomics' stamps (R409). -/
def floorBound (co : Core) : Nat := co.unapplied.foldl Nat.min co.clock

/-- The launch word of a floor report: the world, and the handle of a launch on the core. -/
def floorLaunch (s : State) (c : Nat) : Nat :=
  let w := ((s.core c).ltWorld).getD 0
  let h := ((List.range 6).find? (fun i => (s.slot (c * 8 + i)).state != .empty && (s.slot (c * 8 + i)).world == w)).map
    (fun i => (s.slot (c * 8 + i)).launch.toNat % 1024)
  w * 1024 + h.getD 0x3FF

/-- Publish (R403): tide marks on every output channel, and the floor bound on the own die. -/
def ltPublish (s : State) (c : Nat) : State :=
  if ltFrozen s c then s
  else
    (sendTides c s (s.core c).outCh.toList).next1
      (.floorReportArrival (dieOfCore c) (globalCore s c) (floorBound (s.core c)) (floorLaunch s c))

/-- Raise the clock to `v` and publish, in hardware mode (R403, R405, R408). -/
def ltRaise (s : State) (c v : Nat) : State :=
  if (s.core c).clock < v ∧ ltFrozen s c = false then
    let s1 := s.modCore c (fun co => { co with clock := v })
    if softTime s c then s1 else ltPublish s1 c
  else s

/-- A slot has left HALTED, STOPPED or LOST: the core publishes its clock at once (R414). -/
def ltThaw (s : State) (c : Nat) : State :=
  if (s.core c).ltWorld.isSome then ltPublish s c else s

/-! ## Events (R406, R408, R430) -/

/-- The order of events: stamp, source endpoint, channel sequence. -/
def LtEvent.before (a b : LtEvent) : Bool :=
  decide (a.stamp < b.stamp) ||
    (a.stamp == b.stamp && (decide (a.src < b.src) || (a.src == b.src && decide (a.seq < b.seq))))

def insertEvent (e : LtEvent) : List LtEvent → List LtEvent
  | [] => [e]
  | x :: xs => if LtEvent.before e x then e :: x :: xs else x :: insertEvent e xs

/-- The registers that a delivery writes. -/
def ltResult (vd : Nat) (e : LtEvent) (sl : Slot) : Slot :=
  (sl.putV (regOf vd) (e.p1 ++ e.p0)).putV (regOf (vd + 1)) (e.p2 ++ BitVec.ofNat 64 e.stamp)

/-- Take the least event for a context: clock, last event, acquire. -/
def takeEvent (s : State) (c num : Nat) (e : LtEvent) : State :=
  let s1 := ltRaise (s.modCore c (fun co => { co with events := co.events.drop 1 })) c e.stamp
  acquireCtx (s1.modCore c (fun co => { co with lastEvent := some (e.ch, e.seq) })) c num e.sig

/-- Serve blocked receivers in blocking order while the least event lies below the safe time (R408). -/
def serveBlocked (s : State) (c : Nat) : Nat → State
  | 0 => s
  | n + 1 =>
    match (s.core c).trecvq, (s.core c).events with
    | num :: rest, e :: _ =>
      if e.stamp < safeTime s c then
        let s1 := s.modCore c (fun co => { co with trecvq := rest })
        match (ctxOf s c num).map Slot.wait with
        | some (.trecv vd) =>
          serveBlocked (finishCtx (takeEvent s1 c num e) c num (ltResult vd e)) c n
        | _ => serveBlocked s1 c n
      else s
    | _, _ => s

/-- What a rise of the safe time does: deliveries, then the clock of a core that still blocks. -/
def safeRaised (s : State) (c : Nat) : State :=
  let s1 := serveBlocked s c (s.core c).trecvq.length
  if (s1.core c).trecvq.isEmpty then s1 else ltRaise s1 c (safeTime s1 c)

/-! ## Instructions (R427 to R431) -/

def execLtset (d a : Reg) (s : State) : Out :=
  guardX s d <| ltCheck s <|
    let c := coreOf s.cur
    let v := (s.rx a).toNat
    let s1 := ltEnter s c s.me.world
    if (s.core c).clock ≤ v then writeX (ltRaise s1 c v) d 0 else writeX s1 d 1

def execTide (d : Reg) (s : State) : Out :=
  guardX s d <| ltCheck s <|
    let c := coreOf s.cur
    let s1 := ltPublish (ltEnter s c s.me.world) c
    writeX s1 d (BitVec.ofNat 64 (s1.core c).clock)

def execTideBound (d a : Reg) (s : State) : Out :=
  guardX s d <| ltCheck s <|
    let c := coreOf s.cur
    let s1 := ltEnter s c s.me.world
    if softTime s1 c then
      let b := Nat.max (s.core c).bound (s.rx a).toNat
      let s2 := s1.modCore c (fun co => { co with bound := b })
      writeX (if (s.core c).bound < b then safeRaised s2 c else s2) d (BitVec.ofNat 64 b)
    else writeX s1 d (BitVec.ofNat 64 (safeTime s1 c))

/-- A channel field of a table. -/
def chanAt {α : Type} (v : Vector (Option α) 8) (k : Nat) : Option α := (v.toList[k]?).getD none

def setIn (co : Core) (k : Nat) (x : Option InChan) : Core :=
  { co with inCh := co.inCh.mapFinIdx (fun i y _ => if i = k then x else y) }

def setOut (co : Core) (k : Nat) (x : Option OutChan) : Core :=
  { co with outCh := co.outCh.mapFinIdx (fun i y _ => if i = k then x else y) }

/-- A declaration that R404 forbids: a channel that exists, once the clock has risen or while an event
waits on it. -/
def redeclares (co : Core) (k : Nat) : Bool :=
  (chanAt co.inCh k).isSome && (co.clock != 0 || co.events.any (·.ch == k))

def execChdcl (k : BitVec 3) (d a b : Reg) (s : State) : Out :=
  guardX s d <| ltCheck s <|
    let c := coreOf s.cur
    let die := dieOf s.cur
    let dst := (s.rx a).toNat % 2 ^ 34
    let f := (s.rx b).toNat
    if 3200 ≤ dst / 64 % 4096 then trapOut s 5 0x17 (BitVec.ofNat 64 dst)
    else if f = 0 ∨ 2 ^ 20 < f ∨ redeclares (s.core c) k.toNat = true then trapOut s 5 0x18 (zext k)
    else
      let src := dst / 8
      let ch : InChan := { src := src * 8, f := f, m := 0, declared := false, ctx := s.me.ctxNum, reg := d.toNat }
      let s1 := ((ltEnter s c s.me.world).modMe (·.startToken d)).modCore c (fun co => setIn co k.toNat (some ch))
      let tok := ReplyTo.token c s.me.ctxNum d.toNat
      if src / 524288 = s.moduleNo then
        let sc := src % 524288
        let ev (who : ReplyTo) := Event.declareArrival sc (globalCore s c) k.toNat f s.me.world who
        if dieOfCore sc = die then .next (s1.later Config.latFabric (ev tok))
        else
          match drawTag s1 die tok s.moduleNo with
          | none => retryOut s
          | some (idx, gen, s2) =>
            .next (if crossesDown s die (dieOfCore sc) then s2 else s2.later Config.latFabric (ev (.tag die idx gen)))
      else if !hasPath s die (src / 524288) then
        .next ((s1.modCore c (fun co => setIn co k.toNat none)).next1 (.completionWrite c s.me.ctxNum d.toNat 0x05 0))
      else
        match drawTag s1 die tok (src / 524288) with
        | none => retryOut s
        | some (idx, gen, s2) =>
          .next ((sendPacket s2 die (ltPacket s2 3 s.me.world (coreEndpoint s c) (src * 8) idx gen
            [BitVec.ofNat 64 f, zext k, 0, 0, 0, 0, 0, 0])).getD s2)

def execTsend (d a b c : Reg) (s : State) : Out :=
  guardX s d <| ltCheck s <|
    let co := coreOf s.cur
    let die := dieOf s.cur
    let dst := (s.rx a).toNat / 8 % 2 ^ 31
    let k := (s.rx a).toNat / 2 ^ 34 % 8
    let t := (s.rx c).toNat
    let chans := (s.core co).outCh.toList
    match (List.range 8).find? (fun i => match (chans[i]?).getD none with | some oc => oc.core == dst && oc.k == k | none => false) with
    | none => trapOut s 5 0x19 (s.rx c)
    | some i =>
      let oc := ((chans[i]?).getD none).getD { core := 0, k := 0, f := 0, seq := 0, world := 0 }
      if t < (s.core co).clock + oc.f then trapOut s 5 0x19 (s.rx c)
      else
        let seq := (oc.seq + 1) % 2 ^ 32
        let v := s.rv b
        let s1 := (ltEnter s co s.me.world).modCore co (fun x => setOut x i (some { oc with seq := seq }))
        let s2 := s1.modMe (fun sl => { sl.startToken d with fenceRel := false })
        let ev (who : ReplyTo) : LtEvent :=
          { stamp := t, src := coreEndpoint s co, seq := seq, ch := k, p0 := v.extractLsb' 0 64, p1 := v.extractLsb' 64 64,
            p2 := s.rx (c + 1), sig := s.me.acc, from_ := who }
        let tok := ReplyTo.token co s.me.ctxNum d.toNat
        if dst / 524288 = s.moduleNo then
          let rc := dst % 524288
          if dieOfCore rc = die then .next (s2.laterAfter Config.latFabric (ltArrivalAt rc) (.eventArrival rc (ev tok)))
          else
            match drawTag s2 die tok s.moduleNo with
            | none => retryOut s
            | some (idx, gen, s3) =>
              .next (if crossesDown s die (dieOfCore rc) then s3
                else s3.laterAfter Config.latFabric (ltArrivalAt rc) (.eventArrival rc (ev (.tag die idx gen))))
        else if !hasPath s die (dst / 524288) then
          .next (s2.next1 (.completionWrite co s.me.ctxNum d.toNat 0x05 0))
        else
          match drawTag s2 die tok (dst / 524288) with
          | none => retryOut s
          | some (idx, gen, s3) =>
            let e := ev tok
            .next ((sendPacket s3 die (ltPacket s3 1 s.me.world (coreEndpoint s co) (dst * 8) idx gen
              ([BitVec.ofNat 64 t, BitVec.ofNat 64 (seq + k * 2 ^ 32), e.p0, e.p1, e.p2, 0, 0, 0] ++ toWords (toLe e.sig.toNat 64) 8))).getD s3)

/-- TRECV (R430): the least event if it lies below the safe time, or wait. -/
def execTrecv (d : Reg) (s : State) : Out :=
  let c := coreOf s.cur
  if (s.core c).ltWorld ≠ some s.me.world then trapOut s 5 0x11 0
  else
    match (s.core c).events with
    | e :: _ =>
      if e.stamp < safeTime s c then .next ((takeEvent s c s.me.ctxNum e).modMe (ltResult d.toNat e)) else block c
    | [] => block c
where
  block (c : Nat) : Out :=
    let s1 := (park s s.cur .waitRecv (.trecv d.toNat)).modCore c (fun co => { co with trecvq := co.trecvq ++ [s.me.ctxNum] })
    .next (ltRaise s1 c (safeTime s1 c))

/-- A declared input channel. -/
def declaredAt (co : Core) (k : Nat) : Option InChan := (chanAt co.inCh k).filter (·.declared)

/-- What LTSTAT selects, on a core in the mode. -/
def ltValue (s : State) (c sel ch : Nat) : Nat :=
  let co := s.core c
  match sel with
  | 0 => co.clock
  | 1 => safeTime s c
  | 2 => ((declaredAt co ch).map (·.m)).getD 0
  | 3 => match declaredAt co ch with | some i => 2 ^ 63 + i.f | none => 0
  | 4 => ((declaredAt co ch).map (·.src)).getD 0
  | 5 => match co.lastEvent with | some (k, q) => k * 2 ^ 32 + q | none => 0
  | 6 => co.events.length
  | _ => match chanAt co.outCh ch with | some o => 2 ^ 63 + o.k * 2 ^ 60 + o.core * 2 ^ 21 + o.f | none => 0

def execLtstat (sel : BitVec 3) (d a : Reg) (s : State) : Out :=
  guardX s d <|
    let c := coreOf s.cur
    match (s.core c).ltWorld with
    | none => writeX s d 0
    | some w =>
      if w ≠ s.me.world then trapOut s 5 0x11 0
      else writeX s d (BitVec.ofNat 64 (ltValue s c sel.toNat ((s.rx a).toNat % 8)))

/-! ## Arrivals (R404, R408, R427, R435) -/

/-- The code of a declaration at its source core. -/
def declareCode (s : State) (core from_ k world : Nat) : Nat :=
  let co := s.core core
  if polderGone s world then 0x03
  else if ltHeld co world then 0x71
  else if co.outCh.toList.any (fun o => match o with | some oc => oc.core == from_ && oc.k == k | none => o.isNone) then 0x00
  else 0x70

/-- A source core enters a declared output channel: in place of an earlier one of the same receiver and
index, or in the lowest free place. -/
def enterChannel (co : Core) (oc : OutChan) : Core :=
  let chans := co.outCh.toList
  let same (i : Nat) : Bool := match (chans[i]?).getD none with | some o => o.core == oc.core && o.k == oc.k | none => false
  match (List.range 8).find? same with
  | some i => setOut co i (some oc)
  | none =>
    match (List.range 8).find? (fun i => ((chans[i]?).getD none).isNone) with
    | some i => setOut co i (some oc)
    | none => co

def execDeclareArrival (core from_ k f world : Nat) (who : ReplyTo) (s : State) : Out :=
  let code := declareCode s core from_ k world
  let s1 := if code = 0 then s.modCore core (fun co => enterChannel co { core := from_, k := k, f := f, seq := 0, world := world }) else s
  match who with
  | .remote _ _ idx gen _ =>
    .next ((sendPacket s1 (dieOfCore core) { ltPacket s1 3 world (coreEndpoint s core) (from_ * 8) idx gen
      [0, BitVec.ofNat 64 k, if code = 0 then 0 else 1, 0, 0, 0, 0, 0] with cls := 1, status := BitVec.ofNat 64 code }).getD s1)
  | w =>
    let c := from_ % 524288
    .next (s1.laterAfter Config.latFabric (ltArrivalAt c) (.declareReply c k w code))

/-- The answer to a declaration completes CHDCL (R404, R427). An answer from another die without a live tag is
late (R382). -/
def execDeclareReply (core k : Nat) (who : ReplyTo) (code : Nat) (s : State) : Out :=
  match who with
  | .tag die idx gen =>
    match liveTag s die idx gen with
    | some _ => declared (freeTag s die idx)
    | none => .next (lateReply s die idx gen)
  | _ => declared s
where
  declared (s : State) : Out :=
    match chanAt (s.core core).inCh k with
    | none => .next s
    | some ch =>
      if ch.declared then .next s
      else
        let s1 := s.modCore core (fun co => setIn co k (if code = 0 then some { ch with declared := true, m := 0 } else none))
        .next (completeCtx s1 core ch.ctx ch.reg (BitVec.ofNat 64 code) 0)

/-- Whether a core holds an input channel from a source. -/
def holdsChannel (co : Core) (ch src : Nat) : Bool :=
  co.ltWorld.isSome && (match chanAt co.inCh ch with | some i => i.declared && i.src == src | none => false)

/-- A stray packet is dropped and counted (R435). -/
def dropStray (s : State) (core : Nat) : State := s.modCore core (fun co => { co with msgDropped := co.msgDropped + 1 })

/-- A tide mark (R408, R434). -/
def execTideArrival (core ch src t : Nat) (s : State) : Out :=
  let co := s.core core
  if holdsChannel co ch src then
    let s1 := s.modCore core (fun co =>
      match chanAt co.inCh ch with | some i => setIn co ch (some { i with m := t }) | none => co)
    .next (if softTime s core then s1 else safeRaised s1 core)
  else .next (dropStray s core)

/-- A timestamped event (R408, R435). -/
def execEventArrival (core : Nat) (e : LtEvent) (s : State) : Out :=
  if holdsChannel (s.core core) e.ch e.src then
    let s1 := s.modCore core (fun co => { co with events := insertEvent e co.events })
    let s2 := answer s1 Config.latMesh e.from_ (.status 0) 0
    .next (serveBlocked s2 core (s2.core core).trecvq.length)
  else .next (answer (dropStray s core) Config.latMesh e.from_ (.status 0x72) 0)

/-! ## Floors and keyed atomics (R409) -/

/-- Every 1,024 cycles a complex sends the bounds of its cores to the other dies and to the modules that it
has a path to. -/
def floorReports (s : State) (die : Nat) : List (Nat × Nat × Nat) :=
  (s.cores.filter (fun p => dieOfCore p.1 == die && p.2.ltWorld.isSome)).map (fun p =>
    (globalCore s p.1, floorBound p.2, floorLaunch s p.1))

def knownModules (s : State) (die : Nat) : List Nat :=
  (((s.die die).paths.filter (·.2.valid)).map (·.1 / 4)).eraseDups.filter (· != s.moduleNo)

def execFloorExchange (die : Nat) (s : State) : Out :=
  let reps := floorReports s die
  let s1 := reps.foldl (fun t r =>
    ((List.range Config.dies).filter (fun d => d != die && !crossesDown s die d)).foldl (fun u d =>
      u.later Config.latFabric (.floorReportArrival d r.1 r.2.1 r.2.2)) t) s
  .next (reps.foldl (fun t r =>
    (knownModules s die).foldl (fun u m =>
      (sendPacket u die (ltPacket u 4 (r.2.2 / 1024) (dieEndpoint u die) (m * 4194304) 0 0
        [BitVec.ofNat 64 r.2.1, BitVec.ofNat 64 (r.1 * 8), BitVec.ofNat 64 (r.2.2 % 1024), 0, 0, 0, 0, 0])).getD u) t) s1)

/-- The bound by which a core says that it has left the mode: no key lies above it. -/
def noBound : Nat := 2 ^ 64 - 1

/-- A floor report, in place of the core's earlier one; that of a core which has left the mode removes it. -/
def execFloorReportArrival (die core bound launch : Nat) (s : State) : Out :=
  .next (s.modDie die (fun d => { d with
    floors := d.floors.filter (fun f => !(f.core == core && f.launch / 1024 == launch / 1024))
      ++ (if bound = noBound then [] else [{ core := core, bound := bound, launch := launch }]) }))

/-- The reports that a home holds for a world of this module: its own die's cores as they stand, other cores
as last reported. -/
def floorView (s : State) (die world : Nat) : List (Nat × Nat) :=
  (s.cores.filter (fun p => dieOfCore p.1 == die && p.2.ltWorld == some world && (s.polder world).cores.contains p.1)).map
      (fun p => (floorBound p.2, coreEndpoint s p.1))
    ++ ((s.die die).floors.filter (fun f => f.launch / 1024 == world && f.core / 524288 == s.moduleNo
          && dieOfCore (f.core % 524288) != die && (s.polder world).cores.contains (f.core % 524288))).map
        (fun f => (f.bound, f.core * 8))

/-- The reports that a home holds for a world of another module, whose core table that module alone knows. -/
def awayView (s : State) (die module world : Nat) : List (Nat × Nat) :=
  ((s.die die).floors.filter (fun f => f.launch / 1024 == world && f.core / 524288 == module)).map (fun f => (f.bound, f.core * 8))

/-- Lexicographic order of (t, s). -/
def pairLe (a b : Nat × Nat) : Bool := decide (a.1 < b.1) || (a.1 == b.1 && decide (a.2 ≤ b.2))

/-- The module and world whose launches a held atomic belongs to. -/
def KeyedAtomic.group (s : State) (a : KeyedAtomic) : Nat × Nat :=
  match a.away with
  | some (_, p) => (p.src / 4194304, p.world)
  | none => (s.moduleNo, ((s.core a.core).ltWorld).getD (((ctxOf s a.core a.ctx).map (·.world)).getD 0))

def KeyedAtomic.less (a b : KeyedAtomic) : Bool :=
  decide (a.t < b.t) || (a.t == b.t && (decide (a.s < b.s) || (a.s == b.s && decide (a.q < b.q))))

/-- The reports that bound the atomics of a group. -/
def groupView (s : State) (die : Nat) (g : Nat × Nat) : List (Nat × Nat) :=
  if g.1 = s.moduleNo then floorView s die g.2 else awayView s die g.1 g.2

/-- The held atomic that a home may apply now: the least key of its group, at or below the floor. -/
def applicable (s : State) (die : Nat) : Option KeyedAtomic :=
  let held := (s.die die).keyed
  held.find? (fun a =>
    let g := a.group s
    let view := groupView s die g
    !held.any (fun b => b.group s == g && b.less a) && !view.isEmpty && view.all (fun f => pairLe (a.t, a.s) f))

/-! ### Atomics of other modules (R383, R409) -/

/-- The key of an atomic of another module, in dwords 3 to 6 of flit 1, which R376 leaves free beside the operands.
Mark: DESIGN CHOICE (log entry 32). -/
def peerKey (p : Packet) : Option (Nat × Nat × Nat) :=
  let d (i : Nat) : Nat := ((p.data[i]?).getD 0).toNat
  if d 3 = 1 then some (d 4, d 5, d 6) else none

/-- What a store or atomic of another module publishes as a release (R270). -/
def peerPublish (t : State) (w : Nat) (p : Packet) : State :=
  let op := p.op.toNat
  let pa := bits op 47 0
  if op.testBit 58 then publishHome t pa w (packetSig p 8 ||| bytesSig t.moduleNo pa (codeSize (bits op 50 48))) else t

/-- An atomic of another module is performed at its home. -/
def peerAtomic (s : State) (die w : Nat) (p : Packet) : State :=
  let op := p.op.toNat
  let pa := bits op 47 0
  let n := codeSize (bits op 50 48)
  let f := bits op 55 51
  let who := packetWho die p
  let fail (l : Nat) : State := answer (integrityRecord s l) Config.latReply who (.fault 0x12 0) 0
  match homeRead s pa n with
  | .error l => fail l
  | .ok (t, old) =>
    let arg := wordBytes (p.data.take 8)
    let v := (amoNew (f % 16) (decide (16 ≤ f)) n (leNat old) (leNat (arg.take n)) (leNat ((arg.drop n).take 8))).1
    match homeWrite t none pa (toLe v n) with
    | .error l => fail l
    | .ok u =>
      let u1 := peerPublish u w p
      answer u1 Config.latReply who (.data old) (if op.testBit 57 then homeSig u1 pa w else 0)

/-- Hold a keyed atomic of another module at its home. -/
def holdPeerKeyed (s : State) (die w : Nat) (p : Packet) (k : Nat × Nat × Nat) : State :=
  let a : KeyedAtomic :=
    { t := k.1, s := k.2.1, q := k.2.2, launch := 0, core := k.2.1 / 8 % 524288, ctx := 0, pa := bits p.op.toNat 47 0,
      req := MemReq.new .amo 0 0 [], away := some (w, p) }
  let s1 := s.modDie die (fun d => { d with keyed := d.keyed ++ [a] })
  (holdRequest s1 die (packetWho die p)).next1 (.keyedAtomicApply die)

/-- Apply the held atomic with the least key (R409); further ones follow in the same cycle. -/
def execKeyedAtomicApply (die : Nat) (s : State) : Out :=
  match applicable s die with
  | none => .next s
  | some a =>
    let s1 := s.modDie die (fun d => { d with keyed := d.keyed.erase a })
    let s2 := match a.away with
      | some (w, p) => peerAtomic s1 die w p
      | none => accessAtHome (dropStamp s1 a.core a.req) a.core a.ctx { a.req with key := none }
    .next (if (applicable s2 die).isSome then s2.at_ s2.cycle (.keyedAtomicApply die) else s2)

/-! ## Leaving the mode (R402, R404) -/

/-- Whether a task of a world is installed, swapped or queued on a core. -/
def hasTask (s : State) (c world : Nat) : Bool :=
  (List.range 8).any (fun i => (s.slot (c * 8 + i)).state != .empty && (s.slot (c * 8 + i)).world == world)
    || ((s.cluster (clusterOfCore c)).cache ++ (s.cluster (clusterOfCore c)).spilled).any (fun e => e.core == c && e.slot.world == world)
    || (s.core c).deque.any (·.world == world)
    || (s.core c).spilled.any (fun b => b.any (·.world == world))

/-- A core that has left the mode bounds no atomic any more: the modules that its die has a path to hear of it in a FLOOR
packet. Mark: DESIGN CHOICE (log entry 32). -/
def floorGone (s : State) (core world : Nat) : State :=
  let die := dieOfCore core
  (knownModules s die).foldl (fun u m =>
    (sendPacket u die (ltPacket u 4 world (dieEndpoint u die) (m * 4194304) 0 0
      [BitVec.ofNat 64 noBound, BitVec.ofNat 64 (coreEndpoint u core), 0x3FF, 0, 0, 0, 0, 0])).getD u) s

/-- A core leaves the mode when no task of its world is left there; a source that never entered it clears its
output channels in the same way. -/
def execLocalTimeModeExit (core : Nat) (s : State) : Out :=
  match (s.core core).ltWorld with
  | some w =>
    if hasTask s core w then .next s
    else
      let s1 := s.modCore core (fun co => { co with
        ltWorld := none, clock := 0, bound := 0, inCh := Vector.replicate 8 none, outCh := Vector.replicate 8 none, events := [] })
      let s2 := { s1 with dies := s1.dies.map (fun p => (p.1, { p.2 with floors := p.2.floors.filter (·.core != globalCore s core) })) }
      .next (floorGone s2 core w)
  | none =>
    .next (s.modCore core (fun co => { co with
      outCh := co.outCh.map (fun o => match o with | some oc => if hasTask s core oc.world then o else none | none => none) }))

end Sys2Proof.Machine
end

