-- ==== Sys2Proof/Machine/Sched.lean ====
section
/-! DEFINITION. Task records, deques, context numbers and installs; the memory of a polder as the device
reads and writes it (02 R41, R61; 04 R113, R119; 06 R158, R165, R166; 14 R280, R285, R288; 17 R330). -/

namespace Sys2Proof.Machine

/-! ## The memory of a polder, for the device -/

/-- The leaf of an address for a unit of the die: from the buffers, or from a walk of its own. -/
def devLeaf (s : State) (cluster world va : Nat) : WalkResult :=
  match resolve s cluster world va with
  | .missing => walk s world va
  | r => r

/-- Where an address of a world stands, or the fault of the access: cause and value (R299). -/
def devTarget (s : State) (cluster world va : Nat) (write : Bool) : Except (Nat × Nat) Nat :=
  if va < translatedBase ∨ 2 ^ 57 ≤ va then .error (0x11, va)
  else
    match devLeaf s cluster world va with
    | .absent | .missing => .error (0x10, va)
    | .malformed pa => .error (0x08, pa)
    | .integrity l => .error (0x12, l * 64)
    | .leaf l =>
      if refuses s l world va (if write then .store else .load) then .error (0x11, va)
      else match targetOf s l va with | .home pa => .ok pa | _ => .error (0x11, va)

/-- Read bytes, line by line; `fuel` bounds the lines. -/
def devRead (s : State) (cluster world va n : Nat) : Nat → Except (Nat × Nat) (List Byte)
  | 0 => .ok []
  | fuel + 1 =>
    if n = 0 then .ok []
    else
      let m := Nat.min n (64 - va % 64)
      match devTarget s cluster world va false with
      | .error e => .error e
      | .ok pa =>
        match homeRead s pa m with
        | .error l => .error (0x12, l * 64)
        | .ok (_, bs) =>
          match devRead s cluster world (va + m) (n - m) fuel with
          | .error e => .error e
          | .ok r => .ok (bs ++ r)

def devBytes (s : State) (cluster world va n : Nat) : Except (Nat × Nat) (List Byte) :=
  devRead s cluster world va n (n / 64 + 2)

/-- What a read of the device leaves at its die: it uses or installs the page (R300), and it is an acquire at .mod (R271,
R276, R289). -/
def devHeard (s : State) (cluster world va n : Nat) : State :=
  (List.range ((va % 64 + n + 63) / 64)).foldl (fun t i =>
    let a := va / 64 * 64 + 64 * i
    match devTarget t cluster world a false with
    | .ok pa => invalidateMatching (hintLeaf t cluster world a).1 (dieOfCluster cluster) (homeSig t pa world)
    | .error _ => t) s

/-- Write bytes of one line at their home. -/
def devWrite (s : State) (cluster world va : Nat) (bs : List Byte) : Except (Nat × Nat) State :=
  match devTarget s cluster world va true with
  | .error e => .error e
  | .ok pa =>
    match homeWrite s none pa bs with
    | .error l => .error (0x12, l * 64)
    | .ok t => .ok (updateCopies t (dieOfCluster cluster) s.moduleNo pa bs)

/-- A write that is a release at .mod: the home publishes the sector written (R270). -/
def devRelease (s : State) (cluster world va : Nat) (bs : List Byte) : Except (Nat × Nat) State :=
  match devTarget s cluster world va true, devWrite s cluster world va bs with
  | .ok pa, .ok t => .ok (publishHome t pa world (bytesSig s.moduleNo pa bs.length))
  | .error e, _ => .error e
  | _, .error e => .error e

/-- Add to a dword counter at its home, as a release (R209, R328); nothing where the address faults. -/
def counterAdd (s : State) (cluster world va : Nat) (n : Nat) : State :=
  match devBytes s cluster world va 8 with
  | .error _ => s
  | .ok bs => match devRelease s cluster world va (toLe (leNat bs + n) 8) with | .ok t => t | .error _ => s

/-! ## Contexts and slots of a core -/

/-- The cluster of a die that stands for the die's own units. -/
def dieCluster (die : Nat) : Nat := die * 4096

def generalSlots (c : Nat) : List Nat := (List.range 6).map (c * 8 + ·)

def emptyGeneral (s : State) (c : Nat) : Option Nat := (generalSlots c).find? (fun k => (s.slot k).state == .empty)

/-- A world has a share on a core, and the share is well formed (R158). -/
def shareOn (s : State) (c world : Nat) : Bool := (NMap.find (s.core c).shares world).isSome

def shareFits (co : Core) (world : Nat) : Bool :=
  match NMap.find co.shares world with
  | none => false
  | some (lo, hi) =>
    decide (lo ≤ hi) && decide (hi ≤ 49152) && lo % 64 == 0 && hi % 64 == 0
      && co.shares.all (fun p => p.1 == world || decide (hi ≤ p.2.1) || decide (p.2.2 ≤ lo) || p.2.1 == p.2.2 || lo == hi)

/-- A context number that is free and not waiting out its time (R61). -/
def freeNum (co : Core) : Option Nat :=
  ((List.range (co.ctxNums.length + co.quarantined.length + 1)).find? (fun n => !co.ctxNums.contains n && !co.quarantined.contains n)).filter
    (· < 65536)

/-- A launch of a polder by its handle. -/
def launchOf (s : State) (world h : Nat) : Option Launch := (s.polder world).launches.find? (·.handle == h)

/-- The groups that task `i` of a launch belongs to (R279). -/
def memberOf (i : Nat) (g : Nat × Nat × Nat × Nat × Bool) : Bool :=
  decide (g.2.1 ≤ i) && decide (i ≤ g.2.2.1) && decide (1 ≤ g.2.2.2.1) && (i - g.2.1) % g.2.2.2.1 == 0

def groupsOfTask (l : Launch) (i : Nat) : List (Nat × Nat × Nat × Nat × Bool) := l.groups.filter (memberOf i)

/-- sr.groups: up to four indices, rising, with their valid bits (R45, R279). -/
def groupsWord (gs : List Nat) : Word :=
  BitVec.ofNat 64 ((List.range 4).foldl (fun a k =>
    match gs[k]? with
    | some g => a + g * 2 ^ (8 * k) + 2 ^ (32 + k)
    | none => a) 0)

/-- The context of a new task at its start (R41, R45, R113, R330). -/
def freshCtx (s : State) (c num : Nat) (r : TaskRec) : Slot :=
  let (lo, hi) := shareOf (s.core c) r.world
  let groups := match launchOf s r.world r.launch with
    | some l => if r.seeded then groupsWord ((groupsOfTask l r.arg1.toNat).map (·.1)) else 0
    | none => 0
  { Slot.reset with
    pc := BitVec.ofNat 64 r.pc, npc := BitVec.ofNat 64 r.pc, prio := r.prio, tvec := (s.polder r.world).hvec,
    arg0 := r.arg0, arg1 := r.arg1, done := BitVec.ofNat 64 r.done, groups := groups,
    launch := BitVec.ofNat 64 r.launch, logical := BitVec.ofNat 64 r.logical, world := r.world,
    lsbase := BitVec.ofNat 64 lo, lsbound := BitVec.ofNat 64 hi, ctxNum := num, seeded := r.seeded,
    codeLo := r.codeLo, codeHi := r.codeHi, accCur := BitVec.allOnes 512, accPrev := BitVec.allOnes 512 }

/-- sr.launch of a slot that a context is saved from or installed into: no launch. -/
def noLaunch : Word := 0x3FF

/-- Put an incoming context into a slot; it is READY after the eight cycles of an install (R119). The spec names no
state for the slot in these cycles, which decides about lending (R54); it is SWAPPED; mark DESIGN CHOICE (log entry 105). -/
def startInstall (s : State) (k : Nat) (sl : Slot) : State :=
  (s.setSlot k { sl with state := .swapped, saved := .ready, waitSince := s.cycle }).at_ (s.cycle + 8) (.contextInstall k)

/-- A slot that a context of a core is being installed into. -/
def installing (s : State) (c num : Nat) : Bool :=
  (List.range 8).any (fun i =>
    let sl := s.slot (c * 8 + i)
    sl.state == .swapped && sl.saved == .ready && sl.ctxNum == num)

/-- A task whose world's share on the core is not well formed: it is not installed, the steward hears of it, and the slot
stays EMPTY (R158). -/
def refuseInstall (s : State) (k : Nat) (r : TaskRec) : State :=
  stewardNote s (s.moduleNo * 4194304 + k) (BitVec.ofNat 64 r.pc) 0 0

/-- Put a task into an EMPTY slot (R41, R61): its number, its push's acquire. None where no number is free. -/
def putTask (s : State) (k : Nat) (r : TaskRec) : Option State :=
  let c := coreOf k
  match freeNum (s.core c) with
  | none => none
  | some num =>
    let s1 := s.modCore c (fun co => { co with ctxNums := co.ctxNums ++ [num] })
    some (startInstall (invalidateMatching s1 (dieOf k) r.sig) k (freshCtx s c num r))

/-- Install a task in an EMPTY slot, or refuse it (R158). -/
def installTask (s : State) (k : Nat) (r : TaskRec) : Option State :=
  if shareFits (s.core (coreOf k)) r.world then putTask s k r else some (refuseInstall s k r)

/-- The ready SWAPPED contexts of a world on a core, oldest first (R284). -/
def readySwapped (s : State) (c world : Nat) : List CtxEntry :=
  let cl := s.cluster (clusterOfCore c)
  let l := (cl.cache ++ cl.spilled).filter (fun e =>
    e.core == c && e.slot.world == world && !e.lost && e.slot.saved == .ready && (ctxSlot s c e.slot.ctxNum).isNone
      && !installing s c e.slot.ctxNum)
  let rec ins (e : CtxEntry) : List CtxEntry → List CtxEntry
    | [] => [e]
    | x :: xs => if e.since < x.since then e :: x :: xs else x :: ins e xs
  l.foldl (fun acc e => ins e acc) []

/-- Begin the install of a swapped context: at once from the cache, after a read-back from memory where it has
been spilled (R119, R120). -/
def installSwapped (s : State) (k : Nat) (e : CtxEntry) : State :=
  let sl := { Slot.reset with world := e.slot.world, prio := e.slot.prio, ctxNum := e.slot.ctxNum, launch := noLaunch }
  if hasEntry e.core e.slot.ctxNum (s.cluster (clusterOf k)).cache then startInstall s k sl
  else
    (s.setSlot k { sl with state := .swapped, saved := .ready, waitSince := s.cycle }).later Config.latSpill
      (.spillReadback e.core e.slot.ctxNum)

/-! ## The deque (R165, R166) -/

def Steal.idle : Steal := { active := false, dieStep := 0, tries := 0, backoff := none }

/-- How a core stands with stealing for a world. -/
def stealOf (co : Core) (world : Nat) : Steal := (NMap.find co.steal world).getD Steal.idle

def setSteal (co : Core) (world : Nat) (x : Steal) : Core := { co with steal := NMap.set co.steal world x }

/-- A record has been pushed on a die: cores of the die that wait to steal for its world start again (R286). -/
def endBackoff (s : State) (die world : Nat) : State :=
  let waits (co : Core) : Bool := (stealOf co world).backoff.isSome
  if s.cores.any (fun p => dieOfCore p.1 == die && waits p.2) then
    { s with cores := s.cores.map (fun p =>
        if dieOfCore p.1 == die && waits p.2 then (p.1, setSteal p.2 world { stealOf p.2 world with backoff := none }) else p) }
  else s

/-- Something has become ready for a core: pre-emption is considered (R284). -/
def becameReady (s : State) (c world : Nat) : State := s.next1 (.preemption c world)

/-- Room for a push: a full deque spills its 32 top-most records first; none where the spill fails. -/
def makeRoom (s : State) (c : Nat) : Option State :=
  let co := s.core c
  if co.deque.length < 64 then some s
  else if Config.spillFails s.free then none
  else
    some ((s.modCore c (fun co => { co with
      deque := co.deque.take (co.deque.length - 32), spilled := co.spilled ++ [co.deque.drop (co.deque.length - 32)] })).tick)

/-- Put a record into a deque, at the top or at the bottom, with room made for it. -/
def putRecord (s : State) (c : Nat) (r : TaskRec) (top : Bool) : Option State :=
  (makeRoom s c).map (fun t =>
    becameReady (t.modCore c (fun co => { co with deque := if top then co.deque ++ [r] else r :: co.deque })) c r.world)

/-- A push: the record waits from now on at its level, and the waits of thieves of its die end. -/
def pushAt (s : State) (c : Nat) (r : TaskRec) (top : Bool) : Option State :=
  (putRecord s c { r with since := s.cycle } top).map (fun t => endBackoff t (dieOfCore c) r.world)

/-- Push a record at the bottom of a deque. -/
def pushRecord (s : State) (c : Nat) (r : TaskRec) : Option State := pushAt s c r false

/-- The bottom-most record of a world. -/
def bottomOf (s : State) (c world : Nat) : Option TaskRec := (s.core c).deque.find? (·.world == world)

/-- The priorities of the ready items of a world on a core. -/
def readyPrios (s : State) (c world : Nat) : List Nat :=
  (readySwapped s c world).map (·.slot.prio)
    ++ ((s.core c).deque.filter (·.world == world)).map (·.prio)
    ++ ((s.core c).spilled.flatMap (fun b => (b.filter (·.world == world)).map (·.prio)))

/-- What a general slot of a world takes next (R285): the oldest SWAPPED context at or above the bottom-most record's
level, else that record. -/
def nextItem (s : State) (c world : Nat) : Option (CtxEntry ⊕ TaskRec) :=
  match bottomOf s c world with
  | some r =>
    match (readySwapped s c world).find? (fun e => decide (r.prio ≤ e.slot.prio)) with
    | some e => some (.inl e)
    | none => some (.inr r)
  | none => ((readySwapped s c world).head?).map .inl

/-- Fill an EMPTY general slot with the next ready item of a world, if any (R285). A record that is uncorrectable is
dropped and reported instead (R168). -/
def popTask (s : State) (c world : Nat) : Option State :=
  match emptyGeneral s c with
  | none => none
  | some k =>
    match nextItem s c world with
    | none => none
    | some (.inl e) => some (installSwapped s k e)
    | some (.inr r) =>
      let s1 := (correct s [.deque c world] (countCore c)).modCore c (fun co => { co with deque := co.deque.erase r })
      if s1.poison.contains (.deque c world) then
        some (dropPoisoned s1 (.deque c world) (dieOfCore c) (s.moduleNo * 4194304 + k) (BitVec.ofNat 64 r.pc))
      else installTask s1 k r

/-! ## The urgent path (R288) -/

/-- Insert behind the records of the same or a higher level. -/
def insertUrgent (r : TaskRec) : List TaskRec → List TaskRec
  | [] => [r]
  | x :: xs => if x.prio < r.prio then r :: x :: xs else x :: insertUrgent r xs

/-- A core of this module in a polder's table of logical cores; those of other modules stand behind. -/
def isOwnCore (c : Nat) : Bool := decide (c < 524288)

/-- The logical cores of a range that stand on this module, rising. -/
def ownNumbers (s : State) (world first last : Nat) : List Nat :=
  (List.range' first (last + 1 - first)).filter (fun n => ((s.polder world).cores[n]?).any isOwnCore)

/-- The cores of a range of logical cores of a polder that stand on this module, in rising logical core. -/
def rangeCores (s : State) (world first last : Nat) : List Nat :=
  (ownNumbers s world first last).filterMap ((s.polder world).cores[·]?)

/-- Rotate a list so that it starts at a place. -/
def rotateTo {α : Type} (l : List α) (n : Nat) : List α := l.drop n ++ l.take n

/-- An urgent task goes to the first core of a list whose slot 7 is EMPTY, or waits in a die's list. -/
def placeUrgent (s : State) (r : TaskRec) (cores : List Nat) (die : Nat) : State :=
  let wait := s.modDie die (fun d => { d with urgent := insertUrgent r d.urgent })
  match cores.find? (fun c => (s.slot (c * 8 + 7)).state == .empty) with
  | some c => (installTask s (c * 8 + 7) r).getD wait
  | none => wait

/-- The cores that a waiting urgent task may take on a die. -/
def urgentCores (s : State) (die : Nat) (r : TaskRec) : List Nat :=
  (match launchOf s r.world r.launch with
    | some l => rangeCores s r.world l.first l.last
    | none => (s.polder r.world).cores.filter isOwnCore).filter (fun c => dieOfCore c == die)

/-- The first waiting urgent task of a die that has a slot 7, with that slot. -/
def urgentReady (s : State) (die : Nat) : Option (TaskRec × Nat) :=
  (s.die die).urgent.findSome? (fun r =>
    ((urgentCores s die r).find? (fun c => (s.slot (c * 8 + 7)).state == .empty)).map (fun c => (r, c * 8 + 7)))

/-- A waiting urgent task is installed when a slot 7 empties. -/
def execUrgentInstall (die : Nat) (s : State) : Out :=
  match urgentReady s die with
  | none => .next s
  | some (r, k) => .next ((installTask (s.modDie die (fun d => { d with urgent := d.urgent.erase r })) k r).getD s)

end Sys2Proof.Machine
end

