-- ==== Sys2Proof/Machine/Launch.lean ====
section
/-! DEFINITION. Launch queues, launch records, the dispatchers of the dies and task-graph nodes (14 R276 to
R282, R287 to R290, R294; 17 R331; 20 R364). -/

namespace Sys2Proof.Machine

/-! ## Tables -/

/-- An entry of a vector by number. -/
def queueOf (s : State) (world q : Nat) : Queue := ((s.polder world).queues.toList[q]?).getD Queue.reset

def modQueue (s : State) (world q : Nat) (f : Queue → Queue) : State :=
  s.modPolder world (fun p => { p with queues := p.queues.mapFinIdx (fun i x _ => if i = q then f x else x) })

def modLaunch (s : State) (world h : Nat) (f : Launch → Launch) : State :=
  s.modPolder world (fun p => { p with launches := p.launches.map (fun l => if l.handle = h then f l else l) })

/-- The lowest handle that no live launch holds, below 1,023 (R280). -/
def freeHandle (p : Polder) : Option Nat :=
  ((List.range (p.launches.length + 1)).find? (fun h => !p.launches.any (·.handle == h))).filter (· < 1023)

/-- The cluster of the leader die of a queue. -/
def leadCluster (s : State) (world q : Nat) : Nat := dieCluster (queueOf s world q).leader

/-- The codes of the state byte (R278). -/
def LaunchState.code : LaunchState → Nat
  | .queued => 0 | .waiting => 1 | .running => 2 | .done => 3 | .cancelled => 4 | .aborted => 5 | .refused => 6

/-- Write the state byte of a record, as a release at .mod (R277). -/
def writeState (s : State) (world q addr : Nat) (st : LaunchState) : State :=
  match devRelease s (leadCluster s world q) world (addr + 14) [BitVec.ofNat 8 st.code] with
  | .ok t => t
  | .error _ => s

/-- A launch's report to the steward and the hatbox as kind 0x09 (R276, R278). -/
def launchReport (s : State) (world q addr code : Nat) : State :=
  let die := (queueOf s world q).leader
  let ep := dieEndpoint s die
  stewardNote (hatPost s die 0x09 code ep (BitVec.ofNat 64 addr) (BitVec.ofNat 64 world)) ep (BitVec.ofNat 64 addr)
    (BitVec.ofNat 64 code) (BitVec.ofNat 64 world)

/-! ## Reading and checking a record (R277 to R279, R287) -/

/-- The dwords of a record. -/
def recWords (s : State) (world q addr : Nat) : Except (Nat × Nat) (List Word) :=
  match devBytes s (leadCluster s world q) world addr 64 with
  | .ok bs => .ok (toWords bs 8)
  | .error e => .error e

/-- The valid entries of a group table; none if a reserved bit of any entry is set (R12, R279). -/
def groupEntries : Nat → List Word → Option (List (Nat × Nat × Nat × Nat × Bool))
  | g, a :: b :: r =>
    match groupEntries (g + 1) r with
    | none => none
    | some gs =>
      if bits b.toNat 63 34 ≠ 0 then none
      else if !b.getLsbD 33 then some gs
      else some ((g, bits a.toNat 31 0, bits a.toNat 63 32, bits b.toNat 31 0, b.getLsbD 32) :: gs)
  | _, _ => some []

/-- No task is in more than four groups. -/
def fourGroups (count : Nat) (gs : List (Nat × Nat × Nat × Nat × Bool)) : Bool :=
  decide (gs.length ≤ 4) || (List.range count).all (fun i => decide ((gs.filter (memberOf i)).length ≤ 4))

/-- The tasks of a launch that belong to a gang group, rising. -/
def gangMembers (count : Nat) (gs : List (Nat × Nat × Nat × Nat × Bool)) : List Nat :=
  let gang := gs.filter (·.2.2.2.2)
  if gang.isEmpty then [] else (List.range count).filter (fun i => gang.any (memberOf i))

/-- A record from its dwords, with the number of polder cores; none where R278 refuses it. -/
def parseRecord (ws : List Word) (cores : Nat) : Option Launch :=
  let w (i : Nat) : Nat := (ws.getD i 0).toNat
  let kind := bits (w 1) 39 38
  let prio := bits (w 1) 37 32
  let count := bits (w 1) 31 0
  let first := bits (w 4) 18 0
  let last := if bits (w 4) 50 32 = 0x7FFFF then cores - 1 else bits (w 4) 50 32
  if bits (w 0) 63 57 ≠ 0 ∨ bits (w 1) 63 56 ≠ 0 ∨ bits (w 4) 63 51 ≠ 0 ∨ bits (w 4) 31 19 ≠ 0 then none
  else if w 0 % 8 ≠ 0 ∨ 47 < prio then none
  else if (if kind = 0 ∨ kind = 3 then count = 0 else count ≠ 0) then none
  else if (kind = 0 ∨ kind = 3) ∧ w 7 ≠ 0 then none
  else if last < first ∨ cores ≤ last then none
  else if kind = 0 ∧ 40 ≤ prio ∧ w 5 ≠ 0 then none
  else
    some { handle := 0, queue := 0, addr := 0, kind := kind, prio := prio, count := count, target := w 0,
           arg0 := ws.getD 2 0, done := w 3 / 8 * 8 % 2 ^ 57, first := first, last := last, groups := [], linka := w 6,
           linkb := w 7, waits := bits (w 1) 47 40, state := .queued, eligible := false, next := 0, seededAt := [],
           live := 0, chosen := 0, split := 0, gangPlaced := false, loopOf := none, since := 0, order := 0 }

/-- What reading a record gives. -/
inductive Accept where
  | launch (l : Launch)
  | refused
  | fault (code : Nat)
  deriving DecidableEq, Repr

/-- Read a record with its group table. -/
def readRecord (s : State) (world q addr : Nat) : Accept :=
  match recWords s world q addr with
  | .error e => .fault e.1
  | .ok ws =>
    match parseRecord ws (s.polder world).cores.length with
    | none => .refused
    | some l =>
      let table := (ws.getD 5 0).toNat
      if (ownNumbers s world l.first l.last).isEmpty then .refused
      else if l.kind ≠ 0 ∨ table = 0 then .launch l
      else
        match devBytes s (leadCluster s world q) world table 4096 with
        | .error e => .fault e.1
        | .ok bs =>
          match groupEntries 0 (toWords bs 512) with
          | none => .refused
          | some gs =>
            if !fourGroups l.count gs then .refused
            else if 6 * (ownNumbers s world l.first l.last).length < (gangMembers l.count gs).length then .refused
            else .launch { l with groups := gs }

/-! ## Eligibility (R288 to R290) -/

/-- The code range of a launch: the .text section that holds its target (R34). -/
def codeRange (s : State) (world target : Nat) : Nat × Nat :=
  ((s.polder world).code.find? (fun r => decide (r.1 ≤ target) && decide (target < r.2))).getD (0, 0)

/-- The logical core that task `i` of a launch is seeded to: `first + (i mod m)` (R281), over the cores of the range that
stand on this module. -/
def seedNumber (s : State) (world : Nat) (l : Launch) (i : Nat) : Nat :=
  let own := ownNumbers s world l.first l.last
  (own[i % own.length]?).getD l.first

/-- The core of the range that task `i` is seeded to. -/
def seedCore (s : State) (world : Nat) (l : Launch) (i : Nat) : Nat :=
  ((s.polder world).cores[seedNumber s world l i]?).getD 0

/-- The record of task `i` of a launch. -/
def taskOf (s : State) (world : Nat) (l : Launch) (i : Nat) : TaskRec :=
  let (lo, hi) := codeRange s world l.target
  { world := world, prio := l.prio, pc := l.target, arg0 := l.arg0, arg1 := BitVec.ofNat 64 i, launch := l.handle, done := l.done,
    seeded := true, logical := seedNumber s world l i, codeLo := lo, codeHi := hi, since := s.cycle, sig := 0 }

/-- Place every task of an urgent launch from task `i` on (R288). -/
def placeUrgents (s : State) (world h i : Nat) : Nat → State
  | 0 => s
  | n + 1 =>
    match launchOf s world h with
    | none => s
    | some l =>
      let cores := rangeCores s world l.first l.last
      let m := cores.length
      let start := seedCore s world l i
      let s1 := modLaunch s world h (fun l => { l with next := l.next + 1, live := l.live + 1 })
      placeUrgents (placeUrgent s1 (taskOf s world l i) (rotateTo cores (i % m)) (dieOfCore start)) world h (i + 1) n

/-- A record becomes eligible: it joins its level behind the records already there; an urgent kernel starts
at once. -/
def setEligible (s : State) (world h : Nat) : State :=
  let n := s.nextId
  let s1 := modLaunch s.freshId world h (fun l => { l with eligible := true, waits := 0, order := n, since := s.cycle })
  match launchOf s1 world h with
  | some l =>
    if l.kind = 0 ∧ 40 ≤ l.prio then
      let s2 := writeState (modLaunch s1 world h (fun l => { l with state := .running, chosen := n })) world l.queue l.addr .running
      placeUrgents s2 world h 0 l.count
    else s1
  | none => s1

/-- Enter a record in the launch table; none where no handle is free (R280). -/
def enterLaunch (s : State) (world q addr : Nat) (l : Launch) (loopOf : Option Nat) : Option (Nat × State) :=
  (freeHandle (s.polder world)).map (fun h =>
    let l1 := { l with handle := h, queue := q, addr := addr, state := LaunchState.waiting, loopOf := loopOf, since := s.cycle,
                       split := (s.polder world).split }
    (h, s.modPolder world (fun p => { p with launches := p.launches ++ [l1] })))

/-! ## Cancellation (R290) -/

/-- Address of the loop node of a body record. -/
def nodeAddr (s : State) (world : Nat) (l : Launch) : List Nat :=
  match l.loopOf with
  | some h => ((launchOf s world h).map (·.addr)).toList
  | none => []

/-- The records that links of a record of a kind name. -/
def kindLinks (s : State) (world q kind count linka linkb : Nat) : List Nat :=
  if kind = 3 then
    match devBytes s (leadCluster s world q) world linka (8 * (count + 1)) with
    | .ok bs => (toWords bs (count + 1)).map (·.toNat)
    | .error _ => []
  else [linka, linkb]

/-- The records that a record's links name. A body leads back to its loop node, and its own linka is not followed
(R289). -/
def linksOf (s : State) (world q : Nat) (l : Launch) : List Nat :=
  if l.kind = 0 ∧ l.loopOf.isSome then nodeAddr s world l
  else nodeAddr s world l ++ kindLinks s world q l.kind l.count l.linka l.linkb

/-- The records that the links of a refused record name (R290). -/
def refusedLinks (s : State) (world q addr : Nat) : List Nat :=
  match recWords s world q addr with
  | .error _ => []
  | .ok ws =>
    kindLinks s world q (bits (ws.getD 1 0).toNat 39 38) (bits (ws.getD 1 0).toNat 31 0) (ws.getD 6 0).toNat (ws.getD 7 0).toNat

/-- Cancel records that have not started, and what they link to; `fuel` bounds the records visited. -/
def cancelAll (s : State) (world q : Nat) : Nat → List Nat → State
  | 0, _ => s
  | _, [] => s
  | fuel + 1, a :: rest =>
    if a = 0 then cancelAll s world q fuel rest
    else
      match (s.polder world).launches.find? (·.addr == a) with
      | some l =>
        if l.state = .waiting ∨ (l.kind = 2 ∧ (l.state = .running ∨ l.state = .done)) then
          let s1 := writeState (s.modPolder world (fun p => { p with launches := p.launches.erase l })) world q a .cancelled
          cancelAll s1 world q fuel (linksOf s world q l ++ rest)
        else cancelAll s world q fuel rest
      | none =>
        match recWords s world q a with
        | .error _ => cancelAll s world q fuel rest
        | .ok ws =>
          if bits (ws.getD 1 0).toNat 55 48 = 0 then
            let s1 := writeState s world q a .cancelled
            match parseRecord ws (s.polder world).cores.length with
            | some l => cancelAll s1 world q fuel (linksOf s world q l ++ rest)
            | none => cancelAll s1 world q fuel rest
          else cancelAll s world q fuel rest

def cancelFuel : Nat := 65536

/-- LOST and STOPPED contexts of a launch: a hard reset leaves them to the steward (R292). -/
def heldCount (s : State) (world h : Nat) : Nat :=
  let mine (sl : Slot) : Bool := sl.world == world && sl.launch.toNat % 1024 == h
  (s.slots.filter (fun p => p.2.state == .stopped && mine p.2)).length
    + (s.clusters.flatMap (fun p => p.2.cache.filter (fun e => e.lost && mine e.slot))).length

/-- A reset of a queue is done once nothing of its records is left that it discards or waits for; the queue accepts
records again (R291, R292, R364). -/
def resetDone (s : State) (world q : Nat) : State :=
  let busy := (s.polder world).launches.any (fun l => l.queue == q && (l.state != .aborted || decide (heldCount s world l.handle < l.live)))
  if (queueOf s world q).soft ∧ busy = false then
    let bit : BitVec 8 := ~~~(1#8 <<< q)
    ((modQueue s world q (fun x => { x with soft := false })).modPolder world (fun p => { p with
      resetReg := p.resetReg &&& bit, hresetReg := p.hresetReg &&& bit })).next1 (.launchRecordRead world q)
  else s

/-- A launch leaves the table, with its barriers: its handle becomes free. -/
def dropLaunch (s : State) (world h : Nat) : State :=
  s.modPolder world (fun p => { p with
    launches := p.launches.filter (·.handle != h), barriers := p.barriers.filter (·.launch != h) })

/-- A handle of a polder is free: the queues where a record waits for one go on (R280). -/
def wakeQueues (s : State) (w : Nat) : State := (List.range 8).foldl (fun t q => t.next1 (.launchRecordRead w q)) s

/-- A record ends: its state byte is written and its handle becomes free. -/
def closeLaunch (s : State) (world : Nat) (l : Launch) (st : LaunchState) : State :=
  let s1 := writeState (dropLaunch s world l.handle) world l.queue l.addr st
  resetDone (wakeQueues s1 world) world l.queue

/-- A record ends without reaching DONE: its successors are cancelled. -/
def failLaunch (s : State) (world : Nat) (l : Launch) (st : LaunchState) : State :=
  cancelAll (closeLaunch s world l st) world l.queue cancelFuel (linksOf s world l.queue l)

/-- The record that a node of a queue in a soft reset has chosen is set CANCELLED, whatever it was before, and the
cancellation passes down its links (R291). -/
def cancelChosen (s : State) (world q addr : Nat) : State :=
  if addr = 0 then s
  else if (s.polder world).launches.any (·.addr == addr) then cancelAll s world q cancelFuel [addr]
  else cancelAll (writeState s world q addr .cancelled) world q cancelFuel (refusedLinks s world q addr)

/-- Make the record at an address eligible (R289): one that is already accepted, or one that is read now; it joins the
queue that held the node or the predecessor. A link of 0 makes nothing eligible; a queue in a soft reset cancels the
record (R291); without a free handle the record waits (R280). -/
def makeEligible (s : State) (world q addr : Nat) (loopOf : Option Nat) : State :=
  if addr = 0 then s
  else if (queueOf s world q).soft then cancelChosen s world q addr
  else
    match (s.polder world).launches.find? (·.addr == addr) with
    | some l =>
      if l.eligible then s
      else setEligible (modLaunch s world l.handle (fun l => { l with loopOf := loopOf, queue := q })) world l.handle
    | none =>
      let s0 := devHeard s (leadCluster s world q) world addr 64
      match readRecord s0 world q addr with
      | .fault code => launchReport s0 world q addr code
      | .refused =>
        let node := match loopOf with | some n => ((launchOf s world n).map (·.addr)).toList | none => []
        cancelAll (launchReport (writeState s0 world q addr .refused) world q addr 0x08) world q cancelFuel
          (node ++ refusedLinks s0 world q addr)
      | .launch l =>
        match enterLaunch s0 world q addr l loopOf with
        | some (h, s1) => setEligible s1 world h
        | none => modQueue s0 world q (fun x => { x with links := x.links ++ [(addr, loopOf)] })

/-- A record has reached DONE: its successor's waits fall by one at its home, and at 0 it becomes eligible
(R290). -/
def lowerWaits (s : State) (world q addr : Nat) : State :=
  if addr = 0 then s
  else
    match recWords s world q addr with
    | .error _ => s
    | .ok ws =>
      let w := bits (ws.getD 1 0).toNat 47 40
      let s1 :=
        if w = 0 then s
        else match devRelease s (leadCluster s world q) world (addr + 13) [BitVec.ofNat 8 (w - 1)] with | .ok t => t | .error _ => s
      let s2 := match (s1.polder world).launches.find? (·.addr == addr) with
        | some l => modLaunch s1 world l.handle (fun l => { l with waits := w - 1 })
        | none => s1
      if w ≤ 1 then makeEligible s2 world q addr none else s2

/-- A kernel whose last task has ended is DONE (R290, R331); a loop's body brings its node back. -/
def checkDone (s : State) (world h : Nat) : State :=
  match launchOf s world h with
  | some l =>
    if l.kind = 0 ∧ l.state = .running ∧ l.next = l.count ∧ l.live = 0 then
      let s1 := closeLaunch s world l .done
      match l.loopOf with
      | some n => s1.next1 (.nodeEvaluation world n)
      | none => if (queueOf s world l.queue).soft then cancelAll s1 world l.queue cancelFuel [l.linka] else lowerWaits s1 world l.queue l.linka
    else if l.state = .aborted then
      resetDone (if l.live = 0 then wakeQueues (dropLaunch s world h) world else s) world l.queue
    else s
  | none => s

/-- A task of a launch has ended or been discarded (R331). -/
def taskGone (s : State) (world h : Nat) : State :=
  checkDone (modLaunch s world h (fun l => { l with live := l.live - 1 })) world h

/-! ## The leader reads records (R276, R364) -/

/-- A read of a record faults: nothing of it is accepted, the queue stops there, and the fault is reported (R276). -/
def recordFault (s : State) (world queue addr code : Nat) : State :=
  launchReport (modQueue s world queue (fun x => { x with stopped := true })) world queue addr code

/-- The address of the record that a queue reads next. -/
def Queue.at_ (qu : Queue) : Nat := qu.base + 64 * (qu.read % qu.size)

/-- Read and accept the next record of a queue that the tail has passed. -/
def readNext (s : State) (world queue : Nat) : State :=
  let addr := (queueOf s world queue).at_
  let next (t : State) : State :=
    (modQueue t world queue (fun x => { x with read := (x.read + 1) % 2 ^ 32 })).next1 (.launchRecordRead world queue)
  match readRecord s world queue addr with
  | .fault code => recordFault s world queue addr code
  | .refused =>
    let s1 := launchReport (writeState s world queue addr .refused) world queue addr 0x08
    next (cancelAll s1 world queue cancelFuel (refusedLinks s world queue addr))
  | .launch l =>
    -- a record that a link has already made eligible, or that has been cancelled, is passed over
    let st := match recWords s world queue addr with | .ok ws => bits (ws.getD 1 0).toNat 55 48 | .error _ => 0
    if st ≠ 0 ∨ (s.polder world).launches.any (·.addr == addr) then next s
    else
      match enterLaunch s world queue addr l none with
      | none => s
      | some (h, s1) =>
        if l.waits = 0 then next (setEligible s1 world h)
        else next (writeState s1 world queue addr .waiting)

/-- A queue goes on: a linked record that waits for a handle first, then the next record that the tail has passed. Where
the steward walks for the polder, a record whose page no buffer holds waits for its walk (R304). -/
def execLaunchRecordRead (world queue : Nat) (s : State) : Out :=
  let qu := queueOf s world queue
  let cl := leadCluster s world queue
  if !qu.configured || qu.size = 0 || qu.soft || (s.polder world).state != .live || (s.polder world).mig != .none then .next s
  else
    match qu.links, freeHandle (s.polder world) with
    | (addr, node) :: rest, some _ =>
      .next ((makeEligible (modQueue s world queue (fun x => { x with links := rest })) world queue addr node).next1
        (.launchRecordRead world queue))
    | _, _ =>
      if qu.read == qu.tail || qu.stopped then .next s
      else if walksBySteward s world ∧ resolve s cl world qu.at_ = .missing then
        .next (queueMiss s cl world qu.at_ (.queue world queue))
      else .next (readNext (devHeard s cl world qu.at_ 64) world queue)

/-- A host write of a queue's tail publishes records; a stopped queue reads its record again; for a queue that is not
configured the write is ignored and counted (R276, R364). -/
def execLaunchTailWrite (world queue tail : Nat) (s : State) : Out :=
  if (queueOf s world queue).configured = false then .next (s.modPolder world (fun p => { p with ignored := p.ignored + 1 }))
  else .next ((modQueue s world queue (fun x => { x with tail := tail, stopped := false })).next1 (.launchRecordRead world queue))

/-- The steward configures a queue and assigns its leader (R276). -/
def execLaunchQueueConfigure (world queue base size leader : Nat) (s : State) : Out :=
  .next (modQueue s world queue (fun _ => { Queue.reset with configured := true, base := base, size := size, leader := leader }))

/-! ## The choice of a dispatcher (R282, R287) -/

/-- A kernel under way that still has tasks to seed. -/
def Launch.seeding (l : Launch) : Bool := l.kind == 0 && l.state == .running && l.next != l.count && decide (l.prio < 40)

/-- A launch with a gang unit that has not been installed. -/
def Launch.gangWaits (l : Launch) : Bool := !l.gangPlaced && !(gangMembers l.count l.groups).isEmpty

/-- EMPTY general slots of a launch's range: logical order of cores, rising slot. -/
def emptySlots (s : State) (world first last : Nat) : List Nat :=
  (rangeCores s world first last).flatMap (fun c => (generalSlots c).filter (fun k => (s.slot k).state == .empty))

def gangFits (s : State) (world : Nat) (l : Launch) : Bool :=
  decide ((gangMembers l.count l.groups).length ≤ (emptySlots s world l.first l.last).length)

/-- Whether a waiting gang unit of a higher level of the polder keeps a record out of its range. -/
def gangBlocks (s : State) (world : Nat) (l : Launch) : Bool :=
  (s.polder world).launches.any (fun g =>
    g.eligible && g.state == .waiting && g.gangWaits && !gangFits s world g && decide (l.prio < g.prio)
      && decide (g.first ≤ l.last) && decide (l.first ≤ g.last))

/-- The eligible records of a queue in order. -/
def eligibleOf (s : State) (world q : Nat) : List Launch :=
  let rec ins (l : Launch) : List Launch → List Launch
    | [] => [l]
    | x :: xs => if l.order < x.order then l :: x :: xs else x :: ins l xs
  ((s.polder world).launches.filter (fun l => l.queue == q && l.eligible && l.state == .waiting)).foldl (fun a l => ins l a) []

/-- The head record of a queue at a level, if it can be taken now. -/
def headAt (s : State) (world q level : Nat) : Option Launch :=
  match (eligibleOf s world q).find? (·.prio == level) with
  | some l => if (l.gangWaits && !gangFits s world l) || gangBlocks s world l then none else some l
  | none => none

/-- The (polder, queue) pairs that a die leads, in order. -/
def ledPairs (s : State) (die : Nat) : List (Nat × Nat) :=
  (List.range 20).flatMap (fun i =>
    (List.range 8).filterMap (fun q =>
      if (queueOf s (i + 1) q).configured ∧ (queueOf s (i + 1) q).leader = die then some (i + 1, q) else none))

/-- Start the round after the pair served last at the level. -/
def afterPair (last : Option (Nat × Nat)) (ps : List (Nat × Nat)) : List (Nat × Nat) :=
  match last with
  | none => ps
  | some p => ps.filter (fun x => decide (p.1 < x.1) || (x.1 == p.1 && decide (p.2 < x.2)))
      ++ ps.filter (fun x => decide (x.1 < p.1) || (x.1 == p.1 && decide (x.2 ≤ p.2)))

/-- The level that a die's dispatcher seeds at, if it seeds. -/
def seedLevel (s : State) (die : Nat) : Option Nat :=
  ((ledPairs s die).flatMap (fun p => ((s.polder p.1).launches.filter (fun l => l.queue == p.2 && l.seeding && !l.place)).map (·.prio))).foldl
    (fun a x => some (match a with | some b => Nat.max b x | none => x)) none

/-- The record that a die's dispatcher chooses now: of the highest level that has one, above the level that it
seeds at. -/
def choice (s : State) (die : Nat) : Option (Nat × Launch) :=
  let low := match seedLevel s die with | some l => l + 1 | none => 0
  let pairs := ledPairs s die
  ((List.range 48).reverse.filter (fun v => decide (low ≤ v))).findSome? (fun v =>
    (afterPair (NMap.find (s.die die).lastServed v) pairs).findSome? (fun p =>
      (headAt s p.1 p.2 v).map (fun l => (p.1, l))))

/-- A record is taken from its queue: RUNNING, and its pair served last at its level (R278, R282). -/
def takeLaunch (s : State) (die world : Nat) (l : Launch) : State :=
  let n := s.nextId
  let s1 := (modLaunch s.freshId world l.handle (fun l => { l with state := .running, chosen := n })).modDie die (fun d => { d with
    lastServed := NMap.set d.lastServed l.prio (world, l.queue) })
  writeState s1 world l.queue l.addr .running

/-- A free dispatcher chooses (R282): a node is evaluated, a kernel seeded; a gang unit is taken as it is placed, and waits at
the head of its level until then (R287). -/
def execDispatchChoice (die : Nat) (s : State) : Out :=
  match choice s die with
  | none => .next s
  | some (world, l) =>
    .next (if l.kind ≠ 0 then (takeLaunch s die world l).at_ s.cycle (.nodeEvaluation world l.handle)
      else if l.gangWaits then s.at_ s.cycle (.gangPlacement world l.handle) else takeLaunch s die world l)

/-- The EMPTY slots that a gang unit reserves (R287): one on the seeded core of each member that still has one, and
the lowest others for the rest. Which slots are reserved is DEDUCED (log entry 66). -/
def reserveGang (s : State) (world : Nat) (l : Launch) (ms free : List Nat) : List Nat :=
  let own := ms.foldl (fun r i =>
    match free.find? (fun k => !r.contains k && coreOf k == seedCore s world l i) with
    | some k => r ++ [k]
    | none => r) []
  let rest := (free.filter (fun k => !own.contains k)).take (ms.length - own.length)
  free.filter (fun k => own.contains k || rest.contains k)

/-- Gang members take the reserved slots in rising task index: each its seeded core's lowest slot, or the lowest
logical core's that has one (R287). -/
def placeGang (s : State) (world : Nat) (l : Launch) (free : List Nat) : List Nat → State
  | [] => s
  | i :: is =>
    let own := free.find? (fun k => coreOf k == seedCore s world l i)
    match own.orElse (fun _ => free.head?) with
    | none => s
    | some k => placeGang ((installTask s k (taskOf s world l i)).getD s) world l (free.erase k) is

/-- A gang unit takes its slots, if enough are EMPTY; else it goes on waiting (R287). -/
def execGangPlacement (world launch : Nat) (s : State) : Out :=
  match launchOf s world launch with
  | none => .next s
  | some l =>
    let ms := gangMembers l.count l.groups
    let free := emptySlots s world l.first l.last
    if l.state = .waiting ∧ l.eligible = true ∧ l.gangWaits = true ∧ ms.length ≤ free.length then
      let s0 := takeLaunch s (queueOf s world l.queue).leader world l
      let s1 := placeGang s0 world l (reserveGang s world l ms free) ms
      .next (modLaunch s1 world launch (fun l => { l with gangPlaced := true, next := l.next + ms.length, live := l.live + ms.length }))
    else .next s

/-! ## Seeding (R281) -/

/-- The next task of a launch at or after `i` that is seeded to a die. -/
def nextFor (s : State) (die world : Nat) (l : Launch) (i : Nat) : Nat → Option Nat
  | 0 => none
  | n + 1 =>
    if l.count ≤ i then none
    else if dieOfCore (seedCore s world l i) = die ∧ (l.groups.filter (·.2.2.2.2)).any (memberOf i) = false then some i
    else nextFor s die world l (i + 1) n

/-- Push up to `n` tasks of a launch into a die's deques. -/
def seedSome (s : State) (die world h : Nat) : Nat → State
  | 0 => s
  | n + 1 =>
    match launchOf s world h with
    | none => s
    | some l =>
      match nextFor s die world l ((NMap.find l.seededAt die).getD 0) (l.count + 1) with
      | none => s
      | some i =>
        let c := seedCore s world l i
        match pushRecord s c (taskOf s world l i) with
        | none => spillFailed s c
        | some s1 =>
          seedSome (modLaunch s1 world h (fun l => { l with
            next := l.next + 1, live := l.live + 1, seededAt := NMap.set l.seededAt die (i + 1) })) die world h n

/-- The launch that a die's dispatcher seeds: the highest level, the earliest choice, with a task for the
die. -/
def seedTarget (s : State) (die : Nat) : Option (Nat × Launch) :=
  let all := s.polders.flatMap (fun p => (p.2.launches.filter (fun l =>
    l.seeding && !l.place && !l.gangWaits && !gangBlocks s p.1 l
      && (nextFor s die p.1 l ((NMap.find l.seededAt die).getD 0) (l.count + 1)).isSome)).map (fun l => (p.1, l)))
  all.foldl (fun a x =>
    match a with
    | none => some x
    | some b => if b.2.prio < x.2.prio ∨ (b.2.prio = x.2.prio ∧ x.2.chosen < b.2.chosen) then some x else some b) none

/-- One cycle of a dispatcher: up to eight records into the deques of its die. -/
def execTaskSeeding (die : Nat) (s : State) : Out :=
  match seedTarget s die with
  | none => .next s
  | some (world, l) => .next (checkDone (seedSome s die world l.handle 8) world l.handle)

/-- The four dwords of a task record (R280). -/
def TaskRec.words (r : TaskRec) : List Word :=
  [BitVec.ofNat 64 (r.prio * 2 ^ 54 + r.pc / 8), r.arg0, r.arg1, BitVec.ofNat 64 (r.launch * 2 ^ 54 + r.done / 8)]

/-- A task record of a polder from its dwords, for a logical core; none where a reserved bit or value is set (R12, R280). Its
code range is the launch's .text, or for no launch the one that holds its pc (R34). -/
def parseTask (s : State) (world : Nat) (p : HostTask) : Option TaskRec :=
  let prio := bits p.d0.toNat 59 54
  let pc := bits p.d0.toNat 53 0 * 8
  let h := bits p.d3.toNat 63 54
  let l := launchOf s world h
  let (lo, hi) := codeRange s world ((l.map (·.target)).getD pc)
  if bits p.d0.toNat 63 60 ≠ 0 ∨ 47 < prio then none
  else
    some { world := world, prio := prio, pc := pc, arg0 := p.d1, arg1 := p.d2, launch := h, done := bits p.d3.toNat 53 0 * 8,
           seeded := l.isSome, logical := p.logical, codeLo := lo, codeHi := hi, since := s.cycle, sig := 0 }

/-- The cores that an urgent task may take, from a logical core on (R288). -/
def urgentFrom (s : State) (r : TaskRec) : List Nat :=
  match launchOf s r.world r.launch with
  | some l => rotateTo (rangeCores s r.world l.first l.last) ((ownNumbers s r.world l.first l.last).idxOf r.logical)
  | none => rotateTo ((s.polder r.world).cores.filter isOwnCore) r.logical

/-- The task of a record that the host has written: counted for its launch. -/
def hostPlaced (s : State) (r : TaskRec) : State :=
  modLaunch s r.world r.launch (fun l => { l with next := l.next + 1, live := l.live + 1 })

/-- With place = 1 the host pushes a task record to a named logical core (R294); one of level 40 to 47 takes the urgent path
(R288), and a reserved field is reported and nothing is pushed (R12). -/
def execHostTaskPush (world : Nat) (task : HostTask) (s : State) : Out :=
  let placed := (s.splitOf world (bits task.d3.toNat 63 54)).getLsbD 2
  match (s.polder world).cores[task.logical]? with
  | none => .next s
  | some core =>
    if !placed || !isOwnCore core || (s.polder world).state != .live then .next s
    else
      match parseTask s world task with
      | none => .next (stewardNote s (s.moduleNo * 4194304 + core * 8) task.d0 0x08 (BitVec.ofNat 64 world))
      | some r =>
        if 40 ≤ r.prio then .next (placeUrgent (hostPlaced s r) r (urgentFrom s r) (dieOfCore core))
        else
          match pushRecord s core r with
          | none => .next (spillFailed s core)
          | some s1 => .next (hostPlaced s1 r)

/-! ## Nodes (R289) -/

/-- A node's word or table faults: it is REFUSED and reported. -/
def nodeFault (s : State) (world : Nat) (l : Launch) (code : Nat) : State :=
  launchReport (failLaunch s world l .refused) world l.queue l.addr code

/-- A node has chosen: DONE, and the record that its choice names becomes eligible, or is cancelled while the
queue is in a soft reset (R291). -/
def nodeChose (s : State) (world : Nat) (l : Launch) (addr : Nat) : State :=
  let soft := (queueOf s world l.queue).soft
  let s0 := if soft then cancelChosen s world l.queue addr else s
  let s1 := closeLaunch s0 world l .done
  let s2 := match l.loopOf with | some n => s1.next1 (.nodeEvaluation world n) | none => s1
  if soft then s2 else makeEligible s2 world l.queue addr none

/-- A loop node has chosen its body: DONE until the body has ended and the node is evaluated again (R289). -/
def loopChose (s : State) (world : Nat) (l : Launch) : State :=
  let s1 := writeState (modLaunch s world l.handle (fun l => { l with state := .done })) world l.queue l.addr .done
  makeEligible s1 world l.queue l.linka (some l.handle)

/-- A node that is under evaluation, or a loop node whose body has ended. -/
def Launch.evaluates (l : Launch) : Bool := l.kind != 0 && (l.state == .running || (l.kind == 2 && l.state == .done))

/-- The node reads its word, and a switch its table, with acquires at .mod, and chooses (R289). -/
def execNodeEvaluation (world launch : Nat) (s : State) : Out :=
  match launchOf s world launch with
  | none => .next s
  | some l =>
    if l.evaluates = false then .next s
    else
      let cl := leadCluster s world l.queue
      let s0 := writeState (modLaunch (devHeard s cl world l.target 8) world launch (fun l => { l with state := .running }))
        world l.queue l.addr .running
      match devBytes s cl world l.target 8 with
      | .error e => .next (nodeFault s0 world l e.1)
      | .ok bs =>
        let v := leNat bs
        if l.kind = 1 then .next (nodeChose s0 world l (if v ≠ 0 then l.linka else l.linkb))
        else if l.kind = 2 then
          if v = 0 then .next (nodeChose s0 world l l.linkb)
          else if (queueOf s world l.queue).soft then .next (nodeChose s0 world l l.linka)
          else .next (loopChose s0 world l)
        else
          let at_ := l.linka + 8 * Nat.min v l.count
          match devBytes s cl world at_ 8 with
          | .error e => .next (nodeFault s0 world l e.1)
          | .ok ws => .next (nodeChose (devHeard s0 cl world at_ 8) world l (leNat ws))

end Sys2Proof.Machine
end

