-- ==== Sys2Proof/Machine/Task.lean ====
section
/-! DEFINITION. Groups and barriers, SPAWN, TDONE and TYIELD, the release of a context, pops, ageing and stealing
(04 R118; 06 R165, R166; 10 R234, R235; 11 R254 to R256; 14 R283 to R286; 17 R327 to R332). -/

namespace Sys2Proof.Machine

/-! ## Groups and barriers -/

def findBarrier (s : State) (world h g : Nat) : Barrier :=
  ((s.polder world).barriers.find? (fun b => b.launch == h && b.group == g)).getD
    { launch := h, group := g, gen := 0, arrived := [], ended := [], sig := 0 }

def putBarrier (s : State) (world : Nat) (b : Barrier) : State :=
  s.modPolder world (fun p => { p with
    barriers := p.barriers.filter (fun x => !(x.launch == b.launch && x.group == b.group)) ++ [b] })

/-- A task counts as ended in every group barrier that it belongs to (R234). -/
def endMember (s : State) (world h i : Nat) : State :=
  match launchOf s world h with
  | none => s
  | some l =>
    (groupsOfTask l i).foldl (fun t g =>
      let b := findBarrier t world h g.1
      (putBarrier t world { b with
        ended := if b.ended.contains i then b.ended else b.ended ++ [i]
        arrived := b.arrived.filter (·.1 != i) }).next1 (.barrierComplete world h g.1)) s

/-- GBAR (R254, R255): arrive and wait. -/
def execGbar (sc : BitVec 3) (a : Reg) (s : State) : Out :=
  let sl := s.me
  let g := (s.rx a).toNat % 256
  if (List.range 4).any (fun k => sl.groups.getLsbD (32 + k) && bits sl.groups.toNat (8 * k + 7) (8 * k) == g) then
    let h := sl.launch.toNat % 1024
    let b := findBarrier s sl.world h g
    let b1 := { b with
      arrived := b.arrived ++ [(sl.arg1.toNat, coreOf s.cur, sl.ctxNum, sc.toNat)]
      sig := if 3 ≤ sc.toNat then b.sig ||| sl.acc else b.sig }
    let s1 := putBarrier (s.modMe (fun x => { x with fenceRel := false })) sl.world b1
    .next ((park s1 s.cur .waitBarrier (.barrier g sc.toNat)).next1 (.barrierComplete sl.world h g))
  else trapOut s 7 0x11 (BitVec.ofNat 64 g)

/-- Every member has arrived or ended. -/
def barrierFull (l : Launch) (b : Barrier) : Bool :=
  match l.groups.find? (·.1 == b.group) with
  | none => false
  | some g =>
    (List.range l.count).all (fun i =>
      !memberOf i g || b.arrived.any (·.1 == i) || b.ended.contains i)

/-- Cycles from a completion's arrival at the cluster to the release of a member (R235). -/
def stagger (s : State) (core : Nat) : Nat :=
  let cl := clusterOfCore core
  let n := cl % 4096
  (s.cluster cl).stagger.toNat % 256 * (core % 8 + 8 * ((n % 64 + n / 64) % 4))

/-- The last member has arrived or ended: every arrival is released, and a new generation begins (R234,
R235). The completion reaches each cluster after a latency of its own. -/
def execBarrierComplete (world launch group : Nat) (s : State) : Out :=
  match launchOf s world launch with
  | none => .next s
  | some l =>
    let b := findBarrier s world launch group
    if barrierFull l b ∧ b.arrived ≠ [] then
      let s1 := putBarrier s world { b with gen := b.gen + 1, arrived := [], sig := 0 }
      .next (b.arrived.foldl (fun t a =>
        t.at_ (s.cycle + 1 + Config.latency (Config.latBarrier + 16 * (clusterOfCore a.2.1 + 1)) s.free + stagger s a.2.1)
          (.barrierRelease a.2.1 a.2.2.1 b.sig)) s1).tick
    else .next s

/-- A member leaves the barrier: an acquire of the generation's signature (R235, R255, R270). -/
def execBarrierRelease (core num : Nat) (sig : Sig) (s : State) : Out :=
  match (ctxOf s core num).map Slot.wait with
  | some (.barrier _ _) => .next (finishCtx (acquireCtx s core num sig) core num id)
  | _ => .next s

/-! ## The release of a context (R61, R109, R120, R331) -/

/-- Forget what a context waits for; a graph request of it stops at its next object boundary (R336). -/
def forgetWaits (s : State) (c num : Nat) : State :=
  let s1 := (dropWaiters s c num).modCore c (fun co => { co with
    recvq := co.recvq.filter (· != num), trecvq := co.trecvq.filter (· != num) })
  s1.modCluster (clusterOfCore c) (fun cl => { cl with
    kicks := cl.kicks.map (fun r => if r.core = c ∧ r.ctx = num then { r with stop := true } else r)
    rings := cl.rings.map (fun r => { r with waiting := r.waiting.filter (fun w => w.2.2 != .slot c num) }) })

/-- A context's number becomes reusable after twice the packet lifetime; its pins and its cache entry are
freed. -/
def freeContext (s : State) (c num : Nat) : State :=
  let s1 := dropPins (forgetWaits s c num) c num
  let s2 := s1.modCluster (clusterOfCore c) (fun cl =>
    let keep (e : CtxEntry) : Bool := !(e.core == c && e.slot.ctxNum == num)
    { cl with cache := cl.cache.filter keep, spilled := cl.spilled.filter keep })
  ((s2.modCore c (fun co => { co with ctxNums := co.ctxNums.filter (· != num), quarantined := co.quarantined ++ [num] })).at_
    (s.cycle + 2 * Config.packetLifetime) (.contextNumberRelease c num)).next1 (.localTimeModeExit c)

/-- The context of a slot ends: step 4 of TDONE, with `ends` for a task that counts as ended. -/
def releaseSlot (s : State) (k : Nat) (ends : Bool) : State :=
  let sl := s.slot k
  let c := coreOf k
  let h := sl.launch.toNat % 1024
  let s1 := (s.toState k .empty).setSlot k Slot.reset
  let s2 := freeContext s1 c sl.ctxNum
  let s3 := if ends ∧ sl.seeded = true then endMember s2 sl.world h sl.arg1.toNat else s2
  if ends then taskGone s3 sl.world h else s3

/-- A discarded task adds 2^48 to its counter (R328). -/
def addAborted (s : State) (die world done : Nat) : State :=
  if done = 0 then s else counterAdd s (dieCluster die) world done (2 ^ 48)

/-- Discard the context of a slot: a hard reset, an abort, a collection (R114, R124, R292). -/
def discardSlot (s : State) (k : Nat) : State :=
  let sl := s.slot k
  let held := sl.state = .halted ∨ sl.state = .stopped ∨ sl.state = .lost
  let s1 := addAborted s (dieOf k) sl.world sl.done.toNat
  let s2 := releaseSlot s1 k true
  if held then ltThaw s2 (coreOf k) else s2

/-- Discard a swapped context. -/
def discardEntry (s : State) (e : CtxEntry) : State :=
  let sl := e.slot
  let h := sl.launch.toNat % 1024
  let s1 := addAborted s (dieOfCore e.core) sl.world sl.done.toNat
  let s2 := freeContext s1 e.core sl.ctxNum
  let s3 := if sl.seeded then endMember s2 sl.world h sl.arg1.toNat else s2
  taskGone s3 sl.world h

/-! ## Hard reset (R292) -/

/-- Whether a record or a context belongs to a world and to a launch that `p` holds of. -/
def ownTask (world : Nat) (p : Nat → Bool) (w h : Nat) : Bool := w == world && p h

/-- A task record is discarded: the task counts as ended in its groups (R234). -/
def discardRec (s : State) (die : Nat) (r : TaskRec) : State :=
  let s1 := addAborted s die r.world r.done
  taskGone (if r.seeded then endMember s1 r.world r.launch r.arg1.toNat else s1) r.world r.launch

/-- Discard the queued records of some launches of a world. -/
def discardRecs (s : State) (world : Nat) (p : Nat → Bool) : State :=
  let mine (r : TaskRec) : Bool := ownTask world p r.world r.launch
  let recs := s.cores.flatMap (fun c => ((c.2.deque ++ c.2.spilled.flatMap id).filter mine).map (fun r => (dieOfCore c.1, r)))
    ++ s.dies.flatMap (fun d => (d.2.urgent.filter mine).map (fun r => (d.1, r)))
  let s1 := { s with
    cores := s.cores.map (fun c => (c.1, { c.2 with
      deque := c.2.deque.filter (fun r => !mine r)
      spilled := (c.2.spilled.map (fun b => b.filter (fun r => !mine r))).filter (fun b => !b.isEmpty) }))
    dies := s.dies.map (fun d => (d.1, { d.2 with urgent := d.2.urgent.filter (fun r => !mine r) })) }
  recs.foldl (fun t r => discardRec t r.1 r.2) s1

/-- Discard the swapped contexts of some launches of a world, and the slots that take them in or give them up. -/
def discardEntries (s : State) (world : Nat) (p : Nat → Bool) : State :=
  let es := s.clusters.flatMap (fun c => (c.2.cache ++ c.2.spilled).filter (fun e =>
    !e.lost && ownTask world p e.slot.world (e.slot.launch.toNat % 1024) && (ctxSlot s e.core e.slot.ctxNum).isNone))
  es.foldl (fun t e =>
    let t1 := ((List.range 8).map (e.core * 8 + ·)).foldl (fun u k =>
      if (u.slot k).state = .swapped ∧ (u.slot k).ctxNum = e.slot.ctxNum then (u.toState k .empty).setSlot k Slot.reset else u) t
    discardEntry t1 e) s

/-- Discard the contexts in slots of some launches of a world: a READY one at its next issue turn, any other at once; a
LOST or STOPPED one is left to the steward. -/
def discardSlots (s : State) (world : Nat) (p : Nat → Bool) : State :=
  (s.slots.filter (fun q => ownTask world p q.2.world (q.2.launch.toNat % 1024))).foldl (fun t q =>
    match (t.slot q.1).state with
    | .empty | .lost | .stopped => t
    | .ready => t.modSlot q.1 (fun sl => { sl with doomed := true })
    | _ => discardSlot t q.1) s

/-- Discard all tasks of some launches of a world. -/
def discardTasks (s : State) (world : Nat) (p : Nat → Bool) : State :=
  discardSlots (discardEntries (discardRecs s world p) world p) world p

/-- A launch of a hard-reset queue: ABORTED, and its successors cancelled. -/
def abortLaunch (s : State) (world : Nat) (l : Launch) : State :=
  let links := linksOf s world l.queue l
  let s1 := writeState s world l.queue l.addr .aborted
  let s2 := modLaunch s1 world l.handle (fun x => { x with state := .aborted, eligible := false, addr := 0, next := x.count })
  cancelAll s2 world l.queue cancelFuel links

/-- The linked records that wait for a handle in a queue that is reset, and the loop nodes whose bodies they are, are
cancelled (R290 to R292). -/
def dropLinks (s : State) (world q : Nat) : State :=
  let node (x : Nat × Option Nat) : List Nat := match x.2 with | some n => ((launchOf s world n).map (·.addr)).toList | none => []
  let ls := (queueOf s world q).links
  cancelAll (modQueue s world q (fun x => { x with links := [] })) world q cancelFuel (ls.flatMap (fun x => x.1 :: node x))

/-- A hard reset of a launch queue (R276, R292). -/
def hardReset (s : State) (world q : Nat) : State :=
  let ls := (s.polder world).launches.filter (fun l => l.queue == q && l.state != .aborted)
  let s1 := (modQueue s world q (fun x => { x with soft := true, stopped := false, read := x.tail })).modPolder world (fun p => { p with
    hresetReg := p.hresetReg ||| (1#8 <<< q) })
  let s2 := dropLinks (ls.foldl (fun t l => abortLaunch t world l) s1) world q
  let s3 := discardTasks s2 world (fun h => ls.any (·.handle == h))
  resetDone (ls.foldl (fun t l => checkDone t world l.handle) s3) world q

def execVfHardReset (world queue : Nat) (s : State) : Out :=
  if 8 ≤ queue then .next s else .next (hardReset s world queue)

/-! ## Soft reset (R291) -/

/-- Whether task `i` of a launch has been seeded or installed. -/
def seededAlready (s : State) (world : Nat) (l : Launch) (i : Nat) : Bool :=
  if (l.groups.filter (·.2.2.2.2)).any (memberOf i) then l.gangPlaced
  else decide (i < (NMap.find l.seededAt (dieOfCore (seedCore s world l i))).getD 0)

/-- The tasks of a launch that have not been seeded are cancelled: each counts as ended in its groups (R234, R291), and no
more of the launch is seeded. -/
def cancelRest (s : State) (world : Nat) (l : Launch) : State :=
  let s1 := ((List.range l.count).filter (fun i => !seededAlready s world l i)).foldl (fun t i => endMember t world l.handle i) s
  modLaunch s1 world l.handle (fun x => { x with next := x.count })

/-- A record of a queue in a soft reset: not yet seeded, it is cancelled; seeded in part, no more of it is seeded; a node
under evaluation goes on. -/
def softLaunch (s : State) (world : Nat) (l : Launch) : State :=
  if l.state = .waiting ∨ (l.kind = 0 ∧ l.state = .running ∧ l.next = 0 ∧ l.live = 0) then failLaunch s world l .cancelled
  else if l.kind = 0 ∧ l.state = .running ∧ l.next ≠ l.count then
    checkDone (cancelRest s world l) world l.handle
  else s

def softReset (s : State) (world q : Nat) : State :=
  let s1 := (modQueue s world q (fun x => { x with soft := true, stopped := false, read := x.tail })).modPolder world (fun p => { p with
    resetReg := p.resetReg ||| (1#8 <<< q) })
  let hs := ((s.polder world).launches.filter (fun l => l.queue == q)).map (·.handle)
  resetDone (dropLinks (hs.foldl (fun t h => match launchOf t world h with | some l => softLaunch t world l | none => t) s1) world q) world q

def execVfSoftReset (world queue : Nat) (s : State) : Out :=
  if 8 ≤ queue then .next s else .next (softReset s world queue)

/-- A context number becomes reusable (R61). -/
def execContextNumberRelease (core num : Nat) (s : State) : Out :=
  .next (s.modCore core (fun co => { co with quarantined := co.quarantined.filter (· != num) }))

/-! ## SPAWN (R329, R330) -/

/-- The checks of SPAWN in order, before the push. -/
def spawnCode (s : State) (inh : Bool) (e dn : Nat) : Nat :=
  let sl := s.me
  if (inh && bits e 63 57 != 0) || (!inh && (e / 2 ^ 57 % 2 == 1 || decide (47 < bits e 63 58))) || bits dn 63 57 != 0 then 0x05
  else if e % 8 ≠ 0 ∨ dn % 8 ≠ 0 then 0x0F
  else if bits e 56 0 < sl.codeLo ∨ sl.codeHi ≤ bits e 56 0 then 0x08
  else
    match launchOf s sl.world (sl.launch.toNat % 1024) with
    | some l => if (queueOf s sl.world l.queue).soft then 0x30 else 0
    | none => 0

def execSpawn (i : BitVec 1) (d a b c : Reg) (s : State) : Out :=
  guardX s d <|
    let k := s.cur
    let core := coreOf k
    let sl := s.me
    let e := (s.rx a).toNat
    let dn := (s.rx (c + 1)).toNat
    let code := spawnCode s (i == 1) e dn
    let h := sl.launch.toNat % 1024
    let prio := if i = 1 then sl.prio else bits e 63 58
    let r : TaskRec :=
      { world := sl.world, prio := prio, pc := bits e 56 0, arg0 := s.rx b, arg1 := s.rx c, launch := h, done := dn,
        seeded := false, logical := sl.logical.toNat, codeLo := sl.codeLo, codeHi := sl.codeHi, since := s.cycle, sig := sl.acc }
    let s1 := s.modMe (·.startToken d)
    let ans (t : State) (x : Nat) : Out := .next (t.later Config.latMesh (.completionWrite core sl.ctxNum d.toNat (BitVec.ofNat 64 x) 0))
    let pushed (t : State) : Out := ans (modLaunch (t.modMe (fun x => { x with fenceRel := false })) sl.world h (fun l => { l with live := l.live + 1 })) 0
    if code ≠ 0 then ans s1 code
    else if 40 ≤ prio then
      let cores := urgentCores s (dieOf k) r
      pushed (placeUrgent s1 r (rotateTo cores (cores.idxOf core)) (dieOf k))
    else
      match pushRecord s1 core r with
      | some t => pushed t
      | none => ans (spillFailed s1 core) 0x31

/-! ## TDONE and TYIELD (R331, R332) -/

/-- Step 1: wait until no register is pending; step 2: until every request has completed. -/
def drainOut (s : State) (r : MemReq) : Out :=
  let sl := s.me
  if sl.pending ≠ 0 then .next (park s s.cur .waitToken (.mem r))
  else
    let s1 := park s s.cur .waitMem (.mem { r with phase := 1 })
    if sl.outstanding ≠ 0 then .next s1 else .next (s1.later Config.latReply (.remoteReply (.ctx (coreOf s.cur) sl.ctxNum) .done 0))

def execTdone (s : State) : Out :=
  if s.cur % 8 = 6 then trapOut s 1 0x01 (aBits .tdone)
  else drainOut s { MemReq.new .tdone 16 0 [] with acq := true, rel := true, scope := 4 }

def execTyield (d a b : Reg) (s : State) : Out :=
  guardX s d <|
    drainOut s { MemReq.new .tyield 0 d.toNat [] with acq := true, rel := true, scope := 4, cmp := s.rx a, extra := s.rx b }

/-- The fence of step 2, with the block counters of the world flushed (R106, R273, R310). -/
def drainFence (s : State) (c num : Nat) (r : MemReq) : State :=
  let world := ((ctxOf s c num).map (·.world)).getD 0
  flushWorld (fenceEffect s c num { r with w := 1 }) (clusterOfCore c) world

/-- Step 3 of TDONE, the counter's add, or step 4. -/
def tdoneAdd (s : State) (k : Nat) (r : MemReq) : State :=
  let sl := s.slot k
  let c := coreOf k
  if sl.done = 0 then releaseSlot s k true
  else
    let r1 := { r with phase := 2, vas := span sl.done.toNat 8, data := toLe 1 8, acq := false }
    let s1 := s.modSlot k (fun x => { x with addSent := true, wait := .mem r1 })
    retryAccess s1 c sl.ctxNum r1

/-- The continuation of TYIELD, or the reason it has none. -/
def tyieldEnd (s : State) (k : Nat) (r : MemReq) : State :=
  let sl := s.slot k
  let c := coreOf k
  let h := sl.launch.toNat % 1024
  let e := r.cmp.toNat
  let gang := match launchOf s sl.world h with
    | some l => sl.seeded && (groupsOfTask l sl.arg1.toNat).any (·.2.2.2.2)
    | none => false
  let rd (code : Nat) (t : State) : State := finishBundle (t.modSlot k (·.putX (regOf r.rd) (BitVec.ofNat 64 code))) k
  if gang then rd 0x32 s
  else if e % 8 ≠ 0 ∨ bits e 63 57 ≠ 0 then takeTrapAt s k 0x03 r.cmp
  else
    let t : TaskRec :=
      { world := sl.world, prio := sl.prio, pc := e, arg0 := r.extra, arg1 := sl.arg1, launch := h, done := sl.done.toNat,
        seeded := sl.seeded, logical := sl.logical.toNat, codeLo := sl.codeLo, codeHi := sl.codeHi, since := s.cycle, sig := sl.acc }
    if 40 ≤ sl.prio then releaseSlot (s.modDie (dieOf k) (fun d => { d with urgent := insertUrgent t d.urgent })) k false
    else
      match pushAt s c t true with
      | some s1 => releaseSlot s1 k false
      | none => rd 0x31 (spillFailed s c)

/-- A TDONE or TYIELD goes on when what it waits for has come. -/
def drainReply (s : State) (c num : Nat) (r : MemReq) : State :=
  match ctxSlot s c num with
  | none => s
  | some k =>
    let sl := s.slot k
    if r.phase = 0 then
      if sl.pending ≠ 0 then s
      else
        let s1 := park s k .waitMem (.mem { r with phase := 1 })
        if sl.outstanding ≠ 0 then s1 else s1.next1 (.remoteReply (.ctx c num) .done 0)
    else if r.phase = 1 then
      if sl.outstanding ≠ 0 then s
      else
        let s1 := drainFence s c num r
        match r.op with
        | .tdone => tdoneAdd s1 k r
        | _ => tyieldEnd s1 k r
    else if r.vas.length ≤ r.pos then releaseSlot s k true
    else s

/-! ## Pops, spills and ageing (R165, R166, R283, R285) -/

/-- An EMPTY general slot receives an item; the next one follows in the same cycle. -/
def execTaskPop (core world : Nat) (s : State) : Out :=
  match popTask s core world with
  | none => .next s
  | some t =>
    .next (if (emptyGeneral t core).isSome && ((readySwapped t core world).head?.isSome || (bottomOf t core world).isSome) then
      t.at_ t.cycle (.taskPop core world) else t)

/-- The latest-spilled batch is read back above the resident records (R166). -/
def execDequeReadback (core world : Nat) (s : State) : Out :=
  let co := s.core core
  match co.spilled.getLast? with
  | some b =>
    if co.deque.length < 16 ∧ b.any (·.world == world) = true then
      if Config.spillFails s.free then .next (spillFailed s core)
      else
        .next (becameReady (s.modCore core (fun co => { co with deque := co.deque ++ b, spilled := co.spilled.dropLast })).tick core world)
    else .next s
  | none => .next s

/-- Whether an item that has waited since a cycle at a level rises (R283). -/
def ages (s : State) (world prio since : Nat) : Bool :=
  let lim := (s.polder world).ageLimit.toNat
  lim != 0 && decide (prio < 39) && decide (since + lim ≤ s.cycle)

def ageRec (s : State) (r : TaskRec) : TaskRec := if ages s r.world r.prio r.since then { r with prio := r.prio + 1, since := s.cycle } else r

/-- Whether a swapped context waits ready on a core. -/
def waitsReady (s : State) (e : CtxEntry) : Bool :=
  !e.lost && e.slot.saved == .ready && (ctxSlot s e.core e.slot.ctxNum).isNone

def ageEntry (s : State) (core : Nat) (e : CtxEntry) : CtxEntry :=
  if e.core = core ∧ waitsReady s e = true ∧ ages s e.slot.world e.slot.prio e.since = true then
    { e with slot := { e.slot with prio := e.slot.prio + 1 }, since := s.cycle }
  else e

/-- The accepted records that wait in the queues led by a die and have waited their limit rise one level. -/
def ageLaunches (s : State) (die : Nat) : State :=
  { s with polders := s.polders.map (fun p => (p.1, { p.2 with launches := p.2.launches.map (fun l =>
      if (queueOf s p.1 l.queue).leader = die ∧ l.eligible = true ∧ l.state = .waiting ∧ ages s p.1 l.prio l.since = true then
        { l with prio := l.prio + 1, since := s.cycle } else l) })) }

/-- Records and ready contexts of a core that have waited their limit rise one level; at the first core of a die
so do the records of the queues that the die leads. -/
def execAgeingRaise (core : Nat) (s : State) : Out :=
  let s1 := s.modCore core (fun co => { co with
    deque := co.deque.map (ageRec s), spilled := co.spilled.map (fun b => b.map (ageRec s)) })
  let s2 := s1.modCluster (clusterOfCore core) (fun cl => { cl with
    cache := cl.cache.map (ageEntry s core), spilled := cl.spilled.map (ageEntry s core) })
  let s3 := if core % 32768 = 0 then ageLaunches s2 (core / 32768) else s2
  .next ((s.core core).shares.foldl (fun t p => becameReady t core p.1) s3)

/-! ## Stealing (R286) -/

/-- The ring of dies. -/
def dieRing : List Nat := [0, 1, 2, 3, 7, 6, 5, 4, 8, 9, 10, 11, 15, 14, 13, 12]

/-- The die tried at a step: the own die, then forward and back alternately. -/
def stealDie (own step : Nat) : Nat :=
  let at_ := dieRing.idxOf own
  (dieRing[(if step % 2 = 1 then at_ + (step + 1) / 2 else at_ + 16 - step / 2) % 16]?).getD own

/-- The cores of a die where a world has a share. -/
def sharedCores (s : State) (die world : Nat) : List Nat :=
  (s.cores.filter (fun p => dieOfCore p.1 == die && (NMap.find p.2.shares world).isSome)).map (·.1)

/-- A core may steal for a world: not for one whose tasks the host places, unless work of a launch that it does not place is
there (R293, R294). -/
def maySteal (s : State) (c world : Nat) : Bool :=
  shareOn s c world && (emptyGeneral s c).isSome && (readyPrios s c world).isEmpty
    && (!(s.polder world).split.getLsbD 2 || (s.polder world).launches.any (fun l => !l.place))
    && (s.polder world).state == .live

def modSteal (s : State) (c world : Nat) (f : Steal → Steal) : State :=
  s.modCore c (fun co => setSteal co world (f (stealOf co world)))

/-- Every die has been tried: the core waits (R286, step 3). -/
def stealFailed (s : State) (c world : Nat) : State :=
  (modSteal s c world (fun x => { x with active := false, backoff := some (s.cycle + 4096) })).at_ (s.cycle + 4096) (.stealBackoffEnd c world)

/-- Send the next request from a step on; a die where the world has no share, or that cannot be reached, is
skipped. -/
def stealFrom' (s : State) (c world step tries : Nat) : Nat → State
  | 0 => stealFailed s c world
  | fuel + 1 =>
    let own := dieOfCore c
    let die := stealDie own step
    let targets := sharedCores s die world
    if 16 ≤ step then stealFailed s c world
    else if targets.isEmpty ∨ crossesDown s own die = true then stealFrom' s c world (step + 1) 0 fuel
    else
      let t := (targets[Config.stealTarget c s.free % targets.length]?).getD c
      let msg (w : ReplyTo) : ActiveMsg :=
        { op := .steal, world := world, off := 0, size := 0, data := [], cmp := 0, sig := 0, acq := false,
          sender := s.moduleNo * 4194304 + c * 8, from_ := w }
      let s1 := (modSteal s c world (fun x => { x with active := true, dieStep := step, tries := tries, backoff := none })).tick
      if die = own then sendActive s1 t (msg (.thief c world))
      else
        match drawTag s1 own (.thief c world) s.moduleNo with
        | some (idx, gen, s2) => sendActive s2 t (msg (.tag own idx gen))
        | none => (modSteal s1 c world (fun x => { x with active := false })).next1 (.stealRequest c world)

/-- A core with an EMPTY slot and nothing ready for a world sends a steal request. -/
def execStealRequest (core world : Nat) (s : State) : Out :=
  let st := stealOf (s.core core) world
  if st.active ∨ st.backoff.isSome = true ∨ maySteal s core world = false then .next s
  else .next (stealFrom' s core world 0 0 17)

/-- A stolen record, with its level, handle and wait count: installed, or put at the bottom of the deque, where it waits in
the mesh until there is room (R166, R286). One whose launch has been aborted meanwhile is discarded. -/
def stolen (s : State) (core world : Nat) (r : TaskRec) : State :=
  let gone : Bool := match launchOf s r.world r.launch with
    | some l => l.state == .aborted
    | none => (s.polder r.world).state != .live
  if gone then discardRec s (dieOfCore core) r
  else
    let queued : State := match putRecord s core r false with
      | some t => t
      | none => (spillFailed s core).next1 (.stealReplyArrival core ⟨world, some r⟩)
    match emptyGeneral s core with
    | some k => (installTask s k r).getD queued
    | none => queued

/-- The answer to a steal request: the record is taken, or the next request goes out (R286). -/
def execStealReplyArrival (core : Nat) (r : StealAnswer) (s : State) : Out :=
  let world := r.world
  let s0 := match tagOf s (dieOfCore core) (.thief core world) with | some i => freeTag s (dieOfCore core) i | none => s
  let st := stealOf (s0.core core) world
  match r.task with
  | some t =>
    .next (stolen ((modSteal s0 core world (fun x => { x with active := false })).next1 (.localTimeModeExit core)) core world t)
  | none =>
    if !st.active then .next s0
    else if !maySteal s0 core world then .next (modSteal s0 core world (fun x => { x with active := false }))
    else if st.tries < 7 then .next (stealFrom' s0 core world st.dieStep (st.tries + 1) 17)
    else .next (stealFrom' s0 core world (st.dieStep + 1) 0 17)

/-- The wait after a full failure ends. -/
def execStealBackoffEnd (core world : Nat) (s : State) : Out :=
  match (stealOf (s.core core) world).backoff with
  | some t => .next (if t ≤ s.cycle then modSteal s core world (fun x => { x with backoff := none }) else s)
  | none => .next s

end Sys2Proof.Machine
end

