-- ==== Sys2Proof/Machine/Context.lean ====
section
/-! DEFINITION. Contexts: pre-emption, save, install, spill, lazy restore, slices, the watchdog, notices, the
steward's actions on traps, debug stops and breakpoints; and what runs with the cycle count (02 R47, R59; 04 R114,
R116 to R126; 06 R167; 13 R268; 15 R307, R311; 19 R347). -/

namespace Sys2Proof.Machine

/-! ## Counts that run with the cycle -/

/-- A long-latency result is written and the bundle commits (R65, R74). -/
def execLongLatencyResult (slot : Nat) (s : State) : Out :=
  let sl := s.slot slot
  if s.cycle < sl.longUntil then .next s
  else
    match sl.wait with
    | .long (some (r, w)) => .next (finishBundle (s.modSlot slot (·.putX (regOf r) w)) slot)
    | .long none => .next (finishBundle s slot)
    | .longHalt => .next (finishBundle s slot)
    | _ => .next s

/-- Every 256 cycles the budget is full again (R167). -/
def execEnergyRefill (core : Nat) (s : State) : Out := .next (s.modCore core (fun co => { co with energy := 1024 }))

def Slot.ageAcc (sl : Slot) : Slot := { sl with accPrev := sl.accCur, accCur := 0 }

def agePubs (m : NMap PubSig) : NMap PubSig := m.map (fun p => (p.1, p.2.age))

/-- Every 32,768 cycles the current banks become the previous ones (R268, R270). -/
def execSignatureBankAge (s : State) : Out :=
  .next { s with
    slots := s.slots.map (fun p => (p.1, p.2.ageAcc))
    cores := s.cores.map (fun p => (p.1, { p.2 with pubSig := agePubs p.2.pubSig }))
    dies := s.dies.map (fun p => (p.1, { p.2 with
      pubSig := agePubs p.2.pubSig
      spaces := p.2.spaces.map (fun q => (q.1, { q.2 with landed := q.2.landed.age })) })) }

/-- The core rewrites the header of its trace buffer (R307). -/
def execTraceHeaderRewrite (core : Nat) (s : State) : Out := .next (traceHeader s core)

/-- A line leaves its home cache for HBM, sealed with its owner's keys (R347). -/
def execHbmWriteBack (line : Nat) (s : State) : Out :=
  if (NMap.find s.hbm line).isSome then .next s
  else
    match sealLine s line (s.peekMem (line * 64) 64) with
    | none => .next s
    | some h => .next { s.pokeMem (line * 64) (List.replicate 64 0) with hbm := NMap.set s.hbm line h }

/-! ## Notices (R116) -/

/-- A pending notice is taken before the bundle of this turn; the alarm first. -/
def execNoticeTaken (slot : Nat) (s : State) : Out :=
  let sl := s.slot slot
  if sl.state ≠ .ready ∨ sl.inh = true then .next s
  else
    match sl.alarm, sl.undelivered with
    | some v, _ => .next (takeTrapAt (s.modSlot slot (fun x => { x with alarm := none })) slot 0x113 v)
    | none, some t => .next (takeTrapAt (s.modSlot slot (fun x => { x with undelivered := none })) slot 0x114 t)
    | none, none => .next s

/-! ## Lazy restore (R121) -/

/-- The bundle at an address, if the core instruction cache holds its line. -/
def fetchBundle (s : State) (k : Nat) : Option Word :=
  let sl := s.slot k
  let pc := sl.pc.toNat
  match (s.core (coreOf k)).icache.find? (fun l => l.world == sl.world && l.line == pc / 64) with
  | some l => l.bundles[pc % 64 / 8]?
  | none => none

/-- The absent registers that the next bundle of a slot reads. -/
def missing (s : State) (k : Nat) : List Nat :=
  match fetchBundle s k with
  | none => []
  | some b =>
    match decodeBundle b with
    | (.ok a, .ok v) => (absentRegs (s.slot k) (regUse a) (regUse v)).eraseDups
    | _ => []

/-- The slot leaves the rotation for eight cycles for each absent register, or for memory latency where its entry
has been spilled. -/
def execRegisterMissMicroTrap (slot : Nat) (s : State) : Out :=
  let c := coreOf slot
  let num := (s.slot slot).ctxNum
  let rs := missing s slot
  if rs.isEmpty then .next s
  else
    let s1 := park (s.modCore c (fun co => { co with misses := co.misses + 1 })) slot .waitMem (.regMiss rs)
    if hasEntry c num (s.cluster (clusterOf slot)).spilled then .next (s1.later Config.latSpill (.spillReadback c num))
    else .next (s1.at_ (s.cycle + 8 * rs.length + 1) (.registerFetchDone slot))

def markPresent (rs : List Nat) (sl : Slot) : Slot :=
  { sl with present := rs.foldl (fun m n => m ||| (1#64 <<< n)) sl.present, wait := .none }

/-- The absent registers have come, or the entry fails its integrity check and the bundle traps (R121). -/
def execRegisterFetchDone (slot : Nat) (s : State) : Out :=
  match (s.slot slot).wait with
  | .regMiss rs =>
    let sl := s.slot slot
    if s.poison.contains (.ctx (coreOf slot) sl.ctxNum) then
      .next (takeTrapAt s slot 0x12 (BitVec.ofNat 64 (Config.entryAddress (coreOf slot) sl.ctxNum)))
    else .next ((s.modSlot slot (markPresent rs)).toReady slot)
  | _ => .next s

/-! ## Save and install (R117 to R120, R124) -/

/-- The saved form of a context: a bundle that can issue again does so after the install (R331), any other goes
on waiting in the entry (R60). -/
def savedForm (s : State) (sl : Slot) : Slot :=
  let used := s.cycle - sl.installedAt
  let again : Slot := { sl with saved := .ready, wait := .none, held := Held.none, streamsRead := 0 }
  let base : Slot :=
    match sl.wait with
    | .fetch _ | .regMiss _ => again
    | .mem r =>
      match r.op with
      | .tdone | .tyield => again
      | .fence => if r.w = 1 then again else { sl with saved := sl.state }
      | _ => { sl with saved := sl.state }
    | _ => { sl with saved := sl.state }
  { base with
    state := .swapped, accCur := BitVec.allOnes 512, accPrev := BitVec.allOnes 512
    sliceUsed := if (s.polder sl.world).slice.toNat ≤ used then 0 else used }

/-- Begin the save of slot `k` for an item of its world of priority `p` (R119): the context moves to its entry
and the slot is SWAPPED; the accumulator is folded into the core's publication signature (R268). A save without a free
entry waits for a spill: `outstanding` of the slot is 1 until then (R120). A context that is READY becomes a ready item
(R284). -/
def beginSave (s : State) (k p : Nat) : State :=
  let c := coreOf k
  let sl := s.slot k
  let e : CtxEntry := { core := c, slot := savedForm s sl, lastUse := s.cycle, lost := false, since := s.cycle }
  let s1 := publishCore (s.toState k .swapped) c sl.world sl.acc
  let s2 := s1.modCluster (clusterOf k) (fun cl =>
    if hasEntry c sl.ctxNum cl.cache then { cl with cache := modEntry c sl.ctxNum (fun _ => e) cl.cache }
    else
      { cl with
        cache := cl.cache ++ [e]
        spilled := cl.spilled.filter (fun x => !(x.core == c && x.slot.ctxNum == sl.ctxNum)) })
  let spills := !hasEntry c sl.ctxNum (s.cluster (clusterOf k)).cache && decide (32 ≤ (s.cluster (clusterOf k)).cache.length)
  let s3 := s2.setSlot k { Slot.reset with
    state := .swapped, saved := .swapped, world := sl.world, prio := p, ctxNum := sl.ctxNum, launch := noLaunch,
    waitSince := s.cycle, outstanding := if spills then 1 else 0 }
  let s4 := if e.slot.saved = .ready then s3.next1 (.preemption c sl.world) else s3
  if spills then s4.next1 (.contextSpill (clusterOf k)) else s4.within Config.latSave 24 (.contextSave k)

/-- A watchdog record (R123, R124). -/
def watchdogRecord (s : State) (k : Nat) (st : SlotState) (pc : Word) : State :=
  let ep := (endpoint s k).toNat
  stewardNote (hatPost s (dieOf k) 0x02 0 ep pc (BitVec.ofNat 64 st.code)) ep pc (BitVec.ofNat 64 st.code) 0

/-- The item that a freed slot receives: the oldest ready context of the priority, or the bottom-most record
of it. The context that has just been saved is not the item it was pre-empted for (R118, DEDUCED, log entry 67). -/
def incoming (s : State) (k world p : Nat) : State :=
  let c := coreOf k
  match (readySwapped s c world).find? (fun e => e.slot.prio == p && e.slot.ctxNum != (s.slot k).ctxNum) with
  | some e => installSwapped s k e
  | none =>
    match (s.core c).deque.find? (fun r => r.world == world && r.prio == p) with
    | some r => (installTask (s.modCore c (fun co => { co with deque := co.deque.erase r })) k r).getD (s.setSlot k Slot.reset)
    | none => s.setSlot k Slot.reset

/-- A save completes; while a spill for it is outstanding it waits. The record of a save that has outlasted the watchdog
names the pc of the context (R123, R124). -/
def execContextSave (slot : Nat) (s : State) : Out :=
  let sl := s.slot slot
  if sl.state ≠ .swapped ∨ sl.saved ≠ .swapped ∨ sl.outstanding ≠ 0 then .next s
  else
    let late := (s.polder sl.world).wdog.toNat ≤ s.cycle - sl.waitSince
    let pc := ((ctxEntry s (coreOf slot) sl.ctxNum).map (·.slot.pc)).getD 0
    let s1 := if late then watchdogRecord s slot .swapped pc else s
    .next (incoming s1 slot sl.world sl.prio)

/-- An incoming context is READY, or STOPPED where a stop is pending (R119, R125). -/
def execContextInstall (slot : Nat) (s : State) : Out :=
  let c := coreOf slot
  let sl := s.slot slot
  if sl.state ≠ .swapped ∨ sl.saved ≠ .ready then .next s
  else
    let s1 :=
      match ctxEntry s c sl.ctxNum with
      | some e =>
        let s2 := s.setSlot slot { e.slot with
          state := .swapped, saved := .empty, present := 1, installedAt := s.cycle - e.slot.sliceUsed, lastInstall := s.cycle,
          waitSince := s.cycle
          accCur := BitVec.allOnes 512, accPrev := BitVec.allOnes 512 }
        s2.modEntryAt c sl.ctxNum (fun x => { x with lastUse := s.cycle })
      | none => s.setSlot slot { sl with saved := .empty, installedAt := s.cycle, lastInstall := s.cycle }
    .next (syncStreams (s1.toReady slot) slot)

/-- The entry that a spill takes: the least recently used one that is not LOST. -/
def spillVictim (l : List CtxEntry) : Option CtxEntry :=
  (l.filter (!·.lost)).foldl (fun a e => match a with | none => some e | some b => if e.lastUse < b.lastUse then some e else some b) none

/-- The first slot of a cluster whose save waits for a spill. -/
def spillingSlot (s : State) (cluster : Nat) : Option Nat :=
  ((List.range 64).map (cluster * 64 + ·)).find? (fun k =>
    (s.slot k).state == .swapped && (s.slot k).saved == .swapped && (s.slot k).outstanding == 1)

/-- A spill to the polder's memory; where it fails the save cannot complete, and its context is LOST (R120, R124). -/
def execContextSpill (cluster : Nat) (s : State) : Out :=
  match spillingSlot s cluster with
  | none => .next s
  | some k =>
    let num := (s.slot k).ctxNum
    if Config.spillFails s.free then
      let pc := ((ctxEntry s (coreOf k) num).map (·.slot.pc)).getD 0
      let s1 := (s.tick.modEntryAt (coreOf k) num (fun x => { x with lost := true })).toState k .lost
      .next (watchdogRecord s1 k .lost pc)
    else
      match spillVictim ((s.cluster cluster).cache.filter (fun e => !(e.core == coreOf k && e.slot.ctxNum == num))) with
      | none => .next s
      | some e =>
        let s1 := s.tick.modCluster cluster (fun cl => { cl with cache := cl.cache.erase e, spilled := cl.spilled ++ [e] })
        .next ((s1.modSlot k (fun sl => { sl with outstanding := 0 })).within Config.latSave 24 (.contextSave k))

/-- A spilled entry comes back from memory: the install or the register fetch that asked for it goes on
(R120, R121). -/
def execSpillReadback (core num : Nat) (s : State) : Out :=
  let cl := s.cluster (clusterOfCore core)
  let s1 :=
    match cl.spilled.find? (fun e => e.core == core && e.slot.ctxNum == num) with
    | none => s
    | some e =>
      if cl.cache.length < 32 then
        s.modCluster (clusterOfCore core) (fun x => { x with cache := x.cache ++ [{ e with lastUse := s.cycle }], spilled := x.spilled.erase e })
      else
        match spillVictim cl.cache with
        | none => s
        | some v =>
          s.modCluster (clusterOfCore core) (fun x => { x with
            cache := x.cache.erase v ++ [{ e with lastUse := s.cycle }], spilled := x.spilled.erase e ++ [v] })
  let k? := ((List.range 8).map (core * 8 + ·)).find? (fun k => (s.slot k).ctxNum == num && (s.slot k).state != .empty)
  match k? with
  | none => .next s1
  | some k =>
    let sl := s.slot k
    if sl.state = .swapped ∧ sl.saved = .ready then .next (s1.at_ (s.cycle + 8) (.contextInstall k))
    else .next (s1.next1 (.registerFetchDone k))

/-! ## Pre-emption (R118, R122, R284) -/

/-- Whether a context's slice has run out. -/
def sliceOut (s : State) (sl : Slot) : Bool :=
  let n := (s.polder sl.world).slice.toNat
  n != 0 && decide (n ≤ s.cycle - sl.installedAt)

/-- The priority of a slot in the test against ready items of priority `p`: one level lower where its slice has
run out and the item has its own priority. -/
def testPrio (s : State) (sl : Slot) (p : Nat) : Int := if sliceOut s sl ∧ sl.prio = p then (sl.prio : Int) - 1 else sl.prio

/-- A V-op result that awaits its A-op (R65); one of a long-latency V-op awaits that V-op itself (R173). -/
def awaitsAOp (sl : Slot) : Bool :=
  sl.held != Held.none && match sl.wait with | .long none | .longHalt => false | _ => true

/-- A general slot that may be pre-empted for a world. -/
def candidate (s : State) (world k : Nat) : Bool :=
  let sl := s.slot k
  sl.world == world && !sl.addSent && !awaitsAOp sl
    && match sl.state with
       | .empty | .halted | .stopped | .lost | .swapped => false
       | _ => true

/-- Whether `a` is chosen before `b`: lower priority, then longer since its install, then the higher number. -/
def choosesBefore (s : State) (p a b : Nat) : Bool :=
  let x := s.slot a
  let y := s.slot b
  decide (testPrio s x p < testPrio s y p)
    || (testPrio s x p == testPrio s y p && (decide (x.lastInstall < y.lastInstall) || (x.lastInstall == y.lastInstall && decide (b < a))))

/-- The slot that is pre-empted for an item of priority `p`, if one is. -/
def victim (s : State) (c world p : Nat) : Option Nat :=
  match ((generalSlots c).filter (candidate s world)).foldl (fun a k => match a with | none => some k | some b => if choosesBefore s p k b then some k else some b) none with
  | some k => if testPrio s (s.slot k) p < (p : Int) then some k else none
  | none => none

/-- A slot in the middle of a further pass or of a long-latency result reaches its boundary later. -/
def midway (sl : Slot) : Bool :=
  match sl.wait with
  | .mem r => !r.chunks.isEmpty
  | .long _ | .longHalt => true
  | _ => false

/-- The priorities of the ready items that no save of the core has been begun for. -/
def freePrios (s : State) (c world : Nat) : List Nat :=
  (generalSlots c).foldl (fun l k =>
    let sl := s.slot k
    if sl.state = .swapped ∧ sl.saved = .swapped ∧ sl.world = world then l.erase sl.prio else l) (readyPrios s c world)

def execPreemption (core world : Nat) (s : State) : Out :=
  match freePrios s core world with
  | [] => .next s
  | p0 :: ps =>
    let p := ps.foldl Nat.max p0
    let cl := s.cluster (clusterOfCore core)
    if (emptyGeneral s core).isSome ∨ (32 ≤ cl.cache.length ∧ cl.cache.all (·.lost) = true) then .next s
    else
      match victim s core world p with
      | none => .next s
      | some k => if midway (s.slot k) then .next (s.next1 (.preemption core world)) else .next (beginSave s k p)

/-- A slice runs out: pre-emption is reconsidered (R122). -/
def execSliceExpiry (slot : Nat) (s : State) : Out :=
  .next (s.at_ s.cycle (.preemption (coreOf slot) (s.slot slot).world))

/-! ## The hang watchdog (R123) -/

/-- The states that the watchdog counts. -/
def watched (st : SlotState) : Bool :=
  match st with
  | .waitToken | .waitMem | .waitLong | .waitEngine | .waitFetch => true
  | _ => false

/-- The slot waits for a register that a request at its copy hart writes: the hang is the copy hart's (R236). -/
def copyHang (s : State) (k : Nat) : Bool :=
  let sl := s.slot k
  let waits (rd : Nat) : Bool :=
    match sl.wait with
    | .reissue mask => mask.getLsbD rd
    | .engineToken r => r == rd
    | _ => false
  (s.cluster (clusterOf k)).kicks.any (fun r => r.core == coreOf k && r.ctx == sl.ctxNum && waits r.rd)

/-- The watchdog record names the slot's pc; for a hang of the copy hart it names the microcode's, which is free (R123,
R236). -/
def execWatchdogExpiry (slot : Nat) (s : State) : Out :=
  let sl := s.slot slot
  if watched sl.state && !sl.wdogPosted && decide ((s.polder sl.world).wdog.toNat ≤ s.cycle - sl.waitSince) then
    let s1 := s.modSlot slot (fun x => { x with wdogPosted := true })
    .next (if copyHang s slot then watchdogRecord s1.tick slot sl.state (Config.microcodePc s.free) else watchdogRecord s1 slot sl.state sl.pc)
  else .next s

/-! ## The steward's choices for a halted slot (R114, R124) -/

def execStewardResume (slot : Nat) (s : State) : Out :=
  if (s.slot slot).state = .halted then
    .next (ltThaw ((s.modSlot slot (fun x => { x with pc := x.epc, npc := x.epc })).toReady slot) (coreOf slot))
  else .next s

/-- The steward forwards a trap to the tenant handler (R114). Where sr.tvec is 0 there is none to enter, which the rule
does not speak of, and nothing happens; mark DESIGN CHOICE (log entry 104). -/
def execStewardForwardTrap (slot : Nat) (s : State) : Out :=
  let sl := s.slot slot
  if sl.state = .halted ∧ sl.inh = false ∧ sl.tvec ≠ 0 then .next (ltThaw (tenantTrap s slot sl.cause sl.tval) (coreOf slot))
  else .next s

def execStewardAbortTask (slot : Nat) (s : State) : Out :=
  if (s.slot slot).state = .halted then .next (discardSlot s slot) else .next s

/-- Collect a halted or LOST context: it is freed, and its task counts as gone. -/
def execStewardCollect (core num : Nat) (s : State) : Out :=
  match ctxSlot s core num, (generalSlots core).find? (fun k => (s.slot k).state == .lost && (s.slot k).ctxNum == num) with
  | some k, _ => if (s.slot k).state = .halted then .next (ltThaw (releaseSlot s k true) core) else .next s
  | none, some k =>
    let s1 := match ctxEntry s core num with
      | some e => s.setSlot k { e.slot with state := .lost }
      | none => s
    .next (ltThaw (releaseSlot s1 k true) core)
  | none, none => .next s

/-! ## Debug (R125, R126, R311) -/

/-- A record of a stop or a breakpoint. -/
def stopRecord (s : State) (k : Nat) : State :=
  let ep := (endpoint s k).toNat
  stewardNote (hatPost s (dieOf k) 0x08 0 ep (s.slot k).pc 0) ep (s.slot k).pc 0 0

/-- A READY slot stops; its slice stands still. -/
def stopSlot (s : State) (k : Nat) : State :=
  stopRecord (s.toState k .stopped) k

def execDebugStop (core num : Nat) (s : State) : Out :=
  match ctxSlot s core num with
  | some k =>
    let sl := s.slot k
    if sl.state = .ready then .next (stopSlot s k)
    else if sl.state.waiting then .next (s.modSlot k (fun x => { x with stopPending := true }))
    else .next s
  | none =>
    let s1 := s.modEntryAt core num (fun e => if e.lost then e else { e with slot := { e.slot with stopPending := true } })
    -- a new task in the cycles of its install has no entry yet
    .next (match ((List.range 8).map (core * 8 + ·)).find? (fun k =>
        (s.slot k).state == .swapped && (s.slot k).saved == .ready && (s.slot k).ctxNum == num) with
      | some k => s1.modSlot k (fun x => { x with stopPending := true })
      | none => s1)

def execDebugResume (slot : Nat) (s : State) : Out :=
  if (s.slot slot).state = .stopped then
    .next (ltThaw ((s.modSlot slot (fun x => { x with stopPending := false, installedAt := s.cycle - x.sliceUsed })).toState slot .ready) (coreOf slot))
  else .next s

def execDebugStep (slot : Nat) (s : State) : Out :=
  if (s.slot slot).state = .stopped then
    .next ((s.modSlot slot (fun x => { x with stopPending := false, stepping := true, installedAt := s.cycle - x.sliceUsed })).toState slot .ready)
  else .next s

/-- The element of a list of dwords that a stream's descriptor and indices make up. -/
def streamWords (st : Stream) : List Word :=
  let pack (l : List Nat) : Word := BitVec.ofNat 64 ((List.range 4).foldl (fun a k => a + ((l[k]?).getD 0) % 65536 * 2 ^ (16 * k)) 0)
  [BitVec.ofNat 64 (st.base.toNat + st.ndim1 * 65536), pack (st.cnt.map (·.toNat)), pack (st.str.map (·.toNat)), 0,
   pack st.idx,
   BitVec.ofNat 64 ((List.range 4).foldl (fun a k => a + (if (st.eod[k]?).getD false then 2 ^ k else 0)) 0
     + st.ty.toNat * 16 + (if st.bound then 128 else 0)), 0, 0]

def streamOfWords (ws : List Word) : Stream :=
  let w (i : Nat) : Nat := (ws.getD i 0).toNat
  let unpack (x : Nat) : List Nat := (List.range 4).map (fun k => bits x (16 * k + 15) (16 * k))
  { bound := (ws.getD 5 0).getLsbD 7, ty := (ws.getD 5 0).extractLsb' 4 3, base := (ws.getD 0 0).extractLsb' 0 16,
    ndim1 := bits (w 0) 18 16, cnt := (unpack (w 1)).map (BitVec.ofNat 16), str := (unpack (w 2)).map (BitVec.ofNat 16),
    idx := unpack (w 4), eod := (List.range 4).map (fun k => (ws.getD 5 0).getLsbD k), ahead := [] }

/-- The system part of a context record, dwords 0 to 24 (R117). -/
def systemWords (s : State) (k : Nat) : List Word :=
  let sl := s.slot k
  [sl.pc, statusWord s k sl.state.code, sl.epc, sl.cause, sl.tval, sl.estatus, sl.tvec, sl.arg0, sl.arg1, sl.done, sl.groups,
   sl.round, zext sl.fflags, sl.modq, sl.tkerr, sl.bbcbase, BitVec.ofNat 64 sl.world, sl.lsbase, sl.lsbound, sl.logical,
   zext sl.pending,
   BitVec.ofNat 64 ((if sl.alarm.isSome then 1 else 0) + (if sl.undelivered.isSome then 2 else 0) + ((sl.alarm.getD 0).toNat % 256) * 256),
   sl.undelivered.getD 0,
   BitVec.ofNat 64 (sl.saved.code + (if sl.stopPending then 256 else 0) + sl.sliceUsed % 2 ^ 32 * 2 ^ 32),
   BitVec.ofNat 64 (sl.ctxNum % 65536 + sl.launch.toNat % 1024 * 65536 + (if sl.seeded then 2 ^ 26 else 0))]

/-- A dword of the record. -/
def recordRead (s : State) (k i : Nat) : Word :=
  let sl := s.slot k
  if i < 32 then (systemWords s k).getD i 0
  else if i < 64 then sl.getX (regOf (i - 32))
  else if i < 128 then ((sl.getV (regOf ((i - 64) / 2))).extractLsb' ((i - 64) % 2 * 64) 64)
  else if i < 160 then
    match sl.streams.toList[(i - 128) / 8]? with
    | some st => (streamWords st).getD ((i - 128) % 8) 0
    | none => 0
  else 0

/-- Write a dword of the record; a register written becomes present. -/
def recordWrite (i : Nat) (v : Word) (sl : Slot) : Slot :=
  if i = 0 then { sl with pc := v &&& 0x1FFFFFFFFFFFFF8, npc := v &&& 0x1FFFFFFFFFFFFF8 }
  else if i = 1 then { sl with prio := bits v.toNat 13 8, inh := v.getLsbD 7, clamp := v.getLsbD 6 }
  else if i = 2 then { sl with epc := v }
  else if i = 3 then { sl with cause := v &&& 0x1FF }
  else if i = 4 then { sl with tval := v }
  else if i = 5 then { sl with estatus := v }
  else if i = 6 then { sl with tvec := v }
  else if i = 7 then { sl with arg0 := v }
  else if i = 8 then { sl with arg1 := v }
  else if i = 9 then { sl with done := v }
  else if i = 10 then { sl with groups := v }
  else if i = 11 then { sl with round := v &&& 3 }
  else if i = 12 then { sl with fflags := v.extractLsb' 0 5 }
  else if i = 13 then { sl with modq := v }
  else if i = 14 then { sl with tkerr := v &&& 0x1FF }
  else if i = 15 then { sl with bbcbase := v }
  else if i = 16 then { sl with world := v.toNat % 32 }
  else if i = 17 then { sl with lsbase := v }
  else if i = 18 then { sl with lsbound := v }
  else if i = 19 then { sl with logical := v }
  else if i = 20 then { sl with pending := v.extractLsb' 0 32 &&& 0xFFFFFFFE#32 }
  else if i = 21 then
    { sl with
      alarm := if v.getLsbD 0 then some (BitVec.ofNat 64 (bits v.toNat 15 8)) else none
      undelivered := if v.getLsbD 1 then some (sl.undelivered.getD 0) else none }
  else if i = 22 then { sl with undelivered := sl.undelivered.map (fun _ => v) }
  else if i = 23 then
    { sl with saved := SlotState.ofCode (v.toNat % 16), stopPending := v.getLsbD 8, sliceUsed := v.toNat / 2 ^ 32 }
  else if i = 24 then
    { sl with ctxNum := v.toNat % 65536, launch := BitVec.ofNat 64 (bits v.toNat 25 16), seeded := v.getLsbD 26 }
  else if i < 32 then sl
  else if i < 64 then sl.putX (regOf (i - 32)) v
  else if i < 128 then
    let r := regOf ((i - 64) / 2)
    let old := sl.getV r
    sl.putV r (if (i - 64) % 2 = 0 then old.extractLsb' 64 64 ++ v else v ++ old.extractLsb' 0 64)
  else if i < 160 then
    { sl with streams := sl.streams.mapFinIdx (fun n st _ =>
        if n = (i - 128) / 8 then streamOfWords (setAt (streamWords st) ((i - 128) % 8) v) else st) }
  else sl

/-- World 0 reads or writes a stopped slot's context, a dword at a time, through the layout of R117. -/
def execDebugContextAccess (slot off : Nat) (write : Option Word) (s : State) : Out :=
  if (s.slot slot).state ≠ .stopped then .next s
  else
    match write with
    | none => .next { s with readOut := recordRead s slot (off / 8) }
    | some v => .next (s.modSlot slot (recordWrite (off / 8) v))

def execBreakpointSet (core n pc mask : Nat) (s : State) : Out :=
  .next (s.modCore core (fun co => { co with
    breakpoints := co.breakpoints.mapFinIdx (fun i b _ => if i = n then (if mask = 0 then none else some (pc, mask)) else b) }))

def execBreakpointHit (slot : Nat) (s : State) : Out :=
  if (s.slot slot).state = .ready then .next (stopSlot s slot) else .next s

end Sys2Proof.Machine
end

