-- ==== Sys2Proof/Machine/CopyHart.lean ====
section
/-! DEFINITION. The copy hart: kick slots, taking, yields and completion, and the four copies (10 R230, R231, R233;
11 R251 to R253; 18 R340). -/

namespace Sys2Proof.Machine

/-! ## Requests -/

def reqOf (s : State) (cl id : Nat) : Option CopyReq := (s.cluster cl).kicks.find? (·.id == id)

def modReq (s : State) (cl id : Nat) (f : CopyReq → CopyReq) : State :=
  s.modCluster cl (fun c => { c with kicks := c.kicks.map (fun r => if r.id = id then f r else r) })

/-- Whether the request works on a graph operation record. -/
def CopyReq.isGraph (r : CopyReq) : Bool :=
  match r.kind with
  | .gcopy | .gcmp | .ghash | .gfree | .gsend => true
  | .cpy | .cpy2d | .cpyl | .cpyg => false

def reqUser (cl : Nat) (r : CopyReq) : UnitUser :=
  { who := .copy cl r.id, cluster := cl, core := r.core, num := r.ctx, world := r.world, lo := r.lsbase, hi := r.lsbound, copies := !r.isGraph }

namespace CopyReq
def op (r : CopyReq) (i : Nat) : Nat := ((r.ops[i]?).getD 0).toNat
/-- The address of the record of a graph request. -/
def gor (r : CopyReq) : Nat := r.op 0 % 2 ^ 57
end CopyReq

/-- Room for a request of a core in the kick slots (R230). -/
def kickRoom (s : State) (core : Nat) : Bool :=
  let ks := (s.cluster (clusterOfCore core)).kicks.filter (fun r => !r.taken)
  decide (ks.length < 16) && decide ((ks.filter (·.core == core)).length < 4)

/-- Another unfinished request of the module that names the same record (R320, R333). -/
def gorBusy (s : State) (r : CopyReq) : Bool :=
  s.clusters.any (fun p => p.2.kicks.any (fun q => q.isGraph && q.world == r.world && q.gor == r.gor && q.id != r.id))

/-- The checks that a graph request passes before its record is read (R333, R423): the code, 0 where they pass. -/
def gorCheck (s : State) (r : CopyReq) : Nat :=
  if !r.isGraph then 0
  else if r.gor % 64 ≠ 0 then 0x0F
  else if r.gor < translatedBase then 0x08
  else if gorBusy s r then 0x25
  else if r.kind = .gsend then
    let d := r.op 1
    if (match ctxOf s r.core r.ctx with | some sl => Slot.split s sl | none => (s.polder r.world).split).getLsbD 5 then 0x26
    else if d / 2 ^ 52 = s.moduleNo ∨ 3200 ≤ bits d 47 36 ∨ bits d 35 5 ≠ 0 ∨ bits d 4 0 = 0 ∨ 20 < bits d 4 0 then 0x05
    else if r.op 2 % 64 ≠ 0 then 0x0F
    else 0
  else 0

/-- A request reaches a kick slot: its token register becomes pending, and the copy hart hears of it. -/
def kickArrive (s : State) (r : CopyReq) : State :=
  let cl := clusterOfCore r.core
  let s1 := s.modCtx r.core r.ctx (·.startToken (regOf r.rd))
  let code := gorCheck s1 r
  if code ≠ 0 then sendToken s1 r.core r.slot r.ctx r.rd (BitVec.ofNat 64 code) (.copy cl r.id) r.world 0
  else (s1.modCluster cl (fun c => { c with kicks := c.kicks ++ [r] })).later Config.latMesh (.copyKickTake cl)

/-- Issue of a copy-hart request: full kick slots park the slot until one frees. -/
def issueReq (s : State) (r : CopyReq) (wait : Bool) : Out :=
  let s0 := s.freshId
  if kickRoom s r.core then
    let s1 := kickArrive s0 r
    .next (if wait then park s1 s.cur .waitEngine (.engineToken (waitKey r.rd r.id)) else s1)
  else .next (park s0 s.cur .waitEngine (.kickFull r wait))

/-- Kick slots have freed: the contexts that wait for one are served, oldest first. -/
def admitKicks (s : State) (cl : Nat) : State :=
  (clusterWaits s cl (fun w => match w with | .kickFull _ _ => true | _ => false)).foldl (fun t p =>
    match (ctxOf t p.1 p.2).map Slot.wait with
    | some (.kickFull r wait) =>
      if kickRoom t r.core then
        let t1 := kickArrive t r
        if wait then t1.modCtx r.core r.ctx (fun sl => { sl with wait := .engineToken (waitKey r.rd r.id) })
        else finishCtx t1 r.core r.ctx id
      else t
    | _ => t) s

/-- A request of the issuing slot. -/
def newReq (s : State) (kind : CopyKind) (d : Reg) (ring : Option Nat) (ops : List Word) : CopyReq :=
  { id := s.nextId, kind := kind, slot := s.cur % 8, core := coreOf s.cur, ctx := s.me.ctxNum, urgent := s.cur % 8 == 7, world := s.me.world,
    rd := d.toNat, ops := ops, ring := ring, lsbase := s.me.lsbase.toNat, lsbound := s.me.lsbound.toNat, taken := false,
    running := false, progress := 0, tile := none, buf := [], wrote := 0, failing := 0, acc := none, elem := none, askObj := false, record := [],
    since := 0, sig := 0, status := none, watches := [], mutated := 0, stop := false, g := GraphSt.zero }

/-- The ring of a copy's destination, or none for memory. -/
def copyRing (c : CpyF) : Option Nat := if c.ring = 1 then some c.q.toNat else none

/-- CPY (R251, R252). -/
def execCpy (c : CpyF) (s : State) : Out :=
  guardX s c.d (issueReq s (newReq s .cpy c.d (copyRing c) [s.rx c.s1, s.rx c.s2, s.rx c.s3]) false)

/-- CPY2D. -/
def execCpy2d (c : CpyF) (s : State) : Out :=
  guardX s c.d (issueReq s (newReq s .cpy2d c.d (copyRing c) [s.rx c.s1, s.rx c.s2, s.rx c.s3, s.rx (c.s3 + 1)]) false)

/-- CPYG. -/
def execCpyg (c : CpyF) (s : State) : Out :=
  guardX s c.d (issueReq s (newReq s .cpyg c.d (copyRing c) [s.rx c.s1, s.rx c.s2, s.rx c.s3]) false)

/-- CPYL. -/
def execCpyl (q : BitVec 4) (d a : Reg) (s : State) : Out :=
  guardX s d (issueReq s (newReq s .cpyl d (some q.toNat) [s.rx a]) false)

/-! ## Completion and yield (R231) -/

/-- Ask the copy hart to go on with a request in this cycle. -/
def goOn (s : State) (cl id : Nat) : State := s.at_ s.cycle (.remoteReply (.copy cl id) .done 0)

/-- A request ends with a status. -/
def endReq (s : State) (cl : Nat) (r : CopyReq) (status : Word) : State :=
  (modReq s cl r.id (fun x => { x with status := some status, acc := none })).next1 (.copyRequestComplete cl r.id)

/-- The TOKEN release of a request that has ended; the copy hart takes the next one. -/
def releaseReq (s : State) (cl : Nat) (r : CopyReq) (status : Word) : State :=
  let s1 := s.modCluster cl (fun c => { c with kicks := c.kicks.filter (·.id != r.id) })
  let s2 := sendToken s1 r.core r.slot r.ctx r.rd status (.copy cl r.id) r.world r.sig
  let s3 := if r.rd = 0 then publishCore s2 r.core r.world r.sig else s2
  s3.next1 (.copyKickTake cl)

def execCopyRequestComplete (cluster id : Nat) (s : State) : Out :=
  match reqOf s cluster id with
  | none => .next s
  | some r => match r.status with | some w => .next (releaseReq s cluster r w) | none => .next s

/-- A request that has run 65,536 cycles goes to the back of the queue at a boundary. -/
def execCopyYield (cluster id : Nat) (s : State) : Out :=
  match reqOf s cluster id with
  | none => .next s
  | some r =>
    if r.running ∧ r.status = none ∧ r.acc = none then
      .next ((s.modCluster cluster (fun c => { c with
        kicks := c.kicks.filter (·.id != id) ++ [{ r with running := false }] })).next1 (.copyKickTake cluster))
    else .next s

/-- At a boundary: yield after 65,536 cycles, else go on. -/
def boundary (s : State) (cl : Nat) (r : CopyReq) : State :=
  if 65536 ≤ s.cycle - r.since then s.next1 (.copyYield cl r.id) else goOn s cl r.id

/-! ## The copies (R233, R251, R252) -/

/-- The layout record of a CPYL (R233). -/
structure Layout where
  src : Nat
  size : Nat
  c : Nat
  h : Nat
  w : Nat
  kh : Nat
  kw : Nat
  sh : Nat
  sw : Nat
  ph : Nat
  pw : Nat
  dh : Nat
  dw : Nat
  first : Nat
  count : Nat
  pad : Nat
  deriving DecidableEq, Repr, Inhabited

def recordDword (bs : List Byte) (i : Nat) : Nat := leNat ((bs.drop (8 * i)).take 8)

def layoutOf (bs : List Byte) : Layout :=
  let d (i : Nat) : Nat := recordDword bs i
  let b (i : Nat) : Nat := bits (d 2) (8 * i + 7) (8 * i)
  { src := d 0 % 2 ^ 57, size := vlddWidth (bits (d 0) 63 60) / 8, c := bits (d 1) 15 0, h := bits (d 1) 31 16,
    w := bits (d 1) 47 32, kh := b 0, kw := b 1, sh := b 2, sw := b 3, ph := b 4, pw := b 5, dh := b 6, dw := b 7,
    first := bits (d 3) 31 0, count := bits (d 3) 63 32, pad := d 4 }

/-- Windows along one axis. -/
def windows (n p d k st : Nat) : Int := ((n : Int) + 2 * p - d * ((k : Int) - 1) - 1) / st + 1

namespace Layout
def oh (l : Layout) : Int := windows l.h l.ph l.dh l.kh l.sh
def ow (l : Layout) : Int := windows l.w l.pw l.dw l.kw l.sw
/-- Elements of one window. -/
def per (l : Layout) : Nat := l.kh * l.kw * l.c
/-- The address of an element, or none where it is padding. -/
def addr (l : Layout) (e : Nat) : Option Nat :=
  let n := l.first + e / l.per
  let i := e % l.per
  let ow := l.ow.toNat
  let iy : Int := (n / ow * l.sh : Int) - l.ph + (i / (l.kw * l.c) * l.dh : Int)
  let ix : Int := (n % ow * l.sw : Int) - l.pw + (i / l.c % l.kw * l.dw : Int)
  if 0 ≤ iy ∧ iy < l.h ∧ 0 ≤ ix ∧ ix < l.w then
    some ((l.src + ((iy.toNat * l.w + ix.toNat) * l.c + i % l.c) * l.size) % 2 ^ 57)
  else none
end Layout

/-- The checks of a record (R233, R252): the code, 0 where they pass. -/
def layoutCheck (bs : List Byte) : Nat :=
  let l := layoutOf bs
  let fmt := bits (recordDword bs 0) 63 60
  if bits (recordDword bs 1) 63 48 ≠ 0 ∨ recordDword bs 5 ≠ 0 ∨ recordDword bs 6 ≠ 0 ∨ recordDword bs 7 ≠ 0
      ∨ [l.c, l.h, l.w, l.kh, l.kw, l.sh, l.sw, l.dh, l.dw, l.count].contains 0 then 0x05
  else if hasSidecar fmt ∨ fmt = 0xF ∨ badFormat (BitVec.ofNat 64 (recordDword bs 0)) then 0x06
  else if l.oh < 1 ∨ l.ow < 1 ∨ l.oh * l.ow < l.first + l.count then 0x0C
  else 0

namespace CopyReq
def rows (r : CopyReq) : Nat := bits (r.op 2) 63 32
def rowBytes (r : CopyReq) : Nat := bits (r.op 2) 31 0
def dpitch (r : CopyReq) : Int := signedOf 32 (bits (r.op 3) 63 32)
def spitch (r : CopyReq) : Int := signedOf 32 (bits (r.op 3) 31 0)
def esize (r : CopyReq) : Nat := bits (r.op 2) 31 0

/-- Bytes that the request copies. -/
def total (r : CopyReq) : Nat :=
  match r.kind with
  | .cpy => r.op 2
  | .cpy2d => r.rows * r.rowBytes
  | .cpyg => bits (r.op 2) 63 32 * r.esize
  | .cpyl => let l := layoutOf r.record; l.count * l.per * l.size
  | .gcopy | .gcmp | .ghash | .gfree | .gsend => 0

/-- Destination address of a byte. -/
def dst (r : CopyReq) (p : Nat) : Nat :=
  if r.kind = .cpy2d then (((r.op 0 : Int) + (p / r.rowBytes : Nat) * r.dpitch + (p % r.rowBytes : Nat)) % 2 ^ 57).toNat
  else (r.op 0 + p) % 2 ^ 57

/-- How far a run of source or destination bytes goes from byte `p` on. -/
def run (r : CopyReq) (p : Nat) : Nat :=
  match r.kind with
  | .cpy2d => r.rowBytes - p % r.rowBytes
  | .cpyg => r.esize - p % r.esize
  | .cpyl => let z := (layoutOf r.record).size; z - p % z
  | .cpy | .gcopy | .gcmp | .ghash | .gfree | .gsend => r.total - p
end CopyReq

/-- The checks that come before anything is read (R252): a code, or none where the copy goes on. -/
def copyCheck (s : State) (cl : Nat) (r : CopyReq) : Nat :=
  let ring := match r.ring with | some q => ringCheck s cl q r.world none | none => 0
  let lim := 2 ^ 40 - 1
  match r.kind with
  | .cpy => if lim < r.total then 0x0C else ring
  | .cpy2d =>
    if r.ring.isSome ∧ bits (r.op 3) 63 32 ≠ 0 then 0x05 else if lim < r.total then 0x0C else ring
  | .cpyg => if r.esize = 0 ∨ 65536 < r.esize then 0x05 else if lim < r.total then 0x0C else ring
  | .cpyl => if r.op 0 % 2 ^ 57 % 64 ≠ 0 then 0x0F else ring
  | .gcopy | .gcmp | .ghash | .gfree | .gsend => 0

/-- How many bytes from byte `p` on ascend within one 64-byte destination line; at most `n`. -/
def CopyReq.lineRun (r : CopyReq) (p : Nat) : Nat → Nat
  | 0 => 0
  | n + 1 =>
    if p + 1 < r.total ∧ r.dst p < r.dst (p + 1) ∧ r.dst (p + 1) / 64 = r.dst p / 64 then 1 + lineRun r (p + 1) n else 1

/-- The length of the unit that is written next: what falls into one destination line, whichever rows it comes from, or
into a tile (R251). -/
def copyUnit (s : State) (cl : Nat) (r : CopyReq) : Nat :=
  let left := if r.failing ≠ 0 then r.buf.length else r.total - r.progress
  match r.ring with
  | some q => Nat.min left (ringOf (s.cluster cl) q).tileBytes
  | none =>
    let n := Nat.min left (64 - r.dst r.progress % 64)
    if r.kind = .cpy2d then Nat.min n (r.lineRun r.progress 64) else n

/-- How many bytes of a unit from byte `p` on lie one behind the other at the destination. -/
def CopyReq.dstRun (r : CopyReq) (p n : Nat) : Nat :=
  if r.kind = .cpy2d ∧ r.dpitch ≠ r.rowBytes then Nat.min n (r.run p) else n

/-- What a copy does next. -/
inductive CopyDo where
  /-- Read `n` bytes of the record, of a list dword or of the data. -/
  | record (va n : Nat)
  | list (k va n : Nat)
  | data (va n : Nat)
  | padding (bs : List Byte)
  | reserve (q : Nat)
  | write (va n : Nat)
  | publish (q idx n : Nat)
  | finished
  | failed (code : Nat)
  deriving DecidableEq, Repr, Inhabited

/-- The next action of a copy (R233, R251, R252). -/
def copyDo (s : State) (cl : Nat) (r : CopyReq) : CopyDo :=
  let toLine (a : Nat) : Nat := 64 - a % 64
  if r.kind = .cpyl ∧ r.record.length < 64 then .record (r.op 0 % 2 ^ 57) 64
  else if r.kind = .cpyl ∧ r.progress = 0 ∧ r.tile = none ∧ layoutCheck r.record ≠ 0 then .failed (layoutCheck r.record)
  else if r.total ≤ r.progress then .finished
  else if r.failing ≠ 0 ∧ r.buf.isEmpty then .failed r.failing
  else
    match r.ring, r.tile with
    | some q, none => .reserve q
    | _, _ =>
      let u := copyUnit s cl r
      let p := r.progress + r.buf.length
      if r.buf.length < u then
        let n := Nat.min (u - r.buf.length) (r.run p)
        match r.kind with
        | .cpyl =>
          let l := layoutOf r.record
          match l.addr (p / l.size) with
          | none => .padding (((toLe l.pad l.size).drop (p % l.size)).take n)
          | some a => let va := a + p % l.size; .data va (Nat.min n (toLine va))
        | .cpyg =>
          let k := p / r.esize
          let have_ := match r.elem with | some (j, bs) => if j = k then bs else [] | none => []
          if have_.length < 8 then
            let a := (r.op 1 + 8 * k + have_.length) % 2 ^ 57
            .list k a (Nat.min (8 - have_.length) (toLine a))
          else
            let va := (leNat have_ + p % r.esize) % 2 ^ 57
            .data va (Nat.min n (toLine va))
        | .cpy2d =>
          let va := (((r.op 1 : Int) + (p / r.rowBytes : Nat) * r.spitch + (p % r.rowBytes : Nat)) % 2 ^ 57).toNat
          .data va (Nat.min n (toLine va))
        | .cpy | .gcopy | .gcmp | .ghash | .gfree | .gsend =>
          let va := (r.op 1 + p) % 2 ^ 57
          .data va (Nat.min n (toLine va))
      else
        match r.ring, r.tile with
        | some q, some idx => .publish q idx u
        | _, _ => .write (r.dst (r.progress + r.wrote)) (r.dstRun (r.progress + r.wrote) (u - r.wrote))

/-- The request that the copy hart takes next: one from slot 7 before all others (R230). -/
def nextReq (c : Cluster) : Option CopyReq :=
  match c.kicks.find? (fun r => r.urgent && !r.running) with
  | some r => some r
  | none => c.kicks.find? (fun r => !r.running)

/-- Uncorrectable kick slots are dropped, and their requesters are posted to the steward; correctable ones are corrected
(R236). -/
def checkKicks (s : State) (cl : Nat) : State :=
  if s.poison.isEmpty ∧ s.flipped.isEmpty then s
  else
    ((s.cluster cl).kicks.filter (fun r => !r.running)).foldl (fun t r =>
      let u := correct t [.kick cl r.id] (countCluster cl)
      if u.poison.contains (.kick cl r.id) then
        dropPoisoned (u.modCluster cl (fun c => { c with kicks := c.kicks.filter (·.id != r.id) })) (.kick cl r.id) (dieOfCluster cl)
          (s.moduleNo * 4194304 + r.core * 8 + r.slot) (BitVec.ofNat 64 r.id)
      else u) s

/-- The copy hart takes a request from its kick slot, or takes up one that has yielded (R230, R231). -/
def execCopyKickTake (cluster : Nat) (s0 : State) : Out :=
  let s := checkKicks s0 cluster
  let c := s.cluster cluster
  if c.kicks.any (·.running) then .next s
  else
    match nextReq c with
    | none => .next s
    | some r =>
      let s1 := modReq s cluster r.id (fun x => { x with taken := true, running := true, since := s.cycle })
      let s2 := admitKicks s1 cluster
      let code := if r.taken then 0 else copyCheck s cluster r
      .next (if code = 0 then goOn s2 cluster r.id else endReq s2 cluster r (BitVec.ofNat 64 code))

/-- A copy ends with a failure: the tile being filled is completed with zeros and published, and the status holds
the bytes completed (R238, R251). -/
def copyFails (s : State) (cl : Nat) (r : CopyReq) (code : Nat) : State :=
  let done := r.progress + (if r.ring.isSome then r.buf.length else r.wrote)
  let s1 := match r.ring, r.tile with
    | some q, some idx =>
      let size := (ringOf (s.cluster cl) q).tileBytes
      publishTile (writeTile s cl q idx (r.buf ++ List.replicate (size - r.buf.length) 0)) cl q idx
    | _, _ => s
  endReq s1 cl r (BitVec.ofNat 64 (code + done * 256))

/-- An access of a copy fails. Bytes for memory that were read before the failure are written first. -/
def accessFails (s : State) (cl : Nat) (r : CopyReq) (write : Bool) (code : Nat) : State :=
  if !write && r.ring.isNone && !r.buf.isEmpty then
    goOn (modReq s cl r.id (fun x => { x with acc := none, failing := code })) cl r.id
  else copyFails s cl r code

/-- Start an access of a copy. -/
def copyAccess (s : State) (cl : Nat) (r : CopyReq) (va n : Nat) (write : Bool) (data : List Byte) : State :=
  match unitFind s (reqUser cl r) va n write with
  | (s0, .error c) => if c = needsWalk then s0 else accessFails s0 cl r write (unitCode c)
  | (s0, .ok t) =>
    let m := unitSize s0 (reqUser cl r) write t n
    match unitIssue s0 (reqUser cl r) { write := write, tgt := t, n := m, data := data.take m, sent := false, tag := none } with
    | .error c => accessFails s0 cl r write (unitCode c)
    | .ok (s1, a) => modReq s1 cl r.id (fun x => { x with acc := some a })

/-- The copy hart goes on with a copy. -/
def copyStep (s : State) (cl : Nat) (r : CopyReq) : State :=
  match copyDo s cl r with
  | .record va n => copyAccess s cl r (va + r.record.length) (n - r.record.length) false []
  | .list _ va n => copyAccess s cl r va n false []
  | .data va n => copyAccess s cl r va n false []
  | .padding bs => goOn (modReq s cl r.id (fun x => { x with buf := x.buf ++ bs })) cl r.id
  | .reserve q => askRing s cl q copyRank (.copy r.id)
  | .write va n => copyAccess s cl r va n true (r.buf.drop r.wrote)
  | .publish q idx n =>
    let size := (ringOf (s.cluster cl) q).tileBytes
    let s1 := publishTile (writeTile s cl q idx (r.buf ++ List.replicate (size - n) 0)) cl q idx
    boundary (modReq s1 cl r.id (fun x => { x with progress := x.progress + n, buf := [], tile := none })) cl r
  | .finished => endReq s cl r 0
  | .failed code => endReq s cl r (BitVec.ofNat 64 (code + r.progress * 256))

/-- Bytes that a copy has asked for have come. -/
def copyRead (s : State) (cl : Nat) (r : CopyReq) (bs : List Byte) : State :=
  let s0 := modReq s cl r.id (fun x => { x with acc := none })
  let s1 := match copyDo s cl r with
    | .record _ _ => modReq s0 cl r.id (fun x => { x with record := x.record ++ bs })
    | .list k _ _ =>
      let old := match r.elem with | some (j, b) => if j = k then b else [] | none => []
      modReq s0 cl r.id (fun x => { x with elem := some (k, old ++ bs) })
    | .data _ _ => modReq s0 cl r.id (fun x => { x with buf := x.buf ++ bs })
    | .padding _ | .reserve _ | .write _ _ | .publish _ _ _ | .finished | .failed _ => s0
  goOn s1 cl r.id

/-- Bytes that a copy has written have landed. -/
def copyWrote (s : State) (cl : Nat) (r : CopyReq) (a : UnitAcc) : State :=
  let u := copyUnit s cl r
  let w := r.wrote + a.n
  let sig := r.sig ||| unitSig s a
  if u ≤ w then
    boundary (modReq s cl r.id (fun x => { x with
      acc := none, progress := x.progress + u, buf := [], wrote := 0, sig := sig })) cl r
  else goOn (modReq s cl r.id (fun x => { x with acc := none, wrote := w, sig := sig })) cl r.id

/-- A reply to the access of a copy in flight, or the word to go on; without an access in flight, the fault of a walk or
the code of a ring that has changed hands. -/
def copyReply (s : State) (cl : Nat) (r : CopyReq) (p : Reply) : State :=
  match r.acc with
  | none =>
    if r.running ∧ r.status = none then
      match p with
      | .fault c _ => accessFails s cl r (match copyDo s cl r with | .write _ _ => true | _ => false) (unitCode c)
      | .status c => copyFails s cl r c
      | .done | .data _ | .home | .gone => copyStep s cl r
    else s
  | some a =>
    let landed (t : State) (bs : List Byte) : State := if a.write then copyWrote t cl r a else copyRead t cl r bs
    match p with
    | .home =>
      match unitPerform s (reqUser cl r) (some r.id) a with
      | .ok (t, some bs) => landed t bs
      | .ok (t, none) => t
      | .error (c, t) => accessFails t cl r a.write (unitCode c)
    | .data bs => landed s bs
    | .done => if a.sent then landed s [] else goOn (modReq s cl r.id (fun x => { x with acc := none })) cl r.id
    | .fault c _ => accessFails s cl r a.write (unitCode c)
    | .gone => accessFails s cl r a.write 0x0B
    | .status c => if c = 0 then landed s [] else accessFails s cl r a.write 0x0B

end Sys2Proof.Machine
end

