-- ==== Sys2Proof/Machine/GraphWalk.lean ====
section
/-! DEFINITION. The walk of a graph operation: the type table, objects, the forwarding table, and what each kind does
(16 R312 to R326; 23 R424, R425). One step of a request reads what it needs and answers what it writes; a step that
needs something from another module is made again once the answer has come, with everything it had read. -/

namespace Sys2Proof.Machine

/-! ## Reading -/

/-- Why a step does not complete. -/
inductive GWhy where
  /-- Eight bytes at an address that have to be asked for, and whether they are an object word. -/
  | need (va : Nat) (obj : Bool)
  /-- A graph-send packet, and the key of its answer. -/
  | send (key : Nat) (sub : Nat) (flit : List Nat) (body : List Nat)
  /-- A resumable stop with its code (R318). -/
  | stop (code : Nat)
  /-- The operation finishes with a code and a count. -/
  | finish (code count : Nat)
  deriving DecidableEq, Repr, Inhabited

abbrev GCache := List (Nat × Bool × List Byte)

/-- A step of a request: it reads through a cache, which it hands on when it does not complete. -/
abbrev G (α : Type) := StateT GCache (Except (GWhy × GCache)) α

def gFail {α : Type} (w : GWhy) : G α := do throw (w, ← get)

/-- Bytes that this module's copy hart reads at their home at once; none where a request must go out: to a local store,
which serves it in a bundle of slot 6 (R160), to another module, or to a die that cannot be reached. Object words are
read at their homes, never from a copy (R322). -/
def directRead (s : State) (u : UnitUser) (t : Target) (n : Nat) : Option (Except Nat (List Byte)) :=
  match t with
  | .home pa =>
    if crossesDown s (dieOfCluster u.cluster) (homeDie pa) then none
    else some (match homeRead s pa n with | .ok (_, bs) => .ok bs | .error _ => .error 0x12)
  | .own _ | .aper _ _ _ | .peer _ _ => none

/-- Read a dword; `obj` says whether it is an object word, whose line is watched (R322). -/
def gWord (s : State) (u : UnitUser) (obj : Bool) (va : Nat) : G Nat := do
  match (← get).find? (·.1 == va) with
  | some e => pure (leNat e.2.2)
  | none =>
    match unitTarget s u va 8 false with
    | .error c => gFail (if c = needsWalk then .need va obj else .stop (unitCode c))
    | .ok t =>
      match directRead s u t 8 with
      | none => gFail (.need va obj)
      | some (.error c) => gFail (.stop (unitCode c))
      | some (.ok bs) =>
        modify (fun c => c ++ [(va, obj, bs)])
        pure (leNat bs)

/-! ## Types and objects (R314 to R316) -/

/-- The entry of a type: a reserved bit finishes with 0x05, a missing entry is a type error. -/
def gType (s : State) (u : UnitUser) (g : GraphSt) (k hdr : Nat) : G GObj := do
  let id := hdr % 2 ^ 24
  let n ← gWord s u false g.tb
  let r1 ← gWord s u false (g.tb + 8)
  let r2 ← gWord s u false (g.tb + 16)
  let r3 ← gWord s u false (g.tb + 24)
  if n = 0 ∨ 2 ^ 24 < n ∨ r1 ≠ 0 ∨ r2 ≠ 0 ∨ r3 ≠ 0 then gFail (.finish 0x05 g.n)
  else if n ≤ id then gFail (.finish 0x21 g.n)
  else
    let e := g.tb + 32 + 32 * id
    let d0 ← gWord s u false e
    let pm ← gWord s u false (e + 8)
    let em ← gWord s u false (e + 16)
    let d3 ← gWord s u false (e + 24)
    let kind := bits d0 33 32
    let words := bits d0 7 0
    let lenoff := bits d0 15 8
    let esize := bits d0 23 16
    if bits d0 63 34 ≠ 0 ∨ bits d0 31 24 ≠ 0 ∨ d3 ≠ 0 ∨ kind = 3 then gFail (.finish 0x05 g.n)
    else if kind = 0 then gFail (.finish 0x21 g.n)
    else if words = 0 ∨ 64 < words ∨ 2 ^ words ≤ pm
        ∨ (kind = 1 ∧ (lenoff ≠ 0 ∨ esize ≠ 0 ∨ em ≠ 0))
        ∨ (kind = 2 ∧ (esize = 0 ∨ 64 < esize ∨ words ≤ lenoff ∨ 2 ^ esize ≤ em ∨ pm / 2 ^ lenoff % 2 = 1)) then
      gFail (.finish 0x05 g.n)
    else
      pure { k := k, hdr := hdr, array := kind == 2, words := words, lenoff := lenoff, esize := esize, ptrmap := pm,
             eptrmap := em, len := 0 }

namespace GObj
/-- W of R316. -/
def total (o : GObj) : Nat := if o.array then o.words + o.len * o.esize else o.words
/-- Whether body word `j` is a pointer field. -/
def isPtr (o : GObj) (j : Nat) : Bool :=
  if j < o.words then o.ptrmap.testBit j else o.eptrmap.testBit ((j - o.words) % o.esize)
/-- Bytes of the object in an arena (R323). -/
def bytes (o : GObj) : Nat := (16 + 8 * o.total + 15) / 16 * 16
end GObj

/-- Read an object when it is reached: its header, its type and its length word. -/
def gObj (s : State) (u : UnitUser) (g : GraphSt) (k a : Nat) : G GObj := do
  let h ← gWord s u true a
  let o ← gType s u g k (h % 2 ^ 32)
  if o.array then
    let l ← gWord s u true (a + 16 + 8 * o.lenoff)
    let o1 := { o with len := l }
    if 2 ^ 24 < o1.total then gFail (.finish 0x21 g.n) else pure o1
  else pure o

/-- A nonzero reference that is no OBJ pointer to a multiple of 16 (R316). -/
def badRef (v : Nat) : Bool := v != 0 && (bits v 63 60 != 0xF || bits v 59 57 != 0 || v % 16 != 0)

def refAddr (v : Nat) : Nat := v % 2 ^ 57
def objRef (a : Nat) : Nat := 0xF * 2 ^ 60 + a

/-! ## The forwarding table (R319) -/

namespace GraphSt
def cap (g : GraphSt) : Nat := 2 ^ g.lgc
def entry (g : GraphSt) (k : Nat) : Nat := g.base + 32 * k
def index (g : GraphSt) (i : Nat) : Nat := g.base + 32 * g.cap + 8 * i
def work (g : GraphSt) : Nat := g.base + 64 * g.cap
/-- The slot at which a search starts. -/
def hashAt (g : GraphSt) (second : Bool) (a : Nat) : Nat :=
  (((a / 16) ^^^ (if second then 2 ^ 53 else 0)) * 0x9E3779B97F4A7C15 % 2 ^ 64) / 2 ^ (62 - g.lgc) % (4 * g.cap)
def findObj (g : GraphSt) (k : Nat) : Option GObj := g.objs.find? (·.k == k)
end GraphSt

/-- Search an address: its ordinal, or the empty slot. -/
def gProbe (s : State) (u : UnitUser) (g : GraphSt) (second : Bool) (a i : Nat) : Nat → G (Option Nat × Nat)
  | 0 => pure (none, i)
  | fuel + 1 => do
    let v ← gWord s u false (g.index i)
    if v = 0 then pure (none, i)
    else
      let e ← gWord s u false (g.entry (v - 1) + (if second then 8 else 0))
      if e % 2 ^ 57 = a ∧ v - 1 < g.n then pure (some (v - 1), i)
      else gProbe s u g second a ((i + 1) % (4 * g.cap)) fuel

def gLookup (s : State) (u : UnitUser) (g : GraphSt) (second : Bool) (a : Nat) : G (Option Nat × Nat) :=
  gProbe s u g second a (g.hashAt second a) (4 * g.cap)

/-- Search the address of the second graph, whose ordinal would stand in another slot than the first graph's. -/
def gLookup2 (s : State) (u : UnitUser) (g : GraphSt) (a slot : Nat) : G (Option Nat × Nat) := do
  let p ← gLookup s u g true a
  if p.1.isNone ∧ p.2 = slot then gProbe s u g true a ((slot + 1) % (4 * g.cap)) (4 * g.cap) else pure p

/-! ## SHAKE256 of GHASH (R324) -/

/-- Absorb one dword. -/
def gAbsorb (g : GraphSt) (v : Nat) : GraphSt :=
  let st := if g.hash.isEmpty then List.replicate 25 0 else g.hash
  let st1 := setAt st g.pos (laneAt st g.pos ^^^ BitVec.ofNat 64 v)
  if g.pos = 16 then { g with hash := keccakF st1, pos := 0 } else { g with hash := st1, pos := g.pos + 1 }

/-- The digest: n appended, the padding, and 32 bytes of output. -/
def gDigest (g : GraphSt) : List Byte :=
  let g1 := gAbsorb g g.n
  let st := setAt g1.hash g1.pos (laneAt g1.hash g1.pos ^^^ 0x1F)
  let st1 := keccakF (setAt st 16 (laneAt st 16 ^^^ (0x80 <<< 56)))
  wordBytes (st1.take 4)

/-! ## One step of the walk (R321) -/

/-- What a completed step leaves: the request's state and what it writes, in order. -/
structure GStep where
  g : GraphSt
  writes : List (Nat × List Byte)
  /-- Dwords to add to, atomically, after the writes (R326). -/
  adds : List (Nat × List Byte) := []
  /-- An object of the marking ends here (R231). -/
  ends : Bool := false
  /-- The walk, or the phase, is over. -/
  done : Bool
  deriving DecidableEq, Repr, Inhabited

def dw (v : Nat) : List Byte := toLe v 8

/-- The parent field of a root (R319). -/
def rootParent : Nat := 2 ^ 40 - 1

/-- The objects of the ordinal being scanned: read again after a stop. -/
def gScanned (s : State) (u : UnitUser) (g : GraphSt) (k : Nat) : G GObj := do
  match g.findObj k with
  | some o => pure o
  | none =>
    let a ← gWord s u false (g.entry k)
    gObj s u g k (refAddr a)

/-- The answer to a graph-send packet, or its sending. -/
def gSent (key sub : Nat) (flit body : List Nat) : G Nat := do
  match (← get).find? (·.1 == key) with
  | some e => pure (leNat e.2.2)
  | none => gFail (.send key sub flit body)

/-- A key outside every address, for answers. -/
def answerKey (k j : Nat) : Nat := 2 ^ 60 + k * 2 ^ 25 + j

/-- `reach` of R321: a new ordinal for a reference, or for a pair of GCMP; with the writes that this makes and the
address of the copy. -/
def gReach (s : State) (u : UnitUser) (r : CopyReq) (g : GraphSt) (v v2 parent : Nat) (slots : Nat × Nat) : G GStep := do
  if g.n = g.cap then gFail (.finish 0x23 g.n)
  else if r.stop then gFail (.stop 0x01)
  else
    let k := g.n
    let a := refAddr v
    let o ← gObj s u g k a
    let mism := if parent = rootParent then 0 else parent
    if g.kind = 3 then
      let o2 ← gObj s u g k (refAddr v2)
      if o.hdr % 2 ^ 24 ≠ o2.hdr % 2 ^ 24 ∨ o.len ≠ o2.len then gFail (.finish 0x24 mism)
    let g1 := { g with n := k + 1, objs := o :: g.objs }
    let entry (d1 : Nat) : List (Nat × List Byte) :=
      [(g.entry k, dw a ++ dw d1 ++ dw parent ++ dw 0), (g.index slots.1, dw (k + 1))]
    if g.kind = 1 then
      if g.limit < g.arg + o.bytes then gFail (.stop 0x22)
      else
        pure { g := { g1 with arg := g.arg + o.bytes }, done := false
               writes := (g.arg, dw (2 ^ 32 + o.hdr) ++ dw 0) :: (r.gor + 8, dw (g.arg + o.bytes)) :: entry g.arg }
    else if g.kind = 2 then
      let at_ ← gSent (answerKey k 0) 1 [k, o.hdr, o.total, 0, r.op 2, g.arg, g.limit, r.gor] []
      pure { g := { g1 with arg := g.arg + o.bytes }, done := false
             writes := (r.gor + 8, dw (g.arg + o.bytes)) :: entry at_ }
    else if g.kind = 3 then
      pure { g := g1, done := false, writes := entry (refAddr v2) ++ [(g.index slots.2, dw (k + 1))] }
    else pure { g := g1, done := false, writes := entry 0 }

/-- Enter an object (R324). -/
def gEnter (g : GraphSt) (o : GObj) : GraphSt := if g.kind = 4 then gAbsorb g (o.hdr % 2 ^ 24) else g

/-- Where the copy of an ordinal stands. -/
def gCopyOf (s : State) (u : UnitUser) (g : GraphSt) (k : Nat) : G Nat := gWord s u false (g.entry k + 8)

/-- The word that a GSEND carries, in a packet of its own (R424, R425): the copy is named by the address where it
was placed. -/
def gCarry (s : State) (u : UnitUser) (r : CopyReq) (g : GraphSt) (k j w : Nat) (o : GObj) : G Unit := do
  let at_ ← gCopyOf s u g k
  let _ ← gSent (answerKey k (j + 1)) 1 [k, o.hdr, o.total, j, r.op 2, at_, at_ + o.bytes, r.gor] [w]

/-- `word` of R321. -/
def gPlain (s : State) (u : UnitUser) (r : CopyReq) (g : GraphSt) (k j v v2 : Nat) (o : GObj) : G GStep := do
  if g.kind = 1 then
    let c ← gCopyOf s u g k
    pure { g := g, done := false, writes := [(c + 16 + 8 * j, dw v)] }
  else if g.kind = 2 then
    gCarry s u r g k j v o
    pure { g := g, done := false, writes := [] }
  else if g.kind = 3 then
    if v ≠ v2 then gFail (.finish 0x24 k) else pure { g := g, done := false, writes := [] }
  else if g.kind = 4 then pure { g := gAbsorb g v, done := false, writes := [] }
  else pure { g := g, done := false, writes := [] }

/-- `field` of R321 for a target that was found. -/
def gField (s : State) (u : UnitUser) (r : CopyReq) (g : GraphSt) (k j t : Nat) (o : GObj) : G GStep := do
  if g.kind = 1 then
    let c ← gCopyOf s u g k
    let ct ← gCopyOf s u g t
    let h ← gWord s u false ct
    pure { g := g, done := false
           writes := [(c + 16 + 8 * j, dw (objRef ct)), (ct, dw ((h + 2 ^ 32) % 2 ^ 64))] }
  else if g.kind = 2 then
    gCarry s u r g k j (1 + t) o
    pure { g := g, done := false, writes := [] }
  else if g.kind = 4 then pure { g := gAbsorb g (1 + t), done := false, writes := [] }
  else if g.kind = 5 then
    let d3 ← gWord s u false (g.entry t + 24)
    pure { g := g, done := false, writes := [(g.entry t + 24, dw (d3 + 2 ^ 32))] }
  else pure { g := g, done := false, writes := [] }

/-- Act on the value that was read from word `j` of object `k`. -/
def gAct (s : State) (u : UnitUser) (r : CopyReq) (g : GraphSt) (k j : Nat) (o : GObj) : G GStep := do
  let v := g.pv
  let v2 := g.pv2
  let g0 := { g with pend := false, pv := 0, pv2 := 0 }
  if o.isPtr j ∧ (v ≠ 0 ∨ (g.kind = 3 ∧ v2 ≠ 0)) then
    if badRef v ∨ (g.kind = 3 ∧ badRef v2) then gFail (.finish 0x20 g.n)
    else if g.kind = 3 ∧ (v = 0 ∨ v2 = 0) then gFail (.finish 0x24 k)
    else
      let (t, slot) ← gLookup s u g false (refAddr v)
      let (t2, slot2) ← if g.kind = 3 then gLookup2 s u g (refAddr v2) slot else pure (t, slot)
      match t, t2 with
      | some x, some y => if x ≠ y then gFail (.finish 0x24 k) else gField s u r g0 k j x o
      | none, none => do
        let st ← gReach s u r g0 v v2 k (slot, slot2)
        let nk := g.n
        let o2 := (st.g.findObj nk).getD o
        -- the field that names the new object, then the object itself
        if g.kind = 1 then
          let c ← gCopyOf s u g k
          pure { st with g := { st.g with cur := nk }, writes := st.writes ++ [(c + 16 + 8 * j, dw (objRef g.arg))] }
        else if g.kind = 2 then
          gCarry s u r g k j (1 + nk) o
          pure { st with g := { st.g with cur := nk } }
        else if g.kind = 4 then pure { st with g := { gEnter (gAbsorb st.g (1 + nk)) o2 with cur := nk } }
        else if g.kind = 5 then
          pure { st with g := { st.g with cur := nk }, writes := st.writes ++ [(g.entry nk + 24, dw (2 ^ 32))] }
        else pure { st with g := { st.g with cur := nk } }
      | _, _ => gFail (.finish 0x24 k)
  else gPlain s u r g0 k j v v2 o

/-- One step of phase 1: the root, a word that is read, a value that is acted on, or the return to the parent. -/
def gWalk (s : State) (u : UnitUser) (r : CopyReq) (g : GraphSt) : G GStep := do
  if g.n = 0 then
    let v2 := if g.kind = 3 then g.arg else 0
    if badRef g.root ∨ badRef v2 then gFail (.finish 0x20 0)
    else if g.root = 0 ∧ v2 = 0 then pure { g := g, done := true, writes := [] }
    else if g.kind = 3 ∧ (g.root = 0 ∨ v2 = 0) then gFail (.finish 0x24 0)
    else
      let (_, slot) ← gLookup s u g false (refAddr g.root)
      let (_, slot2) ← if g.kind = 3 then gLookup2 s u g (refAddr v2) slot else pure (none, slot)
      let st ← gReach s u r { g with pend := false, pv := 0, pv2 := 0 } g.root v2 rootParent (slot, slot2)
      pure { st with g := { gEnter st.g ((st.g.findObj 0).getD default) with cur := 0 } }
  else
    let k := g.cur
    let o ← gScanned s u g k
    let g1 := if (g.findObj k).isSome then g else { g with objs := o :: g.objs }
    let d3 ← gWord s u false (g.entry k + 24)
    let next := d3 % 2 ^ 25
    if g.pend then gAct s u r g1 k (next - 1) o
    else if next < o.total then
      let a ← gWord s u false (g.entry k)
      let v ← if o.array ∧ next = o.lenoff then pure o.len else gWord s u true (refAddr a + 16 + 8 * next)
      let v2 ←
        if g.kind = 3 then
          if o.array ∧ next = o.lenoff then pure o.len
          else do
            let b ← gWord s u false (g.entry k + 8)
            gWord s u true (refAddr b + 16 + 8 * next)
        else pure 0
      pure { g := { g1 with pend := true, pv := v, pv2 := v2 }, done := false, writes := [(g.entry k + 24, dw (d3 + 1))] }
    else if r.stop then gFail (.stop 0x01)
    else
      let p ← gWord s u false (g.entry k + 16)
      if p = rootParent then pure { g := g1, done := true, writes := [] }
      else pure { g := { g1 with cur := p }, done := false, writes := [] }

/-! ## Phases 2 and 3 of GFREE (R326) -/

/-- The lowest live ordinal from `k` on whose fields are still to be read again. -/
def gLiveFrom (s : State) (u : UnitUser) (g : GraphSt) (k : Nat) : Nat → G (Option Nat)
  | 0 => pure none
  | fuel + 1 => do
    let d1 ← gWord s u false (g.entry k + 8)
    let d3 ← gWord s u false (g.entry k + 24)
    let o ← gScanned s u g k
    if d1.testBit 32 ∧ d3 % 2 ^ 25 < o.total then pure (some k) else gLiveFrom s u g (k + 1) fuel

/-- One step of the marking: the stored counts in ordinal order, then the fields of the live objects. -/
def gMark (s : State) (u : UnitUser) (r : CopyReq) (g : GraphSt) : G GStep := do
  if r.stop ∧ g.cur < g.n then gFail (.stop 0x01)
  else if g.cur < g.n then
    let k := g.cur
    let a ← gWord s u false (g.entry k)
    let h ← gWord s u true (refAddr a)
    let d1 ← gWord s u false (g.entry k + 8)
    let d3 ← gWord s u false (g.entry k + 24)
    let c := h / 2 ^ 32
    let live := decide (d3 / 2 ^ 32 + (if k = 0 then 1 else 0) < c)
    let d1' := if live ∧ !d1.testBit 32 then d1 + 2 ^ 32 else d1
    pure { g := { g with cur := k + 1, counts := (k, c) :: g.counts }, done := false
           writes := [(g.entry k + 8, dw d1'), (g.entry k + 24, dw (d3 / 2 ^ 32 * 2 ^ 32))] }
  else
    match ← gLiveFrom s u g 0 g.n with
    | none => pure { g := g, done := true, writes := [] }
    | some k =>
      let o ← gScanned s u g k
      let d3 ← gWord s u false (g.entry k + 24)
      let j := d3 % 2 ^ 25
      let a ← gWord s u false (g.entry k)
      let step := (g.entry k + 24, dw (d3 + 1))
      let ends := j + 1 == o.total
      if r.stop ∧ j = 0 then gFail (.stop 0x01)
      else if o.isPtr j then
        let v ← gWord s u true (refAddr a + 16 + 8 * j)
        if v = 0 ∨ badRef v then pure { g := g, done := false, writes := [step], ends := ends }
        else
          match ← gLookup s u g false (refAddr v) with
          | (some t, _) =>
            let d1 ← gWord s u false (g.entry t + 8)
            pure { g := g, done := false, ends := ends
                   writes := [(g.entry t + 8, dw ((if d1.testBit 32 then d1 else d1 + 2 ^ 32) + 1)), step] }
          | (none, _) => pure { g := g, done := false, writes := [step], ends := ends }
      else pure { g := g, done := false, writes := [step], ends := ends }

/-- One step of the sweep: an atomic add on the header of the next ordinal. A header is added to after the ordinal's entry
has been marked, so that a stop between the two leaves the add to be made. -/
def gSweep (s : State) (u : UnitUser) (r : CopyReq) (g : GraphSt) : G GStep := do
  if g.n ≤ g.cur then pure { g := g, done := true, writes := [] }
  else if r.stop then gFail (.stop 0x01)
  else
    let k := g.cur
    let a ← gWord s u false (g.entry k)
    let d1 ← gWord s u false (g.entry k + 8)
    let d3 ← gWord s u false (g.entry k + 24)
    let c ← match g.counts.find? (·.1 == k) with
      | some e => pure e.2
      | none => do
        let h ← gWord s u true (refAddr a)
        pure (h / 2 ^ 32)
    let live := d1.testBit 32
    let sub := if live then d3 / 2 ^ 32 + 2 ^ 32 - d1 % 2 ^ 32 + (if k = 0 then 1 else 0) else c
    pure { g := { g with cur := k + 1, freed := g.freed + (if live then 0 else 1) }, done := false
           writes := if live then [] else [(g.entry k + 8, dw (if d1.testBit 33 then d1 else d1 + 2 ^ 33))]
           adds := [(refAddr a, dw ((2 ^ 64 - sub % 2 ^ 32 * 2 ^ 32) % 2 ^ 64))] }

end Sys2Proof.Machine
end

