-- ==== Sys2Proof/Machine/Graph.lean ====
section
/-! DEFINITION. Graph requests from their record to their finish, GSTAT, and both ends of a graph send (16 R317 to
R326; 17 R333 to R337; 18 R340, R341; 23 R423 to R425). -/

namespace Sys2Proof.Machine

/-! ## Issue -/

/-- The kind field of a record (R317). -/
def kindCode (k : CopyKind) : Nat :=
  match k with
  | .gcopy => 1 | .gsend => 2 | .gcmp => 3 | .ghash => 4 | .gfree => 5
  | .cpy | .cpy2d | .cpyl | .cpyg => 0

def issueGraph (s : State) (kind : CopyKind) (w : BitVec 1) (d : Reg) (ops : List Word) : Out :=
  guardX s d (issueReq s (newReq s kind d none ops) (w == 1))

def execGcopy (w : BitVec 1) (d a : Reg) (s : State) : Out := issueGraph s .gcopy w d [s.rx a]
def execGcmp (w : BitVec 1) (d a : Reg) (s : State) : Out := issueGraph s .gcmp w d [s.rx a]
def execGhash (w : BitVec 1) (d a : Reg) (s : State) : Out := issueGraph s .ghash w d [s.rx a]
def execGfree (w : BitVec 1) (d a : Reg) (s : State) : Out := issueGraph s .gfree w d [s.rx a]

/-- GSEND (R423): the record, the destination and the destination's ordinal table. -/
def execGsend (w : BitVec 1) (d a b c : Reg) (s : State) : Out := issueGraph s .gsend w d [s.rx a, s.rx b, s.rx c]

/-! ## The state of a request -/

def modG (s : State) (cl id : Nat) (f : GraphSt → GraphSt) : State := modReq s cl id (fun r => { r with g := f r.g })

/-- The count of a status word (R318, R337): n, or the objects freed during the sweep. -/
def gCount (g : GraphSt) : Nat := if g.kind = 5 ∧ g.phase = 3 then g.freed else g.n

def statusOf (count m code : Nat) : Word := BitVec.ofNat 64 (count % 2 ^ 40 * 2 ^ 16 + m % 4 * 2 ^ 8 + code % 256)

/-- mut after a resumable stop (R322). -/
def stoppedMut (m : Nat) : Nat := if m = 1 then 1 else 2

/-- What a step has read: kept for the request, its pages used, and the lines of the object words that it has read at their
homes in this step watched from now on (R300, R322). -/
def gSettle (s : State) (cl : Nat) (r : CopyReq) (c : GCache) : State :=
  let u := reqUser cl r
  let new := c.drop r.g.cache.length
  let key (va : Nat) : Option Nat := match unitTarget s u va 8 false with | .ok (.home pa) => some (pa / 64) | _ => none
  let s1 := new.foldl (fun t e => if e.1 < 2 ^ 57 then touchPage t cl r.world e.1 else t) s
  addWatches (modG s1 cl r.id (fun g => { g with cache := c })) cl r.id (((new.filter (·.2.1)).filterMap (fun e => key e.1)).eraseDups)

/-! ## Ends (R318, R322, R334, R341) -/

/-- The request ends: its record is written and its token sent by GRAPH_REQUEST_FINISH. -/
def gEnd (s : State) (cl : Nat) (r : CopyReq) (code count : Nat) (fin : Bool) : State :=
  (modReq s cl r.id (fun x => { x with
    acc := none, status := some (BitVec.ofNat 64 code), g := { x.g with fin := fin, count := count, cache := [] } })).next1
    (.graphRequestFinish cl r.id)

def gStop (s : State) (cl : Nat) (r : CopyReq) (code : Nat) : State :=
  match reqOf s cl r.id with
  | some x => gEnd s cl x code (gCount x.g) false
  | none => s

/-- Write bytes at their home at once, or add to a dword there; none where a request must go out (`directRead`). -/
def directWrite (s : State) (u : UnitUser) (self : Option Nat) (t : Target) (add : Bool) (bs : List Byte) :
    Option (Except Nat State) :=
  match t with
  | .home pa =>
    if crossesDown s (dieOfCluster u.cluster) (homeDie pa) then none
    else some (match homeStore s (dieOfCluster u.cluster) self pa add bs with | .ok t => .ok t | .error _ => .error 0x12)
  | .own _ | .aper _ _ _ | .peer _ _ => none

/-- A write of a step: address, bytes, and whether they are added to the dword there. -/
abbrev GWrite := Nat × List Byte × Bool

/-- What has to be asked for before a step can go on: the key of the answer, address, bytes, and whether they are added. -/
abbrev GAsk := Nat × GWrite

/-- The key under which the landing of dword `j` of write `i` of a step is kept; `wholeWrite` stands for all of it. -/
def writeKey (i j : Nat) : Nat := 2 ^ 61 + i * 65536 + j
def wholeWrite : Nat := 65535

/-- Whether a write of a step has landed. -/
def hasLanded (c : GCache) (i : Nat) (bs : List Byte) : Bool :=
  let at_ (j : Nat) : Bool := c.any (·.1 == writeKey i j)
  at_ wholeWrite || (List.range (bs.length / 8)).all at_

/-- Perform the writes of a step in order, from number `i` on: at once at their homes, or up to one that has to go out, by
dwords, or one that fails. Answers what has landed, and the sectors written. -/
def gWrites (s : State) (u : UnitUser) (self : Option Nat) (c : GCache) (i : Nat) :
    List GWrite → State × GCache × Sig × Option (Nat × Except Nat GAsk)
  | [] => (s, c, 0, none)
  | (va, bs, add) :: rest =>
    if hasLanded c i bs then gWrites s u self c (i + 1) rest
    else
      match unitTarget s u va bs.length true with
      | .error e => (s, c, 0, some (i, if e = needsWalk then .ok (writeKey i 0, va, bs.take 8, add) else .error e))
      | .ok t =>
        match directWrite s u self t add bs with
        | some (.ok s1) =>
          let sig := unitSig s { write := true, tgt := t, n := bs.length, data := bs, sent := true, tag := none }
          let (s2, c2, sig2, e) :=
            gWrites (touchPage s1 u.cluster u.world va) u self (c ++ [(writeKey i wholeWrite, false, [])]) (i + 1) rest
          (s2, c2, sig ||| sig2, e)
        | some (.error e) => (s, c, 0, some (i, .error e))
        | none =>
          let j := ((List.range (bs.length / 8)).find? (fun j => !c.any (·.1 == writeKey i j))).getD 0
          (s, c, 0, some (i, .ok (writeKey i j, va + 8 * j, (bs.drop (8 * j)).take 8, add)))

/-- Ask for a dword, or send one: the access, or the code of its failure; neither while its page is walked for. -/
def gIssue (s : State) (u : UnitUser) (va : Nat) (write add : Bool) (data : List Byte) : State × Option (Except Nat UnitAcc) :=
  match unitFind s u va 8 write with
  | (s0, .error c) => (s0, if c = needsWalk then none else some (.error (unitCode c)))
  | (s0, .ok t) =>
    match unitIssue s0 u { write := write, tgt := t, n := 8, data := data, sent := false, tag := none, add := add } with
    | .error c => (s0, some (.error (unitCode c)))
    | .ok (s1, a) => (s1, some (.ok a))

/-- The hash state as it stands in the work area (R319), whose layout the spec does not give.
Mark: DESIGN CHOICE (log entry 50). -/
def hashArea (g : GraphSt) : List Byte := if g.hash.isEmpty then [] else wordBytes g.hash ++ dw g.pos

/-- The status word that a request ends with (R318). -/
def CopyReq.endStatus (r : CopyReq) : Word :=
  statusOf r.g.count (if r.g.fin then r.mutated else stoppedMut r.mutated) ((r.status.map (·.toNat)).getD 0)

/-- Dwords 4 to 7 of the record of a request that ends (R317, R341). -/
def CopyReq.lastDwords (r : CopyReq) : List Byte :=
  let g := r.g
  dw r.endStatus.toNat
    ++ dw (g.n * 2 ^ 8 + g.kind * 2 ^ 5 + (if g.fin then 15 else (if g.pend then 16 else 0) + g.phase))
    ++ dw (if g.fin then 0 else g.cur) ++ dw (if g.fin then 0 else if g.pend then g.pv else 0)

/-- What a request writes at its end: its work area where it stops, and its record (R319, R320, R341). -/
def CopyReq.lastWrites (r : CopyReq) : List GWrite :=
  let g := r.g
  let area : List GWrite :=
    if g.fin then []
    else if g.kind = 4 then (List.range 26).map (fun i => (g.work + 8 * i, ((hashArea g).drop (8 * i)).take 8, false))
    else if g.kind = 3 ∧ g.pend then [(g.work, dw g.pv2, false)]
    else []
  area.filter (fun w => !w.2.1.isEmpty) ++ [(r.gor + 32, r.lastDwords, false)]

/-- A request at its end goes on with its last writes; the TOKEN release follows the last of them (R320, R334). A write that
fails is left out: the request has nowhere else to report it. -/
def gFinish (s : State) (cl : Nat) (r : CopyReq) : State :=
  let u := reqUser cl r
  let (s1, c, sig, e) := gWrites s u (some r.id) r.g.cache 0 r.lastWrites
  let s2 := modReq s1 cl r.id (fun x => { x with sig := x.sig ||| sig, g := { x.g with cache := c } })
  let skip (t : State) (i : Nat) : State :=
    goOn (modG t cl r.id (fun g => { g with cache := g.cache ++ [(writeKey i wholeWrite, false, [])] })) cl r.id
  match e with
  | none => releaseReq s2 cl { r with sig := r.sig ||| sig } r.endStatus
  | some (i, .error _) => skip s2 i
  | some (i, .ok (key, va, bs, add)) =>
    match gIssue s2 u va true add bs with
    | (s3, none) => s3
    | (s3, some (.error _)) => skip s3 i
    | (s3, some (.ok a)) => modReq s3 cl r.id (fun x => { x with acc := some a, elem := some (key, []), askObj := false })

/-- The walk for the page of a last write has found no page for it: that write is left out. -/
def gFinishFault (s : State) (cl : Nat) (r : CopyReq) : State :=
  match (gWrites s (reqUser cl r) (some r.id) r.g.cache 0 r.lastWrites).2.2.2 with
  | some (i, _) => gFinish s cl { r with g := { r.g with cache := r.g.cache ++ [(writeKey i wholeWrite, false, [])] } }
  | none => gFinish s cl r

/-- The end of a graph request: dwords 4 to 7 of its record, its watches, its token (R318, R322, R334, R341). -/
def execGraphRequestFinish (cluster id : Nat) (s : State) : Out :=
  match reqOf s cluster id with
  | none => .next s
  | some r => .next (if r.status.isSome ∧ r.acc = none then gFinish s cluster r else s)

/-! ## The start of a request (R317, R320, R333) -/

/-- Reserved bits and values of a record (R12, R317): of a fresh one and of one that is resumed. -/
def badGor (kind : Nat) (d : Nat → Nat) : Bool :=
  let lgc := bits (d 3) 63 58
  bits (d 3) 57 57 != 0 || decide (lgc < 4) || decide (32 < lgc) || d 3 % 64 != 0
    || bits (d 5) 63 48 != 0 || bits (d 6) 63 40 != 0
    || (if kind = 1 ∨ kind = 2 then d 1 % 16 != 0 || decide (d 2 < d 1) else d 2 != 0)
    || (kind == 4 && d 1 % 32 != 0) || (kind == 5 && d 1 != 0)

/-- What the request reads at its start: its record, and the work area of one that is resumed. -/
def gLoad (s : State) (u : UnitUser) (r : CopyReq) : G (GraphSt × List Nat) := do
  let ds ← (List.range 8).mapM (fun i => gWord s u false (r.gor + 8 * i))
  let d (i : Nat) : Nat := (ds[i]?).getD 0
  let base := d 3 % 2 ^ 57
  let kind := kindCode r.kind
  let lgc := bits (d 3) 63 58
  let kept := d 5 % 16 ≠ 0 ∧ d 5 % 16 ≠ 15 ∧ translatedBase ≤ base
  let resumed := kept ∧ bits (d 5) 7 5 = kind
  let work := base + 64 * 2 ^ lgc
  let pend := decide (resumed) && (d 5).testBit 4
  let hs ← if resumed ∧ kind = 4 ∧ bits (d 5) 47 8 ≠ 0 then (List.range 26).mapM (fun i => gWord s u false (work + 8 * i)) else pure []
  let pv2 ← if resumed ∧ kind = 3 ∧ pend then gWord s u false work else pure 0
  let g : GraphSt := { GraphSt.zero with
    loaded := true, root := d 0, arg := d 1, limit := d 2, lgc := lgc, base := base,
    kind := if kept then bits (d 5) 7 5 else kind, n := if kept then bits (d 5) 47 8 else 0, pend := pend, phase := if resumed then d 5 % 16 else 1,
    freed := if resumed ∧ d 5 % 16 = 3 then bits (d 4) 55 16 else 0,
    cur := if resumed then d 6 % 2 ^ 40 else 0, pv := if pend then d 7 else 0, pv2 := pv2,
    tb := (s.polder r.world).tbase.toNat % 2 ^ 57 / 32 * 32
    hash := (hs.take 25).map (BitVec.ofNat 64), pos := (hs[25]?).getD 0 }
  pure (g, ds)

/-! ## Graph-send packets (R424, R425) -/

/-- The endpoint of the copy hart that a GSEND names; its low bits hold the destination world. -/
def gsendDst (r : CopyReq) : Nat :=
  let d := r.op 1
  bits d 63 52 * 4194304 + bits d 51 48 * 262144 + bits d 47 36 * 64 + d % 32

def padFlits (ws : List Word) : List Word := ws ++ List.replicate ((8 - ws.length % 8) % 8) 0

/-- Send a graph-send packet under a tag, and wait for its answer. -/
def gsendPacket (s : State) (cl : Nat) (r : CopyReq) (key sub : Nat) (flit body : List Nat) : State :=
  let die := dieOfCluster cl
  let dst := gsendDst r
  let words (l : List Nat) : List Word := l.map (BitVec.ofNat 64)
  if hasPath s die (dst / 4194304) then
    let a : UnitAcc := { write := true, tgt := .peer (dst / 4194304) key, n := 0, data := [], sent := false, tag := none }
    let p := unitTag s (reqUser cl r) a (dst / 4194304) (fun idx gen s1 =>
      (sendPacket s1 die (mkPacket s1 0x0C 0 r.world (ctxEndpoint s1 r.core r.ctx) dst idx gen (BitVec.ofNat 64 (sub * 2 ^ 60)) 0
        (padFlits (words flit) ++ padFlits (words body)))).getD s1)
    modReq p.1 cl r.id (fun x => { x with acc := some p.2 })
  else gStop s cl r 0x08

/-! ## Steps of a request -/

/-- Go on with a request after a time. -/
def gLater (s : State) (cl id : Nat) : State := s.later Config.latReply (.remoteReply (.copy cl id) .done 0)

/-- Ask for what a step needs, or send what it writes. -/
def gAsk (s : State) (cl : Nat) (r : CopyReq) (key va : Nat) (obj write add : Bool) (data : List Byte) : State :=
  match gIssue s (reqUser cl r) va write add data with
  | (s1, none) => s1
  | (s1, some (.error c)) => if r.g.loaded then gStop s1 cl r c else endReq s1 cl r (BitVec.ofNat 64 c)
  | (s1, some (.ok a)) => modReq s1 cl r.id (fun x => { x with acc := some a, elem := some (key, []), askObj := obj })

/-- The first write of a step that a page refuses, and the cause. -/
def gRefused (s : State) (u : UnitUser) : List GWrite → Option Nat
  | [] => none
  | (va, bs, _) :: r =>
    match unitTarget s u va bs.length true with
    | .error c => if c = needsWalk then gRefused s u r else some c
    | .ok _ => gRefused s u r

/-- The boundary at the end of an object: a request that has run 65,536 cycles yields (R231). -/
def gBoundary (s : State) (cl : Nat) (r : CopyReq) : State :=
  if 65536 ≤ s.cycle - r.since then s.next1 (.copyYield cl r.id) else gLater s cl r.id

/-- A step has been made: what follows it. -/
def gCommitted (s : State) (cl : Nat) (r : CopyReq) (st : GStep) : State :=
  let g := { st.g with cache := [] }
  let s1 := modReq s cl r.id (fun x => { x with g := g })
  if !st.done then
    if g.cur = r.g.cur ∧ !st.ends then gLater s1 cl r.id else gBoundary s1 cl r
  else if g.kind = 5 ∧ g.phase < 3 then
    gBoundary (modG s1 cl r.id (fun x => { x with phase := x.phase + 1, cur := 0, freed := 0 })) cl r
  else if g.kind = 2 ∧ g.phase = 1 then
    gBoundary (modG s1 cl r.id (fun x => { x with phase := 3 })) cl r
  else gEnd s1 cl { r with g := g } 0 (gCount g) true

/-- The step that a request makes next (R321 to R326, R424). -/
def gNext (s : State) (u : UnitUser) (r : CopyReq) : G GStep :=
  let g := r.g
  if !g.begun then
    pure { g := { g with begun := true }, done := false, writes := [(r.gor + 32, dw (statusOf (gCount g) r.mutated 0x01).toNat)] }
  else if g.phase = 1 then do
    let st ← gWalk s u r g
    if st.done ∧ g.kind = 4 then pure { st with writes := [(g.arg % 2 ^ 57, gDigest st.g)] } else pure st
  else if g.kind = 2 then do
    let _ ← gSent (answerKey 0 (2 ^ 24)) 3 [g.n, r.op 2] []
    pure { g := g, done := true, writes := [] }
  else if g.phase = 2 then gMark s u r g
  else gSweep s u r g

/-- What a step that does not complete asks for. -/
def gUnfinished (s : State) (cl : Nat) (r : CopyReq) (why : GWhy) : State :=
  match why with
  | .need va obj => gAsk s cl r va va obj false false []
  | .send key sub flit body => gsendPacket s cl r key sub flit body
  | .stop code => gStop s cl r code
  | .finish code count => gEnd s cl r code count true

/-- Whether a phase belongs to a kind (R317): 2 to GFREE, 3 to GFREE and to the fix-up of GSEND (R424). -/
def badPhase (kind phase : Nat) : Bool :=
  !(phase == 1 || (phase == 2 && kind == 5) || (phase == 3 && (kind == 5 || kind == 2)))

/-- The start: the record is read and checked; the first step writes code 0x01 (R320, R333). -/
def gStart (s : State) (cl : Nat) (r : CopyReq) : State :=
  let u := reqUser cl r
  match (gLoad s u r).run r.g.cache with
  | .error (why, c) =>
    let s1 := gSettle s cl r c
    match why with
    | .need va obj => gAsk s1 cl r va va obj false false []
    | .stop code => endReq s1 cl r (BitVec.ofNat 64 code)
    | .send _ _ _ _ | .finish _ _ => s1
  | .ok ((g, ds), _) =>
    let d (i : Nat) : Nat := (ds[i]?).getD 0
    let kind := kindCode r.kind
    if g.base < translatedBase then endReq s cl r 0x08
    else if d 5 % 16 = 15 then endReq s cl r (BitVec.ofNat 64 (d 4))
    else
      let r1 := { r with g := g, mutated := if d 5 % 16 = 0 then 0 else bits (d 4) 9 8 }
      let s1 := modReq s cl r.id (fun _ => r1)
      if badGor kind d ∨ (d 5 % 16 ≠ 0 ∧ (bits (d 5) 7 5 ≠ kind ∨ badPhase kind (d 5 % 16) = true)) then
        gEnd s1 cl r1 0x05 g.n true
      else gLater s1 cl r.id

/-- All that a step writes, in order. -/
def GStep.all (st : GStep) : List GWrite := st.writes.map (fun w => (w.1, w.2, false)) ++ st.adds.map (fun w => (w.1, w.2, true))

/-- The copy hart goes on with a graph request. -/
def graphStep (s : State) (cl : Nat) (r : CopyReq) : State :=
  if !r.g.loaded then gStart s cl r
  else
    let u := reqUser cl r
    match (gNext s u r).run r.g.cache with
    | .error (why, c) =>
      let s1 := gSettle s cl r c
      gUnfinished s1 cl ((reqOf s1 cl r.id).getD r) why
    | .ok (st, c) =>
      let s1 := gSettle s cl r c
      let r1 := (reqOf s1 cl r.id).getD r
      match gRefused s1 u st.all with
      | some code => gStop s1 cl r1 (unitCode code)
      | none =>
        let (s2, c2, sig, e) := gWrites s1 u (some r.id) c 0 st.all
        let s3 := modReq s2 cl r.id (fun x => { x with sig := x.sig ||| sig, g := { x.g with cache := c2 } })
        match e with
        | none => gCommitted s3 cl r st
        | some (_, .error code) => gStop s3 cl r1 (unitCode code)
        | some (_, .ok (key, va, bs, add)) => gAsk s3 cl r1 key va false true add bs

/-- An answer to what a step has asked for: kept, and the step made again. -/
def gAnswer (s : State) (cl : Nat) (r : CopyReq) (key : Nat) (obj : Bool) (bs : List Byte) : State :=
  goOn (modReq s cl r.id (fun x => { x with
    acc := none, elem := none, askObj := false, g := { x.g with cache := x.g.cache ++ [(key, obj, bs)] } })) cl r.id

/-- The line of an object word that has been read at its home is watched (R322). -/
def watchRead (s : State) (cl : Nat) (r : CopyReq) (a : UnitAcc) : State :=
  match a.tgt with
  | .home pa => if r.askObj ∧ !a.write then addWatches s cl r.id [pa / 64] else s
  | _ => s

/-- The failure of what a request has asked for: its last writes are left out one by one, the others stop it. -/
def gFault (s : State) (cl : Nat) (r : CopyReq) (code : Nat) : State :=
  if r.status.isSome then
    match r.acc with
    | none => gFinishFault s cl r
    | some _ => gAnswer s cl r ((r.elem.map (·.1)).getD 0) false []
  else if r.g.loaded then gStop s cl r code
  else endReq s cl r (BitVec.ofNat 64 code)

/-- A reply to a graph request, or the word to go on. -/
def graphReply (s : State) (cl : Nat) (r : CopyReq) (p : Reply) : State :=
  match r.acc with
  | none =>
    if r.running then
      match p with
      | .fault c _ => gFault s cl r (unitCode c)
      | .done | .data _ | .home | .gone | .status _ => if r.status.isSome then gFinish s cl r else graphStep s cl r
    else s
  | some a =>
    let key := (r.elem.map (·.1)).getD 0
    let sig := unitSig s a
    let landed (t : State) (bs : List Byte) : State :=
      gAnswer (modReq t cl r.id (fun x => { x with sig := x.sig ||| sig })) cl r key false bs
    match p with
    | .home =>
      match unitPerform s (reqUser cl r) (some r.id) a with
      | .ok (t, bs) => landed (watchRead t cl r a) (bs.getD [])
      | .error (c, t) => gFault t cl r (unitCode c)
    | .data bs => landed s bs
    | .done => if a.sent then landed s [] else goOn (modReq s cl r.id (fun x => { x with acc := none })) cl r.id
    | .fault c _ => gFault s cl r (unitCode c)
    | .gone => gFault s cl r 0x0B
    | .status c => if c = 0 then landed s [] else gFault s cl r c

/-! ## GSTAT (R337, R340) -/

/-- The unfinished request of the module that names a record. -/
def gorOwner (s : State) (world a : Nat) : Option (Nat × CopyReq) :=
  s.clusters.findSome? (fun p => (p.2.kicks.find? (fun r => r.isGraph && r.world == world && r.gor == a)).map (fun r => (p.1, r)))

/-- The access of a GSTAT: dword 4 of the record, or the state of the request that works on it. -/
def gstatReq (s : State) (d : Reg) (a : Nat) : MemReq :=
  let vas (n : Nat) : List Nat := (List.range n).map (a + 32 + ·)
  match gorOwner s s.me.world a with
  | none => { MemReq.new .gstat 3 d.toNat (vas 8) with acq := true, scope := 4 }
  | some (_, r) =>
    if r.taken ∧ r.g.loaded then
      { MemReq.new .gstat 3 d.toNat [] with phase := 1, extra := statusOf (gCount r.g) r.mutated 0x01 }
    else { MemReq.new .gstat 3 d.toNat (vas 16) with acq := true, scope := 4, phase := 2 }

/-- GSTAT of a record at `a`, a multiple of 64. -/
def gstatAt (s : State) (d : Reg) (a : Nat) : Out :=
  let r := gstatReq s d a
  if r.phase = 1 then
    .next ((park s s.cur .waitMem (.mem r)).later Config.latReply (.remoteReply (.ctx (coreOf s.cur) s.me.ctxNum) .done 0))
  else beginAccess s r

def execGstat (d a : Reg) (s : State) : Out :=
  guardX s d <|
    let at_ := addr57 (s.rx a)
    if at_ % 64 ≠ 0 then trapOut s 7 0x04 (BitVec.ofNat 64 at_) else gstatAt s d at_

/-- Ask the request that works on a record to stop; one that is still in its kick slot is removed (R337, R340). -/
def stopRequest (s : State) (world a : Nat) : State :=
  match gorOwner s world a with
  | none => s
  | some (cl, r) =>
    if r.taken then modReq s cl r.id (fun x => { x with stop := true })
    else
      let s1 := s.modCluster cl (fun c => { c with kicks := c.kicks.filter (·.id != r.id) })
      admitKicks (sendToken s1 r.core r.slot r.ctx r.rd 0x01 (.copy cl r.id) r.world 0) cl

def execGstatStop (d a : Reg) (s : State) : Out :=
  guardX s d <|
    let at_ := addr57 (s.rx a)
    if at_ % 64 ≠ 0 then trapOut s 7 0x04 (BitVec.ofNat 64 at_)
    else
      match gstatAt s d at_ with
      | .next t => if t.iss.prio.isSome then .next t else .next (stopRequest t s.me.world at_)
      | o => o

/-! ## The answers to a GSEND, at its source -/

/-- The request that a graph-send answer belongs to. -/
def gsendOwner (s : State) (cluster : Nat) (p : Packet) : Option CopyReq :=
  match liveTag s (dieOfCluster cluster) p.tagIdx p.tagGen with
  | some (.copy cl id) => if cl = cluster then reqOf s cl id else none
  | _ => none

def flitNat (p : Packet) (i : Nat) : Nat := ((p.data[i]?).getD 0).toNat

/-- A packet that the graph-send protocol does not know, or whose tag is not live. -/
def gsendLate (s : State) (cluster : Nat) (p : Packet) : State := lateReply s (dieOfCluster cluster) p.tagIdx p.tagGen

def gsendKey (r : CopyReq) : Nat :=
  match r.acc with
  | some a => match a.tgt with | .peer _ key => key | _ => 0
  | none => 0

/-- ACK: the address of the copy, or the code with which the request stops. -/
def execGsendAckArrival (cluster : Nat) (p : Packet) (s : State) : Out :=
  match gsendOwner s cluster p with
  | none => .next (gsendLate s cluster p)
  | some r =>
    let s1 := freeTag s (dieOfCluster cluster) p.tagIdx
    let code := flitNat p 2 % 256
    if code ≠ 0 then .next (gStop s1 cluster r code)
    else .next (gAnswer s1 cluster r (gsendKey r) false (dw (flitNat p 1)))

/-- DONE: the graph has been fixed up, or the request stops with the destination's code. The packet names no sectors, so
the TOKEN release covers every sector (R231, R424). -/
def execGsendDoneArrival (cluster : Nat) (p : Packet) (s : State) : Out :=
  match gsendOwner s cluster p with
  | none => .next (gsendLate s cluster p)
  | some r =>
    let s1 := freeTag s (dieOfCluster cluster) p.tagIdx
    let code := flitNat p 0 % 256
    if code ≠ 0 then .next (gStop s1 cluster r code)
    else .next (gAnswer (modReq s1 cluster r.id (fun x => { x with sig := BitVec.allOnes _ })) cluster r (gsendKey r) false [])

/-! ## The destination of a GSEND (R424) -/

/-- The copy hart of a cluster in a world, for a packet from another module. -/
def destUser (cluster world id : Nat) : UnitUser :=
  { who := .dest cluster id, cluster := cluster, core := cluster * 8, num := 0, world := world, lo := 0, hi := 0 }

/-- The world that a graph-send packet names at its destination. -/
def gsendWorld (p : Packet) : Nat := p.dst % 32

/-- The checks of R383 for a packet of a graph send, with the requirement W: the code, 0 where they pass. -/
def gsendRefused (s : State) (p : Packet) : Nat :=
  let po := s.polder (gsendWorld p)
  if po.state ≠ .live then 0x0B
  else if po.peers.any (fun e => e.smod == p.src / 4194304 && e.sworld == p.world && e.w) then 0
  else 0x08

/-- Answer a graph-send packet. -/
def gsendAnswer (s : State) (cluster : Nat) (p : Packet) (sub : Nat) (flit : List Nat) : State :=
  let die := dieOfCluster cluster
  let q := mkPacket s 0x0C 1 (gsendWorld p) p.dst p.src p.tagIdx p.tagGen (BitVec.ofNat 64 (sub * 2 ^ 60)) 0
    (padFlits (flit.map (BitVec.ofNat 64)))
  (sendPacket s die q).getD s

/-- Dwords from an address up. -/
def dwordsAt (va : Nat) (ws : List Nat) : List GWrite := (List.range ws.length).map (fun i => (va + 8 * i, dw ((ws[i]?).getD 0), false))

/-- An object, or words of it, placed by its first packet and then filled in: what is written, and the copy's address. -/
def placeObject (s : State) (u : UnitUser) (p : Packet) : G (List GWrite × Nat) := do
  let f := flitNat p
  let size := (16 + 8 * f 2 + 15) / 16 * 16
  let body := ((p.data.drop 8).map (·.toNat)).take (f 2 - f 3)
  if f 3 = 0 then
    if f 6 < f 5 + size then gFail (.stop 0x22)
    else
      pure ((f 5, dw (f 1 % 2 ^ 32) ++ dw 0, false) :: (f 4 + 8 * f 0, dw (f 5), false) :: dwordsAt (f 5 + 16) body, f 5)
  else
    let a ← gWord s u false (f 4 + 8 * f 0)
    pure (dwordsAt (a + 16 + 8 * f 3) body, a)

/-- The pointer fields of a copy: rewritten where they hold ordinals. Answers the writes and the copies that they name. -/
def fixFields (s : State) (u : UnitUser) (table n a : Nat) (o : GObj) : List Nat → G (List GWrite × List Nat)
  | [] => pure ([], [])
  | j :: js => do
    let (ws, refs) ← fixFields s u table n a o js
    if !o.isPtr j then pure (ws, refs)
    else
      let v ← gWord s u false (a + 16 + 8 * j)
      if v = 0 then pure (ws, refs)
      else if v / 2 ^ 60 = 0 ∧ v ≤ n then
        let c ← gWord s u false (table + 8 * (v - 1))
        pure ((a + 16 + 8 * j, dw (objRef c), false) :: ws, c :: refs)
      else pure (ws, refAddr v :: refs)

/-- The copies of ordinals, one after the other. -/
def fixObjects (s : State) (u : UnitUser) (table n tb : Nat) : List Nat → G (List GWrite × List Nat)
  | [] => pure ([], [])
  | k :: ks => do
    let a ← gWord s u false (table + 8 * k)
    let o ← gObj s u { GraphSt.zero with tb := tb, n := n } k a
    let (ws, refs) ← fixFields s u table n a o (List.range o.total)
    let (ws2, refs2) ← fixObjects s u table n tb ks
    pure (ws ++ ws2, refs ++ refs2)

/-- The reference counts of the copies: the in-graph fields that name each, and one more for the root. -/
def fixCounts (s : State) (u : UnitUser) (table : Nat) (refs : List Nat) : List Nat → G (List GWrite)
  | [] => pure []
  | k :: ks => do
    let a ← gWord s u false (table + 8 * k)
    let h ← gWord s u false a
    let c := (refs.filter (· == a)).length + (if k = 0 then 1 else 0)
    let ws ← fixCounts s u table refs ks
    pure ((a, dw (c % 2 ^ 32 * 2 ^ 32 + h % 2 ^ 32), false) :: ws)

/-- The fix-up: what is written, and the address of the root's copy. -/
def fixUp (s : State) (u : UnitUser) (p : Packet) : G (List GWrite × Nat) := do
  let n := flitNat p 0
  let table := flitNat p 1
  let tb := (s.polder u.world).tbase.toNat % 2 ^ 57 / 32 * 32
  let (ws, refs) ← fixObjects s u table n tb (List.range n)
  let ws2 ← fixCounts s u table refs (List.range n)
  let root ← if n = 0 then pure 0 else gWord s u false table
  pure (ws ++ ws2, root)

/-- What a packet asks of its destination: OBJECT or FINISH. -/
def destWork (s : State) (u : UnitUser) (fin : Bool) (p : Packet) : G (List GWrite × Nat) :=
  if fin then fixUp s u p else placeObject s u p

/-- The answer to a packet: ACK, or DONE. -/
def destAnswer (s : State) (cl : Nat) (fin : Bool) (p : Packet) (a code : Nat) : State :=
  if fin then gsendAnswer s cl p 4 [code, a] else gsendAnswer s cl p 2 [flitNat p 0, a, code]

def destOf (s : State) (cl id : Nat) : Option GDest := (s.cluster cl).dests.find? (·.id == id)

/-- The work of a packet is done, or has failed. -/
def destEnd (s : State) (cl : Nat) (d : GDest) (a code : Nat) : State :=
  destAnswer (s.modCluster cl (fun c => { c with dests := c.dests.filter (·.id != d.id) })) cl d.fin d.packet a code

def modDest (s : State) (cl id : Nat) (f : GDest → GDest) : State :=
  s.modCluster cl (fun c => { c with dests := c.dests.map (fun d => if d.id = id then f d else d) })

/-- Ask for what the work of a packet needs, or send what it writes. -/
def destAsk (s : State) (cl : Nat) (d : GDest) (u : UnitUser) (c : GCache) (key va : Nat) (write : Bool) (data : List Byte) : State :=
  let s0 := modDest s cl d.id (fun x => { x with cache := c })
  match gIssue s0 u va write false data with
  | (s1, none) => s1
  | (s1, some (.error e)) => destEnd s1 cl d 0 e
  | (s1, some (.ok a)) => modDest s1 cl d.id (fun x => { x with acc := some a, key := key })

/-- The copy hart goes on with a packet: it reads all that it needs, and then writes. -/
def destStep (s : State) (cl : Nat) (d : GDest) : State :=
  let u := destUser cl (gsendWorld d.packet) d.id
  match (destWork s u d.fin d.packet).run d.cache with
  | .error (.need va _, c) => destAsk s cl d u c va va false []
  | .error (.stop e, _) | .error (.finish e _, _) => destEnd s cl d 0 e
  | .error (.send _ _ _ _, _) => s
  | .ok ((ws, a), c) =>
    match gWrites s u none c 0 ws with
    | (s1, _, _, none) => destEnd s1 cl d a 0
    | (s1, _, _, some (_, .error e)) => destEnd s1 cl d 0 (unitCode e)
    | (s1, c1, _, some (_, .ok (key, va, bs, _))) => destAsk s1 cl d u c1 key va true bs

/-- A packet that passes its checks is worked on. -/
def destStart (s : State) (cl : Nat) (fin : Bool) (p : Packet) : State :=
  let d : GDest := { id := s.nextId, fin := fin, packet := p, cache := [], acc := none, key := 0 }
  destStep (s.freshId.modCluster cl (fun c => { c with dests := c.dests ++ [d] })) cl d

/-- A reply to the access of a packet's work, or the word that its page has been walked for. -/
def destReply (s : State) (cl id : Nat) (p : Reply) : State :=
  match destOf s cl id with
  | none => s
  | some d =>
    match d.acc with
    | none =>
      match p with
      | .fault c _ => destEnd s cl d 0 (unitCode c)
      | .done | .data _ | .home | .gone | .status _ => destStep s cl d
    | some a =>
      let landed (t : State) (bs : List Byte) : State :=
        let d1 := { d with acc := none, cache := d.cache ++ [(d.key, false, bs)] }
        destStep (modDest t cl id (fun _ => d1)) cl d1
      match p with
      | .home =>
        match unitPerform s (destUser cl (gsendWorld d.packet) id) none a with
        | .ok (t, bs) => landed t (bs.getD [])
        | .error (c, t) => destEnd t cl d 0 (unitCode c)
      | .data bs => landed s bs
      | .done =>
        if a.sent then landed s []
        else
          let d1 := { d with acc := none }
          destStep (modDest s cl id (fun _ => d1)) cl d1
      | .fault c _ => destEnd s cl d 0 (unitCode c)
      | .gone => destEnd s cl d 0 0x0B
      | .status c => if c = 0 then landed s [] else destEnd s cl d 0 c

/-- A packet of a graph send at its destination. -/
def gsendArrival (s : State) (cl : Nat) (fin : Bool) (p : Packet) : State :=
  let code := gsendRefused s p
  if code ≠ 0 then destAnswer s cl fin p 0 code else destStart s cl fin p

/-- OBJECT. -/
def execObjectPacketArrival (cluster : Nat) (p : Packet) (s : State) : Out := .next (gsendArrival s cluster false p)

/-- FINISH: the fix-up, and DONE with the address of the root's copy. -/
def execGsendFinishArrival (cluster : Nat) (p : Packet) (s : State) : Out := .next (gsendArrival s cluster true p)

end Sys2Proof.Machine
end

