-- ==== Sys2Proof/Machine/Token.lean ====
section
/-! DEFINITION. Dependency tokens: STTK and STDEP, the token table of a gateway complex, its sequence spaces, and the
sluice of a holder (22 R392 to R401; 23 R415 to R419); what a peer entry admits (19 R350). -/

namespace Sys2Proof.Machine

/-! ## Peer entries (R350, R383) -/

inductive PeerUse where
  | read | write | atomic
  deriving DecidableEq, Repr, Inhabited

def Peer.permits (e : Peer) (n : PeerUse) : Bool :=
  match n with | .read => e.r | .write => e.w | .atomic => e.ra && e.w

def Peer.isFor (e : Peer) (smod sworld : Nat) : Bool := e.smod == smod && e.sworld == sworld

/-- The polder that admits a peer access to home memory, or the cause of the refusal; 0x16 where the polder is
gone. -/
def peerHome (s : State) (smod sworld : Nat) (n : PeerUse) (pa : Nat) : Except Nat Nat :=
  match ownerOf s pa with
  | none => .error 0x11
  | some w =>
    let po := s.polder w
    let g := pa / 33554432
    if w = 0 then .error 0x11
    else if po.state = .draining ∨ po.state = .free then .error 0x16
    else if po.peers.any (fun e => e.isFor smod sworld && e.permits n && decide (e.first ≤ g) && decide (g < e.first + e.count)) then .ok w
    else .error 0x11

/-- The polder that admits a peer access to a core's local store. -/
def peerCore (s : State) (smod sworld : Nat) (n : PeerUse) (core off size : Nat) : Except Nat Nat :=
  let admits (w : Nat) : Bool :=
    (s.polder w).peers.any (fun e => e.isFor smod sworld && e.ls && e.permits n)
      && (let (lo, hi) := shareOf (s.core core) w; (lsFail lo hi off size).isNone)
  match (s.core core).shares.find? (fun p => p.1 != 0 && admits p.1) with
  | none => .error 0x11
  | some (w, _) => if (s.polder w).state = .draining ∨ (s.polder w).state = .free then .error 0x16 else .ok w

/-! ## Tokens and spaces (R392 to R395) -/

def tokModule (t : Nat) : Nat := bits t 63 52
def tokDie (t : Nat) : Nat := bits t 51 48
def tokGen (t : Nat) : Nat := bits t 47 40
def tokWorld (t : Nat) : Nat := bits t 39 35
def tokSeq (t : Nat) : Nat := bits t 31 0

/-- The space of a token: everything but its sequence. -/
def tokSpaceOf (t : Nat) : Nat := t / 2 ^ 32

def mkToken (module die gen world seq : Nat) : Word :=
  BitVec.ofNat 64 (module * 2 ^ 52 + die * 2 ^ 48 + gen * 2 ^ 40 + world * 2 ^ 35 + seq)

/-- n ≤ m of R394. -/
def tokLe (n m : Nat) : Bool := decide ((m + 2 ^ 32 - n) % 2 ^ 32 < 2 ^ 31)

/-- The sequence after one: 0 is skipped. -/
def seqNext (n : Nat) : Nat := if n + 1 = 2 ^ 32 then 1 else n + 1
def seqPrev (n : Nat) : Nat := if n ≤ 1 then 2 ^ 32 - 1 else n - 1

def TokSpace.fresh : TokSpace := { alloc := 0, mark := 0, settled := [], windows := [], landed := PubSig.zero }

def spaceKey (world gen : Nat) : Nat := world * 256 + gen

def getSpace (s : State) (die world gen : Nat) : TokSpace :=
  (NMap.find (s.die die).spaces (spaceKey world gen)).getD TokSpace.fresh

def setSpace (s : State) (die world gen : Nat) (t : TokSpace) : State :=
  s.modDie die (fun d => { d with spaces := NMap.set d.spaces (spaceKey world gen) t })

/-- Move the watermark over every sequence that has landed or failed. -/
def TokSpace.advance (t : TokSpace) : Nat → TokSpace
  | 0 => t
  | fuel + 1 =>
    let n := seqNext t.mark
    if t.settled.contains n then advance { t with mark := n, settled := t.settled.filter (· != n) } fuel else t

/-- The smallest window that holds two. -/
def mergeWindows (a b : Nat × Nat) : Nat × Nat :=
  (if tokLe a.1 b.1 then a.1 else b.1, if tokLe a.2 b.2 then b.2 else a.2)

/-- Record a failure window; a 17th merges the two oldest (R394). -/
def TokSpace.fail (t : TokSpace) (seq : Nat) : TokSpace :=
  let l := t.windows ++ [(seq, t.alloc)]
  match l with
  | a :: b :: r => if 16 < l.length then { t with windows := mergeWindows a b :: r } else { t with windows := l }
  | _ => { t with windows := l }

def TokSpace.inWindow (t : TokSpace) (n : Nat) : Bool := t.windows.any (fun w => tokLe w.1 n && tokLe n w.2)

/-- The clean watermark (R397). -/
def TokSpace.clean (t : TokSpace) : Nat :=
  match t.windows with
  | [] => t.mark
  | w :: ws =>
    let lo := ws.foldl (fun a x => if tokLe x.1 a then x.1 else a) w.1
    let c := seqPrev lo
    if tokLe t.mark c then t.mark else c

/-! ## Messages between complexes (R401) -/

/-- Dword 6 of a type-0x09 packet. -/
def depOp (sub addr size swz : Nat) : Word := BitVec.ofNat 64 (sub * 2 ^ 60 + swz * 2 ^ 56 + size * 2 ^ 48 + addr % 2 ^ 48)

/-- A packet between two gateway complexes. -/
def complexPacket (s : State) (die cls world dst : Nat) (op : Word) (data : List Word) : State :=
  (sendPacket s die (mkPacket s 0x09 cls world (s.moduleNo * 4194304 + die * 262144) dst 0 0 op 0 (padFlits data))).getD s

/-- Tell a holder how a token stands: RELEASE, or retry (R397). -/
def sendRelease (s : State) (die : Nat) (token : Word) (holder : Nat) (failed retry : Bool) (clean : Nat) (sig : Sig) : State :=
  let hdie := holder % 16
  if holder / 16 = s.moduleNo then
    if crossesDown s die hdie then s else s.later Config.latFabric (.releaseArrival hdie token failed retry clean sig)
  else
    complexPacket s die 1 (tokWorld token.toNat) (holder / 16 * 4194304 + hdie * 262144) (depOp 3 0 0 0)
      ([token, BitVec.ofNat 64 ((if failed then 1 else 0) + (if retry then 2 else 0)), BitVec.ofNat 64 clean, 0, 0, 0, 0, 0]
        ++ toWords (toLe sig.toNat 64) 8)

/-- Ask the complex that a token names about it (R396). -/
def sendHold (s : State) (die : Nat) (token : Word) : State :=
  let t := token.toNat
  if tokModule t = s.moduleNo then
    if crossesDown s die (tokDie t) then s
    else s.later Config.latFabric (.holdArrival (tokDie t) token (s.moduleNo * 16 + die))
  else complexPacket s die 0 (tokWorld t) (tokModule t * 4194304 + tokDie t * 262144) (depOp 2 0 0 0) [token]

/-- Whether a token has resolved in its space, and how: FAILED at once where no live space has allocated it (R395). -/
def tokResolution (s : State) (die t : Nat) : Option Bool :=
  let sp := getSpace s die (tokWorld t) (tokGen t)
  let po := s.polder (tokWorld t)
  if po.state = .free ∨ po.state = .draining ∨ po.gen ≠ tokGen t ∨ tokSeq t = 0 ∨ !tokLe (tokSeq t) sp.alloc then some true
  else if tokLe (tokSeq t) sp.mark then some (sp.inWindow (tokSeq t))
  else none

/-- HOLD arrives at the complex that issued the token. -/
def execHoldArrival (die : Nat) (token : Word) (holder : Nat) (s : State) : Out :=
  let t := token.toNat
  let sp := getSpace s die (tokWorld t) (tokGen t)
  match tokResolution s die t with
  | some failed => .next (sendRelease s die token holder failed false sp.clean sp.landed.value)
  | none =>
    let mine (e : TokEntry) : Bool := e.world == tokWorld t && e.pgen == tokGen t && e.seq == tokSeq t
    match (s.die die).tokens.find? mine with
    | none => .next (sendRelease s die token holder false true sp.clean sp.landed.value)
    | some e =>
      if e.holders.contains holder then .next s
      else if e.holders.length < 8 then
        .next (s.modDie die (fun d => { d with tokens := d.tokens.map (fun x => if mine x then { x with holders := x.holders ++ [holder] } else x) }))
      else .next (sendRelease s die token holder false true sp.clean sp.landed.value)

/-- HOLD again, 4,096 cycles after a retry; nothing where no store waits any more. -/
def execHoldRetry (die : Nat) (token : Word) (s : State) : Out :=
  if (s.die die).sluice.any (fun e => e.store.token == token) then .next (sendHold s die token) else .next s

/-! ## Landing and failure (R394, R397) -/

/-- Entries that the watermark has passed leave the table, and their holders hear of it. -/
def resolveTokens (s : State) (die world gen : Nat) : State :=
  let sp := getSpace s die world gen
  let gone (e : TokEntry) : Bool := e.world == world && e.pgen == gen && tokLe e.seq sp.mark
  let out := (s.die die).tokens.filter gone
  let s1 := s.modDie die (fun d => { d with tokens := d.tokens.filter (fun e => !gone e) })
  out.foldl (fun t e => e.holders.foldl (fun u h =>
    sendRelease u die (mkToken s.moduleNo die gen world e.seq) h (sp.inWindow e.seq) false sp.clean sp.landed.value) t) s1

def tokEntry (s : State) (die world gen seq : Nat) : Option TokEntry :=
  (s.die die).tokens.find? (fun e => e.world == world && e.pgen == gen && e.seq == seq)

/-- A sequence has landed or failed. -/
def settleToken (s : State) (die world gen seq : Nat) (f : TokSpace → TokSpace) : State :=
  let sp := f (getSpace s die world gen)
  let sp1 := { sp with settled := sp.settled ++ [seq] }
  resolveTokens (setSpace s die world gen (sp1.advance sp1.settled.length)) die world gen

/-- Whether an STTK is still on its way. -/
def unlanded (s : State) (die world gen seq : Nat) : Bool :=
  (tokEntry s die world gen seq).isSome && !(getSpace s die world gen).settled.contains seq

/-- The done reply of an STTK reaches its complex. -/
def execSttkLanding (die world gen seq : Nat) (sig : Sig) (s : State) : Out :=
  match tokEntry s die world gen seq with
  | none => .next s
  | some e =>
    if unlanded s die world gen seq then
      let s1 := completeCtx s e.core e.ctx 0 0 0
      .next (settleToken s1 die world gen seq (fun sp => { sp with landed := sp.landed.add sig }))
    else .next s

/-- An STTK has failed: the window is recorded as the failure is reported to the issuer (R62, R394, R416). -/
def execSttkFailure (die world gen seq code : Nat) (s : State) : Out :=
  match tokEntry s die world gen seq with
  | none => .next s
  | some e =>
    if unlanded s die world gen seq then
      let s1 := completeCtx s e.core e.ctx 0 (BitVec.ofNat 64 code) 0
      .next (settleToken s1 die world gen seq (fun sp => sp.fail seq))
    else .next s

/-! ## STTK (R416) -/

/-- The instant at which the store of an STTK is performed at its home (R260, R270). -/
def sttkPerform (s : State) (die : Nat) (e : TokEntry) : Except (Nat × State) State :=
  match e.tgt with
  | .home pa =>
    match homeWrite s none pa e.data with
    | .error l => .error (0x12, integrityRecord s l)
    | .ok t =>
      let sig := bytesSig s.moduleNo pa e.data.length
      let t1 := (copiesTake t die pa e.data).modCtx e.core e.ctx (·.addAcc sig)
      let t2 := if e.rel then publishHome t1 pa e.world (e.sig ||| sig) else t1
      .ok (t2.modDie die (fun d => { d with tokens := d.tokens.map (fun x =>
        if x.world = e.world ∧ x.pgen = e.pgen ∧ x.seq = e.seq then { x with performed := true } else x) }))
  | _ => .ok s

/-- The sectors that an STTK store has written. -/
def sttkSig (s : State) (e : TokEntry) : Sig :=
  match e.tgt with
  | .home pa => bytesSig s.moduleNo pa e.data.length
  | .peer m pa => bytesSig m pa e.data.length
  | _ => 0

/-- A reply to the store of an STTK. -/
def sttkReply (s : State) (die world gen seq : Nat) (r : Reply) : State :=
  match tokEntry s die world gen seq with
  | none => s
  | some e =>
    let land (t : State) : State := t.next1 (.sttkLanding die world gen seq (sttkSig t e))
    let fail (t : State) (c : Nat) : State := t.next1 (.sttkFailure die world gen seq c)
    match r with
    | .home =>
      if e.performed then land s
      else match sttkPerform s die e with | .ok t => land t | .error (c, t) => fail t (unitCode c)
    | .data _ | .done => land (s.modCtx e.core e.ctx (·.addAcc (sttkSig s e)))
    | .status c => if c = 0 then land s else fail s c
    | .fault c _ => fail s (unitCode c)
    | .gone => fail s 0x0B

/-- STTK stores of a context that are on their way to homes of this module are performed before a later access of the
context is (program order at one location, R266). -/
def flushSttk (s : State) (c num : Nat) : State :=
  let die := dieOfCore c
  let mine := (s.die die).tokens.filter (fun e => e.core == c && e.ctx == num && !e.performed
    && (match e.tgt with | .home pa => !crossesDown s die (homeDie pa) | _ => false))
  mine.foldl (fun t e => match sttkPerform t die e with | .ok u => u | .error _ => t) s

/-- The STTK stores of one context are performed at homes of this module in their order. -/
def sttkOnWay (s : State) (c num : Nat) (e : Event) : Bool :=
  let mine : ReplyTo → Bool
    | .sttk die w g n => (match tokEntry s die w g n with | some x => x.core == c && x.ctx == num | none => false)
    | _ => false
  match e with
  | .remoteReply (.tag d i g) .home _ => (match liveTag s d i g with | some w => mine w | none => false)
  | .remoteReply w .home _ => mine w
  | _ => false

/-- Send the store of an STTK on its way. -/
def sttkDispatch (s : State) (c num : Nat) (world swz : Nat) (who : ReplyTo) (tgt : Target) (data : List Byte) (rel : Bool)
    (sig : Sig) : Option State :=
  let die := dieOfCore c
  let msg (w : ReplyTo) (off : Nat) : ActiveMsg :=
    { op := .store, world := world, off := off, size := data.length, data := data, cmp := 0, sig := sig, acq := false,
      sender := ctxEndpoint s c num, from_ := w }
  let packet (t : State) (idx gen dst addr : Nat) : State :=
    (sendPacket t die (mkPacket t 0x02 0 world (ctxEndpoint t c num) dst idx gen
      (accessOp addr (sizeCode data.length) 0 swz (if rel then 2 else 0) 5) 0
      (flitOf data ++ (if rel then toWords (toLe sig.toNat 64) 8 else [])))).getD t
  let tagged (m : Nat) (k : Nat → Nat → State → State) : Option State :=
    match drawTag s die who m with
    | some (idx, gen, s1) => some (k idx gen s1)
    | none => none
  match tgt with
  | .home pa =>
    if homeDie pa = die then some (s.laterAfter Config.latReply (sttkOnWay s c num) (.remoteReply who .home 0))
    else
      tagged s.moduleNo (fun idx gen s1 =>
        if crossesDown s die (homeDie pa) then s1
        else s1.laterAfter Config.latReply (sttkOnWay s1 c num) (.remoteReply (.tag die idx gen) .home 0))
  | .peer m pa => tagged m (fun idx gen s1 =>
      packet (peerStoreSent s1 die idx m pa data.length) idx gen (m * 4194304 + homeDie pa * 262144) pa)
  | .aper m core off =>
    if m = s.moduleNo then
      if dieOfCore core = die then some (sendActive s core (msg who off))
      else
        tagged m (fun idx gen s1 =>
          if crossesDown s die (dieOfCore core) then s1 else sendActive s1 core (msg (.tag die idx gen) off))
    else tagged m (fun idx gen s1 => packet s1 idx gen (m * 4194304 + core * 8 + 6) (off % 65536))
  | .own _ => none

/-- The window of an aperture target (R376). -/
def swzOf (t : Target) : Nat := match t with | .aper _ _ off => off / 65536 | _ => 0

/-- The other module that a target needs a path to. -/
def awayModule (s : State) (t : Target) : Option (Nat × Nat) :=
  match t with
  | .peer m pa => some (m, m * 4194304 + homeDie pa * 262144)
  | .aper m core _ => if m = s.moduleNo then none else some (m, m * 4194304 + core * 8 + 6)
  | _ => none

/-- An untracked request of a context: FENCE .eng counts it (R106). -/
def Slot.startUntracked (rel : Bool) (sl : Slot) : Slot :=
  { sl with outstanding := sl.outstanding + 1, fenceRel := sl.fenceRel && !rel }

/-- The access waits and tries again in the next cycle: the token table is full, or no tag is free. -/
def sttkWait (s : State) (c num : Nat) : State := s.next1 (.remoteReply (.ctx c num) .done 0)

/-- An STTK whose address has been translated: it allocates its sequence, returns its token and sends its store. -/
def sttkSend (s : State) (c num : Nat) (sl : Slot) (r : MemReq) (tgt : Target) : State :=
  let die := dieOfCore c
  let gen := (s.polder sl.world).gen
  let sp := getSpace s die sl.world gen
  let busy := ((s.die die).tokens.filter (fun e => !(getSpace s die e.world e.pgen).settled.contains e.seq)).length
  match awayModule s tgt with
  | some (m, dst) => if hasPath s die m then go die gen sp busy else faultCtx s c num 0x17 (BitVec.ofNat 64 dst)
  | none => go die gen sp busy
where
  go (die gen : Nat) (sp : TokSpace) (busy : Nat) : State :=
    if 4096 ≤ busy then sttkWait s c num
    else
      let seq := seqNext sp.alloc
      let rel := r.rel || sl.fenceRel
      let sig : Sig := if rel then sl.acc else 0
      let who : ReplyTo := .sttk die sl.world gen seq
      match sttkDispatch s c num sl.world (swzOf tgt) who tgt r.data rel sig with
      | none => sttkWait s c num
      | some s1 =>
        let e : TokEntry := { world := sl.world, pgen := gen, seq := seq, core := c, ctx := num, tgt := tgt, data := r.data,
                              rel := rel, sig := sig, performed := false, holders := [] }
        let s2 := setSpace (s1.modDie die (fun d => { d with tokens := d.tokens ++ [e] })) die sl.world gen { sp with alloc := seq }
        finishCtx s2 c num (fun x =>
          (x.startUntracked r.rel).putX (regOf r.rd) (mkToken s.moduleNo die gen sl.world seq))

/-- The access of an STTK or STDEP at issue: a misaligned address first, then one below 0x2_0000, then translation. -/
def tokenStore (s : State) (m : MrrF) (rd phase : Nat) (t : Word) : Out :=
  let ea := addr57 (s.rx m.s1)
  let size := 2 ^ m.size.toNat
  if ea % size ≠ 0 then trapOut s 5 0x04 (BitVec.ofNat 64 ea)
  else if ea < translatedBase then trapOut s 7 0x11 (BitVec.ofNat 64 ea)
  else
    beginAccess s { MemReq.new .sttk 0 rd ((List.range size).map (ea + ·)) with
      data := toLe (s.rx m.d).toNat size, rel := m.order.getLsbD 1, scope := m.scope.toNat, phase := phase, extra := t }

def execSttk (m : MrrF) (s : State) : Out := guardX s m.s2 (tokenStore s m m.s2.toNat 0 0)

/-! ## STDEP (R396, R418) -/

def execStdep (m : MrrF) (s : State) : Out := tokenStore s m 0 1 (s.rx m.s2)

/-- The dependent stores of one context reach a holder in the order sent (R378). -/
def depOnWay (s : State) (die : Nat) (who : ReplyTo) (e : Event) : Bool :=
  match e with
  | .depstoreArrival d x => d == die && senderOf s x.from_ == senderOf s who
  | _ => false

/-- The DEPSTORE packet of a store to another module (R401). -/
def depPacket (s : State) (c num : Nat) (d : DepStore) (dst idx gen swz : Nat) : Packet :=
  let addr := match d.target with | some (_, off) => off % 65536 | none => d.pa
  mkPacket s 0x09 0 d.world (ctxEndpoint s c num) dst idx gen (depOp 1 addr (sizeCode d.size) swz) 0
    ([d.token, BitVec.ofNat 64 (d.expiry - (s.cycle - d.issued)), leWord (d.data.take 8), leWord (d.data.drop 8), 0, 0, 0, 0]
      ++ toWords (toLe d.sig.toNat 64) 8)

/-- Send a dependent store to its holder, the complex of its home die; none where no tag is free. -/
def depSend (s : State) (c num : Nat) (d : DepStore) (tgt : Target) : Option State :=
  let die := dieOfCore c
  let local_ (hdie : Nat) : Option State :=
    if hdie = die then some (s.laterAfter Config.latFabric (depOnWay s hdie d.from_) (.depstoreArrival hdie d))
    else
      match drawTag s die d.from_ s.moduleNo with
      | none => none
      | some (idx, gen, s1) =>
        if crossesDown s die hdie then some s1
        else some (s1.laterAfter Config.latFabric (depOnWay s1 hdie d.from_) (.depstoreArrival hdie { d with from_ := .tag die idx gen }))
  let keep (t : State) (idx gen : Nat) : State :=
    t.modDie die (fun x => { x with sentDeps := NMap.set x.sentDeps idx { d with from_ := .tag die idx gen } })
  let away (m dst : Nat) (sent : Nat → State → State) : Option State :=
    match drawTag s die d.from_ m with
    | none => none
    | some (idx, gen, s1) => some (keep ((sendPacket (sent idx s1) die (depPacket s1 c num d dst idx gen (swzOf tgt))).getD s1) idx gen)
  match tgt with
  | .home pa => local_ (homeDie pa)
  | .peer m pa => away m (m * 4194304 + homeDie pa * 262144) (fun idx t => peerStoreSent t die idx m pa d.data.length)
  | .aper m core _ => if m = s.moduleNo then local_ (dieOfCore core) else away m (m * 4194304 + core * 8 + 6) (fun _ t => t)
  | .own _ => none

/-- A STDEP whose address has been translated: its token is checked, and it goes to its holder. -/
def stdepSend (s : State) (c num : Nat) (sl : Slot) (r : MemReq) (tgt : Target) : State :=
  let t := r.extra.toNat
  if bits t 34 32 ≠ 0 ∨ (t ≠ 0 ∧ tokWorld t ≠ sl.world) then faultCtx s c num 0x11 r.extra
  else
    let po := s.polder sl.world
    let d : DepStore :=
      { token := r.extra, expiry := po.tkExpiry.toNat, size := r.data.length, data := r.data,
        pa := match tgt with | .home pa => pa | .peer _ pa => pa | _ => 0
        target := match tgt with | .aper _ core off => some (core, off) | _ => none
        module := s.moduleNo, world := sl.world, pgen := po.gen, from_ := .dep c num r.extra, sig := sl.acc, issued := s.cycle }
    match awayModule s tgt with
    | some (m, dst) =>
      if hasPath s (dieOfCore c) m then go d else faultCtx s c num 0x17 (BitVec.ofNat 64 dst)
    | none => go d
where
  go (d : DepStore) : State :=
    match depSend s c num d tgt with
    | none => sttkWait s c num
    | some s1 => finishCtx s1 c num (·.startUntracked r.rel)

/-- The access of an STTK or STDEP goes on once its target is known. -/
def tokenStoreGo (s : State) (c num : Nat) (r : MemReq) : State :=
  match ctxOf s c num, r.segs with
  | some sl, tgt :: _ => if r.phase = 0 then sttkSend s c num sl r tgt else stdepSend s c num sl r tgt
  | _, _ => s

/-- The status of a dependent store reaches its issuer (R398, R419). -/
def depReply (s : State) (core num : Nat) (token : Word) (r : Reply) : State :=
  let code := match r with
    | .status c => c
    | .fault c _ => unitCode c
    | .gone => 0x0B
    | .data _ | .done | .home => 0
  let s1 := completeCtx s core num 0 (BitVec.ofNat 64 code) 0
  if code = 0x60 ∨ code = 0x61 then s1.modCtx core num (fun sl => { sl with undelivered := some token }) else s1

/-! ## The holder (R396 to R399) -/

/-- The cached clean watermark of a complex, world and generation, last used first. -/
def depMark (s : State) (die t : Nat) : Option Nat := ((s.die die).marks.find? (·.1 == tokSpaceOf t)).map (·.2)

def setMark (s : State) (die key n : Nat) : State :=
  s.modDie die (fun d => { d with marks := ((key, n) :: d.marks.filter (·.1 != key)).take 256 })

/-- A token at or below a clean watermark covers no failed sequence. -/
def depClean (s : State) (die t : Nat) : Bool :=
  match depMark s die t with | some n => tokLe (tokSeq t) n | none => false

/-- The polder in whose home the store lands, or the cause of its refusal. -/
def depAdmits (s : State) (d : DepStore) : Except Nat Nat :=
  if d.module = s.moduleNo then
    if d.target.isNone ∧ ownerOf s d.pa ≠ some d.world then .error 0x11 else .ok d.world
  else
    match d.target with
    | none => peerHome s d.module d.world .write d.pa
    | some (core, off) => peerCore s d.module d.world .write core off d.size

/-- A dependent store of this module is performed at its home: its issuer's accumulator and the copies of its issuer's die
take it (R261, R268). -/
def depPerformed (s : State) (d : DepStore) : State :=
  match senderOf s d.from_ with
  | some (c, num) => (copiesTake s (dieOfCore c) d.pa d.data).modCtx c num (·.addAcc (bytesSig s.moduleNo d.pa d.data.length))
  | none => s

/-- The sender of a dependent store among the senders of active messages (R161). -/
def depSender (s : State) (d : DepStore) : Nat :=
  match senderOf s d.from_, d.from_ with
  | some (c, num), _ => ctxEndpoint s c num
  | none, .remote m die idx _ _ => 2 ^ 42 + (m * 16 + die) * 16384 + idx
  | none, _ => 2 ^ 42

/-- Perform a dependent store: a store-release at scope .fab (R399). -/
def depPerform (s : State) (die : Nat) (d : DepStore) (landed : Sig) : State :=
  match depAdmits s d with
  | .error c => answer s Config.latFabric d.from_ (if c = 0x16 then .gone else .fault c 0) 0
  | .ok w =>
    match d.target with
    | none =>
      match homeWrite s none d.pa d.data with
      | .error l => answer (integrityRecord s l) Config.latFabric d.from_ (.fault 0x12 0) 0
      | .ok t =>
        let t1 := depPerformed (copiesTake t die d.pa d.data) d
        let t2 := publishHome t1 d.pa w (d.sig ||| landed ||| bytesSig s.moduleNo d.pa d.data.length)
        answer t2 Config.latFabric d.from_ .done 0
    | some (core, off) =>
      sendActive s core { op := .store, world := w, off := off, size := d.size, data := d.data, cmp := 0,
                          sig := d.sig ||| landed, acq := false,
                          sender := depSender s d, from_ := d.from_ }

/-- A store leaves the sluice. -/
def dropSluiced (s : State) (die : Nat) (e : Sluiced) : State :=
  unholdRequest (s.modDie die (fun d => { d with sluice := d.sluice.filter (·.n != e.n) })) die e.store.from_

/-- A full sluice: the issuing complex is told (R396). -/
def sluiceFull (s : State) (d : DepStore) : State :=
  match d.from_ with
  | .remote m die idx gen _ =>
    (sendPacket s (homeDie d.pa) (mkPacket s 0x09 1 d.world (s.moduleNo * 4194304 + homeDie d.pa * 262144)
      (m * 4194304 + die * 262144) idx gen (depOp 4 0 0 0) 0 (padFlits [d.token]))).getD s
  | .dep core _ _ => s.later Config.latFabric (.sluiceFullReply (dieOfCore core) d)
  | .tag die _ _ => s.later Config.latFabric (.sluiceFullReply die d)
  | _ => s

/-- DEPSTORE arrives at its holder (R396, R398). -/
def execDepstoreArrival (die : Nat) (y : DepStore) (s : State) : Out :=
  let t := y.token.toNat
  match depAdmits s y with
  | .error c => .next (answer s Config.latFabric y.from_ (if c = 0x16 then .gone else .fault c 0) 0)
  | .ok _ =>
    if polderGone s y.world ∧ y.module = s.moduleNo then .next (answer s Config.latFabric y.from_ .gone 0)
    else if t = 0 then .next (depPerform s die y 0)
    else if depClean s die t then
      let s1 := setMark s die (tokSpaceOf t) ((depMark s die t).getD 0)
      .next (depPerform s1 die y 0)
    else if 512 ≤ (s.die die).sluice.length then .next (sluiceFull s y)
    else
      let spent := if y.module = s.moduleNo then s.cycle - y.issued else 0
      let expiry := s.cycle + (y.expiry - spent)
      let n := (s.die die).sluiceNext
      let s1 := s.modDie die (fun d => { d with
        sluice := d.sluice ++ [{ n := n, store := y, expiry := expiry }], sluiceNext := n + 1 })
      .next (sendHold ((holdRequest s1 die y.from_).at_ expiry (.sluiceExpiry die n)) die y.token)

/-- A "full" answer: the store is sent again after 1,024 cycles. -/
def execSluiceFullReply (die : Nat) (y : DepStore) (s : State) : Out := .next (s.at_ (s.cycle + 1024) (.depstoreResend die y))

/-- The holder's die of a store. -/
def holderDie (y : DepStore) : Nat := match y.target with | some (core, _) => dieOfCore core | none => homeDie y.pa

/-- The other module to which a live request of a complex has gone. -/
def tagAway (s : State) (die idx gen : Nat) : Option (ReplyTo × Nat) :=
  let t := getTag s die idx
  match t.use with
  | .live who m _ => if t.gen = gen ∧ m ≠ s.moduleNo then some (who, m) else none
  | _ => none

/-- The store is sent again; its time goes on (R396). -/
def execDepstoreResend (die : Nat) (y : DepStore) (s : State) : Out :=
  let hdie := holderDie y
  let here (_ : Unit) : State :=
    if crossesDown s die hdie then s else s.laterAfter Config.latFabric (depOnWay s hdie y.from_) (.depstoreArrival hdie y)
  match y.from_ with
  | .tag d idx gen =>
    match tagAway s d idx gen with
    | some (.dep c num _, m) =>
      let (dst, swz) := match y.target with
        | some (core, off) => (m * 4194304 + core * 8 + 6, off / 65536)
        | none => (m * 4194304 + hdie * 262144, 0)
      .next ((sendPacket s die (depPacket s c num y dst idx gen swz)).getD s)
    | _ => .next (here ())
  | _ => .next (here ())

/-- RELEASE reaches a holder (R397 to R399). -/
def execReleaseArrival (die : Nat) (token : Word) (failed retry : Bool) (clean : Nat) (sig : Sig) (s : State) : Out :=
  let t := token.toNat
  let key := tokSpaceOf t
  if retry then .next (s.at_ (s.cycle + 4096) (.holdRetry die token))
  else
    let raised := match depMark s die t with | some n => if tokLe n clean then clean else n | none => clean
    let s1 := setMark s die key raised
    let here := (s.die die).sluice.filter (fun e => tokSpaceOf e.store.token.toNat == key)
    .next (here.foldl (fun u e =>
      if e.store.token = token then
        if failed then answer (dropSluiced u die e) Config.latFabric e.store.from_ (.status 0x60) 0
        else depPerform (dropSluiced u die e) die e.store sig
      else if tokLe (tokSeq e.store.token.toNat) clean then depPerform (dropSluiced u die e) die e.store sig
      else u) s1)

/-- A held store's time runs out: it is dropped, unless a RELEASE comes in the same cycle (R398). -/
def execSluiceExpiry (die n : Nat) (s : State) : Out :=
  match (s.die die).sluice.find? (·.n == n) with
  | none => .next s
  | some e =>
    let released := s.agenda.any (fun p => decide (p.1 ≤ s.cycle) && (match p.2 with | .releaseArrival d _ _ _ _ _ => d == die | _ => false))
    if released then .next (s.at_ s.cycle (.sluiceExpiry die n))
    else if s.cycle < e.expiry then .next s
    else
      let s1 := answer (dropSluiced s die e) Config.latFabric e.store.from_ (.status 0x61) 0
      .next (hatPost s1 die 0x04 0x61 (dieEndpoint s die) e.store.token (BitVec.ofNat 64 e.store.pa))

end Sys2Proof.Machine
end

