-- ==== Sys2Proof/Machine/Vector.lean ====
section
/-! DEFINITION. V-ops (07 R169 to R193; arithmetic of 05). -/

namespace Sys2Proof.Machine

/-! ## Common rules -/

/-- The format of a floating-point element type (R72). -/
def fmtOf (t : Nat) : Fmt :=
  if t = 8 then Fmt.f64 else if t = 9 then Fmt.f32 else if t = 10 then Fmt.bf16
  else if t = 11 then Fmt.f16 else if t = 12 then Fmt.e4m3 else Fmt.e5m2

/-- A signed integer type (R72). -/
def isSigned (t : Nat) : Bool := t < 4

/-- A lane of an integer type as its number. -/
def laneInt (t a : Nat) : Int := if isSigned t then signedOf (typeWidth t) a else (a : Int)

/-- The rounding that a mode field selects (R73). -/
def roundingOf (s : State) (mode : BitVec 2) : RMode :=
  if mode = 0 then s.rmode else if mode = 1 then 0 else 1

/-- Patterns and flags of the lanes, as a vector and the OR of the flags (R171). -/
def packLanes (w : Nat) (rs : List (Nat × BitVec 5)) : Vec × BitVec 5 :=
  (vecOf w (rs.map (·.1)), rs.foldl (fun a r => a ||| r.2) 0)

def zip3 (as bs cs : List Nat) : List (Nat × Nat × Nat) := as.zip (bs.zip cs)

/-- Results of fixed latency. -/
def vOut (s : State) (vs : List (Nat × Vec)) (fl : BitVec 5) : Out := .next (s.modMe (vResult vs none fl))

/-- A V-op with a lane function of a, b and c (R174). -/
def laneOp (s : State) (v : VF) (f : Nat → Nat → Nat → Nat × BitVec 5) : Out :=
  let w := typeWidth v.ty.toNat
  let r := packLanes w ((zip3 (lanes (s.rv v.va) w) (lanes (s.rv v.vb) w) (lanes (s.rv v.vc) w)).map
    (fun t => f t.1 t.2.1 t.2.2))
  vOut s [(v.vd.toNat, r.1)] r.2

/-- Results written `lat` cycles after issue (R74, R173): they are held until then, and a slot that
would go on is in WAIT_LONG. It is eligible from the cycle after the write (R52, R53). -/
def vLong (s : State) (lat : Nat) (vs : List (Nat × Vec)) (fl : BitVec 5) : Out :=
  let k := s.cur
  let due := s.cycle + lat + 1
  let hold (sl : Slot) : Slot := { sl with
    longUntil := Nat.max sl.longUntil due,
    held := { sl.held with vregs := sl.held.vregs ++ vs, flags := sl.held.flags ||| fl } }
  let s1 := s.modMe hold
  let s2 := match s.me.state with
    | .ready => park s1 k .waitLong (.long none)
    | .halted => park s1 k .waitLong .longHalt
    | _ => s1
  .next (s2.at_ due (.longLatencyResult k))

def laneOpLong (s : State) (v : VF) (lat : Nat) (f : Nat → Nat × BitVec 5) : Out :=
  let w := typeWidth v.ty.toNat
  let r := packLanes w ((lanes (s.rv v.va) w).map f)
  vLong s lat [(v.vd.toNat, r.1)] r.2

/-! ## Lane arithmetic (R175 to R179) -/

/-- An exact integer as a lane: wrapped, or clamped to the type's range (R176). -/
def intLane (t : Nat) (sat : Bool) (e : Int) : Nat × BitVec 5 :=
  let w := typeWidth t
  let lo : Int := if isSigned t then -(2 ^ (w - 1) : Int) else 0
  let hi : Int := if isSigned t then 2 ^ (w - 1) - 1 else 2 ^ w - 1
  (wrapTo w (if sat then (if e < lo then lo else if hi < e then hi else e) else e), 0)

/-- VADD, VSUB and VMUL on a lane. -/
def arith (s : State) (v : VF) (i : Int → Int → Int) (f : RMode → FVal → FVal → FVal × BitVec 5) : Out :=
  let t := v.ty.toNat
  if isI t then laneOp s v (fun a b _ => intLane t (v.mode == 1) (i (laneInt t a) (laneInt t b)))
  else
    let rm := roundingOf s v.mode
    let fm := fmtOf t
    laneOp s v (fun a b _ => finishF fm rm (f rm (decodeF fm a) (decodeF fm b)))

def execVnop (s : State) : Out := .next s
def execVadd (v : VF) (s : State) : Out := arith s v (fun a b => a + b) (fun rm a b => addF rm a b)
def execVsub (v : VF) (s : State) : Out := arith s v (fun a b => a - b) (fun rm a b => addF rm a b.flip)

/-- VMUL: .hi gives the high half of the product (R176). -/
def execVmul (v : VF) (s : State) : Out :=
  let t := v.ty.toNat
  if isI t && v.mode == 2 then
    laneOp s v (fun a b _ => (wrapTo (typeWidth t) (laneInt t a * laneInt t b / 2 ^ typeWidth t), 0))
  else arith s v (fun a b => a * b) (fun _ a b => mulF a b)

def fused (s : State) (v : VF) (neg : Bool) : Out :=
  let rm := roundingOf s v.mode
  let fm := fmtOf v.ty.toNat
  laneOp s v (fun a b c =>
    let cv := decodeF fm c
    finishF fm rm (fmaF rm (decodeF fm a) (decodeF fm b) (if neg then cv.flip else cv)))

def execVfma (v : VF) (s : State) : Out := fused s v false
def execVfms (v : VF) (s : State) : Out := fused s v true

def minMax (s : State) (v : VF) (isMax : Bool) : Out :=
  let t := v.ty.toNat
  laneOp s v (fun a b _ =>
    if isI t then
      (if decide (laneInt t a < laneInt t b) == isMax then b else a, 0)
    else minMaxF (fmtOf t) isMax a b)

def execVmin (v : VF) (s : State) : Out := minMax s v false
def execVmax (v : VF) (s : State) : Out := minMax s v true

/-- A changed sign bit; a NaN gives the canonical NaN (R179). -/
def signOp (f : Fmt) (p : Nat) (p' : Nat) : Nat × BitVec 5 :=
  match decodeF f p with
  | .nan sg => (f.nanPat, flagIf sg flNV)
  | _ => (p', 0)

def execVabs (v : VF) (s : State) : Out :=
  let t := v.ty.toNat
  laneOp s v (fun a _ _ =>
    if isI t then intLane t (v.mode == 1) (laneInt t a).natAbs
    else signOp (fmtOf t) a (a % (fmtOf t).signBit))

def execVneg (v : VF) (s : State) : Out :=
  let t := v.ty.toNat
  laneOp s v (fun a _ _ =>
    if isI t then intLane t (v.mode == 1) (-(laneInt t a))
    else signOp (fmtOf t) a (a ^^^ (fmtOf t).signBit))

/-! ## Logic, shifts, compares and select (R180 to R182) -/

def execVand (v : VF) (s : State) : Out := vOut s [(v.vd.toNat, s.rv v.va &&& s.rv v.vb)] 0
def execVor (v : VF) (s : State) : Out := vOut s [(v.vd.toNat, s.rv v.va ||| s.rv v.vb)] 0
def execVxor (v : VF) (s : State) : Out := vOut s [(v.vd.toNat, s.rv v.va ^^^ s.rv v.vb)] 0
def execVnot (v : VF) (s : State) : Out := vOut s [(v.vd.toNat, ~~~(s.rv v.va))] 0
def execVsel (v : VF) (s : State) : Out :=
  vOut s [(v.vd.toNat, (s.rv v.va &&& s.rv v.vc) ||| (s.rv v.vb &&& ~~~(s.rv v.vc)))] 0

def execVsll (v : VF) (s : State) : Out :=
  let w := typeWidth v.ty.toNat
  laneOp s v (fun a b _ => (a * 2 ^ (b % w) % 2 ^ w, 0))
def execVsrl (v : VF) (s : State) : Out :=
  let w := typeWidth v.ty.toNat
  laneOp s v (fun a b _ => (a / 2 ^ (b % w), 0))
def execVsra (v : VF) (s : State) : Out :=
  let w := typeWidth v.ty.toNat
  laneOp s v (fun a b _ => (wrapTo w (signedOf w a / 2 ^ (b % w)), 0))

/-- A lane of all ones or zero. -/
def mask (w : Nat) (c : Bool) : Nat := if c then 2 ^ w - 1 else 0

/-- A compare (R182): `i` on integers, `f` on the order of two numbers; NaN compares false. -/
def compare (s : State) (v : VF) (i : Int → Int → Bool) (f : Int → Bool) (quiet : Bool) : Out :=
  let t := v.ty.toNat
  let w := typeWidth t
  laneOp s v (fun a b _ =>
    if isI t then (mask w (i (laneInt t a) (laneInt t b)), 0)
    else
      let x := decodeF (fmtOf t) a
      let y := decodeF (fmtOf t) b
      if x.isNan || y.isNan then (0, flagIf (!quiet || x.isSnan || y.isSnan) flNV)
      else (mask w (f (cmpF x y)), 0))

def execVcmpeq (v : VF) (s : State) : Out := compare s v (fun a b => a == b) (fun c => c == 0) true
def execVcmplt (v : VF) (s : State) : Out :=
  compare s v (fun a b => decide (a < b)) (fun c => decide (c < 0)) (v.mode == 1)
def execVcmple (v : VF) (s : State) : Out :=
  compare s v (fun a b => decide (a ≤ b)) (fun c => decide (c ≤ 0)) (v.mode == 1)

/-! ## Conversion (R183, R133 to R135) -/

/-- One lane converted from type `st` to type `dt`. -/
def convLane (rm : RMode) (st dt a : Nat) : Nat × BitVec 5 :=
  if isI st then
    if isI dt then intLane dt true (laneInt st a)
    else roundVal (fmtOf dt) rm (ofInt (laneInt st a) 0 false)
  else
    let x := decodeF (fmtOf st) a
    if isI dt then floatToInt rm (isSigned dt) (typeWidth dt) x
    else
      match x with
      | .nan sg => ((fmtOf dt).nanPat, flagIf sg flNV)
      | _ => if st = dt then (a, 0) else roundVal (fmtOf dt) rm x

/-- VCVT: a widening fills the destination from part p; a narrowing fills part p of it. -/
def execVcvt (v : VF) (s : State) : Out :=
  let dt := v.ty.toNat
  let st := v.vb.toNat
  let ws := typeWidth st
  let wd := typeWidth dt
  let p := v.vc.toNat
  let n := 128 / Nat.max ws wd
  let rm := roundingOf s v.mode
  let src := lanes (s.rv v.va) ws
  let part := if ws < wd then (src.drop (p * n)).take n else src.take n
  let rs := part.map (convLane rm st dt)
  let old := lanes (s.rv v.vd) wd
  let all := if ws < wd then rs.map (·.1)
    else old.take (p * n) ++ rs.map (·.1) ++ old.drop (p * n + n)
  vOut s [(v.vd.toNat, vecOf wd all)] (rs.foldl (fun a r => a ||| r.2) 0)

/-! ## Lane moves (R184, R185) -/

def execVshuf (v : VF) (s : State) : Out :=
  let w := typeWidth v.ty.toNat
  let table := lanes (s.rv v.va) w ++ lanes (s.rv v.vb) w
  vOut s [(v.vd.toNat, vecOf w ((lanes (s.rv v.vc) w).map (fun j => table.getD j 0)))] 0

def execVbcast (v : VF) (s : State) : Out :=
  let w := typeWidth v.ty.toNat
  vOut s [(v.vd.toNat, vecOf w (List.replicate (128 / w) ((s.rx v.va).toNat % 2 ^ w)))] 0

def execVins (v : VF) (s : State) : Out :=
  let w := typeWidth v.ty.toNat
  vOut s [(v.vd.toNat, vecOf w (setAt (lanes (s.rv v.vd) w) v.vb.toNat ((s.rx v.va).toNat % 2 ^ w)))] 0

def execVext (v : VF) (s : State) : Out :=
  guardX s v.vd <|
    let t := v.ty.toNat
    let w := typeWidth t
    let a := lane (s.rv v.va) v.vb.toNat w
    let r := if isSigned t then BitVec.ofInt 64 (signedOf w a) else BitVec.ofNat 64 a
    .next (s.modMe (vResult [] (some (v.vd.toNat, r)) 0))

/-! ## Dot products and reductions (R186 to R188, R145, R146) -/

/-- The accumulation format of a floating-point type. -/
def accFmt (t : Nat) : Fmt := if t = 8 then Fmt.f64 else Fmt.f32

/-- One node: the sum of two terms, rounded into the accumulation format. -/
def treeNode (f : Fmt) (rm : RMode) (a b : FVal × BitVec 5) : FVal × BitVec 5 :=
  let (p, fl) := finishF f rm (addF rm a.1 b.1)
  (decodeF f p, a.2 ||| b.2 ||| fl)

/-- One level of the tree: neighbours added pairwise. -/
def treeLevel (f : Fmt) (rm : RMode) : List (FVal × BitVec 5) → List (FVal × BitVec 5)
  | a :: b :: r => treeNode f rm a b :: treeLevel f rm r
  | l => l

/-- The tree over `2^depth` terms. -/
def treeSum (f : Fmt) (rm : RMode) : Nat → List (FVal × BitVec 5) → FVal × BitVec 5
  | 0, l => (l.head?).getD (.fin false 0 0, 0)
  | n + 1, l => treeSum f rm n (treeLevel f rm l)

/-- The accumulator added at the root, written into the low bits (R186). -/
def reduceF (s : State) (v : VF) (terms : List (FVal × BitVec 5)) : Out :=
  let f := accFmt v.ty.toNat
  let rm := roundingOf s v.mode
  let root := treeSum f rm 4 terms
  let acc := decodeF f ((s.rv v.vc).toNat % 2 ^ f.width)
  let (p, fl) := finishF f rm (addF rm acc root.1)
  vOut s [(v.vd.toNat, BitVec.ofNat 128 p)] (root.2 ||| fl)

/-- An exact integer sum and the accumulator, wrapped (R187). -/
def reduceI (s : State) (v : VF) (sum : Int) : Out :=
  let w := if typeWidth v.ty.toNat = 64 then 64 else 32
  let acc : Int := ((s.rv v.vc).toNat % 2 ^ w : Nat)
  vOut s [(v.vd.toNat, BitVec.ofNat 128 (wrapTo w (sum + acc)))] 0

def execVdot (v : VF) (s : State) : Out :=
  let t := v.ty.toNat
  let w := typeWidth t
  let ps := (lanes (s.rv v.va) w).zip (lanes (s.rv v.vb) w)
  if isI t then reduceI s v ((ps.map (fun p => laneInt t p.1 * laneInt t p.2)).foldl (· + ·) 0)
  else reduceF s v (ps.map (fun p => mulF (decodeF (fmtOf t) p.1) (decodeF (fmtOf t) p.2)))

def execVsumr (v : VF) (s : State) : Out :=
  let t := v.ty.toNat
  let ls := lanes (s.rv v.va) (typeWidth t)
  if isI t then reduceI s v ((ls.map (laneInt t)).foldl (· + ·) 0)
  else reduceF s v (ls.map (fun a => (decodeF (fmtOf t) a, 0)))

/-- The maximum of patterns in the order of VMAX, with its flags. -/
def maxFold (f : Fmt) : List Nat → Nat × BitVec 5
  | [] => (0, 0)
  | a :: as => as.foldl (fun m b => let r := minMaxF f true m.1 b; (r.1, m.2 ||| r.2)) (a, 0)

def execVmaxr (v : VF) (s : State) : Out :=
  let t := v.ty.toNat
  let w := typeWidth t
  let ls := lanes (s.rv v.va) w
  if isI t then
    let ns := if v.mode = 1 then ls.map (fun a => ((laneInt t a).natAbs : Int)) else ls.map (laneInt t)
    let m := ns.foldl (fun a b => if a < b then b else a) (ns.headD 0)
    vOut s [(v.vd.toNat, BitVec.ofNat 128 (wrapTo w m))] 0
  else
    let f := fmtOf t
    let r := maxFold f (if v.mode = 1 then ls.map (· % f.signBit) else ls)
    vOut s [(v.vd.toNat, BitVec.ofNat 128 r.1)] r.2

/-! ## Estimates, refinement and special functions (R189 to R191) -/

def execVrcp (v : VF) (s : State) : Out := laneOp s v (fun a _ _ => rcpF (fmtOf v.ty.toNat) a)
def execVrsq (v : VF) (s : State) : Out := laneOp s v (fun a _ _ => rsqF (fmtOf v.ty.toNat) a)

def newton (s : State) (v : VF) (c : Nat) (halve : Bool) : Out :=
  let f := fmtOf v.ty.toNat
  let rm := roundingOf s v.mode
  laneOp s v (fun a b _ => stepF f rm c halve (decodeF f a) (decodeF f b))

def execVrcps (v : VF) (s : State) : Out := newton s v 2 false
def execVrsqs (v : VF) (s : State) : Out := newton s v 3 true

def execVexp2 (v : VF) (s : State) : Out :=
  laneOpLong s v 24 (exp2F (fmtOf v.ty.toNat) (roundingOf s v.mode))
def execVlog2 (v : VF) (s : State) : Out :=
  laneOpLong s v 24 (log2F (fmtOf v.ty.toNat) (roundingOf s v.mode))

/-! ## Modular arithmetic (R192, R193, R142) -/

/-- Run unless sr.modq is 0, which traps (R172). -/
def withModulus (s : State) (f : Nat → Out) : Out :=
  if s.rmodq = 0 then trapOut s 6 0x0D 0 else f s.rmodq

def modLanes (v : Vec) (q : Nat) : List Nat := (lanes v 64).map (· % q)

/-- A modular lane function of two operands. -/
def modOp (s : State) (v : VF) (f : Nat → Nat → Nat → Nat) (k : List (Nat × Vec) → Out) : Out :=
  withModulus s fun q =>
    k [(v.vd.toNat, vecOf 64 (((modLanes (s.rv v.va) q).zip (modLanes (s.rv v.vb) q)).map
      (fun p => f q p.1 p.2)))]

def execVmodadd (v : VF) (s : State) : Out := modOp s v (fun q a b => (a + b) % q) (fun r => vOut s r 0)
def execVmodsub (v : VF) (s : State) : Out := modOp s v (fun q a b => (a + q - b) % q) (fun r => vOut s r 0)
def execVmodmul (v : VF) (s : State) : Out := modOp s v (fun q a b => a * b % q) (fun r => vLong s 20 r 0)

def execVbfly (v : VF) (s : State) : Out :=
  withModulus s fun q =>
    let ts := zip3 (modLanes (s.rv v.va) q) (modLanes (s.rv v.vb) q) (modLanes (s.rv v.vc) q)
    let up := vecOf 64 (ts.map (fun t => (t.1 + t.2.2 * t.2.1 % q) % q))
    let down := vecOf 64 (ts.map (fun t => (t.1 + q - t.2.2 * t.2.1 % q) % q))
    vLong s 20 [(v.vd.toNat, up), ((v.vd + 1).toNat, down)] 0

end Sys2Proof.Machine
end

