-- ==== Sys2Proof/Machine/Reduce.lean ====
section
/-! DEFINITION. Fabric reductions: XRED, the reduction slots of a gateway complex, and the result's way into its record
(21 R384 to R388; 22 R410; 23 R420 to R422; 24 R433). -/

namespace Sys2Proof.Machine

/-! ## Folding (R386, R421) -/

/-- One lane of a result: its pattern, how many NaN elements were left out, and the flags. -/
structure RedLane where
  pat : Nat
  nans : Nat
  flags : BitVec 5
  deriving DecidableEq, Repr, Inhabited

/-- Fold elements from the left. -/
def foldLane (f : Nat → Nat → Nat × BitVec 5) : List Nat → Nat × BitVec 5
  | [] => (0, 0)
  | a :: as => as.foldl (fun x b => let r := f x.1 b; (r.1, x.2 ||| r.2)) (a, 0)

/-- A lane of integers: add wraps, min and max compare as the type is signed. -/
def redInt (op ty : Nat) (els : List Nat) : RedLane :=
  let f (a b : Nat) : Nat × BitVec 5 :=
    if op = 0 then ((a + b) % 2 ^ typeWidth ty, 0)
    else (if decide (laneInt ty a < laneInt ty b) == decide (op = 2) then b else a, 0)
  { pat := (foldLane f els).1, nans := 0, flags := 0 }

/-- A lane of floating-point elements. -/
def redFloat (op ty : Nat) (prop : Bool) (els : List Nat) : RedLane :=
  let fm := fmtOf ty
  let isNan (a : Nat) : Bool := (decodeF fm a).isNan
  let nv := flagIf (els.any (fun a => (decodeF fm a).isSnan)) flNV
  let kept := els.filter (fun a => !isNan a)
  let nans := els.length - kept.length
  let f (a b : Nat) : Nat × BitVec 5 :=
    if op = 0 then finishF fm 0 (addF 0 (decodeF fm a) (decodeF fm b)) else minMaxF fm (op == 2) a b
  let r := foldLane f kept
  { pat := if kept.isEmpty ∨ (prop ∧ nans ≠ 0) ∨ isNan r.1 then fm.nanPat else r.1
    nans := if prop then 0 else nans
    flags := nv ||| r.2 }

def redLane (op ty : Nat) (prop : Bool) (els : List Nat) : RedLane :=
  if isI ty then redInt op ty els else redFloat op ty prop els

/-- The lanes of a result over contributions in fold order. -/
def redFold (op ty : Nat) (prop : Bool) (cs : List Vec) : List RedLane :=
  let w := typeWidth ty
  (List.range (128 / w)).map (fun i => redLane op ty prop (cs.map (fun v => lane v i w)))

/-- Contributions in ascending contributor index. -/
def insContribution (c : Contribution) : List Contribution → List Contribution
  | [] => [c]
  | x :: xs => if c.i < x.i then c :: x :: xs else x :: insContribution c xs

def byIndex (cs : List Contribution) : List Contribution := cs.foldl (fun l c => insContribution c l) []

/-- The order in which a slot folds what it has recorded (R386, R410). -/
def RedSlot.folded (r : RedSlot) : List Contribution :=
  if r.ord || r.arrived.any (·.lt) then byIndex r.arrived else r.arrived

def RedSlot.bitmap (r : RedSlot) : Nat := r.arrived.foldl (fun a c => a ||| 2 ^ c.i) 0

/-- The status word of a result (R387). -/
def redStatus (code nans : Nat) (fl : BitVec 5) : Word :=
  BitVec.ofNat 64 (code + Nat.min nans 65535 * 2 ^ 8 + fl.toNat * 2 ^ 24)

/-- What a slot issues: status, data and the accumulators of its contributors (R386, R387, R422). -/
def RedSlot.result (r : RedSlot) : Word × Vec × Sig :=
  let ls := redFold r.op r.ty r.prop (r.folded.map (·.data))
  let code := if r.arrived.length = r.n ∧ r.lost = false then 0 else 0x50
  (redStatus code (ls.foldl (fun a l => a + l.nans) 0) (ls.foldl (fun a l => a ||| l.flags) 0),
    vecOf (typeWidth r.ty) (ls.map (·.pat)),
    r.arrived.foldl (fun a c => a ||| c.sig) 0)

/-! ## Slots (R384, R385) -/

def getRed (s : State) (die slot : Nat) : RedSlot := (NMap.find (s.die die).red slot).getD RedSlot.reset

def setRed (s : State) (die slot : Nat) (r : RedSlot) : State :=
  s.modDie die (fun d => { d with red := NMap.set d.red slot r })

/-- A result or refusal as bytes: status, arrival bitmap, lanes. -/
def redBytes (status bitmap : Word) (data : Vec) : List Byte := wordBytes [status, bitmap] ++ toLe data.toNat 16

/-- A result or refusal on its way to a contributor. -/
def redAnswer (s : State) (die world : Nat) (who : ReplyTo) (status bitmap : Word) (data : Vec) (sig : Sig) : State :=
  match who with
  | .remote m d idx gen _ =>
    (sendPacket s die (mkPacket s 0x0B 1 world (dieEndpoint s die) (m * 4194304 + d * 262144) idx gen 0 status
      (padFlits ([bitmap, data.extractLsb' 0 64, data.extractLsb' 64 64])
        ++ (if sig = 0 then [] else toWords (toLe sig.toNat 64) 8)))).getD s
  | .xred c n reg record acq =>
    s.later Config.latFabric (.reductionResultArrival c n reg record status bitmap data (if acq then sig else 0))
  | w => answer s Config.latFabric w (.data (redBytes status bitmap data)) sig

/-- The result is issued, and the slot is DONE for 2L cycles. -/
def issueResult (s : State) (die slot : Nat) : State :=
  let r := getRed s die slot
  let (status, data, sig) := r.result
  let free := s.cycle + 2 * Config.packetLifetime
  let s1 := (setRed s die slot { r with state := .done, arrived := [], lost := false, deadline := free }).at_ free (.reductionSlotFree die slot)
  r.arrived.foldl (fun t c =>
    redAnswer (unholdRequest t die c.from_) die r.world c.from_ status (BitVec.ofNat 64 r.bitmap) data (if c.rel then sig else 0)) s1

/-- A LATE or mismatch answer reports the slot's generation and state (R433). -/
def redRefusal (r : RedSlot) (code : Nat) : Word :=
  BitVec.ofNat 64 (code + r.gen * 2 ^ 32 + (match r.state with | .free => 0 | .opened => 1 | .done => 2) * 2 ^ 40)

/-- The same key (R384). -/
def RedSlot.sameKey (r : RedSlot) (c : Contribution) : Bool :=
  r.op == c.op && r.ty == c.ty && r.prop == c.prop && r.ord == c.ord && r.n == c.n

/-- A local polder whose peer entries admit the writes of a peer world. -/
def admitsW (s : State) (w smod sworld : Nat) : Bool := (s.polder w).peers.any (fun e => e.isFor smod sworld && e.w)

/-- The polder for which a contribution comes to a slot, or the code of its refusal (R383, R384). -/
def redWorld (s : State) (r : RedSlot) (c : Contribution) : Except Nat Nat :=
  if c.module = s.moduleNo then
    if polderGone s c.world then .error 0x0B
    else if r.state ≠ .free ∧ r.world ≠ c.world then .error 0x08
    else .ok c.world
  else if r.state ≠ .free then
    if polderGone s r.world then .error 0x0B
    else if admitsW s r.world c.module c.world then .ok r.world
    else .error 0x08
  else
    match (List.range 20).find? (fun w => (s.polder (w + 1)).state == .live && admitsW s (w + 1) c.module c.world) with
    | some w => .ok (w + 1)
    | none => .error 0x08

/-- Record a contribution; its request is held until the result is issued. -/
def recordContribution (s : State) (die : Nat) (r : RedSlot) (c : Contribution) : State :=
  let r1 := { r with arrived := r.arrived ++ [c] }
  let s1 := holdRequest (setRed s die c.slot r1) die c.from_
  if r1.arrived.length = r1.n ∧ r1.lost = false then issueResult s1 die c.slot else s1

/-- A contribution arrives at its slot (R385). -/
def execReductionContributionArrival (die : Nat) (c : Contribution) (s : State) : Out :=
  let r := getRed s die c.slot
  let refuse (w : Nat) (st : Word) : Out := .next (redAnswer s die w c.from_ st 0 0 0)
  match redWorld s r c with
  | .error code => refuse c.world (BitVec.ofNat 64 code)
  | .ok w =>
    if r.state = .free ∧ c.gen = r.gen ∧ c.i < c.n then
      let due := s.cycle + c.dl
      let r1 : RedSlot :=
        { state := .opened, gen := r.gen, world := w, module := c.module, op := c.op, ty := c.ty,
          prop := c.prop, ord := c.ord, n := c.n, deadline := due, arrived := [], lost := false }
      .next (recordContribution (s.at_ due (.reductionDeadline die c.slot)) die r1 c)
    else if r.state = .opened ∧ c.gen = r.gen ∧ r.sameKey c = true ∧ c.i < r.n ∧ r.arrived.all (·.i != c.i) = true then
      .next (recordContribution s die r c)
    else if (r.state = .done ∧ c.gen = r.gen) ∨ (r.state = .free ∧ (c.gen + 1) % 256 = r.gen) then refuse w (redRefusal r 0x51)
    else refuse w (redRefusal r 0x53)

/-- The deadline of a slot that is still open (R386, R388). -/
def execReductionDeadline (die slot : Nat) (s : State) : Out :=
  let r := getRed s die slot
  if r.state = .opened ∧ r.deadline ≤ s.cycle then .next (issueResult s die slot) else .next s

/-- A DONE slot becomes FREE with the next generation. -/
def execReductionSlotFree (die slot : Nat) (s : State) : Out :=
  let r := getRed s die slot
  if r.state = .done ∧ r.deadline ≤ s.cycle then .next (setRed s die slot { RedSlot.reset with gen := (r.gen + 1) % 256 })
  else .next s

/-- The contributions of a drained polder are withdrawn from their slots, and fail (R388). -/
def withdrawContributions (s : State) (world : Nat) : State :=
  let mine (c : Contribution) : Bool := c.module == s.moduleNo && c.world == world
  let hits := s.dies.flatMap (fun p => p.2.red.flatMap (fun q =>
    if q.2.state = .opened then (q.2.arrived.filter mine).map (fun c => (p.1, c)) else []))
  let s1 := hits.foldl (fun t h =>
    let r := getRed t h.1 h.2.slot
    setRed (unholdRequest t h.1 h.2.from_) h.1 h.2.slot { r with arrived := r.arrived.filter (fun c => !mine c), lost := true }) s
  hits.foldl (fun t h => redAnswer t h.1 world h.2.from_ 0x52 0 0 0) s1

/-! ## XRED (R420 to R422) -/

/-- Reserved bits and values of the slot word, the key word and the record's address. -/
def badXred (slot key ea : Nat) : Bool :=
  let ty := bits key 41 38
  bits slot 31 6 != 0 || bits key 63 42 != 0 || bits key 31 28 != 0
    || !([2, 3, 6, 7, 8, 9, 10, 11].contains ty) || decide (bits key 37 32 + 1 ≤ bits slot 5 0) || ea % 32 != 0

/-- The contributions of one context to one complex arrive in the order sent (R378). -/
def redOnWay (s : State) (die c num : Nat) (e : Event) : Bool :=
  match e with
  | .reductionContributionArrival d x => d == die && senderOf s x.from_ == some (c, num)
  | _ => false

/-- The contribution of an XRED, from its parked request: the slot word in `cmp`, the key word in `extra`, the operation
in `w`, .ar in `phase`. -/
def xredContribution (s : State) (c num : Nat) (sl : Slot) (r : MemReq) (data : Vec) : Contribution :=
  let slot := r.cmp.toNat
  let key := r.extra.toNat
  { slot := bits slot 47 40, gen := bits slot 39 32, op := r.w % 4, ty := bits key 41 38, prop := r.w.testBit 2,
    ord := r.w.testBit 3, n := bits key 37 32 + 1, i := bits slot 5 0, dl := bits key 27 0 + 1,
    lt := (s.core c).ltWorld.isSome, module := s.moduleNo, world := sl.world, data := data, rel := r.phase == 1,
    sig := if r.phase = 1 then sl.acc else 0, from_ := .xred c num r.rd r.ea (r.phase == 1) }

/-- The packet of a contribution (R377). -/
def xredPacket (s : State) (c num : Nat) (x : Contribution) (r : MemReq) (dst idx gen : Nat) : Packet :=
  mkPacket s 0x0A 0 x.world (ctxEndpoint s c num) dst idx gen 0 0
    (padFlits [r.cmp, r.extra, BitVec.ofNat 64 (r.w % 16 + (if x.lt then 16 else 0) + (if x.rel then 32 else 0)),
        x.data.extractLsb' 0 64, x.data.extractLsb' 64 64]
      ++ (if x.rel then toWords (toLe x.sig.toNat 64) 8 else []))

/-- Send a contribution: none where no tag is free, and else the state and the code that ends the XRED at once. -/
def xredSend (s : State) (c num : Nat) (sl : Slot) (r : MemReq) (data : Vec) : Option (State × Option Nat) :=
  let die := dieOfCore c
  let x := xredContribution s c num sl r data
  let module := bits r.cmp.toNat 63 52
  let tdie := bits r.cmp.toNat 51 48
  if module = s.moduleNo then
    if tdie = die then some (s.laterAfter Config.latFabric (redOnWay s tdie c num) (.reductionContributionArrival tdie x), none)
    else
      match drawTag s die x.from_ module with
      | none => none
      | some (idx, gen, s1) =>
        if crossesDown s die tdie then some (s1, none)
        else
          some (s1.laterAfter Config.latFabric (redOnWay s1 tdie c num)
            (.reductionContributionArrival tdie { x with from_ := .tag die idx gen }), none)
  else if !hasPath s die module then some (s, some 0x08)
  else
    match drawTag s die x.from_ module with
    | none => none
    | some (idx, gen, s1) =>
      some ((sendPacket s1 die (xredPacket s1 c num x r (module * 4194304 + tdie * 262144) idx gen)).getD s1, none)

/-- The token of an XRED becomes pending; a release ends the publication by later stores. -/
def Slot.startXred (r : MemReq) (sl : Slot) : Slot :=
  { sl.startToken (regOf r.rd) with fenceRel := sl.fenceRel && !(r.phase == 1) }

/-- The code of an XRED that ends at once. -/
def xredCode (s : State) (c num rd : Nat) (code : Option Nat) : State :=
  match code with
  | some k => s.next1 (.completionWrite c num rd (BitVec.ofNat 64 k) 0)
  | none => s

/-- An XRED of the issuing bundle that ends with a code before anything is sent. -/
def xredEnd (s : State) (r : MemReq) (code : Nat) : Out :=
  .next (xredCode (s.modMe (·.startToken (regOf r.rd))) (coreOf s.cur) s.me.ctxNum r.rd (some code))

/-- An XRED whose record stands in the own local store: read and sent at issue. -/
def xredLocal (s : State) (r : MemReq) : Out :=
  let c := coreOf s.cur
  let num := s.me.ctxNum
  match localFault s r.vas with
  | some (code, _) => xredEnd s r (unitCode code)
  | none =>
    let ps := physOf r.vas
    let s0 := flushSttk (singlePass s c ps) c num
    match xredSend s0 c num s0.me r (leVec (lsRead s0 c ps)) with
    | none => retryOut s
    | some (s1, code) => .next (xredCode (s1.modMe (Slot.startXred r)) c num r.rd code)

/-- An XRED whose record stands in translated memory: read as a VLD would, and sent once it has been read. -/
def xredMemory (s : State) (r : MemReq) : Out :=
  let k := s.cur
  let c := coreOf k
  let sl := s.me
  match translateReq s c sl r with
  | (_, .fault code _) => xredEnd s r (unitCode code)
  | (s1, .miss va) => .next (queueMiss (park s1 k .waitMem (.mem r)) (clusterOf k) sl.world va (.ctx c sl.ctxNum))
  | (s1, .ok ts) => .next (accessTranslated (flushSttk (park s1 k .waitMem (.mem r)) c sl.ctxNum) c sl.ctxNum r ts)

/-- The record has been read: the contribution is sent and the bundle commits (R421). -/
def xredGo (s : State) (c num : Nat) (r : MemReq) : State :=
  match ctxOf s c num with
  | none => s
  | some sl =>
    let s0 := flushSttk s c num
    match xredSend s0 c num sl r (leVec r.bytes) with
    | none => s.next1 (.remoteReply (.ctx c num) .done 0)
    | some (s1, code) => xredCode (finishCtx s1 c num (Slot.startXred r)) c num r.rd code

def xred (op : Nat) (x : XredF) (s : State) : Out :=
  guardX s x.d <|
    let slot := s.rx x.s1
    let key := s.rx (x.s1 + 1)
    let ea := addr57 (s.rx x.s2)
    let r := { MemReq.new .xred (op + 4 * x.nan.toNat + 8 * x.ord.toNat) x.d.toNat (span ea 16) with
      cmp := slot, extra := key, phase := if x.order = 3 then 1 else 0, scope := x.scope.toNat, issued := s.cycle }
    if badXred slot.toNat key.toNat ea then xredEnd s r 0x05
    else if (Slot.split s s.me).getLsbD 4 then xredEnd s r 0x54
    else if ea < translatedBase then xredLocal s r
    else xredMemory s r

def execXredAdd (x : XredF) (s : State) : Out := xred 0 x s
def execXredMin (x : XredF) (s : State) : Out := xred 1 x s
def execXredMax (x : XredF) (s : State) : Out := xred 2 x s

/-! ## The result at the contributor (R421, R422) -/

def redWriteOf (s : State) (core id : Nat) : Option RedWrite := (s.core core).redWrites.find? (·.id == id)

def RedWrite.user (w : RedWrite) (core : Nat) : UnitUser :=
  { who := .redWrite core w.id, cluster := clusterOfCore core, core := core, num := w.num, world := w.world,
    lo := w.lsbase, hi := w.lsbound }

def modRedWrite (s : State) (core id : Nat) (f : RedWrite → RedWrite) : State :=
  s.modCore core (fun co => { co with redWrites := co.redWrites.map (fun w => if w.id = id then f w else w) })

/-- The token of a result is written, and its record is done with. -/
def endRedWrite (s : State) (core : Nat) (w : RedWrite) (status : Word) (sig : Sig) : State :=
  (s.modCore core (fun co => { co with redWrites := co.redWrites.filter (·.id != w.id) })).next1
    (.completionWrite core w.num w.reg status sig)

/-- Write the next part of a record, or the token. -/
def redWriteNext (s : State) (core : Nat) (w : RedWrite) : State :=
  match w.parts with
  | [] => endRedWrite s core w w.status w.sig
  | (va, bs) :: rest =>
    let u := w.user core
    match unitFind s u va bs.length true with
    | (s0, .error c) => if c = needsWalk then s0 else endRedWrite s0 core w (BitVec.ofNat 64 (unitCode c)) 0
    | (s0, .ok t) =>
      let n := unitSize s0 u true t bs.length
      match unitIssue s0 u { write := true, tgt := t, n := n, data := bs.take n, sent := false, tag := none } with
      | .error c => endRedWrite s0 core w (BitVec.ofNat 64 (unitCode c)) 0
      | .ok (s1, a) =>
        let left := if n < bs.length then (va + n, bs.drop n) :: rest else rest
        modRedWrite s1 core w.id (fun x => { x with acc := some a, parts := if a.sent then left else x.parts })

/-- A reply to the write of a record. -/
def redWriteReply (s : State) (core id : Nat) (r : Reply) : State :=
  match redWriteOf s core id with
  | none => s
  | some w =>
    match w.acc with
    | none =>
      match r with
      | .fault c _ => endRedWrite s core w (BitVec.ofNat 64 (unitCode c)) 0
      | .done | .data _ | .home | .gone | .status _ => redWriteNext s core w
    | some a =>
      let go (t : State) : State :=
        let sig := if a.sent then unitSig s a else 0
        redWriteNext (modRedWrite t core id (fun x => { x with acc := none, sig := x.sig ||| sig })) core
          { w with acc := none, sig := w.sig ||| sig }
      let fail (t : State) (c : Nat) : State := endRedWrite t core w (BitVec.ofNat 64 c) 0
      match r with
      | .home =>
        match unitPerform s (w.user core) none a with
        | .ok (t, _) => go t
        | .error (c, t) => fail t (unitCode c)
      | .data _ | .done => go s
      | .fault c _ => fail s (unitCode c)
      | .gone => fail s 0x0B
      | .status c => if c = 0 then go s else fail s c

/-- The record's 32 bytes: the lanes, the arrival bitmap, and zero. -/
def recordParts (record : Nat) (bitmap : Word) (data : Vec) : List (Nat × List Byte) :=
  [(record, toLe data.toNat 16 ++ wordBytes [bitmap, 0])]

/-- The result or refusal of an XRED reaches its complex. -/
def execReductionResultArrival (core num reg record : Nat) (status : Word) (bitmap : Word) (data : Vec) (sig : Sig) (s : State) : Out :=
  let code := status.toNat % 256
  if code = 0 ∨ code = 0x50 then
    match ctxOf s core num with
    | none => .next (completeCtx s core num reg status 0)
    | some sl =>
      let w : RedWrite :=
        { id := s.nextId, num := num, reg := reg, world := sl.world, lsbase := sl.lsbase.toNat,
          lsbound := sl.lsbound.toNat, parts := recordParts record bitmap data, acc := none, status := status, sig := sig }
      let s1 := s.freshId.modCore core (fun co => { co with redWrites := co.redWrites ++ [w] })
      .next (redWriteNext s1 core w)
  else .next (completeCtx s core num reg status 0)

/-- A reply to the request of an XRED: its result or refusal, or the failure of its transport. -/
def xredReply (s : State) (core num reg record : Nat) (acq : Bool) (r : Reply) (sig : Sig) : State :=
  let fail (c : Nat) : State := completeCtx s core num reg (BitVec.ofNat 64 c) 0
  match r with
  | .data bs =>
    s.at_ s.cycle (.reductionResultArrival core num reg record (leWord (bs.take 8)) (leWord ((bs.drop 8).take 8))
      (leVec (bs.drop 16)) (if acq then sig else 0))
  | .fault c _ => fail (unitCode c)
  | .gone => fail 0x0B
  | .status c => fail c
  | .done | .home => s

end Sys2Proof.Machine
end

