-- ==== Sys2Proof/Machine/Link.lean ====
section
/-! DEFINITION. The links and gateways: frames, retry and resynchronisation, keys, forwarding, the path table, and the
requests and replies of other modules (19 R343, R349, R350; 21 R369 to R383; 22 R401, R413; 23 R425). -/

namespace Sys2Proof.Machine

/-! ## Keys (R372, R375) -/

/-- Both keys and both salts from the shared secret of an exchange. -/
def linkKeys (shared : List Word) : List Word := toWords (shake256 (wordBytes (Config.mlkemShared shared)) 72) 9

/-- New keys: the counters restart, and the buffered frames go out again as first transmissions (R374). -/
def Link.rekeyed (l : Link) (shared : List Word) : Link :=
  let frames := l.replay.mapIdx (fun i e => (e.1, i, e.2.2.1, e.2.2.2))
  let l1 := { l with key := linkKeys shared, counter := frames.length, replay := frames, fails := 0, accepted := 0, stopped := false }
  let l2 := frames.foldl (fun a e => a.put e.1 false false e.2.2.2) l1
  l2.drain (l2.queue.length + 1)

/-- Bring-up of a port's link. -/
def execLinkBringUp (port : Nat) (shared : List Word) (s : State) : Out :=
  .next (s.setLink port { Link.reset with up := true, key := linkKeys shared, accepted := 256 })

/-- A steward rekeys a link before a counter reaches 2^48. -/
def execLinkRekey (port : Nat) (shared : List Word) (s : State) : Out :=
  if (s.link port).up then .next (s.modLink port (·.rekeyed shared)) else .next s

/-- A link is down: both stewards hear of it, and what its port holds is dropped and counted (R374). -/
def linkDown (s : State) (port : Nat) : State :=
  let l := s.link port
  let lost := l.queue.length + (l.replay.filter (·.2.2.1)).length
  let s1 := s.setLink port { Link.reset with wire := l.wire }
  let s2 := s1.modDie (port / 4) (fun d => { d with dropped := d.dropped + lost })
  let ep := dieEndpoint s (port / 4)
  { hatPost s2 (port / 4) 0x06 0 ep (BitVec.ofNat 64 port) (BitVec.ofNat 64 lost) with
    steward := { s.steward with posted := s.steward.posted ++ [(ep, BitVec.ofNat 64 port, 0x06, BitVec.ofNat 64 lost)] } }

/-- A resynchronisation has failed: after three in a row the link is down. -/
def resyncFailed (s : State) (port : Nat) : State :=
  if 3 ≤ (s.link port).resyncFails + 1 then linkDown s port
  else s.modLink port (fun l => { l with resyncFails := l.resyncFails + 1 })

/-- The exchange of a resynchronisation, with its shared secret, or failed (R374). -/
def execLinkResync (port : Nat) (shared : Option (List Word)) (s : State) : Out :=
  if (s.link port).up ∧ (s.link port).stopped = true then
    match shared with
    | some k =>
      .next (hatPost (s.modLink port (·.rekeyed k)) (port / 4) 0x06 0 (dieEndpoint s (port / 4)) (BitVec.ofNat 64 port) 0)
    | none => .next (resyncFailed s port)
  else .next s

/-! ## Frames (R371 to R373) -/

/-- Sequence `n` comes before `ack`. -/
def seqBefore (n ack : Nat) : Bool :=
  let d := (ack + 512 - n) % 512
  decide (1 ≤ d) && decide (d ≤ 256)

/-- An acknowledgement frees every buffered frame before it; a nak resends the others, in order. -/
def Link.acked (l : Link) (f : Frame) : Link :=
  let l1 := { l with replay := l.replay.filter (fun e => !seqBefore e.1 f.ack) }
  let l2 := if f.nak then l1.replay.foldl (fun a e => a.put e.1 false false e.2.2.2) l1 else l1
  l2.drain (l2.queue.length + 1)

/-- A null frame: a first transmission that is not buffered. -/
def Link.putNull (l : Link) (nak : Bool) : Link := { l.put l.seq true nak [] with counter := l.counter + 1 }

/-- A packet that no gateway can read (R377). -/
def dropMalformed (s : State) (die : Nat) (d0 : Word) : State :=
  hatPost (s.modDie die (fun d => { d with dropped := d.dropped + 1 })) die 0x04 0 (dieEndpoint s die) d0 0

/-- The flits that a port has taken in: a whole packet goes on. -/
def assemble (s : State) (port : Nat) : State :=
  let fs := (s.link port).rx
  let n := headerFlits ((fs.head?).getD [])
  if fs.isEmpty then s
  else if n = 0 ∨ 9 < n ∨ fs.length = n then
    let s1 := s.modLink port (fun l => { l with rx := [] })
    match readPacket fs with
    | some p => s1.next1 (.packetForward port p)
    | none => dropMalformed s1 (port / 4) ((((fs.head?).getD []).head?).getD 0)
  else s

/-- A sequence that has failed its tag on three transmissions in a row stops the link; so soon after the last
resynchronisation that one has failed (R374). -/
def tagFailed (s : State) (port : Nat) : State :=
  let l := s.link port
  if 3 ≤ l.fails + 1 then
    let s1 := s.modLink port (fun l => { l with fails := 0, stopped := true })
    if l.accepted < 256 then resyncFailed s1 port else s1
  else s.modLink port (fun l => { l with fails := l.fails + 1 }.putNull true)

/-- A frame comes in (R373). A frame whose tag fails is discarded unread but for its sequence. -/
def execLinkFrameReceive (port : Nat) (f : Frame) (s : State) : Out :=
  let l := s.link port
  if l.up = false ∨ l.stopped = true then .next s
  else if f.ok then
    let s1 := s.modLink port (·.acked f)
    if f.null = false ∧ f.seq = l.expect then
      .next (assemble (s1.modLink port (fun l =>
        let n := Nat.min 256 (l.accepted + 1)
        { l with
          expect := (l.expect + 1) % 512, fails := 0, rx := l.rx ++ [f.flit], accepted := n
          resyncFails := if n = 256 then 0 else l.resyncFails })) port)
    else .next s1
  else if f.seq = l.expect then .next (tagFailed s port)
  else .next s

/-- A null frame, so that acknowledgements keep flowing (R372). -/
def execNullFrameSend (port : Nat) (s : State) : Out :=
  let l := s.link port
  if l.up ∧ l.stopped = false then .next (s.modLink port (·.putNull false)) else .next s

/-- Packets that have waited 65,536 cycles for credit are dropped (R370). -/
def execCreditWaitDrop (port : Nat) (s : State) : Out :=
  let old (q : Nat × Packet) : Bool := decide (q.1 + 65536 ≤ s.cycle)
  let s1 := s.modLink port (fun l => { l with queue := l.queue.filter (fun q => !old q) })
  .next (((s.link port).queue.filter old).foldl (fun t q => dropPacket t (port / 4) q.2) s1)

/-! ## Forwarding (R377 to R380) -/

/-- A type, a sub or a size that no packet has, or a reserved bit of dword 6. -/
def malformedPacket (p : Packet) : Bool :=
  let op := p.op.toNat
  let sub := op / 2 ^ 60
  p.typ == 0 || decide (0x0D < p.typ) || decide (p.hops.length < p.hop)
    || (p.typ ≤ 3 && (decide (6 ≤ bits op 50 48) || op / 2 ^ 62 != 0))
    || (p.typ == 9 && (sub == 0 || decide (4 < sub) || bits op 59 57 != 0 || bits op 55 51 != 0 || decide (5 ≤ bits op 50 48)))
    || ((p.typ == 0x0C || p.typ == 0x0D) && (sub == 0 || decide (4 < sub) || op % 2 ^ 60 != 0))

/-- What the status word of a done reply says (R237, R382). -/
def replyOf (st : Nat) : Reply :=
  if st = 0 then .done
  else if st = 0x07 then .fault 0x10 0
  else if st = 0x08 then .fault 0x11 0
  else if st = 0x09 then .fault 0x12 0
  else if st = 0x0A then .fault 0x15 0
  else if st = 0x0B then .gone
  else .status st

/-- The step that a reply brings about at the complex that asked. -/
def replyEvent (die : Nat) (p : Packet) : Option Event :=
  let rcv := ReplyTo.tag die p.tagIdx p.tagGen
  if p.typ = 4 then
    some (.remoteReply rcv (.data ((wordBytes (p.data.take 8)).take (codeSize (bits p.op.toNat 50 48)))) (packetSig p 8))
  else if p.typ = 5 then some (.remoteReply rcv (replyOf (p.status.toNat % 256)) 0)
  else if p.typ = 6 then some (.holdReply die p.tagIdx p.tagGen)
  else if p.typ = 8 then some (.remoteReply rcv (.status (p.status.toNat % 256)) 0)
  else if p.typ = 0x0B then
    some (.remoteReply rcv (.data (redBytes p.status ((p.data[0]?).getD 0) ((((p.data[2]?).getD 0) ++ ((p.data[1]?).getD 0))))) (packetSig p 8))
  else none

/-- Packets from one source to one destination are delivered in the order sent (R378). -/
def packetOnWay (p : Packet) (e : Event) : Bool :=
  match e with
  | .remoteRequestArrival _ q => q.src == p.src && q.dst == p.dst
  | _ => false

/-- Deliver a packet to its die's mesh. -/
def deliverPacket (s : State) (port : Nat) (p : Packet) : State :=
  let die := p.dst / 262144 % 16
  if p.dst / 4194304 ≠ s.moduleNo then dropPacket s (port / 4) p
  else if crossesDown s (port / 4) die then s
  else
    s.laterAfter Config.latMesh (packetOnWay p) (.remoteRequestArrival die p)

/-- A gateway forwards a packet to its next hop or delivers it (R380). -/
def execPacketForward (port : Nat) (p : Packet) (s : State) : Out :=
  if malformedPacket p then .next (dropMalformed s (port / 4) ((packetHeader p).headD 0))
  else if p.hop < p.hops.length then
    let out := (p.hops[p.hop]?).getD 0
    if crossesDown s (port / 4) (out / 4) then .next s else .next (toPort s out { p with hop := p.hop + 1 })
  else .next (deliverPacket s port p)

/-! ## The path table (R379, R381) -/

/-- Two dwords of a path-table entry. -/
def readPath (d0 d1 : Word) : Path :=
  let hop (i : Nat) : Nat := if i < 10 then bits d0.toNat (6 * i + 5) (6 * i) else bits d1.toNat (6 * (i - 10) + 5) (6 * (i - 10))
  { hops := (List.range (Nat.min 12 (bits d1.toNat 15 12))).map hop
    valid := d1.getLsbD 16 && decide (1 ≤ bits d1.toNat 15 12) && decide (bits d1.toNat 15 12 ≤ 12) }

/-- A complex holds an unanswered request to a module. -/
def unanswered (s : State) (die module : Nat) : Bool :=
  (s.die die).tags.any (fun t => match t.2.use with | .live _ m _ => m == module | _ => false)

/-- The changes of a module's entry take effect once no request to it is unanswered. -/
def pathsTake (s : State) (die module : Nat) : State :=
  if unanswered s die module then s
  else
    let mine (c : Nat × Path) : Bool := c.1 / 4 == module
    s.modDie die (fun d => { d with
      paths := (d.pathChanges.filter mine).foldl (fun m c => NMap.set m c.1 c.2) d.paths
      pathChanges := d.pathChanges.filter (fun c => !mine c) })

def execPathTableWrite (die module index : Nat) (d0 d1 : Word) (s : State) : Out :=
  if 4096 ≤ module ∨ 4 ≤ index then .next s
  else
    .next (pathsTake (s.modDie die (fun d => { d with pathChanges := d.pathChanges ++ [(4 * module + index, readPath d0 d1)] })) die module)

def execPathChangeEffect (die module : Nat) (s : State) : Out := .next (pathsTake s die module)

/-! ## Die-to-die links (R343) -/

/-- Dies that stand next to each other. -/
def neighbours (a b : Nat) : Bool := (a / 4 == b / 4 && (a + 1 == b || b + 1 == a)) || a + 4 == b || b + 4 == a

/-- A die-to-die link is down: reported, and nothing is routed around it. -/
def execDieLinkDown (a b : Nat) (s : State) : Out :=
  let l := (Nat.min a b, Nat.max a b)
  if a < 16 ∧ b < 16 ∧ neighbours a b = true ∧ s.downLinks.contains l = false then
    let s1 := hatPost { s with downLinks := s.downLinks ++ [l] } l.1 0x06 0 (dieEndpoint s l.1) (BitVec.ofNat 64 l.1) (BitVec.ofNat 64 l.2)
    let s2 := hatPost s1 l.2 0x06 0 (dieEndpoint s l.2) (BitVec.ofNat 64 l.2) (BitVec.ofNat 64 l.1)
    .next { s2 with steward := { s2.steward with
      posted := s2.steward.posted ++ [(dieEndpoint s l.1, BitVec.ofNat 64 l.1, 0x06, BitVec.ofNat 64 l.2)] } }
  else .next s

/-! ## Requests of other modules (R383) -/

/-- What an access packet asks of a peer entry. -/
def packetUse (typ : Nat) : PeerUse := if typ = 1 then .read else if typ = 2 then .write else .atomic

/-- The handler that serves an access packet at a core. -/
def packetOp (typ f : Nat) : SvcOp :=
  if typ = 1 then (if f = 1 then .sync else if f = 2 then .peek else .load)
  else if typ = 2 then (if f = 1 then .fill else if f = 2 then .setfe else .store)
  else .atomic f

/-- The refusal of a peer access. -/
def refusePeer (s : State) (who : ReplyTo) (c : Nat) : State := answer s Config.latReply who (if c = 0x16 then .gone else .fault c 0) 0

/-- An access to home memory, at its home (R260, R270, R271); an atomic that carries a key is held there (R409). -/
def peerAtHome (s : State) (die w : Nat) (p : Packet) : State :=
  let op := p.op.toNat
  let pa := bits op 47 0
  let n := codeSize (bits op 50 48)
  let f := bits op 55 51
  let who := packetWho die p
  let fail (l : Nat) : State := answer (integrityRecord s l) Config.latReply who (.fault 0x12 0) 0
  if p.typ = 1 then
    if f ≠ 0 then answer s Config.latReply who (.fault 0x11 0) 0
    else
      match homeRead s pa n with
      | .error l => fail l
      | .ok (t, bs) => answer t Config.latReply who (.data bs) (if op.testBit 57 then homeSig t pa w else 0)
  else if p.typ = 2 then
    if f ≠ 0 then answer s Config.latReply who (.fault 0x11 0) 0
    else
      match homeWrite s none pa (packetBytes p n) with
      | .error l => fail l
      | .ok t => answer (peerPublish t w p) Config.latReply who .done 0
  else
    match peerKey p with
    | some k => holdPeerKeyed s die w p k
    | none => peerAtomic s die w p

/-- A load, store or atomic of another module. -/
def peerAccess (s : State) (die : Nat) (p : Packet) : State :=
  let op := p.op.toNat
  let n := codeSize (bits op 50 48)
  let who := packetWho die p
  let smod := p.src / 4194304
  if p.dst % 8 = 6 then
    let core := p.dst / 8 % 524288
    let off := bits op 56 56 * 65536 + bits op 47 0 % 65536
    match peerCore s smod p.world (packetUse p.typ) core off n with
    | .error c => refusePeer s who c
    | .ok w =>
      let arg := wordBytes (p.data.take 8)
      let m : ActiveMsg :=
        { op := packetOp p.typ (bits op 55 51), world := w, off := off, size := n, data := arg.take n,
          cmp := leWord ((arg.drop n).take 8), sig := if op.testBit 58 then packetSig p 8 else 0, acq := op.testBit 57,
          sender := p.src, from_ := who }
      sendActive s core m
  else
    match peerHome s smod p.world (packetUse p.typ) (bits op 47 0) with
    | .error c => refusePeer s who c
    | .ok w => peerAtHome s die w p

/-- A message of another module: its mailbox's polder must admit the sender. -/
def peerSend (s : State) (die : Nat) (p : Packet) : State :=
  let core := p.dst / 8 % 524288
  let who := packetWho die p
  let d (i : Nat) : Word := (p.data[i]?).getD 0
  let mb := bits (d 0).toNat 59 56
  match (s.core core).mail.toList[mb]?.bind (·.owner) with
  | none => answer s Config.latReply who (.status 0x02) 0
  | some w =>
    if polderGone s w then answer s Config.latReply who (.status 0x03) 0
    else if (s.polder w).peers.any (·.isFor (p.src / 4194304) p.world) then
      s.at_ s.cycle (.mailboxDataArrival core
        { typ := 0, mbox := mb, sender := bits (d 0).toNat 33 0, world := w, d1 := d 1, d2 := d 2, d3 := d 3,
          sig := packetSig p 8, rel := decide (8 < p.data.length), from_ := who })
    else answer s Config.latReply who (.status 0x02) 0

/-- Dependency-token traffic (R401). -/
def peerToken (s : State) (die : Nat) (p : Packet) : State :=
  let op := p.op.toNat
  let d (i : Nat) : Word := (p.data[i]?).getD 0
  let smod := p.src / 4194304
  let sdie := p.src / 262144 % 16
  match op / 2 ^ 60 with
  | 1 =>
    let n := codeSize (bits op 50 48)
    let aper := p.dst % 8 = 6
    s.at_ s.cycle (.depstoreArrival die
      { token := d 0, expiry := (d 1).toNat, size := n, data := (wordBytes [d 2, d 3]).take n,
        pa := if aper then 0 else bits op 47 0
        target := if aper then some (p.dst / 8 % 524288, bits op 56 56 * 65536 + bits op 47 0 % 65536) else none
        module := smod, world := p.world, pgen := p.pgen, from_ := packetWho die p, sig := packetSig p 8, issued := s.cycle })
  | 2 => s.at_ s.cycle (.holdArrival die (d 0) (smod * 16 + sdie))
  | 3 => s.at_ s.cycle (.releaseArrival die (d 0) ((d 1).getLsbD 0) ((d 1).getLsbD 1) ((d 2).toNat % 2 ^ 32) (packetSig p 8))
  | _ =>
    match tagAway s die p.tagIdx p.tagGen, NMap.find (s.die die).sentDeps p.tagIdx with
    | some (.dep _ _ _, _), some y => s.at_ s.cycle (.sluiceFullReply die y)
    | _, _ => lateReply s die p.tagIdx p.tagGen

/-- A reduction contribution of another module. -/
def peerContribution (s : State) (die : Nat) (p : Packet) : State :=
  let d (i : Nat) : Nat := ((p.data[i]?).getD 0).toNat
  let c : Contribution :=
    { slot := bits (d 0) 47 40, gen := bits (d 0) 39 32, op := d 2 % 4, ty := bits (d 1) 41 38, prop := (d 2).testBit 2,
      ord := (d 2).testBit 3, n := bits (d 1) 37 32 + 1, i := bits (d 0) 5 0, dl := bits (d 1) 27 0 + 1, lt := (d 2).testBit 4,
      module := p.src / 4194304, world := p.world, data := BitVec.ofNat 128 (d 3 + d 4 * 2 ^ 64), rel := (d 2).testBit 5,
      sig := packetSig p 8, from_ := packetWho die p }
  if badXred (d 0) (d 1) 0 then redAnswer s die p.world c.from_ (redRefusal (getRed s die c.slot) 0x53) 0 0 0
  else s.at_ s.cycle (.reductionContributionArrival die c)

/-- The local world that admits a peer world to a core's local time. -/
def peerTimeWorld (s : State) (core smod sworld : Nat) : Option Nat :=
  let admits (w : Nat) : Bool := (s.polder w).peers.any (·.isFor smod sworld)
  match (s.core core).ltWorld with
  | some w => if admits w then some w else none
  | none => ((s.core core).shares.find? (fun q => q.1 != 0 && admits q.1)).map (·.1)

/-- Local-time traffic (R413). -/
def peerTime (s : State) (die : Nat) (p : Packet) : State :=
  let d (i : Nat) : Nat := ((p.data[i]?).getD 0).toNat
  let core := p.dst / 8 % 524288
  let who := packetWho die p
  let w := peerTimeWorld s core (p.src / 4194304) p.world
  let admitted (k : Nat → State) (no : Nat → State) : State :=
    match w with
    | some w => if polderGone s w then no 0x0B else k w
    | none => if (s.core core).ltWorld.isSome then no 0x08 else k 0
  match p.op.toNat / 2 ^ 60 with
  | 1 =>
    admitted (fun _ => s.at_ s.cycle (.eventArrival core
        { stamp := d 0, src := p.src, seq := d 1 % 2 ^ 32, ch := bits (d 1) 34 32, p0 := (p.data[2]?).getD 0,
          p1 := (p.data[3]?).getD 0, p2 := (p.data[4]?).getD 0, sig := packetSig p 8, from_ := who }))
      (fun c => answer s Config.latReply who (.status (if c = 0x0B then 0x03 else c)) 0)
  | 2 => admitted (fun _ => s.at_ s.cycle (.tideArrival core (d 1 % 8) p.src (d 0))) (fun _ => dropStray s core)
  | 3 =>
    if p.cls = 1 then
      s.at_ s.cycle (.declareReply core (d 1 % 8) (.tag die p.tagIdx p.tagGen) (p.status.toNat % 256))
    else
      match w with
      | some w => s.at_ s.cycle (.declareArrival core (p.src / 8) (d 1 % 8) (d 0) w who)
      | none =>
        (sendPacket s die { ltPacket s 3 0 p.dst p.src p.tagIdx p.tagGen [0, BitVec.ofNat 64 (d 1 % 8), 1, 0, 0, 0, 0, 0] with
          cls := 1, status := 0x08 }).getD s
  | _ => s.at_ s.cycle (.floorReportArrival die (d 1 / 8) (d 0) (p.world * 1024 + d 2 % 1024))

/-- Graph-send traffic goes to the copy hart of a cluster (R425). -/
def peerGraph (s : State) (p : Packet) : State :=
  let cl := p.dst % 4194304 / 64
  s.at_ s.cycle (match p.op.toNat / 2 ^ 60 with
    | 1 => .objectPacketArrival cl p
    | 2 => .gsendAckArrival cl p
    | 3 => .gsendFinishArrival cl p
    | _ => .gsendDoneArrival cl p)

/-- A packet of another module arrives at its die: a request is checked and served (R383), a reply taken (R382). -/
def execRemoteRequestArrival (die : Nat) (p : Packet) (s : State) : Out :=
  .next (
    if p.typ = 1 ∨ p.typ = 2 ∨ p.typ = 3 then peerAccess s die p
    else if p.typ = 7 then peerSend s die p
    else if p.typ = 9 then peerToken s die p
    else if p.typ = 0x0A then peerContribution s die p
    else if p.typ = 0x0C then peerGraph s p
    else if p.typ = 0x0D then peerTime s die p
    else
      match replyEvent die p with
      | some e => s.at_ s.cycle e
      | none => dropPacket s die p)

end Sys2Proof.Machine
end

