-- ==== Sys2Proof/Machine/Polder.lean ====
section
/-! DEFINITION. Polders: WSET and WSEAL, teardown, and the registers of a virtual function (19 R344 to R354;
20 R363, R364). -/

namespace Sys2Proof.Machine

/-! ## Commands (R351, R352) -/

/-- A polder command: privileged, done at issue, its token following. `run` answers the state after it and its
code; a command that is done is recorded in the hatbox. -/
def polderCmd (i : Instr) (d a b : Reg) (s : State) (run : State → Nat → Nat → State × Nat) : Out :=
  if s.me.world ≠ 0 then trapOut s 3 0x02 (aBits i)
  else
    guardX s d <|
      let w := (s.rx a).toNat
      let r := if w = 0 ∨ 20 < w then (s, 0x05) else run s w (s.rx b).toNat
      let s1 := if r.2 = 0 then hatPost r.1 (dieOf s.cur) 0x0A 0 (endpoint s s.cur).toNat (BitVec.ofNat 64 w) (aBits i) else r.1
      .next ((s1.modMe (·.startToken d)).later Config.latMesh
        (.completionWrite (coreOf s.cur) s.me.ctxNum d.toNat (BitVec.ofNat 64 r.2) 0))

/-- The first code that applies, or the command's effect. -/
def firstCode (s : State) (codes : List (Bool × Nat)) (done : State) : State × Nat :=
  match codes.find? (·.1) with
  | some c => (s, c.2)
  | none => (done, 0)

def PolderState.isOneOf (p : PolderState) (l : List PolderState) : Bool := l.contains p

/-- The SPDM sessions of a LIVE polder end at the instant its configuration changes (R363). -/
def endSessions (s : State) (w : Nat) : State :=
  s.modPolder w (fun p => { p with sessions := if p.state = .live then 0 else p.sessions })

/-! ### form, seal (R345, R351) -/

/-- The token spaces, windows and cached watermarks of a world's earlier polder are gone: a space starts at form (R393). -/
def freshSpaces (s : State) (w : Nat) : State :=
  { s with dies := s.dies.map (fun p => (p.1, { p.2 with
      spaces := p.2.spaces.filter (fun x => x.1 / 256 != w)
      tokens := p.2.tokens.filter (·.world != w)
      marks := p.2.marks.filter (fun m => !(m.1 / 2 ^ 20 == s.moduleNo && m.1 / 8 % 32 == w)) })) }

def polderForm (s : State) (w : Nat) : State :=
  (freshSpaces s w).modPolder w (fun p => { p with state := .forming, gen := (p.gen + 1) % 256, sessions := 0, mig := .none })

def execWsetForm (d a b : Reg) (s : State) : Out :=
  polderCmd (.wsetForm d a b) d a b s (fun s w x =>
    firstCode s [(x != 0, 0x05), ((s.polder w).state != .free, 0x40)] (polderForm s w))

/-- A polder owns a granule or has a share. -/
def hasMemory (s : State) (w : Nat) : Bool :=
  s.granules.any (·.2 == w) || s.cores.any (fun p => (NMap.find p.2.shares w).isSome)

def execWsetSeal (d a b : Reg) (s : State) : Out :=
  polderCmd (.wsetSeal d a b) d a b s (fun s w x =>
    firstCode s
      [(x != 0, 0x05), ((s.polder w).state != .forming, 0x40), ((s.polder w).keys.isNone || !hasMemory s w, 0x43)]
      (s.modPolder w (fun p => { p with state := .live })))

/-! ### grant, reclaim (R344, R351) -/

def granuleList (x : Nat) : List Nat := (List.range (bits x 63 48)).map (bits x 15 0 + ·)

def badGranules (x : Nat) : Bool := bits x 47 16 != 0 || bits x 63 48 == 0 || decide (65536 < bits x 15 0 + bits x 63 48)

/-- A granule becomes owned, every line of it fresh. -/
def grantOne (w : Nat) (s : State) (g : Nat) : State :=
  let s1 := freshGranule s g
  { s1 with granules := NMap.set s1.granules g w }

def execWsetGrant (d a b : Reg) (s : State) : Out :=
  polderCmd (.wsetGrant d a b) d a b s (fun s w x =>
    firstCode s
      [(badGranules x, 0x05), (!(s.polder w).state.isOneOf [.forming, .live], 0x40),
       ((granuleList x).any (fun g => (NMap.find s.granules g).isSome), 0x41)]
      (endSessions ((granuleList x).foldl (grantOne w) s) w))

def execWsetReclaim (d a b : Reg) (s : State) : Out :=
  polderCmd (.wsetReclaim d a b) d a b s (fun s w x =>
    firstCode s
      [(badGranules x, 0x05), (!(s.polder w).state.isOneOf [.forming, .draining], 0x40),
       ((granuleList x).any (fun g => NMap.find s.granules g != some w), 0x41)]
      { s with granules := (granuleList x).foldl NMap.erase s.granules })

/-! ### share (R155, R158, R162) -/

/-- Mailboxes of a core by mask: a set bit gives one to a world, a clear bit takes it from that world; one that
changes hands is emptied. -/
def assignMail (w mask : Nat) (v : Vector Mailbox 16) : Vector Mailbox 16 :=
  v.mapFinIdx (fun i m _ =>
    if mask.testBit i then (if m.owner = some w then m else { owner := some w, msgs := [] })
    else if m.owner = some w then { owner := none, msgs := [] } else m)

/-- Set a share, its words zero and full, or take it away. -/
def setShare (s : State) (w c lo hi mask : Nat) : State :=
  let s1 := if lo < hi then clearShare s c lo hi else s
  s1.modCore c (fun co => { co with
    shares := if lo < hi then NMap.set co.shares w (lo, hi) else NMap.erase co.shares w
    mail := assignMail w mask co.mail })

/-- A share overlaps another world's, or a slot of the world is installed on the core. -/
def shareTaken (s : State) (w c lo hi : Nat) : Bool :=
  (s.core c).shares.any (fun p => p.1 != w && decide (lo < p.2.2) && decide (p.2.1 < hi) && decide (lo < hi))
    || (List.range 8).any (fun i =>
      (s.slot (c * 8 + i)).state != .empty && (s.slot (c * 8 + i)).state != .swapped && (s.slot (c * 8 + i)).world == w)

def execWsetShare (d a b : Reg) (s : State) : Out :=
  polderCmd (.wsetShare d a b) d a b s (fun s w x =>
    let lo := bits x 47 38
    let hi := bits x 37 28
    let c := bits x 18 0
    firstCode s
      [(bits x 27 19 != 0 || decide (hi < lo) || decide (768 < hi) || decide (Config.clustersPerDie ≤ bits c 14 3), 0x05),
       ((s.polder w).state != .forming, 0x40), (shareTaken s w c (64 * lo) (64 * hi), 0x42)]
      (setShare s w c (64 * lo) (64 * hi) (bits x 63 48)))

/-! ### Records in the memory of world 0 -/

/-- Bytes of a local store, within the bounds `lo` and `hi`. -/
def cmdLocal (s : State) (c lo hi off n : Nat) : Option (List Byte) :=
  if (lsFail lo hi off n).isSome || (lsPoison s c (lsBytes off n)).isSome then none else some (lsRead s c (lsBytes off n))

/-- 32 bytes of a command's record, read at issue: in the issuing slot's share, at their home, or in a share of world 0 on
another core. -/
def cmdBlock (s : State) (va : Nat) : Option (List Byte) :=
  let c := coreOf s.cur
  if va < translatedBase then cmdLocal s c s.me.lsbase.toNat s.me.lsbound.toNat va 32
  else if 2 ^ 57 ≤ va then none
  else
    match devLeaf s (clusterOf s.cur) 0 va with
    | .leaf l =>
      if refuses s l 0 va .load then none
      else
        match targetOf s l va with
        | .home pa =>
          if crossesDown s (dieOf s.cur) (homeDie pa) then none
          else match homeRead s pa 32 with | .ok (_, bs) => some bs | .error _ => none
        | .aper m core off =>
          if m ≠ s.moduleNo ∨ crossesDown s (dieOf s.cur) (dieOfCore core) = true then none
          else cmdLocal s core (shareOf (s.core core) 0).1 (shareOf (s.core core) 0).2 off 32
        | _ => none
    | _ => none

/-- A record of `n` blocks of 32 bytes, or none where its read faults. -/
def cmdRecord (s : State) (va : Nat) : Nat → Option (List Byte)
  | 0 => some []
  | n + 1 =>
    match cmdBlock s va, cmdRecord s (va + 32) n with
    | some bs, some r => some (bs ++ r)
    | _, _ => none

/-! ### peer (R350) -/

def peerOf (ws : List Word) : Peer :=
  let d0 := (ws.getD 0 0).toNat
  let d1 := (ws.getD 1 0).toNat
  { smod := bits d0 63 52, sworld := bits d0 51 47, ls := d0.testBit 7, ra := d0.testBit 6, w := d0.testBit 5,
    r := d0.testBit 4, count := bits d1 63 32, first := bits d1 15 0 }

/-- Reserved bits and values of a peer entry; a count of 0 belongs to an entry for local stores alone. -/
def badPeer (ws : List Word) : Bool :=
  let d0 := (ws.getD 0 0).toNat
  let d1 := (ws.getD 1 0).toNat
  let p := peerOf ws
  bits d0 46 8 != 0 || bits d0 3 0 != 0 || bits d1 31 16 != 0 || (ws.getD 2 0).toNat != 0 || (ws.getD 3 0).toNat != 0
    || p.sworld == 0 || decide (20 < p.sworld) || decide (65536 < p.first + p.count)
    || (p.count == 0) != (p.ls && !p.ra && !p.w && !p.r)

def execWsetPeer (d a b : Reg) (s : State) : Out :=
  polderCmd (.wsetPeer d a b) d a b s (fun s w x =>
    if x % 32 ≠ 0 then (s, 0x0F)
    else
      match cmdRecord s x 1 with
      | none => (s, 0x08)
      | some bs =>
        let ws := toWords bs 4
        let p := peerOf ws
        firstCode s
          [(badPeer ws, 0x05), (!(s.polder w).state.isOneOf [.forming, .live], 0x40),
           (p.count != 0 && NMap.find s.granules p.first != some w, 0x41), (decide (64 ≤ (s.polder w).peers.length), 0x45)]
          (endSessions (s.modPolder w (fun q => { q with peers := q.peers ++ [p] })) w))

/-! ### Keys (R347, R351) -/

def execWsealGenerate (d a b : Reg) (s : State) : Out :=
  polderCmd (.wsealGenerate d a b) d a b s (fun s w x =>
    firstCode s [(x != 0, 0x05), ((s.polder w).state != .forming, 0x40)]
      ((s.modPolder w (fun p => { p with
        keys := some (Config.randomKey s.free, Config.randomKey (s.free + 1), Config.randomKey (s.free + 2), true) })).tick.tick.tick))

/-- A 256-bit key from its bytes. -/
def keyOf (bs : List Byte) : BitVec 256 := BitVec.ofNat 256 (leNat bs)

def execWsealInstall (d a b : Reg) (s : State) : Out :=
  polderCmd (.wsealInstall d a b) d a b s (fun s w x =>
    if x % 64 ≠ 0 then (s, 0x0F)
    else
      match cmdRecord s x 3 with
      | none => (s, 0x08)
      | some bs =>
        firstCode s [((s.polder w).state != .forming, 0x40)]
          (s.modPolder w (fun p => { p with
            keys := some (keyOf (bs.take 32), keyOf ((bs.drop 32).take 32), keyOf ((bs.drop 64).take 32), false) })))

def execWsealDestroy (d a b : Reg) (s : State) : Out :=
  polderCmd (.wsealDestroy d a b) d a b s (fun s w x =>
    firstCode s [(x != 0, 0x05), (!(s.polder w).state.isOneOf [.draining, .free], 0x40)]
      (s.modPolder w (fun p => { p with keys := none })))

/-! ## Teardown (R353) -/

/-- A held store of another module for a polder that is gone. -/
def heldForGone (s : State) (d : DepStore) : Bool :=
  d.module != s.moduleNo && (match depAdmits s d with | .error c => c == 0x16 | .ok _ => false)

/-- The stores of other modules that are held for a polder which is gone are dropped, and answered so (R398). -/
def refuseHeld (s : State) : State :=
  (s.dies.flatMap (fun p => (p.2.sluice.filter (fun e => heldForGone s e.store)).map (fun e => (p.1, e)))).foldl (fun t q =>
    answer (dropSluiced t q.1 q.2) Config.latFabric q.2.store.from_ .gone 0) s

/-- The held stores that a polder issued are dropped and counted. -/
def dropHeld (s : State) (w : Nat) : State :=
  let own (e : Sluiced) : Bool := e.store.world == w && (match e.store.from_ with | .remote m _ _ _ _ => m == s.moduleNo | _ => true)
  (s.dies.flatMap (fun p => (p.2.sluice.filter own).map (fun e => (p.1, e)))).foldl (fun t q =>
    let t1 := (dropSluiced t q.1 q.2).modDie q.1 (fun d => { d with dropped := d.dropped + 1 })
    hatPost t1 q.1 0x04 0 (dieEndpoint t q.1) q.2.store.token (BitVec.ofNat 64 q.2.store.pa)) s

/-- The graph requests of a polder end with nothing more written; its waits at the rings go with their slots. -/
def dropGraphs (s : State) (w : Nat) : State :=
  let mine (r : CopyReq) : Bool := r.isGraph && r.world == w
  let hit := s.clusters.filter (fun p => p.2.kicks.any mine)
  hit.foldl (fun t p =>
    (t.modCluster p.1 (fun cl => { cl with kicks := cl.kicks.filter (fun r => !mine r) })).next1 (.copyKickTake p.1)) s

/-- The cores that run a polder's local time leave the mode, and its channels end. -/
def dropTime (s : State) (w : Nat) : State :=
  let left (co : Core) : Core :=
    let co1 := { co with outCh := co.outCh.map (fun o => o.filter (fun oc => oc.world != w)) }
    if co.ltWorld = some w then
      { co1 with ltWorld := none, clock := 0, bound := 0, inCh := Vector.replicate 8 none, outCh := Vector.replicate 8 none, events := [] }
    else co1
  let gone := (s.cores.filter (fun p => p.2.ltWorld == some w)).map (fun p => globalCore s p.1)
  { s with
    cores := s.cores.map (fun p => (p.1, left p.2))
    dies := s.dies.map (fun p => (p.1, { p.2 with floors := p.2.floors.filter (fun f => !gone.contains f.core) })) }

/-- Teardown takes effect. -/
def drainPolder (s : State) (w : Nat) : State :=
  let due := s.cycle + 2 * Config.packetLifetime
  let s1 := (s.modPolder w (fun p => { p with state := .draining, drain := due })).at_ due (.drainTimerExpiry w)
  let s2 := (List.range 8).foldl (fun t q => hardReset t w q) s1
  dropTime (withdrawContributions (dropHeld (refuseHeld (dropGraphs (discardTasks s2 w (fun _ => true)) w)) w) w) w

def execWsetDrain (d a b : Reg) (s : State) : Out :=
  polderCmd (.wsetDrain d a b) d a b s (fun s w x =>
    firstCode s [(x != 0, 0x05), (!(s.polder w).state.isOneOf [.live, .forming], 0x40)] (drainPolder s w))

/-! ## The end of a teardown (R354) -/

/-- The shares and mailboxes of a polder on every core. -/
def dropShares (s : State) (w : Nat) : State :=
  s.cores.foldl (fun t p =>
    match NMap.find p.2.shares w with
    | some r => setShare (clearShare t p.1 r.1 r.2) w p.1 0 0 0
    | none => if p.2.mail.toList.any (·.owner == some w) then setShare t w p.1 0 0 0 else t) s

/-- The rings of a polder. -/
def dropRings (s : State) (w : Nat) : State :=
  { s with clusters := s.clusters.map (fun p => (p.1, { p.2 with
      rings := p.2.rings.map (fun r => if r.world = w ∧ r.cap ≠ 0 then { r with cap := 0, waiting := [], config := [] } else r) })) }

/-- Teardown ends. -/
def freePolder (s : State) (w : Nat) : State :=
  let s1 := dropRings (dropShares { s with granules := s.granules.filter (·.2 != w) } w) w
  s1.modPolder w (fun p => { p with
    state := .free, peers := [], keys := none, drain := 0, cores := [], code := [], sessions := 0, mig := .none })

def execWsetFree (d a b : Reg) (s : State) : Out :=
  polderCmd (.wsetFree d a b) d a b s (fun s w x =>
    firstCode s [(x != 0, 0x05), ((s.polder w).state != .draining, 0x40), ((s.polder w).drain != 0, 0x44)] (freePolder s w))

/-- The drain timer runs out; a polder that has migrated is freed then (R365). -/
def execDrainTimerExpiry (world : Nat) (s : State) : Out :=
  let p := s.polder world
  if p.state = .draining ∧ p.drain ≤ s.cycle then
    .next (if p.mig = .erased then freePolder s world else s.modPolder world (fun p => { p with drain := 0 }))
  else .next s

/-! ## Registers of a virtual function (R364) -/

/-- A read of the fault register takes the next host-routed fault record; what it gives of one is free. -/
def execVfFaultRead (world : Nat) (s : State) : Out :=
  match (s.polder world).faults with
  | [] => .next { s with readOut := 0 }
  | _ :: r => .next ({ s.modPolder world (fun p => { p with faults := r }) with readOut := Config.freeWord s.free }).tick

/-- The queues whose bit a reset register's value sets. -/
def queueBits (value : Word) : List Nat := (List.range 8).filter value.toNat.testBit

/-- What a host's read of BAR0 gives beside the fault register, whose read is `execVfFaultRead`. -/
def vfRegister (s : State) (world off : Nat) : Word :=
  let p := s.polder world
  if off < 0x40 ∧ off % 8 = 0 then BitVec.ofNat 64 ((queueOf s world (off / 8)).tail)
  else if off = 0x40 then zext p.resetReg
  else if off = 0x48 then zext p.hresetReg
  else 0

/-- A write to BAR0: a tail, a reset register, or an offset that ignores it. -/
def execVfRegisterWrite (world off : Nat) (value : Word) (s : State) : Out :=
  if off < 0x40 ∧ off % 8 = 0 then execLaunchTailWrite world (off / 8) (value.toNat % 2 ^ 32) s
  else if off = 0x40 then .next ((queueBits value).foldl (fun t q => softReset t world q) s)
  else if off = 0x48 then .next ((queueBits value).foldl (fun t q => hardReset t world q) s)
  else .next s

end Sys2Proof.Machine
end

