-- ==== Sys2Proof/Machine/Loader.lean ====
section
/-! DEFINITION. The loader, which acts for world 0 and the host: sections, shares, mailboxes, the type table, rings,
the local-store image, channels, the core table and the launch record (01 R29 to R40; 06 R155, R156, R158; 08 R218;
12 R257; 14 R276; 21 R389). -/

namespace Sys2Proof.Machine

/-! ## Cores (R158, R218, R257, R389) -/

/-- A core of this module that a cluster number names (R3). -/
def coreExists (c : Nat) : Bool := decide (c < 524288) && decide (bits c 14 3 < Config.clustersPerDie)

/-- The share that a load gives a world on a core: all of the local store where no other world has one (R219); else the one
that the load names, in multiples of 64 within the local store and over no other world's (R158). None where there is no
such core, or the share may not be set. -/
def shareFor (s : State) (w : Nat) (x : Nat × Nat × Nat) : Option (Nat × Nat) :=
  let sh := (s.core x.1).shares
  if coreExists x.1 = false then none
  else
    match NMap.find sh w with
    | some r => some r
    | none =>
      if sh.isEmpty then some (0, Config.localStoreBytes)
      else if x.2.1 % 64 = 0 ∧ x.2.2 % 64 = 0 ∧ x.2.1 < x.2.2 ∧ x.2.2 ≤ Config.localStoreBytes
          ∧ sh.all (fun p => decide (x.2.2 ≤ p.2.1) || decide (p.2.2 ≤ x.2.1)) = true then some (x.2.1, x.2.2)
      else none

def shareOk (s : State) (w : Nat) (x : Nat × Nat × Nat) : Bool := (shareFor s w x).isSome

/-- The shares of a load, on cores where the world has none yet. -/
def placeShares (s : State) (p : Program) : State :=
  p.shares.foldl (fun t x =>
    match NMap.find (t.core x.1).shares p.world, shareFor t p.world x with
    | none, some r => setShare t p.world x.1 r.1 r.2 0
    | _, _ => t) s

/-- The core of another module in a polder's table. -/
def farKey (g : Nat) : Nat := 524288 + g

/-- The core that gets the next number: the first of a cluster, whole clusters first, then the next of the same cluster, so
that logical core 8c + j is core j of its cluster (R257). -/
def nextCore (cand cores : List Nat) : Option Nat :=
  if cores.length % 8 = 0 then
    let heads := cand.filter (fun c => c % 8 == 0 && !cores.contains c)
    (heads.find? (fun c => (List.range 8).all (fun j => cand.contains (c + j)))).orElse (fun _ => heads.head?)
  else (cores.getLast?).bind (fun c => if cand.contains (c + 1) && !cores.contains (c + 1) then some (c + 1) else none)

def numberFrom (cand : List Nat) : Nat → List Nat → List Nat
  | 0, cores => cores
  | n + 1, cores =>
    match nextCore cand cores with
    | some c => numberFrom cand n (cores ++ [c])
    | none => cores

/-- The polder's cores in logical order: the numbers given before stand, and the cores that have come since follow (R257). -/
def numberCores (s : State) (w : Nat) (far : List Nat) : List Nat :=
  let cand := (s.cores.filter (fun p => (NMap.find p.2.shares w).isSome)).map (·.1) ++ far.map farKey
  numberFrom cand cand.length (s.polder w).cores

/-- The number of a core among all cores of the fabric, from its key in a polder's table. -/
def tableCore (s : State) (c : Nat) : Nat := if isOwnCore c then globalCore s c else c - 524288

/-- A core where no other world holds a share has all its mailboxes assigned to the world. -/
def loadMail (w : Nat) (s : State) (c : Nat) : State :=
  if (s.core c).shares.all (·.1 == w) then s.modCore c (fun co => { co with mail := assignMail w 0xFFFF co.mail }) else s

/-- The core table. -/
def coreTable (s : State) (cores : List Nat) : List Byte :=
  let n := cores.length
  let dims := if n % 8 = 0 then 8 + n / 8 * 2 ^ 16 + 2 ^ 32 else n % 2 ^ 16 + 2 ^ 16 + 2 ^ 32
  wordBytes ([BitVec.ofNat 64 n, BitVec.ofNat 64 dims, 0, 0, 0, 0, 0, 0]
    ++ cores.map (fun c => BitVec.ofNat 64 (tableCore s c * 8)))

/-- The core table of `n` cores is mapped read-only at 0x2_0000, page by page (R389). -/
def tableMapped (s : State) (p : Program) (n : Nat) : Bool :=
  (List.range ((64 + 8 * n + 65535) / 65536)).all (fun i =>
    match devLeaf s (leadCluster s p.world p.queue) p.world (translatedBase + 65536 * i) with
    | .leaf l => !l.writable && targetOf s l (translatedBase + 65536 * i) == .home (p.corePa + 65536 * i)
    | _ => false)

/-- A section starts at a multiple of 64 KiB, or of its largest .align, above the core table (R32, R389). -/
def sectionPlaced (first end_ align n : Nat) : Bool :=
  decide (end_ ≤ first) || (first % Nat.max 65536 align == 0 && decide (translatedBase + (64 + 8 * n + 65535) / 65536 * 65536 ≤ first))

/-- The .data pages stand at the die that the home keyword names (R39). -/
def dataHomed (s : State) (p : Program) : Bool :=
  match p.home with
  | none => true
  | some d =>
    (List.range ((p.dataEnd - p.dataFirst + 65535) / 65536)).all (fun i =>
      match devTarget s (leadCluster s p.world p.queue) p.world (p.dataFirst + 65536 * i) false with
      | .ok pa => homeDie pa == d
      | .error _ => false)

/-- A program stands in memory as the loader places one: its sections, its .data pages and the core table. -/
def wellPlaced (s : State) (p : Program) (n : Nat) : Bool :=
  sectionPlaced p.textFirst p.textEnd p.textAlign n && sectionPlaced p.dataFirst p.dataEnd p.dataAlign n
    && dataHomed s p && tableMapped s p n

/-! ## Memory -/

/-- Write bytes of one world's memory at physical addresses; a granule that is not the world's takes nothing. -/
def loadBytes (w : Nat) (s : State) (x : Nat × List Byte) : State :=
  if ownerOf s x.1 = some w ∧ ownerOf s (x.1 + x.2.length - 1) = some w then
    match homeWrite s none x.1 x.2 with
    | .ok t => t
    | .error _ => s
  else s

/-! ## The type table (R35, R314, R315) -/

/-- An entry of a table of `n` entries in the polder's memory. -/
def tableEntry (s : State) (p : Program) (n i : Nat) : List Word :=
  let va := (s.polder p.world).tbase.toNat
  let old := if va = 0 ∨ n ≤ i then [] else
    match devBytes s (leadCluster s p.world p.queue) p.world (va + 32 + 32 * i) 32 with
    | .ok bs => toWords bs 4
    | .error _ => []
  if old = [] then [0, 0, 0, 0] else old

/-- The number of entries of the polder's table. -/
def tableCount (s : State) (p : Program) : Nat :=
  let va := (s.polder p.world).tbase.toNat
  if va = 0 then 0
  else
    match devBytes s (leadCluster s p.world p.queue) p.world va 8 with
    | .ok bs => leNat bs
    | .error _ => 0

/-- An identifier is present with a different entry. -/
def typeClash (s : State) (p : Program) : Bool :=
  let n := tableCount s p
  p.types.any (fun x =>
    let old := tableEntry s p n x.1
    old != [0, 0, 0, 0] && old != x.2)

/-- The table with a load's entries: in place where it is long enough, at a new place where it must grow. -/
def loadTypes (s : State) (p : Program) : State :=
  let n := tableCount s p
  let m := p.types.foldl (fun a x => Nat.max a (x.1 + 1)) n
  if p.types.isEmpty then s
  else if m = n then
    p.types.foldl (fun t x =>
      match devRelease t (leadCluster t p.world p.queue) p.world ((t.polder p.world).tbase.toNat + 32 + 32 * x.1) (wordBytes x.2) with
      | .ok u => u
      | .error _ => t) s
  else
    let entry (i : Nat) : List Word := match p.types.find? (·.1 == i) with | some x => x.2 | none => tableEntry s p n i
    let ws := [BitVec.ofNat 64 m, 0, 0, 0] ++ (List.range m).flatMap entry
    let s1 := loadBytes p.world s (p.tablePa, wordBytes ws)
    let s2 := s1.modPolder p.world (fun q => { q with tbase := BitVec.ofNat 64 p.tableVa })
    (List.range (m / 8 + 1)).foldl (fun t i =>
      publishHome t (p.tablePa + 256 * i) p.world (bytesSig t.moduleNo (p.tablePa + 256 * i) (Nat.min 256 (32 * (m + 1) - 256 * i)))) s2

/-! ## Rings (R37) -/

/-- The configuration word of a ring. -/
def ringWord (x : Nat × Nat × Nat × Nat) : Word :=
  let cap := if x.2.2.2 = 0 then 0 else x.2.2.1 / x.2.2.2
  BitVec.ofNat 64 (cap * 2 ^ 17 + x.2.2.2 / 64 * 2 ^ 10 + x.2.1 / 256)

/-- Set the rings of a load in one cluster; none where the cluster refuses one. -/
def loadRings (w cl : Nat) : List (Nat × Nat × Nat × Nat) → State → Option State
  | [], s => some s
  | x :: xs, s =>
    match ringConfig (s.cluster cl) x.1 w (ringWord x) with
    | .ok r => loadRings w cl xs (modRing s cl x.1 (fun _ => r))
    | .error _ => none

def loadAllRings (p : Program) : List Nat → State → Option State
  | [], s => some s
  | cl :: cls, s => (loadRings p.world cl p.rings s).bind (loadAllRings p cls)

/-! ## The local-store image (R155, R156) -/

/-- The image reaches past the world's share on a core. -/
def imageMisfits (s : State) (p : Program) (c : Nat) : Bool :=
  match NMap.find (s.core c).shares p.world with
  | some r => !p.lstore.isEmpty && (r.1 != 0 || decide (r.2 < p.lstore.length))
  | none => true

/-- Write the image of a launch on a core, its words full (R156). An LDS that waits for one of the words is released as by a
store that sets it full; mark DEDUCED (log entry 110). -/
def loadImage (p : Program) (s : State) (c : Nat) : State :=
  if p.lstore.isEmpty then s
  else
    let s1 := lsStore s c (List.range p.lstore.length) p.lstore
    (List.range ((p.lstore.length + 7) / 8)).foldl (fun t w => setFe t c w true) s1

/-! ## Channels (R38) -/

/-- What the source of a channel answers; of a core of another module that answer is free. -/
def sourceAnswers (s : State) (src dst k w : Nat) : Nat :=
  if isOwnCore src then declareCode s src dst k w else Config.farDeclares s.free

/-- Declare channel `k` of a core; its two ends stand where they are cores of this module. -/
def loadChannel (s : State) (w c k src f : Nat) : State :=
  let ch : InChan := { src := tableCore s src * 8, f := f, m := 0, declared := true, ctx := 0, reg := 0 }
  let s1 := if isOwnCore c then (ltEnter s c w).modCore c (fun co => setIn co k (some ch)) else s
  if isOwnCore src then
    s1.modCore src (fun co => enterChannel co { core := tableCore s c, k := k, f := f, seq := 0, world := w })
  else s1.tick

/-- Declare the channels of a load, with the effect of CHDCL; the code where one is refused. -/
def loadChannels (w : Nat) (cores : List Nat) : List (Nat × Nat × Nat × Nat) → State → Except Nat State
  | [], s => .ok s
  | x :: xs, s =>
    match cores[x.1]?, cores[x.2.2.1]? with
    | some c, some src =>
      let f := x.2.2.2
      if f = 0 ∨ 2 ^ 20 < f ∨ (isOwnCore c = true ∧ (redeclares (s.core c) x.2.1 = true ∨ ltHeld (s.core c) w = true)) then .error 0x08
      else
        let code := sourceAnswers s src (tableCore s c) x.2.1 w
        if code ≠ 0 then .error code else loadChannels w cores xs (loadChannel s w c x.2.1 src f)
    | _, _ => .error 0x08

/-! ## The load -/

/-- The cores of a launch's range. -/
def loadRange (p : Program) (cores : List Nat) : List Nat :=
  let w := (p.record.getD 4 0).toNat
  let last := if bits w 50 32 = 0x7FFFF then cores.length - 1 else bits w 50 32
  (cores.drop (bits w 18 0)).take (last + 1 - bits w 18 0)

/-- The range names a core of a module that no valid path leads to from the launch's leader (R390). -/
def unreachable (s : State) (p : Program) (range : List Nat) : Bool :=
  range.any (fun c => !isOwnCore c && !hasPath s (queueOf s p.world p.queue).leader (tableCore s c / 524288))

/-- Where the next record of a queue stands. -/
def recordPlace (s : State) (p : Program) : Nat :=
  let q := queueOf s p.world p.queue
  q.base + 64 * (q.tail % Nat.max 1 q.size)

/-- The launch record as the host writes it: its state byte is 0 (R277). -/
def loadRecord (s : State) (p : Program) : State :=
  match devWrite s (leadCluster s p.world p.queue) p.world (recordPlace s p) (setAt (wordBytes p.record) 14 0) with
  | .ok t => t
  | .error _ => s

/-- A launch that the loader refuses: its record is never published; the device sets it REFUSED, with a release at .mod, and
it is reported with a code (R277, R278). -/
def loadRefused (s : State) (p : Program) (code : Nat) : State :=
  launchReport (writeState (loadRecord s p) p.world p.queue (recordPlace s p) .refused) p.world p.queue (recordPlace s p) code

/-- What a load sets up before its record is published; the code where the launch is refused. -/
def loadParts (s : State) (p : Program) : Except Nat State :=
  let s1 := placeShares s p
  let cores := numberCores s1 p.world p.far
  let range := loadRange p cores
  let own := range.filter isOwnCore
  if unreachable s p range = true ∨ typeClash s1 p = true ∨ own.any (imageMisfits s1 p) = true then .error 0x08
  else
    let s2 := own.foldl (loadMail p.world) s1
    let s3 := loadBytes p.world s2 (p.corePa, coreTable s2 cores)
    let s4 := loadTypes (s3.modPolder p.world (fun q => { q with
      cores := cores, code := q.code ++ [(p.textFirst, p.textEnd)], hvec := p.handler })) p
    match loadAllRings p (own.map clusterOfCore).eraseDups s4 with
    | none => .error 0x08
    | some s5 => loadChannels p.world cores p.channels (own.foldl (loadImage p) s5)

/-- Publish the launch record of a load. -/
def loadPublish (s : State) (p : Program) : State :=
  (modQueue (loadRecord s p) p.world p.queue (fun x => { x with tail := (x.tail + 1) % 2 ^ 32, stopped := false })).next1
    (.launchRecordRead p.world p.queue)

/-- What a load places in memory: its sections and page tables. -/
def loadImages (s : State) (p : Program) : State :=
  (p.images.foldl (loadBytes p.world) s).modPolder p.world (fun x => { x with ptbase := BitVec.ofNat 64 p.root })

/-- Place a linked program and publish its launch record. An argument whose sections or core table do not stand as the loader
places them (R29, R32, R39, R389) describes no load, and leaves the machine as it is. -/
def execProgramLoad (p : Program) (s : State) : Out :=
  let s0 := loadImages s p
  if (s.polder p.world).state ≠ .live ∨ (queueOf s p.world p.queue).configured = false
      ∨ wellPlaced s0 p (numberCores (placeShares s p) p.world p.far).length = false then .next s
  else if p.shares.all (shareOk s p.world) = false then .next (loadRefused s p 0x08)
  else
    match loadParts s0 p with
    | .error code => .next (loadRefused s0 p code)
    | .ok s1 => .next (loadPublish s1 p)

end Sys2Proof.Machine
end

