-- ==== Sys2Proof/Machine/Replies.lean ====
section
/-! DEFINITION. Replies to requests that have left a slot, an engine or the die, the timeouts of such requests and the
quarantine of their tags (08 R198; 19 R353; 21 R382). -/

namespace Sys2Proof.Machine

/-! ## A reply to a waiting context -/

/-- The ordering of a FENCE holds: it has its effect and its bundle commits (R106, R272, R310). -/
def fenceReply (s : State) (c num : Nat) (r : MemReq) : State :=
  match ctxOf s c num with
  | none => s
  | some sl =>
    if r.w = 1 then
      if sl.outstanding ≠ 0 then s
      else finishCtx (flushWorld (fenceEffect s c num r) (clusterOfCore c) sl.world) c num id
    else finishCtx (fenceEffect s c num r) c num id

/-- The parked access of a context takes a reply, or goes on with its next step. -/
def memReply (s : State) (c num : Nat) (r : MemReq) (p : Reply) (sig : Sig) : State :=
  let go : State := accessReply (flushSttk s c num) c num r p sig
  let read : Bool := r.asked == 0 && !r.segs.isEmpty && decide (r.segs.length ≤ r.pos)
  match r.op with
  | .fence => fenceReply s c num r
  | .tyield => drainReply s c num r
  | .tdone => if r.phase = 2 ∧ r.pos < r.vas.length then go else drainReply s c num r
  | .qpush => if r.chunks.isEmpty then qpushDone s c num r else s
  | .xred => if read then xredGo s c num r else go
  | .sttk => if r.segs.isEmpty then go else tokenStoreGo s c num r
  | .ld | .st | .lds | .stf | .ldp | .sfe | .vld | .vst | .vldd | .amo | .vldt | .vldx | .vstx | .gstat => go

/-- The access that a context waits for. -/
def waitsFor (s : State) (c num : Nat) : Option MemReq :=
  match (ctxOf s c num).map Slot.wait with
  | some (.mem r) => some r
  | _ => none

/-- Nothing is delivered to a context of a polder that is being torn down (R353). -/
def ctxGone (s : State) (c num : Nat) : Bool :=
  match ctxOf s c num with
  | some sl => (s.polder sl.world).state == .draining
  | none => true

def ctxReply (s : State) (c num : Nat) (p : Reply) (sig : Sig) : State :=
  if ctxGone s c num then dropCompletion s c num 0
  else
    match waitsFor s c num with
    | some r => memReply s c num r p sig
    | none => s

/-! ## Replies by requester -/

/-- The status that a token register takes of a reply (R214). -/
def tokenCode (p : Reply) : Nat :=
  match p with
  | .status k => k
  | .fault c _ => unitCode c
  | .gone => 0x03
  | .data _ | .done | .home => 0

/-- The reply that leaves for a requester of another module (R376, R377, R383). -/
def replyPacket (s : State) (m d i g here : Nat) (p : Reply) (sig : Sig) : Option Packet :=
  let src := dieEndpoint s here
  let dst := m * 4194304 + d * 262144
  let status (typ k : Nat) : Packet := mkPacket s typ 1 0 src dst i g 0 (BitVec.ofNat 64 k) []
  match p with
  | .data bs =>
    some (mkPacket s 0x04 1 0 src dst i g (BitVec.ofNat 64 (sizeCode bs.length * 2 ^ 48)) 0
      (flitOf bs ++ (if sig = 0 then [] else toWords (toLe sig.toNat 64) 8)))
  | .done => some (status 0x05 0)
  | .fault c _ => some (status 0x05 (unitCode c))
  | .gone => some (status 0x05 0x0B)
  | .status k => some (status (if k = 0x60 ∨ k = 0x61 then 0x05 else 0x08) k)
  | .home => none

/-- A launch queue that waited for the walk of its next record's page goes on, or stops there (R276, R302). -/
def queueReply (s : State) (world queue : Nat) (p : Reply) : State :=
  match p with
  | .fault c _ => recordFault s world queue (queueOf s world queue).at_ c
  | .done | .data _ | .home | .gone | .status _ => s.next1 (.launchRecordRead world queue)

/-- A reply for a requester whose tag, if any, is dealt with. -/
def replyTo (s : State) (rcv : ReplyTo) (p : Reply) (sig : Sig) : State :=
  match rcv with
  | .ctx c num => ctxReply s c num p sig
  | .token c n reg => completeCtx s c n reg (BitVec.ofNat 64 (tokenCode p)) sig
  | .copy cl id =>
    match reqOf s cl id with
    | some r => if r.isGraph then graphReply s cl r p else copyReply s cl r p
    | none => s
  | .job cl id => jobReply s cl id p
  | .sttk die world gen seq => sttkReply s die world gen seq p
  | .dep c n t => depReply s c n t p
  | .xred c n reg record acq => xredReply s c n reg record acq p sig
  | .redWrite core id => redWriteReply s core id p
  | .remote m d i g here =>
    match replyPacket s m d i g here p sig with
    | some pk => (sendPacket s here pk).getD s
    | none => s
  | .fill die id => fillReply s die id p
  | .queue world queue => queueReply s world queue p
  | .counter cluster world m pa n => counterReply s cluster world m pa n p
  | .dest cl id => destReply s cl id p
  | .thief _ _ | .tag _ _ _ | .none => s

/-- A dependent store to another module has been performed there: its sectors go into its issuer's accumulator (R268). -/
def depSent (s : State) (die idx : Nat) (p : Reply) : State :=
  match NMap.find (s.die die).sentDeps idx, p with
  | some d, .done =>
    match senderOf s d.from_ with
    | some (c, num) =>
      match (getTag s die idx).use with
      | .live _ m _ => if d.target.isNone ∧ m ≠ s.moduleNo then s.modCtx c num (·.addAcc (bytesSig m d.pa d.data.length)) else s
      | _ => s
    | none => s
  | _, _ => s

/-- A reply that names a tag: it needs a live one of that generation, and frees it; a context takes it only for the
access that drew the tag, and keeps the tag of an access that its home performs now until that has been done. -/
def tagReply (s : State) (die idx gen : Nat) (p : Reply) (sig : Sig) : State :=
  match liveTag s die idx gen with
  | none => lateReply s die idx gen
  | some (.ctx c num) =>
    match waitsFor s c num with
    | some r =>
      if r.tag = some (idx, gen) then ctxReply (if p = .home then s else freeTag s die idx) c num p sig
      else dropCompletion (freeTag s die idx) c num 0
    | none => dropCompletion (freeTag s die idx) c num 0
  | some who =>
    replyTo ((freeTag (depSent s die idx p) die idx).modDie die (fun d => { d with sentDeps := NMap.erase d.sentDeps idx })) who p sig

/-- A reply arrives (R198, R382). -/
def execRemoteReply (rcv : ReplyTo) (r : Reply) (sig : Sig) (s : State) : Out :=
  match rcv with
  | .tag die idx gen => .next (tagReply s die idx gen r sig)
  | w => .next (replyTo s w r sig)

/-! ## Timeouts (R382) -/

/-- A declaration that has timed out leaves no input channel. -/
def dropDeclared (s : State) (c num reg : Nat) : State :=
  s.modCore c (fun co => { co with
    inCh := co.inCh.map (fun x => x.filter (fun ch => ch.declared || ch.ctx != num || ch.reg != reg)) })

/-- The failure of a request that has had no reply. -/
def timedOut (s : State) (die idx gen : Nat) (who : ReplyTo) : State :=
  match who with
  | .ctx c num =>
    match waitsFor s c num with
    | some r =>
      if r.tag = some (idx, gen) then
        let r1 := { r with tag := none }
        accessReply (setReq s c num r1) c num r1 (.fault 0x15 0) 0
      else dropCompletion s c num 0
    | none => dropCompletion s c num 0
  | .token c n reg => completeCtx (dropDeclared s c n reg) c n reg 0x04 0
  | .thief core world => s.next1 (.stealReplyArrival core ⟨world, none⟩)
  | w => replyTo (s.modDie die (fun d => { d with sentDeps := NMap.erase d.sentDeps idx })) w (.fault 0x15 0) 0

/-- A request's time is up: it fails, and its tag is quarantined. -/
def execRemoteTimeout (die idx gen : Nat) (s : State) : Out :=
  let t := getTag s die idx
  match t.use with
  | .live who _ deadline =>
    if t.gen = gen ∧ deadline ≤ s.cycle then
      let due := s.cycle + 2 * Config.packetLifetime
      let s1 := (setTag s die idx { t with use := .quarantine due }).at_ due (.tagQuarantineEnd die idx)
      .next (timedOut s1 die idx gen who)
    else .next s
  | _ => .next s

/-- The end of a quarantine: the tag returns to the pool under its next generation. -/
def execTagQuarantineEnd (die idx : Nat) (s : State) : Out :=
  let t := getTag s die idx
  match t.use with
  | .quarantine due =>
    if due ≤ s.cycle then .next (freeTag (setTag s die idx { t with gen := (t.gen + 1) % 256 }) die idx) else .next s
  | _ => .next s

end Sys2Proof.Machine
end

