-- ==== Sys2Proof/Machine/Steward.lean ====
section
/-! DEFINITION. The steward: resets and the boot chain, its messages, function-level resets, migration and alarms
(19 R355; 20 R356 to R367). -/

namespace Sys2Proof.Machine

/-- A word sent to the board management controller. -/
def boardReport (s : State) (w : Word) : State := { s with steward := { s.steward with reports := s.steward.reports ++ [w] } }

/-! ## Resets and the boot chain (R358 to R360) -/

/-- Whether a stage's image verifies: its signature, and its security version against the fused minimum. -/
def stageVerifies (st : Steward) (stage : Nat) : Bool :=
  Config.imageVerifies stage st.boots && decide ((NMap.find st.fuses stage).getD 0 ≤ Config.imageVersion stage st.boots)

/-- The stages from `stage` on, `n` of them: each is verified and measured before it runs, and a failure stops the
boot, recorded and reported. -/
def bootFrom (stage : Nat) : Nat → State → State
  | 0, s => { s with steward := { s.steward with booted := true } }
  | n + 1, s =>
    if stageVerifies s.steward stage then
      bootFrom (stage + 1) n { s with steward := { s.steward with
        bootStage := stage, measurements := s.steward.measurements ++ [Config.imageDigest stage s.steward.boots] } }
    else
      boardReport (hatPost s 0 0x0C 0 (dieEndpoint s 0) (BitVec.ofNat 64 stage) 0) (BitVec.ofNat 64 stage)

/-- Boot from the ROM: the steward firmware, the copy-hart microcode and the die configuration follow. -/
def boot (s : State) : State :=
  bootFrom 1 3 { s with steward := { s.steward with
    booted := false, bootStage := 0, boots := s.steward.boots + 1, measurements := [Config.imageDigest 0 (s.steward.boots + 1)] } }

/-- The state that every reset starts from: only the fuse bank stays. The counters of free values and of boots go on,
so that nothing drawn before is drawn again. -/
def cleared (s : State) : State :=
  { State.reset with
    moduleNo := s.moduleNo, free := s.free, nextId := s.nextId
    steward := { Steward.reset with boots := s.steward.boots, fuses := s.steward.fuses } }

def execColdReset (s : State) : Out := .next (boot (cleared s))

/-- The state that a warm reset starts from: the hatboxes and the generations stay too. -/
def warmCleared (s : State) : State :=
  { cleared s with
    dies := s.dies.map (fun p => (p.1, { Die.reset with hatbox := p.2.hatbox }))
    polders := s.polders.map (fun p => (p.1, { Polder.reset with gen := p.2.gen })) }

def execWarmReset (s : State) : Out := .next (boot (warmCleared s))

/-- Function-level reset of the physical function is a warm reset (R364). -/
def execPfFunctionLevelReset (s : State) : Out := .next (boot (warmCleared s))

/-- The board management controller has a stage's minimum raised (R359). -/
def execFuseMinimumRaise (stage version : Nat) (s : State) : Out :=
  .next { s with steward := { s.steward with
    fuses := NMap.set s.steward.fuses stage (Nat.max version ((NMap.find s.steward.fuses stage).getD 0)) } }

/-- Function-level reset of a virtual function (R355). -/
def execVfFunctionLevelReset (world : Nat) (s : State) : Out :=
  let s1 := (List.range 8).foldl (fun t q => modQueue (hardReset t world q) world q (fun x => { x with read := 0, tail := 0 })) s
  .next (withdrawContributions s1 world)

/-! ## The steward's own errors and its messages (R356, R357, R361, R362) -/

def execStewardSramError (addr : Nat) (s : State) : Out :=
  .next (boardReport (hatPost s 0 0x05 0 (dieEndpoint s 0) (BitVec.ofNat 64 addr) 0) (BitVec.ofNat 64 addr))

def execStewardWatchdogExpiry (s : State) : Out :=
  .next (boardReport (hatPost s 0 0x02 0 (dieEndpoint s 0) 0 0) 0)

/-- MCTP control messages are answered; a type that is not served gets an unsupported-type error. What an answer holds
is free. -/
def execMctpControlMessage (typ : Nat) (body : List Word) (s : State) : Out :=
  if typ = 0 then .next ({ s with readOut := Config.freeWord (s.free + body.length) }).tick
  else .next (boardReport s (BitVec.ofNat 64 (0xFF00 + typ % 256)))

/-- Sensors, alarms and the hatbox, in the form of another standard: what an answer holds is free. -/
def execPldmMessage (body : List Word) (s : State) : Out := .next ({ s with readOut := Config.freeWord (s.free + body.length) }).tick

/-- The canonical list of a polder's configuration: gen, granules, shares by core, peer entries. -/
def polderConfig (s : State) (w : Nat) : List Word :=
  let nat (n : Nat) : Word := BitVec.ofNat 64 n
  let p := s.polder w
  nat p.gen :: ((s.granules.filter (·.2 == w)).map (fun g => nat g.1)
    ++ s.cores.flatMap (fun c => match NMap.find c.2.shares w with | some r => [nat c.1, nat r.1, nat r.2] | none => [])
    ++ p.peers.flatMap (fun e => [nat e.smod, nat e.sworld,
        nat ((if e.ls then 8 else 0) + (if e.ra then 4 else 0) + (if e.w then 2 else 0) + (if e.r then 1 else 0)), nat e.count, nat e.first]))

/-- A measurement that a responder answers with: the first word of its value (R358, R362). -/
def measurement (s : State) (fn idx : Nat) : Word :=
  let p := s.polder fn
  if 1 ≤ idx ∧ idx ≤ 3 then (((s.steward.measurements[idx - 1]?).getD []).head?).getD 0
  else if fn = 0 then 0
  else if idx = 4 then Config.configDigest (polderConfig s fn)
  else if idx = 5 then (p.orchestrator.head?).getD 0
  else if idx = 6 then
    match p.keys with
    | some k => if k.2.2.2 then 3 else 1
    | none => 0
  else 0

/-- The responder of a function answers: a measurement, a session opened or ended, or what the standard states
otherwise. The request code stands in bits [15:8] of the first dword, its second parameter in [31:24]. -/
def execSpdmRequest (fn : Nat) (body : List Word) (s : State) : Out :=
  let d := ((body.head?).getD 0).toNat
  let code := bits d 15 8
  let sess (f : Nat → Nat) : State :=
    if fn = 0 then { s with steward := { s.steward with sessions0 := f s.steward.sessions0 } }
    else s.modPolder fn (fun p => { p with sessions := f p.sessions })
  if 20 < fn then .next s
  else if code = 0xE0 then .next { s with readOut := measurement s fn (bits d 31 24) }
  else if code = 0xE4 then .next ({ sess (· + 1) with readOut := Config.freeWord s.free }).tick
  else if code = 0xEC then .next (sess (· - 1))
  else .next ({ s with readOut := Config.freeWord s.free }).tick

/-! ## Migration (R365, R366) -/

/-- A migration event of a polder, in the hatbox and to the board. -/
def migNote (s : State) (w step : Nat) : State :=
  boardReport (hatPost s 0 0x0C 0 (dieEndpoint s 0) (BitVec.ofNat 64 w) (BitVec.ofNat 64 step)) (BitVec.ofNat 64 (w + 256 * step))

def setMig (s : State) (w : Nat) (m : MigState) : State := s.modPolder w (fun p => { p with mig := m })

/-- PREPARE: the source quiesces its polder; the destination forms one and answers with its encapsulation key. -/
def execMigrationPrepare (world : Nat) (source : Bool) (s : State) : Out :=
  let p := s.polder world
  if source then
    if p.state = .live ∧ p.mig = .none then
      .next (migNote ((List.range 8).foldl (fun t q => hardReset t world q) (setMig s world .prepared)) world 1)
    else .next s
  else if p.state = .free then
    .next (migNote ({ setMig (polderForm s world) world .prepared with readOut := Config.freeWord s.free }).tick world 1)
  else .next s

/-- The lines of a TRANSFER: each a physical address of the destination and eight dwords. -/
def takeLines (w : Nat) (s : State) : Nat → List Word → State
  | 0, _ => s
  | n + 1, ws =>
    match ws with
    | [] => s
    | a :: r =>
      let pa := a.toNat / 64 * 64
      let s1 := if ownerOf s pa = some w then (match homeWrite s none pa (wordBytes (r.take 8)) with | .ok t => t | .error _ => s) else s
      takeLines w s1 n (r.drop 8)

/-- TRANSFER: the source sends; the destination installs the keys that it unwraps, and takes the lines. -/
def execMigrationTransfer (world : Nat) (m : MigMsg) (s : State) : Out :=
  let p := s.polder world
  if p.mig ≠ .prepared then .next s
  else if p.state = .live then .next (migNote (setMig s world .transferring) world 2)
  else if p.state = .forming then
    let ss := Config.mlkemShared m.key
    let key (n : Nat) : BitVec 256 := Config.unwrapKey ss m.sig n
    let s1 := (setMig s world .transferring).modPolder world (fun p => { p with keys := some (key 0, key 1, key 2, false) })
    .next (migNote (takeLines world s1 m.body.length m.body) world 2)
  else .next s

/-- Cycles of a recovery window at 700 MHz (R6). -/
def windowCycles (p : Polder) : Nat := p.windowSecs * 700000000

/-- STAGED: the destination sends its receipt, and holds the polder. -/
def execMigrationReceipt (world : Nat) (s : State) : Out :=
  let p := s.polder world
  if p.state = .forming ∧ p.mig = .transferring then
    .next ((migNote (setMig s world .staged) world 3).at_ (s.cycle + windowCycles p) (.recoveryWindowExpiry world))
  else .next s

/-- A message's signature, over its body, under the key that it names. -/
def validSig (m : MigMsg) : Bool := Config.mldsaVerify m.key m.body m.sig

/-- ERASE: on a valid receipt the source destroys the keys, reclaims the granules and tears the polder down; it is
freed when its drain timer has run out. -/
def execMigrationErase (m : MigMsg) (s : State) : Out :=
  let p := s.polder m.world
  if p.state = .live ∧ p.mig = .transferring ∧ validSig m = true then
    let s1 := drainPolder s m.world
    let s2 := { s1 with granules := s1.granules.filter (·.2 != m.world) }
    .next (migNote (s2.modPolder m.world (fun p => { p with keys := none, mig := .erased })) m.world 4)
  else .next s

/-- A message of the orchestrator, or one that is refused and counted. -/
def fromOrchestrator (s : State) (m : MigMsg) (k : Out) : Out :=
  if m.key = (s.polder m.world).orchestrator ∧ validSig m = true then k
  else .next (s.modPolder m.world (fun p => { p with refusedSigs := p.refusedSigs + 1 }))

/-- The answer of a responder whose polder is not in a state for the message: a state error. -/
def stateError (s : State) (w : Nat) : State := boardReport s (BitVec.ofNat 64 (w + 256 * 0xFF))

/-- The destination holds a staged polder. -/
def MigState.held (m : MigState) : Bool := m == .staged || m == .orphaned

/-- The recovery window of a polder is over. -/
def endWindow (s : State) (w : Nat) : State :=
  { s with agenda := s.agenda.filter (fun p => match p.2 with | .recoveryWindowExpiry x => x != w | _ => true) }

/-- COMMIT: the staged polder is LIVE. -/
def execMigrationCommit (m : MigMsg) (s : State) : Out :=
  fromOrchestrator s m <|
    let p := s.polder m.world
    if p.state = .forming ∧ p.mig.held = true then
      .next (migNote (wakeQueues ((endWindow s m.world).modPolder m.world (fun p => { p with state := .live, mig := .none })) m.world) m.world 5)
    else .next (stateError s m.world)

/-- ABORT: the source's queues go on, or the destination drains its copy, and destroys a staged one's keys. -/
def execMigrationAbort (m : MigMsg) (source : Bool) (s : State) : Out :=
  fromOrchestrator s m <|
    let p := s.polder m.world
    if source then
      if p.state = .live ∧ p.mig ≠ .none then .next (migNote (wakeQueues (setMig s m.world .none) m.world) m.world 6)
      else .next (stateError s m.world)
    else if p.state = .forming ∧ p.mig ≠ .none then
      let s1 := setMig (drainPolder (endWindow s m.world) m.world) m.world .none
      .next (migNote (if p.mig.held then s1.modPolder m.world (fun p => { p with keys := none }) else s1) m.world 6)
    else .next (stateError s m.world)

/-- A recovery window ends: reported, and the polder is held for a further one. -/
def execRecoveryWindowExpiry (world : Nat) (s : State) : Out :=
  let p := s.polder world
  if p.state = .forming ∧ p.mig.held = true then
    .next ((migNote (setMig s world .orphaned) world 7).at_ (s.cycle + windowCycles p) (.recoveryWindowExpiry world))
  else .next s

/-! ## Alarms (R116, R367) -/

/-- The polders with a core on a die. -/
def poldersOn (s : State) (die : Nat) : List Nat :=
  ((s.cores.filter (fun p => dieOfCore p.1 == die)).flatMap (fun p => p.2.shares.map (·.1))).eraseDups.filter (· != 0)

/-- An alarm on some dies: notices to every context of the polders there, hatbox records, and a report. -/
def alarm (s : State) (dies : List Nat) (kind : Nat) : State :=
  let ws := dies.flatMap (poldersOn s)
  let v : Word := BitVec.ofNat 64 kind
  let mark (sl : Slot) : Slot := if sl.state ≠ .empty ∧ ws.contains sl.world = true then { sl with alarm := some v } else sl
  let markE (e : CtxEntry) : CtxEntry := { e with slot := mark e.slot }
  let s1 := { s with
    slots := s.slots.map (fun p => (p.1, mark p.2))
    clusters := s.clusters.map (fun p => (p.1, { p.2 with cache := p.2.cache.map markE, spilled := p.2.spilled.map markE })) }
  boardReport (dies.foldl (fun t d => hatPost t d 0x07 0 (dieEndpoint t d) 0 v) s1) v

def execThermalWarning (die : Nat) (s : State) : Out := .next (alarm s [die] 1)

def execSupplyDroopWarning (s : State) : Out := .next (alarm s (List.range Config.dies) 2)

def execCoolantFlowWarning (s : State) : Out := .next (alarm s (List.range Config.dies) 3)

/-- Thermal trip: the pin is asserted, and no notice is raised. -/
def execThermalTrip (die : Nat) (s : State) : Out :=
  let s1 := boardReport (hatPost s die 0x07 0 (dieEndpoint s die) 0 4) 4
  .next { s1 with steward := { s1.steward with tripPin := true } }

end Sys2Proof.Machine
end

