-- ==== Sys2Proof/Machine/Walk.lean ====
section
/-! DEFINITION. The miss table of a die and its walkers (15 R301 to R304). -/

namespace Sys2Proof.Machine

/-- The waiters of an entry, and a further one. -/
def MissEntry.join (e : MissEntry) (n cl : Nat) (w : ReplyTo) : MissEntry := { e with waiters := e.waiters ++ [(n, cl, w)] }

/-- The oldest miss of a cluster joins its entry or takes a new one; a cluster with eight entries and a full
table wait (R301). -/
def admitOne (s : State) (cluster : Nat) : Option State :=
  let die := dieOfCluster cluster
  match (s.cluster cluster).missQueue with
  | [] => none
  | (world, va, w) :: rest =>
    let d := s.die die
    let key := missKey va
    let s1 := s.freshId.modCluster cluster (fun c => { c with missQueue := rest })
    if d.miss.any (fun e => e.world == world && e.key == key) then
      some (s1.modDie die (fun d => { d with
        miss := d.miss.map (fun e => if e.world = world ∧ e.key = key then e.join s.nextId cluster w else e) }))
    else if (d.miss.filter (·.cluster == cluster)).length < 8 ∧ d.miss.length < 1024 then
      let e : MissEntry :=
        { world := world, key := key, va := va, cluster := cluster, walker := none, stale := false,
          waiters := [(s.nextId, cluster, w)] }
      some ((s1.modDie die (fun d => { d with missTurn := cluster % 4096, miss := d.miss ++ [e] })).next1 (.pageWalk die))
    else none

def execMissTableAdmit (cluster : Nat) (s : State) : Out :=
  match admitOne s cluster with
  | none => .next s
  | some t => .next (if (t.cluster cluster).missQueue.isEmpty then t else t.next1 (.missTableAdmit cluster))

/-- The clusters of a die that hold misses, from the one behind the turn on, round the die (R301). -/
def missClusters (s : State) (die : Nat) : List Nat :=
  let cls := (s.clusters.filter (fun p => dieOfCluster p.1 == die && !p.2.missQueue.isEmpty)).map (·.1)
  let turn := (s.die die).missTurn
  cls.filter (fun c => decide (turn < c % 4096)) ++ cls.filter (fun c => decide (c % 4096 ≤ turn))

/-- Admit misses round-robin over the clusters of a die while one can be admitted (R301), at most `n`. -/
def admitRound (s : State) (die : Nat) : Nat → State
  | 0 => s
  | n + 1 =>
    match (missClusters s die).findSome? (admitOne s) with
    | some t => admitRound t die n
    | none => s

def admitAll (s : State) (die : Nat) : State :=
  admitRound s die (((s.clusters.filter (fun p => dieOfCluster p.1 == die)).map (·.2.missQueue.length)).foldl (· + ·) 0)

/-- A free walker takes the oldest entry that has none (R301); the walkers do not walk for a polder whose
walks are the steward's (R304). -/
def execPageWalk (die : Nat) (s : State) : Out :=
  let d := s.die die
  match freeWalker d, d.miss.find? (fun e => e.walker.isNone && !walksBySteward s e.world) with
  | some w, some e =>
    .next ((s.modDie die (fun d => { d with
      miss := d.miss.map (fun x => if x.world = e.world ∧ x.key = e.key then { x with walker := some w } else x) })).later
        Config.latWalk (.pageWalkDone die w))
  | _, _ => .next s

/-- A waiter of a miss goes on: an access or a fetch of a context is translated again, and every other requester asks
again (R302). -/
def resumeMiss (s : State) (w : ReplyTo) : State :=
  match w with
  | .ctx c num =>
    match (ctxOf s c num).map Slot.wait with
    | some (.mem r) => if r.segs.isEmpty then retryAccess s c num r else s
    | some (.fetch _) => match ctxSlot s c num with | some k => s.next1 (.icacheFill k) | none => s
    | _ => s
  | w => s.next1 (.remoteReply w .done 0)

/-- The fault of a walk with the value that a trap reports: a page fault names the address itself (R299, R302). -/
def walkCause (va : Nat) : WalkResult → Nat × Nat
  | .malformed pa => (0x08, pa)
  | .integrity l => (0x12, l * 64)
  | .leaf _ | .absent | .missing => (0x10, va)

/-- A waiter of a miss takes its own fault, of the walk of its own address (R302). -/
def faultMiss (world key : Nat) (fault : Nat → Nat × Nat) (s : State) (w : ReplyTo) : State :=
  match w with
  | .ctx c num =>
    match (ctxOf s c num).map Slot.wait with
    | some (.mem r) =>
      if r.segs.isEmpty then
        let f := fault (((rising r.vas).find? (fun a => missKey a == key)).getD r.ea)
        faultAccess s c num r f.1 (BitVec.ofNat 64 f.2)
      else s
    | some (.fetch a) =>
      match ctxSlot s c num with
      | some k => if (s.slot k).world = world then takeTrapAt s k (fault a).1 (BitVec.ofNat 64 (fault a).2) else s
      | none => s
    | _ => s
  | w => s.next1 (.remoteReply w (.fault (fault (key * 65536)).1 0) 0)

/-- Waiters in the order in which they joined. -/
def joined (l : List (Nat × Nat × ReplyTo)) : List (Nat × Nat × ReplyTo) :=
  l.foldr (fun x acc =>
    let rec ins : List (Nat × Nat × ReplyTo) → List (Nat × Nat × ReplyTo)
      | [] => [x]
      | y :: ys => if x.1 ≤ y.1 then x :: y :: ys else y :: ins ys
    ins acc) []

/-- A leaf is installed and completes every entry of its world whose key lies in the page; the waiters go on in the order
in which they joined (R302). -/
def leafFound (s : State) (die world va : Nat) (l : Leaf) : State :=
  let t := entryOf world va l
  let hit (e : MissEntry) : Bool := e.world == world && decide (t.va ≤ e.key * 65536) && decide (e.key * 65536 < t.va + t.size)
  let ws := joined (((s.die die).miss.filter hit).flatMap (·.waiters))
  let s1 := tlbDie (s.modDie die (fun d => { d with miss := d.miss.filter (fun e => !hit e) })) die t
  let s2 := (ws.map (·.2.1)).eraseDups.foldl (fun a cl => tlbCluster a cl t) s1
  ((ws.map (·.2.2)).foldl resumeMiss s2).next1 (.pageWalk die)

/-- A fault goes to every waiter of its entry: `fault` gives the cause and value for an address. -/
def walkFault (s : State) (die : Nat) (e : MissEntry) (fault : Nat → Nat × Nat) : State :=
  let s1 := s.modDie die (fun d => { d with miss := d.miss.filter (fun x => !(x.world == e.world && x.key == e.key)) })
  (((joined e.waiters).map (·.2.2)).foldl (faultMiss e.world e.key fault) s1).next1 (.pageWalk die)

/-- A walk ends (R302, R303). -/
def execPageWalkDone (die walker : Nat) (s : State) : Out :=
  match (s.die die).miss.find? (fun e => e.walker == some walker) with
  | none => .next s
  | some e =>
    if e.stale then
      .next ((s.modDie die (fun d => { d with
        miss := d.miss.map (fun x => if x = e then { x with walker := none, stale := false } else x) })).next1 (.pageWalk die))
    else
      let s1 := walkEffect s die e.world e.va
      let own (va : Nat) : Nat × Nat := walkCause va (walk s e.world va)
      .next (match walk s e.world e.va with
        | .leaf l => admitAll (leafFound s1 die e.world e.va l) die
        | .integrity l => admitAll (walkFault (integrityRecord s1 l) die e own) die
        | .absent | .malformed _ | .missing => admitAll (walkFault s1 die e own) die)

/-- The steward's answer to a forwarded miss (R304): a leaf, or a fault with its cause, 0x10, 0x08 or 0x12, and for the
last two the physical address that R299 reports. A TBINV since the miss was forwarded leaves the answer unused. -/
def execStewardWalkReply (die world key : Nat) (answer : WalkAnswer) (s : State) : Out :=
  let entry := answer.entry
  match (s.die die).miss.find? (fun e => e.world == world && e.key == key) with
  | none => .next s
  | some e =>
    if !walksBySteward s world then .next s
    else if e.stale then
      .next (s.modDie die (fun d => { d with miss := d.miss.map (fun x => if x = e then { x with stale := false } else x) }))
    else if answer.code = 0 && entry.getLsbD 0 && entry.getLsbD 1 && !malformedEntry entry (bits entry.toNat 10 9) then
      .next (admitAll (leafFound s die world e.va ⟨entry⟩) die)
    else
      .next (admitAll (walkFault s die e (fun va => if answer.code = 0x08 ∨ answer.code = 0x12 then (answer.code, entry.toNat) else (0x10, va))) die)

end Sys2Proof.Machine
end

