-- ==== Sys2Proof/Machine/Agenda.lean ====
section
/-! DEFINITION. The steps that the machine itself brings about: each runs the meaning of its row. -/

namespace Sys2Proof.Machine

/-- Run an event: the same meaning that `exec` gives to the row. -/
def Event.run : Event → State → Out
  | .longLatencyResult slot, s => execLongLatencyResult slot s
  | .localStorePass slot, s => execLocalStorePass slot s
  | .energyRefill core, s => execEnergyRefill core s
  | .completionWrite core num reg status sig, s => execCompletionWrite core num reg status sig s
  | .contextNumberRelease core num, s => execContextNumberRelease core num s
  | .remoteReply rcv r sig, s => execRemoteReply rcv r sig s
  | .holdReply die idx gen, s => execHoldReply die idx gen s
  | .holdReplyResend die n, s => execHoldReplyResend die n s
  | .remoteTimeout die idx gen, s => execRemoteTimeout die idx gen s
  | .tagQuarantineEnd die idx, s => execTagQuarantineEnd die idx s
  | .registerMissMicroTrap slot, s => execRegisterMissMicroTrap slot s
  | .registerFetchDone slot, s => execRegisterFetchDone slot s
  | .icacheFill slot, s => execIcacheFill slot s
  | .noticeTaken slot, s => execNoticeTaken slot s
  | .preemption core world, s => execPreemption core world s
  | .contextSave slot, s => execContextSave slot s
  | .contextInstall slot, s => execContextInstall slot s
  | .contextSpill cluster, s => execContextSpill cluster s
  | .spillReadback core num, s => execSpillReadback core num s
  | .sliceExpiry slot, s => execSliceExpiry slot s
  | .watchdogExpiry slot, s => execWatchdogExpiry slot s
  | .breakpointHit slot, s => execBreakpointHit slot s
  | .taskPop core world, s => execTaskPop core world s
  | .dequeReadback core world, s => execDequeReadback core world s
  | .stealRequest core world, s => execStealRequest core world s
  | .stealBackoffEnd core world, s => execStealBackoffEnd core world s
  | .serviceQueueArrival core m, s => execServiceQueueArrival core m s
  | .serviceLoad core, s => execServiceLoad core s
  | .serviceStore core, s => execServiceStore core s
  | .serviceAtomic core, s => execServiceAtomic core s
  | .serviceFill core, s => execServiceFill core s
  | .serviceSyncLoad core, s => execServiceSyncLoad core s
  | .serviceSteal core, s => execServiceSteal core s
  | .mailboxDataArrival core m, s => execMailboxDataArrival core m s
  | .tokenMessageArrival core m, s => execTokenMessageArrival core m s
  | .ringReservationGrant cluster ring, s => execRingReservationGrant cluster ring s
  | .tilePublish cluster ring idx, s => execTilePublish cluster ring idx s
  | .matrixJobStart cluster, s => execMatrixJobStart cluster s
  | .shadowPause cluster, s => execShadowPause cluster s
  | .normalJobResume cluster, s => execNormalJobResume cluster s
  | .matrixJobRetire cluster id, s => execMatrixJobRetire cluster id s
  | .engineRampUpEnd cluster, s => execEngineRampUpEnd cluster s
  | .engineWarmEnd cluster, s => execEngineWarmEnd cluster s
  | .engineRampDownEnd cluster, s => execEngineRampDownEnd cluster s
  | .copyKickTake cluster, s => execCopyKickTake cluster s
  | .copyRequestComplete cluster id, s => execCopyRequestComplete cluster id s
  | .copyYield cluster id, s => execCopyYield cluster id s
  | .qcfgApply cluster ring, s => execQcfgApply cluster ring s
  | .barrierComplete world launch group, s => execBarrierComplete world launch group s
  | .barrierRelease core num sig, s => execBarrierRelease core num sig s
  | .rdcFillArrival die line, s => execRdcFillArrival die line s
  | .rdcCopyExpiry die line, s => execRdcCopyExpiry die line s
  | .signatureBankAge, s => execSignatureBankAge s
  | .launchRecordRead world queue, s => execLaunchRecordRead world queue s
  | .dispatchChoice die, s => execDispatchChoice die s
  | .taskSeeding die, s => execTaskSeeding die s
  | .ageingRaise core, s => execAgeingRaise core s
  | .gangPlacement world launch, s => execGangPlacement world launch s
  | .urgentInstall die, s => execUrgentInstall die s
  | .nodeEvaluation world launch, s => execNodeEvaluation world launch s
  | .missTableAdmit cluster, s => execMissTableAdmit cluster s
  | .pageWalk die, s => execPageWalk die s
  | .pageWalkDone die walker, s => execPageWalkDone die walker s
  | .blockCounterFlush cluster world addr, s => execBlockCounterFlush cluster world addr s
  | .traceHeaderRewrite core, s => execTraceHeaderRewrite core s
  | .graphRequestFinish cluster id, s => execGraphRequestFinish cluster id s
  | .drainTimerExpiry world, s => execDrainTimerExpiry world s
  | .pathChangeEffect die module, s => execPathChangeEffect die module s
  | .reductionContributionArrival die c, s => execReductionContributionArrival die c s
  | .reductionDeadline die slot, s => execReductionDeadline die slot s
  | .reductionSlotFree die slot, s => execReductionSlotFree die slot s
  | .reductionResultArrival core num reg record status bitmap data sig, s => execReductionResultArrival core num reg record status bitmap data sig s
  | .sttkLanding die world gen seq sig, s => execSttkLanding die world gen seq sig s
  | .sttkFailure die world gen seq code, s => execSttkFailure die world gen seq code s
  | .depstoreArrival die y, s => execDepstoreArrival die y s
  | .depstoreResend die y, s => execDepstoreResend die y s
  | .sluiceFullReply die y, s => execSluiceFullReply die y s
  | .holdArrival die token holder, s => execHoldArrival die token holder s
  | .holdRetry die token, s => execHoldRetry die token s
  | .releaseArrival die token failed retry clean sig, s => execReleaseArrival die token failed retry clean sig s
  | .sluiceExpiry die n, s => execSluiceExpiry die n s
  | .declareArrival core from_ k f world who, s => execDeclareArrival core from_ k f world who s
  | .declareReply core k who code, s => execDeclareReply core k who code s
  | .tideArrival core ch src t, s => execTideArrival core ch src t s
  | .eventArrival core e, s => execEventArrival core e s
  | .floorExchange die, s => execFloorExchange die s
  | .floorReportArrival die core bound launch, s => execFloorReportArrival die core bound launch s
  | .keyedAtomicApply die, s => execKeyedAtomicApply die s
  | .localTimeModeExit core, s => execLocalTimeModeExit core s
  | .stealReplyArrival core r, s => execStealReplyArrival core r s
  | .recoveryWindowExpiry world, s => execRecoveryWindowExpiry world s
  | .nullFrameSend port, s => execNullFrameSend port s
  | .creditWaitDrop port, s => execCreditWaitDrop port s
  | .packetForward port p, s => execPacketForward port p s
  | .remoteRequestArrival die p, s => execRemoteRequestArrival die p s
  | .objectPacketArrival cluster p, s => execObjectPacketArrival cluster p s
  | .gsendAckArrival cluster p, s => execGsendAckArrival cluster p s
  | .gsendFinishArrival cluster p, s => execGsendFinishArrival cluster p s
  | .gsendDoneArrival cluster p, s => execGsendDoneArrival cluster p s

end Sys2Proof.Machine
end

