-- ==== Sys2Proof/Machine/Dispatch.lean ====
section
/-! DEFINITION. One arm per step, each a direct call of its meaning. -/

namespace Sys2Proof.Machine

open Sys2Proof

def exec (i : Instr) (s : State) : Host.Outcome State Fault Refusal :=
  match i with
  | .add d a b => Sys2Proof.Machine.execAdd d a b s
  | .sub d a b => Sys2Proof.Machine.execSub d a b s
  | .and d a b => Sys2Proof.Machine.execAnd d a b s
  | .or d a b => Sys2Proof.Machine.execOr d a b s
  | .xor d a b => Sys2Proof.Machine.execXor d a b s
  | .sll d a b => Sys2Proof.Machine.execSll d a b s
  | .srl d a b => Sys2Proof.Machine.execSrl d a b s
  | .sra d a b => Sys2Proof.Machine.execSra d a b s
  | .slt d a b => Sys2Proof.Machine.execSlt d a b s
  | .sltu d a b => Sys2Proof.Machine.execSltu d a b s
  | .min d a b => Sys2Proof.Machine.execMin d a b s
  | .max d a b => Sys2Proof.Machine.execMax d a b s
  | .minu d a b => Sys2Proof.Machine.execMinu d a b s
  | .maxu d a b => Sys2Proof.Machine.execMaxu d a b s
  | .mul d a b => Sys2Proof.Machine.execMul d a b s
  | .mulh d a b => Sys2Proof.Machine.execMulh d a b s
  | .mulhu d a b => Sys2Proof.Machine.execMulhu d a b s
  | .div d a b => Sys2Proof.Machine.execDiv d a b s
  | .divu d a b => Sys2Proof.Machine.execDivu d a b s
  | .rem d a b => Sys2Proof.Machine.execRem d a b s
  | .remu d a b => Sys2Proof.Machine.execRemu d a b s
  | .clz d a => Sys2Proof.Machine.execClz d a s
  | .ctz d a => Sys2Proof.Machine.execCtz d a s
  | .popc d a => Sys2Proof.Machine.execPopc d a s
  | .addi d a im => Sys2Proof.Machine.execAddi d a im s
  | .andi d a im => Sys2Proof.Machine.execAndi d a im s
  | .ori d a im => Sys2Proof.Machine.execOri d a im s
  | .xori d a im => Sys2Proof.Machine.execXori d a im s
  | .slti d a im => Sys2Proof.Machine.execSlti d a im s
  | .sltiu d a im => Sys2Proof.Machine.execSltiu d a im s
  | .slli d a n => Sys2Proof.Machine.execSlli d a n s
  | .srli d a n => Sys2Proof.Machine.execSrli d a n s
  | .srai d a n => Sys2Proof.Machine.execSrai d a n s
  | .lui d im => Sys2Proof.Machine.execLui d im s
  | .limm d im => Sys2Proof.Machine.execLimm d im s
  | .limmZx d im => Sys2Proof.Machine.execLimmZx d im s
  | .limmHi d im => Sys2Proof.Machine.execLimmHi d im s
  | .padd d a b h => Sys2Proof.Machine.execPadd d a b h s
  | .paddi d a im => Sys2Proof.Machine.execPaddi d a im s
  | .pset d a b k => Sys2Proof.Machine.execPset d a b k s
  | .pget d a k => Sys2Proof.Machine.execPget d a k s
  | .pchk d a b c => Sys2Proof.Machine.execPchk d a b c s
  | .pchkTrap d a b c => Sys2Proof.Machine.execPchkTrap d a b c s
  | .beq a b o => Sys2Proof.Machine.execBeq a b o s
  | .bne a b o => Sys2Proof.Machine.execBne a b o s
  | .blt a b o => Sys2Proof.Machine.execBlt a b o s
  | .bge a b o => Sys2Proof.Machine.execBge a b o s
  | .bltu a b o => Sys2Proof.Machine.execBltu a b o s
  | .bgeu a b o => Sys2Proof.Machine.execBgeu a b o s
  | .beod n k o => Sys2Proof.Machine.execBeod n k o s
  | .jal d im => Sys2Proof.Machine.execJal d im s
  | .jalr d a im => Sys2Proof.Machine.execJalr d a im s
  | .sbind n t a => Sys2Proof.Machine.execSbind n t a s
  | .sfree n => Sys2Proof.Machine.execSfree n s
  | .sskip n a => Sys2Proof.Machine.execSskip n a s
  | .gets d sn => Sys2Proof.Machine.execGets d sn s
  | .sets sn a => Sys2Proof.Machine.execSets sn a s
  | .trap im => Sys2Proof.Machine.execTrap im s
  | .eret => Sys2Proof.Machine.execEret s
  | .halt => Sys2Proof.Machine.execHalt s
  | .nop => Sys2Proof.Machine.execNop s
  | .fence o y => Sys2Proof.Machine.execFence o y s
  | .fenceEng o y => Sys2Proof.Machine.execFenceEng o y s
  | .bbc a im => Sys2Proof.Machine.execBbc a im s
  | .pref a p => Sys2Proof.Machine.execPref a p s
  | .prefWr a p => Sys2Proof.Machine.execPrefWr a p s
  | .ipref l a b => Sys2Proof.Machine.execIpref l a b s
  | .ipin l d a b => Sys2Proof.Machine.execIpin l d a b s
  | .iunpin l a b => Sys2Proof.Machine.execIunpin l a b s
  | .tbinvPage d a => Sys2Proof.Machine.execTbinvPage d a s
  | .tbinvRange d a b => Sys2Proof.Machine.execTbinvRange d a b s
  | .tbinvAll d => Sys2Proof.Machine.execTbinvAll d s
  | .tbinvWorld d b => Sys2Proof.Machine.execTbinvWorld d b s
  | .ld m => Sys2Proof.Machine.execLd m s
  | .st m => Sys2Proof.Machine.execSt m s
  | .lds m => Sys2Proof.Machine.execLds m s
  | .stf m => Sys2Proof.Machine.execStf m s
  | .ldp m => Sys2Proof.Machine.execLdp m s
  | .sfe m => Sys2Proof.Machine.execSfe m s
  | .vld m => Sys2Proof.Machine.execVld m s
  | .vst m => Sys2Proof.Machine.execVst m s
  | .vldt m => Sys2Proof.Machine.execVldt m s
  | .vldd m => Sys2Proof.Machine.execVldd m s
  | .vldx m => Sys2Proof.Machine.execVldx m s
  | .vstx m => Sys2Proof.Machine.execVstx m s
  | .amoadd m => Sys2Proof.Machine.execAmoadd m s
  | .amoand m => Sys2Proof.Machine.execAmoand m s
  | .amoor m => Sys2Proof.Machine.execAmoor m s
  | .amoxor m => Sys2Proof.Machine.execAmoxor m s
  | .amoswap m => Sys2Proof.Machine.execAmoswap m s
  | .amomin m => Sys2Proof.Machine.execAmomin m s
  | .amomax m => Sys2Proof.Machine.execAmomax m s
  | .amominu m => Sys2Proof.Machine.execAmominu m s
  | .amomaxu m => Sys2Proof.Machine.execAmomaxu m s
  | .amocas m => Sys2Proof.Machine.execAmocas m s
  | .amofadd m => Sys2Proof.Machine.execAmofadd m s
  | .send r mb d a b c => Sys2Proof.Machine.execSend r mb d a b c s
  | .recv q d a => Sys2Proof.Machine.execRecv q d a s
  | .mbpeek d a => Sys2Proof.Machine.execMbpeek d a s
  | .cpy c => Sys2Proof.Machine.execCpy c s
  | .cpy2d c => Sys2Proof.Machine.execCpy2d c s
  | .cpyl q d a => Sys2Proof.Machine.execCpyl q d a s
  | .cpyg c => Sys2Proof.Machine.execCpyg c s
  | .mma m => Sys2Proof.Machine.execMma m s
  | .mmam w d a b c => Sys2Proof.Machine.execMmam w d a b c s
  | .qcfg n d a => Sys2Proof.Machine.execQcfg n d a s
  | .qpush n d a => Sys2Proof.Machine.execQpush n d a s
  | .mhint a => Sys2Proof.Machine.execMhint a s
  | .gbar y a => Sys2Proof.Machine.execGbar y a s
  | .spawn im d a b c => Sys2Proof.Machine.execSpawn im d a b c s
  | .tdone => Sys2Proof.Machine.execTdone s
  | .tyield d a b => Sys2Proof.Machine.execTyield d a b s
  | .gcopy w d a => Sys2Proof.Machine.execGcopy w d a s
  | .gsend w d a b c => Sys2Proof.Machine.execGsend w d a b c s
  | .gcmp w d a => Sys2Proof.Machine.execGcmp w d a s
  | .ghash w d a => Sys2Proof.Machine.execGhash w d a s
  | .gfree w d a => Sys2Proof.Machine.execGfree w d a s
  | .gstat d a => Sys2Proof.Machine.execGstat d a s
  | .gstatStop d a => Sys2Proof.Machine.execGstatStop d a s
  | .sttk m => Sys2Proof.Machine.execSttk m s
  | .stdep m => Sys2Proof.Machine.execStdep m s
  | .xredAdd x => Sys2Proof.Machine.execXredAdd x s
  | .xredMin x => Sys2Proof.Machine.execXredMin x s
  | .xredMax x => Sys2Proof.Machine.execXredMax x s
  | .ltset d a => Sys2Proof.Machine.execLtset d a s
  | .tide d => Sys2Proof.Machine.execTide d s
  | .tideBound d a => Sys2Proof.Machine.execTideBound d a s
  | .tsend d a b c => Sys2Proof.Machine.execTsend d a b c s
  | .trecv d => Sys2Proof.Machine.execTrecv d s
  | .chdcl k d a b => Sys2Proof.Machine.execChdcl k d a b s
  | .ltstat sel d a => Sys2Proof.Machine.execLtstat sel d a s
  | .wsetForm d a b => Sys2Proof.Machine.execWsetForm d a b s
  | .wsetGrant d a b => Sys2Proof.Machine.execWsetGrant d a b s
  | .wsetReclaim d a b => Sys2Proof.Machine.execWsetReclaim d a b s
  | .wsetShare d a b => Sys2Proof.Machine.execWsetShare d a b s
  | .wsetPeer d a b => Sys2Proof.Machine.execWsetPeer d a b s
  | .wsetSeal d a b => Sys2Proof.Machine.execWsetSeal d a b s
  | .wsetDrain d a b => Sys2Proof.Machine.execWsetDrain d a b s
  | .wsetFree d a b => Sys2Proof.Machine.execWsetFree d a b s
  | .wsealGenerate d a b => Sys2Proof.Machine.execWsealGenerate d a b s
  | .wsealInstall d a b => Sys2Proof.Machine.execWsealInstall d a b s
  | .wsealDestroy d a b => Sys2Proof.Machine.execWsealDestroy d a b s
  | .vnop => Sys2Proof.Machine.execVnop s
  | .vadd v => Sys2Proof.Machine.execVadd v s
  | .vsub v => Sys2Proof.Machine.execVsub v s
  | .vmul v => Sys2Proof.Machine.execVmul v s
  | .vfma v => Sys2Proof.Machine.execVfma v s
  | .vfms v => Sys2Proof.Machine.execVfms v s
  | .vmin v => Sys2Proof.Machine.execVmin v s
  | .vmax v => Sys2Proof.Machine.execVmax v s
  | .vabs v => Sys2Proof.Machine.execVabs v s
  | .vneg v => Sys2Proof.Machine.execVneg v s
  | .vand v => Sys2Proof.Machine.execVand v s
  | .vor v => Sys2Proof.Machine.execVor v s
  | .vxor v => Sys2Proof.Machine.execVxor v s
  | .vnot v => Sys2Proof.Machine.execVnot v s
  | .vsll v => Sys2Proof.Machine.execVsll v s
  | .vsrl v => Sys2Proof.Machine.execVsrl v s
  | .vsra v => Sys2Proof.Machine.execVsra v s
  | .vcmpeq v => Sys2Proof.Machine.execVcmpeq v s
  | .vcmplt v => Sys2Proof.Machine.execVcmplt v s
  | .vcmple v => Sys2Proof.Machine.execVcmple v s
  | .vsel v => Sys2Proof.Machine.execVsel v s
  | .vcvt v => Sys2Proof.Machine.execVcvt v s
  | .vshuf v => Sys2Proof.Machine.execVshuf v s
  | .vbcast v => Sys2Proof.Machine.execVbcast v s
  | .vext v => Sys2Proof.Machine.execVext v s
  | .vins v => Sys2Proof.Machine.execVins v s
  | .vdot v => Sys2Proof.Machine.execVdot v s
  | .vsumr v => Sys2Proof.Machine.execVsumr v s
  | .vmaxr v => Sys2Proof.Machine.execVmaxr v s
  | .vrcp v => Sys2Proof.Machine.execVrcp v s
  | .vrsq v => Sys2Proof.Machine.execVrsq v s
  | .vrcps v => Sys2Proof.Machine.execVrcps v s
  | .vrsqs v => Sys2Proof.Machine.execVrsqs v s
  | .vexp2 v => Sys2Proof.Machine.execVexp2 v s
  | .vlog2 v => Sys2Proof.Machine.execVlog2 v s
  | .vmodadd v => Sys2Proof.Machine.execVmodadd v s
  | .vmodsub v => Sys2Proof.Machine.execVmodsub v s
  | .vmodmul v => Sys2Proof.Machine.execVmodmul v s
  | .vbfly v => Sys2Proof.Machine.execVbfly v s
  | .longLatencyResult slot => Sys2Proof.Machine.execLongLatencyResult slot s
  | .localStorePass slot => Sys2Proof.Machine.execLocalStorePass slot s
  | .energyRefill core => Sys2Proof.Machine.execEnergyRefill core s
  | .completionWrite core num reg status sig => Sys2Proof.Machine.execCompletionWrite core num reg status sig s
  | .contextNumberRelease core num => Sys2Proof.Machine.execContextNumberRelease core num s
  | .remoteReply rcv r sig => Sys2Proof.Machine.execRemoteReply rcv r sig s
  | .holdReply die idx gen => Sys2Proof.Machine.execHoldReply die idx gen s
  | .holdReplyResend die n => Sys2Proof.Machine.execHoldReplyResend die n s
  | .remoteTimeout die idx gen => Sys2Proof.Machine.execRemoteTimeout die idx gen s
  | .tagQuarantineEnd die idx => Sys2Proof.Machine.execTagQuarantineEnd die idx s
  | .registerMissMicroTrap slot => Sys2Proof.Machine.execRegisterMissMicroTrap slot s
  | .registerFetchDone slot => Sys2Proof.Machine.execRegisterFetchDone slot s
  | .icacheFill slot => Sys2Proof.Machine.execIcacheFill slot s
  | .noticeTaken slot => Sys2Proof.Machine.execNoticeTaken slot s
  | .stewardResume slot => Sys2Proof.Machine.execStewardResume slot s
  | .stewardForwardTrap slot => Sys2Proof.Machine.execStewardForwardTrap slot s
  | .stewardAbortTask slot => Sys2Proof.Machine.execStewardAbortTask slot s
  | .stewardCollect core num => Sys2Proof.Machine.execStewardCollect core num s
  | .preemption core world => Sys2Proof.Machine.execPreemption core world s
  | .contextSave slot => Sys2Proof.Machine.execContextSave slot s
  | .contextInstall slot => Sys2Proof.Machine.execContextInstall slot s
  | .contextSpill cluster => Sys2Proof.Machine.execContextSpill cluster s
  | .spillReadback core num => Sys2Proof.Machine.execSpillReadback core num s
  | .sliceExpiry slot => Sys2Proof.Machine.execSliceExpiry slot s
  | .watchdogExpiry slot => Sys2Proof.Machine.execWatchdogExpiry slot s
  | .debugStop core num => Sys2Proof.Machine.execDebugStop core num s
  | .debugResume slot => Sys2Proof.Machine.execDebugResume slot s
  | .debugStep slot => Sys2Proof.Machine.execDebugStep slot s
  | .debugContextAccess slot off write => Sys2Proof.Machine.execDebugContextAccess slot off write s
  | .breakpointSet core n pc mask => Sys2Proof.Machine.execBreakpointSet core n pc mask s
  | .breakpointHit slot => Sys2Proof.Machine.execBreakpointHit slot s
  | .taskPop core world => Sys2Proof.Machine.execTaskPop core world s
  | .dequeReadback core world => Sys2Proof.Machine.execDequeReadback core world s
  | .stealRequest core world => Sys2Proof.Machine.execStealRequest core world s
  | .stealBackoffEnd core world => Sys2Proof.Machine.execStealBackoffEnd core world s
  | .serviceQueueArrival core m => Sys2Proof.Machine.execServiceQueueArrival core m s
  | .serviceLoad core => Sys2Proof.Machine.execServiceLoad core s
  | .serviceStore core => Sys2Proof.Machine.execServiceStore core s
  | .serviceAtomic core => Sys2Proof.Machine.execServiceAtomic core s
  | .serviceFill core => Sys2Proof.Machine.execServiceFill core s
  | .serviceSyncLoad core => Sys2Proof.Machine.execServiceSyncLoad core s
  | .serviceSteal core => Sys2Proof.Machine.execServiceSteal core s
  | .mailboxDataArrival core m => Sys2Proof.Machine.execMailboxDataArrival core m s
  | .tokenMessageArrival core m => Sys2Proof.Machine.execTokenMessageArrival core m s
  | .ringReservationGrant cluster ring => Sys2Proof.Machine.execRingReservationGrant cluster ring s
  | .tilePublish cluster ring idx => Sys2Proof.Machine.execTilePublish cluster ring idx s
  | .matrixJobStart cluster => Sys2Proof.Machine.execMatrixJobStart cluster s
  | .shadowPause cluster => Sys2Proof.Machine.execShadowPause cluster s
  | .normalJobResume cluster => Sys2Proof.Machine.execNormalJobResume cluster s
  | .matrixJobRetire cluster id => Sys2Proof.Machine.execMatrixJobRetire cluster id s
  | .engineRampUpEnd cluster => Sys2Proof.Machine.execEngineRampUpEnd cluster s
  | .engineWarmEnd cluster => Sys2Proof.Machine.execEngineWarmEnd cluster s
  | .engineRampDownEnd cluster => Sys2Proof.Machine.execEngineRampDownEnd cluster s
  | .copyKickTake cluster => Sys2Proof.Machine.execCopyKickTake cluster s
  | .copyRequestComplete cluster id => Sys2Proof.Machine.execCopyRequestComplete cluster id s
  | .copyYield cluster id => Sys2Proof.Machine.execCopyYield cluster id s
  | .qcfgApply cluster ring => Sys2Proof.Machine.execQcfgApply cluster ring s
  | .barrierComplete world launch group => Sys2Proof.Machine.execBarrierComplete world launch group s
  | .barrierRelease core num sig => Sys2Proof.Machine.execBarrierRelease core num sig s
  | .rdcFillArrival die line => Sys2Proof.Machine.execRdcFillArrival die line s
  | .rdcCopyExpiry die line => Sys2Proof.Machine.execRdcCopyExpiry die line s
  | .signatureBankAge => Sys2Proof.Machine.execSignatureBankAge s
  | .hbmWriteBack line => Sys2Proof.Machine.execHbmWriteBack line s
  | .launchTailWrite world queue tail => Sys2Proof.Machine.execLaunchTailWrite world queue tail s
  | .launchRecordRead world queue => Sys2Proof.Machine.execLaunchRecordRead world queue s
  | .dispatchChoice die => Sys2Proof.Machine.execDispatchChoice die s
  | .taskSeeding die => Sys2Proof.Machine.execTaskSeeding die s
  | .ageingRaise core => Sys2Proof.Machine.execAgeingRaise core s
  | .gangPlacement world launch => Sys2Proof.Machine.execGangPlacement world launch s
  | .urgentInstall die => Sys2Proof.Machine.execUrgentInstall die s
  | .nodeEvaluation world launch => Sys2Proof.Machine.execNodeEvaluation world launch s
  | .vfSoftReset world queue => Sys2Proof.Machine.execVfSoftReset world queue s
  | .vfHardReset world queue => Sys2Proof.Machine.execVfHardReset world queue s
  | .vfFaultRead world => Sys2Proof.Machine.execVfFaultRead world s
  | .vfRegisterWrite world off value => Sys2Proof.Machine.execVfRegisterWrite world off value s
  | .hostTaskPush world task => Sys2Proof.Machine.execHostTaskPush world task s
  | .missTableAdmit cluster => Sys2Proof.Machine.execMissTableAdmit cluster s
  | .pageWalk die => Sys2Proof.Machine.execPageWalk die s
  | .pageWalkDone die walker => Sys2Proof.Machine.execPageWalkDone die walker s
  | .stewardWalkReply die world key answer => Sys2Proof.Machine.execStewardWalkReply die world key answer s
  | .blockCounterFlush cluster world addr => Sys2Proof.Machine.execBlockCounterFlush cluster world addr s
  | .traceHeaderRewrite core => Sys2Proof.Machine.execTraceHeaderRewrite core s
  | .graphRequestFinish cluster id => Sys2Proof.Machine.execGraphRequestFinish cluster id s
  | .objectPacketArrival cluster p => Sys2Proof.Machine.execObjectPacketArrival cluster p s
  | .gsendAckArrival cluster p => Sys2Proof.Machine.execGsendAckArrival cluster p s
  | .gsendFinishArrival cluster p => Sys2Proof.Machine.execGsendFinishArrival cluster p s
  | .gsendDoneArrival cluster p => Sys2Proof.Machine.execGsendDoneArrival cluster p s
  | .dieLinkDown a b => Sys2Proof.Machine.execDieLinkDown a b s
  | .drainTimerExpiry world => Sys2Proof.Machine.execDrainTimerExpiry world s
  | .coldReset => Sys2Proof.Machine.execColdReset s
  | .warmReset => Sys2Proof.Machine.execWarmReset s
  | .fuseMinimumRaise stage version => Sys2Proof.Machine.execFuseMinimumRaise stage version s
  | .stewardSramError addr => Sys2Proof.Machine.execStewardSramError addr s
  | .stewardWatchdogExpiry => Sys2Proof.Machine.execStewardWatchdogExpiry s
  | .mctpControlMessage typ body => Sys2Proof.Machine.execMctpControlMessage typ body s
  | .pldmMessage body => Sys2Proof.Machine.execPldmMessage body s
  | .spdmRequest fn body => Sys2Proof.Machine.execSpdmRequest fn body s
  | .vfFunctionLevelReset world => Sys2Proof.Machine.execVfFunctionLevelReset world s
  | .pfFunctionLevelReset => Sys2Proof.Machine.execPfFunctionLevelReset s
  | .migrationPrepare world source => Sys2Proof.Machine.execMigrationPrepare world source s
  | .migrationTransfer world m => Sys2Proof.Machine.execMigrationTransfer world m s
  | .migrationReceipt world => Sys2Proof.Machine.execMigrationReceipt world s
  | .migrationErase m => Sys2Proof.Machine.execMigrationErase m s
  | .migrationCommit m => Sys2Proof.Machine.execMigrationCommit m s
  | .migrationAbort m source => Sys2Proof.Machine.execMigrationAbort m source s
  | .recoveryWindowExpiry world => Sys2Proof.Machine.execRecoveryWindowExpiry world s
  | .thermalWarning die => Sys2Proof.Machine.execThermalWarning die s
  | .supplyDroopWarning => Sys2Proof.Machine.execSupplyDroopWarning s
  | .coolantFlowWarning => Sys2Proof.Machine.execCoolantFlowWarning s
  | .thermalTrip die => Sys2Proof.Machine.execThermalTrip die s
  | .linkFrameReceive port f => Sys2Proof.Machine.execLinkFrameReceive port f s
  | .nullFrameSend port => Sys2Proof.Machine.execNullFrameSend port s
  | .linkResync port shared => Sys2Proof.Machine.execLinkResync port shared s
  | .linkRekey port shared => Sys2Proof.Machine.execLinkRekey port shared s
  | .packetForward port p => Sys2Proof.Machine.execPacketForward port p s
  | .creditWaitDrop port => Sys2Proof.Machine.execCreditWaitDrop port s
  | .pathTableWrite die module index d0 d1 => Sys2Proof.Machine.execPathTableWrite die module index d0 d1 s
  | .pathChangeEffect die module => Sys2Proof.Machine.execPathChangeEffect die module s
  | .remoteRequestArrival die p => Sys2Proof.Machine.execRemoteRequestArrival die p s
  | .reductionContributionArrival die c => Sys2Proof.Machine.execReductionContributionArrival die c s
  | .reductionDeadline die slot => Sys2Proof.Machine.execReductionDeadline die slot s
  | .reductionSlotFree die slot => Sys2Proof.Machine.execReductionSlotFree die slot s
  | .reductionResultArrival core num reg record status bitmap data sig => Sys2Proof.Machine.execReductionResultArrival core num reg record status bitmap data sig s
  | .sttkLanding die world gen seq sig => Sys2Proof.Machine.execSttkLanding die world gen seq sig s
  | .sttkFailure die world gen seq code => Sys2Proof.Machine.execSttkFailure die world gen seq code s
  | .depstoreArrival die y => Sys2Proof.Machine.execDepstoreArrival die y s
  | .sluiceFullReply die y => Sys2Proof.Machine.execSluiceFullReply die y s
  | .holdArrival die token holder => Sys2Proof.Machine.execHoldArrival die token holder s
  | .holdRetry die token => Sys2Proof.Machine.execHoldRetry die token s
  | .releaseArrival die token failed retry clean sig => Sys2Proof.Machine.execReleaseArrival die token failed retry clean sig s
  | .sluiceExpiry die n => Sys2Proof.Machine.execSluiceExpiry die n s
  | .declareArrival core from_ k f world who => Sys2Proof.Machine.execDeclareArrival core from_ k f world who s
  | .declareReply core k who code => Sys2Proof.Machine.execDeclareReply core k who code s
  | .tideArrival core ch src t => Sys2Proof.Machine.execTideArrival core ch src t s
  | .eventArrival core e => Sys2Proof.Machine.execEventArrival core e s
  | .floorExchange die => Sys2Proof.Machine.execFloorExchange die s
  | .floorReportArrival die core bound launch => Sys2Proof.Machine.execFloorReportArrival die core bound launch s
  | .keyedAtomicApply die => Sys2Proof.Machine.execKeyedAtomicApply die s
  | .localTimeModeExit core => Sys2Proof.Machine.execLocalTimeModeExit core s
  | .programLoad p => Sys2Proof.Machine.execProgramLoad p s
  | .launchQueueConfigure world queue base size leader => Sys2Proof.Machine.execLaunchQueueConfigure world queue base size leader s
  | .stealReplyArrival core r => Sys2Proof.Machine.execStealReplyArrival core r s
  | .depstoreResend die y => Sys2Proof.Machine.execDepstoreResend die y s
  | .linkBringUp port shared => Sys2Proof.Machine.execLinkBringUp port shared s

end Sys2Proof.Machine
end

