-- ==== Sys2Proof/Machine/Issue.lean ====
section
/-! DEFINITION. The rotation of a core, the issue of one bundle, the end of a cycle, and the turn
order of the cores (02 R52 to R58, R64 to R67; 04 R112, R116; 06 R167; 15 R311). -/

namespace Sys2Proof.Machine

/-- Go on after a step. -/
def andNext (o : Out) (k : State → Out) : Out :=
  match o with
  | .next s => k s
  | .fault f => .fault f
  | .refused r => .refused r

/-- The trap row that a half took. -/
def rowOf (o : Out) : Option Nat := match o with | .next s => s.iss.prio | _ => none

/-! ## Fetch -/

/-- The pc lies in the context's pinned code range (R67, R91). -/
def inCode (sl : Slot) : Bool := decide (sl.codeLo ≤ sl.pc.toNat) && decide (sl.pc.toNat < sl.codeHi)

/-- The V-op of a bundle, for its cost; an illegal one costs nothing (R167). -/
def bundleCost (b : Word) : Nat := match (decodeBundle b).2 with | .ok v => vCost v | .error _ => 0

/-- Whether the budget of the core pays for the next bundle of a slot (R52, R167). -/
def canPay (s : State) (k : Nat) : Bool :=
  k % 8 == 7 ||
    match fetchBundle s k with
    | some b => bundleCost b ≤ (s.core (coreOf k)).energy
    | none => true

/-- A notice that is taken at this turn (R116). -/
def noticeDue (sl : Slot) : Bool := !sl.inh && (sl.alarm.isSome || sl.undelivered.isSome)

/-- A breakpoint on the slot's next bundle (R311). -/
def breaksAt (s : State) (k : Nat) : Bool :=
  let sl := s.slot k
  !sl.stepping && (s.core (coreOf k)).breakpoints.toList.any (fun b =>
    match b with
    | some (pc, mask) => pc == sl.pc.toNat && (mask >>> (k % 8)) % 2 == 1
    | none => false)

/-! ## Eligibility and lending (R51, R52, R54) -/

/-- A context that is discarded at its next issue turn: a hard reset has come, or its polder is drained (R292,
R353). -/
def ending (s : State) (sl : Slot) : Bool := sl.doomed || (s.polder sl.world).state == .draining

/-- A slot that has something to do at a turn: a READY slot with its bundle at hand that can be paid
for, or slot 6 with a request to serve. -/
def eligible (s : State) (k : Nat) : Bool :=
  if k % 8 = 6 then !(s.core (coreOf k)).svc.isEmpty
  else
    let sl := s.slot k
    sl.state == .ready && (ending s sl || noticeDue sl || breaksAt s k || !inCode sl || (fetchBundle s k).isSome)
      && canPay s k

/-- The world that a slot counts as running in, none where it counts as EMPTY. -/
def turnWorld (s : State) (k : Nat) : Option Nat :=
  if k % 8 = 6 then ((s.core (coreOf k)).svc.head?).map (·.world)
  else if (s.slot k).state = .empty then none
  else some (s.slot k).world

/-- Whether the turn of a slot that is not eligible goes to its partner. -/
def lends (s : State) (k q : Nat) : Bool :=
  let p := k % 8
  p != 3 && p != 7 && (s.core (coreOf k)).ltWorld.isNone
    && (s.slot k).state != .stopped
    && !((s.slot k).state == .ready && p != 6 && !canPay s k)
    && eligible s q
    && match turnWorld s k with
       | none => true
       | some w => turnWorld s q == some w

/-- The slot that issues at this turn of a core. -/
def turnSlot (s : State) (c : Nat) : Option Nat :=
  let p := s.cycle % 8
  let k := c * 8 + p
  let q := c * 8 + (p ^^^ 4)
  if eligible s k then some k else if lends s k q then some q else none

/-! ## One bundle -/

/-- Deduct the cost of a bundle's V-op; slot 7 is not charged (R167). -/
def chargeEnergy (s : State) (k cost : Nat) : State :=
  if k % 8 = 7 then s else s.modCore (coreOf k) (fun c => { c with energy := c.energy - cost })

/-- The end of a bundle that has issued: a parked slot keeps the streams it read until it commits,
any other goes on at npc (R94). A step under debug ends in STOPPED (R126). -/
def endBundle (s : State) (k : Nat) (b : Word) : State :=
  let sl := s.slot k
  let mask := s.iss.reads
  let s1 :=
    if sl.state.waiting then s.modSlot k (fun x => { x with streamsRead := mask, bundle := b })
    else if sl.state = .empty then s
    else advanceStreams (s.modSlot k (fun x => { x with pc := x.npc })) k mask
  let s2 :=
    if sl.stepping then
      let s3 := s1.modSlot k (fun x => { x with stepping := false })
      if sl.state.waiting then s3.modSlot k (fun x => { x with stopPending := true })
      else if sl.state = .ready then s3.toState k .stopped
      else s3
    else s1
  { s2 with iss := { snap := .none, prio := .none } }

/-- The end of a bundle that trapped: its slot stands at the handler. -/
def endTrapped (s : State) (k : Nat) : State :=
  let s1 :=
    if (s.slot k).stepping then
      let s2 := s.modSlot k (fun x => { x with stepping := false })
      if (s2.slot k).state = .ready then s2.toState k .stopped else s2
    else s
  { s1 with iss := { snap := .none, prio := .none } }

/-- The registers, and the streams that the bundle reads, as they stand at issue. -/
def issuing (mask : BitVec 4) (s : State) : State :=
  { s with iss := { snap := some (s.slot s.cur), prio := .none, reads := mask } }

/-- A trap of a half that no operand value bears on: rows 1 to 4 (R67). -/
def trapsEarly (o : Out) : Bool := (rowOf o).any (· ≤ 4)

/-- Both halves of a bundle (R65, R67): the earlier row of the priority table traps, the A-op before
the V-op within a row. An uncorrectable word of a stream traps as the operands are read, before the rows that judge their
values (R168; mark DEDUCED, log entry 108). Without a trap the token registers that it reads deliver their signatures first
(R273). -/
def runHalves (a v : Instr) (b : Word) (mask : BitVec 4) (s : State) : Out :=
  let k := s.cur
  let s0 := (settleStreams s k mask).modSlot k (fun sl => { sl with npc := pcAdd sl.pc 8 })
  let s1 := issuing mask s0
  let oa := exec a s1
  let ov := exec v s1
  match (if trapsEarly oa || trapsEarly ov then none else streamFault s k mask) with
  | some a => .next (endTrapped (trapAt s1 7 0x12 (BitVec.ofNat 64 a)) k)
  | none =>
  match rowOf oa, rowOf ov with
  | some ra, some rv => if rv < ra then andNext ov (fun t => .next (endTrapped t k)) else andNext oa (fun t => .next (endTrapped t k))
  | some _, none => andNext oa (fun t => .next (endTrapped t k))
  | none, some _ => andNext ov (fun t => .next (endTrapped t k))
  | none, none =>
    let s2 := issuing mask (acquireTokens s0 k ((regUse a).xr ++ (regUse v).xr))
    andNext (exec a s2) fun sa =>
      if (sa.slot k).state = .empty then .next (endBundle sa k b)
      else andNext (exec v { sa with iss := { s2.iss with reads := sa.iss.reads } }) fun t => .next (endBundle t k b)

/-- The issue of the bundle at the pc of slot `s.cur`: illegal halves (rows 1 and 2 of R67, where an A-op can be
illegal by what the state holds), pending registers (R58), absent registers (R121), then both halves. A bundle that
issues, traps or takes a register-miss micro-trap is charged (R167, R172). -/
def issueBundle (b : Word) (s : State) : Out :=
  let k := s.cur
  let charged := chargeEnergy s k (bundleCost b)
  let illegalV (a : Instr) : Out :=
    let oa := exec a (issuing 0 charged)
    if rowOf oa = some 1 then andNext oa (fun t => .next (endTrapped t k))
    else .next (endTrapped (trapAt charged 2 0x01 (zext (b.extractLsb' 32 32))) k)
  match decodeBundle b with
  | (.error _, _) => .next (endTrapped (trapAt charged 1 0x01 (zext (b.extractLsb' 0 32))) k)
  | (.ok a, .error _) => illegalV a
  | (.ok a, .ok v) =>
    let sl := s.slot k
    let ua := regUse a
    let uv := regUse v
    if doubleWrite ua uv then illegalV a
    else if pendsOn sl ua uv then .next (park s k .waitToken (.reissue (maskOf (awaited ua uv))))
    else if absentRegs sl ua uv ≠ [] then Event.run (.registerMissMicroTrap k) charged
    else runHalves a v b (streamsReadBy sl ua uv) charged

/-- One turn of a slot: a notice, a breakpoint, a fetch outside the code range, or a bundle. -/
def issueSlot (s : State) (k : Nat) : Out :=
  let s1 := { s with cur := k, iss := { snap := .none, prio := .none } }
  let sl := s.slot k
  if ending s sl then .next (discardSlot s1 k)
  else if noticeDue sl then andNext (Event.run (.noticeTaken k) s1) (fun t => .next (endTrapped t k))
  else if breaksAt s k then Event.run (.breakpointHit k) s1
  else if !inCode sl then .next (endTrapped (takeTrapAt s1 k 0x0F sl.pc) k)
  else match fetchBundle s k with
    | some b => issueBundle b s1
    | none => .next s1

/-- The service bundle of slot 6 for the request at the head of its queue (R160). -/
def serviceEvent (c : Nat) (m : ActiveMsg) : Event :=
  match m.op with
  | .load | .peek => .serviceLoad c
  | .store => .serviceStore c
  | .atomic _ => .serviceAtomic c
  | .fill | .setfe => .serviceFill c
  | .sync => .serviceSyncLoad c
  | .steal => .serviceSteal c

/-- A READY slot whose line is missing leaves the rotation at its own turn (R47, R55). -/
def missesLine (s : State) (k : Nat) : Bool :=
  let sl := s.slot k
  k % 8 != 6 && sl.state == .ready && !ending s sl && !noticeDue sl && !breaksAt s k && inCode sl
    && (fetchBundle s k).isNone

/-- The line that a slot waits for is asked for; slot 7's is served ahead of all others, within its bound (R55, R288). -/
def askLine (s : State) (k : Nat) : State :=
  if k % 8 = 7 then s.within Config.latFetch 272 (.icacheFill k) else s.later Config.latFetch (.icacheFill k)

/-- One turn of a core (R52 to R55). -/
def coreTurn (s : State) (c : Nat) : Out :=
  let own := c * 8 + s.cycle % 8
  let s0 :=
    if missesLine s own then
      askLine (park s own .waitFetch (.fetch (s.slot own).pc.toNat)) own
    else s
  match turnSlot s0 c with
  | none => .next s0
  | some k =>
    if k % 8 = 6 then
      match (s0.core c).svc.head? with
      | some m => Event.run (serviceEvent c m) s0
      | none => .next s0
    else issueSlot s0 k

/-! ## Turn order of the cores and the end of a cycle -/

/-- The least key at or above `n` in a list. -/
def leastFrom (n : Nat) : List Nat → Option Nat
  | [] => none
  | a :: as =>
    match leastFrom n as with
    | none => if n ≤ a then some a else none
    | some b => if n ≤ a ∧ a < b then some a else some b

/-- The cores that hold anything, in the tables of cores and slots. -/
def listedCores (s : State) : List Nat := s.cores.map (·.1) ++ s.slots.map (fun p => coreOf p.1)

/-- Slots with a further pass of a multi-pass access to make, the longest in its state first: the pass of the cycle
that has just ended (R153). -/
def passSlots (s : State) : List Nat :=
  let rec ins (p : Nat × Slot) : List (Nat × Slot) → List (Nat × Slot)
    | [] => [p]
    | x :: xs => if p.2.waitSince < x.2.waitSince then p :: x :: xs else x :: ins p xs
  ((s.slots.filter (fun p =>
    match p.2.wait with
    | .mem r => !r.chunks.isEmpty && decide (p.2.waitSince + 1 < s.cycle)
    | _ => false)).foldl (fun a p => ins p a) []).map (·.1)

/-- Worlds that a core has items or a share of. -/
def worldsOn (co : Core) : List Nat := co.shares.map (·.1)

/-- A record that waits in a launch queue whose leader is the die has waited at its level for the age limit (R283). -/
def launchAges (s : State) (die : Nat) : Bool :=
  s.polders.any (fun q => q.2.launches.any (fun l =>
    (queueOf s q.1 l.queue).leader == die && l.eligible && l.state == .waiting && ages s q.1 l.prio l.since))

/-- What scheduling brings about at the start of a cycle (R165, R166, R281 to R288). -/
def schedEvents (s : State) : List Event :=
  let waits := s.polders.any (fun p => p.2.launches.any (fun l => l.eligible && l.state == .waiting))
  let seeds := s.polders.any (fun p => p.2.launches.any (·.seeding))
  s.cores.flatMap (fun p =>
      let c := p.1
      let co := p.2
      (if co.spilled.isEmpty || decide (16 ≤ co.deque.length) then []
        else match co.spilled.getLast? with
          | some (r :: _) => [Event.dequeReadback c r.world]
          | _ => [])
      ++ (worldsOn co).flatMap (fun w =>
          (if (emptyGeneral s c).isSome && ((readySwapped s c w).head?.isSome || (bottomOf s c w).isSome) then [Event.taskPop c w] else [])
          ++ (if (stealOf co w).active || (stealOf co w).backoff.isSome || !maySteal s c w then [] else [Event.stealRequest c w]))
      ++ (if co.deque.any (fun r => ages s r.world r.prio r.since) || co.spilled.any (fun b => b.any (fun r => ages s r.world r.prio r.since))
            || (s.cluster (clusterOfCore c)).cache.any (fun e => e.core == c && waitsReady s e && ages s e.slot.world e.slot.prio e.since)
            || (s.cluster (clusterOfCore c)).spilled.any (fun e => e.core == c && waitsReady s e && ages s e.slot.world e.slot.prio e.since)
          then [Event.ageingRaise c] else []))
    ++ ((if waits then List.range Config.dies else []).filter (launchAges s)).map (fun d => Event.ageingRaise (32768 * d))
    ++ (if waits then ((List.range Config.dies).filter (fun d => (choice s d).isSome)).map Event.dispatchChoice else [])
    ++ (if seeds then ((List.range Config.dies).filter (fun d => (seedTarget s d).isSome)).map Event.taskSeeding else [])
    ++ (s.dies.filter (fun p => (urgentReady s p.1).isSome)).map (fun p => Event.urgentInstall p.1)

/-- Events that come about in a cycle from its number and the counts that run with it. -/
def cycleEvents (s : State) : List Event :=
  let n := s.cycle
  let cores := (s.cores.map (·.1))
  (passSlots s).map Event.localStorePass
    ++ (if n % 256 = 0 then cores.map Event.energyRefill else [])
    ++ (if n % 32768 = 0 then [Event.signatureBankAge] else [])
    ++ (if n % 65536 = 0 then
          (s.cores.filter (fun p => p.2.trace != 0)).map (fun p => Event.traceHeaderRewrite p.1)
            ++ s.clusters.flatMap (fun p => p.2.bbc.map (fun b => Event.blockCounterFlush p.1 b.world b.addr))
        else [])
    ++ (if n % 1024 = 0 then
          ((s.cores.filter (fun p => p.2.ltWorld.isSome)).map (fun p => dieOfCore p.1)).eraseDups.map Event.floorExchange
        else [])
    ++ s.slots.flatMap (fun p =>
        let sl := p.2
        (if watched sl.state && !sl.wdogPosted
            && (s.polder sl.world).wdog.toNat ≤ n - sl.waitSince then [Event.watchdogExpiry p.1] else [])
        ++ (if p.1 % 8 < 6 && sl.state != .empty && sl.state != .stopped && sl.state != .swapped
              && (s.polder sl.world).slice.toNat != 0
              && (s.polder sl.world).slice.toNat = n - sl.installedAt then [Event.sliceExpiry p.1] else []))
    ++ (s.dies.filter (fun p => (applicable s p.1).isSome)).map (fun p => Event.keyedAtomicApply p.1)
    ++ (if n % 64 = 0 then (s.links.filter (·.2.up)).map (fun p => Event.nullFrameSend p.1) else [])
    ++ s.dies.flatMap (fun p =>
        ((p.2.pathChanges.map (·.1 / 4)).eraseDups.filter (fun m => !unanswered s p.1 m)).map (Event.pathChangeEffect p.1))
    ++ schedEvents s

/-- TBINVs whose dropped entries no access uses any more complete (R339). -/
def finishTbinvs (s : State) : State :=
  let done := s.dies.flatMap (fun p => p.2.tbinvs.filter (fun t => !tbinvBusy s t))
  if done.isEmpty then s
  else
    done.foldl (fun u t => u.at_ s.cycle (.completionWrite t.core t.ctx t.reg 0 0))
      { s with dies := s.dies.map (fun p => (p.1, { p.2 with tbinvs := p.2.tbinvs.filter (fun t => tbinvBusy s t) })) }

/-- The start of the next cycle: the counter rises, and what the new cycle brings about stands first
in the agenda. -/
def nextCycle (s : State) : State :=
  let s0 := (s.cores.filter (fun p => !p.2.tracePend.isEmpty)).foldl (fun t p => traceFlush t p.1) s
  let s1 := (s.cores.filter (fun p => p.2.traceNew.isSome)).foldl (fun t p => traceApply t p.1)
    { s0 with cycle := s.cycle + 1, cursor := 0 }
  (cycleEvents s1).foldl (fun t i => t.at_ s1.cycle i) (finishTbinvs s1)

/-- One step of the machine: an event that is due, or the next turn in the cycle, or the next
cycle. A module that is not booted, or has tripped, issues nothing (R358, R367). -/
def stepMachine (s : State) : Out :=
  match s.agenda with
  | (due, i) :: rest =>
    if due ≤ s.cycle then i.run { s with agenda := rest }
    else turn s
  | [] => turn s
where
  turn (s : State) : Out :=
    if s.steward.booted && !s.steward.tripPin then
      match leastFrom s.cursor (listedCores s) with
      | some c => andNext (coreTurn { s with cursor := c + 1 } c) .next
      | none => .next (nextCycle s)
    else .next (nextCycle s)

/-! ## Placing a bundle -/

/-- The slot that owns the turn at which a placed bundle issues: the owner of the position, or slot 2
where the position is slot 6's. -/
def placeSlot (s : State) : Nat :=
  let p := s.cycle % 8
  s.cursor * 8 + (if p = 6 then 2 else p)

/-- A context of world 0 that is about to issue bundle `b` at address 0, in a slot that owns the very
next turn; nothing that is due stands before it. -/
def placeBundle (s : State) (b : Word) : State :=
  let k := placeSlot s
  let c := coreOf k
  let line : ILine := { world := 0, line := 0, bundles := [b] }
  let s1 := s.modCore c (fun co => { co with
    icache := line :: co.icache, energy := 1024, svc := [], ltWorld := .none,
    breakpoints := Vector.replicate 4 .none })
  let s2 := s1.setSlot k { Slot.reset with state := .ready, codeHi := 64, ctxNum := (s.slot k).ctxNum }
  { s2 with
    agenda := s.agenda.filter (fun p => decide (s.cycle < p.1))
    steward := { s.steward with booted := true, tripPin := false } }

/-- The bundle whose one operation is the instruction read from `nbits` bits of `w`: an A-op beside
VNOP, a wide bundle whole, or a V-op beside NOP. -/
def tableBundle (nbits w : Nat) : Word :=
  let b := BitVec.ofNat 64 (w % 2 ^ nbits)
  match decodeA (b.extractLsb' 0 32) (b.extractLsb' 32 32) with
  | .ok _ => b
  | .error _ => (b.extractLsb' 0 32) ++ (0x2D : BitVec 32)

end Sys2Proof.Machine
end

