-- ==== Sys2Proof/Machine/Step.lean ====
section
/-! DEFINITION. One step of the machine, and the placing of an instruction where the next step fetches. -/

namespace Sys2Proof.Machine

def step (s : State) : Host.Outcome State Fault Refusal := stepMachine s

/-- The state in which the very next step fetches and runs the instruction of `nbits` bits `w`. -/
def State.withFetchWord (s : State) (nbits w : Nat) : State := placeBundle s (tableBundle nbits w)

end Sys2Proof.Machine
end

