-- ==== Sys2Proof/Safety.lean ====
section
/-! DEFINITION. What a safe run is, and the words in which the statements speak of a step: which parts of the state
a step leaves as they were. -/

namespace Sys2Proof.Machine

/-- Every byte store of the state is in its canonical form. -/
def State.memoryWf (s : State) : Prop :=
  Memory.wf s.mem = true ∧ (∀ p ∈ s.cores, Memory.wf p.2.ls = true)
    ∧ (∀ p ∈ s.clusters, Memory.wf p.2.store = true)

/-- A run of `n` steps that neither faults nor is refused. -/
def runsSafely : Nat → State → Prop
  | 0, _ => True
  | n + 1, s => match step s with
    | .next t => runsSafely n t
    | _ => False

/-! ## Frames -/

/-- The core of a slot keeps no state-change log, which would write memory (R306, R308). -/
def State.unlogged (s : State) (k : Nat) : Prop := (s.core (coreOf k)).trace.getLsbD 0 = false

/-- The slot as it stood at the issue of the bundle, whose registers both halves read (R65). -/
def State.issued (s : State) : Slot := s.iss.snap.getD s.me

/-- The issuing bundle may write x register `d`: it is not the register of a bound stream (R43). -/
def State.writable (s : State) (d : Reg) : Prop := s.issued.streamOf d = none

/-- Nothing of the state but the slots has changed. -/
def State.sameBeside (s t : State) : Prop := t = { s with slots := t.slots }

/-- Only the issuing slot has changed. -/
structure State.OnlyMe (s t : State) : Prop where
  beside : s.sameBeside t
  others : ∀ k, k ≠ s.cur → t.slot k = s.slot k

/-- Only x register `d` of the issuing slot has changed, with its present bit (R48): every other register, flag,
system register and slot, every table, and every byte of memory is as it was. -/
structure State.OnlyX (d : Reg) (s t : State) : Prop where
  onlyMe : s.OnlyMe t
  slot : t.me = { s.me with x := t.me.x, present := t.me.present }
  regs : ∀ r, r ≠ d → t.me.getX r = s.me.getX r
  here : ∀ n, n ≠ d.toNat → t.me.present.getLsbD n = s.me.present.getLsbD n
  mem : ∀ a, cellGet t.mem a = cellGet s.mem a
  ls : ∀ c a, cellGet (t.core c).ls a = cellGet (s.core c).ls a

/-- Two slots that differ at most in what releases and acquires leave there: the accumulator, the pending release of
a FENCE and the signatures that tokens carry (R106, R268 to R273). -/
def Slot.butSignatures (a b : Slot) : Prop :=
  b = { a with accCur := b.accCur, accPrev := b.accPrev, fenceRel := b.fenceRel, tokenSigs := b.tokenSigs }

/-- The bytes of the machine are as they were: home memory, and every local store outside the listed physical bytes
of core `c`. -/
structure State.OnlyBytes (c : Nat) (ps : List Nat) (s t : State) : Prop where
  mem : ∀ a, cellGet t.mem a = cellGet s.mem a
  others : ∀ k, k ≠ c → (t.core k).ls = (s.core k).ls
  outside : ∀ p, p ∉ ps → cellGet (t.core c).ls p = cellGet (s.core c).ls p

/-- No slot has changed but in its signatures. -/
def State.SlotsButSignatures (s t : State) : Prop := ∀ k, (s.slot k).butSignatures (t.slot k)

/-- `n` bytes from `a` up lie in the windows and in the share of the issuing slot, each at its physical place. -/
structure SpanOk (s : State) (a n : Nat) (phys : Nat → Nat) : Prop where
  ph : ∀ i, i < n → lsPhys (a + i) = some (phys (a + i))
  ok : ∀ i, i < n → lsOk s.me.lsbase.toNat s.me.lsbound.toNat (a + i) = true

end Sys2Proof.Machine
end

