-- ==== Sys2Proof/Certificates/Slice0/Obligations.lean ====
section
/-! DEFINITION. What is claimed of the model: one obligation for each group of the spec's rules. -/

open Sys2Proof Sys2Proof.Machine

/-- The machine after reset (R41, R45, R47, R167, R345, R358, R403): no event is due and the steward has booted; every
slot is EMPTY but slot 6 of a core, which waits for a message, every polder FREE with the limits that the register
list gives, every clock stands at 0 and every energy budget is full; nothing is listed in memory, and every byte of it
and of every local store reads as 0. That memory and the local stores read as 0 is the model's choice (log entry 2),
as is that the boot has succeeded (log entry 3). -/
def Obligations.ResetState : Prop :=
  State.reset.memoryWf ∧ State.reset.agenda = [] ∧ State.reset.steward.booted = true ∧ State.reset.steward.tripPin = false
  ∧ (∀ k, (State.reset.slot k).state = if k % 8 = 6 then .waitRecv else .empty) ∧ (∀ k r, (State.reset.slot k).getX r = 0 ∧ (State.reset.slot k).getV r = 0)
  ∧ (∀ w, (State.reset.polder w).state = .free ∧ (State.reset.polder w).peers = [] ∧ (State.reset.polder w).keys = none
      ∧ (State.reset.polder w).slice = 0x10000)
  ∧ (∀ c, (State.reset.core c).clock = 0 ∧ (State.reset.core c).energy = 1024 ∧ (State.reset.core c).ltWorld = none
      ∧ (State.reset.core c).deque = [] ∧ ∀ a, cellGet (State.reset.core c).ls a = 0)
  ∧ (∀ a, cellGet State.reset.mem a = 0) ∧ State.reset.granules = []

/-- The spec's own worked encodings (R64, R68, R71, and the examples of the instruction chapters) decode to the
instructions that they stand for, and what R64 and R70 call illegal decodes to nothing. -/
def Obligations.DecodedWords : Prop :=
  decodeTableWord 32 0x0000002D = some .nop
  ∧ decodeTableWord 32 0x00305281 = some (.add 5 5 24)
  ∧ decodeTableWord 32 0x08000C22 = some (.sbind 0 1 0)
  ∧ decodeTableWord 32 0x045632B8 = some (.ld ⟨2, 1, 1, 3, 3, 5⟩)
  ∧ decodeTableWord 32 0x864A4347 = some (.amoadd ⟨1, 3, 1, 5, 4, 6⟩)
  ∧ decodeTableWord 32 0x11847448 = some (.send 0 2 8 7 2 6)
  ∧ decodeTableWord 32 0x000286D3 = some (.qpush 1 13 8)
  ∧ decodeTableWord 32 0x825EE850 = some (.mma ⟨1, 0, 9, 15, 14, 16⟩)
  ∧ decodeTableWord 32 0x0016A05A = some (.tyield 0 10 11)
  ∧ decodeTableWord 32 0x0000D761 = some (.gstat 14 13)
  ∧ decodeTableWord 32 0x8000D65F = some (.ghash 1 12 13)
  ∧ decodeTableWord 32 0x8358B55D = some (.gsend 1 10 11 12 13)
  ∧ decodeTableWord 32 0x080E62F0 = some (.wsetGrant 5 6 7)
  ∧ decodeTableWord 32 0x080E62F1 = some (.wsealInstall 5 6 7)
  ∧ decodeTableWord 32 0x0160E666 = some (.xredAdd ⟨0, 0, 0, 5, 16, 14, 12⟩)
  ∧ decodeBundle 0xA4620904045632B8 = (.ok (.ld ⟨2, 1, 1, 3, 3, 5⟩), .ok (.vfma ⟨2, 9, 3, 2, 1, 4⟩))
  ∧ decodeBundle 0x704909550000002D = (.ok .nop, .ok (.vcvt ⟨1, 12, 2, 9, 1, 5⟩))
  ∧ decodeBundle 0x6400089C0000002D = (.ok .nop, .ok (.vmaxr ⟨1, 9, 0, 0, 1, 2⟩))
  ∧ decodeBundle 0x388311AB0000002D = (.ok .nop, .ok (.vbfly ⟨0, 14, 4, 3, 2, 6⟩))
  ∧ decodeBundle 0x000000000000002D = (.ok .nop, .ok .vnop)
  ∧ decodeBundle 0 = (.error .opcode, .ok .vnop)

/-- Decoding an encoded bundle gives its two operations back (R64, R68, R71), for every well-formed A-op and V-op with
every operand at every value, where a wide A-op stands beside VNOP; and every A-op and every V-op has an encoding. -/
def Obligations.DecodeEncode : Prop :=
  ∀ (a v : Instr), a.WellFormed → v.WellFormed →
    (a.half = .a → (encodeA a).isSome = true) ∧ (v.half = .v → (encodeV v).isSome = true)
    ∧ (∀ b, encodeBundle a v = some b → (∀ lo hi, encodeA a = some (lo, hi) → wideOp lo = true → v = .vnop) →
        decodeBundle b = (.ok a, .ok v))

/-- A step runs the decoded bundle (R51, R53, R58, R64, R65, R67): where nothing is due and the turn of core `c` is that
of slot `k`, whose next bundle stands in the instruction cache, the step issues that bundle: it charges the core, and
runs exec of the A-op and then exec of the V-op, each on the registers as they stood at issue, and moves the pc on;
where one half traps, only its trap takes place, and an uncorrectable word of a stream that the bundle reads traps
with 0x12 unless a half traps by rows 1 to 4 (that rank is the model's choice, log entry 108). A step with an event
due runs that event, whose effect is exec of its instruction, and one with nothing left in the cycle starts the next
cycle. What the rules leave open is filled by the model as log entries 7, 8, 10, 11 and 108 say. -/
def Obligations.StepRunsBundle : Prop :=
  ∀ (s : State), s.steward.booted = true → s.steward.tripPin = false → (∀ x, s.agenda.head? = some x → s.cycle < x.1) →
    (∀ (c k : Nat) (b : Word) (a v : Instr), leastFrom s.cursor (listedCores s) = some c →
      let s1 := { s with cursor := c + 1 }
      let s2 := { s1 with cur := k, iss := { snap := none, prio := none } }
      let sl := s.slot k
      missesLine s1 (c * 8 + s.cycle % 8) = false → turnSlot s1 c = some k → k % 8 ≠ 6 → ending s1 sl = false → noticeDue sl = false →
      breaksAt s1 k = false → inCode sl = true → fetchBundle s k = some b → decodeBundle b = (.ok a, .ok v) →
      doubleWrite (regUse a) (regUse v) = false → pendsOn sl (regUse a) (regUse v) = false → absentRegs sl (regUse a) (regUse v) = [] →
      let mask := streamsReadBy sl (regUse a) (regUse v)
      let s3 := chargeEnergy s2 k (bundleCost b)
      let settled := (settleStreams s3 k mask).modSlot k (fun x => { x with npc := pcAdd x.pc 8 })
      let s4 := issuing mask settled
      let s5 := issuing mask (acquireTokens settled k ((regUse a).xr ++ (regUse v).xr))
      let early := trapsEarly (exec a s4) || trapsEarly (exec v s4)
      (∀ sa t, rowOf (exec a s4) = none → rowOf (exec v s4) = none → streamFault s3 k mask = none → exec a s5 = .next sa →
        (sa.slot k).state ≠ .empty → exec v { sa with iss := { s5.iss with reads := sa.iss.reads } } = .next t →
        step s = .next (endBundle t k b))
      ∧ (∀ sa ra, exec a s4 = .next sa → sa.iss.prio = some ra → (∀ rv, rowOf (exec v s4) = some rv → ra ≤ rv) →
        early = true ∨ streamFault s3 k mask = none → step s = .next (endTrapped sa k))
      ∧ (∀ sv rv, exec v s4 = .next sv → sv.iss.prio = some rv → (∀ ra, rowOf (exec a s4) = some ra → rv < ra) →
        early = true ∨ streamFault s3 k mask = none → step s = .next (endTrapped sv k))
      ∧ (∀ ad, early = false → streamFault s3 k mask = some ad →
        step s = .next (endTrapped (trapAt s4 7 0x12 (BitVec.ofNat 64 ad)) k)))
    ∧ (leastFrom s.cursor (listedCores s) = none → step s = .next (nextCycle s) ∧ (nextCycle s).cycle = s.cycle + 1)
    ∧ (∀ (n : Nat) (e : Event) (rest : List (Nat × Event)), n ≤ s.cycle →
        step { s with agenda := (n, e) :: rest } = e.run { s with agenda := rest } ∧ ∃ i : Instr, ∀ x, e.run x = exec i x)

/-- An invariant that every step keeps: the home memory, every local store and every cluster store stay in their canonical
form, with addresses that rise and no listed zero, whatever the step does. -/
def Obligations.StepKeepsMemory : Prop :=
  ∀ s t : State, s.memoryWf → step s = .next t → t.memoryWf

/-- The frame of the scalar operations that write one register at issue (R79, R81 to R83, R86): where one of them answers
a next state, that state differs in x register d and its present bit alone: every other register, every flag and
system register, every special register and table, every other slot and every byte of memory is as it was. -/
def Obligations.ScalarFrame : Prop :=
  ∀ (s t : State) (d a b : Reg) (i : BitVec 15) (n : BitVec 6) (u : BitVec 20) (w : BitVec 32) (k : BitVec 2), s.writable d →
    ∀ op ∈ [Instr.add d a b, .sub d a b, .and d a b, .or d a b, .xor d a b, .sll d a b, .srl d a b, .sra d a b, .slt d a b,
        .sltu d a b, .min d a b, .max d a b, .minu d a b, .maxu d a b, .mul d a b, .mulh d a b, .mulhu d a b, .clz d a, .ctz d a, .popc d a, .addi d a i, .andi d a i, .ori d a i, .xori d a i,
        .slti d a i, .sltiu d a i, .slli d a n, .srli d a n, .srai d a n, .lui d u, .limm d w, .limmZx d w, .limmHi d w, .pget d a k],
      exec op s = .next t → s.OnlyX d t

/-- The ALU operations (R79, R80): X[d] becomes the result that R79 gives and the state is otherwise as it was; for CLZ,
CTZ and POPC by what the count says of the operand. DIV, DIVU, REM and REMU never trap: at issue the slot is in
WAIT_LONG with the quotient or remainder, the corner cases those of R80, and the result is due 36 cycles after issue,
from the cycle after which the slot may issue. The fields that R79 calls illegal decode to an error. -/
def Obligations.AluResults : Prop :=
  let illegal (op : BitVec 7) (bad : BitVec 32 → Prop) : Prop :=
    ∀ lo hi : BitVec 32, lo.extractLsb' 0 7 = op → bad lo → ∃ e, decodeA lo hi = .error e
  (∀ (s : State) (d x y : Reg), s.writable d →
      let a := s.rx x
      let b := s.rx y
      let result := fun w => Host.Outcome.next (s.modMe (·.putX d w))
      exec (.add d x y) s = result (a + b)
      ∧ exec (.sub d x y) s = result (a - b)
      ∧ exec (.and d x y) s = result (a &&& b)
      ∧ exec (.or d x y) s = result (a ||| b)
      ∧ exec (.xor d x y) s = result (a ^^^ b)
      ∧ exec (.sll d x y) s = result (a <<< (b.extractLsb' 0 6).toNat)
      ∧ exec (.srl d x y) s = result (a >>> (b.extractLsb' 0 6).toNat)
      ∧ exec (.sra d x y) s = result (BitVec.ofInt 64 (a.toInt / 2 ^ (b.extractLsb' 0 6).toNat))
      ∧ exec (.slt d x y) s = result (if a.toInt < b.toInt then 1 else 0)
      ∧ exec (.sltu d x y) s = result (if a.toNat < b.toNat then 1 else 0)
      ∧ exec (.min d x y) s = result (BitVec.ofInt 64 (min a.toInt b.toInt))
      ∧ exec (.max d x y) s = result (BitVec.ofInt 64 (max a.toInt b.toInt))
      ∧ exec (.minu d x y) s = result (BitVec.ofNat 64 (min a.toNat b.toNat))
      ∧ exec (.maxu d x y) s = result (BitVec.ofNat 64 (max a.toNat b.toNat))
      ∧ exec (.mul d x y) s = result (BitVec.ofNat 64 (a.toNat * b.toNat))
      ∧ exec (.mulh d x y) s = result ((a.signExtend 128 * b.signExtend 128).extractLsb' 64 64)
      ∧ exec (.mulhu d x y) s = result ((a.setWidth 128 * b.setWidth 128).extractLsb' 64 64))
  ∧ (∀ (s : State) (d x : Reg), s.writable d →
      let a := s.rx x
      let result := fun n => Host.Outcome.next (s.modMe (·.putX d (BitVec.ofNat 64 n)))
      (∃ n, exec (.clz d x) s = result n ∧ n ≤ 64 ∧ a.toNat < 2 ^ (64 - n) ∧ (n < 64 → a.getLsbD (63 - n)))
      ∧ (∃ n, exec (.ctz d x) s = result n ∧ n ≤ 64 ∧ 2 ^ n ∣ a.toNat ∧ (n = 64 → a = 0) ∧ (n < 64 → a.getLsbD n))
      ∧ exec (.popc d x) s = result ((List.range 64).countP a.getLsbD))
  ∧ (∀ (s : State) (d x y : Reg), s.writable d → s.me.state = .ready →
      let a := s.rx x
      let b := s.rx y
      let waits (w : Word) (o : Out) : Prop := ∃ t, o = .next t
        ∧ t.me.state = .waitLong ∧ t.me.wait = .long (some (d.toNat, w)) ∧ s.cycle + 37 ≤ t.me.longUntil
        ∧ (s.cycle + 37, Event.longLatencyResult s.cur) ∈ t.agenda
        ∧ t.me.x = s.me.x ∧ t.me.v = s.me.v ∧ t.me.pc = s.me.pc ∧ t.me.fflags = s.me.fflags
        ∧ (∀ k, k ≠ s.cur → t.slot k = s.slot k)
        ∧ (s.unlogged s.cur → t.mem = s.mem ∧ t.cores = s.cores)
      waits (if b = 0 then BitVec.allOnes 64 else a.sdiv b) (exec (.div d x y) s)
      ∧ waits (if b = 0 then BitVec.allOnes 64 else a / b) (exec (.divu d x y) s)
      ∧ waits (if b = 0 then a else a.srem b) (exec (.rem d x y) s)
      ∧ waits (if b = 0 then a else a % b) (exec (.remu d x y) s))
  ∧ illegal 0x01 (fun w => w.extractLsb' 22 5 ≠ 0 ∨ 24 ≤ w.extractLsb' 27 5 ∨ (21 ≤ w.extractLsb' 27 5 ∧ w.extractLsb' 17 5 ≠ 0))

/-- The register-immediate forms of R81, and R82 and R83: as their ALU counterparts with the sign-extended immediate, the
shifts by its six bits, and the constants of LUI and LIMM. A shift form with bits [14:6] of its immediate nonzero
decodes to an error. -/
def Obligations.ImmediateResults : Prop :=
  let illegal (op : BitVec 7) (bad : BitVec 32 → Prop) : Prop :=
    ∀ lo hi : BitVec 32, lo.extractLsb' 0 7 = op → bad lo → ∃ e, decodeA lo hi = .error e
  (∀ (s : State) (d x : Reg) (e : BitVec 15) (n : BitVec 6) (u : BitVec 20) (m : BitVec 32), s.writable d →
      let a := s.rx x
      let b : Word := e.signExtend 64
      let result := fun w => Host.Outcome.next (s.modMe (·.putX d w))
      exec (.addi d x e) s = result (a + b)
      ∧ exec (.andi d x e) s = result (a &&& b)
      ∧ exec (.ori d x e) s = result (a ||| b)
      ∧ exec (.xori d x e) s = result (a ^^^ b)
      ∧ exec (.slti d x e) s = result (if a.toInt < b.toInt then 1 else 0)
      ∧ exec (.sltiu d x e) s = result (if a.toNat < b.toNat then 1 else 0)
      ∧ exec (.slli d x n) s = result (a <<< n.toNat)
      ∧ exec (.srli d x n) s = result (a >>> n.toNat)
      ∧ exec (.srai d x n) s = result (BitVec.ofInt 64 (a.toInt / 2 ^ n.toNat))
      ∧ exec (.lui d u) s = result ((u ++ (0 : BitVec 12)).signExtend 64)
      ∧ exec (.limm d m) s = result (m.signExtend 64)
      ∧ exec (.limmZx d m) s = result (m.setWidth 64)
      ∧ exec (.limmHi d m) s = result (m ++ (s.rx d).extractLsb' 0 32))
  ∧ (illegal 0x08 fun w => w.extractLsb' 23 9 ≠ 0) ∧ (illegal 0x09 fun w => w.extractLsb' 23 9 ≠ 0)
    ∧ (illegal 0x0A fun w => w.extractLsb' 23 9 ≠ 0)

/-- Fat pointers: PADD and PADDI (R84), PSET (R85), PGET (R86) and PCHK (R87). The pointer, field or verdict that X[d]
becomes; where the address carries, the format code is reserved or the bounds fail, the trap with its cause and value,
and no register written; no form writes the register of a bound stream (R43); the fields that the rules call illegal
decode to an error. -/
def Obligations.FatPointers : Prop :=
  let illegal (op : BitVec 7) (bad : BitVec 32 → Prop) : Prop :=
    ∀ lo hi : BitVec 32, lo.extractLsb' 0 7 = op → bad lo → ∃ e, decodeA lo hi = .error e
  (∀ (s : State) (d x y z : Reg) (h : BitVec 3) (e : BitVec 15) (k : BitVec 2), s.writable d →
      let p := s.rx x
      let q := s.rx y
      let address (w : Word) : Int := (w.extractLsb' 0 57).toNat
      let format (w : Word) : BitVec 4 := w.extractLsb' 60 4
      let result := fun w => Host.Outcome.next (s.modMe (·.putX d w))
      let moved (by_ : Int) := result (p.extractLsb' 57 7 ++ BitVec.ofInt 57 (address p + by_))
      let fits (by_ : Int) : Prop := 0 ≤ address p + by_ ∧ address p + by_ < 2 ^ 57
      let ok : Prop := address q ≤ address p ∧ address p < address (s.rx z) ∧ format p ≠ 0xD ∧ format p ≠ 0xE
      let part : Word := if k = 0 then q.extractLsb' 0 4 ++ p.extractLsb' 0 60
        else if k = 1 then p.extractLsb' 60 4 ++ q.extractLsb' 0 3 ++ p.extractLsb' 0 57
        else p.extractLsb' 57 7 ++ q.extractLsb' 0 57
      (fits (q.toInt * 2 ^ h.toNat) → exec (.padd d x y h) s = moved (q.toInt * 2 ^ h.toNat))
      ∧ (fits e.toInt → exec (.paddi d x e) s = moved e.toInt)
      ∧ (format part ≠ 0xD → format part ≠ 0xE → exec (.pset d x y k) s = result part)
      ∧ exec (.pget d x 0) s = result ((p.extractLsb' 60 4).setWidth 64)
      ∧ exec (.pget d x 1) s = result ((p.extractLsb' 57 3).setWidth 64)
      ∧ exec (.pget d x 2) s = result ((p.extractLsb' 0 57).setWidth 64)
      ∧ exec (.pget d x 3) s = result (if p.extractLsb' 57 3 = 0 then 0
          else BitVec.ofNat 64 (2 ^ ((p.extractLsb' 57 3).toNat + 3)))
      ∧ (ok → exec (.pchk d x y z) s = result 1)
      ∧ (¬ ok → exec (.pchk d x y z) s = result 0)
      ∧ (ok → exec (.pchkTrap d x y z) s = result p))
  ∧ (∀ (s : State) (d x y z : Reg) (h : BitVec 3) (e : BitVec 15) (k : BitVec 2),
      let p := s.rx x
      let q := s.rx y
      let address (w : Word) : Int := (w.extractLsb' 0 57).toNat
      let format (w : Word) : BitVec 4 := w.extractLsb' 60 4
      let carries (by_ : Int) : Prop := address p + by_ < 0 ∨ 2 ^ 57 ≤ address p + by_
      let traps (o : Out) (cause : Nat) (v : Word) : Prop := ∃ t, o = .next t ∧ t.me.x = s.me.x ∧ t.me.v = s.me.v
        ∧ (t = { takeTrapAt s s.cur cause v with iss := t.iss })
      let streams (o : Out) : Prop := traps o 0x0C (d.setWidth 64)
      let bad (w : Word) : Prop := format w = 0xD ∨ format w = 0xE
      let part : Word := if k = 0 then q.extractLsb' 0 4 ++ p.extractLsb' 0 60
        else if k = 1 then p.extractLsb' 60 4 ++ q.extractLsb' 0 3 ++ p.extractLsb' 0 57
        else p.extractLsb' 57 7 ++ q.extractLsb' 0 57
      (s.writable d →
        (carries (q.toInt * 2 ^ h.toNat) → traps (exec (.padd d x y h) s) 0x05 (p + q <<< h.toNat))
        ∧ (carries e.toInt → traps (exec (.paddi d x e) s) 0x05 (p + e.signExtend 64))
        ∧ (bad part → traps (exec (.pset d x y k) s) 0x07 part)
        ∧ (bad p ∨ address p < address q ∨ address (s.rx z) ≤ address p → traps (exec (.pchkTrap d x y z) s) 0x06 p))
      ∧ (¬ s.writable d →
        streams (exec (.padd d x y h) s) ∧ streams (exec (.paddi d x e) s) ∧ streams (exec (.pset d x y k) s)
        ∧ streams (exec (.pget d x k) s) ∧ streams (exec (.pchk d x y z) s) ∧ streams (exec (.pchkTrap d x y z) s)
        ∧ streams (exec (.add d x y) s) ∧ streams (exec (.div d x y) s) ∧ streams (exec (.addi d x e) s)))
  ∧ (illegal 0x10 fun w => w.extractLsb' 22 5 ≠ 0 ∨ 8 ≤ w.extractLsb' 27 5)
    ∧ (illegal 0x12 fun w => w.extractLsb' 22 5 ≠ 0 ∨ 3 ≤ w.extractLsb' 27 5)
    ∧ (illegal 0x13 fun w => w.extractLsb' 17 5 ≠ 0 ∨ w.extractLsb' 22 5 ≠ 0 ∨ 4 ≤ w.extractLsb' 27 5)
    ∧ (illegal 0x14 fun w => 2 ≤ w.extractLsb' 27 5)

/-- The conditional branches (R88), JAL (R89) and JALR (R90). A branch goes to pc + off × 8 where its condition holds,
else to pc + 8, within the 57 bits of the pc (R41), and nothing else changes. A jump writes pc + 8 to the link
register, unless that is x0, and goes to the target; a target of JALR that is no multiple of 8 below 2^57 traps, and
the link register is not written. What the rules leave open is filled by the model as log entry 16 says. -/
def Obligations.BranchesAndJumps : Prop :=
  let illegal (op : BitVec 7) (bad : BitVec 32 → Prop) : Prop :=
    ∀ lo hi : BitVec 32, lo.extractLsb' 0 7 = op → bad lo → ∃ e, decodeA lo hi = .error e
  (∀ (s : State) (x y : Reg) (off : BitVec 15),
      let a := s.rx x
      let b := s.rx y
      let goes (c : Prop) [Decidable c] := Host.Outcome.next (s.modMe (fun sl => { sl with
        npc := (((if c then sl.pc + off.signExtend 64 * 8 else sl.pc + 8).setWidth 57).setWidth 64) }))
      exec (.beq x y off) s = goes (a = b)
      ∧ exec (.bne x y off) s = goes (a ≠ b)
      ∧ exec (.blt x y off) s = goes (a.toInt < b.toInt)
      ∧ exec (.bge x y off) s = goes (b.toInt ≤ a.toInt)
      ∧ exec (.bltu x y off) s = goes (a.toNat < b.toNat)
      ∧ exec (.bgeu x y off) s = goes (b.toNat ≤ a.toNat))
  ∧ (∀ (s : State) (d x : Reg) (off : BitVec 32) (e : BitVec 15), s.writable d →
      let next57 (w : Word) : Word := (w.setWidth 57).setWidth 64
      let jumps (target : Word) := Host.Outcome.next (s.modMe (fun sl => { sl.putX d (next57 (sl.pc + 8)) with npc := target }))
      let t := s.rx x + e.signExtend 64
      exec (.jal d off) s = jumps (next57 (s.me.pc + off.signExtend 64 * 8))
      ∧ (t.toNat % 8 = 0 → t.toNat < 2 ^ 57 → exec (.jalr d x e) s = jumps t)
      ∧ (t.toNat % 8 ≠ 0 ∨ 2 ^ 57 ≤ t.toNat → exec (.jalr d x e) s = trapOut s 5 0x03 t))
  ∧ (illegal 0x20 fun w => w.extractLsb' 12 5 ≠ 0)

/-- SBIND (R92, R93): of a descriptor that passes the checks, stream N is bound to it, every index and every
end-of-dimension flag 0, and no register, other stream or byte of memory changes; of one that fails, the checks trap
in their order with the descriptor's offset. SSKIP and BEOD of an unbound stream trap with its number (R95, R97). -/
def Obligations.StreamBinds : Prop :=
  (∀ (s : State) (n : BitVec 2) (ty : BitVec 3) (x : Reg),
      let off := (s.rx x).toNat
      let word (i : Nat) : Word := leWord (cellRead (s.core (coreOf s.cur)).ls (off + 8 * i) 8)
      let part (w : Word) : List (BitVec 16) := [w.extractLsb' 0 16, w.extractLsb' 16 16, w.extractLsb' 32 16, w.extractLsb' 48 16]
      let found : Stream :=
        { bound := true, ty := ty, base := (word 0).extractLsb' 0 16, ndim1 := ((word 0).extractLsb' 16 3).toNat,
          cnt := part (word 1), str := part (word 2), idx := [0, 0, 0, 0], eod := [false, false, false, false], ahead := [] }
      off % 32 = 0 → s.me.lsbase.toNat ≤ off → off + 32 ≤ s.me.lsbound.toNat → s.me.lsbound.toNat ≤ 49152 → s.poison = [] →
      (word 0).extractLsb' 19 45 = 0 → word 3 = 0 → found.wellFormed → found.inRange s.me.lsbase.toNat s.me.lsbound.toNat →
      ∃ t, exec (.sbind n ty x) s = .next t
        ∧ (∃ read, getStream t.me n = { found with ahead := read })
        ∧ (∀ m, m ≠ n → getStream t.me m = getStream s.me m)
        ∧ t.me = { s.me with streams := t.me.streams } ∧ (∀ k, k ≠ s.cur → t.slot k = s.slot k)
        ∧ t.mem = s.mem ∧ ∀ k, (t.core k).ls = (s.core k).ls ∧ (t.core k).emptyWords = (s.core k).emptyWords)
  ∧ (∀ (s : State) (n k : BitVec 2) (ty : BitVec 3) (x : Reg) (off15 : BitVec 15),
      let off := (s.rx x).toNat
      let word (i : Nat) : Word := leWord (cellRead (s.core (coreOf s.cur)).ls (off + 8 * i) 8)
      let inside : Prop := off % 32 = 0 ∧ s.me.lsbase.toNat ≤ off ∧ off + 32 ≤ s.me.lsbound.toNat
      let found : Stream := streamFrom ty (word 0) (word 1) (word 2)
      let reserved : Prop := (word 0).extractLsb' 19 45 ≠ 0 ∨ word 3 ≠ 0
      let sbind := exec (.sbind n ty x) s
      (¬ inside → sbind = trapOut s 5 0x0B (s.rx x))
      ∧ (inside → s.me.lsbound.toNat ≤ 49152 → s.poison = [] →
          (reserved → sbind = trapOut s 5 0x08 (s.rx x))
          ∧ (¬ reserved → found.wellFormed = false → sbind = trapOut s 5 0x0A (s.rx x))
          ∧ (¬ reserved → found.wellFormed → found.inRange s.me.lsbase.toNat s.me.lsbound.toNat = false →
              sbind = trapOut s 5 0x0B (s.rx x)))
      ∧ ((getStream s.me n).bound = false →
          exec (.sskip n x) s = trapOut s 5 0x09 (n.setWidth 64) ∧ exec (.beod n k off15) s = trapOut s 5 0x09 (n.setWidth 64)))

/-- SFREE (R96), SSKIP (R95) and BEOD (R97) of a bound stream: the first leaves an ordinary register that reads zero, the
second moves the indices on by X[s1] modulo the number of elements, from where the bundle's own read of the stream has
left them (log entry 101), the third branches on the flag of a dimension that the stream has. SFREE of an unbound
stream has no effect. -/
def Obligations.StreamMoves : Prop :=
  ∀ (s : State) (n k : BitVec 2) (x : Reg) (off : BitVec 15),
    let st := getStream s.me n
    let steps := (s.rx x).toNat % st.total
    let from_ := if s.iss.reads.getLsbD n.toNat then st.advance else st
    let w : Reg := 24 + n.setWidth 5
    let goes (c : Bool) := Host.Outcome.next (s.modMe (fun sl => { sl with
      npc := (((if c then sl.pc + off.signExtend 64 * 8 else sl.pc + 8).setWidth 57).setWidth 64) }))
    (st.bound = false → exec (.sfree n) s = .next s)
    ∧ (st.bound → ∃ t, exec (.sfree n) s = .next t ∧ t.me.streamOf w = none ∧ t.me.getX w = 0
        ∧ (∀ r, r ≠ w → t.me.getX r = s.me.getX r) ∧ (∀ m, m ≠ n → getStream t.me m = getStream s.me m)
        ∧ t.me.v = s.me.v ∧ t.me.fflags = s.me.fflags ∧ (∀ j, j ≠ s.cur → t.slot j = s.slot j)
        ∧ t.mem = s.mem ∧ t.cores = s.cores)
    ∧ (st.bound → ∃ t read, exec (.sskip n x) s = .next t ∧ getStream t.me n = { from_.skip steps with ahead := read }
        ∧ (∀ m, m ≠ n → getStream t.me m = getStream s.me m) ∧ t.me = { s.me with streams := t.me.streams }
        ∧ (∀ j, j ≠ s.cur → t.slot j = s.slot j) ∧ t.mem = s.mem ∧ t.cores = s.cores)
    ∧ (st.bound → exec (.beod n k off) s = goes (decide (k.toNat ≤ st.ndim1) && (st.eod[k.toNat]?).getD false))

/-- GETS (R44 to R48, R100): X[d] becomes the register's value at issue, as the register list and the maps lay it out.
What the rules leave open is filled by the model as log entries 6 and 15 say. -/
def Obligations.SystemReads : Prop :=
  ∀ (s : State) (d : Reg), s.writable d →
    let me := s.me
    let polder := s.polder me.world
    let core := s.core (coreOf s.cur)
    let reads (n : BitVec 10) (w : Word) : Prop := exec (.gets d n) s = .next (s.modMe (·.putX d w))
    let flag (b : Bool) (i : Nat) : Nat := if b then 2 ^ i else 0
    reads 0x000 (BitVec.ofNat 64 (me.prio % 64 * 2 ^ 8 + flag me.inh 7 + flag me.clamp 6 + flag core.ltWorld.isSome 5
      + flag (s.cur % 8 = 7) 4 + 1))
    ∧ reads 0x001 me.epc ∧ reads 0x002 me.cause ∧ reads 0x003 me.tval ∧ reads 0x004 me.estatus ∧ reads 0x005 me.tvec
    ∧ reads 0x008 me.arg0 ∧ reads 0x009 me.arg1 ∧ reads 0x00A me.done ∧ reads 0x00B me.groups ∧ reads 0x00C me.launch
    ∧ reads 0x010 me.round ∧ reads 0x011 (me.fflags.setWidth 64) ∧ reads 0x012 me.modq ∧ reads 0x013 me.tkerr
    ∧ reads 0x014 (me.present ||| 1) ∧ reads 0x018 (BitVec.ofNat 64 s.cycle)
    ∧ reads 0x019 (BitVec.ofNat 64 (s.moduleNo * 2 ^ 22 + s.cur)) ∧ reads 0x01A me.logical
    ∧ reads 0x020 (BitVec.ofNat 64 me.world) ∧ reads 0x021 me.lsbase ∧ reads 0x022 me.lsbound
    ∧ reads 0x023 polder.tbase ∧ reads 0x024 polder.ptbase ∧ reads 0x025 polder.split ∧ reads 0x026 polder.slice
    ∧ reads 0x027 polder.ageLimit ∧ reads 0x028 polder.tkExpiry ∧ reads 0x029 polder.wdog
    ∧ reads 0x02A (s.cluster (clusterOf s.cur)).stagger ∧ reads 0x02B polder.hvec
    ∧ reads 0x030 (BitVec.ofNat 64 core.clock) ∧ reads 0x031 (BitVec.ofNat 64 core.energy) ∧ reads 0x032 core.trace
    ∧ reads 0x033 me.bbcbase

/-- SETS (R44, R100) under each register's access code: what a write that passes its check leaves, with reserved bits
ignored (R12) and W1C bits cleared where X[s1] has 1 (R11); a register whose fields are all RO is illegal, an RWS
register written from a nonzero world a privilege fault, and a target, a modulus or a rounding mode that R48, R49,
R100 and R113 reject traps with the value. What the rules leave open is filled by the model as log entry 102 says. -/
def Obligations.SystemWrites : Prop :=
  (∀ (s : State) (x : Reg),
      let v := s.rx x
      let writes (n : BitVec 10) (f : Slot → Slot) : Prop := exec (.sets n x) s = .next (s.modMe f)
      let polder (n : BitVec 10) (f : Polder → Polder) : Prop := exec (.sets n x) s = .next (s.modPolder s.me.world f)
      let target : Prop := v.toNat % 8 = 0 ∧ v.toNat < 2 ^ 57
      writes 0x000 (fun sl => { sl with clamp := sl.clamp && !v.getLsbD 6 })
      ∧ (target → writes 0x001 (fun sl => { sl with epc := v })) ∧ (target → writes 0x005 (fun sl => { sl with tvec := v }))
      ∧ writes 0x002 (fun sl => { sl with cause := v &&& 0x1FF }) ∧ writes 0x003 (fun sl => { sl with tval := v })
      ∧ (v.toNat % 8 < 4 → writes 0x010 (fun sl => { sl with round := v &&& 3 }))
      ∧ writes 0x011 (fun sl => { sl with fflags := sl.fflags &&& ~~~(v.extractLsb' 0 5) })
      ∧ (v.toNat % 2 = 1 → 3 ≤ v.toNat → v.toNat < 2 ^ 62 → writes 0x012 (fun sl => { sl with modq := v }))
      ∧ writes 0x013 (fun sl => { sl with tkerr := v &&& 0x1FF }) ∧ writes 0x033 (fun sl => { sl with bbcbase := v })
      ∧ (s.me.world = 0 →
        writes 0x020 (fun sl => { sl with world := v.toNat % 32 }) ∧ writes 0x021 (fun sl => { sl with lsbase := v })
        ∧ writes 0x022 (fun sl => { sl with lsbound := v })
        ∧ polder 0x023 (fun p => { p with tbase := v &&& 0x1FFFFFFFFFFFFE0 })
        ∧ polder 0x024 (fun p => { p with ptbase := v &&& 0x1FFFFFFF000 })
        ∧ polder 0x025 (fun p => { p with split := v &&& 0x7F })
        ∧ (v = 0 ∨ 32 ≤ v.toNat → polder 0x026 (fun p => { p with slice := v }))
        ∧ polder 0x027 (fun p => { p with ageLimit := v }) ∧ polder 0x028 (fun p => { p with tkExpiry := v })
        ∧ polder 0x029 (fun p => { p with wdog := v }) ∧ (target → polder 0x02B (fun p => { p with hvec := v }))
        ∧ exec (.sets 0x02A x) s = .next (s.modCluster (clusterOf s.cur) (fun c => { c with stagger := v &&& 0xFFFF }))
        ∧ exec (.sets 0x032 x) s = .next (s.modCore (coreOf s.cur) (fun c => { c with traceNew := some (v &&& 0x1FFFFFFFFF1) })))
      ∧ (∀ (u : State) (c : Nat) (w : Word), (u.core c).traceNew = some w → traceApply u c = traceHeader (u.modCore c (fun co => { co with
          trace := w, traceNew := none, traceNext := 128, traceLast := u.cycle })) c))
  ∧ (∀ (s : State) (x : Reg) (n : BitVec 10),
      let v := s.rx x
      let o := exec (.sets n x) s
      let readOnly := [0x004, 0x008, 0x009, 0x00A, 0x00B, 0x00C, 0x014, 0x018, 0x019, 0x01A, 0x030, 0x031]
      let steward := [0x020, 0x021, 0x022, 0x023, 0x024, 0x025, 0x026, 0x027, 0x028, 0x029, 0x02A, 0x02B, 0x032]
      (n.toNat ∈ readOnly → ∃ bits, o = trapOut s 1 0x01 bits)
      ∧ (n.toNat ∈ steward → s.me.world ≠ 0 → o = trapOut s 3 0x02 (n.setWidth 64))
      ∧ (n = 0x001 ∨ n = 0x005 ∨ (n = 0x02B ∧ s.me.world = 0) → v.toNat % 8 ≠ 0 ∨ 2 ^ 57 ≤ v.toNat → o = trapOut s 5 0x03 v)
      ∧ (n = 0x012 → v.toNat % 2 = 0 ∨ v.toNat < 3 ∨ 2 ^ 62 ≤ v.toNat → o = trapOut s 5 0x0D v)
      ∧ (n = 0x010 → 4 ≤ v.toNat % 8 → ∃ bits, o = trapOut s 1 0x01 bits))

/-- A software trap (R102) enters the tenant handler as R112 says: status, pc, value and cause are saved, inh is set and
the slot goes on at sr.tvec, and no x or v register changes. In a handler it is a double trap for the steward with the
inner code (R115), and without a handler it goes to the steward under its own cause (R113): the slot is HALTED with
inh as it was, and the steward holds the fault record (R114). ERET (R103) in a handler goes on at sr.epc and restores
inh and clamp from sr.estatus; outside one it is an illegal instruction. HALT (R104) leaves the slot HALTED at its own
bundle, and NOP (R105) has no effect. What the rules leave open is filled by the model as log entry 12 says. -/
def Obligations.TrapsAndReturns : Prop :=
  (∀ (s : State) (e : BitVec 15), s.me.inh = false → s.me.tvec ≠ 0 → s.me.stopPending = false → s.me.state = .ready →
      ∃ t, exec (.trap e) s = .next t
        ∧ t.me = { s.me with
            estatus := statusWord s s.cur 1, epc := s.me.pc, tval := e.setWidth 64, cause := 0x0E, inh := true
            pc := s.me.tvec, npc := s.me.tvec, wait := .none, held := Held.none, streamsRead := 0, addSent := false }
        ∧ (∀ k, k ≠ s.cur → t.slot k = s.slot k) ∧ t.mem = s.mem ∧ t.cores = s.cores ∧ t.agenda = s.agenda
        ∧ t.steward = s.steward)
  ∧ (∀ (s : State) (e : BitVec 15), s.me.state = .ready →
      let goes (cause : Nat) (v : Word) : Prop := ∃ t, exec (.trap e) s = .next t
        ∧ t.me.state = .halted ∧ t.me.inh = s.me.inh ∧ t.me.epc = s.me.pc ∧ t.me.pc = s.me.pc
        ∧ t.me.cause = BitVec.ofNat 64 cause ∧ t.me.tval = v ∧ t.me.estatus = statusWord s s.cur 1
        ∧ t.me.x = s.me.x ∧ t.me.v = s.me.v
        ∧ t.steward.posted = s.steward.posted ++ [((endpoint s s.cur).toNat, s.me.pc, BitVec.ofNat 64 cause, v)]
        ∧ (∀ k, k ≠ s.cur → t.slot k = s.slot k)
      (s.me.inh = true → goes 0x1A 0x0E)
      ∧ (s.me.inh = false → s.me.tvec = 0 → goes 0x0E (e.setWidth 64)))
  ∧ (∀ (s : State),
      (s.me.inh = true → exec .eret s = .next (s.modMe (fun sl => { sl with
        npc := sl.epc, inh := sl.estatus.getLsbD 7, clamp := sl.estatus.getLsbD 6 })))
      ∧ (s.me.inh = false → exec .eret s = trapOut s 1 0x01 0x2B)
      ∧ (s.me.state = .ready → ∃ t, exec .halt s = .next t ∧ t.me.state = .halted ∧ t.me.npc = s.me.pc ∧ t.me.pc = s.me.pc
          ∧ t.me.x = s.me.x ∧ t.me.v = s.me.v ∧ t.me.pending = s.me.pending
          ∧ (∀ k, k ≠ s.cur → t.slot k = s.slot k) ∧ (s.unlogged s.cur → t.mem = s.mem ∧ t.cores = s.cores))
      ∧ exec .nop s = .next s)

/-- The bitwise V-ops (R180) act on all 128 bits whatever the type, and VNOP (R64) does nothing. The modular VMODADD and
VMODSUB (R49, R192) write each lane reduced by the modulus; without one, each of the four modular V-ops traps with
invalid modulus and writes nothing. -/
def Obligations.VectorLogic : Prop :=
  (∀ (s : State) (v : VF), s.me.state.waiting = false →
      let a := s.rv v.va
      let b := s.rv v.vb
      let c := s.rv v.vc
      let result := fun r => Host.Outcome.next (s.modMe (·.putV v.vd r))
      exec .vnop s = .next s
      ∧ exec (.vand v) s = result (a &&& b) ∧ exec (.vor v) s = result (a ||| b) ∧ exec (.vxor v) s = result (a ^^^ b)
      ∧ exec (.vnot v) s = result (~~~a) ∧ exec (.vsel v) s = result ((a &&& c) ||| (b &&& ~~~c)))
  ∧ (∀ (s : State) (v : VF), s.me.state.waiting = false →
      let q := s.issued.modq.toNat
      let lanesAre (o : Out) (f : Nat → Nat → Nat) : Prop := ∃ r, o = .next (s.modMe (·.putV v.vd r))
        ∧ ∀ i, i < 2 → lane r i 64 = f (lane (s.rv v.va) i 64) (lane (s.rv v.vb) i 64)
      (q ≠ 0 → lanesAre (exec (.vmodadd v) s) (fun a b => (a + b) % q)
        ∧ lanesAre (exec (.vmodsub v) s) (fun a b => (((a : Int) - b) % q).toNat))
      ∧ (q = 0 → exec (.vmodadd v) s = trapOut s 6 0x0D 0 ∧ exec (.vmodsub v) s = trapOut s 6 0x0D 0
          ∧ exec (.vmodmul v) s = trapOut s 6 0x0D 0 ∧ exec (.vbfly v) s = trapOut s 6 0x0D 0))

/-- The lanes that V-ops on integer types write (R169, R176, R178, R179, R181, R182): each from the lanes of the same
index, read signed or unsigned per the type; wrapped, clamped (.sat) or the high half (.hi); a compare all ones or
zero. No flag is raised. -/
def Obligations.IntegerLanes : Prop :=
  ∀ (s : State) (v : VF), s.me.state.waiting = false → v.ty.toNat < 8 →
    let w := typeWidth v.ty.toNat
    let num (x : Nat) : Int := if v.ty.toNat < 4 ∧ 2 ^ (w - 1) ≤ x then (x : Int) - 2 ^ w else x
    let lo : Int := if v.ty.toNat < 4 then -2 ^ (w - 1) else 0
    let hi : Int := if v.ty.toNat < 4 then 2 ^ (w - 1) - 1 else 2 ^ w - 1
    let wrap (e : Int) : Nat := (e % 2 ^ w).toNat
    let clamp (e : Int) : Nat := wrap (max lo (min hi e))
    let ones (c : Prop) [Decidable c] : Nat := if c then 2 ^ w - 1 else 0
    let lanesAre (o : Out) (f : Nat → Nat → Nat) : Prop := ∃ r, o = .next (s.modMe (·.putV v.vd r))
      ∧ ∀ i, i < 128 / w → lane r i w = f (lane (s.rv v.va) i w) (lane (s.rv v.vb) i w)
    (v.mode = 0 →
      lanesAre (exec (.vadd v) s) (fun a b => wrap (num a + num b))
      ∧ lanesAre (exec (.vsub v) s) (fun a b => wrap (num a - num b))
      ∧ lanesAre (exec (.vmul v) s) (fun a b => wrap (num a * num b))
      ∧ lanesAre (exec (.vmin v) s) (fun a b => wrap (min (num a) (num b)))
      ∧ lanesAre (exec (.vmax v) s) (fun a b => wrap (max (num a) (num b)))
      ∧ lanesAre (exec (.vabs v) s) (fun a _ => wrap |num a|)
      ∧ lanesAre (exec (.vneg v) s) (fun a _ => wrap (-num a))
      ∧ lanesAre (exec (.vsll v) s) (fun a b => a * 2 ^ (b % w) % 2 ^ w)
      ∧ lanesAre (exec (.vsrl v) s) (fun a b => a / 2 ^ (b % w))
      ∧ lanesAre (exec (.vsra v) s) (fun a b => wrap ((if 2 ^ (w - 1) ≤ a then (a : Int) - 2 ^ w else a) / 2 ^ (b % w)))
      ∧ lanesAre (exec (.vcmpeq v) s) (fun a b => ones (num a = num b))
      ∧ lanesAre (exec (.vcmplt v) s) (fun a b => ones (num a < num b))
      ∧ lanesAre (exec (.vcmple v) s) (fun a b => ones (num a ≤ num b)))
    ∧ (v.mode = 1 →
      lanesAre (exec (.vadd v) s) (fun a b => clamp (num a + num b))
      ∧ lanesAre (exec (.vsub v) s) (fun a b => clamp (num a - num b))
      ∧ lanesAre (exec (.vmul v) s) (fun a b => clamp (num a * num b))
      ∧ lanesAre (exec (.vabs v) s) (fun a _ => clamp |num a|)
      ∧ lanesAre (exec (.vneg v) s) (fun a _ => clamp (-num a)))
    ∧ (v.mode = 2 → lanesAre (exec (.vmul v) s) (fun a b => wrap (num a * num b / 2 ^ w)))

/-- The lanes and flags that V-ops on floating-point types write (R171, R175, R177 to R179, R182, R189, R190): each lane
the operation on the values of the patterns of the same index, rounded once in the mode of R73; the flags of all lanes
ORed into sr.fflags. -/
def Obligations.FloatLanes : Prop :=
  ∀ (s : State) (v : VF), s.me.state.waiting = false → 8 ≤ v.ty.toNat → v.ty.toNat < 14 →
    let w := typeWidth v.ty.toNat
    let fm := fmtOf v.ty.toNat
    let rm : RMode := if v.mode = 0 then s.issued.round.toNat % 4 else if v.mode = 1 then 0 else 1
    let val := decodeF fm
    let lanesAre (o : Out) (f : Nat → Nat → Nat → Nat × BitVec 5) : Prop :=
      let lane3 (i : Nat) := f (lane (s.rv v.va) i w) (lane (s.rv v.vb) i w) (lane (s.rv v.vc) i w)
      ∃ r, o = .next (s.modMe (fun sl => (sl.putV v.vd r).addFlags
          (((List.range (128 / w)).map (fun i => (lane3 i).2)).foldl (· ||| ·) 0)))
        ∧ ∀ i, i < 128 / w → lane r i w = (lane3 i).1 % 2 ^ w
    let nanOr (a : Nat) (p : Nat) : Nat × BitVec 5 :=
      if (val a).isNan then (fm.nanPat, if (val a).isSnan then flNV else 0) else (p, 0)
    let ordered (quiet : Bool) (c : Int → Bool) (a b : Nat) : Nat × BitVec 5 :=
      if (val a).isNan ∨ (val b).isNan then (0, if quiet = false ∨ (val a).isSnan ∨ (val b).isSnan then flNV else 0)
      else (if c (cmpF (val a) (val b)) then 2 ^ w - 1 else 0, 0)
    lanesAre (exec (.vadd v) s) (fun a b _ => finishF fm rm (addF rm (val a) (val b)))
    ∧ lanesAre (exec (.vsub v) s) (fun a b _ => finishF fm rm (addF rm (val a) (val b).flip))
    ∧ lanesAre (exec (.vmul v) s) (fun a b _ => finishF fm rm (mulF (val a) (val b)))
    ∧ lanesAre (exec (.vfma v) s) (fun a b c => finishF fm rm (fmaF rm (val a) (val b) (val c)))
    ∧ lanesAre (exec (.vfms v) s) (fun a b c => finishF fm rm (fmaF rm (val a) (val b) (val c).flip))
    ∧ lanesAre (exec (.vmin v) s) (fun a b _ => minMaxF fm false a b)
    ∧ lanesAre (exec (.vmax v) s) (fun a b _ => minMaxF fm true a b)
    ∧ lanesAre (exec (.vabs v) s) (fun a _ _ => nanOr a (a % fm.signBit))
    ∧ lanesAre (exec (.vneg v) s) (fun a _ _ => nanOr a (a ^^^ fm.signBit))
    ∧ lanesAre (exec (.vcmpeq v) s) (fun a b _ => ordered true (· == 0) a b)
    ∧ lanesAre (exec (.vcmplt v) s) (fun a b _ => ordered (v.mode == 1) (fun c => decide (c < 0)) a b)
    ∧ lanesAre (exec (.vcmple v) s) (fun a b _ => ordered (v.mode == 1) (fun c => decide (c ≤ 0)) a b)
    ∧ lanesAre (exec (.vrcp v) s) (fun a _ _ => rcpF fm a)
    ∧ lanesAre (exec (.vrsq v) s) (fun a _ _ => rsqF fm a)
    ∧ lanesAre (exec (.vrcps v) s) (fun a b _ => stepF fm rm 2 false (val a) (val b))
    ∧ lanesAre (exec (.vrsqs v) s) (fun a b _ => stepF fm rm 3 true (val a) (val b))

/-- VSHUF (R184), VBCAST, VINS and VEXT (R185), and VCVT (R183): where each lane comes from, and that a narrowing
conversion keeps the lanes outside its part. -/
def Obligations.LaneMoves : Prop :=
  ∀ (s : State) (v : VF), s.me.state.waiting = false →
    let w := typeWidth v.ty.toNat
    let n := 128 / w
    let ws := typeWidth v.vb.toNat
    let rm : RMode := if v.mode = 0 then s.issued.round.toNat % 4 else if v.mode = 1 then 0 else 1
    let conv (a : Nat) := convLane rm v.vb.toNat v.ty.toNat a
    let lanesAre (o : Out) (f : Nat → Nat) : Prop := ∃ r, o = .next (s.modMe (·.putV v.vd r))
      ∧ ∀ i, i < n → lane r i w = f i
    let lanesFlag (o : Out) (f : Nat → Nat) (fl : BitVec 5) : Prop :=
      ∃ r, o = .next (s.modMe (fun sl => (sl.putV v.vd r).addFlags fl)) ∧ ∀ i, i < n → lane r i w = f i
    let ored (m : Nat) (g : Nat → Nat) : BitVec 5 := ((List.range m).map (fun i => (conv (g i)).2)).foldl (· ||| ·) 0
    lanesAre (exec (.vshuf v) s) (fun i =>
      let j := lane (s.rv v.vc) i w
      if j < n then lane (s.rv v.va) j w else if j < 2 * n then lane (s.rv v.vb) (j - n) w else 0)
    ∧ lanesAre (exec (.vbcast v) s) (fun _ => (s.rx v.va).toNat % 2 ^ w)
    ∧ lanesAre (exec (.vins v) s) (fun i => if i = v.vb.toNat then (s.rx v.va).toNat % 2 ^ w else lane (s.rv v.vd) i w)
    ∧ (s.writable v.vd → exec (.vext v) s = .next (s.modMe (·.putX v.vd
        (if v.ty.toNat < 4 then BitVec.ofInt 64 (signedOf w (lane (s.rv v.va) v.vb.toNat w))
         else BitVec.ofNat 64 (lane (s.rv v.va) v.vb.toNat w)))))
    ∧ (ws < w → v.vc.toNat < w / ws →
        let source (i : Nat) : Nat := lane (s.rv v.va) (v.vc.toNat * n + i) ws
        lanesFlag (exec (.vcvt v) s) (fun i => (conv (source i)).1 % 2 ^ w) (ored n source))
    ∧ (w ≤ ws → v.vc.toNat < ws / w →
        let m := 128 / ws
        let p := v.vc.toNat
        let source (i : Nat) : Nat := lane (s.rv v.va) i ws
        lanesFlag (exec (.vcvt v) s)
          (fun i => if p * m ≤ i ∧ i < p * m + m then (conv (source (i - p * m))).1 % 2 ^ w else lane (s.rv v.vd) i w)
          (ored m source))

/-- VDOT, VSUMR and VMAXR (R186 to R188): on integer types the exact sum and the accumulator, wrapped, or the greatest
lane or magnitude, in the low bits with every other bit 0; on floating-point types the tree of R145 with the
accumulator added at its root, or the greatest pattern in the order of VMAX. What the rules leave open is filled by
the model as log entry 36 says. -/
def Obligations.VectorReductions : Prop :=
  ∀ (s : State) (v : VF), s.me.state.waiting = false →
    let t := v.ty.toNat
    let w := typeWidth t
    let n := 128 / w
    let va (i : Nat) := lane (s.rv v.va) i w
    let vb (i : Nat) := lane (s.rv v.vb) i w
    let num (x : Nat) : Int := if t < 4 then signedOf w x else x
    let aw := if w = 64 then 64 else 32
    let acc : Int := ((s.rv v.vc).toNat % 2 ^ aw : Nat)
    let result := fun r => Host.Outcome.next (s.modMe (·.putV v.vd r))
    let value (x : Nat) : FVal := decodeF (fmtOf t) x
    let f := if t = 8 then Fmt.f64 else Fmt.f32
    let rm : RMode := if v.mode = 0 then s.issued.round.toNat % 4 else if v.mode = 1 then 0 else 1
    let tree (terms : List (FVal × BitVec 5)) : Out :=
      let root := treeSum f rm 4 terms
      let sum := finishF f rm (addF rm (decodeF f ((s.rv v.vc).toNat % 2 ^ f.width)) root.1)
      .next (s.modMe (fun sl => (sl.putV v.vd (BitVec.ofNat 128 sum.1)).addFlags (root.2 ||| sum.2)))
    let measure (x : Nat) : Int := if v.mode = 1 then |num x| else num x
    (t < 8 →
      exec (.vdot v) s = result (BitVec.ofNat 128 ((((List.range n).map (fun i => num (va i) * num (vb i))).sum + acc) % 2 ^ aw).toNat)
      ∧ exec (.vsumr v) s = result (BitVec.ofNat 128 ((((List.range n).map (fun i => num (va i))).sum + acc) % 2 ^ aw).toNat)
      ∧ ∃ j, j < n ∧ (∀ i, i < n → measure (va i) ≤ measure (va j))
          ∧ exec (.vmaxr v) s = result (BitVec.ofNat 128 (measure (va j) % 2 ^ w).toNat))
    ∧ (8 ≤ t → t < 14 →
      exec (.vdot v) s = tree ((List.range n).map (fun i => mulF (value (va i)) (value (vb i))))
      ∧ exec (.vsumr v) s = tree ((List.range n).map (fun i => (value (va i), 0)))
      ∧ let top := maxFold (fmtOf t) ((List.range n).map (fun i => if v.mode = 1 then va i % (fmtOf t).signBit else va i))
        exec (.vmaxr v) s = .next (s.modMe (fun sl => (sl.putV v.vd (BitVec.ofNat 128 top.1)).addFlags top.2)))

/-- The long-latency V-ops (R173, R191 to R193): the slot is in WAIT_LONG at issue with its results and flags held, those
of VEXP2 and VLOG2 due 24 cycles after issue and those of VMODMUL and VBFLY 20; no register changes yet. Beside a
parked A-op a V-op's results are held too, and no register or flag changes until the bundle commits (R65). What the
rules leave open is filled by the model as log entries 20 and 80 say. -/
def Obligations.LongVectorOps : Prop :=
  (∀ (s : State) (v : VF), s.me.state = .ready → s.me.held = Held.none →
      let w := typeWidth v.ty.toNat
      let fm := fmtOf v.ty.toNat
      let q := s.issued.modq.toNat
      let rm : RMode := if v.mode = 0 then s.issued.round.toNat % 4 else if v.mode = 1 then 0 else 1
      let a (i : Nat) := lane (s.rv v.va) i 64
      let product (i : Nat) : Nat := lane (s.rv v.vc) i 64 * lane (s.rv v.vb) i 64
      let holds (o : Out) (latency : Nat) (vs : List (Nat × Vec)) (fl : BitVec 5) : Prop := ∃ t, o = .next t
        ∧ t.me.state = .waitLong ∧ t.me.held.vregs = vs ∧ t.me.held.flags = fl ∧ s.cycle + latency + 1 ≤ t.me.longUntil
        ∧ (s.cycle + latency + 1, Event.longLatencyResult s.cur) ∈ t.agenda
        ∧ t.me.x = s.me.x ∧ t.me.v = s.me.v ∧ t.me.fflags = s.me.fflags ∧ t.me.pc = s.me.pc
        ∧ (∀ k, k ≠ s.cur → t.slot k = s.slot k) ∧ (s.unlogged s.cur → t.mem = s.mem ∧ t.cores = s.cores)
      let special (o : Out) (f : Nat → Nat × BitVec 5) : Prop := ∃ r, holds o 24 [(v.vd.toNat, r)]
          (((List.range (128 / w)).map (fun i => (f (lane (s.rv v.va) i w)).2)).foldl (· ||| ·) 0)
        ∧ ∀ i, i < 128 / w → lane r i w = (f (lane (s.rv v.va) i w)).1 % 2 ^ w
      special (exec (.vexp2 v) s) (exp2F fm rm) ∧ special (exec (.vlog2 v) s) (log2F fm rm)
      ∧ (0 < q →
        (∃ r, holds (exec (.vmodmul v) s) 20 [(v.vd.toNat, r)] 0
          ∧ ∀ i, i < 2 → lane r i 64 = lane (s.rv v.va) i 64 * lane (s.rv v.vb) i 64 % q)
        ∧ (∃ up down, holds (exec (.vbfly v) s) 20 [(v.vd.toNat, up), ((v.vd + 1).toNat, down)] 0
          ∧ ∀ i, i < 2 → lane up i 64 = (a i + product i) % q
            ∧ lane down i 64 = (((a i : Int) - product i) % q).toNat)))
  ∧ (∀ (s : State) (v : VF), s.me.state.waiting = true →
      let holds (o : Out) : Prop := ∃ t r, o = .next t ∧ t.me.held.vregs = s.me.held.vregs ++ [(v.vd.toNat, r)]
        ∧ t.me = { s.me with held := t.me.held } ∧ (∀ k, k ≠ s.cur → t.slot k = s.slot k) ∧ s.sameBeside t
      holds (exec (.vand v) s) ∧ holds (exec (.vadd v) s) ∧ holds (exec (.vcmplt v) s) ∧ holds (exec (.vshuf v) s)
      ∧ holds (exec (.vbcast v) s) ∧ holds (exec (.vdot v) s) ∧ holds (exec (.vrcp v) s))

/-- LD, ST, LDP, SFE, and LDS of a full word and STF to a word without waiter, where the bytes lie in the world's share of
the own local store (R151, R152, R155, R159, R199 to R203): the value loaded, extended by its type; the bytes stored,
and no other; the full/empty bit as the instruction leaves it; no other register, flag or slot, whatever the order
suffix. -/
def Obligations.LocalScalarAccesses : Prop :=
  ∀ (s : State) (m : MemF), s.poison = [] →
    let c := coreOf s.cur
    let ea (scale : Nat) : Nat := (s.rx m.s1 + m.disp.signExtend 64 * BitVec.ofNat 64 scale).toNat % 2 ^ 57
    let phys (a : Nat) : Nat := if a < 0xC000 then a
      else let o := a - 0x10000; o / 128 * 128 + ((o / 16 % 8) ^^^ (o / 128 % 8)) * 16 + o % 16
    let places (a n : Nat) : List Nat := (List.range n).map (fun i => phys (a + i))
    let inside (a n : Nat) : Prop := ∀ i, i < n → (a + i < 0xC000 ∨ (0x10000 ≤ a + i ∧ a + i < 0x1C000))
      ∧ s.me.lsbase.toNat ≤ phys (a + i) ∧ phys (a + i) < s.me.lsbound.toNat
    let value (a n : Nat) : Nat := leNat ((places a n).map (cellGet (s.core c).ls))
    let wide (t n x : Nat) : Word := if 4 ≤ t then BitVec.ofInt 64 (signedOf (8 * n) x) else BitVec.ofNat 64 x
    let full (u : State) (w : Nat) : Prop := w ∉ (u.core c).emptyWords
    let loads (o : Out) (w : Word) : Prop := ∃ t, o = .next t ∧ (s.me.putX m.d w).butSignatures t.me
      ∧ (∀ k, k ≠ s.cur → (s.slot k).butSignatures (t.slot k)) ∧ s.OnlyBytes c [] t
    let stores (o : Out) (a n : Nat) : Prop := ∃ t, o = .next t ∧ s.SlotsButSignatures t ∧ s.OnlyBytes c (places a n) t
      ∧ (∀ i, i < n → cellGet (t.core c).ls (phys (a + i)) = (s.rx m.d).extractLsb' (8 * i) 8)
    let sameBits (t : State) (word : Nat) : Prop := ∀ w, w ≠ word → (full t w ↔ full s w)
    let n := 2 ^ (m.w.toNat % 4)
    let a := ea n
    let word := phys a / 8
    (a % n = 0 → inside a n →
      (s.writable m.d → loads (exec (.ld m) s) (wide m.w.toNat n (value a n)))
      ∧ stores (exec (.st m) s) a n
      ∧ (s.writable m.d → full s word → loads (exec (.lds m) s) (wide m.w.toNat n (value a n))
          ∧ ∀ t, exec (.lds m) s = .next t → ¬ full t word ∧ sameBits t word)
      ∧ ((s.core c).waiters.find? (·.word == word) = none → stores (exec (.stf m) s) a n
          ∧ ∀ t, exec (.stf m) s = .next t → full t word ∧ sameBits t word))
    ∧ (ea 8 % 8 = 0 → inside (ea 8) 8 →
      let word := phys (ea 8) / 8
      (s.writable m.d → loads (exec (.ldp m) s) (if word ∈ (s.core c).emptyWords then 0 else 1))
      ∧ ((s.rx m.d).getLsbD 0 = false → ∃ t, exec (.sfe m) s = .next t ∧ s.OnlyBytes c [] t ∧ s.SlotsButSignatures t
          ∧ ¬ full t word ∧ sameBits t word)
      ∧ ((s.rx m.d).getLsbD 0 = true → (s.core c).waiters.find? (·.word == word) = none →
          ∃ t, exec (.sfe m) s = .next t ∧ s.OnlyBytes c [] t ∧ s.SlotsButSignatures t ∧ full t word ∧ sameBits t word))

/-- The atomics on the own local store (R209 to R211): X[d] becomes the old value, the bytes the new value of the
operation's row, and no other byte, register or slot changes; only AMOFADD raises flags. -/
def Obligations.LocalAtomics : Prop :=
  ∀ (s : State) (m : AmoF), s.poison = [] → s.writable m.d →
    let c := coreOf s.cur
    let a := (s.rx m.s1).toNat % 2 ^ 57
    let performs (o : Out) (n : Nat) (f : Nat → Nat → Nat × BitVec 5) : Prop :=
      let places := physOf (span a n)
      let old := leNat (places.map (cellGet (s.core c).ls))
      let new := f old ((s.rx m.s2).toNat % 2 ^ (8 * n))
      a % n = 0 → (∀ i, i < n → lsOk s.me.lsbase.toNat s.me.lsbound.toNat (a + i)) →
      ∃ t, o = .next t ∧ ((s.me.putX m.d (BitVec.ofNat 64 old)).addFlags new.2).butSignatures t.me
        ∧ (∀ k, k ≠ s.cur → (s.slot k).butSignatures (t.slot k)) ∧ s.OnlyBytes c places t
        ∧ ∀ (i p : Nat), places[i]? = some p → cellGet (t.core c).ls p = BitVec.ofNat 8 (new.1 / 2 ^ (8 * i))
    let n := if m.wide = 1 then 8 else 4
    let span := 2 ^ (8 * n)
    let num (x : Nat) : Int := if x < span / 2 then (x : Int) else (x : Int) - span
    let integer (o : Out) (f : Nat → Nat → Nat) : Prop := performs o n (fun x b => (f x b, 0))
    let fm := if m.wide = 1 then Fmt.bf16 else Fmt.f32
    integer (exec (.amoadd m) s) (fun x b => (x + b) % span)
    ∧ integer (exec (.amoand m) s) (· &&& ·) ∧ integer (exec (.amoor m) s) (· ||| ·)
    ∧ integer (exec (.amoxor m) s) (· ^^^ ·) ∧ integer (exec (.amoswap m) s) (fun _ b => b)
    ∧ integer (exec (.amomin m) s) (fun x b => if num x < num b then x else b)
    ∧ integer (exec (.amomax m) s) (fun x b => if num x < num b then b else x)
    ∧ integer (exec (.amominu m) s) min ∧ integer (exec (.amomaxu m) s) max
    ∧ integer (exec (.amocas m) s) (fun x b => if x = (s.rx m.d).toNat % span then b else x)
    ∧ performs (exec (.amofadd m) s) (if m.wide = 1 then 2 else 4)
        (fun x b => finishF fm 0 (addF 0 (decodeF fm x) (decodeF fm b)))

/-- VLD, VST, VLDT, VLDD, VLDX and VSTX on the own local store, every byte in the share (R153, R205 to R208): an access of
one pass is complete at issue, with the bytes in the places that the rules give them; one of more passes leaves the
slot in WAIT_MEM with its registers as they were, and its pass event goes on with it. What the rules leave open is
filled by the model as log entry 25 says. -/
def Obligations.LocalVectorAccesses : Prop :=
  ∀ (s : State) (m : MemF) (g : MrrF), s.poison = [] → s.me.state = .ready →
    let c := coreOf s.cur
    let ea (scale : Nat) : Nat := (s.rx m.s1 + m.disp.signExtend 64 * BitVec.ofNat 64 scale).toNat % 2 ^ 57
    let single (vas : List Nat) : Prop := ((chunksOf (physOf vas)).map (· % 8)).Nodup
    let inside (vas : List Nat) : Prop := ∀ a ∈ vas, lsOk s.me.lsbase.toNat s.me.lsbound.toNat a
    let bytes (vas : List Nat) : List Byte := (physOf vas).map (cellGet (s.core c).ls)
    let parks (o : Out) (vas : List Nat) : Prop := ∃ t r, o = .next t ∧ t.me.state = .waitMem ∧ t.me.wait = .mem r
      ∧ r.vas = vas ∧ r.chunks ≠ [] ∧ t.me.x = s.me.x ∧ t.me.v = s.me.v ∧ t.me.fflags = s.me.fflags
    let loads (o : Out) (vas : List Nat) (result : List Byte → Slot → Prop) : Prop := inside vas →
      (single vas → ∃ t u, o = .next t ∧ result (bytes vas) u ∧ u.butSignatures t.me
        ∧ (∀ k, k ≠ s.cur → (s.slot k).butSignatures (t.slot k)) ∧ s.OnlyBytes c [] t)
      ∧ (¬ single vas → parks o vas)
    let stores (o : Out) (vas : List Nat) (data : List Byte) : Prop := inside vas →
      (single vas → ∃ t, o = .next t ∧ s.SlotsButSignatures t ∧ s.OnlyBytes c (physOf vas) t
        ∧ ∀ i p : Nat, (physOf vas)[i]? = some p → (∀ j, i < j → (physOf vas)[j]? ≠ some p) →
            some (cellGet (t.core c).ls p) = data[i]?)
      ∧ (¬ single vas → parks o vas)
    let register (d : Reg) (bs : List Byte) (u : Slot) : Prop :=
      ∃ r, u = s.me.putV d r ∧ ∀ k, k < 16 → some (r.extractLsb' (8 * k) 8) = bs[k]?
    let vector (v : Vec) : List Byte := (List.range 16).map (fun k => v.extractLsb' (8 * k) 8)
    let n := 2 ^ m.w.toNat
    let size := 2 ^ g.size.toNat
    let gather : List Nat := (List.range (16 / size)).flatMap (fun i =>
      span ((s.rx g.s1 + BitVec.ofNat 64 (lane (s.rv g.s2) i (8 * size) * size)).toNat % 2 ^ 57) size)
    let rows : List Nat := (List.range 8).flatMap (fun i => span (ea 16 + i * (16 * 2 ^ m.w.toNat)) 16)
    let p := s.rx m.s1
    let fmt := (p.extractLsb' 60 4).toNat
    let i0 := (s.rx (m.s1 + 2) + m.disp.signExtend 64).toNat
    let wd := vlddWidth fmt
    let per (j : Nat) : List Nat :=
      elementBytes fmt (p.extractLsb' 57 3).toNat (p.toNat % 2 ^ 57) ((s.rx (m.s1 + 1)).toNat % 2 ^ 57) (i0 + j)
    let elements : List Nat := (List.range (128 / wd)).flatMap per
    (ea n % n = 0 →
      loads (exec (.vld m) s) (span (ea n) 16) (register m.d) ∧ stores (exec (.vst m) s) (span (ea n) 16) (vector (s.rv m.d)))
    ∧ (ea 16 % 16 = 0 → m.d.toNat % 8 = 0 → loads (exec (.vldt m) s) rows (fun bs u =>
        (∀ i j, i < 8 → j < 8 → lane (u.getV (m.d + BitVec.ofNat 5 j)) i 16 = leNat ((bs.drop (16 * i + 2 * j)).take 2))
        ∧ (∀ r : Reg, r.toNat / 8 ≠ m.d.toNat / 8 → u.getV r = s.me.getV r) ∧ u = { s.me with v := u.v, present := u.present }))
    ∧ ((s.rx g.s1).toNat % size = 0 →
        loads (exec (.vldx g) s) gather (register g.d) ∧ stores (exec (.vstx g) s) gather (vector (s.rv g.d)))
    ∧ (badFormat p = false → (p.toNat % 2 ^ 57) % (if hasSidecar fmt then 1 else wd / 8) = 0 →
        (hasSidecar fmt → (s.rx (m.s1 + 1)).toNat % 2 ^ 57 % (if fmt = 7 then 4 else 2) = 0) →
        loads (exec (.vldd m) s) elements (fun bs u => ∃ r fl, u = (s.me.putV m.d r).addFlags fl
          ∧ (∀ j, j < 128 / wd → lane r j wd = (decodeElement fmt (i0 + j)
              ((bs.drop (j * (per 0).length)).take (per 0).length)).1 % 2 ^ wd)
          ∧ fl = ((List.range (128 / wd)).map (fun j => (decodeElement fmt (i0 + j)
              ((bs.drop (j * (per 0).length)).take (per 0).length)).2)).foldl (· ||| ·) 0))

/-- Full/empty waiting (R155, R157, R200, R201): an LDS of an empty word leaves its slot in WAIT_MEM, last in the word's
queue while fewer than 64 waiters are held and without an entry otherwise; an STF to a word with waiters hands the
word to the oldest, whose bundle commits with the value that then stands there, and the word is empty again. -/
def Obligations.FullEmptyWaiters : Prop :=
  ∀ (s : State) (m : MemF), s.poison = [] → s.flipped = [] →
    let c := coreOf s.cur
    let n := 2 ^ (m.w.toNat % 4)
    let a := (s.rx m.s1 + m.disp.signExtend 64 * BitVec.ofNat 64 n).toNat % 2 ^ 57
    let word := ((lsPhys a).getD 0) / 8
    a % n = 0 → (∀ i, i < n → lsOk s.me.lsbase.toNat s.me.lsbound.toNat (a + i)) →
    (s.writable m.d → s.me.state = .ready → word ∈ (s.core c).emptyWords → ∃ t, exec (.lds m) s = .next t
      ∧ t.me.state = .waitMem ∧ t.me.x = s.me.x ∧ t.me.v = s.me.v ∧ t.me.pc = s.me.pc
      ∧ (∀ k, k ≠ s.cur → t.slot k = s.slot k) ∧ (t.core c).ls = (s.core c).ls
      ∧ let w : Waiter := { word := word, who := .ctx c s.me.ctxNum, world := s.me.world, off := a, size := n }
        if (s.core c).waiters.length < 64
        then (t.core c).waiters = (s.core c).waiters ++ [w] ∧ (t.core c).parkedLds = (s.core c).parkedLds
        else (t.core c).waiters = (s.core c).waiters ∧ (t.core c).parkedLds = (s.core c).parkedLds ++ [w])
    ∧ (∀ (w : Waiter) (num k : Nat) (r : MemReq), (s.core c).waiters.find? (·.word == word) = some w →
        w.who = .ctx c num → ctxSlot s c num = some k → k ≠ s.cur → (s.slot k).wait = .mem r → r.acq = false →
        (s.slot k).longUntil ≤ s.cycle → (s.slot k).streamsRead = 0 → (s.slot k).held = Held.none →
        (s.slot k).stopPending = false → (s.core c).parkedLds = [] → m.order = 0 →
        ∃ t, exec (.stf m) s = .next t ∧ word ∈ (t.core c).emptyWords ∧ (t.core c).waiters = (s.core c).waiters.erase w
          ∧ (t.slot k).state = .ready ∧ (t.slot k).pc = (s.slot k).npc
          ∧ (t.slot k).x = ((s.slot k).putX (BitVec.ofNat 5 r.rd)
              (extendTy r.w ((lsBytes w.off w.size).map (cellGet (t.core c).ls)))).x
          ∧ ∀ i p : Nat, (physOf (span a n))[i]? = some p → cellGet (t.core c).ls p = (s.rx m.d).extractLsb' (8 * i) 8)

/-- A further pass of an access of several passes (R153, R154): the first chunk left of each bank that the issuing bundle
did not claim is served at this instant, every byte of it as the local store then stands; with chunks left the slot
waits on, and with none the result is written and the bundle commits. What the rules leave open is filled by the model
as log entry 25 says. -/
def Obligations.LocalStorePasses : Prop :=
  ∀ (s : State) (k : Nat) (r : MemReq), (s.slot k).wait = .mem r → r.chunks ≠ [] → s.poison = [] → s.flipped = [] →
    r.op ≠ .qpush → r.op ≠ .xred →
    let c := coreOf k
    let busy := if (s.core c).bankCycle + 1 = s.cycle then (s.core c).bankMask else 0
    let now := (onePass busy r.chunks).1
    let rest := (onePass busy r.chunks).2.1
    ∃ t r', exec (.localStorePass k) s = .next t ∧ r'.chunks = rest ∧ r'.op = r.op ∧ r'.vas = r.vas ∧ r'.rd = r.rd ∧ r'.w = r.w
      ∧ (r.isStore = false → ∀ d, (t.core d).ls = (s.core d).ls)
      ∧ (r.isStore = true → (physOf r.vas).Nodup → (∀ i p : Nat, (physOf r.vas)[i]? = some p →
          cellGet (t.core c).ls p = if p / 16 ∈ now then (r.data[i]?).getD 0 else cellGet (s.core c).ls p)
        ∧ ∀ p, p ∉ physOf r.vas → cellGet (t.core c).ls p = cellGet (s.core c).ls p)
      ∧ (r.isStore = false → ∀ i p : Nat, (physOf r.vas)[i]? = some p →
          NMap.find r'.got i = if p / 16 ∈ now then some (cellGet (s.core c).ls p) else NMap.find r.got i)
      ∧ (rest ≠ [] → t.slot k = { s.slot k with wait := .mem r' })
      ∧ (rest = [] → (s.slot k).longUntil ≤ s.cycle → (s.slot k).streamsRead = 0 → (s.slot k).held = Held.none →
          (s.slot k).stopPending = false → (t.slot k).state = .ready ∧ (t.slot k).pc = (s.slot k).npc
            ∧ (t.slot k).x = (r'.result r'.bytes (s.slot k)).x ∧ (t.slot k).v = (r'.result r'.bytes (s.slot k)).v)
      ∧ (∀ j, j ≠ k → t.slot j = s.slot j)

/-- A scalar access to translated memory (R194, R197, R210, R260, R299): where the cluster holds the translation of every
byte and the page grants the access, the slot waits in WAIT_MEM for its home; the home of the issuing die performs the
access at one instant: a load returns the bytes that stand there, a store writes its bytes and no others, an atomic
does both; and the bundle commits. What the rules leave open is filled by the model as log entries 8 and 26 say. -/
def Obligations.HomeAccesses : Prop :=
  ∀ (s : State) (c num k : Nat), ctxSlot s c num = some k →
    let die := dieOfCore c
    (∀ (m : MemF) (e : TlbEntry), s.cur = k → coreOf k = c → s.me.ctxNum = num → s.me.state = .ready →
      (s.core c).trace.extractLsb' 4 4 = 0 →
      let n := 2 ^ (m.w.toNat % 4)
      let a := (s.rx m.s1 + m.disp.signExtend 64 * BitVec.ofNat 64 n).toNat % 2 ^ 57
      let pa (i : Nat) : Nat := (Leaf.mk e.leaf).pa + (a + i) % (Leaf.mk e.leaf).size
      a % n = 0 → 0x20000 ≤ a → a + n ≤ 2 ^ 57 →
      (∀ i, i < n → tlbFind (s.cluster (clusterOf k)).tlb s.me.world (a + i) = some e) → (Leaf.mk e.leaf).kind = 0 →
      (∀ i, i < n → ownerOf s (pa i) = some s.me.world ∧ homeDie (pa i) = die) →
      let waits (o : Out) : Prop := ∃ t r due, o = .next t ∧ (t.slot k).state = .waitMem ∧ (t.slot k).wait = .mem r
        ∧ r.segs = (List.range n).map (fun i => Target.home (pa i)) ∧ r.pos = 0 ∧ r.asked = n ∧ s.cycle < due
        ∧ (due, Event.remoteReply (.ctx c num) .home 0) ∈ t.agenda ∧ (t.slot k).x = s.me.x ∧ (t.slot k).pc = s.me.pc
        ∧ ∀ j, j ≠ k → t.slot j = s.slot j
      ((Leaf.mk e.leaf).readable → s.writable m.d → waits (exec (.ld m) s))
      ∧ ((Leaf.mk e.leaf).writable → waits (exec (.st m) s)))
    ∧ (∀ (r : MemReq) (pas : List Nat), (s.slot k).wait = .mem r → (s.polder (s.slot k).world).state = .live →
      (s.die die).tokens = [] → s.poison = [] → s.flipped = [] → s.hbm = [] → r.segs = pas.map Target.home → pas ≠ [] →
      r.pos = 0 → r.asked = pas.length → r.vas.length = pas.length → r.tag = none → r.key = none → r.acq = false →
      r.rel = false → r.sampled = false → (s.slot k).fenceRel = false → (∀ p ∈ pas, homeDie p = die) → pas.Nodup →
      (s.slot k).longUntil ≤ s.cycle → (s.slot k).streamsRead = 0 → (s.slot k).held = Held.none →
      (s.slot k).stopPending = false → s.unlogged k →
      let bytes := pas.map (cellGet s.mem)
      let new := amoNew (r.w % 16) (decide (16 ≤ r.w)) pas.length (leNat bytes) (leNat r.data) r.cmp.toNat
      let performs (d : List Byte) (x : Slot) : Prop := ∃ t, exec (.remoteReply (.ctx c num) .home 0) s = .next t
        ∧ (t.slot k).state = .ready ∧ (t.slot k).pc = (s.slot k).npc ∧ (t.slot k).x = x.x ∧ (t.slot k).v = x.v
        ∧ (t.slot k).fflags = x.fflags ∧ (∀ j, j ≠ k → t.slot j = s.slot j)
        ∧ (∀ i p : Nat, pas[i]? = some p → some (cellGet t.mem p) = d[i]?) ∧ (∀ p, p ∉ pas → cellGet t.mem p = cellGet s.mem p)
      let sl := s.slot k
      (r.op = .ld → performs bytes (sl.putX (BitVec.ofNat 5 r.rd) (extendTy r.w bytes)))
      ∧ (r.op = .vld → performs bytes (sl.putV (BitVec.ofNat 5 r.rd) (leVec bytes)))
      ∧ (r.op = .st ∨ r.op = .vst → r.data.length = pas.length → performs r.data sl)
      ∧ (r.op = .amo → performs (toLe new.1 pas.length)
          ((sl.putX (BitVec.ofNat 5 r.rd) (leWord bytes)).addFlags new.2)))

/-- Copies of remote lines and the tags of remote requests (R198, R261, R382): a fill that arrives leaves the fills in
flight, and its line may be kept for 32,768 cycles for the world that read it, in a cache of 393,216 lines; a copy
past its lifetime goes; a request without a reply in its time fails with cause 0x15 at the address of its access, its
tag in quarantine for two packet lifetimes, after which the tag is free under its next generation; an event for
another generation or before its time changes nothing. What the rules leave open is filled by the model as log entries
9, 28, 30 and 96 say. -/
def Obligations.CopiesAndTags : Prop :=
  ∀ (s : State) (die line idx gen : Nat),
    let d := s.die die
    (∀ f, d.fills.find? (fun f => f.line == line && !f.data.isEmpty) = some f → f.waiters = [] → ∃ t, exec (.rdcFillArrival die line) s = .next t
        ∧ (t.die die).fills = d.fills.erase f ∧ t.slots = s.slots ∧ t.mem = s.mem
        ∧ ((t.die die).rdc = d.rdc ∨ (f.install ∧ findCopy s die f.world line = none
            ∧ (t.die die).rdc = (d.rdc ++ [({ line := line, world := f.world, data := f.data, filled := s.cycle } : RdcLine)]).drop (d.rdc.length + 1 - 393216)
            ∧ (s.cycle + 32768, Event.rdcCopyExpiry die line) ∈ t.agenda)))
    ∧ (∃ t, exec (.rdcCopyExpiry die line) s = .next t ∧ t.slots = s.slots ∧ t.mem = s.mem ∧ (t.die die).fills = d.fills
        ∧ ∀ l, l ∈ (t.die die).rdc ↔ l ∈ d.rdc ∧ ¬ (l.line = line ∧ l.filled + 32768 ≤ s.cycle))
    ∧ (∀ c num k r module due, (getTag s die idx).gen = gen → (getTag s die idx).use = .live (.ctx c num) module due → due ≤ s.cycle →
        ctxSlot s c num = some k → (s.slot k).wait = .mem r → r.tag = some (idx, gen) → r.key = none →
        r.op ≠ .xred → (s.slot k).state ≠ .halted →
        ∃ t, exec (.remoteTimeout die idx gen) s = .next t ∧ (t.slot k).state = .halted
          ∧ (t.slot k).cause = 0x15 ∧ (t.slot k).tval = BitVec.ofNat 64 r.ea ∧ (t.slot k).epc = (s.slot k).pc
          ∧ (t.slot k).x = (s.slot k).x ∧ (t.slot k).v = (s.slot k).v ∧ (∀ j, j ≠ k → t.slot j = s.slot j)
          ∧ (getTag t die idx).gen = gen ∧ (getTag t die idx).use = .quarantine (s.cycle + 2097152)
          ∧ (s.cycle + 2097152, Event.tagQuarantineEnd die idx) ∈ t.agenda)
    ∧ (∀ who module due, (getTag s die idx).use = .live who module due → (getTag s die idx).gen ≠ gen ∨ s.cycle < due →
        exec (.remoteTimeout die idx gen) s = .next s)
    ∧ (∀ due, (getTag s die idx).gen = gen → (getTag s die idx).use = .quarantine due → due ≤ s.cycle → d.tagQueue = [] →
        ∃ t, exec (.tagQuarantineEnd die idx) s = .next t ∧ (getTag t die idx).gen = (gen + 1) % 256 ∧ (getTag t die idx).use = .free
          ∧ (∀ j, j ≠ idx → getTag t die j = getTag s die j) ∧ t.slots = s.slots ∧ t.mem = s.mem)

/-- FENCE and FENCE.eng (R106, R272), PREF (R204, R305), BBC and its flush (R107, R310): a fence waits, and commits with
the pending release and the accumulator as its order says; a prefetch of a local-store address is dropped and counted,
and one of a line of the own die changes nothing but the order of use of its page's entries, and one of a line of
another die asks for a copy that nobody waits for; BBC adds one to the pending count of its counter, and a flush adds
that count to the counter in memory; a counter that no hint may write is dropped and counted. What the rules leave
open is filled by the model as log entries 31, 33 and 97 say. -/
def Obligations.FencesAndHints : Prop :=
  ∀ (s : State) (o : BitVec 2) (sc : BitVec 3) (x : Reg) (p : BitVec 7) (e : BitVec 15),
    let c := coreOf s.cur
    let cl := clusterOf s.cur
    let fenceWaits (t : State) (w : Nat) : Prop := t.me.state = .waitMem ∧ t.me.x = s.me.x ∧ t.me.pc = s.me.pc
      ∧ (∀ j, j ≠ s.cur → t.slot j = s.slot j)
      ∧ ∃ r, t.me.wait = .mem r ∧ r.op = .fence ∧ r.w = w ∧ r.acq = o.getLsbD 0 ∧ r.rel = o.getLsbD 1 ∧ r.scope = sc.toNat
    let replies (t : State) : Prop := ∃ due, s.cycle < due ∧ (due, Event.remoteReply (.ctx c s.me.ctxNum) .done 0) ∈ t.agenda
    let ea := (s.rx x + p.signExtend 64 * 8).toNat % 2 ^ 57
    let die := dieOf s.cur
    let dropped (u : State) := Host.Outcome.next (u.modCore c (fun co => { co with dropped := co.dropped + 1 }))
    let counter := (s.me.bbcbase + (s.rx x + e.setWidth 64) * 8).toNat
    (s.me.state = .ready → (∃ t, exec (.fence o sc) s = .next t ∧ fenceWaits t 0 ∧ replies t)
      ∧ (∃ t, exec (.fenceEng o sc) s = .next t ∧ fenceWaits t 1 ∧ (s.me.outstanding = 0 → replies t)))
    ∧ (∀ c num k r, ctxSlot s c num = some k → (s.slot k).wait = .mem r → r.op = .fence → r.w = 0 → r.scope < 4 →
        (s.polder (s.slot k).world).state = .live → (s.slot k).longUntil ≤ s.cycle → (s.slot k).streamsRead = 0 →
        (s.slot k).held = Held.none → (s.slot k).stopPending = false →
        ∃ t, exec (.remoteReply (.ctx c num) .done 0) s = .next t ∧ (t.slot k).state = .ready ∧ (t.slot k).pc = (s.slot k).npc
          ∧ (t.slot k).fenceRel = r.rel ∧ (t.slot k).x = (s.slot k).x ∧ (t.slot k).v = (s.slot k).v
          ∧ (t.slot k).acc = if r.acq then BitVec.allOnes 512 else (s.slot k).acc)
    ∧ (ea < 0x20000 → exec (.pref x p) s = dropped s ∧ exec (.prefWr x p) s = dropped s)
    ∧ (∀ l pa, 0x20000 ≤ ea → resolve s cl s.me.world ea = .leaf l → targetOf s l ea = .home pa →
        refuses s l s.me.world ea .load = false →
        (homeDie pa = die → exec (.pref x p) s = .next (touchPage s cl s.me.world ea))
        ∧ (refuses s l s.me.world ea .store = false → exec (.prefWr x p) s = .next (touchPage s cl s.me.world ea))
        ∧ (homeDie pa ≠ die → findCopy s die s.me.world (lineKey s.moduleNo pa) = none →
            openFill s die s.me.world (lineKey s.moduleNo pa) = none → s.poison = [] → s.hbm = [] → s.flipped = [] →
            ∃ t f, exec (.pref x p) s = .next t ∧ (t.die die).fills = (s.die die).fills ++ [f] ∧ f.waiters = [] ∧ f.install
              ∧ f.line = lineKey s.moduleNo pa ∧ f.world = s.me.world ∧ f.data = cellRead s.mem (pa / 64 * 64) 64
              ∧ t.slots = s.slots ∧ t.mem = s.mem))
    ∧ (s.me.bbcbase = 0 → exec (.bbc x e) s = .next s)
    ∧ (∀ u, s.me.bbcbase ≠ 0 → hintTarget s cl s.me.world counter .store = (u, none) → exec (.bbc x e) s = dropped u)
    ∧ (∀ u w, s.me.bbcbase ≠ 0 → hintTarget s cl s.me.world counter .store = (u, some w) →
        ((u.cluster cl).bbc.find? (fun b => b.world == s.me.world && b.addr == counter) = none → (u.cluster cl).bbc.length < 256 →
          exec (.bbc x e) s = .next (u.modCluster cl (fun y => { y with
            bbc := y.bbc ++ [{ world := s.me.world, addr := counter, count := 1 }] })))
        ∧ (∀ b, (u.cluster cl).bbc.find? (fun b => b.world == s.me.world && b.addr == counter) = some b → b.count + 1 < 2 ^ 32 - 1 →
          exec (.bbc x e) s = .next (u.modCluster cl (fun y => { y with
            bbc := y.bbc.map (fun z => if z = b then { z with count := z.count + 1 } else z) }))))
    ∧ (∀ (world addr pa : Nat) (b : BlockCounter) (u : State),
        (s.cluster cl).bbc.find? (fun b => b.world == world && b.addr == addr) = some b →
        hintTarget (s.modCluster cl (fun y => { y with bbc := y.bbc.erase b })) cl world addr .atomic = (u, some (.home pa)) →
        s.poison = [] → s.hbm = [] → s.flipped = [] →
        ∃ t, exec (.blockCounterFlush cl world addr) s = .next t ∧ (t.cluster cl).bbc = (s.cluster cl).bbc.erase b
          ∧ cellRead t.mem pa 8 = toLe (leNat (cellRead s.mem pa 8) + b.count) 8
          ∧ (∀ a, a < pa ∨ pa + 8 ≤ a → cellGet t.mem a = cellGet s.mem a) ∧ t.slots = s.slots)

/-- The instruction-cache hints (R47, R53, R108, R109, R299, R305): IPREF counts the lines outside the code range and
drops them, and a line inside it comes into the cluster's cache and, at level 0, the core's, or is counted where its
page refuses it; IPIN pins all of its range or, with its code in the token register, none of it; IUNPIN takes this
context's pins off the lines of its range; a line that arrives makes its waiting slot READY, a page without execute
permission makes the fetch a trap, and a page of another owner an access violation. What the rules leave open is
filled by the model as log entry 8 says. -/
def Obligations.InstructionCaches : Prop :=
  ∀ (s : State) (d a b : Reg) (slot : Nat),
    let c := coreOf s.cur
    let cl := clusterOf s.cur
    let lo := (s.rx a).toNat % 2 ^ 57
    let n := (s.rx b).toNat
    let lines := (codeLines s.me lo n).1
    let outside := (codeLines s.me lo n).2
    let mine (p : IPin) : Bool := p.core == c && p.ctx == s.me.ctxNum && n != 0 && decide (lo / 64 ≤ p.line)
      && decide (p.line ≤ (lo + n - 1) / 64)
    let s0 := s.modCore c (fun co => { co with dropped := co.dropped + outside })
    (∀ l, ∃ t, exec (.ipref l a b) s = .next t ∧ t.slots = s.slots ∧ (s.hbm = [] → t.mem = s.mem)
        ∧ (t.core c).ls = (s.core c).ls ∧ (lines = [] → t = s0))
    ∧ (∀ l ln u, lines = [ln] →
        (∀ bs, bringLine s0 cl s.me.world ln = (u, some bs) → ∃ t, exec (.ipref l a b) s = .next t
          ∧ { world := s.me.world, line := ln, bundles := bs } ∈ (t.cluster cl).icache
          ∧ (l = 0 → { world := s.me.world, line := ln, bundles := bs } ∈ (t.core c).icache)
          ∧ (t.core c).dropped = (s.core c).dropped + outside)
        ∧ (bringLine s0 cl s.me.world ln = (u, none) → ∃ t, exec (.ipref l a b) s = .next t
          ∧ (t.core c).dropped = (s.core c).dropped + outside + 1))
    ∧ (s.writable d → ∀ l : BitVec 1,
        let old := if l = 0 then (s.core c).pins else (s.cluster cl).pins
        let new : List IPin := lines.map (fun ln => { core := c, ctx := s.me.ctxNum, world := s.me.world, line := ln })
        let all := old ++ new.filter (fun p => !old.contains p)
        let code := if outside ≠ 0 ∨ (lines ≠ [] ∧ (lo < s.me.codeLo ∨ s.me.codeHi < lo + n)) then 1
          else if (if l = 0 then 64 else 512) < (pinnedLines all).length then 2 else 0
        ∃ t due, exec (.ipin l d a b) s = .next t ∧ t.me = s.me.startToken d ∧ (∀ k, k ≠ s.cur → t.slot k = s.slot k)
          ∧ (s.hbm = [] → t.mem = s.mem) ∧ s.cycle < due
          ∧ (due, Event.completionWrite c s.me.ctxNum d.toNat (BitVec.ofNat 64 code) 0) ∈ t.agenda
          ∧ (if l = 0 then (t.core c).pins else (t.cluster cl).pins) = if code = 0 then all else old)
    ∧ exec (.iunpin 0 a b) s = .next (s.modCore c (fun co => { co with pins := co.pins.filter (fun p => !mine p) }))
    ∧ exec (.iunpin 1 a b) s = .next (s.modCluster cl (fun u => { u with pins := u.pins.filter (fun p => !mine p) }))
    ∧ (∀ va, (s.slot slot).wait = .fetch va → (s.slot slot).state = .waitFetch →
        let world := (s.slot slot).world
        let ready (bs : List Word) : Prop := ∃ t, exec (.icacheFill slot) s = .next t ∧ (t.slot slot).state = .ready
          ∧ (t.slot slot).pc = (s.slot slot).pc
          ∧ { world := world, line := va / 64, bundles := bs } ∈ (t.core (coreOf slot)).icache
          ∧ { world := world, line := va / 64, bundles := bs } ∈ (t.cluster (clusterOf slot)).icache
          ∧ ∀ j, j ≠ slot → t.slot j = s.slot j
        (∀ bs, clusterLine s (clusterOf slot) world (va / 64) = some bs → (s.slot slot).stopPending = false → ready bs)
        ∧ (clusterLine s (clusterOf slot) world (va / 64) = none → va < 2 ^ 57 →
          (∀ u, lookup s (coreOf slot) world va = (u, none) → exec (.icacheFill slot) s =
            .next (queueMiss u (clusterOf slot) world va (.ctx (coreOf slot) (s.slot slot).ctxNum)))
          ∧ (∀ u l, lookup s (coreOf slot) world va = (u, some l) →
            (l.executable = false → exec (.icacheFill slot) s = .next (takeTrapAt u slot 0x0F (BitVec.ofNat 64 va)))
            ∧ (∀ pa, l.executable = true → targetOf u l (va / 64 * 64) = .home pa →
              (ownerOf s pa ≠ some world → exec (.icacheFill slot) s = .next (takeTrapAt u slot 0x11 (BitVec.ofNat 64 va)))
              ∧ (ownerOf s pa = some world → s.poison = [] → s.hbm = [] → s.flipped = [] → (s.slot slot).stopPending = false →
                ready (toWords (cellRead s.mem pa 64) 8))))))

/-- The TBINV forms (R338, R339): each is a release at .mod, starts its token, and leaves no translation of its world that
overlaps its range in any translation buffer; a range past the address space and a world above 20 complete with their
codes; TBINV.world outside world 0 is a privilege trap. What the rules leave open is filled by the model as log entry
35 says. -/
def Obligations.TranslationInvalidates : Prop :=
  ∀ (s : State) (d a b : Reg),
    let drops (world lo hi : Nat) (o : Out) : Prop := ∃ t x, o = .next t
      ∧ t.me = { s.me.startToken d with fenceRel := true } ∧ (∀ k, k ≠ s.cur → t.slot k = s.slot k) ∧ t.mem = s.mem
      ∧ (∀ cl, (t.cluster cl).tlb = (s.cluster cl).tlb.filter (fun e => !e.overlaps world lo hi))
      ∧ (∀ die, (t.die die).tlb = (s.die die).tlb.filter (fun e => !e.overlaps world lo hi))
      ∧ (t.die (dieOf s.cur)).tbinvs = (s.die (dieOf s.cur)).tbinvs ++ [x]
      ∧ x.core = coreOf s.cur ∧ x.ctx = s.me.ctxNum ∧ x.reg = d.toNat ∧ x.world = world ∧ x.since = s.cycle
    let ends (code : Nat) (o : Out) : Prop := o = .next ((s.modMe (·.startToken d)).next1
      (.completionWrite (coreOf s.cur) s.me.ctxNum d.toNat (BitVec.ofNat 64 code) 0))
    let lo := (s.rx a).toNat % 2 ^ 57
    let n := (s.rx b).toNat
    s.writable d →
    drops s.me.world lo (lo + 1) (exec (.tbinvPage d a) s)
    ∧ (n ≠ 0 → lo + n ≤ 2 ^ 57 → drops s.me.world lo (lo + n) (exec (.tbinvRange d a b) s))
    ∧ (2 ^ 57 < lo + n → ends 0x0C (exec (.tbinvRange d a b) s))
    ∧ (n = 0 → ends 0 (exec (.tbinvRange d a b) s))
    ∧ drops s.me.world 0 (2 ^ 57) (exec (.tbinvAll d) s)
    ∧ (s.me.world = 0 → n % 32 ≤ 20 → drops (n % 32) 0 (2 ^ 57) (exec (.tbinvWorld d b) s))
    ∧ (s.me.world = 0 → 20 < n % 32 → ends 0x05 (exec (.tbinvWorld d b) s))
    ∧ (s.me.world ≠ 0 → exec (.tbinvWorld d b) s = trapOut s 3 0x02 (aBits (.tbinvWorld d b)))

/-- The miss table (R301 to R304): the oldest miss of a cluster joins the entry of its world and page or takes a new one,
of which a cluster has at most eight; a free walker takes the oldest entry without one; a walk that ends in a leaf
puts it into the buffers of the die, a walk that a TBINV has overtaken is walked again, and one that ends in a fault
reaches the waiting slot as a trap with the slot's own address; a steward's answer counts only where the steward
walks. What the rules leave open is filled by the model as log entries 94 and 95 say. -/
def Obligations.MissTable : Prop :=
  ∀ (s : State) (cl die walker : Nat),
    (∀ world va who rest, (s.cluster cl).missQueue = (world, va, who) :: rest →
      let m := (s.die (dieOfCluster cl)).miss
      let key := va / 65536
      let admits (l : List MissEntry) : Prop := ∃ t, exec (.missTableAdmit cl) s = .next t ∧ t.slots = s.slots ∧ t.mem = s.mem
        ∧ (t.cluster cl).missQueue = rest ∧ (t.die (dieOfCluster cl)).miss = l
      (m.any (fun e => e.world == world && e.key == key) = true →
        admits (m.map (fun e => if e.world = world ∧ e.key = key then e.join s.nextId cl who else e)))
      ∧ (m.any (fun e => e.world == world && e.key == key) = false → (m.filter (·.cluster == cl)).length < 8 → m.length < 1024 →
        admits (m ++ [{ world := world, key := key, va := va, cluster := cl, walker := none, stale := false,
                        waiters := [(s.nextId, cl, who)] }]))
      ∧ (m.any (fun e => e.world == world && e.key == key) = false →
        8 ≤ (m.filter (·.cluster == cl)).length ∨ 1024 ≤ m.length → exec (.missTableAdmit cl) s = .next s))
    ∧ (∀ w e, freeWalker (s.die die) = some w →
        (s.die die).miss.find? (fun e => e.walker.isNone && !walksBySteward s e.world) = some e →
        ∃ t due, exec (.pageWalk die) s = .next t ∧ s.cycle < due ∧ (due, Event.pageWalkDone die w) ∈ t.agenda
          ∧ t.slots = s.slots ∧ t.mem = s.mem ∧ (t.die die).miss = (s.die die).miss.map (fun x =>
            if x.world = e.world ∧ x.key = e.key then { x with walker := some w } else x))
    ∧ (∀ e, (s.die die).miss.find? (fun e => e.walker == some walker) = some e →
        (e.stale = true → ∃ t, exec (.pageWalkDone die walker) s = .next t ∧ t.slots = s.slots
          ∧ (t.die die).miss = (s.die die).miss.map (fun x => if x = e then { x with walker := none, stale := false } else x)
          ∧ (s.cycle + 1, Event.pageWalk die) ∈ t.agenda)
        ∧ (∀ l, e.stale = false → walk s e.world e.va = .leaf l → (∀ p ∈ s.clusters, p.2.missQueue = []) →
            (∀ x ∈ (s.die die).miss, x.world = e.world → (entryOf e.world e.va l).va ≤ x.key * 65536 →
              x.key * 65536 < (entryOf e.world e.va l).va + l.size → x.waiters = []) →
            ∃ t, exec (.pageWalkDone die walker) s = .next t ∧ t.slots = s.slots ∧ t.mem = s.mem
              ∧ entryOf e.world e.va l ∈ (t.die die).tlb
              ∧ (t.die die).miss = (s.die die).miss.filter (fun x => !(x.world == e.world
                && decide ((entryOf e.world e.va l).va ≤ x.key * 65536)
                && decide (x.key * 65536 < (entryOf e.world e.va l).va + l.size))))
        ∧ (∀ id from_ c num k r, e.stale = false → walk s e.world e.va = .absent → e.waiters = [(id, from_, .ctx c num)] →
            ctxSlot s c num = some k → (s.slot k).wait = .mem r → r.segs = [] → r.op ≠ .xred →
            let va := ((rising r.vas).find? (fun a => a / 65536 == e.key)).getD r.ea
            walk s e.world va = .absent →
            (Slot.split s (s.slot k)).getLsbD 1 = false → (s.slot k).inh = false → (s.slot k).tvec ≠ 0 →
            (s.slot k).stopPending = false →
            ∃ t, exec (.pageWalkDone die walker) s = .next t ∧ (∀ j, j ≠ k → t.slot j = s.slot j)
              ∧ (t.slot k).state = .ready ∧ (t.slot k).pc = (s.slot k).tvec ∧ (t.slot k).epc = (s.slot k).pc
              ∧ (t.slot k).cause = 0x10 ∧ (t.slot k).inh = true ∧ (t.slot k).tval = BitVec.ofNat 64 va))
    ∧ (∀ world key w e, (s.die die).miss.find? (fun e => e.world == world && e.key == key) = some e →
        (∀ code, walksBySteward s world = false → exec (.stewardWalkReply die world key ⟨w, code⟩) s = .next s)
        ∧ (walksBySteward s world = true → e.stale = false → w.getLsbD 0 = true → w.getLsbD 1 = true →
            malformedEntry w (bits w.toNat 10 9) = false → (∀ x ∈ (s.die die).miss, x.waiters = []) →
            ∃ t, exec (.stewardWalkReply die world key ⟨w, 0⟩) s = .next t ∧ t.slots = s.slots ∧ t.mem = s.mem
              ∧ entryOf world e.va ⟨w⟩ ∈ (t.die die).tlb))

/-- SEND, RECV and MBPEEK at issue (R162, R213 to R216): SEND starts its token and sends the message of its registers to
the core of its destination, in order behind the earlier ones of the slot to that mailbox; a destination that names no
cluster traps, and a module without a path completes with code 0x05. RECV takes the oldest message of the lowest
mailbox of its mask that holds one, or parks in WAIT_RECV; MBPEEK writes the message counts. What the rules leave open
is filled by the model as log entry 34 says. -/
def Obligations.SendAndReceive : Prop :=
  ∀ (s : State) (r : BitVec 1) (mb : BitVec 4) (d a b e : Reg),
    let c := coreOf s.cur
    let die := dieOf s.cur
    let dst := (s.rx a).toNat % 2 ^ 34
    let dest := dst / 8 % 524288
    let msg (who : ReplyTo) : MailMsg :=
      { typ := 0, mbox := mb.toNat, sender := (endpoint s s.cur).toNat, world := s.me.world,
        d1 := (s.rv b).extractLsb' 0 64, d2 := (s.rv b).extractLsb' 64 64, d3 := s.rx e, sig := if r == 1 then s.me.acc else 0,
        rel := r == 1, from_ := who }
    let token := ReplyTo.token c s.me.ctxNum d.toNat
    let sends (ev : Event) : Prop := ∃ t due, exec (.send r mb d a b e) s = .next t ∧ s.cycle < due ∧ (due, ev) ∈ t.agenda
      ∧ t.me = { s.me.startToken d with fenceRel := s.me.fenceRel && !(r == 1) } ∧ (∀ k, k ≠ s.cur → t.slot k = s.slot k)
      ∧ t.mem = s.mem
    let mask := ownMail (s.core c) s.me.world ((s.rx a).toNat % 65536)
    let msgs (i : Nat) : List MailMsg := (((s.core c).mail.toList[i]?).map (·.msgs)).getD []
    (s.writable d → 3200 ≤ dst / 64 % 4096 → exec (.send r mb d a b e) s = trapOut s 5 0x17 (BitVec.ofNat 64 dst))
    ∧ (s.writable d → dst / 64 % 4096 < 3200 → dst / 4194304 = s.moduleNo → dieOfCore dest = die →
        sends (.mailboxDataArrival dest (msg token)))
    ∧ (s.writable d → dst / 64 % 4096 < 3200 → dst / 4194304 = s.moduleNo → dieOfCore dest ≠ die →
        crossesDown s die (dieOfCore dest) = false → lowestFree (s.die die).tags 0 < tagCount →
        sends (.mailboxDataArrival dest (msg (.tag die (lowestFree (s.die die).tags 0)
          (getTag s die (lowestFree (s.die die).tags 0)).gen))))
    ∧ (s.writable d → dst / 64 % 4096 < 3200 → dst / 4194304 ≠ s.moduleNo → hasPath s die (dst / 4194304) = false →
        sends (.completionWrite c s.me.ctxNum d.toNat 0x05 0))
    ∧ (∀ q, mask = 0 → exec (.recv q d a) s = trapOut s 7 0x11 (s.rx a))
    ∧ (∀ q i m rest, ctxSlot s c s.me.ctxNum = some s.cur → s.poison = [] → s.flipped = [] → mask ≠ 0 → i < 16 → mask / 2 ^ i % 2 = 1 → msgs i = m :: rest →
        (∀ j, j < i → mask / 2 ^ j % 2 = 1 → msgs j = []) →
        ∃ t, exec (.recv q d a) s = .next t
          ∧ t.me.v = (((s.me.putV d (m.d2 ++ m.d1)).putV (regOf (d.toNat + 1))
              (m.d3 ++ BitVec.ofNat 64 (m.typ * 2 ^ 60 + m.mbox * 2 ^ 56 + m.sender)))).v
          ∧ t.me.x = s.me.x ∧ t.me.pc = s.me.pc ∧ (∀ k, k ≠ s.cur → t.slot k = s.slot k) ∧ t.mem = s.mem
          ∧ t.core c = setMail (s.core c) i (fun y => { y with msgs := y.msgs.drop 1 }))
    ∧ (∀ q, s.poison = [] → s.flipped = [] → mask ≠ 0 → s.me.state = .ready → (∀ j, j < 16 → mask / 2 ^ j % 2 = 1 → msgs j = []) →
        ∃ t, exec (.recv q d a) s = .next t ∧ t.me.state = .waitRecv ∧ t.me.wait = .recv mask d.toNat (q == 1)
          ∧ t.me.x = s.me.x ∧ t.me.v = s.me.v ∧ t.me.pc = s.me.pc ∧ (∀ k, k ≠ s.cur → t.slot k = s.slot k)
          ∧ (t.core c).recvq = (s.core c).recvq ++ [s.me.ctxNum])
    ∧ (let counts := BitVec.ofNat 64 ((List.range 16).foldl (fun n i =>
          if mask / 2 ^ i % 2 = 1 then n + (((s.core c).mail.toList[i]?).map (·.msgs.length)).getD 0 * 2 ^ (3 * i) else n) 0)
      s.writable d → exec (.mbpeek d a) s = .next (s.modMe (·.putX d counts)))
    ∧ (¬ s.writable d → exec (.mbpeek d a) s = trapOut s 4 0x0C (d.setWidth 64))

/-- Arrivals at a core (R59, R60, R162 to R164, R214, R217): a DATA message is refused with 0x03 where its polder is gone,
0x02 where the mailbox is not its world's and 0x01 where the mailbox is full; otherwise the slot that has waited
longest takes it, or the mailbox keeps it behind the others. A completion writes its status into the pending token
register and ends the wait of a bundle that waited for it; a TOKEN message for a register that is not pending is
dropped and counted. -/
def Obligations.MailArrivals : Prop :=
  ∀ (s : State) (core : Nat) (m : MailMsg),
    let refused (code : Nat) : Prop := exec (.mailboxDataArrival core m) s
      = .next (answer s Config.latMesh m.from_ (.status code) 0)
    let b := (s.core core).mail.toList[m.mbox]?
    let num := bits m.d1.toNat 31 16
    let reg := bits m.d1.toNat 12 8
    (m.typ = 0 → polderGone s m.world = true → refused 0x03)
    ∧ (m.typ = 0 → polderGone s m.world = false → (∀ y, b = some y → y.owner ≠ some m.world) → refused 0x02)
    ∧ (∀ y, m.typ = 0 → polderGone s m.world = false → b = some y → y.owner = some m.world →
        (oldestReceiver s core m.mbox = none → y.msgs.length < 4 →
          exec (.mailboxDataArrival core m) s = .next (answer (s.modCore core (fun co => setMail co m.mbox (fun y =>
            { y with msgs := y.msgs ++ [m] }))) Config.latMesh m.from_ (.status 0) 0))
        ∧ (oldestReceiver s core m.mbox = none → 4 ≤ y.msgs.length → refused 0x01)
        ∧ (∀ n k vd acq, oldestReceiver s core m.mbox = some (n, vd, acq) → ctxSlot s core n = some k →
            (s.slot k).longUntil ≤ s.cycle → (s.slot k).streamsRead = 0 → (s.slot k).stopPending = false →
            (s.slot k).held = Held.none → (∃ mask, (s.slot k).wait = .recv mask vd acq) →
            ∃ t, exec (.mailboxDataArrival core m) s = .next t ∧ (t.slot k).state = .ready ∧ (t.slot k).pc = (s.slot k).npc
              ∧ (t.slot k).x = (s.slot k).x
              ∧ (t.slot k).v = (((s.slot k).putV (regOf vd) (m.d2 ++ m.d1)).putV (regOf (vd + 1))
                  (m.d3 ++ BitVec.ofNat 64 (m.typ * 2 ^ 60 + m.mbox * 2 ^ 56 + m.sender))).v
              ∧ (∀ j, j ≠ k → t.slot j = s.slot j) ∧ (t.core core).recvq = (s.core core).recvq.erase n))
    ∧ (∀ n k (g : Reg) status sig, ctxSlot s core n = some k → g ≠ 0 → (s.polder (s.slot k).world).state ≠ .draining →
        let sl' := { (s.slot k).complete g.toNat status sig with outstanding := (s.slot k).outstanding - 1 }
        ((s.slot k).wait = .none →
          exec (.completionWrite core n g.toNat status sig) s = .next (s.modSlot k (fun _ => sl'))
          ∧ sl'.getX g = status ∧ sl'.isPending g = false)
        ∧ (∀ mask, (s.slot k).wait = .reissue mask → sl'.pending &&& mask = 0 → (s.slot k).stopPending = false →
          ∃ t, exec (.completionWrite core n g.toNat status sig) s = .next t ∧ (t.slot k).state = .ready
            ∧ (t.slot k).x = sl'.x ∧ (t.slot k).pending = sl'.pending ∧ (t.slot k).pc = (s.slot k).pc
            ∧ ∀ j, j ≠ k → t.slot j = s.slot j))
    ∧ (∀ k, ctxSlot s core num = some k → reg ≠ 0 →
        ((s.slot k).isPending (regOf reg) = false → ∃ t, exec (.tokenMessageArrival core m) s = .next t
          ∧ t.slots = s.slots ∧ t.mem = s.mem ∧ (t.core core).msgDropped = (s.core core).msgDropped + 1)
        ∧ ((s.slot k).isPending (regOf reg) = true → (s.slot k).wait = .none →
          (s.polder (s.slot k).world).state ≠ .draining →
          exec (.tokenMessageArrival core m) s = .next (s.modSlot k (fun sl =>
            { sl.complete reg m.d2 m.sig with outstanding := sl.outstanding - 1 }))))

/-- Requests for the copy hart (R230, R231, R251, R320, R333): where a kick slot of the cluster is free for the core, the
token register becomes pending and the request, with its kind, operands and ring, stands behind the others for the
copy hart; a graph request whose record fails its checks completes with the code of the check instead, and an
unaligned record has code 0x0F; a .wait form waits for its own request; where no kick slot is free the slot waits in
WAIT_ENGINE with the request. What the rules leave open is filled by the model as log entries 42, 44 and 48 say. -/
def Obligations.CopyRequests : Prop :=
  ∀ (s : State) (f : CpyF) (q : BitVec 4) (w : BitVec 1) (d a b e : Reg),
    let c := coreOf s.cur
    let cl := clusterOf s.cur
    let is (r : CopyReq) (kind : CopyKind) (d : Reg) (ring : Option Nat) (ops : List Word) : Prop :=
      r.id = s.nextId ∧ r.kind = kind ∧ r.core = c ∧ r.ctx = s.me.ctxNum ∧ r.world = s.me.world ∧ r.rd = d.toNat ∧ r.ops = ops
        ∧ r.ring = ring ∧ r.urgent = decide (s.cur % 8 = 7) ∧ r.taken = false ∧ r.running = false ∧ r.progress = 0
    let pends (t : State) (d : Reg) : Prop := t.me.x = s.me.x ∧ t.me.pending = (s.me.startToken d).pending
      ∧ t.me.outstanding = s.me.outstanding + 1 ∧ (∀ k, k ≠ s.cur → t.slot k = s.slot k)
    let requests (o : Out) (kind : CopyKind) (d : Reg) (ring : Option Nat) (ops : List Word) (wait : Bool) : Prop :=
      ∃ r, is r kind d ring ops
        ∧ (kickRoom s c = true → gorCheck s r = 0 → ∃ t due, o = .next t ∧ (t.cluster cl).kicks = (s.cluster cl).kicks ++ [r]
          ∧ pends t d ∧ s.cycle < due ∧ (due, Event.copyKickTake cl) ∈ t.agenda
          ∧ (if wait then t.me.state = .waitEngine ∧ t.me.wait = .engineToken (if d = 0 then 32 + s.nextId else d.toNat)
              else t.me.state = .ready ∧ t.me.wait = s.me.wait))
        ∧ (kickRoom s c = true → gorCheck s r ≠ 0 → ∃ t m due, o = .next t ∧ (t.cluster cl).kicks = (s.cluster cl).kicks
          ∧ pends t d ∧ s.cycle < due ∧ (due, Event.tokenMessageArrival c m) ∈ t.agenda ∧ m.typ = 1
          ∧ m.d1 = BitVec.ofNat 64 (s.me.ctxNum % 65536 * 65536 + d.toNat * 256 + s.cur % 8) ∧ m.d2 = BitVec.ofNat 64 (gorCheck s r))
        ∧ (kickRoom s c = false → ∃ t, o = .next t ∧ (t.cluster cl).kicks = (s.cluster cl).kicks ∧ t.me.state = .waitEngine
          ∧ t.me.wait = .kickFull r wait ∧ t.me.x = s.me.x ∧ t.me.pending = s.me.pending
          ∧ ∀ k, k ≠ s.cur → t.slot k = s.slot k)
        ∧ (kind = .cpy ∨ kind = .cpy2d ∨ kind = .cpyl ∨ kind = .cpyg → gorCheck s r = 0)
        ∧ (¬ (kind = .cpy ∨ kind = .cpy2d ∨ kind = .cpyl ∨ kind = .cpyg) → r.op 0 % 2 ^ 57 % 64 ≠ 0 → gorCheck s r = 0x0F)
    let ring := if f.ring = 1 then some f.q.toNat else none
    s.me.state = .ready → ctxSlot s c s.me.ctxNum = some s.cur →
    (s.writable f.d →
      requests (exec (.cpy f) s) .cpy f.d ring [s.rx f.s1, s.rx f.s2, s.rx f.s3] false
      ∧ requests (exec (.cpy2d f) s) .cpy2d f.d ring [s.rx f.s1, s.rx f.s2, s.rx f.s3, s.rx (f.s3 + 1)] false
      ∧ requests (exec (.cpyg f) s) .cpyg f.d ring [s.rx f.s1, s.rx f.s2, s.rx f.s3] false)
    ∧ (s.writable d →
      requests (exec (.cpyl q d a) s) .cpyl d (some q.toNat) [s.rx a] false
      ∧ requests (exec (.gcopy w d a) s) .gcopy d none [s.rx a] (w == 1)
      ∧ requests (exec (.gcmp w d a) s) .gcmp d none [s.rx a] (w == 1)
      ∧ requests (exec (.ghash w d a) s) .ghash d none [s.rx a] (w == 1)
      ∧ requests (exec (.gfree w d a) s) .gfree d none [s.rx a] (w == 1)
      ∧ requests (exec (.gsend w d a b e) s) .gsend d none [s.rx a, s.rx b, s.rx e] (w == 1))

/-- The copy hart (R230, R231): it takes one request at a time, one from slot 7 before all others; a copy that fails its
checks ends with their code before it reads anything; a request that has ended leaves its kick slot, and its TOKEN
message carries its status; one that yields goes behind the others. What the rules leave open is filled by the model
as log entries 45, 46 and 47 say. -/
def Obligations.CopyHartTurns : Prop :=
  ∀ (s : State) (cl id : Nat),
    let ks := (s.cluster cl).kicks
    (s.poison = [] → s.flipped = [] → ks.any (·.running) = true → exec (.copyKickTake cl) s = .next s)
    ∧ (s.poison = [] → s.flipped = [] → ks = [] → exec (.copyKickTake cl) s = .next s)
    ∧ (∀ r, s.poison = [] → s.flipped = [] → ks.any (·.running) = false → nextReq (s.cluster cl) = some r → r.taken = false →
        clusterWaits s cl (fun w => match w with | .kickFull _ _ => true | _ => false) = [] →
        ∃ t, exec (.copyKickTake cl) s = .next t ∧ t.slots = s.slots ∧ t.mem = s.mem
          ∧ (copyCheck s cl r = 0 → (s.cycle, Event.remoteReply (.copy cl r.id) .done 0) ∈ t.agenda
            ∧ (t.cluster cl).kicks = ks.map (fun x => if x.id = r.id then
                { x with taken := true, running := true, since := s.cycle } else x))
          ∧ (copyCheck s cl r ≠ 0 → (s.cycle + 1, Event.copyRequestComplete cl r.id) ∈ t.agenda
            ∧ ∀ x ∈ (t.cluster cl).kicks, x.id = r.id → x.status = some (BitVec.ofNat 64 (copyCheck s cl r))))
    ∧ (∀ r w, ks.find? (·.id == id) = some r → r.status = some w → ∃ t m due, exec (.copyRequestComplete cl id) s = .next t
        ∧ (t.cluster cl).kicks = ks.filter (·.id != r.id) ∧ t.slots = s.slots ∧ t.mem = s.mem
        ∧ s.cycle < due ∧ (due, Event.tokenMessageArrival r.core m) ∈ t.agenda ∧ m.d2 = w
        ∧ m.d1 = BitVec.ofNat 64 (r.ctx % 65536 * 65536 + r.rd * 256 + r.slot % 8)
        ∧ (s.cycle + 1, Event.copyKickTake cl) ∈ t.agenda)
    ∧ (∀ r, ks.find? (·.id == id) = some r →
        (r.status = none → exec (.copyRequestComplete cl id) s = .next s)
        ∧ (r.running = true → r.status = none → r.acc = none → exec (.copyYield cl id) s
          = .next ((s.modCluster cl (fun u => { u with kicks := u.kicks.filter (·.id != id) ++ [{ r with running := false }] })).next1
            (.copyKickTake cl))))
    ∧ (ks.find? (·.id == id) = none → exec (.copyRequestComplete cl id) s = .next s ∧ exec (.copyYield cl id) s = .next s)

/-- Jobs for the matrix engine and ring configurations at issue (R225, R241 to R250): an accepted MMA or MMAM makes its
token register pending and stands in its queue; a job that a check refuses completes with the code of the check; where
the queue is full the slot waits in WAIT_ENGINE; MMAM without a modulus traps. MHINT starts the ramp-up of an idle
engine and bounds the warm period. QPUSH with a bad ring completes with a code, with a bad address traps, and
otherwise waits for its reservation; QCFG waits at its ring. What the rules leave open is filled by the model as log
entries 38, 42, 43 and 112 say. -/
def Obligations.EngineRequests : Prop :=
  ∀ (s : State) (m : MmaF) (q : BitVec 4) (w : BitVec 1) (d a b e : Reg),
    let c := coreOf s.cur
    let cl := clusterOf s.cur
    let en := (s.cluster cl).engine
    let mem (r : Reg) : Option Nat := if r = 0 then none else some ((s.rx r).toNat % 2 ^ 57)
    let asks (o : Out) (ty modq : Nat) (d a b r : Reg) (wait : Bool) : Prop :=
      let j := newJob s ty modq d (s.rx a) (s.rx b) (mem r)
      let waits (t : State) : Prop := if wait then t.me.state = .waitEngine
          ∧ t.me.wait = .engineToken (if d = 0 then 32 + s.nextId else d.toNat) else t.me.state = .ready ∧ t.me.wait = s.me.wait
      let pends (t : State) : Prop := t.me.x = s.me.x ∧ t.me.pending = (s.me.startToken d).pending
        ∧ ∀ k, k ≠ s.cur → t.slot k = s.slot k
      (hasRoom s j = true → jobCheck s j = 0 → ∃ t, o = .next t ∧ pends t ∧ waits t
        ∧ ∃ j' ∈ (t.cluster cl).engine.jobs, j' = { j with asked := j'.asked })
      ∧ (hasRoom s j = true → jobCheck s j ≠ 0 → ∃ t g due, o = .next t ∧ pends t ∧ waits t ∧ (t.cluster cl).engine = en
        ∧ s.cycle < due ∧ (due, Event.tokenMessageArrival c g) ∈ t.agenda ∧ g.d2 = BitVec.ofNat 64 (jobCheck s j)
        ∧ g.d1 = BitVec.ofNat 64 (s.me.ctxNum % 65536 * 65536 + d.toNat * 256 + s.cur % 8))
      ∧ (hasRoom s j = false → ∃ t, o = .next t ∧ t.me.state = .waitEngine ∧ t.me.wait = .jobFull j wait
        ∧ t.me.x = s.me.x ∧ t.me.pending = s.me.pending ∧ (t.cluster cl).engine = en ∧ ∀ k, k ≠ s.cur → t.slot k = s.slot k)
    let n := Nat.min (s.rx a).toNat 65535
    let hint (f : Engine → Engine) : State := s.modCluster cl (fun u => { u with engine := f u.engine })
    let up := s.cycle + rampCycles (s.cluster cl)
    let ring := ringOf (s.cluster cl) q.toNat
    let code := ringCheck s cl q.toNat s.me.world none
    let ea := (s.rx a).toNat % 2 ^ 57
    let tile := (List.range ring.tileBytes).map (ea + ·)
    (s.me.state = .ready → ctxSlot s c s.me.ctxNum = some s.cur →
      (s.writable m.d → asks (exec (.mma m) s) m.ty.toNat 0 m.d m.s1 m.s2 m.s3 (m.wait == 1))
      ∧ (s.writable d → s.issued.modq.toNat ≠ 0 → asks (exec (.mmam w d a b e) s) 8 s.issued.modq.toNat d a b e (w == 1)))
    ∧ (s.writable d → s.issued.modq.toNat = 0 → exec (.mmam w d a b e) s = trapOut s 5 0x0D 0)
    ∧ (n = 0 → exec (.mhint a) s = .next s)
    ∧ (n ≠ 0 → en.ramp = .idle → exec (.mhint a) s
        = .next ((hint (fun e => { e with ramp := .up up n, warmUntil := up + n })).at_ up (.engineRampUpEnd cl)))
    ∧ (n ≠ 0 → en.ramp = .on → exec (.mhint a) s
        = .next (hint (fun e => { e with warmUntil := Nat.max e.warmUntil (s.cycle + n) })))
    ∧ (∀ u, n ≠ 0 → en.ramp = .warm u → s.cycle + n ≤ u → exec (.mhint a) s = .next s)
    ∧ (∀ u, n ≠ 0 → en.ramp = .down u ∨ (en.ramp = .warm u ∧ u < s.cycle + n) → exec (.mhint a) s
        = .next ((hint (fun e => { e with warmUntil := s.cycle + n, ramp := .warm (s.cycle + n) })).at_ (s.cycle + n)
          (.engineWarmEnd cl)))
    ∧ (s.writable d → ∃ t, exec (.qcfg q d a) s = .next t ∧ t.me = s.me.startToken d ∧ (∀ k, k ≠ s.cur → t.slot k = s.slot k)
        ∧ ringOf (t.cluster cl) q.toNat = { ring with
            config := ring.config ++ [(c, s.me.ctxNum, d.toNat, s.me.world, s.rx a)] }
        ∧ (s.cycle + 1, Event.qcfgApply cl q.toNat) ∈ t.agenda ∧ t.mem = s.mem)
    ∧ (s.writable d → code ≠ 0 → exec (.qpush q d a) s = .next ((s.modMe (·.startToken d)).next1
        (.completionWrite c s.me.ctxNum d.toNat (BitVec.ofNat 64 code) 0)))
    ∧ (s.writable d → code = 0 → ea % 16 ≠ 0 → exec (.qpush q d a) s = trapOut s 7 0x04 (BitVec.ofNat 64 ea))
    ∧ (s.writable d → code = 0 → ea % 16 = 0 → 0x20000 ≤ ea → exec (.qpush q d a) s = trapOut s 7 0x11 (BitVec.ofNat 64 ea))
    ∧ (s.writable d → s.me.state = .ready → code = 0 → ea % 16 = 0 → ea < 0x20000 → localFault s tile = none →
        ∃ t r, exec (.qpush q d a) s = .next t ∧ t.me.state = .waitEngine ∧ t.me.wait = .reservation q.toNat r ∧ r.vas = tile
          ∧ r.rd = d.toNat ∧ t.me.x = s.me.x ∧ t.me.pending = s.me.pending ∧ (∀ k, k ≠ s.cur → t.slot k = s.slot k)
          ∧ (ringOf (t.cluster cl) q.toNat).waiting = askIns s.cycle (c % 8) (.slot c s.me.ctxNum) ring.waiting
          ∧ (s.cycle + 1, Event.ringReservationGrant cl q.toNat) ∈ t.agenda)

/-- The matrix engine in time (R225 to R229, R243, R244): an idle engine ramps up and down; the next job claims its tiles
and runs its K steps for its whole time; a ready shadow job pauses a normal job at a chunk boundary, and the paused
job goes on where it stood once no shadow job is queued; a job whose result goes to a ring has its tile written and
published and its token completed, and its entry frees in the next cycle. What the rules leave open is filled by the
model as log entries 38, 40, 41 and 112 say. -/
def Obligations.EngineEvents : Prop :=
  ∀ (s : State) (cl id : Nat), s.poison = [] → s.flipped = [] →
    let u := s.cluster cl
    let e := u.engine
    let running (t : State) : Option Nat := (t.cluster cl).engine.running
    let starts (o : Out) (j : Job) : Prop := ∃ t, o = .next t ∧ running t = some j.id ∧ (t.cluster cl).engine.ramp = .on
      ∧ (s.cycle + j.total, Event.matrixJobStart cl) ∈ t.agenda ∧ t.slots = s.slots ∧ t.mem = s.mem
      ∧ (t.cluster cl).store = u.store
    let rests (o : Out) : Prop := (s.cycle < e.warmUntil →
        ∃ t, o = .next t ∧ (t.cluster cl).engine = { e with ramp := .warm e.warmUntil }
          ∧ (e.warmUntil, Event.engineWarmEnd cl) ∈ t.agenda)
      ∧ (e.warmUntil ≤ s.cycle → ∃ t, o = .next t ∧ (t.cluster cl).engine = { e with ramp := .down (s.cycle + rampCycles u) }
          ∧ (s.cycle + rampCycles u, Event.engineRampDownEnd cl) ∈ t.agenda)
    (∀ j, e.running = none → (e.ramp = .on ∨ ∃ n, e.ramp = .warm n ∨ e.ramp = .down n) →
      shadowReady u = some j ∨ (shadowReady u = none ∧ e.paused = none ∧ normalPick u = some j) →
      starts (exec (.matrixJobStart cl) s) j)
    ∧ (e.running = none → e.ramp = .on → shadowReady u = none → e.paused = none → normalPick u = none →
        rests (exec (.matrixJobStart cl) s))
    ∧ (∀ j h, e.running.bind (fun id => e.normal.find? (·.id == id)) = some j → shadowReady u = some h →
        s.cycle < jobEnd j → jobDone s j % boundaryCycles j.aty = 0 → j.since < s.cycle →
        ∃ t, exec (.shadowPause cl) s = .next t ∧ running t = some h.id ∧ (t.cluster cl).engine.paused = some j.id
          ∧ t.slots = s.slots ∧ t.mem = s.mem)
    ∧ (∀ j, e.running = none → e.paused.bind e.find = some j → shadowHead e = none →
        ∃ t, exec (.normalJobResume cl) s = .next t ∧ running t = some j.id ∧ (t.cluster cl).engine.paused = none
          ∧ (s.cycle + (j.total - j.doneCycles), Event.matrixJobStart cl) ∈ t.agenda ∧ t.slots = s.slots)
    ∧ (∀ n w, e.ramp = .up n w → n ≤ s.cycle →
        (∀ j, shadowReady u = some j ∨ (shadowReady u = none ∧ e.paused = none ∧ normalPick u = some j) →
          starts (exec (.engineRampUpEnd cl) s) j)
        ∧ (shadowReady u = none → e.paused = none → normalPick u = none → rests (exec (.engineRampUpEnd cl) s)))
    ∧ (∀ n, e.ramp = .warm n → n ≤ s.cycle → rests (exec (.engineWarmEnd cl) s))
    ∧ (∀ n, e.ramp = .warm n → s.cycle < n → exec (.engineWarmEnd cl) s = .next s)
    ∧ (∀ n, e.ramp = .down n → n ≤ s.cycle → hasWork u = false →
        exec (.engineRampDownEnd cl) s = .next (s.modCluster cl (fun u => { u with engine := { u.engine with ramp := .idle } })))
    ∧ (∀ j out code, e.find id = some j → j.started = true → j.done = false → e.running ≠ some id → e.paused ≠ some id → j.result = [] →
        j.mem = none → jobResult s cl j = some (out, code) →
        ∃ t m due, exec (.matrixJobRetire cl id) s = .next t ∧ (∃ j', (t.cluster cl).engine.find id = some j' ∧ j'.done = true)
          ∧ (s.cycle + 1, Event.remoteReply (.job cl id) .done 0) ∈ t.agenda
          ∧ (t.cluster cl).store = cellWrite u.store ((ringOf u j.qd).tileAt (j.resv.getD 0)) out
          ∧ s.cycle < due ∧ (due, Event.tokenMessageArrival j.core m) ∈ t.agenda ∧ m.d2 = BitVec.ofNat 64 code
          ∧ m.d1 = BitVec.ofNat 64 (j.ctx % 65536 * 65536 + j.rd * 256 + j.slot % 8) ∧ t.slots = s.slots ∧ t.mem = s.mem)
    ∧ (∀ j, e.find id = some j → j.done = true →
        clusterWaits s cl (fun w => match w with | .jobFull _ _ => true | _ => false) = [] →
        ∃ t, exec (.remoteReply (.job cl id) .done 0) s = .next t ∧ (t.cluster cl).engine.find id = none
          ∧ t.slots = s.slots ∧ t.mem = s.mem)

/-- The rings in time (R220, R221, R223, R247, R249): reservations are granted in order while there is room; a tile is
published into its place and moves the tail past every published tile that follows; the oldest configuration of a
quiet ring sets it up or completes with the code of the check that refuses it, and one of a ring that is not quiet
waits. What the rules leave open is filled by the model as log entry 39 says. -/
def Obligations.RingEvents : Prop :=
  ∀ (s : State) (cl q idx : Nat), q < 16 →
    let r := ringOf (s.cluster cl) q
    (∀ cyc rank k rest, r.waiting = (cyc, rank, .copy k) :: rest → cyc < s.cycle → tilesFrom r.head r.resv < r.cap →
      ((s.cluster cl).kicks.find? (·.id == k)).map (fun x => ringCheck s cl q x.world none) = some 0 →
      (∀ x ∈ rest, s.cycle ≤ x.1) →
      ∃ t, exec (.ringReservationGrant cl q) s = .next t ∧ (ringOf (t.cluster cl) q).resv = (r.resv + 1) % 2 ^ 32
        ∧ (ringOf (t.cluster cl) q).waiting = rest ∧ t.slots = s.slots ∧ t.mem = s.mem
        ∧ (t.cluster cl).kicks = (s.cluster cl).kicks.map (fun x => if x.id = k then { x with tile := some r.resv } else x))
    ∧ (r.waiting = [] → exec (.ringReservationGrant cl q) s = .next s)
    ∧ (∀ x rest, r.waiting = x :: rest → askerCheck s cl q x.2.2 = 0 → r.cap ≤ tilesFrom r.head r.resv → exec (.ringReservationGrant cl q) s = .next s)
    ∧ (∃ t, exec (.tilePublish cl q idx) s = .next t ∧ t.slots = s.slots ∧ t.mem = s.mem
        ∧ (ringOf (t.cluster cl) q).tail = (r.publish idx).tail ∧ (ringOf (t.cluster cl) q).published = (r.publish idx).published
        ∧ (ringOf (t.cluster cl) q).head = r.head ∧ (ringOf (t.cluster cl) q).resv = r.resv
        ∧ (t.cluster cl).store = (s.cluster cl).store)
    ∧ (r.published = [] → idx = r.tail → (r.publish idx).tail = (r.tail + 1) % 2 ^ 32 ∧ (r.publish idx).published = [])
    ∧ (r.published = [] → idx ≠ r.tail → (r.publish idx).tail = r.tail ∧ (r.publish idx).published = [idx])
    ∧ (∀ core num reg world w rest, r.config = (core, num, reg, world, w) :: rest →
        (r.quiet = false → exec (.qcfgApply cl q) s = .next s)
        ∧ (r.quiet = true → ∀ n, ringConfig (s.cluster cl) q world w = .ok n →
            ∃ t, exec (.qcfgApply cl q) s = .next t ∧ ringOf (t.cluster cl) q = { n with config := rest } ∧ t.slots = s.slots
              ∧ (s.cycle + 1, Event.completionWrite core num reg 0 0) ∈ t.agenda)
        ∧ (r.quiet = true → ∀ code, ringConfig (s.cluster cl) q world w = .error code →
            ∃ t, exec (.qcfgApply cl q) s = .next t ∧ ringOf (t.cluster cl) q = { r with config := rest } ∧ t.slots = s.slots
              ∧ (s.cycle + 1, Event.completionWrite core num reg (BitVec.ofNat 64 code) 0) ∈ t.agenda))
    ∧ (∀ world w, r.head = r.tail → (r.cap = 0 ∨ r.world = world) → w.toNat / 2 ^ 34 = 0 →
        ∀ n, ringConfig (s.cluster cl) q world w = .ok n → n.world = world ∧ n.cap = bits w.toNat 28 17
          ∧ n.tsz = bits w.toNat 16 10 ∧ n.base = bits w.toNat 9 0 ∧ n.head = 0 ∧ n.tail = 0 ∧ n.resv = 0 ∧ n.claim = 0)

/-- GSTAT and the end of a graph request (R317, R318, R322, R334, R337, R340): an unaligned record traps; without a
request that works on the record, GSTAT reads dword 4 of the record, at once where it stands in the own local store;
with one that has read its record it answers the state of that request, and GSTAT.stop asks it to stop. A request that
ends writes dwords 4 to 7 of its record, frees its slot and completes its token with the status word. What the rules
leave open is filled by the model as log entries 49 and 50 say. -/
def Obligations.GraphRequestStatus : Prop :=
  ∀ (s : State) (d a : Reg) (cl id : Nat),
    let c := coreOf s.cur
    let at_ := (s.rx a).toNat % 2 ^ 57
    let answers (t : State) (r : CopyReq) : Prop := ∃ m due, t.me.state = .waitMem ∧ t.me.wait = .mem m ∧ m.op = .gstat ∧ m.vas = []
      ∧ m.rd = d.toNat ∧ m.extra = statusOf (gCount r.g) r.mutated 1 ∧ t.me.x = s.me.x ∧ (∀ k, k ≠ s.cur → t.slot k = s.slot k)
      ∧ s.cycle < due ∧ (due, Event.remoteReply (.ctx c s.me.ctxNum) .done 0) ∈ t.agenda
    let places := physOf (span (at_ + 32) 8)
    let reads (o : Out) : Prop := ∃ t, o = .next t
      ∧ (s.me.putX d (BitVec.ofNat 64 (leNat (places.map (cellGet (s.core c).ls))))).butSignatures t.me
      ∧ (∀ k, k ≠ s.cur → (s.slot k).butSignatures (t.slot k)) ∧ s.OnlyBytes c [] t
    (s.writable d → at_ % 64 ≠ 0 → exec (.gstat d a) s = trapOut s 7 0x04 (BitVec.ofNat 64 at_)
      ∧ exec (.gstatStop d a) s = trapOut s 7 0x04 (BitVec.ofNat 64 at_))
    ∧ (s.writable d → at_ % 64 = 0 → gorOwner s s.me.world at_ = none → s.poison = [] →
        (∀ i, i < 8 → lsOk s.me.lsbase.toNat s.me.lsbound.toNat (at_ + 32 + i)) →
        reads (exec (.gstat d a) s) ∧ reads (exec (.gstatStop d a) s))
    ∧ (s.writable d → at_ % 64 = 0 → gorOwner s s.me.world at_ = none →
        exec (.gstat d a) s = beginAccess s { MemReq.new .gstat 3 d.toNat ((List.range 8).map (at_ + 32 + ·)) with
          acq := true, scope := 4 })
    ∧ (∀ k r, s.writable d → at_ % 64 = 0 → gorOwner s s.me.world at_ = some (k, r) → r.taken = true → r.g.loaded = true →
        s.iss.prio = none → (∃ t, exec (.gstat d a) s = .next t ∧ answers t r ∧ t.clusters = s.clusters)
        ∧ (∃ t, exec (.gstatStop d a) s = .next t ∧ answers t r ∧ (t.cluster k).kicks = (s.cluster k).kicks.map (fun x =>
            if x.id = r.id then { x with stop := true } else x)))
    ∧ (∀ r code pa, reqOf s cl id = some r → r.status = some code → r.g.fin = true → r.acc = none → r.g.cache = [] →
        unitTarget s (reqUser cl r) (r.gor + 32) 32 true = .ok (.home pa) → crossesDown s (dieOfCluster cl) (homeDie pa) = false →
        s.poison = [] → s.hbm = [] →
        let st := statusOf r.g.count r.mutated code.toNat
        ∃ t m due, exec (.graphRequestFinish cl id) s = .next t ∧ t.slots = s.slots
          ∧ cellRead t.mem pa 32 = toLe st.toNat 8 ++ toLe (r.g.n * 256 + r.g.kind * 32 + 15) 8 ++ toLe 0 8 ++ toLe 0 8
          ∧ (∀ p, p < pa ∨ pa + 32 ≤ p → cellGet t.mem p = cellGet s.mem p)
          ∧ s.cycle < due ∧ (due, Event.tokenMessageArrival r.core m) ∈ t.agenda ∧ m.d2 = st
          ∧ m.d1 = BitVec.ofNat 64 (r.ctx % 65536 * 65536 + r.rd * 256 + r.slot % 8)
          ∧ (s.cycle + 1, Event.copyKickTake cl) ∈ t.agenda)
    ∧ (reqOf s cl id = none → exec (.graphRequestFinish cl id) s = .next s)

/-- The packets of a graph send at both ends (R383, R423, R424): the destination answers a packet of a polder that is not
LIVE with 0x0B and one that no peer entry with W admits with 0x08; it writes an object's header, its place in the
ordinal table and its words, and answers its address, or answers the code of the failure, 0x22 where the object has no
room; at the source an answer without a live tag is dropped and counted, a code ends the request, and an answer
without a code lets it go on. What the rules leave open is filled by the model as log entry 51 says. -/
def Obligations.GraphSendPackets : Prop :=
  ∀ (s : State) (cl : Nat) (p : Packet),
    let f (i : Nat) : Nat := ((p.data[i]?).getD 0).toNat
    let world := p.dst % 32
    let po := s.polder world
    let admitted : Bool := po.peers.any (fun e => e.smod == p.src / 4194304 && e.sworld == p.world && e.w)
    let die := dieOfCluster cl
    let acks (t : State) (a code : Nat) : Prop :=
      exec (.objectPacketArrival cl p) s = .next (gsendAnswer t cl p 2 [f 0, a, code])
    let done (t : State) (code root : Nat) : Prop := exec (.gsendFinishArrival cl p) s = .next (gsendAnswer t cl p 4 [code, root])
    let start (u : State) : Prop := u = s.freshId.modCluster cl (fun c => { c with
      dests := c.dests ++ [{ id := s.nextId, fin := false, packet := p, cache := [], acc := none, key := 0 }] })
    let placed : List GWrite := (f 5, toLe (f 1 % 2 ^ 32) 8 ++ toLe 0 8, false) :: (f 4 + 8 * f 0, toLe (f 5) 8, false)
      :: dwordsAt (f 5 + 16) (((p.data.drop 8).map (·.toNat)).take (f 2))
    let leaves (u t : State) : Prop := t = u.modCluster cl (fun c => { c with dests := c.dests.filter (·.id != s.nextId) })
    (po.state ≠ .live → acks s 0 0x0B ∧ ∃ root, done s 0x0B root)
    ∧ (po.state = .live → admitted = false → acks s 0 0x08 ∧ ∃ root, done s 0x08 root)
    ∧ (po.state = .live → admitted = true →
        (f 3 = 0 → f 6 < f 5 + (16 + 8 * f 2 + 15) / 16 * 16 →
          ∃ u t, start u ∧ leaves u t ∧ acks t 0 0x22)
        ∧ (f 3 = 0 → f 5 + (16 + 8 * f 2 + 15) / 16 * 16 ≤ f 6 →
          ∃ u, start u ∧ ∀ v c sig,
            (gWrites u (destUser cl world s.nextId) none [] 0 placed = (v, c, sig, none) → ∃ t, leaves v t ∧ acks t (f 5) 0)
            ∧ ∀ i e, gWrites u (destUser cl world s.nextId) none [] 0 placed = (v, c, sig, some (i, .error e)) →
              ∃ t, leaves v t ∧ acks t 0 (unitCode e))
        ∧ (f 0 = 0 → ∃ t, t.slots = s.slots ∧ t.mem = s.mem ∧ done t 0 0))
    ∧ (gsendOwner s cl p = none → exec (.gsendAckArrival cl p) s = .next (lateReply s die p.tagIdx p.tagGen)
        ∧ exec (.gsendDoneArrival cl p) s = .next (lateReply s die p.tagIdx p.tagGen)
        ∧ ((lateReply s die p.tagIdx p.tagGen).die die).dropped = (s.die die).dropped + 1)
    ∧ (∀ r, gsendOwner s cl p = some r → (s.die die).tagQueue = [] →
        let ends (o : Out) (code : Nat) : Prop := ∃ t, o = .next t ∧ t.slots = s.slots ∧ t.mem = s.mem
          ∧ (getTag t die p.tagIdx).use = .free ∧ (s.cycle + 1, Event.graphRequestFinish cl r.id) ∈ t.agenda
          ∧ ∀ x ∈ (t.cluster cl).kicks, x.id = r.id → x.status = some (BitVec.ofNat 64 code) ∧ x.g.fin = false
        let goes (o : Out) : Prop := ∃ t, o = .next t ∧ t.slots = s.slots ∧ t.mem = s.mem
          ∧ (getTag t die p.tagIdx).use = .free ∧ (s.cycle, Event.remoteReply (.copy cl r.id) .done 0) ∈ t.agenda
        (f 2 % 256 ≠ 0 → ends (exec (.gsendAckArrival cl p) s) (f 2 % 256))
        ∧ (f 2 % 256 = 0 → goes (exec (.gsendAckArrival cl p) s))
        ∧ (f 0 % 256 ≠ 0 → ends (exec (.gsendDoneArrival cl p) s) (f 0 % 256))
        ∧ (f 0 % 256 = 0 → goes (exec (.gsendDoneArrival cl p) s)))

/-- Barriers and the task instructions at issue (R234, R254, R327 to R332): GBAR of a group that the task does not belong
to traps, and otherwise the task is counted as arrived and waits in WAIT_BARRIER; SPAWN completes with the code of the
first check that fails, and otherwise the record with its operands stands at the bottom of the core's deque; TDONE
traps in slot 6; TDONE and TYIELD wait first for their pending registers and then for their outstanding requests. What
the rules leave open is filled by the model as log entry 78 says. -/
def Obligations.TaskInstructions : Prop :=
  ∀ (s : State) (sc : BitVec 3) (i : BitVec 1) (d a b e : Reg),
    let c := coreOf s.cur
    let sl := s.me
    let h := sl.launch.toNat % 1024
    let g := (s.rx a).toNat % 256
    let member := (List.range 4).any (fun k => sl.groups.getLsbD (32 + k) && bits sl.groups.toNat (8 * k + 7) (8 * k) == g)
    let entry := (s.rx a).toNat
    let prio := if i = 1 then sl.prio else bits entry 63 58
    let code := spawnCode s (i == 1) entry (s.rx (e + 1)).toNat
    let spawned (x : Nat) (ad : State → Prop) : Prop := ∃ t due, exec (.spawn i d a b e) s = .next t ∧ s.cycle < due
      ∧ (due, Event.completionWrite c sl.ctxNum d.toNat (BitVec.ofNat 64 x) 0) ∈ t.agenda ∧ t.me.x = sl.x
      ∧ t.me.pending = (sl.startToken d).pending ∧ (∀ k, k ≠ s.cur → t.slot k = s.slot k) ∧ ad t
    let drains (o : Out) (op : MemOp) : Prop := ∃ t r, o = .next t ∧ t.me.wait = .mem r ∧ r.op = op ∧ r.acq ∧ r.rel ∧ r.scope = 4
      ∧ t.me.x = sl.x ∧ t.me.pc = sl.pc ∧ (∀ k, k ≠ s.cur → t.slot k = s.slot k)
      ∧ (sl.pending ≠ 0 → t.me.state = .waitToken ∧ r.phase = 0)
      ∧ (sl.pending = 0 → t.me.state = .waitMem ∧ r.phase = 1)
      ∧ (sl.pending = 0 → sl.outstanding = 0 → ∃ due, s.cycle < due ∧ (due, Event.remoteReply (.ctx c sl.ctxNum) .done 0) ∈ t.agenda)
    (member = false → exec (.gbar sc a) s = trapOut s 7 0x11 (BitVec.ofNat 64 g))
    ∧ (member = true → sl.state = .ready → ∃ t, exec (.gbar sc a) s = .next t ∧ t.me.state = .waitBarrier
        ∧ t.me.wait = .barrier g sc.toNat ∧ t.me.x = sl.x ∧ (∀ k, k ≠ s.cur → t.slot k = s.slot k)
        ∧ (s.cycle + 1, Event.barrierComplete sl.world h g) ∈ t.agenda
        ∧ (findBarrier t sl.world h g).arrived = (findBarrier s sl.world h g).arrived ++ [(sl.arg1.toNat, c, sl.ctxNum, sc.toNat)])
    ∧ (s.writable d → code ≠ 0 → spawned code (fun t => t.cores = s.cores ∧ t.polders = s.polders))
    ∧ (s.writable d → code = 0 → prio < 40 → (s.core c).deque.length < 64 →
        spawned 0 (fun t => ∃ rec_ : TaskRec, (t.core c).deque = rec_ :: (s.core c).deque ∧ rec_.world = sl.world
          ∧ rec_.prio = prio ∧ rec_.pc = entry % 2 ^ 57 ∧ rec_.arg0 = s.rx b ∧ rec_.arg1 = s.rx e ∧ rec_.launch = h
          ∧ rec_.done = (s.rx (e + 1)).toNat ∧ rec_.seeded = false ∧ rec_.logical = sl.logical.toNat
          ∧ rec_.codeLo = sl.codeLo ∧ rec_.codeHi = sl.codeHi ∧ rec_.since = s.cycle ∧ rec_.sig = sl.acc))
    ∧ (s.writable d → code = 0 → prio < 40 → 64 ≤ (s.core c).deque.length → Config.spillFails s.free = true →
        spawned 0x31 (fun t => t.cores = s.cores ∧ t.polders = s.polders))
    ∧ (s.cur % 8 = 6 → exec .tdone s = trapOut s 1 0x01 (aBits .tdone))
    ∧ (s.cur % 8 ≠ 6 → sl.state = .ready → drains (exec .tdone s) .tdone)
    ∧ (s.writable d → sl.state = .ready → drains (exec (.tyield d a b) s) .tyield)

/-- The end of a task (R61, R331, R332): a TDONE that has drained, without a counter to add to, leaves its slot EMPTY with
every register at its reset value, and its context number waits out twice the packet lifetime; a TYIELD that has
drained leaves its slot in the same way with its continuation on the core's deque. A barrier completes and is left
(R234, R235): when every member has arrived or ended, a new generation begins and every arrival is released with the
generation's signature; before that nothing happens; a released member goes on after GBAR. What the rules leave open
is filled by the model as log entries 74 and 75 say. -/
def Obligations.TaskEnds : Prop :=
  (∀ (s : State) (c num k : Nat) (r : MemReq), ctxSlot s c num = some k → coreOf k = c → (s.slot k).ctxNum = num →
      (s.slot k).wait = .mem r → r.phase = 1 → r.acq = true → r.scope = 4 →
      (s.polder (s.slot k).world).state = .live → (s.slot k).outstanding = 0 → (s.die (dieOfCore c)).tokens = [] →
      (s.cluster (clusterOfCore c)).bbc = [] →
      let sl := s.slot k
      let h := sl.launch.toNat % 1024
      let ended (t : State) : Prop := exec (.remoteReply (.ctx c num) .done 0) s = .next t ∧ t.slot k = Slot.reset
        ∧ (∀ j, j ≠ k → t.slot j = s.slot j) ∧ (t.core c).quarantined = (s.core c).quarantined ++ [num]
        ∧ (t.core c).ctxNums = (s.core c).ctxNums.filter (· != num)
        ∧ (s.cycle + 2097152, Event.contextNumberRelease c num) ∈ t.agenda
      (∀ l, r.op = .tdone → sl.done = 0 → sl.seeded = false → launchOf s sl.world h = some l → l.state = .running → 2 ≤ l.live →
        ∃ t, ended t ∧ (t.core c).deque = (s.core c).deque
          ∧ launchOf t sl.world h = some { l with live := l.live - 1 })
      ∧ (r.op = .tyield → sl.seeded = false → sl.prio < 40 → r.cmp.toNat % 8 = 0 → r.cmp.toNat < 2 ^ 57 →
          (s.core c).deque.length < 64 →
          ∃ t rec_, ended t ∧ (t.core c).deque = (s.core c).deque ++ [rec_] ∧ rec_.world = sl.world ∧ rec_.prio = sl.prio
            ∧ rec_.pc = r.cmp.toNat ∧ rec_.arg0 = r.extra ∧ rec_.arg1 = sl.arg1 ∧ rec_.launch = h ∧ rec_.done = sl.done.toNat
            ∧ rec_.seeded = sl.seeded))
  ∧ (∀ (s : State) (world launch group core num : Nat),
      let b := findBarrier s world launch group
      (∀ l, launchOf s world launch = some l → barrierFull l b = false ∨ b.arrived = [] →
        exec (.barrierComplete world launch group) s = .next s)
      ∧ (∀ l, launchOf s world launch = some l → barrierFull l b = true → b.arrived ≠ [] →
          ∃ t, exec (.barrierComplete world launch group) s = .next t ∧ t.slots = s.slots ∧ t.mem = s.mem
            ∧ findBarrier t world launch group = { b with gen := b.gen + 1, arrived := [], sig := 0 }
            ∧ ∀ x ∈ b.arrived, ∃ due, s.cycle < due ∧ (due, Event.barrierRelease x.2.1 x.2.2.1 b.sig) ∈ t.agenda)
      ∧ (∀ k g sc sig, ctxSlot s core num = some k → (s.slot k).wait = .barrier g sc → (s.slot k).longUntil ≤ s.cycle →
          (s.slot k).streamsRead = 0 → (s.slot k).stopPending = false → (s.slot k).held = Held.none →
          ∃ t, exec (.barrierRelease core num sig) s = .next t ∧ (t.slot k).state = .ready ∧ (t.slot k).pc = (s.slot k).npc
            ∧ (t.slot k).x = (s.slot k).x ∧ (t.slot k).v = (s.slot k).v ∧ (t.slot k).accCur = (s.slot k).accCur ||| sig
            ∧ ∀ j, j ≠ k → t.slot j = s.slot j))

/-- What a core does with ready tasks (R61, R158, R165, R166, R283 to R286, R291, R292): an EMPTY general slot takes the
bottom record of its world where its share is well formed, or the oldest ready context at or above that record's
level, and nothing where neither stands; a batch that was spilled last comes back above the resident records; what has
waited its limit rises one level; a core with nothing ready for a world asks another core for a task, and waits 4,096
cycles for that world after a failure on every die; a soft or hard reset of a launch queue without launches drops its
unread records. What the rules leave open is filled by the model as log entries 9, 64, 65, 79 and 105 say. -/
def Obligations.TaskEvents : Prop :=
  ∀ (s : State) (c num world q : Nat),
    let co := s.core c
    let st := stealOf co world
    (∃ t, exec (.contextNumberRelease c num) s = .next t ∧ (t.core c).quarantined = co.quarantined.filter (· != num)
      ∧ (t.core c).ctxNums = co.ctxNums ∧ (∀ j, j ≠ c → t.core j = s.core j) ∧ t.slots = s.slots ∧ t.mem = s.mem)
    ∧ (emptyGeneral s c = none → exec (.taskPop c world) s = .next s)
    ∧ (∀ k, emptyGeneral s c = some k → readySwapped s c world = [] → bottomOf s c world = none →
        exec (.taskPop c world) s = .next s)
    ∧ (∀ k rec_, emptyGeneral s c = some k → coreOf k = c → (∀ e ∈ readySwapped s c world, e.slot.prio < rec_.prio) →
        bottomOf s c world = some rec_ → shareFits co world = false → s.poison = [] → s.flipped = [] →
        ∃ t, exec (.taskPop c world) s = .next t ∧ (t.core c).deque = co.deque.erase rec_ ∧ t.slots = s.slots ∧ t.mem = s.mem)
    ∧ (∀ k rec_ n, emptyGeneral s c = some k → coreOf k = c → (∀ e ∈ readySwapped s c world, e.slot.prio < rec_.prio) →
        bottomOf s c world = some rec_ → shareFits co world = true → freeNum co = some n → s.poison = [] → s.flipped = [] →
        ∃ t, exec (.taskPop c world) s = .next t ∧ (t.core c).deque = co.deque.erase rec_
          ∧ (t.core c).ctxNums = co.ctxNums ++ [n] ∧ (t.slot k).state = .swapped ∧ (t.slot k).ctxNum = n
          ∧ (t.slot k).pc = BitVec.ofNat 64 rec_.pc ∧ (t.slot k).arg0 = rec_.arg0 ∧ (t.slot k).arg1 = rec_.arg1
          ∧ (t.slot k).prio = rec_.prio ∧ (t.slot k).world = rec_.world ∧ (t.slot k).x = Slot.reset.x
          ∧ (t.slot k).tvec = (s.polder rec_.world).hvec ∧ (∀ j, j ≠ k → t.slot j = s.slot j)
          ∧ (s.cycle + 8, Event.contextInstall k) ∈ t.agenda)
    ∧ (∀ k e, emptyGeneral s c = some k → (bottomOf s c world = none ∧ (readySwapped s c world).head? = some e)
          ∨ (∃ r, bottomOf s c world = some r ∧ (readySwapped s c world).find? (fun e => decide (r.prio ≤ e.slot.prio)) = some e) →
        ∃ t, exec (.taskPop c world) s = .next t ∧ (t.slot k).state = .swapped ∧ (t.slot k).saved = .ready
          ∧ (t.slot k).ctxNum = e.slot.ctxNum ∧ (t.slot k).world = e.slot.world ∧ (∀ j, j ≠ k → t.slot j = s.slot j)
          ∧ (t.core c).deque = co.deque)
    ∧ (∀ b, co.spilled.getLast? = some b → co.deque.length < 16 → b.any (·.world == world) = true →
        (Config.spillFails s.free = false → ∃ t, exec (.dequeReadback c world) s = .next t ∧ (t.core c).deque = co.deque ++ b
          ∧ (t.core c).spilled = co.spilled.dropLast ∧ t.slots = s.slots ∧ (s.cycle + 1, Event.preemption c world) ∈ t.agenda)
        ∧ (Config.spillFails s.free = true → ∃ t, exec (.dequeReadback c world) s = .next t ∧ t.cores = s.cores
          ∧ t.slots = s.slots))
    ∧ (16 ≤ co.deque.length → exec (.dequeReadback c world) s = .next s)
    ∧ (∃ t, exec (.ageingRaise c) s = .next t ∧ t.slots = s.slots ∧ t.mem = s.mem
        ∧ (t.core c).deque = co.deque.map (fun r => if ages s r.world r.prio r.since = true then
          { r with prio := r.prio + 1, since := s.cycle } else r)
        ∧ ∀ j, j ≠ c → t.core j = s.core j)
    ∧ (st.active = true ∨ st.backoff.isSome = true ∨ maySteal s c world = false → exec (.stealRequest c world) s = .next s)
    ∧ (st.active = false → st.backoff = none → maySteal s c world = true → sharedCores s (dieOfCore c) world ≠ [] →
        dieOfCore c < 16 →
        ∃ t due target m, exec (.stealRequest c world) s = .next t ∧ target ∈ sharedCores s (dieOfCore c) world
          ∧ s.cycle < due ∧ (due, Event.serviceQueueArrival target m) ∈ t.agenda ∧ m.op = .steal ∧ m.world = world
          ∧ m.from_ = .thief c world ∧ (stealOf (t.core c) world).active = true
          ∧ (∀ w, w ≠ world → stealOf (t.core c) w = stealOf co w) ∧ t.slots = s.slots)
    ∧ (∀ n, st.backoff = some n → n ≤ s.cycle → ∃ t, exec (.stealBackoffEnd c world) s = .next t
        ∧ stealOf (t.core c) world = { st with backoff := none } ∧ t.slots = s.slots
        ∧ ∀ w, w ≠ world → stealOf (t.core c) w = stealOf co w)
    ∧ (∀ r : TaskRec, tagOf s (dieOfCore c) (.thief c world) = none → launchOf s r.world r.launch = none →
        (s.polder r.world).state = .live → emptyGeneral s c = none → co.deque.length < 64 →
        ∃ t, exec (.stealReplyArrival c ⟨world, some r⟩) s = .next t ∧ (t.core c).deque = r :: co.deque
          ∧ (stealOf (t.core c) world).active = false ∧ t.slots = s.slots)
    ∧ (tagOf s (dieOfCore c) (.thief c world) = none → st.active = true → maySteal s c world = true → st.dieStep = 15 → st.tries = 7 →
        ∃ t, exec (.stealReplyArrival c ⟨world, none⟩) s = .next t ∧ (stealOf (t.core c) world).active = false
          ∧ (stealOf (t.core c) world).backoff = some (s.cycle + 4096)
          ∧ (s.cycle + 4096, Event.stealBackoffEnd c world) ∈ t.agenda ∧ t.slots = s.slots)
    ∧ (8 ≤ q → exec (.vfSoftReset world q) s = .next s ∧ exec (.vfHardReset world q) s = .next s)
    ∧ (q < 8 → (s.polder world).launches.filter (fun l => l.queue == q) = [] → (queueOf s world q).links = [] →
        (∃ t, exec (.vfSoftReset world q) s = .next t ∧ t.slots = s.slots ∧ t.mem = s.mem
          ∧ queueOf t world q = { queueOf s world q with soft := false, stopped := false, read := (queueOf s world q).tail }
          ∧ (s.cycle + 1, Event.launchRecordRead world q) ∈ t.agenda)
        ∧ ∃ t, exec (.vfHardReset world q) s = .next t
          ∧ queueOf t world q = { queueOf s world q with soft := false, stopped := false, read := (queueOf s world q).tail }
          ∧ (s.cycle + 1, Event.launchRecordRead world q) ∈ t.agenda)

/-- STTK and STDEP (R392, R395, R396, R416, R418): a misaligned address and an address below 0x2_0000 trap; one that the
cluster's buffer translates waits in WAIT_MEM; then an STTK to a home of the own die takes the next sequence of its
space, returns its token and sends its store, and a STDEP sends its store with its token to the complex of the home,
while a token of another world traps. -/
def Obligations.TokenStores : Prop :=
  ∀ (s : State) (m : MrrF),
    let n := 2 ^ m.size.toNat
    let a := (s.rx m.s1 + 0).toNat % 2 ^ 57
    let c := coreOf s.cur
    let begins (o : Out) (phase : Nat) (rd : Nat) (token : Word) : Prop :=
      (a % n ≠ 0 → o = trapOut s 5 0x04 (BitVec.ofNat 64 a))
      ∧ (a % n = 0 → a < 0x20000 → o = trapOut s 7 0x11 (BitVec.ofNat 64 a))
      ∧ (∀ e : TlbEntry, a % n = 0 → 0x20000 ≤ a → a + n ≤ 2 ^ 57 → s.me.state = .ready → ctxSlot s c s.me.ctxNum = some s.cur →
          (s.core c).trace.extractLsb' 4 4 = 0 →
          (∀ i, i < n → tlbFind (s.cluster (clusterOf s.cur)).tlb s.me.world (a + i) = some e) → (Leaf.mk e.leaf).kind = 0 →
          (Leaf.mk e.leaf).writable →
          (∀ i, i < n → ownerOf s ((Leaf.mk e.leaf).pa + (a + i) % (Leaf.mk e.leaf).size) = some s.me.world) →
          ∃ t r, o = .next t ∧ t.me.state = .waitMem ∧ t.me.wait = .mem r ∧ r.op = .sttk ∧ r.phase = phase ∧ r.rd = rd
            ∧ r.extra = token ∧ r.data = toLe (s.rx m.d).toNat n
            ∧ r.segs = (List.range n).map (fun i => Target.home ((Leaf.mk e.leaf).pa + (a + i) % (Leaf.mk e.leaf).size))
            ∧ (s.cycle + 1, Event.remoteReply (.ctx c s.me.ctxNum) .done 0) ∈ t.agenda ∧ t.me.x = s.me.x
            ∧ ∀ j, j ≠ s.cur → t.slot j = s.slot j)
    (s.writable m.s2 → begins (exec (.sttk m) s) 0 m.s2.toNat 0)
    ∧ begins (exec (.stdep m) s) 1 0 (s.rx m.s2)
    ∧ (∀ (c num k pa : Nat) (rest : List Target) (r : MemReq), ctxSlot s c num = some k → (s.slot k).wait = .mem r → r.op = .sttk →
        r.segs = .home pa :: rest → (s.polder (s.slot k).world).state = .live → homeDie pa = dieOfCore c →
        (s.slot k).longUntil ≤ s.cycle → (s.slot k).streamsRead = 0 → (s.slot k).held = Held.none →
        (s.slot k).stopPending = false →
        let sl := s.slot k
        let die := dieOfCore c
        let gen := (s.polder sl.world).gen
        let sp := getSpace s die sl.world gen
        let seq := seqNext sp.alloc
        let resumes (t : State) : Prop := exec (.remoteReply (.ctx c num) .done 0) s = .next t ∧ (t.slot k).state = .ready
          ∧ (t.slot k).pc = sl.npc ∧ (t.slot k).outstanding = sl.outstanding + 1 ∧ ∀ j, j ≠ k → t.slot j = s.slot j
        (r.phase = 0 →
          ((s.die die).tokens.filter (fun e => !(getSpace s die e.world e.pgen).settled.contains e.seq)).length < 4096 →
          ∃ t due e, resumes t ∧ (r.rd ≠ 0 → r.rd < 32 →
              (t.slot k).getX (regOf r.rd) = mkToken s.moduleNo die gen sl.world seq)
            ∧ (getSpace t die sl.world gen).alloc = seq ∧ (t.die die).tokens = (s.die die).tokens ++ [e] ∧ e.seq = seq
            ∧ e.world = sl.world ∧ e.pgen = gen ∧ e.tgt = .home pa ∧ e.data = r.data ∧ e.holders = []
            ∧ s.cycle < due ∧ (due, Event.remoteReply (.sttk die sl.world gen seq) .home 0) ∈ t.agenda)
        ∧ (r.phase = 1 → bits r.extra.toNat 34 32 = 0 → (r.extra = 0 ∨ tokWorld r.extra.toNat = sl.world) →
          ∃ t due d, resumes t ∧ (t.slot k).x = sl.x ∧ s.cycle < due ∧ (due, Event.depstoreArrival die d) ∈ t.agenda
            ∧ d.token = r.extra ∧ d.data = r.data ∧ d.pa = pa ∧ d.target = none ∧ d.world = sl.world
            ∧ d.expiry = (s.polder sl.world).tkExpiry.toNat ∧ d.from_ = .dep c num r.extra)
        ∧ (r.phase = 1 → bits r.extra.toNat 34 32 ≠ 0 ∨ (r.extra.toNat ≠ 0 ∧ tokWorld r.extra.toNat ≠ sl.world) →
          exec (.remoteReply (.ctx c num) .done 0) s = .next (takeTrapAt s k 0x11 r.extra)))

/-- The token table of a complex (R394 to R397): a store that has landed or failed settles its sequence, and the watermark
passes every settled sequence that follows it; a failure opens a failure window and is the issuer's; a HOLD for a
token that has resolved is answered at once, one for a token of no space as failed, and one for a store on its way is
kept. What the rules leave open is filled by the model as log entry 62 says. -/
def Obligations.TokenTable : Prop :=
  ∀ (s : State) (die world gen seq code holder : Nat) (token : Word) (sig : Sig),
    let sp := getSpace s die world gen
    let w := token.toNat
    let mine (e : TokEntry) : Bool := e.world == tokWorld w && e.pgen == tokGen w && e.seq == tokSeq w
    (tokEntry s die world gen seq = none → exec (.sttkLanding die world gen seq sig) s = .next s
      ∧ exec (.sttkFailure die world gen seq code) s = .next s)
    ∧ (∀ e k, tokEntry s die world gen seq = some e → sp.settled = [] → ctxSlot s e.core e.ctx = some k →
        (s.polder (s.slot k).world).state ≠ .draining → (s.slot k).wait = .none → (∀ x ∈ (s.die die).tokens, x.holders = []) →
        (seqNext sp.mark = seq →
          ∃ t, exec (.sttkLanding die world gen seq sig) s = .next t
            ∧ t.slots = (s.modSlot k (fun sl => { sl with outstanding := sl.outstanding - 1 })).slots
            ∧ (getSpace t die world gen).mark = seq ∧ (getSpace t die world gen).settled = []
            ∧ (getSpace t die world gen).windows = sp.windows
            ∧ (t.die die).tokens = (s.die die).tokens.filter (fun e =>
                !(e.world == world && e.pgen == gen && tokLe e.seq seq)))
        ∧ (seqNext sp.mark ≠ seq →
          ∃ t, exec (.sttkLanding die world gen seq sig) s = .next t ∧ (getSpace t die world gen).mark = sp.mark
            ∧ (getSpace t die world gen).settled = [seq])
        ∧ (code ≠ 0 → code < 256 → (s.slot k).tkerr.getLsbD 8 = false → sp.windows = [] →
          ∃ t, exec (.sttkFailure die world gen seq code) s = .next t ∧ (t.slot k).tkerr = BitVec.ofNat 64 (256 + code)
            ∧ (getSpace t die world gen).windows = [(seq, sp.alloc)]))
    ∧ (∀ b, tokResolution s die w = some b → exec (.holdArrival die token holder) s
        = .next (sendRelease s die token holder b false (getSpace s die (tokWorld w) (tokGen w)).clean
          (getSpace s die (tokWorld w) (tokGen w)).landed.value))
    ∧ ((s.polder (tokWorld w)).gen ≠ tokGen w → tokResolution s die w = some true)
    ∧ (∀ e, tokResolution s die w = none → (s.die die).tokens.find? mine = some e → e.holders.contains holder = false →
        (e.holders.length < 8 → exec (.holdArrival die token holder) s = .next (s.modDie die (fun d => { d with
          tokens := d.tokens.map (fun x => if mine x then { x with holders := x.holders ++ [holder] } else x) })))
        ∧ (8 ≤ e.holders.length → exec (.holdArrival die token holder) s
          = .next (sendRelease s die token holder false true (getSpace s die (tokWorld w) (tokGen w)).clean
            (getSpace s die (tokWorld w) (tokGen w)).landed.value)))
    ∧ ((s.die die).sluice.any (fun e => e.store.token == token) = false → exec (.holdRetry die token) s = .next s)
    ∧ ((s.die die).sluice.any (fun e => e.store.token == token) = true → tokModule w = s.moduleNo →
        crossesDown s die (tokDie w) = false → ∃ t due, exec (.holdRetry die token) s = .next t ∧ s.cycle < due
          ∧ (due, Event.holdArrival (tokDie w) token (s.moduleNo * 16 + die)) ∈ t.agenda ∧ t.slots = s.slots ∧ t.mem = s.mem)

/-- The sluice of a holder (R396 to R399): a dependent store without a token, or whose token a clean watermark covers, is
performed at once; one that waits is kept with its expiry while the sluice has room, and turned away when it is full,
to be sent again after 1,024 cycles; a RELEASE performs the stores of its token, or drops them with code 0x60 where it
failed; a store whose time runs out is dropped with code 0x61, and a RELEASE due in that cycle goes before. What the
rules leave open is filled by the model as log entry 63 says. -/
def Obligations.Sluice : Prop :=
  ∀ (s : State) (die n : Nat) (y : DepStore) (token : Word) (failed : Bool) (clean : Nat) (sig : Sig),
    let d := s.die die
    let w := y.token.toNat
    let own := y.module = s.moduleNo ∧ polderGone s y.world = false ∧ (y.target = none → ownerOf s y.pa = some y.world)
    (own → y.token = 0 → exec (.depstoreArrival die y) s = .next (depPerform s die y 0))
    ∧ (own → y.token = 0 → y.target = none → s.poison = [] → s.hbm = [] →
        ∃ t, exec (.depstoreArrival die y) s = .next t
          ∧ (∀ i p, i < y.data.length → p = y.pa + i → some (cellGet t.mem p) = y.data[i]?)
          ∧ (∀ p, p < y.pa ∨ y.pa + y.data.length ≤ p → cellGet t.mem p = cellGet s.mem p) ∧ t.slots = s.slots)
    ∧ (∀ core num, own → y.from_ = .dep core num y.token → y.token ≠ 0 → depClean s die w = false → d.sluice.length < 512 →
        ∃ t, exec (.depstoreArrival die y) s = .next t ∧ t.slots = s.slots ∧ t.mem = s.mem
          ∧ (t.die die).sluice = d.sluice ++ [
            { n := d.sluiceNext, store := y, expiry := s.cycle + (y.expiry - (s.cycle - y.issued)) }]
          ∧ (t.die die).sluiceNext = d.sluiceNext + 1
          ∧ (s.cycle + (y.expiry - (s.cycle - y.issued)), Event.sluiceExpiry die d.sluiceNext) ∈ t.agenda)
    ∧ (∀ core num, own → y.from_ = .dep core num y.token → y.token ≠ 0 → depClean s die w = false → 512 ≤ d.sluice.length →
        ∃ t due, exec (.depstoreArrival die y) s = .next t ∧ t.slots = s.slots ∧ t.mem = s.mem ∧ s.cycle < due
          ∧ (due, Event.sluiceFullReply (dieOfCore core) y) ∈ t.agenda)
    ∧ exec (.sluiceFullReply die y) s = .next (s.at_ (s.cycle + 1024) (.depstoreResend die y))
    ∧ (∀ core num, y.from_ = .dep core num y.token → crossesDown s die (holderDie y) = false →
        ∃ t due, exec (.depstoreResend die y) s = .next t ∧ t.slots = s.slots ∧ t.mem = s.mem ∧ s.cycle < due
          ∧ (due, Event.depstoreArrival (holderDie y) y) ∈ t.agenda)
    ∧ exec (.releaseArrival die token failed true clean sig) s = .next (s.at_ (s.cycle + 4096) (.holdRetry die token))
    ∧ (d.sluice = [] → ∃ t, exec (.releaseArrival die token failed false clean sig) s = .next t ∧ t.slots = s.slots
        ∧ t.mem = s.mem ∧ (depMark s die token.toNat = none → depMark t die token.toNat = some clean))
    ∧ (∀ e core num tk, d.sluice = [e] → e.store.token = token → e.store.from_ = .dep core num tk →
        ∃ t due, exec (.releaseArrival die token true false clean sig) s = .next t ∧ (t.die die).sluice = []
          ∧ t.mem = s.mem ∧ s.cycle < due ∧ (due, Event.remoteReply (.dep core num tk) (.status 0x60) 0) ∈ t.agenda)
    ∧ (∀ e core num tk, d.sluice.find? (·.n == n) = some e → e.store.from_ = .dep core num tk → e.expiry ≤ s.cycle →
        s.agenda.any (fun p => decide (p.1 ≤ s.cycle) && (match p.2 with | .releaseArrival d _ _ _ _ _ => d == die | _ => false))
          = false →
        ∃ t due, exec (.sluiceExpiry die n) s = .next t ∧ (t.die die).sluice = d.sluice.filter (·.n != e.n) ∧ t.slots = s.slots
          ∧ t.mem = s.mem ∧ s.cycle < due ∧ (due, Event.remoteReply (.dep core num tk) (.status 0x61) 0) ∈ t.agenda)
    ∧ (d.sluice.find? (·.n == n) = none → exec (.sluiceExpiry die n) s = .next s)

/-- Fabric reductions (R384 to R388, R420 to R422): an XRED whose words are malformed ends with 0x05, one whose record
stands in the own share sends its contribution to a slot of its die with its token pending; a contribution opens a
free slot of its generation, is recorded in an open one of its key, and the last of n has the result issued, after
which the slot is DONE for 2L cycles; one for a generation that is done is LATE and any other is refused; the deadline
issues what has come as PARTIAL; integer adds fold to the sum modulo the lane; and the result goes to the token, or
first to its record. What the rules leave open is filled by the model as log entries 52 and 53 say. -/
def Obligations.Reductions : Prop :=
  (∀ (s : State) (x : XredF), s.writable x.d →
    let slot := s.rx x.s1
    let key := s.rx (x.s1 + 1)
    let ea := (s.rx x.s2).toNat % 2 ^ 57
    let c := coreOf s.cur
    let num := s.me.ctxNum
    let ends (o : Out) (code : Nat) : Prop := o = .next ((s.modMe (fun sl => { sl.pend x.d with
      outstanding := sl.outstanding + 1 })).next1 (.completionWrite c num x.d.toNat (BitVec.ofNat 64 code) 0))
    let contributes (o : Out) (op : Nat) : Prop :=
      (badXred slot.toNat key.toNat ea = true → ends o 0x05)
      ∧ (badXred slot.toNat key.toNat ea = false → (Slot.split s s.me).getLsbD 4 = true → ends o 0x54)
      ∧ (∀ phys, badXred slot.toNat key.toNat ea = false → (Slot.split s s.me).getLsbD 4 = false →
          SpanOk s ea 16 phys → ea < 0x20000 → s.poison = [] → s.flipped = [] → bits slot.toNat 63 52 = s.moduleNo →
          bits slot.toNat 51 48 = dieOfCore c →
          let s0 := flushSttk (claimBanks s c (1#8 <<< (phys ea / 16 % 8))) c num
          ∃ t due y, o = .next t ∧ t.me = { s0.me.pend x.d with
                outstanding := s0.me.outstanding + 1, fenceRel := s0.me.fenceRel && !(decide (x.order = 3)) }
            ∧ t.mem = s0.mem ∧ s0.cycle < due ∧ (due, Event.reductionContributionArrival (dieOfCore c) y) ∈ t.agenda
            ∧ y.slot = bits slot.toNat 47 40 ∧ y.gen = bits slot.toNat 39 32 ∧ y.i = bits slot.toNat 5 0
            ∧ y.op = op ∧ y.ty = bits key.toNat 41 38 ∧ y.n = bits key.toNat 37 32 + 1 ∧ y.dl = bits key.toNat 27 0 + 1
            ∧ y.ord = decide (x.ord = 1) ∧ y.prop = decide (x.nan = 1) ∧ y.lt = (s0.core c).ltWorld.isSome
            ∧ y.module = s.moduleNo ∧ y.world = s0.me.world
            ∧ y.data = leVec ((List.range 16).map (fun i => cellGet (s0.core c).ls (phys (ea + i))))
            ∧ y.from_ = .xred c num x.d.toNat ea (decide (x.order = 3)))
    contributes (exec (.xredAdd x) s) 0 ∧ contributes (exec (.xredMin x) s) 1 ∧ contributes (exec (.xredMax x) s) 2)
  ∧ (∀ (s : State) (die : Nat) (c : Contribution) (core num reg record : Nat) (acq : Bool),
      let r := getRed s die c.slot
      let cyc := s.cycle
      let own := c.module = s.moduleNo ∧ polderGone s c.world = false ∧ c.from_ = .xred core num reg record acq
      let refused (code : Nat) : Prop := ∃ t due st, exec (.reductionContributionArrival die c) s = .next t
        ∧ getRed t die c.slot = r ∧ t.slots = s.slots ∧ t.mem = s.mem ∧ cyc < due
        ∧ (due, Event.reductionResultArrival core num reg record st 0 0 0) ∈ t.agenda ∧ st.toNat % 256 = code
      let issued (t : State) (r1 : RedSlot) : Prop := (getRed t die c.slot).state = .done ∧ (getRed t die c.slot).gen = r1.gen
        ∧ (cyc + 2 * 1048576, Event.reductionSlotFree die c.slot) ∈ t.agenda ∧ t.slots = s.slots
        ∧ ∃ due, cyc < due ∧ (due, Event.reductionResultArrival core num reg record r1.result.1 (BitVec.ofNat 64 r1.bitmap)
            r1.result.2.1 (if acq && c.rel then r1.result.2.2 else 0)) ∈ t.agenda
      (own → r.state = .free → c.gen = r.gen → c.i < c.n → 1 < c.n →
        ∃ t, exec (.reductionContributionArrival die c) s = .next t ∧ t.slots = s.slots ∧ t.mem = s.mem
          ∧ (getRed t die c.slot).state = .opened ∧ (getRed t die c.slot).gen = r.gen ∧ (getRed t die c.slot).world = c.world
          ∧ (getRed t die c.slot).op = c.op ∧ (getRed t die c.slot).ty = c.ty ∧ (getRed t die c.slot).n = c.n
          ∧ (getRed t die c.slot).deadline = s.cycle + c.dl ∧ (getRed t die c.slot).arrived = [c]
          ∧ (s.cycle + c.dl, Event.reductionDeadline die c.slot) ∈ t.agenda)
      ∧ (own → r.state = .opened → r.world = c.world → c.gen = r.gen → r.sameKey c = true → c.i < r.n →
          (∀ y ∈ r.arrived, y.i ≠ c.i) →
          (r.arrived.length + 1 ≠ r.n ∨ r.lost = true →
            exec (.reductionContributionArrival die c) s = .next (setRed s die c.slot { r with arrived := r.arrived ++ [c] }))
          ∧ (r.arrived = [] → r.n = 1 → r.lost = false →
            ∃ t, exec (.reductionContributionArrival die c) s = .next t ∧ issued t { r with arrived := [c] }))
      ∧ (own → r.state = .done → r.world = c.world → c.gen = r.gen → refused 0x51)
      ∧ (own → r.state = .free → r.gen = (c.gen + 1) % 256 → c.gen < 256 → refused 0x51)
      ∧ (own → r.state = .opened → r.world = c.world → c.gen ≠ r.gen → refused 0x53)
      ∧ (own → r.state ≠ .free → r.world ≠ c.world → refused 0x08)
      ∧ (r.state = .opened → r.deadline ≤ s.cycle → r.arrived = [c] → c.from_ = .xred core num reg record acq →
          ∃ t, exec (.reductionDeadline die c.slot) s = .next t ∧ issued t r)
      ∧ (r.state ≠ .opened ∨ s.cycle < r.deadline → exec (.reductionDeadline die c.slot) s = .next s)
      ∧ (r.state = .done → r.deadline ≤ s.cycle →
          exec (.reductionSlotFree die c.slot) s = .next (setRed s die c.slot { RedSlot.reset with gen := (r.gen + 1) % 256 })))
  ∧ (∀ r : RedSlot, r.result.1.toNat % 256 = (if r.arrived.length = r.n ∧ r.lost = false then 0 else 0x50))
  ∧ (∀ (ty : Nat) (prop : Bool) (vs : List Vec) (i : Nat), ty < 8 → i < 128 / typeWidth ty → vs ≠ [] →
      ((redFold 0 ty prop vs)[i]?).map (·.pat) = some ((vs.map (fun v => lane v i (typeWidth ty))).sum % 2 ^ typeWidth ty))
  ∧ (∀ (s : State) (core num reg record : Nat) (status bitmap : Word) (data : Vec) (sig : Sig),
      (status.toNat % 256 ≠ 0 → status.toNat % 256 ≠ 0x50 → exec (.reductionResultArrival core num reg record status bitmap data sig) s
          = .next (completeCtx s core num reg status 0))
      ∧ (∀ k, ctxSlot s core num = some k → status.toNat % 256 = 0 ∨ status.toNat % 256 = 0x50 → record < 0x20000 →
          record % 32 = 0 → lsFail (s.slot k).lsbase.toNat (s.slot k).lsbound.toNat record 32 = none →
          ∃ t due m, exec (.reductionResultArrival core num reg record status bitmap data sig) s = .next t ∧ t.slots = s.slots
            ∧ s.cycle < due ∧ (due, Event.serviceQueueArrival core m) ∈ t.agenda ∧ m.op = .store ∧ m.off = record
            ∧ m.data = toLe data.toNat 16 ∧ m.world = (s.slot k).world))

/-- Local time (R402 to R409, R426 to R431, R434, R435): a core of another world's mode traps; LTSET raises the clock and
never lowers it; TIDE publishes the clock; TIDE.bound raises the software bound, or reads the safe time; CHDCL and
TSEND name a channel to another core and trap on a freeboard out of range and on a stamp that is too early; TRECV
delivers the least event below the safe time or blocks; LTSTAT reads; and the packets of a channel, the floors, the
keyed atomics and the end of the mode act as the rules say. What the rules leave open is filled by the model as log
entries 32, 58, 59, 60 and 61 say. -/
def Obligations.LocalTime : Prop :=
  (∀ (s : State) (d a b c : Reg) (k sel : BitVec 3), s.writable d →
    let n := coreOf s.cur
    let co := s.core n
    let v := (s.rx a).toNat
    let dst := v % 2 ^ 34
    let src := dst / 8
    let soft := (s.polder s.me.world).split.getLsbD 6
    let live := ∀ i, i < 8 → (s.slot (n * 8 + i)).state ≠ .halted ∧ (s.slot (n * 8 + i)).state ≠ .stopped
      ∧ (s.slot (n * 8 + i)).state ≠ .lost
    let enters (t : State) : Prop := (t.core n).ltWorld = some s.me.world ∧ t.mem = s.mem ∧ ∀ j, j ≠ s.cur → t.slot j = s.slot j
    (ltHeld co s.me.world = true →
      exec (.ltset d a) s = trapOut s 5 0x11 0 ∧ exec (.tide d) s = trapOut s 5 0x11 0 ∧ exec (.tideBound d a) s = trapOut s 5 0x11 0
      ∧ exec (.chdcl k d a b) s = trapOut s 5 0x11 0 ∧ exec (.tsend d a b c) s = trapOut s 5 0x11 0)
    ∧ (ltHeld co s.me.world = false →
        (live → co.clock ≤ v → ∃ t, exec (.ltset d a) s = .next t ∧ enters t ∧ t.me = s.me.putX d 0 ∧ (t.core n).clock = v)
        ∧ (v < co.clock → ∃ t, exec (.ltset d a) s = .next t ∧ enters t ∧ t.me = s.me.putX d 1 ∧ (t.core n).clock = co.clock)
        ∧ (∃ t, exec (.tide d) s = .next t ∧ enters t ∧ t.me = s.me.putX d (BitVec.ofNat 64 co.clock) ∧ (t.core n).clock = co.clock
            ∧ (live → ∀ i : Fin 8, ∀ oc, co.outCh[i] = some oc → oc.core / 524288 = s.moduleNo →
                crossesDown s (dieOfCore n) (dieOfCore (oc.core % 524288)) = false →
                ∃ due, s.cycle < due ∧ (due, Event.tideArrival (oc.core % 524288) oc.k
                  (s.moduleNo * 4194304 + n * 8) co.clock) ∈ t.agenda))
        ∧ (soft = true → co.trecvq = [] → ∃ t, exec (.tideBound d a) s = .next t ∧ enters t
            ∧ t.me = s.me.putX d (BitVec.ofNat 64 (max co.bound v)) ∧ (t.core n).bound = max co.bound v)
        ∧ (soft = false → ∃ t, exec (.tideBound d a) s = .next t ∧ enters t ∧ t.me = s.me.putX d (BitVec.ofNat 64 (hardSafe co)))
        ∧ (dst / 64 % 4096 < 3200 → (s.rx b).toNat = 0 ∨ 2 ^ 20 < (s.rx b).toNat →
            exec (.chdcl k d a b) s = trapOut s 5 0x18 (zext k))
        ∧ (dst / 64 % 4096 < 3200 → 1 ≤ (s.rx b).toNat → (s.rx b).toNat ≤ 2 ^ 20 →
            (chanAt co.inCh k.toNat = none ∨ (co.clock = 0 ∧ co.events = [])) → src / 524288 = s.moduleNo →
            dieOfCore (src % 524288) = dieOfCore n →
            ∃ t due, exec (.chdcl k d a b) s = .next t ∧ enters t
              ∧ t.me = { s.me.pend d with outstanding := s.me.outstanding + 1 }
              ∧ chanAt (t.core n).inCh k.toNat = some
                { src := src * 8, f := (s.rx b).toNat, m := 0, declared := false, ctx := s.me.ctxNum, reg := d.toNat }
              ∧ s.cycle < due ∧ (due, Event.declareArrival (src % 524288) (s.moduleNo * 524288 + n) k.toNat (s.rx b).toNat s.me.world
                (.token n s.me.ctxNum d.toNat)) ∈ t.agenda)
        ∧ ((∀ i : Fin 8, ∀ oc, co.outCh[i] = some oc → ¬(oc.core = v / 8 % 2 ^ 31 ∧ oc.k = v / 2 ^ 34 % 8)) →
            exec (.tsend d a b c) s = trapOut s 5 0x19 (s.rx c))
        ∧ (∀ oc, chanAt co.outCh 0 = some oc → oc.core = v / 8 % 2 ^ 31 → oc.k = v / 2 ^ 34 % 8 →
            ((s.rx c).toNat < co.clock + oc.f → exec (.tsend d a b c) s = trapOut s 5 0x19 (s.rx c))
            ∧ (co.clock + oc.f ≤ (s.rx c).toNat → oc.core / 524288 = s.moduleNo → dieOfCore (oc.core % 524288) = dieOfCore n →
                ∃ t due e, exec (.tsend d a b c) s = .next t ∧ enters t
                  ∧ t.me = { s.me.pend d with outstanding := s.me.outstanding + 1, fenceRel := false }
                  ∧ chanAt (t.core n).outCh 0 = some { oc with seq := (oc.seq + 1) % 2 ^ 32 }
                  ∧ s.cycle < due ∧ (due, Event.eventArrival (oc.core % 524288) e) ∈ t.agenda ∧ e.stamp = (s.rx c).toNat
                  ∧ e.src = s.moduleNo * 4194304 + n * 8 ∧ e.ch = oc.k ∧ e.seq = (oc.seq + 1) % 2 ^ 32
                  ∧ e.p1 ++ e.p0 = s.rv b ∧ e.p2 = s.rx (c + 1) ∧ e.sig = s.me.acc ∧ e.from_ = .token n s.me.ctxNum d.toNat)))
    ∧ (co.ltWorld ≠ some s.me.world → exec (.trecv d) s = trapOut s 5 0x11 0)
    ∧ (∀ e rest, co.ltWorld = some s.me.world → co.events = e :: rest → e.stamp < safeTime s n → live →
        ctxSlot s n s.me.ctxNum = some s.cur →
        ∃ t, exec (.trecv d) s = .next t ∧ enters t ∧ t.me.getV d = e.p1 ++ e.p0
          ∧ t.me.getV (d + 1) = e.p2 ++ BitVec.ofNat 64 e.stamp ∧ (t.core n).events = rest
          ∧ (t.core n).lastEvent = some (e.ch, e.seq) ∧ (t.core n).clock = max co.clock e.stamp ∧ t.me.x = s.me.x)
    ∧ (co.ltWorld = some s.me.world → (∀ e rest, co.events = e :: rest → safeTime s n ≤ e.stamp) → live → s.unlogged s.cur →
        ∃ t, exec (.trecv d) s = .next t ∧ enters t ∧ t.me.state = .waitRecv ∧ t.me.wait = .trecv d.toNat
          ∧ (t.core n).trecvq = co.trecvq ++ [s.me.ctxNum] ∧ (t.core n).clock = max co.clock (safeTime s n) ∧ t.me.x = s.me.x)
    ∧ (co.ltWorld = none → exec (.ltstat sel d a) s = .next (s.modMe (·.putX d 0)))
    ∧ (∀ w, co.ltWorld = some w → w ≠ s.me.world → exec (.ltstat sel d a) s = trapOut s 5 0x11 0)
    ∧ (co.ltWorld = some s.me.world → exec (.ltstat 0 d a) s = .next (s.modMe (·.putX d (BitVec.ofNat 64 co.clock)))
        ∧ exec (.ltstat 1 d a) s = .next (s.modMe (·.putX d (BitVec.ofNat 64 (safeTime s n))))
        ∧ exec (.ltstat 6 d a) s = .next (s.modMe (·.putX d (BitVec.ofNat 64 co.events.length)))
        ∧ (∀ ch, chanAt co.inCh (v % 8) = some ch → ch.declared = true →
            exec (.ltstat 2 d a) s = .next (s.modMe (·.putX d (BitVec.ofNat 64 ch.m)))
            ∧ exec (.ltstat 4 d a) s = .next (s.modMe (·.putX d (BitVec.ofNat 64 ch.src))))))
  ∧ (∀ (s : State) (core n k f world src die num reg : Nat) (e : LtEvent),
      let co := s.core core
      let tok := ReplyTo.token core num reg
      let quiet (t : State) : Prop := t.slots = s.slots ∧ t.mem = s.mem
      (polderGone s world = false → ltHeld co world = false → (∀ i : Fin 8, ∀ oc, co.outCh[i] = some oc → oc.core ≠ n ∨ oc.k ≠ k) →
        ((∃ i : Fin 8, co.outCh[i] = none) → ∃ t due, exec (.declareArrival core n k f world (.token (n % 524288) num reg)) s = .next t ∧ quiet t
          ∧ (∃ i : Fin 8, (t.core core).outCh[i] = some { core := n, k := k, f := f, seq := 0, world := world })
          ∧ (t.core core).ltWorld = co.ltWorld ∧ s.cycle < due
          ∧ (due, Event.declareReply (n % 524288) k (.token (n % 524288) num reg) 0) ∈ t.agenda)
        ∧ ((∀ i : Fin 8, co.outCh[i] ≠ none) → ∃ t due, exec (.declareArrival core n k f world (.token (n % 524288) num reg)) s = .next t ∧ quiet t
          ∧ t.cores = s.cores ∧ s.cycle < due
          ∧ (due, Event.declareReply (n % 524288) k (.token (n % 524288) num reg) 0x70) ∈ t.agenda))
      ∧ (∀ ch, chanAt co.inCh k = some ch → ch.declared = false →
          exec (.declareReply core k tok 0) s = .next (completeCtx (s.modCore core (fun co => setIn co k
            (some { ch with declared := true, m := 0 }))) core ch.ctx ch.reg 0 0)
          ∧ exec (.declareReply core k tok 0x70) s = .next (completeCtx (s.modCore core (fun co => setIn co k none))
              core ch.ctx ch.reg 0x70 0))
      ∧ (holdsChannel co k src = true → co.trecvq = [] → ∃ t i, exec (.tideArrival core k src f) s = .next t ∧ quiet t
          ∧ chanAt co.inCh k = some i ∧ chanAt (t.core core).inCh k = some { i with m := f } ∧ (t.core core).clock = co.clock)
      ∧ (holdsChannel co k src = false → exec (.tideArrival core k src f) s
          = .next (s.modCore core (fun co => { co with msgDropped := co.msgDropped + 1 })))
      ∧ (holdsChannel co e.ch e.src = true → co.trecvq = [] → e.from_ = tok →
          ∃ t due, exec (.eventArrival core e) s = .next t ∧ quiet t ∧ (∃ l r, co.events = l ++ r ∧ (t.core core).events = l ++ e :: r
            ∧ (∀ x ∈ l, LtEvent.before e x = false) ∧ ∀ x, r.head? = some x → LtEvent.before e x = true)
            ∧ s.cycle < due ∧ (due, Event.completionWrite core num reg 0 0) ∈ t.agenda)
      ∧ (holdsChannel co e.ch e.src = false → e.from_ = tok →
          ∃ t due, exec (.eventArrival core e) s = .next t ∧ quiet t ∧ (t.core core).events = co.events
            ∧ (t.core core).msgDropped = co.msgDropped + 1 ∧ s.cycle < due ∧ (due, Event.completionWrite core num reg 0x72 0) ∈ t.agenda)
      ∧ (∃ t, exec (.floorExchange die) s = .next t ∧ quiet t ∧ t.cores = s.cores
          ∧ ∀ p ∈ s.cores, dieOfCore p.1 = die → p.2.ltWorld.isSome → ∀ d, d < 16 → d ≠ die → crossesDown s die d = false →
            ∃ due, s.cycle < due ∧ (due, Event.floorReportArrival d (s.moduleNo * 524288 + p.1) (floorBound p.2) (floorLaunch s p.1)) ∈ t.agenda)
      ∧ (∃ t, exec (.floorReportArrival die core f n) s = .next t ∧ quiet t
          ∧ (f ≠ 2 ^ 64 - 1 → { core := core, bound := f, launch := n } ∈ (t.die die).floors)
          ∧ (∀ x ∈ (t.die die).floors, x.core = core → x.launch / 1024 = n / 1024 → f ≠ 2 ^ 64 - 1 ∧ x.bound = f ∧ x.launch = n)
          ∧ (∀ x ∈ (s.die die).floors, x.core ≠ core → x ∈ (t.die die).floors))
      ∧ (applicable s die = none → exec (.keyedAtomicApply die) s = .next s)
      ∧ (∀ a, applicable s die = some a → a ∈ (s.die die).keyed
          ∧ (∀ b ∈ (s.die die).keyed, b.group s = a.group s → b.less a = false)
          ∧ (∀ x ∈ groupView s die (a.group s), a.t < x.1 ∨ (a.t = x.1 ∧ a.s ≤ x.2))
          ∧ (let s1 := s.modDie die (fun d => { d with keyed := d.keyed.erase a })
            let goes (s2 : State) : Prop := exec (.keyedAtomicApply die) s
              = .next (if (applicable s2 die).isSome then s2.at_ s2.cycle (.keyedAtomicApply die) else s2)
            (a.away = none → goes (accessAtHome (dropStamp s1 a.core a.req) a.core a.ctx { a.req with key := none }))
            ∧ ∀ w p, a.away = some (w, p) → goes (peerAtomic s1 die w p)))
      ∧ (∀ w, co.ltWorld = some w → hasTask s core w = true → exec (.localTimeModeExit core) s = .next s)
      ∧ (∀ w, co.ltWorld = some w → hasTask s core w = false → ∃ t, exec (.localTimeModeExit core) s = .next t ∧ quiet t
          ∧ (t.core core).ltWorld = none ∧ (t.core core).clock = 0 ∧ ∀ i : Fin 8, (t.core core).inCh[i] = none ∧ (t.core core).outCh[i] = none))

/-- Polder commands (R350 to R354): outside world 0 each traps with privilege, a world out of 1 to 20 completes with 0x05,
a command in another state of the polder with 0x40 and no other effect, and one that is done changes what R351 says:
form and seal the state, grant and reclaim the owners of the granules, share the range and the mailboxes of a core,
peer the table, the seal commands the keys, drain and free start and end the teardown. What the rules leave open is
filled by the model as log entries 81, 82, 83, 84 and 85 say. -/
def Obligations.PolderCommands : Prop :=
  ∀ (s : State) (d a b : Reg), s.writable d →
    let w := (s.rx a).toNat
    let x := (s.rx b).toNat
    let p := s.polder w
    let ends (i : Instr) (u : State) (code : Nat) : Prop := exec i s = .next
      ((((if code = 0 then hatPost u (dieOf s.cur) 0x0A 0 (endpoint s s.cur).toNat (s.rx a) (aBits i) else u).modMe
        (fun sl => { sl.pend d with outstanding := sl.outstanding + 1 })).later Config.latMesh
          (.completionWrite (coreOf s.cur) s.me.ctxNum d.toNat (BitVec.ofNat 64 code) 0)))
    let others (u : State) : Prop := (∀ v, v ≠ w → u.polder v = s.polder v) ∧ u.slots = s.slots
    let cmds := [Instr.wsetForm d a b, .wsetGrant d a b, .wsetReclaim d a b, .wsetShare d a b, .wsetPeer d a b, .wsetSeal d a b,
      .wsetDrain d a b, .wsetFree d a b, .wsealGenerate d a b, .wsealInstall d a b, .wsealDestroy d a b]
    let first := bits x 15 0
    let count := bits x 63 48
    let okList := bits x 47 16 = 0 ∧ count ≠ 0 ∧ first + count ≤ 65536
    (s.me.world ≠ 0 → ∀ i ∈ cmds, exec i s = trapOut s 3 0x02 (aBits i))
    ∧ (s.me.world = 0 → w = 0 ∨ 20 < w → ∀ i ∈ cmds, ends i s 0x05)
    ∧ (s.me.world = 0 → 1 ≤ w → w ≤ 20 →
      (x = 0 → p.state = .free → ∃ u, ends (.wsetForm d a b) u 0 ∧ others u ∧ (u.polder w).state = .forming
        ∧ (u.polder w).gen = (p.gen + 1) % 256 ∧ u.granules = s.granules ∧ u.mem = s.mem)
      ∧ (x = 0 → p.state ≠ .free → ends (.wsetForm d a b) s 0x40)
      ∧ (x ≠ 0 → ∀ i ∈ [Instr.wsetForm d a b, .wsetSeal d a b, .wsetDrain d a b, .wsetFree d a b, .wsealGenerate d a b,
          .wsealDestroy d a b], ends i s 0x05)
      ∧ (okList → p.state = .forming → (∀ g, first ≤ g → g < first + count → NMap.find s.granules g = none) →
          ∃ u, ends (.wsetGrant d a b) u 0 ∧ (u.polder w).state = .forming ∧ (∀ v, v ≠ w → u.polder v = s.polder v) ∧ u.slots = s.slots
            ∧ (∀ g, first ≤ g → g < first + count → NMap.find u.granules g = some w)
            ∧ (∀ g, g < first ∨ first + count ≤ g → NMap.find u.granules g = NMap.find s.granules g)
            ∧ (∀ pa, first ≤ pa / 33554432 → pa / 33554432 < first + count → cellGet u.mem pa = 0)
            ∧ ∀ pa, pa / 33554432 < first ∨ first + count ≤ pa / 33554432 → cellGet u.mem pa = cellGet s.mem pa)
      ∧ (okList → p.state = .forming ∨ p.state = .live → (∃ g, first ≤ g ∧ g < first + count ∧ NMap.find s.granules g ≠ none) →
          ends (.wsetGrant d a b) s 0x41)
      ∧ (¬ okList → ends (.wsetGrant d a b) s 0x05 ∧ ends (.wsetReclaim d a b) s 0x05)
      ∧ (okList → p.state = .forming ∨ p.state = .draining → (∀ g, first ≤ g → g < first + count → NMap.find s.granules g = some w) →
          ∃ u, ends (.wsetReclaim d a b) u 0 ∧ u.polders = s.polders ∧ u.slots = s.slots ∧ u.mem = s.mem
            ∧ ∀ g, NMap.find u.granules g = (if first ≤ g ∧ g < first + count then none else NMap.find s.granules g))
      ∧ (okList → p.state = .forming ∨ p.state = .draining → (∃ g, first ≤ g ∧ g < first + count ∧ NMap.find s.granules g ≠ some w) →
          ends (.wsetReclaim d a b) s 0x41)
      ∧ (let lo := 64 * bits x 47 38
         let hi := 64 * bits x 37 28
         let c := bits x 18 0
         bits x 27 19 = 0 → lo ≤ hi → hi ≤ 49152 → bits c 14 3 < 3200 → p.state = .forming →
          (shareTaken s w c lo hi = true → ends (.wsetShare d a b) s 0x42)
          ∧ (shareTaken s w c lo hi = false → ∃ u, ends (.wsetShare d a b) u 0 ∧ others u ∧ u.mem = s.mem
            ∧ (∀ k, k ≠ c → u.core k = s.core k)
            ∧ NMap.find (u.core c).shares w = (if lo < hi then some (lo, hi) else none)
            ∧ (∀ q, lo < hi → inShare lo hi q = true → cellGet (u.core c).ls q = 0)
            ∧ ∀ i : Fin 16, (((bits x 63 48).testBit i = true → (u.core c).mail[i].owner = some w)
              ∧ ((bits x 63 48).testBit i = false → (u.core c).mail[i].owner ≠ some w))))
      ∧ (x % 32 ≠ 0 → ends (.wsetPeer d a b) s 0x0F)
      ∧ (x % 32 = 0 → cmdRecord s x 1 = none → ends (.wsetPeer d a b) s 0x08)
      ∧ (∀ bs, x % 32 = 0 → cmdRecord s x 1 = some bs → badPeer (toWords bs 4) = false → p.state = .forming →
          ((peerOf (toWords bs 4)).count = 0 ∨ NMap.find s.granules (peerOf (toWords bs 4)).first = some w) →
          (p.peers.length < 64 → ∃ u, ends (.wsetPeer d a b) u 0 ∧ others u ∧ u.mem = s.mem
            ∧ (u.polder w).peers = p.peers ++ [peerOf (toWords bs 4)])
          ∧ (64 ≤ p.peers.length → ends (.wsetPeer d a b) s 0x45))
      ∧ (x = 0 → p.state = .forming → p.keys ≠ none → hasMemory s w = true → ∃ u, ends (.wsetSeal d a b) u 0 ∧ others u
          ∧ u.mem = s.mem ∧ (u.polder w).state = .live ∧ (u.polder w).keys = p.keys)
      ∧ (x = 0 → p.state = .forming → p.keys = none → ends (.wsetSeal d a b) s 0x43)
      ∧ (x = 0 → p.state = .forming → ∃ u k, ends (.wsealGenerate d a b) u 0 ∧ others u ∧ u.mem = s.mem ∧ (u.polder w).keys = some k)
      ∧ (x % 64 ≠ 0 → ends (.wsealInstall d a b) s 0x0F)
      ∧ (∀ bs, x % 64 = 0 → cmdRecord s x 3 = some bs → p.state = .forming →
          ∃ u, ends (.wsealInstall d a b) u 0 ∧ others u ∧ u.mem = s.mem ∧ (u.polder w).keys
            = some (keyOf (bs.take 32), keyOf ((bs.drop 32).take 32), keyOf ((bs.drop 64).take 32), false))
      ∧ (x = 0 → p.state = .draining ∨ p.state = .free → ∃ u, ends (.wsealDestroy d a b) u 0 ∧ others u ∧ u.mem = s.mem
          ∧ (u.polder w).keys = none)
      ∧ (x = 0 → p.state = .forming ∨ p.state = .live → ends (.wsealDestroy d a b) s 0x40)
      ∧ (x = 0 → p.state = .live ∨ p.state = .forming → ∃ u, ends (.wsetDrain d a b) u 0 ∧ (u.polder w).state = .draining
          ∧ (u.polder w).drain = s.cycle + 2 * 1048576 ∧ (s.cycle + 2 * 1048576, Event.drainTimerExpiry w) ∈ u.agenda
          ∧ (∀ q ∈ u.cores, q.2.ltWorld ≠ some w))
      ∧ (x = 0 → p.state = .draining → p.drain = 0 → ∃ u, ends (.wsetFree d a b) u 0 ∧ (u.polder w).state = .free
          ∧ (u.polder w).peers = [] ∧ (u.polder w).keys = none ∧ (u.polder w).gen = p.gen ∧ u.mem = s.mem ∧ u.slots = s.slots
          ∧ (∀ g, NMap.find u.granules g ≠ some w))
      ∧ (x = 0 → p.state = .draining → p.drain ≠ 0 → ends (.wsetFree d a b) s 0x44))

/-- The end of a drain and the registers of a virtual function (R353, R354, R364, R365): a drain timer that has run out
permits the free, and frees a polder that has migrated; a read of the fault register takes the oldest record; a write
sets a tail, resets the queues of its bits, or is ignored. What the rules leave open is filled by the model as log
entry 88 says. -/
def Obligations.FunctionRegisters : Prop :=
  ∀ (s : State) (w off : Nat) (v : Word),
    let p := s.polder w
    (p.state = .draining → p.drain ≤ s.cycle → p.mig ≠ .erased → ∃ t, exec (.drainTimerExpiry w) s = .next t
        ∧ t.polder w = { p with drain := 0 } ∧ (∀ j, j ≠ w → t.polder j = s.polder j) ∧ t.slots = s.slots ∧ t.mem = s.mem)
    ∧ (p.state = .draining → p.drain ≤ s.cycle → p.mig = .erased → ∃ t, exec (.drainTimerExpiry w) s = .next t
        ∧ (t.polder w).state = .free ∧ (t.polder w).keys = none ∧ t.slots = s.slots)
    ∧ (p.state ≠ .draining → exec (.drainTimerExpiry w) s = .next s)
    ∧ (p.faults = [] → exec (.vfFaultRead w) s = .next { s with readOut := 0 })
    ∧ (∀ r l, p.faults = r :: l → ∃ t, exec (.vfFaultRead w) s = .next t ∧ (t.polder w).faults = l ∧ t.slots = s.slots
        ∧ t.mem = s.mem ∧ ∀ j, j ≠ w → t.polder j = s.polder j)
    ∧ (off < 0x40 → off % 8 = 0 → exec (.vfRegisterWrite w off v) s = exec (.launchTailWrite w (off / 8) (v.toNat % 2 ^ 32)) s)
    ∧ (off = 0x40 ∨ off = 0x48 → v = 0 → exec (.vfRegisterWrite w off v) s = .next s)
    ∧ (v = 1 → exec (.vfRegisterWrite w 0x40 v) s = .next (softReset s w 0) ∧ exec (.vfRegisterWrite w 0x48 v) s = .next (hardReset s w 0))
    ∧ (0x48 < off ∨ (off < 0x48 ∧ off % 8 ≠ 0) → exec (.vfRegisterWrite w off v) s = .next s)

/-- What runs with the cycles, and the steward's choices (R52, R65, R74, R114, R116, R121 to R124, R167, R268, R307,
R347): a long-latency result is written when its time has come, and the bundle commits; the energy budget is full
again; the banks of the signatures age; a notice traps, the alarm first; a read of an absent register waits eight
cycles for each; the watchdog reports a wait once; the steward resumes, forwards, aborts or collects a halted slot; a
line goes to HBM sealed. What the rules leave open is filled by the model as log entries 13, 68, 76 and 80 say. -/
def Obligations.ContextTimers : Prop :=
  ∀ (s : State) (k core num line : Nat) (r : Nat) (w v : Word) (sl : Slot),
    sl = s.slot k →
    let c := coreOf k
    let others (t : State) : Prop := ∀ j, j ≠ k → t.slot j = s.slot j
    (s.cycle < sl.longUntil → exec (.longLatencyResult k) s = .next s)
    ∧ (sl.longUntil ≤ s.cycle → sl.wait = .long (some (r, w)) → exec (.longLatencyResult k) s
        = .next (finishBundle (s.modSlot k (·.putX (regOf r) w)) k))
    ∧ (sl.longUntil ≤ s.cycle → sl.wait = .long none ∨ sl.wait = .longHalt → exec (.longLatencyResult k) s = .next (finishBundle s k))
    ∧ (sl.longUntil ≤ s.cycle → sl.wait = .long (some (r, w)) → sl.state = .waitLong → sl.held = Held.none → sl.streamsRead = 0 →
        sl.stopPending = false → ∃ t, exec (.longLatencyResult k) s = .next t ∧ (t.slot k).state = .ready ∧ (t.slot k).pc = sl.npc
          ∧ (t.slot k).getX (regOf r) = (sl.putX (regOf r) w).getX (regOf r) ∧ (t.slot k).wait = .none ∧ others t)
    ∧ exec (.energyRefill core) s = .next (s.modCore core (fun co => { co with energy := 1024 }))
    ∧ (∃ t, exec .signatureBankAge s = .next t ∧ (t.slot k).accPrev = sl.accCur ∧ (NMap.find s.slots k ≠ none → (t.slot k).accCur = 0)
        ∧ (t.slot k).x = sl.x ∧ (t.slot k).state = sl.state ∧ t.mem = s.mem ∧ (t.core core).ls = (s.core core).ls)
    ∧ (NMap.find s.granules (traceBase (s.core core).trace / 33554432) = some 0 →
        ∃ t, exec (.traceHeaderRewrite core) s = .next t ∧ t.slots = s.slots ∧ t.cores = s.cores
          ∧ cellRead t.mem (traceBase (s.core core).trace) 8 = toLe (s.core core).traceNext 8
          ∧ ∀ a, a < traceBase (s.core core).trace ∨ traceBase (s.core core).trace + 128 ≤ a → cellGet t.mem a = cellGet s.mem a)
    ∧ (sl.state = .ready → sl.inh = false → sl.alarm = some v → exec (.noticeTaken k) s
        = .next (takeTrapAt (s.modSlot k (fun x => { x with alarm := none })) k 0x113 v))
    ∧ (sl.state = .ready → sl.inh = false → sl.alarm = none → sl.undelivered = some v → exec (.noticeTaken k) s
        = .next (takeTrapAt (s.modSlot k (fun x => { x with undelivered := none })) k 0x114 v))
    ∧ (sl.inh = true ∨ sl.state ≠ .ready ∨ (sl.alarm = none ∧ sl.undelivered = none) → exec (.noticeTaken k) s = .next s)
    ∧ (missing s k = [] → exec (.registerMissMicroTrap k) s = .next s)
    ∧ (missing s k ≠ [] → sl.state = .ready → ∃ t, exec (.registerMissMicroTrap k) s = .next t ∧ (t.slot k).state = .waitMem
        ∧ (t.slot k).wait = .regMiss (missing s k) ∧ (t.slot k).x = sl.x ∧ others t ∧ (t.core c).misses = (s.core c).misses + 1
        ∧ (hasEntry c sl.ctxNum (s.cluster (clusterOf k)).spilled = false →
          (s.cycle + 8 * (missing s k).length + 1, Event.registerFetchDone k) ∈ t.agenda))
    ∧ (∀ rs, s.poison = [] → sl.wait = .regMiss rs → sl.state = .waitMem → sl.stopPending = false → ∃ t, exec (.registerFetchDone k) s = .next t
        ∧ (t.slot k).state = .ready ∧ (t.slot k).pc = sl.pc ∧ (∀ i ∈ rs, i < 64 → (t.slot k).present.getLsbD i = true)
        ∧ (∀ i, sl.present.getLsbD i = true → (t.slot k).present.getLsbD i = true) ∧ others t)
    ∧ (watched sl.state = true → sl.wdogPosted = false → (s.polder sl.world).wdog.toNat ≤ s.cycle - sl.waitSince →
        copyHang s k = false → ∃ t, exec (.watchdogExpiry k) s = .next t ∧ t.slot k = { sl with wdogPosted := true } ∧ others t ∧ t.mem = s.mem
          ∧ HatRec.mk s.cycle 0x02 0 (endpoint s k).toNat sl.pc (BitVec.ofNat 64 sl.state.code) ∈ (t.die (dieOf k)).hatbox)
    ∧ (watched sl.state = false ∨ sl.wdogPosted = true ∨ s.cycle - sl.waitSince < (s.polder sl.world).wdog.toNat →
        exec (.watchdogExpiry k) s = .next s)
    ∧ exec (.sliceExpiry k) s = .next (s.at_ s.cycle (.preemption c sl.world))
    ∧ (sl.state = .halted → sl.stopPending = false → ∃ t, exec (.stewardResume k) s = .next t ∧ (t.slot k).state = .ready
        ∧ (t.slot k).pc = sl.epc ∧ (t.slot k).x = sl.x ∧ others t)
    ∧ (sl.state = .halted → sl.stopPending = false → sl.inh = false → sl.tvec ≠ 0 → ∃ t, exec (.stewardForwardTrap k) s = .next t
        ∧ (t.slot k).state = .ready ∧ (t.slot k).pc = sl.tvec ∧ (t.slot k).inh = true ∧ (t.slot k).cause = sl.cause
        ∧ (t.slot k).tval = sl.tval ∧ (t.slot k).epc = sl.pc ∧ (t.slot k).x = sl.x ∧ others t)
    ∧ (sl.state = .halted → exec (.stewardAbortTask k) s = .next (discardSlot s k))
    ∧ (sl.state ≠ .halted → exec (.stewardResume k) s = .next s ∧ exec (.stewardForwardTrap k) s = .next s
        ∧ exec (.stewardAbortTask k) s = .next s)
    ∧ (ctxSlot s core num = some k → sl.state = .halted → exec (.stewardCollect core num) s = .next (ltThaw (releaseSlot s k true) core))
    ∧ (ctxSlot s core num = some k → sl.state ≠ .halted → exec (.stewardCollect core num) s = .next s)
    ∧ (ctxSlot s core num = none → (∀ j ∈ generalSlots core, (s.slot j).state ≠ .lost) → exec (.stewardCollect core num) s = .next s)
    ∧ (ctxSlot s core num = none → k ∈ generalSlots core → sl.state = .lost → sl.ctxNum = num →
        (∀ j ∈ generalSlots core, j ≠ k → (s.slot j).ctxNum ≠ num) →
        ∃ t, exec (.stewardCollect core num) s = .next t ∧ t.slot k = Slot.reset)
    ∧ (NMap.find s.hbm line ≠ none → exec (.hbmWriteBack line) s = .next s)
    ∧ (∀ h, NMap.find s.hbm line = none → sealLine s line (cellRead s.mem (line * 64) 64) = some h → ∃ t, exec (.hbmWriteBack line) s = .next t
        ∧ NMap.find t.hbm line = some h ∧ (∀ j, j ≠ line → NMap.find t.hbm j = NMap.find s.hbm j) ∧ t.slots = s.slots ∧ t.cores = s.cores
        ∧ (∀ a, a < line * 64 ∨ line * 64 + 64 ≤ a → cellGet t.mem a = cellGet s.mem a))

/-- Contexts that come and go (R118 to R122, R288): a ready item of a higher priority saves the context of the chosen slot
within 24 cycles, the save hands the slot on, an install makes the slot READY with its own context, a save without a
free entry spills the least recently used one, or is LOST where the spill fails, and an urgent task takes an empty
slot 7. What the rules leave open is filled by the model as log entries 14, 67, 68, 69 and 105 say. -/
def Obligations.SaveAndInstall : Prop :=
  ∀ (s : State) (k core world num : Nat) (sl : Slot) (e : CtxEntry),
    sl = s.slot k →
    let c := coreOf k
    let cl := s.cluster (clusterOf k)
    let others (t : State) : Prop := ∀ j, j ≠ k → t.slot j = s.slot j
    (freePrios s core world = [] ∨ (emptyGeneral s core).isSome = true → exec (.preemption core world) s = .next s)
    ∧ (∀ p, freePrios s core world = [p] → emptyGeneral s core = none → (s.cluster (clusterOfCore core)).cache.length < 32 →
        (victim s core world p = none → exec (.preemption core world) s = .next s)
        ∧ (victim s core world p = some k → midway sl = true → exec (.preemption core world) s = .next (s.next1 (.preemption core world)))
        ∧ (victim s core world p = some k → midway sl = false → sl.state = .ready → sl.wait = .none → s.unlogged k →
            hasEntry c sl.ctxNum cl.cache = false →
            ∃ t due x, exec (.preemption core world) s = .next t ∧ (t.slot k).state = .swapped ∧ (t.slot k).ctxNum = sl.ctxNum
              ∧ (t.slot k).prio = p ∧ others t ∧ t.mem = s.mem ∧ s.cycle < due ∧ due ≤ s.cycle + 24
              ∧ (due, Event.contextSave k) ∈ t.agenda ∧ (t.cluster (clusterOf k)).cache = cl.cache ++ [x] ∧ x.core = c
              ∧ x.lost = false ∧ x.slot.saved = .ready ∧ x.slot.state = .swapped ∧ x.slot.x = sl.x ∧ x.slot.v = sl.v
              ∧ x.slot.pc = sl.pc ∧ x.slot.ctxNum = sl.ctxNum ∧ x.slot.pending = sl.pending))
    ∧ (sl.state ≠ .swapped ∨ sl.saved ≠ .swapped → exec (.contextSave k) s = .next s)
    ∧ (sl.outstanding ≠ 0 → exec (.contextSave k) s = .next s)
    ∧ (sl.state = .swapped → sl.saved = .swapped → sl.outstanding = 0 → s.cycle - sl.waitSince < (s.polder sl.world).wdog.toNat →
        (∀ x ∈ readySwapped s c sl.world, x.slot.prio ≠ sl.prio ∨ x.slot.ctxNum = sl.ctxNum) →
        (s.core c).deque.all (fun r => !(r.world == sl.world && r.prio == sl.prio)) = true →
        exec (.contextSave k) s = .next (s.setSlot k Slot.reset))
    ∧ (sl.state = .swapped → sl.saved = .swapped → sl.outstanding = 0 → s.cycle - sl.waitSince < (s.polder sl.world).wdog.toNat →
        readySwapped s c sl.world = [e] → e.slot.prio = sl.prio → e.slot.ctxNum ≠ sl.ctxNum →
        hasEntry e.core e.slot.ctxNum cl.cache = true →
        ∃ t, exec (.contextSave k) s = .next t ∧ (t.slot k).state = .swapped ∧ (t.slot k).saved = .ready
          ∧ (t.slot k).ctxNum = e.slot.ctxNum ∧ others t ∧ (s.cycle + 8, Event.contextInstall k) ∈ t.agenda)
    ∧ (sl.state ≠ .swapped ∨ sl.saved ≠ .ready → exec (.contextInstall k) s = .next s)
    ∧ (sl.state = .swapped → sl.saved = .ready → ctxEntry s c sl.ctxNum = some e → e.slot.stopPending = false →
        ∃ t, exec (.contextInstall k) s = .next t ∧ (t.slot k).state = .ready ∧ (t.slot k).x = e.slot.x ∧ (t.slot k).v = e.slot.v
          ∧ (t.slot k).pc = e.slot.pc ∧ (t.slot k).present = 1 ∧ (t.slot k).accCur = BitVec.allOnes 512 ∧ others t)
    ∧ (sl.state = .swapped → sl.saved = .ready → ctxEntry s c sl.ctxNum = none → sl.stopPending = false →
        ∃ t, exec (.contextInstall k) s = .next t ∧ (t.slot k).state = .ready ∧ (t.slot k).x = sl.x ∧ (t.slot k).pc = sl.pc ∧ others t)
    ∧ (spillingSlot s core = none → exec (.contextSpill core) s = .next s)
    ∧ (spillingSlot s core = some k → Config.spillFails s.free = false →
        spillVictim ((s.cluster core).cache.filter (fun x => !(x.core == c && x.slot.ctxNum == sl.ctxNum))) = some e →
        ∃ t due, exec (.contextSpill core) s = .next t ∧ (t.cluster core).cache = (s.cluster core).cache.erase e
          ∧ (t.cluster core).spilled = (s.cluster core).spilled ++ [e] ∧ e.lost = false
          ∧ (∀ x ∈ (s.cluster core).cache, x.lost = false → x.core ≠ c ∨ x.slot.ctxNum ≠ sl.ctxNum → e.lastUse ≤ x.lastUse)
          ∧ t.slot k = { sl with outstanding := 0 } ∧ others t ∧ t.mem = s.mem
          ∧ s.cycle < due ∧ due ≤ s.cycle + 24 ∧ (due, Event.contextSave k) ∈ t.agenda)
    ∧ (spillingSlot s core = some k → Config.spillFails s.free = true →
        ∃ t, exec (.contextSpill core) s = .next t ∧ (t.slot k).state = .lost ∧ others t ∧ t.mem = s.mem)
    ∧ (c = core → (s.cluster (clusterOf k)).spilled = [e] → e.core = core → e.slot.ctxNum = num → cl.cache.length < 32 → sl.state = .swapped →
        sl.saved = .ready → sl.ctxNum = num → (∀ j, j < k → k / 8 * 8 ≤ j → (s.slot j).state = .empty) →
        ∃ t, exec (.spillReadback core num) s = .next t ∧ (t.cluster (clusterOf k)).spilled = []
          ∧ (t.cluster (clusterOf k)).cache = cl.cache ++ [{ e with lastUse := s.cycle }] ∧ t.slots = s.slots
          ∧ (s.cycle + 8, Event.contextInstall k) ∈ t.agenda)
    ∧ (urgentReady s core = none → exec (.urgentInstall core) s = .next s)
    ∧ (∀ r j n, urgentReady s core = some (r, j) → shareFits (s.core (coreOf j)) r.world = true → freeNum (s.core (coreOf j)) = some n → ∃ t, exec (.urgentInstall core) s = .next t
        ∧ (t.slot j).state = .swapped ∧ (t.slot j).saved = .ready ∧ (t.slot j).ctxNum = n ∧ (t.slot j).pc = BitVec.ofNat 64 r.pc
        ∧ (t.slot j).prio = r.prio ∧ (s.cycle + 8, Event.contextInstall j) ∈ t.agenda ∧ ∀ i, i ≠ j → t.slot i = s.slot i)

/-- Debug stops (R125, R126, R311, R117): a stop takes a READY slot at once and another one when it would be READY; a
resume and a step go on from STOPPED, and a breakpoint stops a READY slot; a stopped slot's context is read and
written dword by dword: the general registers from dword 32 up, the vector registers from dword 64 up. What the rules
leave open is filled by the model as log entry 68 says. -/
def Obligations.DebugEvents : Prop :=
  ∀ (s : State) (k core num : Nat) (sl : Slot) (w : Word),
    sl = s.slot k →
    let others (t : State) : Prop := ∀ j, j ≠ k → t.slot j = s.slot j
    let stops (i : Instr) : Prop := ∃ t, exec i s = .next t ∧ (t.slot k).state = .stopped ∧ (t.slot k).x = sl.x
      ∧ (t.slot k).pc = sl.pc ∧ others t
    (ctxSlot s core num = some k → sl.state = .ready → stops (.debugStop core num))
    ∧ (ctxSlot s core num = some k → sl.state.waiting = true → exec (.debugStop core num) s
        = .next (s.modSlot k (fun x => { x with stopPending := true })))
    ∧ (sl.state = .ready → stops (.breakpointHit k))
    ∧ (sl.state ≠ .ready → exec (.breakpointHit k) s = .next s)
    ∧ (sl.state = .stopped → (∃ t, exec (.debugResume k) s = .next t ∧ (t.slot k).state = .ready ∧ (t.slot k).pc = sl.pc
          ∧ (t.slot k).x = sl.x ∧ (t.slot k).stepping = sl.stepping ∧ others t)
        ∧ (∃ t, exec (.debugStep k) s = .next t ∧ (t.slot k).state = .ready ∧ (t.slot k).pc = sl.pc ∧ (t.slot k).x = sl.x
          ∧ (t.slot k).stepping = true ∧ others t))
    ∧ (sl.state ≠ .stopped → exec (.debugResume k) s = .next s ∧ exec (.debugStep k) s = .next s
        ∧ ∀ off o, exec (.debugContextAccess k off o) s = .next s)
    ∧ (sl.state = .stopped →
        exec (.debugContextAccess k 0 none) s = .next { s with readOut := sl.pc }
        ∧ (∀ r : Reg, exec (.debugContextAccess k (8 * (32 + r.toNat)) none) s = .next { s with readOut := sl.getX r }
            ∧ exec (.debugContextAccess k (8 * (32 + r.toNat)) (some w)) s = .next (s.modSlot k (·.putX r w))
            ∧ exec (.debugContextAccess k (8 * (64 + 2 * r.toNat)) none) s
                = .next { s with readOut := (sl.getV r).extractLsb' 0 64 }
            ∧ exec (.debugContextAccess k (8 * (65 + 2 * r.toNat)) (some w)) s
                = .next (s.modSlot k (fun x => x.putV r (w ++ (x.getV r).extractLsb' 0 64))))
        ∧ exec (.debugContextAccess k 0 (some w)) s = .next (s.modSlot k (fun x =>
          { x with pc := w &&& 0x1FFFFFFFFFFFFF8, npc := w &&& 0x1FFFFFFFFFFFFF8 })))
    ∧ (∀ n : Fin 4, ∀ pc mask, exec (.breakpointSet core n pc mask) s = .next (s.modCore core (fun co => { co with
          breakpoints := co.breakpoints.set n (if mask = 0 then none else some (pc, mask)) })))

/-- The service queue (R157, R159 to R161, R165, R286, R382): an active message enters a queue with room and nothing
before it, or waits in the mesh; a handler takes the head, and the oldest message of the mesh moves up; one outside
its world's share is answered with cause 0x11 at its first failing byte; a load is answered with the bytes, a store
writes them, an atomic writes its result and answers the old value, a fill writes the word and sets it full, a
synchronising load empties a full word, a steal gives the top-most record of the world that the host has not placed;
slot 6 waits in WAIT_RECV while nothing is queued; and a parked request sends hold replies, each of which restarts the
timeout of its tag. What the rules leave open is filled by the model as log entry 65 says. -/
def Obligations.Service : Prop :=
  ∀ (s : State) (core c2 w2 num die idx gen n : Nat) (m : ActiveMsg) (rest : List ActiveMsg),
    let co := s.core core
    let lo := (shareOf co m.world).1
    let hi := (shareOf co m.world).2
    let ps := lsBytes m.off m.size
    let word := (ps.head?).getD 0 / 8
    let head := co.svc = m :: rest ∧ m.from_ = .ctx c2 num
    let handler (i : Instr) : Prop := (i = .serviceLoad core ∧ m.op = .load) ∨ (i = .serviceStore core ∧ m.op = .store)
      ∨ (i = .serviceAtomic core ∧ ∃ f, m.op = .atomic f) ∨ (i = .serviceFill core ∧ m.op = .fill) ∨ (i = .serviceSyncLoad core ∧ m.op = .sync)
    let slot6 := core * 8 + 6
    let idles (t : State) : Prop := (∀ j, j ≠ slot6 → t.slot j = s.slot j)
      ∧ (rest = [] → co.mesh = [] → (s.slot slot6).state = .ready → (t.slot slot6).state = .waitRecv)
      ∧ (rest ≠ [] ∨ co.mesh ≠ [] → t.slot slot6 = s.slot slot6)
    let served (i : Instr) (t : State) (r : Reply) : Prop := exec i s = .next t ∧ idles t ∧ t.mem = s.mem
      ∧ (t.core core).svc = rest ++ co.mesh.take 1 ∧ (t.core core).mesh = co.mesh.drop 1
      ∧ ∃ due sig, s.cycle < due ∧ (due, Event.remoteReply (.ctx c2 num) r sig) ∈ t.agenda
    let keeps (t : State) : Prop := (t.core core).ls = co.ls ∧ (t.core core).emptyWords = co.emptyWords
    (∃ t, exec (.serviceQueueArrival core m) s = .next t ∧ (∀ j, j ≠ slot6 → t.slot j = s.slot j)
      ∧ ((s.slot slot6).state = .waitRecv → (t.slot slot6).state = .ready)
      ∧ ((s.slot slot6).state ≠ .waitRecv → t.slot slot6 = s.slot slot6) ∧ (∀ j, j ≠ core → t.core j = s.core j)
      ∧ (t.core core).svc = (if co.svc.length < 16 ∧ co.mesh = [] then co.svc ++ [m] else co.svc)
      ∧ (t.core core).mesh = (if co.svc.length < 16 ∧ co.mesh = [] then [] else co.mesh ++ [m]))
    ∧ (head → ∀ a i, handler i → lsFail lo hi m.off m.size = some a → ∃ t, served i t (.fault 0x11 (a - m.off)) ∧ keeps t)
    ∧ (head → lsFail lo hi m.off m.size = none → s.poison = [] → m.sig = 0 → ps.Nodup → ps.length = m.size → 1 ≤ m.size →
        (m.op = .load → ∃ t, served (.serviceLoad core) t (.data (ps.map (cellGet co.ls))) ∧ keeps t)
        ∧ (m.op = .store → m.data.length = m.size → ∃ t, served (.serviceStore core) t .done
            ∧ (∀ i p : Nat, ps[i]? = some p → some (cellGet (t.core core).ls p) = m.data[i]?)
            ∧ (∀ p, p ∉ ps → cellGet (t.core core).ls p = cellGet co.ls p) ∧ (t.core core).emptyWords = co.emptyWords)
        ∧ (∀ f, m.op = .atomic f → ∃ t, served (.serviceAtomic core) t (.data (ps.map (cellGet co.ls)))
            ∧ (∀ i p : Nat, ps[i]? = some p → cellGet (t.core core).ls p = BitVec.ofNat 8 ((amoNew (f % 16) (decide (16 ≤ f)) m.size
                (leNat (ps.map (cellGet co.ls))) (leNat m.data) m.cmp.toNat).1 / 256 ^ i))
            ∧ (∀ p, p ∉ ps → cellGet (t.core core).ls p = cellGet co.ls p))
        ∧ (m.op = .fill → m.data.length = m.size → co.waiters = [] → co.parkedLds = [] →
            ∃ t, served (.serviceFill core) t .done
            ∧ word ∉ (t.core core).emptyWords
            ∧ (∀ i p : Nat, ps[i]? = some p → some (cellGet (t.core core).ls p) = m.data[i]?)
            ∧ (∀ p, p ∉ ps → cellGet (t.core core).ls p = cellGet co.ls p))
        ∧ (m.op = .sync → word ∉ co.emptyWords → ∃ t, served (.serviceSyncLoad core) t (.data (ps.map (cellGet co.ls)))
            ∧ (t.core core).ls = co.ls ∧ word ∈ (t.core core).emptyWords)
        ∧ (m.op = .sync → word ∈ co.emptyWords → co.waiters.length < 64 → ∃ t, exec (.serviceSyncLoad core) s = .next t ∧ keeps t
            ∧ (t.core core).waiters = co.waiters ++ [{ word := word, who := .ctx c2 num, world := m.world, off := m.off, size := m.size }]
            ∧ idles t))
    ∧ (co.svc = [] → exec (.serviceLoad core) s = .next s ∧ exec (.serviceStore core) s = .next s ∧ exec (.serviceAtomic core) s = .next s
        ∧ exec (.serviceFill core) s = .next s ∧ exec (.serviceSyncLoad core) s = .next s ∧ exec (.serviceSteal core) s = .next s)
    ∧ (co.svc = m :: rest → m.op = .steal → m.from_ = .thief c2 w2 → co.spilled = [] →
        (∀ l r l2, co.deque = l ++ r :: l2 → stealable s m.world r = true → (∀ x ∈ l2, stealable s m.world x = false) →
          ∃ t due, exec (.serviceSteal core) s = .next t ∧ (t.core core).deque = l ++ l2 ∧ s.cycle < due
            ∧ (due, Event.stealReplyArrival c2 ⟨w2, some r⟩) ∈ t.agenda ∧ (t.core core).svc = rest ++ co.mesh.take 1)
        ∧ ((∀ x ∈ co.deque, stealable s m.world x = false) → ∃ t due, exec (.serviceSteal core) s = .next t
            ∧ (t.core core).deque = co.deque ∧ s.cycle < due ∧ (due, Event.stealReplyArrival c2 ⟨w2, none⟩) ∈ t.agenda))
    ∧ (∀ who module due, (getTag s die idx).use = .live who module due → (getTag s die idx).gen = gen →
        ∃ t, exec (.holdReply die idx gen) s = .next t ∧ (getTag t die idx).use = .live who module (s.cycle + 3 * 1048576)
          ∧ (s.cycle + 3 * 1048576, Event.remoteTimeout die idx gen) ∈ t.agenda ∧ t.slots = s.slots ∧ t.mem = s.mem)
    ∧ ((getTag s die idx).gen ≠ gen → exec (.holdReply die idx gen) s = .next (lateReply s die idx gen))
    ∧ ((s.die die).parked.find? (·.n == n) = none → exec (.holdReplyResend die n) s = .next s)
    ∧ (∀ p, (s.die die).parked.find? (·.n == n) = some p → stillParked s die p = true → p.module = s.moduleNo →
        ∃ t due, exec (.holdReplyResend die n) s = .next t ∧ s.cycle < due ∧ (due, Event.holdReply p.die p.idx p.gen) ∈ t.agenda
          ∧ (s.cycle + 1048576, Event.holdReplyResend die n) ∈ t.agenda ∧ t.slots = s.slots)
    ∧ (∀ p, (s.die die).parked.find? (·.n == n) = some p → stillParked s die p = false → exec (.holdReplyResend die n) s
        = .next (s.modDie die (fun d => { d with parked := d.parked.filter (·.n != n) })))

/-- Launch queues and the dispatchers (R276 to R282, R287, R289, R294): a tail write publishes records, or counts as
ignored; the leader accepts the next record under a free handle, passes over one that has a state, and stops where its
read faults; the choice of a dispatcher makes a record RUNNING; each task is seeded into the deque of its core; a gang
unit is placed as a whole; a node's word chooses its link; the host pushes a task where the polder places its own; and
a load publishes its record. What the rules leave open is filled by the model as log entries 31, 66, 70, 71, 72, 73
and 110 say. -/
def Obligations.LaunchQueues : Prop :=
  ∀ (s : State) (world queue tail base size leader die h n logical core : Nat) (d0 d1 d2 d3 : Word) (l : Launch) (r : TaskRec) (p : Program),
    let qu := queueOf s world queue
    let addr := qu.base + 64 * (qu.read % qu.size)
    let pol := s.polder world
    let cl := leadCluster s world queue
    let s0 := devHeard s cl world addr 64
    (qu.configured = false → exec (.launchTailWrite world queue tail) s = .next (s.modPolder world (fun x => { x with ignored := x.ignored + 1 })))
    ∧ (qu.configured = true → ∃ t, exec (.launchTailWrite world queue tail) s = .next t
        ∧ queueOf t world queue = { qu with tail := tail, stopped := false } ∧ t.slots = s.slots ∧ t.mem = s.mem
        ∧ (∀ q, q ≠ queue → queueOf t world q = queueOf s world q) ∧ (s.cycle + 1, Event.launchRecordRead world queue) ∈ t.agenda)
    ∧ (queue < 8 → ∃ t, exec (.launchQueueConfigure world queue base size leader) s = .next t ∧ t.slots = s.slots ∧ t.mem = s.mem
        ∧ queueOf t world queue = { Queue.reset with configured := true, base := base, size := size, leader := leader }
        ∧ (∀ q, q ≠ queue → queueOf t world q = queueOf s world q))
    ∧ (qu.configured = false ∨ qu.size = 0 ∨ qu.soft = true ∨ pol.state ≠ .live ∨ pol.mig ≠ .none
          ∨ ((qu.links = [] ∨ freeHandle pol = none) ∧ (qu.read = qu.tail ∨ qu.stopped = true)) →
        exec (.launchRecordRead world queue) s = .next s)
    ∧ (∀ a node rest, qu.configured = true → qu.size ≠ 0 → qu.soft = false → pol.state = .live → pol.mig = .none →
        qu.links = (a, node) :: rest → freeHandle pol = some h → exec (.launchRecordRead world queue) s
          = .next ((makeEligible (modQueue s world queue (fun x => { x with links := rest })) world queue a node).next1 (.launchRecordRead world queue)))
    ∧ (qu.configured = true → qu.size ≠ 0 → qu.read ≠ qu.tail → qu.stopped = false → qu.soft = false → pol.state = .live → pol.mig = .none →
        qu.links = [] ∨ freeHandle pol = none →
        (walksBySteward s world = true → resolve s cl world addr = .missing → exec (.launchRecordRead world queue) s
          = .next (queueMiss s cl world addr (.queue world queue)))
        ∧ (∀ code, walksBySteward s world = false → readRecord s0 world queue addr = .fault code → ∃ t, exec (.launchRecordRead world queue) s = .next t
          ∧ queueOf t world queue = { qu with stopped := true } ∧ t.slots = s.slots ∧ t.mem = s.mem
          ∧ HatRec.mk s.cycle 0x09 code (dieEndpoint s qu.leader) (BitVec.ofNat 64 addr) (BitVec.ofNat 64 world) ∈ (t.die qu.leader).hatbox)
        ∧ (∀ ws, walksBySteward s world = false → readRecord s0 world queue addr = .launch l → recWords s0 world queue addr = .ok ws →
            bits (ws.getD 1 0).toNat 55 48 = 0 →
            (∀ x ∈ pol.launches, x.addr ≠ addr) → freeHandle pol = some h → l.waits = 0 → l.kind = 0 → l.prio < 40 →
            ∃ t x, exec (.launchRecordRead world queue) s = .next t ∧ (t.polder world).launches = pol.launches ++ [x]
              ∧ x.handle = h ∧ x.queue = queue ∧ x.addr = addr ∧ x.state = .waiting ∧ x.eligible = true ∧ x.count = l.count
              ∧ x.target = l.target ∧ x.prio = l.prio ∧ x.split = pol.split ∧ (∀ y ∈ pol.launches, y.handle ≠ h) ∧ h < 1023
              ∧ (queueOf t world queue).read = (qu.read + 1) % 2 ^ 32 ∧ t.slots = s.slots ∧ t.mem = s.mem
              ∧ (s.cycle + 1, Event.launchRecordRead world queue) ∈ t.agenda)
        ∧ (∀ ws, walksBySteward s world = false → readRecord s0 world queue addr = .launch l → recWords s0 world queue addr = .ok ws →
            bits (ws.getD 1 0).toNat 55 48 ≠ 0 →
            ∃ t, exec (.launchRecordRead world queue) s = .next t ∧ (t.polder world).launches = pol.launches
              ∧ (queueOf t world queue).read = (qu.read + 1) % 2 ^ 32 ∧ t.slots = s.slots ∧ t.mem = s.mem))
    ∧ (choice s die = none → exec (.dispatchChoice die) s = .next s)
    ∧ (choice s die = some (world, l) → launchOf s world l.handle = some l → l.kind = 0 → l.gangWaits = false →
        ∃ t, exec (.dispatchChoice die) s = .next t ∧ launchOf t world l.handle = some { l with state := .running, chosen := s.nextId }
          ∧ NMap.find (t.die die).lastServed l.prio = some (world, l.queue) ∧ t.slots = s.slots)
    ∧ (choice s die = some (world, l) → l.kind = 0 → l.gangWaits = true → exec (.dispatchChoice die) s = .next (s.at_ s.cycle (.gangPlacement world l.handle)))
    ∧ (seedTarget s die = none → exec (.taskSeeding die) s = .next s)
    ∧ (seedTarget s die = some (world, l) → exec (.taskSeeding die) s
        = .next (checkDone (seedSome s die world l.handle 8) world l.handle))
    ∧ (∀ i, launchOf s world h = some l → nextFor s die world l ((NMap.find l.seededAt die).getD 0) (l.count + 1) = some i →
        (s.core (seedCore s world l i)).deque.length < 64 → ∃ t, seedSome s die world h (n + 1) = seedSome t die world h n
          ∧ dieOfCore (seedCore s world l i) = die ∧ i < l.count
          ∧ (t.core (seedCore s world l i)).deque = taskOf s world l i :: (s.core (seedCore s world l i)).deque
          ∧ launchOf t world h = some { l with next := l.next + 1, live := l.live + 1, seededAt := NMap.set l.seededAt die (i + 1) }
          ∧ (∀ j, j ≠ seedCore s world l i → (t.core j).deque = (s.core j).deque) ∧ t.slots = s.slots ∧ t.mem = s.mem)
    ∧ (launchOf s world h = none → exec (.gangPlacement world h) s = .next s ∧ exec (.nodeEvaluation world h) s = .next s)
    ∧ (launchOf s world h = some l → l.state ≠ .waiting ∨ l.eligible = false ∨ l.gangWaits = false ∨ gangFits s world l = false →
        exec (.gangPlacement world h) s = .next s)
    ∧ (launchOf s world h = some l → l.state = .waiting → l.eligible = true → l.gangWaits = true → gangFits s world l = true →
        (∀ c ∈ rangeCores s world l.first l.last, shareFits (s.core c) world = true) →
        ∃ t, exec (.gangPlacement world h) s = .next t ∧ (∀ k, k ∉ emptySlots s world l.first l.last → t.slot k = s.slot k)
          ∧ ∃ x, launchOf t world h = some x ∧ x.gangPlaced = true ∧ x.state = .running ∧ x.live = l.live + (gangMembers l.count l.groups).length
            ∧ x.next = l.next + (gangMembers l.count l.groups).length)
    ∧ (launchOf s world h = some l → l.evaluates = false → exec (.nodeEvaluation world h) s = .next s)
    ∧ (∀ bs, launchOf s world h = some l → l.evaluates = true → devBytes s (leadCluster s world l.queue) world l.target 8 = .ok bs →
        let s0 := writeState (modLaunch (devHeard s (leadCluster s world l.queue) world l.target 8) world h (fun l => { l with state := .running }))
          world l.queue l.addr .running
        (l.kind = 1 → exec (.nodeEvaluation world h) s = .next (nodeChose s0 world l (if leNat bs = 0 then l.linkb else l.linka)))
        ∧ (l.kind = 2 → leNat bs = 0 → exec (.nodeEvaluation world h) s = .next (nodeChose s0 world l l.linkb))
        ∧ (l.kind = 2 → leNat bs ≠ 0 → (queueOf s world l.queue).soft = false → exec (.nodeEvaluation world h) s
            = .next (loopChose s0 world l))
        ∧ (l.kind = 2 → leNat bs ≠ 0 → (queueOf s world l.queue).soft = true → exec (.nodeEvaluation world h) s
            = .next (nodeChose s0 world l l.linka))
        ∧ (∀ ws, l.kind = 3 → devBytes s (leadCluster s world l.queue) world (l.linka + 8 * min (leNat bs) l.count) 8 = .ok ws →
            exec (.nodeEvaluation world h) s
              = .next (nodeChose (devHeard s0 (leadCluster s world l.queue) world (l.linka + 8 * min (leNat bs) l.count) 8) world l (leNat ws))))
    ∧ (pol.cores[logical]? = none → exec (.hostTaskPush world ⟨logical, d0, d1, d2, d3⟩) s = .next s)
    ∧ (pol.cores[logical]? = some core → (s.splitOf world (bits d3.toNat 63 54)).getLsbD 2 = false ∨ isOwnCore core = false ∨ pol.state ≠ .live →
        exec (.hostTaskPush world ⟨logical, d0, d1, d2, d3⟩) s = .next s)
    ∧ (pol.cores[logical]? = some core → (s.splitOf world (bits d3.toNat 63 54)).getLsbD 2 = true → isOwnCore core = true → pol.state = .live →
        (parseTask s world ⟨logical, d0, d1, d2, d3⟩ = none → exec (.hostTaskPush world ⟨logical, d0, d1, d2, d3⟩) s
          = .next (stewardNote s (s.moduleNo * 4194304 + core * 8) d0 0x08 (BitVec.ofNat 64 world)))
        ∧ (parseTask s world ⟨logical, d0, d1, d2, d3⟩ = some r → 40 ≤ r.prio → exec (.hostTaskPush world ⟨logical, d0, d1, d2, d3⟩) s
          = .next (placeUrgent (hostPlaced s r) r (urgentFrom s r) (dieOfCore core)))
        ∧ (parseTask s world ⟨logical, d0, d1, d2, d3⟩ = some r → r.prio < 40 → (s.core core).deque.length < 64 → launchOf s world r.launch = some l →
            ∃ t, exec (.hostTaskPush world ⟨logical, d0, d1, d2, d3⟩) s = .next t
              ∧ (t.core core).deque = { r with since := s.cycle } :: (s.core core).deque ∧ t.slots = s.slots ∧ t.mem = s.mem
              ∧ launchOf t world r.launch = some { l with next := l.next + 1, live := l.live + 1 }
              ∧ (s.cycle + 1, Event.preemption core world) ∈ t.agenda)
        ∧ (parseTask s world ⟨logical, d0, d1, d2, d3⟩ = some r → r.world = world ∧ r.logical = logical ∧ r.arg0 = d1 ∧ r.arg1 = d2
            ∧ r.prio = bits d0.toNat 59 54 ∧ r.prio ≤ 47 ∧ r.pc = bits d0.toNat 53 0 * 8 ∧ r.launch = bits d3.toNat 63 54
            ∧ r.done = bits d3.toNat 53 0 * 8))
    ∧ (let s2 := loadImages s p;
        ((s.polder p.world).state ≠ .live ∨ (queueOf s p.world p.queue).configured = false
            ∨ wellPlaced s2 p (numberCores (placeShares s p) p.world p.far).length = false → exec (.programLoad p) s = .next s)
        ∧ ((s.polder p.world).state = .live → (queueOf s p.world p.queue).configured = true →
            wellPlaced s2 p (numberCores (placeShares s p) p.world p.far).length = true →
            (p.shares.all (shareOk s p.world) = false → exec (.programLoad p) s = .next (loadRefused s p 0x08))
            ∧ (p.shares.all (shareOk s p.world) = true →
                (∀ code, loadParts s2 p = .error code → exec (.programLoad p) s = .next (loadRefused s2 p code))
                ∧ (∀ s1, loadParts s2 p = .ok s1 → p.queue < 8 → ∃ t, exec (.programLoad p) s = .next t
                    ∧ (queueOf t p.world p.queue).tail = ((queueOf (loadRecord s1 p) p.world p.queue).tail + 1) % 2 ^ 32
                    ∧ (t.cycle + 1, Event.launchRecordRead p.world p.queue) ∈ t.agenda))))

/-- Links, gateways and the requests of other modules (R343, R370 to R374, R377 to R383): bring-up and rekeying, null
frames, the acceptance of frames in sequence, a bad tag and its nak, resynchronisation and its third failure, the
forwarding and the delivery of packets, credit that does not come, the path table, a die-to-die link that is down, and
the access of another module, which a peer entry must admit. What the rules leave open is filled by the model as log
entries 29, 54, 55 and 57 say. -/
def Obligations.LinksAndPeers : Prop :=
  ∀ (s : State) (port die module index a b : Nat) (shared : List Word) (f : Frame) (p : Packet) (d0 d1 : Word),
    let l := s.link port
    let quiet (t : State) : Prop := t.slots = s.slots ∧ t.mem = s.mem ∧ t.cores = s.cores ∧ t.clusters = s.clusters
      ∧ ∀ j, j ≠ port → t.link j = s.link j
    (∃ t, exec (.linkBringUp port shared) s = .next t ∧ quiet t
      ∧ t.link port = { Link.reset with up := true, key := linkKeys shared, accepted := 256 })
    ∧ (l.up = false → exec (.linkRekey port shared) s = .next s ∧ exec (.nullFrameSend port) s = .next s
        ∧ exec (.linkFrameReceive port f) s = .next s ∧ exec (.linkResync port (some shared)) s = .next s)
    ∧ (l.up = true → l.queue = [] → ∃ t, exec (.linkRekey port shared) s = .next t ∧ quiet t ∧ (t.link port).up = true
        ∧ (t.link port).key = linkKeys shared ∧ (t.link port).counter = l.replay.length ∧ (t.link port).stopped = false
        ∧ (t.link port).replay.map (·.1) = l.replay.map (·.1) ∧ (t.link port).wire = l.wire ++ l.replay.map (fun e =>
          { seq := e.1, ack := l.expect, nak := false, null := false, ok := true, flit := e.2.2.2 }))
    ∧ (l.up = true → l.stopped = false → exec (.nullFrameSend port) s = .next (s.modLink port (fun x => { x with
        counter := x.counter + 1, wire := x.wire ++ [{ seq := x.seq, ack := x.expect, nak := false, null := true, ok := true, flit := [] }] })))
    ∧ (l.up = true → l.stopped = false → l.queue = [] →
        (f.ok = true → f.nak = false → f.null = true → ∃ t, exec (.linkFrameReceive port f) s = .next t ∧ quiet t
          ∧ t.link port = { l with replay := l.replay.filter (fun e => !seqBefore e.1 f.ack) })
        ∧ (f.ok = true → f.nak = false → f.null = false → f.seq = l.expect → l.rx = [] → headerFlits f.flit = 2 → ∃ t,
            exec (.linkFrameReceive port f) s = .next t ∧ quiet t ∧ (t.link port).expect = (l.expect + 1) % 512
            ∧ (t.link port).rx = [f.flit] ∧ (t.link port).fails = 0)
        ∧ (f.ok = true → f.nak = false → f.null = false → f.seq = l.expect → l.rx = [] → headerFlits f.flit = 1 →
            readPacket [f.flit] = some p → ∃ t, exec (.linkFrameReceive port f) s = .next t ∧ quiet t ∧ (t.link port).rx = []
            ∧ (s.cycle + 1, Event.packetForward port p) ∈ t.agenda)
        ∧ (f.ok = true → f.nak = false → f.null = false → f.seq ≠ l.expect → ∃ t, exec (.linkFrameReceive port f) s = .next t ∧ quiet t
            ∧ (t.link port).expect = l.expect ∧ (t.link port).rx = l.rx)
        ∧ (f.ok = false → f.seq ≠ l.expect → exec (.linkFrameReceive port f) s = .next s)
        ∧ (f.ok = false → f.seq = l.expect → l.fails < 2 → ∃ t, exec (.linkFrameReceive port f) s = .next t ∧ quiet t
            ∧ (t.link port).fails = l.fails + 1 ∧ (t.link port).wire = l.wire ++
              [{ seq := l.seq, ack := l.expect, nak := true, null := true, ok := true, flit := [] }])
        ∧ (f.ok = false → f.seq = l.expect → l.fails = 2 → l.accepted = 256 → ∃ t, exec (.linkFrameReceive port f) s = .next t ∧ quiet t
            ∧ (t.link port).stopped = true ∧ (t.link port).fails = 0))
    ∧ (l.up = true → l.stopped = true →
        (exec (.linkFrameReceive port f) s = .next s)
        ∧ (∃ t, exec (.linkResync port (some shared)) s = .next t ∧ quiet t ∧ (t.link port).key = linkKeys shared ∧ (t.link port).up = true
          ∧ (l.queue = [] → (t.link port).stopped = false ∧ (t.link port).counter = l.replay.length))
        ∧ (l.resyncFails < 2 → exec (.linkResync port none) s = .next (s.modLink port (fun x => { x with resyncFails := x.resyncFails + 1 })))
        ∧ (l.resyncFails = 2 → ∃ t, exec (.linkResync port none) s = .next t ∧ quiet t ∧ t.link port = { Link.reset with wire := l.wire }
            ∧ (t.die (port / 4)).dropped = (s.die (port / 4)).dropped + l.queue.length + (l.replay.filter (·.2.2.1)).length))
    ∧ (∀ h, malformedPacket p = true → packetHeader p = d0 :: h → exec (.packetForward port p) s = .next (dropMalformed s (port / 4) d0))
    ∧ (∀ out, malformedPacket p = false → p.hop < p.hops.length → p.hops[p.hop]? = some out →
        crossesDown s (port / 4) (out / 4) = false → exec (.packetForward port p) s = .next (toPort s out { p with hop := p.hop + 1 }))
    ∧ (malformedPacket p = false → p.hop = p.hops.length → p.dst / 4194304 ≠ s.moduleNo → exec (.packetForward port p) s
        = .next (dropPacket s (port / 4) p))
    ∧ (malformedPacket p = false → p.hop = p.hops.length → p.dst / 4194304 = s.moduleNo →
        crossesDown s (port / 4) (p.dst / 262144 % 16) = false → ∃ t due, exec (.packetForward port p) s = .next t ∧ quiet t
          ∧ t.links = s.links ∧ s.cycle < due ∧ (due, Event.remoteRequestArrival (p.dst / 262144 % 16) p) ∈ t.agenda)
    ∧ (∀ e, replyEvent die p = some e → exec (.remoteRequestArrival die p) s = .next (s.at_ s.cycle e))
    ∧ (∃ t, exec (.creditWaitDrop port) s = .next t ∧ quiet t
        ∧ (t.link port).queue = l.queue.filter (fun q => !decide (q.1 + 65536 ≤ s.cycle)) ∧ (t.link port).replay = l.replay
        ∧ (t.die (port / 4)).dropped = (s.die (port / 4)).dropped + (l.queue.filter (fun q => decide (q.1 + 65536 ≤ s.cycle))).length)
    ∧ (4096 ≤ module ∨ 4 ≤ index → exec (.pathTableWrite die module index d0 d1) s = .next s)
    ∧ (module < 4096 → index < 4 → (s.die die).pathChanges = [] →
        (unanswered s die module = false → ∃ t, exec (.pathTableWrite die module index d0 d1) s = .next t ∧ quiet t
          ∧ NMap.find (t.die die).paths (4 * module + index) = some (readPath d0 d1) ∧ (t.die die).pathChanges = []
          ∧ ∀ j, j ≠ 4 * module + index → NMap.find (t.die die).paths j = NMap.find (s.die die).paths j)
        ∧ (unanswered s die module = true → ∃ t, exec (.pathTableWrite die module index d0 d1) s = .next t ∧ quiet t
          ∧ (t.die die).paths = (s.die die).paths ∧ (t.die die).pathChanges = [(4 * module + index, readPath d0 d1)]))
    ∧ (unanswered s die module = true → exec (.pathChangeEffect die module) s = .next s)
    ∧ (∀ q, unanswered s die module = false → (s.die die).pathChanges = [(4 * module, q)] → ∃ t,
        exec (.pathChangeEffect die module) s = .next t ∧ quiet t ∧ NMap.find (t.die die).paths (4 * module) = some q
          ∧ (t.die die).pathChanges = [])
    ∧ (a < 16 → b < 16 → neighbours a b = true → (min a b, max a b) ∉ s.downLinks → ∃ t, exec (.dieLinkDown a b) s = .next t ∧ quiet t
        ∧ t.downLinks = s.downLinks ++ [(min a b, max a b)])
    ∧ (16 ≤ a ∨ neighbours a b = false → exec (.dieLinkDown a b) s = .next s)
    ∧ (let pa := bits p.op.toNat 47 0
       let n := codeSize (bits p.op.toNat 50 48)
       let who := packetWho die p
       let replies (t : State) (r : Reply) : Prop := exec (.remoteRequestArrival die p) s = .next t
         ∧ ∃ due sig, s.cycle < due ∧ (due, Event.remoteReply who r sig) ∈ t.agenda
       p.dst % 8 ≠ 6 →
        (∀ w, p.typ = 1 → peerHome s (p.src / 4194304) p.world .read pa = .ok w → bits p.op.toNat 55 51 = 0 → s.hbm = [] → s.poison = [] →
          ∃ t, replies t (.data (cellRead s.mem pa n)) ∧ quiet t)
        ∧ (∀ w, p.typ = 2 → peerHome s (p.src / 4194304) p.world .write pa = .ok w → bits p.op.toNat 55 51 = 0 → s.hbm = [] → s.poison = [] →
          ∃ t, replies t .done ∧ t.slots = s.slots
            ∧ (∀ x, x < pa ∨ pa + n ≤ x → cellGet t.mem x = cellGet s.mem x)
            ∧ ∀ i, i < (packetBytes p n).length → some (cellGet t.mem (pa + i)) = (packetBytes p n)[i]?)
        ∧ (p.typ = 1 → peerHome s (p.src / 4194304) p.world .read pa = .error 0x11 → ∃ t, replies t (.fault 0x11 0) ∧ quiet t)
        ∧ (p.typ = 2 → peerHome s (p.src / 4194304) p.world .write pa = .error 0x16 → ∃ t, replies t .gone ∧ quiet t))

/-- The steward (R355 to R364, R367): a reset keeps the fuses, and a warm one the hatboxes and the generations too; each
boot stage must verify, or the boot stops and is recorded; a fused minimum only rises; a function-level reset empties
the queues; the steward's errors are recorded and reported; its messages are answered; an alarm raises a notice in
every context of the polders on its dies, and a thermal trip asserts the pin. What the rules leave open is filled by
the model as log entries 86, 87, 91, 92 and 93 say. -/
def Obligations.StewardService : Prop :=
  ∀ (s : State) (stage version world addr typ fn die k q : Nat) (body : List Word) (sl : Slot),
    sl = s.slot k →
    let boots := s.steward.boots + 1
    let fits (n : Nat) : Prop := Config.imageVerifies n boots = true ∧ (NMap.find s.steward.fuses n).getD 0 ≤ Config.imageVersion n boots
    let reset (t : State) : Prop := t.slots = [] ∧ t.cores = [] ∧ t.clusters = [] ∧ t.mem = [] ∧ t.granules = [] ∧ t.cycle = 0
      ∧ t.agenda = [] ∧ t.moduleNo = s.moduleNo ∧ t.steward.fuses = s.steward.fuses
    let booted (t : State) : Prop := t.steward.booted = true ∧ t.steward.bootStage = 3 ∧ t.steward.measurements.length = 4
    let quiet (t : State) : Prop := t.slots = s.slots ∧ t.mem = s.mem ∧ t.cores = s.cores ∧ t.clusters = s.clusters
      ∧ t.polders = s.polders ∧ t.agenda = s.agenda ∧ t.cycle = s.cycle
    (∃ t, exec .coldReset s = .next t ∧ reset t ∧ t.polders = []
      ∧ (fits 1 → fits 2 → fits 3 → booted t ∧ t.dies = [])
      ∧ (¬ fits 1 → t.steward.booted = false ∧ t.steward.bootStage = 0 ∧ t.steward.reports = [1]
        ∧ (t.die 0).hatbox = [HatRec.mk 0 0x0C 0 (dieEndpoint s 0) 1 0]))
    ∧ (∃ t, exec .warmReset s = .next t ∧ exec .pfFunctionLevelReset s = .next t ∧ reset t
      ∧ (t.polder world).gen = (s.polder world).gen ∧ (t.polder world).state = .free ∧ (t.polder world).keys = none
      ∧ (fits 1 → fits 2 → fits 3 → booted t ∧ (t.die die).hatbox = (s.die die).hatbox))
    ∧ (∃ t, exec (.fuseMinimumRaise stage version) s = .next t ∧ quiet t
      ∧ NMap.find t.steward.fuses stage = some (max version ((NMap.find s.steward.fuses stage).getD 0))
      ∧ ∀ j, j ≠ stage → NMap.find t.steward.fuses j = NMap.find s.steward.fuses j)
    ∧ ((s.polder world).state = .live → (s.polder world).launches = [] → s.slots = [] → s.clusters = [] → s.cores = [] → s.dies = [] →
        q < 8 → ∃ t, exec (.vfFunctionLevelReset world) s = .next t ∧ (queueOf t world q).read = 0 ∧ (queueOf t world q).tail = 0
          ∧ (queueOf t world q).configured = (queueOf s world q).configured ∧ (t.polder world).state = .live
          ∧ (t.polder world).keys = (s.polder world).keys ∧ t.mem = s.mem)
    ∧ (∃ t, exec (.stewardSramError addr) s = .next t ∧ quiet t ∧ t.steward.reports = s.steward.reports ++ [BitVec.ofNat 64 addr]
      ∧ (t.die 0).hatbox.getLast? = some (HatRec.mk s.cycle 0x05 0 (dieEndpoint s 0) (BitVec.ofNat 64 addr) 0))
    ∧ (∃ t, exec .stewardWatchdogExpiry s = .next t ∧ quiet t
      ∧ (t.die 0).hatbox.getLast? = some (HatRec.mk s.cycle 0x02 0 (dieEndpoint s 0) 0 0))
    ∧ (∃ t, exec (.mctpControlMessage typ body) s = .next t ∧ quiet t
        ∧ (typ ≠ 0 → t.steward.reports = s.steward.reports ++ [BitVec.ofNat 64 (0xFF00 + typ % 256)]))
    ∧ (∃ t, exec (.pldmMessage body) s = .next t ∧ quiet t ∧ t.steward = s.steward)
    ∧ (20 < fn → exec (.spdmRequest fn body) s = .next s)
    ∧ (fn ≤ 20 → bits ((body.head?).getD 0).toNat 15 8 = 0xE0 → exec (.spdmRequest fn body) s
        = .next { s with readOut := measurement s fn (bits ((body.head?).getD 0).toNat 31 24) })
    ∧ (1 ≤ fn → fn ≤ 20 → bits ((body.head?).getD 0).toNat 15 8 = 0xE4 → ∃ t, exec (.spdmRequest fn body) s = .next t
        ∧ (t.polder fn).sessions = (s.polder fn).sessions + 1 ∧ t.slots = s.slots ∧ t.mem = s.mem)
    ∧ (1 ≤ fn → fn ≤ 20 → bits ((body.head?).getD 0).toNat 15 8 = 0xEC → ∃ t, exec (.spdmRequest fn body) s = .next t
        ∧ (t.polder fn).sessions = (s.polder fn).sessions - 1 ∧ t.slots = s.slots ∧ t.mem = s.mem)
    ∧ (let raised (t : State) (on : Prop) (kind : Word) : Prop := t.mem = s.mem ∧ t.cores = s.cores ∧ t.polders = s.polders
          ∧ (on → sl.state ≠ .empty → t.slot k = { sl with alarm := some kind })
          ∧ (¬ on ∨ sl.state = .empty → t.slot k = sl) ∧ t.steward.reports = s.steward.reports ++ [kind]
       let onAny := ∃ d, d < 16 ∧ sl.world ∈ poldersOn s d
       (∃ t, exec (.thermalWarning die) s = .next t ∧ raised t (sl.world ∈ poldersOn s die) 1
          ∧ (t.die die).hatbox.getLast? = some (HatRec.mk s.cycle 0x07 0 (dieEndpoint s die) 0 1))
       ∧ (∃ t, exec .supplyDroopWarning s = .next t ∧ raised t onAny 2)
       ∧ (∃ t, exec .coolantFlowWarning s = .next t ∧ raised t onAny 3))
    ∧ (∃ t, exec (.thermalTrip die) s = .next t ∧ quiet t ∧ t.steward.tripPin = true ∧ t.steward.reports = s.steward.reports ++ [4]
      ∧ (t.die die).hatbox.getLast? = some (HatRec.mk s.cycle 0x07 0 (dieEndpoint s die) 0 4))

/-- The migration of a polder (R365, R366): PREPARE at the source and at the destination, TRANSFER with its keys and
lines, the destination's receipt and its recovery window, ERASE on a valid receipt, COMMIT and ABORT under the
orchestrator's signature, which else is refused and counted, and the end of a window, which holds the polder for a
further one. What the rules leave open is filled by the model as log entries 9, 89 and 90 say. -/
def Obligations.Migration : Prop :=
  ∀ (s : State) (w : Nat) (m : MigMsg),
    let p := s.polder w
    let others (t : State) : Prop := (∀ j, j ≠ w → t.polder j = s.polder j) ∧ t.slots = s.slots
    let signed := m.key = p.orchestrator ∧ validSig m = true
    let due := s.cycle + p.windowSecs * 700000000
    (p.state = .live → p.mig = .none → p.launches = [] → s.slots = [] → s.clusters = [] → s.cores = [] → s.dies = [] →
        ∃ t, exec (.migrationPrepare w true) s = .next t ∧ others t ∧ (t.polder w).state = .live ∧ (t.polder w).mig = .prepared
          ∧ (t.polder w).keys = p.keys ∧ t.mem = s.mem)
    ∧ (p.state ≠ .live → exec (.migrationPrepare w true) s = .next s)
    ∧ (p.state = .free → ∃ t, exec (.migrationPrepare w false) s = .next t ∧ others t ∧ (t.polder w).state = .forming
        ∧ (t.polder w).mig = .prepared ∧ (t.polder w).gen = (p.gen + 1) % 256 ∧ t.mem = s.mem)
    ∧ (p.state ≠ .free → exec (.migrationPrepare w false) s = .next s)
    ∧ (p.mig ≠ .prepared → exec (.migrationTransfer w m) s = .next s)
    ∧ (p.mig = .prepared → p.state = .live → ∃ t, exec (.migrationTransfer w m) s = .next t ∧ others t ∧ t.mem = s.mem
        ∧ t.polder w = { p with mig := .transferring })
    ∧ (p.mig = .prepared → p.state = .forming → m.body = [] → ∃ t a b c, exec (.migrationTransfer w m) s = .next t ∧ others t
        ∧ t.mem = s.mem ∧ t.polder w = { p with mig := .transferring, keys := some (a, b, c, false) })
    ∧ (p.state = .forming → p.mig = .transferring → ∃ t, exec (.migrationReceipt w) s = .next t ∧ others t ∧ t.mem = s.mem
        ∧ t.polder w = { p with mig := .staged } ∧ (due, Event.recoveryWindowExpiry w) ∈ t.agenda)
    ∧ (p.state ≠ .forming ∨ p.mig ≠ .transferring → exec (.migrationReceipt w) s = .next s)
    ∧ (m.world = w → p.state = .live → p.mig = .transferring → validSig m = true → ∃ t, exec (.migrationErase m) s = .next t
        ∧ (t.polder w).state = .draining ∧ (t.polder w).keys = none ∧ (t.polder w).mig = .erased
        ∧ (∀ g, NMap.find t.granules g ≠ some w) ∧ (s.cycle + 2 * 1048576, Event.drainTimerExpiry w) ∈ t.agenda)
    ∧ (m.world = w → p.state ≠ .live ∨ p.mig ≠ .transferring ∨ validSig m = false → exec (.migrationErase m) s = .next s)
    ∧ (m.world = w → ¬ signed →
        exec (.migrationCommit m) s = .next (s.modPolder w (fun x => { x with refusedSigs := x.refusedSigs + 1 }))
        ∧ ∀ b, exec (.migrationAbort m b) s = .next (s.modPolder w (fun x => { x with refusedSigs := x.refusedSigs + 1 })))
    ∧ (m.world = w → signed → p.state = .forming → (p.mig = .staged ∨ p.mig = .orphaned) →
        (∃ t, exec (.migrationCommit m) s = .next t ∧ others t ∧ t.mem = s.mem ∧ t.polder w = { p with state := .live, mig := .none }
          ∧ (∀ q, q < 8 → (s.cycle + 1, Event.launchRecordRead w q) ∈ t.agenda)
          ∧ ∀ x ∈ t.agenda, x.2 ≠ .recoveryWindowExpiry w)
        ∧ (∃ t, exec (.migrationAbort m false) s = .next t ∧ (t.polder w).state = .draining ∧ (t.polder w).keys = none
          ∧ (t.polder w).mig = .none))
    ∧ (m.world = w → signed → p.state ≠ .forming → ∃ t, exec (.migrationCommit m) s = .next t ∧ t.polders = s.polders ∧ t.slots = s.slots
        ∧ t.mem = s.mem ∧ t.steward.reports = s.steward.reports ++ [BitVec.ofNat 64 (w + 256 * 0xFF)])
    ∧ (m.world = w → signed → p.state = .live → p.mig ≠ .none → ∃ t, exec (.migrationAbort m true) s = .next t ∧ others t ∧ t.mem = s.mem
        ∧ t.polder w = { p with mig := .none } ∧ ∀ q, q < 8 → (s.cycle + 1, Event.launchRecordRead w q) ∈ t.agenda)
    ∧ (p.state = .forming → p.mig = .staged ∨ p.mig = .orphaned → ∃ t, exec (.recoveryWindowExpiry w) s = .next t ∧ others t ∧ t.mem = s.mem
        ∧ t.polder w = { p with mig := .orphaned } ∧ (due, Event.recoveryWindowExpiry w) ∈ t.agenda)
    ∧ (p.state ≠ .forming → exec (.recoveryWindowExpiry w) s = .next s)
end

