-- ==== Sys2Proof/Laws/Tables.lean ====
section
/-! SUPPORT. Laws of the sparse tables and of memory cells: a read after a write, and the canonical
form of memory. -/

namespace Sys2Proof.Machine

/-! ## Tables: a key reads what was written last -/

theorem NMap.find_ins_same {α : Type} (m : NMap α) (k : Nat) (v : α) (h : NMap.find m k = none) :
    NMap.find (NMap.ins m k v) k = some v := by
  induction m with
  | nil => simp [ins, find]
  | cons p m ih =>
    obtain ⟨a, w⟩ := p
    rw [find] at h
    split at h
    · cases h
    · rename_i ne
      rw [ins]; split
      · simp [find]
      · simp [find, ne, ih h]

theorem NMap.find_ins_other {α : Type} (m : NMap α) (k j : Nat) (v : α) (h : j ≠ k) :
    NMap.find (NMap.ins m k v) j = NMap.find m j := by
  induction m with
  | nil => simp [ins, find, Ne.symm h]
  | cons p m ih =>
    obtain ⟨a, w⟩ := p
    rw [ins]; split
    · simp [find, Ne.symm h]
    · simp [find, ih]

@[simp] theorem NMap.find_erase_same {α : Type} (m : NMap α) (k : Nat) : NMap.find (NMap.erase m k) k = none := by
  induction m with
  | nil => rfl
  | cons p m ih =>
    obtain ⟨a, w⟩ := p
    rw [erase]; split
    · exact ih
    · rename_i ne; simp [find, ne, ih]

theorem NMap.find_erase_other {α : Type} (m : NMap α) (k j : Nat) (h : j ≠ k) :
    NMap.find (NMap.erase m k) j = NMap.find m j := by
  induction m with
  | nil => rfl
  | cons p m ih =>
    obtain ⟨a, w⟩ := p
    rw [erase]; split
    · rename_i e; subst e; simp [find, Ne.symm h, ih]
    · simp [find, ih]

@[simp] theorem NMap.find_set_same {α : Type} (m : NMap α) (k : Nat) (v : α) : NMap.find (NMap.set m k v) k = some v :=
  find_ins_same _ k v (find_erase_same m k)

theorem NMap.find_set_other {α : Type} (m : NMap α) (k j : Nat) (v : α) (h : j ≠ k) :
    NMap.find (NMap.set m k v) j = NMap.find m j :=
  (find_ins_other _ k j v h).trans (find_erase_other m k j h)

theorem NMap.erase_none {α : Type} (m : NMap α) (k : Nat) (h : NMap.find m k = none) : NMap.erase m k = m := by
  induction m with
  | nil => rfl
  | cons p m ih =>
    obtain ⟨a, w⟩ := p
    rw [find] at h
    split at h
    · cases h
    · rename_i ne; simp [erase, ne, ih h]

@[simp] theorem NMap.erase_erase {α : Type} (m : NMap α) (k : Nat) : NMap.erase (NMap.erase m k) k = NMap.erase m k :=
  erase_none _ k (find_erase_same m k)

theorem NMap.erase_ins {α : Type} (m : NMap α) (k : Nat) (v : α) : NMap.erase (NMap.ins m k v) k = NMap.erase m k := by
  induction m with
  | nil => simp [ins, erase]
  | cons p m ih =>
    obtain ⟨a, w⟩ := p
    rw [ins]; split
    · simp [erase]
    · rw [erase, erase]; split
      · exact ih
      · rw [ih]

@[simp] theorem NMap.set_set {α : Type} (m : NMap α) (k : Nat) (v w : α) :
    NMap.set (NMap.set m k v) k w = NMap.set m k w := by
  simp [NMap.set, NMap.erase_ins]

/-! ## Memory cells -/

@[simp] theorem cellGet_cellSet_same (m : List Host.Cell) (a : Nat) (b : Byte) : cellGet (cellSet m a b) a = b := by
  unfold cellSet cellGet; split <;> simp [*]

theorem cellGet_cellSet_other (m : List Host.Cell) (a j : Nat) (b : Byte) (h : j ≠ a) :
    cellGet (cellSet m a b) j = cellGet m j := by
  unfold cellSet cellGet; split <;> simp [NMap.find_erase_other, NMap.find_set_other, h]

theorem cellGet_cellWrite_outside (bs : List Byte) (m : List Host.Cell) (a j : Nat)
    (h : j < a ∨ a + bs.length ≤ j) : cellGet (cellWrite m a bs) j = cellGet m j := by
  induction bs generalizing m a with
  | nil => rfl
  | cons b bs ih =>
    simp only [List.length_cons] at h
    rw [cellWrite, ih _ _ (by omega), cellGet_cellSet_other _ _ _ _ (by omega)]

theorem cellGet_cellWrite_inside (bs : List Byte) (m : List Host.Cell) (a i : Nat) (h : i < bs.length) :
    cellGet (cellWrite m a bs) (a + i) = bs[i] := by
  induction bs generalizing m a i with
  | nil => simp at h
  | cons b bs ih =>
    rw [cellWrite]
    cases i with
    | zero => rw [cellGet_cellWrite_outside _ _ _ _ (by omega)]; simp
    | succ i =>
      have := ih (cellSet m a b) (a + 1) i (by simpa using h)
      simpa [Nat.add_assoc, Nat.add_comm 1 i] using this

@[simp] theorem length_cellRead (m : List Host.Cell) (a n : Nat) : (cellRead m a n).length = n := by
  induction n generalizing a with
  | zero => rfl
  | succ n ih => simp [cellRead, ih]

theorem cellRead_cellWrite_outside (bs : List Byte) (m : List Host.Cell) (a j n : Nat)
    (h : j + n ≤ a ∨ a + bs.length ≤ j) : cellRead (cellWrite m a bs) j n = cellRead m j n := by
  induction n generalizing j with
  | zero => rfl
  | succ n ih => rw [cellRead, cellRead, cellGet_cellWrite_outside _ _ _ _ (by omega), ih _ (by omega)]

theorem cellRead_cellWrite_same (bs : List Byte) (m : List Host.Cell) (a : Nat) :
    cellRead (cellWrite m a bs) a bs.length = bs := by
  induction bs generalizing m a with
  | nil => rfl
  | cons b bs ih =>
    rw [List.length_cons, cellRead, cellWrite, ih, cellGet_cellWrite_outside _ _ _ _ (by omega)]; simp

theorem cellGet_lsPut_outside (ps : List (Nat × Byte)) (m : List Host.Cell) (j : Nat)
    (h : ∀ p ∈ ps, p.1 ≠ j) : cellGet (lsPut m ps) j = cellGet m j := by
  induction ps generalizing m with
  | nil => rfl
  | cons p ps ih =>
    obtain ⟨a, b⟩ := p
    rw [lsPut, ih _ (fun q hq => h q (.tail _ hq)), cellGet_cellSet_other _ _ _ _ (Ne.symm (h (a, b) (.head _)))]

/-! ## The canonical form -/

theorem cellsFrom_mono (m : List Host.Cell) (lo : Option Nat) (l : Nat) (h : cellsFrom (some l) m = true)
    (hl : ∀ k, lo = some k → k ≤ l) : cellsFrom lo m = true := by
  cases m with
  | nil => rfl
  | cons p m =>
    obtain ⟨a, b⟩ := p
    simp only [cellsFrom, Bool.and_eq_true, decide_eq_true_eq] at h ⊢
    refine ⟨⟨?_, h.1.2⟩, h.2⟩
    cases lo with
    | none => rfl
    | some k => exact decide_eq_true (Nat.lt_of_le_of_lt (hl k rfl) h.1.1)

theorem cellsFrom_erase (m : List Host.Cell) (lo : Option Nat) (k : Nat) (h : cellsFrom lo m = true) :
    cellsFrom lo (NMap.erase m k) = true := by
  induction m generalizing lo with
  | nil => rfl
  | cons p m ih =>
    obtain ⟨a, b⟩ := p
    simp only [cellsFrom, Bool.and_eq_true] at h
    rw [NMap.erase]; split
    · refine ih _ (cellsFrom_mono m lo a h.2 ?_)
      intro l e; subst e; exact Nat.le_of_lt (by simpa using h.1.1)
    · simp only [cellsFrom, Bool.and_eq_true]; exact ⟨h.1, ih _ h.2⟩

theorem cellsFrom_ins (m : List Host.Cell) (lo : Option Nat) (k : Nat) (b : Byte) (h : cellsFrom lo m = true)
    (hk : NMap.find m k = none) (hlo : ∀ l, lo = some l → l < k) (hb : b ≠ 0) :
    cellsFrom lo (NMap.ins m k b) = true := by
  induction m generalizing lo with
  | nil => cases lo <;> simp_all [NMap.ins, cellsFrom]
  | cons p m ih =>
    obtain ⟨a, w⟩ := p
    rw [NMap.find] at hk
    split at hk
    · cases hk
    rename_i ne
    rw [NMap.ins]; split
    · rename_i lt
      simp only [cellsFrom, Bool.and_eq_true] at h
      cases lo <;> simp_all [cellsFrom]
    · rename_i nlt
      simp only [cellsFrom, Bool.and_eq_true] at h ⊢
      exact ⟨h.1, ih (some a) h.2 hk (fun l e => by cases e; omega)⟩

/-- Every write of a byte keeps the canonical form. -/
theorem wf_cellSet (m : List Host.Cell) (a : Nat) (b : Byte) (h : Memory.wf m = true) :
    Memory.wf (cellSet m a b) = true := by
  unfold cellSet; split
  · exact cellsFrom_erase m none a h
  · rename_i hb
    exact cellsFrom_ins _ none a b (cellsFrom_erase m none a h) (NMap.find_erase_same m a) (fun _ e => by cases e) hb

theorem wf_cellWrite (bs : List Byte) (m : List Host.Cell) (a : Nat) (h : Memory.wf m = true) :
    Memory.wf (cellWrite m a bs) = true := by
  induction bs generalizing m a with
  | nil => exact h
  | cons b bs ih => exact ih _ _ (wf_cellSet m a b h)

theorem wf_lsPut (ps : List (Nat × Byte)) (m : List Host.Cell) (h : Memory.wf m = true) :
    Memory.wf (lsPut m ps) = true := by
  induction ps generalizing m with
  | nil => exact h
  | cons p ps ih => exact ih _ (wf_cellSet m p.1 p.2 h)

theorem cellsFrom_filter (m : List Host.Cell) (lo : Option Nat) (f : Host.Cell → Bool) (h : cellsFrom lo m = true) :
    cellsFrom lo (m.filter f) = true := by
  induction m generalizing lo with
  | nil => rfl
  | cons p m ih =>
    obtain ⟨a, b⟩ := p
    simp only [cellsFrom, Bool.and_eq_true] at h
    rw [List.filter_cons]; split
    · simp only [cellsFrom, Bool.and_eq_true]; exact ⟨h.1, ih _ h.2⟩
    · refine ih _ (cellsFrom_mono m lo a h.2 ?_)
      intro l e; subst e; exact Nat.le_of_lt (by simpa using h.1.1)

/-- Erasing a range of memory keeps the canonical form. -/
theorem wf_filter (m : List Host.Cell) (f : Host.Cell → Bool) (h : Memory.wf m = true) :
    Memory.wf (m.filter f) = true := cellsFrom_filter m none f h

end Sys2Proof.Machine
end

