-- ==== Sys2Proof/Laws/State.lean ====
section
/-! SUPPORT. Laws of the updates of the state: each leaves every other field as it was, and a table reads what was
written to it. -/

namespace Sys2Proof.Machine

namespace State

/-! ## A table that is written reads the value written -/

@[simp] theorem slot_setSlot_same (s : State) (k : Nat) (v : Slot) : (s.setSlot k v).slot k = v := by
  simp [slot, setSlot]

theorem slot_setSlot_other (s : State) (k j : Nat) (v : Slot) (h : j ≠ k) : (s.setSlot k v).slot j = s.slot j := by
  simp [slot, setSlot, NMap.find_set_other _ _ _ _ h]

@[simp] theorem slot_modSlot_same (s : State) (k : Nat) (f : Slot → Slot) : (s.modSlot k f).slot k = f (s.slot k) := by
  simp [modSlot]

theorem slot_modSlot_other (s : State) (k j : Nat) (f : Slot → Slot) (h : j ≠ k) : (s.modSlot k f).slot j = s.slot j :=
  slot_setSlot_other s k j _ h

@[simp] theorem setSlot_setSlot (s : State) (k : Nat) (v w : Slot) : (s.setSlot k v).setSlot k w = s.setSlot k w := by
  simp [setSlot]

@[simp] theorem modSlot_modSlot (s : State) (k : Nat) (f g : Slot → Slot) :
    (s.modSlot k f).modSlot k g = s.modSlot k (fun x => g (f x)) := by
  simp [modSlot]

@[simp] theorem core_setCore_same (s : State) (k : Nat) (v : Core) : (s.setCore k v).core k = v := by
  simp [core, setCore]

theorem core_setCore_other (s : State) (k j : Nat) (v : Core) (h : j ≠ k) : (s.setCore k v).core j = s.core j := by
  simp [core, setCore, NMap.find_set_other _ _ _ _ h]

@[simp] theorem core_modCore_same (s : State) (k : Nat) (f : Core → Core) : (s.modCore k f).core k = f (s.core k) := by
  simp [modCore]

theorem core_modCore_other (s : State) (k j : Nat) (f : Core → Core) (h : j ≠ k) : (s.modCore k f).core j = s.core j :=
  core_setCore_other s k j _ h

@[simp] theorem setCore_setCore (s : State) (k : Nat) (v w : Core) : (s.setCore k v).setCore k w = s.setCore k w := by
  simp [setCore]

@[simp] theorem modCore_modCore (s : State) (k : Nat) (f g : Core → Core) :
    (s.modCore k f).modCore k g = s.modCore k (fun x => g (f x)) := by
  simp [modCore]

@[simp] theorem cluster_setCluster_same (s : State) (k : Nat) (v : Cluster) : (s.setCluster k v).cluster k = v := by
  simp [cluster, setCluster]

theorem cluster_setCluster_other (s : State) (k j : Nat) (v : Cluster) (h : j ≠ k) : (s.setCluster k v).cluster j = s.cluster j := by
  simp [cluster, setCluster, NMap.find_set_other _ _ _ _ h]

@[simp] theorem cluster_modCluster_same (s : State) (k : Nat) (f : Cluster → Cluster) : (s.modCluster k f).cluster k = f (s.cluster k) := by
  simp [modCluster]

theorem cluster_modCluster_other (s : State) (k j : Nat) (f : Cluster → Cluster) (h : j ≠ k) : (s.modCluster k f).cluster j = s.cluster j :=
  cluster_setCluster_other s k j _ h

@[simp] theorem setCluster_setCluster (s : State) (k : Nat) (v w : Cluster) : (s.setCluster k v).setCluster k w = s.setCluster k w := by
  simp [setCluster]

@[simp] theorem modCluster_modCluster (s : State) (k : Nat) (f g : Cluster → Cluster) :
    (s.modCluster k f).modCluster k g = s.modCluster k (fun x => g (f x)) := by
  simp [modCluster]

@[simp] theorem die_setDie_same (s : State) (k : Nat) (v : Die) : (s.setDie k v).die k = v := by
  simp [die, setDie]

theorem die_setDie_other (s : State) (k j : Nat) (v : Die) (h : j ≠ k) : (s.setDie k v).die j = s.die j := by
  simp [die, setDie, NMap.find_set_other _ _ _ _ h]

@[simp] theorem die_modDie_same (s : State) (k : Nat) (f : Die → Die) : (s.modDie k f).die k = f (s.die k) := by
  simp [modDie]

theorem die_modDie_other (s : State) (k j : Nat) (f : Die → Die) (h : j ≠ k) : (s.modDie k f).die j = s.die j :=
  die_setDie_other s k j _ h

@[simp] theorem setDie_setDie (s : State) (k : Nat) (v w : Die) : (s.setDie k v).setDie k w = s.setDie k w := by
  simp [setDie]

@[simp] theorem modDie_modDie (s : State) (k : Nat) (f g : Die → Die) :
    (s.modDie k f).modDie k g = s.modDie k (fun x => g (f x)) := by
  simp [modDie]

@[simp] theorem polder_setPolder_same (s : State) (k : Nat) (v : Polder) : (s.setPolder k v).polder k = v := by
  simp [polder, setPolder]

theorem polder_setPolder_other (s : State) (k j : Nat) (v : Polder) (h : j ≠ k) : (s.setPolder k v).polder j = s.polder j := by
  simp [polder, setPolder, NMap.find_set_other _ _ _ _ h]

@[simp] theorem polder_modPolder_same (s : State) (k : Nat) (f : Polder → Polder) : (s.modPolder k f).polder k = f (s.polder k) := by
  simp [modPolder]

theorem polder_modPolder_other (s : State) (k j : Nat) (f : Polder → Polder) (h : j ≠ k) : (s.modPolder k f).polder j = s.polder j :=
  polder_setPolder_other s k j _ h

@[simp] theorem setPolder_setPolder (s : State) (k : Nat) (v w : Polder) : (s.setPolder k v).setPolder k w = s.setPolder k w := by
  simp [setPolder]

@[simp] theorem modPolder_modPolder (s : State) (k : Nat) (f g : Polder → Polder) :
    (s.modPolder k f).modPolder k g = s.modPolder k (fun x => g (f x)) := by
  simp [modPolder]

@[simp] theorem link_setLink_same (s : State) (k : Nat) (v : Link) : (s.setLink k v).link k = v := by
  simp [link, setLink]

theorem link_setLink_other (s : State) (k j : Nat) (v : Link) (h : j ≠ k) : (s.setLink k v).link j = s.link j := by
  simp [link, setLink, NMap.find_set_other _ _ _ _ h]

@[simp] theorem link_modLink_same (s : State) (k : Nat) (f : Link → Link) : (s.modLink k f).link k = f (s.link k) := by
  simp [modLink]

theorem link_modLink_other (s : State) (k j : Nat) (f : Link → Link) (h : j ≠ k) : (s.modLink k f).link j = s.link j :=
  link_setLink_other s k j _ h

@[simp] theorem setLink_setLink (s : State) (k : Nat) (v w : Link) : (s.setLink k v).setLink k w = s.setLink k w := by
  simp [setLink]

@[simp] theorem modLink_modLink (s : State) (k : Nat) (f g : Link → Link) :
    (s.modLink k f).modLink k g = s.modLink k (fun x => g (f x)) := by
  simp [modLink]

@[simp] theorem me_modMe (s : State) (f : Slot → Slot) : (s.modMe f).me = f s.me := slot_modSlot_same s s.cur f

theorem modMe_eq (s : State) (f : Slot → Slot) : s.modMe f = s.modSlot s.cur f := rfl

theorem me_eq (s : State) : s.me = s.slot s.cur := rfl

/-! ## setSlot -/

@[simp] theorem cycle_setSlot (s : State) (k : Nat) (v : Slot) : (s.setSlot k v).cycle = s.cycle := rfl
@[simp] theorem cursor_setSlot (s : State) (k : Nat) (v : Slot) : (s.setSlot k v).cursor = s.cursor := rfl
@[simp] theorem agenda_setSlot (s : State) (k : Nat) (v : Slot) : (s.setSlot k v).agenda = s.agenda := rfl
@[simp] theorem free_setSlot (s : State) (k : Nat) (v : Slot) : (s.setSlot k v).free = s.free := rfl
@[simp] theorem cur_setSlot (s : State) (k : Nat) (v : Slot) : (s.setSlot k v).cur = s.cur := rfl
@[simp] theorem iss_setSlot (s : State) (k : Nat) (v : Slot) : (s.setSlot k v).iss = s.iss := rfl
@[simp] theorem moduleNo_setSlot (s : State) (k : Nat) (v : Slot) : (s.setSlot k v).moduleNo = s.moduleNo := rfl
@[simp] theorem cores_setSlot (s : State) (k : Nat) (v : Slot) : (s.setSlot k v).cores = s.cores := rfl
@[simp] theorem clusters_setSlot (s : State) (k : Nat) (v : Slot) : (s.setSlot k v).clusters = s.clusters := rfl
@[simp] theorem dies_setSlot (s : State) (k : Nat) (v : Slot) : (s.setSlot k v).dies = s.dies := rfl
@[simp] theorem polders_setSlot (s : State) (k : Nat) (v : Slot) : (s.setSlot k v).polders = s.polders := rfl
@[simp] theorem links_setSlot (s : State) (k : Nat) (v : Slot) : (s.setSlot k v).links = s.links := rfl
@[simp] theorem mem_setSlot (s : State) (k : Nat) (v : Slot) : (s.setSlot k v).mem = s.mem := rfl
@[simp] theorem hbm_setSlot (s : State) (k : Nat) (v : Slot) : (s.setSlot k v).hbm = s.hbm := rfl
@[simp] theorem poison_setSlot (s : State) (k : Nat) (v : Slot) : (s.setSlot k v).poison = s.poison := rfl
@[simp] theorem flipped_setSlot (s : State) (k : Nat) (v : Slot) : (s.setSlot k v).flipped = s.flipped := rfl
@[simp] theorem granules_setSlot (s : State) (k : Nat) (v : Slot) : (s.setSlot k v).granules = s.granules := rfl
@[simp] theorem downLinks_setSlot (s : State) (k : Nat) (v : Slot) : (s.setSlot k v).downLinks = s.downLinks := rfl
@[simp] theorem steward_setSlot (s : State) (k : Nat) (v : Slot) : (s.setSlot k v).steward = s.steward := rfl
@[simp] theorem readOut_setSlot (s : State) (k : Nat) (v : Slot) : (s.setSlot k v).readOut = s.readOut := rfl
@[simp] theorem nextId_setSlot (s : State) (k : Nat) (v : Slot) : (s.setSlot k v).nextId = s.nextId := rfl
@[simp] theorem core_setSlot (s : State) (k : Nat) (v : Slot) (c : Nat) : (s.setSlot k v).core c = s.core c := rfl
@[simp] theorem cluster_setSlot (s : State) (k : Nat) (v : Slot) (c : Nat) : (s.setSlot k v).cluster c = s.cluster c := rfl
@[simp] theorem die_setSlot (s : State) (k : Nat) (v : Slot) (c : Nat) : (s.setSlot k v).die c = s.die c := rfl
@[simp] theorem polder_setSlot (s : State) (k : Nat) (v : Slot) (c : Nat) : (s.setSlot k v).polder c = s.polder c := rfl
@[simp] theorem link_setSlot (s : State) (k : Nat) (v : Slot) (c : Nat) : (s.setSlot k v).link c = s.link c := rfl

/-! ## modSlot -/

@[simp] theorem cycle_modSlot (s : State) (k : Nat) (f : Slot → Slot) : (s.modSlot k f).cycle = s.cycle := rfl
@[simp] theorem cursor_modSlot (s : State) (k : Nat) (f : Slot → Slot) : (s.modSlot k f).cursor = s.cursor := rfl
@[simp] theorem agenda_modSlot (s : State) (k : Nat) (f : Slot → Slot) : (s.modSlot k f).agenda = s.agenda := rfl
@[simp] theorem free_modSlot (s : State) (k : Nat) (f : Slot → Slot) : (s.modSlot k f).free = s.free := rfl
@[simp] theorem cur_modSlot (s : State) (k : Nat) (f : Slot → Slot) : (s.modSlot k f).cur = s.cur := rfl
@[simp] theorem iss_modSlot (s : State) (k : Nat) (f : Slot → Slot) : (s.modSlot k f).iss = s.iss := rfl
@[simp] theorem moduleNo_modSlot (s : State) (k : Nat) (f : Slot → Slot) : (s.modSlot k f).moduleNo = s.moduleNo := rfl
@[simp] theorem cores_modSlot (s : State) (k : Nat) (f : Slot → Slot) : (s.modSlot k f).cores = s.cores := rfl
@[simp] theorem clusters_modSlot (s : State) (k : Nat) (f : Slot → Slot) : (s.modSlot k f).clusters = s.clusters := rfl
@[simp] theorem dies_modSlot (s : State) (k : Nat) (f : Slot → Slot) : (s.modSlot k f).dies = s.dies := rfl
@[simp] theorem polders_modSlot (s : State) (k : Nat) (f : Slot → Slot) : (s.modSlot k f).polders = s.polders := rfl
@[simp] theorem links_modSlot (s : State) (k : Nat) (f : Slot → Slot) : (s.modSlot k f).links = s.links := rfl
@[simp] theorem mem_modSlot (s : State) (k : Nat) (f : Slot → Slot) : (s.modSlot k f).mem = s.mem := rfl
@[simp] theorem hbm_modSlot (s : State) (k : Nat) (f : Slot → Slot) : (s.modSlot k f).hbm = s.hbm := rfl
@[simp] theorem poison_modSlot (s : State) (k : Nat) (f : Slot → Slot) : (s.modSlot k f).poison = s.poison := rfl
@[simp] theorem flipped_modSlot (s : State) (k : Nat) (f : Slot → Slot) : (s.modSlot k f).flipped = s.flipped := rfl
@[simp] theorem granules_modSlot (s : State) (k : Nat) (f : Slot → Slot) : (s.modSlot k f).granules = s.granules := rfl
@[simp] theorem downLinks_modSlot (s : State) (k : Nat) (f : Slot → Slot) : (s.modSlot k f).downLinks = s.downLinks := rfl
@[simp] theorem steward_modSlot (s : State) (k : Nat) (f : Slot → Slot) : (s.modSlot k f).steward = s.steward := rfl
@[simp] theorem readOut_modSlot (s : State) (k : Nat) (f : Slot → Slot) : (s.modSlot k f).readOut = s.readOut := rfl
@[simp] theorem nextId_modSlot (s : State) (k : Nat) (f : Slot → Slot) : (s.modSlot k f).nextId = s.nextId := rfl
@[simp] theorem core_modSlot (s : State) (k : Nat) (f : Slot → Slot) (c : Nat) : (s.modSlot k f).core c = s.core c := rfl
@[simp] theorem cluster_modSlot (s : State) (k : Nat) (f : Slot → Slot) (c : Nat) : (s.modSlot k f).cluster c = s.cluster c := rfl
@[simp] theorem die_modSlot (s : State) (k : Nat) (f : Slot → Slot) (c : Nat) : (s.modSlot k f).die c = s.die c := rfl
@[simp] theorem polder_modSlot (s : State) (k : Nat) (f : Slot → Slot) (c : Nat) : (s.modSlot k f).polder c = s.polder c := rfl
@[simp] theorem link_modSlot (s : State) (k : Nat) (f : Slot → Slot) (c : Nat) : (s.modSlot k f).link c = s.link c := rfl

/-! ## setCore -/

@[simp] theorem cycle_setCore (s : State) (k : Nat) (v : Core) : (s.setCore k v).cycle = s.cycle := rfl
@[simp] theorem cursor_setCore (s : State) (k : Nat) (v : Core) : (s.setCore k v).cursor = s.cursor := rfl
@[simp] theorem agenda_setCore (s : State) (k : Nat) (v : Core) : (s.setCore k v).agenda = s.agenda := rfl
@[simp] theorem free_setCore (s : State) (k : Nat) (v : Core) : (s.setCore k v).free = s.free := rfl
@[simp] theorem cur_setCore (s : State) (k : Nat) (v : Core) : (s.setCore k v).cur = s.cur := rfl
@[simp] theorem iss_setCore (s : State) (k : Nat) (v : Core) : (s.setCore k v).iss = s.iss := rfl
@[simp] theorem moduleNo_setCore (s : State) (k : Nat) (v : Core) : (s.setCore k v).moduleNo = s.moduleNo := rfl
@[simp] theorem slots_setCore (s : State) (k : Nat) (v : Core) : (s.setCore k v).slots = s.slots := rfl
@[simp] theorem clusters_setCore (s : State) (k : Nat) (v : Core) : (s.setCore k v).clusters = s.clusters := rfl
@[simp] theorem dies_setCore (s : State) (k : Nat) (v : Core) : (s.setCore k v).dies = s.dies := rfl
@[simp] theorem polders_setCore (s : State) (k : Nat) (v : Core) : (s.setCore k v).polders = s.polders := rfl
@[simp] theorem links_setCore (s : State) (k : Nat) (v : Core) : (s.setCore k v).links = s.links := rfl
@[simp] theorem mem_setCore (s : State) (k : Nat) (v : Core) : (s.setCore k v).mem = s.mem := rfl
@[simp] theorem hbm_setCore (s : State) (k : Nat) (v : Core) : (s.setCore k v).hbm = s.hbm := rfl
@[simp] theorem poison_setCore (s : State) (k : Nat) (v : Core) : (s.setCore k v).poison = s.poison := rfl
@[simp] theorem flipped_setCore (s : State) (k : Nat) (v : Core) : (s.setCore k v).flipped = s.flipped := rfl
@[simp] theorem granules_setCore (s : State) (k : Nat) (v : Core) : (s.setCore k v).granules = s.granules := rfl
@[simp] theorem downLinks_setCore (s : State) (k : Nat) (v : Core) : (s.setCore k v).downLinks = s.downLinks := rfl
@[simp] theorem steward_setCore (s : State) (k : Nat) (v : Core) : (s.setCore k v).steward = s.steward := rfl
@[simp] theorem readOut_setCore (s : State) (k : Nat) (v : Core) : (s.setCore k v).readOut = s.readOut := rfl
@[simp] theorem nextId_setCore (s : State) (k : Nat) (v : Core) : (s.setCore k v).nextId = s.nextId := rfl
@[simp] theorem slot_setCore (s : State) (k : Nat) (v : Core) (c : Nat) : (s.setCore k v).slot c = s.slot c := rfl
@[simp] theorem cluster_setCore (s : State) (k : Nat) (v : Core) (c : Nat) : (s.setCore k v).cluster c = s.cluster c := rfl
@[simp] theorem die_setCore (s : State) (k : Nat) (v : Core) (c : Nat) : (s.setCore k v).die c = s.die c := rfl
@[simp] theorem polder_setCore (s : State) (k : Nat) (v : Core) (c : Nat) : (s.setCore k v).polder c = s.polder c := rfl
@[simp] theorem link_setCore (s : State) (k : Nat) (v : Core) (c : Nat) : (s.setCore k v).link c = s.link c := rfl
@[simp] theorem me_setCore (s : State) (k : Nat) (v : Core) : (s.setCore k v).me = s.me := rfl

/-! ## modCore -/

@[simp] theorem cycle_modCore (s : State) (k : Nat) (f : Core → Core) : (s.modCore k f).cycle = s.cycle := rfl
@[simp] theorem cursor_modCore (s : State) (k : Nat) (f : Core → Core) : (s.modCore k f).cursor = s.cursor := rfl
@[simp] theorem agenda_modCore (s : State) (k : Nat) (f : Core → Core) : (s.modCore k f).agenda = s.agenda := rfl
@[simp] theorem free_modCore (s : State) (k : Nat) (f : Core → Core) : (s.modCore k f).free = s.free := rfl
@[simp] theorem cur_modCore (s : State) (k : Nat) (f : Core → Core) : (s.modCore k f).cur = s.cur := rfl
@[simp] theorem iss_modCore (s : State) (k : Nat) (f : Core → Core) : (s.modCore k f).iss = s.iss := rfl
@[simp] theorem moduleNo_modCore (s : State) (k : Nat) (f : Core → Core) : (s.modCore k f).moduleNo = s.moduleNo := rfl
@[simp] theorem slots_modCore (s : State) (k : Nat) (f : Core → Core) : (s.modCore k f).slots = s.slots := rfl
@[simp] theorem clusters_modCore (s : State) (k : Nat) (f : Core → Core) : (s.modCore k f).clusters = s.clusters := rfl
@[simp] theorem dies_modCore (s : State) (k : Nat) (f : Core → Core) : (s.modCore k f).dies = s.dies := rfl
@[simp] theorem polders_modCore (s : State) (k : Nat) (f : Core → Core) : (s.modCore k f).polders = s.polders := rfl
@[simp] theorem links_modCore (s : State) (k : Nat) (f : Core → Core) : (s.modCore k f).links = s.links := rfl
@[simp] theorem mem_modCore (s : State) (k : Nat) (f : Core → Core) : (s.modCore k f).mem = s.mem := rfl
@[simp] theorem hbm_modCore (s : State) (k : Nat) (f : Core → Core) : (s.modCore k f).hbm = s.hbm := rfl
@[simp] theorem poison_modCore (s : State) (k : Nat) (f : Core → Core) : (s.modCore k f).poison = s.poison := rfl
@[simp] theorem flipped_modCore (s : State) (k : Nat) (f : Core → Core) : (s.modCore k f).flipped = s.flipped := rfl
@[simp] theorem granules_modCore (s : State) (k : Nat) (f : Core → Core) : (s.modCore k f).granules = s.granules := rfl
@[simp] theorem downLinks_modCore (s : State) (k : Nat) (f : Core → Core) : (s.modCore k f).downLinks = s.downLinks := rfl
@[simp] theorem steward_modCore (s : State) (k : Nat) (f : Core → Core) : (s.modCore k f).steward = s.steward := rfl
@[simp] theorem readOut_modCore (s : State) (k : Nat) (f : Core → Core) : (s.modCore k f).readOut = s.readOut := rfl
@[simp] theorem nextId_modCore (s : State) (k : Nat) (f : Core → Core) : (s.modCore k f).nextId = s.nextId := rfl
@[simp] theorem slot_modCore (s : State) (k : Nat) (f : Core → Core) (c : Nat) : (s.modCore k f).slot c = s.slot c := rfl
@[simp] theorem cluster_modCore (s : State) (k : Nat) (f : Core → Core) (c : Nat) : (s.modCore k f).cluster c = s.cluster c := rfl
@[simp] theorem die_modCore (s : State) (k : Nat) (f : Core → Core) (c : Nat) : (s.modCore k f).die c = s.die c := rfl
@[simp] theorem polder_modCore (s : State) (k : Nat) (f : Core → Core) (c : Nat) : (s.modCore k f).polder c = s.polder c := rfl
@[simp] theorem link_modCore (s : State) (k : Nat) (f : Core → Core) (c : Nat) : (s.modCore k f).link c = s.link c := rfl
@[simp] theorem me_modCore (s : State) (k : Nat) (f : Core → Core) : (s.modCore k f).me = s.me := rfl

/-! ## setCluster -/

@[simp] theorem cycle_setCluster (s : State) (k : Nat) (v : Cluster) : (s.setCluster k v).cycle = s.cycle := rfl
@[simp] theorem cursor_setCluster (s : State) (k : Nat) (v : Cluster) : (s.setCluster k v).cursor = s.cursor := rfl
@[simp] theorem agenda_setCluster (s : State) (k : Nat) (v : Cluster) : (s.setCluster k v).agenda = s.agenda := rfl
@[simp] theorem free_setCluster (s : State) (k : Nat) (v : Cluster) : (s.setCluster k v).free = s.free := rfl
@[simp] theorem cur_setCluster (s : State) (k : Nat) (v : Cluster) : (s.setCluster k v).cur = s.cur := rfl
@[simp] theorem iss_setCluster (s : State) (k : Nat) (v : Cluster) : (s.setCluster k v).iss = s.iss := rfl
@[simp] theorem moduleNo_setCluster (s : State) (k : Nat) (v : Cluster) : (s.setCluster k v).moduleNo = s.moduleNo := rfl
@[simp] theorem slots_setCluster (s : State) (k : Nat) (v : Cluster) : (s.setCluster k v).slots = s.slots := rfl
@[simp] theorem cores_setCluster (s : State) (k : Nat) (v : Cluster) : (s.setCluster k v).cores = s.cores := rfl
@[simp] theorem dies_setCluster (s : State) (k : Nat) (v : Cluster) : (s.setCluster k v).dies = s.dies := rfl
@[simp] theorem polders_setCluster (s : State) (k : Nat) (v : Cluster) : (s.setCluster k v).polders = s.polders := rfl
@[simp] theorem links_setCluster (s : State) (k : Nat) (v : Cluster) : (s.setCluster k v).links = s.links := rfl
@[simp] theorem mem_setCluster (s : State) (k : Nat) (v : Cluster) : (s.setCluster k v).mem = s.mem := rfl
@[simp] theorem hbm_setCluster (s : State) (k : Nat) (v : Cluster) : (s.setCluster k v).hbm = s.hbm := rfl
@[simp] theorem poison_setCluster (s : State) (k : Nat) (v : Cluster) : (s.setCluster k v).poison = s.poison := rfl
@[simp] theorem flipped_setCluster (s : State) (k : Nat) (v : Cluster) : (s.setCluster k v).flipped = s.flipped := rfl
@[simp] theorem granules_setCluster (s : State) (k : Nat) (v : Cluster) : (s.setCluster k v).granules = s.granules := rfl
@[simp] theorem downLinks_setCluster (s : State) (k : Nat) (v : Cluster) : (s.setCluster k v).downLinks = s.downLinks := rfl
@[simp] theorem steward_setCluster (s : State) (k : Nat) (v : Cluster) : (s.setCluster k v).steward = s.steward := rfl
@[simp] theorem readOut_setCluster (s : State) (k : Nat) (v : Cluster) : (s.setCluster k v).readOut = s.readOut := rfl
@[simp] theorem nextId_setCluster (s : State) (k : Nat) (v : Cluster) : (s.setCluster k v).nextId = s.nextId := rfl
@[simp] theorem slot_setCluster (s : State) (k : Nat) (v : Cluster) (c : Nat) : (s.setCluster k v).slot c = s.slot c := rfl
@[simp] theorem core_setCluster (s : State) (k : Nat) (v : Cluster) (c : Nat) : (s.setCluster k v).core c = s.core c := rfl
@[simp] theorem die_setCluster (s : State) (k : Nat) (v : Cluster) (c : Nat) : (s.setCluster k v).die c = s.die c := rfl
@[simp] theorem polder_setCluster (s : State) (k : Nat) (v : Cluster) (c : Nat) : (s.setCluster k v).polder c = s.polder c := rfl
@[simp] theorem link_setCluster (s : State) (k : Nat) (v : Cluster) (c : Nat) : (s.setCluster k v).link c = s.link c := rfl
@[simp] theorem me_setCluster (s : State) (k : Nat) (v : Cluster) : (s.setCluster k v).me = s.me := rfl

/-! ## modCluster -/

@[simp] theorem cycle_modCluster (s : State) (k : Nat) (f : Cluster → Cluster) : (s.modCluster k f).cycle = s.cycle := rfl
@[simp] theorem cursor_modCluster (s : State) (k : Nat) (f : Cluster → Cluster) : (s.modCluster k f).cursor = s.cursor := rfl
@[simp] theorem agenda_modCluster (s : State) (k : Nat) (f : Cluster → Cluster) : (s.modCluster k f).agenda = s.agenda := rfl
@[simp] theorem free_modCluster (s : State) (k : Nat) (f : Cluster → Cluster) : (s.modCluster k f).free = s.free := rfl
@[simp] theorem cur_modCluster (s : State) (k : Nat) (f : Cluster → Cluster) : (s.modCluster k f).cur = s.cur := rfl
@[simp] theorem iss_modCluster (s : State) (k : Nat) (f : Cluster → Cluster) : (s.modCluster k f).iss = s.iss := rfl
@[simp] theorem moduleNo_modCluster (s : State) (k : Nat) (f : Cluster → Cluster) : (s.modCluster k f).moduleNo = s.moduleNo := rfl
@[simp] theorem slots_modCluster (s : State) (k : Nat) (f : Cluster → Cluster) : (s.modCluster k f).slots = s.slots := rfl
@[simp] theorem cores_modCluster (s : State) (k : Nat) (f : Cluster → Cluster) : (s.modCluster k f).cores = s.cores := rfl
@[simp] theorem dies_modCluster (s : State) (k : Nat) (f : Cluster → Cluster) : (s.modCluster k f).dies = s.dies := rfl
@[simp] theorem polders_modCluster (s : State) (k : Nat) (f : Cluster → Cluster) : (s.modCluster k f).polders = s.polders := rfl
@[simp] theorem links_modCluster (s : State) (k : Nat) (f : Cluster → Cluster) : (s.modCluster k f).links = s.links := rfl
@[simp] theorem mem_modCluster (s : State) (k : Nat) (f : Cluster → Cluster) : (s.modCluster k f).mem = s.mem := rfl
@[simp] theorem hbm_modCluster (s : State) (k : Nat) (f : Cluster → Cluster) : (s.modCluster k f).hbm = s.hbm := rfl
@[simp] theorem poison_modCluster (s : State) (k : Nat) (f : Cluster → Cluster) : (s.modCluster k f).poison = s.poison := rfl
@[simp] theorem flipped_modCluster (s : State) (k : Nat) (f : Cluster → Cluster) : (s.modCluster k f).flipped = s.flipped := rfl
@[simp] theorem granules_modCluster (s : State) (k : Nat) (f : Cluster → Cluster) : (s.modCluster k f).granules = s.granules := rfl
@[simp] theorem downLinks_modCluster (s : State) (k : Nat) (f : Cluster → Cluster) : (s.modCluster k f).downLinks = s.downLinks := rfl
@[simp] theorem steward_modCluster (s : State) (k : Nat) (f : Cluster → Cluster) : (s.modCluster k f).steward = s.steward := rfl
@[simp] theorem readOut_modCluster (s : State) (k : Nat) (f : Cluster → Cluster) : (s.modCluster k f).readOut = s.readOut := rfl
@[simp] theorem nextId_modCluster (s : State) (k : Nat) (f : Cluster → Cluster) : (s.modCluster k f).nextId = s.nextId := rfl
@[simp] theorem slot_modCluster (s : State) (k : Nat) (f : Cluster → Cluster) (c : Nat) : (s.modCluster k f).slot c = s.slot c := rfl
@[simp] theorem core_modCluster (s : State) (k : Nat) (f : Cluster → Cluster) (c : Nat) : (s.modCluster k f).core c = s.core c := rfl
@[simp] theorem die_modCluster (s : State) (k : Nat) (f : Cluster → Cluster) (c : Nat) : (s.modCluster k f).die c = s.die c := rfl
@[simp] theorem polder_modCluster (s : State) (k : Nat) (f : Cluster → Cluster) (c : Nat) : (s.modCluster k f).polder c = s.polder c := rfl
@[simp] theorem link_modCluster (s : State) (k : Nat) (f : Cluster → Cluster) (c : Nat) : (s.modCluster k f).link c = s.link c := rfl
@[simp] theorem me_modCluster (s : State) (k : Nat) (f : Cluster → Cluster) : (s.modCluster k f).me = s.me := rfl

/-! ## setDie -/

@[simp] theorem cycle_setDie (s : State) (k : Nat) (v : Die) : (s.setDie k v).cycle = s.cycle := rfl
@[simp] theorem cursor_setDie (s : State) (k : Nat) (v : Die) : (s.setDie k v).cursor = s.cursor := rfl
@[simp] theorem agenda_setDie (s : State) (k : Nat) (v : Die) : (s.setDie k v).agenda = s.agenda := rfl
@[simp] theorem free_setDie (s : State) (k : Nat) (v : Die) : (s.setDie k v).free = s.free := rfl
@[simp] theorem cur_setDie (s : State) (k : Nat) (v : Die) : (s.setDie k v).cur = s.cur := rfl
@[simp] theorem iss_setDie (s : State) (k : Nat) (v : Die) : (s.setDie k v).iss = s.iss := rfl
@[simp] theorem moduleNo_setDie (s : State) (k : Nat) (v : Die) : (s.setDie k v).moduleNo = s.moduleNo := rfl
@[simp] theorem slots_setDie (s : State) (k : Nat) (v : Die) : (s.setDie k v).slots = s.slots := rfl
@[simp] theorem cores_setDie (s : State) (k : Nat) (v : Die) : (s.setDie k v).cores = s.cores := rfl
@[simp] theorem clusters_setDie (s : State) (k : Nat) (v : Die) : (s.setDie k v).clusters = s.clusters := rfl
@[simp] theorem polders_setDie (s : State) (k : Nat) (v : Die) : (s.setDie k v).polders = s.polders := rfl
@[simp] theorem links_setDie (s : State) (k : Nat) (v : Die) : (s.setDie k v).links = s.links := rfl
@[simp] theorem mem_setDie (s : State) (k : Nat) (v : Die) : (s.setDie k v).mem = s.mem := rfl
@[simp] theorem hbm_setDie (s : State) (k : Nat) (v : Die) : (s.setDie k v).hbm = s.hbm := rfl
@[simp] theorem poison_setDie (s : State) (k : Nat) (v : Die) : (s.setDie k v).poison = s.poison := rfl
@[simp] theorem flipped_setDie (s : State) (k : Nat) (v : Die) : (s.setDie k v).flipped = s.flipped := rfl
@[simp] theorem granules_setDie (s : State) (k : Nat) (v : Die) : (s.setDie k v).granules = s.granules := rfl
@[simp] theorem downLinks_setDie (s : State) (k : Nat) (v : Die) : (s.setDie k v).downLinks = s.downLinks := rfl
@[simp] theorem steward_setDie (s : State) (k : Nat) (v : Die) : (s.setDie k v).steward = s.steward := rfl
@[simp] theorem readOut_setDie (s : State) (k : Nat) (v : Die) : (s.setDie k v).readOut = s.readOut := rfl
@[simp] theorem nextId_setDie (s : State) (k : Nat) (v : Die) : (s.setDie k v).nextId = s.nextId := rfl
@[simp] theorem slot_setDie (s : State) (k : Nat) (v : Die) (c : Nat) : (s.setDie k v).slot c = s.slot c := rfl
@[simp] theorem core_setDie (s : State) (k : Nat) (v : Die) (c : Nat) : (s.setDie k v).core c = s.core c := rfl
@[simp] theorem cluster_setDie (s : State) (k : Nat) (v : Die) (c : Nat) : (s.setDie k v).cluster c = s.cluster c := rfl
@[simp] theorem polder_setDie (s : State) (k : Nat) (v : Die) (c : Nat) : (s.setDie k v).polder c = s.polder c := rfl
@[simp] theorem link_setDie (s : State) (k : Nat) (v : Die) (c : Nat) : (s.setDie k v).link c = s.link c := rfl
@[simp] theorem me_setDie (s : State) (k : Nat) (v : Die) : (s.setDie k v).me = s.me := rfl

/-! ## modDie -/

@[simp] theorem cycle_modDie (s : State) (k : Nat) (f : Die → Die) : (s.modDie k f).cycle = s.cycle := rfl
@[simp] theorem cursor_modDie (s : State) (k : Nat) (f : Die → Die) : (s.modDie k f).cursor = s.cursor := rfl
@[simp] theorem agenda_modDie (s : State) (k : Nat) (f : Die → Die) : (s.modDie k f).agenda = s.agenda := rfl
@[simp] theorem free_modDie (s : State) (k : Nat) (f : Die → Die) : (s.modDie k f).free = s.free := rfl
@[simp] theorem cur_modDie (s : State) (k : Nat) (f : Die → Die) : (s.modDie k f).cur = s.cur := rfl
@[simp] theorem iss_modDie (s : State) (k : Nat) (f : Die → Die) : (s.modDie k f).iss = s.iss := rfl
@[simp] theorem moduleNo_modDie (s : State) (k : Nat) (f : Die → Die) : (s.modDie k f).moduleNo = s.moduleNo := rfl
@[simp] theorem slots_modDie (s : State) (k : Nat) (f : Die → Die) : (s.modDie k f).slots = s.slots := rfl
@[simp] theorem cores_modDie (s : State) (k : Nat) (f : Die → Die) : (s.modDie k f).cores = s.cores := rfl
@[simp] theorem clusters_modDie (s : State) (k : Nat) (f : Die → Die) : (s.modDie k f).clusters = s.clusters := rfl
@[simp] theorem polders_modDie (s : State) (k : Nat) (f : Die → Die) : (s.modDie k f).polders = s.polders := rfl
@[simp] theorem links_modDie (s : State) (k : Nat) (f : Die → Die) : (s.modDie k f).links = s.links := rfl
@[simp] theorem mem_modDie (s : State) (k : Nat) (f : Die → Die) : (s.modDie k f).mem = s.mem := rfl
@[simp] theorem hbm_modDie (s : State) (k : Nat) (f : Die → Die) : (s.modDie k f).hbm = s.hbm := rfl
@[simp] theorem poison_modDie (s : State) (k : Nat) (f : Die → Die) : (s.modDie k f).poison = s.poison := rfl
@[simp] theorem flipped_modDie (s : State) (k : Nat) (f : Die → Die) : (s.modDie k f).flipped = s.flipped := rfl
@[simp] theorem granules_modDie (s : State) (k : Nat) (f : Die → Die) : (s.modDie k f).granules = s.granules := rfl
@[simp] theorem downLinks_modDie (s : State) (k : Nat) (f : Die → Die) : (s.modDie k f).downLinks = s.downLinks := rfl
@[simp] theorem steward_modDie (s : State) (k : Nat) (f : Die → Die) : (s.modDie k f).steward = s.steward := rfl
@[simp] theorem readOut_modDie (s : State) (k : Nat) (f : Die → Die) : (s.modDie k f).readOut = s.readOut := rfl
@[simp] theorem nextId_modDie (s : State) (k : Nat) (f : Die → Die) : (s.modDie k f).nextId = s.nextId := rfl
@[simp] theorem slot_modDie (s : State) (k : Nat) (f : Die → Die) (c : Nat) : (s.modDie k f).slot c = s.slot c := rfl
@[simp] theorem core_modDie (s : State) (k : Nat) (f : Die → Die) (c : Nat) : (s.modDie k f).core c = s.core c := rfl
@[simp] theorem cluster_modDie (s : State) (k : Nat) (f : Die → Die) (c : Nat) : (s.modDie k f).cluster c = s.cluster c := rfl
@[simp] theorem polder_modDie (s : State) (k : Nat) (f : Die → Die) (c : Nat) : (s.modDie k f).polder c = s.polder c := rfl
@[simp] theorem link_modDie (s : State) (k : Nat) (f : Die → Die) (c : Nat) : (s.modDie k f).link c = s.link c := rfl
@[simp] theorem me_modDie (s : State) (k : Nat) (f : Die → Die) : (s.modDie k f).me = s.me := rfl

/-! ## setPolder -/

@[simp] theorem cycle_setPolder (s : State) (k : Nat) (v : Polder) : (s.setPolder k v).cycle = s.cycle := rfl
@[simp] theorem cursor_setPolder (s : State) (k : Nat) (v : Polder) : (s.setPolder k v).cursor = s.cursor := rfl
@[simp] theorem agenda_setPolder (s : State) (k : Nat) (v : Polder) : (s.setPolder k v).agenda = s.agenda := rfl
@[simp] theorem free_setPolder (s : State) (k : Nat) (v : Polder) : (s.setPolder k v).free = s.free := rfl
@[simp] theorem cur_setPolder (s : State) (k : Nat) (v : Polder) : (s.setPolder k v).cur = s.cur := rfl
@[simp] theorem iss_setPolder (s : State) (k : Nat) (v : Polder) : (s.setPolder k v).iss = s.iss := rfl
@[simp] theorem moduleNo_setPolder (s : State) (k : Nat) (v : Polder) : (s.setPolder k v).moduleNo = s.moduleNo := rfl
@[simp] theorem slots_setPolder (s : State) (k : Nat) (v : Polder) : (s.setPolder k v).slots = s.slots := rfl
@[simp] theorem cores_setPolder (s : State) (k : Nat) (v : Polder) : (s.setPolder k v).cores = s.cores := rfl
@[simp] theorem clusters_setPolder (s : State) (k : Nat) (v : Polder) : (s.setPolder k v).clusters = s.clusters := rfl
@[simp] theorem dies_setPolder (s : State) (k : Nat) (v : Polder) : (s.setPolder k v).dies = s.dies := rfl
@[simp] theorem links_setPolder (s : State) (k : Nat) (v : Polder) : (s.setPolder k v).links = s.links := rfl
@[simp] theorem mem_setPolder (s : State) (k : Nat) (v : Polder) : (s.setPolder k v).mem = s.mem := rfl
@[simp] theorem hbm_setPolder (s : State) (k : Nat) (v : Polder) : (s.setPolder k v).hbm = s.hbm := rfl
@[simp] theorem poison_setPolder (s : State) (k : Nat) (v : Polder) : (s.setPolder k v).poison = s.poison := rfl
@[simp] theorem flipped_setPolder (s : State) (k : Nat) (v : Polder) : (s.setPolder k v).flipped = s.flipped := rfl
@[simp] theorem granules_setPolder (s : State) (k : Nat) (v : Polder) : (s.setPolder k v).granules = s.granules := rfl
@[simp] theorem downLinks_setPolder (s : State) (k : Nat) (v : Polder) : (s.setPolder k v).downLinks = s.downLinks := rfl
@[simp] theorem steward_setPolder (s : State) (k : Nat) (v : Polder) : (s.setPolder k v).steward = s.steward := rfl
@[simp] theorem readOut_setPolder (s : State) (k : Nat) (v : Polder) : (s.setPolder k v).readOut = s.readOut := rfl
@[simp] theorem nextId_setPolder (s : State) (k : Nat) (v : Polder) : (s.setPolder k v).nextId = s.nextId := rfl
@[simp] theorem slot_setPolder (s : State) (k : Nat) (v : Polder) (c : Nat) : (s.setPolder k v).slot c = s.slot c := rfl
@[simp] theorem core_setPolder (s : State) (k : Nat) (v : Polder) (c : Nat) : (s.setPolder k v).core c = s.core c := rfl
@[simp] theorem cluster_setPolder (s : State) (k : Nat) (v : Polder) (c : Nat) : (s.setPolder k v).cluster c = s.cluster c := rfl
@[simp] theorem die_setPolder (s : State) (k : Nat) (v : Polder) (c : Nat) : (s.setPolder k v).die c = s.die c := rfl
@[simp] theorem link_setPolder (s : State) (k : Nat) (v : Polder) (c : Nat) : (s.setPolder k v).link c = s.link c := rfl
@[simp] theorem me_setPolder (s : State) (k : Nat) (v : Polder) : (s.setPolder k v).me = s.me := rfl

/-! ## modPolder -/

@[simp] theorem cycle_modPolder (s : State) (k : Nat) (f : Polder → Polder) : (s.modPolder k f).cycle = s.cycle := rfl
@[simp] theorem cursor_modPolder (s : State) (k : Nat) (f : Polder → Polder) : (s.modPolder k f).cursor = s.cursor := rfl
@[simp] theorem agenda_modPolder (s : State) (k : Nat) (f : Polder → Polder) : (s.modPolder k f).agenda = s.agenda := rfl
@[simp] theorem free_modPolder (s : State) (k : Nat) (f : Polder → Polder) : (s.modPolder k f).free = s.free := rfl
@[simp] theorem cur_modPolder (s : State) (k : Nat) (f : Polder → Polder) : (s.modPolder k f).cur = s.cur := rfl
@[simp] theorem iss_modPolder (s : State) (k : Nat) (f : Polder → Polder) : (s.modPolder k f).iss = s.iss := rfl
@[simp] theorem moduleNo_modPolder (s : State) (k : Nat) (f : Polder → Polder) : (s.modPolder k f).moduleNo = s.moduleNo := rfl
@[simp] theorem slots_modPolder (s : State) (k : Nat) (f : Polder → Polder) : (s.modPolder k f).slots = s.slots := rfl
@[simp] theorem cores_modPolder (s : State) (k : Nat) (f : Polder → Polder) : (s.modPolder k f).cores = s.cores := rfl
@[simp] theorem clusters_modPolder (s : State) (k : Nat) (f : Polder → Polder) : (s.modPolder k f).clusters = s.clusters := rfl
@[simp] theorem dies_modPolder (s : State) (k : Nat) (f : Polder → Polder) : (s.modPolder k f).dies = s.dies := rfl
@[simp] theorem links_modPolder (s : State) (k : Nat) (f : Polder → Polder) : (s.modPolder k f).links = s.links := rfl
@[simp] theorem mem_modPolder (s : State) (k : Nat) (f : Polder → Polder) : (s.modPolder k f).mem = s.mem := rfl
@[simp] theorem hbm_modPolder (s : State) (k : Nat) (f : Polder → Polder) : (s.modPolder k f).hbm = s.hbm := rfl
@[simp] theorem poison_modPolder (s : State) (k : Nat) (f : Polder → Polder) : (s.modPolder k f).poison = s.poison := rfl
@[simp] theorem flipped_modPolder (s : State) (k : Nat) (f : Polder → Polder) : (s.modPolder k f).flipped = s.flipped := rfl
@[simp] theorem granules_modPolder (s : State) (k : Nat) (f : Polder → Polder) : (s.modPolder k f).granules = s.granules := rfl
@[simp] theorem downLinks_modPolder (s : State) (k : Nat) (f : Polder → Polder) : (s.modPolder k f).downLinks = s.downLinks := rfl
@[simp] theorem steward_modPolder (s : State) (k : Nat) (f : Polder → Polder) : (s.modPolder k f).steward = s.steward := rfl
@[simp] theorem readOut_modPolder (s : State) (k : Nat) (f : Polder → Polder) : (s.modPolder k f).readOut = s.readOut := rfl
@[simp] theorem nextId_modPolder (s : State) (k : Nat) (f : Polder → Polder) : (s.modPolder k f).nextId = s.nextId := rfl
@[simp] theorem slot_modPolder (s : State) (k : Nat) (f : Polder → Polder) (c : Nat) : (s.modPolder k f).slot c = s.slot c := rfl
@[simp] theorem core_modPolder (s : State) (k : Nat) (f : Polder → Polder) (c : Nat) : (s.modPolder k f).core c = s.core c := rfl
@[simp] theorem cluster_modPolder (s : State) (k : Nat) (f : Polder → Polder) (c : Nat) : (s.modPolder k f).cluster c = s.cluster c := rfl
@[simp] theorem die_modPolder (s : State) (k : Nat) (f : Polder → Polder) (c : Nat) : (s.modPolder k f).die c = s.die c := rfl
@[simp] theorem link_modPolder (s : State) (k : Nat) (f : Polder → Polder) (c : Nat) : (s.modPolder k f).link c = s.link c := rfl
@[simp] theorem me_modPolder (s : State) (k : Nat) (f : Polder → Polder) : (s.modPolder k f).me = s.me := rfl

/-! ## setLink -/

@[simp] theorem cycle_setLink (s : State) (k : Nat) (v : Link) : (s.setLink k v).cycle = s.cycle := rfl
@[simp] theorem cursor_setLink (s : State) (k : Nat) (v : Link) : (s.setLink k v).cursor = s.cursor := rfl
@[simp] theorem agenda_setLink (s : State) (k : Nat) (v : Link) : (s.setLink k v).agenda = s.agenda := rfl
@[simp] theorem free_setLink (s : State) (k : Nat) (v : Link) : (s.setLink k v).free = s.free := rfl
@[simp] theorem cur_setLink (s : State) (k : Nat) (v : Link) : (s.setLink k v).cur = s.cur := rfl
@[simp] theorem iss_setLink (s : State) (k : Nat) (v : Link) : (s.setLink k v).iss = s.iss := rfl
@[simp] theorem moduleNo_setLink (s : State) (k : Nat) (v : Link) : (s.setLink k v).moduleNo = s.moduleNo := rfl
@[simp] theorem slots_setLink (s : State) (k : Nat) (v : Link) : (s.setLink k v).slots = s.slots := rfl
@[simp] theorem cores_setLink (s : State) (k : Nat) (v : Link) : (s.setLink k v).cores = s.cores := rfl
@[simp] theorem clusters_setLink (s : State) (k : Nat) (v : Link) : (s.setLink k v).clusters = s.clusters := rfl
@[simp] theorem dies_setLink (s : State) (k : Nat) (v : Link) : (s.setLink k v).dies = s.dies := rfl
@[simp] theorem polders_setLink (s : State) (k : Nat) (v : Link) : (s.setLink k v).polders = s.polders := rfl
@[simp] theorem mem_setLink (s : State) (k : Nat) (v : Link) : (s.setLink k v).mem = s.mem := rfl
@[simp] theorem hbm_setLink (s : State) (k : Nat) (v : Link) : (s.setLink k v).hbm = s.hbm := rfl
@[simp] theorem poison_setLink (s : State) (k : Nat) (v : Link) : (s.setLink k v).poison = s.poison := rfl
@[simp] theorem flipped_setLink (s : State) (k : Nat) (v : Link) : (s.setLink k v).flipped = s.flipped := rfl
@[simp] theorem granules_setLink (s : State) (k : Nat) (v : Link) : (s.setLink k v).granules = s.granules := rfl
@[simp] theorem downLinks_setLink (s : State) (k : Nat) (v : Link) : (s.setLink k v).downLinks = s.downLinks := rfl
@[simp] theorem steward_setLink (s : State) (k : Nat) (v : Link) : (s.setLink k v).steward = s.steward := rfl
@[simp] theorem readOut_setLink (s : State) (k : Nat) (v : Link) : (s.setLink k v).readOut = s.readOut := rfl
@[simp] theorem nextId_setLink (s : State) (k : Nat) (v : Link) : (s.setLink k v).nextId = s.nextId := rfl
@[simp] theorem slot_setLink (s : State) (k : Nat) (v : Link) (c : Nat) : (s.setLink k v).slot c = s.slot c := rfl
@[simp] theorem core_setLink (s : State) (k : Nat) (v : Link) (c : Nat) : (s.setLink k v).core c = s.core c := rfl
@[simp] theorem cluster_setLink (s : State) (k : Nat) (v : Link) (c : Nat) : (s.setLink k v).cluster c = s.cluster c := rfl
@[simp] theorem die_setLink (s : State) (k : Nat) (v : Link) (c : Nat) : (s.setLink k v).die c = s.die c := rfl
@[simp] theorem polder_setLink (s : State) (k : Nat) (v : Link) (c : Nat) : (s.setLink k v).polder c = s.polder c := rfl
@[simp] theorem me_setLink (s : State) (k : Nat) (v : Link) : (s.setLink k v).me = s.me := rfl

/-! ## modLink -/

@[simp] theorem cycle_modLink (s : State) (k : Nat) (f : Link → Link) : (s.modLink k f).cycle = s.cycle := rfl
@[simp] theorem cursor_modLink (s : State) (k : Nat) (f : Link → Link) : (s.modLink k f).cursor = s.cursor := rfl
@[simp] theorem agenda_modLink (s : State) (k : Nat) (f : Link → Link) : (s.modLink k f).agenda = s.agenda := rfl
@[simp] theorem free_modLink (s : State) (k : Nat) (f : Link → Link) : (s.modLink k f).free = s.free := rfl
@[simp] theorem cur_modLink (s : State) (k : Nat) (f : Link → Link) : (s.modLink k f).cur = s.cur := rfl
@[simp] theorem iss_modLink (s : State) (k : Nat) (f : Link → Link) : (s.modLink k f).iss = s.iss := rfl
@[simp] theorem moduleNo_modLink (s : State) (k : Nat) (f : Link → Link) : (s.modLink k f).moduleNo = s.moduleNo := rfl
@[simp] theorem slots_modLink (s : State) (k : Nat) (f : Link → Link) : (s.modLink k f).slots = s.slots := rfl
@[simp] theorem cores_modLink (s : State) (k : Nat) (f : Link → Link) : (s.modLink k f).cores = s.cores := rfl
@[simp] theorem clusters_modLink (s : State) (k : Nat) (f : Link → Link) : (s.modLink k f).clusters = s.clusters := rfl
@[simp] theorem dies_modLink (s : State) (k : Nat) (f : Link → Link) : (s.modLink k f).dies = s.dies := rfl
@[simp] theorem polders_modLink (s : State) (k : Nat) (f : Link → Link) : (s.modLink k f).polders = s.polders := rfl
@[simp] theorem mem_modLink (s : State) (k : Nat) (f : Link → Link) : (s.modLink k f).mem = s.mem := rfl
@[simp] theorem hbm_modLink (s : State) (k : Nat) (f : Link → Link) : (s.modLink k f).hbm = s.hbm := rfl
@[simp] theorem poison_modLink (s : State) (k : Nat) (f : Link → Link) : (s.modLink k f).poison = s.poison := rfl
@[simp] theorem flipped_modLink (s : State) (k : Nat) (f : Link → Link) : (s.modLink k f).flipped = s.flipped := rfl
@[simp] theorem granules_modLink (s : State) (k : Nat) (f : Link → Link) : (s.modLink k f).granules = s.granules := rfl
@[simp] theorem downLinks_modLink (s : State) (k : Nat) (f : Link → Link) : (s.modLink k f).downLinks = s.downLinks := rfl
@[simp] theorem steward_modLink (s : State) (k : Nat) (f : Link → Link) : (s.modLink k f).steward = s.steward := rfl
@[simp] theorem readOut_modLink (s : State) (k : Nat) (f : Link → Link) : (s.modLink k f).readOut = s.readOut := rfl
@[simp] theorem nextId_modLink (s : State) (k : Nat) (f : Link → Link) : (s.modLink k f).nextId = s.nextId := rfl
@[simp] theorem slot_modLink (s : State) (k : Nat) (f : Link → Link) (c : Nat) : (s.modLink k f).slot c = s.slot c := rfl
@[simp] theorem core_modLink (s : State) (k : Nat) (f : Link → Link) (c : Nat) : (s.modLink k f).core c = s.core c := rfl
@[simp] theorem cluster_modLink (s : State) (k : Nat) (f : Link → Link) (c : Nat) : (s.modLink k f).cluster c = s.cluster c := rfl
@[simp] theorem die_modLink (s : State) (k : Nat) (f : Link → Link) (c : Nat) : (s.modLink k f).die c = s.die c := rfl
@[simp] theorem polder_modLink (s : State) (k : Nat) (f : Link → Link) (c : Nat) : (s.modLink k f).polder c = s.polder c := rfl
@[simp] theorem me_modLink (s : State) (k : Nat) (f : Link → Link) : (s.modLink k f).me = s.me := rfl

/-! ## modMe -/

@[simp] theorem cycle_modMe (s : State) (f : Slot → Slot) : (s.modMe f).cycle = s.cycle := rfl
@[simp] theorem cursor_modMe (s : State) (f : Slot → Slot) : (s.modMe f).cursor = s.cursor := rfl
@[simp] theorem agenda_modMe (s : State) (f : Slot → Slot) : (s.modMe f).agenda = s.agenda := rfl
@[simp] theorem free_modMe (s : State) (f : Slot → Slot) : (s.modMe f).free = s.free := rfl
@[simp] theorem cur_modMe (s : State) (f : Slot → Slot) : (s.modMe f).cur = s.cur := rfl
@[simp] theorem iss_modMe (s : State) (f : Slot → Slot) : (s.modMe f).iss = s.iss := rfl
@[simp] theorem moduleNo_modMe (s : State) (f : Slot → Slot) : (s.modMe f).moduleNo = s.moduleNo := rfl
@[simp] theorem cores_modMe (s : State) (f : Slot → Slot) : (s.modMe f).cores = s.cores := rfl
@[simp] theorem clusters_modMe (s : State) (f : Slot → Slot) : (s.modMe f).clusters = s.clusters := rfl
@[simp] theorem dies_modMe (s : State) (f : Slot → Slot) : (s.modMe f).dies = s.dies := rfl
@[simp] theorem polders_modMe (s : State) (f : Slot → Slot) : (s.modMe f).polders = s.polders := rfl
@[simp] theorem links_modMe (s : State) (f : Slot → Slot) : (s.modMe f).links = s.links := rfl
@[simp] theorem mem_modMe (s : State) (f : Slot → Slot) : (s.modMe f).mem = s.mem := rfl
@[simp] theorem hbm_modMe (s : State) (f : Slot → Slot) : (s.modMe f).hbm = s.hbm := rfl
@[simp] theorem poison_modMe (s : State) (f : Slot → Slot) : (s.modMe f).poison = s.poison := rfl
@[simp] theorem flipped_modMe (s : State) (f : Slot → Slot) : (s.modMe f).flipped = s.flipped := rfl
@[simp] theorem granules_modMe (s : State) (f : Slot → Slot) : (s.modMe f).granules = s.granules := rfl
@[simp] theorem downLinks_modMe (s : State) (f : Slot → Slot) : (s.modMe f).downLinks = s.downLinks := rfl
@[simp] theorem steward_modMe (s : State) (f : Slot → Slot) : (s.modMe f).steward = s.steward := rfl
@[simp] theorem readOut_modMe (s : State) (f : Slot → Slot) : (s.modMe f).readOut = s.readOut := rfl
@[simp] theorem nextId_modMe (s : State) (f : Slot → Slot) : (s.modMe f).nextId = s.nextId := rfl
@[simp] theorem core_modMe (s : State) (f : Slot → Slot) (k : Nat) : (s.modMe f).core k = s.core k := rfl
@[simp] theorem cluster_modMe (s : State) (f : Slot → Slot) (k : Nat) : (s.modMe f).cluster k = s.cluster k := rfl
@[simp] theorem die_modMe (s : State) (f : Slot → Slot) (k : Nat) : (s.modMe f).die k = s.die k := rfl
@[simp] theorem polder_modMe (s : State) (f : Slot → Slot) (k : Nat) : (s.modMe f).polder k = s.polder k := rfl
@[simp] theorem link_modMe (s : State) (f : Slot → Slot) (k : Nat) : (s.modMe f).link k = s.link k := rfl

/-! ## tick -/

@[simp] theorem cycle_tick (s : State) : s.tick.cycle = s.cycle := rfl
@[simp] theorem cursor_tick (s : State) : s.tick.cursor = s.cursor := rfl
@[simp] theorem agenda_tick (s : State) : s.tick.agenda = s.agenda := rfl
@[simp] theorem cur_tick (s : State) : s.tick.cur = s.cur := rfl
@[simp] theorem iss_tick (s : State) : s.tick.iss = s.iss := rfl
@[simp] theorem moduleNo_tick (s : State) : s.tick.moduleNo = s.moduleNo := rfl
@[simp] theorem slots_tick (s : State) : s.tick.slots = s.slots := rfl
@[simp] theorem cores_tick (s : State) : s.tick.cores = s.cores := rfl
@[simp] theorem clusters_tick (s : State) : s.tick.clusters = s.clusters := rfl
@[simp] theorem dies_tick (s : State) : s.tick.dies = s.dies := rfl
@[simp] theorem polders_tick (s : State) : s.tick.polders = s.polders := rfl
@[simp] theorem links_tick (s : State) : s.tick.links = s.links := rfl
@[simp] theorem mem_tick (s : State) : s.tick.mem = s.mem := rfl
@[simp] theorem hbm_tick (s : State) : s.tick.hbm = s.hbm := rfl
@[simp] theorem poison_tick (s : State) : s.tick.poison = s.poison := rfl
@[simp] theorem flipped_tick (s : State) : s.tick.flipped = s.flipped := rfl
@[simp] theorem granules_tick (s : State) : s.tick.granules = s.granules := rfl
@[simp] theorem downLinks_tick (s : State) : s.tick.downLinks = s.downLinks := rfl
@[simp] theorem steward_tick (s : State) : s.tick.steward = s.steward := rfl
@[simp] theorem readOut_tick (s : State) : s.tick.readOut = s.readOut := rfl
@[simp] theorem nextId_tick (s : State) : s.tick.nextId = s.nextId := rfl
@[simp] theorem slot_tick (s : State) (k : Nat) : s.tick.slot k = s.slot k := rfl
@[simp] theorem core_tick (s : State) (k : Nat) : s.tick.core k = s.core k := rfl
@[simp] theorem cluster_tick (s : State) (k : Nat) : s.tick.cluster k = s.cluster k := rfl
@[simp] theorem die_tick (s : State) (k : Nat) : s.tick.die k = s.die k := rfl
@[simp] theorem polder_tick (s : State) (k : Nat) : s.tick.polder k = s.polder k := rfl
@[simp] theorem link_tick (s : State) (k : Nat) : s.tick.link k = s.link k := rfl
@[simp] theorem me_tick (s : State) : s.tick.me = s.me := rfl

/-! ## freshId -/

@[simp] theorem cycle_freshId (s : State) : s.freshId.cycle = s.cycle := rfl
@[simp] theorem cursor_freshId (s : State) : s.freshId.cursor = s.cursor := rfl
@[simp] theorem agenda_freshId (s : State) : s.freshId.agenda = s.agenda := rfl
@[simp] theorem free_freshId (s : State) : s.freshId.free = s.free := rfl
@[simp] theorem cur_freshId (s : State) : s.freshId.cur = s.cur := rfl
@[simp] theorem iss_freshId (s : State) : s.freshId.iss = s.iss := rfl
@[simp] theorem moduleNo_freshId (s : State) : s.freshId.moduleNo = s.moduleNo := rfl
@[simp] theorem slots_freshId (s : State) : s.freshId.slots = s.slots := rfl
@[simp] theorem cores_freshId (s : State) : s.freshId.cores = s.cores := rfl
@[simp] theorem clusters_freshId (s : State) : s.freshId.clusters = s.clusters := rfl
@[simp] theorem dies_freshId (s : State) : s.freshId.dies = s.dies := rfl
@[simp] theorem polders_freshId (s : State) : s.freshId.polders = s.polders := rfl
@[simp] theorem links_freshId (s : State) : s.freshId.links = s.links := rfl
@[simp] theorem mem_freshId (s : State) : s.freshId.mem = s.mem := rfl
@[simp] theorem hbm_freshId (s : State) : s.freshId.hbm = s.hbm := rfl
@[simp] theorem poison_freshId (s : State) : s.freshId.poison = s.poison := rfl
@[simp] theorem flipped_freshId (s : State) : s.freshId.flipped = s.flipped := rfl
@[simp] theorem granules_freshId (s : State) : s.freshId.granules = s.granules := rfl
@[simp] theorem downLinks_freshId (s : State) : s.freshId.downLinks = s.downLinks := rfl
@[simp] theorem steward_freshId (s : State) : s.freshId.steward = s.steward := rfl
@[simp] theorem readOut_freshId (s : State) : s.freshId.readOut = s.readOut := rfl
@[simp] theorem slot_freshId (s : State) (k : Nat) : s.freshId.slot k = s.slot k := rfl
@[simp] theorem core_freshId (s : State) (k : Nat) : s.freshId.core k = s.core k := rfl
@[simp] theorem cluster_freshId (s : State) (k : Nat) : s.freshId.cluster k = s.cluster k := rfl
@[simp] theorem die_freshId (s : State) (k : Nat) : s.freshId.die k = s.die k := rfl
@[simp] theorem polder_freshId (s : State) (k : Nat) : s.freshId.polder k = s.polder k := rfl
@[simp] theorem link_freshId (s : State) (k : Nat) : s.freshId.link k = s.link k := rfl
@[simp] theorem me_freshId (s : State) : s.freshId.me = s.me := rfl

/-! ## at_ -/

@[simp] theorem cycle_at_ (s : State) (due : Nat) (i : Event) : (s.at_ due i).cycle = s.cycle := rfl
@[simp] theorem cursor_at_ (s : State) (due : Nat) (i : Event) : (s.at_ due i).cursor = s.cursor := rfl
@[simp] theorem free_at_ (s : State) (due : Nat) (i : Event) : (s.at_ due i).free = s.free := rfl
@[simp] theorem cur_at_ (s : State) (due : Nat) (i : Event) : (s.at_ due i).cur = s.cur := rfl
@[simp] theorem iss_at_ (s : State) (due : Nat) (i : Event) : (s.at_ due i).iss = s.iss := rfl
@[simp] theorem moduleNo_at_ (s : State) (due : Nat) (i : Event) : (s.at_ due i).moduleNo = s.moduleNo := rfl
@[simp] theorem slots_at_ (s : State) (due : Nat) (i : Event) : (s.at_ due i).slots = s.slots := rfl
@[simp] theorem cores_at_ (s : State) (due : Nat) (i : Event) : (s.at_ due i).cores = s.cores := rfl
@[simp] theorem clusters_at_ (s : State) (due : Nat) (i : Event) : (s.at_ due i).clusters = s.clusters := rfl
@[simp] theorem dies_at_ (s : State) (due : Nat) (i : Event) : (s.at_ due i).dies = s.dies := rfl
@[simp] theorem polders_at_ (s : State) (due : Nat) (i : Event) : (s.at_ due i).polders = s.polders := rfl
@[simp] theorem links_at_ (s : State) (due : Nat) (i : Event) : (s.at_ due i).links = s.links := rfl
@[simp] theorem mem_at_ (s : State) (due : Nat) (i : Event) : (s.at_ due i).mem = s.mem := rfl
@[simp] theorem hbm_at_ (s : State) (due : Nat) (i : Event) : (s.at_ due i).hbm = s.hbm := rfl
@[simp] theorem poison_at_ (s : State) (due : Nat) (i : Event) : (s.at_ due i).poison = s.poison := rfl
@[simp] theorem flipped_at_ (s : State) (due : Nat) (i : Event) : (s.at_ due i).flipped = s.flipped := rfl
@[simp] theorem granules_at_ (s : State) (due : Nat) (i : Event) : (s.at_ due i).granules = s.granules := rfl
@[simp] theorem downLinks_at_ (s : State) (due : Nat) (i : Event) : (s.at_ due i).downLinks = s.downLinks := rfl
@[simp] theorem steward_at_ (s : State) (due : Nat) (i : Event) : (s.at_ due i).steward = s.steward := rfl
@[simp] theorem readOut_at_ (s : State) (due : Nat) (i : Event) : (s.at_ due i).readOut = s.readOut := rfl
@[simp] theorem nextId_at_ (s : State) (due : Nat) (i : Event) : (s.at_ due i).nextId = s.nextId := rfl
@[simp] theorem slot_at_ (s : State) (due : Nat) (i : Event) (k : Nat) : (s.at_ due i).slot k = s.slot k := rfl
@[simp] theorem core_at_ (s : State) (due : Nat) (i : Event) (k : Nat) : (s.at_ due i).core k = s.core k := rfl
@[simp] theorem cluster_at_ (s : State) (due : Nat) (i : Event) (k : Nat) : (s.at_ due i).cluster k = s.cluster k := rfl
@[simp] theorem die_at_ (s : State) (due : Nat) (i : Event) (k : Nat) : (s.at_ due i).die k = s.die k := rfl
@[simp] theorem polder_at_ (s : State) (due : Nat) (i : Event) (k : Nat) : (s.at_ due i).polder k = s.polder k := rfl
@[simp] theorem link_at_ (s : State) (due : Nat) (i : Event) (k : Nat) : (s.at_ due i).link k = s.link k := rfl
@[simp] theorem me_at_ (s : State) (due : Nat) (i : Event) : (s.at_ due i).me = s.me := rfl

/-! ## next1 -/

@[simp] theorem cycle_next1 (s : State) (i : Event) : (s.next1 i).cycle = s.cycle := rfl
@[simp] theorem cursor_next1 (s : State) (i : Event) : (s.next1 i).cursor = s.cursor := rfl
@[simp] theorem free_next1 (s : State) (i : Event) : (s.next1 i).free = s.free := rfl
@[simp] theorem cur_next1 (s : State) (i : Event) : (s.next1 i).cur = s.cur := rfl
@[simp] theorem iss_next1 (s : State) (i : Event) : (s.next1 i).iss = s.iss := rfl
@[simp] theorem moduleNo_next1 (s : State) (i : Event) : (s.next1 i).moduleNo = s.moduleNo := rfl
@[simp] theorem slots_next1 (s : State) (i : Event) : (s.next1 i).slots = s.slots := rfl
@[simp] theorem cores_next1 (s : State) (i : Event) : (s.next1 i).cores = s.cores := rfl
@[simp] theorem clusters_next1 (s : State) (i : Event) : (s.next1 i).clusters = s.clusters := rfl
@[simp] theorem dies_next1 (s : State) (i : Event) : (s.next1 i).dies = s.dies := rfl
@[simp] theorem polders_next1 (s : State) (i : Event) : (s.next1 i).polders = s.polders := rfl
@[simp] theorem links_next1 (s : State) (i : Event) : (s.next1 i).links = s.links := rfl
@[simp] theorem mem_next1 (s : State) (i : Event) : (s.next1 i).mem = s.mem := rfl
@[simp] theorem hbm_next1 (s : State) (i : Event) : (s.next1 i).hbm = s.hbm := rfl
@[simp] theorem poison_next1 (s : State) (i : Event) : (s.next1 i).poison = s.poison := rfl
@[simp] theorem flipped_next1 (s : State) (i : Event) : (s.next1 i).flipped = s.flipped := rfl
@[simp] theorem granules_next1 (s : State) (i : Event) : (s.next1 i).granules = s.granules := rfl
@[simp] theorem downLinks_next1 (s : State) (i : Event) : (s.next1 i).downLinks = s.downLinks := rfl
@[simp] theorem steward_next1 (s : State) (i : Event) : (s.next1 i).steward = s.steward := rfl
@[simp] theorem readOut_next1 (s : State) (i : Event) : (s.next1 i).readOut = s.readOut := rfl
@[simp] theorem nextId_next1 (s : State) (i : Event) : (s.next1 i).nextId = s.nextId := rfl
@[simp] theorem slot_next1 (s : State) (i : Event) (k : Nat) : (s.next1 i).slot k = s.slot k := rfl
@[simp] theorem core_next1 (s : State) (i : Event) (k : Nat) : (s.next1 i).core k = s.core k := rfl
@[simp] theorem cluster_next1 (s : State) (i : Event) (k : Nat) : (s.next1 i).cluster k = s.cluster k := rfl
@[simp] theorem die_next1 (s : State) (i : Event) (k : Nat) : (s.next1 i).die k = s.die k := rfl
@[simp] theorem polder_next1 (s : State) (i : Event) (k : Nat) : (s.next1 i).polder k = s.polder k := rfl
@[simp] theorem link_next1 (s : State) (i : Event) (k : Nat) : (s.next1 i).link k = s.link k := rfl
@[simp] theorem me_next1 (s : State) (i : Event) : (s.next1 i).me = s.me := rfl

/-! ## later -/

@[simp] theorem cycle_later (s : State) (path : Nat) (i : Event) : (s.later path i).cycle = s.cycle := rfl
@[simp] theorem cursor_later (s : State) (path : Nat) (i : Event) : (s.later path i).cursor = s.cursor := rfl
@[simp] theorem cur_later (s : State) (path : Nat) (i : Event) : (s.later path i).cur = s.cur := rfl
@[simp] theorem iss_later (s : State) (path : Nat) (i : Event) : (s.later path i).iss = s.iss := rfl
@[simp] theorem moduleNo_later (s : State) (path : Nat) (i : Event) : (s.later path i).moduleNo = s.moduleNo := rfl
@[simp] theorem slots_later (s : State) (path : Nat) (i : Event) : (s.later path i).slots = s.slots := rfl
@[simp] theorem cores_later (s : State) (path : Nat) (i : Event) : (s.later path i).cores = s.cores := rfl
@[simp] theorem clusters_later (s : State) (path : Nat) (i : Event) : (s.later path i).clusters = s.clusters := rfl
@[simp] theorem dies_later (s : State) (path : Nat) (i : Event) : (s.later path i).dies = s.dies := rfl
@[simp] theorem polders_later (s : State) (path : Nat) (i : Event) : (s.later path i).polders = s.polders := rfl
@[simp] theorem links_later (s : State) (path : Nat) (i : Event) : (s.later path i).links = s.links := rfl
@[simp] theorem mem_later (s : State) (path : Nat) (i : Event) : (s.later path i).mem = s.mem := rfl
@[simp] theorem hbm_later (s : State) (path : Nat) (i : Event) : (s.later path i).hbm = s.hbm := rfl
@[simp] theorem poison_later (s : State) (path : Nat) (i : Event) : (s.later path i).poison = s.poison := rfl
@[simp] theorem flipped_later (s : State) (path : Nat) (i : Event) : (s.later path i).flipped = s.flipped := rfl
@[simp] theorem granules_later (s : State) (path : Nat) (i : Event) : (s.later path i).granules = s.granules := rfl
@[simp] theorem downLinks_later (s : State) (path : Nat) (i : Event) : (s.later path i).downLinks = s.downLinks := rfl
@[simp] theorem steward_later (s : State) (path : Nat) (i : Event) : (s.later path i).steward = s.steward := rfl
@[simp] theorem readOut_later (s : State) (path : Nat) (i : Event) : (s.later path i).readOut = s.readOut := rfl
@[simp] theorem nextId_later (s : State) (path : Nat) (i : Event) : (s.later path i).nextId = s.nextId := rfl
@[simp] theorem slot_later (s : State) (path : Nat) (i : Event) (k : Nat) : (s.later path i).slot k = s.slot k := rfl
@[simp] theorem core_later (s : State) (path : Nat) (i : Event) (k : Nat) : (s.later path i).core k = s.core k := rfl
@[simp] theorem cluster_later (s : State) (path : Nat) (i : Event) (k : Nat) : (s.later path i).cluster k = s.cluster k := rfl
@[simp] theorem die_later (s : State) (path : Nat) (i : Event) (k : Nat) : (s.later path i).die k = s.die k := rfl
@[simp] theorem polder_later (s : State) (path : Nat) (i : Event) (k : Nat) : (s.later path i).polder k = s.polder k := rfl
@[simp] theorem link_later (s : State) (path : Nat) (i : Event) (k : Nat) : (s.later path i).link k = s.link k := rfl
@[simp] theorem me_later (s : State) (path : Nat) (i : Event) : (s.later path i).me = s.me := rfl

/-! ## within -/

@[simp] theorem cycle_within (s : State) (path most : Nat) (i : Event) : (s.within path most i).cycle = s.cycle := rfl
@[simp] theorem cursor_within (s : State) (path most : Nat) (i : Event) : (s.within path most i).cursor = s.cursor := rfl
@[simp] theorem cur_within (s : State) (path most : Nat) (i : Event) : (s.within path most i).cur = s.cur := rfl
@[simp] theorem iss_within (s : State) (path most : Nat) (i : Event) : (s.within path most i).iss = s.iss := rfl
@[simp] theorem moduleNo_within (s : State) (path most : Nat) (i : Event) : (s.within path most i).moduleNo = s.moduleNo := rfl
@[simp] theorem slots_within (s : State) (path most : Nat) (i : Event) : (s.within path most i).slots = s.slots := rfl
@[simp] theorem cores_within (s : State) (path most : Nat) (i : Event) : (s.within path most i).cores = s.cores := rfl
@[simp] theorem clusters_within (s : State) (path most : Nat) (i : Event) : (s.within path most i).clusters = s.clusters := rfl
@[simp] theorem dies_within (s : State) (path most : Nat) (i : Event) : (s.within path most i).dies = s.dies := rfl
@[simp] theorem polders_within (s : State) (path most : Nat) (i : Event) : (s.within path most i).polders = s.polders := rfl
@[simp] theorem links_within (s : State) (path most : Nat) (i : Event) : (s.within path most i).links = s.links := rfl
@[simp] theorem mem_within (s : State) (path most : Nat) (i : Event) : (s.within path most i).mem = s.mem := rfl
@[simp] theorem hbm_within (s : State) (path most : Nat) (i : Event) : (s.within path most i).hbm = s.hbm := rfl
@[simp] theorem poison_within (s : State) (path most : Nat) (i : Event) : (s.within path most i).poison = s.poison := rfl
@[simp] theorem flipped_within (s : State) (path most : Nat) (i : Event) : (s.within path most i).flipped = s.flipped := rfl
@[simp] theorem granules_within (s : State) (path most : Nat) (i : Event) : (s.within path most i).granules = s.granules := rfl
@[simp] theorem downLinks_within (s : State) (path most : Nat) (i : Event) : (s.within path most i).downLinks = s.downLinks := rfl
@[simp] theorem steward_within (s : State) (path most : Nat) (i : Event) : (s.within path most i).steward = s.steward := rfl
@[simp] theorem readOut_within (s : State) (path most : Nat) (i : Event) : (s.within path most i).readOut = s.readOut := rfl
@[simp] theorem nextId_within (s : State) (path most : Nat) (i : Event) : (s.within path most i).nextId = s.nextId := rfl
@[simp] theorem slot_within (s : State) (path most : Nat) (i : Event) (k : Nat) : (s.within path most i).slot k = s.slot k := rfl
@[simp] theorem core_within (s : State) (path most : Nat) (i : Event) (k : Nat) : (s.within path most i).core k = s.core k := rfl
@[simp] theorem cluster_within (s : State) (path most : Nat) (i : Event) (k : Nat) : (s.within path most i).cluster k = s.cluster k := rfl
@[simp] theorem die_within (s : State) (path most : Nat) (i : Event) (k : Nat) : (s.within path most i).die k = s.die k := rfl
@[simp] theorem polder_within (s : State) (path most : Nat) (i : Event) (k : Nat) : (s.within path most i).polder k = s.polder k := rfl
@[simp] theorem link_within (s : State) (path most : Nat) (i : Event) (k : Nat) : (s.within path most i).link k = s.link k := rfl
@[simp] theorem me_within (s : State) (path most : Nat) (i : Event) : (s.within path most i).me = s.me := rfl

/-! ## pokeMem -/

@[simp] theorem cycle_pokeMem (s : State) (pa : Nat) (bs : List Byte) : (s.pokeMem pa bs).cycle = s.cycle := rfl
@[simp] theorem cursor_pokeMem (s : State) (pa : Nat) (bs : List Byte) : (s.pokeMem pa bs).cursor = s.cursor := rfl
@[simp] theorem agenda_pokeMem (s : State) (pa : Nat) (bs : List Byte) : (s.pokeMem pa bs).agenda = s.agenda := rfl
@[simp] theorem free_pokeMem (s : State) (pa : Nat) (bs : List Byte) : (s.pokeMem pa bs).free = s.free := rfl
@[simp] theorem cur_pokeMem (s : State) (pa : Nat) (bs : List Byte) : (s.pokeMem pa bs).cur = s.cur := rfl
@[simp] theorem iss_pokeMem (s : State) (pa : Nat) (bs : List Byte) : (s.pokeMem pa bs).iss = s.iss := rfl
@[simp] theorem moduleNo_pokeMem (s : State) (pa : Nat) (bs : List Byte) : (s.pokeMem pa bs).moduleNo = s.moduleNo := rfl
@[simp] theorem slots_pokeMem (s : State) (pa : Nat) (bs : List Byte) : (s.pokeMem pa bs).slots = s.slots := rfl
@[simp] theorem cores_pokeMem (s : State) (pa : Nat) (bs : List Byte) : (s.pokeMem pa bs).cores = s.cores := rfl
@[simp] theorem clusters_pokeMem (s : State) (pa : Nat) (bs : List Byte) : (s.pokeMem pa bs).clusters = s.clusters := rfl
@[simp] theorem dies_pokeMem (s : State) (pa : Nat) (bs : List Byte) : (s.pokeMem pa bs).dies = s.dies := rfl
@[simp] theorem polders_pokeMem (s : State) (pa : Nat) (bs : List Byte) : (s.pokeMem pa bs).polders = s.polders := rfl
@[simp] theorem links_pokeMem (s : State) (pa : Nat) (bs : List Byte) : (s.pokeMem pa bs).links = s.links := rfl
@[simp] theorem hbm_pokeMem (s : State) (pa : Nat) (bs : List Byte) : (s.pokeMem pa bs).hbm = s.hbm := rfl
@[simp] theorem poison_pokeMem (s : State) (pa : Nat) (bs : List Byte) : (s.pokeMem pa bs).poison = s.poison := rfl
@[simp] theorem flipped_pokeMem (s : State) (pa : Nat) (bs : List Byte) : (s.pokeMem pa bs).flipped = s.flipped := rfl
@[simp] theorem granules_pokeMem (s : State) (pa : Nat) (bs : List Byte) : (s.pokeMem pa bs).granules = s.granules := rfl
@[simp] theorem downLinks_pokeMem (s : State) (pa : Nat) (bs : List Byte) : (s.pokeMem pa bs).downLinks = s.downLinks := rfl
@[simp] theorem steward_pokeMem (s : State) (pa : Nat) (bs : List Byte) : (s.pokeMem pa bs).steward = s.steward := rfl
@[simp] theorem readOut_pokeMem (s : State) (pa : Nat) (bs : List Byte) : (s.pokeMem pa bs).readOut = s.readOut := rfl
@[simp] theorem nextId_pokeMem (s : State) (pa : Nat) (bs : List Byte) : (s.pokeMem pa bs).nextId = s.nextId := rfl
@[simp] theorem slot_pokeMem (s : State) (pa : Nat) (bs : List Byte) (k : Nat) : (s.pokeMem pa bs).slot k = s.slot k := rfl
@[simp] theorem core_pokeMem (s : State) (pa : Nat) (bs : List Byte) (k : Nat) : (s.pokeMem pa bs).core k = s.core k := rfl
@[simp] theorem cluster_pokeMem (s : State) (pa : Nat) (bs : List Byte) (k : Nat) : (s.pokeMem pa bs).cluster k = s.cluster k := rfl
@[simp] theorem die_pokeMem (s : State) (pa : Nat) (bs : List Byte) (k : Nat) : (s.pokeMem pa bs).die k = s.die k := rfl
@[simp] theorem polder_pokeMem (s : State) (pa : Nat) (bs : List Byte) (k : Nat) : (s.pokeMem pa bs).polder k = s.polder k := rfl
@[simp] theorem link_pokeMem (s : State) (pa : Nat) (bs : List Byte) (k : Nat) : (s.pokeMem pa bs).link k = s.link k := rfl
@[simp] theorem me_pokeMem (s : State) (pa : Nat) (bs : List Byte) : (s.pokeMem pa bs).me = s.me := rfl

@[simp] theorem slot_withIss (s : State) (i : Issue) (k : Nat) : ({ s with iss := i } : State).slot k = s.slot k := rfl
@[simp] theorem me_withIss (s : State) (i : Issue) : ({ s with iss := i } : State).me = s.me := rfl
@[simp] theorem free_tick (s : State) : s.tick.free = s.free + 1 := rfl
@[simp] theorem nextId_freshId (s : State) : s.freshId.nextId = s.nextId + 1 := rfl
@[simp] theorem free_later (s : State) (path : Nat) (i : Event) : (s.later path i).free = s.free + 1 := rfl
@[simp] theorem agenda_at_ (s : State) (due : Nat) (i : Event) : (s.at_ due i).agenda = agendaIns s.agenda due i := rfl
@[simp] theorem agenda_next1 (s : State) (i : Event) : (s.next1 i).agenda = agendaIns s.agenda (s.cycle + 1) i := rfl
@[simp] theorem mem_pokeMem (s : State) (pa : Nat) (bs : List Byte) : (s.pokeMem pa bs).mem = cellWrite s.mem pa bs := rfl

end State

/-! ## Registers of one slot -/

namespace Slot

@[simp] theorem state_putX (sl : Slot) (r : Reg) (w : Word) : (sl.putX r w).state = sl.state := by unfold putX; split <;> rfl
@[simp] theorem saved_putX (sl : Slot) (r : Reg) (w : Word) : (sl.putX r w).saved = sl.saved := by unfold putX; split <;> rfl
@[simp] theorem pc_putX (sl : Slot) (r : Reg) (w : Word) : (sl.putX r w).pc = sl.pc := by unfold putX; split <;> rfl
@[simp] theorem npc_putX (sl : Slot) (r : Reg) (w : Word) : (sl.putX r w).npc = sl.npc := by unfold putX; split <;> rfl
@[simp] theorem v_putX (sl : Slot) (r : Reg) (w : Word) : (sl.putX r w).v = sl.v := by unfold putX; split <;> rfl
@[simp] theorem streams_putX (sl : Slot) (r : Reg) (w : Word) : (sl.putX r w).streams = sl.streams := by unfold putX; split <;> rfl
@[simp] theorem pending_putX (sl : Slot) (r : Reg) (w : Word) : (sl.putX r w).pending = sl.pending := by unfold putX; split <;> rfl
@[simp] theorem prio_putX (sl : Slot) (r : Reg) (w : Word) : (sl.putX r w).prio = sl.prio := by unfold putX; split <;> rfl
@[simp] theorem inh_putX (sl : Slot) (r : Reg) (w : Word) : (sl.putX r w).inh = sl.inh := by unfold putX; split <;> rfl
@[simp] theorem clamp_putX (sl : Slot) (r : Reg) (w : Word) : (sl.putX r w).clamp = sl.clamp := by unfold putX; split <;> rfl
@[simp] theorem epc_putX (sl : Slot) (r : Reg) (w : Word) : (sl.putX r w).epc = sl.epc := by unfold putX; split <;> rfl
@[simp] theorem cause_putX (sl : Slot) (r : Reg) (w : Word) : (sl.putX r w).cause = sl.cause := by unfold putX; split <;> rfl
@[simp] theorem tval_putX (sl : Slot) (r : Reg) (w : Word) : (sl.putX r w).tval = sl.tval := by unfold putX; split <;> rfl
@[simp] theorem estatus_putX (sl : Slot) (r : Reg) (w : Word) : (sl.putX r w).estatus = sl.estatus := by unfold putX; split <;> rfl
@[simp] theorem tvec_putX (sl : Slot) (r : Reg) (w : Word) : (sl.putX r w).tvec = sl.tvec := by unfold putX; split <;> rfl
@[simp] theorem arg0_putX (sl : Slot) (r : Reg) (w : Word) : (sl.putX r w).arg0 = sl.arg0 := by unfold putX; split <;> rfl
@[simp] theorem arg1_putX (sl : Slot) (r : Reg) (w : Word) : (sl.putX r w).arg1 = sl.arg1 := by unfold putX; split <;> rfl
@[simp] theorem done_putX (sl : Slot) (r : Reg) (w : Word) : (sl.putX r w).done = sl.done := by unfold putX; split <;> rfl
@[simp] theorem groups_putX (sl : Slot) (r : Reg) (w : Word) : (sl.putX r w).groups = sl.groups := by unfold putX; split <;> rfl
@[simp] theorem launch_putX (sl : Slot) (r : Reg) (w : Word) : (sl.putX r w).launch = sl.launch := by unfold putX; split <;> rfl
@[simp] theorem round_putX (sl : Slot) (r : Reg) (w : Word) : (sl.putX r w).round = sl.round := by unfold putX; split <;> rfl
@[simp] theorem fflags_putX (sl : Slot) (r : Reg) (w : Word) : (sl.putX r w).fflags = sl.fflags := by unfold putX; split <;> rfl
@[simp] theorem modq_putX (sl : Slot) (r : Reg) (w : Word) : (sl.putX r w).modq = sl.modq := by unfold putX; split <;> rfl
@[simp] theorem tkerr_putX (sl : Slot) (r : Reg) (w : Word) : (sl.putX r w).tkerr = sl.tkerr := by unfold putX; split <;> rfl
@[simp] theorem logical_putX (sl : Slot) (r : Reg) (w : Word) : (sl.putX r w).logical = sl.logical := by unfold putX; split <;> rfl
@[simp] theorem world_putX (sl : Slot) (r : Reg) (w : Word) : (sl.putX r w).world = sl.world := by unfold putX; split <;> rfl
@[simp] theorem lsbase_putX (sl : Slot) (r : Reg) (w : Word) : (sl.putX r w).lsbase = sl.lsbase := by unfold putX; split <;> rfl
@[simp] theorem lsbound_putX (sl : Slot) (r : Reg) (w : Word) : (sl.putX r w).lsbound = sl.lsbound := by unfold putX; split <;> rfl
@[simp] theorem bbcbase_putX (sl : Slot) (r : Reg) (w : Word) : (sl.putX r w).bbcbase = sl.bbcbase := by unfold putX; split <;> rfl
@[simp] theorem ctxNum_putX (sl : Slot) (r : Reg) (w : Word) : (sl.putX r w).ctxNum = sl.ctxNum := by unfold putX; split <;> rfl
@[simp] theorem seeded_putX (sl : Slot) (r : Reg) (w : Word) : (sl.putX r w).seeded = sl.seeded := by unfold putX; split <;> rfl
@[simp] theorem codeLo_putX (sl : Slot) (r : Reg) (w : Word) : (sl.putX r w).codeLo = sl.codeLo := by unfold putX; split <;> rfl
@[simp] theorem codeHi_putX (sl : Slot) (r : Reg) (w : Word) : (sl.putX r w).codeHi = sl.codeHi := by unfold putX; split <;> rfl
@[simp] theorem alarm_putX (sl : Slot) (r : Reg) (w : Word) : (sl.putX r w).alarm = sl.alarm := by unfold putX; split <;> rfl
@[simp] theorem undelivered_putX (sl : Slot) (r : Reg) (w : Word) : (sl.putX r w).undelivered = sl.undelivered := by unfold putX; split <;> rfl
@[simp] theorem stopPending_putX (sl : Slot) (r : Reg) (w : Word) : (sl.putX r w).stopPending = sl.stopPending := by unfold putX; split <;> rfl
@[simp] theorem stepping_putX (sl : Slot) (r : Reg) (w : Word) : (sl.putX r w).stepping = sl.stepping := by unfold putX; split <;> rfl
@[simp] theorem longUntil_putX (sl : Slot) (r : Reg) (w : Word) : (sl.putX r w).longUntil = sl.longUntil := by unfold putX; split <;> rfl
@[simp] theorem sliceUsed_putX (sl : Slot) (r : Reg) (w : Word) : (sl.putX r w).sliceUsed = sl.sliceUsed := by unfold putX; split <;> rfl
@[simp] theorem installedAt_putX (sl : Slot) (r : Reg) (w : Word) : (sl.putX r w).installedAt = sl.installedAt := by unfold putX; split <;> rfl
@[simp] theorem lastInstall_putX (sl : Slot) (r : Reg) (w : Word) : (sl.putX r w).lastInstall = sl.lastInstall := by unfold putX; split <;> rfl
@[simp] theorem waitSince_putX (sl : Slot) (r : Reg) (w : Word) : (sl.putX r w).waitSince = sl.waitSince := by unfold putX; split <;> rfl
@[simp] theorem wdogPosted_putX (sl : Slot) (r : Reg) (w : Word) : (sl.putX r w).wdogPosted = sl.wdogPosted := by unfold putX; split <;> rfl
@[simp] theorem wait_putX (sl : Slot) (r : Reg) (w : Word) : (sl.putX r w).wait = sl.wait := by unfold putX; split <;> rfl
@[simp] theorem held_putX (sl : Slot) (r : Reg) (w : Word) : (sl.putX r w).held = sl.held := by unfold putX; split <;> rfl
@[simp] theorem streamsRead_putX (sl : Slot) (r : Reg) (w : Word) : (sl.putX r w).streamsRead = sl.streamsRead := by unfold putX; split <;> rfl
@[simp] theorem bundle_putX (sl : Slot) (r : Reg) (w : Word) : (sl.putX r w).bundle = sl.bundle := by unfold putX; split <;> rfl
@[simp] theorem accCur_putX (sl : Slot) (r : Reg) (w : Word) : (sl.putX r w).accCur = sl.accCur := by unfold putX; split <;> rfl
@[simp] theorem accPrev_putX (sl : Slot) (r : Reg) (w : Word) : (sl.putX r w).accPrev = sl.accPrev := by unfold putX; split <;> rfl
@[simp] theorem fenceRel_putX (sl : Slot) (r : Reg) (w : Word) : (sl.putX r w).fenceRel = sl.fenceRel := by unfold putX; split <;> rfl
@[simp] theorem tokenSigs_putX (sl : Slot) (r : Reg) (w : Word) : (sl.putX r w).tokenSigs = sl.tokenSigs := by unfold putX; split <;> rfl
@[simp] theorem outstanding_putX (sl : Slot) (r : Reg) (w : Word) : (sl.putX r w).outstanding = sl.outstanding := by unfold putX; split <;> rfl
@[simp] theorem addSent_putX (sl : Slot) (r : Reg) (w : Word) : (sl.putX r w).addSent = sl.addSent := by unfold putX; split <;> rfl
@[simp] theorem doomed_putX (sl : Slot) (r : Reg) (w : Word) : (sl.putX r w).doomed = sl.doomed := by unfold putX; split <;> rfl
@[simp] theorem state_putV (sl : Slot) (r : Reg) (w : Vec) : (sl.putV r w).state = sl.state := rfl
@[simp] theorem saved_putV (sl : Slot) (r : Reg) (w : Vec) : (sl.putV r w).saved = sl.saved := rfl
@[simp] theorem pc_putV (sl : Slot) (r : Reg) (w : Vec) : (sl.putV r w).pc = sl.pc := rfl
@[simp] theorem npc_putV (sl : Slot) (r : Reg) (w : Vec) : (sl.putV r w).npc = sl.npc := rfl
@[simp] theorem x_putV (sl : Slot) (r : Reg) (w : Vec) : (sl.putV r w).x = sl.x := rfl
@[simp] theorem streams_putV (sl : Slot) (r : Reg) (w : Vec) : (sl.putV r w).streams = sl.streams := rfl
@[simp] theorem pending_putV (sl : Slot) (r : Reg) (w : Vec) : (sl.putV r w).pending = sl.pending := rfl
@[simp] theorem prio_putV (sl : Slot) (r : Reg) (w : Vec) : (sl.putV r w).prio = sl.prio := rfl
@[simp] theorem inh_putV (sl : Slot) (r : Reg) (w : Vec) : (sl.putV r w).inh = sl.inh := rfl
@[simp] theorem clamp_putV (sl : Slot) (r : Reg) (w : Vec) : (sl.putV r w).clamp = sl.clamp := rfl
@[simp] theorem epc_putV (sl : Slot) (r : Reg) (w : Vec) : (sl.putV r w).epc = sl.epc := rfl
@[simp] theorem cause_putV (sl : Slot) (r : Reg) (w : Vec) : (sl.putV r w).cause = sl.cause := rfl
@[simp] theorem tval_putV (sl : Slot) (r : Reg) (w : Vec) : (sl.putV r w).tval = sl.tval := rfl
@[simp] theorem estatus_putV (sl : Slot) (r : Reg) (w : Vec) : (sl.putV r w).estatus = sl.estatus := rfl
@[simp] theorem tvec_putV (sl : Slot) (r : Reg) (w : Vec) : (sl.putV r w).tvec = sl.tvec := rfl
@[simp] theorem arg0_putV (sl : Slot) (r : Reg) (w : Vec) : (sl.putV r w).arg0 = sl.arg0 := rfl
@[simp] theorem arg1_putV (sl : Slot) (r : Reg) (w : Vec) : (sl.putV r w).arg1 = sl.arg1 := rfl
@[simp] theorem done_putV (sl : Slot) (r : Reg) (w : Vec) : (sl.putV r w).done = sl.done := rfl
@[simp] theorem groups_putV (sl : Slot) (r : Reg) (w : Vec) : (sl.putV r w).groups = sl.groups := rfl
@[simp] theorem launch_putV (sl : Slot) (r : Reg) (w : Vec) : (sl.putV r w).launch = sl.launch := rfl
@[simp] theorem round_putV (sl : Slot) (r : Reg) (w : Vec) : (sl.putV r w).round = sl.round := rfl
@[simp] theorem fflags_putV (sl : Slot) (r : Reg) (w : Vec) : (sl.putV r w).fflags = sl.fflags := rfl
@[simp] theorem modq_putV (sl : Slot) (r : Reg) (w : Vec) : (sl.putV r w).modq = sl.modq := rfl
@[simp] theorem tkerr_putV (sl : Slot) (r : Reg) (w : Vec) : (sl.putV r w).tkerr = sl.tkerr := rfl
@[simp] theorem logical_putV (sl : Slot) (r : Reg) (w : Vec) : (sl.putV r w).logical = sl.logical := rfl
@[simp] theorem world_putV (sl : Slot) (r : Reg) (w : Vec) : (sl.putV r w).world = sl.world := rfl
@[simp] theorem lsbase_putV (sl : Slot) (r : Reg) (w : Vec) : (sl.putV r w).lsbase = sl.lsbase := rfl
@[simp] theorem lsbound_putV (sl : Slot) (r : Reg) (w : Vec) : (sl.putV r w).lsbound = sl.lsbound := rfl
@[simp] theorem bbcbase_putV (sl : Slot) (r : Reg) (w : Vec) : (sl.putV r w).bbcbase = sl.bbcbase := rfl
@[simp] theorem ctxNum_putV (sl : Slot) (r : Reg) (w : Vec) : (sl.putV r w).ctxNum = sl.ctxNum := rfl
@[simp] theorem seeded_putV (sl : Slot) (r : Reg) (w : Vec) : (sl.putV r w).seeded = sl.seeded := rfl
@[simp] theorem codeLo_putV (sl : Slot) (r : Reg) (w : Vec) : (sl.putV r w).codeLo = sl.codeLo := rfl
@[simp] theorem codeHi_putV (sl : Slot) (r : Reg) (w : Vec) : (sl.putV r w).codeHi = sl.codeHi := rfl
@[simp] theorem alarm_putV (sl : Slot) (r : Reg) (w : Vec) : (sl.putV r w).alarm = sl.alarm := rfl
@[simp] theorem undelivered_putV (sl : Slot) (r : Reg) (w : Vec) : (sl.putV r w).undelivered = sl.undelivered := rfl
@[simp] theorem stopPending_putV (sl : Slot) (r : Reg) (w : Vec) : (sl.putV r w).stopPending = sl.stopPending := rfl
@[simp] theorem stepping_putV (sl : Slot) (r : Reg) (w : Vec) : (sl.putV r w).stepping = sl.stepping := rfl
@[simp] theorem longUntil_putV (sl : Slot) (r : Reg) (w : Vec) : (sl.putV r w).longUntil = sl.longUntil := rfl
@[simp] theorem sliceUsed_putV (sl : Slot) (r : Reg) (w : Vec) : (sl.putV r w).sliceUsed = sl.sliceUsed := rfl
@[simp] theorem installedAt_putV (sl : Slot) (r : Reg) (w : Vec) : (sl.putV r w).installedAt = sl.installedAt := rfl
@[simp] theorem lastInstall_putV (sl : Slot) (r : Reg) (w : Vec) : (sl.putV r w).lastInstall = sl.lastInstall := rfl
@[simp] theorem waitSince_putV (sl : Slot) (r : Reg) (w : Vec) : (sl.putV r w).waitSince = sl.waitSince := rfl
@[simp] theorem wdogPosted_putV (sl : Slot) (r : Reg) (w : Vec) : (sl.putV r w).wdogPosted = sl.wdogPosted := rfl
@[simp] theorem wait_putV (sl : Slot) (r : Reg) (w : Vec) : (sl.putV r w).wait = sl.wait := rfl
@[simp] theorem held_putV (sl : Slot) (r : Reg) (w : Vec) : (sl.putV r w).held = sl.held := rfl
@[simp] theorem streamsRead_putV (sl : Slot) (r : Reg) (w : Vec) : (sl.putV r w).streamsRead = sl.streamsRead := rfl
@[simp] theorem bundle_putV (sl : Slot) (r : Reg) (w : Vec) : (sl.putV r w).bundle = sl.bundle := rfl
@[simp] theorem accCur_putV (sl : Slot) (r : Reg) (w : Vec) : (sl.putV r w).accCur = sl.accCur := rfl
@[simp] theorem accPrev_putV (sl : Slot) (r : Reg) (w : Vec) : (sl.putV r w).accPrev = sl.accPrev := rfl
@[simp] theorem fenceRel_putV (sl : Slot) (r : Reg) (w : Vec) : (sl.putV r w).fenceRel = sl.fenceRel := rfl
@[simp] theorem tokenSigs_putV (sl : Slot) (r : Reg) (w : Vec) : (sl.putV r w).tokenSigs = sl.tokenSigs := rfl
@[simp] theorem outstanding_putV (sl : Slot) (r : Reg) (w : Vec) : (sl.putV r w).outstanding = sl.outstanding := rfl
@[simp] theorem addSent_putV (sl : Slot) (r : Reg) (w : Vec) : (sl.putV r w).addSent = sl.addSent := rfl
@[simp] theorem doomed_putV (sl : Slot) (r : Reg) (w : Vec) : (sl.putV r w).doomed = sl.doomed := rfl
@[simp] theorem state_addFlags (sl : Slot) (f : BitVec 5) : (sl.addFlags f).state = sl.state := rfl
@[simp] theorem saved_addFlags (sl : Slot) (f : BitVec 5) : (sl.addFlags f).saved = sl.saved := rfl
@[simp] theorem pc_addFlags (sl : Slot) (f : BitVec 5) : (sl.addFlags f).pc = sl.pc := rfl
@[simp] theorem npc_addFlags (sl : Slot) (f : BitVec 5) : (sl.addFlags f).npc = sl.npc := rfl
@[simp] theorem x_addFlags (sl : Slot) (f : BitVec 5) : (sl.addFlags f).x = sl.x := rfl
@[simp] theorem v_addFlags (sl : Slot) (f : BitVec 5) : (sl.addFlags f).v = sl.v := rfl
@[simp] theorem streams_addFlags (sl : Slot) (f : BitVec 5) : (sl.addFlags f).streams = sl.streams := rfl
@[simp] theorem pending_addFlags (sl : Slot) (f : BitVec 5) : (sl.addFlags f).pending = sl.pending := rfl
@[simp] theorem present_addFlags (sl : Slot) (f : BitVec 5) : (sl.addFlags f).present = sl.present := rfl
@[simp] theorem prio_addFlags (sl : Slot) (f : BitVec 5) : (sl.addFlags f).prio = sl.prio := rfl
@[simp] theorem inh_addFlags (sl : Slot) (f : BitVec 5) : (sl.addFlags f).inh = sl.inh := rfl
@[simp] theorem clamp_addFlags (sl : Slot) (f : BitVec 5) : (sl.addFlags f).clamp = sl.clamp := rfl
@[simp] theorem epc_addFlags (sl : Slot) (f : BitVec 5) : (sl.addFlags f).epc = sl.epc := rfl
@[simp] theorem cause_addFlags (sl : Slot) (f : BitVec 5) : (sl.addFlags f).cause = sl.cause := rfl
@[simp] theorem tval_addFlags (sl : Slot) (f : BitVec 5) : (sl.addFlags f).tval = sl.tval := rfl
@[simp] theorem estatus_addFlags (sl : Slot) (f : BitVec 5) : (sl.addFlags f).estatus = sl.estatus := rfl
@[simp] theorem tvec_addFlags (sl : Slot) (f : BitVec 5) : (sl.addFlags f).tvec = sl.tvec := rfl
@[simp] theorem arg0_addFlags (sl : Slot) (f : BitVec 5) : (sl.addFlags f).arg0 = sl.arg0 := rfl
@[simp] theorem arg1_addFlags (sl : Slot) (f : BitVec 5) : (sl.addFlags f).arg1 = sl.arg1 := rfl
@[simp] theorem done_addFlags (sl : Slot) (f : BitVec 5) : (sl.addFlags f).done = sl.done := rfl
@[simp] theorem groups_addFlags (sl : Slot) (f : BitVec 5) : (sl.addFlags f).groups = sl.groups := rfl
@[simp] theorem launch_addFlags (sl : Slot) (f : BitVec 5) : (sl.addFlags f).launch = sl.launch := rfl
@[simp] theorem round_addFlags (sl : Slot) (f : BitVec 5) : (sl.addFlags f).round = sl.round := rfl
@[simp] theorem modq_addFlags (sl : Slot) (f : BitVec 5) : (sl.addFlags f).modq = sl.modq := rfl
@[simp] theorem tkerr_addFlags (sl : Slot) (f : BitVec 5) : (sl.addFlags f).tkerr = sl.tkerr := rfl
@[simp] theorem logical_addFlags (sl : Slot) (f : BitVec 5) : (sl.addFlags f).logical = sl.logical := rfl
@[simp] theorem world_addFlags (sl : Slot) (f : BitVec 5) : (sl.addFlags f).world = sl.world := rfl
@[simp] theorem lsbase_addFlags (sl : Slot) (f : BitVec 5) : (sl.addFlags f).lsbase = sl.lsbase := rfl
@[simp] theorem lsbound_addFlags (sl : Slot) (f : BitVec 5) : (sl.addFlags f).lsbound = sl.lsbound := rfl
@[simp] theorem bbcbase_addFlags (sl : Slot) (f : BitVec 5) : (sl.addFlags f).bbcbase = sl.bbcbase := rfl
@[simp] theorem ctxNum_addFlags (sl : Slot) (f : BitVec 5) : (sl.addFlags f).ctxNum = sl.ctxNum := rfl
@[simp] theorem seeded_addFlags (sl : Slot) (f : BitVec 5) : (sl.addFlags f).seeded = sl.seeded := rfl
@[simp] theorem codeLo_addFlags (sl : Slot) (f : BitVec 5) : (sl.addFlags f).codeLo = sl.codeLo := rfl
@[simp] theorem codeHi_addFlags (sl : Slot) (f : BitVec 5) : (sl.addFlags f).codeHi = sl.codeHi := rfl
@[simp] theorem alarm_addFlags (sl : Slot) (f : BitVec 5) : (sl.addFlags f).alarm = sl.alarm := rfl
@[simp] theorem undelivered_addFlags (sl : Slot) (f : BitVec 5) : (sl.addFlags f).undelivered = sl.undelivered := rfl
@[simp] theorem stopPending_addFlags (sl : Slot) (f : BitVec 5) : (sl.addFlags f).stopPending = sl.stopPending := rfl
@[simp] theorem stepping_addFlags (sl : Slot) (f : BitVec 5) : (sl.addFlags f).stepping = sl.stepping := rfl
@[simp] theorem longUntil_addFlags (sl : Slot) (f : BitVec 5) : (sl.addFlags f).longUntil = sl.longUntil := rfl
@[simp] theorem sliceUsed_addFlags (sl : Slot) (f : BitVec 5) : (sl.addFlags f).sliceUsed = sl.sliceUsed := rfl
@[simp] theorem installedAt_addFlags (sl : Slot) (f : BitVec 5) : (sl.addFlags f).installedAt = sl.installedAt := rfl
@[simp] theorem lastInstall_addFlags (sl : Slot) (f : BitVec 5) : (sl.addFlags f).lastInstall = sl.lastInstall := rfl
@[simp] theorem waitSince_addFlags (sl : Slot) (f : BitVec 5) : (sl.addFlags f).waitSince = sl.waitSince := rfl
@[simp] theorem wdogPosted_addFlags (sl : Slot) (f : BitVec 5) : (sl.addFlags f).wdogPosted = sl.wdogPosted := rfl
@[simp] theorem wait_addFlags (sl : Slot) (f : BitVec 5) : (sl.addFlags f).wait = sl.wait := rfl
@[simp] theorem held_addFlags (sl : Slot) (f : BitVec 5) : (sl.addFlags f).held = sl.held := rfl
@[simp] theorem streamsRead_addFlags (sl : Slot) (f : BitVec 5) : (sl.addFlags f).streamsRead = sl.streamsRead := rfl
@[simp] theorem bundle_addFlags (sl : Slot) (f : BitVec 5) : (sl.addFlags f).bundle = sl.bundle := rfl
@[simp] theorem accCur_addFlags (sl : Slot) (f : BitVec 5) : (sl.addFlags f).accCur = sl.accCur := rfl
@[simp] theorem accPrev_addFlags (sl : Slot) (f : BitVec 5) : (sl.addFlags f).accPrev = sl.accPrev := rfl
@[simp] theorem fenceRel_addFlags (sl : Slot) (f : BitVec 5) : (sl.addFlags f).fenceRel = sl.fenceRel := rfl
@[simp] theorem tokenSigs_addFlags (sl : Slot) (f : BitVec 5) : (sl.addFlags f).tokenSigs = sl.tokenSigs := rfl
@[simp] theorem outstanding_addFlags (sl : Slot) (f : BitVec 5) : (sl.addFlags f).outstanding = sl.outstanding := rfl
@[simp] theorem addSent_addFlags (sl : Slot) (f : BitVec 5) : (sl.addFlags f).addSent = sl.addSent := rfl
@[simp] theorem doomed_addFlags (sl : Slot) (f : BitVec 5) : (sl.addFlags f).doomed = sl.doomed := rfl

@[simp] theorem getX_zero (sl : Slot) : sl.getX 0#5 = 0 := rfl

/-- A write of x0 is discarded (R42). -/
@[simp] theorem putX_zero (sl : Slot) (w : Word) : sl.putX 0#5 w = sl := rfl

theorem x_putX (sl : Slot) (r : Reg) (w : Word) (h : r ≠ 0) : (sl.putX r w).x = sl.x.set r.toNat w r.isLt := by
  rw [putX, if_neg h]

theorem getX_putX_same (sl : Slot) (r : Reg) (w : Word) (h : r ≠ 0) : (sl.putX r w).getX r = w := by
  rw [getX, if_neg h]; simp [x_putX _ _ _ h]

theorem getX_putX_other (sl : Slot) (r q : Reg) (w : Word) (h : q ≠ r) : (sl.putX r w).getX q = sl.getX q := by
  by_cases hr : r = 0
  · simp [hr]
  · have hn : r.toNat ≠ q.toNat := fun e => h (BitVec.eq_of_toNat_eq e.symm)
    simp only [getX, x_putX _ _ _ hr, Vector.getElem_set_ne _ _ hn]

@[simp] theorem getV_putX (sl : Slot) (r q : Reg) (w : Word) : (sl.putX r w).getV q = sl.getV q := by
  simp [getV]

@[simp] theorem getX_putV (sl : Slot) (r q : Reg) (w : Vec) : (sl.putV r w).getX q = sl.getX q := rfl

@[simp] theorem getV_putV_same (sl : Slot) (r : Reg) (w : Vec) : (sl.putV r w).getV r = w := by
  simp [getV, putV]

theorem getV_putV_other (sl : Slot) (r q : Reg) (w : Vec) (h : q ≠ r) : (sl.putV r w).getV q = sl.getV q := by
  have hn : r.toNat ≠ q.toNat := fun e => h (BitVec.eq_of_toNat_eq e.symm)
  simp [getV, putV, Vector.getElem_set_ne _ _ hn]

end Slot

end Sys2Proof.Machine
end

