-- ==== Sys2Proof/Laws/Machine.lean ====
section
/-! SUPPORT. Laws of the shared operations: what each changes, and that it leaves the rest. -/

namespace Sys2Proof.Machine

/-! ## The hatbox and the state-change log -/

@[simp] theorem cycle_hatPost (s : State) (die kind code ep : Nat) (w d : Word) : (hatPost s die kind code ep w d).cycle = s.cycle := rfl
@[simp] theorem cursor_hatPost (s : State) (die kind code ep : Nat) (w d : Word) : (hatPost s die kind code ep w d).cursor = s.cursor := rfl
@[simp] theorem agenda_hatPost (s : State) (die kind code ep : Nat) (w d : Word) : (hatPost s die kind code ep w d).agenda = s.agenda := rfl
@[simp] theorem free_hatPost (s : State) (die kind code ep : Nat) (w d : Word) : (hatPost s die kind code ep w d).free = s.free := rfl
@[simp] theorem cur_hatPost (s : State) (die kind code ep : Nat) (w d : Word) : (hatPost s die kind code ep w d).cur = s.cur := rfl
@[simp] theorem iss_hatPost (s : State) (die kind code ep : Nat) (w d : Word) : (hatPost s die kind code ep w d).iss = s.iss := rfl
@[simp] theorem moduleNo_hatPost (s : State) (die kind code ep : Nat) (w d : Word) : (hatPost s die kind code ep w d).moduleNo = s.moduleNo := rfl
@[simp] theorem slots_hatPost (s : State) (die kind code ep : Nat) (w d : Word) : (hatPost s die kind code ep w d).slots = s.slots := rfl
@[simp] theorem cores_hatPost (s : State) (die kind code ep : Nat) (w d : Word) : (hatPost s die kind code ep w d).cores = s.cores := rfl
@[simp] theorem clusters_hatPost (s : State) (die kind code ep : Nat) (w d : Word) : (hatPost s die kind code ep w d).clusters = s.clusters := rfl
@[simp] theorem polders_hatPost (s : State) (die kind code ep : Nat) (w d : Word) : (hatPost s die kind code ep w d).polders = s.polders := rfl
@[simp] theorem links_hatPost (s : State) (die kind code ep : Nat) (w d : Word) : (hatPost s die kind code ep w d).links = s.links := rfl
@[simp] theorem mem_hatPost (s : State) (die kind code ep : Nat) (w d : Word) : (hatPost s die kind code ep w d).mem = s.mem := rfl
@[simp] theorem hbm_hatPost (s : State) (die kind code ep : Nat) (w d : Word) : (hatPost s die kind code ep w d).hbm = s.hbm := rfl
@[simp] theorem poison_hatPost (s : State) (die kind code ep : Nat) (w d : Word) : (hatPost s die kind code ep w d).poison = s.poison := rfl
@[simp] theorem flipped_hatPost (s : State) (die kind code ep : Nat) (w d : Word) : (hatPost s die kind code ep w d).flipped = s.flipped := rfl
@[simp] theorem granules_hatPost (s : State) (die kind code ep : Nat) (w d : Word) : (hatPost s die kind code ep w d).granules = s.granules := rfl
@[simp] theorem downLinks_hatPost (s : State) (die kind code ep : Nat) (w d : Word) : (hatPost s die kind code ep w d).downLinks = s.downLinks := rfl
@[simp] theorem steward_hatPost (s : State) (die kind code ep : Nat) (w d : Word) : (hatPost s die kind code ep w d).steward = s.steward := rfl
@[simp] theorem readOut_hatPost (s : State) (die kind code ep : Nat) (w d : Word) : (hatPost s die kind code ep w d).readOut = s.readOut := rfl
@[simp] theorem nextId_hatPost (s : State) (die kind code ep : Nat) (w d : Word) : (hatPost s die kind code ep w d).nextId = s.nextId := rfl
@[simp] theorem slot_hatPost (s : State) (die kind code ep : Nat) (w d : Word) (j : Nat) : (hatPost s die kind code ep w d).slot j = s.slot j := by simp [State.slot]
@[simp] theorem core_hatPost (s : State) (die kind code ep : Nat) (w d : Word) (j : Nat) : (hatPost s die kind code ep w d).core j = s.core j := by simp [State.core]
@[simp] theorem cluster_hatPost (s : State) (die kind code ep : Nat) (w d : Word) (j : Nat) : (hatPost s die kind code ep w d).cluster j = s.cluster j := by simp [State.cluster]
@[simp] theorem polder_hatPost (s : State) (die kind code ep : Nat) (w d : Word) (j : Nat) : (hatPost s die kind code ep w d).polder j = s.polder j := by simp [State.polder]
@[simp] theorem link_hatPost (s : State) (die kind code ep : Nat) (w d : Word) (j : Nat) : (hatPost s die kind code ep w d).link j = s.link j := by simp [State.link]
@[simp] theorem me_hatPost (s : State) (die kind code ep : Nat) (w d : Word) : (hatPost s die kind code ep w d).me = s.me := by simp [State.me]

theorem tracePut_frame (s : State) (c : Nat) (ws : List Word) :
    ∃ cores dies mem, tracePut s c ws = { s with cores := cores, dies := dies, mem := mem } := by
  unfold tracePut; dsimp only; split <;> (dsimp only; split <;> exact ⟨_, _, _, rfl⟩)

@[simp] theorem cycle_tracePut (s : State) (c : Nat) (ws : List Word) : (tracePut s c ws).cycle = s.cycle := by obtain ⟨_, _, _, h⟩ := tracePut_frame s c ws; rw [h]
@[simp] theorem cursor_tracePut (s : State) (c : Nat) (ws : List Word) : (tracePut s c ws).cursor = s.cursor := by obtain ⟨_, _, _, h⟩ := tracePut_frame s c ws; rw [h]
@[simp] theorem agenda_tracePut (s : State) (c : Nat) (ws : List Word) : (tracePut s c ws).agenda = s.agenda := by obtain ⟨_, _, _, h⟩ := tracePut_frame s c ws; rw [h]
@[simp] theorem free_tracePut (s : State) (c : Nat) (ws : List Word) : (tracePut s c ws).free = s.free := by obtain ⟨_, _, _, h⟩ := tracePut_frame s c ws; rw [h]
@[simp] theorem cur_tracePut (s : State) (c : Nat) (ws : List Word) : (tracePut s c ws).cur = s.cur := by obtain ⟨_, _, _, h⟩ := tracePut_frame s c ws; rw [h]
@[simp] theorem iss_tracePut (s : State) (c : Nat) (ws : List Word) : (tracePut s c ws).iss = s.iss := by obtain ⟨_, _, _, h⟩ := tracePut_frame s c ws; rw [h]
@[simp] theorem moduleNo_tracePut (s : State) (c : Nat) (ws : List Word) : (tracePut s c ws).moduleNo = s.moduleNo := by obtain ⟨_, _, _, h⟩ := tracePut_frame s c ws; rw [h]
@[simp] theorem slots_tracePut (s : State) (c : Nat) (ws : List Word) : (tracePut s c ws).slots = s.slots := by obtain ⟨_, _, _, h⟩ := tracePut_frame s c ws; rw [h]
@[simp] theorem clusters_tracePut (s : State) (c : Nat) (ws : List Word) : (tracePut s c ws).clusters = s.clusters := by obtain ⟨_, _, _, h⟩ := tracePut_frame s c ws; rw [h]
@[simp] theorem polders_tracePut (s : State) (c : Nat) (ws : List Word) : (tracePut s c ws).polders = s.polders := by obtain ⟨_, _, _, h⟩ := tracePut_frame s c ws; rw [h]
@[simp] theorem links_tracePut (s : State) (c : Nat) (ws : List Word) : (tracePut s c ws).links = s.links := by obtain ⟨_, _, _, h⟩ := tracePut_frame s c ws; rw [h]
@[simp] theorem hbm_tracePut (s : State) (c : Nat) (ws : List Word) : (tracePut s c ws).hbm = s.hbm := by obtain ⟨_, _, _, h⟩ := tracePut_frame s c ws; rw [h]
@[simp] theorem poison_tracePut (s : State) (c : Nat) (ws : List Word) : (tracePut s c ws).poison = s.poison := by obtain ⟨_, _, _, h⟩ := tracePut_frame s c ws; rw [h]
@[simp] theorem flipped_tracePut (s : State) (c : Nat) (ws : List Word) : (tracePut s c ws).flipped = s.flipped := by obtain ⟨_, _, _, h⟩ := tracePut_frame s c ws; rw [h]
@[simp] theorem granules_tracePut (s : State) (c : Nat) (ws : List Word) : (tracePut s c ws).granules = s.granules := by obtain ⟨_, _, _, h⟩ := tracePut_frame s c ws; rw [h]
@[simp] theorem downLinks_tracePut (s : State) (c : Nat) (ws : List Word) : (tracePut s c ws).downLinks = s.downLinks := by obtain ⟨_, _, _, h⟩ := tracePut_frame s c ws; rw [h]
@[simp] theorem steward_tracePut (s : State) (c : Nat) (ws : List Word) : (tracePut s c ws).steward = s.steward := by obtain ⟨_, _, _, h⟩ := tracePut_frame s c ws; rw [h]
@[simp] theorem readOut_tracePut (s : State) (c : Nat) (ws : List Word) : (tracePut s c ws).readOut = s.readOut := by obtain ⟨_, _, _, h⟩ := tracePut_frame s c ws; rw [h]
@[simp] theorem nextId_tracePut (s : State) (c : Nat) (ws : List Word) : (tracePut s c ws).nextId = s.nextId := by obtain ⟨_, _, _, h⟩ := tracePut_frame s c ws; rw [h]
@[simp] theorem slot_tracePut (s : State) (c : Nat) (ws : List Word) (j : Nat) : (tracePut s c ws).slot j = s.slot j := by simp [State.slot]
@[simp] theorem cluster_tracePut (s : State) (c : Nat) (ws : List Word) (j : Nat) : (tracePut s c ws).cluster j = s.cluster j := by simp [State.cluster]
@[simp] theorem polder_tracePut (s : State) (c : Nat) (ws : List Word) (j : Nat) : (tracePut s c ws).polder j = s.polder j := by simp [State.polder]
@[simp] theorem link_tracePut (s : State) (c : Nat) (ws : List Word) (j : Nat) : (tracePut s c ws).link j = s.link j := by simp [State.link]
@[simp] theorem me_tracePut (s : State) (c : Nat) (ws : List Word) : (tracePut s c ws).me = s.me := by simp [State.me]

theorem traceClass_frame (s : State) (k cls : Nat) :
    ∃ cores, traceClass s k cls = { s with cores := cores } := by
  unfold traceClass; split <;> exact ⟨_, rfl⟩

@[simp] theorem cycle_traceClass (s : State) (k cls : Nat) : (traceClass s k cls).cycle = s.cycle := by obtain ⟨_, h⟩ := traceClass_frame s k cls; rw [h]
@[simp] theorem cursor_traceClass (s : State) (k cls : Nat) : (traceClass s k cls).cursor = s.cursor := by obtain ⟨_, h⟩ := traceClass_frame s k cls; rw [h]
@[simp] theorem agenda_traceClass (s : State) (k cls : Nat) : (traceClass s k cls).agenda = s.agenda := by obtain ⟨_, h⟩ := traceClass_frame s k cls; rw [h]
@[simp] theorem free_traceClass (s : State) (k cls : Nat) : (traceClass s k cls).free = s.free := by obtain ⟨_, h⟩ := traceClass_frame s k cls; rw [h]
@[simp] theorem cur_traceClass (s : State) (k cls : Nat) : (traceClass s k cls).cur = s.cur := by obtain ⟨_, h⟩ := traceClass_frame s k cls; rw [h]
@[simp] theorem iss_traceClass (s : State) (k cls : Nat) : (traceClass s k cls).iss = s.iss := by obtain ⟨_, h⟩ := traceClass_frame s k cls; rw [h]
@[simp] theorem moduleNo_traceClass (s : State) (k cls : Nat) : (traceClass s k cls).moduleNo = s.moduleNo := by obtain ⟨_, h⟩ := traceClass_frame s k cls; rw [h]
@[simp] theorem slots_traceClass (s : State) (k cls : Nat) : (traceClass s k cls).slots = s.slots := by obtain ⟨_, h⟩ := traceClass_frame s k cls; rw [h]
@[simp] theorem clusters_traceClass (s : State) (k cls : Nat) : (traceClass s k cls).clusters = s.clusters := by obtain ⟨_, h⟩ := traceClass_frame s k cls; rw [h]
@[simp] theorem dies_traceClass (s : State) (k cls : Nat) : (traceClass s k cls).dies = s.dies := by obtain ⟨_, h⟩ := traceClass_frame s k cls; rw [h]
@[simp] theorem polders_traceClass (s : State) (k cls : Nat) : (traceClass s k cls).polders = s.polders := by obtain ⟨_, h⟩ := traceClass_frame s k cls; rw [h]
@[simp] theorem links_traceClass (s : State) (k cls : Nat) : (traceClass s k cls).links = s.links := by obtain ⟨_, h⟩ := traceClass_frame s k cls; rw [h]
@[simp] theorem mem_traceClass (s : State) (k cls : Nat) : (traceClass s k cls).mem = s.mem := by obtain ⟨_, h⟩ := traceClass_frame s k cls; rw [h]
@[simp] theorem hbm_traceClass (s : State) (k cls : Nat) : (traceClass s k cls).hbm = s.hbm := by obtain ⟨_, h⟩ := traceClass_frame s k cls; rw [h]
@[simp] theorem poison_traceClass (s : State) (k cls : Nat) : (traceClass s k cls).poison = s.poison := by obtain ⟨_, h⟩ := traceClass_frame s k cls; rw [h]
@[simp] theorem flipped_traceClass (s : State) (k cls : Nat) : (traceClass s k cls).flipped = s.flipped := by obtain ⟨_, h⟩ := traceClass_frame s k cls; rw [h]
@[simp] theorem granules_traceClass (s : State) (k cls : Nat) : (traceClass s k cls).granules = s.granules := by obtain ⟨_, h⟩ := traceClass_frame s k cls; rw [h]
@[simp] theorem downLinks_traceClass (s : State) (k cls : Nat) : (traceClass s k cls).downLinks = s.downLinks := by obtain ⟨_, h⟩ := traceClass_frame s k cls; rw [h]
@[simp] theorem steward_traceClass (s : State) (k cls : Nat) : (traceClass s k cls).steward = s.steward := by obtain ⟨_, h⟩ := traceClass_frame s k cls; rw [h]
@[simp] theorem readOut_traceClass (s : State) (k cls : Nat) : (traceClass s k cls).readOut = s.readOut := by obtain ⟨_, h⟩ := traceClass_frame s k cls; rw [h]
@[simp] theorem nextId_traceClass (s : State) (k cls : Nat) : (traceClass s k cls).nextId = s.nextId := by obtain ⟨_, h⟩ := traceClass_frame s k cls; rw [h]
@[simp] theorem slot_traceClass (s : State) (k cls : Nat) (j : Nat) : (traceClass s k cls).slot j = s.slot j := by simp [State.slot]
@[simp] theorem cluster_traceClass (s : State) (k cls : Nat) (j : Nat) : (traceClass s k cls).cluster j = s.cluster j := by simp [State.cluster]
@[simp] theorem die_traceClass (s : State) (k cls : Nat) (j : Nat) : (traceClass s k cls).die j = s.die j := by simp [State.die]
@[simp] theorem polder_traceClass (s : State) (k cls : Nat) (j : Nat) : (traceClass s k cls).polder j = s.polder j := by simp [State.polder]
@[simp] theorem link_traceClass (s : State) (k cls : Nat) (j : Nat) : (traceClass s k cls).link j = s.link j := by simp [State.link]
@[simp] theorem me_traceClass (s : State) (k cls : Nat) : (traceClass s k cls).me = s.me := by simp [State.me]

theorem traceClass_untraced (s : State) (k cls : Nat) (h : (s.core (coreOf k)).trace.getLsbD 0 = false) :
    traceClass s k cls = s := by
  unfold traceClass; rw [if_neg (by rw [h]; decide)]

/-! ## Putting a slot into a state -/

/-- What a change of state writes into the slot itself. -/
def Slot.enter (sl : Slot) (now : Nat) (st : SlotState) : Slot :=
  if sl.state = st then sl
  else { sl with
    state := st, waitSince := now, wdogPosted := false
    sliceUsed := if st = .stopped then now - sl.installedAt else sl.sliceUsed }

@[simp] theorem state_enter (sl : Slot) (now : Nat) (st : SlotState) : (sl.enter now st).state = st := by
  unfold Slot.enter; split
  · assumption
  · rfl

@[simp] theorem saved_enter (sl : Slot) (now : Nat) (st : SlotState) : (sl.enter now st).saved = sl.saved := by unfold Slot.enter; split <;> rfl
@[simp] theorem pc_enter (sl : Slot) (now : Nat) (st : SlotState) : (sl.enter now st).pc = sl.pc := by unfold Slot.enter; split <;> rfl
@[simp] theorem npc_enter (sl : Slot) (now : Nat) (st : SlotState) : (sl.enter now st).npc = sl.npc := by unfold Slot.enter; split <;> rfl
@[simp] theorem x_enter (sl : Slot) (now : Nat) (st : SlotState) : (sl.enter now st).x = sl.x := by unfold Slot.enter; split <;> rfl
@[simp] theorem v_enter (sl : Slot) (now : Nat) (st : SlotState) : (sl.enter now st).v = sl.v := by unfold Slot.enter; split <;> rfl
@[simp] theorem streams_enter (sl : Slot) (now : Nat) (st : SlotState) : (sl.enter now st).streams = sl.streams := by unfold Slot.enter; split <;> rfl
@[simp] theorem pending_enter (sl : Slot) (now : Nat) (st : SlotState) : (sl.enter now st).pending = sl.pending := by unfold Slot.enter; split <;> rfl
@[simp] theorem present_enter (sl : Slot) (now : Nat) (st : SlotState) : (sl.enter now st).present = sl.present := by unfold Slot.enter; split <;> rfl
@[simp] theorem prio_enter (sl : Slot) (now : Nat) (st : SlotState) : (sl.enter now st).prio = sl.prio := by unfold Slot.enter; split <;> rfl
@[simp] theorem inh_enter (sl : Slot) (now : Nat) (st : SlotState) : (sl.enter now st).inh = sl.inh := by unfold Slot.enter; split <;> rfl
@[simp] theorem clamp_enter (sl : Slot) (now : Nat) (st : SlotState) : (sl.enter now st).clamp = sl.clamp := by unfold Slot.enter; split <;> rfl
@[simp] theorem epc_enter (sl : Slot) (now : Nat) (st : SlotState) : (sl.enter now st).epc = sl.epc := by unfold Slot.enter; split <;> rfl
@[simp] theorem cause_enter (sl : Slot) (now : Nat) (st : SlotState) : (sl.enter now st).cause = sl.cause := by unfold Slot.enter; split <;> rfl
@[simp] theorem tval_enter (sl : Slot) (now : Nat) (st : SlotState) : (sl.enter now st).tval = sl.tval := by unfold Slot.enter; split <;> rfl
@[simp] theorem estatus_enter (sl : Slot) (now : Nat) (st : SlotState) : (sl.enter now st).estatus = sl.estatus := by unfold Slot.enter; split <;> rfl
@[simp] theorem tvec_enter (sl : Slot) (now : Nat) (st : SlotState) : (sl.enter now st).tvec = sl.tvec := by unfold Slot.enter; split <;> rfl
@[simp] theorem arg0_enter (sl : Slot) (now : Nat) (st : SlotState) : (sl.enter now st).arg0 = sl.arg0 := by unfold Slot.enter; split <;> rfl
@[simp] theorem arg1_enter (sl : Slot) (now : Nat) (st : SlotState) : (sl.enter now st).arg1 = sl.arg1 := by unfold Slot.enter; split <;> rfl
@[simp] theorem done_enter (sl : Slot) (now : Nat) (st : SlotState) : (sl.enter now st).done = sl.done := by unfold Slot.enter; split <;> rfl
@[simp] theorem groups_enter (sl : Slot) (now : Nat) (st : SlotState) : (sl.enter now st).groups = sl.groups := by unfold Slot.enter; split <;> rfl
@[simp] theorem launch_enter (sl : Slot) (now : Nat) (st : SlotState) : (sl.enter now st).launch = sl.launch := by unfold Slot.enter; split <;> rfl
@[simp] theorem round_enter (sl : Slot) (now : Nat) (st : SlotState) : (sl.enter now st).round = sl.round := by unfold Slot.enter; split <;> rfl
@[simp] theorem fflags_enter (sl : Slot) (now : Nat) (st : SlotState) : (sl.enter now st).fflags = sl.fflags := by unfold Slot.enter; split <;> rfl
@[simp] theorem modq_enter (sl : Slot) (now : Nat) (st : SlotState) : (sl.enter now st).modq = sl.modq := by unfold Slot.enter; split <;> rfl
@[simp] theorem tkerr_enter (sl : Slot) (now : Nat) (st : SlotState) : (sl.enter now st).tkerr = sl.tkerr := by unfold Slot.enter; split <;> rfl
@[simp] theorem logical_enter (sl : Slot) (now : Nat) (st : SlotState) : (sl.enter now st).logical = sl.logical := by unfold Slot.enter; split <;> rfl
@[simp] theorem world_enter (sl : Slot) (now : Nat) (st : SlotState) : (sl.enter now st).world = sl.world := by unfold Slot.enter; split <;> rfl
@[simp] theorem lsbase_enter (sl : Slot) (now : Nat) (st : SlotState) : (sl.enter now st).lsbase = sl.lsbase := by unfold Slot.enter; split <;> rfl
@[simp] theorem lsbound_enter (sl : Slot) (now : Nat) (st : SlotState) : (sl.enter now st).lsbound = sl.lsbound := by unfold Slot.enter; split <;> rfl
@[simp] theorem bbcbase_enter (sl : Slot) (now : Nat) (st : SlotState) : (sl.enter now st).bbcbase = sl.bbcbase := by unfold Slot.enter; split <;> rfl
@[simp] theorem ctxNum_enter (sl : Slot) (now : Nat) (st : SlotState) : (sl.enter now st).ctxNum = sl.ctxNum := by unfold Slot.enter; split <;> rfl
@[simp] theorem seeded_enter (sl : Slot) (now : Nat) (st : SlotState) : (sl.enter now st).seeded = sl.seeded := by unfold Slot.enter; split <;> rfl
@[simp] theorem codeLo_enter (sl : Slot) (now : Nat) (st : SlotState) : (sl.enter now st).codeLo = sl.codeLo := by unfold Slot.enter; split <;> rfl
@[simp] theorem codeHi_enter (sl : Slot) (now : Nat) (st : SlotState) : (sl.enter now st).codeHi = sl.codeHi := by unfold Slot.enter; split <;> rfl
@[simp] theorem alarm_enter (sl : Slot) (now : Nat) (st : SlotState) : (sl.enter now st).alarm = sl.alarm := by unfold Slot.enter; split <;> rfl
@[simp] theorem undelivered_enter (sl : Slot) (now : Nat) (st : SlotState) : (sl.enter now st).undelivered = sl.undelivered := by unfold Slot.enter; split <;> rfl
@[simp] theorem stopPending_enter (sl : Slot) (now : Nat) (st : SlotState) : (sl.enter now st).stopPending = sl.stopPending := by unfold Slot.enter; split <;> rfl
@[simp] theorem stepping_enter (sl : Slot) (now : Nat) (st : SlotState) : (sl.enter now st).stepping = sl.stepping := by unfold Slot.enter; split <;> rfl
@[simp] theorem longUntil_enter (sl : Slot) (now : Nat) (st : SlotState) : (sl.enter now st).longUntil = sl.longUntil := by unfold Slot.enter; split <;> rfl
@[simp] theorem installedAt_enter (sl : Slot) (now : Nat) (st : SlotState) : (sl.enter now st).installedAt = sl.installedAt := by unfold Slot.enter; split <;> rfl
@[simp] theorem lastInstall_enter (sl : Slot) (now : Nat) (st : SlotState) : (sl.enter now st).lastInstall = sl.lastInstall := by unfold Slot.enter; split <;> rfl
@[simp] theorem wait_enter (sl : Slot) (now : Nat) (st : SlotState) : (sl.enter now st).wait = sl.wait := by unfold Slot.enter; split <;> rfl
@[simp] theorem held_enter (sl : Slot) (now : Nat) (st : SlotState) : (sl.enter now st).held = sl.held := by unfold Slot.enter; split <;> rfl
@[simp] theorem streamsRead_enter (sl : Slot) (now : Nat) (st : SlotState) : (sl.enter now st).streamsRead = sl.streamsRead := by unfold Slot.enter; split <;> rfl
@[simp] theorem bundle_enter (sl : Slot) (now : Nat) (st : SlotState) : (sl.enter now st).bundle = sl.bundle := by unfold Slot.enter; split <;> rfl
@[simp] theorem accCur_enter (sl : Slot) (now : Nat) (st : SlotState) : (sl.enter now st).accCur = sl.accCur := by unfold Slot.enter; split <;> rfl
@[simp] theorem accPrev_enter (sl : Slot) (now : Nat) (st : SlotState) : (sl.enter now st).accPrev = sl.accPrev := by unfold Slot.enter; split <;> rfl
@[simp] theorem fenceRel_enter (sl : Slot) (now : Nat) (st : SlotState) : (sl.enter now st).fenceRel = sl.fenceRel := by unfold Slot.enter; split <;> rfl
@[simp] theorem tokenSigs_enter (sl : Slot) (now : Nat) (st : SlotState) : (sl.enter now st).tokenSigs = sl.tokenSigs := by unfold Slot.enter; split <;> rfl
@[simp] theorem outstanding_enter (sl : Slot) (now : Nat) (st : SlotState) : (sl.enter now st).outstanding = sl.outstanding := by unfold Slot.enter; split <;> rfl
@[simp] theorem addSent_enter (sl : Slot) (now : Nat) (st : SlotState) : (sl.enter now st).addSent = sl.addSent := by unfold Slot.enter; split <;> rfl
@[simp] theorem doomed_enter (sl : Slot) (now : Nat) (st : SlotState) : (sl.enter now st).doomed = sl.doomed := by unfold Slot.enter; split <;> rfl

theorem toState_frame (s : State) (k : Nat) (st : SlotState) :
    ∃ slots cores, s.toState k st = { s with slots := slots, cores := cores } := by
  unfold State.toState; dsimp only
  split
  · exact ⟨_, _, rfl⟩
  · split
    · exact ⟨_, _, rfl⟩
    · obtain ⟨_, h⟩ := traceClass_frame (s.modSlot k _) k st.class
      rw [h]; exact ⟨_, _, rfl⟩

@[simp] theorem cycle_toState (s : State) (k : Nat) (st : SlotState) : (s.toState k st).cycle = s.cycle := by obtain ⟨_, _, h⟩ := toState_frame s k st; rw [h]
@[simp] theorem cursor_toState (s : State) (k : Nat) (st : SlotState) : (s.toState k st).cursor = s.cursor := by obtain ⟨_, _, h⟩ := toState_frame s k st; rw [h]
@[simp] theorem agenda_toState (s : State) (k : Nat) (st : SlotState) : (s.toState k st).agenda = s.agenda := by obtain ⟨_, _, h⟩ := toState_frame s k st; rw [h]
@[simp] theorem free_toState (s : State) (k : Nat) (st : SlotState) : (s.toState k st).free = s.free := by obtain ⟨_, _, h⟩ := toState_frame s k st; rw [h]
@[simp] theorem cur_toState (s : State) (k : Nat) (st : SlotState) : (s.toState k st).cur = s.cur := by obtain ⟨_, _, h⟩ := toState_frame s k st; rw [h]
@[simp] theorem iss_toState (s : State) (k : Nat) (st : SlotState) : (s.toState k st).iss = s.iss := by obtain ⟨_, _, h⟩ := toState_frame s k st; rw [h]
@[simp] theorem moduleNo_toState (s : State) (k : Nat) (st : SlotState) : (s.toState k st).moduleNo = s.moduleNo := by obtain ⟨_, _, h⟩ := toState_frame s k st; rw [h]
@[simp] theorem clusters_toState (s : State) (k : Nat) (st : SlotState) : (s.toState k st).clusters = s.clusters := by obtain ⟨_, _, h⟩ := toState_frame s k st; rw [h]
@[simp] theorem dies_toState (s : State) (k : Nat) (st : SlotState) : (s.toState k st).dies = s.dies := by obtain ⟨_, _, h⟩ := toState_frame s k st; rw [h]
@[simp] theorem polders_toState (s : State) (k : Nat) (st : SlotState) : (s.toState k st).polders = s.polders := by obtain ⟨_, _, h⟩ := toState_frame s k st; rw [h]
@[simp] theorem links_toState (s : State) (k : Nat) (st : SlotState) : (s.toState k st).links = s.links := by obtain ⟨_, _, h⟩ := toState_frame s k st; rw [h]
@[simp] theorem mem_toState (s : State) (k : Nat) (st : SlotState) : (s.toState k st).mem = s.mem := by obtain ⟨_, _, h⟩ := toState_frame s k st; rw [h]
@[simp] theorem hbm_toState (s : State) (k : Nat) (st : SlotState) : (s.toState k st).hbm = s.hbm := by obtain ⟨_, _, h⟩ := toState_frame s k st; rw [h]
@[simp] theorem poison_toState (s : State) (k : Nat) (st : SlotState) : (s.toState k st).poison = s.poison := by obtain ⟨_, _, h⟩ := toState_frame s k st; rw [h]
@[simp] theorem flipped_toState (s : State) (k : Nat) (st : SlotState) : (s.toState k st).flipped = s.flipped := by obtain ⟨_, _, h⟩ := toState_frame s k st; rw [h]
@[simp] theorem granules_toState (s : State) (k : Nat) (st : SlotState) : (s.toState k st).granules = s.granules := by obtain ⟨_, _, h⟩ := toState_frame s k st; rw [h]
@[simp] theorem downLinks_toState (s : State) (k : Nat) (st : SlotState) : (s.toState k st).downLinks = s.downLinks := by obtain ⟨_, _, h⟩ := toState_frame s k st; rw [h]
@[simp] theorem steward_toState (s : State) (k : Nat) (st : SlotState) : (s.toState k st).steward = s.steward := by obtain ⟨_, _, h⟩ := toState_frame s k st; rw [h]
@[simp] theorem readOut_toState (s : State) (k : Nat) (st : SlotState) : (s.toState k st).readOut = s.readOut := by obtain ⟨_, _, h⟩ := toState_frame s k st; rw [h]
@[simp] theorem nextId_toState (s : State) (k : Nat) (st : SlotState) : (s.toState k st).nextId = s.nextId := by obtain ⟨_, _, h⟩ := toState_frame s k st; rw [h]
@[simp] theorem cluster_toState (s : State) (k : Nat) (st : SlotState) (j : Nat) : (s.toState k st).cluster j = s.cluster j := by simp [State.cluster]
@[simp] theorem die_toState (s : State) (k : Nat) (st : SlotState) (j : Nat) : (s.toState k st).die j = s.die j := by simp [State.die]
@[simp] theorem polder_toState (s : State) (k : Nat) (st : SlotState) (j : Nat) : (s.toState k st).polder j = s.polder j := by simp [State.polder]
@[simp] theorem link_toState (s : State) (k : Nat) (st : SlotState) (j : Nat) : (s.toState k st).link j = s.link j := by simp [State.link]

theorem slot_toState_same (s : State) (k : Nat) (st : SlotState) : (s.toState k st).slot k = (s.slot k).enter s.cycle st := by
  unfold State.toState Slot.enter; simp only
  split
  · rfl
  · split <;> simp

theorem slot_toState_other (s : State) (k j : Nat) (st : SlotState) (h : j ≠ k) : (s.toState k st).slot j = s.slot j := by
  unfold State.toState; simp only
  split
  · rfl
  · split <;> simp [State.slot_modSlot_other _ _ _ _ h]

/-- Where no state-change log is kept, only the slot changes. -/
theorem toState_untraced (s : State) (k : Nat) (st : SlotState) (h : (s.core (coreOf k)).trace.getLsbD 0 = false)
    (hs : (s.slot k).state ≠ st) : s.toState k st = s.modSlot k (·.enter s.cycle st) := by
  have e : s.modSlot k (fun sl => { sl with
      state := st, waitSince := s.cycle, wdogPosted := false
      sliceUsed := if st = .stopped then s.cycle - sl.installedAt else sl.sliceUsed }) = s.modSlot k (·.enter s.cycle st) := by
    simp [State.modSlot, Slot.enter, hs]
  unfold State.toState; simp only [if_neg hs]
  split
  · exact e
  · rw [traceClass_untraced _ _ _ (by simpa using h)]; exact e

theorem toState_mem (s : State) (k : Nat) (st : SlotState) (h : (s.core (coreOf k)).trace.getLsbD 0 = false) :
    (s.toState k st).mem = s.mem ∧ (s.toState k st).cores = s.cores ∧ (s.toState k st).dies = s.dies := by
  by_cases hs : (s.slot k).state = st
  · unfold State.toState; simp [hs]
  · rw [toState_untraced s k st h hs]; simp

theorem toReady_frame (s : State) (k : Nat) :
    ∃ slots cores, s.toReady k = { s with slots := slots, cores := cores } := by
  unfold State.toReady; split
  · obtain ⟨_, _, h⟩ := toState_frame s k .stopped
    rw [h]; exact ⟨_, _, rfl⟩
  · exact toState_frame s k _

@[simp] theorem cycle_toReady (s : State) (k : Nat) : (s.toReady k).cycle = s.cycle := by obtain ⟨_, _, h⟩ := toReady_frame s k; rw [h]
@[simp] theorem cursor_toReady (s : State) (k : Nat) : (s.toReady k).cursor = s.cursor := by obtain ⟨_, _, h⟩ := toReady_frame s k; rw [h]
@[simp] theorem agenda_toReady (s : State) (k : Nat) : (s.toReady k).agenda = s.agenda := by obtain ⟨_, _, h⟩ := toReady_frame s k; rw [h]
@[simp] theorem free_toReady (s : State) (k : Nat) : (s.toReady k).free = s.free := by obtain ⟨_, _, h⟩ := toReady_frame s k; rw [h]
@[simp] theorem cur_toReady (s : State) (k : Nat) : (s.toReady k).cur = s.cur := by obtain ⟨_, _, h⟩ := toReady_frame s k; rw [h]
@[simp] theorem iss_toReady (s : State) (k : Nat) : (s.toReady k).iss = s.iss := by obtain ⟨_, _, h⟩ := toReady_frame s k; rw [h]
@[simp] theorem moduleNo_toReady (s : State) (k : Nat) : (s.toReady k).moduleNo = s.moduleNo := by obtain ⟨_, _, h⟩ := toReady_frame s k; rw [h]
@[simp] theorem clusters_toReady (s : State) (k : Nat) : (s.toReady k).clusters = s.clusters := by obtain ⟨_, _, h⟩ := toReady_frame s k; rw [h]
@[simp] theorem dies_toReady (s : State) (k : Nat) : (s.toReady k).dies = s.dies := by obtain ⟨_, _, h⟩ := toReady_frame s k; rw [h]
@[simp] theorem polders_toReady (s : State) (k : Nat) : (s.toReady k).polders = s.polders := by obtain ⟨_, _, h⟩ := toReady_frame s k; rw [h]
@[simp] theorem links_toReady (s : State) (k : Nat) : (s.toReady k).links = s.links := by obtain ⟨_, _, h⟩ := toReady_frame s k; rw [h]
@[simp] theorem mem_toReady (s : State) (k : Nat) : (s.toReady k).mem = s.mem := by obtain ⟨_, _, h⟩ := toReady_frame s k; rw [h]
@[simp] theorem hbm_toReady (s : State) (k : Nat) : (s.toReady k).hbm = s.hbm := by obtain ⟨_, _, h⟩ := toReady_frame s k; rw [h]
@[simp] theorem poison_toReady (s : State) (k : Nat) : (s.toReady k).poison = s.poison := by obtain ⟨_, _, h⟩ := toReady_frame s k; rw [h]
@[simp] theorem flipped_toReady (s : State) (k : Nat) : (s.toReady k).flipped = s.flipped := by obtain ⟨_, _, h⟩ := toReady_frame s k; rw [h]
@[simp] theorem granules_toReady (s : State) (k : Nat) : (s.toReady k).granules = s.granules := by obtain ⟨_, _, h⟩ := toReady_frame s k; rw [h]
@[simp] theorem downLinks_toReady (s : State) (k : Nat) : (s.toReady k).downLinks = s.downLinks := by obtain ⟨_, _, h⟩ := toReady_frame s k; rw [h]
@[simp] theorem steward_toReady (s : State) (k : Nat) : (s.toReady k).steward = s.steward := by obtain ⟨_, _, h⟩ := toReady_frame s k; rw [h]
@[simp] theorem readOut_toReady (s : State) (k : Nat) : (s.toReady k).readOut = s.readOut := by obtain ⟨_, _, h⟩ := toReady_frame s k; rw [h]
@[simp] theorem nextId_toReady (s : State) (k : Nat) : (s.toReady k).nextId = s.nextId := by obtain ⟨_, _, h⟩ := toReady_frame s k; rw [h]
@[simp] theorem cluster_toReady (s : State) (k : Nat) (j : Nat) : (s.toReady k).cluster j = s.cluster j := by simp [State.cluster]
@[simp] theorem die_toReady (s : State) (k : Nat) (j : Nat) : (s.toReady k).die j = s.die j := by simp [State.die]
@[simp] theorem polder_toReady (s : State) (k : Nat) (j : Nat) : (s.toReady k).polder j = s.polder j := by simp [State.polder]
@[simp] theorem link_toReady (s : State) (k : Nat) (j : Nat) : (s.toReady k).link j = s.link j := by simp [State.link]

theorem slot_toReady_same (s : State) (k : Nat) (h : (s.slot k).stopPending = false) :
    (s.toReady k).slot k = (s.slot k).enter s.cycle .ready := by
  unfold State.toReady; simp [h, slot_toState_same]

theorem slot_toReady_other (s : State) (k j : Nat) (h : j ≠ k) : (s.toReady k).slot j = s.slot j := by
  unfold State.toReady; split
  · rw [State.slot_modSlot_other _ _ _ _ h, slot_toState_other _ _ _ _ h]
  · exact slot_toState_other _ _ _ _ h

/-! ## Parking -/

theorem park_frame (s : State) (k : Nat) (st : SlotState) (p : Wait) :
    ∃ slots cores, park s k st p = { s with slots := slots, cores := cores } := by
  unfold park
  obtain ⟨_, _, h⟩ := toState_frame (s.modSlot k _) k st
  rw [h]; exact ⟨_, _, rfl⟩

@[simp] theorem cycle_park (s : State) (k : Nat) (st : SlotState) (p : Wait) : (park s k st p).cycle = s.cycle := by obtain ⟨_, _, h⟩ := park_frame s k st p; rw [h]
@[simp] theorem cursor_park (s : State) (k : Nat) (st : SlotState) (p : Wait) : (park s k st p).cursor = s.cursor := by obtain ⟨_, _, h⟩ := park_frame s k st p; rw [h]
@[simp] theorem agenda_park (s : State) (k : Nat) (st : SlotState) (p : Wait) : (park s k st p).agenda = s.agenda := by obtain ⟨_, _, h⟩ := park_frame s k st p; rw [h]
@[simp] theorem free_park (s : State) (k : Nat) (st : SlotState) (p : Wait) : (park s k st p).free = s.free := by obtain ⟨_, _, h⟩ := park_frame s k st p; rw [h]
@[simp] theorem cur_park (s : State) (k : Nat) (st : SlotState) (p : Wait) : (park s k st p).cur = s.cur := by obtain ⟨_, _, h⟩ := park_frame s k st p; rw [h]
@[simp] theorem iss_park (s : State) (k : Nat) (st : SlotState) (p : Wait) : (park s k st p).iss = s.iss := by obtain ⟨_, _, h⟩ := park_frame s k st p; rw [h]
@[simp] theorem moduleNo_park (s : State) (k : Nat) (st : SlotState) (p : Wait) : (park s k st p).moduleNo = s.moduleNo := by obtain ⟨_, _, h⟩ := park_frame s k st p; rw [h]
@[simp] theorem clusters_park (s : State) (k : Nat) (st : SlotState) (p : Wait) : (park s k st p).clusters = s.clusters := by obtain ⟨_, _, h⟩ := park_frame s k st p; rw [h]
@[simp] theorem dies_park (s : State) (k : Nat) (st : SlotState) (p : Wait) : (park s k st p).dies = s.dies := by obtain ⟨_, _, h⟩ := park_frame s k st p; rw [h]
@[simp] theorem polders_park (s : State) (k : Nat) (st : SlotState) (p : Wait) : (park s k st p).polders = s.polders := by obtain ⟨_, _, h⟩ := park_frame s k st p; rw [h]
@[simp] theorem links_park (s : State) (k : Nat) (st : SlotState) (p : Wait) : (park s k st p).links = s.links := by obtain ⟨_, _, h⟩ := park_frame s k st p; rw [h]
@[simp] theorem mem_park (s : State) (k : Nat) (st : SlotState) (p : Wait) : (park s k st p).mem = s.mem := by obtain ⟨_, _, h⟩ := park_frame s k st p; rw [h]
@[simp] theorem hbm_park (s : State) (k : Nat) (st : SlotState) (p : Wait) : (park s k st p).hbm = s.hbm := by obtain ⟨_, _, h⟩ := park_frame s k st p; rw [h]
@[simp] theorem poison_park (s : State) (k : Nat) (st : SlotState) (p : Wait) : (park s k st p).poison = s.poison := by obtain ⟨_, _, h⟩ := park_frame s k st p; rw [h]
@[simp] theorem flipped_park (s : State) (k : Nat) (st : SlotState) (p : Wait) : (park s k st p).flipped = s.flipped := by obtain ⟨_, _, h⟩ := park_frame s k st p; rw [h]
@[simp] theorem granules_park (s : State) (k : Nat) (st : SlotState) (p : Wait) : (park s k st p).granules = s.granules := by obtain ⟨_, _, h⟩ := park_frame s k st p; rw [h]
@[simp] theorem downLinks_park (s : State) (k : Nat) (st : SlotState) (p : Wait) : (park s k st p).downLinks = s.downLinks := by obtain ⟨_, _, h⟩ := park_frame s k st p; rw [h]
@[simp] theorem steward_park (s : State) (k : Nat) (st : SlotState) (p : Wait) : (park s k st p).steward = s.steward := by obtain ⟨_, _, h⟩ := park_frame s k st p; rw [h]
@[simp] theorem readOut_park (s : State) (k : Nat) (st : SlotState) (p : Wait) : (park s k st p).readOut = s.readOut := by obtain ⟨_, _, h⟩ := park_frame s k st p; rw [h]
@[simp] theorem nextId_park (s : State) (k : Nat) (st : SlotState) (p : Wait) : (park s k st p).nextId = s.nextId := by obtain ⟨_, _, h⟩ := park_frame s k st p; rw [h]
@[simp] theorem cluster_park (s : State) (k : Nat) (st : SlotState) (p : Wait) (j : Nat) : (park s k st p).cluster j = s.cluster j := by simp [State.cluster]
@[simp] theorem die_park (s : State) (k : Nat) (st : SlotState) (p : Wait) (j : Nat) : (park s k st p).die j = s.die j := by simp [State.die]
@[simp] theorem polder_park (s : State) (k : Nat) (st : SlotState) (p : Wait) (j : Nat) : (park s k st p).polder j = s.polder j := by simp [State.polder]
@[simp] theorem link_park (s : State) (k : Nat) (st : SlotState) (p : Wait) (j : Nat) : (park s k st p).link j = s.link j := by simp [State.link]

theorem slot_park_same (s : State) (k : Nat) (st : SlotState) (p : Wait) :
    (park s k st p).slot k = ({ s.slot k with wait := p } : Slot).enter s.cycle st := by
  unfold park; rw [slot_toState_same]; simp

theorem slot_park_other (s : State) (k j : Nat) (st : SlotState) (p : Wait) (h : j ≠ k) :
    (park s k st p).slot j = s.slot j := by
  unfold park; rw [slot_toState_other _ _ _ _ h, State.slot_modSlot_other _ _ _ _ h]

theorem park_mem (s : State) (k : Nat) (st : SlotState) (p : Wait) (h : (s.core (coreOf k)).trace.getLsbD 0 = false) :
    (park s k st p).mem = s.mem ∧ (park s k st p).cores = s.cores ∧ (park s k st p).dies = s.dies := by
  simpa [park] using toState_mem (s.modSlot k (fun sl => { sl with wait := p })) k st (by simpa using h)

/-! ## The agenda -/

theorem mem_agendaIns (l : List (Nat × Event)) (due : Nat) (i : Event) : (due, i) ∈ agendaIns l due i := by
  induction l with
  | nil => simp [agendaIns]
  | cons p l ih =>
    obtain ⟨d, j⟩ := p
    rw [agendaIns]; split
    · simp
    · exact .tail _ ih

theorem mem_agendaIns_of_mem (l : List (Nat × Event)) (due : Nat) (i : Event) (p : Nat × Event) (h : p ∈ l) :
    p ∈ agendaIns l due i := by
  induction l with
  | nil => simp at h
  | cons q l ih =>
    obtain ⟨d, j⟩ := q
    rw [agendaIns]; split
    · exact .tail _ h
    · cases h with
      | head => exact .head _
      | tail _ h => exact .tail _ (ih h)

/-! ## Writes of the issuing bundle -/

/-- A register that no bound stream stands on is written (R43). -/
theorem guardX_of (s : State) (d : Reg) (o : Out) (h : (s.iss.snap.getD s.me).streamOf d = none) : guardX s d o = o := by
  unfold guardX; simp [h]

/-- The register of a bound stream is not written (R43). -/
theorem guardX_stream (s : State) (d : Reg) (o : Out) (h : ((s.iss.snap.getD s.me).streamOf d).isSome) :
    guardX s d o = trapOut s 4 0x0C (zext d) := by
  unfold guardX; simp [h]

theorem writeX_of (s : State) (d : Reg) (w : Word) (h : (s.iss.snap.getD s.me).streamOf d = none) :
    writeX s d w = .next (s.modMe (·.putX d w)) := guardX_of s d _ h

end Sys2Proof.Machine
end

