-- ==== Sys2Proof/Laws/Access.lean ====
section
/-! SUPPORT. What an access to the own local store does: the bytes that it touches, its passes, and what releases and
acquires leave as it was. -/

namespace Sys2Proof.Machine

/-! ## Bytes and chunks -/

theorem swizzle_chunk (a b : Nat) (h : a / 16 = b / 16) : swizzle a / 16 = swizzle b / 16 := by
  have h2 : a / 128 = b / 128 := by omega
  have h3 : a / 16 % 8 = b / 16 % 8 := by rw [h]
  unfold swizzle; rw [h2, h3]; omega

theorem lsPhys_chunk {a b p q : Nat} (h : a / 16 = b / 16) (ha : lsPhys a = some p) (hb : lsPhys b = some q) :
    p / 16 = q / 16 := by
  unfold lsPhys at ha hb
  split at ha <;> split at hb
  · cases ha; cases hb; exact h
  · omega
  · omega
  · split at ha <;> split at hb <;> simp at ha hb
    subst ha; subst hb
    exact swizzle_chunk _ _ (by omega)

/-- One pass serves everything when it leaves nothing. -/
theorem onePass_all (busy : BitVec 8) (cs : List Nat) (h : (onePass busy cs).2.1 = []) : (onePass busy cs).1 = cs := by
  induction cs generalizing busy with
  | nil => rfl
  | cons c cs ih =>
    unfold onePass at h ⊢
    split at h
    · simp at h
    · rename_i hb
      rw [if_neg hb]
      simp only at h ⊢
      rw [ih _ h]

theorem onePass_nodup (busy : BitVec 8) (cs : List Nat) (h : (cs.map (· % 8)).Nodup)
    (hb : ∀ c ∈ cs, busy.getLsbD (c % 8) = false) : (onePass busy cs).2.1 = [] := by
  induction cs generalizing busy with
  | nil => rfl
  | cons c cs ih =>
    simp only [List.map_cons, List.nodup_cons, List.mem_map] at h
    unfold onePass
    rw [if_neg (by rw [hb c (by simp)]; decide)]
    refine ih _ h.2 (fun d hd => ?_)
    have hne : d % 8 ≠ c % 8 := fun e => h.1 ⟨d, hd, e⟩
    have hlt : d % 8 < 8 := Nat.mod_lt _ (by decide)
    simp only [BitVec.getLsbD_or, hb d (by simp [hd]), Bool.false_or]
    rw [BitVec.getLsbD_shiftLeft]
    simp only [BitVec.getLsbD_one, hlt, decide_true, Bool.true_and]
    by_cases hc : d % 8 < c % 8
    · simp [hc]
    · have : d % 8 - c % 8 ≠ 0 := by omega
      simp [this]

theorem mem_chunksOf (ps : List Nat) (p : Nat) (h : p ∈ ps) : p / 16 ∈ chunksOf ps := by
  unfold chunksOf; rw [List.mem_eraseDups]; exact List.mem_map.2 ⟨p, h, rfl⟩

theorem chunksOf_const (ps : List Nat) (c : Nat) (h : ∀ p ∈ ps, p / 16 = c) : chunksOf ps = [] ∨ chunksOf ps = [c] := by
  unfold chunksOf
  have : ps.map (· / 16) = List.replicate ps.length c := by
    rw [List.eq_replicate_iff]; refine ⟨by simp, fun b hb => ?_⟩
    obtain ⟨p, hp, rfl⟩ := List.mem_map.1 hb; exact h p hp
  rw [this]
  cases ps with
  | nil => left; rfl
  | cons p ps =>
    right
    rw [List.length_cons, List.replicate_succ, List.eraseDups_cons, List.filter_eq_nil_iff.2]
    · rfl
    · intro a ha; rw [List.eq_of_mem_replicate ha]; simp

theorem map_getD_range {α : Type} (ps : List α) (d : α) : (List.range ps.length).map (fun i => (ps[i]?).getD d) = ps := by
  apply List.ext_getElem
  · simp
  · intro i h1 h2; simp [h2]

theorem filter_served (ps : List Nat) (now : List Nat) (h : ∀ p ∈ ps, p / 16 ∈ now) :
    (List.range ps.length).filter (fun i => now.contains ((ps[i]?).getD 0 / 16)) = List.range ps.length := by
  rw [List.filter_eq_self]
  intro i hi
  rw [List.mem_range] at hi
  rw [List.contains_iff_mem, List.getElem?_eq_getElem hi]
  exact h _ (List.getElem_mem _)

theorem find_foldl_set {α : Type} (g : NMap α) (l : List Nat) (f : Nat → α) (i : Nat) (h : i ∈ l) :
    NMap.find (l.foldl (fun g i => NMap.set g i (f i)) g) i = some (f i) := by
  induction l using List.reverseRecOn with
  | nil => simp at h
  | append_singleton l a ih =>
    rw [List.foldl_append]; simp only [List.foldl_cons, List.foldl_nil]
    by_cases e : i = a
    · subst e; exact NMap.find_set_same _ _ _
    · rw [NMap.find_set_other _ _ _ _ e]
      exact ih (by simpa [e] using h)

/-- A pass that serves every chunk of a load gathers every byte. -/
theorem bytes_served (s : State) (c : Nat) (r : MemReq) (now : List Nat) (hs : r.isStore = false)
    (hlen : (physOf r.vas).length = r.vas.length) (h : ∀ p ∈ physOf r.vas, p / 16 ∈ now) :
    serveChunks s c r now = (lsCorrect s c (physOf r.vas), (serveChunks s c r now).2) ∧
      (serveChunks s c r now).2.bytes = (physOf r.vas).map (cellGet (s.core c).ls) := by
  unfold serveChunks
  rw [if_neg (by rw [hs]; decide)]
  dsimp only
  rw [filter_served _ _ h]
  refine ⟨by rw [map_getD_range], ?_⟩
  unfold MemReq.bytes
  apply List.ext_getElem
  · simp [hlen]
  · intro i h1 h2
    simp only [List.getElem_map, List.getElem_range]
    rw [find_foldl_set _ _ (fun i => cellGet (s.core c).ls (((physOf r.vas)[i]?).getD 0)) i (by
      rw [List.mem_range]; simpa using h2)]
    have : i < (physOf r.vas).length := by simpa using h2
    simp [this]

/-- A pass that serves every chunk of a store writes every byte. -/
theorem stores_served (s : State) (c : Nat) (r : MemReq) (now : List Nat) (hs : r.isStore = true)
    (hlen : r.data.length = (physOf r.vas).length) (h : ∀ p ∈ physOf r.vas, p / 16 ∈ now) :
    serveChunks s c r now = (lsStore s c (physOf r.vas) r.data, r) := by
  unfold serveChunks
  rw [if_pos hs]
  dsimp only
  rw [filter_served _ _ h, List.map_map, List.map_map]
  rw [show ((fun x : Nat × Byte => x.1) ∘ fun i => (((physOf r.vas)[i]?).getD 0, (r.data[i]?).getD 0)) = fun i => ((physOf r.vas)[i]?).getD 0 from rfl]
  rw [show ((fun x : Nat × Byte => x.2) ∘ fun i => (((physOf r.vas)[i]?).getD 0, (r.data[i]?).getD 0)) = fun i => (r.data[i]?).getD 0 from rfl]
  rw [map_getD_range, ← hlen, map_getD_range]

/-! ## What releases and acquires leave as it was -/

theorem Slot.butSignatures_refl (a : Slot) : a.butSignatures a := rfl

theorem Slot.butSignatures_trans {a b c : Slot} (h : a.butSignatures b) (h' : b.butSignatures c) : a.butSignatures c := by
  unfold Slot.butSignatures at *
  rw [h'] ; rw [h]

/-- Of two states, the second differs from the first at most in signatures, in the record of the banks claimed and in
the copies of remote lines. -/
structure State.SigOnly (s t : State) : Prop where
  mem : t.mem = s.mem
  cur : t.cur = s.cur
  cycle : t.cycle = s.cycle
  iss : t.iss = s.iss
  poison : t.poison = s.poison
  agenda : t.agenda = s.agenda
  slots : s.SlotsButSignatures t
  core : ∀ k, ∃ a b d n, t.core k = { s.core k with pubSig := a, bankCycle := b, bankMask := d, softErrors := n }

theorem State.SigOnly.refl (s : State) : s.SigOnly s :=
  ⟨rfl, rfl, rfl, rfl, rfl, rfl, fun _ => rfl, fun _ => ⟨_, _, _, _, rfl⟩⟩

theorem State.SigOnly.trans {s t u : State} (h : s.SigOnly t) (h' : t.SigOnly u) : s.SigOnly u := by
  refine ⟨h'.mem.trans h.mem, h'.cur.trans h.cur, h'.cycle.trans h.cycle, h'.iss.trans h.iss, h'.poison.trans h.poison,
    h'.agenda.trans h.agenda, fun k => Slot.butSignatures_trans (h.slots k) (h'.slots k), fun k => ?_⟩
  obtain ⟨a, b, d, n, e⟩ := h.core k
  obtain ⟨a', b', d', n', e'⟩ := h'.core k
  exact ⟨a', b', d', n', by rw [e', e]⟩

theorem sigOnly_modCore (s : State) (c : Nat) (f : Core → Core)
    (h : ∀ co, ∃ a b d n, f co = { co with pubSig := a, bankCycle := b, bankMask := d, softErrors := n }) : s.SigOnly (s.modCore c f) := by
  refine ⟨rfl, rfl, rfl, rfl, rfl, rfl, fun _ => rfl, fun k => ?_⟩
  by_cases e : k = c
  · subst e; rw [State.core_modCore_same]; exact h _
  · rw [State.core_modCore_other _ _ _ _ e]; exact ⟨_, _, _, _, rfl⟩

/-- Where no bit stands wrong, there is nothing to correct (R168). -/
theorem correct_nil (s : State) (ps : List Place) (f : State → State) (h : s.flipped = []) : correct s ps f = s := by
  unfold correct; rw [h]; rfl

theorem lsCorrect_nil (s : State) (c : Nat) (ps : List Nat) (h : s.flipped = []) : lsCorrect s c ps = s :=
  correct_nil s _ _ h

/-- Correcting single-bit errors changes no value: the errors go and are counted (R168). -/
theorem sigOnly_lsCorrect (s : State) (c : Nat) (ps : List Nat) : s.SigOnly (lsCorrect s c ps) := by
  unfold lsCorrect correct
  split
  · exact State.SigOnly.refl s
  · rename_i hne; clear hne
    generalize ps.map (fun p => Place.ls c (p / 8)) = l
    induction l generalizing s with
    | nil => exact State.SigOnly.refl s
    | cons p l ih =>
      rw [List.foldl_cons]
      refine State.SigOnly.trans ?_ (ih _)
      split
      · refine State.SigOnly.trans (t := { s with flipped := s.flipped.filter (· != p) }) ?_ (sigOnly_modCore _ c _ (fun _ => ⟨_, _, _, _, rfl⟩))
        exact ⟨rfl, rfl, rfl, rfl, rfl, rfl, fun _ => rfl, fun _ => ⟨_, _, _, _, rfl⟩⟩
      · exact State.SigOnly.refl s

/-- Correcting errors touches the count of the core and the list of errors. -/
theorem lsCorrect_frame (s : State) (c : Nat) (ps : List Nat) :
    ∃ cores flipped, lsCorrect s c ps = { s with cores := cores, flipped := flipped } := by
  unfold lsCorrect correct
  split
  · exact ⟨_, _, rfl⟩
  · rename_i hne; clear hne
    generalize ps.map (fun p => Place.ls c (p / 8)) = l
    induction l generalizing s with
    | nil => exact ⟨_, _, rfl⟩
    | cons p l ih =>
      rw [List.foldl_cons]
      split
      · obtain ⟨_, _, e⟩ := ih (countCore c { s with flipped := s.flipped.filter (· != p) })
        exact ⟨_, _, e⟩
      · exact ih s

theorem sigOnly_claimBanks (s : State) (c : Nat) (m : BitVec 8) : s.SigOnly (claimBanks s c m) :=
  sigOnly_modCore s c _ (fun _ => ⟨_, _, _, _, rfl⟩)

theorem sigOnly_publishCore (s : State) (c w : Nat) (sig : Sig) : s.SigOnly (publishCore s c w sig) :=
  sigOnly_modCore s c _ (fun _ => ⟨_, _, _, _, rfl⟩)

theorem sigOnly_modDie (s : State) (d : Nat) (f : Die → Die) : s.SigOnly (s.modDie d f) :=
  ⟨rfl, rfl, rfl, rfl, rfl, rfl, fun _ => rfl, fun _ => ⟨_, _, _, _, rfl⟩⟩

theorem sigOnly_modCluster (s : State) (d : Nat) (f : Cluster → Cluster) : s.SigOnly (s.modCluster d f) :=
  ⟨rfl, rfl, rfl, rfl, rfl, rfl, fun _ => rfl, fun _ => ⟨_, _, _, _, rfl⟩⟩

theorem sigOnly_modCtx (s : State) (c num : Nat) (f : Slot → Slot) (h : ∀ sl : Slot, sl.butSignatures (f sl)) :
    s.SigOnly (s.modCtx c num f) := by
  unfold State.modCtx
  split
  · rename_i k _
    refine ⟨rfl, rfl, rfl, rfl, rfl, rfl, fun j => ?_, fun _ => ⟨_, _, _, _, rfl⟩⟩
    by_cases e : j = k
    · subst e; rw [State.slot_modSlot_same]; exact h _
    · rw [State.slot_modSlot_other _ _ _ _ e]; rfl
  · exact sigOnly_modCluster _ _ _

theorem sigOnly_acquireCtx (s : State) (c num : Nat) (sig : Sig) : s.SigOnly (acquireCtx s c num sig) := by
  unfold acquireCtx invalidateMatching
  exact (sigOnly_modCtx s c num (·.addAcc sig) (fun _ => rfl)).trans (sigOnly_modDie _ _ _)

theorem sigOnly_acquireAtCore (s : State) (c num core : Nat) : s.SigOnly (acquireAtCore s c num core) := by
  unfold acquireAtCore
  split
  · exact sigOnly_acquireCtx _ _ _ _
  · exact State.SigOnly.refl s

theorem sigOnly_releaseAtCore (s : State) (c num core : Nat) (rel : Bool) :
    s.SigOnly (releaseAtCore s c num core rel) := by
  unfold releaseAtCore
  split
  · split
    · dsimp only
      split
      · exact (sigOnly_publishCore _ _ _ _).trans (sigOnly_modCtx _ _ _ _ (fun _ => rfl))
      · exact sigOnly_publishCore _ _ _ _
    · exact State.SigOnly.refl s
  · exact State.SigOnly.refl s

theorem sigOnly_modMe_id (s : State) : s.SigOnly (s.modMe id) := by
  refine ⟨rfl, rfl, rfl, rfl, rfl, rfl, fun j => ?_, fun _ => ⟨_, _, _, _, rfl⟩⟩
  rw [State.modMe_eq]
  by_cases e : j = s.cur
  · subst e; rw [State.slot_modSlot_same]; rfl
  · rw [State.slot_modSlot_other _ _ _ _ e]; rfl

theorem hitWatches_frame (s : State) (ls : List Nat) : ∃ cl, hitWatches s ls = { s with clusters := cl } := by
  unfold hitWatches hitWatchesBut; dsimp only
  split
  · exact ⟨_, rfl⟩
  · exact ⟨_, rfl⟩

/-- A store to the own local store with no uncorrectable word about. -/
theorem lsStore_frame (s : State) (c : Nat) (ps : List Nat) (bs : List Byte) (h : s.poison = []) :
    ∃ cl, lsStore s c ps bs = { (lsCorrect s c ps).modCore c (fun co => { co with ls := lsPut co.ls (ps.zip bs) }) with clusters := cl } := by
  have hu := sigOnly_lsCorrect s c ps
  unfold lsStore lsStoreBut lsWrite
  dsimp only
  rw [if_pos (by rw [show ((lsCorrect s c ps).modCore c _).poison = (lsCorrect s c ps).poison from rfl, hu.poison, h]; rfl)]
  exact hitWatches_frame _ _

/-- A load that needs one pass is complete at issue. -/
theorem localPasses_load (s : State) (r : MemReq) (hs : r.isStore = false)
    (hlen : (physOf r.vas).length = r.vas.length) (h : (onePass 0 (chunksOf (physOf r.vas))).2.1 = []) :
    ∃ u, s.SigOnly u ∧ localPasses s r = .next (u.modMe (r.result ((physOf r.vas).map (cellGet (s.core (coreOf s.cur)).ls)))) := by
  have hnow := onePass_all _ _ h
  unfold localPasses
  rcases e : onePass 0 (chunksOf (physOf r.vas)) with ⟨now, rest, mask⟩
  rw [e] at hnow h
  dsimp only at hnow h
  subst hnow; subst h
  dsimp only
  obtain ⟨h1, h2⟩ := bytes_served (claimBanks s (coreOf s.cur) mask) (coreOf s.cur) r (chunksOf (physOf r.vas)) hs hlen
    (fun p hp => mem_chunksOf _ _ hp)
  rw [h1]
  refine ⟨_, (sigOnly_claimBanks s (coreOf s.cur) mask).trans (sigOnly_lsCorrect _ (coreOf s.cur) (physOf r.vas)), ?_⟩
  rw [if_pos (show ([] : List Nat).isEmpty = true from rfl), h2]
  have e1 : (serveChunks (claimBanks s (coreOf s.cur) mask) (coreOf s.cur) r (chunksOf (physOf r.vas))).2.result = r.result := by
    unfold serveChunks; rw [if_neg (by rw [hs]; decide)]; rfl
  have e2 : ((claimBanks s (coreOf s.cur) mask).core (coreOf s.cur)).ls = (s.core (coreOf s.cur)).ls := by
    unfold claimBanks; rw [State.core_modCore_same]
  rw [e1, e2]

/-- A store that needs one pass is complete at issue. -/
theorem localPasses_store (s : State) (r : MemReq) (hs : r.isStore = true)
    (hlen : r.data.length = (physOf r.vas).length) (h : (onePass 0 (chunksOf (physOf r.vas))).2.1 = []) :
    ∃ u, s.SigOnly u ∧ ∃ t, (lsStore u (coreOf s.cur) (physOf r.vas) r.data).SigOnly t ∧ localPasses s r = .next t := by
  have hnow := onePass_all _ _ h
  unfold localPasses
  rcases e : onePass 0 (chunksOf (physOf r.vas)) with ⟨now, rest, mask⟩
  rw [e] at hnow h
  dsimp only at hnow h
  subst hnow; subst h
  dsimp only
  rw [stores_served (claimBanks s (coreOf s.cur) mask) (coreOf s.cur) r (chunksOf (physOf r.vas)) hs hlen
    (fun p hp => mem_chunksOf _ _ hp)]
  refine ⟨claimBanks s (coreOf s.cur) mask, sigOnly_claimBanks _ _ _, _, ?_, rfl⟩
  have e : ∀ bs, r.result bs = id := by
    intro bs; funext sl
    unfold MemReq.isStore at hs
    unfold MemReq.result
    split at hs <;> simp_all
  rw [e]; exact sigOnly_modMe_id _

/-! ## An access to the own local store, by operation -/

theorem localAccess_load (s : State) (r : MemReq) (ho : r.op = .ld ∨ r.op = .vld ∨ r.op = .vldd ∨ r.op = .vldt ∨ r.op = .vldx ∨ r.op = .gstat ∨ r.op = .qpush ∨ r.op = .xred)
    (hf : localFault s (if r.op = .vldd then rising r.vas else r.vas) = none) :
    localAccess s r = localPasses (if r.acq then acquireAtCore s (coreOf s.cur) s.me.ctxNum (coreOf s.cur) else s) r := by
  unfold localAccess; dsimp only; rw [hf]; dsimp only
  rcases ho with h | h | h | h | h | h | h | h <;> rw [h]

theorem localAccess_store (s : State) (r : MemReq) (ho : r.op = .st ∨ r.op = .vst ∨ r.op = .vstx)
    (hf : localFault s r.vas = none) :
    localAccess s r = localPasses (releaseAtCore s (coreOf s.cur) s.me.ctxNum (coreOf s.cur) r.rel) r := by
  unfold localAccess; dsimp only; rw [if_neg (by rcases ho with h | h | h <;> rw [h] <;> decide), hf]; dsimp only
  rcases ho with h | h | h <;> rw [h]

theorem sigOnly_singlePass (s : State) (c : Nat) (ps : List Nat) : s.SigOnly (singlePass s c ps) :=
  (sigOnly_lsCorrect s c ps).trans (sigOnly_claimBanks _ _ _)

theorem ls_sigOnly {s t : State} (h : s.SigOnly t) (c : Nat) (ps : List Nat) : lsRead t c ps = lsRead s c ps := by
  obtain ⟨_, _, _, _, e⟩ := h.core c
  unfold lsRead lsGet; rw [e]

theorem localAccess_ldp (s : State) (r : MemReq) (ho : r.op = .ldp) (hf : localFault s r.vas = none) :
    let c := coreOf s.cur
    let u := singlePass s c (physOf r.vas)
    localAccess s r = .next ((if r.acq then acquireAtCore u c s.me.ctxNum c else u).modMe (fun sl =>
      sl.putX (regOf r.rd) (ofBool (isFull (s.core c) (((physOf r.vas).head?).getD 0 / 8))))) := by
  unfold localAccess; dsimp only; rw [if_neg (by rw [ho]; decide), hf]; dsimp only
  rw [ho]

theorem localAccess_sfe (s : State) (r : MemReq) (ho : r.op = .sfe) (hf : localFault s r.vas = none) :
    let c := coreOf s.cur
    localAccess s r = .next (setFe (releaseAtCore (singlePass s c (physOf r.vas)) c s.me.ctxNum c r.rel) c
      (((physOf r.vas).head?).getD 0 / 8) ((leWord r.data).getLsbD 0)) := by
  unfold localAccess; dsimp only; rw [if_neg (by rw [ho]; decide), hf]; dsimp only
  rw [ho]

theorem localAccess_stf (s : State) (r : MemReq) (ho : r.op = .stf) (hf : localFault s r.vas = none) :
    let c := coreOf s.cur
    localAccess s r = .next (setFe (lsStore (releaseAtCore (singlePass s c (physOf r.vas)) c s.me.ctxNum c r.rel) c
      (physOf r.vas) r.data) c (((physOf r.vas).head?).getD 0 / 8) true) := by
  unfold localAccess; dsimp only; rw [if_neg (by rw [ho]; decide), hf]; dsimp only
  rw [ho]

theorem localAccess_lds_full (s : State) (r : MemReq) (ho : r.op = .lds) (hf : localFault s r.vas = none)
    (h : isFull (s.core (coreOf s.cur)) (((physOf r.vas).head?).getD 0 / 8) = true) :
    let c := coreOf s.cur
    let u := singlePass s c (physOf r.vas)
    localAccess s r = .next (((if r.acq then acquireAtCore u c s.me.ctxNum c else u).modCore c
      (fun co => setEmptyBit co (((physOf r.vas).head?).getD 0 / 8))).modMe (r.result (lsRead u c (physOf r.vas)))) := by
  unfold localAccess; dsimp only; rw [if_neg (by rw [ho]; decide), hf]; dsimp only
  rw [ho]; dsimp only; rw [if_pos h]

theorem localAccess_lds_empty (s : State) (r : MemReq) (ho : r.op = .lds) (hf : localFault s r.vas = none)
    (h : isFull (s.core (coreOf s.cur)) (((physOf r.vas).head?).getD 0 / 8) = false) :
    let c := coreOf s.cur
    localAccess s r = .next (joinWaiters (park (singlePass s c (physOf r.vas)) s.cur .waitMem (.mem r)) c
      { word := ((physOf r.vas).head?).getD 0 / 8, who := .ctx c s.me.ctxNum, world := s.me.world, off := r.ea, size := r.vas.length }) := by
  unfold localAccess; dsimp only; rw [if_neg (by rw [ho]; decide), hf]; dsimp only
  rw [ho]; dsimp only; rw [if_neg (by rw [h]; decide)]

/-- An atomic on the own local store: the old bytes, and the state in which the new value stands there. -/
theorem localAccess_amo (s : State) (r : MemReq) (ho : r.op = .amo)
    (hf : localFault s r.vas = none) :
    let bs := lsRead s (coreOf s.cur) (physOf r.vas)
    let v := (amoNew (r.w % 16) (decide (16 ≤ r.w)) bs.length (leNat bs) (leNat r.data) r.cmp.toNat).1
    ∃ u, s.SigOnly u ∧ ∃ t, (lsStore u (coreOf s.cur) (physOf r.vas) (toLe v bs.length)).SigOnly t
      ∧ localAccess s r = .next (t.modMe (r.result bs)) := by
  intro bs v
  have hu := sigOnly_singlePass s (coreOf s.cur) (physOf r.vas)
  have e : bs = lsRead (singlePass s (coreOf s.cur) (physOf r.vas)) (coreOf s.cur) (physOf r.vas) := (ls_sigOnly hu _ _).symm
  refine ⟨_, hu, ?_⟩
  unfold localAccess; dsimp only
  rw [if_neg (by rw [ho]; decide), hf]; dsimp only; rw [ho]; dsimp only
  rw [← e]
  split
  · exact ⟨_, (sigOnly_releaseAtCore _ _ _ _ _).trans (sigOnly_acquireAtCore _ _ _ _), rfl⟩
  · exact ⟨_, sigOnly_releaseAtCore _ _ _ _ _, rfl⟩

end Sys2Proof.Machine
end

