-- ==== Sys2Proof/Laws/Commit.lean ====
section
/-! SUPPORT. What the end of a parked bundle does: its slot afterwards, and what it leaves as it was. -/

namespace Sys2Proof.Machine

/-- The state-change log touches of a core only its own counters and pending records. -/
def Core.butTrace (a b : Core) : Prop :=
  b = { a with traceNext := b.traceNext, traceWraps := b.traceWraps, traceLost := b.traceLost, traceLast := b.traceLast,
                tracePend := b.tracePend }

theorem Core.butTrace_refl (a : Core) : a.butTrace a := rfl

theorem Core.butTrace_trans {a b c : Core} (h : a.butTrace b) (h' : b.butTrace c) : a.butTrace c := by
  unfold Core.butTrace at *
  rw [h']; rw [h]

theorem core_modCore_butTrace (s : State) (d : Nat) (f : Core → Core) (h : ∀ co : Core, co.butTrace (f co)) (c : Nat) :
    (s.core c).butTrace ((s.modCore d f).core c) := by
  by_cases e : c = d
  · subst e; rw [State.core_modCore_same]; exact h _
  · rw [State.core_modCore_other _ _ _ _ e]; rfl

theorem core_pokeMem (s : State) (pa : Nat) (bs : List Byte) (c : Nat) : (s.pokeMem pa bs).core c = s.core c := rfl

theorem core_tracePut (s : State) (d : Nat) (ws : List Word) (c : Nat) : (s.core c).butTrace ((tracePut s d ws).core c) := by
  unfold tracePut; dsimp only
  split <;> split
  · rw [core_pokeMem]; exact core_modCore_butTrace s d _ (by intro _; exact rfl) c
  · rw [core_hatPost]
    refine Core.butTrace_trans ?_ (core_modCore_butTrace _ d (fun x => { x with traceLost := x.traceLost + 1 }) (fun _ => rfl) c)
    exact core_modCore_butTrace s d _ (by intro _; exact rfl) c
  · rw [core_pokeMem]; exact core_modCore_butTrace s d _ (by intro _; exact rfl) c
  · rw [core_hatPost]
    refine Core.butTrace_trans ?_ (core_modCore_butTrace _ d (fun x => { x with traceLost := x.traceLost + 1 }) (fun _ => rfl) c)
    exact core_modCore_butTrace s d _ (by intro _; exact rfl) c

theorem core_traceClass (s : State) (k cls c : Nat) : (s.core c).butTrace ((traceClass s k cls).core c) := by
  unfold traceClass
  split
  · exact core_modCore_butTrace s _ _ (by intro _; exact rfl) c
  · rfl

theorem core_toState (s : State) (k : Nat) (st : SlotState) (c : Nat) : (s.core c).butTrace ((s.toState k st).core c) := by
  unfold State.toState; dsimp only
  split
  · exact Core.butTrace_refl _
  · split
    · exact Core.butTrace_refl _
    · exact core_traceClass (s.modSlot k _) k _ c

theorem core_toReady (s : State) (k c : Nat) : (s.core c).butTrace ((s.toReady k).core c) := by
  unfold State.toReady
  split
  · exact core_toState s k _ c
  · exact core_toState s k _ c

theorem core_park (s : State) (k : Nat) (st : SlotState) (w : Wait) (c : Nat) :
    (s.core c).butTrace ((park s k st w).core c) := core_toState _ _ _ _

theorem slot_toReady_same' (s : State) (k : Nat) (h : (s.slot k).stopPending = false) :
    (s.toReady k).slot k = (s.slot k).enter s.cycle .ready := by
  unfold State.toReady; rw [if_neg (by rw [h]; decide)]; exact slot_toState_same s k .ready

theorem commit_plain (sl : Slot) (hh : sl.held = Held.none) (hr : sl.streamsRead = 0) :
    ({ sl.commit with streamsRead := 0 } : Slot) = { sl with wait := .none, pc := sl.npc, bundle := 0 } := by
  cases sl
  simp only at hh hr
  subst hh; subst hr
  simp [Slot.commit, Held.none, Slot.addFlags]

/-- The slot of a parked bundle that ends with nothing held back: READY, or HALTED for a HALT. -/
theorem slot_finishBundle_same (s : State) (k : Nat) (hl : (s.slot k).longUntil ≤ s.cycle)
    (hr : (s.slot k).streamsRead = 0) (hs : (s.slot k).stopPending = false) (hh : (s.slot k).held = Held.none) :
    (finishBundle s k).slot k = ({ s.slot k with wait := .none, pc := (s.slot k).npc, bundle := 0 } : Slot).enter s.cycle
      (if (s.slot k).wait = .longHalt then .halted else .ready) := by
  unfold finishBundle
  rw [if_neg (by omega)]; dsimp only
  have ha : ∀ u : State, advanceStreams u k (s.slot k).streamsRead = u := by
    intro u; rw [hr]; unfold advanceStreams; rw [if_pos rfl]
  rw [ha]
  have e := commit_plain (s.slot k) hh hr
  have hc : ∀ st : SlotState, ((s.modSlot k fun sl => { sl.commit with streamsRead := 0 }).toState k st).slot k
      = ({ s.slot k with wait := .none, pc := (s.slot k).npc, bundle := 0 } : Slot).enter s.cycle st := by
    intro st; rw [slot_toState_same, State.slot_modSlot_same, e]; exact rfl
  by_cases hw : (s.slot k).wait = .longHalt
  · rw [if_pos (by simpa using hw), if_pos hw]; exact hc .halted
  · rw [if_neg (by simpa using hw), if_neg hw]
    rw [slot_toReady_same' _ _ (by rw [State.slot_modSlot_same, e]; exact hs), State.slot_modSlot_same, e]; exact rfl

theorem core_advanceStreams (s : State) (k : Nat) (m : BitVec 4) (c : Nat) : (advanceStreams s k m).core c = s.core c := by
  unfold advanceStreams; split
  · rfl
  · rfl

theorem slot_advanceStreams_other (s : State) (k j : Nat) (m : BitVec 4) (h : j ≠ k) : (advanceStreams s k m).slot j = s.slot j := by
  unfold advanceStreams; split
  · rfl
  · rw [State.slot_tick, State.slot_modSlot_other _ _ _ _ h]

theorem core_finishBundle (s : State) (k c : Nat) : (s.core c).butTrace ((finishBundle s k).core c) := by
  unfold finishBundle
  split
  · exact core_park _ _ _ _ _
  · dsimp only
    split
    · refine Core.butTrace_trans ?_ (core_toState _ _ _ c); rw [core_advanceStreams]; rfl
    · refine Core.butTrace_trans ?_ (core_toReady _ _ c); rw [core_advanceStreams]; rfl

theorem slot_finishBundle_other (s : State) (k j : Nat) (h : j ≠ k) : (finishBundle s k).slot j = s.slot j := by
  unfold finishBundle
  split
  · exact slot_park_other _ _ _ _ _ h
  · dsimp only
    split
    · rw [slot_toState_other _ _ _ _ h, slot_advanceStreams_other _ _ _ _ h, State.slot_modSlot_other _ _ _ _ h]
    · rw [slot_toReady_other _ _ _ h, slot_advanceStreams_other _ _ _ _ h, State.slot_modSlot_other _ _ _ _ h]

theorem mem_finishBundle (s : State) (k : Nat) (h : s.unlogged k) : (finishBundle s k).mem = s.mem := by
  unfold finishBundle
  split
  · exact (park_mem _ _ _ _ h).1
  · dsimp only
    have ha : (advanceStreams (s.modSlot k fun sl => { sl.commit with streamsRead := 0 }) k (s.slot k).streamsRead).mem = s.mem := by
      unfold advanceStreams; split <;> rfl
    have hu : (advanceStreams (s.modSlot k fun sl => { sl.commit with streamsRead := 0 }) k (s.slot k).streamsRead).unlogged k := by
      unfold State.unlogged; rw [core_advanceStreams]; exact h
    split
    · rw [(toState_mem _ _ _ hu).1, ha]
    · unfold State.toReady
      split
      · exact (toState_mem _ _ _ hu).1.trans ha
      · rw [(toState_mem _ _ _ hu).1, ha]

theorem findSlot_congr (s t : State) (num : Nat) (h : ∀ j, (t.slot j).state = (s.slot j).state ∧ (t.slot j).ctxNum = (s.slot j).ctxNum)
    (k n : Nat) : findSlot t num k n = findSlot s num k n := by
  induction n generalizing k with
  | zero => rfl
  | succ n ih => unfold findSlot; rw [(h k).1, (h k).2, ih]

end Sys2Proof.Machine
end

