-- ==== Sys2Proof/Laws/Events.lean ====
section
/-! SUPPORT. Laws of the agenda: what scheduling an event, parking a slot and making it ready leave as they were. -/

namespace Sys2Proof.Machine

/-! ## Scheduling changes nothing that a table holds -/

@[simp] theorem slot_at_ (s : State) (n : Nat) (e : Event) (k : Nat) : (s.at_ n e).slot k = s.slot k := rfl
@[simp] theorem core_at_ (s : State) (n : Nat) (e : Event) (k : Nat) : (s.at_ n e).core k = s.core k := rfl
@[simp] theorem cluster_at_ (s : State) (n : Nat) (e : Event) (k : Nat) : (s.at_ n e).cluster k = s.cluster k := rfl
@[simp] theorem die_at_ (s : State) (n : Nat) (e : Event) (k : Nat) : (s.at_ n e).die k = s.die k := rfl
@[simp] theorem polder_at_ (s : State) (n : Nat) (e : Event) (k : Nat) : (s.at_ n e).polder k = s.polder k := rfl
@[simp] theorem link_at_ (s : State) (n : Nat) (e : Event) (k : Nat) : (s.at_ n e).link k = s.link k := rfl
@[simp] theorem slot_later (s : State) (p : Nat) (e : Event) (k : Nat) : (s.later p e).slot k = s.slot k := rfl
@[simp] theorem core_later (s : State) (p : Nat) (e : Event) (k : Nat) : (s.later p e).core k = s.core k := rfl
@[simp] theorem cluster_later (s : State) (p : Nat) (e : Event) (k : Nat) : (s.later p e).cluster k = s.cluster k := rfl
@[simp] theorem die_later (s : State) (p : Nat) (e : Event) (k : Nat) : (s.later p e).die k = s.die k := rfl
@[simp] theorem polder_later (s : State) (p : Nat) (e : Event) (k : Nat) : (s.later p e).polder k = s.polder k := rfl
@[simp] theorem link_later (s : State) (p : Nat) (e : Event) (k : Nat) : (s.later p e).link k = s.link k := rfl
@[simp] theorem slot_next1 (s : State) (e : Event) (k : Nat) : (s.next1 e).slot k = s.slot k := rfl
@[simp] theorem core_next1 (s : State) (e : Event) (k : Nat) : (s.next1 e).core k = s.core k := rfl
@[simp] theorem cluster_next1 (s : State) (e : Event) (k : Nat) : (s.next1 e).cluster k = s.cluster k := rfl
@[simp] theorem die_next1 (s : State) (e : Event) (k : Nat) : (s.next1 e).die k = s.die k := rfl
@[simp] theorem polder_next1 (s : State) (e : Event) (k : Nat) : (s.next1 e).polder k = s.polder k := rfl
@[simp] theorem link_next1 (s : State) (e : Event) (k : Nat) : (s.next1 e).link k = s.link k := rfl

/-! ## What is scheduled stands in the agenda -/

theorem at_mem (s : State) (n : Nat) (e : Event) : (n, e) ∈ (s.at_ n e).agenda := mem_agendaIns _ _ _

theorem next1_mem (s : State) (e : Event) : (s.cycle + 1, e) ∈ (s.next1 e).agenda := mem_agendaIns _ _ _

theorem later_mem (s : State) (n p : Nat) (e : Event) (h : s.cycle = n) :
    ∃ due, n < due ∧ (due, e) ∈ (s.later p e).agenda :=
  ⟨s.cycle + 1 + Config.latency p s.free, by omega, mem_agendaIns _ _ _⟩

theorem within_mem (s : State) (n p m : Nat) (e : Event) (h : s.cycle = n) (hm : 1 ≤ m) :
    ∃ due, n < due ∧ due ≤ n + m ∧ (due, e) ∈ (s.within p m e).agenda :=
  ⟨s.cycle + 1 + Nat.min (Config.latency p s.free) (m - 1), by omega,
    by have := Nat.min_le_right (Config.latency p s.free) (m - 1)
       have e : Nat.min (Config.latency p s.free) (m - 1) = min (Config.latency p s.free) (m - 1) := rfl
       omega, mem_agendaIns _ _ _⟩

theorem laterAfter_mem (s : State) (n p : Nat) (q : Event → Bool) (e : Event) (h : s.cycle = n) :
    ∃ due, n < due ∧ (due, e) ∈ (s.laterAfter p q e).agenda :=
  ⟨Nat.max (s.cycle + 1 + Config.latency p s.free) (lastDue q s.agenda),
    by have e : Nat.max (s.cycle + 1 + Config.latency p s.free) (lastDue q s.agenda)
         = max (s.cycle + 1 + Config.latency p s.free) (lastDue q s.agenda) := rfl
       omega, mem_agendaIns _ _ _⟩

/-! ## A table whose entries are all changed in one way -/

theorem NMap.find_map {α : Type} (m : NMap α) (f : α → α) (k : Nat) :
    NMap.find (m.map (fun p => (p.1, f p.2))) k = (NMap.find m k).map f := by
  induction m with
  | nil => rfl
  | cons p r ih =>
    obtain ⟨j, v⟩ := p
    simp only [List.map_cons, NMap.find]
    split <;> simp_all

/-! ## Parking and waking -/

theorem park_cur (s : State) (k : Nat) (st : SlotState) (w : Wait) : (park s k st w).cur = s.cur := by
  obtain ⟨_, _, e⟩ := park_frame s k st w; rw [e]

theorem park_cycle (s : State) (k : Nat) (st : SlotState) (w : Wait) : (park s k st w).cycle = s.cycle := by
  obtain ⟨_, _, e⟩ := park_frame s k st w; rw [e]

theorem slot_modSlot (s : State) (k : Nat) (f : Slot → Slot) (j : Nat) :
    (s.modSlot k f).slot j = if j = k then f (s.slot k) else s.slot j := by
  by_cases h : j = k
  · subst h; rw [if_pos rfl, State.slot_modSlot_same]
  · rw [if_neg h, State.slot_modSlot_other _ _ _ _ h]

theorem ctxSlot_congr (s t : State) (c num : Nat)
    (h : ∀ j, (t.slot j).state = (s.slot j).state ∧ (t.slot j).ctxNum = (s.slot j).ctxNum) :
    ctxSlot t c num = ctxSlot s c num := by
  unfold ctxSlot; exact findSlot_congr s t num h _ _

theorem modCtx_eq (s : State) (c num k : Nat) (f : Slot → Slot) (h : ctxSlot s c num = some k) :
    s.modCtx c num f = s.modSlot k f := by
  unfold State.modCtx; rw [h]

theorem ctxOf_eq (s : State) (c num k : Nat) (h : ctxSlot s c num = some k) : ctxOf s c num = some (s.slot k) := by
  unfold ctxOf; rw [h]

end Sys2Proof.Machine
end

