-- ==== Sys2Proof/Laws/Trap.lean ====
section
/-! SUPPORT. Laws of taking a trap and returning from one: what the two ways into a handler write, and that nothing but
the slot, the fault records and the logs changes. -/

namespace Sys2Proof.Machine

/-- The slot of a trap that the steward handles (R114). -/
theorem slot_stewardTrap_same (s : State) (k : Nat) (cause val : Word) :
    (stewardTrap s k cause val).slot k = Slot.enter { s.slot k with
      estatus := statusWord s k 1, epc := (s.slot k).pc, cause := cause, tval := val, wait := .none, held := Held.none,
      streamsRead := 0, addSent := false } s.cycle .halted := by
  unfold stewardTrap; dsimp only
  split
  · rw [State.slot_modPolder, slot_hatPost]
    exact (slot_toState_same _ k .halted).trans (by simp)
  · rw [slot_hatPost]
    exact (slot_toState_same _ k .halted).trans (by simp)

theorem slot_stewardTrap_other (s : State) (k j : Nat) (cause val : Word) (h : j ≠ k) :
    (stewardTrap s k cause val).slot j = s.slot j := by
  unfold stewardTrap; dsimp only
  split
  · rw [State.slot_modPolder, slot_hatPost]
    exact (slot_toState_other _ k j .halted h).trans (State.slot_modSlot_other _ _ _ _ h)
  · rw [slot_hatPost]
    exact (slot_toState_other _ k j .halted h).trans (State.slot_modSlot_other _ _ _ _ h)

/-- A steward trap changes the slots, the fault records and the logs. -/
theorem stewardTrap_frame (s : State) (k : Nat) (cause val : Word) :
    ∃ slots cores dies polders steward, stewardTrap s k cause val =
      { s with slots := slots, cores := cores, dies := dies, polders := polders, steward := steward } := by
  unfold stewardTrap; dsimp only
  obtain ⟨sl, co, h⟩ := toState_frame (s.modSlot k (fun sl => { sl with
    estatus := statusWord s k 1, epc := sl.pc, cause := cause, tval := val, wait := .none,
    held := Held.none, streamsRead := 0, addSent := false })) k .halted
  rw [h]
  split <;> exact ⟨_, _, _, _, _, rfl⟩

/-- The slot of a trap that enters the tenant handler (R112), where no stop is pending. -/
theorem slot_tenantTrap_same (s : State) (k : Nat) (cause val : Word) (h : (s.slot k).stopPending = false) :
    (tenantTrap s k cause val).slot k = Slot.enter { s.slot k with
      estatus := statusWord s k 1, epc := (s.slot k).pc, tval := val, cause := cause, inh := true,
      pc := (s.slot k).tvec, npc := (s.slot k).tvec, wait := .none, held := Held.none, streamsRead := 0,
      addSent := false } s.cycle .ready := by
  unfold tenantTrap
  rw [slot_toReady_same _ _ (by simpa using h)]; simp

theorem slot_tenantTrap_other (s : State) (k j : Nat) (cause val : Word) (h : j ≠ k) :
    (tenantTrap s k cause val).slot j = s.slot j := by
  unfold tenantTrap
  rw [slot_toReady_other _ _ _ h, State.slot_modSlot_other _ _ _ _ h]

theorem tenantTrap_frame (s : State) (k : Nat) (cause val : Word) :
    ∃ slots cores, tenantTrap s k cause val = { s with slots := slots, cores := cores } := by
  unfold tenantTrap
  obtain ⟨sl, co, h⟩ := toReady_frame (s.modSlot k (fun sl => { sl with
    estatus := statusWord s k 1, epc := sl.pc, tval := val, cause := cause, inh := true,
    pc := sl.tvec, npc := sl.tvec, wait := .none, held := Held.none, streamsRead := 0, addSent := false })) k
  exact ⟨_, _, h⟩

/-- Whichever handler takes a trap, only the slots, the fault records and the logs change. -/
theorem takeTrapAt_frame (s : State) (k cause : Nat) (val : Word) :
    ∃ slots cores dies polders steward, takeTrapAt s k cause val =
      { s with slots := slots, cores := cores, dies := dies, polders := polders, steward := steward } := by
  unfold takeTrapAt; dsimp only
  split
  · split
    · exact stewardTrap_frame _ _ _ _
    · split
      · exact stewardTrap_frame _ _ _ _
      · obtain ⟨_, _, h⟩ := tenantTrap_frame s k (BitVec.ofNat 64 cause) val
        rw [h]; exact ⟨_, _, _, _, _, rfl⟩
  · exact stewardTrap_frame _ _ _ _

theorem slot_takeTrapAt_other (s : State) (k j cause : Nat) (val : Word) (h : j ≠ k) :
    (takeTrapAt s k cause val).slot j = s.slot j := by
  unfold takeTrapAt; dsimp only
  split
  · split
    · exact slot_stewardTrap_other _ _ _ _ _ h
    · split
      · exact slot_stewardTrap_other _ _ _ _ _ h
      · exact slot_tenantTrap_other _ _ _ _ _ h
  · exact slot_stewardTrap_other _ _ _ _ _ h

@[simp] theorem cur_takeTrapAt (s : State) (k cause : Nat) (val : Word) : (takeTrapAt s k cause val).cur = s.cur := by
  obtain ⟨_, _, _, _, _, h⟩ := takeTrapAt_frame s k cause val; rw [h]

@[simp] theorem cycle_takeTrapAt (s : State) (k cause : Nat) (val : Word) : (takeTrapAt s k cause val).cycle = s.cycle := by
  obtain ⟨_, _, _, _, _, h⟩ := takeTrapAt_frame s k cause val; rw [h]

/-- A trap writes no x, v or stream register, and no flag. -/
theorem regs_takeTrapAt (s : State) (k cause : Nat) (val : Word) :
    ((takeTrapAt s k cause val).slot k).x = (s.slot k).x ∧ ((takeTrapAt s k cause val).slot k).v = (s.slot k).v
      ∧ ((takeTrapAt s k cause val).slot k).streams = (s.slot k).streams
      ∧ ((takeTrapAt s k cause val).slot k).pending = (s.slot k).pending
      ∧ ((takeTrapAt s k cause val).slot k).fflags = (s.slot k).fflags := by
  unfold takeTrapAt; dsimp only
  split
  · split
    · rw [slot_stewardTrap_same]; simp
    · split
      · rw [slot_stewardTrap_same]; simp
      · unfold tenantTrap State.toReady
        split
        · simp [slot_toState_same]
        · simp [slot_toState_same]
  · rw [slot_stewardTrap_same]; simp

end Sys2Proof.Machine
end

