-- ==== Sys2Proof/Laws/Vector.lean ====
section
/-! SUPPORT. Laws of lanes: the lane of a vector that is built of lanes, and what a lane operation writes. -/

namespace Sys2Proof.Machine

theorem ofLanes_lt (w : Nat) (rs : List Nat) : ofLanes w rs < 2 ^ (w * rs.length) := by
  induction rs with
  | nil => simp [ofLanes]
  | cons a rs ih =>
    have h : a % 2 ^ w < 2 ^ w := Nat.mod_lt _ (Nat.two_pow_pos w)
    have e : 2 ^ (w * (a :: rs).length) = 2 ^ w * 2 ^ (w * rs.length) := by
      rw [List.length_cons, Nat.mul_add, Nat.mul_one, Nat.pow_add, Nat.mul_comm]
    rw [ofLanes, e]
    calc a % 2 ^ w + 2 ^ w * ofLanes w rs < 2 ^ w + 2 ^ w * ofLanes w rs := Nat.add_lt_add_right h _
      _ = 2 ^ w * (ofLanes w rs + 1) := by rw [Nat.mul_add, Nat.mul_one, Nat.add_comm]
      _ ≤ 2 ^ w * 2 ^ (w * rs.length) := Nat.mul_le_mul_left _ ih

theorem ofLanes_lane (w : Nat) (rs : List Nat) (i : Nat) (h : i < rs.length) :
    ofLanes w rs >>> (i * w) % 2 ^ w = rs[i] % 2 ^ w := by
  induction rs generalizing i with
  | nil => simp at h
  | cons a rs ih =>
    rw [ofLanes]
    cases i with
    | zero => simp
    | succ i =>
      have h' : i < rs.length := by simpa using h
      have ha : a % 2 ^ w < 2 ^ w := Nat.mod_lt _ (Nat.two_pow_pos w)
      rw [Nat.add_mul, Nat.one_mul, Nat.add_comm (i * w), Nat.shiftRight_add, Nat.shiftRight_eq_div_pow _ w,
        Nat.add_mul_div_left _ _ (Nat.two_pow_pos w), Nat.div_eq_of_lt ha, Nat.zero_add, ih i h']
      simp

/-- A lane of a vector built of lanes that fill it. -/
theorem lane_vecOf (w : Nat) (rs : List Nat) (i : Nat) (h : i < rs.length) (hw : w * rs.length ≤ 128) :
    lane (vecOf w rs) i w = rs[i] % 2 ^ w := by
  have lt : ofLanes w rs < 2 ^ 128 := Nat.lt_of_lt_of_le (ofLanes_lt w rs) (Nat.pow_le_pow_right (by decide) hw)
  unfold lane vecOf
  rw [BitVec.toNat_ofNat, Nat.mod_eq_of_lt lt, ofLanes_lane w rs i h]

theorem lane_lt (v : Vec) (i w : Nat) : lane v i w < 2 ^ w := Nat.mod_lt _ (Nat.two_pow_pos w)

@[simp] theorem length_lanes (v : Vec) (w : Nat) : (lanes v w).length = 128 / w := by simp [lanes]

@[simp] theorem getElem_lanes (v : Vec) (w i : Nat) (h : i < (lanes v w).length) : (lanes v w)[i] = lane v i w := by
  simp [lanes]

/-- Lanes past those that a vector is built of are zero. -/
theorem lane_vecOf_past (w : Nat) (rs : List Nat) (i : Nat) (h : rs.length ≤ i) (hw : w * rs.length ≤ 128) :
    lane (vecOf w rs) i w = 0 := by
  have lt : ofLanes w rs < 2 ^ 128 := Nat.lt_of_lt_of_le (ofLanes_lt w rs) (Nat.pow_le_pow_right (by decide) hw)
  have lt2 : ofLanes w rs < 2 ^ (i * w) := Nat.lt_of_lt_of_le (ofLanes_lt w rs)
    (Nat.pow_le_pow_right (by decide) (by rw [Nat.mul_comm]; exact Nat.mul_le_mul_right w h))
  unfold lane vecOf
  rw [BitVec.toNat_ofNat, Nat.mod_eq_of_lt lt, Nat.shiftRight_eq_div_pow, Nat.div_eq_of_lt lt2, Nat.zero_mod]

/-- The lane count of every element type. -/
theorem typeWidth_lanes (t : Nat) : typeWidth t * (128 / typeWidth t) = 128 ∧ 0 < typeWidth t := by
  unfold typeWidth; split
  · decide
  · split
    · decide
    · split <;> decide

@[simp] theorem addFlags_zero (sl : Slot) : sl.addFlags 0#5 = sl := by simp [Slot.addFlags]

/-- A V-op of fixed latency beside no parked A-op writes its register and its flags (R65, R171). -/
theorem vOut_one (s : State) (d : Reg) (r : Vec) (fl : BitVec 5) (h : s.me.state.waiting = false) :
    vOut s [(d.toNat, r)] fl = .next (s.modMe (fun sl => (sl.putV d r).addFlags fl)) := by
  unfold vOut vResult State.modMe State.modSlot
  simp only [State.me] at h ⊢
  simp [h, regOf]

/-- What a lane operation writes, lane by lane (R174). -/
theorem laneOp_spec (s : State) (v : VF) (f : Nat → Nat → Nat → Nat × BitVec 5) (h : s.me.state.waiting = false) :
    ∃ r fl, laneOp s v f = .next (s.modMe (fun sl => (sl.putV v.vd r).addFlags fl))
      ∧ (∀ i, i < 128 / typeWidth v.ty.toNat → lane r i (typeWidth v.ty.toNat)
          = (f (lane (s.rv v.va) i (typeWidth v.ty.toNat)) (lane (s.rv v.vb) i (typeWidth v.ty.toNat))
              (lane (s.rv v.vc) i (typeWidth v.ty.toNat))).1 % 2 ^ typeWidth v.ty.toNat)
      ∧ fl = ((List.range (128 / typeWidth v.ty.toNat)).map (fun i =>
          (f (lane (s.rv v.va) i (typeWidth v.ty.toNat)) (lane (s.rv v.vb) i (typeWidth v.ty.toNat))
              (lane (s.rv v.vc) i (typeWidth v.ty.toNat))).2)).foldl (· ||| ·) 0 := by
  unfold laneOp packLanes
  refine ⟨_, _, vOut_one _ _ _ _ h, ?_, ?_⟩
  · intro i hi
    have hl : ((((zip3 (lanes (s.rv v.va) (typeWidth v.ty.toNat)) (lanes (s.rv v.vb) (typeWidth v.ty.toNat))
        (lanes (s.rv v.vc) (typeWidth v.ty.toNat))).map (fun t => f t.1 t.2.1 t.2.2))).map (·.1)).length
        = 128 / typeWidth v.ty.toNat := by simp [zip3]
    rw [lane_vecOf _ _ _ (by rw [hl]; exact hi) (by rw [hl]; exact le_of_eq (typeWidth_lanes _).1)]
    simp [zip3]
  · rw [List.foldl_map, List.foldl_map]
    unfold zip3 lanes
    simp only [List.zip_map', List.foldl_map]

end Sys2Proof.Machine
end

