-- ==== Sys2Proof/Laws/Span.lean ====
section
/-! SUPPORT. An aligned span of bytes in the own local store: one pass, distinct places, what a store leaves there. -/

namespace Sys2Proof.Machine

theorem aligned_chunk (a n i : Nat) (hn : n = 1 ∨ n = 2 ∨ n = 4 ∨ n = 8) (h : a % n = 0) (hi : i < n) : (a + i) / 16 = a / 16 := by
  rcases hn with rfl | rfl | rfl | rfl <;> omega

theorem tySize_pow (t : Nat) : tySize t = 2 ^ (t % 4) := by
  unfold tySize
  rcases (show t % 4 = 0 ∨ t % 4 = 1 ∨ t % 4 = 2 ∨ t % 4 = 3 by omega) with h | h | h | h <;> simp [h]

theorem length_toLe (v n : Nat) : (toLe v n).length = n := by
  induction n generalizing v with
  | zero => rfl
  | succ n ih => simp [toLe, ih]

theorem leNat_toLe (v n : Nat) : leNat (toLe v n) = v % 256 ^ n := by
  induction n generalizing v with
  | zero => simp [toLe, leNat, Nat.mod_one]
  | succ n ih =>
    simp only [toLe, leNat, ih]
    rw [pow_succ, Nat.mul_comm (256 ^ n) 256, Nat.mod_mul]
    simp

theorem leWord_toLe (w : Word) : leWord (toLe w.toNat 8) = w := by
  unfold leWord; rw [leNat_toLe]
  apply BitVec.eq_of_toNat_eq; simp; exact w.isLt

theorem getElem_toLe (v n i : Nat) (h : i < n) : (toLe v n)[i]'(by rw [length_toLe]; exact h) = BitVec.ofNat 8 (v / 256 ^ i) := by
  induction n generalizing v i with
  | zero => omega
  | succ n ih =>
    cases i with
    | zero => simp [toLe]
    | succ i =>
      simp only [toLe, List.getElem_cons_succ]
      rw [ih (v / 256) i (by omega), Nat.div_div_eq_div_mul, pow_succ, Nat.mul_comm]

theorem ofNat_byte (w : Word) (i : Nat) : BitVec.ofNat 8 (w.toNat / 256 ^ i) = w.extractLsb' (8 * i) 8 := by
  apply BitVec.eq_of_toNat_eq
  simp [BitVec.extractLsb', Nat.shiftRight_eq_div_pow, pow_mul]

theorem physOf_span {s : State} {a n : Nat} {phys : Nat → Nat} (h : SpanOk s a n phys) :
    physOf (span a n) = (List.range n).map (fun i => phys (a + i)) := by
  unfold physOf span
  rw [List.filterMap_map]
  have : ∀ x ∈ List.range n, (lsPhys ∘ fun i => a + i) x = some ((fun i => phys (a + i)) x) := by
    intro x hx; exact h.ph x (List.mem_range.1 hx)
  rw [List.filterMap_congr this]; simp

theorem localFault_span {s : State} {a n : Nat} {phys : Nat → Nat} (h : SpanOk s a n phys) (hp : s.poison = []) :
    localFault s (span a n) = none := by
  unfold localFault; dsimp only
  have : (span a n).find? (fun a => !lsOk s.me.lsbase.toNat s.me.lsbound.toNat a) = none := by
    rw [List.find?_eq_none]; intro x hx
    obtain ⟨i, hi, rfl⟩ := List.mem_map.1 hx
    simp [h.ok i (List.mem_range.1 hi)]
  rw [this]; dsimp only; unfold lsPoison; rw [hp]
  have e : ∀ l : List Nat, l.find? (fun p => (List.nil).contains (Place.ls (coreOf s.cur) (p / 8))) = none := by
    intro l; rw [List.find?_eq_none]; intro x _; simp
  rw [e]; rfl

theorem onePass_span {s : State} {a n : Nat} {phys : Nat → Nat} (h : SpanOk s a n phys) (hn : n = 1 ∨ n = 2 ∨ n = 4 ∨ n = 8) (ha : a % n = 0) :
   (onePass 0 (chunksOf (physOf (span a n)))).2.1 = [] := by
  have hc : ∀ p ∈ physOf (span a n), p / 16 = phys a / 16 := by
    intro p hp; rw [physOf_span h] at hp
    obtain ⟨i, hi, rfl⟩ := List.mem_map.1 hp
    have hi := List.mem_range.1 hi
    have h0 := h.ph 0 (by omega)
    exact lsPhys_chunk (aligned_chunk a n i hn ha hi) (h.ph i hi) h0
  apply onePass_nodup
  · rcases chunksOf_const _ _ hc with e | e <;> rw [e] <;> simp
  · intro c _; simp

theorem onlyBytes_of_sigOnly {s t : State} (h : s.SigOnly t) (c : Nat) : s.OnlyBytes c [] t := by
  refine ⟨fun a => by rw [h.mem], fun k _ => ?_, fun p _ => ?_⟩
  · obtain ⟨_, _, _, _, e⟩ := h.core k; rw [e]
  · obtain ⟨_, _, _, _, e⟩ := h.core c; rw [e]

theorem modMe_of_sigOnly {s t : State} (h : s.SigOnly t) (f : Slot → Slot) (hf : ∀ a b : Slot, a.butSignatures b → (f a).butSignatures (f b)) (c : Nat) :
   (f s.me).butSignatures (t.modMe f).me ∧ (∀ k, k ≠ s.cur → (s.slot k).butSignatures ((t.modMe f).slot k)) ∧ s.OnlyBytes c [] (t.modMe f) := by
  refine ⟨?_, fun k hk => ?_, ?_⟩
  · rw [State.me_modMe]; apply hf; unfold State.me; rw [h.cur]; exact h.slots _
  · rw [State.modMe_eq, State.slot_modSlot_other _ _ _ _ (by rw [h.cur]; exact hk)]; exact h.slots k
  · exact ⟨(onlyBytes_of_sigOnly h c).mem, (onlyBytes_of_sigOnly h c).others, (onlyBytes_of_sigOnly h c).outside⟩

theorem putX_butSignatures (d : Reg) (w : Word) (a b : Slot) (h : a.butSignatures b) : (a.putX d w).butSignatures (b.putX d w) := by
  unfold Slot.butSignatures at *
  unfold Slot.putX
  split
  · exact h
  · rw [h]

theorem extendTy_eq (t n : Nat) (bs : List Byte) (h : bs.length = n) : extendTy t bs = if 4 ≤ t then BitVec.ofInt 64 (signedOf (8 * n) (leNat bs)) else BitVec.ofNat 64 (leNat bs) := by
  unfold extendTy leWord; rw [h]

theorem regOf_toNat (d : Reg) : regOf d.toNat = d := by simp [regOf]

theorem mem_insWord (w x : Nat) (l : List Nat) : x ∈ insWord w l ↔ x = w ∨ x ∈ l := by
  induction l with
  | nil => simp [insWord]
  | cons a l ih =>
    unfold insWord; split
    · simp
    · split
      · rename_i e; subst e; simp
      · simp [ih]; tauto

theorem cellGet_lsPut_inside (ps : List Nat) (bs : List Byte) (m : List Host.Cell) (hl : bs.length = ps.length) (hn : ps.Nodup) (i : Nat) (hi : i < ps.length) :
   cellGet (lsPut m (ps.zip bs)) ps[i] = bs[i] := by
  induction ps generalizing bs m i with
  | nil => simp at hi
  | cons p ps ih =>
    cases bs with
    | nil => simp at hl
    | cons b bs =>
      simp only [List.nodup_cons] at hn
      cases i with
      | zero =>
        simp only [List.zip_cons_cons, lsPut, List.getElem_cons_zero]
        rw [cellGet_lsPut_outside]
        · exact cellGet_cellSet_same _ _ _
        · intro q hq e; have := (List.of_mem_zip hq).1; rw [e] at this; exact hn.1 this
      | succ i => simp only [List.zip_cons_cons, lsPut, List.getElem_cons_succ]; exact ih _ _ (by simpa using hl) hn.2 _ _

theorem lsStore_bytes {s u : State} (h : s.SigOnly u) (hp : s.poison = []) (ps : List Nat) (bs : List Byte) (hl : bs.length = ps.length) (hn : ps.Nodup) (c : Nat) :
    s.SlotsButSignatures (lsStore u c ps bs) ∧ s.OnlyBytes c ps (lsStore u c ps bs)
    ∧ (∀ (i : Nat) (hi : i < ps.length), cellGet ((lsStore u c ps bs).core c).ls ps[i] = bs[i])
    ∧ ((lsStore u c ps bs).core c).emptyWords = (s.core c).emptyWords ∧ ((lsStore u c ps bs).core c).waiters = (s.core c).waiters := by
  obtain ⟨cl, e⟩ := lsStore_frame u c ps bs (by rw [h.poison, hp])
  rw [e]
  have h := h.trans (sigOnly_lsCorrect u c ps)
  generalize lsCorrect u c ps = u at h ⊢
  have hc : ∀ k, ({ u.modCore c (fun co => { co with ls := lsPut co.ls (ps.zip bs) }) with clusters := cl } : State).core k = (u.modCore c (fun co => { co with ls := lsPut co.ls (ps.zip bs) })).core k := fun _ => rfl
  obtain ⟨a, b, d, n, ec⟩ := h.core c
  refine ⟨fun k => h.slots k, ⟨fun x => by show cellGet u.mem x = _; rw [h.mem], fun k hk => ?_, fun p hp' => ?_⟩, fun i hi => ?_, ?_, ?_⟩
  · rw [hc, State.core_modCore_other _ _ _ _ hk]; obtain ⟨_, _, _, _, e⟩ := h.core k; rw [e]
  · rw [hc, State.core_modCore_same, ec]; dsimp only
    apply cellGet_lsPut_outside
    intro q hq e; have := (List.of_mem_zip hq).1; rw [e] at this; exact hp' this
  · rw [hc, State.core_modCore_same]; exact cellGet_lsPut_inside ps bs _ hl hn i hi
  · rw [hc, State.core_modCore_same, ec]
  · rw [hc, State.core_modCore_same, ec]

theorem nodup_span {s : State} {a n : Nat} {phys : Nat → Nat} (h : SpanOk s a n phys) (hn : n = 1 ∨ n = 2 ∨ n = 4 ∨ n = 8) (ha : a % n = 0) :
   (physOf (span a n)).Nodup := by
  rw [physOf_span h]
  refine List.Nodup.map_on ?_ List.nodup_range
  intro i hi j hj e
  have hi := List.mem_range.1 hi
  have hj := List.mem_range.1 hj
  have key : ∀ i, i < n → phys (a + i) % 16 = (a + i) % 16 := by
    intro i hi
    have := h.ph i hi
    unfold lsPhys at this
    split at this
    · have := Option.some.inj this; rw [← this]
    · split at this
      · have := Option.some.inj this; rw [← this]; unfold swizzle; omega
      · cases this
  have e1 := key i hi
  have e2 := key j hj
  have e3 := aligned_chunk a n i hn ha hi
  have e4 := aligned_chunk a n j hn ha hj
  rw [e] at e1; omega

theorem spanOk_of {s : State} {a n : Nat} (h : ∀ i, i < n → lsOk s.me.lsbase.toNat s.me.lsbound.toNat (a + i) = true) :
    SpanOk s a n (fun x => (lsPhys x).getD 0) := by
  refine ⟨fun i hi => ?_, h⟩
  have := h i hi; unfold lsOk at this
  split at this
  · rename_i p e; rw [e]; rfl
  · cases this

theorem lsOk_lt {lo hi a : Nat} (h : lsOk lo hi a = true) : a < translatedBase := by
  unfold lsOk lsPhys at h
  unfold translatedBase
  by_contra hc
  rw [if_neg (by omega), if_neg (by omega)] at h; cases h

theorem begin_local (s : State) (r : MemReq) (h : ∀ a ∈ r.vas, a < translatedBase) : beginAccess s r = localAccess s r := by
  unfold beginAccess; dsimp only; rw [if_pos]; simpa using h

theorem guardX_writable (s : State) (d : Reg) (o : Out) (h : s.writable d) : guardX s d o = o := by
  unfold guardX; rw [if_neg]; rw [show (s.iss.snap.getD s.me).streamOf d = none from h]; simp

theorem addFlags_butSignatures (f : BitVec 5) (a b : Slot) (h : a.butSignatures b) : (a.addFlags f).butSignatures (b.addFlags f) := by
  unfold Slot.butSignatures at *; unfold Slot.addFlags; rw [h]

/-- A pass that serves every chunk found them in banks of their own. -/
theorem nodup_of_onePass (busy : BitVec 8) (cs : List Nat) (h : (onePass busy cs).2.1 = []) :
    (cs.map (· % 8)).Nodup ∧ ∀ c ∈ cs, busy.getLsbD (c % 8) = false := by
  induction cs generalizing busy with
  | nil => simp
  | cons c cs ih =>
    unfold onePass at h
    split at h
    · simp at h
    · rename_i hb
      have hb : busy.getLsbD (c % 8) = false := by simpa using hb
      obtain ⟨h1, h2⟩ := ih _ h
      refine ⟨?_, ?_⟩
      · rw [List.map_cons, List.nodup_cons]
        refine ⟨fun hm => ?_, h1⟩
        obtain ⟨d, hd, e⟩ := List.mem_map.1 hm
        have := h2 d hd
        have e : d % 8 = c % 8 := e
        rw [e] at this
        have hlt : c % 8 < 8 := Nat.mod_lt _ (by decide)
        simp [hlt] at this
      · intro d hd
        rcases List.mem_cons.1 hd with rfl | hd
        · exact hb
        · have := h2 d hd
          rw [BitVec.getLsbD_or] at this
          exact (Bool.or_eq_false_iff.1 this).1

theorem lsStore_slot (s : State) (c : Nat) (ps : List Nat) (bs : List Byte) (h : s.poison = []) (k : Nat) :
    (lsStore s c ps bs).slot k = s.slot k ∧ (lsStore s c ps bs).cur = s.cur ∧ (lsStore s c ps bs).cycle = s.cycle := by
  obtain ⟨cl, e⟩ := lsStore_frame s c ps bs h
  obtain ⟨_, _, e'⟩ := lsCorrect_frame s c ps
  rw [e, e']; exact ⟨rfl, rfl, rfl⟩

/-- An access of more than one pass waits. -/
theorem localPasses_parks (s : State) (r : MemReq) (hp : s.poison = [])
    (h : ¬ ((chunksOf (physOf r.vas)).map (· % 8)).Nodup) :
    ∃ u r', localPasses s r = .next (park u s.cur .waitMem (.mem r')) ∧ r'.vas = r.vas ∧ r'.chunks ≠ []
      ∧ u.slot s.cur = s.slot s.cur ∧ u.cycle = s.cycle ∧ u.cur = s.cur := by
  unfold localPasses
  rcases e : onePass 0 (chunksOf (physOf r.vas)) with ⟨now, rest, mask⟩
  dsimp only
  have hr : rest ≠ [] := by
    intro h'; apply h
    exact (nodup_of_onePass 0 _ (by rw [e]; exact h')).1
  rw [if_neg (by simpa using hr)]
  refine ⟨_, _, rfl, ?_, hr, ?_⟩
  · unfold serveChunks; dsimp only; split <;> rfl
  · unfold serveChunks; dsimp only
    split
    · have := lsStore_slot (claimBanks s (coreOf s.cur) mask) (coreOf s.cur)
      exact ⟨(this _ _ hp _).1, (this _ _ hp 0).2.2, (this _ _ hp 0).2.1⟩
    · obtain ⟨_, _, e'⟩ := lsCorrect_frame (claimBanks s (coreOf s.cur) mask) (coreOf s.cur)
        (((List.range (physOf r.vas).length).filter (fun i => now.contains ((physOf r.vas)[i]?.getD 0 / 16))).map
          (fun i => (physOf r.vas)[i]?.getD 0))
      rw [e']; exact ⟨rfl, rfl, rfl⟩

/-- The address that a fault of an access to one run of bytes reports is the first of the run. -/
theorem ea_span (r : MemReq) (a n : Nat) (h : r.vas = span a n) (h0 : 0 < n) : r.ea = a := by
  have hm : ∀ (l : List Nat), (∀ x ∈ l, a ≤ x) → l.foldl Nat.min a = a := by
    intro l hl
    induction l with
    | nil => rfl
    | cons x l ih =>
      rw [List.foldl_cons, show Nat.min a x = a from Nat.min_eq_left (hl x (by simp))]
      exact ih (fun y hy => hl y (by simp [hy]))
  have hh : ((span a n).head?).getD 0 = a := by
    cases n with
    | zero => omega
    | succ n => simp [span, List.range_succ_eq_map]
  unfold MemReq.ea
  rw [h, hh]
  split
  · refine hm _ (fun x hx => ?_)
    obtain ⟨i, _, rfl⟩ := List.mem_map.1 hx
    exact Nat.le_add_right _ _
  · rfl

end Sys2Proof.Machine
end

