-- ==== Sys2Proof/Tests/Slice0.lean ====
section
/-! SUPPORT. Tests: words written out from the encodings of R68 and R71 and the opcodes of R75 and R76, ill-formed
terms, single steps with results taken from the rules, and for each statement a state that meets its hypotheses. -/

namespace Sys2Proof.Tests

open Sys2Proof.Machine

/-! ## The formats of R68 and R71, field by field -/

def reg (f s3 s2 s1 d : BitVec 5) (op : BitVec 7) : BitVec 32 := f ++ s3 ++ s2 ++ s1 ++ d ++ op
def imm (i : BitVec 15) (s1 d : BitVec 5) (op : BitVec 7) : BitVec 32 := i ++ s1 ++ d ++ op
def upp (i : BitVec 20) (d : BitVec 5) (op : BitVec 7) : BitVec 32 := i ++ d ++ op
def br (high : BitVec 10) (s2 s1 low : BitVec 5) (op : BitVec 7) : BitVec 32 := high ++ s2 ++ s1 ++ low ++ op
def mem (disp : BitVec 7) (scope : BitVec 3) (order : BitVec 2) (w : BitVec 3) (s1 d : BitVec 5) (op : BitVec 7) : BitVec 32 :=
  disp ++ scope ++ order ++ w ++ s1 ++ d ++ op
def mrr (f : BitVec 5) (order : BitVec 2) (scope : BitVec 3) (s2 s1 d : BitVec 5) (op : BitVec 7) : BitVec 32 :=
  f ++ order ++ scope ++ s2 ++ s1 ++ d ++ op
def sys (sn : BitVec 10) (s1 d : BitVec 5) (op : BitVec 7) : BitVec 32 := sn ++ (0 : BitVec 5) ++ s1 ++ d ++ op
def vop (mode : BitVec 2) (ty : BitVec 4) (vc vb va vd : BitVec 5) (op : BitVec 6) : BitVec 32 :=
  mode ++ ty ++ vc ++ vb ++ va ++ vd ++ op

/-! ## Decoding: a word of each family -/

/-- R79: f 16 is MULHU. -/
theorem test_decode_alu : decodeA (reg 16 0 3 2 1 0x01) 0 = .ok (.mulhu 1 2 3) := by decide
/-- R79: s3 must be 0, and f 24 is illegal. -/
theorem test_decode_alu_illegal : decodeA (reg 16 1 3 2 1 0x01) 0 = .error .field
    ∧ (decodeA (reg 24 0 3 2 1 0x01) 0).isOk = false := by decide
/-- R81: ORI with −2. -/
theorem test_decode_imm : decodeA (imm 0x7FFE 9 8 0x04) 0 = .ok (.ori 8 9 0x7FFE) := by decide
/-- R82 and R83: LUI, and the three variants of LIMM by s1. -/
theorem test_decode_constants : decodeA (upp 0xABCDE 7 0x0B) 0 = .ok (.lui 7 0xABCDE)
    ∧ decodeA (reg 0 0 0 0 5 0x0C) 0x89ABCDEF = .ok (.limm 5 0x89ABCDEF)
    ∧ decodeA (reg 0 0 0 1 5 0x0C) 7 = .ok (.limmZx 5 7) ∧ decodeA (reg 0 0 0 2 5 0x0C) 7 = .ok (.limmHi 5 7) := by decide
/-- R84 to R87: the shift, part and form in f. -/
theorem test_decode_pointer : decodeA (reg 7 0 3 2 1 0x10) 0 = .ok (.padd 1 2 3 7) ∧ decodeA (reg 3 0 0 2 1 0x13) 0 = .ok (.pget 1 2 3)
    ∧ decodeA (reg 1 4 3 2 1 0x14) 0 = .ok (.pchkTrap 1 2 3 4) := by decide
/-- R88: the offset −1 lies in two fields. -/
theorem test_decode_branch : decodeA (br 0x3FF 2 1 0x1F 0x1C) 0 = .ok (.bltu 1 2 0x7FFF) ∧
    decodeA (br 1 2 1 3 0x18) 0 = .ok (.beq 1 2 35) := by decide
/-- R89 and R90. -/
theorem test_decode_jump : decodeA (reg 0 0 0 0 1 0x20) 0xFFFFFFFF = .ok (.jal 1 0xFFFFFFFF)
    ∧ decodeA (imm 8 2 1 0x21) 0 = .ok (.jalr 1 2 8) := by decide
/-- R93, R95 to R97: stream 3 is d or s1 27. -/
theorem test_decode_stream : decodeA (reg 6 0 0 4 27 0x22) 0 = .ok (.sbind 3 6 4) ∧ decodeA (reg 0 0 0 4 25 0x24) 0 = .ok (.sskip 1 4)
    ∧ decodeA (reg 0 0 0 0 26 0x23) 0 = .ok (.sfree 2) ∧ decodeA (br 0 1 26 4 0x1E) 0 = .ok (.beod 2 1 4)
    ∧ (decodeA (reg 0 0 0 4 23 0x24) 0).isOk = false := by decide
/-- R100: sr.round is 0x010. -/
theorem test_decode_system : decodeA (sys 0x010 0 4 0x28) 0 = .ok (.gets 4 0x010) ∧ decodeA (sys 0x010 4 0 0x29) 0 = .ok (.sets 0x010 4) := by
  decide
/-- R102 to R106: TRAP, ERET, HALT and FENCE.die.ar, whose scope is 3 and order 3. -/
theorem test_decode_control : decodeA (imm 77 0 0 0x2A) 0 = .ok (.trap 77) ∧ decodeA 0x2B 0 = .ok .eret ∧ decodeA 0x2C 0 = .ok .halt
    ∧ decodeA (mrr 0 3 3 0 0 0 0x2E) 0 = .ok (.fence 3 3) ∧ decodeA (mrr 1 3 4 0 0 0 0x2E) 0 = .ok (.fenceEng 3 4) := by decide
/-- R107 to R109, R204. -/
theorem test_decode_hints : decodeA (imm 5 6 0 0x2F) 0 = .ok (.bbc 6 5) ∧ decodeA (reg 1 0 3 2 9 0x32) 0 = .ok (.ipin 1 9 2 3)
    ∧ decodeA (reg 0 0 3 2 0 0x31) 0 = .ok (.ipref 0 2 3) ∧ decodeA (reg 1 0 3 2 0 0x33) 0 = .ok (.iunpin 1 2 3) := by decide
/-- R338: the form is in f. -/
theorem test_decode_tbinv : decodeA (reg 0 0 0 2 1 0x34) 0 = .ok (.tbinvPage 1 2) ∧ decodeA (reg 1 0 3 2 1 0x34) 0 = .ok (.tbinvRange 1 2 3)
    ∧ decodeA (reg 2 0 0 0 1 0x34) 0 = .ok (.tbinvAll 1) ∧ decodeA (reg 3 0 3 0 1 0x34) 0 = .ok (.tbinvWorld 1 3) := by decide
/-- R199 to R203: ST.s8 is illegal, LD.s8 is not. -/
theorem test_decode_scalar_memory : decodeA (mem 127 0 0 4 2 1 0x38) 0 = .ok (.ld ⟨127, 0, 0, 4, 2, 1⟩)
    ∧ decodeA (mem 1 0 0 4 2 1 0x39) 0 = .error .type ∧ decodeA (mem 1 1 0 3 2 1 0x3C) 0 = .ok (.ldp ⟨1, 1, 0, 3, 2, 1⟩)
    ∧ decodeA (mem 1 2 2 3 2 1 0x3B) 0 = .ok (.stf ⟨1, 2, 2, 3, 2, 1⟩) := by decide
/-- R205 to R208. -/
theorem test_decode_vector_memory : decodeA (mem 0 0 0 4 2 1 0x40) 0 = .ok (.vld ⟨0, 0, 0, 4, 2, 1⟩)
    ∧ decodeA (mem 0 0 0 2 2 8 0x42) 0 = .ok (.vldt ⟨0, 0, 0, 2, 2, 8⟩) ∧ decodeA (mem 0 0 0 0 4 1 0x43) 0 = .ok (.vldd ⟨0, 0, 0, 0, 4, 1⟩)
    ∧ decodeA (mrr 2 0 0 3 2 1 0x45) 0 = .ok (.vstx ⟨2, 0, 0, 3, 2, 1⟩) := by decide
/-- R209: f[4] is the width, and f[3:0] 9 is AMOCAS. -/
theorem test_decode_atomic : decodeA (mrr 25 2 4 3 2 1 0x47) 0 = .ok (.amocas ⟨1, 2, 4, 3, 2, 1⟩)
    ∧ (decodeA (mrr 11 2 4 3 2 1 0x47) 0).isOk = false := by decide
/-- R213 to R216: f[3:0] is the mailbox, f[4] the release; vd of RECV is even. -/
theorem test_decode_message : decodeA (reg 0x1F 4 3 2 1 0x48) 0 = .ok (.send 1 15 1 2 3 4) ∧ decodeA (reg 1 0 0 2 6 0x49) 0 = .ok (.recv 1 6 2)
    ∧ decodeA (reg 1 0 0 2 7 0x49) 0 = .error .register ∧ decodeA (reg 0 0 0 2 1 0x4A) 0 = .ok (.mbpeek 1 2) := by decide
/-- R251: f[4] = 1 names a ring, and s1 is then 0. -/
theorem test_decode_copy : decodeA (reg 0x12 4 3 0 1 0x4C) 0 = .ok (.cpy ⟨1, 2, 4, 3, 0, 1⟩) ∧ decodeA (reg 0 4 3 2 1 0x4D) 0 = .ok (.cpy2d ⟨0, 0, 4, 3, 2, 1⟩)
    ∧ decodeA (reg 0x13 0 0 2 1 0x4E) 0 = .ok (.cpyl 3 1 2) ∧ decodeA (reg 0x12 4 3 2 1 0x4C) 0 = .error .field := by decide
/-- R241, R246 to R250, R254: f[4] of MMA is .wait, s2 of QCFG the ring. -/
theorem test_decode_engine : decodeA (reg 0x11 4 3 2 1 0x50) 0 = .ok (.mma ⟨1, 1, 4, 3, 2, 1⟩) ∧ decodeA (reg 0 0 13 2 1 0x52) 0 = .ok (.qcfg 13 1 2)
    ∧ decodeA (reg 0 0 0 2 0 0x54) 0 = .ok (.mhint 2) ∧ decodeA (reg 3 0 0 2 0 0x55) 0 = .ok (.gbar 3 2)
    ∧ (decodeA (reg 0 0 0 2 0 0x55) 0).isOk = false := by decide
/-- R327: s3 of SPAWN is an even pair without a stream register; f 16 is .wait. -/
theorem test_decode_task : decodeA (reg 1 8 3 2 1 0x58) 0 = .ok (.spawn 1 1 2 3 8) ∧ decodeA (reg 1 24 3 2 1 0x58) 0 = .error .register
    ∧ decodeA (reg 0 0 0 0 0 0x59) 0 = .ok .tdone ∧ decodeA (reg 16 0 0 2 1 0x5C) 0 = .ok (.gcopy 1 1 2)
    ∧ decodeA (reg 1 0 0 2 1 0x61) 0 = .ok (.gstatStop 1 2) := by decide
/-- R415: STTK accepts scopes 3 to 5, STDEP only .fab.rel. -/
theorem test_decode_fabric : decodeA (mrr 3 0 5 3 2 1 0x64) 0 = .ok (.sttk ⟨3, 0, 5, 3, 2, 1⟩) ∧ decodeA (mrr 3 2 5 3 2 1 0x65) 0 = .ok (.stdep ⟨3, 2, 5, 3, 2, 1⟩)
    ∧ decodeA (mrr 3 0 5 3 2 1 0x65) 0 = .error .order ∧ decodeA (mrr 2 3 4 3 2 1 0x66) 0 = .ok (.xredMax ⟨0, 0, 3, 4, 3, 2, 1⟩) := by decide
/-- R415, R426 to R431. -/
theorem test_decode_local_time : decodeA (reg 5 0 3 2 1 0x6C) 0 = .ok (.chdcl 5 1 2 3) ∧ decodeA (reg 1 0 0 2 1 0x69) 0 = .ok (.tideBound 1 2)
    ∧ decodeA (reg 0 6 3 2 1 0x6A) 0 = .ok (.tsend 1 2 3 6) ∧ decodeA (reg 0 0 0 0 4 0x6B) 0 = .ok (.trecv 4)
    ∧ decodeA (reg 7 0 0 2 1 0x6D) 0 = .ok (.ltstat 7 1 2) := by decide
/-- R351: the command is in f. -/
theorem test_decode_polder : decodeA (reg 3 0 3 2 1 0x70) 0 = .ok (.wsetShare 1 2 3) ∧ decodeA (reg 0 0 3 2 1 0x71) 0 = .ok (.wsealGenerate 1 2 3) := by
  decide
/-- R70 and R75: a reserved major opcode, and the all-zero word. -/
theorem test_decode_reserved : decodeA (reg 0 0 0 0 0 0x0D) 0 = .error .opcode ∧ decodeA 0 0 = .error .opcode := by decide
/-- R174: VADD.s16.sat, VFMA.f64.rz and VSEL. -/
theorem test_decode_vector : decodeV (vop 1 1 0 3 2 1 1) = .ok (.vadd ⟨1, 1, 0, 3, 2, 1⟩) ∧ decodeV (vop 2 8 4 3 2 1 4) = .ok (.vfma ⟨2, 8, 4, 3, 2, 1⟩)
    ∧ decodeV (vop 0 0xE 4 3 2 1 20) = .ok (.vsel ⟨0, 0xE, 4, 3, 2, 1⟩) := by decide
/-- R174: the lane moves, reductions and modular operations. -/
theorem test_decode_vector_forms : decodeV (vop 0 2 0 3 2 1 24) = .ok (.vext ⟨0, 2, 0, 3, 2, 1⟩) ∧ decodeV (vop 1 9 0 0 2 1 28) = .ok (.vmaxr ⟨1, 9, 0, 0, 2, 1⟩)
    ∧ decodeV (vop 0 0xE 4 3 2 6 43) = .ok (.vbfly ⟨0, 0xE, 4, 3, 2, 6⟩) ∧ decodeV (vop 0 9 0 0 2 1 36) = .ok (.vexp2 ⟨0, 9, 0, 0, 2, 1⟩) := by decide

/-! ## Ill-formed terms: one for each check of R70 -/

theorem test_ill_type : (Instr.ld ⟨0, 0, 0, 7, 2, 1⟩).reserved = some .type ∧ (Instr.vadd ⟨0, 0xE, 0, 3, 2, 1⟩).reserved = some .type := by decide
theorem test_ill_scope : (Instr.ld ⟨0, 6, 0, 3, 2, 1⟩).reserved = some .scope ∧ (Instr.gbar 0 1).reserved = some .scope := by decide
theorem test_ill_order : (Instr.ld ⟨0, 1, 2, 3, 2, 1⟩).reserved = some .order ∧ (Instr.st ⟨0, 1, 1, 3, 2, 1⟩).reserved = some .order
    ∧ (Instr.fence 0 1).reserved = some .order := by decide
theorem test_ill_function : (Instr.pset 1 2 3 3).reserved = some .function ∧ (Instr.sbind 0 7 1).reserved = some .function
    ∧ (Instr.mma ⟨0, 8, 4, 3, 2, 1⟩).reserved = some .function := by decide
theorem test_ill_register : (Instr.recv 0 7 2).reserved = some .register ∧ (Instr.spawn 0 1 2 3 26).reserved = some .register
    ∧ (Instr.vldd ⟨0, 0, 0, 0, 5, 1⟩).reserved = some .register ∧ (Instr.vldt ⟨0, 0, 0, 0, 2, 9⟩).reserved = some .register
    ∧ (Instr.vbfly ⟨0, 0xE, 4, 3, 2, 5⟩).reserved = some .register := by decide
theorem test_ill_field : (Instr.cpy ⟨1, 2, 4, 3, 2, 1⟩).reserved = some .field ∧ (Instr.vadd ⟨0, 0, 4, 3, 2, 1⟩).reserved = some .field := by decide
theorem test_ill_sysreg : (Instr.gets 1 0x3FF).reserved = some .sysreg := by decide
theorem test_ill_mode : (Instr.vadd ⟨2, 0, 0, 3, 2, 1⟩).reserved = some .mode := by decide
theorem test_ill_immediate : (Instr.vext ⟨0, 2, 0, 4, 2, 1⟩).reserved = some .immediate ∧ (Instr.vcvt ⟨0, 9, 0, 0xE, 2, 1⟩).reserved = some .immediate := by decide
theorem test_ill_event : (Instr.coldReset).reserved = some .event := by decide
theorem test_well_formed : (Instr.ld ⟨0, 5, 3, 6, 2, 1⟩).reserved = some .order ∧ (Instr.ld ⟨0, 5, 1, 6, 2, 1⟩).WellFormed
    ∧ (Instr.vadd ⟨1, 0, 0, 3, 2, 1⟩).WellFormed := ⟨by decide, rfl, rfl⟩

/-! ## Single steps, with results from the rules -/

/-- Slot 0 READY in world 1, with the whole local store as its share. -/
def at0 (f : Slot → Slot) : State :=
  State.reset.modSlot 0 fun sl => f { sl with state := .ready, world := 1, lsbound := 49152 }

/-- The issuing slot after a step. -/
def me (o : Out) : Slot := match o with
  | .next t => t.me
  | _ => Slot.reset

/-- The state after a step. -/
def after (o : Out) : State := match o with
  | .next t => t
  | _ => State.reset

/-- Slot 0 with two x registers, or two v registers. -/
def withX (a b : Word) : State := at0 fun sl => (sl.putX 2 a).putX 3 b
def withV (a b : Vec) : State := at0 fun sl => (sl.putV 2 a).putV 3 b

/-- R42: x0 stays 0. -/
theorem test_x0 : (me (exec (.add 0 2 3) (withX 5 6))).getX 0 = 0 := by decide
/-- R79: 2^64 − 1 + 1 wraps, and SRA of −8 by 65 shifts by 1. -/
theorem test_add_wraps : (me (exec (.add 1 2 3) (withX (-1) 1))).getX 1 = 0 := by decide
theorem test_sra_masks : (me (exec (.sra 1 2 3) (withX (-8) 65))).getX 1 = -4 := by decide
/-- R79: the high half of −1 × −1 is 0 signed and 2^64 − 2 unsigned. -/
theorem test_mulh : (me (exec (.mulh 1 2 3) (withX (-1) (-1)))).getX 1 = 0 ∧ (me (exec (.mulhu 1 2 3) (withX (-1) (-1)))).getX 1 = -2 := by decide
/-- R79: a source that is the destination. -/
theorem test_sub_same : (me (exec (.sub 2 2 3) (withX 7 9))).getX 2 = -2 := by decide
/-- R80: −2^63 / −1 is −2^63 with remainder 0, and a division by 0 gives all ones. -/
theorem test_div_corner : (me (exec (.div 1 2 3) (withX 0x8000000000000000 (-1)))).wait = .long (some (1, 0x8000000000000000))
    ∧ (me (exec (.rem 1 2 3) (withX 0x8000000000000000 (-1)))).wait = .long (some (1, 0))
    ∧ (me (exec (.divu 1 2 3) (withX 9 0))).wait = .long (some (1, -1)) := by decide
/-- R83: the pair that builds 0x0123_4567_89AB_CDEF. -/
theorem test_limm_pair : (me (exec (.limmHi 9 0x01234567) (after (exec (.limmZx 9 0x89ABCDEF) (at0 id))))).getX 9 = 0x0123456789ABCDEF := by decide
/-- R84: metadata is kept, and a carry into bit 57 is cause 0x05. -/
theorem test_padd : (me (exec (.padd 1 2 3 3) (withX 0x3A00000000000010 2))).getX 1 = 0x3A00000000000020
    ∧ (me (exec (.padd 1 2 3 0) (withX 0x3BFFFFFFFFFFFFFF 1))).cause = 0x05 := by decide
/-- R88: BLT compares signed, BLTU unsigned. -/
theorem test_branch_sign : (me (exec (.blt 2 3 4) (withX (-1) 1))).npc = 32 ∧ (me (exec (.bltu 2 3 4) (withX (-1) 1))).npc = 8 := by decide
/-- R90: a target that is no multiple of 8 is cause 0x03. -/
theorem test_jalr_misaligned : (me (exec (.jalr 1 2 4) (withX 64 0))).cause = 0x03 ∧ (me (exec (.jalr 1 2 8) (withX 64 0))).npc = 72 := by decide
/-- R102, R112: TRAP 7 enters the handler with cause 0x0E and value 7. -/
theorem test_trap_handler : let t := me (exec (.trap 7) (at0 fun sl => { sl with tvec := 0x100, pc := 0x40 }))
    t.pc = 0x100 ∧ t.epc = 0x40 ∧ t.tval = 7 ∧ t.cause = 0x0E ∧ t.inh = true := by decide
/-- R115: in a handler the same trap halts the slot with cause 0x1A and the inner code. -/
theorem test_double_trap : let t := me (exec (.trap 7) (at0 fun sl => { sl with tvec := 0x100, inh := true }))
    t.state = .halted ∧ t.cause = 0x1A ∧ t.tval = 0x0E := by decide
/-- R103. -/
theorem test_eret : let t := me (exec .eret (at0 fun sl => { sl with inh := true, epc := 0x88 })); t.npc = 0x88 ∧ t.inh = false := by decide
/-- R44: sr.world is RWS, and sr.cycle is read-only. -/
theorem test_sets_privilege : (me (exec (.sets 0x020 2) (withX 3 0))).cause = 0x02 ∧ (me (exec (.sets 0x018 2) (withX 3 0))).cause = 0x01 := by decide
/-- R178: VADD.s8.sat of 100 and 100 gives 127; VSUB.z8.sat of 3 and 5 gives 0; VMUL.s16.hi of −2 and 3 gives 0xFFFF. -/
theorem test_saturating : lane ((me (exec (.vadd ⟨1, 0, 0, 3, 2, 1⟩) (withV 100 100))).getV 1) 0 8 = 127
    ∧ lane ((me (exec (.vsub ⟨1, 4, 0, 3, 2, 1⟩) (withV 3 5))).getV 1) 0 8 = 0
    ∧ lane ((me (exec (.vmul ⟨2, 1, 0, 3, 2, 1⟩) (withV 0xFFFE 3))).getV 1) 0 16 = 0xFFFF := by decide
/-- R179: VMAX.f32 of (+0, −0) gives +0, and VMIN.f32 of (qNaN, 2.0) gives 2.0 with no flag. -/
theorem test_max_zero : lane ((me (exec (.vmax ⟨0, 9, 0, 3, 2, 1⟩) (withV 0 0x80000000))).getV 1) 0 32 = 0 := by decide
theorem test_min_nan : let t := me (exec (.vmin ⟨0, 9, 0, 3, 2, 1⟩) (withV 0x7FC00000 0x40000000))
    lane (t.getV 1) 0 32 = 0x40000000 ∧ t.fflags = 0 := by decide
/-- R188: VMAXR.f32.abs of (−3.5, qNaN, 2.0, −0) gives 3.5. -/
theorem test_maxr : let t := me (exec (.vmaxr ⟨1, 9, 0, 0, 2, 1⟩) (withV 0x80000000400000007FC00000C0600000 0))
    t.getV 1 = 0x40600000 ∧ t.fflags = 0 := by decide
/-- Number formats: 460.0 (binary32 0x43E6_0000) to E4M3 is 448 (0x7E) with NX only. -/
theorem test_cvt_e4m3 : let t := me (exec (.vcvt ⟨1, 0xC, 0, 9, 2, 1⟩) (withV 0x43E60000 0)); lane (t.getV 1) 0 8 = 0x7E ∧ t.fflags = 1 := by decide
/-- R199: a byte is sign-extended or zero-extended. -/
theorem test_store_load : let s := after (exec (.st ⟨0, 0, 0, 0, 2, 3⟩) (withX 0x40 0x180))
    (me (exec (.ld ⟨0, 0, 0, 4, 2, 1⟩) s)).getX 1 = -128 ∧ (me (exec (.ld ⟨0, 0, 0, 0, 2, 1⟩) s)).getX 1 = 0x80 := by decide
/-- R200, R203: LDS leaves the word empty, and SFE of 1 sets it full. -/
theorem test_full_empty : let s := after (exec (.lds ⟨0, 1, 0, 3, 2, 1⟩) (withX 0x40 1))
    ((s.core 0).emptyWords = [8]) ∧ ((after (exec (.sfe ⟨0, 1, 0, 3, 2, 3⟩) s)).core 0).emptyWords = [] := by decide
/-- R209: AMOADD.z32 wraps in 32 bits and returns the old word. -/
theorem test_amoadd : let s := after (exec (.st ⟨0, 0, 0, 2, 2, 3⟩) (withX 0x40 0xFFFFFFFF))
    let t := exec (.amoadd ⟨0, 0, 1, 3, 2, 1⟩) s
    (me t).getX 1 = 0xFFFFFFFF ∧ leNat (cellRead ((after t).core 0).ls 0x40 4) = 0xFFFFFFFE := by decide
/-- R195: a misaligned load is cause 0x04 with its address. -/
theorem test_misaligned : let t := me (exec (.ld ⟨0, 0, 0, 3, 2, 1⟩) (withX 0x44 0)); t.cause = 0x04 ∧ t.tval = 0x44 := by decide
/-- R215: an empty mask is cause 0x11 with the whole of X[s1]. -/
theorem test_recv_mask : let t := me (exec (.recv 0 4 2) (withX 0x10003 0)); t.cause = 0x11 ∧ t.tval = 0x10003 := by decide
/-- R351: outside world 0 a polder command is cause 0x02. -/
theorem test_wset_privilege : (me (exec (.wsetForm 1 2 3) (withX 1 0))).cause = 0x02 := by decide
/-- R52, R167: the budget is full again. -/
theorem test_refill : ((after (exec (.energyRefill 0) (State.reset.modCore 0 fun c => { c with energy := 3 }))).core 0).energy = 1024 := by decide
/-- R61: a released context number can be used again. -/
theorem test_number_release : ((after (exec (.contextNumberRelease 0 4) (State.reset.modCore 0 fun c => { c with quarantined := [4, 5] }))).core 0).quarantined = [5] := by
  decide

/-! ## Witnesses: a state and operands that meet the hypotheses of each statement -/

def cored (f : Core → Core) : State := (at0 id).modCore 0 f
def clustered (f : Cluster → Cluster) : State := (at0 id).modCluster 0 f
def died (f : Die → Die) : State := (at0 id).modDie 0 f
def poldered (f : Polder → Polder) : State := (at0 id).modPolder 1 f
/-- Slot 0 waits for a memory access, its polder LIVE. -/
def accessing (r : MemReq) : State :=
  ((at0 fun sl => { sl with state := .waitMem, wait := .mem r }).modPolder 1 fun p => { p with state := .live })

theorem witness_DecodeEncode : (Instr.add 1 2 3).WellFormed ∧ (Instr.vadd ⟨1, 0, 0, 3, 2, 1⟩).WellFormed
    ∧ (encodeBundle (.add 1 2 3) (.vadd ⟨1, 0, 0, 3, 2, 1⟩)).isSome
    ∧ (encodeA (.add 1 2 3)).map (fun p => wideOp p.1) = some false := ⟨rfl, rfl, rfl, rfl⟩

/-- NOP beside VNOP where the next step fetches; and the cases of a trap of either half. -/
def placed : State := State.reset.withFetchWord 32 0x2D
theorem witness_StepRunsBundle : placed.steward.booted = true ∧ placed.steward.tripPin = false ∧ placed.agenda.head? = none
    ∧ leastFrom placed.cursor (listedCores placed) = some 0
    ∧ (let s1 := { placed with cursor := 1 }
       missesLine s1 (placed.cycle % 8) = false ∧ turnSlot s1 0 = some 0 ∧ ending s1 (placed.slot 0) = false
       ∧ noticeDue (placed.slot 0) = false ∧ breaksAt s1 0 = false)
    ∧ inCode (placed.slot 0) = true ∧ fetchBundle placed 0 = some 0x2D ∧ decodeBundle 0x2D = (.ok .nop, .ok .vnop)
    ∧ doubleWrite (regUse .nop) (regUse .vnop) = false ∧ pendsOn (placed.slot 0) (regUse .nop) (regUse .vnop) = false
    ∧ absentRegs (placed.slot 0) (regUse .nop) (regUse .vnop) = []
    ∧ (let s3 := chargeEnergy { placed with cursor := 1, cur := 0, iss := { snap := none, prio := none } } 0 (bundleCost 0x2D)
       let s4 := issuing 0 ((settleStreams s3 0 0).modSlot 0 (fun x => { x with npc := pcAdd x.pc 8 }))
       rowOf (exec .nop s4) = none ∧ rowOf (exec .vnop s4) = none ∧ streamFault s3 0 0 = none ∧ rowOf (exec (.trap 1) s4) = some 5) := by
  decide
theorem witness_StepRunsBundle_idle : leastFrom State.reset.cursor (listedCores State.reset) = none := by decide

theorem witness_StepKeepsMemory : State.reset.memoryWf ∧ ∃ t, step State.reset = .next t :=
  ⟨⟨rfl, by decide, by decide⟩, _, rfl⟩
theorem witness_ScalarFrame : (withX 1 2).writable 5 ∧ ∃ t, exec (.add 5 2 3) (withX 1 2) = .next t := ⟨rfl, _, rfl⟩
theorem witness_AluResults : (withX 1 2).writable 5 ∧ (withX 1 2).me.state = .ready := ⟨rfl, rfl⟩
theorem witness_ImmediateResults : (withX 1 2).writable 5 := rfl
/-- An address that carries and one that does not, bounds that hold and that fail, a format code that is reserved, and
the register of a bound stream. -/
theorem witness_FatPointers : (withX 8 4).writable 5
    ∧ (let p := (withX 8 4).rx 2; let q := (withX 8 4).rx 3
       (p.extractLsb' 0 57).toNat + q.toNat < 2 ^ 57 ∧ (q.extractLsb' 0 57).toNat ≤ (p.extractLsb' 0 57).toNat
       ∧ p.extractLsb' 60 4 ≠ 0xD ∧ p.extractLsb' 60 4 ≠ 0xE)
    ∧ 2 ^ 57 ≤ (((withX 0x1FFFFFFFFFFFFFF 1).rx 2).extractLsb' 0 57).toNat + 1
    ∧ (((withX (0xD <<< 60) 1).rx 2).extractLsb' 60 4) = 0xD
    ∧ ¬ (at0 fun sl => { sl with streams := sl.streams.set 0 { Stream.unbound with bound := true } }).writable 24 :=
  ⟨rfl, by decide, by decide, by decide, by
    show ¬ (at0 fun sl => { sl with streams := sl.streams.set 0 { Stream.unbound with bound := true } }).issued.streamOf 24 = none
    decide⟩
theorem witness_BranchesAndJumps : (withX 64 1).writable 5 ∧ ((withX 64 1).rx 2).toNat % 8 = 0 ∧ ((withX 64 1).rx 2).toNat < 2 ^ 57
    ∧ ((withX 64 1).rx 3).toNat % 8 ≠ 0 := ⟨rfl, by decide⟩
/-- A descriptor at 0x40: base 0x100, one dimension of 4 elements, stride 8; one with a reserved bit, one of no
elements, and one past the share. -/
def streaming (word0 word1 : Word) : State :=
  (withX 0x40 3).modCore 0 fun c => { c with ls := cellWrite (cellWrite (cellWrite c.ls 0x40 (toLe word0.toNat 8)) 0x48 (toLe word1.toNat 8)) 0x50 (toLe 8 8) }
def described (s : State) : Stream :=
  streamFrom 3 (leWord (cellRead (s.core 0).ls 0x40 8)) (leWord (cellRead (s.core 0).ls 0x48 8)) (leWord (cellRead (s.core 0).ls 0x50 8))
theorem witness_StreamBinds : (let s := streaming 0x100 4
      (s.rx 2).toNat % 32 = 0 ∧ s.me.lsbase.toNat ≤ (s.rx 2).toNat ∧ (s.rx 2).toNat + 32 ≤ s.me.lsbound.toNat ∧ s.me.lsbound.toNat ≤ 49152
      ∧ s.poison = [] ∧ (described s).wellFormed = true ∧ (described s).inRange s.me.lsbase.toNat s.me.lsbound.toNat = true)
    ∧ (leWord (cellRead ((streaming (1 <<< 19) 0).core 0).ls 0x40 8)).extractLsb' 19 45 ≠ 0
    ∧ (described (streaming 0x100 0)).wellFormed = false
    ∧ (let s := streaming 0xBFF8 4; (described s).wellFormed = true ∧ (described s).inRange s.me.lsbase.toNat s.me.lsbound.toNat = false)
    ∧ (getStream (at0 id).me 0).bound = false := by decide
theorem witness_StreamMoves : (getStream (at0 id).me 0).bound = false
    ∧ (getStream (at0 fun sl => { sl with streams := sl.streams.set 0 { Stream.unbound with bound := true } }).me 0).bound = true := by decide
theorem witness_SystemReads : (at0 id).writable 5 := rfl
theorem witness_SystemWrites : (withX 8 17).me.world ≠ 0 ∧ ((at0 fun sl => { sl with world := 0 }).me.world = 0)
    ∧ ((withX 8 17).rx 2).toNat % 8 = 0 ∧ ((withX 8 17).rx 2).toNat < 2 ^ 57 ∧ ((withX 8 17).rx 3).toNat % 2 = 1
    ∧ 3 ≤ ((withX 8 17).rx 3).toNat ∧ ((withX 8 17).rx 3).toNat % 8 ≠ 0 ∧ 4 ≤ ((withX 4 2).rx 2).toNat % 8
    ∧ ((withX 4 2).rx 3).toNat < 3 ∧ ((withX 0 0).rx 2) = 0 := by decide
theorem witness_TrapsAndReturns : (let s := at0 fun sl => { sl with tvec := 8 }
      s.me.inh = false ∧ s.me.tvec ≠ 0 ∧ s.me.stopPending = false ∧ s.me.state = .ready)
    ∧ (at0 fun sl => { sl with inh := true }).me.inh = true ∧ (at0 id).me.inh = false ∧ (at0 id).me.tvec = 0 := by decide
theorem witness_VectorLogic : (withV 1 2).me.state.waiting = false ∧ (withV 1 2).issued.modq.toNat = 0
    ∧ (at0 fun sl => { sl with modq := 5 }).issued.modq.toNat ≠ 0 := by decide
theorem witness_IntegerLanes : (withV 1 2).me.state.waiting = false ∧ (⟨0, 1, 0, 3, 2, 1⟩ : VF).ty.toNat < 8 := by decide
theorem witness_FloatLanes : (withV 1 2).me.state.waiting = false ∧ 8 ≤ (⟨0, 13, 0, 3, 2, 1⟩ : VF).ty.toNat ∧ (⟨0, 13, 0, 3, 2, 1⟩ : VF).ty.toNat < 14 := by decide
/-- E4M3 (0xC) to binary32 (9) in part 3, and back into part 3; VEXT to a register that no stream holds. -/
theorem witness_LaneMoves : (withV 1 2).me.state.waiting = false ∧ (withV 1 2).writable 1
    ∧ typeWidth 0xC < typeWidth 9 ∧ 3 < typeWidth 9 / typeWidth 0xC ∧ typeWidth 0xC ≤ typeWidth 9 := ⟨by decide, rfl, by decide⟩
theorem witness_VectorReductions : (withV 1 2).me.state.waiting = false ∧ (⟨0, 7, 0, 3, 2, 1⟩ : VF).ty.toNat < 8
    ∧ 8 ≤ (⟨0, 8, 0, 3, 2, 1⟩ : VF).ty.toNat := by decide
theorem witness_LongVectorOps : (withV 1 2).me.state = .ready ∧ (withV 1 2).me.held = Held.none
    ∧ 0 < (at0 fun sl => { sl with modq := 5 }).issued.modq.toNat ∧ (at0 fun sl => { sl with state := .waitMem }).me.state.waiting = true := by decide
/-- A full word, an empty one, and the last word of the share. -/
theorem witness_LocalScalarAccesses : (withX 0xBFF8 1).poison = [] ∧ (withX 0xBFF8 1).writable 1 ∧ ((withX 0xBFF8 1).rx 2).toNat % 8 = 0
    ∧ (∀ i, i < 8 → 0xBFF8 + i < 0xC000 ∧ (withX 0xBFF8 1).me.lsbase.toNat ≤ 0xBFF8 + i ∧ 0xBFF8 + i < (withX 0xBFF8 1).me.lsbound.toNat)
    ∧ 0xBFF8 / 8 ∉ ((withX 0xBFF8 1).core 0).emptyWords ∧ ((withX 0xBFF8 1).core 0).waiters.find? (·.word == 0xBFF8 / 8) = none
    ∧ ((withX 0xBFF8 1).rx 2).getLsbD 0 = false ∧ ((withX 0xBFF8 1).rx 3).getLsbD 0 = true := ⟨rfl, rfl, by decide, by decide, by decide, by decide, by decide, by decide⟩
theorem witness_LocalAtomics : (withX 0x40 1).poison = [] ∧ (withX 0x40 1).writable 1 ∧ ((withX 0x40 1).rx 2).toNat % 8 = 0
    ∧ (∀ i, i < 8 → lsOk (withX 0x40 1).me.lsbase.toNat (withX 0x40 1).me.lsbound.toNat (0x40 + i) = true) := ⟨rfl, rfl, by decide, by decide⟩
/-- One pass (16 aligned bytes), and two passes (chunks 0 and 8 of one bank). -/
theorem witness_LocalVectorAccesses : (withX 0x40 1).poison = [] ∧ (withX 0x40 1).me.state = .ready
    ∧ (∀ a ∈ span 0x40 16, lsOk (withX 0x40 1).me.lsbase.toNat (withX 0x40 1).me.lsbound.toNat a = true)
    ∧ ((chunksOf (physOf (span 0x40 16))).map (· % 8)).Nodup
    ∧ ¬ ((chunksOf (physOf (span 0x40 16 ++ span 0xC0 16))).map (· % 8)).Nodup
    ∧ badFormat 0x40 = false := by decide
def emptied : State := (withX 0x40 1).modCore 0 fun c => { c with emptyWords := [8], waiters := [] }
/-- Context 3 of slot 1 waits for word 8. -/
def filled : State :=
  let r : MemReq := { MemReq.new .lds 3 1 [] with acq := false }
  ((withX 0x40 1).modCore 0 fun c => { c with emptyWords := [8], waiters := [{ word := 8, who := .ctx 0 3, world := 1, off := 0x40, size := 8 }] }).modSlot 1 fun sl =>
    { sl with state := .waitMem, ctxNum := 3, world := 1, wait := .mem r }
theorem witness_FullEmptyWaiters : emptied.poison = [] ∧ (emptied.rx 2).toNat % 8 = 0 ∧ emptied.writable 1
    ∧ (∀ i, i < 8 → lsOk emptied.me.lsbase.toNat emptied.me.lsbound.toNat (0x40 + i) = true)
    ∧ emptied.me.state = .ready ∧ 8 ∈ (emptied.core 0).emptyWords
    ∧ (filled.core 0).waiters.find? (·.word == 8) = some { word := 8, who := .ctx 0 3, world := 1, off := 0x40, size := 8 }
    ∧ ctxSlot filled 0 3 = some 1 ∧ 1 ≠ filled.cur ∧ (filled.slot 1).longUntil ≤ filled.cycle ∧ (filled.slot 1).streamsRead = 0
    ∧ (filled.slot 1).held = Held.none ∧ (filled.slot 1).stopPending = false ∧ (filled.core 0).parkedLds = [] :=
  ⟨rfl, by decide, rfl, by decide, by decide⟩
theorem witness_LocalStorePasses : let s := accessing { MemReq.new .vst 4 1 (span 0x40 16) with chunks := [4, 12], data := List.replicate 16 1 }
    (s.slot 0).wait = .mem { MemReq.new .vst 4 1 (span 0x40 16) with chunks := [4, 12], data := List.replicate 16 1 } ∧ s.poison = []
    ∧ (physOf (span 0x40 16)).Nodup := by decide

/-- A page of 64 KiB at 0x2_0000 of world 1, with every permission, over physical 0x1_0000. -/
def pageWord : Word := 0x1001F
def page : TlbEntry := { world := 1, va := 0x20000, size := 65536, leaf := pageWord }
def paged (f : Slot → Slot) : State :=
  { ((at0 f).modCluster 0 fun c => { c with tlb := [page] }).modPolder 1 fun p => { p with state := .live } with granules := [(0, 1)] }
/-- A load of 8 bytes that its home performs. -/
def homeLoad (op : MemOp) : MemReq :=
  { MemReq.new op 3 1 (span 0x20000 8) with segs := (span 0x10000 8).map Target.home, asked := 8, data := List.replicate 8 1 }
theorem witness_HomeAccesses :
    (let s := paged fun sl => sl.putX 2 0x20000
     ctxSlot s 0 0 = some 0 ∧ s.cur = 0 ∧ s.me.ctxNum = 0 ∧ s.me.state = .ready ∧ (s.core 0).trace.extractLsb' 4 4 = 0
     ∧ (s.rx 2).toNat = 0x20000 ∧ (∀ i, i < 8 → tlbFind (s.cluster 0).tlb s.me.world (0x20000 + i) = some page)
     ∧ (Leaf.mk pageWord).kind = 0 ∧ (Leaf.mk pageWord).readable = true ∧ (Leaf.mk pageWord).writable = true
     ∧ (∀ i, i < 8 → ownerOf s ((Leaf.mk pageWord).pa + (0x20000 + i) % (Leaf.mk pageWord).size) = some s.me.world
        ∧ homeDie ((Leaf.mk pageWord).pa + (0x20000 + i) % (Leaf.mk pageWord).size) = dieOfCore 0))
    ∧ (∀ op ∈ [MemOp.ld, .vld, .st, .vst, .amo],
      let s := accessing (homeLoad op)
      ctxSlot s 0 0 = some 0 ∧ (s.slot 0).wait = .mem (homeLoad op) ∧ (s.polder 1).state = .live ∧ (s.die 0).tokens = [] ∧ s.poison = []
      ∧ s.hbm = [] ∧ (homeLoad op).segs = (span 0x10000 8).map Target.home ∧ (homeLoad op).vas.length = 8 ∧ (span 0x10000 8).Nodup
      ∧ (∀ p ∈ span 0x10000 8, homeDie p = 0) ∧ (s.slot 0).longUntil ≤ s.cycle ∧ (s.slot 0).streamsRead = 0
      ∧ (s.slot 0).held = Held.none ∧ (s.slot 0).stopPending = false ∧ (s.slot 0).fenceRel = false
      ∧ (s.core 0).trace.getLsbD 0 = false) := by decide

/-- A fill in flight, a tag whose time is over, one in quarantine, and one of another generation. -/
def tagged (use : TagUse) (gen : Nat) (r : MemReq) : State := (accessing r).modDie 0 fun d => { d with tags := [(5, { gen := gen, use := use })] }
theorem witness_CopiesAndTags :
    (let f : RdcFill := { line := 9, world := 1, id := 0, data := [0], install := true, waiters := [] }
     ((died fun d => { d with fills := [f] }).die 0).fills.find? (fun f => f.line == 9 && !f.data.isEmpty) = some f ∧ f.waiters = [])
    ∧ (let r : MemReq := { homeLoad .ld with tag := some (5, 2) }
       let s := tagged (.live (.ctx 0 0) 1 0) 2 r
       getTag s 0 5 = { gen := 2, use := .live (.ctx 0 0) 1 0 } ∧ 0 ≤ s.cycle ∧ ctxSlot s 0 0 = some 0 ∧ (s.slot 0).wait = .mem r
       ∧ r.tag = some (5, 2) ∧ r.key = none ∧ r.op ≠ .xred ∧ (s.slot 0).state ≠ .halted)
    ∧ (2 ≠ 3 ∧ getTag (tagged (.live (.ctx 0 0) 1 9) 2 (homeLoad .ld)) 0 5 = { gen := 2, use := .live (.ctx 0 0) 1 9 })
    ∧ (getTag (tagged (.quarantine 0) 2 (homeLoad .ld)) 0 5 = { gen := 2, use := .quarantine 0 }
      ∧ ((tagged (.quarantine 0) 2 (homeLoad .ld)).die 0).tagQueue = []) := by decide

/-- A FENCE.die.ar that waits, a window address, a page of the own die, and a block counter that is cached. -/
def counted : State := (paged fun sl => { sl.putX 2 0 with bbcbase := 0x20000 }).modCluster 0 fun c => { c with
  bbc := [{ world := 1, addr := 0x20000, count := 3 }] }
theorem witness_FencesAndHints :
    (let r : MemReq := { MemReq.new .fence 0 0 [] with acq := true, rel := true, scope := 3 }
     let s := accessing r
     ctxSlot s 0 0 = some 0 ∧ (s.slot 0).wait = .mem r ∧ r.scope < 4 ∧ (s.polder 1).state = .live ∧ (s.slot 0).longUntil ≤ s.cycle
     ∧ (s.slot 0).streamsRead = 0 ∧ (s.slot 0).held = Held.none ∧ (s.slot 0).stopPending = false)
    ∧ ((withX 0x1FFF8 0).rx 2).toNat < 0x20000
    ∧ (let s := paged fun sl => sl.putX 2 0x20000
       resolve s 0 1 0x20000 = .leaf ⟨pageWord⟩ ∧ targetOf s ⟨pageWord⟩ 0x20000 = .home 0x10000 ∧ homeDie 0x10000 = dieOf s.cur
       ∧ refuses s ⟨pageWord⟩ 1 0x20000 .load = false ∧ refuses s ⟨pageWord⟩ 1 0x20000 .store = false
       ∧ findCopy s 0 1 (lineKey 0 (0x10000 + 2 ^ 37)) = none ∧ openFill s 0 1 (lineKey 0 (0x10000 + 2 ^ 37)) = none)
    ∧ (at0 id).me.bbcbase = 0 ∧ (hintTarget (at0 id) 0 1 0x20000 .store).2 = none
    ∧ counted.me.bbcbase ≠ 0 ∧ (hintTarget counted 0 1 0x20008 .store).2 = some (.home 0x10008)
    ∧ (hintTarget (counted.modCluster 0 fun c => { c with bbc := [] }) 0 1 0x20000 .atomic).2 = some (.home 0x10000)
    ∧ (counted.cluster 0).bbc.length < 256 ∧ (counted.cluster 0).bbc.find? (fun b => b.world == 1 && b.addr == 0x20008) = none
    ∧ (counted.cluster 0).bbc.find? (fun b => b.world == 1 && b.addr == 0x20000) = some { world := 1, addr := 0x20000, count := 3 }
    ∧ counted.poison = [] ∧ counted.hbm = [] ∧ counted.flipped = [] := by decide

/-- A line of the code range whose page the buffers hold, one that no page has, a page without execute permission, and one
of another owner. -/
def fetching (leaf : Word) (w : Nat) : State :=
  { (paged fun sl => { sl with state := .waitFetch, wait := .fetch 0x20000 }).modCluster 0 fun c => { c with tlb := [{ page with leaf := leaf }] } with
    granules := [(0, w)] }
theorem witness_InstructionCaches :
    (let s := paged fun sl => { (sl.putX 2 0x20000).putX 3 64 with codeLo := 0x20000, codeHi := 0x20040 }
     (codeLines s.me 0x20000 64).1 = [0x800] ∧ (bringLine s 0 1 0x800).2.isSome ∧ s.issued.streamOf 1 = none)
    ∧ (let s := at0 fun sl => { (sl.putX 2 0x20000).putX 3 64 with codeLo := 0x20000, codeHi := 0x20040 }
       (codeLines s.me 0x20000 64).1 = [0x800] ∧ (bringLine s 0 1 0x800).2 = none)
    ∧ (let s := fetching pageWord 1
       (s.slot 0).wait = .fetch 0x20000 ∧ (s.slot 0).state = .waitFetch ∧ clusterLine s 0 1 0x800 = none
       ∧ (lookup s 0 1 0x20000).2 = some ⟨pageWord⟩ ∧ (Leaf.mk pageWord).executable = true ∧ targetOf s ⟨pageWord⟩ 0x20000 = .home 0x10000
       ∧ ownerOf s 0x10000 = some 1 ∧ s.poison = [] ∧ s.hbm = [] ∧ s.flipped = [] ∧ (s.slot 0).stopPending = false)
    ∧ ownerOf (fetching pageWord 2) 0x10000 ≠ some 1 ∧ (lookup (fetching 0x10007 1) 0 1 0x20000).2 = some ⟨0x10007⟩
    ∧ (Leaf.mk 0x10007).executable = false ∧ (lookup (at0 id) 0 1 0x20000).2 = none
    ∧ clusterLine (clustered fun c => { c with icache := [{ world := 1, line := 0x800, bundles := [0x2D] }] }) 0 1 0x800 = some [0x2D] := by
  decide

theorem witness_TranslationInvalidates : (withX 0x20000 64).writable 1 ∧ (let n := ((withX 0x20000 64).rx 3).toNat
      n ≠ 0 ∧ ((withX 0x20000 64).rx 2).toNat + n ≤ 2 ^ 57) ∧ 2 ^ 57 < ((withX 0x1FFFFFFFFFFFFFF 2).rx 2).toNat + 2
    ∧ ((withX 1 0).rx 3) = 0 ∧ (at0 fun sl => { sl with world := 0 }).me.world = 0 ∧ ((withX 0 20).rx 3).toNat % 32 ≤ 20
    ∧ 20 < ((withX 0 21).rx 3).toNat % 32 ∧ (withX 0 20).me.world ≠ 0 := ⟨rfl, by decide⟩

/-- A miss that joins an entry, one that finds none, eight entries of its cluster; a walk that is done, stale and absent;
and a world whose walks the steward makes. -/
def missing1 (n : Nat) (stale : Bool) (who : ReplyTo) : State :=
  ((accessing (homeLoad .ld)).modCluster 0 fun c => { c with missQueue := [(1, 0x20000, who)] }).modDie 0 fun d => { d with
    miss := (List.range n).map fun i => { world := 1, key := i, va := i * 65536, cluster := 0, walker := some i, stale := stale, waiters := [] } }
def walked : State :=
  let r : MemReq := MemReq.new .ld 3 1 (span 0x20000 8)
  (((at0 fun sl => { sl with state := .waitMem, wait := .mem r, tvec := 8 }).modDie 0 fun d => { d with
    miss := [{ world := 1, key := 2, va := 0x20000, cluster := 0, walker := some 7, stale := false, waiters := [(0, 0, .ctx 0 0)] }] }))
/-- The tables of world 1 lead 0x2_0000 to its page: a root at 0x10_0000, and a table for each level below it. -/
def tables : State :=
  { (missing1 3 false .none).modPolder 1 fun p => { p with ptbase := 0x100000 } with
    granules := [(0, 1)], mem := [(0x100000, 0x01), (0x100001, 0x10), (0x100002, 0x10), (0x101000, 0x01), (0x101001, 0x20), (0x101002, 0x10),
      (0x102000, 0x01), (0x102001, 0x30), (0x102002, 0x10), (0x103000, 0x01), (0x103001, 0x40), (0x103002, 0x10)]
        ++ (List.range 16).flatMap fun i => [(0x104100 + 8 * i, 0x1F), (0x104102 + 8 * i, 0x01)] }
theorem witness_MissTable :
    (((missing1 3 false .none).cluster 0).missQueue = [(1, 0x20000, .none)] ∧ ((missing1 3 false .none).die 0).miss.any (fun e => e.world == 1 && e.key == 2) = true)
    ∧ (((missing1 2 false .none).die 0).miss.any (fun e => e.world == 1 && e.key == 2) = false
      ∧ (((missing1 2 false .none).die 0).miss.filter (·.cluster == 0)).length < 8)
    ∧ freeWalker ((missing1 2 false .none).die 0) = some 2
    ∧ (((missing1 2 true .none).die 0).miss.find? (fun e => e.walker == some 1)).map (·.stale) = some true
    ∧ walk walked 1 0x20000 = .absent ∧ ctxSlot walked 0 0 = some 0 ∧ (Slot.split walked (walked.slot 0)).getLsbD 1 = false
    ∧ (walked.slot 0).inh = false ∧ (walked.slot 0).tvec ≠ 0 ∧ (walked.slot 0).stopPending = false
    ∧ ((rising (span 0x20000 8)).find? (fun a => a / 65536 == 2)).getD 0 = 0x20000
    ∧ ((walked.die 0).miss.find? (fun e => e.walker == some 7)).map (fun e => (e.va, e.stale)) = some (0x20000, false)
    ∧ walksBySteward walked 1 = false ∧ walksBySteward (walked.modPolder 1 fun p => { p with split := 1 }) 1 = true
    ∧ pageWord.getLsbD 0 = true ∧ pageWord.getLsbD 1 = true ∧ malformedEntry pageWord (bits pageWord.toNat 10 9) = false := by decide
theorem witness_MissTable_leaf : walk tables 1 0x20000 = .leaf ⟨pageWord⟩
    ∧ (∀ p ∈ (tables.modCluster 0 fun c => { c with missQueue := [] }).clusters, p.2.missQueue = [])
    ∧ ((tables.die 0).miss.find? (fun e => e.walker == some 2)).map (fun e => (e.va, e.stale, e.waiters)) = some (0x20000, false, []) := by decide
/-- The destinations of SEND: no cluster, the own die, another die, another module; and mailboxes with and without
a message. -/
def mailed (msgs : List MailMsg) : State := (withX 2 0).modCore 0 fun c => { c with mail := c.mail.set 1 { owner := some 1, msgs := msgs } }
def aMessage : MailMsg := { typ := 0, mbox := 1, sender := 0, world := 1, d1 := 1, d2 := 2, d3 := 3, sig := 0, rel := false, from_ := .none }
theorem witness_SendAndReceive : (withX 0 0).writable 1 ∧ 3200 ≤ 3200 * 64 / 64 % 4096
    ∧ (8 / 64 % 4096 < 3200 ∧ 8 / 4194304 = (withX 8 0).moduleNo ∧ dieOfCore (8 / 8 % 524288) = dieOf (withX 8 0).cur)
    ∧ (dieOfCore (262144 / 8 % 524288) ≠ dieOf (withX 8 0).cur ∧ crossesDown (withX 8 0) 0 (dieOfCore (262144 / 8 % 524288)) = false
      ∧ lowestFree ((withX 8 0).die 0).tags 0 < tagCount)
    ∧ (4194304 / 4194304 ≠ (withX 8 0).moduleNo ∧ hasPath (withX 8 0) 0 1 = false)
    ∧ ownMail ((withX 2 0).core 0) 1 2 = 0 ∧ ownMail ((mailed []).core 0) 1 2 = 2 ∧ (mailed []).me.state = .ready
    ∧ (((mailed [aMessage]).core 0).mail.toList[1]?).map (·.msgs) = some [aMessage] ∧ ctxSlot (mailed [aMessage]) 0 0 = some 0 :=
  ⟨rfl, by decide, by decide, by decide, by decide, by decide, by decide, by decide, rfl, by decide⟩
/-- A polder that is gone, a mailbox of another world, one with room, a full one, and one with a receiver. -/
def receiving : State := ((mailed []).modPolder 1 fun p => { p with state := .live }).modCore 0 fun c => { c with recvq := [3] }
def receiver : State := receiving.modSlot 1 fun sl => { sl with state := .waitRecv, ctxNum := 3, world := 1, wait := .recv 2 4 false }
theorem witness_MailArrivals : polderGone (mailed []) 1 = true ∧ polderGone receiving 1 = false
    ∧ (((receiving.core 0).mail.toList[1]?).map (·.owner)) = some (some 1) ∧ (((receiving.core 0).mail.toList[2]?).map (·.owner)) ≠ some (some 1)
    ∧ oldestReceiver ((mailed []).modPolder 1 fun p => { p with state := .live }) 0 1 = none
    ∧ oldestReceiver receiver 0 1 = some (3, 4, false) ∧ ctxSlot receiver 0 3 = some 1 ∧ (receiver.slot 1).longUntil ≤ receiver.cycle
    ∧ (receiver.slot 1).streamsRead = 0 ∧ (receiver.slot 1).stopPending = false ∧ (receiver.slot 1).held = Held.none
    ∧ (receiver.slot 1).wait = .recv 2 4 false
    ∧ ((mailed (List.replicate 4 aMessage)).core 0).mail[1].msgs.length = 4
    ∧ (let s := (at0 fun sl => sl.pend 5).modPolder 1 fun p => { p with state := .live }
       ctxSlot s 0 0 = some 0 ∧ (s.polder 1).state ≠ .draining ∧ (s.slot 0).wait = .none ∧ (s.slot 0).isPending 5 = true ∧ (s.slot 0).isPending 6 = false)
    ∧ (let s := at0 fun sl => { sl.pend 5 with state := .waitToken, wait := .reissue 0x20 }
       (s.slot 0).wait = .reissue 0x20 ∧ ((s.slot 0).complete 5 0 0).pending &&& 0x20 = 0 ∧ (s.slot 0).stopPending = false) := by decide

/-- A copy, a graph request with a good and an unaligned record, and full kick slots. -/
def aRequest (id core : Nat) : CopyReq := { (default : CopyReq) with id := id, core := core, kind := .cpy, world := 1, ops := [0, 0, 64], g := GraphSt.zero, status := none }
theorem witness_CopyRequests : (withX 0x20040 64).me.state = .ready ∧ ctxSlot (withX 0x20040 64) 0 0 = some 0 ∧ (withX 0x20040 64).writable 1
    ∧ kickRoom (withX 0x20040 64) 0 = true ∧ gorCheck (withX 0 0) { aRequest 0 0 with kind := .gcopy, ops := [0x20040] } = 0
    ∧ gorCheck (withX 0 0) { aRequest 0 0 with kind := .gcopy, ops := [0x20044] } = 0x0F
    ∧ kickRoom (clustered fun c => { c with kicks := (List.range 4).map (aRequest · 0) }) 0 = false := ⟨by decide, by decide, rfl, by decide⟩
theorem witness_CopyHartTurns :
    (let s := clustered fun c => { c with kicks := [aRequest 1 0] }
     (s.cluster 0).kicks.any (·.running) = false ∧ nextReq (s.cluster 0) = some (aRequest 1 0) ∧ (aRequest 1 0).taken = false
     ∧ clusterWaits s 0 (fun w => match w with | .kickFull _ _ => true | _ => false) = [] ∧ copyCheck s 0 (aRequest 1 0) = 0)
    ∧ copyCheck (at0 id) 0 { aRequest 1 0 with ring := some 3 } ≠ 0
    ∧ ((clustered fun c => { c with kicks := [{ aRequest 1 0 with running := true }] }).cluster 0).kicks.any (·.running) = true
    ∧ ((clustered fun c => { c with kicks := [{ aRequest 1 0 with status := some 0 }] }).cluster 0).kicks.find? (·.id == 1) = some { aRequest 1 0 with status := some 0 }
    ∧ ((at0 id).cluster 0).kicks = [] ∧ (aRequest 1 0).acc = none := by decide

/-- Rings 0 to 2 of world 1: sixteen tiles of 512 bytes, four tiles of 64 bytes, and one tile of 64 bytes at its edge;
tiles 0 and 1 of ring 0 stand published. -/
def ringed (f : Cluster → Cluster) : State := clustered fun c => f { c with
  rings := ((c.rings.set 0 { Ring.reset with world := 1, cap := 16, tsz := 8, tail := 8, resv := 8 }).set 1
    { Ring.reset with world := 1, cap := 4, tsz := 1, base := 512 }).set 2 { Ring.reset with world := 1, cap := 1, tsz := 1, base := 600 } }
/-- A modular job of one tile: operands from ring 0, result to memory or to ring 1. -/
def aJob (id nk : Nat) (mem : Option Nat) (shadow : Bool) : Job := { (default : Job) with
  id := id, nk := nk, mem := mem, shadow := shadow, modular := true, aty := 8, desc := if mem.isSome then 0 else 0x1000, world := 1, modq := 17,
  resv := some 0 }
theorem witness_EngineRequests :
    (let s := ringed id
     s.me.state = .ready ∧ ctxSlot s 0 0 = some 0 ∧ s.writable 4 ∧ hasRoom s (newJob s 0 0 4 0 0 (some 0x20000)) = true
     ∧ jobCheck (s.modMe (·.putX 2 0)) (newJob s 8 17 4 0 1 (some 0x20000)) = 0 ∧ jobCheck s (newJob s 0 0 4 0 0 (some 0x20000)) = 0x0C)
    ∧ hasRoom (ringed fun c => { c with engine := { c.engine with normal := (List.range 4).map (aJob · 1 none false) } }) (aJob 9 1 none false) = false
    ∧ (at0 id).issued.modq.toNat = 0 ∧ (at0 fun sl => { sl with modq := 17 }).issued.modq.toNat ≠ 0
    ∧ Nat.min ((withX 0 5).rx 2).toNat 65535 = 0 ∧ Nat.min ((withX 0 5).rx 3).toNat 65535 ≠ 0
    ∧ ((at0 id).cluster 0).engine.ramp = .idle ∧ ringCheck (ringed id) 0 3 1 none ≠ 0 ∧ ringCheck (ringed id) 0 1 1 none = 0
    ∧ ((withX 0x1FFF8 0x20000).rx 2).toNat % 2 ^ 57 % 16 ≠ 0 ∧ ((withX 0x1FFF8 0x20000).rx 3).toNat % 2 ^ 57 % 16 = 0
    ∧ 0x20000 ≤ ((withX 0x1FFF8 0x20000).rx 3).toNat % 2 ^ 57
    ∧ localFault (withX 0xBFC0 0) ((List.range (ringOf ((ringed id).cluster 0) 1).tileBytes).map (0xBFC0 + ·)) = none :=
  ⟨⟨by decide, by decide, rfl, by decide, by decide, by decide⟩, by decide, by decide, by decide, by decide, by decide, by decide,
    by decide, by decide, by decide, by decide, by decide, by decide⟩
theorem witness_EngineRequests_ramps : (∀ r ∈ [Ramp.on, .warm 20, .down 20, .warm 4],
      ((clustered fun c => { c with engine := { c.engine with ramp := r } }).cluster 0).engine.ramp = r)
    ∧ (at0 id).cycle + 10 ≤ 20 ∧ 4 < (at0 id).cycle + 10 := by decide

/-- An engine in a given ramp, with jobs. -/
def engined (ramp : Ramp) (normal shadow : List Job) (running paused : Option Nat) : State := { (ringed fun c => { c with
  engine := { c.engine with ramp := ramp, normal := normal, shadow := shadow, running := running, paused := paused } }) with cycle := 9 }
theorem witness_EngineEvents :
    (let s := engined .on [aJob 1 2 none false] [aJob 2 1 none true] none none
     (s.cluster 0).engine.running = none ∧ shadowReady (s.cluster 0) = some (aJob 2 1 none true))
    ∧ (let s := engined .on [aJob 1 2 none false] [] none none
       shadowReady (s.cluster 0) = none ∧ (s.cluster 0).engine.paused = none ∧ normalPick (s.cluster 0) = some (aJob 1 2 none false))
    ∧ (let s := engined (.up 9 4) [] [] none none
       (s.cluster 0).engine.ramp = .up 9 4 ∧ shadowReady (s.cluster 0) = none ∧ normalPick (s.cluster 0) = none ∧ hasWork (s.cluster 0) = false)
    ∧ (let j := { aJob 1 2 none false with started := true }
       let s := engined .on [j] [aJob 2 1 none true] (some 1) none
       (s.cluster 0).engine.running.bind (fun id => (s.cluster 0).engine.normal.find? (·.id == id)) = some j
       ∧ shadowReady (s.cluster 0) = some (aJob 2 1 none true) ∧ s.cycle < jobEnd j ∧ jobDone s j % boundaryCycles j.aty = 0 ∧ j.since < s.cycle)
    ∧ (let j := { aJob 1 2 none false with started := true }
       let s := engined .on [j] [] none (some 1)
       (s.cluster 0).engine.running = none ∧ (s.cluster 0).engine.paused.bind (s.cluster 0).engine.find = some j ∧ shadowReady (s.cluster 0) = none)
    ∧ (∀ r ∈ [Ramp.warm 9, .warm 10, .down 9, .up 9 0], ((engined r [] [] none none).cluster 0).engine.ramp = r)
    ∧ clusterWaits (engined .on [] [] none none) 0 (fun w => match w with | .jobFull _ _ => true | _ => false) = [] := by decide
/-- A job that has run, with its result for ring 1. -/
theorem witness_EngineEvents_retire : let j := { aJob 1 1 none false with started := true }
    let s := engined .on [j] [] none none
    (s.cluster 0).engine.find 1 = some j ∧ j.started = true ∧ j.done = false ∧ (s.cluster 0).engine.running ≠ some 1
      ∧ (s.cluster 0).engine.paused ≠ some 1 ∧ j.result = [] ∧ j.mem = none ∧ ∃ out code, jobResult s 0 j = some (out, code) :=
  ⟨by decide, rfl, rfl, by decide, by decide, rfl, rfl, _, _, rfl⟩
/-- A retired job whose entry frees, with no slot parked for the queue; and a paused job with no shadow job left. -/
theorem witness_EngineEvents_entry : (let j := { aJob 1 1 none false with done := true }
      let s := engined .on [j] [] none none
      (s.cluster 0).engine.find 1 = some j ∧ j.done = true ∧ s.poison = [] ∧ s.flipped = []
      ∧ clusterWaits s 0 (fun w => match w with | .jobFull _ _ => true | _ => false) = [])
    ∧ (let j := { aJob 1 2 none false with started := true }
       let s := engined .on [j] [] none (some 1)
       (s.cluster 0).engine.paused.bind (s.cluster 0).engine.find = some j ∧ shadowHead (s.cluster 0).engine = none) := by decide

def waitingRing (full : Bool) : Ring := { Ring.reset with
  world := 1, cap := 1, tsz := 1, base := 600, tail := if full then 1 else 0, resv := if full then 1 else 0, waiting := [(0, 8, .copy 3)] }
def configRing : Ring := { Ring.reset with config := [(0, 0, 4, 1, 0x206BC), (0, 0, 5, 1, 0)] }
theorem witness_RingEvents :
    (let s := { (ringed fun c => { c with rings := (c.rings.set 1 (waitingRing false)).set 2 (waitingRing true), kicks := [aRequest 3 0] }) with cycle := 5 }
     let r := ringOf (s.cluster 0) 1
     let f := ringOf (s.cluster 0) 2
     r.waiting = [(0, 8, .copy 3)] ∧ 0 < s.cycle ∧ tilesFrom r.head r.resv < r.cap ∧ f.cap ≤ tilesFrom f.head f.resv ∧ f.waiting = [(0, 8, .copy 3)]
     ∧ ((s.cluster 0).kicks.find? (·.id == 3)).map (fun x => ringCheck s 0 1 x.world none) = some 0 ∧ askerCheck s 0 2 (.copy 3) = 0)
    ∧ (ringOf ((ringed id).cluster 0) 1).waiting = [] ∧ (ringOf ((ringed id).cluster 0) 1).published = []
    ∧ (ringOf ((ringed id).cluster 0) 1).tail = 0
    ∧ (let s := ringed fun c => { c with rings := c.rings.set 5 configRing }
       let r := ringOf (s.cluster 0) 5
       r.config = configRing.config ∧ r.quiet = true ∧ (ringConfig (s.cluster 0) 5 1 0x206BC).isOk ∧ r.head = r.tail ∧ r.cap = 0
       ∧ (0x206BC : Word).toNat / 2 ^ 34 = 0)
    ∧ ((ringConfig ((ringed id).cluster 0) 5 1 0).toOption = none)
    ∧ ({ Ring.reset with resv := 1 } : Ring).quiet = false := by decide

def graphReq : CopyReq := { aRequest 1 0 with kind := .gcopy, ops := [0x20040], taken := true, g := { GraphSt.zero with loaded := true } }
/-- A graph request of world 1 that works on the record at 0x2_0040, while it runs and once it ends. -/
def graphed (r : CopyReq) : State := (paged fun sl => { (sl.putX 2 0x20040).putX 3 0x20048 with world := 1 }).modCluster 0 fun c => { c with kicks := [r] }
theorem witness_GraphRequestStatus : (graphed graphReq).writable 4
    ∧ (let s := graphed graphReq
       (s.rx 2).toNat % 2 ^ 57 % 64 = 0 ∧ (s.rx 3).toNat % 2 ^ 57 % 64 ≠ 0 ∧ gorOwner s 1 0x20040 = some (0, graphReq)
       ∧ graphReq.taken = true ∧ graphReq.g.loaded = true ∧ s.iss.prio = none ∧ gorOwner s 1 0x20080 = none ∧ s.poison = [] ∧ s.hbm = [])
    ∧ (let r := { graphReq with status := some 0, g := { GraphSt.zero with fin := true } }
       let s := graphed r
       reqOf s 0 1 = some r ∧ r.gor = 0x20040 ∧ reqOf s 0 2 = none ∧ crossesDown s (dieOfCluster 0) (homeDie 0x10060) = false
       ∧ unitTarget s (reqUser 0 r) (r.gor + 32) 32 true = .ok (.home 0x10060)) := ⟨rfl, by decide, by decide, rfl, by decide, by decide, rfl⟩
/-- GSTAT of a record in the own local store that no request works on; a request that ends with nothing left to write. -/
theorem witness_GraphRequestStatus_own : (let s := withX 0x40 0
      s.writable 4 ∧ (s.rx 2).toNat % 2 ^ 57 % 64 = 0 ∧ gorOwner s s.me.world ((s.rx 2).toNat % 2 ^ 57) = none ∧ s.poison = []
      ∧ ∀ i, i < 8 → lsOk s.me.lsbase.toNat s.me.lsbound.toNat ((s.rx 2).toNat % 2 ^ 57 + 32 + i))
    ∧ graphReq.acc = none ∧ graphReq.g.cache = [] := ⟨⟨rfl, by decide⟩, by decide, by decide⟩

def objectPacket (flits : List Word) : Packet := { (default : Packet) with dst := 1, src := 4194304, world := 2, data := flits }
def peered : State := (graphed graphReq).modPolder 1 fun p => { p with peers := [{ smod := 1, sworld := 2, ls := false, ra := false, w := true, r := false, count := 1, first := 0 }] }
/-- The source's request with its live tag 5 of generation 2. -/
def sending : State := (graphed graphReq).modDie 0 fun d => { d with tags := [(5, { (default : Tag) with gen := 2, use := .live (.copy 0 1) 1 9 })] }
def answerPacket (flits : List Word) : Packet := { objectPacket flits with tagIdx := 5, tagGen := 2 }
theorem witness_GraphSendPackets : (at0 id).polder 1 = Polder.reset ∧ Polder.reset.state ≠ .live
    ∧ ((graphed graphReq).polder 1).state = .live
    ∧ ((graphed graphReq).polder 1).peers.any (fun e => e.smod == (objectPacket []).src / 4194304 && e.sworld == (objectPacket []).world && e.w) = false
    ∧ (peered.polder 1).state = .live ∧ (peered.polder 1).peers.any (fun e => e.smod == (objectPacket []).src / 4194304 && e.sworld == (objectPacket []).world && e.w) = true
    ∧ ((answerPacket [0, 0, 0]).data[2]?.getD 0).toNat % 256 = 0 ∧ ((answerPacket [0, 0, 8]).data[2]?.getD 0).toNat % 256 ≠ 0
    ∧ gsendOwner peered 0 (answerPacket []) = none ∧ gsendOwner sending 0 (answerPacket []) = some graphReq ∧ (sending.die 0).tagQueue = [] := by decide
/-- An object's packet at a destination that has begun to work on it, and the writes that place the object. -/
def placing (p : Packet) : State := peered.freshId.modCluster 0 fun c => { c with
  dests := c.dests ++ [{ id := peered.nextId, fin := false, packet := p, cache := [], acc := none, key := 0 }] }
def objectWrites : List GWrite := (0x20200, toLe (0 % 2 ^ 32) 8 ++ toLe 0 8, false) :: (0x20100 + 8 * 0, toLe 0x20200 8, false) :: dwordsAt (0x20200 + 16) []
theorem witness_GraphSendPackets_place : let p := objectPacket [0, 0, 0, 0, 0x20100, 0x20200, 0x20240, 0]
    ((p.data[3]?).getD 0).toNat = 0 ∧ ((p.data[5]?).getD 0).toNat + (16 + 8 * 0 + 15) / 16 * 16 ≤ ((p.data[6]?).getD 0).toNat
    ∧ (gWrites (placing p) (destUser 0 1 peered.nextId) none [] 0 objectWrites).2.2.2 = none
    ∧ (let q := objectPacket [0, 0, 0, 0, 0x20100, 0x20200, 0x20200, 0]
       ((q.data[6]?).getD 0).toNat < ((q.data[5]?).getD 0).toNat + (16 + 8 * 0 + 15) / 16 * 16) := by decide

/-- Slot 0 in its launch's groups: bit 32 of sr.groups with group 7. -/
def grouped : State := at0 fun sl => { (sl.putX 2 7).putX 3 8 with groups := 0x100000007, codeHi := 0x1000 }
theorem witness_TaskInstructions : grouped.writable 4
    ∧ (let sl := grouped.me
       (List.range 4).any (fun k => sl.groups.getLsbD (32 + k) && bits sl.groups.toNat (8 * k + 7) (8 * k) == 7) = true
       ∧ (List.range 4).any (fun k => sl.groups.getLsbD (32 + k) && bits sl.groups.toNat (8 * k + 7) (8 * k) == 8) = false ∧ sl.state = .ready)
    ∧ spawnCode grouped true 8 0 = 0 ∧ spawnCode grouped true 4 0 = 0x0F ∧ bits (39 * 2 ^ 58 + 8) 63 58 < 40 ∧ (grouped.core 0).deque.length < 64
    ∧ ((cored fun c => { c with deque := List.replicate 64 default }).core 0).deque.length = 64
    ∧ grouped.cur % 8 ≠ 6 ∧ ({ grouped with cur := 6 } : State).cur % 8 = 6
    ∧ grouped.me.pending = 0 ∧ grouped.me.outstanding = 0 ∧ (at0 (·.pend 5)).me.pending ≠ 0 := ⟨rfl, by decide⟩

/-- A drained TDONE or TYIELD of launch 5, which has four live tasks. -/
def aLaunch : Launch := { (default : Launch) with handle := 5, state := .running, live := 4, count := 2, groups := [(7, 0, 1, 1, false)] }
def drained (r : MemReq) : State := ((accessing r).modSlot 0 fun sl => { sl with launch := 5 }).modPolder 1 fun p => { p with launches := [aLaunch] }
def drainReq (op : MemOp) : MemReq := { MemReq.new op 0 0 [] with acq := true, rel := true, scope := 4, phase := 1, cmp := 0x40 }
theorem witness_TaskEnds : (∀ op ∈ [MemOp.tdone, .tyield],
      let s := drained (drainReq op)
      let sl := s.slot 0
      ctxSlot s 0 0 = some 0 ∧ coreOf 0 = 0 ∧ sl.ctxNum = 0 ∧ sl.wait = .mem (drainReq op) ∧ (drainReq op).phase = 1 ∧ (drainReq op).acq = true
      ∧ (drainReq op).scope = 4 ∧ (s.polder sl.world).state = .live ∧ sl.outstanding = 0 ∧ (s.die (dieOfCore 0)).tokens = []
      ∧ (s.cluster 0).bbc = [] ∧ sl.done = 0 ∧ sl.seeded = false ∧ launchOf s sl.world (sl.launch.toNat % 1024) = some aLaunch
      ∧ aLaunch.state = .running ∧ 2 ≤ aLaunch.live ∧ sl.prio < 40 ∧ (drainReq op).cmp.toNat % 8 = 0 ∧ (drainReq op).cmp.toNat < 2 ^ 57
      ∧ (s.core 0).deque.length < 64) := by decide
/-- Group 7 of two tasks with one arrival and with two, and a task that waits at it. -/
def gathered (arrived : List (Nat × Nat × Nat × Nat)) : State := (poldered fun p => { p with
  launches := [aLaunch], barriers := [{ launch := 5, group := 7, gen := 1, arrived := arrived, ended := [], sig := 3 }] }).modSlot 0 fun sl =>
    { sl with state := .waitBarrier, wait := .barrier 7 2 }
theorem witness_TaskEnds_barriers : launchOf (gathered []) 1 5 = some aLaunch
    ∧ barrierFull aLaunch (findBarrier (gathered [(0, 0, 0, 2)]) 1 5 7) = false
    ∧ barrierFull aLaunch (findBarrier (gathered [(0, 0, 0, 2), (1, 0, 1, 2)]) 1 5 7) = true
    ∧ (findBarrier (gathered [(0, 0, 0, 2), (1, 0, 1, 2)]) 1 5 7).arrived ≠ []
    ∧ (let s := gathered []
       ctxSlot s 0 0 = some 0 ∧ (s.slot 0).wait = .barrier 7 2 ∧ (s.slot 0).longUntil ≤ s.cycle ∧ (s.slot 0).streamsRead = 0
       ∧ (s.slot 0).stopPending = false ∧ (s.slot 0).held = Held.none) := by decide

def aTask (prio : Nat) : TaskRec := { (default : TaskRec) with world := 1, prio := prio, pc := 64 }
def anEntry : CtxEntry := { core := 0, slot := { Slot.reset with state := .swapped, saved := .ready, world := 1, prio := 9, ctxNum := 4 }, lastUse := 0, lost := false, since := 0 }
/-- A core with a share of world 1, a deque, and a context in the cache. -/
def tasked (deque : List TaskRec) (cache : List CtxEntry) : State := ((((at0 id).modCore 0 fun c => { c with
  deque := deque, shares := [(1, (0, 64))], ctxNums := [0] }).modCluster 0 fun c => { c with cache := cache }).modPolder 1 fun p => { p with state := .live })
def stealing (st : Steal) : State := (tasked [] []).modCore 0 fun c => { c with steal := [(1, st)] }
/-- Every general slot is taken. -/
def fullCore : State := (List.range 6).foldl (fun s k => s.modSlot k fun sl => { sl with state := .ready, world := 1 }) (tasked [] [])
theorem witness_TaskEvents :
    (let s := tasked [aTask 3] []
     emptyGeneral s 0 = some 1 ∧ coreOf 1 = 0 ∧ readySwapped s 0 1 = [] ∧ bottomOf s 0 1 = some (aTask 3) ∧ shareFits (s.core 0) 1 = true
     ∧ freeNum (s.core 0) = some 1 ∧ (s.core 0).deque.length < 16 ∧ s.poison = [] ∧ s.flipped = [])
    ∧ (let s := (tasked [aTask 3] []).modCore 0 fun c => { c with shares := [(1, (0, 64)), (2, (32, 96))] }
       bottomOf s 0 1 = some (aTask 3) ∧ shareFits (s.core 0) 1 = false)
    ∧ (emptyGeneral (tasked [] []) 0 = some 1 ∧ readySwapped (tasked [] []) 0 1 = [] ∧ bottomOf (tasked [] []) 0 1 = none)
    ∧ (readySwapped (tasked [] [anEntry]) 0 1 = [anEntry] ∧ bottomOf (tasked [] [anEntry]) 0 1 = none)
    ∧ (bottomOf (tasked [aTask 9] [anEntry]) 0 1 = some (aTask 9) ∧ (readySwapped (tasked [aTask 9] [anEntry]) 0 1).find? (fun e => decide ((aTask 9).prio ≤ e.slot.prio)) = some anEntry)
    ∧ (∀ e ∈ readySwapped (tasked [aTask 10] [anEntry]) 0 1, e.slot.prio < (aTask 10).prio)
    ∧ (let s := (tasked [] []).modCore 0 fun c => { c with spilled := [[aTask 1]] }
       (s.core 0).spilled.getLast? = some [aTask 1] ∧ (s.core 0).deque.length < 16 ∧ [aTask 1].any (·.world == 1) = true)
    ∧ 16 ≤ ((tasked (List.replicate 16 (aTask 0)) []).core 0).deque.length
    ∧ (let s := tasked [] []
       (stealOf (s.core 0) 1).active = false ∧ (stealOf (s.core 0) 1).backoff = none ∧ maySteal s 0 1 = true ∧ sharedCores s (dieOfCore 0) 1 = [0] ∧ dieOfCore 0 < 16)
    ∧ maySteal (tasked [aTask 3] []) 0 1 = false
    ∧ (stealOf ((stealing { active := false, dieStep := 0, tries := 0, backoff := some 0 }).core 0) 1).backoff = some 0
    ∧ (let s := stealing { active := true, dieStep := 15, tries := 7, backoff := none }
       tagOf s (dieOfCore 0) (.thief 0 1) = none ∧ (stealOf (s.core 0) 1).active = true ∧ maySteal s 0 1 = true ∧ launchOf s 1 0 = none)
    ∧ (fullCore.polder 1).state = .live ∧ emptyGeneral fullCore 0 = none ∧ launchOf fullCore (aTask 3).world (aTask 3).launch = none
    ∧ tagOf fullCore (dieOfCore 0) (.thief 0 1) = none
    ∧ ((tasked [] []).polder 1).launches.filter (fun l => l.queue == 3) = [] ∧ (queueOf (tasked [] []) 1 3).links = [] := ⟨by decide, by decide, by decide, ⟨rfl, by decide⟩, ⟨by decide, rfl⟩, by decide, by decide, by decide, by decide, by decide, by decide, by decide, by decide, by decide, by decide, by decide, by decide, by decide⟩

/-- A store of 8 bytes to a translated page, parked, with the token in the record. -/
def storing (phase : Nat) (token : Word) : MemReq := { homeLoad .sttk with phase := phase, rd := 5, extra := token }
def mStore : MrrF := { (default : MrrF) with size := 3, s1 := 2, s2 := 5, d := 3 }
theorem witness_TokenStores : (paged id).writable mStore.s2
    ∧ (let s := paged fun sl => sl.putX 2 0x20000
       let a := (s.rx mStore.s1 + 0).toNat % 2 ^ 57
       a % 8 = 0 ∧ 0x20000 ≤ a ∧ a + 8 ≤ 2 ^ 57 ∧ s.me.state = .ready ∧ ctxSlot s 0 s.me.ctxNum = some s.cur ∧ (s.core 0).trace.extractLsb' 4 4 = 0
       ∧ (∀ i, i < 8 → tlbFind (s.cluster (clusterOf s.cur)).tlb s.me.world (a + i) = some page) ∧ (Leaf.mk page.leaf).kind = 0
       ∧ (Leaf.mk page.leaf).writable = true
       ∧ (∀ i, i < 8 → ownerOf s ((Leaf.mk page.leaf).pa + (a + i) % (Leaf.mk page.leaf).size) = some s.me.world))
    ∧ (((withX 4 0).rx mStore.s1 + 0).toNat % 2 ^ 57 % 8 ≠ 0 ∧ ((withX 8 0).rx mStore.s1 + 0).toNat % 2 ^ 57 % 8 = 0 ∧ ((withX 8 0).rx mStore.s1 + 0).toNat % 2 ^ 57 < 0x20000)
    ∧ (∀ r ∈ [storing 0 0, storing 1 0, storing 1 (mkToken 0 0 0 1 1), storing 1 (mkToken 0 0 0 2 1), storing 1 (1 <<< 32)],
       let s := accessing r
       ctxSlot s 0 0 = some 0 ∧ (s.slot 0).wait = .mem r ∧ r.op = .sttk ∧ r.segs = .home 0x10000 :: (span 0x10001 7).map Target.home
       ∧ (s.polder (s.slot 0).world).state = .live ∧ homeDie 0x10000 = dieOfCore 0 ∧ (s.slot 0).longUntil ≤ s.cycle
       ∧ (s.slot 0).streamsRead = 0 ∧ (s.slot 0).held = Held.none ∧ (s.slot 0).stopPending = false
       ∧ ((s.die 0).tokens.filter (fun e => !(getSpace s 0 e.world e.pgen).settled.contains e.seq)).length < 4096)
    ∧ bits (storing 1 (1 <<< 32)).extra.toNat 34 32 ≠ 0 ∧ tokWorld (mkToken 0 0 0 1 1).toNat = 1 ∧ bits (mkToken 0 0 0 1 1).toNat 34 32 = 0
    ∧ tokWorld (mkToken 0 0 0 2 1).toNat ≠ 1 := ⟨rfl, by decide, by decide, by decide, by decide, by decide, by decide, by decide⟩

def aToken (holders : List Nat) : TokEntry := { (default : TokEntry) with world := 1, pgen := 0, seq := 3, core := 0, ctx := 0, holders := holders }
/-- A space of world 1 whose last sequence is 5, with the watermark at m, and the store of sequence 3 on its way. -/
def tokened (m : Nat) (holders : List Nat) : State := ((at0 id).modPolder 1 fun p => { p with state := .live }).modDie 0 fun d => { d with
  tokens := [aToken holders], spaces := [(spaceKey 1 0, { TokSpace.fresh with alloc := 5, mark := m })] }
theorem witness_TokenTable : tokEntry (at0 id) 0 1 0 3 = none
    ∧ (let s := tokened 2 []
       tokEntry s 0 1 0 3 = some (aToken []) ∧ (getSpace s 0 1 0).settled = [] ∧ ctxSlot s 0 0 = some 0
       ∧ (s.polder (s.slot 0).world).state ≠ .draining ∧ (s.slot 0).wait = .none ∧ (∀ x ∈ (s.die 0).tokens, x.holders = [])
       ∧ seqNext (getSpace s 0 1 0).mark = 3 ∧ (s.slot 0).tkerr.getLsbD 8 = false ∧ (getSpace s 0 1 0).windows = [])
    ∧ seqNext (getSpace (tokened 1 []) 0 1 0).mark ≠ 3
    ∧ tokResolution (tokened 3 []) 0 (mkToken 0 0 0 1 3).toNat = some false
    ∧ ((tokened 1 []).polder (tokWorld (mkToken 0 0 7 1 3).toNat)).gen ≠ tokGen (mkToken 0 0 7 1 3).toNat
    ∧ tokResolution (tokened 1 []) 0 (mkToken 0 0 0 1 3).toNat = none
    ∧ ((tokened 1 []).die 0).tokens.find? (fun e => e.world == 1 && e.pgen == 0 && e.seq == 3) = some (aToken [])
    ∧ (List.range 8).contains 9 = false ∧ 8 ≤ (aToken (List.range 8)).holders.length ∧ (aToken []).holders.length < 8
    ∧ ((tokened 1 []).die 0).sluice.any (fun e => e.store.token == mkToken 0 0 0 1 3) = false
    ∧ tokModule (mkToken 0 0 0 1 3).toNat = (tokened 1 []).moduleNo
    ∧ crossesDown (tokened 1 []) 0 (tokDie (mkToken 0 0 0 1 3).toNat) = false := by decide

def aDep (token : Word) : DepStore := { (default : DepStore) with token := token, world := 1, data := [7], pa := 0x10000, from_ := .dep 0 0 token, expiry := 100 }
def held1 (n : Nat) (token : Word) : Sluiced := { n := n, store := aDep token, expiry := 0 }
def sluiced (l : List Sluiced) : State := { (tokened 1 []).modDie 0 (fun d => { d with sluice := l }) with granules := [(0, 1)] }
theorem witness_Sluice : let t := mkToken 0 0 0 1 3
    (aDep t).module = (sluiced []).moduleNo ∧ polderGone (sluiced []) (aDep t).world = false ∧ (aDep 0).token = 0 ∧ (aDep 0).target = none
    ∧ ownerOf (sluiced []) (aDep t).pa = some (aDep t).world ∧ (sluiced []).poison = [] ∧ (sluiced []).hbm = [] ∧ (aDep t).token ≠ 0 ∧ depClean (sluiced []) 0 t.toNat = false
    ∧ ((sluiced []).die 0).sluice.length < 512 ∧ 512 ≤ ((sluiced (List.replicate 512 (held1 0 0))).die 0).sluice.length
    ∧ crossesDown (sluiced []) 0 (holderDie (aDep t)) = false ∧ depMark (sluiced []) 0 t.toNat = none
    ∧ ((sluiced [held1 4 t]).die 0).sluice.find? (·.n == 4) = some (held1 4 t) ∧ (held1 4 t).store.from_ = .dep 0 0 t
    ∧ (held1 4 t).expiry ≤ (sluiced [held1 4 t]).cycle
    ∧ (sluiced [held1 4 t]).agenda.any (fun p => decide (p.1 ≤ 0) && (match p.2 with | .releaseArrival d _ _ _ _ _ => d == 0 | _ => false)) = false
    ∧ ((sluiced []).die 0).sluice.find? (·.n == 4) = none :=
  ⟨rfl, by decide, rfl, rfl, rfl, rfl, rfl, by decide, by decide, by decide, by show 512 ≤ (List.replicate 512 (held1 0 0)).length; rw [List.length_replicate], by decide, by decide, by decide, rfl, by decide, by decide, by decide⟩

/-- A slot word of slot 2, generation 0, contribution 0; a key of 2 contributions of s32; and a record at 0x40. -/
def redSlotWord : Word := BitVec.ofNat 64 (2 * 2 ^ 40)
def redKeyWord : Word := BitVec.ofNat 64 (2 * 2 ^ 38 + 1 * 2 ^ 32 + 99)
def xreds : XredF := { (default : XredF) with d := 5, s1 := 2, s2 := 4 }
def contributing : State := at0 fun sl => ((sl.putX 2 redSlotWord).putX 3 redKeyWord).putX 4 0x40
theorem witness_Reductions : contributing.writable 5 ∧ badXred (contributing.rx 2).toNat (contributing.rx (2 + 1)).toNat 0x40 = false
    ∧ badXred (contributing.rx 2).toNat (contributing.rx (2 + 1)).toNat 0x48 = true ∧ (contributing.polder 1).split.getLsbD 4 = false
    ∧ SpanOk contributing 0x40 16 id ∧ (contributing.rx 4).toNat % 2 ^ 57 = 0x40
    ∧ bits (contributing.rx 2).toNat 63 52 = contributing.moduleNo ∧ bits (contributing.rx 2).toNat 51 48 = dieOfCore (coreOf contributing.cur) :=
  ⟨rfl, by decide, by decide, by decide, ⟨by decide, by decide⟩, by decide, by decide, by decide⟩
def aPart (i gen world : Nat) : Contribution := { (default : Contribution) with slot := 2, gen := gen, op := 0, ty := 2, n := 2, i := i, dl := 100, world := world, from_ := .xred 0 0 5 0x40 false }
def redSlot (st : RedState) (n : Nat) (arrived : List Contribution) : RedSlot := { RedSlot.reset with
  state := st, world := 1, gen := 3, op := 0, ty := 2, n := n, arrived := arrived }
def reducing (r : RedSlot) : State := (tokened 1 []).modDie 0 fun d => { d with red := [(2, r)] }
theorem witness_Reductions_arrivals : (aPart 0 3 1).module = (reducing RedSlot.reset).moduleNo ∧ polderGone (reducing RedSlot.reset) (aPart 0 3 1).world = false
    ∧ (getRed (reducing RedSlot.reset) 0 2).state = .free ∧ (aPart 0 0 1).gen = RedSlot.reset.gen ∧ (aPart 0 0 1).i < (aPart 0 0 1).n ∧ 1 < (aPart 0 0 1).n
    ∧ getRed (reducing (redSlot .opened 2 [])) 0 2 = redSlot .opened 2 [] ∧ (redSlot .opened 2 []).sameKey (aPart 0 3 1) = true
    ∧ (redSlot .opened 2 []).arrived.length + 1 ≠ 2 ∧ (redSlot .opened 1 []).sameKey { aPart 0 3 1 with n := 1 } = true
    ∧ getRed (reducing (redSlot .done 2 [])) 0 2 = redSlot .done 2 [] ∧ (redSlot .opened 2 []).gen ≠ (aPart 0 4 1).gen
    ∧ (redSlot .opened 2 []).world ≠ (aPart 0 3 2).world ∧ polderGone ((reducing RedSlot.reset).modPolder 2 fun p => { p with state := .live }) 2 = false
    ∧ (redSlot .opened 2 [aPart 0 3 1]).deadline ≤ (reducing RedSlot.reset).cycle
    ∧ ({ RedSlot.reset with gen := 4 } : RedSlot).gen = ((aPart 0 3 1).gen + 1) % 256
    ∧ ctxSlot (tokened 1 []) 0 0 = some 0 ∧ lsFail ((tokened 1 []).slot 0).lsbase.toNat ((tokened 1 []).slot 0).lsbound.toNat 0x40 32 = none := by decide

/-- Core 0 in the local-time mode of world 1, at clock 10. -/
def timed (f : Core → Core) : State := ((withX 12 20).modCore 0 fun c => f { c with ltWorld := some 1, clock := 10 }).modPolder 1 fun p =>
  { p with state := .live, cores := [0] }
def anOut : OutChan := { core := 1, k := 2, f := 3, seq := 0, world := 1 }
def anIn : InChan := { src := 8, f := 5, m := 20, declared := true, ctx := 0, reg := 5 }
def anEvent (stamp : Nat) : LtEvent := { (default : LtEvent) with stamp := stamp, src := 8, ch := 2, from_ := .token 0 0 5 }
theorem outs_none (s : State) (h : ∀ i : Fin 8, (s.core 0).outCh[i] = none) (P : OutChan → Prop) : ∀ i : Fin 8, ∀ oc, (s.core 0).outCh[i] = some oc → P oc := by
  intro i oc e
  rw [h i] at e
  cases e
theorem witness_LocalTime : (timed id).writable 5 ∧ ltHeld ((timed fun c => { c with ltWorld := some 2 }).core 0) 1 = true ∧ ltHeld ((timed id).core 0) 1 = false
    ∧ (∀ i, i < 8 → ((timed id).slot (0 * 8 + i)).state ≠ .halted ∧ ((timed id).slot (0 * 8 + i)).state ≠ .stopped ∧ ((timed id).slot (0 * 8 + i)).state ≠ .lost)
    ∧ ((timed id).core 0).clock ≤ ((timed id).rx 2).toNat ∧ (((timed id).rx 4).toNat < ((timed id).core 0).clock)
    ∧ (((timed id).modPolder 1 fun p => { p with split := 64 }).polder 1).split.getLsbD 6 = true ∧ ((timed id).polder 1).split.getLsbD 6 = false
    ∧ ((timed id).core 0).trecvq = [] ∧ ((timed id).rx 2).toNat % 2 ^ 34 / 64 % 4096 < 3200 ∧ ((timed id).rx 4).toNat = 0
    ∧ 1 ≤ ((timed id).rx 3).toNat ∧ ((timed id).rx 3).toNat ≤ 2 ^ 20 ∧ chanAt ((timed id).core 0).inCh 2 = none
    ∧ ((timed id).rx 2).toNat % 2 ^ 34 / 8 / 524288 = (timed id).moduleNo ∧ dieOfCore (((timed id).rx 2).toNat % 2 ^ 34 / 8 % 524288) = dieOfCore 0 :=
  ⟨rfl, by decide⟩
/-- Output channel 0 to input channel 2 of core 1: no channel, a stamp that is too early, and one that is not. -/
def sendingTo (v : Word) : State := (timed fun c => { c with outCh := c.outCh.set 0 (some anOut) }).modMe fun sl => (sl.putX 2 v).putX 4 v
theorem witness_LocalTime_send : (∀ i : Fin 8, ∀ oc, ((timed id).core 0).outCh[i] = some oc → ¬(oc.core = 12 / 8 % 2 ^ 31 ∧ oc.k = 12 / 2 ^ 34 % 8))
    ∧ (let s := sendingTo (BitVec.ofNat 64 (8 + 2 * 2 ^ 34))
       chanAt (s.core 0).outCh 0 = some anOut ∧ anOut.core = (s.rx 2).toNat / 8 % 2 ^ 31 ∧ anOut.k = (s.rx 2).toNat / 2 ^ 34 % 8
       ∧ (s.rx 5).toNat < (s.core 0).clock + anOut.f ∧ (s.core 0).clock + anOut.f ≤ (s.rx 3).toNat ∧ anOut.core / 524288 = s.moduleNo
       ∧ dieOfCore (anOut.core % 524288) = dieOfCore 0 ∧ crossesDown s (dieOfCore 0) (dieOfCore (anOut.core % 524288)) = false) :=
  ⟨outs_none (timed id) (by decide) _, by decide⟩
theorem witness_LocalTime_receive :
    (let s := timed fun c => { c with inCh := c.inCh.set 2 (some anIn), events := [anEvent 24] }
     (s.core 0).ltWorld = some s.me.world ∧ (s.core 0).events = [anEvent 24] ∧ (anEvent 24).stamp < safeTime s 0 ∧ ctxSlot s 0 s.me.ctxNum = some s.cur
     ∧ chanAt (s.core 0).inCh (10 % 8) = some anIn ∧ anIn.declared = true)
    ∧ (let s := timed fun c => { c with inCh := c.inCh.set 2 (some anIn), events := [anEvent 25] }
       (s.core 0).events = [anEvent 25] ∧ safeTime s 0 ≤ (anEvent 25).stamp ∧ (s.core 0).trace.getLsbD 0 = false)
    ∧ (at0 id).core 0 = Core.reset ∧ Core.reset.ltWorld = none ∧ ((timed fun c => { c with ltWorld := some 2 }).core 0).ltWorld = some 2 ∧ 2 ≠ (timed id).me.world := by decide
/-- The packets: a declaration with room and without, its answer, TIDE and events for a channel and for none, the keyed
atomics, and the end of the mode with and without a task. -/
def anAtomic : KeyedAtomic := { t := 10, s := 0, q := 0, launch := 0, core := 0, ctx := 0, pa := 0x10000, req := homeLoad .amo, away := none }
theorem witness_LocalTime_packets : polderGone (timed id) 1 = false ∧ ltHeld ((timed id).core 0) 1 = false ∧ (∃ i : Fin 8, ((timed id).core 0).outCh[i] = none)
    ∧ (∀ i : Fin 8, ((timed fun c => { c with outCh := Vector.replicate 8 (some anOut) }).core 0).outCh[i] ≠ none) ∧ (anOut.core ≠ 9)
    ∧ chanAt ((timed fun c => { c with inCh := c.inCh.set 2 (some { anIn with declared := false }) }).core 0).inCh 2 = some { anIn with declared := false }
    ∧ holdsChannel ((timed fun c => { c with inCh := c.inCh.set 2 (some anIn) }).core 0) (anEvent 0).ch (anEvent 0).src = true
    ∧ holdsChannel ((timed id).core 0) (anEvent 0).ch (anEvent 0).src = false
    ∧ (timed id).cores.map (·.1) = [0] ∧ ((timed id).core 0).ltWorld.isSome
    ∧ applicable (timed id) 0 = none ∧ hasTask (timed id) 0 1 = true
    ∧ hasTask ((timed id).modSlot 0 fun sl => { sl with state := .empty }) 0 1 = false := by decide
theorem witness_LocalTime_atomics : applicable ((timed id).modDie 0 fun d => { d with keyed := [anAtomic] }) 0 = some anAtomic := by rfl

/-- World 0's slot with operands w and x, and polder 3 in a given state. -/
def commanding (x : Word) (f : Polder → Polder) : State := (at0 fun sl => { (sl.putX 2 3).putX 3 x with world := 0 }).modPolder 3 f
def rangeWord (first count : Nat) : Word := BitVec.ofNat 64 (count * 2 ^ 48 + first)
theorem witness_PolderCommands : (withX 3 0).writable 5 ∧ (withX 3 0).me.world ≠ 0 ∧ (commanding 0 id).me.world = 0 ∧ ((commanding 0 id).rx 4).toNat = 0
    ∧ 20 < ((commanding 21 id).rx 3).toNat ∧ 1 ≤ ((commanding 0 id).rx 2).toNat ∧ ((commanding 0 id).rx 2).toNat ≤ 20 ∧ ((commanding 0 id).rx 3).toNat = 0
    ∧ (∀ st ∈ [PolderState.free, .forming, .live, .draining], ((commanding 0 fun p => { p with state := st }).polder 3).state = st)
    ∧ (let x := (rangeWord 4 2).toNat; bits x 47 16 = 0 ∧ bits x 63 48 ≠ 0 ∧ bits x 15 0 + bits x 63 48 ≤ 65536)
    ∧ ¬ (bits (rangeWord 4 0).toNat 63 48 ≠ 0)
    ∧ (∀ g, 4 ≤ g → g < 4 + 2 → NMap.find (commanding 0 id).granules g = none)
    ∧ (let s := { commanding 0 id with granules := [(4, 3), (5, 3), (6, 2)] }
       (∀ g, g < 6 → 4 ≤ g → NMap.find s.granules g = some 3) ∧ NMap.find s.granules 6 ≠ none ∧ NMap.find s.granules 6 ≠ some 3 ∧ hasMemory s 3 = true) := by
  refine ⟨rfl, by decide, by decide, by decide, by decide, by decide, by decide, by decide, by decide, by decide, by decide, ?_, by decide⟩
  intro g _ _
  rfl
theorem witness_PolderCommands_share : let x := 0 * 2 ^ 38 + 1 * 2 ^ 28 + 8
    bits x 27 19 = 0 ∧ 64 * bits x 47 38 ≤ 64 * bits x 37 28 ∧ 64 * bits x 37 28 ≤ 49152 ∧ bits (bits x 18 0) 14 3 < 3200
    ∧ shareTaken (commanding 0 id) 3 8 0 64 = false ∧ shareTaken ((commanding 0 id).modCore 8 fun c => { c with shares := [(2, (0, 128))] }) 3 8 0 64 = true := by decide
/-- A peer record at 0x40 of the own local store: module 5, world 2, LS only. -/
def peerBytes : List Byte := toLe (5 * 2 ^ 52 + 2 * 2 ^ 47 + 128) 8 ++ toLe 0 24
def recorded : State := (commanding 0x40 fun p => { p with state := .forming }).modCore 0 fun c => { c with ls := cellWrite c.ls 0x40 peerBytes }
theorem witness_PolderCommands_records : (recorded.rx 3).toNat % 32 = 0 ∧ (recorded.rx 3).toNat % 64 = 0 ∧ cmdRecord recorded 0x40 1 = some peerBytes
    ∧ badPeer (toWords peerBytes 4) = false ∧ (peerOf (toWords peerBytes 4)).count = 0 ∧ (recorded.polder 3).peers.length < 64 ∧ (cmdRecord recorded 0x40 3).isSome
    ∧ cmdRecord recorded 0x20000 1 = none ∧ ((commanding 4 id).rx 3).toNat % 32 ≠ 0 ∧ (recorded.polder 3).keys = none
    ∧ 64 ≤ (List.replicate 64 (peerOf (toWords peerBytes 4))).length
    ∧ ((commanding 0 fun p => { p with keys := some (1, 2, 3, true) }).polder 3).keys ≠ none
    ∧ ((commanding 0 fun p => { p with drain := 5 }).polder 3).drain ≠ 0 ∧ (recorded.polder 3).drain = 0 :=
  ⟨by decide, by decide, by decide, by decide, by decide, by decide, by decide, by decide, by decide, by decide, by decide, by decide, by decide, by decide⟩

theorem witness_FunctionRegisters : (let s := poldered fun p => { p with state := .draining }
      (s.polder 1).state = .draining ∧ (s.polder 1).drain ≤ s.cycle ∧ (s.polder 1).mig ≠ .erased ∧ (s.polder 1).faults = [])
    ∧ ((poldered fun p => { p with state := .draining, mig := .erased }).polder 1).mig = .erased
    ∧ ((at0 id).polder 1).state ≠ .draining ∧ ((poldered fun p => { p with faults := [[1], [2]] }).polder 1).faults = [[1], [2]]
    ∧ 8 < 0x40 ∧ 8 % 8 = 0 ∧ 0x48 < 0x50 ∧ 4 < 0x48 ∧ 4 % 8 ≠ 0 := by decide

/-- ADD x1, x2, x3 beside VNOP where register x2 is not on board. -/
def absent1 : State := (placed.withFetchWord 32 0x62081).modSlot 0 fun sl => { sl with present := ~~~ (4 : Word) }
theorem witness_ContextTimers : (let s := at0 fun sl => { sl with state := .waitLong, wait := .long (some (5, 7)), longUntil := 4 }
      s.cycle < (s.slot 0).longUntil)
    ∧ (let s := at0 fun sl => { sl with state := .waitLong, wait := .long (some (5, 7)) }
       (s.slot 0).longUntil ≤ s.cycle ∧ (s.slot 0).wait = .long (some (5, 7)) ∧ (s.slot 0).state = .waitLong ∧ (s.slot 0).held = Held.none
       ∧ (s.slot 0).streamsRead = 0 ∧ (s.slot 0).stopPending = false)
    ∧ (∀ w ∈ [Wait.long none, .longHalt], ((at0 fun sl => { sl with wait := w }).slot 0).wait = w)
    ∧ NMap.find (at0 id).slots 0 ≠ none ∧ NMap.find [(0, 0)] (traceBase ((at0 id).core 0).trace / 33554432) = some 0
    ∧ (let s := at0 fun sl => { sl with alarm := some 3, undelivered := some 4 }
       (s.slot 0).state = .ready ∧ (s.slot 0).inh = false ∧ (s.slot 0).alarm = some 3)
    ∧ (let s := at0 fun sl => { sl with undelivered := some 4 }; (s.slot 0).alarm = none ∧ (s.slot 0).undelivered = some 4)
    ∧ ((at0 id).slot 0).alarm = none ∧ ((at0 id).slot 0).undelivered = none
    ∧ missing placed 0 = [] ∧ (let s := absent1; missing s 0 = [2] ∧ (s.slot 0).state = .ready ∧ hasEntry 0 0 (s.cluster 0).spilled = false)
    ∧ (let s := at0 fun sl => { sl with state := .waitMem, wait := .regMiss [2] }
       (s.slot 0).wait = .regMiss [2] ∧ (s.slot 0).state = .waitMem ∧ watched (s.slot 0).state = true ∧ (s.slot 0).wdogPosted = false
       ∧ s.cycle - (s.slot 0).waitSince < (s.polder 1).wdog.toNat
       ∧ ((s.modPolder 1 fun p => { p with wdog := 0 }).polder 1).wdog.toNat ≤ s.cycle - (s.slot 0).waitSince)
    ∧ (let s := at0 fun sl => { sl with state := .halted, tvec := 8 }
       (s.slot 0).state = .halted ∧ (s.slot 0).stopPending = false ∧ (s.slot 0).inh = false ∧ (s.slot 0).tvec ≠ 0 ∧ ctxSlot s 0 0 = some 0)
    ∧ ((at0 id).slot 0).state ≠ .halted ∧ ctxSlot (at0 id) 0 9 = none
    ∧ NMap.find (at0 id).hbm 0x400 = none ∧ NMap.find [(0x400, 0)] 0x400 ≠ none :=
  ⟨by decide, by decide, by decide, by decide, by decide, by decide, by decide, by decide, by decide, by decide, by decide, by decide, by decide, by decide, by decide, by decide, by decide⟩
/-- A line of a polder that has its keys. -/
theorem witness_ContextTimers_seal : ∃ h, sealLine { (poldered fun p => { p with keys := some (1, 2, 3, true) }) with granules := [(0, 1)] } 0x400
    (cellRead (at0 id).mem (0x400 * 64) 64) = some h := ⟨_, rfl⟩

/-- Six general slots at priority 2 in READY, a record of priority 9 in the deque, and the victim's slot in a state. -/
def crowded (f : Slot → Slot) : State := (List.range 6).foldl (fun s k => s.modSlot k fun sl => f { sl with
  state := .ready, world := 1, prio := 2, ctxNum := k, lsbound := 49152 }) (tasked [aTask 9] [])
/-- Slot 0 handed over for context n, its save in progress or its install. -/
def swapping (saved : SlotState) (n : Nat) (cache spilled : List CtxEntry) : State := ((tasked [] cache).modSlot 0 fun sl => { sl with
  state := .swapped, saved := saved, ctxNum := n, prio := 9 }).modCluster 0 fun c => { c with spilled := spilled }
theorem witness_SaveAndInstall : readyPrios (at0 id) 0 1 = [] ∧ (emptyGeneral (tasked [aTask 9] []) 0).isSome = true
    ∧ (let s := crowded id
       readyPrios s 0 1 = [9] ∧ emptyGeneral s 0 = none ∧ (s.cluster 0).cache.length < 32 ∧ victim s 0 1 9 = some 5 ∧ midway (s.slot 5) = false
       ∧ (s.slot 5).state = .ready ∧ (s.slot 5).wait = .none ∧ (s.core 0).trace.getLsbD 0 = false ∧ hasEntry 0 5 (s.cluster 0).cache = false)
    ∧ (victim (crowded fun sl => { sl with prio := 9 }) 0 1 9 = none)
    ∧ (let s := crowded fun sl => { sl with state := .waitLong, wait := .longHalt }; victim s 0 1 9 = some 5 ∧ midway (s.slot 5) = true)
    ∧ (let s := swapping .swapped 0 [] []
       (s.slot 0).state = .swapped ∧ (s.slot 0).saved = .swapped ∧ (s.cluster 0).cache.length ≤ 32
       ∧ s.cycle - (s.slot 0).waitSince < (s.polder (s.slot 0).world).wdog.toNat ∧ readySwapped s 0 1 = []
       ∧ (s.core 0).deque.all (fun r => !(r.world == 1 && r.prio == 9)) = true)
    ∧ ((swapping .ready 0 [] []).slot 0).saved ≠ .swapped ∧ ((at0 id).slot 0).state ≠ .swapped
    ∧ hasEntry anEntry.core anEntry.slot.ctxNum ((swapping .swapped 0 [anEntry] []).cluster 0).cache = true ∧ anEntry.slot.ctxNum ≠ 0 ∧ anEntry.slot.prio = 9
    ∧ (((swapping .ready 4 [anEntry] []).slot 0).saved = .ready ∧ anEntry.slot.stopPending = false ∧ ((swapping .ready 4 [] []).slot 0).stopPending = false)
    ∧ ctxEntry (swapping .ready 4 [] []) 0 4 = none
    ∧ (anEntry.core = 0 ∧ ((swapping .ready 4 [] [anEntry]).slot 0).ctxNum = 4 ∧ ((swapping .ready 4 [] [anEntry]).cluster 0).cache.length < 32)
    ∧ urgentReady (at0 id) 0 = none :=
  ⟨by decide, by decide, by decide, by decide, by decide, by decide, by decide, by decide, by decide, by decide, by decide, by decide, by decide⟩
theorem witness_SaveAndInstall_entries : readySwapped (swapping .swapped 0 [anEntry] []) 0 1 = [anEntry] ∧ ctxEntry (swapping .ready 4 [anEntry] []) 0 4 = some anEntry
    ∧ ((swapping .ready 4 [] [anEntry]).cluster 0).spilled = [anEntry] ∧ 32 < ((swapping .ready 4 (List.replicate 33 anEntry) []).cluster 0).cache.length
    ∧ spillVictim [anEntry, { anEntry with lastUse := 3 }] = some anEntry := 
  ⟨rfl, rfl, rfl, by show 32 < (List.replicate 33 anEntry).length; rw [List.length_replicate]; decide, rfl⟩
/-- An urgent record for the core of slot 7, which is empty. -/
theorem witness_SaveAndInstall_urgent : (let s := ((tasked [] []).modDie 0 fun d => { d with urgent := [aTask 45] }).modPolder 1 fun p => { p with cores := [0] }
    (urgentReady s 0).isSome ∧ (urgentReady s 0).map (·.2) = some 7 ∧ freeNum (s.core 0) = some 1) := by decide

theorem witness_DebugEvents : ctxSlot (at0 id) 0 0 = some 0 ∧ ((at0 id).slot 0).state = .ready
    ∧ ((at0 fun sl => { sl with state := .waitMem }).slot 0).state.waiting = true
    ∧ ((at0 fun sl => { sl with state := .stopped }).slot 0).state = .stopped ∧ ((at0 id).slot 0).state ≠ .stopped
    ∧ ((at0 fun sl => { sl with state := .stopped }).slot 0).state ≠ .ready := by decide

/-- An active message at the head of the queue of a core where world 1 has the share [0, 64). -/
def aMsg (op : SvcOp) (off : Nat) : ActiveMsg := { (default : ActiveMsg) with op := op, world := 1, off := off, size := 8, data := List.replicate 8 1, sig := 0, from_ := .ctx 9 0 }
def queued (m : ActiveMsg) : State := (tasked [] []).modCore 0 fun c => { c with svc := [m] }
theorem witness_Service : ((queued (aMsg .load 8)).core 0).svc = [aMsg .load 8] ∧ (aMsg .load 8).from_ = .ctx 9 0
    ∧ (aMsg .store 8).op = .store ∧ (aMsg (.atomic 0) 8).op = .atomic 0 ∧ (aMsg .fill 8).op = .fill ∧ (aMsg .sync 8).op = .sync
    ∧ (let m := aMsg .load 8
      lsFail (shareOf ((queued m).core 0) m.world).1 (shareOf ((queued m).core 0) m.world).2 m.off m.size = none
      ∧ (lsFail (shareOf ((queued m).core 0) m.world).1 (shareOf ((queued m).core 0) m.world).2 60 m.size).isSome)
    ∧ (let m := aMsg .fill 8
      (queued m).poison = [] ∧ m.sig = 0 ∧ (lsBytes m.off m.size).Nodup ∧ (lsBytes m.off m.size).length = m.size ∧ 1 ≤ m.size ∧ m.data.length = m.size
      ∧ ((queued m).core 0).waiters = [] ∧ ((queued m).core 0).parkedLds = [] ∧ ((lsBytes m.off m.size).head?).getD 0 / 8 ∉ ((queued m).core 0).emptyWords)
    ∧ (((queued (aMsg .sync 8)).modCore 0 fun c => { c with emptyWords := [1] }).core 0).emptyWords = [1]
    ∧ ((at0 id).core 0).svc = [] ∧ ((queued (aMsg .steal 8)).core 0).spilled = [] :=
  ⟨rfl, rfl, rfl, rfl, rfl, rfl, by decide, ⟨rfl, rfl, by show (List.range' 8 8).Nodup; decide, rfl, by decide, rfl, rfl, rfl, by decide⟩, by decide, by decide, by decide⟩
theorem witness_Service_steal : (let s := (tasked [aTask 2, aTask 5, { aTask 3 with world := 2 }] []).modCore 0 fun c => { c with
        svc := [{ aMsg .steal 8 with from_ := .thief 9 1 }] }
      (s.core 0).svc = { aMsg .steal 8 with from_ := .thief 9 1 } :: [] ∧ (s.core 0).deque = [aTask 2] ++ aTask 5 :: [{ aTask 3 with world := 2 }]
      ∧ stealable s 1 (aTask 5) = true ∧ (∀ x ∈ [{ aTask 3 with world := 2 }], stealable s 1 x = false) ∧ (s.core 0).spilled = [])
    ∧ (∀ x ∈ [{ aTask 3 with world := 2 }], stealable (tasked [] []) (aMsg .steal 8).world x = false) := ⟨⟨rfl, rfl, by decide⟩, by decide⟩
/-- A live tag, another generation, and a request that is parked as a waiter and one that is not. -/
def parkedReq : ParkedReq := { n := 3, module := 0, die := 1, idx := 5, gen := 2 }
theorem witness_Service_parked : (getTag sending 0 5).use = .live (.copy 0 1) 1 9 ∧ (getTag sending 0 5).gen = 2 ∧ 2 ≠ 3
    ∧ ((at0 id).die 0).parked.find? (·.n == 3) = none
    ∧ (let s := (died fun d => { d with parked := [parkedReq] }).modCore 0 fun c => { c with waiters := [{ word := 1, who := .remote 0 1 5 2 0, world := 1, off := 8, size := 8 }] }
       (s.die 0).parked.find? (·.n == 3) = some parkedReq ∧ stillParked s 0 parkedReq = true ∧ parkedReq.module = s.moduleNo)
    ∧ stillParked (died fun d => { d with parked := [parkedReq] }) 0 parkedReq = false := by decide

/-- A launch record at 0x2_0000: entry 0x2_0100, priority 20, four tasks, the first logical core; queue 3 holds it. -/
def recBytes (state : Nat) : List Byte := toLe 0x20100 8 ++ toLe (state * 2 ^ 48 + 20 * 2 ^ 32 + 4) 8 ++ toLe 0 48
def aQueue : Queue := { Queue.reset with configured := true, base := 0x20000, size := 8, leader := 0, tail := 1 }
def launching (state : Nat) (f : Polder → Polder) : State :=
  let s := (paged id).modPolder 1 fun p => f { p with queues := p.queues.set 3 aQueue, cores := [0] }
  { s with mem := cellWrite s.mem 0x10000 (recBytes state) }
theorem witness_LaunchQueues : (queueOf (at0 id) 1 3).configured = false
    ∧ (let q := queueOf (launching 0 id) 1 3
       q.configured = true ∧ q.size ≠ 0 ∧ q.read ≠ q.tail ∧ q.stopped = false ∧ q.soft = false ∧ q.base + 64 * (q.read % q.size) = 0x20000)
    ∧ ((launching 0 id).polder 1).state = .live ∧ ((launching 0 id).polder 1).mig = .none
    ∧ (match readRecord ((launching 0 id).modPolder 1 fun p => { p with queues := p.queues.set 3 { aQueue with base := 0x80000 } }) 1 3 0x80000 with | .fault _ => true | _ => false) = true
    ∧ freeHandle ((launching 0 id).polder 1) = some 0 ∧ (queueOf (launching 0 id) 1 3).links = [] ∧ walksBySteward (launching 0 id) 1 = false
    ∧ (let s := (launching 0 id).modPolder 1 fun p => { p with split := 1, queues := p.queues.set 3 { aQueue with base := 0x80000, links := [(0x90000, none)] } }
       walksBySteward s 1 = true ∧ resolve s (leadCluster s 1 3) 1 0x80000 = .missing ∧ (queueOf s 1 3).links = (0x90000, none) :: [] ∧ freeHandle (s.polder 1) = some 0) :=
  ⟨by decide, by decide, by decide, by decide, by decide, by decide, by decide, by decide, by decide⟩
/-- The state in which the dispatcher reads the record: the line's read has acquired (R276). -/
def heard (state : Nat) : State := devHeard (launching state id) (leadCluster (launching state id) 1 3) 1 0x20000 64
theorem witness_LaunchQueues_record : ∃ l ws, readRecord (heard 0) 1 3 0x20000 = .launch l ∧ recWords (heard 0) 1 3 0x20000 = .ok ws
    ∧ bits (ws.getD 1 0).toNat 55 48 = 0 ∧ (∀ x ∈ ((launching 0 id).polder 1).launches, x.addr ≠ 0x20000) ∧ l.waits = 0 ∧ l.kind = 0 ∧ l.prio < 40 :=
  ⟨_, _, rfl, rfl, by decide, by decide, by decide, by decide, by decide⟩
theorem witness_LaunchQueues_passed : ∃ l ws, readRecord (heard 3) 1 3 0x20000 = .launch l ∧ recWords (heard 3) 1 3 0x20000 = .ok ws
    ∧ bits (ws.getD 1 0).toNat 55 48 ≠ 0 := ⟨_, _, rfl, rfl, by decide⟩
/-- Launches of queue 3: one that waits, one that is seeded, a gang, and the nodes. -/
def launch3 (st : LaunchState) (kind : Nat) (gang : Bool) : Launch := { (default : Launch) with
  handle := 0, queue := 3, addr := 0x20000, kind := kind, prio := 20, count := 4, target := 0x20100, linka := 0x20140, state := st, eligible := true,
  groups := if gang then [(7, 0, 1, 1, true)] else [] }
def launched (l : Launch) : State := launching 0 fun p => { p with launches := [l] }
theorem witness_LaunchQueues_choice : choice (at0 id) 0 = none ∧ choice (launched (launch3 .waiting 0 false)) 0 = some (1, launch3 .waiting 0 false)
    ∧ launchOf (launched (launch3 .waiting 0 false)) 1 0 = some (launch3 .waiting 0 false) ∧ (launch3 .waiting 0 false).gangWaits = false
    ∧ seedTarget (at0 id) 0 = none ∧ seedTarget (launched (launch3 .running 0 false)) 0 = some (1, launch3 .running 0 false)
    ∧ nextFor (launched (launch3 .running 0 false)) 0 1 (launch3 .running 0 false) 0 5 = some 0
    ∧ ((launched (launch3 .running 0 false)).core (seedCore (launched (launch3 .running 0 false)) 1 (launch3 .running 0 false) 0)).deque.length < 64
    ∧ launchOf (at0 id) 1 0 = none ∧ (launch3 .running 0 true).state ≠ .waiting ∧ (launch3 .waiting 0 true).gangWaits = true ∧ (launch3 .waiting 0 true).eligible = true
    ∧ (let s := (launched (launch3 .waiting 0 true)).modCore 0 fun c => { c with shares := [(1, (0, 64))] }
       gangFits s 1 (launch3 .waiting 0 true) = true ∧ ∀ c ∈ rangeCores s 1 0 0, shareFits (s.core c) 1 = true) :=
  ⟨by decide, rfl, rfl, by decide, by decide, rfl, by decide, by decide, by decide, by decide, by decide, by decide⟩
/-- The word of a node is 0 in reset memory, and 5 once written. -/
theorem witness_LaunchQueues_nodes : (launch3 .running 1 false).evaluates = true ∧ (launch3 .done 2 false).evaluates = true ∧ (launch3 .waiting 1 false).evaluates = false
    ∧ (∃ bs, devBytes (launched (launch3 .running 1 false)) (leadCluster (launched (launch3 .running 1 false)) 1 3) 1 0x20100 8 = .ok bs ∧ leNat bs = 0)
    ∧ (let s := launched (launch3 .running 2 false)
       let s5 := { s with mem := cellWrite s.mem 0x10100 (toLe 5 8) }
       ∃ bs, devBytes s5 (leadCluster s5 1 3) 1 0x20100 8 = .ok bs ∧ leNat bs ≠ 0 ∧ (queueOf s5 1 3).soft = false)
    ∧ ∃ ws, devBytes (launched (launch3 .running 3 false)) (leadCluster (launched (launch3 .running 3 false)) 1 3) 1 (0x20140 + 8 * min 0 4) 8 = .ok ws :=
  ⟨by decide, by decide, by decide, ⟨_, rfl, by decide⟩, ⟨_, rfl, by decide, by decide⟩, ⟨_, rfl⟩⟩
/-- The launching state with the core table's page read-only at 0x2_0000, and a program on core 0. -/
def loading (f : Polder → Polder) : State := (launching 0 f).modCluster 0 fun c => { c with tlb := [{ page with leaf := 0x10017 }] }
def aProgram (shares : List (Nat × Nat × Nat)) (channels : List (Nat × Nat × Nat × Nat)) : Program := { (default : Program) with
  world := 1, queue := 3, shares := shares, corePa := 0x10000, record := List.replicate 8 0, channels := channels }
theorem witness_LaunchQueues_load : ((at0 id).polder 1).state ≠ .live ∧ (aProgram [(0, 0, 64)] []).shares.all (shareOk (loading id) 1) = true
    ∧ (aProgram [(25600, 0, 64)] []).shares.all (shareOk (loading id) 1) = false ∧ ((loading id).polder 1).state = .live
    ∧ (queueOf (loading id) 1 3).configured = true
    ∧ wellPlaced (loadImages (loading id) (aProgram [(0, 0, 64)] [])) (aProgram [(0, 0, 64)] [])
        (numberCores (placeShares (loading id) (aProgram [(0, 0, 64)] [])) 1 []).length = true
    ∧ wellPlaced (loadImages (launching 0 id) (aProgram [(0, 0, 64)] [])) (aProgram [(0, 0, 64)] [])
        (numberCores (placeShares (launching 0 id) (aProgram [(0, 0, 64)] [])) 1 []).length = false :=
  ⟨by decide, by decide, by decide, by decide, by decide, by decide, by decide⟩
theorem witness_LaunchQueues_loads : (∃ t, loadParts (loadImages (loading id) (aProgram [(0, 0, 64)] [])) (aProgram [(0, 0, 64)] []) = .ok t)
    ∧ ∃ code, loadParts (loadImages (loading id) (aProgram [(0, 0, 64)] [(5, 0, 0, 1)])) (aProgram [(0, 0, 64)] [(5, 0, 0, 1)]) = .error code :=
  ⟨⟨_, rfl⟩, ⟨_, rfl⟩⟩
/-- The host's task for logical core 0: record words of priority 20 and of priority 45, and one with a reserved bit. -/
def hostWord (prio : Nat) : Word := BitVec.ofNat 64 (prio * 2 ^ 54 + 0x20100 / 8)
theorem witness_LaunchQueues_host : let s := (launched (launch3 .running 0 false)).modPolder 1 fun p => { p with split := 4, launches := [{ launch3 .running 0 false with split := 4 }] }
    (s.polder 1).cores[0]? = some 0 ∧ (s.polder 1).cores[9]? = none ∧ (s.splitOf 1 (bits (0 : Word).toNat 63 54)).getLsbD 2 = true ∧ isOwnCore 0 = true
    ∧ (s.polder 1).state = .live ∧ parseTask s 1 ⟨0, (BitVec.ofNat 64 (2 ^ 60)), 0, 0, 0⟩ = none
    ∧ (∃ r l, parseTask s 1 ⟨0, (hostWord 20), 0, 0, 0⟩ = some r ∧ r.prio < 40 ∧ launchOf s 1 r.launch = some l) ∧ (s.core 0).deque.length < 64
    ∧ (∃ r, parseTask s 1 ⟨0, (hostWord 45), 0, 0, 0⟩ = some r ∧ 40 ≤ r.prio)
    ∧ ((launched (launch3 .running 0 false)).splitOf 1 (bits (0 : Word).toNat 63 54)).getLsbD 2 = false :=
  ⟨by decide, by decide, by decide, by decide, by decide, by decide, ⟨_, _, rfl, by decide, rfl⟩, by decide, ⟨_, rfl, by decide⟩, by decide⟩


/-- Link 0 in a given state. -/
def linked (f : Link → Link) : State := (at0 id).modLink 0 fun l => f { l with up := true, accepted := 256 }
/-- A header flit of n flits: type 1, one hop, to module 0. -/
def headFlit (n : Nat) : List Word := [BitVec.ofNat 64 (1 + 2 ^ 8 + n * 2 ^ 16), 0, BitVec.ofNat 64 4194304, 0, 0, 0, BitVec.ofNat 64 0x10000, 0]
def aFrame (seq : Nat) (null ok : Bool) (flit : List Word) : Frame := { seq := seq, ack := 0, nak := false, null := null, ok := ok, flit := flit }
def aPacket (typ hop dst : Nat) : Packet := { (default : Packet) with typ := typ, hop := hop, hops := [5], dst := dst, src := 4194304, world := 2, op := 0x10000 }
theorem witness_LinksAndPeers : ((at0 id).link 0).up = false ∧ ((linked id).link 0).up = true ∧ ((linked id).link 0).queue = [] ∧ ((linked id).link 0).stopped = false
    ∧ ((linked id).link 0).rx = [] ∧ ((linked id).link 0).expect = 0 ∧ ((linked id).link 0).fails < 2 ∧ ((linked id).link 0).accepted = 256
    ∧ ((linked fun l => { l with fails := 2 }).link 0).fails = 2 ∧ ((linked fun l => { l with stopped := true, resyncFails := 2 }).link 0).resyncFails = 2
    ∧ ((linked fun l => { l with stopped := true }).link 0).resyncFails < 2
    ∧ (aFrame 0 true true []).null = true ∧ (aFrame 0 false false []).ok = false ∧ (aFrame 3 false true []).seq ≠ ((linked id).link 0).expect
    ∧ headerFlits (headFlit 2) = 2 ∧ headerFlits (headFlit 1) = 1 ∧ (readPacket [headFlit 1]).isSome := by decide
theorem witness_LinksAndPeers_packets : malformedPacket (aPacket 0 0 0) = true ∧ (∃ d h, packetHeader (aPacket 0 0 0) = d :: h)
    ∧ malformedPacket (aPacket 1 0 0) = false ∧ (aPacket 1 0 0).hop < (aPacket 1 0 0).hops.length ∧ (aPacket 1 0 0).hops[(aPacket 1 0 0).hop]? = some 5
    ∧ crossesDown (at0 id) (0 / 4) (5 / 4) = false ∧ (aPacket 1 1 0).hop = (aPacket 1 1 0).hops.length
    ∧ (aPacket 1 1 (7 * 4194304)).dst / 4194304 ≠ (at0 id).moduleNo ∧ (aPacket 1 1 0).dst / 4194304 = (at0 id).moduleNo
    ∧ (∃ e, replyEvent 0 (aPacket 5 1 0) = some e)
    ∧ crossesDown (at0 id) (0 / 4) ((aPacket 1 1 0).dst / 262144 % 16) = false :=
  ⟨by decide, ⟨_, _, rfl⟩, by decide, by decide, by decide, by decide, by decide, by decide, by decide, ⟨_, rfl⟩, by decide⟩
theorem witness_LinksAndPeers_paths : 4096 ≤ 4096 ∧ 5 < 4096 ∧ 3 < 4 ∧ ((at0 id).die 0).pathChanges = [] ∧ unanswered (at0 id) 0 1 = false ∧ unanswered sending 0 1 = true
    ∧ ((died fun d => { d with pathChanges := [(4, { hops := [5], valid := true })] }).die 0).pathChanges = [(4 * 1, { hops := [5], valid := true })]
    ∧ neighbours 0 4 = true ∧ (0, 4) ∉ (at0 id).downLinks ∧ neighbours 3 4 = false := by decide
/-- A granule of a polder that admits world 2 of module 1, of one that does not, and of one that is gone. -/
theorem witness_LinksAndPeers_home : (let s := (paged id).modPolder 1 fun p => { p with peers := [{ smod := 1, sworld := 2, ls := false, ra := false, w := true, r := true, count := 1, first := 0 }] }
      peerHome s ((aPacket 1 1 0).src / 4194304) (aPacket 1 1 0).world .read (bits (aPacket 1 1 0).op.toNat 47 0) = .ok 1
      ∧ peerHome s ((aPacket 2 1 0).src / 4194304) (aPacket 2 1 0).world .write (bits (aPacket 2 1 0).op.toNat 47 0) = .ok 1
      ∧ s.hbm = [] ∧ s.poison = [] ∧ bits (aPacket 1 1 0).op.toNat 55 51 = 0 ∧ (aPacket 1 1 0).dst % 8 ≠ 6)
    ∧ peerHome (paged id) 1 2 .read 0x10000 = .error 0x11
    ∧ peerHome ((paged id).modPolder 1 fun p => { p with state := .draining }) 1 2 .write 0x10000 = .error 0x16 := ⟨⟨rfl, rfl, rfl, rfl, by decide, by decide⟩, rfl, rfl⟩

/-- The clauses on the images of a boot cover both answers of the verification, which the model leaves free. -/
theorem witness_StewardService : (let s : State := { State.reset with polders := [(1, { Polder.reset with state := .live })] }
      (s.polder 1).state = .live ∧ (s.polder 1).launches = [] ∧ s.slots = [] ∧ s.clusters = [] ∧ s.cores = [] ∧ s.dies = [])
    ∧ 20 < 21 ∧ bits (0xE000 : Word).toNat 15 8 = 0xE0 ∧ bits (0xE400 : Word).toNat 15 8 = 0xE4 ∧ bits (0xEC00 : Word).toNat 15 8 = 0xEC
    ∧ 1 ∈ poldersOn (tasked [] []) 0 ∧ ((tasked [] []).slot 0).world = 1 ∧ ((tasked [] []).slot 0).state ≠ .empty ∧ ((tasked [] []).slot 1).state = .empty
    ∧ 1 ∉ poldersOn (tasked [] []) 3 :=
  ⟨⟨rfl, rfl, rfl, rfl, rfl, rfl⟩, by decide⟩

/-- Polder 1 at each stage of a migration; no orchestrator key has been set, so a message without a key names it. The
verification of a signature is a free value, and the clauses cover both answers. -/
def migrating (st : PolderState) (mg : MigState) : State := { State.reset with polders := [(1, { Polder.reset with state := st, mig := mg })] }
def aMig (key : List Word) : MigMsg := { world := 1, key := key, body := [], sig := [] }
theorem witness_Migration : (∀ st ∈ [PolderState.live, .free, .forming], ∀ mg ∈ [MigState.none, .prepared, .transferring, .staged, .orphaned],
      ((migrating st mg).polder 1).state = st ∧ ((migrating st mg).polder 1).mig = mg ∧ ((migrating st mg).polder 1).launches = []
      ∧ (aMig []).key = ((migrating st mg).polder 1).orchestrator ∧ ¬ ((aMig [1]).key = ((migrating st mg).polder 1).orchestrator))
    ∧ (migrating .live .none).slots = [] ∧ (migrating .live .none).clusters = [] ∧ (migrating .live .none).cores = [] ∧ (migrating .live .none).dies = []
    ∧ (aMig []).world = 1 ∧ (aMig []).body = [] := by decide

end Sys2Proof.Tests
end

/-! PROOFS of O14. SETS in two layers: the checks that a write passes (R12, R44, R48, R49, R100,
R113), then what a write that passes leaves in the slot, the polder, the cluster or the core. -/

namespace Sys2Proof.Machine

/-! ## The checks of SETS -/

/-- A target is a multiple of 8 below 2^57 (R48). -/
theorem badTarget_iff (v : Word) : badTarget v = true ↔ v.toNat % 8 ≠ 0 ∨ 2 ^ 57 ≤ v.toNat := by
  have low : v.extractLsb' 0 3 = 0#3 ↔ v.toNat % 8 = 0 := by
    rw [← BitVec.toNat_inj]
    simp
  have high : v.extractLsb' 57 7 = 0#7 ↔ v.toNat < 2 ^ 57 := by
    rw [← BitVec.toNat_inj]
    simp only [BitVec.extractLsb'_toNat, Nat.shiftRight_eq_div_pow, BitVec.toNat_ofNat]
    omega
  simp [badTarget, low, high]

/-- A modulus is odd, at least 3 and below 2^62 (R49). -/
theorem badModulus_iff (v : Word) : badModulus v = true ↔ v.toNat % 2 = 0 ∨ v.toNat < 3 ∨ 2 ^ 62 ≤ v.toNat := by
  simp [badModulus, or_assoc]

theorem sysReadOnly_iff (n : Nat) : sysReadOnly n = true ↔
    n ∈ [0x004, 0x008, 0x009, 0x00A, 0x00B, 0x00C, 0x014, 0x018, 0x019, 0x01A, 0x030, 0x031] := by
  simp only [sysReadOnly, Bool.or_eq_true, Bool.and_eq_true, beq_iff_eq, decide_eq_true_eq, List.mem_cons,
    List.not_mem_nil, or_false]
  omega

theorem sysPrivileged_iff (n : Nat) : sysPrivileged n = true ↔
    n ∈ [0x020, 0x021, 0x022, 0x023, 0x024, 0x025, 0x026, 0x027, 0x028, 0x029, 0x02A, 0x02B, 0x032] := by
  simp only [sysPrivileged, Bool.or_eq_true, Bool.and_eq_true, beq_iff_eq, decide_eq_true_eq, List.mem_cons,
    List.not_mem_nil, or_false]
  omega

/-- Every check of SETS of register `n` from `X[x]` holds, so that the write is performed. -/
structure SetsPasses (s : State) (x : Reg) (n : BitVec 10) : Prop where
  writable : sysReadOnly n.toNat = false
  privilege : sysPrivileged n.toNat = true → s.me.world = 0
  mode : n.toNat = 0x010 → (s.rx x).toNat % 8 < 4
  target : n.toNat = 0x001 ∨ n.toNat = 0x005 ∨ n.toNat = 0x02B → badTarget (s.rx x) = false
  modulus : n.toNat = 0x012 → badModulus (s.rx x) = false

/-- SETS of a register whose value nothing checks needs its access code only. -/
theorem SetsPasses.of_unchecked {s : State} {x : Reg} {n : BitVec 10}
    (hn : sysReadOnly n.toNat = false ∧ n.toNat ∉ [0x001, 0x005, 0x010, 0x012, 0x02B])
    (hw : sysPrivileged n.toNat = true → s.me.world = 0) : SetsPasses s x n := by
  obtain ⟨writable, unchecked⟩ := hn
  simp only [List.mem_cons, List.not_mem_nil, or_false, not_or] at unchecked
  obtain ⟨notEpc, notTvec, notRound, notModq, notHvec⟩ := unchecked
  exact ⟨writable, hw, fun h => absurd h notRound,
    fun h => (h.elim notEpc (·.elim notTvec notHvec)).elim, fun h => absurd h notModq⟩

theorem SetsPasses.of_target {s : State} {x : Reg} {n : BitVec 10} (hn : n.toNat = 0x001 ∨ n.toNat = 0x005 ∨ n.toNat = 0x02B)
    (hw : sysPrivileged n.toNat = true → s.me.world = 0) (hv : (s.rx x).toNat % 8 = 0 ∧ (s.rx x).toNat < 2 ^ 57) :
    SetsPasses s x n where
  writable := by rcases hn with h | h | h <;> rw [h] <;> rfl
  privilege := hw
  mode h := by omega
  target _ := by
    rw [← Bool.not_eq_true, badTarget_iff]
    omega
  modulus h := by omega

theorem SetsPasses.of_modulus {s : State} {x : Reg} (odd : (s.rx x).toNat % 2 = 1) (low : 3 ≤ (s.rx x).toNat)
    (high : (s.rx x).toNat < 2 ^ 62) : SetsPasses s x 0x012 where
  writable := rfl
  privilege h := absurd h (by decide)
  mode h := absurd h (by decide)
  target h := absurd h (by decide)
  modulus _ := by
    rw [← Bool.not_eq_true, badModulus_iff]
    omega

theorem SetsPasses.of_mode {s : State} {x : Reg} (h : (s.rx x).toNat % 8 < 4) : SetsPasses s x 0x010 where
  writable := rfl
  privilege h := absurd h (by decide)
  mode _ := h
  target h := absurd h (by decide)
  modulus h := absurd h (by decide)

theorem exec_sets_of_passes {s : State} {x : Reg} {n : BitVec 10} (h : SetsPasses s x n) :
    exec (.sets n x) s = .next (sysWrite n.toNat (s.rx x &&& sysMask n.toNat) s) := by
  obtain ⟨writable, privilege, mode, target, modulus⟩ := h
  have legal : ¬ (sysReadOnly n.toNat = true ∨ (n.toNat = 0x010 ∧ 4 ≤ (s.rx x).toNat % 8)) := by
    rw [writable]
    exact fun c => c.elim nofun fun ⟨round, bad⟩ => Nat.not_le.mpr (mode round) bad
  have allowed : ¬ (sysPrivileged n.toNat = true ∧ s.me.world ≠ 0) := fun ⟨steward, world⟩ => world (privilege steward)
  have targetOk : ¬ ((n.toNat = 0x001 ∨ n.toNat = 0x005 ∨ n.toNat = 0x02B) ∧ badTarget (s.rx x) = true) :=
    fun ⟨held, bad⟩ => Bool.eq_false_iff.mp (target held) bad
  have modulusOk : ¬ (n.toNat = 0x012 ∧ badModulus (s.rx x) = true) :=
    fun ⟨modq, bad⟩ => Bool.eq_false_iff.mp (modulus modq) bad
  show execSets n x s = _
  simp only [execSets, if_neg legal, if_neg allowed, if_neg targetOk, if_neg modulusOk]

/-! ## What a check that fails answers -/

theorem exec_sets_readOnly (s : State) (x : Reg) (n : BitVec 10) (h : sysReadOnly n.toNat = true) :
    exec (.sets n x) s = trapOut s 1 0x01 (aBits (.sets n x)) :=
  if_pos (.inl h)

theorem exec_sets_badMode (s : State) (x : Reg) (h : 4 ≤ (s.rx x).toNat % 8) :
    exec (.sets 0x010 x) s = trapOut s 1 0x01 (aBits (.sets 0x010 x)) :=
  if_pos (.inr ⟨rfl, h⟩)

/-- A steward's register is never read-only, so its privilege fault (row 3) is the first check to fail. -/
theorem exec_sets_unprivileged (s : State) (x : Reg) (n : BitVec 10) (hn : sysPrivileged n.toNat = true)
    (hw : s.me.world ≠ 0) : exec (.sets n x) s = trapOut s 3 0x02 (n.setWidth 64) := by
  have legal : ¬ (sysReadOnly n.toNat = true ∨ (n.toNat = 0x010 ∧ 4 ≤ (s.rx x).toNat % 8)) := by
    rw [sysPrivileged_iff] at hn
    rw [sysReadOnly_iff]
    simp only [List.mem_cons, List.not_mem_nil, or_false] at hn ⊢
    omega
  exact (if_neg legal).trans (if_pos ⟨hn, hw⟩)

theorem exec_sets_badTarget (s : State) (x : Reg) (n : BitVec 10)
    (hn : n = 0x001 ∨ n = 0x005 ∨ (n = 0x02B ∧ s.me.world = 0)) (hv : badTarget (s.rx x) = true) :
    exec (.sets n x) s = trapOut s 5 0x03 (s.rx x) := by
  show execSets n x s = _
  rcases hn with rfl | rfl | ⟨rfl, hw⟩
  · simp [execSets, sysReadOnly, sysPrivileged, hv]
  · simp [execSets, sysReadOnly, sysPrivileged, hv]
  · simp [execSets, sysReadOnly, hw, hv]

theorem exec_sets_badModulus (s : State) (x : Reg) (hv : badModulus (s.rx x) = true) :
    exec (.sets 0x012 x) s = trapOut s 5 0x0D (s.rx x) := by
  show execSets 0x012 x s = _
  simp [execSets, sysReadOnly, sysPrivileged, hv]

/-! ## What a write that passes leaves -/

/-- The registers that a polder, a cluster or a core holds; the slot holds every other. -/
def sysShared (n : Nat) : Bool := (0x023 ≤ n && n ≤ 0x02B) || n == 0x032

theorem sysWrite_slot {n : Nat} (v : Word) (s : State) (hn : sysShared n = false) :
    sysWrite n v s = s.modMe (slotWrite n v) := by
  simp only [sysShared, Bool.or_eq_false_iff, Bool.and_eq_false_iff, decide_eq_false_iff_not, beq_eq_false_iff_ne] at hn
  obtain ⟨notPolder, notTrace⟩ := hn
  unfold sysWrite
  rw [if_neg (by omega), if_neg notTrace, if_neg (by omega), if_neg (by omega)]

/-- A slice of 1 to 31 sets the slot's clamp as well (R122); every other polder register is written as it is. -/
theorem sysWrite_polder {n : Nat} {v : Word} (s : State) (hn : 0x023 ≤ n ∧ n ≤ 0x02B ∧ n ≠ 0x02A)
    (hv : n = 0x026 → v = 0 ∨ 32 ≤ v.toNat) : sysWrite n v s = s.modPolder s.me.world (polderWrite n v) := by
  obtain ⟨low, high, notStagger⟩ := hn
  have noClamp : ¬ (n = 0x026 ∧ v ≠ 0 ∧ v.toNat < 32) := fun ⟨slice, nonzero, small⟩ =>
    (hv slice).elim nonzero (Nat.not_le.mpr small)
  unfold sysWrite
  rw [if_neg notStagger, if_neg (by omega), if_neg noClamp, if_pos ⟨low, high⟩]

/-- No bit of these registers is reserved, so every bit is written (R12). -/
theorem and_sysMask_of_whole {n : Nat} (v : Word)
    (hn : n ∉ [0x002, 0x013, 0x020, 0x023, 0x024, 0x025, 0x02A, 0x032]) : v &&& sysMask n = v := by
  simp only [List.mem_cons, List.not_mem_nil, or_false, not_or] at hn
  simp only [sysMask, hn, or_self, if_false]
  exact BitVec.and_allOnes

theorem exec_sets_slot {s : State} {x : Reg} {n : BitVec 10} {w : Word} (h : SetsPasses s x n)
    (hn : sysShared n.toNat = false) (hw : s.rx x &&& sysMask n.toNat = w) :
    exec (.sets n x) s = .next (s.modMe (slotWrite n.toNat w)) := by
  rw [exec_sets_of_passes h, sysWrite_slot _ s hn, hw]

theorem exec_sets_polder {s : State} {x : Reg} {n : BitVec 10} {w : Word} (h : SetsPasses s x n)
    (hn : 0x023 ≤ n.toNat ∧ n.toNat ≤ 0x02B ∧ n.toNat ≠ 0x02A) (hw : s.rx x &&& sysMask n.toNat = w)
    (hv : n.toNat = 0x026 → w = 0 ∨ 32 ≤ w.toNat) :
    exec (.sets n x) s = .next (s.modPolder s.me.world (polderWrite n.toNat w)) := by
  rw [exec_sets_of_passes h, hw, sysWrite_polder s hn hv]

/-- sr.world keeps the low five bits as a number (R45). -/
theorem slotWrite_world (v : Word) :
    slotWrite 0x020 (v &&& 0x1F) = fun sl => { sl with world := v.toNat % 32 } := by
  have low : (v &&& 0x1F).toNat = v.toNat % 32 := by
    rw [BitVec.toNat_and]
    exact Nat.and_two_pow_sub_one_eq_mod v.toNat 5
  funext sl
  rw [← low]
  rfl

theorem polderWrite_slice {v : Word} (h : v = 0 ∨ 32 ≤ v.toNat) :
    polderWrite 0x026 v = fun p => { p with slice := v } := by
  have noClamp : ¬ (v ≠ 0 ∧ v.toNat < 32) := fun ⟨nonzero, small⟩ => h.elim nonzero (Nat.not_le.mpr small)
  funext p
  show { p with slice := if v ≠ 0 ∧ v.toNat < 32 then 32 else v } = { p with slice := v }
  rw [if_neg noClamp]

/-- A pending write of sr.trace starts the buffer again and writes its header (R306, R307). -/
theorem traceApply_of_pending {s : State} {c : Nat} {w : Word} (h : (s.core c).traceNew = some w) :
    traceApply s c = traceHeader (s.modCore c (fun co => { co with
      trace := w, traceNew := none, traceNext := 128, traceLast := s.cycle })) c := by
  unfold traceApply
  rw [h]

/-- Settles O14: each register through the layer of checks and the equation of the store that holds it. -/
theorem systemWrites : Obligations.SystemWrites := by
  refine ⟨fun s x => ⟨?clamp, ?epc, ?tvec, ?cause, ?tval, ?round, ?fflags, ?modq, ?tkerr, ?bbcbase, ?steward, ?traceApplied⟩,
    fun s x n => ⟨?readOnly, ?privilege, ?target, ?modulus, ?mode⟩⟩
  case clamp => exact exec_sets_slot (.of_unchecked (by decide) nofun) rfl (and_sysMask_of_whole _ (by decide))
  case epc => exact fun h => exec_sets_slot (.of_target (by decide) nofun h) rfl (and_sysMask_of_whole _ (by decide))
  case tvec => exact fun h => exec_sets_slot (.of_target (by decide) nofun h) rfl (and_sysMask_of_whole _ (by decide))
  case cause => exact exec_sets_slot (.of_unchecked (by decide) nofun) rfl rfl
  case tval => exact exec_sets_slot (.of_unchecked (by decide) nofun) rfl (and_sysMask_of_whole _ (by decide))
  case round => exact fun h => exec_sets_slot (.of_mode h) rfl (and_sysMask_of_whole _ (by decide))
  case fflags => exact exec_sets_slot (.of_unchecked (by decide) nofun) rfl (and_sysMask_of_whole _ (by decide))
  case modq =>
    exact fun odd low high => exec_sets_slot (.of_modulus odd low high) rfl (and_sysMask_of_whole _ (by decide))
  case tkerr => exact exec_sets_slot (.of_unchecked (by decide) nofun) rfl rfl
  case bbcbase => exact exec_sets_slot (.of_unchecked (by decide) nofun) rfl (and_sysMask_of_whole _ (by decide))
  case steward =>
    intro world0
    have passes (n : BitVec 10) (hn : sysReadOnly n.toNat = false ∧ n.toNat ∉ [0x001, 0x005, 0x010, 0x012, 0x02B]) :
        SetsPasses s x n := .of_unchecked hn fun _ => world0
    refine ⟨?world, ?lsbase, ?lsbound, ?tbase, ?ptbase, ?split, ?slice, ?ageLimit, ?tkExpiry, ?wdog, ?hvec, ?stagger, ?trace⟩
    case world => exact slotWrite_world (s.rx x) ▸ exec_sets_slot (passes 0x020 (by decide)) rfl rfl
    case lsbase => exact exec_sets_slot (passes 0x021 (by decide)) rfl (and_sysMask_of_whole _ (by decide))
    case lsbound => exact exec_sets_slot (passes 0x022 (by decide)) rfl (and_sysMask_of_whole _ (by decide))
    case tbase => exact exec_sets_polder (passes 0x023 (by decide)) (by decide) rfl nofun
    case ptbase => exact exec_sets_polder (passes 0x024 (by decide)) (by decide) rfl nofun
    case split => exact exec_sets_polder (passes 0x025 (by decide)) (by decide) rfl nofun
    case slice =>
      exact fun h => polderWrite_slice h ▸
        exec_sets_polder (passes 0x026 (by decide)) (by decide) (and_sysMask_of_whole _ (by decide)) fun _ => h
    case ageLimit => exact exec_sets_polder (passes 0x027 (by decide)) (by decide) (and_sysMask_of_whole _ (by decide)) nofun
    case tkExpiry => exact exec_sets_polder (passes 0x028 (by decide)) (by decide) (and_sysMask_of_whole _ (by decide)) nofun
    case wdog => exact exec_sets_polder (passes 0x029 (by decide)) (by decide) (and_sysMask_of_whole _ (by decide)) nofun
    case hvec =>
      exact fun h => exec_sets_polder (.of_target (by decide) (fun _ => world0) h) (by decide)
        (and_sysMask_of_whole _ (by decide)) nofun
    case stagger => exact exec_sets_of_passes (passes 0x02A (by decide))
    case trace => exact exec_sets_of_passes (passes 0x032 (by decide))
  case traceApplied => exact fun u c w => traceApply_of_pending
  case readOnly => exact fun h => ⟨_, exec_sets_readOnly s x n ((sysReadOnly_iff _).mpr h)⟩
  case privilege => exact fun h => exec_sets_unprivileged s x n ((sysPrivileged_iff _).mpr h)
  case target => exact fun hn hv => exec_sets_badTarget s x n hn ((badTarget_iff _).mpr hv)
  case modulus => exact fun hn hv => hn ▸ exec_sets_badModulus s x ((badModulus_iff _).mpr hv)
  case mode => exact fun hn hv => ⟨_, hn ▸ exec_sets_badMode s x hv⟩

end Sys2Proof.Machine

/-! PROOFS of O3. The codec in three layers: a word is its fields (R68, R71), each format's own fields come back from
the fields of the word, and the maps of R75 and R76 answer the instruction whose fields they are given. -/

namespace Sys2Proof

/-! ## A word is its fields -/

theorem RawA.of_word (r : RawA) : RawA.of r.word = r := by
  obtain ⟨f, s3, s2, s1, d, op⟩ := r
  simp (disch := decide) only [RawA.of, RawA.word, BitVec.extractLsb'_append_eq_of_add_le,
    BitVec.extractLsb'_append_eq_of_le, Nat.sub_self, Nat.reduceSub, BitVec.extractLsb'_eq_self]

theorem RawV.of_word (r : RawV) : RawV.of r.word = r := by
  obtain ⟨⟨mode, ty, vc, vb, va, vd⟩, op⟩ := r
  simp (disch := decide) only [RawV.of, RawV.word, BitVec.extractLsb'_append_eq_of_add_le,
    BitVec.extractLsb'_append_eq_of_le, Nat.sub_self, Nat.reduceSub, BitVec.extractLsb'_eq_self]

/-! ## The fields of each format -/

theorem append_extractLsb'_adjacent {n : Nat} (x : BitVec n) (start a b : Nat) :
    x.extractLsb' (start + b) a ++ x.extractLsb' start b = x.extractLsb' start (a + b) :=
  BitVec.extractLsb'_append_extractLsb'_eq_extractLsb' rfl

theorem toNat_zero_append_lt (a : Nat) {b : Nat} (x : BitVec b) : ((0 : BitVec a) ++ x).toNat < 2 ^ b := by
  rw [BitVec.toNat_append]
  simpa using x.isLt

namespace RawA

theorem imm15_ofImm (op : BitVec 7) (i : BitVec 15) (s1 d : Reg) : (ofImm op i s1 d).imm15 = i := by
  unfold imm15 ofImm
  rw [append_extractLsb'_adjacent i 5 5 5, append_extractLsb'_adjacent i 0 10 5, BitVec.extractLsb'_eq_self]

theorem imm20_ofUpp (op : BitVec 7) (i : BitVec 20) (d : Reg) : (ofUpp op i d).imm20 = i := by
  unfold imm20 ofUpp
  rw [append_extractLsb'_adjacent i 10 5 5, append_extractLsb'_adjacent i 5 10 5, append_extractLsb'_adjacent i 0 15 5,
    BitVec.extractLsb'_eq_self]

theorem off_ofBr (op : BitVec 7) (o : BitVec 15) (s2 s1 : Reg) : (ofBr op o s2 s1).off = o := by
  unfold off ofBr
  rw [append_extractLsb'_adjacent o 5 5 5, append_extractLsb'_adjacent o 0 10 5, BitVec.extractLsb'_eq_self]

theorem sn_ofSys (op : BitVec 7) (n : BitVec 10) (s1 d : Reg) : (ofSys op n s1 d).sn = n := by
  unfold sn ofSys
  rw [append_extractLsb'_adjacent n 0 5 5, BitVec.extractLsb'_eq_self]

theorem mem_ofMem (op : BitVec 7) (m : MemF) : (ofMem op m).mem = m := by
  unfold mem ofMem disp scope orderMem w
  simp only [BitVec.extractLsb'_append_eq_left, BitVec.extractLsb'_append_eq_right]
  rw [append_extractLsb'_adjacent m.disp 0 5 2, BitVec.extractLsb'_eq_self]

theorem orderMrr_ofMrr (op : BitVec 7) (f : BitVec 5) (o : BitVec 2) (s : BitVec 3) (s2 s1 d : Reg) :
    (ofMrr op f o s s2 s1 d).orderMrr = o :=
  BitVec.extractLsb'_append_eq_left

theorem scope_ofMrr (op : BitVec 7) (f : BitVec 5) (o : BitVec 2) (s : BitVec 3) (s2 s1 d : Reg) :
    (ofMrr op f o s s2 s1 d).scope = s :=
  BitVec.extractLsb'_append_eq_right

theorem mrr_ofSize (op : BitVec 7) (m : MrrF) : (ofSize op m).mrr = m := by
  unfold mrr ofSize
  rw [orderMrr_ofMrr, scope_ofMrr]
  exact congrArg (MrrF.mk · m.order m.scope m.s2 m.s1 m.d) BitVec.extractLsb'_append_eq_right

theorem amo_ofAmo (f : BitVec 4) (m : AmoF) : (ofAmo f m).amo = m := by
  unfold amo ofAmo
  rw [orderMrr_ofMrr, scope_ofMrr]
  exact congrArg (AmoF.mk · m.order m.scope m.s2 m.s1 m.d) BitVec.extractLsb'_append_eq_left

theorem function_ofAmo (f : BitVec 4) (m : AmoF) : (ofAmo f m).f.extractLsb' 0 4 = f :=
  BitVec.extractLsb'_append_eq_right

theorem xred_ofXred (f : BitVec 2) (x : XredF) : (ofXred f x).xred = x := by
  unfold xred ofXred ofMrr orderMrr scope
  simp (disch := decide) only [BitVec.extractLsb'_append_eq_left, BitVec.extractLsb'_append_eq_of_le,
    BitVec.extractLsb'_append_eq_of_add_le, Nat.reduceSub, BitVec.extractLsb'_eq_self]

theorem function_ofXred (f : BitVec 2) (x : XredF) : (ofXred f x).f.extractLsb' 0 2 = f :=
  BitVec.extractLsb'_append_eq_right

theorem highBit_ofXred (f : BitVec 2) (x : XredF) : (ofXred f x).f.extractLsb' 4 1 = 0 := by
  unfold ofXred ofMrr
  simp (disch := decide) only [BitVec.extractLsb'_append_eq_left, BitVec.extractLsb'_append_eq_of_le, Nat.reduceSub]

theorem cpy_ofCpy (op : BitVec 7) (c : CpyF) : (ofCpy op c).cpy = c := by
  unfold cpy ofCpy ofReg
  simp only [BitVec.extractLsb'_append_eq_left, BitVec.extractLsb'_append_eq_right]

theorem mma_ofReg (m : MmaF) : (ofReg 0x50 (m.wait ++ m.ty) m.s3 m.s2 m.s1 m.d).mma = m := by
  unfold mma ofReg
  simp only [BitVec.extractLsb'_append_eq_left, BitVec.extractLsb'_append_eq_right]

end RawA

open RawA

/-! ## The checks and the parts of the map, on the fields that the encoder writes -/

/-- A field that the format sets to 0 passes its check. -/
theorem zero_eq_ok {n : Nat} {k : Decoded} {i : Instr} (h : k = .ok i) : zero (0 : BitVec n) k = .ok i := h

theorem below_eq_ok {n : Nat} {f : BitVec 5} {k : Decoded} {i : Instr} (hf : f.toNat < n) (h : k = .ok i) :
    below f n k = .ok i :=
  (if_pos hf).trans h

theorem streamField_streamReg (n : BitVec 2) (k : BitVec 2 → Decoded) : streamField (streamReg n) k = k n := by
  unfold streamField streamReg
  rw [BitVec.extractLsb'_append_eq_left, if_pos rfl, BitVec.extractLsb'_append_eq_right]

theorem decodeBeod_ofBr (op : BitVec 7) (n k : BitVec 2) (o : BitVec 15) :
    decodeBeod (ofBr op o ((0 : BitVec 3) ++ k) (streamReg n)) = .ok (.beod n k o) := by
  unfold decodeBeod
  rw [off_ofBr]
  refine (streamField_streamReg n _).trans ((if_pos BitVec.extractLsb'_append_eq_left).trans ?_)
  exact congrArg (Except.ok <| Instr.beod n · o) BitVec.extractLsb'_append_eq_right

theorem decodeWait_ofWait (op : BitVec 7) (w : BitVec 1) (s3 s2 s1 d : Reg) {k : BitVec 1 → Decoded} {i : Instr}
    (h : k w = .ok i) : decodeWait (ofWait op w s3 s2 s1 d) k = .ok i := by
  unfold decodeWait ofWait ofReg
  rw [BitVec.extractLsb'_append_eq_left, BitVec.extractLsb'_append_eq_right, if_pos rfl, h]

theorem decodeGraph_ofWait (op : BitVec 7) (w : BitVec 1) (s1 d : Reg) (k : BitVec 1 → Reg → Reg → Instr) :
    decodeGraph (ofWait op w 0 0 s1 d) k = .ok (k w d s1) :=
  zero_eq_ok (zero_eq_ok (decodeWait_ofWait op w 0 0 s1 d rfl))

theorem decodeLevel_ofReg (op : BitVec 7) (l : BitVec 1) (s2 s1 d : Reg) {k : BitVec 1 → Decoded} {i : Instr}
    (h : k l = .ok i) : decodeLevel (ofReg op ((0 : BitVec 4) ++ l) 0 s2 s1 d) k = .ok i :=
  below_eq_ok (toNat_zero_append_lt 4 l) (zero_eq_ok ((congrArg k BitVec.extractLsb'_append_eq_right).trans h))

theorem decodeShift_ofImm (op : BitVec 7) (n : BitVec 6) (a d : Reg) (k : Reg → Reg → BitVec 6 → Instr) :
    decodeShift (ofImm op ((0 : BitVec 9) ++ n) a d) k = .ok (k d a n) := by
  unfold decodeShift
  rw [imm15_ofImm, BitVec.extractLsb'_append_eq_left, BitVec.extractLsb'_append_eq_right]
  rfl

/-- PREF and PREF.wr stand in one opcode; d tells them apart. -/
theorem decodePref_ofMem (a d : Reg) (p : BitVec 7) : decodePref (ofMem 0x30 ⟨p, 3, 0, 3, a, d⟩) =
    match d.toNat with
    | 0 => .ok (.pref a p)
    | 1 => .ok (.prefWr a p)
    | _ => .error .field := by
  have fields := mem_ofMem 0x30 ⟨p, 3, 0, 3, a, d⟩
  simp only [RawA.mem, MemF.mk.injEq] at fields
  obtain ⟨hdisp, hscope, horder, hw, hs1, hd⟩ := fields
  unfold decodePref
  rw [hdisp, hscope, horder, hw, hs1, hd]
  rfl

/-! ## The maps of R75 and R76 -/

/-- An A-op's fields decode to it, whatever stands in the other half, unless they take it as an immediate (R64). -/
theorem decodeRawA_of_encodeRawA {i : Instr} {r : RawA} {hi hi' : BitVec 32} (h : encodeRawA i = some (r, hi))
    (hw : r.op = 0x0C ∨ r.op = 0x20 → hi' = hi) : decodeRawA r hi' = .ok i := by
  cases i <;> cases h
  -- an immediate or a record of fields that the format cuts into pieces
  case addi | andi | ori | xori | slti | sltiu | paddi | jalr | trap | bbc =>
    all_goals exact congrArg (Except.ok <| (_ : BitVec 15 → Instr) ·) (imm15_ofImm ..)
  case lui => exact congrArg (Except.ok <| Instr.lui _ ·) (imm20_ofUpp ..)
  case beq | bne | blt | bge | bltu | bgeu =>
    all_goals exact congrArg (Except.ok <| (_ : BitVec 15 → Instr) ·) (off_ofBr ..)
  case gets => exact congrArg (Except.ok <| Instr.gets _ ·) (sn_ofSys ..)
  case sets => exact congrArg (Except.ok <| Instr.sets · _) (sn_ofSys ..)
  case ld | st | lds | stf | ldp | sfe | vld | vst | vldt | vldd =>
    all_goals exact congrArg (Except.ok <| (_ : MemF → Instr) ·) (mem_ofMem ..)
  case cpy | cpy2d | cpyg => all_goals exact congrArg (Except.ok <| (_ : CpyF → Instr) ·) (cpy_ofCpy ..)
  case mma m => exact congrArg (Except.ok <| Instr.mma ·) (mma_ofReg m)
  case fence | fenceEng =>
    all_goals
      exact congrArg₂ (Except.ok <| (_ : BitVec 2 → BitVec 3 → Instr) · ·) (orderMrr_ofMrr ..) (scope_ofMrr ..)
  case send =>
    exact congrArg₂ (Except.ok <| Instr.send · · _ _ _ _) BitVec.extractLsb'_append_eq_left
      BitVec.extractLsb'_append_eq_right
  -- a narrow field in the low bits of f or of s2
  case padd h =>
    exact zero_eq_ok (below_eq_ok (toNat_zero_append_lt 2 h)
      (congrArg (Except.ok <| Instr.padd _ _ _ ·) BitVec.extractLsb'_append_eq_right))
  case pset k =>
    exact zero_eq_ok (below_eq_ok (toNat_zero_append_lt 3 k)
      (congrArg (Except.ok <| Instr.pset _ _ _ ·) BitVec.extractLsb'_append_eq_right))
  case pget k =>
    exact zero_eq_ok (zero_eq_ok (below_eq_ok (toNat_zero_append_lt 3 k)
      (congrArg (Except.ok <| Instr.pget _ _ ·) BitVec.extractLsb'_append_eq_right)))
  case vldx m | vstx m | sttk m | stdep m =>
    all_goals
      exact below_eq_ok (toNat_zero_append_lt 3 m.size) (congrArg (Except.ok <| (_ : MrrF → Instr) ·) (mrr_ofSize ..))
  case recv q _ _ =>
    exact zero_eq_ok (zero_eq_ok (below_eq_ok (toNat_zero_append_lt 4 q)
      (congrArg (Except.ok <| Instr.recv · _ _) BitVec.extractLsb'_append_eq_right)))
  case cpyl q d a =>
    exact zero_eq_ok (zero_eq_ok ((if_pos BitVec.extractLsb'_append_eq_left).trans
      (congrArg (Except.ok <| Instr.cpyl · d a) BitVec.extractLsb'_append_eq_right)))
  case qcfg n d a | qpush n d a =>
    all_goals
      exact zero_eq_ok (zero_eq_ok ((if_pos BitVec.extractLsb'_append_eq_left).trans
        (congrArg (Except.ok <| (_ : BitVec 4 → Reg → Reg → Instr) · d a) BitVec.extractLsb'_append_eq_right)))
  case gbar s a =>
    exact zero_eq_ok (zero_eq_ok (zero_eq_ok (below_eq_ok (toNat_zero_append_lt 2 s)
      (congrArg (Except.ok <| Instr.gbar · a) BitVec.extractLsb'_append_eq_right))))
  case spawn i _ _ _ _ =>
    exact below_eq_ok (toNat_zero_append_lt 4 i)
      (congrArg (Except.ok <| Instr.spawn · _ _ _ _) BitVec.extractLsb'_append_eq_right)
  case chdcl k _ _ _ =>
    exact zero_eq_ok (below_eq_ok (toNat_zero_append_lt 2 k)
      (congrArg (Except.ok <| Instr.chdcl · _ _ _) BitVec.extractLsb'_append_eq_right))
  case ltstat sel _ _ =>
    exact zero_eq_ok (zero_eq_ok (below_eq_ok (toNat_zero_append_lt 2 sel)
      (congrArg (Except.ok <| Instr.ltstat · _ _) BitVec.extractLsb'_append_eq_right)))
  -- a stream register
  case beod => exact decodeBeod_ofBr ..
  case sbind n t a =>
    exact zero_eq_ok (zero_eq_ok (below_eq_ok (toNat_zero_append_lt 2 t) ((streamField_streamReg n _).trans
      (congrArg (Except.ok <| Instr.sbind n · a) BitVec.extractLsb'_append_eq_right))))
  case sfree n => exact zero_eq_ok (zero_eq_ok (zero_eq_ok (zero_eq_ok (streamField_streamReg n _))))
  case sskip n a => exact zero_eq_ok (zero_eq_ok (zero_eq_ok (streamField_streamReg n _)))
  -- a part of the map with its own decoder
  case slli | srli | srai => all_goals exact decodeShift_ofImm ..
  case pref | prefWr => all_goals exact decodePref_ofMem ..
  case ipref | iunpin => all_goals exact zero_eq_ok (decodeLevel_ofReg _ _ _ _ _ rfl)
  case ipin l d a b => exact decodeLevel_ofReg 0x32 l b a d (k := fun l => .ok (.ipin l d a b)) rfl
  case mmam w d a b c => exact decodeWait_ofWait 0x51 w c b a d (k := fun w => .ok (.mmam w d a b c)) rfl
  case gsend w d a b c => exact decodeWait_ofWait 0x5D w c b a d (k := fun w => .ok (.gsend w d a b c)) rfl
  case gcopy | gcmp | ghash | gfree => all_goals exact decodeGraph_ofWait ..
  case amoadd | amoand | amoor | amoxor | amoswap | amomin | amomax | amominu | amomaxu | amocas | amofadd =>
    all_goals
      show decodeAmo (ofAmo _ _) = _
      rw [decodeAmo, function_ofAmo, amo_ofAmo]
      rfl
  case xredAdd | xredMin | xredMax =>
    all_goals
      show decodeXred (ofXred _ _) = _
      rw [decodeXred, highBit_ofXred, function_ofXred, xred_ofXred]
      rfl
  -- the immediate of a wide bundle
  case limm | limmZx | limmHi => all_goals exact hw (.inl rfl) ▸ rfl
  case jal => exact hw (.inr rfl) ▸ rfl
  -- whole register fields and a constant f
  all_goals rfl

theorem decodeRawV_of_encodeRawV {i : Instr} {r : RawV} (h : encodeRawV i = some r) : decodeRawV r = .ok i := by
  cases i <;> cases h <;> rfl

/-! ## Every operation has an encoding -/

theorem encodeRawA_isSome (i : Instr) : (encodeRawA i).isSome = (i.half == .a) := by
  cases i <;> rfl

theorem encodeRawV_isSome (i : Instr) : (encodeRawV i).isSome = (i.half == .v) := by
  cases i <;> rfl

theorem encodeA_isSome {i : Instr} (h : i.half = .a) : (encodeA i).isSome = true := by
  rw [encodeA, Option.isSome_map, encodeRawA_isSome, h]
  rfl

theorem encodeV_isSome {i : Instr} (h : i.half = .v) : (encodeV i).isSome = true := by
  rw [encodeV, Option.isSome_map, encodeRawV_isSome, h]
  rfl

/-! ## The halves and the bundle -/

theorem checked_ok {i : Instr} (h : i.WellFormed) : checked (.ok i) = .ok i := by
  have passes : i.reserved = none := h
  simp only [checked, passes]

theorem wideOp_word (r : RawA) : wideOp r.word = true ↔ r.op = 0x0C ∨ r.op = 0x20 := by
  rw [wideOp, RawA.of_word]
  simp

theorem decodeA_of_encodeA {i : Instr} {lo hi hi' : BitVec 32} (wf : i.WellFormed) (h : encodeA i = some (lo, hi))
    (hw : wideOp lo = true → hi' = hi) : decodeA lo hi' = .ok i := by
  obtain ⟨⟨r, imm⟩, hr, hlo⟩ := Option.map_eq_some_iff.mp h
  cases hlo
  rw [decodeA, RawA.of_word, decodeRawA_of_encodeRawA hr fun wide => hw ((wideOp_word r).mpr wide)]
  exact checked_ok wf

theorem decodeV_of_encodeV {i : Instr} {w : BitVec 32} (wf : i.WellFormed) (h : encodeV i = some w) :
    decodeV w = .ok i := by
  obtain ⟨r, hr, rfl⟩ := Option.map_eq_some_iff.mp h
  rw [decodeV, RawV.of_word, decodeRawV_of_encodeRawV hr]
  exact checked_ok wf

theorem decodeBundle_append (hi lo : BitVec 32) :
    decodeBundle (hi ++ lo) = (decodeA lo hi, if wideOp lo then .ok .vnop else decodeV hi) := by
  simp only [decodeBundle, BitVec.extractLsb'_append_eq_left, BitVec.extractLsb'_append_eq_right]

theorem decodeBundle_of_encodeBundle {a v : Instr} {b : BitVec 64} (wfA : a.WellFormed) (wfV : v.WellFormed)
    (h : encodeBundle a v = some b) (wide : ∀ lo hi, encodeA a = some (lo, hi) → wideOp lo = true → v = .vnop) :
    decodeBundle b = (.ok a, .ok v) := by
  unfold encodeBundle at h
  split at h
  next lo hi w hA hV =>
    split at h
    next isWide =>
      cases h
      rw [decodeBundle_append, if_pos isWide, decodeA_of_encodeA wfA hA fun _ => rfl, wide lo hi hA isWide]
    next narrow =>
      cases h
      rw [decodeBundle_append, if_neg narrow, decodeV_of_encodeV wfV hV,
        decodeA_of_encodeA wfA hA fun isWide => absurd isWide narrow]
  next => cases h

/-- Settles O3, by the round trip of each format's fields through the two maps. -/
theorem decodeEncode : Obligations.DecodeEncode :=
  fun _ _ wfA wfV => ⟨encodeA_isSome, encodeV_isSome, fun _ hb wide => decodeBundle_of_encodeBundle wfA wfV hb wide⟩

end Sys2Proof

/-! PROOFS of O13. GETS writes the value that the register has at issue (R44, R100), selector by selector. -/

namespace Sys2Proof.Machine

theorem exec_gets {s : State} {d : Reg} (hd : s.writable d) {n : BitVec 10} {w : Word} (hw : sysRead s n.toNat = w) :
    exec (.gets d n) s = .next (s.modMe (·.putX d w)) :=
  hw ▸ writeX_of s d _ hd

/-- sr.status by its fields (R46), with state READY. -/
theorem statusWord_fields (s : State) (k : Nat) :
    statusWord s k 1 = BitVec.ofNat 64 ((s.slot k).prio % 64 * 2 ^ 8 + (if (s.slot k).inh then 2 ^ 7 else 0)
      + (if (s.slot k).clamp then 2 ^ 6 else 0) + (if (s.core (coreOf k)).ltWorld.isSome then 2 ^ 5 else 0)
      + (if decide (k % 8 = 7) then 2 ^ 4 else 0) + 1) := by
  simp only [decide_eq_true_eq]
  rfl

/-- Settles O13: sr.status by its fields, every other register by its line of the list of R45. -/
theorem systemReads : Obligations.SystemReads := by
  intro s d hd
  refine ⟨exec_gets hd (statusWord_fields s s.cur), ?_⟩
  and_intros
  all_goals exact exec_gets hd rfl

end Sys2Proof.Machine

/-! PROOFS of O15. A trap goes to the tenant handler or to the steward (R111 to R115); each way has one equation for
its slot, and one for what it leaves. -/

namespace Sys2Proof.Machine

/-! ## Which handler takes a trap -/

theorem takeTrapAt_tenant {s : State} {k cause : Nat} {val : Word} (hc : ∀ split, tenantCause split (cause % 256) = true)
    (hi : (s.slot k).inh = false) (hv : (s.slot k).tvec ≠ 0) :
    takeTrapAt s k cause val = tenantTrap s k (BitVec.ofNat 64 cause) val := by
  simp only [takeTrapAt, hc, hi, if_true, Bool.false_eq_true, if_false, if_neg hv]

/-- A tenant trap in a handler is a double trap with the inner code (R115). -/
theorem takeTrapAt_double {s : State} {k cause : Nat} {val : Word} (hc : ∀ split, tenantCause split (cause % 256) = true)
    (hi : (s.slot k).inh = true) :
    takeTrapAt s k cause val = stewardTrap s k 0x1A (BitVec.ofNat 64 (cause % 256)) := by
  simp only [takeTrapAt, hc, hi, if_true]

/-- A tenant trap without a handler goes to the steward under its own cause (R113). -/
theorem takeTrapAt_unhandled {s : State} {k cause : Nat} {val : Word}
    (hc : ∀ split, tenantCause split (cause % 256) = true) (hi : (s.slot k).inh = false) (hv : (s.slot k).tvec = 0) :
    takeTrapAt s k cause val = stewardTrap s k (BitVec.ofNat 64 cause) val := by
  simp only [takeTrapAt, hc, hi, if_true, Bool.false_eq_true, if_false, if_pos hv]

/-! ## A slot that is READY already -/

theorem toState_of_state {s : State} {k : Nat} {st : SlotState} (h : (s.slot k).state = st) : s.toState k st = s :=
  if_pos h

theorem toReady_of_ready {s : State} {k : Nat} (h : (s.slot k).state = .ready) (hs : (s.slot k).stopPending = false) :
    s.toReady k = s := by
  unfold State.toReady
  rw [hs, if_neg (by decide), toState_of_state h]

theorem tenantTrap_of_ready {s : State} {k : Nat} (cause val : Word) (h : (s.slot k).state = .ready)
    (hs : (s.slot k).stopPending = false) :
    tenantTrap s k cause val = s.modSlot k (fun sl => { sl with
      estatus := statusWord s k 1, epc := sl.pc, tval := val, cause := cause, inh := true,
      pc := sl.tvec, npc := sl.tvec, wait := .none, held := Held.none, streamsRead := 0, addSent := false }) :=
  toReady_of_ready (by rw [State.slot_modSlot_same]; exact h) (by rw [State.slot_modSlot_same]; exact hs)

/-! ## The steward's fault record -/

theorem posted_stewardTrap (s : State) (k : Nat) (cause val : Word) :
    (stewardTrap s k cause val).steward.posted
      = s.steward.posted ++ [((endpoint s k).toNat, (s.slot k).pc, cause, val)] := by
  unfold stewardTrap
  dsimp only
  split <;> simp

/-! ## A trap of the issuing bundle -/

@[simp] theorem slot_trapAt (s : State) (row cause : Nat) (val : Word) (k : Nat) :
    (trapAt s row cause val).slot k = (takeTrapAt s s.cur cause val).slot k := rfl

@[simp] theorem me_trapAt (s : State) (row cause : Nat) (val : Word) :
    (trapAt s row cause val).me = (takeTrapAt s s.cur cause val).slot s.cur :=
  congrArg (takeTrapAt s s.cur cause val).slot (cur_takeTrapAt s s.cur cause val)

/-- A trap of a READY slot that its tenant handler takes changes that slot alone (R112). -/
theorem trapAt_tenant {s : State} {row code : Nat} {val cause w : Word}
    (h : takeTrapAt s s.cur code val = tenantTrap s s.cur cause w) (hr : s.me.state = .ready)
    (hs : s.me.stopPending = false) :
    let t := trapAt s row code val
    t.me = { s.me with
        estatus := statusWord s s.cur 1, epc := s.me.pc, tval := w, cause := cause, inh := true
        pc := s.me.tvec, npc := s.me.tvec, wait := .none, held := Held.none, streamsRead := 0, addSent := false }
      ∧ (∀ k, k ≠ s.cur → t.slot k = s.slot k) ∧ t.mem = s.mem ∧ t.cores = s.cores ∧ t.agenda = s.agenda
      ∧ t.steward = s.steward := by
  intro t
  have taken := h.trans (tenantTrap_of_ready cause w hr hs)
  have me : t.me = _ := (me_trapAt s row code val).trans ((congrArg (·.slot s.cur) taken).trans (State.slot_modSlot_same ..))
  have others (k : Nat) (hk : k ≠ s.cur) : t.slot k = s.slot k :=
    (congrArg (·.slot k) taken).trans (State.slot_modSlot_other _ _ _ _ hk)
  exact ⟨me, others, congrArg (·.mem) taken, congrArg (·.cores) taken, congrArg (·.agenda) taken,
    congrArg (·.steward) taken⟩

/-- A trap that the steward handles: the slot is HALTED at its bundle, its registers are as they were, and the steward
holds the record (R114). -/
theorem trapAt_steward {s : State} {row code : Nat} {val cause w : Word}
    (h : takeTrapAt s s.cur code val = stewardTrap s s.cur cause w) :
    let t := trapAt s row code val
    t.me.state = .halted ∧ t.me.inh = s.me.inh ∧ t.me.epc = s.me.pc ∧ t.me.pc = s.me.pc ∧ t.me.cause = cause
      ∧ t.me.tval = w ∧ t.me.estatus = statusWord s s.cur 1 ∧ t.me.x = s.me.x ∧ t.me.v = s.me.v
      ∧ t.steward.posted = s.steward.posted ++ [((endpoint s s.cur).toNat, s.me.pc, cause, w)]
      ∧ ∀ k, k ≠ s.cur → t.slot k = s.slot k := by
  intro t
  have me : t.me = _ :=
    (me_trapAt s row code val).trans ((congrArg (·.slot s.cur) h).trans (slot_stewardTrap_same s s.cur cause w))
  have others (k : Nat) (hk : k ≠ s.cur) : t.slot k = s.slot k :=
    (congrArg (·.slot k) h).trans (slot_stewardTrap_other s s.cur k cause w hk)
  have posted : t.steward.posted = _ := (congrArg (·.steward.posted) h).trans (posted_stewardTrap s s.cur cause w)
  rw [me]
  refine ⟨?_, ?_, ?_, ?_, ?_, ?_, ?_, ?_, ?_, posted, others⟩
  all_goals simp [State.me_eq]

/-! ## HALT -/

theorem exec_halt (s : State) : exec .halt s = .next ((s.modMe (fun sl => { sl with npc := sl.pc })).toState s.cur .halted) :=
  rfl

/-- Settles O15: the way of each trap by its inh and sr.tvec, then the slot that it leaves. -/
theorem trapsAndReturns : Obligations.TrapsAndReturns := by
  have software : ∀ split, tenantCause split (0x0E % 256) = true := fun _ => rfl
  refine ⟨fun s e => ?tenant, fun s e => ?steward, fun s => ⟨?eret, ?eretOutside, ?halt, rfl⟩⟩
  case tenant => exact fun hi hv hs hr => ⟨_, rfl, trapAt_tenant (takeTrapAt_tenant software hi hv) hr hs⟩
  case steward =>
    intro _
    exact ⟨fun hi => ⟨_, rfl, trapAt_steward (takeTrapAt_double software hi)⟩,
      fun hi hv => ⟨_, rfl, trapAt_steward (takeTrapAt_unhandled software hi hv)⟩⟩
  case eret => exact fun hi => if_pos hi
  case eretOutside => exact fun hi => if_neg (by rw [hi]; decide)
  case halt =>
    intro hr
    refine ⟨_, exec_halt s, ?_⟩
    have me : ((s.modMe (fun sl => { sl with npc := sl.pc })).toState s.cur .halted).me
        = Slot.enter { s.me with npc := s.me.pc } s.cycle .halted := by
      rw [State.me_eq, cur_toState]
      exact (slot_toState_same _ _ _).trans (by simp [State.me_eq, State.modMe_eq])
    rw [me]
    refine ⟨by simp, by simp, by simp, by simp, by simp, by simp, ?_, ?_⟩
    · exact fun k hk => (slot_toState_other _ _ _ _ hk).trans (State.slot_modSlot_other _ _ _ _ hk)
    · intro hu
      obtain ⟨hmem, hcores, -⟩ := toState_mem (s.modMe (fun sl => { sl with npc := sl.pc })) s.cur .halted hu
      exact ⟨hmem, hcores⟩

end Sys2Proof.Machine

/-! PROOFS of O1 and O2. The tables of the state after reset list nothing, so each part holds the reset value of its
kind (R41, R45); and the decoder on the spec's worked words. -/

namespace Sys2Proof.Machine

theorem slot_reset (k : Nat) : State.reset.slot k = Slot.idle k := rfl
theorem core_reset (c : Nat) : State.reset.core c = Core.reset := rfl
theorem polder_reset (w : Nat) : State.reset.polder w = Polder.reset := rfl

theorem Slot.state_idle (k : Nat) : (Slot.idle k).state = if k % 8 = 6 then .waitRecv else .empty := by
  unfold Slot.idle
  split <;> rfl

/-- An idle slot differs from the reset one in its state alone. -/
theorem Slot.idle_eq (k : Nat) : Slot.idle k = { Slot.reset with state := (Slot.idle k).state } := by
  unfold Slot.idle
  split <;> rfl

theorem Slot.getX_idle (k : Nat) (r : Reg) : (Slot.idle k).getX r = 0 := by
  rw [Slot.idle_eq]
  simp [Slot.getX, Slot.reset]

theorem Slot.getV_idle (k : Nat) (r : Reg) : (Slot.idle k).getV r = 0 := by
  rw [Slot.idle_eq]
  simp [Slot.getV, Slot.reset]

/-- Settles O1: every table is empty at reset, so each read is of the reset value of its kind. -/
theorem resetState : Obligations.ResetState := by
  refine ⟨⟨rfl, nofun, nofun⟩, rfl, rfl, rfl, fun k => ?states, fun k r => ?registers, fun w => ?polders, fun c => ?cores,
    fun _ => rfl, rfl⟩
  case states => exact Slot.state_idle k
  case registers => exact ⟨Slot.getX_idle k r, Slot.getV_idle k r⟩
  case polders => exact polder_reset w ▸ ⟨rfl, rfl, rfl, rfl⟩
  case cores => exact core_reset c ▸ ⟨rfl, rfl, rfl, rfl, fun _ => rfl⟩

/-- Settles O2: each word by running the decoder on it. -/
theorem decodedWords : Obligations.DecodedWords := by
  unfold Obligations.DecodedWords
  and_intros
  all_goals decide

end Sys2Proof.Machine

/-! PROOFS of O4. A step is peeled layer by layer (the agenda, the turn of a core, the turn of a slot, the bundle), and
what is left are the branches of `runHalves` (R65, R67). -/

namespace Sys2Proof.Machine

/-! ## The row of an event -/

/-- The row of the table that an event of the agenda is. -/
noncomputable def Event.instr : Event → Instr
  | .longLatencyResult slot => .longLatencyResult slot
  | .localStorePass slot => .localStorePass slot
  | .energyRefill core => .energyRefill core
  | .completionWrite core num reg status sig => .completionWrite core num reg status sig
  | .contextNumberRelease core num => .contextNumberRelease core num
  | .remoteReply rcv r sig => .remoteReply rcv r sig
  | .holdReply die idx gen => .holdReply die idx gen
  | .holdReplyResend die n => .holdReplyResend die n
  | .remoteTimeout die idx gen => .remoteTimeout die idx gen
  | .tagQuarantineEnd die idx => .tagQuarantineEnd die idx
  | .registerMissMicroTrap slot => .registerMissMicroTrap slot
  | .registerFetchDone slot => .registerFetchDone slot
  | .icacheFill slot => .icacheFill slot
  | .noticeTaken slot => .noticeTaken slot
  | .preemption core world => .preemption core world
  | .contextSave slot => .contextSave slot
  | .contextInstall slot => .contextInstall slot
  | .contextSpill cluster => .contextSpill cluster
  | .spillReadback core num => .spillReadback core num
  | .sliceExpiry slot => .sliceExpiry slot
  | .watchdogExpiry slot => .watchdogExpiry slot
  | .breakpointHit slot => .breakpointHit slot
  | .taskPop core world => .taskPop core world
  | .dequeReadback core world => .dequeReadback core world
  | .stealRequest core world => .stealRequest core world
  | .stealBackoffEnd core world => .stealBackoffEnd core world
  | .serviceQueueArrival core m => .serviceQueueArrival core m
  | .serviceLoad core => .serviceLoad core
  | .serviceStore core => .serviceStore core
  | .serviceAtomic core => .serviceAtomic core
  | .serviceFill core => .serviceFill core
  | .serviceSyncLoad core => .serviceSyncLoad core
  | .serviceSteal core => .serviceSteal core
  | .mailboxDataArrival core m => .mailboxDataArrival core m
  | .tokenMessageArrival core m => .tokenMessageArrival core m
  | .ringReservationGrant cluster ring => .ringReservationGrant cluster ring
  | .tilePublish cluster ring idx => .tilePublish cluster ring idx
  | .matrixJobStart cluster => .matrixJobStart cluster
  | .shadowPause cluster => .shadowPause cluster
  | .normalJobResume cluster => .normalJobResume cluster
  | .matrixJobRetire cluster id => .matrixJobRetire cluster id
  | .engineRampUpEnd cluster => .engineRampUpEnd cluster
  | .engineWarmEnd cluster => .engineWarmEnd cluster
  | .engineRampDownEnd cluster => .engineRampDownEnd cluster
  | .copyKickTake cluster => .copyKickTake cluster
  | .copyRequestComplete cluster id => .copyRequestComplete cluster id
  | .copyYield cluster id => .copyYield cluster id
  | .qcfgApply cluster ring => .qcfgApply cluster ring
  | .barrierComplete world launch group => .barrierComplete world launch group
  | .barrierRelease core num sig => .barrierRelease core num sig
  | .rdcFillArrival die line => .rdcFillArrival die line
  | .rdcCopyExpiry die line => .rdcCopyExpiry die line
  | .signatureBankAge => .signatureBankAge
  | .launchRecordRead world queue => .launchRecordRead world queue
  | .dispatchChoice die => .dispatchChoice die
  | .taskSeeding die => .taskSeeding die
  | .ageingRaise core => .ageingRaise core
  | .gangPlacement world launch => .gangPlacement world launch
  | .urgentInstall die => .urgentInstall die
  | .nodeEvaluation world launch => .nodeEvaluation world launch
  | .missTableAdmit cluster => .missTableAdmit cluster
  | .pageWalk die => .pageWalk die
  | .pageWalkDone die walker => .pageWalkDone die walker
  | .blockCounterFlush cluster world addr => .blockCounterFlush cluster world addr
  | .traceHeaderRewrite core => .traceHeaderRewrite core
  | .graphRequestFinish cluster id => .graphRequestFinish cluster id
  | .drainTimerExpiry world => .drainTimerExpiry world
  | .pathChangeEffect die module => .pathChangeEffect die module
  | .reductionContributionArrival die c => .reductionContributionArrival die c
  | .reductionDeadline die slot => .reductionDeadline die slot
  | .reductionSlotFree die slot => .reductionSlotFree die slot
  | .reductionResultArrival core num reg record status bitmap data sig => .reductionResultArrival core num reg record status bitmap data sig
  | .sttkLanding die world gen seq sig => .sttkLanding die world gen seq sig
  | .sttkFailure die world gen seq code => .sttkFailure die world gen seq code
  | .depstoreArrival die y => .depstoreArrival die y
  | .depstoreResend die y => .depstoreResend die y
  | .sluiceFullReply die y => .sluiceFullReply die y
  | .holdArrival die token holder => .holdArrival die token holder
  | .holdRetry die token => .holdRetry die token
  | .releaseArrival die token failed retry clean sig => .releaseArrival die token failed retry clean sig
  | .sluiceExpiry die n => .sluiceExpiry die n
  | .declareArrival core from_ k f world who => .declareArrival core from_ k f world who
  | .declareReply core k who code => .declareReply core k who code
  | .tideArrival core ch src t => .tideArrival core ch src t
  | .eventArrival core e => .eventArrival core e
  | .floorExchange die => .floorExchange die
  | .floorReportArrival die core bound launch => .floorReportArrival die core bound launch
  | .keyedAtomicApply die => .keyedAtomicApply die
  | .localTimeModeExit core => .localTimeModeExit core
  | .stealReplyArrival core r => .stealReplyArrival core r
  | .recoveryWindowExpiry world => .recoveryWindowExpiry world
  | .nullFrameSend port => .nullFrameSend port
  | .creditWaitDrop port => .creditWaitDrop port
  | .packetForward port p => .packetForward port p
  | .remoteRequestArrival die p => .remoteRequestArrival die p
  | .objectPacketArrival cluster p => .objectPacketArrival cluster p
  | .gsendAckArrival cluster p => .gsendAckArrival cluster p
  | .gsendFinishArrival cluster p => .gsendFinishArrival cluster p
  | .gsendDoneArrival cluster p => .gsendDoneArrival cluster p

theorem run_eq_exec (e : Event) (s : State) : e.run s = exec e.instr s := by
  cases e <;> rfl

theorem step_due {s : State} {n : Nat} {e : Event} {rest : List (Nat × Event)} (h : n ≤ s.cycle) :
    step { s with agenda := (n, e) :: rest } = e.run { s with agenda := rest } :=
  if_pos h

/-! ## The next cycle -/

theorem foldl_cycle {α : Type} {f : State → α → State} (h : ∀ s a, (f s a).cycle = s.cycle) (l : List α) (s : State) :
    (l.foldl f s).cycle = s.cycle := by
  induction l generalizing s with
  | nil => rfl
  | cons a l ih => exact (ih (f s a)).trans (h s a)

theorem cycle_traceHeader (s : State) (c : Nat) : (traceHeader s c).cycle = s.cycle := by
  unfold traceHeader
  dsimp only
  rw [apply_ite State.cycle, State.cycle_pokeMem, cycle_hatPost, ite_self]

theorem cycle_traceApply (s : State) (c : Nat) : (traceApply s c).cycle = s.cycle := by
  unfold traceApply
  split
  · exact cycle_traceHeader _ c
  · rfl

theorem cycle_finishTbinvs (s : State) : (finishTbinvs s).cycle = s.cycle := by
  unfold finishTbinvs
  dsimp only
  split
  · rfl
  · exact foldl_cycle (fun u (t : TbInv) => State.cycle_at_ u s.cycle (.completionWrite t.core t.ctx t.reg 0 0)) _ _

theorem cycle_nextCycle (s : State) : (nextCycle s).cycle = s.cycle + 1 := by
  unfold nextCycle
  dsimp only
  rw [foldl_cycle (fun t e => State.cycle_at_ t _ e), cycle_finishTbinvs, foldl_cycle (fun t (p : Nat × Core) => cycle_traceApply t p.1)]

/-! ## The turn -/

/-- A module that has booted, with nothing due, gives a core its turn. -/
theorem step_turn {s : State} (hb : s.steward.booted = true) (ht : s.steward.tripPin = false)
    (ha : ∀ x, s.agenda.head? = some x → s.cycle < x.1) :
    step s = match leastFrom s.cursor (listedCores s) with
      | some c => andNext (coreTurn { s with cursor := c + 1 } c) .next
      | none => .next (nextCycle s) := by
  have turn : stepMachine.turn s = match leastFrom s.cursor (listedCores s) with
      | some c => andNext (coreTurn { s with cursor := c + 1 } c) .next
      | none => .next (nextCycle s) := by
    unfold stepMachine.turn
    rw [hb, ht]
    rfl
  rw [← turn]
  show stepMachine s = _
  unfold stepMachine
  split
  next due _ _ h => exact if_neg (Nat.not_le.mpr (ha (due, _) (by rw [h]; rfl)))
  next => rfl

theorem andNext_next (o : Out) : andNext o .next = o := by
  cases o <;> rfl

/-- A core whose turn is that of a slot with its bundle in the instruction cache issues that bundle. -/
theorem coreTurn_issues {s : State} {c k : Nat} {b : Word} (hm : missesLine s (c * 8 + s.cycle % 8) = false)
    (ht : turnSlot s c = some k) (h6 : k % 8 ≠ 6) (he : ending s (s.slot k) = false) (hn : noticeDue (s.slot k) = false)
    (hb : breaksAt s k = false) (hc : inCode (s.slot k) = true) (hf : fetchBundle s k = some b) :
    coreTurn s c = issueBundle b { s with cur := k, iss := { snap := none, prio := none } } := by
  simp [coreTurn, hm, ht, h6, issueSlot, he, hn, hb, hc, hf]

/-! ## One bundle -/

@[simp] theorem cur_chargeEnergy (s : State) (k cost : Nat) : (chargeEnergy s k cost).cur = s.cur := by
  unfold chargeEnergy
  split <;> rfl

theorem issueBundle_runs {s : State} {b : Word} {a v : Instr} (hd : decodeBundle b = (.ok a, .ok v))
    (hw : doubleWrite (regUse a) (regUse v) = false) (hp : pendsOn (s.slot s.cur) (regUse a) (regUse v) = false)
    (hr : absentRegs (s.slot s.cur) (regUse a) (regUse v) = []) :
    issueBundle b s = runHalves a v b (streamsReadBy (s.slot s.cur) (regUse a) (regUse v))
      (chargeEnergy s s.cur (bundleCost b)) := by
  unfold issueBundle
  dsimp only
  rw [hd]
  simp [hw, hp, hr]

/-! ## Both halves -/

/-- Slot `k` as its bundle's halves find it: the streams settled, the pc moved on. -/
def settledAt (s : State) (k : Nat) (mask : BitVec 4) : State :=
  (settleStreams s k mask).modSlot k (fun sl => { sl with npc := pcAdd sl.pc 8 })

/-- What a half answers on the registers as they stood at issue. -/
def halfAt (s : State) (k : Nat) (mask : BitVec 4) (i : Instr) : Out := exec i (issuing mask (settledAt s k mask))

/-- Whether a half traps by rows 1 to 4. -/
def earlyAt (s : State) (k : Nat) (mask : BitVec 4) (a v : Instr) : Bool :=
  trapsEarly (halfAt s k mask a) || trapsEarly (halfAt s k mask v)

section Halves

variable {s : State} {k : Nat} {a v : Instr} {b : Word} {mask : BitVec 4}

/-- The word of a stream that traps is passed over where a half traps before it. -/
theorem streamFault_passed (h : earlyAt s k mask a v = true ∨ streamFault s k mask = none) :
    (if earlyAt s k mask a v then none else streamFault s k mask) = none := by
  rw [ite_eq_left_iff]
  exact h.resolve_left

/-- An uncorrectable word of a stream traps where no half traps by rows 1 to 4 (R168). -/
theorem runHalves_streamFault (hk : s.cur = k) {addr : Nat} (early : earlyAt s k mask a v = false)
    (h : streamFault s k mask = some addr) : runHalves a v b mask s
      = .next (endTrapped (trapAt (issuing mask (settledAt s k mask)) 7 0x12 (BitVec.ofNat 64 addr)) k) := by
  subst hk
  have fault : (if earlyAt s s.cur mask a v then none else streamFault s s.cur mask) = some addr := by
    rw [early, if_neg (by decide), h]
  unfold earlyAt halfAt settledAt at fault
  unfold runHalves settledAt
  simp only [fault]

/-- The A-op's trap is the bundle's where its row is not above that of the V-op (R67). -/
theorem runHalves_trapA (hk : s.cur = k) (hf : earlyAt s k mask a v = true ∨ streamFault s k mask = none)
    {sa : State} {ra : Nat} (h : halfAt s k mask a = .next sa) (hp : sa.iss.prio = some ra)
    (first : ∀ rv, rowOf (halfAt s k mask v) = some rv → ra ≤ rv) :
    runHalves a v b mask s = .next (endTrapped sa k) := by
  subst hk
  have passed := streamFault_passed hf
  have rowA : rowOf (halfAt s s.cur mask a) = some ra := h ▸ hp
  cases rowV : rowOf (halfAt s s.cur mask v) with
  | none =>
    unfold earlyAt halfAt settledAt at *
    simp only [runHalves, passed, rowA, rowV]
    rw [h, andNext]
  | some rv =>
    have notBelow : ¬ rv < ra := Nat.not_lt.mpr (first rv rowV)
    unfold earlyAt halfAt settledAt at *
    simp only [runHalves, passed, rowA, rowV]
    rw [if_neg notBelow, h, andNext]

/-- The V-op's trap is the bundle's where its row is above that of the A-op (R67). -/
theorem runHalves_trapV (hk : s.cur = k) (hf : earlyAt s k mask a v = true ∨ streamFault s k mask = none)
    {sv : State} {rv : Nat} (h : halfAt s k mask v = .next sv) (hp : sv.iss.prio = some rv)
    (first : ∀ ra, rowOf (halfAt s k mask a) = some ra → rv < ra) :
    runHalves a v b mask s = .next (endTrapped sv k) := by
  subst hk
  have passed := streamFault_passed hf
  have rowV : rowOf (halfAt s s.cur mask v) = some rv := h ▸ hp
  cases rowA : rowOf (halfAt s s.cur mask a) with
  | none =>
    unfold earlyAt halfAt settledAt at *
    simp only [runHalves, passed, rowA, rowV]
    rw [h, andNext]
  | some ra =>
    have below := first ra rowA
    unfold earlyAt halfAt settledAt at *
    simp only [runHalves, passed, rowA, rowV]
    rw [if_pos below, h, andNext]

/-- Without a trap the A-op and then the V-op take effect (R65). -/
theorem runHalves_both (hk : s.cur = k) (hf : streamFault s k mask = none) (rowA : rowOf (halfAt s k mask a) = none)
    (rowV : rowOf (halfAt s k mask v) = none) {sa t : State}
    (hA : exec a (issuing mask (acquireTokens (settledAt s k mask) k ((regUse a).xr ++ (regUse v).xr))) = .next sa)
    (live : (sa.slot k).state ≠ .empty)
    (hV : exec v { sa with iss :=
      { (issuing mask (acquireTokens (settledAt s k mask) k ((regUse a).xr ++ (regUse v).xr))).iss with
        reads := sa.iss.reads } } = .next t) :
    runHalves a v b mask s = .next (endBundle t k b) := by
  subst hk
  have passed := streamFault_passed (a := a) (v := v) (.inr hf)
  unfold earlyAt halfAt settledAt at *
  simp only [runHalves, passed, rowA, rowV]
  rw [hA, andNext, if_neg live, hV, andNext]

end Halves

/-- Settles O4: the step is the run of both halves, whose branches are the clauses. -/
theorem stepRunsBundle : Obligations.StepRunsBundle := by
  intro s booted untripped notDue
  refine ⟨?issue, ?nextCycle, fun n e rest h => ⟨step_due h, e.instr, run_eq_exec e⟩⟩
  case nextCycle =>
    intro idle
    exact ⟨by rw [step_turn booted untripped notDue, idle], cycle_nextCycle s⟩
  case issue =>
    intro c k b a v hl s1 s2 sl hm ht h6 he hn hb hc hf hd hw hp hr mask s3 settled s4 s5 early
    have runs : step s = runHalves a v b mask s3 := by
      rw [step_turn booted untripped notDue, hl]
      show andNext (coreTurn s1 c) .next = _
      rw [andNext_next, coreTurn_issues hm ht h6 he hn hb hc hf]
      exact issueBundle_runs hd hw hp hr
    have cur : s3.cur = k := cur_chargeEnergy s2 k (bundleCost b)
    rw [runs]
    refine ⟨?_, ?_, ?_, ?_⟩
    · exact fun sa t rowA rowV hs hA live hV => runHalves_both cur hs rowA rowV hA live hV
    · exact fun sa ra h hp first hf => runHalves_trapA cur hf h hp first
    · exact fun sv rv h hp first hf => runHalves_trapV cur hf h hp first
    · exact fun ad early hs => runHalves_streamFault cur early hs

end Sys2Proof.Machine

/-! PROOFS of O34. What a completion writes in a context's registers, what the end of a RECV leaves, and then the
branches of the two kinds of message (R59, R60, R162 to R164, R214, R217). -/

namespace Sys2Proof.Machine

/-! ## A completion on the registers -/

namespace Slot

/-- A completion writes the token register, its pending and present bits and the signature that it carries; nothing
else of the slot but sr.tkerr. -/
theorem complete_frame (sl : Slot) (reg : Nat) (status : Word) (sig : Sig) : ∃ x present pending tkerr tokenSigs,
    sl.complete reg status sig
      = { sl with x := x, present := present, pending := pending, tkerr := tkerr, tokenSigs := tokenSigs } := by
  unfold complete untracked
  split
  · split <;> exact ⟨_, _, _, _, _, rfl⟩
  · unfold putX unpend
    split <;> exact ⟨_, _, _, _, _, rfl⟩

@[simp] theorem wait_complete (sl : Slot) (reg : Nat) (status : Word) (sig : Sig) :
    (sl.complete reg status sig).wait = sl.wait := by
  obtain ⟨_, _, _, _, _, h⟩ := sl.complete_frame reg status sig
  rw [h]

@[simp] theorem pc_complete (sl : Slot) (reg : Nat) (status : Word) (sig : Sig) :
    (sl.complete reg status sig).pc = sl.pc := by
  obtain ⟨_, _, _, _, _, h⟩ := sl.complete_frame reg status sig
  rw [h]

@[simp] theorem stopPending_complete (sl : Slot) (reg : Nat) (status : Word) (sig : Sig) :
    (sl.complete reg status sig).stopPending = sl.stopPending := by
  obtain ⟨_, _, _, _, _, h⟩ := sl.complete_frame reg status sig
  rw [h]

theorem complete_of_ne_zero (sl : Slot) {g : Reg} (hg : g ≠ 0) (status : Word) (sig : Sig) :
    sl.complete g.toNat status sig = { (sl.putX g status).unpend g with
      tokenSigs := if sig = 0 then sl.tokenSigs else (g.toNat, sig) :: sl.tokenSigs } := by
  have nonzero : g.toNat ≠ 0 := fun h => hg (BitVec.eq_of_toNat_eq h)
  rw [complete, if_neg nonzero, regOf_toNat]

theorem getX_complete (sl : Slot) {g : Reg} (hg : g ≠ 0) (status : Word) (sig : Sig) :
    (sl.complete g.toNat status sig).getX g = status := by
  rw [complete_of_ne_zero sl hg]
  exact getX_putX_same sl g status hg

theorem isPending_complete (sl : Slot) {g : Reg} (hg : g ≠ 0) (status : Word) (sig : Sig) :
    (sl.complete g.toNat status sig).isPending g = false := by
  rw [complete_of_ne_zero sl hg]
  simp [isPending, unpend, g.isLt]

/-- The slot of a context with one asynchronous completion taken (R59, R106). -/
def completed (sl : Slot) (reg : Nat) (status : Word) (sig : Sig) : Slot :=
  { sl.complete reg status sig with outstanding := sl.outstanding - 1 }

end Slot

/-- What `completeCtx` does with an installed context, by what its slot waits for. -/
theorem completeCtx_installed {s : State} {c num k : Nat} (reg : Nat) (status : Word) (sig : Sig)
    (hk : ctxSlot s c num = some k) (hp : (s.polder (s.slot k).world).state ≠ .draining) :
    completeCtx s c num reg status sig =
      let sl := (s.slot k).completed reg status sig
      let s1 := s.modSlot k (·.completed reg status sig)
      if sl.wait = .engineToken reg ∧ reg ≠ 0 then finishBundle s1 k
      else if wakesOn sl then reissue s1 k
      else if drained sl then s1.next1 (.remoteReply (.ctx c num) .done 0)
      else s1 := by
  simp only [completeCtx, hk, if_neg hp, State.slot_modSlot_same]
  rfl

/-- A completion to a context that waits for nothing changes its slot alone (R59, R60). -/
theorem completeCtx_running {s : State} {c num k : Nat} (reg : Nat) (status : Word) (sig : Sig)
    (hk : ctxSlot s c num = some k) (hp : (s.polder (s.slot k).world).state ≠ .draining) (hw : (s.slot k).wait = .none) :
    completeCtx s c num reg status sig = s.modSlot k (·.completed reg status sig) := by
  have wait : ((s.slot k).completed reg status sig).wait = .none := (Slot.wait_complete ..).trans hw
  simp [completeCtx_installed reg status sig hk hp, wakesOn, drained, wait]

/-- The completion of the last register that a bundle waits for ends its wait (R58). -/
theorem completeCtx_awaited {s : State} {c num k : Nat} {mask : BitVec 32} (reg : Nat) (status : Word) (sig : Sig)
    (hk : ctxSlot s c num = some k) (hp : (s.polder (s.slot k).world).state ≠ .draining)
    (hw : (s.slot k).wait = .reissue mask) (hm : ((s.slot k).completed reg status sig).pending &&& mask = 0) :
    completeCtx s c num reg status sig = reissue (s.modSlot k (·.completed reg status sig)) k := by
  have wait : ((s.slot k).completed reg status sig).wait = .reissue mask := (Slot.wait_complete ..).trans hw
  simp [completeCtx_installed reg status sig hk hp, wakesOn, wait, hm]

/-- The slot of a bundle that issues again (R58). -/
theorem slot_reissue_same (s : State) (k : Nat) (hs : (s.slot k).stopPending = false) :
    (reissue s k).slot k
      = Slot.enter { s.slot k with wait := .none, held := Held.none, streamsRead := 0 } s.cycle .ready := by
  unfold reissue
  rw [slot_toReady_same _ _ (by simpa using hs)]
  simp

theorem slot_reissue_other (s : State) (k j : Nat) (h : j ≠ k) : (reissue s k).slot j = s.slot j :=
  (slot_toReady_other _ _ _ h).trans (State.slot_modSlot_other _ _ _ _ h)

/-! ## The answer to a sender, and the end of a RECV -/

@[simp] theorem slot_answer (s : State) (path : Nat) (who : ReplyTo) (r : Reply) (sig : Sig) (k : Nat) :
    (answer s path who r sig).slot k = s.slot k := by
  unfold answer
  split <;> rfl

@[simp] theorem core_answer (s : State) (path : Nat) (who : ReplyTo) (r : Reply) (sig : Sig) (c : Nat) :
    (answer s path who r sig).core c = s.core c := by
  unfold answer
  split <;> rfl

/-- The end of the wait of an installed context with nothing held back: its result is written and it is READY (R65). -/
theorem slot_finishCtx_same {s : State} {c num k : Nat} {f : Slot → Slot} (hk : ctxSlot s c num = some k)
    (hl : (f (s.slot k)).longUntil ≤ s.cycle) (hr : (f (s.slot k)).streamsRead = 0)
    (hs : (f (s.slot k)).stopPending = false) (hh : (f (s.slot k)).held = Held.none)
    (hw : (f (s.slot k)).wait ≠ .longHalt) :
    (finishCtx s c num f).slot k
      = Slot.enter { f (s.slot k) with wait := .none, pc := (f (s.slot k)).npc, bundle := 0 } s.cycle .ready := by
  have written : (s.modSlot k f).slot k = f (s.slot k) := State.slot_modSlot_same ..
  have finish : finishCtx s c num f = finishBundle (s.modSlot k f) k := by
    unfold finishCtx
    rw [hk]
  rw [finish, slot_finishBundle_same _ _ (written ▸ hl) (written ▸ hr) (written ▸ hs) (written ▸ hh), written, if_neg hw]
  rfl

theorem slot_finishCtx_other {s : State} {c num k j : Nat} (f : Slot → Slot) (hk : ctxSlot s c num = some k) (hj : j ≠ k) :
    (finishCtx s c num f).slot j = s.slot j := by
  unfold finishCtx
  rw [hk]
  exact (slot_finishBundle_other _ _ _ hj).trans (State.slot_modSlot_other _ _ _ _ hj)

theorem core_finishCtx {s : State} {c num k : Nat} (f : Slot → Slot) (hk : ctxSlot s c num = some k) (d : Nat) :
    (s.core d).butTrace ((finishCtx s c num f).core d) := by
  unfold finishCtx
  rw [hk]
  exact core_finishBundle (s.modSlot k f) k d

theorem recvq_of_butTrace {a b : Core} (h : a.butTrace b) : b.recvq = a.recvq := by
  unfold Core.butTrace at h
  rw [h]

/-- An acquire of an installed context changes its accumulator, and copies of remote lines (R271). -/
structure Acquired (k : Nat) (s t : State) : Prop where
  slot : ∃ acc, t.slot k = { s.slot k with accCur := acc }
  others : ∀ j, j ≠ k → t.slot j = s.slot j
  core : ∀ d, t.core d = s.core d
  cycle : t.cycle = s.cycle

theorem acquired_acquireCtx {s : State} {c num k : Nat} (sig : Sig) (hk : ctxSlot s c num = some k) :
    Acquired k s (acquireCtx s c num sig) := by
  unfold acquireCtx invalidateMatching
  rw [modCtx_eq s c num k _ hk]
  exact ⟨⟨_, State.slot_modSlot_same s k (·.addAcc sig)⟩, fun j hj => State.slot_modSlot_other s k j (·.addAcc sig) hj,
    fun _ => rfl, rfl⟩

theorem acquired_ite {s : State} {c num k : Nat} (p : Prop) [Decidable p] (sig : Sig) (hk : ctxSlot s c num = some k) :
    Acquired k s (if p then acquireCtx s c num sig else s) := by
  split
  · exact acquired_acquireCtx sig hk
  · exact ⟨⟨_, rfl⟩, fun _ _ => rfl, fun _ => rfl, rfl⟩

theorem Acquired.ctxSlot_eq {s t : State} {k : Nat} (h : Acquired k s t) (c num : Nat) : ctxSlot t c num = ctxSlot s c num := by
  refine ctxSlot_congr s t c num fun j => ?_
  by_cases hj : j = k
  · obtain ⟨acc, e⟩ := h.slot
    rw [hj, e]
    exact ⟨rfl, rfl⟩
  · rw [h.others j hj]
    exact ⟨rfl, rfl⟩

/-- The slot that takes a message goes on after its RECV with the message in its v registers (R164, R215). -/
theorem recv_ends {s u : State} {c num k vd mask : Nat} {acq : Bool} (m : MailMsg) (hu : Acquired k s u)
    (hk : ctxSlot s c num = some k) (hl : (s.slot k).longUntil ≤ s.cycle) (hr : (s.slot k).streamsRead = 0)
    (hs : (s.slot k).stopPending = false) (hh : (s.slot k).held = Held.none) (hw : (s.slot k).wait = .recv mask vd acq) :
    let t := finishCtx u c num (mailResult vd m)
    (t.slot k).state = .ready ∧ (t.slot k).pc = (s.slot k).npc ∧ (t.slot k).x = (s.slot k).x
      ∧ (t.slot k).v = (((s.slot k).putV (regOf vd) (m.d2 ++ m.d1)).putV (regOf (vd + 1))
          (m.d3 ++ BitVec.ofNat 64 (m.typ * 2 ^ 60 + m.mbox * 2 ^ 56 + m.sender))).v
      ∧ (∀ j, j ≠ k → t.slot j = s.slot j) ∧ (t.core c).recvq = (s.core c).recvq := by
  intro t
  obtain ⟨acc, slotU⟩ := hu.slot
  have hkU : ctxSlot u c num = some k := (hu.ctxSlot_eq c num).trans hk
  have slotT : t.slot k = _ := slot_finishCtx_same hkU (by rw [slotU, hu.cycle]; exact hl) (by rw [slotU]; exact hr)
    (by rw [slotU]; exact hs) (by rw [slotU]; exact hh) (by rw [slotU]; simp [mailResult, hw])
  have coreT : (t.core c).recvq = (u.core c).recvq := recvq_of_butTrace (core_finishCtx _ hkU c)
  rw [slotT, slotU, coreT, hu.core c]
  exact ⟨by simp, by simp [mailResult], by simp [mailResult], by simp [mailResult, Slot.putV],
    fun j hj => (slot_finishCtx_other _ hkU hj).trans (hu.others j hj), rfl⟩

/-! ## The messages -/

/-- A DATA message for a mailbox of its world: its receiver takes it, the mailbox keeps it, or it is full (R164, R214). -/
theorem mailbox_owned {s : State} {core : Nat} {m : MailMsg} {y : Mailbox} (typ : m.typ = 0)
    (live : polderGone s m.world = false) (hb : (s.core core).mail.toList[m.mbox]? = some y) (owner : y.owner = some m.world) :
    exec (.mailboxDataArrival core m) s =
      match oldestReceiver s core m.mbox with
      | some (num, vd, acq) =>
        let s1 := s.modCore core (fun co => { co with recvq := co.recvq.erase num })
        let s2 := if acq ∧ m.rel then acquireCtx s1 core num m.sig else s1
        .next (answer (finishCtx s2 core num (mailResult vd m)) Config.latMesh m.from_ (.status 0) 0)
      | none =>
        if y.msgs.length < 4 then
          .next (answer (s.modCore core (fun co => setMail co m.mbox (fun b => { b with msgs := b.msgs ++ [m] })))
            Config.latMesh m.from_ (.status 0) 0)
        else .next (answer s Config.latMesh m.from_ (.status 0x01) 0) := by
  show execMailboxDataArrival core m s = _
  simp only [execMailboxDataArrival, typ, live, hb, owner, ne_eq, not_true_eq_false, if_false, Bool.false_eq_true] <;> rfl

/-- A DATA message that its receiver takes (R164): the head of the queue goes, and its RECV ends. -/
theorem mailbox_received {s : State} {core n k vd mask : Nat} {acq : Bool} {m : MailMsg} {y : Mailbox} (typ : m.typ = 0)
    (live : polderGone s m.world = false) (hb : (s.core core).mail.toList[m.mbox]? = some y) (owner : y.owner = some m.world)
    (oldest : oldestReceiver s core m.mbox = some (n, vd, acq)) (hk : ctxSlot s core n = some k)
    (hl : (s.slot k).longUntil ≤ s.cycle) (hr : (s.slot k).streamsRead = 0) (hs : (s.slot k).stopPending = false)
    (hh : (s.slot k).held = Held.none) (hw : (s.slot k).wait = .recv mask vd acq) :
    ∃ t, exec (.mailboxDataArrival core m) s = .next t ∧ (t.slot k).state = .ready ∧ (t.slot k).pc = (s.slot k).npc
      ∧ (t.slot k).x = (s.slot k).x
      ∧ (t.slot k).v = (((s.slot k).putV (regOf vd) (m.d2 ++ m.d1)).putV (regOf (vd + 1))
          (m.d3 ++ BitVec.ofNat 64 (m.typ * 2 ^ 60 + m.mbox * 2 ^ 56 + m.sender))).v
      ∧ (∀ j, j ≠ k → t.slot j = s.slot j) ∧ (t.core core).recvq = (s.core core).recvq.erase n := by
  let s1 := s.modCore core (fun co => { co with recvq := co.recvq.erase n })
  have hk1 : ctxSlot s1 core n = some k := (ctxSlot_congr s s1 core n fun _ => ⟨rfl, rfl⟩).trans hk
  have ends := recv_ends m (acquired_ite (s := s1) (acq ∧ m.rel) m.sig hk1) hk1 hl hr hs hh hw
  obtain ⟨hstate, hpc, hx, hv, hothers, hrecvq⟩ := ends
  refine ⟨answer (finishCtx (if acq ∧ m.rel then acquireCtx s1 core n m.sig else s1) core n (mailResult vd m)) Config.latMesh
    m.from_ (.status 0) 0, ?_, ?_, ?_, ?_, ?_, fun j hj => ?_, ?_⟩
  · rw [mailbox_owned typ live hb owner, oldest]
  · exact (congrArg Slot.state (slot_answer ..)).trans hstate
  · exact (congrArg Slot.pc (slot_answer ..)).trans hpc
  · exact (congrArg Slot.x (slot_answer ..)).trans hx
  · exact (congrArg Slot.v (slot_answer ..)).trans hv
  · exact (slot_answer ..).trans (hothers j hj)
  · exact (congrArg Core.recvq (core_answer ..)).trans (hrecvq.trans (congrArg Core.recvq (State.core_modCore_same ..)))

/-- The completion that a bundle waits for makes its slot READY at its own pc, to issue again (R58). -/
theorem completion_reissues {s : State} {c num k : Nat} {mask : BitVec 32} (reg : Nat) (status : Word) (sig : Sig)
    (hk : ctxSlot s c num = some k) (hp : (s.polder (s.slot k).world).state ≠ .draining)
    (hw : (s.slot k).wait = .reissue mask) (hm : ((s.slot k).completed reg status sig).pending &&& mask = 0)
    (hs : (s.slot k).stopPending = false) :
    let t := completeCtx s c num reg status sig
    (t.slot k).state = .ready ∧ (t.slot k).x = ((s.slot k).completed reg status sig).x
      ∧ (t.slot k).pending = ((s.slot k).completed reg status sig).pending ∧ (t.slot k).pc = (s.slot k).pc
      ∧ ∀ j, j ≠ k → t.slot j = s.slot j := by
  intro t
  have ends : t = reissue (s.modSlot k (·.completed reg status sig)) k := completeCtx_awaited reg status sig hk hp hw hm
  have written : (s.modSlot k (·.completed reg status sig)).slot k = (s.slot k).completed reg status sig :=
    State.slot_modSlot_same ..
  have slotT := slot_reissue_same (s.modSlot k (·.completed reg status sig)) k
    (by rw [written]; exact (Slot.stopPending_complete ..).trans hs)
  rw [ends, slotT, written]
  exact ⟨by simp, by simp, by simp, (by simp : _ = ((s.slot k).completed reg status sig).pc).trans (Slot.pc_complete ..),
    fun j hj => (slot_reissue_other _ k j hj).trans (State.slot_modSlot_other s k j _ hj)⟩

/-- A TOKEN message for a register that is not pending is dropped and counted (R163). -/
theorem token_dropped {s : State} {core k : Nat} {m : MailMsg} (hk : ctxSlot s core (bits m.d1.toNat 31 16) = some k)
    (hreg : bits m.d1.toNat 12 8 ≠ 0) (idle : (s.slot k).isPending (regOf (bits m.d1.toNat 12 8)) = false) :
    ∃ t, exec (.tokenMessageArrival core m) s = .next t
      ∧ t.slots = s.slots ∧ t.mem = s.mem ∧ (t.core core).msgDropped = (s.core core).msgDropped + 1 := by
  refine ⟨hatPost (s.modCore core (fun co => { co with msgDropped := co.msgDropped + 1 })) (dieOfCore core) 0x04 0
    (s.moduleNo * 4194304 + core * 8) m.d1 m.d2, ?_, by simp, by simp, by simp⟩
  show execTokenMessageArrival core m s = _
  simp [execTokenMessageArrival, ctxOf_eq s core _ k hk, hreg, idle]

/-- A TOKEN message for a pending register completes it (R59, R162). -/
theorem token_completes {s : State} {core k : Nat} {m : MailMsg} (hk : ctxSlot s core (bits m.d1.toNat 31 16) = some k)
    (hreg : bits m.d1.toNat 12 8 ≠ 0) (pending : (s.slot k).isPending (regOf (bits m.d1.toNat 12 8)) = true)
    (hw : (s.slot k).wait = .none) (hp : (s.polder (s.slot k).world).state ≠ .draining) :
    exec (.tokenMessageArrival core m) s
      = .next (s.modSlot k (·.completed (bits m.d1.toNat 12 8) m.d2 m.sig)) := by
  show execTokenMessageArrival core m s = _
  simp [execTokenMessageArrival, ctxOf_eq s core _ k hk, hreg, pending, hw, completeCtx_running _ _ _ hk hp hw]

/-- Settles O34: the branches of each arrival, with the laws of completions and of the end of a RECV. -/
theorem mailArrivals : Obligations.MailArrivals := by
  intro s core m refused b num reg
  refine ⟨?gone, ?notOwned, ?owned, ?completion, ?token⟩
  case gone =>
    intro typ gone
    show execMailboxDataArrival core m s = _
    simp [execMailboxDataArrival, typ, gone]
  case notOwned =>
    intro typ live other
    show execMailboxDataArrival core m s = _
    cases hb : b with
    | none =>
      simp only [execMailboxDataArrival, typ, live, show (s.core core).mail.toList[m.mbox]? = none from hb, ne_eq,
        not_true_eq_false, if_false, Bool.false_eq_true]
    | some y =>
      simp only [execMailboxDataArrival, typ, live, show (s.core core).mail.toList[m.mbox]? = some y from hb, ne_eq,
        not_true_eq_false, if_false, Bool.false_eq_true, if_pos (other y hb)]
  case owned =>
    intro y typ live hb owner
    have arrives := mailbox_owned typ live hb owner
    refine ⟨fun nobody room => ?kept, fun nobody full => ?full, ?taken⟩
    case kept => exact arrives.trans (by rw [nobody]; exact if_pos room)
    case full => exact arrives.trans (by rw [nobody]; exact if_neg (Nat.not_lt.mpr full))
    case taken =>
      intro n k vd acq oldest hk hl hr hs hh ⟨mask, hw⟩
      exact mailbox_received typ live hb owner oldest hk hl hr hs hh hw
  case completion =>
    intro n k g status sig hk hg hp sl'
    refine ⟨fun hw => ⟨congrArg Host.Outcome.next (completeCtx_running _ _ _ hk hp hw), Slot.getX_complete _ hg _ _,
      Slot.isPending_complete _ hg _ _⟩, fun mask hw hm hs => ⟨_, rfl, completion_reissues _ _ _ hk hp hw hm hs⟩⟩
  case token =>
    intro k hk hreg
    exact ⟨token_dropped hk hreg, token_completes hk hreg⟩

end Sys2Proof.Machine

/-! PROOFS of O30. What it changes to bring a line into an instruction cache, and then the hints and the fills (R47, R53,
R108, R109, R299, R305). -/

namespace Sys2Proof.Machine

/-! ## Bringing a line -/

/-- Bringing a line changes translation buffers and line caches alone; with nothing sealed in HBM no byte moves, and no
cluster pins or unpins a line. -/
structure BringsLine (s t : State) : Prop where
  frame : ∃ dies clusters mem hbm flipped, t = { s with
    dies := dies, clusters := clusters, mem := mem, hbm := hbm, flipped := flipped }
  mem : s.hbm = [] → t.mem = s.mem ∧ t.hbm = []
  pins : ∀ cl, (t.cluster cl).pins = (s.cluster cl).pins

namespace BringsLine

theorem refl (s : State) : BringsLine s s := ⟨⟨_, _, _, _, _, rfl⟩, fun h => ⟨rfl, h⟩, fun _ => rfl⟩

theorem trans {s t u : State} (h : BringsLine s t) (h' : BringsLine t u) : BringsLine s u := by
  refine ⟨?_, fun empty => ?_, fun cl => (h'.pins cl).trans (h.pins cl)⟩
  · obtain ⟨_, _, _, _, _, e⟩ := h.frame
    obtain ⟨_, _, _, _, _, e'⟩ := h'.frame
    exact ⟨_, _, _, _, _, by rw [e', e]⟩
  · obtain ⟨hmem, hhbm⟩ := h.mem empty
    obtain ⟨hmem', hhbm'⟩ := h'.mem hhbm
    exact ⟨hmem'.trans hmem, hhbm'⟩

theorem modDie (s : State) (die : Nat) (f : Die → Die) : BringsLine s (s.modDie die f) :=
  ⟨⟨_, _, _, _, _, rfl⟩, fun h => ⟨rfl, h⟩, fun _ => rfl⟩

theorem modCluster (s : State) (cl : Nat) {f : Cluster → Cluster} (hf : ∀ x, (f x).pins = x.pins) :
    BringsLine s (s.modCluster cl f) := by
  refine ⟨⟨_, _, _, _, _, rfl⟩, fun h => ⟨rfl, h⟩, fun c => ?_⟩
  by_cases hc : c = cl
  · rw [hc, State.cluster_modCluster_same, hf]
  · rw [State.cluster_modCluster_other _ _ _ _ hc]

theorem foldl {α : Type} {f : State → α → State} (hf : ∀ s a, BringsLine s (f s a)) (l : List α) (s : State) :
    BringsLine s (l.foldl f s) := by
  induction l generalizing s with
  | nil => exact refl s
  | cons a l ih => exact (hf s a).trans (ih _)

/-- The fields that no bringing of a line touches. -/
theorem fields {s t : State} (h : BringsLine s t) : t.slots = s.slots ∧ t.cores = s.cores ∧ t.cycle = s.cycle
    ∧ t.cur = s.cur ∧ t.agenda = s.agenda := by
  obtain ⟨_, _, _, _, _, e⟩ := h.frame
  rw [e]
  exact ⟨rfl, rfl, rfl, rfl, rfl⟩

theorem core {s t : State} (h : BringsLine s t) (c : Nat) : t.core c = s.core c := by
  obtain ⟨-, cores, -⟩ := h.fields
  unfold State.core
  rw [cores]

end BringsLine

theorem brings_correct (s : State) (ps : List Place) (die : Nat) : BringsLine s (correct s ps (countDie die)) := by
  unfold correct
  split
  · exact .refl s
  · refine .foldl (fun t p => ?_) ps s
    split
    · exact ⟨⟨_, _, _, _, _, rfl⟩, fun h => ⟨rfl, h⟩, fun _ => rfl⟩
    · exact .refl t

theorem brings_fetchLine {s t : State} {line : Nat} (h : fetchLine s line = some t) : BringsLine s t := by
  unfold fetchLine at h
  have corrected := brings_correct s [.home line] (line * 64 / 2 ^ 37)
  split at h
  · cases h
  · dsimp only at h
    split at h
    · cases h; exact corrected
    · rename_i sealed found
      obtain ⟨bs, -, rfl⟩ := Option.map_eq_some_iff.mp h
      refine corrected.trans ⟨⟨_, _, _, _, _, rfl⟩, fun empty => ?_, fun _ => rfl⟩
      rw [empty] at found
      cases found

theorem brings_fetchLines {s t : State} {lines : List Nat} (h : fetchLines s lines = .ok t) : BringsLine s t := by
  induction lines generalizing s with
  | nil => cases h; exact .refl _
  | cons l ls ih =>
    unfold fetchLines at h
    split at h
    · rename_i u fetched
      exact (brings_fetchLine fetched).trans (ih h)
    · cases h

theorem brings_homeRead {s t : State} {pa n : Nat} {bs : List Byte} (h : homeRead s pa n = .ok (t, bs)) : BringsLine s t := by
  unfold homeRead at h
  split at h
  · rename_i u fetched
    cases h
    exact brings_fetchLines fetched
  · cases h

theorem brings_codeLine_ok {s t : State} {world va : Nat} {l : Leaf} {bs : List Word}
    (h : codeLine s world va l = .ok (t, bs)) : BringsLine s t := by
  unfold codeLine at h
  dsimp only at h
  split at h
  · cases h
  split at h
  · split at h
    · cases h
    split at h
    · rename_i read
      cases h
      exact brings_homeRead read
    · cases h
  · cases h

theorem brings_codeLine_error {s t : State} {world va code val : Nat} {l : Leaf}
    (h : codeLine s world va l = .error (code, val, t)) : BringsLine s t := by
  unfold codeLine at h
  dsimp only at h
  split at h
  · cases h; exact .refl s
  split at h
  · split at h
    · cases h; exact .refl s
    split at h
    · cases h
    · cases h
      unfold integrityRecord hatPost
      exact .modDie ..
  · cases h; exact .refl s

theorem brings_tlbCluster (s : State) (cl : Nat) (e : TlbEntry) : BringsLine s (tlbCluster s cl e) :=
  .modCluster s cl fun _ => rfl

theorem brings_touchPage (s : State) (cl world va : Nat) : BringsLine s (touchPage s cl world va) := by
  unfold touchPage
  split
  · exact brings_tlbCluster ..
  split
  · exact (BringsLine.modDie ..).trans (brings_tlbCluster ..)
  · exact .refl s

theorem brings_walkEffect (s : State) (die world va : Nat) : BringsLine s (walkEffect s die world va) := by
  unfold walkEffect
  exact (BringsLine.foldl (fun t _ => .modDie t _ _) _ s).trans (.modDie ..)

theorem brings_hintLeaf (s : State) (cl world va : Nat) : BringsLine s (hintLeaf s cl world va).1 := by
  unfold hintLeaf
  split
  · exact brings_touchPage ..
  · split
    · exact .refl s
    dsimp only
    split
    · exact ((brings_walkEffect ..).trans (.modDie ..)).trans (brings_tlbCluster ..)
    · exact brings_walkEffect ..
  · exact .refl s

theorem brings_clusterInsert (s : State) (cl world line : Nat) (bs : List Word) :
    BringsLine s (clusterInsert s cl world line bs) := .modCluster s cl fun _ => rfl

theorem brings_bringLine (s : State) (cl world line : Nat) : BringsLine s (bringLine s cl world line).1 := by
  unfold bringLine
  split
  · exact brings_clusterInsert ..
  have leaf := brings_hintLeaf s cl world (line * 64)
  split
  · rename_i found; rw [found] at leaf; exact leaf
  · rename_i found; rw [found] at leaf
    split
    · rename_i code; exact (leaf.trans (brings_codeLine_ok code)).trans (brings_clusterInsert ..)
    · rename_i code; exact leaf.trans (brings_codeLine_error code)

/-- What has been put into a cluster's cache stands in it. -/
theorem mem_clusterInsert (s : State) (cl world line : Nat) (bs : List Word) :
    { world := world, line := line, bundles := bs } ∈ ((clusterInsert s cl world line bs).cluster cl).icache := by
  simp [clusterInsert, cacheLine]

theorem mem_icacheInsert (s : State) (c world line : Nat) (bs : List Word) :
    { world := world, line := line, bundles := bs } ∈ ((icacheInsert s c world line bs).core c).icache := by
  simp [icacheInsert, cacheLine]

/-- A line that has been brought stands in the cluster's cache. -/
theorem mem_bringLine {s u : State} {cl world line : Nat} {bs : List Word} (h : bringLine s cl world line = (u, some bs)) :
    { world := world, line := line, bundles := bs } ∈ (u.cluster cl).icache := by
  unfold bringLine at h
  split at h
  · cases h; exact mem_clusterInsert ..
  split at h
  · cases h
  split at h
  · cases h; exact mem_clusterInsert ..
  · cases h

/-! ## The lines of a hint -/

/-- The lines of a hint leave slots, local stores and pins, and with nothing sealed in HBM all memory. -/
structure Hints (s t : State) : Prop where
  slots : t.slots = s.slots
  cycle : t.cycle = s.cycle
  cur : t.cur = s.cur
  mem : s.hbm = [] → t.mem = s.mem ∧ t.hbm = []
  core : ∀ c, (t.core c).ls = (s.core c).ls ∧ (t.core c).pins = (s.core c).pins
  pins : ∀ cl, (t.cluster cl).pins = (s.cluster cl).pins

theorem Hints.trans {s t u : State} (h : Hints s t) (h' : Hints t u) : Hints s u where
  slots := h'.slots.trans h.slots
  cycle := h'.cycle.trans h.cycle
  cur := h'.cur.trans h.cur
  mem empty := by
    obtain ⟨hmem, hhbm⟩ := h.mem empty
    obtain ⟨hmem', hhbm'⟩ := h'.mem hhbm
    exact ⟨hmem'.trans hmem, hhbm'⟩
  core c := ⟨(h'.core c).1.trans (h.core c).1, (h'.core c).2.trans (h.core c).2⟩
  pins cl := (h'.pins cl).trans (h.pins cl)

theorem BringsLine.hints {s t : State} (h : BringsLine s t) : Hints s t := by
  obtain ⟨slots, -, cycle, cur, -⟩ := h.fields
  exact ⟨slots, cycle, cur, h.mem, fun c => by rw [h.core c]; exact ⟨rfl, rfl⟩, h.pins⟩

theorem hints_modCore (s : State) (c : Nat) {f : Core → Core} (hf : ∀ x, (f x).ls = x.ls ∧ (f x).pins = x.pins) :
    Hints s (s.modCore c f) := by
  refine ⟨rfl, rfl, rfl, fun h => ⟨rfl, h⟩, fun d => ?_, fun _ => rfl⟩
  by_cases hd : d = c
  · rw [hd, State.core_modCore_same]; exact hf _
  · rw [State.core_modCore_other _ _ _ _ hd]; exact ⟨rfl, rfl⟩

theorem hints_foldl {α : Type} {f : State → α → State} (hf : ∀ s a, Hints s (f s a)) (l : List α) (s : State) :
    Hints s (l.foldl f s) := by
  induction l generalizing s with
  | nil => exact (BringsLine.refl s).hints
  | cons a l ih => exact (hf s a).trans (ih _)

theorem hints_bringTo (s : State) (level : BitVec 1) (c world line : Nat) : Hints s (bringTo s level c world line).1 := by
  unfold bringTo
  have brought := (brings_bringLine s (clusterOfCore c) world line).hints
  split
  · rename_i found; rw [found] at brought
    dsimp only
    split
    · exact brought.trans (hints_modCore _ _ fun _ => ⟨rfl, rfl⟩)
    · exact brought
  · rename_i found; rw [found] at brought; exact brought

theorem hints_dropHint (s : State) (n : Nat) : Hints s (dropHint s n) := hints_modCore _ _ fun _ => ⟨rfl, rfl⟩

/-- One line of an IPREF (R108): brought, or counted (R305). -/
def prefLine (l : BitVec 1) (c world : Nat) (t : State) (ln : Nat) : State :=
  match bringTo t l c world ln with
  | (u, true) => u
  | (u, false) => dropHint u 1

theorem execIpref_eq (l : BitVec 1) (a b : Reg) (s : State) : exec (.ipref l a b) s =
    .next ((codeLines s.me (addr57 (s.rx a)) (s.rx b).toNat).1.foldl (prefLine l (coreOf s.cur) s.me.world)
      (dropHint s (codeLines s.me (addr57 (s.rx a)) (s.rx b).toNat).2)) := rfl

theorem hints_prefLine (l : BitVec 1) (c world : Nat) (t : State) (ln : Nat) : Hints t (prefLine l c world t ln) := by
  unfold prefLine
  have brought := hints_bringTo t l c world ln
  split
  · rename_i found; rw [found] at brought; exact brought
  · rename_i found; rw [found] at brought; exact brought.trans (hints_dropHint ..)

theorem clusterOfCore_coreOf (k : Nat) : clusterOfCore (coreOf k) = clusterOf k := Nat.div_div_eq_div_mul k 8 8

/-! ## IPREF -/

/-- A line of the only one that an IPREF brings stands in both caches (R108). -/
theorem prefLine_brought {s u : State} {cl world ln : Nat} {bs : List Word} (l : BitVec 1) (c : Nat) (hc : clusterOfCore c = cl)
    (h : bringLine s cl world ln = (u, some bs)) :
    { world := world, line := ln, bundles := bs } ∈ ((prefLine l c world s ln).cluster cl).icache
      ∧ (l = 0 → { world := world, line := ln, bundles := bs } ∈ ((prefLine l c world s ln).core c).icache)
      ∧ ((prefLine l c world s ln).core c).dropped = (s.core c).dropped := by
  have brought : bringLine s (clusterOfCore c) world ln = (u, some bs) := hc ▸ h
  have kept := brings_bringLine s cl world ln
  rw [h] at kept
  by_cases level : l = 0
  · have eq : prefLine l c world s ln = icacheInsert u c world ln bs := by
      simp only [prefLine, bringTo, brought, if_pos level]
    rw [eq]
    exact ⟨show _ ∈ (u.cluster cl).icache from mem_bringLine h, fun _ => mem_icacheInsert .., by simp [icacheInsert, kept.core c]⟩
  · have eq : prefLine l c world s ln = u := by simp only [prefLine, bringTo, brought, if_neg level]
    rw [eq]
    exact ⟨mem_bringLine h, fun h0 => absurd h0 level, by rw [kept.core c]⟩

/-- A line that its page refuses is counted (R305). -/
theorem prefLine_refused {s u : State} {cl world ln : Nat} (l : BitVec 1) (hc : clusterOfCore (coreOf s.cur) = cl)
    (h : bringLine s cl world ln = (u, none)) :
    ((prefLine l (coreOf s.cur) world s ln).core (coreOf s.cur)).dropped = (s.core (coreOf s.cur)).dropped + 1 := by
  have refused : bringLine s (clusterOfCore (coreOf s.cur)) world ln = (u, none) := hc ▸ h
  have kept := brings_bringLine s cl world ln
  rw [h] at kept
  obtain ⟨-, -, -, cur, -⟩ := kept.fields
  have eq : prefLine l (coreOf s.cur) world s ln = dropHint u 1 := by simp only [prefLine, bringTo, refused]
  rw [eq, dropHint, cur, State.core_modCore_same, kept.core]

/-! ## IPIN -/

/-- What IPIN answers: 1 outside the code range, 2 above the capacity of its level (R108, R109). -/
def pinCode (outside : Prop) [Decidable outside] (l : BitVec 1) (all : List IPin) : Nat :=
  if outside then 1 else if (if l = 0 then 64 else 512) < (pinnedLines all).length then 2 else 0

/-- The state in which IPIN has pinned its range or left it. -/
def pinned (s : State) (l : BitVec 1) (d : Reg) (code : Nat) (all : List IPin) (lines : List Nat) : State :=
  let s1 := s.modMe (·.startToken d)
  if code = 0 then
    lines.foldl (fun t ln => (bringTo t l (coreOf s.cur) s.me.world ln).1)
      (if l = 0 then s1.modCore (coreOf s.cur) (fun co => { co with pins := all })
        else s1.modCluster (clusterOf s.cur) (fun x => { x with pins := all }))
  else s1

theorem pinned_spec (s : State) (l : BitVec 1) (d : Reg) (code : Nat) (all : List IPin) (lines : List Nat) :
    let t := pinned s l d code all lines
    t.slots = (s.modMe (·.startToken d)).slots ∧ t.cur = s.cur ∧ t.cycle = s.cycle ∧ (s.hbm = [] → t.mem = s.mem)
      ∧ (if l = 0 then (t.core (coreOf s.cur)).pins else (t.cluster (clusterOf s.cur)).pins)
        = if code = 0 then all else if l = 0 then (s.core (coreOf s.cur)).pins else (s.cluster (clusterOf s.cur)).pins := by
  intro t
  by_cases ok : code = 0
  · let base := if l = 0 then (s.modMe (·.startToken d)).modCore (coreOf s.cur) (fun co => { co with pins := all })
      else (s.modMe (·.startToken d)).modCluster (clusterOf s.cur) (fun x => { x with pins := all })
    have hint : Hints base t := by
      have eq : t = lines.foldl (fun t ln => (bringTo t l (coreOf s.cur) s.me.world ln).1) base := if_pos ok
      rw [eq]
      exact hints_foldl (fun u ln => hints_bringTo ..) _ _
    rw [if_pos ok]
    by_cases level : l = 0
    · have eq : base = _ := if_pos level
      rw [eq] at hint
      exact ⟨hint.slots, hint.cur, hint.cycle, fun empty => (hint.mem empty).1, by
        rw [if_pos level, (hint.core _).2, State.core_modCore_same]⟩
    · have eq : base = _ := if_neg level
      rw [eq] at hint
      exact ⟨hint.slots, hint.cur, hint.cycle, fun empty => (hint.mem empty).1, by
        rw [if_neg level, hint.pins, State.cluster_modCluster_same]⟩
  · have eq : t = s.modMe (·.startToken d) := if_neg ok
    rw [eq, if_neg ok]
    exact ⟨rfl, rfl, rfl, fun _ => rfl, rfl⟩

/-! ## Fills -/

/-- A line that has reached a slot: it is READY, and both caches hold the line (R47, R53). -/
theorem fetched_spec (s : State) (slot world line : Nat) (bs : List Word) (hs : (s.slot slot).stopPending = false) :
    let t := fetched s slot world line bs
    (t.slot slot).state = .ready ∧ (t.slot slot).pc = (s.slot slot).pc
      ∧ { world := world, line := line, bundles := bs } ∈ (t.core (coreOf slot)).icache
      ∧ { world := world, line := line, bundles := bs } ∈ (t.cluster (clusterOf slot)).icache
      ∧ ∀ j, j ≠ slot → t.slot j = s.slot j := by
  intro t
  let u := (icacheInsert (clusterInsert s (clusterOf slot) world line bs) (coreOf slot) world line bs).modSlot slot
    (fun x => { x with wait := .none })
  have written : u.slot slot = { s.slot slot with wait := .none } := State.slot_modSlot_same ..
  have slotT : t.slot slot = ({ s.slot slot with wait := .none } : Slot).enter u.cycle .ready := by
    rw [← written]
    exact slot_toReady_same u slot (by rw [written]; exact hs)
  have coreT : (t.core (coreOf slot)).icache = (u.core (coreOf slot)).icache := by
    have kept := core_toReady u slot (coreOf slot)
    unfold Core.butTrace at kept
    rw [show t = u.toReady slot from rfl, kept]
  rw [slotT, coreT]
  refine ⟨by simp, by simp, mem_icacheInsert .., ?_, fun j hj => ?_⟩
  · rw [show t.cluster (clusterOf slot) = u.cluster (clusterOf slot) from cluster_toReady ..]
    exact mem_clusterInsert s ..
  · exact (slot_toReady_other u slot j hj).trans (State.slot_modSlot_other _ _ _ _ hj)

/-- A lookup touches translation buffers and counters of misses alone. -/
theorem lookup_kept {s u : State} {core world va : Nat} {l : Option Leaf} (h : lookup s core world va = (u, l)) :
    u.slot = s.slot ∧ ownerOf u = ownerOf s ∧ u.mem = s.mem ∧ u.poison = s.poison ∧ u.hbm = s.hbm
      ∧ u.flipped = s.flipped := by
  unfold lookup at h
  dsimp only at h
  split at h
  · cases h; exact ⟨rfl, rfl, rfl, rfl, rfl, rfl⟩
  split at h
  · cases h; exact ⟨rfl, rfl, rfl, rfl, rfl, rfl⟩
  · cases h; exact ⟨rfl, rfl, rfl, rfl, rfl, rfl⟩

/-- Where nothing is sealed, flipped or uncorrectable, lines are read as they stand (R275, R348). -/
theorem fetchLines_plain {s : State} (lines : List Nat) (hp : s.poison = []) (hh : s.hbm = []) (hf : s.flipped = []) :
    fetchLines s lines = .ok s := by
  have one (line : Nat) : fetchLine s line = some s := by
    unfold fetchLine
    rw [hp, correct_nil s _ _ hf]
    simp [hh, NMap.find]
  induction lines with
  | nil => rfl
  | cons l ls ih => rw [fetchLines, one]; exact ih

theorem homeRead_plain {s : State} (pa n : Nat) (hp : s.poison = []) (hh : s.hbm = []) (hf : s.flipped = []) :
    homeRead s pa n = .ok (s, cellRead s.mem pa n) := by
  unfold homeRead
  rw [fetchLines_plain _ hp hh hf]
  rfl

theorem icacheFill_held {s : State} {slot va : Nat} {bs : List Word} (hw : (s.slot slot).wait = .fetch va)
    (hs : (s.slot slot).state = .waitFetch)
    (held : clusterLine s (clusterOf slot) (s.slot slot).world (va / 64) = some bs) :
    exec (.icacheFill slot) s = .next (fetched s slot (s.slot slot).world (va / 64) bs) := by
  show execIcacheFill slot s = _
  simp only [execIcacheFill, hw, hs, if_true, held]

/-- A line that its cluster does not hold is read through the page of its context (R299, R300). -/
theorem icacheFill_absent {s : State} {slot va : Nat} (hw : (s.slot slot).wait = .fetch va)
    (hs : (s.slot slot).state = .waitFetch)
    (absent : clusterLine s (clusterOf slot) (s.slot slot).world (va / 64) = none) (low : va < 2 ^ 57) :
    exec (.icacheFill slot) s =
      match lookup s (coreOf slot) (s.slot slot).world va with
      | (u, none) => .next (queueMiss u (clusterOf slot) (s.slot slot).world va (.ctx (coreOf slot) (s.slot slot).ctxNum))
      | (u, some l) =>
        match codeLine u (s.slot slot).world va l with
        | .ok (t, bs) => .next (fetched t slot (s.slot slot).world (va / 64) bs)
        | .error (code, val, t) => .next (takeTrapAt t slot code (BitVec.ofNat 64 val)) := by
  show execIcacheFill slot s = _
  simp only [execIcacheFill, hw, hs, if_true, absent, if_neg (Nat.not_le.mpr low)] <;> rfl

/-- The step of a line whose page a buffer holds. -/
theorem icacheFill_found {s u : State} {slot va : Nat} {l : Leaf} (hw : (s.slot slot).wait = .fetch va)
    (hs : (s.slot slot).state = .waitFetch)
    (absent : clusterLine s (clusterOf slot) (s.slot slot).world (va / 64) = none) (low : va < 2 ^ 57)
    (found : lookup s (coreOf slot) (s.slot slot).world va = (u, some l)) :
    (∀ t bs, codeLine u (s.slot slot).world va l = .ok (t, bs) →
      exec (.icacheFill slot) s = .next (fetched t slot (s.slot slot).world (va / 64) bs))
    ∧ (∀ t code val, codeLine u (s.slot slot).world va l = .error (code, val, t) →
      exec (.icacheFill slot) s = .next (takeTrapAt t slot code (BitVec.ofNat 64 val))) := by
  rw [icacheFill_absent hw hs absent low, found]
  exact ⟨fun t bs read => by dsimp only; rw [read], fun t code val fault => by dsimp only; rw [fault]⟩

theorem codeLine_refused {u : State} (world va : Nat) {l : Leaf} (noX : l.executable = false) :
    codeLine u world va l = .error (0x0F, va, u) := by
  simp only [codeLine, noX, Bool.not_false, if_true]

theorem codeLine_home {u : State} {world va pa : Nat} {l : Leaf} (canX : l.executable = true)
    (home : targetOf u l (va / 64 * 64) = .home pa) :
    (ownerOf u pa ≠ some world → codeLine u world va l = .error (0x11, va, u))
    ∧ (ownerOf u pa = some world → ∀ t bs, homeRead u pa 64 = .ok (t, bs) →
      codeLine u world va l = .ok (t, toWords bs 8)) := by
  simp only [codeLine, canX, Bool.not_true, Bool.false_eq_true, if_false, home]
  exact ⟨fun other => if_pos other, fun own t bs read => by rw [if_neg (not_not.mpr own), read]⟩

/-- Settles O30: each hint by what its lines change, and the fill by where its line is found. -/
theorem instructionCaches : Obligations.InstructionCaches := by
  intro s d a b slot c cl lo n lines outside mine s0
  refine ⟨?pref, ?prefOne, ?pin, ?unpinCore, ?unpinCluster, ?fill⟩
  case pref =>
    intro l
    have hint : Hints s (lines.foldl (prefLine l c s.me.world) s0) :=
      (hints_dropHint s outside).trans (hints_foldl (hints_prefLine l c s.me.world) lines s0)
    exact ⟨_, execIpref_eq l a b s, hint.slots, fun empty => (hint.mem empty).1, (hint.core c).1,
      fun none => by rw [show (codeLines s.me (addr57 (s.rx a)) (s.rx b).toNat).1 = [] from none]; rfl⟩
  case prefOne =>
    intro l ln u one
    have eq : exec (.ipref l a b) s = .next (prefLine l c s.me.world s0 ln) := by
      rw [execIpref_eq, show (codeLines s.me (addr57 (s.rx a)) (s.rx b).toNat).1 = [ln] from one]
      rfl
    have counted : (s0.core c).dropped = (s.core c).dropped + outside := congrArg Core.dropped (State.core_modCore_same ..)
    refine ⟨fun bs brought => ⟨_, eq, ?_⟩, fun refused => ⟨_, eq, ?_⟩⟩
    · obtain ⟨hcl, hco, hdrop⟩ := prefLine_brought l c (clusterOfCore_coreOf s.cur) brought
      exact ⟨hcl, hco, hdrop.trans counted⟩
    · exact (prefLine_refused (s := s0) l (clusterOfCore_coreOf s.cur) refused).trans (by rw [← counted]; rfl)
  case pin =>
    intro writable l old new all code
    obtain ⟨slots, cur, cycle, mem, pins⟩ := pinned_spec s l d code all lines
    let p := pinned s l d code all lines
    obtain ⟨due, hdue, hin⟩ := later_mem p s.cycle Config.latFetch
      (.completionWrite c s.me.ctxNum d.toNat (BitVec.ofNat 64 code) 0) cycle
    have slot (k : Nat) : p.slot k = (s.modMe (·.startToken d)).slot k := by unfold State.slot; rw [slots]
    refine ⟨p.later Config.latFetch (.completionWrite c s.me.ctxNum d.toNat (BitVec.ofNat 64 code) 0), due,
      guardX_of s d _ writable, ?_, fun k hk => ?_, mem, hdue, hin, pins⟩
    · show p.slot p.cur = _
      rw [cur, slot]
      exact State.slot_modSlot_same ..
    · exact (slot k).trans (State.slot_modSlot_other _ _ _ _ hk)
  case unpinCore => rfl
  case unpinCluster => rfl
  case fill =>
    intro va hw hs world ready
    refine ⟨fun bs held going => ?held, fun absent low => ⟨fun u missing => ?missing, fun u l found => ⟨fun noX => ?noX,
      fun pa canX home => ⟨fun other => ?other, fun own hp hh hf going => ?own⟩⟩⟩⟩
    case held =>
      exact ⟨_, icacheFill_held hw hs held, fetched_spec s slot world (va / 64) bs going⟩
    case missing => rw [icacheFill_absent hw hs absent low, missing]
    case noX => exact (icacheFill_found hw hs absent low found).2 _ _ _ (codeLine_refused world va noX)
    case other =>
      obtain ⟨-, owner, -⟩ := lookup_kept found
      exact (icacheFill_found hw hs absent low found).2 _ _ _ ((codeLine_home canX home).1 (by rw [owner]; exact other))
    case own =>
      obtain ⟨slots, owner, mem, poison, hbm, flipped⟩ := lookup_kept found
      have read := homeRead_plain (s := u) pa 64 (poison.trans hp) (hbm.trans hh) (flipped.trans hf)
      rw [mem] at read
      have line := (codeLine_home canX home).2 (by rw [owner]; exact own) _ _ read
      have ends := fetched_spec u slot world (va / 64) (toWords (cellRead s.mem pa 64) 8) (by rw [slots]; exact going)
      rw [slots] at ends
      exact ⟨_, (icacheFill_found hw hs absent low found).1 _ _ line, ends⟩

end Sys2Proof.Machine

/-! PROOFS of O43. A list of waiters that still names the context whose task ends refutes its first clause (R157, R331). -/

namespace Sys2Proof.Machine

/-- The drained TDONE of a task. -/
def endingReq : MemReq := { MemReq.new .tdone 0 0 [] with acq := true, rel := true, scope := 4, phase := 1 }

/-- A launch with two live tasks. -/
def endingLaunch : Launch := { (default : Launch) with state := .running, live := 2 }

/-- Core 0 with a task at the end of its TDONE in slot 0, and in slot 1 a context in an LDS of word 0. The LDS holds no
waiter entry; an entry of word 8 stands under the context of slot 0, so that the end of the task frees it and the LDS
reads its word. -/
def endingState : State := ((((State.reset.modSlot 0 fun sl =>
    { sl with state := .waitMem, wait := .mem endingReq, world := 1 }).modSlot 1 fun sl =>
    { sl with state := .waitMem, wait := .mem (MemReq.new .lds 3 1 (List.range 8)), world := 1, ctxNum := 1 }).modCore 0 fun co =>
    { co with
      waiters := [{ word := 8, who := .ctx 0 0, world := 1, off := 64, size := 8 }]
      parkedLds := [{ word := 0, who := .ctx 0 1, world := 1, off := 0, size := 8 }] }).modPolder 1 fun p =>
    { p with state := .live, launches := [endingLaunch] })

/-- The state of slot 1 after the end of the task of slot 0. -/
def slotOneAfter (o : Out) : SlotState :=
  match o with
  | .next t => (t.slot 1).state
  | _ => .empty

theorem endingState_wakes : slotOneAfter (exec (.remoteReply (.ctx 0 0) .done 0) endingState) = .ready := by decide

/-- Refutes O43: the clause of TDONE keeps every other slot as it was in any state, and in `endingState` the end of the task
frees a waiter entry, which a parked LDS of slot 1 takes: its word is full and slot 1 becomes READY (R157). -/
theorem not_taskEnds : ¬ Obligations.TaskEnds := by
  rintro ⟨ends, -⟩
  have tdone := (ends endingState 0 0 0 endingReq (by decide) (by decide) (by decide) (by decide) (by decide) (by decide)
    (by decide) (by decide) (by decide) (by decide) (by decide)).1
  obtain ⟨t, ⟨step, -, others, -⟩, -⟩ := tdone endingLaunch (by decide) (by decide) (by decide) (by decide) (by decide) (by decide)
  have ready : (t.slot 1).state = .ready := by
    have woken := endingState_wakes
    rw [step] at woken
    exact woken
  rw [others 1 (by decide)] at ready
  exact absurd ready (by decide)

end Sys2Proof.Machine

/-! PROOFS of O44. What a general slot takes next, and the events of deques, of stealing and of the resets of queues
without launches (R61, R158, R165, R166, R283 to R286, R291, R292). -/

namespace Sys2Proof.Machine

/-! ## Pops -/

theorem nextItem_none {s : State} {c world : Nat} (hr : readySwapped s c world = []) (hb : bottomOf s c world = none) :
    nextItem s c world = none := by
  simp only [nextItem, hb, hr]
  rfl

/-- A record goes before the ready contexts below its level (R285). -/
theorem nextItem_record {s : State} {c world : Nat} {r : TaskRec} (hr : ∀ e ∈ readySwapped s c world, e.slot.prio < r.prio)
    (hb : bottomOf s c world = some r) : nextItem s c world = some (.inr r) := by
  have below : (readySwapped s c world).find? (fun e => decide (r.prio ≤ e.slot.prio)) = none :=
    List.find?_eq_none.mpr fun e he => by simpa using hr e he
  simp only [nextItem, hb, below]

/-- A ready context at or above the bottom record's level goes first (R285). -/
theorem nextItem_context {s : State} {c world : Nat} {e : CtxEntry}
    (h : (bottomOf s c world = none ∧ (readySwapped s c world).head? = some e)
      ∨ ∃ r, bottomOf s c world = some r ∧ (readySwapped s c world).find? (fun e => decide (r.prio ≤ e.slot.prio)) = some e) :
    nextItem s c world = some (.inl e) := by
  rcases h with ⟨hb, he⟩ | ⟨r, hb, he⟩
  · simp only [nextItem, hb, he]
    rfl
  · simp only [nextItem, hb, he]

theorem taskPop_none {s : State} {c world : Nat} (h : popTask s c world = none) : exec (.taskPop c world) s = .next s := by
  show execTaskPop c world s = _
  simp only [execTaskPop, h]

/-- A pop that happens may ask for the next one in its own cycle, which changes the agenda alone. -/
theorem taskPop_some {s t : State} {c world : Nat} (h : popTask s c world = some t) :
    ∃ u, exec (.taskPop c world) s = .next u ∧ u.slots = t.slots ∧ u.cores = t.cores ∧ u.mem = t.mem
      ∧ ∀ x ∈ t.agenda, x ∈ u.agenda := by
  refine ⟨if (emptyGeneral t c).isSome && ((readySwapped t c world).head?.isSome || (bottomOf t c world).isSome) then
    t.at_ t.cycle (.taskPop c world) else t, ?_, ?_⟩
  · show execTaskPop c world s = _
    simp only [execTaskPop, h]
  · split
    · exact ⟨rfl, rfl, rfl, fun x hx => mem_agendaIns_of_mem _ _ _ x hx⟩
    · exact ⟨rfl, rfl, rfl, fun _ hx => hx⟩

/-- A sound record leaves its deque and is installed, or refused where its world's share is not well formed (R158). -/
theorem popTask_record {s : State} {c world k : Nat} {r : TaskRec} (hk : emptyGeneral s c = some k)
    (hr : ∀ e ∈ readySwapped s c world, e.slot.prio < r.prio) (hb : bottomOf s c world = some r) (hp : s.poison = [])
    (hf : s.flipped = []) :
    popTask s c world = installTask (s.modCore c (fun co => { co with deque := co.deque.erase r })) k r := by
  have sound : (s.modCore c (fun co => { co with deque := co.deque.erase r })).poison.contains (.deque c world) = false := by
    rw [State.poison_modCore, hp]; rfl
  simp only [popTask, hk, nextItem_record hr hb, correct_nil s _ _ hf, sound, Bool.false_eq_true, if_false]

theorem popTask_context {s : State} {c world k : Nat} {e : CtxEntry} (hk : emptyGeneral s c = some k)
    (h : nextItem s c world = some (.inl e)) : popTask s c world = some (installSwapped s k e) := by
  simp only [popTask, hk, h]

theorem world_bottomOf {s : State} {c world : Nat} {r : TaskRec} (h : bottomOf s c world = some r) : r.world = world := by
  simpa using List.find?_some h

/-- The context of a new task starts with the task's pc, arguments and level, and with x and v reset (R41, R113). -/
theorem freshCtx_fields (s : State) (c num : Nat) (r : TaskRec) :
    let sl := freshCtx s c num r
    sl.ctxNum = num ∧ sl.pc = BitVec.ofNat 64 r.pc ∧ sl.arg0 = r.arg0 ∧ sl.arg1 = r.arg1 ∧ sl.prio = r.prio
      ∧ sl.world = r.world ∧ sl.x = Slot.reset.x ∧ sl.tvec = (s.polder r.world).hvec :=
  ⟨rfl, rfl, rfl, rfl, rfl, rfl, rfl, rfl⟩

/-- A task with a number and a well-formed share begins its install (R61, R119). -/
theorem installTask_fits {s : State} {k n : Nat} {r : TaskRec} (fits : shareFits (s.core (coreOf k)) r.world = true)
    (hn : freeNum (s.core (coreOf k)) = some n) :
    installTask s k r = some (startInstall (invalidateMatching
      (s.modCore (coreOf k) (fun co => { co with ctxNums := co.ctxNums ++ [n] })) (dieOf k) r.sig) k (freshCtx s (coreOf k) n r)) := by
  simp only [installTask, fits, if_true, putTask, hn]

theorem slot_startInstall_same (s : State) (k : Nat) (sl : Slot) :
    (startInstall s k sl).slot k = { sl with state := .swapped, saved := .ready, waitSince := s.cycle } :=
  State.slot_setSlot_same ..

theorem slot_startInstall_other (s : State) (k j : Nat) (sl : Slot) (h : j ≠ k) : (startInstall s k sl).slot j = s.slot j :=
  State.slot_setSlot_other _ _ _ _ h

/-- The install of a ready context begins: its slot is SWAPPED under the context's number (R119, R120). -/
theorem installSwapped_spec (s : State) (k : Nat) (e : CtxEntry) :
    let t := installSwapped s k e
    (t.slot k).state = .swapped ∧ (t.slot k).saved = .ready ∧ (t.slot k).ctxNum = e.slot.ctxNum
      ∧ (t.slot k).world = e.slot.world ∧ (∀ j, j ≠ k → t.slot j = s.slot j) ∧ t.cores = s.cores := by
  unfold installSwapped
  dsimp only
  split
  · rw [slot_startInstall_same]
    exact ⟨rfl, rfl, rfl, rfl, fun j hj => slot_startInstall_other s k j _ hj, rfl⟩
  · simp only [State.slot_later, State.slot_setSlot_same]
    exact ⟨trivial, trivial, trivial, trivial, fun j hj => State.slot_setSlot_other s k j _ hj, rfl⟩

/-! ## Deques -/

theorem dequeReadback_full {s : State} {c : Nat} (world : Nat) (h : 16 ≤ (s.core c).deque.length) :
    exec (.dequeReadback c world) s = .next s := by
  show execDequeReadback c world s = _
  unfold execDequeReadback
  dsimp only
  split
  · exact if_neg fun hc => absurd hc.1 (Nat.not_lt.mpr h)
  · rfl

/-- The batch that was spilled last comes back above the resident records, or its read-back fails (R166). -/
theorem dequeReadback_batch {s : State} {c world : Nat} {b : List TaskRec} (hb : (s.core c).spilled.getLast? = some b)
    (hd : (s.core c).deque.length < 16) (hw : b.any (·.world == world) = true) :
    (Config.spillFails s.free = false → exec (.dequeReadback c world) s = .next (becameReady (s.modCore c (fun co => { co with
      deque := co.deque ++ b, spilled := co.spilled.dropLast })).tick c world))
    ∧ (Config.spillFails s.free = true → exec (.dequeReadback c world) s = .next (spillFailed s c)) := by
  have branch : exec (.dequeReadback c world) s =
      if Config.spillFails s.free then .next (spillFailed s c)
      else .next (becameReady (s.modCore c (fun co => { co with
        deque := co.deque ++ b, spilled := co.spilled.dropLast })).tick c world) := by
    show execDequeReadback c world s = _
    simp only [execDequeReadback, hb]
    exact if_pos ⟨hd, hw⟩
  exact ⟨fun sound => branch.trans (if_neg (by rw [sound]; decide)), fun fails => branch.trans (if_pos fails)⟩

@[simp] theorem core_becameReady (s : State) (c world d : Nat) : (becameReady s c world).core d = s.core d := rfl

theorem foldl_becameReady (l : NMap (Nat × Nat)) (c : Nat) (s : State) :
    let t := l.foldl (fun t p => becameReady t c p.1) s
    t.slots = s.slots ∧ t.mem = s.mem ∧ t.cores = s.cores := by
  induction l generalizing s with
  | nil => exact ⟨rfl, rfl, rfl⟩
  | cons p l ih => exact ih (becameReady s c p.1)

/-- Ageing changes the core's own deque and spilled records, entries of its cluster and, once a die, accepted launches
(R283). -/
theorem ageingRaise_spec (s : State) (c : Nat) : ∃ t, exec (.ageingRaise c) s = .next t ∧ t.slots = s.slots ∧ t.mem = s.mem
    ∧ t.cores = (s.modCore c (fun co => { co with
      deque := co.deque.map (ageRec s), spilled := co.spilled.map (fun b => b.map (ageRec s)) })).cores := by
  refine ⟨_, rfl, ?_⟩
  obtain ⟨slots, mem, cores⟩ := foldl_becameReady (s.core c).shares c _
  refine ⟨slots.trans ?_, mem.trans ?_, cores.trans ?_⟩
  · split <;> rfl
  · split <;> rfl
  · split <;> rfl

/-! ## Stealing -/

@[simp] theorem slots_modSteal (s : State) (c world : Nat) (f : Steal → Steal) : (modSteal s c world f).slots = s.slots := rfl

theorem stealOf_modSteal_same (s : State) (c world : Nat) (f : Steal → Steal) :
    stealOf ((modSteal s c world f).core c) world = f (stealOf (s.core c) world) := by
  simp [modSteal, stealOf, setSteal]

theorem stealOf_modSteal_other (s : State) (c world w : Nat) (f : Steal → Steal) (h : w ≠ world) :
    stealOf ((modSteal s c world f).core c) w = stealOf (s.core c) w := by
  simp [modSteal, stealOf, setSteal, NMap.find_set_other _ _ _ _ h]

/-- The first die that a thief asks is its own (R286). -/
theorem stealDie_first : ∀ own < 16, stealDie own 0 = own := by decide

/-- No link stands between a die and itself. -/
theorem crossesDown_self (s : State) (die : Nat) : crossesDown s die die = false := by
  have row : rowLinks die (die % 4) 3 = [] := if_pos rfl
  have col : colLinks (die / 4 * 4 + die % 4) (die / 4) 3 = [] := if_pos (by omega)
  simp [crossesDown, dieRoute, row, col]

/-- The request of a thief to a core of its own die (R286). -/
def stealMsg (s : State) (c world : Nat) : ActiveMsg :=
  { op := .steal, world := world, off := 0, size := 0, data := [], cmp := 0, sig := 0, acq := false,
    sender := s.moduleNo * 4194304 + c * 8, from_ := .thief c world }

/-- A thief whose own die has cores with a share of the world asks one of them (R286). -/
theorem stealFrom_own {s : State} {c world : Nat} (fuel : Nat) (ht : sharedCores s (dieOfCore c) world ≠ [])
    (hc : dieOfCore c < 16) : ∃ target ∈ sharedCores s (dieOfCore c) world,
      stealFrom' s c world 0 0 (fuel + 1)
        = sendActive (modSteal s c world (fun x => { x with active := true, dieStep := 0, tries := 0, backoff := none })).tick
          target (stealMsg s c world) := by
  have some_target : (sharedCores s (dieOfCore c) world).isEmpty = false := by simpa using ht
  have inside : Config.stealTarget c s.free % (sharedCores s (dieOfCore c) world).length
      < (sharedCores s (dieOfCore c) world).length := Nat.mod_lt _ (List.length_pos_iff.mpr ht)
  refine ⟨_, List.getElem_mem inside, ?_⟩
  simp only [stealFrom', stealDie_first _ hc, crossesDown_self, some_target, List.getElem?_eq_getElem inside]
  rfl

/-- After the last die a thief waits 4,096 cycles (R286, step 3). -/
theorem stealFrom_last (s : State) (c world tries fuel : Nat) :
    stealFrom' s c world 16 tries (fuel + 1) = stealFailed s c world := by
  simp [stealFrom']

@[simp] theorem core_sendActive (s : State) (core : Nat) (m : ActiveMsg) (c : Nat) :
    (sendActive s core m).core c = s.core c := rfl

theorem stealOf_stealFailed (s : State) (c world : Nat) : stealOf ((stealFailed s c world).core c) world
    = { stealOf (s.core c) world with active := false, backoff := some (s.cycle + 4096) } :=
  stealOf_modSteal_same s c world (fun x => { x with active := false, backoff := some (s.cycle + 4096) })

/-- The message of a thief arrives after this cycle. -/
theorem sendActive_mem (s : State) (core : Nat) (m : ActiveMsg) :
    ∃ due, s.cycle < due ∧ (due, Event.serviceQueueArrival core m) ∈ (sendActive s core m).agenda :=
  ⟨_, Nat.lt_of_lt_of_le (by omega : s.cycle < s.cycle + 1 + Config.latency Config.latMesh s.free) (Nat.le_max_left _ _),
    mem_agendaIns _ _ _⟩

/-! ## Resets of a queue without launches -/

theorem queueOf_modQueue (s : State) (world q : Nat) (f : Queue → Queue) (h : q < 8) :
    queueOf (modQueue s world q f) world q = f (queueOf s world q) := by
  simp [queueOf, modQueue, h]

theorem cancelAll_nil (s : State) (world q fuel : Nat) : cancelAll s world q fuel [] = s := by
  cases fuel <;> rfl

theorem dropLinks_none {s : State} {world q : Nat} (h : (queueOf s world q).links = []) :
    dropLinks s world q = modQueue s world q (fun x => { x with links := [] }) := by
  unfold dropLinks
  rw [h]
  exact cancelAll_nil ..

/-- A queue in a reset without launches accepts records again at once (R291). -/
theorem resetDone_idle {s : State} {world q : Nat} (hl : (s.polder world).launches.filter (fun l => l.queue == q) = [])
    (hs : (queueOf s world q).soft = true) :
    ∃ f : Polder → Polder, (∀ p, (f p).queues = p.queues) ∧ resetDone s world q
      = ((modQueue s world q (fun x => { x with soft := false })).modPolder world f).next1 (.launchRecordRead world q) := by
  have idle (p : Launch → Bool) : (s.polder world).launches.any (fun l => l.queue == q && p l) = false := by
    rw [List.any_eq_false]
    intro l hm
    have other := List.filter_eq_nil_iff.mp hl l hm
    simp_all
  refine ⟨fun p => { p with resetReg := p.resetReg &&& ~~~(1#8 <<< q), hresetReg := p.hresetReg &&& ~~~(1#8 <<< q) },
    fun _ => rfl, ?_⟩
  unfold resetDone
  dsimp only
  rw [idle]
  exact if_pos ⟨hs, rfl⟩

theorem launches_modQueue (s : State) (world q : Nat) (f : Queue → Queue) :
    ((modQueue s world q f).polder world).launches = (s.polder world).launches := by
  simp [modQueue]

theorem queueOf_modPolder (s : State) (world q : Nat) {f : Polder → Polder} (hf : ∀ p, (f p).queues = p.queues) :
    queueOf (s.modPolder world f) world q = queueOf s world q := by
  simp [queueOf, hf]

theorem resetDone_spec {s : State} {world q : Nat} (hq : q < 8)
    (hl : (s.polder world).launches.filter (fun l => l.queue == q) = []) (hs : (queueOf s world q).soft = true) :
    let u := resetDone s world q
    u.slots = s.slots ∧ u.mem = s.mem ∧ queueOf u world q = { queueOf s world q with soft := false }
      ∧ (s.cycle + 1, Event.launchRecordRead world q) ∈ u.agenda := by
  obtain ⟨f, hf, eq⟩ := resetDone_idle hl hs
  rw [eq]
  exact ⟨rfl, rfl, (queueOf_modPolder _ world q hf).trans (queueOf_modQueue s world q _ hq), next1_mem ..⟩

/-- A queue as a reset begins: it takes nothing in, and its unread records are dropped (R291, R292). -/
def resetBegun (s : State) (world q : Nat) (f : Polder → Polder) : State :=
  (modQueue s world q (fun x => { x with soft := true, stopped := false, read := x.tail })).modPolder world f

theorem resetBegun_spec (s : State) (world q : Nat) {f : Polder → Polder} (hq : q < 8)
    (hf : ∀ p, (f p).queues = p.queues ∧ (f p).launches = p.launches) :
    queueOf (resetBegun s world q f) world q
        = { queueOf s world q with soft := true, stopped := false, read := (queueOf s world q).tail }
      ∧ ((resetBegun s world q f).polder world).launches = (s.polder world).launches := by
  refine ⟨(queueOf_modPolder _ world q fun p => (hf p).1).trans (queueOf_modQueue s world q _ hq), ?_⟩
  rw [resetBegun, State.polder_modPolder_same, (hf _).2, launches_modQueue]

/-- The same queue once the records linked to it are cancelled. -/
theorem dropLinks_spec {s : State} {world q : Nat} (hq : q < 8) (h : (queueOf s world q).links = []) :
    queueOf (dropLinks s world q) world q = queueOf s world q
      ∧ ((dropLinks s world q).polder world).launches = (s.polder world).launches
      ∧ (dropLinks s world q).slots = s.slots ∧ (dropLinks s world q).mem = s.mem ∧ (dropLinks s world q).cycle = s.cycle := by
  rw [dropLinks_none h]
  refine ⟨(queueOf_modQueue s world q _ hq).trans ?_, launches_modQueue .., rfl, rfl, rfl⟩
  rw [← h]

/-- A soft reset of a queue without launches (R291). -/
theorem softReset_idle {s : State} {world q : Nat} (hq : q < 8)
    (hl : (s.polder world).launches.filter (fun l => l.queue == q) = []) (hk : (queueOf s world q).links = []) :
    let t := softReset s world q
    t.slots = s.slots ∧ t.mem = s.mem
      ∧ queueOf t world q = { queueOf s world q with soft := false, stopped := false, read := (queueOf s world q).tail }
      ∧ (s.cycle + 1, Event.launchRecordRead world q) ∈ t.agenda := by
  let f (p : Polder) : Polder := { p with resetReg := p.resetReg ||| (1#8 <<< q) }
  have eq : softReset s world q = resetDone (dropLinks (resetBegun s world q f) world q) world q := by
    unfold softReset
    rw [hl]
    rfl
  obtain ⟨begunQ, begunL⟩ := resetBegun_spec s world q (f := f) hq fun _ => ⟨rfl, rfl⟩
  obtain ⟨dropQ, dropL, slots, mem, cycle⟩ := dropLinks_spec (s := resetBegun s world q f) hq (by rw [begunQ]; exact hk)
  obtain ⟨slots', mem', queue, due⟩ := resetDone_spec (s := dropLinks (resetBegun s world q f) world q) hq
    (by rw [dropL, begunL]; exact hl) (by rw [dropQ, begunQ])
  rw [eq]
  rw [cycle] at due
  exact ⟨slots'.trans slots, mem'.trans mem, by rw [queue, dropQ, begunQ], due⟩

/-- Where no launch is discarded, at most empty batches leave the deques. -/
theorem discardTasks_none (s : State) (world : Nat) :
    (discardTasks s world (fun _ => false)).polders = s.polders ∧ (discardTasks s world (fun _ => false)).cycle = s.cycle := by
  have nothing {α β : Type} (l : List α) : l.flatMap (fun _ => ([] : List β)) = [] := List.flatMap_eq_nil_iff.mpr fun _ _ => rfl
  have recs : (discardRecs s world (fun _ => false)).polders = s.polders
      ∧ (discardRecs s world (fun _ => false)).cycle = s.cycle := by
    simp only [discardRecs, ownTask, Bool.and_false, List.filter_false, List.map_nil, nothing, List.append_nil, List.foldl_nil,
      and_self]
  simp [discardTasks, discardEntries, discardSlots, ownTask, nothing, recs]

theorem queueOf_congr {s t : State} (h : t.polders = s.polders) (world q : Nat) :
    queueOf t world q = queueOf s world q ∧ (t.polder world).launches = (s.polder world).launches := by
  have same : t.polder world = s.polder world := by unfold State.polder; rw [h]
  unfold queueOf
  rw [same]
  exact ⟨rfl, rfl⟩

/-- A hard reset of a queue without launches (R292). -/
theorem hardReset_idle {s : State} {world q : Nat} (hq : q < 8)
    (hl : (s.polder world).launches.filter (fun l => l.queue == q) = []) (hk : (queueOf s world q).links = []) :
    let t := hardReset s world q
    queueOf t world q = { queueOf s world q with soft := false, stopped := false, read := (queueOf s world q).tail }
      ∧ (s.cycle + 1, Event.launchRecordRead world q) ∈ t.agenda := by
  let f (p : Polder) : Polder := { p with hresetReg := p.hresetReg ||| (1#8 <<< q) }
  let s2 := dropLinks (resetBegun s world q f) world q
  have none : (s.polder world).launches.filter (fun l => l.queue == q && l.state != .aborted) = [] := by
    rw [← List.filter_filter, List.filter_comm, hl]
    rfl
  have eq : hardReset s world q = resetDone (discardTasks s2 world (fun _ => false)) world q := by
    simp only [hardReset, none, List.foldl_nil, List.any_nil]
    rfl
  obtain ⟨begunQ, begunL⟩ := resetBegun_spec s world q (f := f) hq fun _ => ⟨rfl, rfl⟩
  obtain ⟨dropQ, dropL, -, -, cycle⟩ := dropLinks_spec (s := resetBegun s world q f) hq (by rw [begunQ]; exact hk)
  obtain ⟨polders, cycle'⟩ := discardTasks_none s2 world
  obtain ⟨queueEq, launches⟩ := queueOf_congr polders world q
  obtain ⟨-, -, queue, due⟩ := resetDone_spec (s := discardTasks s2 world (fun _ => false)) hq
    (by rw [launches, dropL, begunL]; exact hl) (by rw [queueEq, dropQ, begunQ])
  rw [eq]
  rw [cycle', cycle] at due
  exact ⟨by rw [queue, queueEq, dropQ, begunQ], due⟩

/-! ## The answer to a thief -/

/-- A stolen record of a live polder without its launch goes to the bottom of a deque with room, where no general slot is
free (R166, R286). -/
theorem stolen_queued {s : State} {c world : Nat} {r : TaskRec} (hl : launchOf s r.world r.launch = none)
    (hp : (s.polder r.world).state = .live) (he : emptyGeneral s c = none) (hd : (s.core c).deque.length < 64) :
    stolen s c world r
      = becameReady (s.modCore c (fun co => { co with deque := r :: co.deque })) c r.world := by
  have put : putRecord s c r false
      = some (becameReady (s.modCore c (fun co => { co with deque := r :: co.deque })) c r.world) := by
    simp [putRecord, makeRoom, hd]
  simp [stolen, hl, hp, he, put]

/-- The answer with a record to a thief without a tag: its request is over, and the record is taken (R286). -/
theorem stealReply_record {s : State} {c world : Nat} (r : TaskRec) (ht : tagOf s (dieOfCore c) (.thief c world) = none) :
    exec (.stealReplyArrival c ⟨world, some r⟩) s
      = .next (stolen ((modSteal s c world (fun x => { x with active := false })).next1 (.localTimeModeExit c)) c world r) := by
  show execStealReplyArrival c ⟨world, some r⟩ s = _
  simp only [execStealReplyArrival, ht]

/-- The last of a thief's eight requests on the last die has failed (R286, step 3). -/
theorem stealReply_failed {s : State} {c world : Nat} (ht : tagOf s (dieOfCore c) (.thief c world) = none)
    (ha : (stealOf (s.core c) world).active = true) (hm : maySteal s c world = true)
    (hd : (stealOf (s.core c) world).dieStep = 15) (hn : (stealOf (s.core c) world).tries = 7) :
    exec (.stealReplyArrival c ⟨world, none⟩) s = .next (stealFailed s c world) := by
  show execStealReplyArrival c ⟨world, none⟩ s = _
  simp only [execStealReplyArrival, ht, ha, hm, hd, hn, Bool.not_true, Bool.false_eq_true, if_false, Nat.lt_irrefl]
  exact congrArg Host.Outcome.next (stealFrom_last s c world 0 16)

/-- Settles O44: each event by the law of what it does. -/
theorem taskEvents : Obligations.TaskEvents := by
  intro s c num world q co st
  refine ⟨?number, ?noSlot, ?nothing, ?misfit, ?record, ?context, ?readback, ?full, ?ages, ?noSteal, ?steal, ?backoff, ?stolen,
    ?failed, ?high, ?reset⟩
  case number =>
    exact ⟨s.modCore c (fun co => { co with quarantined := co.quarantined.filter (· != num) }), rfl, by simp [co], by simp [co],
      fun j hj => State.core_modCore_other _ _ _ _ hj, rfl, rfl⟩
  case noSlot => exact fun hk => taskPop_none (by simp only [popTask, hk])
  case nothing => exact fun k hk hr hb => taskPop_none (by simp only [popTask, hk, nextItem_none hr hb])
  case misfit =>
    intro k r hk hc hr hb misfit hp hf
    let s1 := s.modCore c (fun co => { co with deque := co.deque.erase r })
    have core1 : s1.core c = { s.core c with deque := (s.core c).deque.erase r } := State.core_modCore_same ..
    have refused : shareFits (s1.core (coreOf k)) r.world = false := by
      rw [hc, core1, world_bottomOf hb]
      exact misfit
    have pop : popTask s c world = some (refuseInstall s1 k r) := by
      rw [popTask_record hk hr hb hp hf, installTask, refused]
      rfl
    obtain ⟨u, step, slots, cores, mem, -⟩ := taskPop_some pop
    refine ⟨u, step, ?_, slots, mem⟩
    have same : u.core c = s1.core c := by unfold State.core; rw [cores]; rfl
    rw [same, core1]
  case record =>
    intro k r n hk hc hr hb fits hn hp hf
    let s1 := s.modCore c (fun co => { co with deque := co.deque.erase r })
    have core1 : s1.core c = { s.core c with deque := (s.core c).deque.erase r } := State.core_modCore_same ..
    let s2 := invalidateMatching (s1.modCore c (fun co => { co with ctxNums := co.ctxNums ++ [n] })) (dieOf k) r.sig
    have pop : popTask s c world = some (startInstall s2 k (freshCtx s1 c n r)) := by
      rw [popTask_record hk hr hb hp hf, installTask_fits (n := n), hc]
      · rw [hc, core1, world_bottomOf hb]; exact fits
      · rw [hc, core1]; exact hn
    obtain ⟨u, step, slots, cores, -, agenda⟩ := taskPop_some pop
    have slot (j : Nat) : u.slot j = (startInstall s2 k (freshCtx s1 c n r)).slot j := by unfold State.slot; rw [slots]
    have coreU : u.core c = { s1.core c with ctxNums := (s1.core c).ctxNums ++ [n] } := by
      have same : u.core c = (s1.modCore c (fun co => { co with ctxNums := co.ctxNums ++ [n] })).core c := by
        unfold State.core; rw [cores]; rfl
      rw [same, State.core_modCore_same]
    obtain ⟨hnum, hpc, harg0, harg1, hprio, hworld, hx, htvec⟩ := freshCtx_fields s1 c n r
    refine ⟨u, step, by rw [coreU, core1], by rw [coreU, core1], ?_⟩
    rw [slot k, slot_startInstall_same]
    exact ⟨rfl, hnum, hpc, harg0, harg1, hprio, hworld, hx, htvec,
      fun j hj => (slot j).trans (slot_startInstall_other s2 k j _ hj), agenda _ (at_mem ..)⟩
  case context =>
    intro k e hk he
    obtain ⟨u, step, slots, cores, -, -⟩ := taskPop_some (popTask_context hk (nextItem_context he))
    have slot (j : Nat) : u.slot j = (installSwapped s k e).slot j := by unfold State.slot; rw [slots]
    obtain ⟨hstate, hsaved, hnum, hworld, hothers, hcores⟩ := installSwapped_spec s k e
    refine ⟨u, step, ?_⟩
    rw [slot k]
    exact ⟨hstate, hsaved, hnum, hworld, fun j hj => (slot j).trans (hothers j hj), by
      unfold State.core; rw [cores, hcores]; rfl⟩
  case readback =>
    intro b hb hd hw
    obtain ⟨comes, fails⟩ := dequeReadback_batch hb hd hw
    refine ⟨fun sound => ⟨_, comes sound, ?_, ?_, rfl, ?_⟩, fun failing => ⟨_, fails failing, rfl, rfl⟩⟩
    · simp [co]
    · simp [co]
    · exact next1_mem ..
  case full => exact dequeReadback_full world
  case ages =>
    obtain ⟨t, step, slots, mem, cores⟩ := ageingRaise_spec s c
    have coreT (j : Nat) : t.core j = (s.modCore c (fun co => { co with
        deque := co.deque.map (ageRec s), spilled := co.spilled.map (fun b => b.map (ageRec s)) })).core j := by
      unfold State.core; rw [cores]
    exact ⟨t, step, slots, mem, congrArg Core.deque ((coreT c).trans (State.core_modCore_same ..)),
      fun j hj => (coreT j).trans (State.core_modCore_other _ _ _ _ hj)⟩
  case noSteal =>
    intro h
    show execStealRequest c world s = _
    unfold execStealRequest
    exact if_pos h
  case steal =>
    intro ha hb hm ht hc
    obtain ⟨target, mem, sent⟩ := stealFrom_own 16 ht hc
    let s1 := (modSteal s c world (fun x => { x with active := true, dieStep := 0, tries := 0, backoff := none })).tick
    obtain ⟨due, hdue, hin⟩ := sendActive_mem s1 target (stealMsg s c world)
    have idle : ¬ (st.active = true ∨ st.backoff.isSome = true ∨ maySteal s c world = false) := by simp [ha, hb, hm]
    have step : exec (.stealRequest c world) s = .next (sendActive s1 target (stealMsg s c world)) := by
      rw [← sent]
      exact if_neg idle
    refine ⟨_, due, target, _, step, mem, hdue, hin, rfl, rfl, rfl, ?_, fun w hw => ?_, rfl⟩
    · rw [core_sendActive, State.core_tick, stealOf_modSteal_same]
    · rw [core_sendActive, State.core_tick, stealOf_modSteal_other _ _ _ _ _ hw]
  case backoff =>
    intro n hb hn
    refine ⟨modSteal s c world (fun x => { x with backoff := none }), ?_, stealOf_modSteal_same .., rfl,
      fun w hw => stealOf_modSteal_other s c world w _ hw⟩
    show execStealBackoffEnd c world s = _
    unfold execStealBackoffEnd
    rw [show (stealOf (s.core c) world).backoff = some n from hb]
    exact congrArg Host.Outcome.next (if_pos hn)
  case stolen =>
    intro r ht hl hp he hd
    let s1 := (modSteal s c world (fun x => { x with active := false })).next1 (.localTimeModeExit c)
    have core1 : s1.core c = setSteal co world { st with active := false } :=
      State.core_modCore_same s c (fun co => setSteal co world { stealOf co world with active := false })
    have queued : stolen s1 c world r = becameReady (s1.modCore c (fun co => { co with deque := r :: co.deque })) c r.world :=
      stolen_queued hl hp he (by rw [core1]; exact hd)
    have coreT : ((stolen s1 c world r).core c) = { s1.core c with deque := r :: (s1.core c).deque } := by
      rw [queued, core_becameReady, State.core_modCore_same]
    refine ⟨_, stealReply_record r ht, ?_, ?_, ?_⟩
    · rw [coreT, core1]; rfl
    · rw [coreT, core1]; simp [stealOf, setSteal]
    · rw [queued]; rfl
  case failed =>
    intro ht ha hm hd hn
    refine ⟨_, stealReply_failed ht ha hm hd hn, ?_, ?_, at_mem .., rfl⟩
    · rw [stealOf_stealFailed]
    · rw [stealOf_stealFailed]
  case high =>
    intro hq
    exact ⟨if_pos hq, if_pos hq⟩
  case reset =>
    intro hq hl hk
    exact ⟨⟨_, if_neg (Nat.not_le.mpr hq), softReset_idle hq hl hk⟩, ⟨_, if_neg (Nat.not_le.mpr hq), hardReset_idle hq hl hk⟩⟩

end Sys2Proof.Machine

/-! PROOFS of O52. Which operations leave the slots as they are, what the end of a launch may install, and then the timers
and the steward's choices (R52, R65, R74, R114, R116, R121 to R124, R167, R268, R307, R347). -/

namespace Sys2Proof.Machine

/-! ## Operations that leave every slot as it is -/

@[simp] theorem slots_updateCopies (s : State) (die module pa : Nat) (bs : List Byte) :
    (updateCopies s die module pa bs).slots = s.slots := by
  unfold updateCopies
  dsimp only
  split <;> rfl

@[simp] theorem slots_hitWatchesBut (s : State) (self : Option Nat) (lines : List Nat) :
    (hitWatchesBut s self lines).slots = s.slots := by
  unfold hitWatchesBut
  dsimp only
  split <;> rfl

theorem slots_homeWrite {s t : State} {self : Option Nat} {pa : Nat} {bs : List Byte} (h : homeWrite s self pa bs = .ok t) :
    t.slots = s.slots := by
  unfold homeWrite at h
  dsimp only at h
  split at h
  · rename_i u fetched
    cases h
    obtain ⟨slots, -⟩ := (brings_fetchLines fetched).fields
    rw [slots_hitWatchesBut]
    split <;> split <;> exact slots
  · cases h

theorem slots_devWrite {s t : State} {cl world va : Nat} {bs : List Byte} (h : devWrite s cl world va bs = .ok t) :
    t.slots = s.slots := by
  unfold devWrite at h
  split at h
  · cases h
  split at h
  · cases h
  · rename_i written
    cases h
    rw [slots_updateCopies]
    exact slots_homeWrite written

theorem slots_devRelease {s t : State} {cl world va : Nat} {bs : List Byte} (h : devRelease s cl world va bs = .ok t) :
    t.slots = s.slots := by
  unfold devRelease at h
  split at h
  · rename_i written
    cases h
    exact (slots_devWrite written : _ = s.slots)
  · cases h
  · cases h

@[simp] theorem slots_writeState (s : State) (world q addr : Nat) (st : LaunchState) :
    (writeState s world q addr st).slots = s.slots := by
  unfold writeState
  split
  · rename_i written
    exact slots_devRelease written
  · rfl

/-- A step that keeps the slots, over a list. -/
theorem slots_foldl {α : Type} {f : State → α → State} (hf : ∀ s a, (f s a).slots = s.slots) (l : List α) (s : State) :
    (l.foldl f s).slots = s.slots := by
  induction l generalizing s with
  | nil => rfl
  | cons a l ih => exact (ih _).trans (hf s a)

@[simp] theorem slots_devHeard (s : State) (cl world va n : Nat) : (devHeard s cl world va n).slots = s.slots := by
  refine slots_foldl (fun t i => ?_) _ s
  dsimp only
  split
  · obtain ⟨slots, -⟩ := (brings_hintLeaf t cl world (va / 64 * 64 + 64 * i)).fields
    exact slots
  · rfl

@[simp] theorem slots_launchReport (s : State) (world q addr code : Nat) :
    (launchReport s world q addr code).slots = s.slots := rfl

@[simp] theorem slots_resetDone (s : State) (world q : Nat) : (resetDone s world q).slots = s.slots := by
  unfold resetDone
  dsimp only
  split <;> rfl

@[simp] theorem slots_wakeQueues (s : State) (world : Nat) : (wakeQueues s world).slots = s.slots := by
  refine slots_foldl (fun t q => ?_) _ s
  rfl

@[simp] theorem slots_closeLaunch (s : State) (world : Nat) (l : Launch) (st : LaunchState) :
    (closeLaunch s world l st).slots = s.slots := by
  unfold closeLaunch
  rw [slots_resetDone, slots_wakeQueues, slots_writeState]
  rfl

@[simp] theorem slots_cancelAll (s : State) (world q fuel : Nat) (addrs : List Nat) :
    (cancelAll s world q fuel addrs).slots = s.slots := by
  induction fuel generalizing s addrs with
  | zero => rfl
  | succ n ih =>
    cases addrs with
    | nil => rfl
    | cons a rest =>
      unfold cancelAll
      split
      · exact ih ..
      split
      · split
        · rw [ih, slots_writeState]; rfl
        · exact ih ..
      · split
        · exact ih ..
        · split
          · dsimp only
            split
            · rw [ih, slots_writeState]
            · rw [ih, slots_writeState]
          · exact ih ..

@[simp] theorem slots_cancelChosen (s : State) (world q addr : Nat) : (cancelChosen s world q addr).slots = s.slots := by
  unfold cancelChosen
  split
  · rfl
  split
  · exact slots_cancelAll ..
  · rw [slots_cancelAll, slots_writeState]

@[simp] theorem slots_endMember (s : State) (world h i : Nat) : (endMember s world h i).slots = s.slots := by
  unfold endMember
  split
  · rfl
  · refine slots_foldl (fun t g => ?_) _ s
    rfl

@[simp] theorem slots_toPort (s : State) (port : Nat) (p : Packet) : (toPort s port p).slots = s.slots := by
  unfold toPort
  split
  · dsimp only
    split <;> rfl
  · rfl

theorem slots_sendPacket (s : State) (die : Nat) (p : Packet) : ((sendPacket s die p).getD s).slots = s.slots := by
  unfold sendPacket
  split
  · exact slots_toPort ..
  · rfl

@[simp] theorem slots_sendTide (s : State) (c : Nat) (oc : OutChan) : (sendTide s c oc).slots = s.slots := by
  unfold sendTide
  dsimp only
  split
  · split <;> rfl
  · exact slots_sendPacket ..

@[simp] theorem slots_sendTides (c : Nat) (s : State) (chans : List (Option OutChan)) :
    (sendTides c s chans).slots = s.slots := by
  induction chans generalizing s with
  | nil => rfl
  | cons o r ih =>
    cases o with
    | none => exact ih s
    | some oc => exact (ih _).trans (slots_sendTide s c oc)

/-- A core that publishes its clock leaves the slots as they are (R403, R414). -/
@[simp] theorem slots_ltThaw (s : State) (c : Nat) : (ltThaw s c).slots = s.slots := by
  unfold ltThaw ltPublish
  split
  · split
    · rfl
    · exact slots_sendTides ..
  · rfl

theorem slot_of_slots {s t : State} (h : t.slots = s.slots) (j : Nat) : t.slot j = s.slot j := by
  unfold State.slot
  rw [h]

@[simp] theorem slot_ltThaw (s : State) (c j : Nat) : (ltThaw s c).slot j = s.slot j := slot_of_slots (slots_ltThaw s c) j

/-! ## Operations that leave an EMPTY general slot EMPTY -/

/-- A slot that is EMPTY is left as it is. -/
structure KeepsEmpty (k : Nat) (s t : State) : Prop where
  slot : (s.slot k).state = .empty → t.slot k = s.slot k

namespace KeepsEmpty

variable {k : Nat}

theorem of_slots {s t : State} (h : t.slots = s.slots) : KeepsEmpty k s t := ⟨fun _ => slot_of_slots h k⟩

theorem refl (s : State) : KeepsEmpty k s s := ⟨fun _ => rfl⟩

theorem trans {s t u : State} (h : KeepsEmpty k s t) (h' : KeepsEmpty k t u) : KeepsEmpty k s u :=
  ⟨fun empty => (h'.slot ((congrArg Slot.state (h.slot empty)).trans empty)).trans (h.slot empty)⟩

theorem foldl {α : Type} {f : State → α → State} (hf : ∀ s a, KeepsEmpty k s (f s a)) (l : List α) (s : State) :
    KeepsEmpty k s (l.foldl f s) := by
  induction l generalizing s with
  | nil => exact refl s
  | cons a l ih => exact (hf s a).trans (ih _)

end KeepsEmpty

/-- A slot in which a context is found holds it. -/
theorem holds_of_findSlot {s : State} {num j k n : Nat} (h : findSlot s num k n = some j) : (s.slot j).state.holds j = true := by
  induction n generalizing k with
  | zero => cases h
  | succ n ih =>
    unfold findSlot at h
    split at h
    · rename_i held
      cases h
      exact held.1
    · exact ih h

/-- An EMPTY slot is not the one in which a context is found. -/
theorem ne_of_ctxSlot {s : State} {c num j k : Nat} (h : ctxSlot s c num = some j) (empty : (s.slot k).state = .empty) : k ≠ j := by
  rintro rfl
  have held := holds_of_findSlot h
  rw [empty] at held
  simp [SlotState.holds] at held

theorem keepsEmpty_modCtx (k : Nat) (s : State) (c num : Nat) (f : Slot → Slot) : KeepsEmpty k s (s.modCtx c num f) := by
  refine ⟨fun empty => ?_⟩
  unfold State.modCtx
  split
  · rename_i found
    exact State.slot_modSlot_other _ _ _ _ (ne_of_ctxSlot found empty)
  · rfl

theorem slots_modSaved (s : State) (c num : Nat) (f : Slot → Slot) : (s.modSaved c num f).slots = s.slots := by
  unfold State.modSaved
  split
  · split
    · rfl
    · dsimp only
      split <;> rfl
  · rfl

theorem keepsEmpty_finishCtx (k : Nat) (s : State) (c num : Nat) (f : Slot → Slot) : KeepsEmpty k s (finishCtx s c num f) := by
  refine ⟨fun empty => ?_⟩
  unfold finishCtx
  split
  · rename_i found
    have other := ne_of_ctxSlot found empty
    exact (slot_finishBundle_other _ _ _ other).trans (State.slot_modSlot_other _ _ _ _ other)
  split
  · split
    · exact slot_of_slots rfl k
    · exact slot_of_slots (slots_modSaved ..) k
  · exact slot_of_slots rfl k

theorem keepsEmpty_acquireCtx (k : Nat) (s : State) (c num : Nat) (sig : Sig) : KeepsEmpty k s (acquireCtx s c num sig) :=
  (keepsEmpty_modCtx k s c num (·.addAcc sig)).trans (.of_slots rfl)

theorem keepsEmpty_deliverLds (k : Nat) (s : State) (c : Nat) (w : Waiter) (bs : List Byte) :
    KeepsEmpty k s (deliverLds s c w bs) := by
  unfold deliverLds
  split
  · split
    · split
      · dsimp only
        split
        · exact (keepsEmpty_acquireCtx ..).trans (keepsEmpty_finishCtx ..)
        · exact keepsEmpty_finishCtx ..
      · exact .refl s
    · exact .of_slots rfl
  · exact .of_slots rfl

theorem keepsEmpty_modCore (k : Nat) (s : State) (c : Nat) (f : Core → Core) : KeepsEmpty k s (s.modCore c f) := .of_slots rfl

theorem keepsEmpty_retryLds (k : Nat) (s : State) (c n : Nat) : KeepsEmpty k s (retryLds s c n) := by
  induction n generalizing s with
  | zero => exact .refl s
  | succ n ih =>
    unfold retryLds
    split
    · exact .refl s
    · dsimp only
      split
      · exact (((keepsEmpty_modCore ..).trans (keepsEmpty_modCore ..)).trans (keepsEmpty_deliverLds ..)).trans (ih _)
      · exact (keepsEmpty_modCore ..).trans (keepsEmpty_modCore ..)

theorem keepsEmpty_dropWaiters (k : Nat) (s : State) (c num : Nat) : KeepsEmpty k s (dropWaiters s c num) := by
  unfold dropWaiters
  dsimp only
  exact (keepsEmpty_modCore ..).trans (.foldl (fun t _ => keepsEmpty_retryLds k t c _) _ _)

/-- The end of a context's waits and its number leave an EMPTY slot EMPTY (R61, R109). -/
theorem keepsEmpty_freeContext (k : Nat) (s : State) (c num : Nat) : KeepsEmpty k s (freeContext s c num) := by
  refine (keepsEmpty_dropWaiters k s c num).trans (.of_slots ?_)
  simp only [freeContext, dropPins, forgetWaits, State.slots_next1, State.slots_at_, State.slots_modCore,
    State.slots_modCluster]

/-! ## The end of a launch: urgent tasks go to slots 7 alone -/

theorem slot_installTask_other {s t : State} {j k : Nat} {r : TaskRec} (h : installTask s k r = some t) (hj : j ≠ k) :
    t.slot j = s.slot j := by
  unfold installTask at h
  split at h
  · unfold putTask at h
    dsimp only at h
    split at h
    · cases h
    · cases h
      exact slot_startInstall_other _ _ _ _ hj
  · cases h
    rfl

/-- An urgent task goes to a slot 7 (R288). -/
theorem slot_placeUrgent {k : Nat} (hk : k % 8 ≠ 7) (s : State) (r : TaskRec) (cores : List Nat) (die : Nat) :
    (placeUrgent s r cores die).slot k = s.slot k := by
  unfold placeUrgent
  dsimp only
  split
  · rename_i c found
    cases installed : installTask s (c * 8 + 7) r with
    | none => rfl
    | some t => exact slot_installTask_other installed (by omega)
  · rfl

theorem slot_placeUrgents {k : Nat} (hk : k % 8 ≠ 7) (s : State) (world h i n : Nat) :
    (placeUrgents s world h i n).slot k = s.slot k := by
  induction n generalizing s i with
  | zero => rfl
  | succ n ih =>
    unfold placeUrgents
    split
    · rfl
    · exact (ih _ _).trans (slot_placeUrgent hk ..)

theorem slot_setEligible {k : Nat} (hk : k % 8 ≠ 7) (s : State) (world h : Nat) :
    (setEligible s world h).slot k = s.slot k := by
  unfold setEligible
  dsimp only
  split
  · split
    · exact (slot_placeUrgents hk ..).trans (slot_of_slots (slots_writeState ..) k)
    · rfl
  · rfl

theorem slot_makeEligible {k : Nat} (hk : k % 8 ≠ 7) (s : State) (world q addr : Nat) (loopOf : Option Nat) :
    (makeEligible s world q addr loopOf).slot k = s.slot k := by
  unfold makeEligible
  split
  · rfl
  split
  · exact slot_of_slots (slots_cancelChosen ..) k
  split
  · split
    · rfl
    · exact slot_setEligible hk ..
  · have heard (a : Nat) : (devHeard s (leadCluster s world q) world a 64).slot k = s.slot k := slot_of_slots (slots_devHeard ..) k
    dsimp only
    split
    · exact (slot_of_slots (slots_launchReport ..) k).trans (heard addr)
    · refine (slot_of_slots (slots_cancelAll ..) k).trans ((slot_of_slots (slots_launchReport ..) k).trans ?_)
      exact (slot_of_slots (slots_writeState ..) k).trans (heard addr)
    · split
      · rename_i entered
        obtain ⟨h, -, eq⟩ := Option.map_eq_some_iff.mp entered
        cases eq
        exact (slot_setEligible hk ..).trans (heard addr)
      · exact heard addr

/-- The record of a successor with one wait less at its home (R290). -/
def loweredByte (s : State) (world q addr : Nat) (ws : List Word) : State :=
  let w := bits (ws.getD 1 0).toNat 47 40
  if w = 0 then s
  else match devRelease s (leadCluster s world q) world (addr + 13) [BitVec.ofNat 8 (w - 1)] with | .ok t => t | .error _ => s

/-- The accepted record with one wait less. -/
def loweredLaunch (s : State) (world addr : Nat) (ws : List Word) : State :=
  match (s.polder world).launches.find? (·.addr == addr) with
  | some l => modLaunch s world l.handle (fun l => { l with waits := bits (ws.getD 1 0).toNat 47 40 - 1 })
  | none => s

theorem slots_loweredByte (s : State) (world q addr : Nat) (ws : List Word) :
    (loweredByte s world q addr ws).slots = s.slots := by
  unfold loweredByte
  dsimp only
  split
  · rfl
  split
  · rename_i written
    exact slots_devRelease written
  · rfl

theorem slots_loweredLaunch (s : State) (world addr : Nat) (ws : List Word) :
    (loweredLaunch s world addr ws).slots = s.slots := by
  unfold loweredLaunch
  split <;> rfl

theorem slot_lowerWaits {k : Nat} (hk : k % 8 ≠ 7) (s : State) (world q addr : Nat) :
    (lowerWaits s world q addr).slot k = s.slot k := by
  unfold lowerWaits
  split
  · rfl
  split
  · rfl
  · rename_i ws _
    have lowered : (loweredLaunch (loweredByte s world q addr ws) world addr ws).slot k = s.slot k :=
      slot_of_slots ((slots_loweredLaunch ..).trans (slots_loweredByte ..)) k
    show (if bits (ws.getD 1 0).toNat 47 40 ≤ 1 then _ else _ : State).slot k = _
    split
    · exact (slot_makeEligible hk ..).trans lowered
    · exact lowered

/-- The end of a task of a launch leaves every slot but slots 7 (R288, R290, R331). -/
theorem slot_taskGone {k : Nat} (hk : k % 8 ≠ 7) (s : State) (world h : Nat) : (taskGone s world h).slot k = s.slot k := by
  suffices done : ∀ t : State, (checkDone t world h).slot k = t.slot k from (done _).trans rfl
  intro t
  unfold checkDone
  split
  · split
    · dsimp only
      have closed := slot_of_slots (slots_closeLaunch t world ‹Launch› .done) k
      split
      · exact closed
      split
      · exact (slot_of_slots (slots_cancelAll ..) k).trans closed
      · exact (slot_lowerWaits hk ..).trans closed
    split
    · refine (slot_of_slots (slots_resetDone ..) k).trans ?_
      split
      · exact (slot_of_slots (slots_wakeQueues ..) k).trans rfl
      · rfl
    · rfl
  · rfl


/-- A slot whose context has ended is EMPTY with every register at its reset value (R61, R114). -/
theorem slot_releaseSlot {k : Nat} (hk : k % 8 ≠ 7) (s : State) (ends : Bool) : (releaseSlot s k ends).slot k = Slot.reset := by
  let s1 := (s.toState k .empty).setSlot k Slot.reset
  let s2 := freeContext s1 (coreOf k) (s.slot k).ctxNum
  have reset : s1.slot k = Slot.reset := State.slot_setSlot_same ..
  have freed : s2.slot k = Slot.reset := by
    rw [(keepsEmpty_freeContext k s1 (coreOf k) (s.slot k).ctxNum).slot (by rw [reset]; rfl), reset]
  have ended (p : Prop) [Decidable p] (world h i : Nat) : (if p then endMember s2 world h i else s2).slot k = Slot.reset := by
    split
    · rw [slot_of_slots (slots_endMember ..) k, freed]
    · exact freed
  unfold releaseSlot
  dsimp only
  split
  · exact (slot_taskGone hk ..).trans (ended ..)
  · exact ended ..

/-! ## Timers -/

/-- A long-latency result with nothing held back is written, and the slot is READY after its bundle (R65, R74). -/
theorem long_commits {s : State} {k r : Nat} {w : Word} (hl : (s.slot k).longUntil ≤ s.cycle)
    (hw : (s.slot k).wait = .long (some (r, w))) (hh : (s.slot k).held = Held.none) (hr : (s.slot k).streamsRead = 0)
    (hs : (s.slot k).stopPending = false) :
    let t := finishBundle (s.modSlot k (·.putX (regOf r) w)) k
    (t.slot k).state = .ready ∧ (t.slot k).pc = (s.slot k).npc
      ∧ (t.slot k).getX (regOf r) = ((s.slot k).putX (regOf r) w).getX (regOf r) ∧ (t.slot k).wait = .none
      ∧ ∀ j, j ≠ k → t.slot j = s.slot j := by
  intro t
  have written : (s.modSlot k (·.putX (regOf r) w)).slot k = (s.slot k).putX (regOf r) w := State.slot_modSlot_same ..
  have slotT : t.slot k = _ := slot_finishBundle_same (s.modSlot k (·.putX (regOf r) w)) k (by rw [written]; simpa using hl)
    (by rw [written]; simpa using hr) (by rw [written]; simpa using hs) (by rw [written]; simpa using hh)
  rw [written, Slot.wait_putX, hw, if_neg (fun h => Wait.noConfusion h)] at slotT
  rw [slotT]
  exact ⟨by simp, by simp, by simp [Slot.getX], by simp,
    fun j hj => (slot_finishBundle_other _ _ _ hj).trans (State.slot_modSlot_other _ _ _ _ hj)⟩

/-- The banks of every slot age, and no register changes (R268). -/
theorem signatureBankAge_spec (s : State) (k core : Nat) : ∃ t, exec .signatureBankAge s = .next t
    ∧ (t.slot k).accPrev = (s.slot k).accCur ∧ (NMap.find s.slots k ≠ none → (t.slot k).accCur = 0)
    ∧ (t.slot k).x = (s.slot k).x ∧ (t.slot k).state = (s.slot k).state ∧ t.mem = s.mem
    ∧ (t.core core).ls = (s.core core).ls := by
  refine ⟨_, rfl, ?_⟩
  simp only [State.slot, State.core, NMap.find_map s.slots Slot.ageAcc,
    NMap.find_map s.cores (fun co => { co with pubSig := agePubs co.pubSig })]
  have idle : (Slot.idle k).accPrev = (Slot.idle k).accCur := by
    unfold Slot.idle
    split <;> rfl
  cases NMap.find s.slots k <;> cases NMap.find s.cores core <;> simp [Slot.ageAcc, idle]

theorem cellWrite_append (xs ys : List Byte) (m : List Host.Cell) (a : Nat) :
    cellWrite m a (xs ++ ys) = cellWrite (cellWrite m a xs) (a + xs.length) ys := by
  induction xs generalizing m a with
  | nil => rfl
  | cons x xs ih => simp [cellWrite, ih, Nat.add_assoc, Nat.add_comm 1]

theorem length_wordBytes (ws : List Word) : (wordBytes ws).length = 8 * ws.length := by
  induction ws with
  | nil => rfl
  | cons w ws ih =>
    rw [wordBytes, List.flatMap_cons, List.length_append, length_toLe]
    rw [wordBytes] at ih
    rw [ih, List.length_cons]
    omega

/-- The first dword of words that are written. -/
theorem cellRead_wordBytes_head (w : Word) (ws : List Word) (m : List Host.Cell) (a : Nat) :
    cellRead (cellWrite m a (wordBytes (w :: ws))) a 8 = toLe w.toNat 8 := by
  rw [wordBytes, List.flatMap_cons, cellWrite_append, cellRead_cellWrite_outside _ _ _ _ _ (by rw [length_toLe]; omega)]
  have same := cellRead_cellWrite_same (toLe w.toNat 8) m a
  rwa [length_toLe] at same

/-- Of a number the lower eight bytes are written. -/
theorem toLe_ofNat (n : Nat) : toLe (BitVec.ofNat 64 n).toNat 8 = toLe n 8 := by
  refine List.ext_getElem (by rw [length_toLe, length_toLe]) fun i h _ => ?_
  rw [length_toLe] at h
  rw [getElem_toLe _ _ _ h, getElem_toLe _ _ _ h]
  apply BitVec.eq_of_toNat_eq
  have split : (2 : Nat) ^ 64 = 256 ^ i * 256 ^ (8 - i) := by rw [← Nat.pow_add, Nat.add_sub_cancel' (by omega)]; rfl
  have whole : 256 ^ (8 - i) = 256 * 256 ^ (7 - i) := by rw [← Nat.pow_succ']; congr 1; omega
  rw [BitVec.toNat_ofNat, BitVec.toNat_ofNat, BitVec.toNat_ofNat, split, Nat.mod_mul_right_div_self, whole]
  exact Nat.mod_mul_right_mod ..

/-- The header of a trace buffer in world 0's memory (R307). -/
theorem traceHeader_spec {s : State} {core : Nat}
    (h : NMap.find s.granules (traceBase (s.core core).trace / 33554432) = some 0) :
    let t := traceHeader s core
    t.slots = s.slots ∧ t.cores = s.cores
      ∧ cellRead t.mem (traceBase (s.core core).trace) 8 = toLe (s.core core).traceNext 8
      ∧ ∀ a, a < traceBase (s.core core).trace ∨ traceBase (s.core core).trace + 128 ≤ a → cellGet t.mem a = cellGet s.mem a := by
  intro t
  have written : ∃ ws : List Word, ws.length = 15 ∧ t = s.pokeMem (traceBase (s.core core).trace)
      (wordBytes (BitVec.ofNat 64 (s.core core).traceNext :: ws)) := ⟨_, rfl, if_pos h⟩
  obtain ⟨ws, len, eq⟩ := written
  rw [eq]
  refine ⟨rfl, rfl, ?_, fun a ha => cellGet_cellWrite_outside _ _ _ _ ?_⟩
  · exact (cellRead_wordBytes_head ..).trans (toLe_ofNat _)
  · rw [length_wordBytes, List.length_cons, len]
    exact ha

/-! ## Notices and absent registers -/

theorem noticeTaken_ready {s : State} {k : Nat} (hs : (s.slot k).state = .ready) (hi : (s.slot k).inh = false) :
    (∀ v, (s.slot k).alarm = some v → exec (.noticeTaken k) s
      = .next (takeTrapAt (s.modSlot k (fun x => { x with alarm := none })) k 0x113 v))
    ∧ (∀ v, (s.slot k).alarm = none → (s.slot k).undelivered = some v → exec (.noticeTaken k) s
      = .next (takeTrapAt (s.modSlot k (fun x => { x with undelivered := none })) k 0x114 v))
    ∧ ((s.slot k).alarm = none → (s.slot k).undelivered = none → exec (.noticeTaken k) s = .next s) := by
  have goes : ¬ ((s.slot k).state ≠ .ready ∨ (s.slot k).inh = true) := by simp [hs, hi]
  refine ⟨fun v ha => ?_, fun v ha hu => ?_, fun ha hu => ?_⟩
  · show execNoticeTaken k s = _
    simp only [execNoticeTaken, if_neg goes, ha]
  · show execNoticeTaken k s = _
    simp only [execNoticeTaken, if_neg goes, ha, hu]
  · show execNoticeTaken k s = _
    simp only [execNoticeTaken, if_neg goes, ha, hu]

theorem noticeTaken_idle {s : State} {k : Nat}
    (h : (s.slot k).inh = true ∨ (s.slot k).state ≠ .ready ∨ ((s.slot k).alarm = none ∧ (s.slot k).undelivered = none)) :
    exec (.noticeTaken k) s = .next s := by
  by_cases blocked : (s.slot k).state ≠ .ready ∨ (s.slot k).inh = true
  · exact if_pos blocked
  · obtain ⟨hs, hi⟩ : (s.slot k).state = .ready ∧ (s.slot k).inh = false := by simpa using blocked
    rcases h with inh | state | ⟨ha, hu⟩
    · rw [hi] at inh; cases inh
    · exact absurd hs state
    · exact (noticeTaken_ready hs hi).2.2 ha hu

theorem misses_of_butTrace {a b : Core} (h : a.butTrace b) : b.misses = a.misses := by
  unfold Core.butTrace at h
  rw [h]

/-- A read of absent registers waits eight cycles for each (R121). -/
theorem registerMiss_spec {s : State} {k : Nat} (hm : missing s k ≠ []) :
    ∃ t, exec (.registerMissMicroTrap k) s = .next t ∧ (t.slot k).state = .waitMem
      ∧ (t.slot k).wait = .regMiss (missing s k) ∧ (t.slot k).x = (s.slot k).x ∧ (∀ j, j ≠ k → t.slot j = s.slot j)
      ∧ (t.core (coreOf k)).misses = (s.core (coreOf k)).misses + 1
      ∧ (hasEntry (coreOf k) (s.slot k).ctxNum (s.cluster (clusterOf k)).spilled = false →
        (s.cycle + 8 * (missing s k).length + 1, Event.registerFetchDone k) ∈ t.agenda) := by
  let s0 := s.modCore (coreOf k) (fun co => { co with misses := co.misses + 1 })
  let s1 := park s0 k .waitMem (.regMiss (missing s k))
  have counted : (s1.core (coreOf k)).misses = (s.core (coreOf k)).misses + 1 :=
    (misses_of_butTrace (core_park s0 k .waitMem (.regMiss (missing s k)) (coreOf k))).trans
      (congrArg Core.misses (State.core_modCore_same ..))
  have slot1 : s1.slot k = ({ s.slot k with wait := .regMiss (missing s k) } : Slot).enter s.cycle .waitMem :=
    slot_park_same s0 k ..
  have others (j : Nat) (hj : j ≠ k) : s1.slot j = s.slot j := slot_park_other s0 k j _ _ hj
  have branch : exec (.registerMissMicroTrap k) s =
      if hasEntry (coreOf k) (s.slot k).ctxNum (s.cluster (clusterOf k)).spilled then
        .next (s1.later Config.latSpill (.spillReadback (coreOf k) (s.slot k).ctxNum))
      else .next (s1.at_ (s.cycle + 8 * (missing s k).length + 1) (.registerFetchDone k)) :=
    if_neg (by simpa using hm)
  by_cases spilled : hasEntry (coreOf k) (s.slot k).ctxNum (s.cluster (clusterOf k)).spilled = true
  · refine ⟨_, branch.trans (if_pos spilled), ?_⟩
    simp only [State.slot_later, State.core_later, slot1]
    exact ⟨by simp, by simp, by simp, others, counted, fun here => absurd spilled (by rw [here]; decide)⟩
  · refine ⟨_, branch.trans (if_neg spilled), ?_⟩
    simp only [State.slot_at_, State.core_at_, slot1]
    exact ⟨by simp, by simp, by simp, others, counted, fun _ => at_mem ..⟩

/-- Bits that are set one after another stay set. -/
theorem getLsbD_foldl_or (rs : List Nat) (m : BitVec 64) :
    (∀ i, m.getLsbD i = true → (rs.foldl (fun m n => m ||| (1#64 <<< n)) m).getLsbD i = true)
    ∧ ∀ i ∈ rs, i < 64 → (rs.foldl (fun m n => m ||| (1#64 <<< n)) m).getLsbD i = true := by
  induction rs generalizing m with
  | nil => exact ⟨fun _ h => h, fun _ h => absurd h List.not_mem_nil⟩
  | cons n rs ih =>
    obtain ⟨keeps, sets⟩ := ih (m ||| (1#64 <<< n))
    refine ⟨fun i h => keeps i (by simp [h]), fun i hi low => ?_⟩
    rcases List.mem_cons.mp hi with rfl | later
    · exact keeps i (by simp [low])
    · exact sets i later low

/-- The registers have come: the slot is READY at its bundle, and they are present (R121). -/
theorem registerFetchDone_spec {s : State} {k : Nat} {rs : List Nat} (hp : s.poison = [])
    (hw : (s.slot k).wait = .regMiss rs) (hs : (s.slot k).stopPending = false) :
    ∃ t, exec (.registerFetchDone k) s = .next t ∧ (t.slot k).state = .ready ∧ (t.slot k).pc = (s.slot k).pc
      ∧ (∀ i ∈ rs, i < 64 → (t.slot k).present.getLsbD i = true)
      ∧ (∀ i, (s.slot k).present.getLsbD i = true → (t.slot k).present.getLsbD i = true)
      ∧ ∀ j, j ≠ k → t.slot j = s.slot j := by
  have marked : (s.modSlot k (markPresent rs)).slot k = markPresent rs (s.slot k) := State.slot_modSlot_same ..
  have slotT := slot_toReady_same (s.modSlot k (markPresent rs)) k (by rw [marked]; exact hs)
  rw [marked] at slotT
  obtain ⟨keeps, sets⟩ := getLsbD_foldl_or rs (s.slot k).present
  refine ⟨(s.modSlot k (markPresent rs)).toReady k, ?_, ?_⟩
  · show execRegisterFetchDone k s = _
    simp only [execRegisterFetchDone, hw, hp, List.contains_nil, Bool.false_eq_true, if_false]
  · rw [slotT]
    exact ⟨by simp, by simp [markPresent], by simpa [markPresent] using sets, by simpa [markPresent] using keeps,
      fun j hj => (slot_toReady_other _ _ _ hj).trans (State.slot_modSlot_other _ _ _ _ hj)⟩

/-! ## The watchdog -/

theorem mem_hatIns (r : HatRec) (l : List HatRec) : r ∈ hatIns r l := by
  induction l with
  | nil => exact List.mem_singleton_self r
  | cons x xs ih =>
    unfold hatIns
    split
    · exact List.mem_cons_self
    · exact List.mem_cons_of_mem _ ih

/-- A record that is posted stands in the hatbox of its die (R368). -/
theorem record_mem_hatPost (s : State) (die kind code ep : Nat) (w d : Word) :
    HatRec.mk s.cycle kind code ep w d ∈ ((hatPost s die kind code ep w d).die die).hatbox := by
  simp only [hatPost, State.die_modDie_same]
  exact mem_hatIns _ _

/-- A wait of a watched state beyond the polder's limit is reported once (R123). -/
theorem watchdogExpiry_posts {s : State} {k : Nat} (hw : watched (s.slot k).state = true)
    (hp : (s.slot k).wdogPosted = false)
    (ht : (s.polder (s.slot k).world).wdog.toNat ≤ s.cycle - (s.slot k).waitSince) (hc : copyHang s k = false) :
    ∃ t, exec (.watchdogExpiry k) s = .next t ∧ t.slot k = { s.slot k with wdogPosted := true }
      ∧ (∀ j, j ≠ k → t.slot j = s.slot j) ∧ t.mem = s.mem
      ∧ HatRec.mk s.cycle 0x02 0 (endpoint s k).toNat (s.slot k).pc (BitVec.ofNat 64 (s.slot k).state.code)
        ∈ (t.die (dieOf k)).hatbox := by
  let s1 := s.modSlot k (fun x => { x with wdogPosted := true })
  refine ⟨watchdogRecord s1 k (s.slot k).state (s.slot k).pc, ?_, ?_, fun j hj => ?_, rfl, ?_⟩
  · show execWatchdogExpiry k s = _
    simp only [execWatchdogExpiry, hw, hp, ht, hc, Bool.not_false, Bool.and_self, decide_true, if_true, Bool.false_eq_true, if_false]
    rfl
  · exact State.slot_modSlot_same s k (fun x => { x with wdogPosted := true })
  · exact State.slot_modSlot_other s k j (fun x => { x with wdogPosted := true }) hj
  · exact record_mem_hatPost s1 (dieOf k) 0x02 0 (endpoint s k).toNat (s.slot k).pc (BitVec.ofNat 64 (s.slot k).state.code)

theorem watchdogExpiry_idle {s : State} {k : Nat} (h : watched (s.slot k).state = false ∨ (s.slot k).wdogPosted = true
    ∨ s.cycle - (s.slot k).waitSince < (s.polder (s.slot k).world).wdog.toNat) : exec (.watchdogExpiry k) s = .next s := by
  refine if_neg ?_
  simp only [Bool.and_eq_true, Bool.not_eq_true', decide_eq_true_eq]
  rintro ⟨⟨seen, fresh⟩, late⟩
  rcases h with unseen | posted | early
  · rw [unseen] at seen; cases seen
  · rw [posted] at fresh; cases fresh
  · exact absurd late (Nat.not_le.mpr early)

/-! ## The steward's choices -/

/-- A resumed slot goes on at its sr.epc (R114). -/
theorem stewardResume_spec {s : State} {k : Nat} (hs : (s.slot k).state = .halted) (hp : (s.slot k).stopPending = false) :
    ∃ t, exec (.stewardResume k) s = .next t ∧ (t.slot k).state = .ready ∧ (t.slot k).pc = (s.slot k).epc
      ∧ (t.slot k).x = (s.slot k).x ∧ ∀ j, j ≠ k → t.slot j = s.slot j := by
  let s1 := s.modSlot k (fun x => { x with pc := x.epc, npc := x.epc })
  have slot1 : s1.slot k = { s.slot k with pc := (s.slot k).epc, npc := (s.slot k).epc } := State.slot_modSlot_same ..
  refine ⟨ltThaw (s1.toReady k) (coreOf k), if_pos hs, ?_⟩
  rw [slot_ltThaw, slot_toReady_same s1 k (by rw [slot1]; exact hp), slot1]
  exact ⟨by simp, by simp, by simp,
    fun j hj => (slot_ltThaw ..).trans ((slot_toReady_other s1 k j hj).trans (State.slot_modSlot_other _ _ _ _ hj))⟩

/-- A forwarded trap enters the tenant handler with its own cause and value (R114). -/
theorem stewardForwardTrap_spec {s : State} {k : Nat} (hs : (s.slot k).state = .halted) (hp : (s.slot k).stopPending = false)
    (hi : (s.slot k).inh = false) (hv : (s.slot k).tvec ≠ 0) :
    ∃ t, exec (.stewardForwardTrap k) s = .next t ∧ (t.slot k).state = .ready ∧ (t.slot k).pc = (s.slot k).tvec
      ∧ (t.slot k).inh = true ∧ (t.slot k).cause = (s.slot k).cause ∧ (t.slot k).tval = (s.slot k).tval
      ∧ (t.slot k).epc = (s.slot k).pc ∧ (t.slot k).x = (s.slot k).x ∧ ∀ j, j ≠ k → t.slot j = s.slot j := by
  refine ⟨ltThaw (tenantTrap s k (s.slot k).cause (s.slot k).tval) (coreOf k), if_pos ⟨hs, hi, hv⟩, ?_⟩
  rw [slot_ltThaw, slot_tenantTrap_same s k _ _ hp]
  exact ⟨by simp, by simp, by simp, by simp, by simp, by simp, by simp,
    fun j hj => (slot_ltThaw ..).trans (slot_tenantTrap_other s k j _ _ hj)⟩

/-- A context in a slot is collected where it is HALTED (R114). -/
theorem stewardCollect_held {s : State} {core num k : Nat} (hk : ctxSlot s core num = some k) :
    exec (.stewardCollect core num) s
      = if (s.slot k).state = .halted then .next (ltThaw (releaseSlot s k true) core) else .next s := by
  show execStewardCollect core num s = _
  simp only [execStewardCollect, hk]

/-- Without a slot that holds or has LOST the context nothing is collected. -/
theorem stewardCollect_none {s : State} {core num : Nat} (hk : ctxSlot s core num = none)
    (hl : ∀ j ∈ generalSlots core, (s.slot j).state ≠ .lost) : exec (.stewardCollect core num) s = .next s := by
  have unlost : (generalSlots core).find? (fun k => (s.slot k).state == .lost && (s.slot k).ctxNum == num) = none :=
    List.find?_eq_none.mpr fun j hj => by simp [hl j hj]
  show execStewardCollect core num s = _
  simp only [execStewardCollect, hk, unlost]

/-- A general slot is none of the slots 6 and 7 of its core. -/
theorem general_ne_seven {core k : Nat} (h : k ∈ generalSlots core) : k % 8 ≠ 7 := by
  obtain ⟨i, hi, rfl⟩ := List.mem_map.mp h
  have low := List.mem_range.mp hi
  omega

/-- A LOST slot with its context taken from its entry (R124). -/
def lostRestored (s : State) (core num k : Nat) : State :=
  match ctxEntry s core num with
  | some e => s.setSlot k { e.slot with state := .lost }
  | none => s

/-- A LOST context is collected: its slot is EMPTY (R124). -/
theorem stewardCollect_lost {s : State} {core num k : Nat} (hk : ctxSlot s core num = none) (hg : k ∈ generalSlots core)
    (hs : (s.slot k).state = .lost) (hn : (s.slot k).ctxNum = num)
    (hu : ∀ j ∈ generalSlots core, j ≠ k → (s.slot j).ctxNum ≠ num) :
    ∃ t, exec (.stewardCollect core num) s = .next t ∧ t.slot k = Slot.reset := by
  have found : (generalSlots core).find? (fun k => (s.slot k).state == .lost && (s.slot k).ctxNum == num) = some k := by
    cases first : (generalSlots core).find? (fun k => (s.slot k).state == .lost && (s.slot k).ctxNum == num) with
    | none => exact absurd (List.find?_eq_none.mp first k hg) (by simp [hs, hn])
    | some j =>
      have number : (s.slot j).ctxNum = num := by
        have held := List.find?_some first
        simp only [Bool.and_eq_true, beq_iff_eq] at held
        exact held.2
      by_cases same : j = k
      · rw [same]
      · exact absurd number (hu j (List.mem_of_find?_eq_some first) same)
  refine ⟨ltThaw (releaseSlot (lostRestored s core num k) k true) core, ?_,
    (slot_ltThaw ..).trans (slot_releaseSlot (general_ne_seven hg) _ true)⟩
  show execStewardCollect core num s = _
  simp only [execStewardCollect, hk, found]
  rfl

/-! ## Sealed lines -/

theorem fields_setHbm (s : State) (m : NMap HbmLine) : ({ s with hbm := m } : State).hbm = m
    ∧ ({ s with hbm := m } : State).slots = s.slots ∧ ({ s with hbm := m } : State).cores = s.cores
    ∧ ({ s with hbm := m } : State).mem = s.mem := ⟨rfl, rfl, rfl, rfl⟩

/-- A line leaves its home cache sealed, and its bytes in the cache are gone (R347). -/
theorem hbmWriteBack_sealed {s : State} {line : Nat} {h : HbmLine} (hf : NMap.find s.hbm line = none)
    (hs : sealLine s line (cellRead s.mem (line * 64) 64) = some h) :
    ∃ t, exec (.hbmWriteBack line) s = .next t ∧ NMap.find t.hbm line = some h
      ∧ (∀ j, j ≠ line → NMap.find t.hbm j = NMap.find s.hbm j) ∧ t.slots = s.slots ∧ t.cores = s.cores
      ∧ ∀ a, a < line * 64 ∨ line * 64 + 64 ≤ a → cellGet t.mem a = cellGet s.mem a := by
  obtain ⟨hbm, slots, cores, mem⟩ := fields_setHbm (s.pokeMem (line * 64) (List.replicate 64 0)) (NMap.set s.hbm line h)
  have cleared (a : Nat) (ha : a < line * 64 ∨ line * 64 + 64 ≤ a) :
      cellGet (cellWrite s.mem (line * 64) (List.replicate 64 0)) a = cellGet s.mem a :=
    cellGet_cellWrite_outside (List.replicate 64 0) s.mem (line * 64) a (by simpa using ha)
  refine ⟨_, ?_, (congrArg (NMap.find · line) hbm).trans (NMap.find_set_same ..),
    fun j hj => (congrArg (NMap.find · j) hbm).trans (NMap.find_set_other s.hbm line j h hj),
    slots.trans (State.slots_pokeMem ..), cores.trans (State.cores_pokeMem ..),
    fun a ha => (congrArg (cellGet · a) (mem.trans (State.mem_pokeMem ..))).trans (cleared a ha)⟩
  show execHbmWriteBack line s = _
  have sealed : sealLine s line (s.peekMem (line * 64) 64) = some h := hs
  simp only [execHbmWriteBack, hf, Option.isSome_none, Bool.false_eq_true, if_false, sealed]

/-- Settles O52: each timer and each choice of the steward by its law. -/
theorem contextTimers : Obligations.ContextTimers := by
  rintro s k core num line r w v sl rfl c others
  refine ⟨?early, ?long, ?longNone, ?longReady, ?energy, ?age, ?header, ?alarm, ?undelivered, ?noNotice, ?noMiss, ?miss, ?fetchDone,
    ?watchdog, ?noWatchdog, ?slice, ?resume, ?forward, ?abort, ?notHalted, ?collectHalted, ?collectOther, ?collectNone,
    ?collectLost, ?hbmSealed, ?hbm⟩
  case early => exact fun h => if_pos h
  case long =>
    intro hl hw
    show execLongLatencyResult k s = _
    simp only [execLongLatencyResult, if_neg (Nat.not_lt.mpr hl), hw]
  case longNone =>
    intro hl hw
    show execLongLatencyResult k s = _
    rcases hw with hw | hw
    · simp only [execLongLatencyResult, if_neg (Nat.not_lt.mpr hl), hw]
    · simp only [execLongLatencyResult, if_neg (Nat.not_lt.mpr hl), hw]
  case longReady =>
    intro hl hw _ hh hr hs
    refine ⟨_, ?_, long_commits hl hw hh hr hs⟩
    show execLongLatencyResult k s = _
    simp only [execLongLatencyResult, if_neg (Nat.not_lt.mpr hl), hw]
  case energy => rfl
  case age => exact signatureBankAge_spec s k core
  case header => exact fun h => ⟨_, rfl, traceHeader_spec h⟩
  case alarm => exact fun hs hi ha => (noticeTaken_ready hs hi).1 v ha
  case undelivered => exact fun hs hi ha hu => (noticeTaken_ready hs hi).2.1 v ha hu
  case noNotice => exact noticeTaken_idle
  case noMiss => exact fun h => if_pos (by rw [h]; rfl)
  case miss => exact fun hm _ => registerMiss_spec hm
  case fetchDone => exact fun rs hp hw _ hs => registerFetchDone_spec hp hw hs
  case watchdog => exact watchdogExpiry_posts
  case noWatchdog => exact watchdogExpiry_idle
  case slice => rfl
  case resume => exact stewardResume_spec
  case forward => exact stewardForwardTrap_spec
  case abort => exact fun hs => if_pos hs
  case notHalted => exact fun hs => ⟨if_neg hs, if_neg fun h => hs h.1, if_neg hs⟩
  case collectHalted => exact fun hk hs => (stewardCollect_held hk).trans (if_pos hs)
  case collectOther => exact fun hk hs => (stewardCollect_held hk).trans (if_neg hs)
  case collectNone => exact stewardCollect_none
  case collectLost => exact stewardCollect_lost
  case hbmSealed => exact fun h => if_pos (Option.isSome_iff_ne_none.mpr h)
  case hbm => exact fun h => hbmWriteBack_sealed

end Sys2Proof.Machine

/-! PROOFS of O6, O7 and O8. Each scalar operation is one write of X[d] with the result of its table (R79, R81 to R83,
R86): first the results as the tables give them, then one equation for each operation, then the frame of a write. -/

namespace Sys2Proof.Machine

/-! ## The results of the tables -/

/-- A shift by a register takes its low six bits (R79). -/
theorem toNat_mod_64 (b : Word) : b.toNat % 64 = (b.extractLsb' 0 6).toNat := by
  simp

theorem sshiftRight_eq_div (a : Word) (n : Nat) : a.sshiftRight n = BitVec.ofInt 64 (a.toInt / 2 ^ n) := by
  rw [BitVec.sshiftRight, Int.shiftRight_eq_div_pow]
  norm_cast

theorem ofBool_slt (a b : Word) : ofBool (a.slt b) = if a.toInt < b.toInt then 1 else 0 := by
  simp [ofBool, BitVec.slt]

theorem ofBool_ult (a b : Word) : ofBool (a.ult b) = if a.toNat < b.toNat then 1 else 0 := by
  simp [ofBool, BitVec.ult]

theorem lesser_signed (a b : Word) : (if a.slt b then a else b) = BitVec.ofInt 64 (min a.toInt b.toInt) := by
  simp only [BitVec.slt, decide_eq_true_eq, min_def]
  grind [BitVec.ofInt_toInt]

theorem greater_signed (a b : Word) : (if a.slt b then b else a) = BitVec.ofInt 64 (max a.toInt b.toInt) := by
  simp only [BitVec.slt, decide_eq_true_eq, max_def]
  grind [BitVec.ofInt_toInt]

theorem lesser_unsigned (a b : Word) : (if a.ult b then a else b) = BitVec.ofNat 64 (min a.toNat b.toNat) := by
  simp only [BitVec.ult, decide_eq_true_eq, min_def]
  grind [BitVec.setWidth_eq]

theorem greater_unsigned (a b : Word) : (if a.ult b then b else a) = BitVec.ofNat 64 (max a.toNat b.toNat) := by
  simp only [BitVec.ult, decide_eq_true_eq, max_def]
  grind [BitVec.setWidth_eq]

theorem mulhuWord_eq (a b : Word) : mulhuWord a b = (a.setWidth 128 * b.setWidth 128).extractLsb' 64 64 := by
  apply BitVec.eq_of_toNat_eq
  have product : a.toNat * b.toNat < 2 ^ 128 := calc
    a.toNat * b.toNat < 2 ^ 64 * 2 ^ 64 := Nat.mul_lt_mul'' a.isLt b.isLt
    _ = 2 ^ 128 := by norm_num
  simp only [mulhuWord, BitVec.toNat_ofNat, BitVec.extractLsb'_toNat, BitVec.toNat_mul, BitVec.toNat_setWidth,
    Nat.shiftRight_eq_div_pow, Nat.mod_eq_of_lt (a.isLt.trans (by decide : 2 ^ 64 < 2 ^ 128)),
    Nat.mod_eq_of_lt (b.isLt.trans (by decide : 2 ^ 64 < 2 ^ 128)), Nat.mod_eq_of_lt product]

/-- The signed product of 128 bits is exact. -/
theorem toInt_mul_signExtend (a b : Word) : (a.signExtend 128 * b.signExtend 128).toInt = a.toInt * b.toInt := by
  rw [BitVec.toInt_mul, BitVec.toInt_signExtend_of_le (by decide), BitVec.toInt_signExtend_of_le (by decide)]
  have ha := BitVec.toInt_lt (x := a)
  have ha' := BitVec.le_toInt a
  have hb := BitVec.toInt_lt (x := b)
  have hb' := BitVec.le_toInt b
  have bound : |a.toInt * b.toInt| ≤ 2 ^ 63 * 2 ^ 63 := by
    rw [abs_mul]
    exact mul_le_mul (abs_le.mpr ⟨ha', by omega⟩) (abs_le.mpr ⟨hb', by omega⟩) (abs_nonneg _) (by norm_num)
  rw [abs_le] at bound
  exact Int.bmod_eq_of_le (by norm_num at bound ⊢; omega) (by norm_num at bound ⊢; omega)

theorem mulhWord_eq (a b : Word) : mulhWord a b = (a.signExtend 128 * b.signExtend 128).extractLsb' 64 64 := by
  rw [mulhWord, ← toInt_mul_signExtend]
  generalize a.signExtend 128 * b.signExtend 128 = p
  apply BitVec.eq_of_toNat_eq
  rw [BitVec.extractLsb'_toNat, Nat.shiftRight_eq_div_pow, BitVec.toNat_ofInt, BitVec.toInt_eq_toNat_cond]
  have := p.isLt
  split <;> omega


/-! ## Counts of bits -/

theorem clzWord_spec (a : Word) : clzWord a ≤ 64 ∧ a.toNat < 2 ^ (64 - clzWord a)
    ∧ (clzWord a < 64 → a.getLsbD (63 - clzWord a)) := by
  by_cases h : a = 0
  · simp [clzWord, h]
  · have nz : a.toNat ≠ 0 := fun e => h (BitVec.eq_of_toNat_eq e)
    have top : a.toNat.log2 < 64 := (Nat.log2_lt nz).mpr a.isLt
    have e : 63 - (63 - a.toNat.log2) = a.toNat.log2 := by omega
    rw [clzWord, if_neg h]
    refine ⟨by omega, ?_, fun _ => ?_⟩
    · rw [show 64 - (63 - a.toNat.log2) = a.toNat.log2 + 1 by omega]
      exact Nat.lt_log2_self
    · rw [e]
      exact Nat.testBit_log2 nz

theorem ctzBits_spec (a n : Nat) : ctzBits a n ≤ n ∧ 2 ^ ctzBits a n ∣ a ∧ (ctzBits a n < n → a.testBit (ctzBits a n)) := by
  induction n generalizing a with
  | zero => simp [ctzBits]
  | succ n ih =>
    rw [ctzBits]
    split
    · next odd => simp [Nat.testBit_zero, odd]
    · next even =>
      obtain ⟨le, dvd, bit⟩ := ih (a / 2)
      have half : a = 2 * (a / 2) := by omega
      refine ⟨by omega, ?_, fun lt => ?_⟩
      · rw [half, Nat.add_comm, pow_succ', Nat.mul_div_cancel_left _ (by decide : 0 < 2)]
        exact Nat.mul_dvd_mul_left 2 dvd
      · rw [Nat.add_comm, Nat.testBit_succ]
        exact bit (by omega)

theorem popBits_eq (a n : Nat) : popBits a n = (List.range n).countP a.testBit := by
  induction n generalizing a with
  | zero => rfl
  | succ n ih =>
    rw [popBits, ih, List.range_succ_eq_map, List.countP_cons, List.countP_map, Nat.testBit_zero]
    have shift : a.testBit ∘ Nat.succ = (a / 2).testBit := funext fun i => Nat.testBit_succ a i
    rw [shift]
    have := Nat.mod_two_eq_zero_or_one a
    grind

/-! ## Quotients and remainders -/

theorem divWord_eq (a b : Word) : divWord a b = if b = 0 then BitVec.allOnes 64 else a.sdiv b := by
  unfold divWord
  congr 1
  apply BitVec.eq_of_toInt_eq
  rw [BitVec.toInt_ofInt, BitVec.toInt_sdiv]

theorem divuWord_eq (a b : Word) : divuWord a b = if b = 0 then BitVec.allOnes 64 else a / b := by
  unfold divuWord
  congr 1
  apply BitVec.eq_of_toNat_eq
  rw [BitVec.toNat_ofNat, BitVec.toNat_udiv, Nat.mod_eq_of_lt ((Nat.div_le_self _ _).trans_lt a.isLt)]

theorem remWord_eq (a b : Word) : remWord a b = if b = 0 then a else a.srem b := by
  unfold remWord
  congr 1
  apply BitVec.eq_of_toInt_eq
  rw [← BitVec.toInt_srem, BitVec.ofInt_toInt]

theorem remuWord_eq (a b : Word) : remuWord a b = if b = 0 then a else a % b := by
  unfold remuWord
  congr 1
  apply BitVec.eq_of_toNat_eq
  rw [BitVec.toNat_ofNat, BitVec.toNat_umod, Nat.mod_eq_of_lt ((Nat.mod_le _ _).trans_lt a.isLt)]

/-! ## The operations -/

section
variable (s : State) (d x y : Reg) (e : BitVec 15) (n : BitVec 6)

theorem exec_add : exec (.add d x y) s = writeX s d (s.rx x + s.rx y) := rfl
theorem exec_sub : exec (.sub d x y) s = writeX s d (s.rx x - s.rx y) := rfl
theorem exec_and : exec (.and d x y) s = writeX s d (s.rx x &&& s.rx y) := rfl
theorem exec_or : exec (.or d x y) s = writeX s d (s.rx x ||| s.rx y) := rfl
theorem exec_xor : exec (.xor d x y) s = writeX s d (s.rx x ^^^ s.rx y) := rfl
theorem exec_sll : exec (.sll d x y) s = writeX s d (s.rx x <<< ((s.rx y).extractLsb' 0 6).toNat) :=
  congrArg (fun n => writeX s d (s.rx x <<< n)) (toNat_mod_64 _)
theorem exec_srl : exec (.srl d x y) s = writeX s d (s.rx x >>> ((s.rx y).extractLsb' 0 6).toNat) :=
  congrArg (fun n => writeX s d (s.rx x >>> n)) (toNat_mod_64 _)
theorem exec_sra : exec (.sra d x y) s = writeX s d (BitVec.ofInt 64 ((s.rx x).toInt / 2 ^ ((s.rx y).extractLsb' 0 6).toNat)) :=
  congrArg (writeX s d) ((sshiftRight_eq_div _ _).trans (by rw [toNat_mod_64]))
theorem exec_slt : exec (.slt d x y) s = writeX s d (if (s.rx x).toInt < (s.rx y).toInt then 1 else 0) :=
  congrArg (writeX s d) (ofBool_slt _ _)
theorem exec_sltu : exec (.sltu d x y) s = writeX s d (if (s.rx x).toNat < (s.rx y).toNat then 1 else 0) :=
  congrArg (writeX s d) (ofBool_ult _ _)
theorem exec_min : exec (.min d x y) s = writeX s d (BitVec.ofInt 64 (min (s.rx x).toInt (s.rx y).toInt)) :=
  congrArg (writeX s d) (lesser_signed _ _)
theorem exec_max : exec (.max d x y) s = writeX s d (BitVec.ofInt 64 (max (s.rx x).toInt (s.rx y).toInt)) :=
  congrArg (writeX s d) (greater_signed _ _)
theorem exec_minu : exec (.minu d x y) s = writeX s d (BitVec.ofNat 64 (min (s.rx x).toNat (s.rx y).toNat)) :=
  congrArg (writeX s d) (lesser_unsigned _ _)
theorem exec_maxu : exec (.maxu d x y) s = writeX s d (BitVec.ofNat 64 (max (s.rx x).toNat (s.rx y).toNat)) :=
  congrArg (writeX s d) (greater_unsigned _ _)
theorem exec_mul : exec (.mul d x y) s = writeX s d (BitVec.ofNat 64 ((s.rx x).toNat * (s.rx y).toNat)) := rfl
theorem exec_mulh : exec (.mulh d x y) s = writeX s d (((s.rx x).signExtend 128 * (s.rx y).signExtend 128).extractLsb' 64 64) :=
  congrArg (writeX s d) (mulhWord_eq _ _)
theorem exec_mulhu : exec (.mulhu d x y) s = writeX s d (((s.rx x).setWidth 128 * (s.rx y).setWidth 128).extractLsb' 64 64) :=
  congrArg (writeX s d) (mulhuWord_eq _ _)
theorem exec_clz : exec (.clz d x) s = writeX s d (BitVec.ofNat 64 (clzWord (s.rx x))) := rfl
theorem exec_ctz : exec (.ctz d x) s = writeX s d (BitVec.ofNat 64 (ctzBits (s.rx x).toNat 64)) := rfl
theorem exec_popc : exec (.popc d x) s = writeX s d (BitVec.ofNat 64 ((List.range 64).countP (s.rx x).getLsbD)) :=
  congrArg (fun n => writeX s d (BitVec.ofNat 64 n)) (popBits_eq _ 64)

theorem exec_addi : exec (.addi d x e) s = writeX s d (s.rx x + e.signExtend 64) := rfl
theorem exec_andi : exec (.andi d x e) s = writeX s d (s.rx x &&& e.signExtend 64) := rfl
theorem exec_ori : exec (.ori d x e) s = writeX s d (s.rx x ||| e.signExtend 64) := rfl
theorem exec_xori : exec (.xori d x e) s = writeX s d (s.rx x ^^^ e.signExtend 64) := rfl
theorem exec_slti : exec (.slti d x e) s = writeX s d (if (s.rx x).toInt < (e.signExtend 64).toInt then 1 else 0) :=
  congrArg (writeX s d) (ofBool_slt _ _)
theorem exec_sltiu : exec (.sltiu d x e) s = writeX s d (if (s.rx x).toNat < (e.signExtend 64).toNat then 1 else 0) :=
  congrArg (writeX s d) (ofBool_ult _ _)
theorem exec_slli : exec (.slli d x n) s = writeX s d (s.rx x <<< n.toNat) := rfl
theorem exec_srli : exec (.srli d x n) s = writeX s d (s.rx x >>> n.toNat) := rfl
theorem exec_srai : exec (.srai d x n) s = writeX s d (BitVec.ofInt 64 ((s.rx x).toInt / 2 ^ n.toNat)) :=
  congrArg (writeX s d) (sshiftRight_eq_div _ _)

theorem exec_lui (u : BitVec 20) : exec (.lui d u) s = writeX s d ((u ++ (0 : BitVec 12)).signExtend 64) := rfl
theorem exec_limm (m : BitVec 32) : exec (.limm d m) s = writeX s d (m.signExtend 64) := rfl
theorem exec_limmZx (m : BitVec 32) : exec (.limmZx d m) s = writeX s d (m.setWidth 64) := rfl
theorem exec_limmHi (m : BitVec 32) : exec (.limmHi d m) s = writeX s d (m ++ (s.rx d).extractLsb' 0 32) := rfl
theorem exec_pget (k : BitVec 2) : exec (.pget d x k) s = writeX s d (pgetWord (s.rx x) k) := rfl

theorem exec_div : exec (.div d x y) s = longDivide (fun a b => if b = 0 then BitVec.allOnes 64 else a.sdiv b) d x y s :=
  congrArg (longDivide · d x y s) (funext₂ divWord_eq)
theorem exec_divu : exec (.divu d x y) s = longDivide (fun a b => if b = 0 then BitVec.allOnes 64 else a / b) d x y s :=
  congrArg (longDivide · d x y s) (funext₂ divuWord_eq)
theorem exec_rem : exec (.rem d x y) s = longDivide (fun a b => if b = 0 then a else a.srem b) d x y s :=
  congrArg (longDivide · d x y s) (funext₂ remWord_eq)
theorem exec_remu : exec (.remu d x y) s = longDivide (fun a b => if b = 0 then a else a % b) d x y s :=
  congrArg (longDivide · d x y s) (funext₂ remuWord_eq)

end

/-! ## The frame of a write at issue -/

/-- What a write at issue leaves: x register `d` and its present bit have changed, and nothing else (R42, R48). -/
theorem onlyX_putX (s : State) (d : Reg) (w : Word) : s.OnlyX d (s.modMe (·.putX d w)) where
  onlyMe := ⟨rfl, fun k hk => State.slot_modSlot_other s s.cur k _ hk⟩
  slot := by
    rw [State.me_modMe]
    unfold Slot.putX
    split <;> rfl
  regs r hr := by rw [State.me_modMe, Slot.getX_putX_other _ _ _ _ hr]
  here n hn := by
    rw [State.me_modMe]
    unfold Slot.putX
    split
    · rfl
    · have bit : (1#64 <<< d.toNat).getLsbD n = false := by
        simp only [BitVec.getLsbD_shiftLeft, BitVec.getLsbD_one]
        grind
      rw [BitVec.getLsbD_or, bit, Bool.or_false]
  mem _ := rfl
  ls _ _ := rfl

theorem onlyX_writeX {s t : State} {d : Reg} (hd : s.writable d) (w : Word) (h : writeX s d w = .next t) : s.OnlyX d t := by
  rw [writeX_of s d w hd] at h
  cases h
  exact onlyX_putX s d w

/-- Settles O6: each of the operations is one write of X[d] (its equation above), and such a write is within the frame. -/
theorem scalarFrame : Obligations.ScalarFrame := by
  intro s t d a b i n u w k hd
  simp only [List.forall_mem_cons, List.not_mem_nil, false_implies, implies_true, and_true, exec_add, exec_sub, exec_and, exec_or,
    exec_xor, exec_sll, exec_srl, exec_sra, exec_slt, exec_sltu, exec_min, exec_max, exec_minu, exec_maxu, exec_mul, exec_mulh,
    exec_mulhu, exec_clz, exec_ctz, exec_popc, exec_addi, exec_andi, exec_ori, exec_xori, exec_slti, exec_sltiu, exec_slli,
    exec_srli, exec_srai, exec_lui, exec_limm, exec_limmZx, exec_limmHi, exec_pget]
  and_intros <;> exact onlyX_writeX hd _

/-! ## Divides -/

/-- A divide has issued: the slot waits for the result `w` of register `d`, which is due 36 cycles after issue (R53, R80),
and nothing that a program reads has changed yet. -/
def WaitsLong (s : State) (d : Reg) (w : Word) (o : Out) : Prop :=
  ∃ t, o = .next t
    ∧ t.me.state = .waitLong ∧ t.me.wait = .long (some (d.toNat, w)) ∧ s.cycle + 37 ≤ t.me.longUntil
    ∧ (s.cycle + 37, Event.longLatencyResult s.cur) ∈ t.agenda
    ∧ t.me.x = s.me.x ∧ t.me.v = s.me.v ∧ t.me.pc = s.me.pc ∧ t.me.fflags = s.me.fflags
    ∧ (∀ k, k ≠ s.cur → t.slot k = s.slot k)
    ∧ (s.unlogged s.cur → t.mem = s.mem ∧ t.cores = s.cores)

/-- The issuing slot may not issue before the result of a divide has been written (R52). -/
def State.holdLong (s : State) : State :=
  s.modMe (fun sl => { sl with longUntil := Nat.max sl.longUntil (s.cycle + 37) })

theorem longDivide_of {s : State} {d : Reg} (hd : s.writable d) (f : Word → Word → Word) (x y : Reg) : longDivide f d x y s =
    .next ((park s.holdLong s.cur .waitLong (.long (some (d.toNat, f (s.rx x) (s.rx y))))).at_ (s.cycle + 37)
      (.longLatencyResult s.cur)) :=
  guardX_of s d _ hd

theorem waitsLong_longDivide {s : State} {d : Reg} (hd : s.writable d) (f : Word → Word → Word) (x y : Reg) :
    WaitsLong s d (f (s.rx x) (s.rx y)) (longDivide f d x y s) := by
  refine ⟨_, longDivide_of hd f x y, ?_⟩
  generalize hwait : Wait.long (some (d.toNat, f (s.rx x) (s.rx y))) = wait
  have held : s.holdLong.me = { s.me with longUntil := Nat.max s.me.longUntil (s.cycle + 37) } := State.me_modMe s _
  have me : ((park s.holdLong s.cur .waitLong wait).at_ (s.cycle + 37) (.longLatencyResult s.cur)).me
      = ({ s.holdLong.me with wait := wait } : Slot).enter s.cycle .waitLong := by
    rw [State.me_at_, State.me, cur_park]
    exact slot_park_same s.holdLong s.cur .waitLong wait
  rw [me, held]
  refine ⟨by simp, by simp, by simp, mem_agendaIns _ _ _, by simp, by simp, by simp, by simp, fun k hk => ?_, fun hu => ?_⟩
  · exact (slot_park_other s.holdLong s.cur k .waitLong wait hk).trans (State.slot_modSlot_other s s.cur k _ hk)
  · obtain ⟨mem, cores, -⟩ := park_mem s.holdLong s.cur .waitLong wait hu
    exact ⟨mem, cores⟩

/-! ## Encodings that the decoder rejects -/

/-- The decoder answers an error. -/
def Rejected (k : Decoded) : Prop := ∃ e, k = .error e

theorem rejected_zero {n : Nat} {x : BitVec n} {k : Decoded} (h : x ≠ 0 ∨ Rejected k) : Rejected (zero x k) := by
  unfold zero
  split
  · next e => exact h.resolve_left (not_not_intro e)
  · exact ⟨_, rfl⟩

theorem rejected_below {f : BitVec 5} {n : Nat} {k : Decoded} (h : n ≤ f.toNat) : Rejected (below f n k) :=
  ⟨_, if_neg (by omega)⟩

theorem rejected_checked {k : Decoded} (h : Rejected k) : Rejected (checked k) := by
  obtain ⟨e, rfl⟩ := h
  exact ⟨e, rfl⟩

/-- A word of major opcode `op` is read by the arm of that opcode. -/
theorem decodeA_of_opcode {lo hi : BitVec 32} {op : BitVec 7} (hop : lo.extractLsb' 0 7 = op) :
    decodeA lo hi = checked (decodeRawA { RawA.of lo with op := op } hi) := by
  subst hop
  rfl

theorem rejected_of_opcode {lo hi : BitVec 32} {op : BitVec 7} (hop : lo.extractLsb' 0 7 = op)
    (h : Rejected (decodeRawA { RawA.of lo with op := op } hi)) : Rejected (decodeA lo hi) :=
  decodeA_of_opcode (hi := hi) hop ▸ rejected_checked h

theorem rejected_decodeAlu {r : RawA} (h : r.s3 ≠ 0 ∨ 24 ≤ r.f ∨ (21 ≤ r.f ∧ r.s2 ≠ 0)) : Rejected (decodeAlu r) := by
  refine rejected_zero (h.imp_right fun h => ?_)
  simp only [BitVec.le_def, show (24 : BitVec 5).toNat = 24 from rfl, show (21 : BitVec 5).toNat = 21 from rfl] at h
  generalize r.f.toNat = f at h
  by_cases unlisted : 24 ≤ f
  · obtain ⟨m, rfl⟩ := Nat.exists_eq_add_of_le' unlisted
    exact ⟨_, rfl⟩
  · obtain ⟨count, s2⟩ := h.resolve_left unlisted
    interval_cases f <;> exact rejected_zero (.inl s2)

/-- Settles O7: the equation of each operation gives its result, a divide waits for its own (`waitsLong_longDivide`), and
the decoder rejects what the table marks illegal. -/
theorem aluResults : Obligations.AluResults := by
  refine ⟨fun s d x y hd => ?_, fun s d x hd => ?_, fun s d x y hd _ => ?_, fun lo hi hop bad => ?_⟩
  · simp only [exec_add, exec_sub, exec_and, exec_or, exec_xor, exec_sll, exec_srl, exec_sra, exec_slt, exec_sltu, exec_min,
      exec_max, exec_minu, exec_maxu, exec_mul, exec_mulh, exec_mulhu, writeX_of s d _ hd, and_self]
  · have clz := clzWord_spec (s.rx x)
    obtain ⟨le, dvd, bit⟩ := ctzBits_spec (s.rx x).toNat 64
    refine ⟨⟨_, writeX_of s d _ hd, clz⟩, ⟨_, writeX_of s d _ hd, le, dvd, fun e => ?_, bit⟩, ?_⟩
    · rw [e] at dvd
      exact BitVec.eq_of_toNat_eq (Nat.eq_zero_of_dvd_of_lt dvd (s.rx x).isLt)
    · rw [exec_popc, writeX_of s d _ hd]
  · rw [exec_div, exec_divu, exec_rem, exec_remu]
    exact ⟨waitsLong_longDivide hd _ x y, waitsLong_longDivide hd _ x y, waitsLong_longDivide hd _ x y, waitsLong_longDivide hd _ x y⟩
  · exact rejected_of_opcode hop (rejected_decodeAlu bad)

/-- imm15[14:6] stands in bits [31:23] of the word (R69). -/
theorem imm15_high (lo : BitVec 32) : (RawA.of lo).imm15.extractLsb' 6 9 = lo.extractLsb' 23 9 := by
  have e : (RawA.of lo).imm15 = lo.extractLsb' 17 15 :=
    (congrArg (· ++ _) (append_extractLsb'_adjacent lo 22 5 5)).trans (append_extractLsb'_adjacent lo 17 10 5)
  rw [e]
  ext i hi
  simp only [BitVec.getElem_extractLsb', BitVec.getLsbD_extractLsb']
  grind

/-- Settles O8: the equation of each operation gives its result, and a shift whose high immediate bits are not 0 is rejected. -/
theorem immediateResults : Obligations.ImmediateResults := by
  refine ⟨fun s d x e n u m hd => ?_, fun lo hi hop bad => ?_, fun lo hi hop bad => ?_, fun lo hi hop bad => ?_⟩
  · simp only [exec_addi, exec_andi, exec_ori, exec_xori, exec_slti, exec_sltiu, exec_slli, exec_srli, exec_srai, exec_lui,
      exec_limm, exec_limmZx, exec_limmHi, writeX_of s d _ hd, and_self]
  all_goals
    refine rejected_of_opcode hop (rejected_zero (.inl ?_))
    exact (imm15_high lo).trans_ne bad

end Sys2Proof.Machine

/-! PROOFS of O9. A fat pointer's address and format code, what decides between the result and the trap of each form (R84
to R87), and then the forms. -/

namespace Sys2Proof.Machine

theorem addr57_eq (w : Word) : (addr57 w : Int) = ((w.extractLsb' 0 57).toNat : Int) := by
  simp [addr57]

/-- The trap of cause `cause` and value `v` is what has happened, and no register is written (R67). -/
def Traps (s : State) (o : Out) (cause : Nat) (v : Word) : Prop :=
  ∃ t, o = .next t ∧ t.me.x = s.me.x ∧ t.me.v = s.me.v ∧ t = { takeTrapAt s s.cur cause v with iss := t.iss }

theorem traps_of_eq {s : State} {o : Out} {row cause : Nat} {v : Word} (h : o = trapOut s row cause v) : Traps s o cause v := by
  obtain ⟨hx, hv, -⟩ := regs_takeTrapAt s s.cur cause v
  refine ⟨trapAt s row cause v, h, ?_, ?_, rfl⟩
  · rw [me_trapAt]; exact hx
  · rw [me_trapAt]; exact hv

/-- What would write the register of a bound stream traps in its place (R43). -/
theorem traps_guardX {s : State} {d : Reg} (hd : ¬ s.writable d) (o : Out) : Traps s (guardX s d o) 0x0C (d.setWidth 64) :=
  traps_of_eq (guardX_stream s d o (Option.isSome_iff_ne_none.mpr hd))

theorem pointerAdd_fits {s : State} {d : Reg} (hd : s.writable d) {p : Word} {off : Int} (wrapped : Word)
    (h : 0 ≤ ((p.extractLsb' 0 57).toNat : Int) + off ∧ ((p.extractLsb' 0 57).toNat : Int) + off < 2 ^ 57) :
    pointerAdd d p off wrapped s = .next (s.modMe (·.putX d
      (p.extractLsb' 57 7 ++ BitVec.ofInt 57 (((p.extractLsb' 0 57).toNat : Int) + off)))) := by
  unfold pointerAdd
  rw [guardX_of s d _ hd, addr57_eq]
  exact if_neg (by omega)

theorem pointerAdd_carries {s : State} {d : Reg} (hd : s.writable d) {p : Word} {off : Int} (wrapped : Word)
    (h : ((p.extractLsb' 0 57).toNat : Int) + off < 0 ∨ 2 ^ 57 ≤ ((p.extractLsb' 0 57).toNat : Int) + off) :
    pointerAdd d p off wrapped s = trapOut s 5 0x05 wrapped := by
  unfold pointerAdd
  rw [guardX_of s d _ hd, addr57_eq]
  exact if_pos h

theorem reservedFormat_iff (p : Word) : reservedFormat p = true ↔ p.extractLsb' 60 4 = 0xD ∨ p.extractLsb' 60 4 = 0xE := by
  simp [reservedFormat]

theorem pointerIn_iff (p lo hi : Word) : pointerIn p lo hi = true ↔
    ((lo.extractLsb' 0 57).toNat : Int) ≤ (p.extractLsb' 0 57).toNat ∧ ((p.extractLsb' 0 57).toNat : Int) < (hi.extractLsb' 0 57).toNat
      ∧ p.extractLsb' 60 4 ≠ 0xD ∧ p.extractLsb' 60 4 ≠ 0xE := by
  have bad := reservedFormat_iff p
  simp only [← addr57_eq, pointerIn, Bool.and_eq_true, decide_eq_true_eq, Bool.not_eq_true', ← Bool.not_eq_true, bad]
  simp only [not_or, and_assoc, Nat.cast_le, Nat.cast_lt]

theorem execPset_unreserved {s : State} {d x y : Reg} {k : BitVec 2} (hd : s.writable d)
    (h : (psetWord (s.rx x) (s.rx y) k).extractLsb' 60 4 ≠ 0xD) (h' : (psetWord (s.rx x) (s.rx y) k).extractLsb' 60 4 ≠ 0xE) :
    execPset d x y k s = .next (s.modMe (·.putX d (psetWord (s.rx x) (s.rx y) k))) := by
  rw [execPset, guardX_of s d _ hd]
  exact if_neg (by rw [reservedFormat_iff]; exact not_or.mpr ⟨h, h'⟩)

theorem execPset_reserved {s : State} {d x y : Reg} {k : BitVec 2} (hd : s.writable d)
    (h : (psetWord (s.rx x) (s.rx y) k).extractLsb' 60 4 = 0xD ∨ (psetWord (s.rx x) (s.rx y) k).extractLsb' 60 4 = 0xE) :
    execPset d x y k s = trapOut s 5 0x07 (psetWord (s.rx x) (s.rx y) k) := by
  rw [execPset, guardX_of s d _ hd]
  exact if_pos ((reservedFormat_iff _).mpr h)

theorem exec_pchk (s : State) (d x y z : Reg) :
    exec (.pchk d x y z) s = writeX s d (ofBool (pointerIn (s.rx x) (s.rx y) (s.rx z))) := rfl

theorem exec_pchkTrap {s : State} {d : Reg} (hd : s.writable d) (x y z : Reg) : exec (.pchkTrap d x y z) s =
    if pointerIn (s.rx x) (s.rx y) (s.rx z) then .next (s.modMe (·.putX d (s.rx x))) else trapOut s 5 0x06 (s.rx x) :=
  guardX_of s d _ hd

/-- f = 3 of PSET names no field of a pointer (R85). -/
theorem rejected_pset {lo hi : BitVec 32} (hop : lo.extractLsb' 0 7 = 0x12)
    (bad : lo.extractLsb' 22 5 ≠ 0 ∨ 3 ≤ lo.extractLsb' 27 5) : Rejected (decodeA lo hi) := by
  by_cases three : lo.extractLsb' 27 5 = 3
  · have arm : decodeRawA { RawA.of lo with op := 0x12 } hi = zero (lo.extractLsb' 22 5) (below (lo.extractLsb' 27 5) 4
        (.ok (.pset _ _ _ ((lo.extractLsb' 27 5).extractLsb' 0 2)))) := rfl
    rw [decodeA_of_opcode hop, arm, three, zero]
    split <;> exact ⟨_, rfl⟩
  · refine rejected_of_opcode hop (rejected_zero (bad.imp_right fun f => rejected_below ?_))
    have ne : (lo.extractLsb' 27 5).toNat ≠ 3 := fun e => three (BitVec.eq_of_toNat_eq e)
    exact Nat.lt_of_le_of_ne f ne.symm

theorem rejected_pchk {lo hi : BitVec 32} (hop : lo.extractLsb' 0 7 = 0x14) (bad : 2 ≤ lo.extractLsb' 27 5) :
    Rejected (decodeA lo hi) := by
  obtain ⟨m, e⟩ := Nat.exists_eq_add_of_le' (BitVec.le_def.mp bad)
  refine rejected_of_opcode hop ⟨.function, ?_⟩
  have f : (RawA.of lo).f.toNat = m + 2 := e
  simp [decodeRawA, unlisted, f]

/-- Settles O9: where the destination may be written, each form has the result or the trap of its rule; where it is the
register of a bound stream, every form traps (`traps_guardX`); and the decoder rejects what the tables mark illegal. -/
theorem fatPointers : Obligations.FatPointers := by
  refine ⟨fun s d x y z h e k hd => ⟨?_, ?_, ?_, ?_, ?_, ?_, ?_, ?_, ?_, ?_⟩,
    fun s d x y z h e k => ⟨fun hd => ⟨?_, ?_, ?_, ?_⟩, fun hd => ?_⟩,
    fun lo hi hop bad => ?_, fun lo hi hop bad => ?_, fun lo hi hop bad => ?_, fun lo hi hop bad => ?_⟩
  · exact pointerAdd_fits hd _
  · exact pointerAdd_fits hd _
  · exact execPset_unreserved hd
  · rw [exec_pget, writeX_of s d _ hd]
    rfl
  · rw [exec_pget, writeX_of s d _ hd]
    rfl
  · rw [exec_pget, writeX_of s d _ hd]
    rfl
  · rw [exec_pget, writeX_of s d _ hd]
    rfl
  · intro ok
    rw [exec_pchk, writeX_of s d _ hd, (pointerIn_iff _ _ _).mpr ok]
    rfl
  · intro bad
    rw [exec_pchk, writeX_of s d _ hd, Bool.eq_false_iff.mpr (mt (pointerIn_iff _ _ _).mp bad)]
    rfl
  · intro ok
    rw [exec_pchkTrap hd, if_pos ((pointerIn_iff _ _ _).mpr ok)]
  · intro carries
    exact traps_of_eq (pointerAdd_carries hd _ carries)
  · intro carries
    exact traps_of_eq (pointerAdd_carries hd _ carries)
  · intro bad
    exact traps_of_eq (execPset_reserved hd bad)
  · intro bad
    have out : ¬ pointerIn (s.rx x) (s.rx y) (s.rx z) = true := by
      rw [pointerIn_iff]
      grind
    exact traps_of_eq ((exec_pchkTrap hd x y z).trans (if_neg out))
  · and_intros <;> exact traps_guardX hd _
  · exact rejected_of_opcode hop (rejected_zero (bad.imp_right rejected_below))
  · exact rejected_pset hop bad
  · refine rejected_of_opcode hop (rejected_zero (or_iff_not_imp_left.mpr fun s3 => rejected_zero ?_))
    exact (bad.imp_right (Or.resolve_left · s3)).imp_right rejected_below
  · exact rejected_pchk hop bad

end Sys2Proof.Machine

/-! PROOFS of O10, O11 and O12. Branches and jumps go within the 57 bits of the pc (R41, R88 to R90); then the descriptor
of a stream as SBIND reads it and the checks in their order (R92, R93), and what SFREE, SSKIP and BEOD make of a bound
stream (R95 to R97). -/

namespace Sys2Proof.Machine

/-! ## Branches and jumps -/

theorem pcAdd_eq (pc off : Word) : pcAdd pc off = ((pc + off).setWidth 57).setWidth 64 := by
  rw [pcAdd]
  generalize pc + off = w
  apply BitVec.eq_of_toNat_eq
  have mask : BitVec.toNat (0x1FFFFFFFFFFFFFF : Word) = 2 ^ 57 - 1 := rfl
  rw [BitVec.toNat_and, mask, Nat.and_two_pow_sub_one_eq_mod]
  simp only [BitVec.toNat_setWidth]
  omega

/-- A branch whose condition is `c` goes to pc + off × 8, or on to pc + 8 (R88). -/
theorem branchIf_eq (b : Bool) (c : Prop) [Decidable c] (h : b = true ↔ c) (off : BitVec 15) (s : State) :
    branchIf b off s = .next (s.modMe (fun sl => { sl with
      npc := (((if c then sl.pc + off.signExtend 64 * 8 else sl.pc + 8).setWidth 57).setWidth 64) })) := by
  unfold branchIf
  congr 3
  funext sl
  simp only [pcAdd_eq, sext, h]
  split <;> rfl

theorem slt_iff (a b : Word) : a.slt b = true ↔ a.toInt < b.toInt := by simp [BitVec.slt]

theorem ult_iff (a b : Word) : a.ult b = true ↔ a.toNat < b.toNat := by simp [BitVec.ult]

/-- Settles O10: a branch is `branchIf`, a jump a write of the link register within `guardX`. -/
theorem branchesAndJumps : Obligations.BranchesAndJumps := by
  refine ⟨fun s x y off => ⟨?_, ?_, ?_, ?_, ?_, ?_⟩, fun s d x off e hd => ⟨?_, fun aligned low => ?_, fun bad => ?_⟩,
    fun lo hi hop bad => ?_⟩
  · exact branchIf_eq _ _ beq_iff_eq off s
  · exact branchIf_eq _ _ bne_iff_ne off s
  · exact branchIf_eq _ _ (slt_iff _ _) off s
  · exact branchIf_eq _ _ (by rw [Bool.not_eq_true', ← Bool.not_eq_true, slt_iff, Int.not_lt]) off s
  · exact branchIf_eq _ _ (ult_iff _ _) off s
  · exact branchIf_eq _ _ (by rw [Bool.not_eq_true', ← Bool.not_eq_true, ult_iff, Nat.not_lt]) off s
  · refine (guardX_of s d _ hd).trans ?_
    simp only [State.modMe_eq, State.modSlot, State.me_eq, pcAdd_eq, sext]
  · have good : ¬ badTarget (s.rx x + sext e) = true := by
      rw [badTarget_iff]
      exact not_or.mpr ⟨not_not_intro aligned, Nat.not_le.mpr low⟩
    refine ((guardX_of s d _ hd).trans (if_neg good)).trans ?_
    simp only [pcAdd_eq, sext]
  · exact (guardX_of s d _ hd).trans (if_pos ((badTarget_iff _).mpr bad))
  · exact rejected_of_opcode hop (rejected_zero (.inr (rejected_zero (.inr (rejected_zero (.inr (rejected_zero (.inl bad))))))))

/-! ## The descriptor of a stream -/

theorem cellRead_add (m : List Host.Cell) (a i j : Nat) : cellRead m a (i + j) = cellRead m a i ++ cellRead m (a + i) j := by
  induction i generalizing a with
  | zero => simp [cellRead]
  | succ i ih => rw [Nat.succ_add, cellRead, cellRead, ih, List.cons_append, Nat.add_assoc, Nat.add_comm 1 i]

/-- Each dword of a read is the dword at its own address. -/
theorem toWords_cellRead (m : List Host.Cell) (a n : Nat) :
    toWords (cellRead m a (8 * n)) n = (List.range n).map (fun i => leWord (cellRead m (a + 8 * i) 8)) := by
  induction n generalizing a with
  | zero => rfl
  | succ n ih =>
    rw [Nat.mul_succ, Nat.add_comm (8 * n), cellRead_add, toWords, List.take_left' (length_cellRead m a 8),
      List.drop_left' (length_cellRead m a 8), ih, List.range_succ_eq_map, List.map_cons, List.map_map]
    refine congrArg₂ _ rfl (List.map_congr_left fun i _ => ?_)
    simp only [Function.comp, Nat.mul_succ, Nat.add_assoc, Nat.add_comm 8]

/-- Below 48 KiB a window address is its own physical byte (R151). -/
theorem lsBytes_low {off n : Nat} (h : off + n ≤ 49152) : lsBytes off n = (List.range n).map (off + ·) := by
  rw [lsBytes, ← List.filterMap_eq_map]
  refine List.filterMap_congr fun i hi => ?_
  have := List.mem_range.mp hi
  exact if_pos (by omega)

theorem map_cellGet_range (m : List Host.Cell) (a n : Nat) : (List.range n).map (fun i => cellGet m (a + i)) = cellRead m a n := by
  induction n with
  | zero => rfl
  | succ n ih => rw [List.range_succ, List.map_append, ih, cellRead_add]; rfl

theorem lsRead_low {s : State} {c off n : Nat} (h : off + n ≤ 49152) :
    lsRead s c (lsBytes off n) = cellRead (s.core c).ls off n := by
  rw [lsRead, lsGet, lsBytes_low h, List.map_map]
  exact map_cellGet_range _ off n

theorem lsPoison_nil {s : State} (c : Nat) (ps : List Nat) (h : s.poison = []) : lsPoison s c ps = none := by
  have sound : ps.find? (fun p => s.poison.contains (.ls c (p / 8))) = none := by
    rw [List.find?_eq_none, h]
    simp
  rw [lsPoison, sound]
  rfl

/-- Dword `i` of the descriptor that a register names, as the local store of the issuing core holds it. -/
def descriptorWord (s : State) (x : Reg) (i : Nat) : Word :=
  leWord (cellRead (s.core (coreOf s.cur)).ls ((s.rx x).toNat + 8 * i) 8)

/-- The stream that the descriptor describes, at its first element. -/
def descriptorStream (s : State) (ty : BitVec 3) (x : Reg) : Stream :=
  streamFrom ty (descriptorWord s x 0) (descriptorWord s x 1) (descriptorWord s x 2)

/-- The descriptor lies in the issuing slot's share, aligned. -/
def descriptorInside (s : State) (x : Reg) : Prop :=
  (s.rx x).toNat % 32 = 0 ∧ s.me.lsbase.toNat ≤ (s.rx x).toNat ∧ (s.rx x).toNat + 32 ≤ s.me.lsbound.toNat

/-- A bit that the descriptor must hold 0 is 1 (R92). -/
def descriptorReserved (s : State) (x : Reg) : Prop :=
  (descriptorWord s x 0).extractLsb' 19 45 ≠ 0 ∨ descriptorWord s x 3 ≠ 0

/-- The issuing core after the pass over the descriptor's two banks (R153). -/
def descriptorRead (s : State) (x : Reg) : State :=
  claimBanks (lsCorrect s (coreOf s.cur) (lsBytes (s.rx x).toNat 32)) (coreOf s.cur)
    ((1#8 <<< ((s.rx x).toNat / 16 % 8)) ||| (1#8 <<< ((s.rx x).toNat / 16 % 8 + 1)))

/-! ## SBIND -/

theorem exec_sbind_outside {s : State} {n : BitVec 2} {ty : BitVec 3} {x : Reg} (h : ¬ descriptorInside s x) :
    exec (.sbind n ty x) s = trapOut s 5 0x0B (s.rx x) := by
  refine if_pos ?_
  unfold descriptorInside at h
  omega

/-- SBIND of a descriptor that lies in the share and holds no uncorrectable word: the checks that are left, in their order
(R93). -/
theorem exec_sbind_inside {s : State} (n : BitVec 2) (ty : BitVec 3) {x : Reg} (h : descriptorInside s x)
    (low : s.me.lsbound.toNat ≤ 49152) (sound : s.poison = []) : exec (.sbind n ty x) s =
      if (descriptorWord s x 0).extractLsb' 19 45 ≠ 0 ∨ descriptorWord s x 3 ≠ 0 then trapOut s 5 0x08 (s.rx x)
      else if !(descriptorStream s ty x).wellFormed then trapOut s 5 0x0A (s.rx x)
      else if !(descriptorStream s ty x).inRange s.me.lsbase.toNat s.me.lsbound.toNat then trapOut s 5 0x0B (s.rx x)
      else .next (((descriptorRead s x).modMe (setStream n (fun _ => refill s s.cur (descriptorStream s ty x)))).dropRead n).tick := by
  obtain ⟨aligned, above, below⟩ := h
  have dwords : toWords (lsRead s (coreOf s.cur) (lsBytes (s.rx x).toNat 32)) 4
      = [descriptorWord s x 0, descriptorWord s x 1, descriptorWord s x 2, descriptorWord s x 3] := by
    rw [lsRead_low (by omega)]
    exact toWords_cellRead _ _ 4
  show execSbind n ty x s = _
  simp only [execSbind]
  rw [if_neg (by omega), lsPoison_nil _ _ sound]
  simp only [dwords]
  rfl

section
variable {s : State} (n : BitVec 2) (ty : BitVec 3) {x : Reg} (inside : descriptorInside s x)
  (low : s.me.lsbound.toNat ≤ 49152) (sound : s.poison = [])
include inside low sound

theorem exec_sbind_reserved (h : descriptorReserved s x) : exec (.sbind n ty x) s = trapOut s 5 0x08 (s.rx x) :=
  (exec_sbind_inside n ty inside low sound).trans (if_pos h)

theorem exec_sbind_illFormed (h : ¬ descriptorReserved s x) (ill : (descriptorStream s ty x).wellFormed = false) :
    exec (.sbind n ty x) s = trapOut s 5 0x0A (s.rx x) :=
  ((exec_sbind_inside n ty inside low sound).trans (if_neg h)).trans (if_pos (by rw [ill]; rfl))

theorem exec_sbind_outOfRange (h : ¬ descriptorReserved s x) (wellFormed : (descriptorStream s ty x).wellFormed = true)
    (out : (descriptorStream s ty x).inRange s.me.lsbase.toNat s.me.lsbound.toNat = false) :
    exec (.sbind n ty x) s = trapOut s 5 0x0B (s.rx x) := by
  refine ((exec_sbind_inside n ty inside low sound).trans (if_neg h)).trans ?_
  rw [wellFormed, out]
  rfl

theorem exec_sbind_passes (h : ¬ descriptorReserved s x) (wellFormed : (descriptorStream s ty x).wellFormed = true)
    (inRange : (descriptorStream s ty x).inRange s.me.lsbase.toNat s.me.lsbound.toNat = true) : exec (.sbind n ty x) s =
      .next (((descriptorRead s x).modMe (setStream n (fun _ => refill s s.cur (descriptorStream s ty x)))).dropRead n).tick := by
  refine ((exec_sbind_inside n ty inside low sound).trans (if_neg h)).trans ?_
  rw [wellFormed, inRange]
  rfl

end

/-! ## A stream of the issuing slot is set -/

theorem getStream_setStream_same (n : BitVec 2) (f : Stream → Stream) (sl : Slot) :
    getStream (setStream n f sl) n = f (getStream sl n) := by
  simp [getStream, setStream]

theorem getStream_setStream_other {n m : BitVec 2} (f : Stream → Stream) (sl : Slot) (h : m ≠ n) :
    getStream (setStream n f sl) m = getStream sl m := by
  have ne : n.toNat ≠ m.toNat := fun e => h (BitVec.eq_of_toNat_eq e.symm)
  simp [getStream, setStream, Vector.getElem_set_ne _ _ ne]

/-- A state whose streams have moved on in register `n` alone, as SBIND and SSKIP leave it: what may differ beside the
stream is what `u` already had changed. -/
theorem streamSet_spec (u : State) (n : BitVec 2) (f : Stream → Stream) :
    let t := ((u.modMe (setStream n f)).dropRead n).tick
    getStream t.me n = f (getStream u.me n) ∧ (∀ m, m ≠ n → getStream t.me m = getStream u.me m)
      ∧ t.me = { u.me with streams := t.me.streams } ∧ (∀ k, k ≠ u.cur → t.slot k = u.slot k) := by
  have me : (((u.modMe (setStream n f)).dropRead n).tick).me = setStream n f u.me := State.me_modMe u _
  refine ⟨?_, fun m hm => ?_, ?_, fun k hk => State.slot_modSlot_other u u.cur k _ hk⟩
  · rw [me, getStream_setStream_same]
  · rw [me, getStream_setStream_other _ _ hm]
  · rw [me]
    rfl

theorem refill_ahead (s : State) (k : Nat) (st : Stream) : ∃ read, refill s k st = { st with ahead := read } := by
  unfold refill
  split <;> exact ⟨_, rfl⟩

/-- The pass over the descriptor leaves the slots, and of a core all but what counts its passes and errors. -/
theorem descriptorRead_spec (s : State) (x : Reg) :
    (∃ cores flipped, descriptorRead s x = { s with cores := cores, flipped := flipped })
      ∧ ∀ k, ((descriptorRead s x).core k).ls = (s.core k).ls ∧ ((descriptorRead s x).core k).emptyWords = (s.core k).emptyWords := by
  have sig : s.SigOnly (descriptorRead s x) := (sigOnly_lsCorrect s _ _).trans (sigOnly_claimBanks _ _ _)
  refine ⟨?_, fun k => ?_⟩
  · obtain ⟨_, _, e⟩ := lsCorrect_frame s (coreOf s.cur) (lsBytes (s.rx x).toNat 32)
    rw [descriptorRead, e]
    exact ⟨_, _, rfl⟩
  · obtain ⟨_, _, _, _, e⟩ := sig.core k
    rw [e]
    exact ⟨rfl, rfl⟩

theorem sbind_binds (s : State) (n : BitVec 2) (x : Reg) (st : Stream) :
    let t := (((descriptorRead s x).modMe (setStream n (fun _ => refill s s.cur st))).dropRead n).tick
    (∃ read, getStream t.me n = { st with ahead := read }) ∧ (∀ m, m ≠ n → getStream t.me m = getStream s.me m)
      ∧ t.me = { s.me with streams := t.me.streams } ∧ (∀ k, k ≠ s.cur → t.slot k = s.slot k)
      ∧ t.mem = s.mem ∧ ∀ k, (t.core k).ls = (s.core k).ls ∧ (t.core k).emptyWords = (s.core k).emptyWords := by
  obtain ⟨⟨cores, flipped, e⟩, bytes⟩ := descriptorRead_spec s x
  obtain ⟨here, other, me, slots⟩ := streamSet_spec (descriptorRead s x) n (fun _ => refill s s.cur st)
  have slot : ∀ k, (descriptorRead s x).slot k = s.slot k := fun k => by rw [e]; rfl
  have cur : (descriptorRead s x).cur = s.cur := by rw [e]
  have mem : (descriptorRead s x).mem = s.mem := by rw [e]
  have meEq : (descriptorRead s x).me = s.me := by rw [State.me, slot, cur]; rfl
  rw [meEq] at me
  simp only [meEq] at other
  simp only [cur, slot] at slots
  obtain ⟨read, ahead⟩ := refill_ahead s s.cur st
  exact ⟨⟨read, here.trans ahead⟩, other, me, slots, mem, bytes⟩

theorem streamFrom_eq (ty : BitVec 3) (d0 d1 d2 : Word) : streamFrom ty d0 d1 d2 =
    { bound := true, ty := ty, base := d0.extractLsb' 0 16, ndim1 := (d0.extractLsb' 16 3).toNat,
      cnt := splitWord d1, str := splitWord d2, idx := [0, 0, 0, 0], eod := [false, false, false, false], ahead := [] } := by
  simp [streamFrom, bits]

theorem exec_sskip_unbound {s : State} {n : BitVec 2} (x : Reg) (h : (getStream s.me n).bound = false) :
    exec (.sskip n x) s = trapOut s 5 0x09 (n.setWidth 64) :=
  if_neg (by simp [h])

theorem exec_beod_unbound {s : State} {n : BitVec 2} (k : BitVec 2) (off : BitVec 15) (h : (getStream s.me n).bound = false) :
    exec (.beod n k off) s = trapOut s 5 0x09 (n.setWidth 64) :=
  if_neg (by simp [h])

/-- Settles O11: the equation of SBIND inside its share goes through the checks in their order, and what is left then binds
the stream (`sbind_binds`). -/
theorem streamBinds : Obligations.StreamBinds := by
  refine ⟨fun s n ty x => ?_, fun s n k ty x off15 => ⟨exec_sbind_outside, fun inside low sound => ⟨?_, ?_, ?_⟩,
    fun unbound => ⟨exec_sskip_unbound x unbound, exec_beod_unbound k off15 unbound⟩⟩⟩
  · intro off word part found aligned above below low sound zero0 zero3 wellFormed inRange
    have e : descriptorStream s ty x = found := streamFrom_eq ty _ _ _
    have unreserved : ¬ descriptorReserved s x := not_or.mpr ⟨not_not_intro zero0, not_not_intro zero3⟩
    have passes := exec_sbind_passes n ty ⟨aligned, above, below⟩ low sound unreserved (e ▸ wellFormed) (e ▸ inRange)
    rw [e] at passes
    exact ⟨_, passes, sbind_binds s n x found⟩
  · exact exec_sbind_reserved n ty inside low sound
  · exact exec_sbind_illFormed n ty inside low sound
  · exact exec_sbind_outOfRange n ty inside low sound

/-! ## SFREE, SSKIP and BEOD of a bound stream -/

theorem streamReg_eq (n : BitVec 2) : RawA.streamReg n = 24 + n.setWidth 5 := by
  revert n
  decide

/-- The stream of register x(24 + N) is stream N (R43). -/
theorem streamOf_streamReg (sl : Slot) (n : BitVec 2) :
    sl.streamOf (RawA.streamReg n) = if (getStream sl n).bound then some (getStream sl n) else none := by
  have number : (RawA.streamReg n).toNat = 24 + n.toNat := by
    revert n
    decide
  have := n.isLt
  unfold Slot.streamOf
  rw [dif_pos (by omega)]
  simp only [number, Nat.add_sub_cancel_left]
  rfl

/-- What SFREE of a bound stream makes of the slot (R96). -/
def Slot.freeStream (sl : Slot) (n : BitVec 2) : Slot :=
  { setStream n (fun _ => Stream.unbound) sl with
    x := sl.x.set (RawA.streamReg n).toNat 0 (RawA.streamReg n).isLt
    present := sl.present ||| (1#64 <<< (RawA.streamReg n).toNat) }

theorem exec_sfree_bound {s : State} {n : BitVec 2} (h : (getStream s.me n).bound = true) :
    exec (.sfree n) s = .next ((s.modMe (·.freeStream n)).dropRead n) :=
  if_pos h

theorem exec_sfree_unbound {s : State} {n : BitVec 2} (h : (getStream s.me n).bound = false) : exec (.sfree n) s = .next s :=
  if_neg (by simp [h])

theorem streamOf_freeStream (sl : Slot) (n : BitVec 2) : (sl.freeStream n).streamOf (RawA.streamReg n) = none := by
  have free : getStream (sl.freeStream n) n = Stream.unbound := getStream_setStream_same n (fun _ => Stream.unbound) sl
  rw [streamOf_streamReg, free]
  rfl

theorem getX_freeStream_same (sl : Slot) (n : BitVec 2) : (sl.freeStream n).getX (RawA.streamReg n) = 0 := by
  simp [Slot.getX, Slot.freeStream]

theorem getX_freeStream_other (sl : Slot) (n : BitVec 2) {r : Reg} (h : r ≠ RawA.streamReg n) :
    (sl.freeStream n).getX r = sl.getX r := by
  have ne : (RawA.streamReg n).toNat ≠ r.toNat := fun e => h (BitVec.eq_of_toNat_eq e.symm)
  simp only [Slot.getX, Slot.freeStream, Vector.getElem_set_ne _ _ ne]

theorem exec_sskip_bound {s : State} {n : BitVec 2} (x : Reg) (h : (getStream s.me n).bound = true) : exec (.sskip n x) s =
    .next ((s.modMe (setStream n fun st => refill s s.cur
      { (if s.iss.reads.getLsbD n.toNat then st.advance else st).skip ((s.rx x).toNat % (getStream s.me n).total) with
        ahead := [] })).dropRead n).tick :=
  if_pos h

theorem exec_beod_bound {s : State} {n : BitVec 2} (k : BitVec 2) (off : BitVec 15) (h : (getStream s.me n).bound = true) :
    exec (.beod n k off) s =
      branchIf (decide (k.toNat ≤ (getStream s.me n).ndim1) && ((getStream s.me n).eod[k.toNat]?).getD false) off s :=
  if_pos h

/-- Settles O12: SFREE is `Slot.freeStream` on the slot, SSKIP a change of the one stream (`streamSet_spec`), and BEOD a
branch (`branchIf_eq`). -/
theorem streamMoves : Obligations.StreamMoves := by
  intro s n k x off st steps from_ w goes
  have register : w = RawA.streamReg n := (streamReg_eq n).symm
  refine ⟨exec_sfree_unbound, fun bound => ?_, fun bound => ?_, fun bound => ?_⟩
  · have me : ((s.modMe (·.freeStream n)).dropRead n).me = s.me.freeStream n := State.me_modMe s (·.freeStream n)
    refine ⟨_, exec_sfree_bound bound, ?_⟩
    rw [me, register]
    exact ⟨streamOf_freeStream _ n, getX_freeStream_same _ n, fun r hr => getX_freeStream_other _ n hr,
      fun m hm => getStream_setStream_other (fun _ => Stream.unbound) s.me hm, rfl, rfl,
      fun j hj => State.slot_modSlot_other s s.cur j (·.freeStream n) hj, rfl, rfl⟩
  · obtain ⟨here, other, me, slots⟩ := streamSet_spec s n fun st => refill s s.cur
      { (if s.iss.reads.getLsbD n.toNat then st.advance else st).skip steps with ahead := [] }
    obtain ⟨read, ahead⟩ := refill_ahead s s.cur { from_.skip steps with ahead := [] }
    exact ⟨_, read, exec_sskip_bound x bound, here.trans ahead, other, me, slots, rfl, rfl⟩
  · exact (exec_beod_bound k off bound).trans (branchIf_eq _ _ Iff.rfl off s)

end Sys2Proof.Machine

/-! PROOFS of O29. A fence waits and then commits (R106, R272); a prefetch and a block counter go through the translation
of a hint, which touches translation buffers and copies alone (R204, R305, R310). -/

namespace Sys2Proof.Machine

/-! ## Fences -/

/-- The access that a fence parks. -/
def fenceReq (o : BitVec 2) (sc : BitVec 3) (w : Nat) : MemReq :=
  { MemReq.new .fence w 0 [] with acq := acqPart o, rel := relPart o, scope := sc.toNat }

/-- A fence has issued: the slot waits for its ordering to hold, and nothing that a program reads has changed (R106). -/
theorem park_fence (s : State) (o : BitVec 2) (sc : BitVec 3) (w : Nat) {t : State}
    (h : ∀ k, t.slot k = (park s s.cur .waitMem (.mem (fenceReq o sc w))).slot k) (hcur : t.cur = s.cur) :
    t.me.state = .waitMem ∧ t.me.x = s.me.x ∧ t.me.pc = s.me.pc ∧ (∀ j, j ≠ s.cur → t.slot j = s.slot j)
      ∧ ∃ r, t.me.wait = .mem r ∧ r.op = .fence ∧ r.w = w ∧ r.acq = o.getLsbD 0 ∧ r.rel = o.getLsbD 1
        ∧ r.scope = sc.toNat := by
  have me : t.me = ({ s.me with wait := .mem (fenceReq o sc w) } : Slot).enter s.cycle .waitMem := by
    rw [State.me, hcur, h]
    exact slot_park_same s s.cur .waitMem _
  rw [me]
  exact ⟨by simp, by simp, by simp, fun j hj => (h j).trans (slot_park_other s s.cur j _ _ hj),
    fenceReq o sc w, by simp, rfl, rfl, rfl, rfl, rfl⟩

theorem exec_fence (s : State) (o : BitVec 2) (sc : BitVec 3) : exec (.fence o sc) s =
    .next ((park s s.cur .waitMem (.mem (fenceReq o sc 0))).later Config.latReply
      (.remoteReply (.ctx (coreOf s.cur) s.me.ctxNum) .done 0)) := rfl

theorem exec_fenceEng (s : State) (o : BitVec 2) (sc : BitVec 3) : exec (.fenceEng o sc) s =
    if s.me.outstanding ≠ 0 then .next (park s s.cur .waitMem (.mem (fenceReq o sc 1)))
    else .next ((park s s.cur .waitMem (.mem (fenceReq o sc 1))).later Config.latReply
      (.remoteReply (.ctx (coreOf s.cur) s.me.ctxNum) .done 0)) := by
  show fence o sc true s = _
  simp [fence, fenceReq]

/-- What the ordering of a FENCE makes of the slot: the pending release, and where it acquires, a full accumulator (R106,
R271). -/
def Slot.fenced (sl : Slot) (r : MemReq) : Slot :=
  if r.acq then { sl with fenceRel := r.rel, accCur := BitVec.allOnes 512, accPrev := BitVec.allOnes 512 }
  else { sl with fenceRel := r.rel }

theorem fenced_keeps (sl : Slot) (r : MemReq) : sl.fenced r = { sl with
    fenceRel := r.rel, accCur := (sl.fenced r).accCur, accPrev := (sl.fenced r).accPrev } := by
  unfold Slot.fenced
  split <;> rfl

theorem acc_fenced (sl : Slot) (r : MemReq) : (sl.fenced r).acc = if r.acq then BitVec.allOnes 512 else sl.acc := by
  unfold Slot.fenced Slot.acc
  split
  · exact BitVec.or_self
  · rfl

/-- A change of the slot of a context that keeps its state and its number leaves the context where it is. -/
theorem ctxSlot_modSlot {s : State} {c num k : Nat} (hk : ctxSlot s c num = some k) {f : Slot → Slot}
    (hf : ∀ sl, (f sl).state = sl.state ∧ (f sl).ctxNum = sl.ctxNum) : ctxSlot (s.modSlot k f) c num = some k := by
  rw [← hk]
  refine ctxSlot_congr s _ c num fun j => ?_
  rw [slot_modSlot]
  split
  · next e => exact e ▸ hf _
  · exact ⟨rfl, rfl⟩

/-- The ordering of a plain FENCE below scope 4 changes its slot, whose streams are read ahead afresh (R98). -/
theorem fenceEffect_eq {s : State} {c num k : Nat} {r : MemReq} (hk : ctxSlot s c num = some k) (hw : r.w = 0) (hs : r.scope < 4) :
    fenceEffect s c num r = syncStreams (s.modSlot k (·.fenced r)) k := by
  have change : (fun sl : Slot =>
      let sl1 := { sl with fenceRel := r.rel }
      let sl2 := if r.acq then { sl1 with accCur := BitVec.allOnes 512, accPrev := BitVec.allOnes 512 } else sl1
      if r.w = 1 then sl2.addAcc ((sl.tokenSigs.foldl (fun a p => a ||| p.2) 0) ||| coreSig s c sl.world) else sl2) = (·.fenced r) := by
    funext sl
    simp [hw, Slot.fenced]
  have kept : ctxSlot (s.modSlot k (·.fenced r)) c num = some k :=
    ctxSlot_modSlot hk fun sl => by rw [fenced_keeps]; exact ⟨rfl, rfl⟩
  have near : ¬ (r.acq = true ∧ 4 ≤ r.scope) := by omega
  unfold fenceEffect
  dsimp only at change ⊢
  rw [change, if_neg near, modCtx_eq s c num k _ hk, kept]

/-- Reading streams ahead afresh changes streams alone. -/
theorem slot_syncStreams (s : State) (k j : Nat) : ∃ streams, (syncStreams s k).slot j = { s.slot j with streams := streams } := by
  rw [syncStreams, State.slot_tick, slot_modSlot]
  split
  · next e =>
    rw [e]
    exact ⟨_, rfl⟩
  · exact ⟨_, rfl⟩

theorem fenceEffect_slot {s : State} {c num k : Nat} {r : MemReq} (hk : ctxSlot s c num = some k) (hw : r.w = 0) (hs : r.scope < 4) :
    (∃ streams, (fenceEffect s c num r).slot k = { (s.slot k).fenced r with streams := streams })
      ∧ ctxSlot (fenceEffect s c num r) c num = some k ∧ (fenceEffect s c num r).cycle = s.cycle := by
  have fenced : ctxSlot (s.modSlot k (·.fenced r)) c num = some k :=
    ctxSlot_modSlot hk fun sl => by rw [fenced_keeps]; exact ⟨rfl, rfl⟩
  rw [fenceEffect_eq hk hw hs]
  refine ⟨?_, ?_, rfl⟩
  · obtain ⟨streams, e⟩ := slot_syncStreams (s.modSlot k (·.fenced r)) k k
    rw [e, State.slot_modSlot_same]
    exact ⟨streams, rfl⟩
  · rw [← fenced]
    refine ctxSlot_congr _ _ c num fun j => ?_
    obtain ⟨streams, e⟩ := slot_syncStreams (s.modSlot k (·.fenced r)) k j
    rw [e]
    exact ⟨rfl, rfl⟩

theorem fence_reply {s : State} {c num k : Nat} {r : MemReq} (hk : ctxSlot s c num = some k) (hw : (s.slot k).wait = .mem r)
    (ho : r.op = .fence) (plain : r.w = 0) (live : (s.polder (s.slot k).world).state = .live) :
    exec (.remoteReply (.ctx c num) .done 0) s = .next (finishCtx (fenceEffect s c num r) c num id) := by
  have ctx := ctxOf_eq s c num k hk
  show Host.Outcome.next (ctxReply s c num .done 0) = _
  simp [ctxReply, ctxGone, waitsFor, ctx, hw, live, memReply, ho, fenceReply, plain]

/-- The ordering of a plain FENCE holds: its bundle commits with the pending release and the accumulator (R106). -/
theorem fence_commits {s : State} {c num k : Nat} {r : MemReq} (hk : ctxSlot s c num = some k) (hw : (s.slot k).wait = .mem r)
    (plain : r.w = 0) (near : r.scope < 4) (hl : (s.slot k).longUntil ≤ s.cycle) (hr : (s.slot k).streamsRead = 0)
    (hh : (s.slot k).held = Held.none) (hs : (s.slot k).stopPending = false) :
    let t := finishCtx (fenceEffect s c num r) c num id
    (t.slot k).state = .ready ∧ (t.slot k).pc = (s.slot k).npc ∧ (t.slot k).fenceRel = r.rel ∧ (t.slot k).x = (s.slot k).x
      ∧ (t.slot k).v = (s.slot k).v ∧ (t.slot k).acc = if r.acq then BitVec.allOnes 512 else (s.slot k).acc := by
  intro t
  obtain ⟨⟨streams, slot⟩, kept, cycle⟩ := fenceEffect_slot hk plain near
  have acc := acc_fenced (s.slot k) r
  rw [fenced_keeps] at slot
  have slotT : t.slot k = _ := slot_finishCtx_same (f := id) kept (by rw [slot, cycle]; exact hl) (by rw [slot]; exact hr)
    (by rw [slot]; exact hs) (by rw [slot]; exact hh) (by rw [slot]; simp [hw])
  rw [slotT, slot]
  refine ⟨by simp, by simp, by simp, by simp, by simp, ?_⟩
  rw [← acc]
  simp [Slot.acc]

/-! ## The translation of a hint -/

/-- The translation of a hint changes the dies, and of the clusters all but their block counters. -/
structure Translates (s t : State) : Prop where
  frame : ∃ dies clusters, t = { s with dies := dies, clusters := clusters }
  counters : ∀ cl, (t.cluster cl).bbc = (s.cluster cl).bbc

namespace Translates

theorem refl (s : State) : Translates s s := ⟨⟨_, _, rfl⟩, fun _ => rfl⟩

theorem trans {s t u : State} (h : Translates s t) (h' : Translates t u) : Translates s u := by
  obtain ⟨_, _, e⟩ := h.frame
  obtain ⟨_, _, e'⟩ := h'.frame
  exact ⟨⟨_, _, by rw [e', e]⟩, fun cl => (h'.counters cl).trans (h.counters cl)⟩

theorem modDie (s : State) (die : Nat) (f : Die → Die) : Translates s (s.modDie die f) := ⟨⟨_, _, rfl⟩, fun _ => rfl⟩

theorem tlbCluster (s : State) (cl : Nat) (e : TlbEntry) : Translates s (tlbCluster s cl e) := by
  refine ⟨⟨_, _, rfl⟩, fun c => ?_⟩
  unfold Machine.tlbCluster
  by_cases hc : c = cl
  · rw [hc, State.cluster_modCluster_same]
  · rw [State.cluster_modCluster_other _ _ _ _ hc]

theorem foldl {α : Type} {f : State → α → State} (hf : ∀ s a, Translates s (f s a)) (l : List α) (s : State) :
    Translates s (l.foldl f s) := by
  induction l generalizing s with
  | nil => exact refl s
  | cons a l ih => exact (hf s a).trans (ih _)

theorem touchPage (s : State) (cl world va : Nat) : Translates s (touchPage s cl world va) := by
  unfold Machine.touchPage
  split
  · exact tlbCluster ..
  split
  · exact (modDie ..).trans (tlbCluster ..)
  · exact refl s

theorem walkEffect (s : State) (die world va : Nat) : Translates s (walkEffect s die world va) := by
  unfold Machine.walkEffect
  exact (foldl (fun t _ => modDie t _ _) _ s).trans (modDie ..)

theorem hintLeaf (s : State) (cl world va : Nat) : Translates s (hintLeaf s cl world va).1 := by
  unfold Machine.hintLeaf
  split
  · exact touchPage ..
  · split
    · exact refl s
    dsimp only
    split
    · exact ((walkEffect ..).trans (modDie ..)).trans (tlbCluster ..)
    · exact walkEffect ..
  · exact refl s

theorem hintTarget (s : State) (cl world va : Nat) (need : Need) : Translates s (hintTarget s cl world va need).1 := by
  have leaf := hintLeaf s cl world va
  unfold Machine.hintTarget
  split
  · exact refl s
  · split
    · next e =>
      rw [e] at leaf
      exact leaf
    · next e =>
      rw [e] at leaf
      exact leaf

theorem of_hintTarget {s u : State} {cl world va : Nat} {need : Need} {w : Option Target}
    (h : Machine.hintTarget s cl world va need = (u, w)) : Translates s u := by
  have := hintTarget s cl world va need
  rwa [h] at this

/-- What no translation of a hint touches. -/
theorem fields {s t : State} (h : Translates s t) : t.slots = s.slots ∧ t.cur = s.cur ∧ t.mem = s.mem ∧ t.moduleNo = s.moduleNo
    ∧ t.granules = s.granules ∧ t.poison = s.poison ∧ t.hbm = s.hbm ∧ t.flipped = s.flipped := by
  obtain ⟨_, _, e⟩ := h.frame
  rw [e]
  exact ⟨rfl, rfl, rfl, rfl, rfl, rfl, rfl, rfl⟩

theorem refuses_eq {s t : State} (h : Translates s t) : refuses t = refuses s := by
  obtain ⟨_, _, e⟩ := h.frame
  rw [e]
  rfl

theorem targetOf_eq {s t : State} (h : Translates s t) : targetOf t = targetOf s := by
  obtain ⟨_, _, e⟩ := h.frame
  rw [e]
  rfl

end Translates

/-- A use of a page touches no copy of a remote line and no fill. -/
theorem die_touchPage (s : State) (cl world va die : Nat) :
    ((touchPage s cl world va).die die).rdc = (s.die die).rdc ∧ ((touchPage s cl world va).die die).fills = (s.die die).fills := by
  unfold touchPage
  split
  · exact ⟨rfl, rfl⟩
  split
  · next e _ =>
    have die_tlbDie : ∀ t, ((tlbDie s (dieOfCluster cl) t).die die).rdc = (s.die die).rdc
        ∧ ((tlbDie s (dieOfCluster cl) t).die die).fills = (s.die die).fills := fun t => by
      unfold tlbDie
      by_cases h : die = dieOfCluster cl
      · rw [h, State.die_modDie_same]
        exact ⟨rfl, rfl⟩
      · rw [State.die_modDie_other _ _ _ _ h]
        exact ⟨rfl, rfl⟩
    exact die_tlbDie _
  · exact ⟨rfl, rfl⟩

theorem hintLeaf_leaf {s : State} {cl world va : Nat} {l : Leaf} (h : resolve s cl world va = .leaf l) :
    hintLeaf s cl world va = (touchPage s cl world va, some l) := by
  unfold hintLeaf
  rw [h]

/-! ## Prefetches -/

/-- The address of a data prefetch (R204). -/
def prefetchAddr (s : State) (x : Reg) (p : BitVec 7) : Nat := (s.rx x + p.signExtend 64 * 8).toNat % 2 ^ 57

theorem prefetch_low {s : State} {x : Reg} {p : BitVec 7} (write : Bool) (h : prefetchAddr s x p < 0x20000) :
    prefetch x p write s = .next (dropHint s 1) :=
  if_pos h

theorem kind_of_home {s : State} {l : Leaf} {va pa : Nat} (h : targetOf s l va = .home pa) : l.kind ≠ 2 := by
  intro k
  rw [targetOf, if_pos k] at h
  cases h

/-- A prefetch of a page that the buffers hold and that does not refuse it: the entry's use, and for a read the line. -/
theorem prefetch_home {s : State} {x : Reg} {p : BitVec 7} {write : Bool} {l : Leaf} {pa : Nat}
    (high : 0x20000 ≤ prefetchAddr s x p) (leaf : resolve s (clusterOf s.cur) s.me.world (prefetchAddr s x p) = .leaf l)
    (home : targetOf s l (prefetchAddr s x p) = .home pa) (reads : refuses s l s.me.world (prefetchAddr s x p) .load = false)
    (writes : write = true → refuses s l s.me.world (prefetchAddr s x p) .store = false) :
    prefetch x p write s = .next (if write then touchPage s (clusterOf s.cur) s.me.world (prefetchAddr s x p)
      else prefetchFill (touchPage s (clusterOf s.cur) s.me.world (prefetchAddr s x p)) (dieOf s.cur) s.me.world (.home pa)) := by
  have touched := Translates.touchPage s (clusterOf s.cur) s.me.world (prefetchAddr s x p)
  have addr : eaMem (s.rx x) p 8 = prefetchAddr s x p := rfl
  have low : ¬ prefetchAddr s x p < translatedBase := Nat.not_lt.mpr high
  have passes : ¬ (l.kind = 2 ∨ refuses s l s.me.world (prefetchAddr s x p) .load = true
      ∨ (write = true ∧ refuses s l s.me.world (prefetchAddr s x p) .store = true)) := by
    have := kind_of_home home
    grind
  unfold prefetch
  simp only [addr, if_neg low, hintLeaf_leaf leaf, touched.refuses_eq, touched.targetOf_eq, if_neg passes, home]
  split <;> rfl

theorem prefetchFill_own {s : State} {die world pa : Nat} (h : homeDie pa = die) : prefetchFill s die world (.home pa) = s :=
  if_pos (.inl h)

/-- A line of another die of which the die holds no copy and awaits none is asked for. -/
theorem prefetchFill_other {s : State} {die world pa : Nat} (h : homeDie pa ≠ die)
    (noCopy : findCopy s die world (lineKey s.moduleNo pa) = none) (noFill : openFill s die world (lineKey s.moduleNo pa) = none)
    (hp : s.poison = []) (hh : s.hbm = []) (hf : s.flipped = []) :
    prefetchFill s die world (.home pa)
      = startFill s die world (lineKey s.moduleNo pa) (cellRead s.mem (pa / 64 * 64) 64) [] := by
  have fills : ¬ (homeDie pa = die ∨ ((findCopy s die world (lineKey s.moduleNo pa)).isSome
      || (openFill s die world (lineKey s.moduleNo pa)).isSome) = true) := by
    simp [h, noCopy, noFill]
  unfold prefetchFill
  simp only [if_neg fills, homeRead_plain _ _ hp hh hf]

theorem startFill_spec (s : State) (die world line : Nat) (data : List Byte) :
    ∃ f : RdcFill, ((startFill s die world line data []).die die).fills = (s.die die).fills ++ [f] ∧ f.waiters = [] ∧ f.install
      ∧ f.line = line ∧ f.world = world ∧ f.data = data
      ∧ (startFill s die world line data []).slots = s.slots ∧ (startFill s die world line data []).mem = s.mem := by
  refine ⟨{ line := line, world := world, data := data, install := true, waiters := [], id := s.nextId },
    ?_, rfl, rfl, rfl, rfl, rfl, rfl, rfl⟩
  rw [startFill, State.laterAfter, die_at_, State.die_tick, State.die_modDie_same]
  rfl

/-- A read prefetch of a line of another die, once its page has been used: a fill that nobody waits for (R262). -/
theorem prefetchFill_touched (s : State) (cl world va : Nat) {die pa : Nat} (other : homeDie pa ≠ die)
    (noCopy : findCopy s die world (lineKey s.moduleNo pa) = none) (noFill : openFill s die world (lineKey s.moduleNo pa) = none)
    (hp : s.poison = []) (hh : s.hbm = []) (hf : s.flipped = []) :
    let t := prefetchFill (touchPage s cl world va) die world (.home pa)
    ∃ f : RdcFill, (t.die die).fills = (s.die die).fills ++ [f] ∧ f.waiters = [] ∧ f.install ∧ f.line = lineKey s.moduleNo pa
      ∧ f.world = world ∧ f.data = cellRead s.mem (pa / 64 * 64) 64 ∧ t.slots = s.slots ∧ t.mem = s.mem := by
  obtain ⟨slots, -, mem, moduleNo, -, poison, hbm, flipped⟩ := (Translates.touchPage s cl world va).fields
  obtain ⟨rdc, fills⟩ := die_touchPage s cl world va die
  have fill := prefetchFill_other (s := touchPage s cl world va) other
    (by rw [findCopy, rdc, moduleNo]; exact noCopy) (by rw [openFill, fills, moduleNo]; exact noFill)
    (poison.trans hp) (hbm.trans hh) (flipped.trans hf)
  rw [fill, ← fills, ← slots, ← mem, ← moduleNo]
  exact startFill_spec ..

/-! ## Block counters -/

/-- The address of the counter that BBC counts in (R107). -/
def counterAddr (s : State) (x : Reg) (e : BitVec 15) : Nat := (s.me.bbcbase + (s.rx x + e.setWidth 64) * 8).toNat

theorem exec_bbc_off {s : State} (x : Reg) (e : BitVec 15) (h : s.me.bbcbase = 0) : exec (.bbc x e) s = .next s := if_pos h

theorem exec_bbc_refused {s u : State} {x : Reg} {e : BitVec 15} (on : s.me.bbcbase ≠ 0)
    (h : hintTarget s (clusterOf s.cur) s.me.world (counterAddr s x e) .store = (u, none)) :
    exec (.bbc x e) s = .next (u.modCore (coreOf s.cur) (fun co => { co with dropped := co.dropped + 1 })) := by
  obtain ⟨-, cur, -⟩ := (Translates.of_hintTarget h).fields
  show execBbc x e s = _
  unfold counterAddr at h
  simp only [execBbc, if_neg on, zext, h, dropHint, cur]

theorem exec_bbc_new {s u : State} {x : Reg} {e : BitVec 15} {w : Target} (on : s.me.bbcbase ≠ 0)
    (h : hintTarget s (clusterOf s.cur) s.me.world (counterAddr s x e) .store = (u, some w))
    (absent : (u.cluster (clusterOf s.cur)).bbc.find? (fun b => b.world == s.me.world && b.addr == counterAddr s x e) = none)
    (room : (u.cluster (clusterOf s.cur)).bbc.length < 256) :
    exec (.bbc x e) s = .next (u.modCluster (clusterOf s.cur) (fun y => { y with
      bbc := y.bbc ++ [{ world := s.me.world, addr := counterAddr s x e, count := 1 }] })) := by
  have stays : ¬ 256 ≤ (u.cluster (clusterOf s.cur)).bbc.length := Nat.not_le.mpr room
  show execBbc x e s = _
  unfold counterAddr at h absent
  simp only [execBbc, if_neg on, zext, h, absent, if_neg stays]
  split <;> rfl

theorem exec_bbc_counts {s u : State} {x : Reg} {e : BitVec 15} {w : Target} {b : BlockCounter} (on : s.me.bbcbase ≠ 0)
    (h : hintTarget s (clusterOf s.cur) s.me.world (counterAddr s x e) .store = (u, some w))
    (found : (u.cluster (clusterOf s.cur)).bbc.find? (fun b => b.world == s.me.world && b.addr == counterAddr s x e) = some b)
    (low : b.count + 1 < 2 ^ 32 - 1) :
    exec (.bbc x e) s = .next (u.modCluster (clusterOf s.cur) (fun y => { y with
      bbc := y.bbc.map (fun z => if z = b then { z with count := z.count + 1 } else z) })) := by
  have more : ¬ b.count + 1 = 2 ^ 32 - 1 := by omega
  show execBbc x e s = _
  unfold counterAddr at h found
  simp only [execBbc, if_neg on, zext, h, found, if_neg more]

/-! ## A store at its home -/

theorem homeWrite_plain {s : State} (pa : Nat) (bs : List Byte) (hp : s.poison = []) (hh : s.hbm = []) (hf : s.flipped = []) :
    homeWrite s none pa bs = .ok (hitWatches (s.pokeMem pa bs) (linesOf pa bs.length)) := by
  unfold homeWrite
  simp only [fetchLines_plain _ hp hh hf, State.hbm_pokeMem, State.poison_pokeMem, hh, hp, List.isEmpty_nil, if_true]
  rfl

theorem bbc_find_map (m : NMap Cluster) (f : Nat × Cluster → Cluster) (hf : ∀ p, (f p).bbc = p.2.bbc) (cl : Nat) :
    ((NMap.find (m.map fun p => (p.1, f p)) cl).getD Cluster.reset).bbc = ((NMap.find m cl).getD Cluster.reset).bbc := by
  induction m with
  | nil => rfl
  | cons p m ih =>
    rw [List.map_cons, NMap.find, NMap.find]
    split
    · exact hf p
    · exact ih

/-- A watch that a store hits marks its request and nothing else. -/
theorem bbc_hitWatches (s : State) (lines : List Nat) (cl : Nat) : ((hitWatches s lines).cluster cl).bbc = (s.cluster cl).bbc := by
  unfold hitWatches hitWatchesBut
  dsimp only
  split
  · exact bbc_find_map s.clusters _ (by intro; rfl) cl
  · rfl

theorem updateCopies_frame (s : State) (die module pa : Nat) (bs : List Byte) :
    ∃ dies, updateCopies s die module pa bs = { s with dies := dies } := by
  unfold updateCopies
  dsimp only
  split <;> exact ⟨_, rfl⟩

/-- The increments that a flush adds are added at the counter's home (R310). -/
theorem flushCounter_home {s u : State} {cl world addr pa : Nat} {b : BlockCounter}
    (found : (s.cluster cl).bbc.find? (fun b => b.world == world && b.addr == addr) = some b)
    (h : hintTarget (s.modCluster cl (fun y => { y with bbc := y.bbc.erase b })) cl world addr .atomic = (u, some (.home pa)))
    (hp : u.poison = []) (hh : u.hbm = []) (hf : u.flipped = []) :
    let bytes := toLe (leNat (cellRead u.mem pa 8) + b.count) 8
    flushCounter s cl world addr =
      updateCopies (hitWatches (u.pokeMem pa bytes) (linesOf pa bytes.length)) (dieOfCluster cl) s.moduleNo pa bytes := by
  intro bytes
  unfold flushCounter
  simp only [found, h, homeRead_plain pa 8 hp hh hf]
  rw [homeWrite_plain pa _ hp hh hf]

theorem flushCounter_spec {s u : State} {cl world addr pa : Nat} {b : BlockCounter}
    (found : (s.cluster cl).bbc.find? (fun b => b.world == world && b.addr == addr) = some b)
    (h : hintTarget (s.modCluster cl (fun y => { y with bbc := y.bbc.erase b })) cl world addr .atomic = (u, some (.home pa)))
    (hp : s.poison = []) (hh : s.hbm = []) (hf : s.flipped = []) :
    let t := flushCounter s cl world addr
    (t.cluster cl).bbc = (s.cluster cl).bbc.erase b ∧ cellRead t.mem pa 8 = toLe (leNat (cellRead s.mem pa 8) + b.count) 8
      ∧ (∀ a, a < pa ∨ pa + 8 ≤ a → cellGet t.mem a = cellGet s.mem a) ∧ t.slots = s.slots := by
  intro t
  have translated := Translates.of_hintTarget h
  obtain ⟨slots, -, mem, -, -, poison, hbm, flipped⟩ := translated.fields
  have eq : t = _ := flushCounter_home found h (poison.trans hp) (hbm.trans hh) (flipped.trans hf)
  replace mem : u.mem = s.mem := mem
  rw [mem] at eq
  generalize hbytes : toLe (leNat (cellRead s.mem pa 8) + b.count) 8 = bytes at eq ⊢
  have length : bytes.length = 8 := by rw [← hbytes, length_toLe]
  obtain ⟨clusters, watches⟩ := hitWatches_frame (u.pokeMem pa bytes) (linesOf pa bytes.length)
  obtain ⟨dies, copies⟩ := updateCopies_frame (hitWatches (u.pokeMem pa bytes) (linesOf pa bytes.length))
    (dieOfCluster cl) s.moduleNo pa bytes
  have memT : t.mem = cellWrite s.mem pa bytes := by
    rw [eq, copies, watches, ← mem]
    rfl
  refine ⟨?_, ?_, fun a outside => ?_, ?_⟩
  · calc (t.cluster cl).bbc
        = ((hitWatches (u.pokeMem pa bytes) (linesOf pa bytes.length)).cluster cl).bbc := by rw [eq, copies]; rfl
      _ = (u.cluster cl).bbc := bbc_hitWatches ..
      _ = (s.cluster cl).bbc.erase b := by rw [translated.counters, State.cluster_modCluster_same]
  · rw [memT, ← length, cellRead_cellWrite_same]
  · rw [memT, cellGet_cellWrite_outside _ _ _ _ (by omega)]
  · rw [eq, copies, watches]
    exact slots

/-- Settles O29: the two fences and their reply, the prefetches by the place of their line, and the block counters by what
the translation of their address gives. -/
theorem fencesAndHints : Obligations.FencesAndHints := by
  intro s o sc x p e c cl fenceWaits replies ea die dropped counter
  refine ⟨fun _ => ⟨?fence, ?fenceEng⟩, fun c num k r hk hw ho plain near live hl hr hh hs => ?commits,
    fun low => ⟨prefetch_low false low, prefetch_low true low⟩,
    fun l pa high leaf home reads => ⟨fun own => ?own, fun writes => ?write, fun other noCopy noFill hp hh hf => ?other⟩,
    exec_bbc_off x e, fun u => exec_bbc_refused,
    fun u w on accepted => ⟨exec_bbc_new on accepted, fun b => exec_bbc_counts on accepted⟩,
    fun world addr pa b u found target hp hh hf => ⟨_, rfl, flushCounter_spec found target hp hh hf⟩⟩
  case fence =>
    exact ⟨_, exec_fence s o sc, park_fence s o sc 0 (fun _ => rfl) (park_cur ..), later_mem _ _ _ _ (park_cycle ..)⟩
  case fenceEng =>
    rw [exec_fenceEng]
    split
    · next busy => exact ⟨_, rfl, park_fence s o sc 1 (fun _ => rfl) (park_cur ..), fun idle => absurd idle busy⟩
    · exact ⟨_, rfl, park_fence s o sc 1 (fun _ => rfl) (park_cur ..), fun _ => later_mem _ _ _ _ (park_cycle ..)⟩
  case commits =>
    exact ⟨_, fence_reply hk hw ho plain live, fence_commits hk hw plain near hl hr hh hs⟩
  case own =>
    refine (prefetch_home (write := false) high leaf home reads nofun).trans ?_
    exact congrArg _ (prefetchFill_own own)
  case write => exact prefetch_home high leaf home reads fun _ => writes
  case other =>
    obtain ⟨f, filled⟩ := prefetchFill_touched s cl s.me.world ea other noCopy noFill hp hh hf
    exact ⟨_, f, prefetch_home (write := false) high leaf home reads nofun, filled⟩

end Sys2Proof.Machine

/-! PROOFS of O53. What a fold that keeps the better of two has chosen, then the save, the install, the spill and the
read-back of a context, and the urgent install (R118 to R122, R124, R288). -/

namespace Sys2Proof.Machine

/-! ## The choice that a fold makes -/

/-- The better of what a fold has kept so far and its next element. -/
def better {α : Type} (before : α → α → Prop) [DecidableRel before] (kept : Option α) (x : α) : Option α :=
  match kept with
  | none => some x
  | some y => if before x y then some x else some y

theorem better_cases {α : Type} (before : α → α → Prop) [DecidableRel before] (kept : Option α) (x : α) :
    better before kept x = some x ∨ ∃ y, kept = some y ∧ ¬ before x y ∧ better before kept x = some y := by
  cases kept with
  | none => exact .inl rfl
  | some y =>
    by_cases h : before x y
    · exact .inl (if_pos h)
    · exact .inr ⟨y, rfl, h, if_neg h⟩

/-- The folds of the model are folds with `better`. -/
theorem foldl_better_eq {α : Type} {before : α → α → Prop} [DecidableRel before] {g : Option α → α → Option α}
    {l : List α} {kept : Option α} (fresh : ∀ x, some x = g none x)
    (old : ∀ y x, (if before x y then some x else some y) = g (some y) x) :
    l.foldl (better before) kept = l.foldl g kept := by
  congr 1
  funext kept x
  cases kept with
  | none => exact fresh x
  | some y => exact old y x

theorem foldl_better_mem {α : Type} {before : α → α → Prop} [DecidableRel before] {l : List α} {kept : Option α} {z : α}
    (h : l.foldl (better before) kept = some z) : kept = some z ∨ z ∈ l := by
  induction l generalizing kept with
  | nil => exact .inl h
  | cons x l ih =>
    rcases ih h with now | later
    · rcases better_cases before kept x with new | ⟨y, old, -, same⟩
      · rw [new] at now
        cases now
        exact .inr List.mem_cons_self
      · exact .inl (old.trans (same.symm.trans now))
    · exact .inr (List.mem_cons_of_mem _ later)

/-- What a fold by a number chooses has the least one. -/
theorem foldl_better_least {α : Type} {f : α → Nat} {l : List α} {kept : Option α} {z : α}
    (h : l.foldl (better (fun x y => f x < f y)) kept = some z) :
    (∀ x ∈ l, f z ≤ f x) ∧ ∀ y, kept = some y → f z ≤ f y := by
  induction l generalizing kept with
  | nil => exact ⟨fun _ h => absurd h List.not_mem_nil, fun y hy => by cases hy.symm.trans h; exact Nat.le_refl _⟩
  | cons x l ih =>
    obtain ⟨rest, first⟩ := ih h
    rw [List.forall_mem_cons]
    rcases better_cases (fun x y => f x < f y) kept x with new | ⟨y, old, after, same⟩
    · refine ⟨⟨first x new, rest⟩, fun y hy => ?_⟩
      subst hy
      by_cases less : f x < f y
      · exact (first x new).trans (Nat.le_of_lt less)
      · exact first y (if_neg less)
    · refine ⟨⟨(first y same).trans (Nat.le_of_not_lt after), rest⟩, fun y' hy => ?_⟩
      cases old.symm.trans hy
      exact first y same

/-- The entry that a spill takes is not LOST, and none of the others is older (R120). -/
theorem spillVictim_spec {l : List CtxEntry} {e : CtxEntry} (h : spillVictim l = some e) :
    e.lost = false ∧ ∀ x ∈ l, x.lost = false → e.lastUse ≤ x.lastUse := by
  have fold : (l.filter (!·.lost)).foldl (better (fun x y => x.lastUse < y.lastUse)) none = some e :=
    (foldl_better_eq (fun _ => rfl) fun _ _ => rfl).trans h
  have kept (x : CtxEntry) : x ∈ l.filter (!·.lost) ↔ x ∈ l ∧ x.lost = false := by simp
  refine ⟨?_, fun x hx lost => (foldl_better_least fold).1 x ((kept x).mpr ⟨hx, lost⟩)⟩
  rcases foldl_better_mem fold with start | inside
  · cases start
  · exact ((kept e).mp inside).2

/-- The slot that is pre-empted is a general slot of the core (R118). -/
theorem victim_general {s : State} {c world p k : Nat} (h : victim s c world p = some k) : k ∈ generalSlots c := by
  unfold victim at h
  split at h
  · next j chosen =>
    have fold : ((generalSlots c).filter (candidate s world)).foldl (better (fun a b => choosesBefore s p a b = true)) none
        = some j := (foldl_better_eq (fun _ => rfl) fun _ _ => rfl).trans chosen
    split at h
    · cases h
      rcases foldl_better_mem fold with start | inside
      · cases start
      · exact (List.mem_filter.mp inside).1
    · cases h
  · cases h

theorem coreOf_general {c k : Nat} (h : k ∈ generalSlots c) : coreOf k = c := by
  obtain ⟨i, hi, rfl⟩ := List.mem_map.mp h
  have := List.mem_range.mp hi
  unfold coreOf
  omega

/-! ## Pre-emption and the save -/

theorem preemption_idle {s : State} {core world : Nat}
    (h : freePrios s core world = [] ∨ (emptyGeneral s core).isSome = true) :
    exec (.preemption core world) s = .next s := by
  show execPreemption core world s = _
  unfold execPreemption
  rcases h with nothing | empty
  · rw [nothing]
  · split
    · rfl
    · exact if_pos (.inl empty)

/-- One ready item, no slot for it and room in the context cache: the choice of R118 decides. -/
theorem preemption_one {s : State} {core world p : Nat} (hp : freePrios s core world = [p])
    (he : emptyGeneral s core = none) (room : (s.cluster (clusterOfCore core)).cache.length < 32) :
    exec (.preemption core world) s = (victim s core world p).elim (.next s) (fun k =>
      if midway (s.slot k) then .next (s.next1 (.preemption core world)) else .next (beginSave s k p)) := by
  have go : ¬ ((emptyGeneral s core).isSome ∨ (32 ≤ (s.cluster (clusterOfCore core)).cache.length
      ∧ (s.cluster (clusterOfCore core)).cache.all (·.lost) = true)) := by
    rw [he]
    rintro (found | ⟨full, -⟩)
    · cases found
    · omega
  show execPreemption core world s = _
  unfold execPreemption
  rw [hp]
  refine (if_neg go).trans ?_
  cases hv : victim s core world p with
  | none => simp only [List.foldl_nil, hv, Option.elim_none]
  | some k => simp only [List.foldl_nil, hv, Option.elim_some]

/-- The entry of a context that is saved. -/
def savedEntry (s : State) (k : Nat) : CtxEntry :=
  { core := coreOf k, slot := savedForm s (s.slot k), lastUse := s.cycle, lost := false, since := s.cycle }

/-- A READY context is saved with its registers as they stand, and can be installed again (R119). -/
theorem savedForm_ready (s : State) {sl : Slot} (hs : sl.state = .ready) (hw : sl.wait = .none) :
    (savedForm s sl).saved = .ready ∧ (savedForm s sl).state = .swapped ∧ (savedForm s sl).x = sl.x
      ∧ (savedForm s sl).v = sl.v ∧ (savedForm s sl).pc = sl.pc ∧ (savedForm s sl).ctxNum = sl.ctxNum
      ∧ (savedForm s sl).pending = sl.pending := by
  unfold savedForm
  rw [hw, hs]
  exact ⟨rfl, rfl, rfl, rfl, rfl, rfl, rfl⟩

/-- The slot of a save for an item of priority `p`, until the save completes. -/
def handedOver (s : State) (k p : Nat) : Slot :=
  { Slot.reset with
    state := .swapped, saved := .swapped, world := (s.slot k).world, prio := p, ctxNum := (s.slot k).ctxNum, launch := noLaunch
    waitSince := s.cycle, outstanding := 0 }

/-- A save of a READY context with room for its entry appends the entry and hands the slot over; its end comes within 24
cycles (R119, R120). -/
theorem beginSave_room {s : State} {k : Nat} (p : Nat) (ready : (savedForm s (s.slot k)).saved = .ready)
    (new : hasEntry (coreOf k) (s.slot k).ctxNum (s.cluster (clusterOf k)).cache = false)
    (room : (s.cluster (clusterOf k)).cache.length < 32) :
    ∃ u : State, beginSave s k p = u.within Config.latSave 24 (.contextSave k) ∧ u.cycle = s.cycle ∧ u.mem = s.mem
      ∧ u.slot k = handedOver s k p ∧ (∀ j, j ≠ k → u.slot j = s.slot j)
      ∧ (u.cluster (clusterOf k)).cache = (s.cluster (clusterOf k)).cache ++ [savedEntry s k] := by
  have few : ¬ 32 ≤ (s.cluster (clusterOf k)).cache.length := Nat.not_le.mpr room
  unfold beginSave
  simp only [new, few, ready, decide_false, Bool.and_false, Bool.false_eq_true, if_false, if_true]
  refine ⟨_, rfl, ?_, ?_, ?_, fun j hj => ?_, ?_⟩
  · simp [publishCore]
  · simp [publishCore]
  · simp [handedOver]
  · simp [publishCore, State.slot_setSlot_other _ _ _ _ hj, slot_toState_other _ _ _ _ hj]
  · simp [publishCore, new, savedEntry]

/-- The slot that R118 chooses, READY between two bundles, is saved for the ready item (R118, R119). -/
theorem preemption_saves {s : State} {core world p k : Nat} (hp : freePrios s core world = [p])
    (he : emptyGeneral s core = none) (room : (s.cluster (clusterOfCore core)).cache.length < 32)
    (hv : victim s core world p = some k) (hm : midway (s.slot k) = false) (hs : (s.slot k).state = .ready)
    (hw : (s.slot k).wait = .none)
    (new : hasEntry (coreOf k) (s.slot k).ctxNum (s.cluster (clusterOf k)).cache = false) :
    ∃ t due x, exec (.preemption core world) s = .next t ∧ (t.slot k).state = .swapped ∧ (t.slot k).ctxNum = (s.slot k).ctxNum
      ∧ (t.slot k).prio = p ∧ (∀ j, j ≠ k → t.slot j = s.slot j) ∧ t.mem = s.mem ∧ s.cycle < due ∧ due ≤ s.cycle + 24
      ∧ (due, Event.contextSave k) ∈ t.agenda ∧ (t.cluster (clusterOf k)).cache = (s.cluster (clusterOf k)).cache ++ [x]
      ∧ x.core = coreOf k ∧ x.lost = false ∧ x.slot.saved = .ready ∧ x.slot.state = .swapped ∧ x.slot.x = (s.slot k).x
      ∧ x.slot.v = (s.slot k).v ∧ x.slot.pc = (s.slot k).pc ∧ x.slot.ctxNum = (s.slot k).ctxNum
      ∧ x.slot.pending = (s.slot k).pending := by
  have home : clusterOfCore core = clusterOf k := by
    rw [← coreOf_general (victim_general hv), clusterOfCore_coreOf]
  have saved := savedForm_ready s hs hw
  obtain ⟨u, begun, cycle, mem, slot, slots, cache⟩ := beginSave_room p saved.1 new (home ▸ room)
  obtain ⟨due, later, soon, due_mem⟩ := within_mem u s.cycle Config.latSave 24 (.contextSave k) cycle (by decide)
  refine ⟨u.within Config.latSave 24 (.contextSave k), due, savedEntry s k, ?_, ?_⟩
  · rw [preemption_one hp he room, hv, Option.elim_some, hm, if_neg Bool.false_ne_true, begun]
  · rw [State.slot_within, slot]
    exact ⟨rfl, rfl, rfl, slots, mem, later, soon, due_mem, cache, rfl, rfl, saved⟩

/-! ## The end of a save -/

theorem contextSave_idle {s : State} {k : Nat}
    (h : (s.slot k).state ≠ .swapped ∨ (s.slot k).saved ≠ .swapped ∨ (s.slot k).outstanding ≠ 0) :
    exec (.contextSave k) s = .next s := if_pos h

/-- A save that ends before the watchdog's limit hands its slot on (R119, R123). -/
theorem contextSave_done {s : State} {k : Nat} (hs : (s.slot k).state = .swapped) (hv : (s.slot k).saved = .swapped)
    (ho : (s.slot k).outstanding = 0)
    (ht : s.cycle - (s.slot k).waitSince < (s.polder (s.slot k).world).wdog.toNat) :
    exec (.contextSave k) s = .next (incoming s k (s.slot k).world (s.slot k).prio) := by
  refine (if_neg (not_or_intro (not_not_intro hs) (not_or_intro (not_not_intro hv) (not_not_intro ho)))).trans ?_
  rw [if_neg (Nat.not_le.mpr ht)]

theorem incoming_none {s : State} {k world p : Nat}
    (hc : ∀ x ∈ readySwapped s (coreOf k) world, x.slot.prio ≠ p ∨ x.slot.ctxNum = (s.slot k).ctxNum)
    (hr : (s.core (coreOf k)).deque.all (fun r => !(r.world == world && r.prio == p)) = true) :
    incoming s k world p = s.setSlot k Slot.reset := by
  have noContext : (readySwapped s (coreOf k) world).find? (fun e => e.slot.prio == p && e.slot.ctxNum != (s.slot k).ctxNum)
      = none := List.find?_eq_none.mpr fun x hx => by
    rcases hc x hx with other | same
    · simp [other]
    · simp [same]
  have noRecord : (s.core (coreOf k)).deque.find? (fun r => r.world == world && r.prio == p) = none :=
    List.find?_eq_none.mpr fun r hm => by simpa [imp_iff_not_or] using List.all_eq_true.mp hr r hm
  simp only [incoming, noContext, noRecord]

/-- A ready context of the priority that is not the one just saved goes first (R118). -/
theorem incoming_context {s : State} {k world p : Nat} {e : CtxEntry} (h : readySwapped s (coreOf k) world = [e])
    (hp : e.slot.prio = p) (hn : e.slot.ctxNum ≠ (s.slot k).ctxNum) :
    incoming s k world p = installSwapped s k e := by
  simp [incoming, h, hp, hn]

/-- From the cache an install takes eight cycles (R119). -/
theorem installSwapped_cached {s : State} {k : Nat} {e : CtxEntry}
    (h : hasEntry e.core e.slot.ctxNum (s.cluster (clusterOf k)).cache = true) :
    (s.cycle + 8, Event.contextInstall k) ∈ (installSwapped s k e).agenda := by
  unfold installSwapped
  rw [if_pos h]
  exact at_mem ..

/-! ## The install -/

theorem contextInstall_idle {s : State} {k : Nat} (h : (s.slot k).state ≠ .swapped ∨ (s.slot k).saved ≠ .ready) :
    exec (.contextInstall k) s = .next s := if_pos h

theorem slot_syncStreams_other (s : State) {j k : Nat} (hj : j ≠ k) : (syncStreams s k).slot j = s.slot j := by
  rw [syncStreams, State.slot_tick, State.slot_modSlot_other _ _ _ _ hj]

/-- A slot that becomes READY with its streams read ahead afresh (R98, R119). -/
theorem slot_syncStreams_toReady {s : State} {k : Nat} (hs : (s.slot k).stopPending = false) :
    (∃ streams, (syncStreams (s.toReady k) k).slot k = { (s.slot k).enter s.cycle .ready with streams := streams })
      ∧ ∀ j, j ≠ k → (syncStreams (s.toReady k) k).slot j = s.slot j := by
  refine ⟨?_, fun j hj => (slot_syncStreams_other _ hj).trans (slot_toReady_other s k j hj)⟩
  rw [← slot_toReady_same s k hs]
  exact slot_syncStreams (s.toReady k) k k

/-- The context that an entry brings into a slot (R119, R121, R122). -/
def installedFrom (s : State) (e : CtxEntry) : Slot :=
  { e.slot with
    state := .swapped, saved := .empty, present := 1, installedAt := s.cycle - e.slot.sliceUsed, lastInstall := s.cycle
    waitSince := s.cycle, accCur := BitVec.allOnes 512, accPrev := BitVec.allOnes 512 }

theorem contextInstall_entry {s : State} {k : Nat} {e : CtxEntry} (hs : (s.slot k).state = .swapped)
    (hv : (s.slot k).saved = .ready) (he : ctxEntry s (coreOf k) (s.slot k).ctxNum = some e)
    (hp : e.slot.stopPending = false) :
    ∃ t, exec (.contextInstall k) s = .next t ∧ (t.slot k).state = .ready ∧ (t.slot k).x = e.slot.x
      ∧ (t.slot k).v = e.slot.v ∧ (t.slot k).pc = e.slot.pc ∧ (t.slot k).present = 1
      ∧ (t.slot k).accCur = BitVec.allOnes 512 ∧ ∀ j, j ≠ k → t.slot j = s.slot j := by
  let s1 := (s.setSlot k (installedFrom s e)).modEntryAt (coreOf k) (s.slot k).ctxNum (fun x => { x with lastUse := s.cycle })
  have slot1 : s1.slot k = installedFrom s e := State.slot_setSlot_same ..
  obtain ⟨⟨streams, same⟩, others⟩ := slot_syncStreams_toReady (s := s1) (k := k) (by rw [slot1]; exact hp)
  refine ⟨syncStreams (s1.toReady k) k, ?_, ?_⟩
  · refine (if_neg (not_or_intro (not_not_intro hs) (not_not_intro hv))).trans ?_
    rw [he]
    rfl
  · rw [same, slot1]
    exact ⟨state_enter .., x_enter .., v_enter .., pc_enter .., present_enter .., accCur_enter ..,
      fun j hj => (others j hj).trans (State.slot_setSlot_other _ _ _ _ hj)⟩

/-- A new task has no entry yet: its slot holds its context (R119). -/
theorem contextInstall_new {s : State} {k : Nat} (hs : (s.slot k).state = .swapped) (hv : (s.slot k).saved = .ready)
    (he : ctxEntry s (coreOf k) (s.slot k).ctxNum = none) (hp : (s.slot k).stopPending = false) :
    ∃ t, exec (.contextInstall k) s = .next t ∧ (t.slot k).state = .ready ∧ (t.slot k).x = (s.slot k).x
      ∧ (t.slot k).pc = (s.slot k).pc ∧ ∀ j, j ≠ k → t.slot j = s.slot j := by
  let sl : Slot := { s.slot k with saved := .empty, installedAt := s.cycle, lastInstall := s.cycle }
  have slot1 : (s.setSlot k sl).slot k = sl := State.slot_setSlot_same ..
  obtain ⟨⟨streams, same⟩, others⟩ := slot_syncStreams_toReady (s := s.setSlot k sl) (k := k) (by rw [slot1]; exact hp)
  refine ⟨syncStreams ((s.setSlot k sl).toReady k) k, ?_, ?_⟩
  · refine (if_neg (not_or_intro (not_not_intro hs) (not_not_intro hv))).trans ?_
    rw [he]
  · rw [same, slot1]
    exact ⟨state_enter .., x_enter .., pc_enter .., fun j hj => (others j hj).trans (State.slot_setSlot_other _ _ _ _ hj)⟩

/-! ## The spill and the read-back -/

theorem contextSpill_none {s : State} {cluster : Nat} (h : spillingSlot s cluster = none) :
    exec (.contextSpill cluster) s = .next s := by
  show execContextSpill cluster s = _
  simp only [execContextSpill, h]

/-- The entry that is spilled makes room, and the save goes on within 24 cycles (R119, R120). -/
theorem contextSpill_spec {s : State} {cluster k : Nat} {e : CtxEntry} (hk : spillingSlot s cluster = some k)
    (hf : Config.spillFails s.free = false) (he : spillVictim ((s.cluster cluster).cache.filter
      (fun x => !(x.core == coreOf k && x.slot.ctxNum == (s.slot k).ctxNum))) = some e) :
    ∃ t due, exec (.contextSpill cluster) s = .next t ∧ (t.cluster cluster).cache = (s.cluster cluster).cache.erase e
      ∧ (t.cluster cluster).spilled = (s.cluster cluster).spilled ++ [e] ∧ e.lost = false
      ∧ (∀ x ∈ (s.cluster cluster).cache, x.lost = false → x.core ≠ coreOf k ∨ x.slot.ctxNum ≠ (s.slot k).ctxNum →
        e.lastUse ≤ x.lastUse)
      ∧ t.slot k = { s.slot k with outstanding := 0 } ∧ (∀ j, j ≠ k → t.slot j = s.slot j) ∧ t.mem = s.mem
      ∧ s.cycle < due ∧ due ≤ s.cycle + 24 ∧ (due, Event.contextSave k) ∈ t.agenda := by
  let moved (cl : Cluster) : Cluster := { cl with cache := cl.cache.erase e, spilled := cl.spilled ++ [e] }
  let free (sl : Slot) : Slot := { sl with outstanding := 0 }
  let s1 := (s.tick.modCluster cluster moved).modSlot k free
  have cluster1 : s1.cluster cluster = moved (s.cluster cluster) := State.cluster_modCluster_same s.tick cluster moved
  obtain ⟨due, later, soon, mem⟩ := within_mem s1 s.cycle Config.latSave 24 (.contextSave k) rfl (by decide)
  obtain ⟨found, least⟩ := spillVictim_spec he
  refine ⟨s1.within Config.latSave 24 (.contextSave k), due, ?_, congrArg Cluster.cache cluster1,
    congrArg Cluster.spilled cluster1, found, fun x hx lost other => ?_,
    State.slot_modSlot_same (s.tick.modCluster cluster moved) k free,
    fun j hj => State.slot_modSlot_other (s.tick.modCluster cluster moved) k j free hj, rfl, later, soon, mem⟩
  · show execContextSpill cluster s = _
    simp only [execContextSpill, hk, hf, he]
    rfl
  · refine least x (List.mem_filter.mpr ⟨hx, ?_⟩) lost
    rcases other with core | num
    · simp [core]
    · simp [num]

/-- Where the spill fails the context is LOST (R124). -/
theorem contextSpill_fails {s : State} {cluster k : Nat} (hk : spillingSlot s cluster = some k)
    (hf : Config.spillFails s.free = true) :
    ∃ t, exec (.contextSpill cluster) s = .next t ∧ (t.slot k).state = .lost ∧ (∀ j, j ≠ k → t.slot j = s.slot j)
      ∧ t.mem = s.mem := by
  let s1 := s.tick.modEntryAt (coreOf k) (s.slot k).ctxNum (fun x => { x with lost := true })
  let pc := ((ctxEntry s (coreOf k) (s.slot k).ctxNum).map (·.slot.pc)).getD 0
  have slot (j : Nat) : (watchdogRecord (s1.toState k .lost) k .lost pc).slot j = (s1.toState k .lost).slot j := rfl
  refine ⟨watchdogRecord (s1.toState k .lost) k .lost pc, ?_, ?_, fun j hj => ?_, mem_toState s1 k .lost⟩
  · show execContextSpill cluster s = _
    simp only [execContextSpill, hk, hf, if_true]
    rfl
  · rw [slot, slot_toState_same]
    exact state_enter ..
  · exact (slot j).trans (slot_toState_other s1 k j .lost hj)

/-- The first slot of a core that holds a number, where those below it are EMPTY. -/
theorem find?_slot_first {s : State} {k num : Nat} (hs : (s.slot k).state ≠ .empty) (hn : (s.slot k).ctxNum = num)
    (below : ∀ j, j < k → k / 8 * 8 ≤ j → (s.slot j).state = .empty) :
    ((List.range 8).map (coreOf k * 8 + ·)).find? (fun j => (s.slot j).ctxNum == num && (s.slot j).state != .empty)
      = some k := by
  rw [← List.range'_eq_map_range, List.find?_range'_eq_some]
  refine ⟨by simp [hs, hn], ?_, fun j low high => by simp [below j high low]⟩
  rw [List.mem_range'_1]
  unfold coreOf
  omega

/-- The only spilled entry comes back for an install, which then takes eight cycles (R120). -/
theorem spillReadback_install {s : State} {k num : Nat} {e : CtxEntry} (hl : (s.cluster (clusterOf k)).spilled = [e])
    (hc : e.core = coreOf k) (hn : e.slot.ctxNum = num) (room : (s.cluster (clusterOf k)).cache.length < 32)
    (hs : (s.slot k).state = .swapped) (hv : (s.slot k).saved = .ready) (hk : (s.slot k).ctxNum = num)
    (below : ∀ j, j < k → k / 8 * 8 ≤ j → (s.slot j).state = .empty) :
    ∃ t, exec (.spillReadback (coreOf k) num) s = .next t ∧ (t.cluster (clusterOf k)).spilled = []
      ∧ (t.cluster (clusterOf k)).cache = (s.cluster (clusterOf k)).cache ++ [{ e with lastUse := s.cycle }]
      ∧ t.slots = s.slots ∧ (s.cycle + 8, Event.contextInstall k) ∈ t.agenda := by
  let s1 := s.modCluster (clusterOf k) (fun x => { x with
    cache := x.cache ++ [{ e with lastUse := s.cycle }], spilled := x.spilled.erase e })
  have cluster1 : s1.cluster (clusterOf k) = { s.cluster (clusterOf k) with
      cache := (s.cluster (clusterOf k)).cache ++ [{ e with lastUse := s.cycle }], spilled := [] } := by
    rw [State.cluster_modCluster_same, hl, List.erase_cons_head]
  refine ⟨s1.at_ (s.cycle + 8) (.contextInstall k), ?_, congrArg Cluster.spilled cluster1, congrArg Cluster.cache cluster1, rfl,
    at_mem ..⟩
  have first := find?_slot_first (by rw [hs]; decide) hk below
  have asked : [e].find? (fun x => x.core == coreOf k && x.slot.ctxNum == num) = some e := by simp [hc, hn]
  show execSpillReadback (coreOf k) num s = _
  simp only [execSpillReadback, clusterOfCore_coreOf, hl, asked, room, if_true, first, hs, hv, and_self]
  rfl

/-! ## The urgent install -/

theorem urgentInstall_none {s : State} {die : Nat} (h : urgentReady s die = none) : exec (.urgentInstall die) s = .next s := by
  show execUrgentInstall die s = _
  simp only [execUrgentInstall, h]

/-- An urgent task with a number and a well-formed share begins its install in the slot 7 found for it (R288). -/
theorem urgentInstall_spec {s : State} {die j n : Nat} {r : TaskRec} (h : urgentReady s die = some (r, j))
    (fits : shareFits (s.core (coreOf j)) r.world = true) (hn : freeNum (s.core (coreOf j)) = some n) :
    ∃ t, exec (.urgentInstall die) s = .next t ∧ (t.slot j).state = .swapped ∧ (t.slot j).saved = .ready
      ∧ (t.slot j).ctxNum = n ∧ (t.slot j).pc = BitVec.ofNat 64 r.pc ∧ (t.slot j).prio = r.prio
      ∧ (s.cycle + 8, Event.contextInstall j) ∈ t.agenda ∧ ∀ i, i ≠ j → t.slot i = s.slot i := by
  let s1 := s.modDie die (fun d => { d with urgent := d.urgent.erase r })
  let s2 := invalidateMatching (s1.modCore (coreOf j) (fun co => { co with ctxNums := co.ctxNums ++ [n] })) (dieOf j) r.sig
  refine ⟨startInstall s2 j (freshCtx s1 (coreOf j) n r), ?_, ?_⟩
  · show execUrgentInstall die s = _
    simp only [execUrgentInstall, h]
    rw [installTask_fits (s := s1) fits hn]
    rfl
  · rw [slot_startInstall_same]
    exact ⟨rfl, rfl, rfl, rfl, rfl, at_mem .., fun i hi => slot_startInstall_other _ _ _ _ hi⟩

/-- Settles O53: each step of a context's way out of its slot and back by its law. -/
theorem saveAndInstall : Obligations.SaveAndInstall := by
  rintro s k core world num sl e rfl c cl others
  refine ⟨preemption_idle, ?preempt, ?notSaving, ?outstanding, ?handsOn, ?contextNext, contextInstall_idle,
    contextInstall_entry, contextInstall_new, contextSpill_none, contextSpill_spec, contextSpill_fails, ?readback,
    urgentInstall_none, ?urgent⟩
  case preempt =>
    intro p hp he room
    refine ⟨fun hv => ?_, fun hv hm => ?_, fun hv hm hs hw _ new => ?_⟩
    · rw [preemption_one hp he room, hv, Option.elim_none]
    · rw [preemption_one hp he room, hv, Option.elim_some, if_pos hm]
    · exact preemption_saves hp he room hv hm hs hw new
  case notSaving => exact fun h => contextSave_idle (h.imp_right .inl)
  case outstanding => exact fun h => contextSave_idle (.inr (.inr h))
  case handsOn =>
    intro hs hv ho ht hc hr
    rw [contextSave_done hs hv ho ht, incoming_none hc hr]
  case contextNext =>
    intro hs hv ho ht hr hp hn cached
    obtain ⟨state, saved, number, -, slots, -⟩ := installSwapped_spec s k e
    refine ⟨_, ?_, state, saved, number, slots, installSwapped_cached cached⟩
    rw [contextSave_done hs hv ho ht, incoming_context hr hp hn]
  case readback =>
    rintro rfl hl hc hn room hs hv hk below
    exact spillReadback_install hl hc hn room hs hv hk below
  case urgent => exact fun r j n h fits hn => urgentInstall_spec h fits hn

end Sys2Proof.Machine

/-! PROOFS of O54. A slot that is put into a state, the dwords of a context record by the layout of R117, and then each
debug event (R125, R126, R311). -/

namespace Sys2Proof.Machine

/-! ## A slot that is changed and put into a state -/

theorem slot_toState_modSlot (s : State) (k : Nat) (f : Slot → Slot) (st : SlotState) :
    ((s.modSlot k f).toState k st).slot k = (f (s.slot k)).enter s.cycle st
      ∧ ∀ j, j ≠ k → ((s.modSlot k f).toState k st).slot j = s.slot j := by
  refine ⟨?_, fun j hj => (slot_toState_other _ _ _ _ hj).trans (State.slot_modSlot_other _ _ _ _ hj)⟩
  rw [slot_toState_same, State.slot_modSlot_same, State.cycle_modSlot]

/-! ## Stops -/

theorem slot_stopSlot (s : State) (k j : Nat) : (stopSlot s k).slot j = (s.toState k .stopped).slot j := rfl

/-- A stop keeps the registers and the pc of its slot (R125). -/
theorem stopSlot_spec (s : State) (k : Nat) :
    ((stopSlot s k).slot k).state = .stopped ∧ ((stopSlot s k).slot k).x = (s.slot k).x
      ∧ ((stopSlot s k).slot k).pc = (s.slot k).pc ∧ ∀ j, j ≠ k → (stopSlot s k).slot j = s.slot j := by
  rw [slot_stopSlot, slot_toState_same]
  exact ⟨state_enter .., x_enter .., pc_enter .., fun j hj => slot_toState_other s k j .stopped hj⟩

/-- A stop of a context in a slot takes a READY one at once, and stays pending where the slot waits (R125). -/
theorem debugStop_held {s : State} {core num k : Nat} (hk : ctxSlot s core num = some k) :
    exec (.debugStop core num) s
      = if (s.slot k).state = .ready then .next (stopSlot s k)
        else if (s.slot k).state.waiting then .next (s.modSlot k (fun x => { x with stopPending := true }))
        else .next s := by
  show execDebugStop core num s = _
  simp only [execDebugStop, hk]

theorem not_ready_of_waiting {st : SlotState} (h : st.waiting = true) : st ≠ .ready := by
  rintro rfl
  cases h

/-! ## Going on -/

/-- A resumed slot goes on as it stood (R126). -/
theorem debugResume_spec {s : State} {k : Nat} (hs : (s.slot k).state = .stopped) :
    ∃ t, exec (.debugResume k) s = .next t ∧ (t.slot k).state = .ready ∧ (t.slot k).pc = (s.slot k).pc
      ∧ (t.slot k).x = (s.slot k).x ∧ (t.slot k).stepping = (s.slot k).stepping ∧ ∀ j, j ≠ k → t.slot j = s.slot j := by
  obtain ⟨same, others⟩ := slot_toState_modSlot s k
    (fun x => { x with stopPending := false, installedAt := s.cycle - x.sliceUsed }) .ready
  refine ⟨_, if_pos hs, ?_⟩
  simp only [slot_ltThaw, same]
  exact ⟨state_enter .., pc_enter .., x_enter .., stepping_enter .., others⟩

/-- A step goes on in the same way for one bundle (R126). -/
theorem debugStep_spec {s : State} {k : Nat} (hs : (s.slot k).state = .stopped) :
    ∃ t, exec (.debugStep k) s = .next t ∧ (t.slot k).state = .ready ∧ (t.slot k).pc = (s.slot k).pc
      ∧ (t.slot k).x = (s.slot k).x ∧ (t.slot k).stepping = true ∧ ∀ j, j ≠ k → t.slot j = s.slot j := by
  obtain ⟨same, others⟩ := slot_toState_modSlot s k
    (fun x => { x with stopPending := false, stepping := true, installedAt := s.cycle - x.sliceUsed }) .ready
  refine ⟨_, if_pos hs, ?_⟩
  rw [same]
  exact ⟨state_enter .., pc_enter .., x_enter .., stepping_enter .., others⟩

/-! ## The dwords of a context record -/

theorem recordRead_pc (s : State) (k : Nat) : recordRead s k 0 = (s.slot k).pc := rfl

theorem recordRead_x (s : State) (k : Nat) (r : Reg) : recordRead s k (32 + r.toNat) = (s.slot k).getX r := by
  have high : ¬ 32 + r.toNat < 32 := by omega
  have low : 32 + r.toNat < 64 := by have := r.isLt; omega
  simp only [recordRead, if_neg high, if_pos low, Nat.add_sub_cancel_left, regOf_toNat]

theorem recordRead_vLow (s : State) (k : Nat) (r : Reg) :
    recordRead s k (64 + 2 * r.toNat) = ((s.slot k).getV r).extractLsb' 0 64 := by
  have high : ¬ 64 + 2 * r.toNat < 32 ∧ ¬ 64 + 2 * r.toNat < 64 := by omega
  have low : 64 + 2 * r.toNat < 128 := by have := r.isLt; omega
  simp only [recordRead, if_neg high.1, if_neg high.2, if_pos low, Nat.add_sub_cancel_left,
    Nat.mul_div_cancel_left _ Nat.two_pos, Nat.mul_mod_right, Nat.zero_mul, regOf_toNat]

theorem recordWrite_pc (w : Word) : recordWrite 0 w
    = fun x => { x with pc := w &&& 0x1FFFFFFFFFFFFF8, npc := w &&& 0x1FFFFFFFFFFFFF8 } := rfl

/-- From dword 32 up a record holds registers (R117). -/
theorem recordWrite_registers {i : Nat} (h : 32 ≤ i) (v : Word) (sl : Slot) : recordWrite i v sl =
    if i < 64 then sl.putX (regOf (i - 32)) v
    else if i < 128 then
      sl.putV (regOf ((i - 64) / 2)) (if (i - 64) % 2 = 0 then (sl.getV (regOf ((i - 64) / 2))).extractLsb' 64 64 ++ v
        else v ++ (sl.getV (regOf ((i - 64) / 2))).extractLsb' 0 64)
    else if i < 160 then
      { sl with streams := sl.streams.mapFinIdx (fun n st _ =>
          if n = (i - 128) / 8 then streamOfWords (setAt (streamWords st) ((i - 128) % 8) v) else st) }
    else sl := by
  have system (n : Nat) (hn : n < 32) : i ≠ n := by omega
  unfold recordWrite
  iterate 25 rw [if_neg (system _ (by decide))]
  rw [if_neg (Nat.not_lt.mpr h)]

theorem recordWrite_x (r : Reg) (w : Word) : recordWrite (32 + r.toNat) w = (·.putX r w) := by
  funext sl
  have low : 32 + r.toNat < 64 := by have := r.isLt; omega
  rw [recordWrite_registers (Nat.le_add_right ..), if_pos low, Nat.add_sub_cancel_left, regOf_toNat]

theorem recordWrite_vHigh (r : Reg) (w : Word) :
    recordWrite (65 + 2 * r.toNat) w = fun x => x.putV r (w ++ (x.getV r).extractLsb' 0 64) := by
  funext sl
  have range : ¬ 65 + 2 * r.toNat < 64 ∧ 65 + 2 * r.toNat < 128 := by have := r.isLt; omega
  have reg : (65 + 2 * r.toNat - 64) / 2 = r.toNat := by omega
  have odd : ¬ (65 + 2 * r.toNat - 64) % 2 = 0 := by omega
  rw [recordWrite_registers (by omega), if_neg range.1, if_pos range.2, reg, if_neg odd, regOf_toNat]

/-- A dword of a stopped slot's record is read (R126). -/
theorem contextAccess_read {s : State} {k i : Nat} {v : Word} (hs : (s.slot k).state = .stopped)
    (hv : recordRead s k i = v) : exec (.debugContextAccess k (8 * i) none) s = .next { s with readOut := v } := by
  refine (if_neg (not_not_intro hs)).trans ?_
  rw [← hv, Nat.mul_div_cancel_left _ (by decide)]

/-- A dword of a stopped slot's record is written (R126). -/
theorem contextAccess_write {s : State} {k i : Nat} {v : Word} {f : Slot → Slot} (hs : (s.slot k).state = .stopped)
    (hf : recordWrite i v = f) : exec (.debugContextAccess k (8 * i) (some v)) s = .next (s.modSlot k f) := by
  refine (if_neg (not_not_intro hs)).trans ?_
  rw [← hf, Nat.mul_div_cancel_left _ (by decide)]

/-! ## Breakpoints -/

theorem mapFinIdx_replace {α : Type} {n : Nat} (xs : Vector α n) (i : Fin n) (v : α) :
    xs.mapFinIdx (fun j x _ => if j = i then v else x) = xs.set i v := by
  ext1 j hj
  rw [Vector.getElem_mapFinIdx, Vector.getElem_set]
  exact if_congr eq_comm rfl rfl

/-- A breakpoint of a core is set or, with an empty slot mask, cleared (R311). -/
theorem exec_breakpointSet (s : State) (core : Nat) (n : Fin 4) (pc mask : Nat) :
    exec (.breakpointSet core n pc mask) s = .next (s.modCore core (fun co => { co with
      breakpoints := co.breakpoints.set n (if mask = 0 then none else some (pc, mask)) })) := by
  show execBreakpointSet core n pc mask s = _
  simp only [execBreakpointSet, mapFinIdx_replace]

/-- Settles O54: each debug event by its law, and the record dword by dword. -/
theorem debugEvents : Obligations.DebugEvents := by
  rintro s k core num sl w rfl others stops
  refine ⟨?stop, ?pending, ?hit, ?noHit, ?goesOn, ?notStopped, ?access, ?set⟩
  case stop => exact fun hk hr => ⟨_, (debugStop_held hk).trans (if_pos hr), stopSlot_spec s k⟩
  case pending =>
    exact fun hk hw => (debugStop_held hk).trans ((if_neg (not_ready_of_waiting hw)).trans (if_pos hw))
  case hit => exact fun hr => ⟨_, if_pos hr, stopSlot_spec s k⟩
  case noHit => exact fun hr => if_neg hr
  case goesOn => exact fun hs => ⟨debugResume_spec hs, debugStep_spec hs⟩
  case notStopped => exact fun hs => ⟨if_neg hs, if_neg hs, fun _ _ => if_pos hs⟩
  case access =>
    intro hs
    refine ⟨contextAccess_read (i := 0) hs (recordRead_pc s k), fun r => ⟨?_, ?_, ?_, ?_⟩,
      contextAccess_write (i := 0) hs (recordWrite_pc w)⟩
    · exact contextAccess_read hs (recordRead_x s k r)
    · exact contextAccess_write hs (recordWrite_x r w)
    · exact contextAccess_read hs (recordRead_vLow s k r)
    · exact contextAccess_write hs (recordWrite_vHigh r w)
  case set => exact fun n pc mask => exec_breakpointSet s core n pc mask

end Sys2Proof.Machine

/-! PROOFS of O5. Bytes change in a few places only (`pokeMem`, `lsWrite`, `writeTile`, the clearing of a granule or of a
share, a reset), and each writes a canonical store by `cellWrite`, `lsPut` or `filter`. Every other function rearranges
the state around the stores. `State.memoryWf.f` says that the function `f` of the model keeps the stores canonical (for
an instruction or an event: that every state it goes on with is canonical); the lemmas stand in the order of the
definitions' calls, so that a lemma's proof has the shape of its function's body. -/

namespace Sys2Proof.Machine

/-- Every state that an outcome goes on with has its byte stores in canonical form. -/
def nextWf (o : Out) : Prop := ∀ t, o = .next t → t.memoryWf

theorem NMap.forall_mem_set {α : Type} {m : NMap α} {p : α → Prop} (h : ∀ x ∈ m, p x.2) (k : Nat) {v : α} (hv : p v) :
    ∀ x ∈ NMap.set m k v, p x.2 := by
  have erased (m : NMap α) (h : ∀ x ∈ m, p x.2) : ∀ x ∈ NMap.erase m k, p x.2 := by
    induction m with
    | nil => exact h
    | cons y m ih =>
      have rest := ih fun x hx => h x (.tail _ hx)
      rw [NMap.erase]
      split
      · exact rest
      · rintro x (_ | ⟨_, hx⟩)
        · exact h _ (.head _)
        · exact rest x hx
  have inserted (m : NMap α) (h : ∀ x ∈ m, p x.2) : ∀ x ∈ NMap.ins m k v, p x.2 := by
    induction m with
    | nil =>
      rintro x (_ | ⟨_, hx⟩)
      · exact hv
      · cases hx
    | cons y m ih =>
      have rest := ih fun x hx => h x (.tail _ hx)
      rw [NMap.ins]
      split
      · rintro x (_ | ⟨_, hx⟩)
        · exact hv
        · exact h x hx
      · rintro x (_ | ⟨_, hx⟩)
        · exact h _ (.head _)
        · exact rest x hx
  exact inserted _ (erased m h)

theorem NMap.find_getD {α : Type} {m : NMap α} {p : α → Prop} (h : ∀ x ∈ m, p x.2) (k : Nat) {d : α} (hd : p d) :
    p ((NMap.find m k).getD d) := by
  induction m with
  | nil => exact hd
  | cons y m ih =>
    rw [NMap.find]
    split
    · exact h y (.head _)
    · exact ih fun x hx => h x (.tail _ hx)

namespace State.memoryWf

variable {s t : State}

theorem core (h : s.memoryWf) (k : Nat) : Memory.wf (s.core k).ls = true :=
  NMap.find_getD (p := fun co : Core => Memory.wf co.ls = true) h.2.1 k rfl

theorem cluster (h : s.memoryWf) (k : Nat) : Memory.wf (s.cluster k).store = true :=
  NMap.find_getD (p := fun cl : Cluster => Memory.wf cl.store = true) h.2.2 k rfl

theorem setCore {k : Nat} {v : Core} (h : s.memoryWf) (hv : Memory.wf v.ls = true) : (s.setCore k v).memoryWf :=
  ⟨h.1, NMap.forall_mem_set (p := fun co : Core => Memory.wf co.ls = true) h.2.1 k hv, h.2.2⟩

theorem setCluster {k : Nat} {v : Cluster} (h : s.memoryWf) (hv : Memory.wf v.store = true) : (s.setCluster k v).memoryWf :=
  ⟨h.1, h.2.1, NMap.forall_mem_set (p := fun cl : Cluster => Memory.wf cl.store = true) h.2.2 k hv⟩

theorem modCore {k : Nat} {f : Core → Core} (h : s.memoryWf) (hf : ∀ co, (f co).ls = co.ls) :
    (s.modCore k f).memoryWf :=
  h.setCore ((hf _).symm ▸ h.core k)

theorem modCluster {k : Nat} {f : Cluster → Cluster} (h : s.memoryWf)
    (hf : ∀ cl, (f cl).store = cl.store) : (s.modCluster k f).memoryWf :=
  h.setCluster ((hf _).symm ▸ h.cluster k)

theorem pokeMem {pa : Nat} {bs : List Byte} (h : s.memoryWf) : (s.pokeMem pa bs).memoryWf :=
  ⟨wf_cellWrite bs s.mem pa h.1, h.2⟩

theorem ite {c : Prop} [Decidable c] (h : s.memoryWf) (h' : t.memoryWf) : (if c then s else t).memoryWf := by
  split
  · exact h
  · exact h'

theorem foldl {α : Type} {f : State → α → State} {l : List α} (hf : ∀ t a, t.memoryWf → (f t a).memoryWf)
    (h : s.memoryWf) : (l.foldl f s).memoryWf := by
  induction l generalizing s with
  | nil => exact h
  | cons a l ih => exact ih (hf s a h)

theorem next (h : s.memoryWf) : nextWf (.next s) := fun _ e => Host.Outcome.next.inj e ▸ h

end State.memoryWf

namespace nextWf

theorem ite {c : Prop} [Decidable c] {o o' : Out} (h : nextWf o) (h' : nextWf o') : nextWf (if c then o else o') := by
  split
  · exact h
  · exact h'

theorem andNext {o : Out} {k : State → Out} (h : nextWf o) (hk : ∀ t, t.memoryWf → nextWf (k t)) :
    nextWf (andNext o k) := by
  cases o with
  | next s => exact hk s (h s rfl)
  | fault f => exact fun _ e => by cases e
  | refused r => exact fun _ e => by cases e

end nextWf

namespace State.memoryWf

theorem mapCores {s : State} {f : Nat × Core → Nat × Core} (h : s.memoryWf) (hf : ∀ p, (f p).2.ls = p.2.ls) :
    ({ s with cores := s.cores.map f } : State).memoryWf :=
  ⟨h.1, List.forall_mem_map.mpr fun p hp => hf p ▸ h.2.1 p hp, h.2.2⟩

theorem mapClusters {s : State} {f : Nat × Cluster → Nat × Cluster} (h : s.memoryWf) (hf : ∀ p, (f p).2.store = p.2.store) :
    ({ s with clusters := s.clusters.map f } : State).memoryWf :=
  ⟨h.1, h.2.1, List.forall_mem_map.mpr fun p hp => hf p ▸ h.2.2 p hp⟩

theorem beside {s t : State} (h : s.memoryWf)
    (same : (t.mem, t.cores, t.clusters) = (s.mem, s.cores, s.clusters)) : t.memoryWf := by
  obtain ⟨hmem, hcores, hclusters⟩ : t.mem = s.mem ∧ t.cores = s.cores ∧ t.clusters = s.clusters := by simpa using same
  unfold State.memoryWf
  rw [hmem, hcores, hclusters]
  exact h

theorem setSlot {s : State} {k : Nat} {v : Slot} (h : s.memoryWf) : (s.setSlot k v).memoryWf := h

theorem setDie {s : State} {k : Nat} {v : Die} (h : s.memoryWf) : (s.setDie k v).memoryWf := h

theorem setPolder {s : State} {k : Nat} {v : Polder} (h : s.memoryWf) : (s.setPolder k v).memoryWf := h

theorem setLink {s : State} {k : Nat} {v : Link} (h : s.memoryWf) : (s.setLink k v).memoryWf := h

theorem modSlot {s : State} {k : Nat} {f : Slot → Slot} (h : s.memoryWf) : (s.modSlot k f).memoryWf := h

theorem modMe {s : State} {f : Slot → Slot} (h : s.memoryWf) : (s.modMe f).memoryWf := h

theorem modDie {s : State} {k : Nat} {f : Die → Die} (h : s.memoryWf) : (s.modDie k f).memoryWf := h

theorem modPolder {s : State} {k : Nat} {f : Polder → Polder} (h : s.memoryWf) : (s.modPolder k f).memoryWf := h

theorem modLink {s : State} {k : Nat} {f : Link → Link} (h : s.memoryWf) : (s.modLink k f).memoryWf := h

theorem tick {s : State} (h : s.memoryWf) : s.tick.memoryWf := h

theorem freshId {s : State} (h : s.memoryWf) : s.freshId.memoryWf := h

theorem at_ {s : State} {n : Nat} {e : Event} (h : s.memoryWf) : (s.at_ n e).memoryWf := h

theorem next1 {s : State} {e : Event} (h : s.memoryWf) : (s.next1 e).memoryWf := h

theorem later {s : State} {n : Nat} {e : Event} (h : s.memoryWf) : (s.later n e).memoryWf := h

theorem within {s : State} {n m : Nat} {e : Event} (h : s.memoryWf) : (s.within n m e).memoryWf := h

theorem laterAfter {s : State} {n : Nat} {p : Event → Bool} {e : Event} (h : s.memoryWf) : (s.laterAfter n p e).memoryWf := h

theorem stewardNote {s : State} {n : Nat} {a b c : Word} (h : s.memoryWf) : (Machine.stewardNote s n a b c).memoryWf := h

theorem hatPost {s : State} {die kind code ep : Nat} {w d : Word} (h : s.memoryWf) :
    (Machine.hatPost s die kind code ep w d).memoryWf := h

theorem getD {s : State} {o : Option State} (ho : ∀ t, o = some t → t.memoryWf) (h : s.memoryWf) : (o.getD s).memoryWf := by
  cases o with
  | none => exact h
  | some t => exact ho t rfl

theorem of_fst {α : Type} {p : State × α} {t : State} {x : α} (e : p = (t, x)) (h : p.1.memoryWf) : t.memoryWf := by
  subst e
  exact h

theorem of_fst' {α : Type} {p : State × α} {t : State} {x : α} (h : p.1.memoryWf) (e : p = (t, x)) : t.memoryWf := of_fst e h

end State.memoryWf


theorem ls_enterChannel (co : Core) (oc : OutChan) : (enterChannel co oc).ls = co.ls := by
  unfold enterChannel
  dsimp only
  split
  · rfl
  · split <;> rfl

namespace State.memoryWf

theorem traceKeep {s : State} {c : Nat} {r : TraceRec} (wf : s.memoryWf) : (Machine.traceKeep s c r).memoryWf :=
  wf.modCore fun _ => by rfl

theorem toState {s : State} {k : Nat} {st : SlotState} (wf : s.memoryWf) : (s.toState k st).memoryWf := by
  unfold Machine.State.toState
  extract_lets old s1
  have hs1 : s1.memoryWf := wf.modSlot
  exact .ite wf (.ite hs1 (.ite hs1.traceKeep hs1))

theorem park {s : State} {k : Nat} {st : SlotState} {w : Wait} (wf : s.memoryWf) : (Machine.park s k st w).memoryWf :=
  wf.modSlot.toState

theorem advanceStreams {s : State} {k : Nat} {mask : BitVec 4} (wf : s.memoryWf) :
    (Machine.advanceStreams s k mask).memoryWf :=
  .ite wf wf.modSlot.tick

theorem toReady {s : State} {k : Nat} (wf : s.memoryWf) : (s.toReady k).memoryWf :=
  .ite wf.toState.modSlot wf.toState

theorem finishBundle {s : State} {k : Nat} (wf : s.memoryWf) : (Machine.finishBundle s k).memoryWf := by
  unfold Machine.finishBundle
  split
  · exact wf.park
  · extract_lets m halts s1 s2
    have hs2 : s2.memoryWf := wf.modSlot.advanceStreams
    exact .ite hs2.toState hs2.toReady

theorem execLongLatencyResult {slot : Nat} {s : State} (wf : s.memoryWf) :
    nextWf (Machine.execLongLatencyResult slot s) := by
  unfold Machine.execLongLatencyResult
  extract_lets
  split
  · exact wf.next
  · split
    · exact wf.modSlot.finishBundle.next
    · exact wf.finishBundle.next
    · exact wf.finishBundle.next
    · exact wf.next

theorem hitWatchesBut {s : State} {self : Option Nat} {lines : List Nat} (h : s.memoryWf) :
    (Machine.hitWatchesBut s self lines).memoryWf :=
  .ite (h.mapClusters fun _ => rfl) h

theorem correct {s : State} {ps : List Place} {count : State → State} (h : s.memoryWf)
    (hc : ∀ t, t.memoryWf → (count t).memoryWf) : (Machine.correct s ps count).memoryWf :=
  .ite h (.foldl (fun _ _ ht => .ite (hc _ ht) ht) h)

theorem countCore {c : Nat} {s : State} (wf : s.memoryWf) : (Machine.countCore c s).memoryWf :=
  wf.modCore fun _ => by rfl

theorem lsCorrect {s : State} {c : Nat} {ps : List Nat} (wf : s.memoryWf) : (Machine.lsCorrect s c ps).memoryWf :=
  wf.correct (fun _ ht => ht.countCore)

theorem lsWrite {s : State} {c : Nat} {ps : List Nat} {bs : List Byte} (h : s.memoryWf) :
    (Machine.lsWrite s c ps bs).memoryWf := by
  unfold Machine.lsWrite
  extract_lets s0 s1
  have hs0 : s0.memoryWf := h.lsCorrect
  have hs1 : s1.memoryWf := hs0.setCore (wf_lsPut _ _ (hs0.core c))
  exact .ite hs1 hs1

theorem lsStoreBut {s : State} {self : Option Nat} {c : Nat} {ps : List Nat} {bs : List Byte} (wf : s.memoryWf) :
    (Machine.lsStoreBut s self c ps bs).memoryWf :=
  wf.lsWrite.hitWatchesBut

theorem lsStore {s : State} {c : Nat} {ps : List Nat} {bs : List Byte} (wf : s.memoryWf) :
    (Machine.lsStore s c ps bs).memoryWf :=
  wf.lsStoreBut

theorem serveChunks {s : State} {c : Nat} {r : MemReq} {now : List Nat} {t : State} {x : MemReq} (wf : s.memoryWf) :
    Machine.serveChunks s c r now = (t, x) → t.memoryWf := by
  unfold Machine.serveChunks
  dsimp only
  split
  · rintro ⟨⟩
    exact wf.lsStore
  · rintro ⟨⟩
    exact wf.lsCorrect

theorem execLocalStorePass {slot : Nat} {s : State} (wf : s.memoryWf) : nextWf (Machine.execLocalStorePass slot s) := by
  unfold Machine.execLocalStorePass
  split
  · split
    · exact wf.next
    · extract_lets
      split
      · extract_lets
        split
        · rename_i eq
          extract_lets s2
          have hs2 : s2.memoryWf := ((wf.modCore fun _ => by rfl).serveChunks eq).modSlot
          split
          · split
            · exact hs2.next1.next
            · exact hs2.next1.next
            · exact hs2.modSlot.finishBundle.next
          · exact hs2.next
  · exact wf.next

theorem execEnergyRefill {core : Nat} {s : State} (wf : s.memoryWf) : nextWf (Machine.execEnergyRefill core s) :=
  (wf.modCore fun _ => by rfl).next

theorem dropCompletion {s : State} {c num : Nat} {d : Word} (wf : s.memoryWf) :
    (Machine.dropCompletion s c num d).memoryWf :=
  (wf.modCore fun _ => by rfl).hatPost

theorem modEntryAt {s : State} {c num : Nat} {f : CtxEntry → CtxEntry} (wf : s.memoryWf) :
    (s.modEntryAt c num f).memoryWf :=
  wf.modCluster fun _ => by rfl

theorem modSaved {s : State} {c num : Nat} {f : Slot → Slot} (wf : s.memoryWf) : (s.modSaved c num f).memoryWf := by
  unfold Machine.State.modSaved
  split
  · split
    · exact wf
    · extract_lets sl becomes s1
      have hs1 : s1.memoryWf := wf.modEntryAt
      exact .ite hs1.next1 hs1
  · exact wf

theorem completeCtx {s : State} {c num reg : Nat} {status : Word} {sig : Sig} (wf : s.memoryWf) :
    (Machine.completeCtx s c num reg status sig).memoryWf := by
  unfold Machine.completeCtx
  split
  · split
    · exact wf.dropCompletion
    · extract_lets s1
      have hs1 : s1.memoryWf := wf.modSlot
      exact .ite hs1.finishBundle (.ite hs1.modSlot.toReady (.ite hs1.next1 hs1))
  · split
    · exact .ite wf.dropCompletion wf.modSaved
    · exact wf.dropCompletion

theorem execCompletionWrite {core num reg : Nat} {status : Word} {sig : Sig} {s : State} (wf : s.memoryWf) :
    nextWf (Machine.execCompletionWrite core num reg status sig s) :=
  wf.completeCtx.next

theorem execContextNumberRelease {core num : Nat} {s : State} (wf : s.memoryWf) :
    nextWf (Machine.execContextNumberRelease core num s) :=
  (wf.modCore fun _ => by rfl).next

theorem lateReply {s : State} {die idx gen : Nat} (wf : s.memoryWf) : (Machine.lateReply s die idx gen).memoryWf :=
  (modDie (by
    split
    · exact wf.modCore fun _ => by rfl
    · exact wf)).hatPost

theorem freeTag {s : State} {die idx : Nat} (wf : s.memoryWf) : (Machine.freeTag s die idx).memoryWf := by
  unfold Machine.freeTag
  extract_lets s1
  have hs1 : s1.memoryWf := wf.modDie
  split
  · exact hs1.modDie.next1
  · exact hs1

theorem countDie {die : Nat} {s : State} (wf : s.memoryWf) : (Machine.countDie die s).memoryWf :=
  wf.modDie

theorem dropCopies {s : State} {die line : Nat} (wf : s.memoryWf) : (Machine.dropCopies s die line).memoryWf :=
  .ite wf wf.modDie

theorem useCopy {s : State} {die world line : Nat} {t : State} {x : Option RdcLine} (wf : s.memoryWf) :
    Machine.useCopy s die world line = (t, x) → t.memoryWf := by
  unfold Machine.useCopy
  split
  · rintro ⟨⟩
    exact wf
  · split
    · rintro ⟨⟩
      exact countDie (by
        extract_lets src
        have hsrc : src.memoryWf := wf.dropCopies
        exact hsrc.beside (by rfl))
    · split
      · rintro ⟨⟩
        exact (wf.correct (fun _ ht => ht.countDie)).tick
      · rintro ⟨⟩
        exact wf.modDie.tick

theorem joinFill {s : State} {die id : Nat} {who : ReplyTo} (wf : s.memoryWf) :
    (Machine.joinFill s die id who).memoryWf :=
  wf.modDie

theorem setTag {s : State} {die idx : Nat} {t : Tag} (wf : s.memoryWf) : (Machine.setTag s die idx t).memoryWf :=
  wf.modDie

theorem drawTag {s : State} {die : Nat} {who : ReplyTo} {module x x2 : Nat} {t : State} (wf : s.memoryWf) :
    Machine.drawTag s die who module = some (x, x2, t) → t.memoryWf := by
  unfold Machine.drawTag
  dsimp only
  split
  · rintro ⟨⟩
    exact wf.setTag.at_
  · nofun

theorem dropPacket {s : State} {die : Nat} {p : Packet} (wf : s.memoryWf) : (Machine.dropPacket s die p).memoryWf :=
  wf.modDie.hatPost

theorem toPort {s : State} {port : Nat} {p : Packet} (wf : s.memoryWf) : (Machine.toPort s port p).memoryWf := by
  unfold Machine.toPort
  split
  · extract_lets s1
    have hs1 : s1.memoryWf := wf.modLink
    exact .ite hs1 hs1.at_
  · exact wf.dropPacket

theorem sendPacket {s : State} {die : Nat} {p : Packet} {t : State} (wf : s.memoryWf) :
    Machine.sendPacket s die p = some t → t.memoryWf := by
  unfold Machine.sendPacket
  split
  · rintro ⟨⟩
    exact wf.toPort
  · nofun

theorem sendFill {s : State} {die : Nat} {f : RdcFill} (wf : s.memoryWf) : (Machine.sendFill s die f).memoryWf := by
  unfold Machine.sendFill
  extract_lets
  split
  · rename_i eq
    exact .getD (fun _ => (wf.drawTag eq).sendPacket) (wf.drawTag eq)
  · exact wf.modDie

theorem startPeerFill {s : State} {die world line : Nat} {who : List ReplyTo} (wf : s.memoryWf) :
    (Machine.startPeerFill s die world line who).memoryWf :=
  wf.freshId.modDie.sendFill

theorem serveAway {s : State} {die world : Nat} {who : ReplyTo} {m pa n : Nat} {t : State} {x : Option (List Byte)}
    (wf : s.memoryWf) : Machine.serveAway s die world who m pa n = (t, x) → t.memoryWf := by
  unfold Machine.serveAway
  dsimp only
  split
  · rename_i eq
    rintro ⟨⟩
    exact (wf.useCopy eq)
  · rename_i eq
    split
    · rintro ⟨⟩
      exact (wf.useCopy eq).joinFill
    · rintro ⟨⟩
      exact (wf.useCopy eq).startPeerFill

theorem modCtx {s : State} {c num : Nat} {f : Slot → Slot} (wf : s.memoryWf) : (s.modCtx c num f).memoryWf := by
  unfold Machine.State.modCtx
  split
  · exact wf.modSlot
  · exact wf.modEntryAt

theorem setReq {s : State} {c num : Nat} {r : MemReq} (wf : s.memoryWf) : (Machine.setReq s c num r).memoryWf :=
  wf.modCtx

theorem finishCtx {s : State} {c num : Nat} {f : Slot → Slot} (wf : s.memoryWf) :
    (Machine.finishCtx s c num f).memoryWf := by
  unfold Machine.finishCtx
  split
  · exact wf.modSlot.finishBundle
  · split
    · exact .ite wf.dropCompletion wf.modSaved
    · exact wf.dropCompletion

theorem finishAccess {s : State} {c num : Nat} {r : MemReq} (wf : s.memoryWf) :
    (Machine.finishAccess s c num r).memoryWf := by
  unfold Machine.finishAccess
  split
  · exact wf.setReq.next1
  · exact wf.setReq.next1
  · exact wf.setReq.next1
  · exact wf.setReq.next1
  · exact finishCtx (.ite wf.traceKeep wf)

theorem withTag {s : State} {c num module : Nat} {r : MemReq} {k : Nat → Nat → MemReq → State → State} (h : s.memoryWf)
    (hk : ∀ i g q t, t.memoryWf → (k i g q t).memoryWf) : (Machine.withTag s c num r module k).memoryWf := by
  unfold Machine.withTag
  split
  · rename_i eq
    exact hk _ _ _ _ (h.drawTag eq).setReq
  · exact h.setReq

theorem peerStoreSent {s : State} {die idx module pa n : Nat} (wf : s.memoryWf) :
    (Machine.peerStoreSent s die idx module pa n).memoryWf :=
  .foldl (fun _ _ ht => ht.dropCopies.modDie) wf

theorem MemReq_sentStore {s : State} {die idx : Nat} {r : MemReq} {m pa n : Nat} (wf : s.memoryWf) :
    (Machine.MemReq.sentStore s die idx r m pa n).memoryWf := by
  unfold Machine.MemReq.sentStore
  split
  · exact wf.peerStoreSent
  · exact wf.peerStoreSent
  · exact wf.peerStoreSent
  · exact wf
  · exact wf

theorem stewardTrap {s : State} {k : Nat} {cause val : Word} (wf : s.memoryWf) :
    (Machine.stewardTrap s k cause val).memoryWf := by
  unfold Machine.stewardTrap
  extract_lets sl ep s1 s2 src s3 s4
  have hs2 : s2.memoryWf := wf.modSlot.toState
  have hs4 : s4.memoryWf := (hs2.beside (by rfl)).hatPost
  exact .ite hs4.modPolder hs4

theorem tenantTrap {s : State} {k : Nat} {cause val : Word} (wf : s.memoryWf) :
    (Machine.tenantTrap s k cause val).memoryWf :=
  wf.modSlot.toReady

theorem takeTrapAt {s : State} {k cause : Nat} {val : Word} (wf : s.memoryWf) :
    (Machine.takeTrapAt s k cause val).memoryWf :=
  .ite (.ite wf.stewardTrap (.ite wf.stewardTrap wf.tenantTrap)) wf.stewardTrap

theorem faultCtx {s : State} {c num cause : Nat} {val : Word} (wf : s.memoryWf) :
    (Machine.faultCtx s c num cause val).memoryWf := by
  unfold Machine.faultCtx
  split
  · exact wf.takeTrapAt
  · exact wf.modSaved

theorem faultAccess {s : State} {c num : Nat} {r : MemReq} {code : Nat} {val : Word} (wf : s.memoryWf) :
    (Machine.faultAccess s c num r code val).memoryWf :=
  .ite wf.finishCtx.next1 wf.faultCtx

theorem sendActive {s : State} {core : Nat} {m : ActiveMsg} (wf : s.memoryWf) :
    (Machine.sendActive s core m).memoryWf :=
  wf.laterAfter

theorem advanceAccess {s : State} {c num : Nat} {r : MemReq} (wf : s.memoryWf) :
    (Machine.advanceAccess s c num r).memoryWf := by
  have fromHome {d : Nat} {r1 : MemReq} {away : List Nat} : (match away with
      | [] => (Machine.setReq s c num r1).later Config.latReply (.remoteReply (.ctx c num) .home 0)
      | x :: _ => Machine.withTag s c num r1 s.moduleNo (fun idx gen _ s1 =>
        if crossesDown s d x then s1 else s1.later Config.latReply (.remoteReply (.tag d idx gen) .home 0))).memoryWf := by
    split
    · exact wf.setReq.later
    · exact wf.withTag fun _ _ _ _ ht => .ite ht ht.later
  unfold Machine.advanceAccess
  dsimp only
  split
  · exact wf.finishAccess
  · exact fromHome
  · exact fromHome
  · refine .ite wf.setReq.later (.ite (wf.withTag fun _ _ _ t ht => ?_) wf.faultAccess)
    exact .getD (fun _ => ht.MemReq_sentStore.sendPacket) ht.MemReq_sentStore
  · split
    · exact .ite wf.setReq.sendActive (wf.withTag fun _ _ _ _ ht => .ite ht ht.sendActive)
    · exact .ite (wf.withTag fun _ _ _ _ ht => .getD (fun _ => ht.sendPacket) ht) wf.faultAccess

theorem servePeerCopy {s : State} {c num : Nat} {r : MemReq} {m pa : Nat} (wf : s.memoryWf) :
    (Machine.servePeerCopy s c num r m pa).memoryWf := by
  unfold Machine.servePeerCopy
  extract_lets
  split
  · rename_i eq
    exact (wf.setReq.serveAway eq).advanceAccess
  · rename_i eq
    exact (wf.setReq.serveAway eq)

theorem holdRequest {s : State} {tdie : Nat} {who : ReplyTo} (wf : s.memoryWf) :
    (Machine.holdRequest s tdie who).memoryWf := by
  unfold Machine.holdRequest
  extract_lets
  split
  · exact wf.freshId.modDie.at_
  · exact wf.freshId.modDie.at_
  · exact wf

theorem holdKeyed {s : State} {c num : Nat} {r : MemReq} {pa : Nat} {k : Nat × Nat × Nat} (wf : s.memoryWf) :
    (Machine.holdKeyed s c num r pa k).memoryWf := by
  unfold Machine.holdKeyed
  extract_lets launch a s1 s2
  have hs1 : s1.memoryWf := wf.modDie
  have hs2 : s2.memoryWf := by
    unfold s2
    split
    · exact hs1.holdRequest
    · exact hs1
  exact hs2.next1

theorem fetchLine {s : State} {line : Nat} {t : State} (wf : s.memoryWf) :
    Machine.fetchLine s line = some t → t.memoryWf := by
  unfold Machine.fetchLine
  split
  · nofun
  · dsimp only
    split
    · rintro ⟨⟩
      exact wf.correct (fun _ ht => ht.countDie)
    · unfold Option.map
      split
      · rintro ⟨⟩
        exact (wf.correct (fun _ ht => ht.countDie)).pokeMem.beside (by rfl)
      · nofun

theorem fetchLines {s t : State} {ls : List Nat} (h : s.memoryWf) : Machine.fetchLines s ls = .ok t → t.memoryWf := by
  induction ls generalizing s with
  | nil => rintro ⟨⟩; exact h
  | cons l ls ih =>
    unfold Machine.fetchLines
    split
    · rename_i eq
      exact ih (h.fetchLine eq)
    · nofun

theorem homeRead {s : State} {pa n : Nat} {t : State} {x : List Byte} (wf : s.memoryWf) :
    Machine.homeRead s pa n = .ok (t, x) → t.memoryWf := by
  unfold Machine.homeRead
  split
  · rename_i eq
    rintro ⟨⟩
    exact (wf.fetchLines eq)
  · nofun

theorem startFill {s : State} {die world line : Nat} {data : List Byte} {who : List ReplyTo} (wf : s.memoryWf) :
    (Machine.startFill s die world line data who).memoryWf :=
  wf.freshId.modDie.laterAfter

theorem serveCopy {s : State} {die world : Nat} {who : ReplyTo} {pa n : Nat} {t : State} {x : Option (List Byte)}
    (wf : s.memoryWf) : Machine.serveCopy s die world who pa n = .ok (t, x) → t.memoryWf := by
  unfold Machine.serveCopy
  dsimp only
  split
  · rename_i eq
    rintro ⟨⟩
    exact (wf.useCopy eq)
  · rename_i eq
    split
    · rintro ⟨⟩
      exact (wf.useCopy eq).joinFill
    · split
      · nofun
      · rename_i eq1
        rintro ⟨⟩
        exact ((wf.useCopy eq).homeRead eq1).startFill

theorem dropStamp {s : State} {c : Nat} {r : MemReq} (wf : s.memoryWf) : (Machine.dropStamp s c r).memoryWf := by
  unfold Machine.dropStamp
  split
  · exact wf.modCore fun _ => by rfl
  · exact wf

theorem accessFault {s : State} {c num : Nat} {r : MemReq} {code val : Nat} (wf : s.memoryWf) :
    (Machine.accessFault s c num r code val).memoryWf :=
  (dropStamp (by
    split
    · exact wf.freeTag
    · exact wf)).faultAccess

theorem integrityRecord {s : State} {line : Nat} (wf : s.memoryWf) : (Machine.integrityRecord s line).memoryWf :=
  wf.hatPost

theorem updateCopies {s : State} {die module pa : Nat} {bs : List Byte} (wf : s.memoryWf) :
    (Machine.updateCopies s die module pa bs).memoryWf :=
  .ite wf wf.modDie

theorem writeTarget {s : State} {c : Nat} {t : Target} {b : Byte} (wf : s.memoryWf) :
    (Machine.writeTarget s c t b).memoryWf := by
  unfold Machine.writeTarget
  split
  · exact wf.lsStore
  · exact wf.pokeMem.updateCopies
  · exact wf

theorem writeTargets {s : State} {c : Nat} {ts : List (Target × Byte)} (h : s.memoryWf) :
    (Machine.writeTargets s c ts).memoryWf := by
  induction ts generalizing s with
  | nil => exact h
  | cons t ts ih => exact ih h.writeTarget

theorem publishHome {s : State} {pa world : Nat} {sig : Sig} (wf : s.memoryWf) :
    (Machine.publishHome s pa world sig).memoryWf :=
  wf.modDie

theorem storePerformed {s : State} {c num : Nat} {rel : Bool} {ts : List Target} (wf : s.memoryWf) :
    (Machine.storePerformed s c num rel ts).memoryWf := by
  unfold Machine.storePerformed
  extract_lets s1
  have hs1 : s1.memoryWf := wf.modCtx.hitWatchesBut
  split
  · split
    · extract_lets s2
      have hs2 : s2.memoryWf := .foldl (fun _ _ ht => ht.publishHome) hs1
      exact .ite hs2.modCtx hs2
    · exact hs1
  · exact hs1

theorem invalidateMatching {s : State} {die : Nat} {sig : Sig} (wf : s.memoryWf) :
    (Machine.invalidateMatching s die sig).memoryWf :=
  wf.modDie

theorem acquireCtx {s : State} {c num : Nat} {sig : Sig} (wf : s.memoryWf) :
    (Machine.acquireCtx s c num sig).memoryWf :=
  wf.modCtx.invalidateMatching

theorem acquirePerformed {s : State} {c num : Nat} {ts : List Target} (wf : s.memoryWf) :
    (Machine.acquirePerformed s c num ts).memoryWf := by
  unfold Machine.acquirePerformed
  split
  · exact .foldl (fun _ _ ht => ht.acquireCtx) wf
  · exact wf

theorem refreshCopies {s : State} {die : Nat} {bs : List (Nat × Nat × Byte)} (wf : s.memoryWf) :
    (Machine.refreshCopies s die bs).memoryWf :=
  .ite wf wf.modDie

theorem performHome {s : State} {c num : Nat} {r : MemReq} {t : State} {x : MemReq} (wf : s.memoryWf) :
    Machine.performHome s c num r = .ok (t, x) → t.memoryWf := by
  unfold Machine.performHome
  dsimp only
  split
  · nofun
  · nofun
  · rename_i t0 _ eq
    have here {ps : List Nat} : (Machine.lsCorrect t0 c ps).memoryWf := (wf.fetchLines eq).lsCorrect
    split
    iterate 2
      · rintro ⟨⟩
        exact here.writeTargets.storePerformed
    iterate 2
      · rintro ⟨⟩
        exact .ite here.writeTargets.storePerformed.acquirePerformed here.writeTargets.storePerformed
    all_goals
      rintro ⟨⟩
      exact .ite (refreshCopies (.ite here.acquirePerformed here)) (.ite here.acquirePerformed here)

theorem performHome_error {s : State} {c num : Nat} {r : MemReq} {t : State} {x : Nat} (wf : s.memoryWf) :
    Machine.performHome s c num r = .error (t, x) → t.memoryWf := by
  unfold Machine.performHome
  dsimp only
  split
  · rintro ⟨⟩
    exact wf
  · rintro ⟨⟩
    exact wf.integrityRecord
  · split <;> nofun

theorem accessAtHome {s : State} {c num : Nat} {r : MemReq} (wf : s.memoryWf) :
    (Machine.accessAtHome s c num r).memoryWf := by
  unfold Machine.accessAtHome
  extract_lets die free
  split
  · exact wf.servePeerCopy
  · exact wf.holdKeyed
  · split
    · split
      · exact wf.integrityRecord.accessFault
      · rename_i eq
        exact advanceAccess (by
          unfold free
          split
          · exact (wf.serveCopy eq).freeTag
          · exact (wf.serveCopy eq))
      · rename_i eq
        exact setReq (by
          unfold free
          split
          · exact (wf.serveCopy eq).freeTag
          · exact (wf.serveCopy eq))
    · split
      · rename_i eq
        exact (wf.performHome_error eq).accessFault
      · rename_i eq
        exact advanceAccess (by
          unfold free
          split
          · exact (wf.performHome eq).freeTag
          · exact (wf.performHome eq))
  · split
    · rename_i eq
      exact (wf.performHome_error eq).accessFault
    · rename_i eq
      exact advanceAccess (by
        unfold free
        split
        · exact (wf.performHome eq).freeTag
        · exact (wf.performHome eq))

theorem peerPerformed {s : State} {c num : Nat} {r : MemReq} (wf : s.memoryWf) :
    (Machine.peerPerformed s c num r).memoryWf := by
  unfold Machine.peerPerformed
  split
  · split
    · exact wf.modCtx
    · exact wf.modCtx
    · exact wf.modCtx
    · exact wf
    · exact wf
  · exact wf

theorem tlbCluster {s : State} {cl : Nat} {t : TlbEntry} (wf : s.memoryWf) : (Machine.tlbCluster s cl t).memoryWf :=
  wf.modCluster fun _ => by rfl

theorem tlbDie {s : State} {die : Nat} {t : TlbEntry} (wf : s.memoryWf) : (Machine.tlbDie s die t).memoryWf :=
  wf.modDie

theorem lookup {s : State} {core world va : Nat} {t : State} {x : Option Leaf} (wf : s.memoryWf) :
    Machine.lookup s core world va = (t, x) → t.memoryWf := by
  unfold Machine.lookup
  dsimp only
  split
  · rintro ⟨⟩
    exact wf.tlbCluster
  · split
    · rintro ⟨⟩
      exact (wf.modCore fun _ => by rfl).tlbDie.tlbCluster
    · rintro ⟨⟩
      exact (wf.modCore fun _ => by rfl).modCore fun _ => by rfl

theorem translateVas {core world lo hi : Nat} {need : Need} {s t : State} {vas : List Nat} {x : TransResult}
    (h : s.memoryWf) : Machine.translateVas core world lo hi need s vas = (t, x) → t.memoryWf := by
  suffices wf : (Machine.translateVas core world lo hi need s vas).1.memoryWf from of_fst' wf
  induction vas generalizing s with
  | nil => exact h
  | cons va vas ih =>
    unfold Machine.translateVas
    split
    · exact h
    split
    · split
      · split
        · rename_i eq
          exact of_fst eq (ih h)
        · exact ih h
      · exact h
    · split
      · rename_i eq
        exact h.lookup eq
      · rename_i eq
        have ht := h.lookup eq
        split
        · exact ht
        · split
          · rename_i eq'
            exact of_fst eq' (ih ht)
          · exact ih ht

theorem translateReq {s : State} {core : Nat} {sl : Slot} {r : MemReq} {t : State} {x : TransResult}
    (wf : s.memoryWf) : Machine.translateReq s core sl r = (t, x) → t.memoryWf := by
  unfold Machine.translateReq
  dsimp only
  split
  · split
    · rename_i eq
      exact (wf.translateVas eq).translateVas
    · exact wf.translateVas
  · exact wf.translateVas

theorem queueMiss {s : State} {cluster world va : Nat} {who : ReplyTo} (wf : s.memoryWf) :
    (Machine.queueMiss s cluster world va who).memoryWf :=
  (wf.modCluster fun _ => by rfl).next1

theorem atomicKey {s : State} {c : Nat} {r : MemReq} {t : State} {x : Option (Nat × Nat × Nat)} (wf : s.memoryWf) :
    Machine.atomicKey s c r = (t, x) → t.memoryWf := by
  unfold Machine.atomicKey
  split
  · dsimp only
    rintro ⟨⟩
    exact wf.modCore fun _ => by rfl
  · rintro ⟨⟩
    exact wf

theorem accessTranslated {s : State} {c num : Nat} {r : MemReq} {ts : List Target} (wf : s.memoryWf) :
    (Machine.accessTranslated s c num r ts).memoryWf := by
  unfold Machine.accessTranslated
  extract_lets
  split
  · exact wf.faultAccess
  · split
    · exact wf.integrityRecord.faultAccess
    · split
      · rename_i eq
        have hs1 := of_fst eq (by
          split
          · exact wf.atomicKey rfl
          · exact wf)
        exact hs1.advanceAccess

theorem retryAccess {s : State} {c num : Nat} {r : MemReq} (wf : s.memoryWf) :
    (Machine.retryAccess s c num r).memoryWf := by
  unfold Machine.retryAccess
  split
  · exact wf
  · split
    · exact wf.faultAccess
    · rename_i eq
      exact (wf.translateReq eq).queueMiss
    · rename_i eq
      exact (wf.translateReq eq).accessTranslated

theorem accessReply {s : State} {c num : Nat} {r : MemReq} {p : Reply} {sig : Sig} (wf : s.memoryWf) :
    (Machine.accessReply s c num r p sig).memoryWf := by
  unfold Machine.accessReply
  split
  · exact .ite wf wf.accessAtHome
  · split
    · exact wf
    · extract_lets s0 s1
      have hs0 : s0.memoryWf := wf.peerPerformed
      have hs1 : s1.memoryWf := .ite hs0.acquireCtx hs0
      exact (refreshCopies (.ite hs1.modCtx hs1)).dropStamp.advanceAccess
  · split
    · exact .ite wf.retryAccess wf.advanceAccess
    · extract_lets s0
      have hs0 : s0.memoryWf := wf.peerPerformed
      exact advanceAccess (.ite hs0.modCtx hs0)
  · exact wf.accessFault
  · exact wf.accessFault
  · exact wf

theorem homeWrite {s : State} {self : Option Nat} {pa : Nat} {bs : List Byte} {t : State} (wf : s.memoryWf) :
    Machine.homeWrite s self pa bs = .ok t → t.memoryWf := by
  unfold Machine.homeWrite
  extract_lets ls part
  split
  · rename_i u eq
    extract_lets t1 t2 t3
    have ht1 : t1.memoryWf := (wf.fetchLines eq).pokeMem
    have ht2 : t2.memoryWf := ht1.ite (ht1.beside (by rfl))
    have ht3 : t3.memoryWf := ht2.ite (ht2.beside (by rfl))
    intro e
    exact Except.ok.inj e ▸ ht3.hitWatchesBut
  · nofun

theorem copiesTake {s : State} {die pa : Nat} {bs : List Byte} (wf : s.memoryWf) :
    (Machine.copiesTake s die pa bs).memoryWf :=
  .foldl (fun _ _ ht => .ite ht ht.updateCopies) wf

theorem sttkPerform {s : State} {die : Nat} {e : TokEntry} {t : State} (wf : s.memoryWf) :
    Machine.sttkPerform s die e = .ok t → t.memoryWf := by
  unfold Machine.sttkPerform
  split
  · split
    · nofun
    · rename_i eq
      dsimp only
      rintro ⟨⟩
      exact modDie (.ite (wf.homeWrite eq).copiesTake.modCtx.publishHome (wf.homeWrite eq).copiesTake.modCtx)
  · rintro ⟨⟩
    exact wf

theorem sttkPerform_error {s : State} {die : Nat} {e : TokEntry} {x : Nat} {t : State} (wf : s.memoryWf) :
    Machine.sttkPerform s die e = .error (x, t) → t.memoryWf := by
  unfold Machine.sttkPerform
  split
  · split
    · rintro ⟨⟩
      exact wf.integrityRecord
    · dsimp only
      nofun
  · nofun

theorem flushSttk {s : State} {c num : Nat} (wf : s.memoryWf) : (Machine.flushSttk s c num).memoryWf :=
  .foldl (fun _ _ ht => by
    split
    · rename_i eq
      exact (ht.sttkPerform eq)
    · exact ht) wf

theorem touchPage {s : State} {cluster world va : Nat} (wf : s.memoryWf) :
    (Machine.touchPage s cluster world va).memoryWf := by
  unfold Machine.touchPage
  split
  · exact wf.tlbCluster
  · split
    · exact wf.tlbDie.tlbCluster
    · exact wf

theorem walkEffect {s : State} {die world va : Nat} (wf : s.memoryWf) :
    (Machine.walkEffect s die world va).memoryWf :=
  modDie (.foldl (fun _ _ ht => ht.invalidateMatching) wf)

theorem hintLeaf {s : State} {cluster world va : Nat} {t : State} {x : Option Leaf} (wf : s.memoryWf) :
    Machine.hintLeaf s cluster world va = (t, x) → t.memoryWf := by
  unfold Machine.hintLeaf
  split
  · rintro ⟨⟩
    exact wf.touchPage
  · split
    · rintro ⟨⟩
      exact wf
    · dsimp only
      split
      · rintro ⟨⟩
        exact wf.walkEffect.tlbDie.tlbCluster
      · rintro ⟨⟩
        exact wf.walkEffect
  · rintro ⟨⟩
    exact wf

theorem hintTarget {s : State} {cluster world va : Nat} {need : Need} {t : State} {x : Option Target}
    (wf : s.memoryWf) : Machine.hintTarget s cluster world va need = (t, x) → t.memoryWf := by
  unfold Machine.hintTarget
  split
  · rintro ⟨⟩
    exact wf
  · split
    · rename_i eq
      rintro ⟨⟩
      exact (wf.hintLeaf eq)
    · rename_i eq
      rintro ⟨⟩
      exact (wf.hintLeaf eq)

theorem dropAdd {s : State} {cluster : Nat} (wf : s.memoryWf) : (Machine.dropAdd s cluster).memoryWf :=
  wf.modCore fun _ => by rfl

theorem sendAdd {s : State} {cluster world m pa n : Nat} (wf : s.memoryWf) :
    (Machine.sendAdd s cluster world m pa n).memoryWf := by
  unfold Machine.sendAdd
  extract_lets
  split
  · split
    · rename_i eq
      extract_lets s2
      have hs2 : s2.memoryWf := (wf.drawTag eq).peerStoreSent
      exact .getD (fun _ => hs2.sendPacket) hs2
    · exact wf.modDie
  · exact wf.dropAdd

theorem flushCounter {s : State} {cluster world addr : Nat} (wf : s.memoryWf) :
    (Machine.flushCounter s cluster world addr).memoryWf := by
  unfold Machine.flushCounter
  split
  · exact wf
  · extract_lets
    split
    · rename_i eq
      split
      · exact ((wf.modCluster fun _ => by rfl).hintTarget eq).integrityRecord.dropAdd
      · rename_i eq1
        split
        · rename_i eq2
          exact ((((wf.modCluster fun _ => by rfl).hintTarget eq).homeRead eq1).homeWrite eq2).updateCopies
        · exact (((wf.modCluster fun _ => by rfl).hintTarget eq).homeRead eq1).dropAdd
    · rename_i eq
      exact ((wf.modCluster fun _ => by rfl).hintTarget eq).sendAdd
    · rename_i eq
      exact ((wf.modCluster fun _ => by rfl).hintTarget eq).dropAdd

theorem flushWorld {s : State} {cluster world : Nat} (wf : s.memoryWf) :
    (Machine.flushWorld s cluster world).memoryWf :=
  .foldl (fun _ _ ht => ht.flushCounter) wf

theorem syncStreams {s : State} {k : Nat} (wf : s.memoryWf) : (Machine.syncStreams s k).memoryWf :=
  wf.modSlot.tick

theorem fenceEffect {s : State} {c num : Nat} {r : MemReq} (wf : s.memoryWf) :
    (Machine.fenceEffect s c num r).memoryWf := by
  unfold Machine.fenceEffect
  extract_lets s1 away s2
  have hs1 : s1.memoryWf := wf.modCtx
  have hs2 : s2.memoryWf := .ite hs1.modDie hs1
  split
  · exact hs2.syncStreams
  · exact hs2

theorem fenceReply {s : State} {c num : Nat} {r : MemReq} (wf : s.memoryWf) :
    (Machine.fenceReply s c num r).memoryWf := by
  unfold Machine.fenceReply
  split
  · exact wf
  · exact .ite (.ite wf wf.fenceEffect.flushWorld.finishCtx) wf.fenceEffect.finishCtx

theorem deliverLds {s : State} {c : Nat} {w : Waiter} {bs : List Byte} (wf : s.memoryWf) :
    (Machine.deliverLds s c w bs).memoryWf := by
  unfold Machine.deliverLds
  split
  · split
    · split
      · exact finishCtx (.ite wf.acquireCtx wf)
      · exact wf
    · exact wf.later
  · exact wf.later

theorem retryLds {s : State} {c n : Nat} (h : s.memoryWf) : (Machine.retryLds s c n).memoryWf := by
  induction n generalizing s with
  | zero => exact h
  | succ n ih =>
    unfold Machine.retryLds
    split
    · exact h
    · exact .ite (ih ((h.modCore fun _ => by rfl).modCore fun _ => by rfl).deliverLds) ((h.modCore fun _ => by rfl).modCore fun _ => by rfl)

theorem forgetWaits {s : State} {c num : Nat} (wf : s.memoryWf) : (Machine.forgetWaits s c num).memoryWf :=
  modCluster (modCore (.foldl (fun _ _ ht => ht.retryLds) (wf.modCore fun _ => by rfl)) fun _ => by rfl) fun _ => by rfl

theorem freeContext {s : State} {c num : Nat} (wf : s.memoryWf) : (Machine.freeContext s c num).memoryWf :=
  ((((wf.forgetWaits.modCore fun _ => by rfl).modCluster fun _ => by rfl).modCluster fun _ => by rfl).modCore fun _ => by rfl).at_.next1

theorem putBarrier {s : State} {world : Nat} {b : Barrier} (wf : s.memoryWf) :
    (Machine.putBarrier s world b).memoryWf :=
  wf.modPolder

theorem endMember {s : State} {world h i : Nat} (wf : s.memoryWf) : (Machine.endMember s world h i).memoryWf := by
  unfold Machine.endMember
  split
  · exact wf
  · exact .foldl (fun _ _ ht => ht.putBarrier.next1) wf

theorem devWrite {s : State} {cluster world va : Nat} {bs : List Byte} {t : State} (wf : s.memoryWf) :
    Machine.devWrite s cluster world va bs = .ok t → t.memoryWf := by
  unfold Machine.devWrite
  split
  · nofun
  · split
    · nofun
    · rename_i eq
      rintro ⟨⟩
      exact (wf.homeWrite eq).updateCopies

theorem devRelease {s : State} {cluster world va : Nat} {bs : List Byte} {t : State} (wf : s.memoryWf) :
    Machine.devRelease s cluster world va bs = .ok t → t.memoryWf := by
  unfold Machine.devRelease
  split
  · rename_i eq
    rintro ⟨⟩
    exact (wf.devWrite eq).publishHome
  · nofun
  · nofun

theorem writeState {s : State} {world q addr : Nat} {st : LaunchState} (wf : s.memoryWf) :
    (Machine.writeState s world q addr st).memoryWf := by
  unfold Machine.writeState
  split
  · rename_i eq
    exact (wf.devRelease eq)
  · exact wf

theorem dropLaunch {s : State} {world h : Nat} (wf : s.memoryWf) : (Machine.dropLaunch s world h).memoryWf :=
  wf.modPolder

theorem modQueue {s : State} {world q : Nat} {f : Queue → Queue} (wf : s.memoryWf) :
    (Machine.modQueue s world q f).memoryWf :=
  wf.modPolder

theorem resetDone {s : State} {world q : Nat} (wf : s.memoryWf) : (Machine.resetDone s world q).memoryWf :=
  .ite wf.modQueue.modPolder.next1 wf

theorem wakeQueues {s : State} {w : Nat} (wf : s.memoryWf) : (Machine.wakeQueues s w).memoryWf :=
  .foldl (fun _ _ ht => ht.next1) wf

theorem closeLaunch {s : State} {world : Nat} {l : Launch} {st : LaunchState} (wf : s.memoryWf) :
    (Machine.closeLaunch s world l st).memoryWf :=
  wf.dropLaunch.writeState.wakeQueues.resetDone

theorem cancelAll {s : State} {world q fuel : Nat} {addrs : List Nat} (h : s.memoryWf) :
    (Machine.cancelAll s world q fuel addrs).memoryWf := by
  induction fuel generalizing s addrs with
  | zero => exact h
  | succ n ih =>
    cases addrs with
    | nil => exact h
    | cons a rest =>
      unfold Machine.cancelAll
      split
      · exact ih h
      split
      · exact .ite (ih (writeState (s := s.modPolder _ _) h)) (ih h)
      · split
        · exact ih h
        · split
          · extract_lets s1
            have hs1 : s1.memoryWf := h.writeState
            split
            · exact ih hs1
            · exact ih hs1
          · exact ih h

theorem modLaunch {s : State} {world h : Nat} {f : Launch → Launch} (wf : s.memoryWf) :
    (Machine.modLaunch s world h f).memoryWf :=
  wf.modPolder

theorem cancelChosen {s : State} {world q addr : Nat} (wf : s.memoryWf) :
    (Machine.cancelChosen s world q addr).memoryWf :=
  .ite wf (.ite wf.cancelAll wf.writeState.cancelAll)

theorem startInstall {s : State} {k : Nat} {sl : Slot} (wf : s.memoryWf) : (Machine.startInstall s k sl).memoryWf :=
  wf.setSlot.at_

theorem putTask {s : State} {k : Nat} {r : TaskRec} {t : State} (wf : s.memoryWf) :
    Machine.putTask s k r = some t → t.memoryWf := by
  unfold Machine.putTask
  dsimp only
  split
  · nofun
  · rintro ⟨⟩
    exact (wf.modCore fun _ => by rfl).invalidateMatching.startInstall

theorem installTask {s : State} {k : Nat} {r : TaskRec} {t : State} (wf : s.memoryWf) :
    Machine.installTask s k r = some t → t.memoryWf := by
  unfold Machine.installTask
  split
  · exact wf.putTask
  · rintro ⟨⟩
    exact wf.stewardNote

theorem placeUrgent {s : State} {r : TaskRec} {cores : List Nat} {die : Nat} (wf : s.memoryWf) :
    (Machine.placeUrgent s r cores die).memoryWf := by
  unfold Machine.placeUrgent
  extract_lets wait
  have hwait : wait.memoryWf := wf.modDie
  split
  · exact .getD (fun _ => wf.installTask) hwait
  · exact hwait

theorem placeUrgents {s : State} {world l i n : Nat} (wf : s.memoryWf) : (Machine.placeUrgents s world l i n).memoryWf := by
  induction n generalizing s i with
  | zero => exact wf
  | succ n ih =>
    unfold Machine.placeUrgents
    split
    · exact wf
    · exact ih wf.modLaunch.placeUrgent

theorem setEligible {s : State} {world h : Nat} (wf : s.memoryWf) : (Machine.setEligible s world h).memoryWf := by
  unfold Machine.setEligible
  extract_lets n s1
  have hs1 : s1.memoryWf := wf.freshId.modLaunch
  split
  · exact .ite hs1.modLaunch.writeState.placeUrgents hs1
  · exact hs1

theorem devHeard {s : State} {cluster world va n : Nat} (wf : s.memoryWf) :
    (Machine.devHeard s cluster world va n).memoryWf :=
  .foldl (fun _ _ ht => by
    extract_lets
    split
    · exact (ht.hintLeaf rfl).invalidateMatching
    · exact ht) wf

theorem launchReport {s : State} {world q addr code : Nat} (wf : s.memoryWf) :
    (Machine.launchReport s world q addr code).memoryWf :=
  wf.hatPost.stewardNote

theorem enterLaunch {s : State} {world q addr : Nat} {l : Launch} {loopOf : Option Nat} {x : Nat} {t : State}
    (wf : s.memoryWf) : Machine.enterLaunch s world q addr l loopOf = some (x, t) → t.memoryWf := by
  unfold Machine.enterLaunch
  unfold Option.map
  split
  · rintro ⟨⟩
    exact wf.modPolder
  · nofun

theorem makeEligible {s : State} {world q addr : Nat} {loopOf : Option Nat} (wf : s.memoryWf) :
    (Machine.makeEligible s world q addr loopOf).memoryWf := by
  unfold Machine.makeEligible
  split
  · exact wf
  · split
    · exact wf.cancelChosen
    · split
      · exact .ite wf wf.modLaunch.setEligible
      · extract_lets s0
        have hs0 : s0.memoryWf := wf.devHeard
        split
        · exact hs0.launchReport
        · exact hs0.writeState.launchReport.cancelAll
        · split
          · rename_i eq
            exact (hs0.enterLaunch eq).setEligible
          · exact hs0.modQueue

theorem lowerWaits {s : State} {world q addr : Nat} (wf : s.memoryWf) :
    (Machine.lowerWaits s world q addr).memoryWf := by
  unfold Machine.lowerWaits
  split
  · exact wf
  · split
    · exact wf
    · extract_lets w s1 s2
      have hs1 : s1.memoryWf := by
        unfold s1
        split
        · exact wf
        · split
          · rename_i eq
            exact (wf.devRelease eq)
          · exact wf
      have hs2 : s2.memoryWf := by
        unfold s2
        split
        · exact hs1.modLaunch
        · exact hs1
      exact .ite hs2.makeEligible hs2

theorem checkDone {s : State} {world h : Nat} (wf : s.memoryWf) : (Machine.checkDone s world h).memoryWf := by
  unfold Machine.checkDone
  split
  · split
    · extract_lets s1
      have hs1 : s1.memoryWf := wf.closeLaunch
      split
      · exact hs1.next1
      · exact .ite hs1.cancelAll hs1.lowerWaits
    · exact .ite (resetDone (.ite wf.dropLaunch.wakeQueues wf)) wf
  · exact wf

theorem taskGone {s : State} {world h : Nat} (wf : s.memoryWf) : (Machine.taskGone s world h).memoryWf :=
  wf.modLaunch.checkDone

theorem releaseSlot {s : State} {k : Nat} {ends : Bool} (wf : s.memoryWf) : (Machine.releaseSlot s k ends).memoryWf := by
  unfold Machine.releaseSlot
  extract_lets sl c h s1 s2 s3
  have hs2 : s2.memoryWf := wf.toState.setSlot.freeContext
  have hs3 : s3.memoryWf := .ite hs2.endMember hs2
  exact .ite hs3.taskGone hs3

theorem endBackoff {s : State} {die world : Nat} (h : s.memoryWf) : (Machine.endBackoff s die world).memoryWf :=
  .ite (h.mapCores fun _ => by split <;> rfl) h

theorem becameReady {s : State} {c world : Nat} (wf : s.memoryWf) : (Machine.becameReady s c world).memoryWf :=
  wf.next1

theorem makeRoom {s : State} {c : Nat} {t : State} (wf : s.memoryWf) :
    Machine.makeRoom s c = some t → t.memoryWf := by
  unfold Machine.makeRoom
  dsimp only
  split
  · rintro ⟨⟩
    exact wf
  · split
    · nofun
    · rintro ⟨⟩
      exact (wf.modCore fun _ => by rfl).tick

theorem putRecord {s : State} {c : Nat} {r : TaskRec} {top : Bool} {t : State} (wf : s.memoryWf) :
    Machine.putRecord s c r top = some t → t.memoryWf := by
  unfold Machine.putRecord
  unfold Option.map
  split
  · rename_i eq
    rintro ⟨⟩
    exact ((wf.makeRoom eq).modCore fun _ => by rfl).becameReady
  · nofun

theorem pushAt {s : State} {c : Nat} {r : TaskRec} {top : Bool} {t : State} (wf : s.memoryWf) :
    Machine.pushAt s c r top = some t → t.memoryWf := by
  unfold Machine.pushAt
  unfold Option.map
  split
  · rename_i eq
    rintro ⟨⟩
    exact (wf.putRecord eq).endBackoff
  · nofun

theorem spillFailed {s : State} {c : Nat} (wf : s.memoryWf) : (Machine.spillFailed s c).memoryWf :=
  wf.tick.hatPost.stewardNote

theorem tyieldEnd {s : State} {k : Nat} {r : MemReq} (wf : s.memoryWf) : (Machine.tyieldEnd s k r).memoryWf := by
  unfold Machine.tyieldEnd
  extract_lets
  split
  · exact wf.modSlot.finishBundle
  · split
    · exact wf.takeTrapAt
    · split
      · exact wf.modDie.releaseSlot
      · split
        · rename_i eq
          exact (wf.pushAt eq).releaseSlot
        · exact wf.spillFailed.modSlot.finishBundle

theorem drainReply {s : State} {c num : Nat} {r : MemReq} (wf : s.memoryWf) :
    (Machine.drainReply s c num r).memoryWf := by
  unfold Machine.drainReply
  split
  · exact wf
  · extract_lets sl s1 s1'
    have hs1 : s1.memoryWf := wf.park
    have hs1' : s1'.memoryWf := wf.fenceEffect.flushWorld
    split
    · exact .ite wf (.ite hs1 hs1.next1)
    · split
      · split
        · exact wf
        · split
          · exact .ite hs1'.releaseSlot hs1'.modSlot.retryAccess
          · exact hs1'.tyieldEnd
      · exact .ite wf.releaseSlot wf

theorem writeTile {s : State} {cl q n : Nat} {bs : List Byte} (h : s.memoryWf) : (Machine.writeTile s cl q n bs).memoryWf :=
  h.setCluster (wf_cellWrite _ _ _ (h.cluster cl))

theorem qpushDone {s : State} {c num : Nat} {r : MemReq} (wf : s.memoryWf) : (Machine.qpushDone s c num r).memoryWf := by
  unfold Machine.qpushDone
  extract_lets cl q idx s1
  have hs1 : s1.memoryWf := wf.finishCtx
  exact hs1.tick.writeTile.at_.at_

theorem xredSend {s : State} {c num : Nat} {sl : Slot} {r : MemReq} {data : Vec} {t : State} {x : Option Nat}
    (wf : s.memoryWf) : Machine.xredSend s c num sl r data = some (t, x) → t.memoryWf := by
  unfold Machine.xredSend
  dsimp only
  split
  · split
    · rintro ⟨⟩
      exact wf.laterAfter
    · split
      · nofun
      · rename_i eq
        split
        · rintro ⟨⟩
          exact (wf.drawTag eq)
        · rintro ⟨⟩
          exact (wf.drawTag eq).laterAfter
  · split
    · rintro ⟨⟩
      exact wf
    · split
      · nofun
      · rename_i eq
        rintro ⟨⟩
        exact .getD (fun _ => (wf.drawTag eq).sendPacket) (wf.drawTag eq)

theorem xredCode {s : State} {c num rd : Nat} {code : Option Nat} (wf : s.memoryWf) :
    (Machine.xredCode s c num rd code).memoryWf := by
  unfold Machine.xredCode
  split
  · exact wf.next1
  · exact wf

theorem xredGo {s : State} {c num : Nat} {r : MemReq} (wf : s.memoryWf) : (Machine.xredGo s c num r).memoryWf := by
  unfold Machine.xredGo
  split
  · exact wf
  · extract_lets
    split
    · exact wf.next1
    · rename_i eq
      exact (wf.flushSttk.xredSend eq).finishCtx.xredCode

theorem sttkWait {s : State} {c num : Nat} (wf : s.memoryWf) : (Machine.sttkWait s c num).memoryWf :=
  wf.next1

theorem sttkDispatch {s : State} {c num world swz : Nat} {who : ReplyTo} {tgt : Target} {data : List Byte}
    {rel : Bool} {sig : Sig} {t : State} (wf : s.memoryWf) :
    Machine.sttkDispatch s c num world swz who tgt data rel sig = some t → t.memoryWf := by
  unfold Machine.sttkDispatch
  dsimp only
  split
  · split
    · rintro ⟨⟩
      exact wf.laterAfter
    · split
      · rename_i eq
        rintro ⟨⟩
        exact .ite (wf.drawTag eq) (wf.drawTag eq).laterAfter
      · nofun
  · split
    · rename_i eq
      rintro ⟨⟩
      exact .getD (fun _ => (wf.drawTag eq).peerStoreSent.sendPacket) (wf.drawTag eq).peerStoreSent
    · nofun
  · split
    · split
      · rintro ⟨⟩
        exact wf.sendActive
      · split
        · rename_i eq
          rintro ⟨⟩
          exact .ite (wf.drawTag eq) (wf.drawTag eq).sendActive
        · nofun
    · split
      · rename_i eq
        rintro ⟨⟩
        exact .getD (fun _ => (wf.drawTag eq).sendPacket) (wf.drawTag eq)
      · nofun
  · nofun

theorem setSpace {s : State} {die world gen : Nat} {t : TokSpace} (wf : s.memoryWf) :
    (Machine.setSpace s die world gen t).memoryWf :=
  wf.modDie

theorem sttkSend_go {s : State} {c num : Nat} {sl : Slot} {r : MemReq} {tgt : Target} {die gen : Nat}
    {sp : TokSpace} {busy : Nat} (wf : s.memoryWf) :
    (Machine.sttkSend.go s c num sl r tgt die gen sp busy).memoryWf := by
  unfold Machine.sttkSend.go
  split
  · exact wf.sttkWait
  · extract_lets
    split
    · exact wf.sttkWait
    · rename_i eq
      exact (wf.sttkDispatch eq).modDie.setSpace.finishCtx

theorem sttkSend {s : State} {c num : Nat} {sl : Slot} {r : MemReq} {tgt : Target} (wf : s.memoryWf) :
    (Machine.sttkSend s c num sl r tgt).memoryWf := by
  unfold Machine.sttkSend
  extract_lets
  split
  · exact .ite wf.sttkSend_go wf.faultCtx
  · exact wf.sttkSend_go

theorem depSend {s : State} {c num : Nat} {d : DepStore} {tgt : Target} {t : State} (wf : s.memoryWf) :
    Machine.depSend s c num d tgt = some t → t.memoryWf := by
  unfold Machine.depSend
  dsimp only
  split
  · split
    · rintro ⟨⟩
      exact wf.laterAfter
    · split
      · nofun
      · rename_i eq
        split
        · rintro ⟨⟩
          exact (wf.drawTag eq)
        · rintro ⟨⟩
          exact (wf.drawTag eq).laterAfter
  · split
    · nofun
    · rename_i eq
      rintro ⟨⟩
      exact modDie (.getD (fun _ => (wf.drawTag eq).peerStoreSent.sendPacket) (wf.drawTag eq))
  · split
    · split
      · rintro ⟨⟩
        exact wf.laterAfter
      · split
        · nofun
        · rename_i eq
          split
          · rintro ⟨⟩
            exact (wf.drawTag eq)
          · rintro ⟨⟩
            exact (wf.drawTag eq).laterAfter
    · split
      · nofun
      · rename_i eq
        rintro ⟨⟩
        exact modDie (.getD (fun _ => (wf.drawTag eq).sendPacket) (wf.drawTag eq))
  · nofun

theorem stdepSend_go {s : State} {c num : Nat} {r : MemReq} {tgt : Target} {d : DepStore} (wf : s.memoryWf) :
    (Machine.stdepSend.go s c num r tgt d).memoryWf := by
  unfold Machine.stdepSend.go
  split
  · exact wf.sttkWait
  · rename_i eq
    exact (wf.depSend eq).finishCtx

theorem stdepSend {s : State} {c num : Nat} {sl : Slot} {r : MemReq} {tgt : Target} (wf : s.memoryWf) :
    (Machine.stdepSend s c num sl r tgt).memoryWf := by
  unfold Machine.stdepSend
  extract_lets
  split
  · exact wf.faultCtx
  · split
    · exact .ite wf.stdepSend_go wf.faultCtx
    · exact wf.stdepSend_go

theorem tokenStoreGo {s : State} {c num : Nat} {r : MemReq} (wf : s.memoryWf) :
    (Machine.tokenStoreGo s c num r).memoryWf := by
  unfold Machine.tokenStoreGo
  split
  · exact .ite wf.sttkSend wf.stdepSend
  · exact wf

theorem memReply {s : State} {c num : Nat} {r : MemReq} {p : Reply} {sig : Sig} (wf : s.memoryWf) :
    (Machine.memReply s c num r p sig).memoryWf := by
  unfold Machine.memReply
  extract_lets go
  have hgo : go.memoryWf := wf.flushSttk.accessReply
  split
  · exact wf.fenceReply
  · exact wf.drainReply
  · exact .ite hgo wf.drainReply
  · exact .ite wf.qpushDone wf
  · exact .ite wf.xredGo hgo
  · exact .ite hgo wf.tokenStoreGo
  · exact hgo
  · exact hgo
  · exact hgo
  · exact hgo
  · exact hgo
  · exact hgo
  · exact hgo
  · exact hgo
  · exact hgo
  · exact hgo
  · exact hgo
  · exact hgo
  · exact hgo
  · exact hgo

theorem ctxReply {s : State} {c num : Nat} {p : Reply} {sig : Sig} (wf : s.memoryWf) :
    (Machine.ctxReply s c num p sig).memoryWf := by
  unfold Machine.ctxReply
  split
  · exact wf.dropCompletion
  · split
    · exact wf.memReply
    · exact wf

theorem homeStore {s : State} {die : Nat} {self : Option Nat} {pa : Nat} {add : Bool} {bs : List Byte} {t : State}
    (wf : s.memoryWf) : Machine.homeStore s die self pa add bs = .ok t → t.memoryWf := by
  unfold Machine.homeStore
  split
  · split
    · nofun
    · rename_i eq
      dsimp only
      unfold Except.map
      split
      · nofun
      · rename_i eq1
        rintro ⟨⟩
        exact ((wf.homeRead eq).homeWrite eq1).copiesTake
  · unfold Except.map
    split
    · nofun
    · rename_i eq
      rintro ⟨⟩
      exact (wf.homeWrite eq).copiesTake

theorem directWrite {s t : State} {u : UnitUser} {self : Option Nat} {tgt : Target} {add : Bool} {bs : List Byte}
    (wf : s.memoryWf) : Machine.directWrite s u self tgt add bs = some (.ok t) → t.memoryWf := by
  cases tgt with
  | home pa =>
    unfold Machine.directWrite
    dsimp only
    split
    · nofun
    · split
      · rename_i eq
        rintro ⟨⟩
        exact wf.homeStore eq
      · nofun
  | _ => nofun

theorem gWrites {s t : State} {u : UnitUser} {self : Option Nat} {c : GCache} {i : Nat} {ws : List GWrite}
    {x : GCache × Sig × Option (Nat × Except Nat GAsk)} (h : s.memoryWf) :
    Machine.gWrites s u self c i ws = (t, x) → t.memoryWf := by
  suffices wf : (Machine.gWrites s u self c i ws).1.memoryWf from of_fst' wf
  induction ws generalizing s c i with
  | nil => exact h
  | cons w ws ih =>
    unfold Machine.gWrites
    split
    · exact ih h
    split
    · exact h
    · split
      · rename_i eq
        exact ih (touchPage (h.directWrite eq))
      · exact h
      · exact h

theorem modReq {s : State} {cl id : Nat} {f : CopyReq → CopyReq} (wf : s.memoryWf) :
    (Machine.modReq s cl id f).memoryWf :=
  wf.modCluster fun _ => by rfl

theorem goOn {s : State} {cl id : Nat} (wf : s.memoryWf) : (Machine.goOn s cl id).memoryWf :=
  wf.at_

theorem modG {s : State} {cl id : Nat} {f : GraphSt → GraphSt} (wf : s.memoryWf) :
    (Machine.modG s cl id f).memoryWf :=
  wf.modReq

theorem sendToken {s : State} {core slot num reg : Nat} {status : Word} {who : ReplyTo} {world : Nat} {sig : Sig}
    (wf : s.memoryWf) : (Machine.sendToken s core slot num reg status who world sig).memoryWf :=
  wf.later

theorem publishCore {s : State} {c world : Nat} {sig : Sig} (wf : s.memoryWf) :
    (Machine.publishCore s c world sig).memoryWf :=
  wf.modCore fun _ => by rfl

theorem releaseReq {s : State} {cl : Nat} {r : CopyReq} {status : Word} (wf : s.memoryWf) :
    (Machine.releaseReq s cl r status).memoryWf := by
  unfold Machine.releaseReq
  extract_lets s1 s2
  have hs2 : s2.memoryWf := (wf.modCluster fun _ => by rfl).sendToken
  exact next1 (.ite hs2.publishCore hs2)

theorem unitFind {s : State} {u : UnitUser} {va n : Nat} {write : Bool} {t : State} {x : Except Nat Target}
    (wf : s.memoryWf) : Machine.unitFind s u va n write = (t, x) → t.memoryWf := by
  unfold Machine.unitFind
  split
  · rintro ⟨⟩
    exact .ite wf.queueMiss wf
  · rintro ⟨⟩
    exact .ite wf wf.touchPage

theorem unitTag {s t : State} {u : UnitUser} {a x : UnitAcc} {module : Nat} {k : Nat → Nat → State → State} (h : s.memoryWf)
    (hk : ∀ i g v, v.memoryWf → (k i g v).memoryWf) : Machine.unitTag s u a module k = (t, x) → t.memoryWf := by
  unfold Machine.unitTag
  extract_lets die
  split
  · rename_i eq
    rintro ⟨⟩
    exact hk _ _ _ (h.drawTag eq)
  · rintro ⟨⟩
    exact h

theorem unitIssue {s : State} {u : UnitUser} {a : UnitAcc} {t : State} {x : UnitAcc} (wf : s.memoryWf) :
    Machine.unitIssue s u a = .ok (t, x) → t.memoryWf := by
  unfold Machine.unitIssue
  dsimp only
  split
  · rintro ⟨⟩
    exact wf.sendActive
  · split
    · rintro ⟨⟩
      exact wf.later
    · intro e
      exact wf.unitTag (fun _ _ _ hv => .ite hv hv.later) (Except.ok.inj e)
  · split
    · nofun
    · split
      · split
        · rename_i eq
          rintro ⟨⟩
          exact (wf.serveAway eq).later
        · rename_i eq
          rintro ⟨⟩
          exact wf.serveAway eq
      · intro e
        refine wf.unitTag (fun _ _ v hv => ?_) (Except.ok.inj e)
        exact .getD (fun _ => sendPacket (.ite hv.peerStoreSent hv)) (.ite hv.peerStoreSent hv)
  · split
    · split
      · rintro ⟨⟩
        exact wf.sendActive
      · intro e
        exact wf.unitTag (fun _ _ _ hv => .ite hv hv.sendActive) (Except.ok.inj e)
    · split
      · intro e
        exact wf.unitTag (fun _ _ _ hv => .getD (fun _ => hv.sendPacket) hv) (Except.ok.inj e)
      · nofun

theorem gIssue {s : State} {u : UnitUser} {va : Nat} {write add : Bool} {data : List Byte} {t : State}
    {x : Option (Except Nat UnitAcc)} (wf : s.memoryWf) :
    Machine.gIssue s u va write add data = (t, x) → t.memoryWf := by
  unfold Machine.gIssue
  split
  · rename_i eq
    rintro ⟨⟩
    exact (wf.unitFind eq)
  · rename_i eq
    split
    · rintro ⟨⟩
      exact (wf.unitFind eq)
    · rename_i eq1
      rintro ⟨⟩
      exact ((wf.unitFind eq).unitIssue eq1)

theorem gFinish {s : State} {cl : Nat} {r : CopyReq} (wf : s.memoryWf) : (Machine.gFinish s cl r).memoryWf := by
  unfold Machine.gFinish
  extract_lets
  split
  · rename_i eq
    extract_lets s2
    have hs2 : s2.memoryWf := (wf.gWrites eq).modReq
    split
    · exact hs2.releaseReq
    · exact hs2.modG.goOn
    · split
      · rename_i eq1
        exact (hs2.gIssue eq1)
      · rename_i eq1
        exact (hs2.gIssue eq1).modG.goOn
      · rename_i eq1
        exact (hs2.gIssue eq1).modReq

theorem gFinishFault {s : State} {cl : Nat} {r : CopyReq} (wf : s.memoryWf) :
    (Machine.gFinishFault s cl r).memoryWf := by
  unfold Machine.gFinishFault
  split
  · exact wf.gFinish
  · exact wf.gFinish

theorem gAnswer {s : State} {cl : Nat} {r : CopyReq} {key : Nat} {obj : Bool} {bs : List Byte} (wf : s.memoryWf) :
    (Machine.gAnswer s cl r key obj bs).memoryWf :=
  wf.modReq.goOn

theorem gEnd {s : State} {cl : Nat} {r : CopyReq} {code count : Nat} {fin : Bool} (wf : s.memoryWf) :
    (Machine.gEnd s cl r code count fin).memoryWf :=
  wf.modReq.next1

theorem gStop {s : State} {cl : Nat} {r : CopyReq} {code : Nat} (wf : s.memoryWf) :
    (Machine.gStop s cl r code).memoryWf := by
  unfold Machine.gStop
  split
  · exact wf.gEnd
  · exact wf

theorem endReq {s : State} {cl : Nat} {r : CopyReq} {status : Word} (wf : s.memoryWf) :
    (Machine.endReq s cl r status).memoryWf :=
  wf.modReq.next1

theorem gFault {s : State} {cl : Nat} {r : CopyReq} {code : Nat} (wf : s.memoryWf) :
    (Machine.gFault s cl r code).memoryWf := by
  unfold Machine.gFault
  split
  · split
    · exact wf.gFinishFault
    · exact wf.gAnswer
  · exact .ite wf.gStop wf.endReq

theorem addWatches {s : State} {cl id : Nat} {keys : List Nat} (wf : s.memoryWf) :
    (Machine.addWatches s cl id keys).memoryWf :=
  wf.modCluster fun _ => by rfl

theorem gSettle {s : State} {cl : Nat} {r : CopyReq} {c : GCache} (wf : s.memoryWf) :
    (Machine.gSettle s cl r c).memoryWf :=
  (modG (.foldl (fun _ _ ht => .ite ht.touchPage ht) wf)).addWatches

theorem gAsk {s : State} {cl : Nat} {r : CopyReq} {key va : Nat} {obj write add : Bool} {data : List Byte}
    (wf : s.memoryWf) : (Machine.gAsk s cl r key va obj write add data).memoryWf := by
  unfold Machine.gAsk
  split
  · rename_i eq
    exact (wf.gIssue eq)
  · rename_i eq
    exact .ite (wf.gIssue eq).gStop (wf.gIssue eq).endReq
  · rename_i eq
    exact (wf.gIssue eq).modReq

theorem gLater {s : State} {cl id : Nat} (wf : s.memoryWf) : (Machine.gLater s cl id).memoryWf :=
  wf.later

theorem gStart {s : State} {cl : Nat} {r : CopyReq} (wf : s.memoryWf) : (Machine.gStart s cl r).memoryWf := by
  unfold Machine.gStart
  extract_lets
  split
  · extract_lets s1
    have hs1 : s1.memoryWf := wf.gSettle
    split
    · exact hs1.gAsk
    · exact hs1.endReq
    · exact hs1
    · exact hs1
  · extract_lets d r1 s1
    have hs1 : s1.memoryWf := wf.modReq
    exact .ite wf.endReq (.ite wf.endReq (.ite hs1.gEnd hs1.gLater))

theorem gsendPacket {s : State} {cl : Nat} {r : CopyReq} {key sub : Nat} {flit body : List Nat} (wf : s.memoryWf) :
    (Machine.gsendPacket s cl r key sub flit body).memoryWf :=
  .ite (wf.unitTag (fun _ _ _ ht => .getD (fun _ => ht.sendPacket) ht) rfl).modReq wf.gStop

theorem gUnfinished {s : State} {cl : Nat} {r : CopyReq} {why : GWhy} (wf : s.memoryWf) :
    (Machine.gUnfinished s cl r why).memoryWf := by
  unfold Machine.gUnfinished
  split
  · exact wf.gAsk
  · exact wf.gsendPacket
  · exact wf.gStop
  · exact wf.gEnd

theorem gBoundary {s : State} {cl : Nat} {r : CopyReq} (wf : s.memoryWf) : (Machine.gBoundary s cl r).memoryWf :=
  .ite wf.next1 wf.gLater

theorem gCommitted {s : State} {cl : Nat} {r : CopyReq} {st : GStep} (wf : s.memoryWf) :
    (Machine.gCommitted s cl r st).memoryWf := by
  unfold Machine.gCommitted
  extract_lets src g s1
  have hs1 : s1.memoryWf := wf.modReq
  exact .ite (.ite hs1.gLater hs1.gBoundary) (.ite hs1.modG.gBoundary (.ite hs1.modG.gBoundary hs1.gEnd))

theorem graphStep {s : State} {cl : Nat} {r : CopyReq} (wf : s.memoryWf) : (Machine.graphStep s cl r).memoryWf := by
  unfold Machine.graphStep
  split
  · exact wf.gStart
  · extract_lets
    split
    · extract_lets s1
      have hs1 : s1.memoryWf := wf.gSettle
      exact hs1.gUnfinished
    · extract_lets s1
      have hs1 : s1.memoryWf := wf.gSettle
      split
      · exact hs1.gStop
      · split
        · rename_i eq
          extract_lets s3
          have hs3 : s3.memoryWf := (hs1.gWrites eq).modReq
          split
          · exact hs3.gCommitted
          · exact hs3.gStop
          · exact hs3.gAsk

theorem unitPerform {s : State} {u : UnitUser} {self : Option Nat} {a : UnitAcc} {t : State}
    {x : Option (List Byte)} (wf : s.memoryWf) : Machine.unitPerform s u self a = .ok (t, x) → t.memoryWf := by
  unfold Machine.unitPerform
  dsimp only
  split
  · split
    · split
      · rename_i eq
        rintro ⟨⟩
        exact (wf.homeStore eq)
      · nofun
    · split
      · split
        · rename_i eq
          rintro ⟨⟩
          exact wf.serveCopy eq
        · nofun
      · split
        · rename_i eq
          rintro ⟨⟩
          exact (wf.homeRead eq)
        · nofun
  · rintro ⟨⟩
    exact wf

theorem unitPerform_error {s : State} {u : UnitUser} {self : Option Nat} {a : UnitAcc} {x : Nat} {t : State}
    (wf : s.memoryWf) : Machine.unitPerform s u self a = .error (x, t) → t.memoryWf := by
  unfold Machine.unitPerform
  dsimp only
  split
  · split
    · split
      · nofun
      · rintro ⟨⟩
        exact wf.integrityRecord
    · split
      · split
        · nofun
        · rintro ⟨⟩
          exact wf.integrityRecord
      · split
        · nofun
        · rintro ⟨⟩
          exact wf.integrityRecord
  · nofun

theorem watchRead {s : State} {cl : Nat} {r : CopyReq} {a : UnitAcc} (wf : s.memoryWf) :
    (Machine.watchRead s cl r a).memoryWf := by
  unfold Machine.watchRead
  split
  · exact .ite wf.addWatches wf
  · exact wf

theorem graphReply {s : State} {cl : Nat} {r : CopyReq} {p : Reply} (wf : s.memoryWf) :
    (Machine.graphReply s cl r p).memoryWf := by
  unfold Machine.graphReply
  split
  · split
    · split
      · exact wf.gFault
      · exact .ite wf.gFinish wf.graphStep
      · exact .ite wf.gFinish wf.graphStep
      · exact .ite wf.gFinish wf.graphStep
      · exact .ite wf.gFinish wf.graphStep
      · exact .ite wf.gFinish wf.graphStep
    · exact wf
  · extract_lets
    split
    · split
      · rename_i eq
        exact (wf.unitPerform eq).watchRead.modReq.gAnswer
      · rename_i eq
        exact (wf.unitPerform_error eq).gFault
    · exact wf.modReq.gAnswer
    · exact .ite wf.modReq.gAnswer wf.modReq.goOn
    · exact wf.gFault
    · exact wf.gFault
    · exact .ite wf.modReq.gAnswer wf.gFault

theorem modEngine {s : State} {cl : Nat} {f : Engine → Engine} (wf : s.memoryWf) :
    (Machine.modEngine s cl f).memoryWf :=
  wf.modCluster fun _ => by rfl

theorem pauseAt {s : State} {cl : Nat} (wf : s.memoryWf) : (Machine.pauseAt s cl).memoryWf := by
  unfold Machine.pauseAt
  extract_lets
  split
  · exact .ite wf.at_ wf
  · exact wf

theorem engineWake {s : State} {cl : Nat} (wf : s.memoryWf) : (Machine.engineWake s cl).memoryWf := by
  unfold Machine.engineWake
  extract_lets
  split
  · exact .ite wf.modEngine.at_ wf
  · exact wf
  · exact .ite wf.next1 wf.pauseAt
  · exact .ite wf.next1 wf
  · exact .ite wf.next1 wf

theorem modRing {s : State} {cl q : Nat} {f : Ring → Ring} (wf : s.memoryWf) : (Machine.modRing s cl q f).memoryWf :=
  wf.modCluster fun _ => by rfl

theorem askRing {s : State} {cl q rank : Nat} {x : RingReq} (wf : s.memoryWf) :
    (Machine.askRing s cl q rank x).memoryWf :=
  wf.modRing.next1

theorem modJob {s : State} {cl id : Nat} {f : Job → Job} (wf : s.memoryWf) : (Machine.modJob s cl id f).memoryWf :=
  wf.modEngine

theorem askJobs {s : State} {cl : Nat} (wf : s.memoryWf) : (Machine.askJobs s cl).memoryWf :=
  .foldl (fun _ _ ht => ht.modJob.askRing) wf

theorem ringMoves {s : State} {cl q : Nat} (wf : s.memoryWf) : (Machine.ringMoves s cl q).memoryWf := by
  unfold Machine.ringMoves
  extract_lets r s1
  have hs1 : s1.memoryWf := .ite wf wf.next1
  exact .ite hs1 hs1.next1

theorem publishTile {s : State} {cl q n : Nat} (wf : s.memoryWf) : (Machine.publishTile s cl q n).memoryWf :=
  wf.modRing.ringMoves.askJobs.engineWake

theorem copyFails {s : State} {cl : Nat} {r : CopyReq} {code : Nat} (wf : s.memoryWf) :
    (Machine.copyFails s cl r code).memoryWf :=
  endReq (by
    split
    · exact wf.writeTile.publishTile
    · exact wf)

theorem accessFails {s : State} {cl : Nat} {r : CopyReq} {write : Bool} {code : Nat} (wf : s.memoryWf) :
    (Machine.accessFails s cl r write code).memoryWf :=
  .ite wf.modReq.goOn wf.copyFails

theorem copyAccess {s : State} {cl : Nat} {r : CopyReq} {va n : Nat} {write : Bool} {data : List Byte}
    (wf : s.memoryWf) : (Machine.copyAccess s cl r va n write data).memoryWf := by
  unfold Machine.copyAccess
  split
  · rename_i eq
    exact .ite (wf.unitFind eq) (wf.unitFind eq).accessFails
  · rename_i eq
    extract_lets
    split
    · exact (wf.unitFind eq).accessFails
    · rename_i eq1
      exact ((wf.unitFind eq).unitIssue eq1).modReq

theorem boundary {s : State} {cl : Nat} {r : CopyReq} (wf : s.memoryWf) : (Machine.boundary s cl r).memoryWf :=
  .ite wf.next1 wf.goOn

theorem copyStep {s : State} {cl : Nat} {r : CopyReq} (wf : s.memoryWf) : (Machine.copyStep s cl r).memoryWf := by
  unfold Machine.copyStep
  split
  · exact wf.copyAccess
  · exact wf.copyAccess
  · exact wf.copyAccess
  · exact wf.modReq.goOn
  · exact wf.askRing
  · exact wf.copyAccess
  · exact wf.writeTile.publishTile.modReq.boundary
  · exact wf.endReq
  · exact wf.endReq

theorem copyRead {s : State} {cl : Nat} {r : CopyReq} {bs : List Byte} (wf : s.memoryWf) :
    (Machine.copyRead s cl r bs).memoryWf := by
  unfold Machine.copyRead
  extract_lets s0 s1
  have hs0 : s0.memoryWf := wf.modReq
  have hs1 : s1.memoryWf := by
    unfold s1
    split
    · exact hs0.modReq
    · exact hs0.modReq
    · exact hs0.modReq
    · exact hs0
    · exact hs0
    · exact hs0
    · exact hs0
    · exact hs0
    · exact hs0
  exact hs1.goOn

theorem copyReply {s : State} {cl : Nat} {r : CopyReq} {p : Reply} (wf : s.memoryWf) :
    (Machine.copyReply s cl r p).memoryWf := by
  unfold Machine.copyReply
  split
  · split
    · split
      · exact wf.accessFails
      · exact wf.copyFails
      · exact wf.copyStep
      · exact wf.copyStep
      · exact wf.copyStep
      · exact wf.copyStep
    · exact wf
  · extract_lets
    split
    · split
      · rename_i eq
        exact .ite (.ite (wf.unitPerform eq).modReq.boundary (wf.unitPerform eq).modReq.goOn) (wf.unitPerform eq).copyRead
      · rename_i eq
        exact (wf.unitPerform eq)
      · rename_i eq
        exact (wf.unitPerform_error eq).accessFails
    · exact .ite (.ite wf.modReq.boundary wf.modReq.goOn) wf.copyRead
    · exact .ite (.ite (.ite wf.modReq.boundary wf.modReq.goOn) wf.copyRead) wf.modReq.goOn
    · exact wf.accessFails
    · exact wf.accessFails
    · exact .ite (.ite (.ite wf.modReq.boundary wf.modReq.goOn) wf.copyRead) wf.accessFails

theorem jobArrive {s : State} {j : Job} (wf : s.memoryWf) : (Machine.jobArrive s j).memoryWf := by
  unfold Machine.jobArrive
  extract_lets cl s1
  have hs1 : s1.memoryWf := wf.modCtx
  exact .ite hs1.sendToken hs1.modEngine.askJobs.engineWake

theorem jobAdmitted {s : State} {j : Job} {wait : Bool} (wf : s.memoryWf) : (Machine.jobAdmitted s j wait).memoryWf := by
  unfold Machine.jobAdmitted
  extract_lets s1
  have hs1 : s1.memoryWf := wf.jobArrive
  exact .ite hs1.modCtx hs1.finishCtx

theorem admitJobs {s : State} {cl : Nat} (wf : s.memoryWf) : (Machine.admitJobs s cl).memoryWf :=
  .foldl (fun _ _ ht => by
    split
    · exact .ite ht.jobAdmitted ht
    · exact ht) wf

theorem finishJob {s : State} {cl : Nat} {j : Job} {status : Nat} (wf : s.memoryWf) :
    (Machine.finishJob s cl j status).memoryWf := by
  unfold Machine.finishJob
  extract_lets pop s1 s2 s3
  have hs1 : s1.memoryWf := .ite wf.modRing.ringMoves.modRing.ringMoves wf
  have hs3 : s3.memoryWf := modJob (.ite hs1.modRing.ringMoves hs1)
  exact (sendToken (.ite hs3.publishCore hs3)).next1

theorem jobAdvance {s : State} {cl : Nat} {j : Job} (wf : s.memoryWf) : (Machine.jobAdvance s cl j).memoryWf := by
  unfold Machine.jobAdvance
  extract_lets
  split
  · exact wf.finishJob
  · split
    · rename_i eq
      exact .ite (wf.unitFind eq) (wf.unitFind eq).finishJob
    · rename_i eq
      extract_lets
      split
      · exact (wf.unitFind eq).finishJob
      · split
        · exact (wf.unitFind eq).finishJob
        · rename_i eq1
          exact ((wf.unitFind eq).unitIssue eq1).modJob

theorem jobReply {s : State} {cl id : Nat} {r : Reply} (wf : s.memoryWf) : (Machine.jobReply s cl id r).memoryWf := by
  unfold Machine.jobReply
  split
  · exact wf.admitJobs.engineWake
  · split
    · exact wf.modEngine.admitJobs
    · split
      · split
        · exact .ite wf.finishJob wf
        · exact .ite wf wf.finishJob
        · exact .ite wf.jobAdvance wf
        · exact wf
        · exact wf
        · exact wf
      · extract_lets
        split
        · split
          · rename_i eq
            exact (wf.unitPerform eq).modJob.jobAdvance
          · rename_i eq
            exact (wf.unitPerform_error eq).finishJob
        · exact .ite wf.modJob.jobAdvance wf.modJob.jobAdvance
        · exact .ite wf.modJob.jobAdvance wf.modJob.jobAdvance
        · exact wf.finishJob
        · exact wf.finishJob
        · exact .ite wf.modJob.jobAdvance wf.finishJob

theorem sttkReply {s : State} {die world gen seq : Nat} {r : Reply} (wf : s.memoryWf) :
    (Machine.sttkReply s die world gen seq r).memoryWf := by
  unfold Machine.sttkReply
  split
  · exact wf
  · extract_lets
    split
    · split
      · exact wf.next1
      · split
        · rename_i eq
          exact (wf.sttkPerform eq).next1
        · rename_i eq
          exact (wf.sttkPerform_error eq).next1
    · exact wf.modCtx.next1
    · exact wf.modCtx.next1
    · exact .ite wf.next1 wf.next1
    · exact wf.next1
    · exact wf.next1

theorem depReply {s : State} {core num : Nat} {token : Word} {r : Reply} (wf : s.memoryWf) :
    (Machine.depReply s core num token r).memoryWf := by
  unfold Machine.depReply
  extract_lets code s1
  have hs1 : s1.memoryWf := wf.completeCtx
  exact .ite hs1.modCtx hs1

theorem xredReply {s : State} {core num reg record : Nat} {acq : Bool} {r : Reply} {sig : Sig} (wf : s.memoryWf) :
    (Machine.xredReply s core num reg record acq r sig).memoryWf := by
  unfold Machine.xredReply
  extract_lets
  split
  · exact wf.at_
  · exact wf.completeCtx
  · exact wf.completeCtx
  · exact wf.completeCtx
  · exact wf
  · exact wf

theorem endRedWrite {s : State} {core : Nat} {w : RedWrite} {status : Word} {sig : Sig} (wf : s.memoryWf) :
    (Machine.endRedWrite s core w status sig).memoryWf :=
  (wf.modCore fun _ => by rfl).next1

theorem modRedWrite {s : State} {core id : Nat} {f : RedWrite → RedWrite} (wf : s.memoryWf) :
    (Machine.modRedWrite s core id f).memoryWf :=
  wf.modCore fun _ => by rfl

theorem redWriteNext {s : State} {core : Nat} {w : RedWrite} (wf : s.memoryWf) :
    (Machine.redWriteNext s core w).memoryWf := by
  unfold Machine.redWriteNext
  split
  · exact wf.endRedWrite
  · extract_lets
    split
    · rename_i eq
      exact .ite (wf.unitFind eq) (wf.unitFind eq).endRedWrite
    · rename_i eq
      extract_lets
      split
      · exact (wf.unitFind eq).endRedWrite
      · rename_i eq1
        exact ((wf.unitFind eq).unitIssue eq1).modRedWrite

theorem redWriteReply {s : State} {core id : Nat} {r : Reply} (wf : s.memoryWf) :
    (Machine.redWriteReply s core id r).memoryWf := by
  unfold Machine.redWriteReply
  split
  · exact wf
  · split
    · split
      · exact wf.endRedWrite
      · exact wf.redWriteNext
      · exact wf.redWriteNext
      · exact wf.redWriteNext
      · exact wf.redWriteNext
      · exact wf.redWriteNext
    · extract_lets
      split
      · split
        · rename_i eq
          exact (wf.unitPerform eq).modRedWrite.redWriteNext
        · rename_i eq
          exact (wf.unitPerform_error eq).endRedWrite
      · exact wf.modRedWrite.redWriteNext
      · exact wf.modRedWrite.redWriteNext
      · exact wf.endRedWrite
      · exact wf.endRedWrite
      · exact .ite wf.modRedWrite.redWriteNext wf.endRedWrite

theorem fillCopyHart {line : Nat} {data : List Byte} {s : State} {cl id : Nat} (wf : s.memoryWf) :
    (Machine.fillCopyHart line data s cl id).memoryWf := by
  unfold Machine.fillCopyHart
  split
  · extract_lets
    split
    · exact .ite wf.next1 wf
    · exact .ite wf.next1 wf
    · exact wf
  · exact wf

theorem fillWaiter {line : Nat} {data : List Byte} {s : State} {w : ReplyTo} (wf : s.memoryWf) :
    (Machine.fillWaiter line data s w).memoryWf := by
  unfold Machine.fillWaiter
  split
  · split
    · split
      · exact .ite wf.advanceAccess wf
      · exact .ite wf.advanceAccess wf
      · exact wf
    · exact wf
  · exact wf.fillCopyHart
  · exact wf

theorem fillArrived {s : State} {die : Nat} {f : RdcFill} {data : List Byte} (wf : s.memoryWf) :
    (Machine.fillArrived s die f data).memoryWf := by
  unfold Machine.fillArrived
  extract_lets s1
  have hs1 : s1.memoryWf := wf.modDie
  exact .foldl (fun _ _ ht => ht.fillWaiter) (.ite hs1.modDie.tick.at_ hs1.tick)

theorem fillFailed {s : State} {die : Nat} {f : RdcFill} {code : Nat} (wf : s.memoryWf) :
    (Machine.fillFailed s die f code).memoryWf :=
  .foldl (fun _ _ ht => by
    split
    · split
      · exact .ite ht.accessFault ht
      · exact ht
    · exact ht.next1
    · exact ht) wf.modDie

theorem fillReply {s : State} {die id : Nat} {p : Reply} (wf : s.memoryWf) :
    (Machine.fillReply s die id p).memoryWf := by
  unfold Machine.fillReply
  split
  · exact wf
  · split
    · exact wf.fillArrived
    · exact wf.sendFill
    · exact wf.fillFailed
    · exact wf.fillFailed
    · exact wf
    · exact wf

theorem recordFault {s : State} {world queue addr code : Nat} (wf : s.memoryWf) :
    (Machine.recordFault s world queue addr code).memoryWf :=
  wf.modQueue.launchReport

theorem queueReply {s : State} {world queue : Nat} {p : Reply} (wf : s.memoryWf) :
    (Machine.queueReply s world queue p).memoryWf := by
  unfold Machine.queueReply
  split
  · exact wf.recordFault
  · exact wf.next1
  · exact wf.next1
  · exact wf.next1
  · exact wf.next1
  · exact wf.next1

theorem counterReply {s : State} {cluster world m pa n : Nat} {p : Reply} (wf : s.memoryWf) :
    (Machine.counterReply s cluster world m pa n p).memoryWf := by
  unfold Machine.counterReply
  split
  · exact wf.sendAdd
  · exact wf.dropAdd
  · exact wf.dropAdd
  · exact wf
  · exact wf
  · exact wf

theorem destAnswer {s : State} {cl : Nat} {fin : Bool} {p : Packet} {a code : Nat} (wf : s.memoryWf) :
    (Machine.destAnswer s cl fin p a code).memoryWf :=
  .ite (.getD (fun _ => wf.sendPacket) wf) (.getD (fun _ => wf.sendPacket) wf)

theorem destEnd {s : State} {cl : Nat} {d : GDest} {a code : Nat} (wf : s.memoryWf) :
    (Machine.destEnd s cl d a code).memoryWf :=
  (wf.modCluster fun _ => by rfl).destAnswer

theorem modDest {s : State} {cl id : Nat} {f : GDest → GDest} (wf : s.memoryWf) :
    (Machine.modDest s cl id f).memoryWf :=
  wf.modCluster fun _ => by rfl

theorem destAsk {s : State} {cl : Nat} {d : GDest} {u : UnitUser} {c : GCache} {key va : Nat} {write : Bool}
    {data : List Byte} (wf : s.memoryWf) : (Machine.destAsk s cl d u c key va write data).memoryWf := by
  unfold Machine.destAsk
  extract_lets
  split
  · rename_i eq
    exact (wf.modDest.gIssue eq)
  · rename_i eq
    exact (wf.modDest.gIssue eq).destEnd
  · rename_i eq
    exact (wf.modDest.gIssue eq).modDest

theorem destStep {s : State} {cl : Nat} {d : GDest} (wf : s.memoryWf) : (Machine.destStep s cl d).memoryWf := by
  unfold Machine.destStep
  extract_lets
  split
  · exact wf.destAsk
  · exact wf.destEnd
  · exact wf.destEnd
  · exact wf
  · split
    · rename_i eq
      exact (wf.gWrites eq).destEnd
    · rename_i eq
      exact (wf.gWrites eq).destEnd
    · rename_i eq
      exact (wf.gWrites eq).destAsk

theorem destReply {s : State} {cl id : Nat} {p : Reply} (wf : s.memoryWf) : (Machine.destReply s cl id p).memoryWf := by
  unfold Machine.destReply
  split
  · exact wf
  · split
    · split
      · exact wf.destEnd
      · exact wf.destStep
      · exact wf.destStep
      · exact wf.destStep
      · exact wf.destStep
      · exact wf.destStep
    · extract_lets
      split
      · split
        · rename_i eq
          exact (wf.unitPerform eq).modDest.destStep
        · rename_i eq
          exact (wf.unitPerform_error eq).destEnd
      · exact wf.modDest.destStep
      · exact .ite wf.modDest.destStep wf.modDest.destStep
      · exact wf.destEnd
      · exact wf.destEnd
      · exact .ite wf.modDest.destStep wf.destEnd

theorem replyTo {s : State} {rcv : ReplyTo} {p : Reply} {sig : Sig} (wf : s.memoryWf) :
    (Machine.replyTo s rcv p sig).memoryWf := by
  unfold Machine.replyTo
  split
  · exact wf.ctxReply
  · exact wf.completeCtx
  · split
    · exact .ite wf.graphReply wf.copyReply
    · exact wf
  · exact wf.jobReply
  · exact wf.sttkReply
  · exact wf.depReply
  · exact wf.xredReply
  · exact wf.redWriteReply
  · split
    · exact .getD (fun _ => wf.sendPacket) wf
    · exact wf
  · exact wf.fillReply
  · exact wf.queueReply
  · exact wf.counterReply
  · exact wf.destReply
  · exact wf
  · exact wf
  · exact wf

theorem depSent {s : State} {die idx : Nat} {p : Reply} (wf : s.memoryWf) : (Machine.depSent s die idx p).memoryWf := by
  unfold Machine.depSent
  split
  · split
    · split
      · exact .ite wf.modCtx wf
      · exact wf
    · exact wf
  · exact wf

theorem tagReply {s : State} {die idx gen : Nat} {p : Reply} {sig : Sig} (wf : s.memoryWf) :
    (Machine.tagReply s die idx gen p sig).memoryWf := by
  unfold Machine.tagReply
  split
  · exact wf.lateReply
  · split
    · exact .ite (ctxReply (.ite wf wf.freeTag)) wf.freeTag.dropCompletion
    · exact wf.freeTag.dropCompletion
  · exact wf.depSent.freeTag.modDie.replyTo

theorem execRemoteReply {rcv : ReplyTo} {r : Reply} {sig : Sig} {s : State} (wf : s.memoryWf) :
    nextWf (Machine.execRemoteReply rcv r sig s) := by
  unfold Machine.execRemoteReply
  split
  · exact wf.tagReply.next
  · exact wf.replyTo.next

theorem execHoldReply {die idx gen : Nat} {s : State} (wf : s.memoryWf) :
    nextWf (Machine.execHoldReply die idx gen s) := by
  unfold Machine.execHoldReply
  extract_lets
  split
  · exact .ite wf.setTag.at_.next wf.lateReply.next
  · exact wf.lateReply.next

theorem execHoldReplyResend {die n : Nat} {s : State} (wf : s.memoryWf) :
    nextWf (Machine.execHoldReplyResend die n s) := by
  unfold Machine.execHoldReplyResend
  split
  · exact wf.next
  · exact .ite (at_ (.ite wf.later (.getD (fun _ => wf.sendPacket) wf))).next wf.modDie.next

theorem timedOut {s : State} {die idx gen : Nat} {who : ReplyTo} (wf : s.memoryWf) :
    (Machine.timedOut s die idx gen who).memoryWf := by
  unfold Machine.timedOut
  split
  · split
    · exact .ite wf.setReq.accessReply wf.dropCompletion
    · exact wf.dropCompletion
  · exact (wf.modCore fun _ => by rfl).completeCtx
  · exact wf.next1
  · exact wf.modDie.replyTo

theorem execRemoteTimeout {die idx gen : Nat} {s : State} (wf : s.memoryWf) :
    nextWf (Machine.execRemoteTimeout die idx gen s) := by
  unfold Machine.execRemoteTimeout
  extract_lets
  split
  · exact .ite wf.setTag.at_.timedOut.next wf.next
  · exact wf.next

theorem execTagQuarantineEnd {die idx : Nat} {s : State} (wf : s.memoryWf) :
    nextWf (Machine.execTagQuarantineEnd die idx s) := by
  unfold Machine.execTagQuarantineEnd
  extract_lets
  split
  · exact .ite wf.setTag.freeTag.next wf.next
  · exact wf.next

theorem execRegisterMissMicroTrap {slot : Nat} {s : State} (wf : s.memoryWf) :
    nextWf (Machine.execRegisterMissMicroTrap slot s) := by
  unfold Machine.execRegisterMissMicroTrap
  extract_lets c num rs s1
  have hs1 : s1.memoryWf := (wf.modCore fun _ => by rfl).park
  exact .ite wf.next (.ite hs1.later.next hs1.at_.next)

theorem execRegisterFetchDone {slot : Nat} {s : State} (wf : s.memoryWf) :
    nextWf (Machine.execRegisterFetchDone slot s) := by
  unfold Machine.execRegisterFetchDone
  split
  · exact .ite wf.takeTrapAt.next wf.modSlot.toReady.next
  · exact wf.next

theorem icacheInsert {s : State} {c world line : Nat} {bs : List Word} (wf : s.memoryWf) :
    (Machine.icacheInsert s c world line bs).memoryWf :=
  wf.modCore fun _ => by rfl

theorem clusterInsert {s : State} {cl world line : Nat} {bs : List Word} (wf : s.memoryWf) :
    (Machine.clusterInsert s cl world line bs).memoryWf :=
  wf.modCluster fun _ => by rfl

theorem codeLine {s : State} {world va : Nat} {l : Leaf} {t : State} {x : List Word} (wf : s.memoryWf) :
    Machine.codeLine s world va l = .ok (t, x) → t.memoryWf := by
  unfold Machine.codeLine
  dsimp only
  split
  · nofun
  · split
    · split
      · nofun
      · split
        · rename_i eq
          rintro ⟨⟩
          exact (wf.homeRead eq)
        · nofun
    · nofun

theorem codeLine_error {s : State} {world va : Nat} {l : Leaf} {x x2 : Nat} {t : State} (wf : s.memoryWf) :
    Machine.codeLine s world va l = .error (x, x2, t) → t.memoryWf := by
  unfold Machine.codeLine
  dsimp only
  split
  · rintro ⟨⟩
    exact wf
  · split
    · split
      · rintro ⟨⟩
        exact wf
      · split
        · nofun
        · rintro ⟨⟩
          exact wf.integrityRecord
    · rintro ⟨⟩
      exact wf

theorem execIcacheFill {slot : Nat} {s : State} (wf : s.memoryWf) : nextWf (Machine.execIcacheFill slot s) := by
  unfold Machine.execIcacheFill
  extract_lets
  split
  · split
    · split
      · exact wf.clusterInsert.icacheInsert.modSlot.toReady.next
      · split
        · exact wf.takeTrapAt.next
        · split
          · rename_i eq
            exact (wf.lookup eq).queueMiss.next
          · rename_i eq
            split
            · rename_i eq1
              exact ((wf.lookup eq).codeLine eq1).clusterInsert.icacheInsert.modSlot.toReady.next
            · rename_i eq1
              exact ((wf.lookup eq).codeLine_error eq1).takeTrapAt.next
    · exact wf.next
  · exact wf.next

theorem execNoticeTaken {slot : Nat} {s : State} (wf : s.memoryWf) : nextWf (Machine.execNoticeTaken slot s) := by
  unfold Machine.execNoticeTaken
  extract_lets
  split
  · exact wf.next
  · split
    · exact wf.modSlot.takeTrapAt.next
    · exact wf.modSlot.takeTrapAt.next
    · exact wf.next

theorem beginSave {s : State} {k p : Nat} (wf : s.memoryWf) : (Machine.beginSave s k p).memoryWf := by
  unfold Machine.beginSave
  extract_lets c sl e s1 s2 spills src s3 s4
  have hs3 : s3.memoryWf := (wf.toState.publishCore.modCluster (fun _ => by split <;> rfl)).setSlot
  have hs4 : s4.memoryWf := .ite hs3.next1 hs3
  exact .ite hs4.next1 hs4.within

theorem execPreemption {core world : Nat} {s : State} (wf : s.memoryWf) :
    nextWf (Machine.execPreemption core world s) := by
  unfold Machine.execPreemption
  split
  · exact wf.next
  · extract_lets
    split
    · exact wf.next
    · split
      · exact wf.next
      · exact .ite wf.next1.next wf.beginSave.next

theorem watchdogRecord {s : State} {k : Nat} {st : SlotState} {pc : Word} (wf : s.memoryWf) :
    (Machine.watchdogRecord s k st pc).memoryWf :=
  wf.hatPost.stewardNote

theorem installSwapped {s : State} {k : Nat} {e : CtxEntry} (wf : s.memoryWf) :
    (Machine.installSwapped s k e).memoryWf :=
  .ite wf.startInstall wf.setSlot.later

theorem incoming {s : State} {k world p : Nat} (wf : s.memoryWf) : (Machine.incoming s k world p).memoryWf := by
  unfold Machine.incoming
  extract_lets
  split
  · exact wf.installSwapped
  · split
    · exact .getD (fun _ => (wf.modCore fun _ => by rfl).installTask) wf.setSlot
    · exact wf.setSlot

theorem execContextSave {slot : Nat} {s : State} (wf : s.memoryWf) : nextWf (Machine.execContextSave slot s) :=
  .ite wf.next (incoming (.ite wf.watchdogRecord wf)).next

theorem execContextInstall {slot : Nat} {s : State} (wf : s.memoryWf) : nextWf (Machine.execContextInstall slot s) :=
  .ite wf.next (((toReady (by
    split
    · exact wf.setSlot.modEntryAt
    · exact wf.setSlot)).syncStreams).next)

theorem execContextSpill {cluster : Nat} {s : State} (wf : s.memoryWf) :
    nextWf (Machine.execContextSpill cluster s) := by
  unfold Machine.execContextSpill
  split
  · exact wf.next
  · extract_lets
    split
    · exact wf.tick.modEntryAt.toState.watchdogRecord.next
    · split
      · exact wf.next
      · exact (wf.tick.modCluster fun _ => by rfl).modSlot.within.next

theorem execSpillReadback {core num : Nat} {s : State} (wf : s.memoryWf) : nextWf (Machine.execSpillReadback core num s) := by
  unfold Machine.execSpillReadback
  extract_lets cl s1 slot
  have hs1 : s1.memoryWf := by
    unfold s1
    split
    · exact wf
    · refine .ite (wf.modCluster fun _ => by rfl) ?_
      split
      · exact wf
      · exact wf.modCluster fun _ => by rfl
  clear_value slot
  cases slot with
  | none => exact hs1.next
  | some k => exact .ite hs1.at_.next hs1.next1.next

theorem execSliceExpiry {slot : Nat} {s : State} (wf : s.memoryWf) : nextWf (Machine.execSliceExpiry slot s) :=
  wf.at_.next

theorem execWatchdogExpiry {slot : Nat} {s : State} (wf : s.memoryWf) : nextWf (Machine.execWatchdogExpiry slot s) := by
  unfold Machine.execWatchdogExpiry
  extract_lets sl s1
  have hs1 : s1.memoryWf := wf.modSlot
  exact .ite (next (.ite hs1.tick.watchdogRecord hs1.watchdogRecord)) wf.next

theorem stopSlot {s : State} {k : Nat} (wf : s.memoryWf) : (Machine.stopSlot s k).memoryWf :=
  wf.toState.hatPost.stewardNote

theorem execBreakpointHit {slot : Nat} {s : State} (wf : s.memoryWf) : nextWf (Machine.execBreakpointHit slot s) :=
  .ite wf.stopSlot.next wf.next

theorem dropPoisoned {s : State} {p : Place} {die ep : Nat} {w : Word} (wf : s.memoryWf) :
    (Machine.dropPoisoned s p die ep w).memoryWf :=
  (wf.beside (by rfl)).hatPost.stewardNote

theorem popTask {s : State} {c world : Nat} {t : State} (wf : s.memoryWf) :
    Machine.popTask s c world = some t → t.memoryWf := by
  unfold Machine.popTask
  split
  · nofun
  · split
    · nofun
    · rintro ⟨⟩
      exact wf.installSwapped
    · dsimp only
      split
      · rintro ⟨⟩
        exact ((wf.correct (fun _ ht => ht.countCore)).modCore fun _ => by rfl).dropPoisoned
      · exact ((wf.correct (fun _ ht => ht.countCore)).modCore fun _ => by rfl).installTask

theorem execTaskPop {core world : Nat} {s : State} (wf : s.memoryWf) : nextWf (Machine.execTaskPop core world s) := by
  unfold Machine.execTaskPop
  split
  · exact wf.next
  · rename_i eq
    exact next (.ite (wf.popTask eq).at_ (wf.popTask eq))

theorem execDequeReadback {core world : Nat} {s : State} (wf : s.memoryWf) :
    nextWf (Machine.execDequeReadback core world s) := by
  unfold Machine.execDequeReadback
  extract_lets
  split
  · exact .ite (.ite wf.spillFailed.next (wf.modCore fun _ => by rfl).tick.becameReady.next) wf.next
  · exact wf.next

theorem modSteal {s : State} {c world : Nat} {f : Steal → Steal} (wf : s.memoryWf) :
    (Machine.modSteal s c world f).memoryWf :=
  wf.modCore fun _ => by rfl

theorem stealFrom' {s : State} {c world step tries fuel : Nat} (wf : s.memoryWf) :
    (Machine.stealFrom' s c world step tries fuel).memoryWf := by
  have failed : (Machine.stealFailed s c world).memoryWf := wf.modSteal.at_
  induction fuel generalizing step tries with
  | zero => exact failed
  | succ n ih =>
    unfold Machine.stealFrom'
    refine .ite failed (.ite ih ?_)
    extract_lets t msg s1
    have hs1 : s1.memoryWf := wf.modSteal.tick
    refine .ite hs1.sendActive ?_
    split
    · rename_i eq
      exact (hs1.drawTag eq).sendActive
    · exact hs1.modSteal.next1

theorem execStealRequest {core world : Nat} {s : State} (wf : s.memoryWf) :
    nextWf (Machine.execStealRequest core world s) :=
  .ite wf.next wf.stealFrom'.next

theorem execStealBackoffEnd {core world : Nat} {s : State} (wf : s.memoryWf) :
    nextWf (Machine.execStealBackoffEnd core world s) := by
  unfold Machine.execStealBackoffEnd
  split
  · exact next (.ite wf.modSteal wf)
  · exact wf.next

theorem execServiceQueueArrival {core : Nat} {m : ActiveMsg} {s : State} (wf : s.memoryWf) :
    nextWf (Machine.execServiceQueueArrival core m s) :=
  next (.ite (wf.modCore (fun _ => by split <;> rfl)).toState (wf.modCore (fun _ => by split <;> rfl)))

theorem claimBanks {s : State} {c : Nat} {mask : BitVec 8} (wf : s.memoryWf) :
    (Machine.claimBanks s c mask).memoryWf :=
  wf.modCore fun _ => by rfl

theorem popService {s : State} {c : Nat} (wf : s.memoryWf) : (Machine.popService s c).memoryWf :=
  .ite (wf.modCore fun _ => by rfl).toState (wf.modCore fun _ => by rfl)

theorem answer {s : State} {path : Nat} {who : ReplyTo} {r : Reply} {sig : Sig} (wf : s.memoryWf) :
    (Machine.answer s path who r sig).memoryWf := by
  unfold Machine.answer
  split
  · exact wf.later
  · exact wf
  · exact wf.later

theorem serve {s : State} {c : Nat} {kind : SvcOp → Bool} {k : State → ActiveMsg → State} (h : s.memoryWf)
    (hk : ∀ t m, t.memoryWf → (k t m).memoryWf) : nextWf (Machine.serve s c kind k) := by
  unfold Machine.serve
  split
  · exact h.next
  · refine .ite ?_ h.next
    extract_lets ps s1
    have hs1 : s1.memoryWf := h.popService.claimBanks
    split
    · exact hs1.answer.next
    · exact (hk _ _ hs1.lsCorrect).next

theorem watchServed {s : State} {core : Nat} {m : ActiveMsg} {p : Nat} (wf : s.memoryWf) :
    (Machine.watchServed s core m p).memoryWf := by
  unfold Machine.watchServed
  split
  · exact .ite wf.addWatches wf
  · exact wf

theorem execServiceLoad {core : Nat} {s : State} (wf : s.memoryWf) : nextWf (Machine.execServiceLoad core s) :=
  wf.serve (fun _ _ ht => ht.watchServed.answer)

theorem publishSent {s : State} {c : Nat} {m : ActiveMsg} (wf : s.memoryWf) : (Machine.publishSent s c m).memoryWf :=
  .ite wf wf.publishCore

theorem execServiceStore {core : Nat} {s : State} (wf : s.memoryWf) : nextWf (Machine.execServiceStore core s) :=
  wf.serve (fun _ _ ht => ht.lsStoreBut.publishSent.answer)

theorem execServiceAtomic {core : Nat} {s : State} (wf : s.memoryWf) : nextWf (Machine.execServiceAtomic core s) :=
  wf.serve (fun _ _ ht => by
    extract_lets f ps old v t1
    have ht1 : t1.memoryWf := ht.lsStoreBut.publishSent
    exact ht1.answer)

theorem releaseWaiter {s : State} {c word : Nat} (wf : s.memoryWf) : (Machine.releaseWaiter s c word).memoryWf := by
  unfold Machine.releaseWaiter
  split
  · exact wf
  · extract_lets bs s1
    have hs1 : s1.memoryWf := wf.modCore fun _ => by rfl
    exact hs1.deliverLds.retryLds

theorem setFe {s : State} {c word : Nat} {full : Bool} (wf : s.memoryWf) : (Machine.setFe s c word full).memoryWf :=
  .ite (wf.modCore fun _ => by rfl).releaseWaiter (wf.modCore fun _ => by rfl)

theorem execServiceFill {core : Nat} {s : State} (wf : s.memoryWf) : nextWf (Machine.execServiceFill core s) :=
  wf.serve (fun _ _ ht => by
    extract_lets ps word t1
    have ht1 : t1.memoryWf := ht.publishSent
    exact answer (.ite ht1.lsStore.setFe ht1.setFe))

theorem joinWaiters {s : State} {c : Nat} {w : Waiter} (wf : s.memoryWf) : (Machine.joinWaiters s c w).memoryWf :=
  wf.modCore (fun _ => by split <;> rfl)

theorem execServiceSyncLoad {core : Nat} {s : State} (wf : s.memoryWf) :
    nextWf (Machine.execServiceSyncLoad core s) :=
  wf.serve (fun _ _ ht => .ite (ht.modCore fun _ => by rfl).answer ht.holdRequest.joinWaiters)

theorem stealFrom_ls {s : State} {k : Nat} {p : TaskRec → Bool} {r : TaskRec} {co : Core} (wf : s.memoryWf) :
    Machine.stealFrom (s.core k) p = some (r, co) → Memory.wf co.ls = true := by
  unfold Machine.stealFrom
  split
  · rintro ⟨⟩
    exact wf.core k
  · intro e
    obtain ⟨_, _, e⟩ := Option.map_eq_some_iff.mp e
    cases e
    exact wf.core k

theorem stealBack {s : State} {core world : Nat} {t : State} {x : Option TaskRec} (wf : s.memoryWf) :
    Machine.stealBack s core world = (t, x) → t.memoryWf := by
  unfold Machine.stealBack
  split
  · rintro ⟨⟩
    exact wf
  · rename_i eq
    have ls := wf.stealFrom_ls eq
    split
    · rintro ⟨⟩
      exact wf.setCore ls
    · split
      · rintro ⟨⟩
        exact wf.spillFailed
      · rintro ⟨⟩
        exact wf.tick.setCore ls

theorem execServiceSteal {core : Nat} {s : State} (wf : s.memoryWf) : nextWf (Machine.execServiceSteal core s) := by
  unfold Machine.execServiceSteal
  split
  · split
    · extract_lets s1
      have hs1 : s1.memoryWf := wf.popService
      split
      · exact hs1.next
      · split
        · rename_i eq
          exact (hs1.stealBack eq).later.next
        · rename_i eq
          exact (hs1.stealBack eq).later.next
    · exact wf.next
  · exact wf.next

theorem execMailboxDataArrival {core : Nat} {m : MailMsg} {s : State} (wf : s.memoryWf) :
    nextWf (Machine.execMailboxDataArrival core m s) := by
  unfold Machine.execMailboxDataArrival
  extract_lets
  split
  · exact (wf.modCore fun _ => by rfl).hatPost.next
  · split
    · exact wf.answer.next
    · split
      · exact wf.answer.next
      · split
        · exact wf.answer.next
        · split
          · extract_lets s1
            have hs1 : s1.memoryWf := wf.modCore fun _ => by rfl
            exact (finishCtx (.ite hs1.acquireCtx hs1)).answer.next
          · exact .ite (wf.modCore fun _ => by rfl).answer.next wf.answer.next

theorem execTokenMessageArrival {core : Nat} {m : MailMsg} {s : State} (wf : s.memoryWf) :
    nextWf (Machine.execTokenMessageArrival core m s) := by
  unfold Machine.execTokenMessageArrival
  extract_lets num reg drop s1
  have hdrop : drop.memoryWf := (wf.modCore fun _ => by rfl).hatPost
  have hs1 : s1.memoryWf := wf.completeCtx
  split
  · exact hdrop.next
  · exact .ite hdrop.next (.ite hs1.modCtx.invalidateMatching.next (.ite hs1.finishCtx.next hs1.next))

theorem askerFails {s : State} {cl code : Nat} {x : RingReq} (wf : s.memoryWf) :
    (Machine.askerFails s cl code x).memoryWf := by
  unfold Machine.askerFails
  split
  · split
    · exact wf.finishCtx.next1
    · exact wf
  · exact wf.next1
  · exact wf.next1

theorem grantLoop {s t : State} {cl q fuel : Nat} {x : List (RingReq × Nat)} (wf : s.memoryWf) :
    Machine.grantLoop s cl q fuel = (t, x) → t.memoryWf := by
  suffices granted : (Machine.grantLoop s cl q fuel).1.memoryWf from of_fst' granted
  induction fuel generalizing s with
  | zero => exact wf
  | succ n ih =>
    unfold Machine.grantLoop
    dsimp only
    split
    · split
      · exact ih wf.modRing.askerFails
      split
      · exact ih wf.modRing
      · exact wf
    · exact wf

theorem qpushGranted {s : State} {c num idx : Nat} (wf : s.memoryWf) : (Machine.qpushGranted s c num idx).memoryWf := by
  unfold Machine.qpushGranted
  split
  · extract_lets
    split
    · exact wf.park
    · exact wf.qpushDone
  · exact wf

theorem ringGranted {s : State} {cl : Nat} {x : RingReq} {idx : Nat} (wf : s.memoryWf) :
    (Machine.ringGranted s cl x idx).memoryWf := by
  unfold Machine.ringGranted
  split
  · exact wf.qpushGranted
  · exact wf.modJob.engineWake
  · exact (wf.modCluster fun _ => by rfl).next1

theorem execRingReservationGrant {cluster ring : Nat} {s : State} (wf : s.memoryWf) :
    nextWf (Machine.execRingReservationGrant cluster ring s) :=
  next (.foldl (fun _ _ ht => ht.ringGranted) (wf.grantLoop rfl))

theorem execTilePublish {cluster ring idx : Nat} {s : State} (wf : s.memoryWf) :
    nextWf (Machine.execTilePublish cluster ring idx s) :=
  wf.publishTile.next

theorem endSteps {s : State} {cl : Nat} (wf : s.memoryWf) : (Machine.endSteps s cl).memoryWf := by
  unfold Machine.endSteps
  extract_lets
  split
  · exact .ite wf.modEngine.at_ wf
  · exact wf

theorem dropBadJobs {s : State} {cl : Nat} (wf : s.memoryWf) : (Machine.dropBadJobs s cl).memoryWf := by
  refine .ite wf (.foldl (fun t j ht => ?_) wf)
  extract_lets t1 t2
  have ht1 : t1.memoryWf := ht.dropPoisoned
  have ht2 : t2.memoryWf := by
    unfold t2
    split
    · exact ht1.writeTile.modRing
    · exact ht1
  exact ht2.modEngine.next1

theorem startJob {s : State} {cl : Nat} {j : Job} (wf : s.memoryWf) : (Machine.startJob s cl j).memoryWf := by
  unfold Machine.startJob
  extract_lets claim
  have claimed {t : State} {q n : Nat} (ht : t.memoryWf) : (claim t q n).1.memoryWf := ht.modRing
  split
  rename_i s1 ca eq
  have hs1 : s1.memoryWf := of_fst eq (claimed wf)
  split
  rename_i s2 cb eq
  have hs2 : s2.memoryWf := of_fst eq (claimed hs1)
  split
  rename_i s3 cc eq
  have hs3 : s3.memoryWf := of_fst eq (by
    split
    · exact claimed hs2
    · exact hs2)
  exact hs3.modJob.modEngine.at_.pauseAt

theorem endBurst {s : State} {cl : Nat} (wf : s.memoryWf) : (Machine.endBurst s cl).memoryWf :=
  .ite wf.modEngine.at_ wf.modEngine.at_

theorem engineChoose {s0 : State} {cl : Nat} (wf : s0.memoryWf) : (Machine.engineChoose s0 cl).memoryWf := by
  unfold Machine.engineChoose
  extract_lets s
  have hs : s.memoryWf := wf.dropBadJobs
  split
  · exact hs.startJob
  · split
    · exact .ite hs.at_ hs
    · split
      · exact hs.startJob
      · exact .ite hs.endBurst hs

theorem execMatrixJobStart {cluster : Nat} {s : State} (wf : s.memoryWf) :
    nextWf (Machine.execMatrixJobStart cluster s) := by
  unfold Machine.execMatrixJobStart
  extract_lets s1
  have hs1 : s1.memoryWf := wf.endSteps
  split
  · exact hs1.next
  · split
    · exact hs1.engineWake.next
    · exact hs1.engineWake.next
    · exact hs1.engineChoose.next
    · exact hs1.engineChoose.next
    · exact hs1.engineChoose.next

theorem execShadowPause {cluster : Nat} {s : State} (wf : s.memoryWf) : nextWf (Machine.execShadowPause cluster s) := by
  unfold Machine.execShadowPause
  extract_lets
  split
  · exact .ite wf.modJob.modEngine.engineChoose.next wf.next
  · exact wf.next

theorem execNormalJobResume {cluster : Nat} {s : State} (wf : s.memoryWf) :
    nextWf (Machine.execNormalJobResume cluster s) := by
  unfold Machine.execNormalJobResume
  extract_lets
  split
  · exact wf.modJob.modEngine.at_.next
  · exact wf.engineChoose.next
  · exact wf.next

theorem countCluster {cl : Nat} {s : State} (wf : s.memoryWf) : (Machine.countCluster cl s).memoryWf :=
  wf.modCluster fun _ => by rfl

theorem correctTiles {s : State} {cl q : Nat} {ns : List Nat} (wf : s.memoryWf) :
    (Machine.correctTiles s cl q ns).memoryWf :=
  .ite wf (wf.correct fun _ ht => ht.countCluster)

theorem execMatrixJobRetire {cluster id : Nat} {s : State} (wf : s.memoryWf) :
    nextWf (Machine.execMatrixJobRetire cluster id s) := by
  unfold Machine.execMatrixJobRetire
  extract_lets e
  split
  · exact wf.next
  · split
    · exact wf.next
    · extract_lets s1
      have hs1 : s1.memoryWf := wf.correctTiles.correctTiles.correctTiles
      split
      split
      · exact hs1.writeTile.modRing.ringMoves.finishJob.askJobs.engineWake.next
      · exact .ite hs1.finishJob.next hs1.modJob.jobAdvance.next

theorem execEngineRampUpEnd {cluster : Nat} {s : State} (wf : s.memoryWf) :
    nextWf (Machine.execEngineRampUpEnd cluster s) := by
  unfold Machine.execEngineRampUpEnd
  split
  · exact .ite wf.modEngine.engineChoose.next wf.next
  · exact wf.next

theorem execEngineWarmEnd {cluster : Nat} {s : State} (wf : s.memoryWf) :
    nextWf (Machine.execEngineWarmEnd cluster s) := by
  unfold Machine.execEngineWarmEnd
  split
  · exact .ite wf.endBurst.next wf.next
  · exact wf.next

theorem execEngineRampDownEnd {cluster : Nat} {s : State} (wf : s.memoryWf) :
    nextWf (Machine.execEngineRampDownEnd cluster s) := by
  unfold Machine.execEngineRampDownEnd
  split
  · exact .ite wf.modEngine.engineWake.next wf.next
  · exact wf.next

theorem checkKicks {s : State} {cl : Nat} (wf : s.memoryWf) : (Machine.checkKicks s cl).memoryWf :=
  .ite wf (.foldl (fun _ _ ht => by
    extract_lets u
    have hu : u.memoryWf := ht.correct (fun _ ht' => ht'.countCluster)
    exact .ite (hu.modCluster fun _ => by rfl).dropPoisoned hu) wf)

theorem kickArrive {s : State} {r : CopyReq} (wf : s.memoryWf) : (Machine.kickArrive s r).memoryWf := by
  unfold Machine.kickArrive
  extract_lets cl s1
  have hs1 : s1.memoryWf := wf.modCtx
  exact .ite hs1.sendToken (hs1.modCluster fun _ => by rfl).later

theorem admitKicks {s : State} {cl : Nat} (wf : s.memoryWf) : (Machine.admitKicks s cl).memoryWf :=
  .foldl (fun _ _ ht => by
    split
    · split
      · extract_lets t1
        have ht1 : t1.memoryWf := ht.kickArrive
        exact .ite ht1.modCtx ht1.finishCtx
      · exact ht
    · exact ht) wf

theorem execCopyKickTake {cluster : Nat} {s0 : State} (wf : s0.memoryWf) :
    nextWf (Machine.execCopyKickTake cluster s0) := by
  unfold Machine.execCopyKickTake
  extract_lets s
  have hs : s.memoryWf := wf.checkKicks
  split
  · exact hs.next
  · split
    · exact hs.next
    · extract_lets s1 s2
      have hs2 : s2.memoryWf := hs.modReq.admitKicks
      exact next (.ite hs2.goOn hs2.endReq)

theorem execCopyRequestComplete {cluster id : Nat} {s : State} (wf : s.memoryWf) :
    nextWf (Machine.execCopyRequestComplete cluster id s) := by
  unfold Machine.execCopyRequestComplete
  split
  · exact wf.next
  · split
    · exact wf.releaseReq.next
    · exact wf.next

theorem execCopyYield {cluster id : Nat} {s : State} (wf : s.memoryWf) :
    nextWf (Machine.execCopyYield cluster id s) := by
  unfold Machine.execCopyYield
  split
  · exact wf.next
  · exact .ite (wf.modCluster fun _ => by rfl).next1.next wf.next

theorem recheckJobs {s : State} {cl : Nat} (wf : s.memoryWf) : (Machine.recheckJobs s cl).memoryWf :=
  .foldl (fun _ _ ht => .ite ht ht.next1) wf

theorem execQcfgApply {cluster ring : Nat} {s : State} (wf : s.memoryWf) : nextWf (Machine.execQcfgApply cluster ring s) := by
  unfold Machine.execQcfgApply
  extract_lets r
  split
  · exact wf.next
  · refine .ite ?_ wf.next
    split
    rename_i s1 code eq
    have hs1 : s1.memoryWf := of_fst eq (by
      split
      · exact modRing (s := { s with poison := _ }) wf
      · exact wf)
    extract_lets s2 s3 s4
    have hs4 : s4.memoryWf := hs1.modRing.next1.recheckJobs.ite hs1.modRing.next1
    exact (hs4.ite hs4.next1).next1.next

theorem execBarrierComplete {world launch group : Nat} {s : State} (wf : s.memoryWf) :
    nextWf (Machine.execBarrierComplete world launch group s) := by
  unfold Machine.execBarrierComplete
  split
  · exact wf.next
  · exact .ite (tick (.foldl (fun _ _ ht => ht.at_) wf.putBarrier)).next wf.next

theorem execBarrierRelease {core num : Nat} {sig : Sig} {s : State} (wf : s.memoryWf) :
    nextWf (Machine.execBarrierRelease core num sig s) := by
  unfold Machine.execBarrierRelease
  split
  · exact wf.acquireCtx.finishCtx.next
  · exact wf.next

theorem execRdcFillArrival {die line : Nat} {s : State} (wf : s.memoryWf) :
    nextWf (Machine.execRdcFillArrival die line s) := by
  unfold Machine.execRdcFillArrival
  split
  · exact wf.next
  · exact wf.fillArrived.next

theorem execRdcCopyExpiry {die line : Nat} {s : State} (wf : s.memoryWf) :
    nextWf (Machine.execRdcCopyExpiry die line s) :=
  wf.modDie.next

theorem execSignatureBankAge {s : State} (h : s.memoryWf) : nextWf (Machine.execSignatureBankAge s) :=
  next (h.mapCores (f := fun p => (p.1, { p.2 with pubSig := agePubs p.2.pubSig })) fun _ => rfl)

theorem readNext {s : State} {world queue : Nat} (wf : s.memoryWf) : (Machine.readNext s world queue).memoryWf := by
  unfold Machine.readNext
  extract_lets
  split
  · exact wf.recordFault
  · exact wf.writeState.launchReport.cancelAll.modQueue.next1
  · split
    · exact wf.modQueue.next1
    · split
      · exact wf
      · rename_i eq
        exact .ite (wf.enterLaunch eq).setEligible.modQueue.next1 (wf.enterLaunch eq).writeState.modQueue.next1

theorem execLaunchRecordRead {world queue : Nat} {s : State} (wf : s.memoryWf) :
    nextWf (Machine.execLaunchRecordRead world queue s) := by
  unfold Machine.execLaunchRecordRead
  extract_lets
  split
  · exact wf.next
  · split
    · exact wf.modQueue.makeEligible.next1.next
    · exact .ite wf.next (.ite wf.queueMiss.next wf.devHeard.readNext.next)

theorem takeLaunch {s : State} {die world : Nat} {l : Launch} (wf : s.memoryWf) :
    (Machine.takeLaunch s die world l).memoryWf :=
  wf.freshId.modLaunch.modDie.writeState

theorem execDispatchChoice {die : Nat} {s : State} (wf : s.memoryWf) : nextWf (Machine.execDispatchChoice die s) := by
  unfold Machine.execDispatchChoice
  split
  · exact wf.next
  · exact next (.ite wf.takeLaunch.at_ (.ite wf.at_ wf.takeLaunch))

theorem pushRecord {s : State} {c : Nat} {r : TaskRec} {t : State} (wf : s.memoryWf) :
    Machine.pushRecord s c r = some t → t.memoryWf := by
  unfold Machine.pushRecord
  exact wf.pushAt

theorem seedSome {s : State} {die world l n : Nat} (h : s.memoryWf) : (Machine.seedSome s die world l n).memoryWf := by
  induction n generalizing s with
  | zero => exact h
  | succ n ih =>
    unfold Machine.seedSome
    split
    · exact h
    split
    · exact h
    · extract_lets c
      split
      · exact h.spillFailed
      · rename_i eq
        exact ih (h.pushRecord eq).modLaunch

theorem execTaskSeeding {die : Nat} {s : State} (wf : s.memoryWf) : nextWf (Machine.execTaskSeeding die s) := by
  unfold Machine.execTaskSeeding
  split
  · exact wf.next
  · exact wf.seedSome.checkDone.next

theorem execAgeingRaise {core : Nat} {s : State} (wf : s.memoryWf) : nextWf (Machine.execAgeingRaise core s) := by
  unfold Machine.execAgeingRaise
  extract_lets s1 s2
  have hs2 : s2.memoryWf := (wf.modCore fun _ => by rfl).modCluster fun _ => by rfl
  exact next (.foldl (fun _ _ ht => ht.becameReady) (.ite (hs2.beside (by rfl)) hs2))

theorem placeGang {s : State} {world : Nat} {l : Launch} {free ks : List Nat} (h : s.memoryWf) :
    (Machine.placeGang s world l free ks).memoryWf := by
  induction ks generalizing s free with
  | nil => exact h
  | cons i is ih =>
    unfold Machine.placeGang
    dsimp only
    split
    · exact h
    · exact ih (.getD (fun _ => h.installTask) h)

theorem execGangPlacement {world launch : Nat} {s : State} (wf : s.memoryWf) :
    nextWf (Machine.execGangPlacement world launch s) := by
  unfold Machine.execGangPlacement
  split
  · exact wf.next
  · exact .ite wf.takeLaunch.placeGang.modLaunch.next wf.next

theorem execUrgentInstall {die : Nat} {s : State} (wf : s.memoryWf) : nextWf (Machine.execUrgentInstall die s) := by
  unfold Machine.execUrgentInstall
  split
  · exact wf.next
  · exact next (.getD (fun _ => wf.modDie.installTask) wf)

theorem failLaunch {s : State} {world : Nat} {l : Launch} {st : LaunchState} (wf : s.memoryWf) :
    (Machine.failLaunch s world l st).memoryWf :=
  wf.closeLaunch.cancelAll

theorem nodeChose {s : State} {world : Nat} {l : Launch} {addr : Nat} (wf : s.memoryWf) :
    (Machine.nodeChose s world l addr).memoryWf := by
  unfold Machine.nodeChose
  extract_lets soft s0 s1 s2
  have hs1 : s1.memoryWf := closeLaunch (.ite wf.cancelChosen wf)
  have hs2 : s2.memoryWf := by
    unfold s2
    split
    · exact hs1.next1
    · exact hs1
  exact .ite hs2 hs2.makeEligible

theorem execNodeEvaluation {world launch : Nat} {s : State} (wf : s.memoryWf) :
    nextWf (Machine.execNodeEvaluation world launch s) := by
  unfold Machine.execNodeEvaluation
  split
  · exact wf.next
  · split
    · exact wf.next
    · extract_lets cl s0
      have hs0 : s0.memoryWf := wf.devHeard.modLaunch.writeState
      split
      · exact hs0.failLaunch.launchReport.next
      · extract_lets
        split
        · exact hs0.nodeChose.next
        · split
          · exact .ite hs0.nodeChose.next (.ite hs0.nodeChose.next hs0.modLaunch.writeState.makeEligible.next)
          · split
            · exact hs0.failLaunch.launchReport.next
            · exact hs0.devHeard.nodeChose.next

theorem admitOne {s : State} {cluster : Nat} {t : State} (wf : s.memoryWf) :
    Machine.admitOne s cluster = some t → t.memoryWf := by
  unfold Machine.admitOne
  dsimp only
  split
  · nofun
  · split
    · rintro ⟨⟩
      exact (wf.freshId.modCluster fun _ => by rfl).modDie
    · split
      · rintro ⟨⟩
        exact (wf.freshId.modCluster fun _ => by rfl).modDie.next1
      · nofun

theorem execMissTableAdmit {cluster : Nat} {s : State} (wf : s.memoryWf) :
    nextWf (Machine.execMissTableAdmit cluster s) := by
  unfold Machine.execMissTableAdmit
  split
  · exact wf.next
  · rename_i eq
    exact next (.ite (wf.admitOne eq) (wf.admitOne eq).next1)

theorem execPageWalk {die : Nat} {s : State} (wf : s.memoryWf) : nextWf (Machine.execPageWalk die s) := by
  unfold Machine.execPageWalk
  extract_lets
  split
  · exact wf.modDie.later.next
  · exact wf.next

theorem admitRound {s : State} {die n : Nat} (h : s.memoryWf) : (Machine.admitRound s die n).memoryWf := by
  induction n generalizing s with
  | zero => exact h
  | succ n ih =>
    unfold Machine.admitRound
    split
    · rename_i eq
      obtain ⟨_, _, admitted⟩ := List.exists_of_findSome?_eq_some eq
      exact ih (h.admitOne admitted)
    · exact h

theorem admitAll {s : State} {die : Nat} (wf : s.memoryWf) : (Machine.admitAll s die).memoryWf :=
  wf.admitRound

theorem resumeMiss {s : State} {w : ReplyTo} (wf : s.memoryWf) : (Machine.resumeMiss s w).memoryWf := by
  unfold Machine.resumeMiss
  split
  · split
    · exact .ite wf.retryAccess wf
    · split
      · exact wf.next1
      · exact wf
    · exact wf
  · exact wf.next1

theorem leafFound {s : State} {die world va : Nat} {l : Leaf} (wf : s.memoryWf) :
    (Machine.leafFound s die world va l).memoryWf :=
  next1 (.foldl (fun _ _ ht => ht.resumeMiss) (.foldl (fun _ _ ht => ht.tlbCluster) wf.modDie.tlbDie))

theorem faultMiss {world key : Nat} {fault : Nat → Nat × Nat} {s : State} {w : ReplyTo} (wf : s.memoryWf) :
    (Machine.faultMiss world key fault s w).memoryWf := by
  unfold Machine.faultMiss
  split
  · split
    · exact .ite wf.faultAccess wf
    · split
      · exact .ite wf.takeTrapAt wf
      · exact wf
    · exact wf
  · exact wf.next1

theorem walkFault {s : State} {die : Nat} {e : MissEntry} {fault : Nat → Nat × Nat} (wf : s.memoryWf) :
    (Machine.walkFault s die e fault).memoryWf :=
  next1 (.foldl (fun _ _ ht => ht.faultMiss) wf.modDie)

theorem execPageWalkDone {die walker : Nat} {s : State} (wf : s.memoryWf) :
    nextWf (Machine.execPageWalkDone die walker s) := by
  unfold Machine.execPageWalkDone
  split
  · exact wf.next
  · split
    · exact wf.modDie.next1.next
    · extract_lets s1
      have hs1 : s1.memoryWf := wf.walkEffect
      exact next (by
        split
        · exact hs1.leafFound.admitAll
        · exact hs1.integrityRecord.walkFault.admitAll
        · exact hs1.walkFault.admitAll
        · exact hs1.walkFault.admitAll
        · exact hs1.walkFault.admitAll)

theorem execBlockCounterFlush {cluster world addr : Nat} {s : State} (wf : s.memoryWf) :
    nextWf (Machine.execBlockCounterFlush cluster world addr s) :=
  wf.flushCounter.next

theorem traceHeader {s : State} {c : Nat} (wf : s.memoryWf) : (Machine.traceHeader s c).memoryWf :=
  .ite wf.pokeMem wf.hatPost

theorem execTraceHeaderRewrite {core : Nat} {s : State} (wf : s.memoryWf) :
    nextWf (Machine.execTraceHeaderRewrite core s) :=
  wf.traceHeader.next

theorem execGraphRequestFinish {cluster id : Nat} {s : State} (wf : s.memoryWf) :
    nextWf (Machine.execGraphRequestFinish cluster id s) := by
  unfold Machine.execGraphRequestFinish
  split
  · exact wf.next
  · exact next (.ite wf.gFinish wf)

theorem dropRings {s : State} {w : Nat} (h : s.memoryWf) : (Machine.dropRings s w).memoryWf :=
  h.mapClusters fun _ => rfl

theorem clearShare {s : State} {c lo hi : Nat} (h : s.memoryWf) : (Machine.clearShare s c lo hi).memoryWf :=
  h.setCore (wf_filter _ _ (h.core c))

theorem setShare {s : State} {w c lo hi mask : Nat} (wf : s.memoryWf) :
    (Machine.setShare s w c lo hi mask).memoryWf :=
  modCore (.ite wf.clearShare wf) fun _ => by rfl

theorem dropShares {s : State} {w : Nat} (wf : s.memoryWf) : (Machine.dropShares s w).memoryWf :=
  .foldl (fun _ _ ht => by
    split
    · exact ht.clearShare.setShare
    · exact .ite ht.setShare ht) wf

theorem freePolder {s : State} {w : Nat} (wf : s.memoryWf) : (Machine.freePolder s w).memoryWf :=
  (wf.beside (by rfl)).dropShares.dropRings.modPolder

theorem execDrainTimerExpiry {world : Nat} {s : State} (wf : s.memoryWf) :
    nextWf (Machine.execDrainTimerExpiry world s) :=
  .ite (next (.ite wf.freePolder wf.modPolder)) wf.next

theorem pathsTake {s : State} {die module : Nat} (wf : s.memoryWf) : (Machine.pathsTake s die module).memoryWf :=
  .ite wf wf.modDie

theorem execPathChangeEffect {die module : Nat} {s : State} (wf : s.memoryWf) :
    nextWf (Machine.execPathChangeEffect die module s) :=
  wf.pathsTake.next

theorem redAnswer {s : State} {die world : Nat} {who : ReplyTo} {status bitmap : Word} {data : Vec} {sig : Sig}
    (wf : s.memoryWf) : (Machine.redAnswer s die world who status bitmap data sig).memoryWf := by
  unfold Machine.redAnswer
  split
  · exact .getD (fun _ => wf.sendPacket) wf
  · exact wf.later
  · exact wf.answer

theorem setRed {s : State} {die slot : Nat} {r : RedSlot} (wf : s.memoryWf) :
    (Machine.setRed s die slot r).memoryWf :=
  wf.modDie

theorem unholdRequest {s : State} {tdie : Nat} {who : ReplyTo} (wf : s.memoryWf) :
    (Machine.unholdRequest s tdie who).memoryWf := by
  unfold Machine.unholdRequest
  split
  · exact wf.modDie
  · exact wf.modDie
  · exact wf

theorem issueResult {s : State} {die slot : Nat} (wf : s.memoryWf) : (Machine.issueResult s die slot).memoryWf := by
  unfold Machine.issueResult
  extract_lets
  split
  · exact .foldl (fun _ _ ht => ht.unholdRequest.redAnswer) wf.setRed.at_

theorem recordContribution {s : State} {die : Nat} {r : RedSlot} {c : Contribution} (wf : s.memoryWf) :
    (Machine.recordContribution s die r c).memoryWf := by
  unfold Machine.recordContribution
  extract_lets r1 s1
  have hs1 : s1.memoryWf := wf.setRed.holdRequest
  exact .ite hs1.issueResult hs1

theorem execReductionContributionArrival {die : Nat} {c : Contribution} {s : State} (wf : s.memoryWf) :
    nextWf (Machine.execReductionContributionArrival die c s) := by
  unfold Machine.execReductionContributionArrival
  extract_lets
  split
  · exact wf.redAnswer.next
  · exact .ite wf.at_.recordContribution.next (.ite wf.recordContribution.next (.ite wf.redAnswer.next wf.redAnswer.next))

theorem execReductionDeadline {die slot : Nat} {s : State} (wf : s.memoryWf) :
    nextWf (Machine.execReductionDeadline die slot s) :=
  .ite wf.issueResult.next wf.next

theorem execReductionSlotFree {die slot : Nat} {s : State} (wf : s.memoryWf) :
    nextWf (Machine.execReductionSlotFree die slot s) :=
  .ite wf.setRed.next wf.next

theorem execReductionResultArrival {core num reg record : Nat} {status bitmap : Word} {data : Vec} {sig : Sig}
    {s : State} (wf : s.memoryWf) :
    nextWf (Machine.execReductionResultArrival core num reg record status bitmap data sig s) := by
  unfold Machine.execReductionResultArrival
  extract_lets
  split
  · split
    · exact wf.completeCtx.next
    · exact (wf.freshId.modCore fun _ => by rfl).redWriteNext.next
  · exact wf.completeCtx.next

theorem complexPacket {s : State} {die cls world dst : Nat} {op : Word} {data : List Word} (wf : s.memoryWf) :
    (Machine.complexPacket s die cls world dst op data).memoryWf :=
  .getD (fun _ => wf.sendPacket) wf

theorem sendRelease {s : State} {die : Nat} {token : Word} {holder : Nat} {failed retry : Bool} {clean : Nat}
    {sig : Sig} (wf : s.memoryWf) : (Machine.sendRelease s die token holder failed retry clean sig).memoryWf :=
  .ite (.ite wf wf.later) wf.complexPacket

theorem resolveTokens {s : State} {die world gen : Nat} (wf : s.memoryWf) :
    (Machine.resolveTokens s die world gen).memoryWf :=
  .foldl (fun _ _ ht => .foldl (fun _ _ ht' => ht'.sendRelease) ht) wf.modDie

theorem settleToken {s : State} {die world gen seq : Nat} {f : TokSpace → TokSpace} (wf : s.memoryWf) :
    (Machine.settleToken s die world gen seq f).memoryWf :=
  wf.setSpace.resolveTokens

theorem execSttkLanding {die world gen seq : Nat} {sig : Sig} {s : State} (wf : s.memoryWf) :
    nextWf (Machine.execSttkLanding die world gen seq sig s) := by
  unfold Machine.execSttkLanding
  split
  · exact wf.next
  · exact .ite wf.completeCtx.settleToken.next wf.next

theorem execSttkFailure {die world gen seq code : Nat} {s : State} (wf : s.memoryWf) :
    nextWf (Machine.execSttkFailure die world gen seq code s) := by
  unfold Machine.execSttkFailure
  split
  · exact wf.next
  · exact .ite wf.completeCtx.settleToken.next wf.next

theorem depPerformed {s : State} {d : DepStore} (wf : s.memoryWf) : (Machine.depPerformed s d).memoryWf := by
  unfold Machine.depPerformed
  split
  · exact wf.copiesTake.modCtx
  · exact wf

theorem depPerform {s : State} {die : Nat} {d : DepStore} {landed : Sig} (wf : s.memoryWf) :
    (Machine.depPerform s die d landed).memoryWf := by
  unfold Machine.depPerform
  split
  · exact wf.answer
  · split
    · split
      · exact wf.integrityRecord.answer
      · rename_i eq
        exact (wf.homeWrite eq).copiesTake.depPerformed.publishHome.answer
    · exact wf.sendActive

theorem setMark {s : State} {die key n : Nat} (wf : s.memoryWf) : (Machine.setMark s die key n).memoryWf :=
  wf.modDie

theorem sluiceFull {s : State} {d : DepStore} (wf : s.memoryWf) : (Machine.sluiceFull s d).memoryWf := by
  unfold Machine.sluiceFull
  split
  · exact .getD (fun _ => wf.sendPacket) wf
  · exact wf.later
  · exact wf.later
  · exact wf

theorem sendHold {s : State} {die : Nat} {token : Word} (wf : s.memoryWf) : (Machine.sendHold s die token).memoryWf :=
  .ite (.ite wf wf.later) wf.complexPacket

theorem execDepstoreArrival {die : Nat} {y : DepStore} {s : State} (wf : s.memoryWf) :
    nextWf (Machine.execDepstoreArrival die y s) := by
  unfold Machine.execDepstoreArrival
  extract_lets
  split
  · exact wf.answer.next
  · refine .ite wf.answer.next (.ite wf.depPerform.next (.ite wf.setMark.depPerform.next ?_))
    exact .ite wf.sluiceFull.next wf.modDie.holdRequest.at_.sendHold.next

theorem execDepstoreResend {die : Nat} {y : DepStore} {s : State} (wf : s.memoryWf) :
    nextWf (Machine.execDepstoreResend die y s) := by
  unfold Machine.execDepstoreResend
  extract_lets
  split
  · split
    · split
      · exact next (.getD (fun _ => wf.sendPacket) wf)
    · exact next (.ite wf wf.laterAfter)
  · exact next (.ite wf wf.laterAfter)

theorem execSluiceFullReply {die : Nat} {y : DepStore} {s : State} (wf : s.memoryWf) :
    nextWf (Machine.execSluiceFullReply die y s) :=
  wf.at_.next

theorem execHoldArrival {die : Nat} {token : Word} {holder : Nat} {s : State} (wf : s.memoryWf) :
    nextWf (Machine.execHoldArrival die token holder s) := by
  unfold Machine.execHoldArrival
  extract_lets
  split
  · exact wf.sendRelease.next
  · split
    · exact wf.sendRelease.next
    · exact .ite wf.next (.ite wf.modDie.next wf.sendRelease.next)

theorem execHoldRetry {die : Nat} {token : Word} {s : State} (wf : s.memoryWf) :
    nextWf (Machine.execHoldRetry die token s) :=
  .ite wf.sendHold.next wf.next

theorem dropSluiced {s : State} {die : Nat} {e : Sluiced} (wf : s.memoryWf) :
    (Machine.dropSluiced s die e).memoryWf :=
  wf.modDie.unholdRequest

theorem execReleaseArrival {die : Nat} {token : Word} {failed retry : Bool} {clean : Nat} {sig : Sig} {s : State}
    (wf : s.memoryWf) : nextWf (Machine.execReleaseArrival die token failed retry clean sig s) := by
  refine .ite wf.at_.next (next (.foldl (fun u e hu => ?_) wf.setMark))
  exact .ite (.ite hu.dropSluiced.answer hu.dropSluiced.depPerform) (.ite hu.dropSluiced.depPerform hu)

theorem execSluiceExpiry {die n : Nat} {s : State} (wf : s.memoryWf) : nextWf (Machine.execSluiceExpiry die n s) := by
  unfold Machine.execSluiceExpiry
  split
  · exact wf.next
  · exact .ite wf.at_.next (.ite wf.next wf.dropSluiced.answer.hatPost.next)

theorem execDeclareArrival {core from_ k f world : Nat} {who : ReplyTo} {s : State} (h : s.memoryWf) :
    nextWf (Machine.execDeclareArrival core from_ k f world who s) := by
  unfold Machine.execDeclareArrival
  extract_lets code s1
  have hs1 : s1.memoryWf := .ite (h.modCore (fun _ => ls_enterChannel ..)) h
  split
  · exact (getD (fun _ => hs1.sendPacket) hs1).next
  · exact hs1.laterAfter.next

theorem execDeclareReply_declared {core k code : Nat} {s : State} (wf : s.memoryWf) :
    nextWf (Machine.execDeclareReply.declared core k code s) := by
  unfold Machine.execDeclareReply.declared
  split
  · exact wf.next
  · exact .ite wf.next (wf.modCore fun _ => by rfl).completeCtx.next

theorem execDeclareReply {core k : Nat} {who : ReplyTo} {code : Nat} {s : State} (wf : s.memoryWf) :
    nextWf (Machine.execDeclareReply core k who code s) := by
  unfold Machine.execDeclareReply
  split
  · split
    · exact wf.freeTag.execDeclareReply_declared
    · exact wf.lateReply.next
  · exact wf.execDeclareReply_declared

theorem sendTide {s : State} {c : Nat} {oc : OutChan} (wf : s.memoryWf) : (Machine.sendTide s c oc).memoryWf :=
  .ite (.ite wf wf.laterAfter) (.getD (fun _ => wf.sendPacket) wf)

theorem sendTides {c : Nat} {s : State} {chans : List (Option OutChan)} (h : s.memoryWf) :
    (Machine.sendTides c s chans).memoryWf := by
  induction chans generalizing s with
  | nil => exact h
  | cons o r ih =>
    cases o with
    | none => exact ih h
    | some oc => exact ih h.sendTide

theorem ltPublish {s : State} {c : Nat} (wf : s.memoryWf) : (Machine.ltPublish s c).memoryWf :=
  .ite wf wf.sendTides.next1

theorem ltRaise {s : State} {c v : Nat} (wf : s.memoryWf) : (Machine.ltRaise s c v).memoryWf := by
  unfold Machine.ltRaise
  split
  · extract_lets s1
    have hs1 : s1.memoryWf := wf.modCore fun _ => by rfl
    exact .ite hs1 hs1.ltPublish
  · exact wf

theorem takeEvent {s : State} {c num : Nat} {e : LtEvent} (wf : s.memoryWf) :
    (Machine.takeEvent s c num e).memoryWf :=
  ((wf.modCore fun _ => by rfl).ltRaise.modCore fun _ => by rfl).acquireCtx

theorem serveBlocked {s : State} {c n : Nat} (h : s.memoryWf) : (Machine.serveBlocked s c n).memoryWf := by
  induction n generalizing s with
  | zero => exact h
  | succ n ih =>
    unfold Machine.serveBlocked
    split
    · refine .ite ?_ h
      extract_lets s1
      have hs1 : s1.memoryWf := h.modCore fun _ => by rfl
      split
      · exact ih hs1.takeEvent.finishCtx
      · exact ih hs1
    · exact h

theorem safeRaised {s : State} {c : Nat} (wf : s.memoryWf) : (Machine.safeRaised s c).memoryWf := by
  unfold Machine.safeRaised
  extract_lets s1
  have hs1 : s1.memoryWf := wf.serveBlocked
  exact .ite hs1 hs1.ltRaise

theorem dropStray {s : State} {core : Nat} (wf : s.memoryWf) : (Machine.dropStray s core).memoryWf :=
  wf.modCore fun _ => by rfl

theorem execTideArrival {core ch src t : Nat} {s : State} (wf : s.memoryWf) :
    nextWf (Machine.execTideArrival core ch src t s) := by
  unfold Machine.execTideArrival
  extract_lets co s1
  have hs1 : s1.memoryWf := wf.modCore (fun _ => by split <;> rfl)
  exact .ite (next (.ite hs1 hs1.safeRaised)) wf.dropStray.next

theorem execEventArrival {core : Nat} {e : LtEvent} {s : State} (wf : s.memoryWf) :
    nextWf (Machine.execEventArrival core e s) := by
  unfold Machine.execEventArrival
  split
  · extract_lets s1 s2
    have hs2 : s2.memoryWf := (wf.modCore fun _ => by rfl).answer
    exact hs2.serveBlocked.next
  · exact wf.dropStray.answer.next

theorem execFloorExchange {die : Nat} {s : State} (wf : s.memoryWf) : nextWf (Machine.execFloorExchange die s) := by
  unfold Machine.execFloorExchange
  extract_lets reps s1
  have hs1 : s1.memoryWf := wf.foldl fun _ _ ht => ht.foldl fun _ _ hu => hu.later
  exact next (hs1.foldl fun _ _ ht => ht.foldl fun _ _ hu => .getD (fun _ => hu.sendPacket) hu)

theorem execFloorReportArrival {die core bound launch : Nat} {s : State} (wf : s.memoryWf) :
    nextWf (Machine.execFloorReportArrival die core bound launch s) :=
  wf.modDie.next

theorem peerPublish {t : State} {w : Nat} {p : Packet} (wf : t.memoryWf) : (Machine.peerPublish t w p).memoryWf :=
  .ite wf.publishHome wf

theorem peerAtomic {s : State} {die w : Nat} {p : Packet} (wf : s.memoryWf) :
    (Machine.peerAtomic s die w p).memoryWf := by
  unfold Machine.peerAtomic
  extract_lets
  split
  · exact wf.integrityRecord.answer
  · rename_i eq
    extract_lets
    split
    · exact wf.integrityRecord.answer
    · rename_i eq1
      extract_lets u1
      have hu1 : u1.memoryWf := ((wf.homeRead eq).homeWrite eq1).peerPublish
      exact hu1.answer

theorem execKeyedAtomicApply {die : Nat} {s : State} (wf : s.memoryWf) :
    nextWf (Machine.execKeyedAtomicApply die s) := by
  unfold Machine.execKeyedAtomicApply
  split
  · exact wf.next
  · extract_lets s1 src s2
    have hs1 : s1.memoryWf := wf.modDie
    have hs2 : s2.memoryWf := by
      unfold s2
      split
      · exact hs1.peerAtomic
      · exact hs1.dropStamp.accessAtHome
    exact next (.ite hs2.at_ hs2)

theorem execLocalTimeModeExit {core : Nat} {s : State} (wf : s.memoryWf) :
    nextWf (Machine.execLocalTimeModeExit core s) := by
  unfold Machine.execLocalTimeModeExit
  split
  · split
    · exact wf.next
    · extract_lets s1
      have hs1 : s1.memoryWf := wf.modCore fun _ => by rfl
      exact next (.foldl (fun _ _ ht => .getD (fun _ => ht.sendPacket) ht) (hs1.beside (by rfl)))
  · exact (wf.modCore fun _ => by rfl).next

theorem counterAdd {s : State} {cluster world va n : Nat} (wf : s.memoryWf) :
    (Machine.counterAdd s cluster world va n).memoryWf := by
  unfold Machine.counterAdd
  split
  · exact wf
  · split
    · rename_i eq
      exact (wf.devRelease eq)
    · exact wf

theorem addAborted {s : State} {die world done : Nat} (wf : s.memoryWf) :
    (Machine.addAborted s die world done).memoryWf :=
  .ite wf wf.counterAdd

theorem discardRec {s : State} {die : Nat} {r : TaskRec} (wf : s.memoryWf) : (Machine.discardRec s die r).memoryWf := by
  unfold Machine.discardRec
  extract_lets s1
  have hs1 : s1.memoryWf := wf.addAborted
  exact taskGone (.ite hs1.endMember hs1)

theorem stolen {s : State} {core world : Nat} {r : TaskRec} (wf : s.memoryWf) :
    (Machine.stolen s core world r).memoryWf := by
  unfold Machine.stolen
  extract_lets gone queued
  have hqueued : queued.memoryWf := by
    unfold queued
    split
    · rename_i eq
      exact (wf.putRecord eq)
    · exact wf.spillFailed.next1
  split
  · exact wf.discardRec
  · split
    · exact .getD (fun _ => wf.installTask) hqueued
    · exact hqueued

theorem execStealReplyArrival {core : Nat} {r : StealAnswer} {s : State} (wf : s.memoryWf) :
    nextWf (Machine.execStealReplyArrival core r s) := by
  unfold Machine.execStealReplyArrival
  extract_lets world s0
  have hs0 : s0.memoryWf := by
    unfold s0
    split
    · exact wf.freeTag
    · exact wf
  split
  · exact hs0.modSteal.next1.stolen.next
  · exact .ite hs0.next (.ite hs0.modSteal.next (.ite hs0.stealFrom'.next hs0.stealFrom'.next))

theorem boardReport {s : State} {w : Word} (wf : s.memoryWf) : (Machine.boardReport s w).memoryWf :=
  wf.beside (by rfl)

theorem migNote {s : State} {w step : Nat} (wf : s.memoryWf) : (Machine.migNote s w step).memoryWf :=
  wf.hatPost.boardReport

theorem setMig {s : State} {w : Nat} {m : MigState} (wf : s.memoryWf) : (Machine.setMig s w m).memoryWf :=
  wf.modPolder

theorem execRecoveryWindowExpiry {world : Nat} {s : State} (wf : s.memoryWf) :
    nextWf (Machine.execRecoveryWindowExpiry world s) :=
  .ite wf.setMig.migNote.at_.next wf.next

theorem execNullFrameSend {port : Nat} {s : State} (wf : s.memoryWf) : nextWf (Machine.execNullFrameSend port s) :=
  .ite wf.modLink.next wf.next

theorem execCreditWaitDrop {port : Nat} {s : State} (wf : s.memoryWf) : nextWf (Machine.execCreditWaitDrop port s) :=
  next (.foldl (fun _ _ ht => ht.dropPacket) wf.modLink)

theorem dropMalformed {s : State} {die : Nat} {d0 : Word} (wf : s.memoryWf) :
    (Machine.dropMalformed s die d0).memoryWf :=
  wf.modDie.hatPost

theorem execPacketForward {port : Nat} {p : Packet} {s : State} (wf : s.memoryWf) :
    nextWf (Machine.execPacketForward port p s) :=
  .ite wf.dropMalformed.next (.ite (.ite wf.next wf.toPort.next) (next (.ite wf.dropPacket (.ite wf wf.laterAfter))))

theorem peerAtHome {s : State} {die w : Nat} {p : Packet} (wf : s.memoryWf) :
    (Machine.peerAtHome s die w p).memoryWf := by
  unfold Machine.peerAtHome
  extract_lets
  split
  · split
    · exact wf.answer
    · split
      · exact wf.integrityRecord.answer
      · rename_i eq
        exact (wf.homeRead eq).answer
  · split
    · split
      · exact wf.answer
      · split
        · exact wf.integrityRecord.answer
        · rename_i eq
          exact (wf.homeWrite eq).peerPublish.answer
    · split
      · exact wf.modDie.holdRequest.next1
      · exact wf.peerAtomic

theorem peerAccess {s : State} {die : Nat} {p : Packet} (wf : s.memoryWf) : (Machine.peerAccess s die p).memoryWf := by
  unfold Machine.peerAccess
  extract_lets
  split
  · split
    · exact wf.answer
    · exact wf.sendActive
  · split
    · exact wf.answer
    · exact wf.peerAtHome

theorem peerSend {s : State} {die : Nat} {p : Packet} (wf : s.memoryWf) : (Machine.peerSend s die p).memoryWf := by
  unfold Machine.peerSend
  extract_lets
  split
  · exact wf.answer
  · exact .ite wf.answer (.ite wf.at_ wf.answer)

theorem peerToken {s : State} {die : Nat} {p : Packet} (wf : s.memoryWf) : (Machine.peerToken s die p).memoryWf := by
  unfold Machine.peerToken
  extract_lets
  split
  · exact wf.at_
  · exact wf.at_
  · exact wf.at_
  · split
    · exact wf.at_
    · exact wf.lateReply

theorem peerTime {s : State} {die : Nat} {p : Packet} (wf : s.memoryWf) : (Machine.peerTime s die p).memoryWf := by
  unfold Machine.peerTime
  extract_lets d core who w admitted
  clear_value w
  have admits {k : Nat → State} {no : Nat → State} (hk : ∀ w, (k w).memoryWf) (hno : ∀ c, (no c).memoryWf) :
      (admitted k no).memoryWf := by
    unfold admitted
    split
    · exact .ite (hno _) (hk _)
    · exact .ite (hno _) (hk _)
  clear_value admitted
  split
  · refine admits (fun _ => ?_) fun _ => ?_
    · exact wf.at_
    · exact wf.answer
  · refine admits (fun _ => ?_) fun _ => ?_
    · exact wf.at_
    · exact wf.dropStray
  · refine .ite wf.at_ ?_
    split
    · exact wf.at_
    · exact .getD (fun _ => wf.sendPacket) wf
  · exact wf.at_

theorem execRemoteRequestArrival {die : Nat} {p : Packet} {s : State} (wf : s.memoryWf) :
    nextWf (Machine.execRemoteRequestArrival die p s) :=
  next (by
    split
    · exact wf.peerAccess
    · split
      · exact wf.peerSend
      · split
        · exact wf.peerToken
        · split
          · exact .ite wf.redAnswer wf.at_
          · split
            · exact wf.at_
            · split
              · exact wf.peerTime
              · split
                · exact wf.at_
                · exact wf.dropPacket)

theorem gsendArrival {s : State} {cl : Nat} {fin : Bool} {p : Packet} (wf : s.memoryWf) :
    (Machine.gsendArrival s cl fin p).memoryWf :=
  .ite wf.destAnswer (wf.freshId.modCluster fun _ => by rfl).destStep

theorem execObjectPacketArrival {cluster : Nat} {p : Packet} {s : State} (wf : s.memoryWf) :
    nextWf (Machine.execObjectPacketArrival cluster p s) :=
  wf.gsendArrival.next

theorem gsendLate {s : State} {cluster : Nat} {p : Packet} (wf : s.memoryWf) :
    (Machine.gsendLate s cluster p).memoryWf :=
  wf.lateReply

theorem execGsendAckArrival {cluster : Nat} {p : Packet} {s : State} (wf : s.memoryWf) :
    nextWf (Machine.execGsendAckArrival cluster p s) := by
  unfold Machine.execGsendAckArrival
  split
  · exact wf.gsendLate.next
  · extract_lets s1
    have hs1 : s1.memoryWf := wf.freeTag
    exact .ite hs1.gStop.next hs1.gAnswer.next

theorem execGsendFinishArrival {cluster : Nat} {p : Packet} {s : State} (wf : s.memoryWf) :
    nextWf (Machine.execGsendFinishArrival cluster p s) :=
  wf.gsendArrival.next

theorem execGsendDoneArrival {cluster : Nat} {p : Packet} {s : State} (wf : s.memoryWf) :
    nextWf (Machine.execGsendDoneArrival cluster p s) := by
  unfold Machine.execGsendDoneArrival
  split
  · exact wf.gsendLate.next
  · extract_lets s1
    have hs1 : s1.memoryWf := wf.freeTag
    exact .ite hs1.gStop.next hs1.modReq.gAnswer.next

theorem ltThaw {s : State} {c : Nat} (wf : s.memoryWf) : (Machine.ltThaw s c).memoryWf :=
  .ite wf.ltPublish wf

theorem discardSlot {s : State} {k : Nat} (wf : s.memoryWf) : (Machine.discardSlot s k).memoryWf := by
  unfold Machine.discardSlot
  extract_lets sl held s1 s2
  have hs2 : s2.memoryWf := wf.addAborted.releaseSlot
  exact .ite hs2.ltThaw hs2

theorem endTrapped {s : State} {k : Nat} (wf : s.memoryWf) : (Machine.endTrapped s k).memoryWf := by
  unfold Machine.endTrapped
  extract_lets s2 s1
  have hs2 : s2.memoryWf := wf.modSlot
  have hs1 : s1.memoryWf := .ite (.ite hs2.toState hs2) wf
  exact hs1.beside (by rfl)

theorem trapAt {s : State} {row cause : Nat} {val : Word} (wf : s.memoryWf) :
    (Machine.trapAt s row cause val).memoryWf := by
  unfold Machine.trapAt
  extract_lets s1
  have hs1 : s1.memoryWf := wf.takeTrapAt
  exact hs1.beside (by rfl)

theorem trapOut {s : State} {row cause : Nat} {val : Word} (wf : s.memoryWf) :
    nextWf (Machine.trapOut s row cause val) :=
  wf.trapAt.next

theorem guardX {s : State} {d : Reg} {k : Out} (h : s.memoryWf) (hk : nextWf k) : nextWf (Machine.guardX s d k) :=
  .ite h.trapOut hk

theorem writeX {s : State} {d : Reg} {w : Word} (wf : s.memoryWf) : nextWf (Machine.writeX s d w) :=
  wf.guardX wf.modMe.next

theorem longDivide {f : Word → Word → Word} {d a b : Reg} {s : State} (wf : s.memoryWf) :
    nextWf (Machine.longDivide f d a b s) :=
  wf.guardX wf.modMe.park.at_.next

theorem shiftImm {f : Word → Nat → Word} {d a : Reg} {n : BitVec 6} {s : State} (wf : s.memoryWf) :
    nextWf (Machine.shiftImm f d a n s) :=
  wf.writeX

theorem pointerAdd {d : Reg} {p : Word} {by_ : ℤ} {wrapped : Word} {s : State} (wf : s.memoryWf) :
    nextWf (Machine.pointerAdd d p by_ wrapped s) :=
  wf.guardX (.ite wf.trapOut wf.modMe.next)

theorem branchIf {c : Bool} {o : BitVec 15} {s : State} (wf : s.memoryWf) : nextWf (Machine.branchIf c o s) :=
  wf.modMe.next

theorem dropRead {s : State} {n : BitVec 2} (wf : s.memoryWf) : (s.dropRead n).memoryWf :=
  wf.beside (by rfl)

theorem execSbind {n : BitVec 2} {t : BitVec 3} {a : Reg} {s : State} (wf : s.memoryWf) :
    nextWf (Machine.execSbind n t a s) := by
  unfold Machine.execSbind
  extract_lets
  split
  · exact wf.trapOut
  · split
    · exact wf.trapOut
    · exact .ite wf.trapOut (.ite wf.trapOut (.ite wf.trapOut wf.lsCorrect.claimBanks.modMe.dropRead.tick.next))

theorem sysWrite {n : Nat} {v : Word} {s : State} (wf : s.memoryWf) : (Machine.sysWrite n v s).memoryWf :=
  .ite (wf.modCluster fun _ => by rfl) (.ite (wf.modCore fun _ => by rfl) (.ite wf.modPolder.modMe (.ite wf.modPolder wf.modMe)))

theorem execSets {sn : BitVec 10} {a : Reg} {s : State} (wf : s.memoryWf) : nextWf (Machine.execSets sn a s) :=
  .ite wf.trapOut (.ite wf.trapOut (.ite wf.trapOut (.ite wf.trapOut wf.sysWrite.next)))

theorem fence {o : BitVec 2} {sc : BitVec 3} {eng : Bool} {s : State} (wf : s.memoryWf) :
    nextWf (Machine.fence o sc eng s) := by
  unfold Machine.fence
  extract_lets src r s1
  have hs1 : s1.memoryWf := wf.park
  exact .ite hs1.next hs1.later.next

theorem dropHint {s : State} {n : Nat} (wf : s.memoryWf) : (Machine.dropHint s n).memoryWf :=
  wf.modCore fun _ => by rfl

theorem execBbc {a : Reg} {i : BitVec 15} {s : State} (wf : s.memoryWf) : nextWf (Machine.execBbc a i s) := by
  refine .ite wf.next ?_
  dsimp only
  split
  · rename_i eq
    exact (wf.hintTarget eq).dropHint.next
  · rename_i eq
    have hs0 := wf.hintTarget eq
    split
    · exact next (.ite (hs0.modCluster fun _ => by rfl).next1 (hs0.modCluster fun _ => by rfl))
    · refine next (modCluster ?_ fun _ => by rfl)
      split
      · exact .ite hs0.flushCounter hs0
      · exact hs0

theorem prefetchFill {s : State} {die world : Nat} {t : Target} (wf : s.memoryWf) :
    (Machine.prefetchFill s die world t).memoryWf := by
  unfold Machine.prefetchFill
  extract_lets
  split
  · extract_lets
    split
    · exact wf
    · split
      · rename_i eq
        exact (wf.homeRead eq).startFill
      · exact wf
  · exact .ite wf (.ite wf.startPeerFill wf.dropHint)
  · exact wf.dropHint
  · exact wf.dropHint

theorem prefetch {a : Reg} {p : BitVec 7} {write : Bool} {s : State} (wf : s.memoryWf) :
    nextWf (Machine.prefetch a p write s) := by
  unfold Machine.prefetch
  extract_lets
  split
  · exact wf.dropHint.next
  · split
    · rename_i eq
      exact (wf.hintLeaf eq).dropHint.next
    · rename_i eq
      exact .ite (wf.hintLeaf eq).dropHint.next (.ite (wf.hintLeaf eq).next (wf.hintLeaf eq).prefetchFill.next)

theorem bringLine {s : State} {cl world line : Nat} {t : State} {x : Option (List Word)} (wf : s.memoryWf) :
    Machine.bringLine s cl world line = (t, x) → t.memoryWf := by
  unfold Machine.bringLine
  split
  · rintro ⟨⟩
    exact wf.clusterInsert
  · split
    · rename_i eq
      rintro ⟨⟩
      exact (wf.hintLeaf eq)
    · rename_i eq
      split
      · rename_i eq1
        rintro ⟨⟩
        exact ((wf.hintLeaf eq).codeLine eq1).clusterInsert
      · rename_i eq1
        rintro ⟨⟩
        exact ((wf.hintLeaf eq).codeLine_error eq1)

theorem bringTo {s : State} {level : BitVec 1} {c world line : Nat} {t : State} {x : Bool} (wf : s.memoryWf) :
    Machine.bringTo s level c world line = (t, x) → t.memoryWf := by
  unfold Machine.bringTo
  split
  · rename_i eq
    rintro ⟨⟩
    exact .ite (wf.bringLine eq).icacheInsert (wf.bringLine eq)
  · rename_i eq
    rintro ⟨⟩
    exact (wf.bringLine eq)

theorem execIpref {l : BitVec 1} {a b : Reg} {s : State} (wf : s.memoryWf) : nextWf (Machine.execIpref l a b s) := by
  unfold Machine.execIpref
  extract_lets
  split
  · exact next (.foldl (fun _ _ ht => by
      split
      · rename_i eq
        exact (ht.bringTo eq)
      · rename_i eq
        exact (ht.bringTo eq).dropHint) wf.dropHint)

theorem execIpin {l : BitVec 1} {d a b : Reg} {s : State} (wf : s.memoryWf) : nextWf (Machine.execIpin l d a b s) :=
  wf.guardX (by
    extract_lets k c cl sl old cap s1
    have hs1 : s1.memoryWf := wf.modMe
    split
    · exact (later (.ite (.foldl (fun _ _ ht => ht.bringTo rfl) (.ite (hs1.modCore fun _ => by rfl) (hs1.modCluster fun _ => by rfl))) hs1)).next)

theorem dropTranslations {s t : State} {world lo hi : Nat} {x : List (Nat × Nat)} (h : s.memoryWf) :
    Machine.dropTranslations s world lo hi = (t, x) → t.memoryWf :=
  of_fst' (h.mapClusters (f := fun p => (p.1, { p.2 with tlb := p.2.tlb.filter fun t => !t.overlaps world lo hi })) fun _ => rfl)

theorem tbinv {d : Reg} {world lo hi : Nat} {s : State} (wf : s.memoryWf) : nextWf (Machine.tbinv d world lo hi s) := by
  unfold Machine.tbinv
  extract_lets
  split
  · rename_i eq
    exact (wf.modMe.dropTranslations eq).modDie.next

theorem tbinvCode {d : Reg} {code : Nat} {s : State} (wf : s.memoryWf) : nextWf (Machine.tbinvCode d code s) :=
  wf.modMe.next1.next

theorem singlePass {s : State} {c : Nat} {ps : List Nat} (wf : s.memoryWf) : (Machine.singlePass s c ps).memoryWf :=
  wf.lsCorrect.claimBanks

theorem acquireAtCore {s : State} {c num core : Nat} (wf : s.memoryWf) :
    (Machine.acquireAtCore s c num core).memoryWf := by
  unfold Machine.acquireAtCore
  split
  · exact wf.acquireCtx
  · exact wf

theorem releaseAtCore {s : State} {c num core : Nat} {rel : Bool} (wf : s.memoryWf) :
    (Machine.releaseAtCore s c num core rel).memoryWf := by
  unfold Machine.releaseAtCore
  split
  · split
    · extract_lets s1
      have hs1 : s1.memoryWf := wf.publishCore
      exact .ite hs1.modCtx hs1
    · exact wf
  · exact wf

theorem localPasses {s : State} {r : MemReq} (wf : s.memoryWf) : nextWf (Machine.localPasses s r) := by
  unfold Machine.localPasses
  extract_lets
  split
  · split
    · rename_i eq
      exact .ite (wf.claimBanks.serveChunks eq).modMe.next (wf.claimBanks.serveChunks eq).park.next

theorem localAccess {s : State} {r : MemReq} (wf : s.memoryWf) : nextWf (Machine.localAccess s r) := by
  unfold Machine.localAccess
  extract_lets k c num ps word s0 s1 s1' bs s1'' v s1'''
  have hs0 : s0.memoryWf := wf.singlePass
  have hs1 : s1.memoryWf := .ite hs0.acquireAtCore hs0
  have hs1''' : s1'''.memoryWf := hs0.lsStore.releaseAtCore
  split
  · exact wf.trapOut
  · split
    · exact hs1.modMe.next
    · exact hs0.releaseAtCore.setFe.next
    · exact hs0.releaseAtCore.lsStore.setFe.next
    · exact .ite (hs1.modCore fun _ => by rfl).modMe.next hs0.park.joinWaiters.next
    · exact (modMe (.ite hs1'''.acquireAtCore hs1''')).next
    · exact wf.releaseAtCore.localPasses
    · exact wf.releaseAtCore.localPasses
    · exact wf.releaseAtCore.localPasses
    · exact localPasses (.ite wf.acquireAtCore wf)
    · exact localPasses (.ite wf.acquireAtCore wf)
    · exact localPasses (.ite wf.acquireAtCore wf)
    · exact localPasses (.ite wf.acquireAtCore wf)
    · exact localPasses (.ite wf.acquireAtCore wf)
    · exact localPasses (.ite wf.acquireAtCore wf)
    · exact localPasses (.ite wf.acquireAtCore wf)
    · exact localPasses (.ite wf.acquireAtCore wf)
    · exact localPasses (.ite wf.acquireAtCore wf)
    · exact localPasses (.ite wf.acquireAtCore wf)
    · exact localPasses (.ite wf.acquireAtCore wf)
    · exact localPasses (.ite wf.acquireAtCore wf)

theorem countSample {s : State} {c : Nat} {r : MemReq} {t : State} {x : Bool} (wf : s.memoryWf) :
    Machine.countSample s c r = (t, x) → t.memoryWf := by
  unfold Machine.countSample
  dsimp only
  split
  · split
    · rintro ⟨⟩
      exact wf.modCore fun _ => by rfl
    · rintro ⟨⟩
      exact wf
  · split
    · rintro ⟨⟩
      exact wf.modCore fun _ => by rfl
    · rintro ⟨⟩
      exact wf
  · split
    · rintro ⟨⟩
      exact wf.modCore fun _ => by rfl
    · rintro ⟨⟩
      exact wf
  · split
    · rintro ⟨⟩
      exact wf.modCore fun _ => by rfl
    · rintro ⟨⟩
      exact wf
  · split
    · rintro ⟨⟩
      exact wf.modCore fun _ => by rfl
    · rintro ⟨⟩
      exact wf
  · split
    · rintro ⟨⟩
      exact wf.modCore fun _ => by rfl
    · rintro ⟨⟩
      exact wf
  · split
    · rintro ⟨⟩
      exact wf.modCore fun _ => by rfl
    · rintro ⟨⟩
      exact wf

theorem beginAccess {s : State} {r : MemReq} (wf : s.memoryWf) : nextWf (Machine.beginAccess s r) := by
  unfold Machine.beginAccess
  extract_lets
  split
  · exact wf.localAccess
  · split
    · rename_i eq
      extract_lets
      split
      · exact wf.trapOut
      · rename_i eq1
        exact ((wf.countSample eq).translateReq eq1).park.queueMiss.next
      · rename_i eq1
        exact ((wf.countSample eq).translateReq eq1).park.accessTranslated.next

theorem alignedAccess {s : State} {r : MemReq} {unit : Nat} (wf : s.memoryWf) :
    nextWf (Machine.alignedAccess s r unit) :=
  .ite wf.trapOut wf.beginAccess

theorem execVldd {m : MemF} {s : State} (wf : s.memoryWf) : nextWf (Machine.execVldd m s) :=
  .ite wf.trapOut (.ite wf.trapOut (.ite wf.trapOut wf.beginAccess))

theorem laneAccess {s : State} {op : MemOp} {m : MrrF} {data : List Byte} (wf : s.memoryWf) :
    nextWf (Machine.laneAccess s op m data) := by
  unfold Machine.laneAccess
  extract_lets
  split
  · exact wf.trapOut
  · exact wf.localAccess

theorem atomic {f : Nat} {m : AmoF} {s : State} (wf : s.memoryWf) : nextWf (Machine.atomic f m s) :=
  wf.guardX wf.alignedAccess

theorem retryOut {s : State} (wf : s.memoryWf) : nextWf (Machine.retryOut s) :=
  (wf.beside (by rfl)).next

theorem execSend {r : BitVec 1} {mb : BitVec 4} {d a b c : Reg} {s : State} (wf : s.memoryWf) :
    nextWf (Machine.execSend r mb d a b c s) :=
  wf.guardX (by
    extract_lets k die dst module core sl v me rel sig msg tok s1
    have hs1 : s1.memoryWf := wf.modMe
    split
    · exact wf.trapOut
    · split
      · split
        · exact hs1.laterAfter.next
        · split
          · exact wf.retryOut
          · rename_i eq
            exact .ite (hs1.drawTag eq).next (hs1.drawTag eq).laterAfter.next
      · split
        · exact hs1.next1.next
        · split
          · exact wf.retryOut
          · rename_i eq
            exact next (.getD (fun _ => (hs1.drawTag eq).sendPacket) (hs1.drawTag eq)))

theorem checkMail {s : State} {c mask k : Nat} (wf : s.memoryWf) : (Machine.checkMail s c mask k).memoryWf :=
  .ite wf (.foldl (fun _ _ ht => by
    extract_lets u
    have hu : u.memoryWf := ht.correct (fun _ ht' => ht'.countCore)
    exact .ite (hu.modCore fun _ => by rfl).dropPoisoned hu) wf)

theorem execRecv {q : BitVec 1} {d a : Reg} {s0 : State} (wf : s0.memoryWf) : nextWf (Machine.execRecv q d a s0) := by
  unfold Machine.execRecv
  extract_lets k c mask acq s
  have hs : s.memoryWf := wf.checkMail
  split
  · exact hs.trapOut
  · split
    · split
      · extract_lets s1
        have hs1 : s1.memoryWf := hs.modCore fun _ => by rfl
        exact (modMe (.ite hs1.acquireCtx hs1)).next
      · exact hs.next
    · exact (hs.park.modCore fun _ => by rfl).next

theorem issueReq {s : State} {r : CopyReq} {wait : Bool} (wf : s.memoryWf) : nextWf (Machine.issueReq s r wait) := by
  unfold Machine.issueReq
  extract_lets s0 s1
  have hs0 : s0.memoryWf := wf.freshId
  have hs1 : s1.memoryWf := hs0.kickArrive
  exact .ite (next (.ite hs1.park hs1)) hs0.park.next

theorem issueJob {s : State} {j : Job} {wait : Bool} (wf : s.memoryWf) : nextWf (Machine.issueJob s j wait) := by
  unfold Machine.issueJob
  extract_lets s0 s1
  have hs0 : s0.memoryWf := wf.freshId
  have hs1 : s1.memoryWf := hs0.jobArrive
  exact .ite (next (.ite hs1.park hs1)) hs0.park.next

theorem execQpush {n : BitVec 4} {d a : Reg} {s : State} (wf : s.memoryWf) : nextWf (Machine.execQpush n d a s) :=
  wf.guardX (by
    extract_lets
    split
    · exact wf.modMe.next1.next
    · split
      · exact wf.trapOut
      · split
        · exact wf.trapOut
        · split
          · exact wf.trapOut
          · exact wf.park.askRing.next)

theorem execMhint {a : Reg} {s : State} (wf : s.memoryWf) : nextWf (Machine.execMhint a s) := by
  unfold Machine.execMhint
  extract_lets
  split
  · exact wf.next
  · split
    · exact wf.modEngine.at_.next
    · exact wf.modEngine.next
    · exact wf.modEngine.next
    · exact .ite wf.modEngine.at_.next wf.next
    · exact wf.modEngine.at_.next

theorem execSpawn {i : BitVec 1} {d a b c : Reg} {s : State} (wf : s.memoryWf) :
    nextWf (Machine.execSpawn i d a b c s) :=
  wf.guardX (by
    extract_lets k core sl e dn code h prio r s1
    have hs1 : s1.memoryWf := wf.modMe
    split
    · exact hs1.later.next
    · split
      · exact hs1.placeUrgent.modMe.modLaunch.later.next
      · split
        · rename_i eq
          exact (hs1.pushRecord eq).modMe.modLaunch.later.next
        · exact hs1.spillFailed.later.next)

theorem drainOut {s : State} {r : MemReq} (wf : s.memoryWf) : nextWf (Machine.drainOut s r) := by
  unfold Machine.drainOut
  extract_lets sl s1
  have hs1 : s1.memoryWf := wf.park
  exact .ite wf.park.next (.ite hs1.next hs1.later.next)

theorem issueGraph {s : State} {kind : CopyKind} {w : BitVec 1} {d : Reg} {ops : List Word} (wf : s.memoryWf) :
    nextWf (Machine.issueGraph s kind w d ops) :=
  wf.guardX wf.issueReq

theorem gstatAt {s : State} {d : Reg} {a : Nat} (wf : s.memoryWf) : nextWf (Machine.gstatAt s d a) :=
  .ite wf.park.later.next wf.beginAccess

theorem stopRequest {s : State} {world a : Nat} (wf : s.memoryWf) : (Machine.stopRequest s world a).memoryWf := by
  unfold Machine.stopRequest
  split
  · exact wf
  · exact .ite wf.modReq (wf.modCluster fun _ => by rfl).sendToken.admitKicks

theorem execGstatStop {d a : Reg} {s : State} (h : s.memoryWf) : nextWf (Machine.execGstatStop d a s) := by
  refine h.guardX (.ite h.trapOut ?_)
  split
  · rename_i eq
    have ht := h.gstatAt _ eq
    exact .ite ht.next ht.stopRequest.next
  · exact h.gstatAt

theorem tokenStore {s : State} {m : MrrF} {rd phase : Nat} {t : Word} (wf : s.memoryWf) :
    nextWf (Machine.tokenStore s m rd phase t) :=
  .ite wf.trapOut (.ite wf.trapOut wf.beginAccess)

theorem xredEnd {s : State} {r : MemReq} {code : Nat} (wf : s.memoryWf) : nextWf (Machine.xredEnd s r code) :=
  wf.modMe.xredCode.next

theorem xredLocal {s : State} {r : MemReq} (wf : s.memoryWf) : nextWf (Machine.xredLocal s r) := by
  unfold Machine.xredLocal
  extract_lets c num ps s0
  have hs0 : s0.memoryWf := wf.singlePass.flushSttk
  split
  · exact wf.xredEnd
  · split
    · exact wf.retryOut
    · rename_i eq
      exact (hs0.xredSend eq).modMe.xredCode.next

theorem xredMemory {s : State} {r : MemReq} (wf : s.memoryWf) : nextWf (Machine.xredMemory s r) := by
  unfold Machine.xredMemory
  extract_lets
  split
  · exact wf.xredEnd
  · rename_i eq
    exact (wf.translateReq eq).park.queueMiss.next
  · rename_i eq
    exact (wf.translateReq eq).park.flushSttk.accessTranslated.next

theorem xred {op : Nat} {x : XredF} {s : State} (wf : s.memoryWf) : nextWf (Machine.xred op x s) :=
  wf.guardX (.ite wf.xredEnd (.ite wf.xredEnd (.ite wf.xredLocal wf.xredMemory)))

theorem ltCheck {s : State} {k : Out} (wf : s.memoryWf) (hk : nextWf k) : nextWf (Machine.ltCheck s k) :=
  .ite wf.trapOut hk

theorem ltEnter {s : State} {c world : Nat} (wf : s.memoryWf) : (Machine.ltEnter s c world).memoryWf :=
  wf.modCore fun _ => by rfl

theorem execLtset {d a : Reg} {s : State} (wf : s.memoryWf) : nextWf (Machine.execLtset d a s) :=
  wf.guardX (wf.ltCheck (by
    extract_lets c v s1
    have hs1 : s1.memoryWf := wf.ltEnter
    exact .ite hs1.ltRaise.writeX hs1.writeX))

theorem execTide {d : Reg} {s : State} (wf : s.memoryWf) : nextWf (Machine.execTide d s) :=
  wf.guardX (wf.ltCheck (by
    extract_lets c s1
    have hs1 : s1.memoryWf := wf.ltEnter.ltPublish
    exact hs1.writeX))

theorem execTideBound {d a : Reg} {s : State} (wf : s.memoryWf) : nextWf (Machine.execTideBound d a s) :=
  wf.guardX (wf.ltCheck (by
    extract_lets c s1 b s2
    have hs1 : s1.memoryWf := wf.ltEnter
    have hs2 : s2.memoryWf := hs1.modCore fun _ => by rfl
    exact .ite (writeX (.ite hs2.safeRaised hs2)) hs1.writeX))

theorem execTsend {d a b c : Reg} {s : State} (wf : s.memoryWf) : nextWf (Machine.execTsend d a b c s) :=
  wf.guardX (wf.ltCheck (by
    extract_lets
    split
    · exact wf.trapOut
    · extract_lets oc seq s1 s2
      have hs2 : s2.memoryWf := (wf.ltEnter.modCore fun _ => by rfl).modMe
      split
      · exact wf.trapOut
      · split
        · split
          · exact hs2.laterAfter.next
          · split
            · exact wf.retryOut
            · rename_i eq
              exact next (.ite (hs2.drawTag eq) (hs2.drawTag eq).laterAfter)
        · split
          · exact hs2.next1.next
          · split
            · exact wf.retryOut
            · rename_i eq
              exact next (.getD (fun _ => (hs2.drawTag eq).sendPacket) (hs2.drawTag eq))))

theorem execTrecv_block {d : Reg} {s : State} {c : Nat} (wf : s.memoryWf) : nextWf (Machine.execTrecv.block d s c) := by
  unfold Machine.execTrecv.block
  extract_lets s1
  have hs1 : s1.memoryWf := wf.park.modCore fun _ => by rfl
  exact hs1.ltRaise.next

theorem execTrecv {d : Reg} {s : State} (wf : s.memoryWf) : nextWf (Machine.execTrecv d s) := by
  unfold Machine.execTrecv
  extract_lets
  split
  · exact wf.trapOut
  · split
    · exact .ite wf.takeEvent.modMe.next wf.execTrecv_block
    · exact wf.execTrecv_block

theorem execChdcl {k : BitVec 3} {d a b : Reg} {s : State} (wf : s.memoryWf) : nextWf (Machine.execChdcl k d a b s) :=
  wf.guardX (wf.ltCheck (by
    extract_lets c die dst f src ch s1
    have hs1 : s1.memoryWf := wf.ltEnter.modMe.modCore fun _ => by rfl
    split
    · exact wf.trapOut
    · split
      · exact wf.trapOut
      · split
        · split
          · exact hs1.later.next
          · split
            · exact wf.retryOut
            · rename_i eq
              exact next (.ite (hs1.drawTag eq) (hs1.drawTag eq).later)
        · split
          · exact (hs1.modCore fun _ => by rfl).next1.next
          · split
            · exact wf.retryOut
            · rename_i eq
              exact next (.getD (fun _ => (hs1.drawTag eq).sendPacket) (hs1.drawTag eq))))

theorem execLtstat {sel : BitVec 3} {d a : Reg} {s : State} (wf : s.memoryWf) :
    nextWf (Machine.execLtstat sel d a s) :=
  wf.guardX (by
    extract_lets
    split
    · exact wf.writeX
    · exact .ite wf.trapOut wf.writeX)

theorem polderCmd {i : Instr} {d a b : Reg} {s : State} {run : State → Nat → Nat → State × Nat} (wf : s.memoryWf)
    (hrun : ∀ w x, (run s w x).1.memoryWf) : nextWf (Machine.polderCmd i d a b s run) := by
  refine .ite wf.trapOut (wf.guardX ?_)
  extract_lets w r s1
  have ran : r.1.memoryWf := by
    unfold r
    split
    · exact wf
    · exact hrun _ _
  have hs1 : s1.memoryWf := .ite ran.hatPost ran
  exact hs1.modMe.later.next

theorem firstCode {s : State} {codes : List (Bool × Nat)} {done : State} (wf : s.memoryWf) (hdone : done.memoryWf) :
    (Machine.firstCode s codes done).1.memoryWf := by
  unfold Machine.firstCode
  split
  · exact wf
  · exact hdone

theorem polderForm {s : State} {w : Nat} (wf : s.memoryWf) : (Machine.polderForm s w).memoryWf :=
  (wf.beside (by rfl)).modPolder

theorem endSessions {s : State} {w : Nat} (wf : s.memoryWf) : (Machine.endSessions s w).memoryWf :=
  wf.modPolder

theorem freshGranule {s : State} {g : Nat} (h : s.memoryWf) : (Machine.freshGranule s g).memoryWf :=
  ⟨wf_filter _ _ h.1, h.2⟩

theorem grantOne {w : Nat} {s : State} {g : Nat} (wf : s.memoryWf) : (Machine.grantOne w s g).memoryWf := by
  unfold Machine.grantOne
  extract_lets s1
  have hs1 : s1.memoryWf := wf.freshGranule
  exact hs1.beside (by rfl)

theorem dropLinks {s : State} {world q : Nat} (wf : s.memoryWf) : (Machine.dropLinks s world q).memoryWf :=
  wf.modQueue.cancelAll

theorem discardSlots {s : State} {world : Nat} {p : Nat → Bool} (wf : s.memoryWf) :
    (Machine.discardSlots s world p).memoryWf :=
  .foldl (fun _ _ ht => by
    split
    · exact ht
    · exact ht
    · exact ht
    · exact ht.modSlot
    · exact ht.discardSlot) wf

theorem discardEntry {s : State} {e : CtxEntry} (wf : s.memoryWf) : (Machine.discardEntry s e).memoryWf := by
  unfold Machine.discardEntry
  extract_lets sl h s1 s2
  have hs2 : s2.memoryWf := wf.addAborted.freeContext
  exact taskGone (.ite hs2.endMember hs2)

theorem discardEntries {s : State} {world : Nat} {p : Nat → Bool} (wf : s.memoryWf) :
    (Machine.discardEntries s world p).memoryWf :=
  .foldl (fun _ _ ht => discardEntry (.foldl (fun _ _ ht' => .ite ht'.toState.setSlot ht') ht)) wf

theorem discardRecs {s : State} {world : Nat} {p : Nat → Bool} (h : s.memoryWf) : (Machine.discardRecs s world p).memoryWf := by
  unfold Machine.discardRecs
  extract_lets mine recs s1
  have hs1 : s1.memoryWf := h.mapCores (f := fun c => (c.1, { c.2 with
    deque := c.2.deque.filter fun r => !mine r
    spilled := (c.2.spilled.map fun b => b.filter fun r => !mine r).filter fun b => !b.isEmpty })) fun _ => rfl
  exact hs1.foldl fun _ _ ht => ht.discardRec

theorem discardTasks {s : State} {world : Nat} {p : Nat → Bool} (wf : s.memoryWf) :
    (Machine.discardTasks s world p).memoryWf :=
  wf.discardRecs.discardEntries.discardSlots

theorem abortLaunch {s : State} {world : Nat} {l : Launch} (wf : s.memoryWf) : (Machine.abortLaunch s world l).memoryWf :=
  wf.writeState.modLaunch.cancelAll

theorem hardReset {s : State} {world q : Nat} (wf : s.memoryWf) : (Machine.hardReset s world q).memoryWf := by
  unfold Machine.hardReset
  extract_lets ls s1 s2 s3
  have hs1 : s1.memoryWf := wf.modQueue.modPolder
  have hs2 : s2.memoryWf := dropLinks (hs1.foldl fun _ _ ht => ht.abortLaunch)
  have hs3 : s3.memoryWf := hs2.discardTasks
  exact resetDone (hs3.foldl fun _ _ ht => ht.checkDone)

theorem dropTime {s : State} {w : Nat} (h : s.memoryWf) : (Machine.dropTime s w).memoryWf := by
  unfold Machine.dropTime
  extract_lets left gone
  exact h.mapCores (f := fun p => (p.1, left p.2)) fun p => by
    show (left p.2).ls = p.2.ls
    unfold left
    dsimp only
    split <;> rfl

theorem withdrawContributions {s : State} {world : Nat} (wf : s.memoryWf) :
    (Machine.withdrawContributions s world).memoryWf :=
  .foldl (fun _ _ ht => ht.redAnswer) (.foldl (fun _ _ ht => ht.unholdRequest.setRed) wf)

theorem dropGraphs {s : State} {w : Nat} (wf : s.memoryWf) : (Machine.dropGraphs s w).memoryWf :=
  wf.foldl fun _ _ ht => (ht.modCluster fun _ => by rfl).next1

theorem refuseHeld {s : State} (wf : s.memoryWf) : (Machine.refuseHeld s).memoryWf :=
  wf.foldl fun _ _ ht => ht.dropSluiced.answer

theorem dropHeld {s : State} {w : Nat} (wf : s.memoryWf) : (Machine.dropHeld s w).memoryWf :=
  wf.foldl fun _ _ ht => ht.dropSluiced.modDie.hatPost

theorem drainPolder {s : State} {w : Nat} (wf : s.memoryWf) : (Machine.drainPolder s w).memoryWf := by
  unfold Machine.drainPolder
  extract_lets due s1 s2
  have hs1 : s1.memoryWf := wf.modPolder.at_
  have hs2 : s2.memoryWf := hs1.foldl fun _ _ ht => ht.hardReset
  exact hs2.discardTasks.dropGraphs.refuseHeld.dropHeld.withdrawContributions.dropTime

theorem vOut {s : State} {vs : List (Nat × Vec)} {fl : BitVec 5} (wf : s.memoryWf) : nextWf (Machine.vOut s vs fl) :=
  wf.modMe.next

theorem reduceF {s : State} {v : VF} {terms : List (FVal × BitVec 5)} (wf : s.memoryWf) :
    nextWf (Machine.reduceF s v terms) := by
  unfold Machine.reduceF
  extract_lets
  split
  · exact wf.vOut

theorem vLong {s : State} {lat : Nat} {vs : List (Nat × Vec)} {fl : BitVec 5} (wf : s.memoryWf) :
    nextWf (Machine.vLong s lat vs fl) := by
  unfold Machine.vLong
  extract_lets k due hold s1 s2
  have hs1 : s1.memoryWf := wf.modMe
  have hs2 : s2.memoryWf := by
    unfold s2
    split
    · exact hs1.park
    · exact hs1.park
    · exact hs1
  exact hs2.at_.next

theorem withModulus {s : State} {f : Nat → Out} (h : s.memoryWf) (hf : ∀ q, nextWf (f q)) :
    nextWf (Machine.withModulus s f) :=
  .ite h.trapOut (hf _)

theorem modOp {s : State} {v : VF} {f : Nat → Nat → Nat → Nat} {k : List (Nat × Vec) → Out} (h : s.memoryWf)
    (hk : ∀ l, nextWf (k l)) : nextWf (Machine.modOp s v f k) :=
  h.withModulus fun _ => hk _

theorem execStewardCollect {core num : Nat} {s : State} (wf : s.memoryWf) :
    nextWf (Machine.execStewardCollect core num s) := by
  unfold Machine.execStewardCollect
  split
  · exact .ite wf.releaseSlot.ltThaw.next wf.next
  · exact ((releaseSlot (by
      split
      · exact wf.setSlot
      · exact wf)).ltThaw).next
  · exact wf.next

theorem execDebugStop {core num : Nat} {s : State} (wf : s.memoryWf) : nextWf (Machine.execDebugStop core num s) := by
  unfold Machine.execDebugStop
  split
  · exact .ite wf.stopSlot.next (.ite wf.modSlot.next wf.next)
  · extract_lets s1
    have hs1 : s1.memoryWf := wf.modEntryAt
    exact next (by
      split
      · exact hs1.modSlot
      · exact hs1)

theorem execDebugContextAccess {slot off : Nat} {write : Option Word} {s : State} (wf : s.memoryWf) :
    nextWf (Machine.execDebugContextAccess slot off write s) := by
  unfold Machine.execDebugContextAccess
  split
  · exact wf.next
  · split
    · exact (wf.beside (by rfl)).next
    · exact wf.modSlot.next

theorem withHbm {s : State} {m : NMap HbmLine} (wf : s.memoryWf) : ({ s with hbm := m } : State).memoryWf := wf

theorem execHbmWriteBack {line : Nat} {s : State} (wf : s.memoryWf) : nextWf (Machine.execHbmWriteBack line s) := by
  unfold Machine.execHbmWriteBack
  split
  · exact wf.next
  · split
    · exact wf.next
    · have zeroed : (s.pokeMem (line * 64) (List.replicate 64 0)).memoryWf := wf.pokeMem
      exact zeroed.withHbm.next

theorem execLaunchTailWrite {world queue tail : Nat} {s : State} (wf : s.memoryWf) :
    nextWf (Machine.execLaunchTailWrite world queue tail s) :=
  .ite wf.modPolder.next wf.modQueue.next1.next

theorem softLaunch {s : State} {world : Nat} {l : Launch} (wf : s.memoryWf) :
    (Machine.softLaunch s world l).memoryWf :=
  .ite wf.failLaunch (.ite (modLaunch (.foldl (fun _ _ ht => ht.endMember) wf)).checkDone wf)

theorem softReset {s : State} {world q : Nat} (wf : s.memoryWf) : (Machine.softReset s world q).memoryWf :=
  (dropLinks (.foldl (fun _ _ ht => by
    split
    · exact ht.softLaunch
    · exact ht) wf.modQueue.modPolder)).resetDone

theorem execVfFaultRead {world : Nat} {s : State} (wf : s.memoryWf) : nextWf (Machine.execVfFaultRead world s) := by
  unfold Machine.execVfFaultRead
  split
  · exact (wf.beside (by rfl)).next
  · exact (tick (by
      extract_lets src
      have hsrc : src.memoryWf := wf.modPolder
      exact hsrc.beside (by rfl))).next

theorem execVfRegisterWrite {world off : Nat} {value : Word} {s : State} (wf : s.memoryWf) :
    nextWf (Machine.execVfRegisterWrite world off value s) := by
  refine .ite wf.execLaunchTailWrite (.ite (next ?soft) (.ite (next ?hard) wf.next))
  case soft => exact wf.foldl fun _ _ ht => ht.softReset
  case hard => exact wf.foldl fun _ _ ht => ht.hardReset

theorem execHostTaskPush {world : Nat} {task : HostTask} {s : State} (wf : s.memoryWf) :
    nextWf (Machine.execHostTaskPush world task s) := by
  unfold Machine.execHostTaskPush
  extract_lets
  split
  · exact wf.next
  · split
    · exact wf.next
    · split
      · exact wf.stewardNote.next
      · split
        · exact wf.modLaunch.placeUrgent.next
        · split
          · exact wf.spillFailed.next
          · rename_i eq
            exact (wf.pushRecord eq).modLaunch.next

theorem execStewardWalkReply {die world key : Nat} {answer : WalkAnswer} {s : State} (wf : s.memoryWf) :
    nextWf (Machine.execStewardWalkReply die world key answer s) := by
  unfold Machine.execStewardWalkReply
  extract_lets
  split
  · exact wf.next
  · exact .ite wf.next (.ite wf.modDie.next (.ite wf.leafFound.admitAll.next wf.walkFault.admitAll.next))

theorem execDieLinkDown {a b : Nat} {s : State} (wf : s.memoryWf) : nextWf (Machine.execDieLinkDown a b s) := by
  unfold Machine.execDieLinkDown
  extract_lets l s1 s2
  have hs2 : s2.memoryWf := (wf.beside (by rfl)).hatPost.hatPost
  exact .ite (hs2.beside (by rfl)).next wf.next

theorem bootFrom {stage n : Nat} {s : State} (h : s.memoryWf) : (Machine.bootFrom stage n s).memoryWf := by
  induction n generalizing stage s with
  | zero => exact h
  | succ n ih => exact .ite (ih h) h

theorem boot {s : State} (wf : s.memoryWf) : (Machine.boot s).memoryWf :=
  (wf.beside (by rfl)).bootFrom

theorem cleared {s : State} : (Machine.cleared s).memoryWf := ⟨rfl, nofun, nofun⟩

theorem warmCleared {s : State} : (Machine.warmCleared s).memoryWf :=
  beside (s := Machine.cleared s) cleared rfl

theorem execSpdmRequest {fn : Nat} {body : List Word} {s : State} (wf : s.memoryWf) :
    nextWf (Machine.execSpdmRequest fn body s) :=
  .ite wf.next (.ite (wf.beside (by rfl)).next (.ite ((tick (by
    extract_lets src src'
    have hsrc' : src'.memoryWf := .ite (wf.beside (by rfl)) wf.modPolder
    exact hsrc'.beside (by rfl))).next) (.ite (next (.ite (wf.beside (by rfl)) wf.modPolder)) (wf.beside (by rfl)).tick.next)))

theorem execVfFunctionLevelReset {world : Nat} {s : State} (wf : s.memoryWf) :
    nextWf (Machine.execVfFunctionLevelReset world s) :=
  (withdrawContributions (.foldl (fun _ _ ht => ht.hardReset.modQueue) wf)).next

theorem execMigrationPrepare {world : Nat} {source : Bool} {s : State} (wf : s.memoryWf) :
    nextWf (Machine.execMigrationPrepare world source s) :=
  .ite (.ite (migNote (.foldl (fun _ _ ht => ht.hardReset) wf.setMig)).next wf.next) (.ite (((tick (by
    extract_lets src
    have hsrc : src.memoryWf := wf.polderForm.setMig
    exact hsrc.beside (by rfl))).migNote).next) wf.next)

theorem takeLines {w n : Nat} {s : State} {ws : List Word} (h : s.memoryWf) : (Machine.takeLines w s n ws).memoryWf := by
  induction n generalizing s ws with
  | zero => exact h
  | succ n ih =>
    cases ws with
    | nil => exact h
    | cons a r =>
      refine ih (.ite ?_ h)
      split
      · rename_i eq
        exact h.homeWrite eq
      · exact h

theorem execMigrationTransfer {world : Nat} {m : MigMsg} {s : State} (wf : s.memoryWf) :
    nextWf (Machine.execMigrationTransfer world m s) :=
  .ite wf.next (.ite wf.setMig.migNote.next (.ite wf.setMig.modPolder.takeLines.migNote.next wf.next))

theorem execMigrationErase {m : MigMsg} {s : State} (wf : s.memoryWf) : nextWf (Machine.execMigrationErase m s) := by
  unfold Machine.execMigrationErase
  extract_lets p s1
  have hs1 : s1.memoryWf := wf.drainPolder
  clear_value s1
  exact .ite (hs1.beside (by rfl)).modPolder.migNote.next wf.next

theorem fromOrchestrator {s : State} {m : MigMsg} {k : Out} (wf : s.memoryWf) (hk : nextWf k) :
    nextWf (Machine.fromOrchestrator s m k) :=
  .ite hk wf.modPolder.next

theorem endWindow {s : State} {w : Nat} (wf : s.memoryWf) : (Machine.endWindow s w).memoryWf :=
  wf.beside (by rfl)

theorem stateError {s : State} {w : Nat} (wf : s.memoryWf) : (Machine.stateError s w).memoryWf :=
  wf.boardReport

theorem execMigrationCommit {m : MigMsg} {s : State} (wf : s.memoryWf) : nextWf (Machine.execMigrationCommit m s) :=
  wf.fromOrchestrator (.ite wf.endWindow.modPolder.wakeQueues.migNote.next wf.stateError.next)

theorem execMigrationAbort {m : MigMsg} {source : Bool} {s : State} (wf : s.memoryWf) :
    nextWf (Machine.execMigrationAbort m source s) := by
  refine wf.fromOrchestrator (.ite (.ite wf.setMig.wakeQueues.migNote.next wf.stateError.next) (.ite ?_ wf.stateError.next))
  have drained {p : Nat} : (Machine.setMig (Machine.drainPolder (Machine.endWindow s p) p) p .none).memoryWf :=
    wf.endWindow.drainPolder.setMig
  exact next (migNote (.ite drained.modPolder drained))

theorem alarm {s : State} {dies : List Nat} {kind : Nat} (h : s.memoryWf) : (Machine.alarm s dies kind).memoryWf := by
  unfold Machine.alarm
  extract_lets ws v mark markE s1
  have hs1 : s1.memoryWf := h.mapClusters (f := fun p => (p.1, { p.2 with
    cache := p.2.cache.map markE, spilled := p.2.spilled.map markE })) fun _ => rfl
  exact foldl (f := fun t d => Machine.hatPost t d 0x07 0 (dieEndpoint t d) 0 v) (fun _ _ ht => ht) hs1

theorem execThermalTrip {die : Nat} {s : State} (wf : s.memoryWf) : nextWf (Machine.execThermalTrip die s) := by
  unfold Machine.execThermalTrip
  extract_lets s1
  have hs1 : s1.memoryWf := wf.hatPost.boardReport
  exact (hs1.beside (by rfl)).next

theorem assemble {s : State} {port : Nat} (wf : s.memoryWf) : (Machine.assemble s port).memoryWf := by
  unfold Machine.assemble
  extract_lets fs n s1
  have hs1 : s1.memoryWf := wf.modLink
  split
  · exact wf
  · split
    · split
      · exact hs1.next1
      · exact hs1.dropMalformed
    · exact wf

theorem linkDown {s : State} {port : Nat} (wf : s.memoryWf) : (Machine.linkDown s port).memoryWf := by
  unfold Machine.linkDown
  extract_lets l lost src s1 s2 ep src'
  have hsrc' : src'.memoryWf := wf.setLink.modDie.hatPost
  exact hsrc'.beside (by rfl)

theorem resyncFailed {s : State} {port : Nat} (wf : s.memoryWf) : (Machine.resyncFailed s port).memoryWf :=
  .ite wf.linkDown wf.modLink

theorem tagFailed {s : State} {port : Nat} (wf : s.memoryWf) : (Machine.tagFailed s port).memoryWf := by
  unfold Machine.tagFailed
  extract_lets l s1
  have hs1 : s1.memoryWf := wf.modLink
  exact .ite (.ite hs1.resyncFailed hs1) wf.modLink

theorem execLinkFrameReceive {port : Nat} {f : Frame} {s : State} (wf : s.memoryWf) :
    nextWf (Machine.execLinkFrameReceive port f s) := by
  unfold Machine.execLinkFrameReceive
  extract_lets l s1
  have hs1 : s1.memoryWf := wf.modLink
  exact .ite wf.next (.ite (.ite hs1.modLink.assemble.next hs1.next) (.ite wf.tagFailed.next wf.next))

theorem execLinkResync {port : Nat} {shared : Option (List Word)} {s : State} (wf : s.memoryWf) :
    nextWf (Machine.execLinkResync port shared s) := by
  unfold Machine.execLinkResync
  split
  · split
    · exact wf.modLink.hatPost.next
    · exact wf.resyncFailed.next
  · exact wf.next

theorem loadBytes {w : Nat} {s : State} {x : Nat × List Byte} (wf : s.memoryWf) :
    (Machine.loadBytes w s x).memoryWf := by
  unfold Machine.loadBytes
  split
  · split
    · rename_i eq
      exact (wf.homeWrite eq)
    · exact wf
  · exact wf

theorem placeShares {s : State} {p : Program} (wf : s.memoryWf) : (Machine.placeShares s p).memoryWf :=
  .foldl (fun _ _ ht => by
    split
    · exact ht.setShare
    · exact ht) wf

theorem loadRecord {s : State} {p : Program} (wf : s.memoryWf) : (Machine.loadRecord s p).memoryWf := by
  unfold Machine.loadRecord
  split
  · rename_i eq
    exact (wf.devWrite eq)
  · exact wf

theorem loadTypes {s : State} {p : Program} (wf : s.memoryWf) : (Machine.loadTypes s p).memoryWf :=
  .ite wf (.ite (.foldl (fun _ _ ht => by
    split
    · rename_i eq
      exact (ht.devRelease eq)
    · exact ht) wf) (.foldl (fun _ _ ht => ht.publishHome) wf.loadBytes.modPolder))

theorem loadRings {w cl : Nat} {xs : List (Nat × Nat × Nat × Nat)} {s t : State} (h : s.memoryWf) :
    Machine.loadRings w cl xs s = some t → t.memoryWf := by
  induction xs generalizing s with
  | nil => rintro ⟨⟩; exact h
  | cons x xs ih =>
    unfold Machine.loadRings
    split
    · exact ih h.modRing
    · nofun

theorem loadAllRings {p : Program} {cls : List Nat} {s t : State} (h : s.memoryWf) :
    Machine.loadAllRings p cls s = some t → t.memoryWf := by
  induction cls generalizing s with
  | nil => rintro ⟨⟩; exact h
  | cons cl cls ih =>
    intro eq
    obtain ⟨u, first, rest⟩ := Option.bind_eq_some_iff.mp eq
    exact ih (h.loadRings first) rest

theorem loadChannel {s : State} {w c k src f : Nat} (h : s.memoryWf) : (Machine.loadChannel s w c k src f).memoryWf := by
  unfold Machine.loadChannel
  extract_lets ch s1
  have hs1 : s1.memoryWf := .ite (h.ltEnter.modCore fun _ => by rfl) h
  exact .ite (hs1.modCore (fun _ => ls_enterChannel ..)) hs1

theorem loadChannels {w : Nat} {cores : List Nat} {xs : List (Nat × Nat × Nat × Nat)} {s t : State} (h : s.memoryWf) :
    Machine.loadChannels w cores xs s = .ok t → t.memoryWf := by
  induction xs generalizing s with
  | nil => rintro ⟨⟩; exact h
  | cons x xs ih =>
    unfold Machine.loadChannels
    split
    · extract_lets f code
      split
      · nofun
      split
      · nofun
      · exact ih h.loadChannel
    · nofun

theorem loadMail {w c : Nat} {s : State} (wf : s.memoryWf) : (Machine.loadMail w s c).memoryWf :=
  .ite (wf.modCore fun _ => by rfl) wf

theorem loadImage {p : Program} {s : State} {c : Nat} (wf : s.memoryWf) : (Machine.loadImage p s c).memoryWf :=
  .ite wf (wf.lsStore.foldl fun _ _ ht => ht.setFe)

theorem loadParts {s : State} {p : Program} {t : State} (wf : s.memoryWf) :
    Machine.loadParts s p = .ok t → t.memoryWf := by
  unfold Machine.loadParts
  dsimp only
  split
  · nofun
  · split
    · nofun
    · rename_i eq
      have mailed {cs : List Nat} : (cs.foldl (Machine.loadMail p.world) (Machine.placeShares s p)).memoryWf :=
        wf.placeShares.foldl fun _ _ ht => ht.loadMail
      exact loadChannels ((mailed.loadBytes.modPolder.loadTypes.loadAllRings eq).foldl fun _ _ ht => ht.loadImage)

theorem execProgramLoad {p : Program} {s : State} (wf : s.memoryWf) : nextWf (Machine.execProgramLoad p s) := by
  unfold Machine.execProgramLoad
  extract_lets s0
  have hs0 : s0.memoryWf := modPolder (.foldl (fun _ _ ht => ht.loadBytes) wf)
  split
  · exact wf.next
  · split
    · exact wf.loadRecord.writeState.launchReport.next
    · split
      · exact hs0.loadRecord.writeState.launchReport.next
      · rename_i eq
        exact (hs0.loadParts eq).loadRecord.modQueue.next1.next

theorem execWsetForm {d a b : Reg} {s : State} (wf : s.memoryWf) : nextWf (Machine.execWsetForm d a b s) :=
  wf.polderCmd fun _ _ => wf.firstCode wf.polderForm

theorem execWsetGrant {d a b : Reg} {s : State} (wf : s.memoryWf) : nextWf (Machine.execWsetGrant d a b s) :=
  wf.polderCmd fun _ _ => wf.firstCode (endSessions (.foldl (fun _ _ hu => hu.grantOne) wf))

theorem execWsetReclaim {d a b : Reg} {s : State} (wf : s.memoryWf) : nextWf (Machine.execWsetReclaim d a b s) :=
  wf.polderCmd fun _ _ => wf.firstCode (wf.beside (by rfl))

theorem execWsetShare {d a b : Reg} {s : State} (wf : s.memoryWf) : nextWf (Machine.execWsetShare d a b s) :=
  wf.polderCmd fun _ _ => wf.firstCode wf.setShare

theorem execWsetPeer {d a b : Reg} {s : State} (wf : s.memoryWf) : nextWf (Machine.execWsetPeer d a b s) := by
  refine wf.polderCmd fun _ _ => ?_
  dsimp only
  split
  · exact wf
  · split
    · exact wf
    · exact wf.firstCode wf.modPolder.endSessions

theorem execWsetSeal {d a b : Reg} {s : State} (wf : s.memoryWf) : nextWf (Machine.execWsetSeal d a b s) :=
  wf.polderCmd fun _ _ => wf.firstCode wf.modPolder

theorem execWsetDrain {d a b : Reg} {s : State} (wf : s.memoryWf) : nextWf (Machine.execWsetDrain d a b s) :=
  wf.polderCmd fun _ _ => wf.firstCode wf.drainPolder

theorem execWsetFree {d a b : Reg} {s : State} (wf : s.memoryWf) : nextWf (Machine.execWsetFree d a b s) :=
  wf.polderCmd fun _ _ => wf.firstCode wf.freePolder

theorem execWsealGenerate {d a b : Reg} {s : State} (wf : s.memoryWf) : nextWf (Machine.execWsealGenerate d a b s) :=
  wf.polderCmd fun _ _ => wf.firstCode wf.modPolder.tick.tick.tick

theorem execWsealInstall {d a b : Reg} {s : State} (wf : s.memoryWf) : nextWf (Machine.execWsealInstall d a b s) := by
  refine wf.polderCmd fun _ _ => ?_
  split
  · exact wf
  · split
    · exact wf
    · exact wf.firstCode wf.modPolder

theorem execWsealDestroy {d a b : Reg} {s : State} (wf : s.memoryWf) : nextWf (Machine.execWsealDestroy d a b s) :=
  wf.polderCmd fun _ _ => wf.firstCode wf.modPolder

theorem execFence {o : BitVec 2} {c : BitVec 3} {s : State} (wf : s.memoryWf) : nextWf (Machine.execFence o c s) := by
  unfold Machine.execFence
  exact wf.fence

theorem execVst {m : MemF} {s : State} (wf : s.memoryWf) : nextWf (Machine.execVst m s) := by
  unfold Machine.execVst
  exact wf.alignedAccess

theorem execVbfly {v : VF} {s : State} (wf : s.memoryWf) : nextWf (Machine.execVbfly v s) :=
  wf.withModulus fun _ => by
    dsimp only
    exact wf.vLong

theorem execVmodadd {v : VF} {s : State} (wf : s.memoryWf) : nextWf (Machine.execVmodadd v s) :=
  wf.modOp fun _ => wf.vOut

theorem execVmodsub {v : VF} {s : State} (wf : s.memoryWf) : nextWf (Machine.execVmodsub v s) :=
  wf.modOp fun _ => wf.vOut

theorem execVmodmul {v : VF} {s : State} (wf : s.memoryWf) : nextWf (Machine.execVmodmul v s) :=
  wf.modOp fun _ => wf.vLong

theorem execColdReset {s : State} : nextWf (Machine.execColdReset s) :=
  cleared.boot.next

theorem execWarmReset {s : State} : nextWf (Machine.execWarmReset s) :=
  warmCleared.boot.next

theorem execPfFunctionLevelReset {s : State} : nextWf (Machine.execPfFunctionLevelReset s) :=
  warmCleared.boot.next

theorem exec {i : Instr} {s : State} (wf : s.memoryWf) : nextWf (Machine.exec i s) := by
  cases i with
  | add | sub | and | or | xor | sll | srl | sra | slt | sltu | min | max | minu | maxu | mul | mulh | mulhu
    | clz | ctz | popc | addi | andi | ori | xori | slti | sltiu | lui | limm | limmZx | limmHi | pget | pchk
    | gets | mbpeek => exact wf.writeX
  | div | divu | rem | remu => exact wf.longDivide
  | slli | srli | srai => exact wf.shiftImm
  | padd | paddi => exact wf.pointerAdd
  | pset | jalr => exact wf.guardX (.ite wf.trapOut wf.modMe.next)
  | pchkTrap => exact wf.guardX (.ite wf.modMe.next wf.trapOut)
  | beq | bne | blt | bge | bltu | bgeu => exact wf.branchIf
  | beod => exact .ite wf.branchIf wf.trapOut
  | jal | vext => exact wf.guardX wf.modMe.next
  | sbind => exact wf.execSbind
  | sfree => exact .ite wf.modMe.dropRead.next wf.next
  | sskip => exact .ite wf.modMe.dropRead.tick.next wf.trapOut
  | sets => exact wf.execSets
  | trap => exact wf.trapOut
  | eret => exact .ite wf.modMe.next wf.trapOut
  | halt => exact wf.modMe.toState.next
  | nop | vnop => exact wf.next
  | fence => exact wf.execFence
  | fenceEng => exact wf.fence
  | bbc => exact wf.execBbc
  | pref | prefWr => exact wf.prefetch
  | ipref => exact wf.execIpref
  | ipin => exact wf.execIpin
  | iunpin => exact .ite (wf.modCore fun _ => by rfl).next (wf.modCluster fun _ => by rfl).next
  | tbinvPage | tbinvAll => exact wf.guardX wf.tbinv
  | tbinvRange => exact wf.guardX (.ite wf.tbinvCode (.ite wf.tbinvCode wf.tbinv))
  | tbinvWorld => exact .ite wf.trapOut (wf.guardX (.ite wf.tbinvCode wf.tbinv))
  | ld | lds | ldp => exact wf.guardX wf.alignedAccess
  | st | stf | sfe | vld => exact wf.alignedAccess
  | vst => exact wf.execVst
  | vldt => exact .ite wf.trapOut wf.localAccess
  | vldd => exact wf.execVldd
  | vldx | vstx => exact wf.laneAccess
  | amoadd | amoand | amoor | amoxor | amoswap | amomin | amomax | amominu | amomaxu | amocas | amofadd => exact wf.atomic
  | send => exact wf.execSend
  | recv => exact wf.execRecv
  | cpy | cpy2d | cpyl | cpyg => exact wf.guardX wf.issueReq
  | mma => exact wf.guardX wf.issueJob
  | mmam => exact wf.guardX (.ite wf.trapOut wf.issueJob)
  | qcfg => exact wf.guardX wf.modMe.modRing.next1.next
  | qpush => exact wf.execQpush
  | mhint => exact wf.execMhint
  | gbar => exact .ite wf.modMe.putBarrier.park.next1.next wf.trapOut
  | spawn => exact wf.execSpawn
  | tdone => exact .ite wf.trapOut wf.drainOut
  | tyield => exact wf.guardX wf.drainOut
  | gcopy | gsend | gcmp | ghash | gfree => exact wf.issueGraph
  | gstat => exact wf.guardX (.ite wf.trapOut wf.gstatAt)
  | gstatStop => exact wf.execGstatStop
  | sttk => exact wf.guardX wf.tokenStore
  | stdep => exact wf.tokenStore
  | xredAdd | xredMin | xredMax => exact wf.xred
  | ltset => exact wf.execLtset
  | tide => exact wf.execTide
  | tideBound => exact wf.execTideBound
  | tsend => exact wf.execTsend
  | trecv => exact wf.execTrecv
  | chdcl => exact wf.execChdcl
  | ltstat => exact wf.execLtstat
  | wsetForm => exact wf.execWsetForm
  | wsetGrant => exact wf.execWsetGrant
  | wsetReclaim => exact wf.execWsetReclaim
  | wsetShare => exact wf.execWsetShare
  | wsetPeer => exact wf.execWsetPeer
  | wsetSeal => exact wf.execWsetSeal
  | wsetDrain => exact wf.execWsetDrain
  | wsetFree => exact wf.execWsetFree
  | wsealGenerate => exact wf.execWsealGenerate
  | wsealInstall => exact wf.execWsealInstall
  | wsealDestroy => exact wf.execWsealDestroy
  | vadd | vsub => exact (.ite wf.vOut wf.vOut)
  | vmul => exact .ite wf.vOut (.ite wf.vOut wf.vOut)
  | vfma | vfms | vmin | vmax | vabs | vneg | vand | vor | vxor | vnot | vsll | vsrl | vsra | vcmpeq | vcmplt
    | vcmple | vsel | vcvt | vshuf | vbcast | vins | vrcp | vrsq | vrcps | vrsqs => exact wf.vOut
  | vdot | vsumr => exact .ite wf.vOut wf.reduceF
  | vmaxr => exact .ite wf.vOut wf.vOut
  | vexp2 | vlog2 => exact wf.vLong
  | vmodadd => exact wf.execVmodadd
  | vmodsub => exact wf.execVmodsub
  | vmodmul => exact wf.execVmodmul
  | vbfly => exact wf.execVbfly
  | longLatencyResult => exact wf.execLongLatencyResult
  | localStorePass => exact wf.execLocalStorePass
  | energyRefill => exact wf.execEnergyRefill
  | completionWrite => exact wf.execCompletionWrite
  | contextNumberRelease => exact wf.execContextNumberRelease
  | remoteReply => exact wf.execRemoteReply
  | holdReply => exact wf.execHoldReply
  | holdReplyResend => exact wf.execHoldReplyResend
  | remoteTimeout => exact wf.execRemoteTimeout
  | tagQuarantineEnd => exact wf.execTagQuarantineEnd
  | registerMissMicroTrap => exact wf.execRegisterMissMicroTrap
  | registerFetchDone => exact wf.execRegisterFetchDone
  | icacheFill => exact wf.execIcacheFill
  | noticeTaken => exact wf.execNoticeTaken
  | stewardResume => exact .ite wf.modSlot.toReady.ltThaw.next wf.next
  | stewardForwardTrap => exact .ite wf.tenantTrap.ltThaw.next wf.next
  | stewardAbortTask => exact .ite wf.discardSlot.next wf.next
  | stewardCollect => exact wf.execStewardCollect
  | preemption => exact wf.execPreemption
  | contextSave => exact wf.execContextSave
  | contextInstall => exact wf.execContextInstall
  | contextSpill => exact wf.execContextSpill
  | spillReadback => exact wf.execSpillReadback
  | sliceExpiry => exact wf.execSliceExpiry
  | watchdogExpiry => exact wf.execWatchdogExpiry
  | debugStop => exact wf.execDebugStop
  | debugResume => exact .ite wf.modSlot.toState.ltThaw.next wf.next
  | debugStep => exact .ite wf.modSlot.toState.next wf.next
  | debugContextAccess => exact wf.execDebugContextAccess
  | breakpointSet => exact (wf.modCore fun _ => by rfl).next
  | breakpointHit => exact wf.execBreakpointHit
  | taskPop => exact wf.execTaskPop
  | dequeReadback => exact wf.execDequeReadback
  | stealRequest => exact wf.execStealRequest
  | stealBackoffEnd => exact wf.execStealBackoffEnd
  | serviceQueueArrival => exact wf.execServiceQueueArrival
  | serviceLoad => exact wf.execServiceLoad
  | serviceStore => exact wf.execServiceStore
  | serviceAtomic => exact wf.execServiceAtomic
  | serviceFill => exact wf.execServiceFill
  | serviceSyncLoad => exact wf.execServiceSyncLoad
  | serviceSteal => exact wf.execServiceSteal
  | mailboxDataArrival => exact wf.execMailboxDataArrival
  | tokenMessageArrival => exact wf.execTokenMessageArrival
  | ringReservationGrant => exact wf.execRingReservationGrant
  | tilePublish => exact wf.execTilePublish
  | matrixJobStart => exact wf.execMatrixJobStart
  | shadowPause => exact wf.execShadowPause
  | normalJobResume => exact wf.execNormalJobResume
  | matrixJobRetire => exact wf.execMatrixJobRetire
  | engineRampUpEnd => exact wf.execEngineRampUpEnd
  | engineWarmEnd => exact wf.execEngineWarmEnd
  | engineRampDownEnd => exact wf.execEngineRampDownEnd
  | copyKickTake => exact wf.execCopyKickTake
  | copyRequestComplete => exact wf.execCopyRequestComplete
  | copyYield => exact wf.execCopyYield
  | qcfgApply => exact wf.execQcfgApply
  | barrierComplete => exact wf.execBarrierComplete
  | barrierRelease => exact wf.execBarrierRelease
  | rdcFillArrival => exact wf.execRdcFillArrival
  | rdcCopyExpiry => exact wf.execRdcCopyExpiry
  | signatureBankAge => exact wf.execSignatureBankAge
  | hbmWriteBack => exact wf.execHbmWriteBack
  | launchTailWrite => exact wf.execLaunchTailWrite
  | launchRecordRead => exact wf.execLaunchRecordRead
  | dispatchChoice => exact wf.execDispatchChoice
  | taskSeeding => exact wf.execTaskSeeding
  | ageingRaise => exact wf.execAgeingRaise
  | gangPlacement => exact wf.execGangPlacement
  | urgentInstall => exact wf.execUrgentInstall
  | nodeEvaluation => exact wf.execNodeEvaluation
  | vfSoftReset => exact .ite wf.next wf.softReset.next
  | vfHardReset => exact .ite wf.next wf.hardReset.next
  | vfFaultRead => exact wf.execVfFaultRead
  | vfRegisterWrite => exact wf.execVfRegisterWrite
  | hostTaskPush => exact wf.execHostTaskPush
  | missTableAdmit => exact wf.execMissTableAdmit
  | pageWalk => exact wf.execPageWalk
  | pageWalkDone => exact wf.execPageWalkDone
  | stewardWalkReply => exact wf.execStewardWalkReply
  | blockCounterFlush => exact wf.execBlockCounterFlush
  | traceHeaderRewrite => exact wf.execTraceHeaderRewrite
  | graphRequestFinish => exact wf.execGraphRequestFinish
  | objectPacketArrival => exact wf.execObjectPacketArrival
  | gsendAckArrival => exact wf.execGsendAckArrival
  | gsendFinishArrival => exact wf.execGsendFinishArrival
  | gsendDoneArrival => exact wf.execGsendDoneArrival
  | dieLinkDown => exact wf.execDieLinkDown
  | drainTimerExpiry => exact wf.execDrainTimerExpiry
  | coldReset => exact execColdReset
  | warmReset => exact execWarmReset
  | fuseMinimumRaise => exact (wf.beside (by rfl)).next
  | stewardSramError | stewardWatchdogExpiry => exact wf.hatPost.boardReport.next
  | mctpControlMessage => exact .ite (wf.beside (by rfl)).tick.next wf.boardReport.next
  | pldmMessage => exact (wf.beside (by rfl)).tick.next
  | spdmRequest => exact wf.execSpdmRequest
  | vfFunctionLevelReset => exact wf.execVfFunctionLevelReset
  | pfFunctionLevelReset => exact execPfFunctionLevelReset
  | migrationPrepare => exact wf.execMigrationPrepare
  | migrationTransfer => exact wf.execMigrationTransfer
  | migrationReceipt => exact .ite wf.setMig.migNote.at_.next wf.next
  | migrationErase => exact wf.execMigrationErase
  | migrationCommit => exact wf.execMigrationCommit
  | migrationAbort => exact wf.execMigrationAbort
  | recoveryWindowExpiry => exact wf.execRecoveryWindowExpiry
  | thermalWarning | supplyDroopWarning | coolantFlowWarning => exact wf.alarm.next
  | thermalTrip => exact wf.execThermalTrip
  | linkFrameReceive => exact wf.execLinkFrameReceive
  | nullFrameSend => exact wf.execNullFrameSend
  | linkResync => exact wf.execLinkResync
  | linkRekey => exact .ite wf.modLink.next wf.next
  | packetForward => exact wf.execPacketForward
  | creditWaitDrop => exact wf.execCreditWaitDrop
  | pathTableWrite => exact .ite wf.next wf.modDie.pathsTake.next
  | pathChangeEffect => exact wf.execPathChangeEffect
  | remoteRequestArrival => exact wf.execRemoteRequestArrival
  | reductionContributionArrival => exact wf.execReductionContributionArrival
  | reductionDeadline => exact wf.execReductionDeadline
  | reductionSlotFree => exact wf.execReductionSlotFree
  | reductionResultArrival => exact wf.execReductionResultArrival
  | sttkLanding => exact wf.execSttkLanding
  | sttkFailure => exact wf.execSttkFailure
  | depstoreArrival => exact wf.execDepstoreArrival
  | sluiceFullReply => exact wf.execSluiceFullReply
  | holdArrival => exact wf.execHoldArrival
  | holdRetry => exact wf.execHoldRetry
  | releaseArrival => exact wf.execReleaseArrival
  | sluiceExpiry => exact wf.execSluiceExpiry
  | declareArrival => exact wf.execDeclareArrival
  | declareReply => exact wf.execDeclareReply
  | tideArrival => exact wf.execTideArrival
  | eventArrival => exact wf.execEventArrival
  | floorExchange => exact wf.execFloorExchange
  | floorReportArrival => exact wf.execFloorReportArrival
  | keyedAtomicApply => exact wf.execKeyedAtomicApply
  | localTimeModeExit => exact wf.execLocalTimeModeExit
  | programLoad => exact wf.execProgramLoad
  | launchQueueConfigure => exact wf.modQueue.next
  | stealReplyArrival => exact wf.execStealReplyArrival
  | depstoreResend => exact wf.execDepstoreResend
  | linkBringUp => exact wf.setLink.next

theorem Event_run {e : Event} {s : State} (wf : s.memoryWf) : nextWf (Event.run e s) :=
  run_eq_exec e s ▸ wf.exec

theorem issuing {mask : BitVec 4} {s : State} (wf : s.memoryWf) : (Machine.issuing mask s).memoryWf :=
  wf.beside (by rfl)

theorem endBundle {s : State} {k : Nat} {b : Word} (wf : s.memoryWf) : (Machine.endBundle s k b).memoryWf := by
  unfold Machine.endBundle
  extract_lets sl mask s1 s3 s2
  have hs1 : s1.memoryWf := .ite wf.modSlot (.ite wf wf.modSlot.advanceStreams)
  have hs3 : s3.memoryWf := hs1.modSlot
  have hs2 : s2.memoryWf := .ite (.ite hs3.modSlot (.ite hs3.toState hs3)) hs1
  exact hs2.beside (by rfl)

theorem runHalves {a v : Instr} {b : Word} {mask : BitVec 4} {s : State} (wf : s.memoryWf) :
    nextWf (Machine.runHalves a v b mask s) := by
  unfold Machine.runHalves
  extract_lets k s0 s1 oa ov s2
  have hs0 : s0.memoryWf := modSlot (.ite wf (modSlot (.ite wf wf.lsCorrect.claimBanks)))
  have hs1 : s1.memoryWf := hs0.issuing
  have hs2 : s2.memoryWf := issuing (.ite hs0 hs0.modSlot.invalidateMatching)
  split
  · exact hs1.trapAt.endTrapped.next
  · split
    · exact .ite (.andNext hs1.exec (fun _ ht => ht.endTrapped.next)) (.andNext hs1.exec (fun _ ht => ht.endTrapped.next))
    · exact .andNext hs1.exec (fun _ ht => ht.endTrapped.next)
    · exact .andNext hs1.exec (fun _ ht => ht.endTrapped.next)
    · exact .andNext hs2.exec (fun _ ht => .ite ht.endBundle.next (.andNext (ht.beside (by rfl)).exec (fun _ ht' => ht'.endBundle.next)))

theorem issueBundle {b : Word} {s : State} (wf : s.memoryWf) : nextWf (Machine.issueBundle b s) := by
  unfold Machine.issueBundle
  extract_lets k charged illegalV
  have hcharged : charged.memoryWf := .ite wf (wf.modCore fun _ => by rfl)
  have illegal {a : Instr} : nextWf (illegalV a) :=
    .ite (hcharged.issuing.exec.andNext fun _ ht => ht.endTrapped.next) hcharged.trapAt.endTrapped.next
  split
  · exact hcharged.trapAt.endTrapped.next
  · exact illegal
  · exact .ite illegal (.ite wf.park.next (.ite hcharged.Event_run hcharged.runHalves))

theorem issueSlot {s : State} {k : Nat} (wf : s.memoryWf) : nextWf (Machine.issueSlot s k) := by
  unfold Machine.issueSlot
  extract_lets s1
  have hs1 : s1.memoryWf := wf.beside (by rfl)
  split
  · exact hs1.discardSlot.next
  · split
    · exact .andNext hs1.Event_run (fun _ ht => ht.endTrapped.next)
    · split
      · exact hs1.Event_run
      · split
        · exact hs1.takeTrapAt.endTrapped.next
        · split
          · exact hs1.issueBundle
          · exact hs1.next

theorem coreTurn {s : State} {c : Nat} (wf : s.memoryWf) : nextWf (Machine.coreTurn s c) := by
  unfold Machine.coreTurn
  extract_lets own s0
  have hs0 : s0.memoryWf := .ite (.ite wf.park.within wf.park.later) wf
  split
  · exact hs0.next
  · split
    · split
      · exact hs0.Event_run
      · exact hs0.next
    · exact hs0.issueSlot

theorem tracePut {s : State} {c : Nat} {ws : List Word} (wf : s.memoryWf) : (Machine.tracePut s c ws).memoryWf := by
  unfold Machine.tracePut
  extract_lets
  split
  · split
    · extract_lets s1
      have hs1 : s1.memoryWf := wf.modCore fun _ => by rfl
      exact .ite hs1.pokeMem (hs1.modCore fun _ => by rfl).hatPost

theorem traceRecord {s : State} {c : Nat} {r : TraceRec} (wf : s.memoryWf) : (Machine.traceRecord s c r).memoryWf := by
  unfold Machine.traceRecord
  extract_lets gap
  split
  rename_i s1 delta eq
  have hs1 : s1.memoryWf := of_fst eq (by
    split
    · exact wf.tracePut
    · exact wf)
  have put : (Machine.tracePut s1 c (BitVec.ofNat 64 (r.head + delta) :: r.rest)).memoryWf := hs1.tracePut
  exact put.modCore fun _ => by rfl

theorem traceApply {s : State} {c : Nat} (wf : s.memoryWf) : (Machine.traceApply s c).memoryWf := by
  unfold Machine.traceApply
  split
  · exact (wf.modCore fun _ => by rfl).traceHeader
  · exact wf

theorem nextCycle {s : State} (wf : s.memoryWf) : (Machine.nextCycle s).memoryWf := by
  unfold Machine.nextCycle
  extract_lets s0 s1
  have hs0 : s0.memoryWf := .foldl (fun _ _ ht => modCore (.foldl (fun _ _ ht' => ht'.traceRecord) ht) fun _ => by rfl) wf
  have hs1 : s1.memoryWf := .foldl (fun _ _ ht => ht.traceApply) (hs0.beside (by rfl))
  exact .foldl (fun _ _ ht => ht.at_) (.ite hs1 (.foldl (fun _ _ ht => ht.at_) (hs1.beside (by rfl))))

theorem stepMachine_turn {s : State} (wf : s.memoryWf) : nextWf (Machine.stepMachine.turn s) := by
  unfold Machine.stepMachine.turn
  split
  · split
    · exact .andNext (wf.beside (by rfl)).coreTurn (fun _ ht => ht.next)
    · exact wf.nextCycle.next
  · exact wf.nextCycle.next

theorem stepMachine {s : State} (wf : s.memoryWf) : nextWf (Machine.stepMachine s) := by
  unfold Machine.stepMachine
  split
  · exact .ite (wf.beside (by rfl)).Event_run wf.stepMachine_turn
  · exact wf.stepMachine_turn

end State.memoryWf

/-- Settles O5: the step is built of functions that each keep the byte stores in canonical form. -/

theorem stepKeepsMemory : Obligations.StepKeepsMemory := by
  intro s t wf stepped
  exact wf.stepMachine t stepped

end Sys2Proof.Machine

/-! PROOFS of O22, O24, O25 and O26. What a list of bytes put into a local store leaves there; then the accesses of the
core's own local store, each by the outcome that its operation has: a load or store of one pass, one that parks, and the
full/empty forms. -/

namespace Sys2Proof.Machine

/-! ## Bytes put into a local store -/

/-- Of the bytes put at one place, the last stands there. -/
theorem cellGet_lsPut_last {ps : List Nat} {bs : List Byte} {i p : Nat} (m : List Host.Cell) (hl : bs.length = ps.length)
    (hi : ps[i]? = some p) (last : ∀ j, i < j → ps[j]? ≠ some p) : some (cellGet (lsPut m (ps.zip bs)) p) = bs[i]? := by
  induction ps generalizing bs m i with
  | nil => cases hi
  | cons q ps ih =>
    obtain _ | ⟨b, bs⟩ := bs
    · cases hl
    cases i with
    | zero =>
      obtain rfl : q = p := Option.some.inj hi
      have later : ∀ x ∈ ps.zip bs, x.1 ≠ q := by
        rintro x hx rfl
        obtain ⟨j, hj⟩ := List.mem_iff_getElem?.mp (List.of_mem_zip hx).1
        exact last (j + 1) (Nat.succ_pos j) hj
      rw [List.zip_cons_cons, lsPut, cellGet_lsPut_outside _ _ _ later, cellGet_cellSet_same]
      rfl
    | succ i => exact ih (cellSet m q b) (Nat.succ.inj hl) hi fun j hj => last (j + 1) (Nat.succ_lt_succ hj)

/-- Places that do not repeat have no later entry of the same place. -/
theorem no_later_of_nodup {ps : List Nat} {i p : Nat} (h : ps.Nodup) (hi : ps[i]? = some p) (j : Nat) (hj : i < j) :
    ps[j]? ≠ some p := by
  intro hp
  obtain ⟨hi', rfl⟩ := List.getElem?_eq_some_iff.mp hi
  obtain ⟨hj', e⟩ := List.getElem?_eq_some_iff.mp hp
  exact absurd (h.getElem_inj_iff.mp e) (Nat.ne_of_gt hj)

/-- What a store of bytes `bs` at the places `ps` of core `c` has done: signatures and counts apart, nothing but the
bytes has changed. -/
structure State.Stored (c : Nat) (ps : List Nat) (bs : List Byte) (s t : State) : Prop where
  mem : t.mem = s.mem
  cycle : t.cycle = s.cycle
  slots : s.SlotsButSignatures t
  others : ∀ k, k ≠ c → (t.core k).ls = (s.core k).ls
  ls : (t.core c).ls = lsPut (s.core c).ls (ps.zip bs)
  emptyWords : (t.core c).emptyWords = (s.core c).emptyWords
  waiters : (t.core c).waiters = (s.core c).waiters
  parkedLds : (t.core c).parkedLds = (s.core c).parkedLds

namespace State.Stored

variable {s t u : State} {c : Nat} {ps : List Nat} {bs : List Byte}

theorem of_lsStore (h : s.SigOnly u) (hp : s.poison = []) : s.Stored c ps bs (lsStore u c ps bs) := by
  obtain ⟨clusters, stored⟩ := lsStore_frame u c ps bs (h.poison.trans hp)
  have corrected := h.trans (sigOnly_lsCorrect u c ps)
  obtain ⟨_, _, _, _, here⟩ := corrected.core c
  have cores (k : Nat) : (lsStore u c ps bs).core k
      = ((lsCorrect u c ps).modCore c fun co => { co with ls := lsPut co.ls (ps.zip bs) }).core k := by
    rw [stored]
    rfl
  constructor
  case mem => exact stored ▸ corrected.mem
  case cycle => exact stored ▸ corrected.cycle
  case slots => exact stored ▸ corrected.slots
  case others =>
    intro k hk
    obtain ⟨_, _, _, _, there⟩ := corrected.core k
    rw [cores, State.core_modCore_other _ _ _ _ hk, there]
  all_goals rw [cores, State.core_modCore_same, here]

theorem sigOnly (h : s.Stored c ps bs t) (h' : t.SigOnly u) : s.Stored c ps bs u := by
  have same (k : Nat) : (u.core k).ls = (t.core k).ls ∧ (u.core k).emptyWords = (t.core k).emptyWords
      ∧ (u.core k).waiters = (t.core k).waiters ∧ (u.core k).parkedLds = (t.core k).parkedLds := by
    obtain ⟨_, _, _, _, e⟩ := h'.core k
    simp [e]
  obtain ⟨ls, emptyWords, waiters, parkedLds⟩ := same c
  exact ⟨h'.mem.trans h.mem, h'.cycle.trans h.cycle, fun k => Slot.butSignatures_trans (h.slots k) (h'.slots k),
    fun k hk => (same k).1.trans (h.others k hk), ls.trans h.ls, emptyWords.trans h.emptyWords,
    waiters.trans h.waiters, parkedLds.trans h.parkedLds⟩

theorem onlyBytes (h : s.Stored c ps bs t) : s.OnlyBytes c ps t := by
  refine ⟨fun a => by rw [h.mem], h.others, fun p hp => ?_⟩
  rw [h.ls]
  exact cellGet_lsPut_outside _ _ _ fun q hq e => hp (e ▸ (List.of_mem_zip hq).1)

theorem byte {i p : Nat} (h : s.Stored c ps bs t) (hl : bs.length = ps.length) (hi : ps[i]? = some p)
    (last : ∀ j, i < j → ps[j]? ≠ some p) : some (cellGet (t.core c).ls p) = bs[i]? := by
  rw [h.ls]
  exact cellGet_lsPut_last _ hl hi last

end State.Stored

/-! ## Results on a slot, but for its signatures -/

theorem putV_butSignatures (d : Reg) (w : Vec) {a b : Slot} (h : a.butSignatures b) :
    (a.putV d w).butSignatures (b.putV d w) := by
  unfold Slot.butSignatures Slot.putV at *
  rw [h]

theorem foldl_butSignatures {α : Type} {f : Slot → α → Slot}
    (hf : ∀ x (a b : Slot), a.butSignatures b → (f a x).butSignatures (f b x)) (l : List α) {a b : Slot}
    (h : a.butSignatures b) : (l.foldl f a).butSignatures (l.foldl f b) := by
  induction l generalizing a b with
  | nil => exact h
  | cons x l ih => exact ih (hf x a b h)

/-- What an access writes into its slot does not look at the signatures there. -/
theorem MemReq.result_butSignatures (r : MemReq) (bs : List Byte) {a b : Slot} (h : a.butSignatures b) :
    (r.result bs a).butSignatures (r.result bs b) := by
  unfold MemReq.result
  cases r.op with
  | ld | lds | ldp | gstat => exact putX_butSignatures _ _ _ _ h
  | vld | vldx => exact putV_butSignatures _ _ h
  | vldd => exact addFlags_butSignatures _ _ _ (putV_butSignatures _ _ h)
  | amo => exact addFlags_butSignatures _ _ _ (putX_butSignatures _ _ _ _ h)
  | vldt =>
    dsimp only
    refine foldl_butSignatures (fun j _ _ h => ?_) _ h
    exact putV_butSignatures _ _ h
  | st | stf | sfe | vst | vstx | qpush | xred | sttk | fence | tdone | tyield => exact h

/-! ## Accesses of one pass -/

/-- The bytes of an access whose places all exist. -/
theorem length_physOf {vas : List Nat} (h : ∀ a ∈ vas, (lsPhys a).isSome) : (physOf vas).length = vas.length := by
  unfold physOf
  rw [List.length_filterMap_eq_countP, List.countP_eq_length]
  exact h

theorem sigOnly_ifAcquire (s : State) (acq : Bool) (c num core : Nat) :
    s.SigOnly (if acq then acquireAtCore s c num core else s) := by
  split
  · exact sigOnly_acquireAtCore ..
  · exact .refl s

theorem State.SigOnly.ls {s t : State} (h : s.SigOnly t) (c : Nat) : (t.core c).ls = (s.core c).ls := by
  obtain ⟨_, _, _, _, e⟩ := h.core c
  rw [e]

/-- A load of one pass is complete at issue. -/
theorem localAccess_load_single {s : State} {r : MemReq}
    (ho : r.op = .ld ∨ r.op = .vld ∨ r.op = .vldd ∨ r.op = .vldt ∨ r.op = .vldx)
    (hf : localFault s (if r.op = .vldd then rising r.vas else r.vas) = none)
    (hlen : (physOf r.vas).length = r.vas.length) (one : (onePass 0 (chunksOf (physOf r.vas))).2.1 = []) :
    ∃ t, localAccess s r = .next t
      ∧ (r.result ((physOf r.vas).map (cellGet (s.core (coreOf s.cur)).ls)) s.me).butSignatures t.me
      ∧ (∀ k, k ≠ s.cur → (s.slot k).butSignatures (t.slot k)) ∧ s.OnlyBytes (coreOf s.cur) [] t := by
  have load : r.isStore = false := by
    unfold MemReq.isStore
    rcases ho with h | h | h | h | h <;> rw [h]
  have acquired := sigOnly_ifAcquire s r.acq (coreOf s.cur) s.me.ctxNum (coreOf s.cur)
  rw [localAccess_load s r (by rcases ho with h | h | h | h | h <;> simp [h]) hf]
  obtain ⟨u, passed, done⟩ := localPasses_load _ r load hlen one
  rw [acquired.cur, acquired.ls] at done
  exact ⟨_, done, modMe_of_sigOnly (acquired.trans passed) _ (fun _ _ h => r.result_butSignatures _ h) _⟩

/-- A store of one pass is complete at issue. -/
theorem localAccess_store_single {s : State} {r : MemReq} (ho : r.op = .st ∨ r.op = .vst ∨ r.op = .vstx)
    (hf : localFault s r.vas = none) (hp : s.poison = []) (hlen : r.data.length = (physOf r.vas).length)
    (one : (onePass 0 (chunksOf (physOf r.vas))).2.1 = []) :
    ∃ t, localAccess s r = .next t ∧ s.Stored (coreOf s.cur) (physOf r.vas) r.data t := by
  have store : r.isStore = true := by
    unfold MemReq.isStore
    rcases ho with h | h | h <;> rw [h]
  have released := sigOnly_releaseAtCore s (coreOf s.cur) s.me.ctxNum (coreOf s.cur) r.rel
  rw [localAccess_store s r ho hf]
  obtain ⟨u, passed, t, rest, done⟩ := localPasses_store _ r store hlen one
  rw [released.cur] at rest
  exact ⟨t, done, (State.Stored.of_lsStore (released.trans passed) hp).sigOnly rest⟩

end Sys2Proof.Machine

namespace Sys2Proof.Machine

/-! ## The full/empty bits of a core -/

theorem State.OnlyBytes.modCore {s t : State} {c : Nat} {ps : List Nat} {f : Core → Core} (h : s.OnlyBytes c ps t)
    (hf : ∀ co, (f co).ls = co.ls) : s.OnlyBytes c ps (t.modCore c f) := by
  refine ⟨h.mem, fun k hk => ?_, fun p hp => ?_⟩
  · rw [State.core_modCore_other _ _ _ _ hk]
    exact h.others k hk
  · rw [State.core_modCore_same, hf]
    exact h.outside p hp

theorem State.SigOnly.emptyWords {s t : State} (h : s.SigOnly t) (c : Nat) :
    (t.core c).emptyWords = (s.core c).emptyWords := by
  obtain ⟨_, _, _, _, e⟩ := h.core c
  rw [e]

theorem State.SigOnly.waiters {s t : State} (h : s.SigOnly t) (c : Nat) : (t.core c).waiters = (s.core c).waiters := by
  obtain ⟨_, _, _, _, e⟩ := h.core c
  rw [e]

theorem emptyWords_setEmptyBit (s : State) (c word w : Nat) :
    w ∈ ((s.modCore c fun co => setEmptyBit co word).core c).emptyWords ↔ w = word ∨ w ∈ (s.core c).emptyWords := by
  rw [State.core_modCore_same]
  exact mem_insWord ..

theorem emptyWords_setFullBit (s : State) (c word w : Nat) :
    w ∈ ((s.modCore c fun co => setFullBit co word).core c).emptyWords ↔ w ∈ (s.core c).emptyWords ∧ w ≠ word := by
  rw [State.core_modCore_same]
  simp [setFullBit]

theorem setFe_empty (s : State) (c word : Nat) : setFe s c word false = s.modCore c fun co => setEmptyBit co word := rfl

/-- A word that nobody waits for is full. -/
theorem setFe_full_of_no_waiter {s : State} {c word : Nat} (h : (s.core c).waiters.find? (·.word == word) = none) :
    setFe s c word true = s.modCore c fun co => setFullBit co word := by
  have none_left : (((s.modCore c fun co => setFullBit co word).core c).waiters.find? (·.word == word)) = none := by
    rw [State.core_modCore_same]
    exact h
  unfold setFe releaseWaiter
  rw [if_pos rfl, none_left]

theorem isFull_iff (co : Core) (word : Nat) : isFull co word = true ↔ word ∉ co.emptyWords := by
  simp [isFull]

/-! ## Scalar accesses -/

section
variable {s : State} {m : MemF} {a n : Nat} {phys : Nat → Nat}

theorem tySize_cases (t : Nat) : tySize t = 1 ∨ tySize t = 2 ∨ tySize t = 4 ∨ tySize t = 8 := by
  unfold tySize
  split
  · simp
  · split
    · simp
    · split <;> simp

/-- An aligned access to one run of bytes of the own local store goes there. -/
theorem alignedAccess_local {r : MemReq} {unit : Nat} (ok : SpanOk s a n phys) (hv : r.vas = span a n) (hn : 0 < n)
    (aligned : a % unit = 0) : alignedAccess s r unit = localAccess s r := by
  have windows : ∀ x ∈ r.vas, x < translatedBase := by
    intro x hx
    obtain ⟨i, hi, rfl⟩ := List.mem_map.mp (hv ▸ hx)
    exact lsOk_lt (ok.ok i (List.mem_range.mp hi))
  unfold alignedAccess
  rw [ea_span r a n hv hn, if_neg (not_not.mpr aligned), begin_local s r windows]

theorem length_physOf_span (ok : SpanOk s a n phys) : (physOf (span a n)).length = (span a n).length := by
  rw [physOf_span ok]
  simp [span]

theorem head_physOf_span (ok : SpanOk s a n phys) (hn : 0 < n) : ((physOf (span a n)).head?).getD 0 = phys a := by
  obtain ⟨n, rfl⟩ := Nat.exists_eq_succ_of_ne_zero hn.ne'
  rw [physOf_span ok, List.range_succ_eq_map]
  rfl

/-- The bytes of a stored span, one by one. -/
theorem State.Stored.span_byte {t : State} {w : Word} (ok : SpanOk s a n phys) (hn : n = 1 ∨ n = 2 ∨ n = 4 ∨ n = 8)
    (aligned : a % n = 0) (h : s.Stored (coreOf s.cur) (physOf (span a n)) (toLe w.toNat n) t)
    {i : Nat} (hi : i < n) : cellGet (t.core (coreOf s.cur)).ls (phys (a + i)) = w.extractLsb' (8 * i) 8 := by
  have place : (physOf (span a n))[i]? = some (phys (a + i)) := by
    rw [physOf_span ok]
    simp [hi]
  have stands := h.byte (by rw [length_toLe, length_physOf_span ok]; simp [span]) place
    (no_later_of_nodup (nodup_span ok hn aligned) place)
  rw [List.getElem?_eq_getElem (by rw [length_toLe]; exact hi), getElem_toLe _ _ _ hi, ofNat_byte] at stands
  exact Option.some.inj stands

/-- The span of the scalar access of `m` lies in the share of the own local store. -/
structure ScalarSpan (s : State) (m : MemF) (a n : Nat) (phys : Nat → Nat) : Prop where
  ok : SpanOk s a n phys
  size : n = 1 ∨ n = 2 ∨ n = 4 ∨ n = 8
  aligned : a % n = 0
  sound : s.poison = []
  address : eaMem (s.rx m.s1) m.disp n = a

namespace ScalarSpan

variable (at_ : ScalarSpan s m a n phys)
include at_

theorem pos : 0 < n := by
  rcases at_.size with h | h | h | h <;> omega

theorem access {r : MemReq} (hv : r.vas = span a n) : alignedAccess s r n = localAccess s r :=
  alignedAccess_local at_.ok hv at_.pos at_.aligned

theorem noFault : localFault s (span a n) = none := localFault_span at_.ok at_.sound

theorem onePass : (onePass 0 (chunksOf (physOf (span a n)))).2.1 = [] := onePass_span at_.ok at_.size at_.aligned

theorem word : ((physOf (span a n)).head?).getD 0 / 8 = phys a / 8 := by rw [head_physOf_span at_.ok at_.pos]

theorem exec_ld (hw : s.writable m.d) (ht : tySize m.w.toNat = n) :
    ∃ t, exec (.ld m) s = .next t
      ∧ (s.me.putX m.d (extendTy m.w.toNat ((physOf (span a n)).map (cellGet (s.core (coreOf s.cur)).ls)))).butSignatures t.me
      ∧ (∀ k, k ≠ s.cur → (s.slot k).butSignatures (t.slot k)) ∧ s.OnlyBytes (coreOf s.cur) [] t := by
  have start : exec (.ld m) s = localAccess s (memReq .ld m a n) := by
    show guardX s m.d (alignedAccess s (memReq .ld m (eaMem _ _ (tySize _)) (tySize _)) (tySize _)) = _
    rw [guardX_writable _ _ _ hw, ht, at_.address, at_.access rfl]
  have loaded := localAccess_load_single (r := memReq .ld m a n) (.inl rfl) at_.noFault (length_physOf_span at_.ok)
    at_.onePass
  rw [← regOf_toNat m.d, start]
  exact loaded

theorem exec_st (ht : tySize m.w.toNat = n) :
    ∃ t, exec (.st m) s = .next t
      ∧ s.Stored (coreOf s.cur) (physOf (span a n)) (toLe (s.rx m.d).toNat n) t := by
  have start : exec (.st m) s = localAccess s { memReq .st m a n with data := toLe (s.rx m.d).toNat n } := by
    show alignedAccess s { memReq .st m (eaMem _ _ (tySize _)) (tySize _) with data := toLe _ (tySize _) } (tySize _) = _
    rw [ht, at_.address, at_.access rfl]
  rw [start]
  exact localAccess_store_single (.inl rfl) at_.noFault at_.sound
    (by rw [length_toLe]; exact ((length_physOf_span at_.ok).trans (by simp [span])).symm) at_.onePass

theorem exec_stf (ht : tySize m.w.toNat = n) :
    ∃ u, exec (.stf m) s = .next (setFe u (coreOf s.cur) (phys a / 8) true)
      ∧ s.Stored (coreOf s.cur) (physOf (span a n)) (toLe (s.rx m.d).toNat n) u := by
  have start : exec (.stf m) s = localAccess s { memReq .stf m a n with data := toLe (s.rx m.d).toNat n } := by
    show alignedAccess s { memReq .stf m (eaMem _ _ (tySize _)) (tySize _) with data := toLe _ (tySize _) } (tySize _) = _
    rw [ht, at_.address, at_.access rfl]
  rw [start, localAccess_stf s _ rfl at_.noFault]
  have released := (sigOnly_singlePass s (coreOf s.cur) (physOf (span a n))).trans
    (sigOnly_releaseAtCore _ (coreOf s.cur) s.me.ctxNum (coreOf s.cur) (relPart m.order))
  exact ⟨_, congrArg (fun w => Host.Outcome.next (setFe _ _ w true)) at_.word, .of_lsStore released at_.sound⟩

theorem exec_lds (hw : s.writable m.d) (ht : tySize m.w.toNat = n) :
    exec (.lds m) s = localAccess s (memReq .lds m a n) := by
  show guardX s m.d (alignedAccess s (memReq .lds m (eaMem _ _ (tySize _)) (tySize _)) (tySize _)) = _
  rw [guardX_writable _ _ _ hw, ht, at_.address, at_.access rfl]

theorem exec_lds_full (hw : s.writable m.d) (ht : tySize m.w.toNat = n)
    (full : phys a / 8 ∉ (s.core (coreOf s.cur)).emptyWords) :
    ∃ u, s.SigOnly u ∧ exec (.lds m) s = .next ((u.modCore (coreOf s.cur) fun co => setEmptyBit co (phys a / 8)).modMe
      (·.putX m.d (extendTy m.w.toNat ((physOf (span a n)).map (cellGet (s.core (coreOf s.cur)).ls))))) := by
  have passed := sigOnly_singlePass s (coreOf s.cur) (physOf (span a n))
  rw [at_.exec_lds hw ht, localAccess_lds_full s _ rfl at_.noFault (by rw [isFull_iff]; exact at_.word ▸ full)]
  refine ⟨_, passed.trans (sigOnly_ifAcquire _ (acqPart m.order) (coreOf s.cur) s.me.ctxNum (coreOf s.cur)), ?_⟩
  show Host.Outcome.next (State.modMe (State.modCore _ _ fun co => setEmptyBit co (((physOf (span a n)).head?).getD 0 / 8))
    (·.putX (regOf m.d.toNat) (extendTy m.w.toNat (lsRead (singlePass s _ (physOf (span a n))) _ (physOf (span a n)))))) = _
  rw [at_.word, regOf_toNat, ls_sigOnly passed]
  rfl

theorem exec_ldp (hw : s.writable m.d) (hn : n = 8) :
    ∃ u, s.SigOnly u ∧ exec (.ldp m) s
      = .next (u.modMe (·.putX m.d (if phys a / 8 ∈ (s.core (coreOf s.cur)).emptyWords then 0 else 1))) := by
  have start : exec (.ldp m) s = localAccess s (memReq .ldp m a n) := by
    subst hn
    show guardX s m.d (alignedAccess s (memReq .ldp m (eaMem _ _ 8) 8) 8) = _
    rw [guardX_writable _ _ _ hw, at_.address, at_.access rfl]
  have passed := sigOnly_singlePass s (coreOf s.cur) (physOf (span a n))
  have bit : ofBool (isFull (s.core (coreOf s.cur)) (phys a / 8))
      = if phys a / 8 ∈ (s.core (coreOf s.cur)).emptyWords then 0 else 1 := by
    by_cases h : phys a / 8 ∈ (s.core (coreOf s.cur)).emptyWords <;> simp [isFull, ofBool, h]
  rw [start, localAccess_ldp s _ rfl at_.noFault]
  refine ⟨_, passed.trans (sigOnly_ifAcquire _ (acqPart m.order) (coreOf s.cur) s.me.ctxNum (coreOf s.cur)), ?_⟩
  show Host.Outcome.next (State.modMe _ fun sl => sl.putX (regOf m.d.toNat)
    (ofBool (isFull _ (((physOf (span a n)).head?).getD 0 / 8)))) = _
  rw [at_.word, regOf_toNat, bit]
  rfl

theorem exec_sfe (hn : n = 8) :
    ∃ u, s.SigOnly u ∧ exec (.sfe m) s = .next (setFe u (coreOf s.cur) (phys a / 8) ((s.rx m.d).getLsbD 0)) := by
  have start : exec (.sfe m) s = localAccess s { memReq .sfe m a n with data := toLe (s.rx m.d).toNat 8 } := by
    subst hn
    show alignedAccess s { memReq .sfe m (eaMem _ _ 8) 8 with data := _ } 8 = _
    rw [at_.address, at_.access rfl]
  rw [start, localAccess_sfe s _ rfl at_.noFault]
  refine ⟨_, (sigOnly_singlePass s (coreOf s.cur) (physOf (span a n))).trans
    (sigOnly_releaseAtCore _ (coreOf s.cur) s.me.ctxNum (coreOf s.cur) (relPart m.order)), ?_⟩
  show Host.Outcome.next (setFe _ _ (((physOf (span a n)).head?).getD 0 / 8)
    ((leWord (toLe (s.rx m.d).toNat 8)).getLsbD 0)) = _
  rw [at_.word, leWord_toLe]
  rfl

end ScalarSpan

end

end Sys2Proof.Machine

namespace Sys2Proof.Machine

/-- The place of a window address (R151, R152), written as a value. -/
theorem lsPhys_of_window {a : Nat} (h : a < 0xC000 ∨ (0x10000 ≤ a ∧ a < 0x1C000)) :
    lsPhys a = some (if a < 0xC000 then a
      else (a - 0x10000) / 128 * 128 + (((a - 0x10000) / 16 % 8) ^^^ ((a - 0x10000) / 128 % 8)) * 16 + (a - 0x10000) % 16) := by
  unfold lsPhys
  split
  · rfl
  · rw [if_pos (h.resolve_left ‹_›)]
    rfl

/-- Settles O22: each access by the law of its instruction; what it has changed is read off the state it leaves. -/
theorem localScalarAccesses : Obligations.LocalScalarAccesses := by
  intro s m sound c ea phys places inside value wide full loads stores sameBits n a word
  have scalar {a n : Nat} (hin : inside a n) (ha : a % n = 0) (hn : n = 1 ∨ n = 2 ∨ n = 4 ∨ n = 8) (hea : ea n = a) :
      ScalarSpan s m a n phys := by
    refine ⟨⟨fun i hi => lsPhys_of_window (hin i hi).1, fun i hi => ?_⟩, hn, ha, sound, hea⟩
    obtain ⟨window, low, high⟩ := hin i hi
    unfold lsOk
    rw [lsPhys_of_window window]
    simpa [inShare] using And.intro low high
  have setEmpty {t : State} {w : Nat} (h : (t.core c).emptyWords = (s.core c).emptyWords) :
      ¬ full (t.modCore c fun co => setEmptyBit co w) w ∧ sameBits (t.modCore c fun co => setEmptyBit co w) w := by
    refine ⟨fun hf => hf ((emptyWords_setEmptyBit ..).mpr (.inl rfl)), fun v hv => not_congr ?_⟩
    rw [emptyWords_setEmptyBit, h]
    simp [hv]
  have setFull {t : State} {w : Nat} (h : (t.core c).emptyWords = (s.core c).emptyWords) :
      full (t.modCore c fun co => setFullBit co w) w ∧ sameBits (t.modCore c fun co => setFullBit co w) w := by
    refine ⟨fun hf => ((emptyWords_setFullBit ..).mp hf).2 rfl, fun v hv => not_congr ?_⟩
    rw [emptyWords_setFullBit, h]
    simp [hv]
  refine ⟨fun aligned hin => ?_, fun aligned hin => ?_⟩
  · have ht : tySize m.w.toNat = n := tySize_pow _
    have hn : n = 1 ∨ n = 2 ∨ n = 4 ∨ n = 8 := ht ▸ tySize_cases _
    have at_ := scalar hin aligned hn rfl
    have at_places : physOf (span a n) = places a n := physOf_span at_.ok
    have width (f : Nat → Byte) : extendTy m.w.toNat ((physOf (span a n)).map f)
        = wide m.w.toNat n (leNat ((places a n).map f)) := by
      rw [extendTy_eq _ n _ (by rw [List.length_map, length_physOf_span at_.ok]; simp [span] : _ = n), at_places]
    have stored {t : State} (h : s.Stored c (physOf (span a n)) (toLe (s.rx m.d).toNat n) t) :
        s.SlotsButSignatures t ∧ s.OnlyBytes c (places a n) t
          ∧ ∀ i, i < n → cellGet (t.core c).ls (phys (a + i)) = (s.rx m.d).extractLsb' (8 * i) 8 :=
      ⟨h.slots, at_places ▸ h.onlyBytes, fun i hi => h.span_byte at_.ok hn aligned hi⟩
    refine ⟨fun hw => ?ld, ?st, fun hw hfull => ?lds, fun nobody => ?stf⟩
    case ld => exact width _ ▸ at_.exec_ld hw ht
    case st =>
      obtain ⟨t, done, h⟩ := at_.exec_st ht
      exact ⟨t, done, stored h⟩
    case lds =>
      obtain ⟨u, passed, done⟩ := at_.exec_lds_full hw ht hfull
      rw [width] at done
      obtain ⟨mine, others, -⟩ := modMe_of_sigOnly passed (·.putX m.d (wide m.w.toNat n (value a n)))
        (fun _ _ h => putX_butSignatures _ _ _ _ h) c
      have bytes := (onlyBytes_of_sigOnly passed c).modCore (c := c) (f := fun co => setEmptyBit co word) fun _ => rfl
      refine ⟨⟨_, done, mine, others, bytes.mem, bytes.others, bytes.outside⟩, fun t ht => ?_⟩
      obtain rfl := Host.Outcome.next.inj (done.symm.trans ht)
      exact setEmpty (passed.emptyWords c)
    case stf =>
      obtain ⟨u, done, h⟩ := at_.exec_stf ht
      obtain ⟨slots, bytes, written⟩ := stored h
      rw [setFe_full_of_no_waiter (h.waiters.symm ▸ nobody)] at done
      refine ⟨⟨_, done, slots, bytes.modCore fun _ => rfl, fun i hi => ?_⟩, fun t ht => ?_⟩
      · rw [State.core_modCore_same]
        exact written i hi
      · obtain rfl := Host.Outcome.next.inj (done.symm.trans ht)
        exact setFull h.emptyWords
  · have at_ := scalar hin aligned (.inr (.inr (.inr rfl))) rfl
    refine ⟨fun hw => ?ldp, fun clear => ?sfeEmpty, fun set nobody => ?sfeFull⟩
    case ldp =>
      obtain ⟨u, passed, done⟩ := at_.exec_ldp hw rfl
      exact ⟨_, done, modMe_of_sigOnly passed _ (fun _ _ h => putX_butSignatures _ _ _ _ h) c⟩
    case sfeEmpty =>
      obtain ⟨u, passed, done⟩ := at_.exec_sfe rfl
      rw [clear, setFe_empty] at done
      exact ⟨_, done, (onlyBytes_of_sigOnly passed c).modCore fun _ => rfl, passed.slots,
        setEmpty (passed.emptyWords c)⟩
    case sfeFull =>
      obtain ⟨u, passed, done⟩ := at_.exec_sfe rfl
      rw [set, setFe_full_of_no_waiter ((passed.waiters c).symm ▸ nobody)] at done
      exact ⟨_, done, (onlyBytes_of_sigOnly passed c).modCore fun _ => rfl, passed.slots,
        setFull (passed.emptyWords c)⟩

end Sys2Proof.Machine

namespace Sys2Proof.Machine

/-! ## Accesses whose bytes all lie in the share -/

section
variable {s : State} {r : MemReq}

theorem localFault_inside {vas : List Nat} (hin : ∀ a ∈ vas, lsOk s.me.lsbase.toNat s.me.lsbound.toNat a = true)
    (hp : s.poison = []) : localFault s vas = none := by
  have inShare : vas.find? (fun a => !lsOk s.me.lsbase.toNat s.me.lsbound.toNat a) = none :=
    List.find?_eq_none.mpr fun a ha => by simp [hin a ha]
  have sound : lsPoison s (coreOf s.cur) (physOf vas) = none := by
    unfold lsPoison
    rw [hp, Option.map_eq_none_iff]
    exact List.find?_eq_none.mpr fun _ _ => by simp
  unfold localFault
  dsimp only
  rw [inShare]
  dsimp only
  rw [sound]
  rfl

theorem isSome_lsPhys_of_lsOk {lo hi a : Nat} (h : lsOk lo hi a = true) : (lsPhys a).isSome := by
  unfold lsOk at h
  cases e : lsPhys a with
  | none => rw [e] at h; cases h
  | some p => rfl

theorem mem_insertNat {a x : Nat} {l : List Nat} : x ∈ insertNat a l ↔ x = a ∨ x ∈ l := by
  induction l with
  | nil => simp [insertNat]
  | cons b l ih =>
    unfold insertNat
    split
    · simp
    · simp only [List.mem_cons, ih]
      tauto

theorem mem_rising {x : Nat} {l : List Nat} : x ∈ rising l ↔ x ∈ l := by
  induction l with
  | nil => rfl
  | cons a l ih =>
    show x ∈ insertNat a (rising l) ↔ _
    rw [mem_insertNat, ih, List.mem_cons]

/-- The slot of an access that parks waits with its registers as they were. -/
theorem parks_of_localPasses {v : State} {o : Out} (hp : s.poison = []) (ho : o = localPasses v r) (hv : s.SigOnly v)
    (many : ¬ ((chunksOf (physOf r.vas)).map (· % 8)).Nodup) :
    ∃ t r', o = .next t ∧ t.me.state = .waitMem ∧ t.me.wait = .mem r' ∧ r'.vas = r.vas ∧ r'.chunks ≠ []
      ∧ t.me.x = s.me.x ∧ t.me.v = s.me.v ∧ t.me.fflags = s.me.fflags := by
  obtain ⟨u, r', done, vas, chunks, slot, -, cur⟩ := localPasses_parks v r (hv.poison.trans hp) many
  have me : (park u v.cur .waitMem (.mem r')).me = Slot.enter { v.slot s.cur with wait := .mem r' } u.cycle .waitMem := by
    unfold State.me
    rw [cur_park, cur, slot_park_same, slot, hv.cur]
  have same : v.slot s.cur = { s.me with
      accCur := (v.slot s.cur).accCur, accPrev := (v.slot s.cur).accPrev, fenceRel := (v.slot s.cur).fenceRel,
      tokenSigs := (v.slot s.cur).tokenSigs } := hv.slots s.cur
  refine ⟨_, r', ho.trans done, ?_⟩
  rw [me]
  refine ⟨state_enter .., ?_, vas, chunks, ?_, ?_, ?_⟩
  · unfold Slot.enter
    split <;> rfl
  · rw [x_enter, same]
  · rw [v_enter, same]
  · rw [fflags_enter, same]

variable (hin : ∀ a ∈ r.vas, lsOk s.me.lsbase.toNat s.me.lsbound.toNat a = true) (hp : s.poison = [])
include hin hp

theorem loadFault_inside : localFault s (if r.op = .vldd then rising r.vas else r.vas) = none := by
  split
  · exact localFault_inside (fun a ha => hin a (mem_rising.mp ha)) hp
  · exact localFault_inside hin hp

/-- A load whose bytes lie in the share: complete at issue where no two of its chunks are in one bank. -/
theorem localAccess_load_inside (ho : r.op = .ld ∨ r.op = .vld ∨ r.op = .vldd ∨ r.op = .vldt ∨ r.op = .vldx)
    (single : ((chunksOf (physOf r.vas)).map (· % 8)).Nodup) :
    ∃ t, localAccess s r = .next t
      ∧ (r.result ((physOf r.vas).map (cellGet (s.core (coreOf s.cur)).ls)) s.me).butSignatures t.me
      ∧ (∀ k, k ≠ s.cur → (s.slot k).butSignatures (t.slot k)) ∧ s.OnlyBytes (coreOf s.cur) [] t :=
  localAccess_load_single ho (loadFault_inside hin hp) (length_physOf fun a ha => isSome_lsPhys_of_lsOk (hin a ha))
    (onePass_nodup 0 _ single (by simp))

theorem localAccess_store_inside (ho : r.op = .st ∨ r.op = .vst ∨ r.op = .vstx) (hlen : r.data.length = r.vas.length)
    (single : ((chunksOf (physOf r.vas)).map (· % 8)).Nodup) :
    ∃ t, localAccess s r = .next t ∧ s.Stored (coreOf s.cur) (physOf r.vas) r.data t :=
  localAccess_store_single ho (localFault_inside hin hp) hp
    (hlen.trans (length_physOf fun a ha => isSome_lsPhys_of_lsOk (hin a ha)).symm) (onePass_nodup 0 _ single (by simp))

theorem localAccess_load_many (ho : r.op = .ld ∨ r.op = .vld ∨ r.op = .vldd ∨ r.op = .vldt ∨ r.op = .vldx)
    (many : ¬ ((chunksOf (physOf r.vas)).map (· % 8)).Nodup) :
    ∃ t r', localAccess s r = .next t ∧ t.me.state = .waitMem ∧ t.me.wait = .mem r' ∧ r'.vas = r.vas ∧ r'.chunks ≠ []
      ∧ t.me.x = s.me.x ∧ t.me.v = s.me.v ∧ t.me.fflags = s.me.fflags :=
  parks_of_localPasses hp
    (localAccess_load s r (by rcases ho with h | h | h | h | h <;> simp [h]) (loadFault_inside hin hp))
    (sigOnly_ifAcquire ..) many

theorem localAccess_store_many (ho : r.op = .st ∨ r.op = .vst ∨ r.op = .vstx)
    (many : ¬ ((chunksOf (physOf r.vas)).map (· % 8)).Nodup) :
    ∃ t r', localAccess s r = .next t ∧ t.me.state = .waitMem ∧ t.me.wait = .mem r' ∧ r'.vas = r.vas ∧ r'.chunks ≠ []
      ∧ t.me.x = s.me.x ∧ t.me.v = s.me.v ∧ t.me.fflags = s.me.fflags :=
  parks_of_localPasses hp (localAccess_store s r ho (localFault_inside hin hp)) (sigOnly_releaseAtCore ..) many

end

/-! ## Bytes of a vector -/

theorem vectorBytes (v : Vec) : toLe v.toNat 16 = (List.range 16).map fun k => v.extractLsb' (8 * k) 8 := by
  apply List.ext_getElem
  · simp [length_toLe]
  · intro i hi hi'
    rw [getElem_toLe _ _ _ (by rwa [length_toLe] at hi), List.getElem_map, List.getElem_range]
    apply BitVec.eq_of_toNat_eq
    simp [BitVec.extractLsb', Nat.shiftRight_eq_div_pow, pow_mul]

theorem byte_leNat (bs : List Byte) {k : Nat} (h : k < bs.length) : leNat bs / 256 ^ k % 256 = (bs[k]).toNat := by
  induction bs generalizing k with
  | nil => cases h
  | cons b bs ih =>
    have lt := b.isLt
    rw [leNat]
    cases k with
    | zero =>
      rw [pow_zero, Nat.div_one, Nat.add_mul_mod_self_left]
      exact Nat.mod_eq_of_lt lt
    | succ k =>
      rw [pow_succ', ← Nat.div_div_eq_div_mul, Nat.add_mul_div_left _ _ (by decide), Nat.div_eq_of_lt lt, Nat.zero_add]
      exact ih (Nat.lt_of_succ_lt_succ h)

theorem leNat_lt (bs : List Byte) : leNat bs < 256 ^ bs.length := by
  induction bs with
  | nil => decide
  | cons b bs ih =>
    have lt := b.isLt
    rw [leNat, List.length_cons, pow_succ']
    omega

theorem byte_leVec {bs : List Byte} (h : bs.length = 16) {k : Nat} (hk : k < 16) :
    some ((leVec bs).extractLsb' (8 * k) 8) = bs[k]? := by
  have hk' : k < bs.length := h ▸ hk
  have lt : leNat bs < 2 ^ 128 := (leNat_lt bs).trans_eq (by rw [h]; rfl)
  have value : (leVec bs).toNat = leNat bs := (BitVec.toNat_ofNat ..).trans (Nat.mod_eq_of_lt lt)
  rw [List.getElem?_eq_getElem hk', Option.some_inj]
  apply BitVec.eq_of_toNat_eq
  rw [← byte_leNat bs hk']
  simp [value, BitVec.extractLsb', Nat.shiftRight_eq_div_pow, pow_mul]

end Sys2Proof.Machine

namespace Sys2Proof.Machine

/-! ## The tile, the gather and the decoding load -/

/-- The registers of a group of eight, from the first one on. -/
theorem toNat_regOf_group {d : Reg} (hd : d.toNat % 8 = 0) {j : Nat} (hj : j < 8) : (regOf (d.toNat + j)).toNat = d.toNat + j := by
  have lt := d.isLt
  rw [regOf, BitVec.toNat_ofNat]
  omega

/-- Eight registers written in turn (R206): each holds its own value, and nothing else has changed. -/
theorem putGroup_spec (sl : Slot) {d : Reg} (hd : d.toNat % 8 = 0) (f : Nat → Vec) {n : Nat} (hn : n ≤ 8) :
    let u := (List.range n).foldl (fun a j => a.putV (regOf (d.toNat + j)) (f j)) sl
    (∀ j, j < n → u.getV (regOf (d.toNat + j)) = f j) ∧ (∀ r : Reg, r.toNat / 8 ≠ d.toNat / 8 → u.getV r = sl.getV r)
      ∧ u = { sl with v := u.v, present := u.present } := by
  induction n with
  | zero => exact ⟨nofun, fun _ _ => rfl, rfl⟩
  | succ n ih =>
    obtain ⟨written, others, frame⟩ := ih (Nat.le_of_succ_le hn)
    have place := toNat_regOf_group hd (show n < 8 from hn)
    simp only [List.range_succ, List.foldl_append, List.foldl_cons, List.foldl_nil]
    refine ⟨fun j hj => ?_, fun r hr => ?_, ?_⟩
    · obtain hj | rfl := Nat.lt_succ_iff_lt_or_eq.mp hj
      · rw [Slot.getV_putV_other _ _ _ _ fun e => ?_]
        · exact written j hj
        · have e := congrArg BitVec.toNat e
          rw [place, toNat_regOf_group hd (hj.trans hn)] at e
          omega
      · exact Slot.getV_putV_same ..
    · rw [Slot.getV_putV_other _ _ _ _ fun e => ?_]
      · exact others r hr
      · rw [e, place] at hr
        omega
    · generalize List.foldl _ sl (List.range n) = u at frame
      rw [frame]
      rfl

theorem regOf_add (d : Reg) (j : Nat) : regOf (d.toNat + j) = d + BitVec.ofNat 5 j := by
  simp [regOf, BitVec.ofNat_add]

/-- A lane of the vector that a tile load builds for one register. -/
theorem lane_tile (bs : List Byte) (j : Nat) {i : Nat} (hi : i < 8) :
    lane (vecOf 16 ((List.range 8).map fun i => leNat ((bs.drop (16 * i + 2 * j)).take 2))) i 16
      = leNat ((bs.drop (16 * i + 2 * j)).take 2) := by
  have lt : leNat ((bs.drop (16 * i + 2 * j)).take 2) < 2 ^ 16 :=
    (leNat_lt _).trans_le (Nat.pow_le_pow_right (by decide) (List.length_take_le ..))
  rw [lane_vecOf 16 _ i (by simpa using hi) (by simp)]
  simpa using lt

/-- The addresses of a gather or scatter, byte by byte (R208). -/
theorem laneAddrs_spans (base : Word) (idx : Vec) {size : Nat} :
    (laneAddrs base idx size).flatMap (fun a => span a size)
      = (List.range (128 / (8 * size))).flatMap fun i =>
        span ((base + BitVec.ofNat 64 (lane idx i (8 * size) * size)).toNat % 2 ^ 57) size := by
  simp only [laneAddrs, lanes, List.map_map, List.flatMap_map]
  rfl

/-- The lane addresses of an aligned base are aligned. -/
theorem laneAddrs_aligned {base : Word} {idx : Vec} {size : Nat} (hsize : size ∣ 2 ^ 57) (hbase : base.toNat % size = 0) :
    (laneAddrs base idx size).find? (fun a => a % size ≠ 0) = none := by
  refine List.find?_eq_none.mpr fun a ha => ?_
  obtain ⟨l, -, rfl⟩ := List.mem_map.mp ha
  have word : size ∣ 2 ^ 64 := hsize.trans (by decide)
  have sum : size ∣ base.toNat + l * size % 2 ^ 64 :=
    (Nat.dvd_of_mod_eq_zero hbase).add ((Nat.dvd_mod_iff word).mpr (Dvd.intro_left l rfl))
  have aligned : size ∣ addr57 (base + BitVec.ofNat 64 (l * size)) := by
    rw [addr57, BitVec.toNat_add, BitVec.toNat_ofNat]
    exact (Nat.dvd_mod_iff hsize).mpr ((Nat.dvd_mod_iff word).mpr sum)
  simpa using Nat.mod_eq_zero_of_dvd aligned

/-- The lanes of a decoding load, element by element (R207). -/
theorem vlddLanes_eq (fmt i0 per : Nat) (bs : List Byte) (n : Nat) :
    vlddLanes fmt i0 per bs n = (List.range n).map fun j => decodeElement fmt (i0 + j) ((bs.drop (j * per)).take per) := by
  induction n generalizing i0 bs with
  | zero => rfl
  | succ n ih =>
    rw [vlddLanes, ih, List.range_succ_eq_map, List.map_cons, List.map_map, Nat.zero_mul, List.drop_zero]
    congr 1
    refine List.map_congr_left fun j _ => ?_
    show decodeElement fmt (i0 + 1 + j) _ = decodeElement fmt (i0 + (j + 1)) _
    rw [List.drop_drop, Nat.succ_mul, Nat.add_comm per, Nat.add_assoc, Nat.add_comm 1]

/-- The elements of one format take one number of bytes each. -/
theorem length_elementBytes (fmt blk p sc i j : Nat) :
    (elementBytes fmt blk p sc i).length = (elementBytes fmt blk p sc j).length := by
  unfold elementBytes
  dsimp only
  split
  · rfl
  split
  · rfl
  split
  · rfl
  · simp

theorem vlddWidth_cases (fmt : Nat) : vlddWidth fmt = 8 ∨ vlddWidth fmt = 16 ∨ vlddWidth fmt = 32 ∨ vlddWidth fmt = 64 := by
  unfold vlddWidth
  split
  · simp
  split
  · simp
  split <;> simp

end Sys2Proof.Machine

namespace Sys2Proof.Machine

/-! ## The requests of the vector accesses -/

section
variable {s : State} {r : MemReq} {a n : Nat}

theorem beginAccess_inside (hin : ∀ a ∈ r.vas, lsOk s.me.lsbase.toNat s.me.lsbound.toNat a = true) :
    beginAccess s r = localAccess s r :=
  begin_local s r fun a ha => lsOk_lt (hin a ha)

theorem alignedAccess_inside (hv : r.vas = span a 16) (aligned : a % n = 0)
    (hin : ∀ a ∈ r.vas, lsOk s.me.lsbase.toNat s.me.lsbound.toNat a = true) : alignedAccess s r n = localAccess s r := by
  unfold alignedAccess
  rw [ea_span r a 16 hv (by decide), if_neg (not_not.mpr aligned), beginAccess_inside hin]

/-- The request of a vector store (R205): the 16 bytes of the register, lowest first. -/
def vstReq (s : State) (m : MemF) : MemReq :=
  { memReq .vst m (eaMem (s.rx m.s1) m.disp (vldElem m.w)) 16 with data := toLe (s.rv m.d).toNat 16 }

theorem exec_vst_inside {m : MemF} (aligned : eaMem (s.rx m.s1) m.disp (vldElem m.w) % vldElem m.w = 0)
    (hin : ∀ a ∈ (vstReq s m).vas, lsOk s.me.lsbase.toNat s.me.lsbound.toNat a = true) :
    exec (.vst m) s = localAccess s (vstReq s m) := by
  have begun : exec (.vst m) s = alignedAccess s (vstReq s m) (vldElem m.w) := rfl
  rw [begun, alignedAccess_inside (r := vstReq s m) rfl aligned hin]

/-- The request of a tile load (R206): eight rows of 16 bytes, a pitch apart. -/
def tileReq (s : State) (m : MemF) : MemReq :=
  { memReq .vldt m (eaMem (s.rx m.s1) m.disp 16) 16 with
    vas := (List.range 8).flatMap fun i => span (eaMem (s.rx m.s1) m.disp 16 + i * (16 * 2 ^ m.w.toNat)) 16 }

theorem exec_vldt_aligned {m : MemF} (aligned : eaMem (s.rx m.s1) m.disp 16 % 16 = 0) :
    exec (.vldt m) s = localAccess s (tileReq s m) :=
  if_neg (not_not.mpr aligned)

/-- The bytes of an access by lanes (R208): one span per lane, at the base and the scaled lane. -/
def laneBytes (s : State) (g : MrrF) : List Nat :=
  (List.range (16 / 2 ^ g.size.toNat)).flatMap fun i =>
    span ((s.rx g.s1 + BitVec.ofNat 64 (lane (s.rv g.s2) i (8 * 2 ^ g.size.toNat) * 2 ^ g.size.toNat)).toNat % 2 ^ 57)
      (2 ^ g.size.toNat)

def laneReq (s : State) (op : MemOp) (g : MrrF) (data : List Byte) : MemReq :=
  { MemReq.new op 0 g.d.toNat (laneBytes s g) with
    data := data, acq := acqPart g.order, rel := relPart g.order, scope := g.scope.toNat }

theorem laneAccess_aligned {op : MemOp} {g : MrrF} {data : List Byte} (aligned : (s.rx g.s1).toNat % 2 ^ g.size.toNat = 0) :
    laneAccess s op g data = localAccess s (laneReq s op g data) := by
  have small : 2 ^ g.size.toNat ∣ 2 ^ 57 := pow_dvd_pow 2 (g.size.isLt.le.trans (by decide))
  unfold laneAccess
  dsimp only
  rw [laneAddrs_aligned small aligned, laneAddrs_spans, ← Nat.div_div_eq_div_mul]
  rfl

/-- The bytes of a decoding load (R207): those of its elements, in order. -/
def vlddBytes (s : State) (m : MemF) : List Nat :=
  let p := s.rx m.s1
  let fmt := bits p.toNat 63 60
  (List.range (128 / vlddWidth fmt)).flatMap fun j => elementBytes fmt (bits p.toNat 59 57) (addr57 p)
    (addr57 (s.rx (m.s1 + 1))) ((s.rx (m.s1 + 2) + sext m.disp).toNat + j)

/-- The request of a decoding load: its format is the width, its first index the compare word. -/
def vlddReq (s : State) (m : MemF) : MemReq :=
  { memReq .vldd m 0 0 with
    w := bits (s.rx m.s1).toNat 63 60, cmp := BitVec.ofNat 64 (s.rx (m.s1 + 2) + sext m.disp).toNat, vas := vlddBytes s m }

theorem exec_vldd_aligned {m : MemF} (known : badFormat (s.rx m.s1) = false)
    (aligned : addr57 (s.rx m.s1) % (if hasSidecar (bits (s.rx m.s1).toNat 63 60) then 1
      else vlddWidth (bits (s.rx m.s1).toNat 63 60) / 8) = 0)
    (sidecar : hasSidecar (bits (s.rx m.s1).toNat 63 60) →
      addr57 (s.rx (m.s1 + 1)) % (if bits (s.rx m.s1).toNat 63 60 = 7 then 4 else 2) = 0)
    (hin : ∀ a ∈ vlddBytes s m, lsOk s.me.lsbase.toNat s.me.lsbound.toNat a = true) :
    exec (.vldd m) s = localAccess s (vlddReq s m) := by
  show execVldd m s = _
  simp only [hasSidecar, Bool.or_eq_true, beq_iff_eq, or_assoc] at aligned
  have sided : ¬ (hasSidecar (bits (s.rx m.s1).toNat 63 60)
      ∧ addr57 (s.rx (m.s1 + 1)) % (if bits (s.rx m.s1).toNat 63 60 = 7 then 4 else 2) ≠ 0) := fun h => h.2 (sidecar h.1)
  unfold execVldd
  dsimp only
  rw [known, if_neg (by decide), if_neg (not_not.mpr aligned), if_neg sided]
  exact beginAccess_inside (r := vlddReq s m) hin

end

theorem length_flatMap_const {α : Type} {f : Nat → List α} {n k : Nat} (h : ∀ i, (f i).length = k) :
    ((List.range n).flatMap f).length = n * k := by
  simp [List.length_flatMap, h]

theorem length_span (a n : Nat) : (span a n).length = n := by simp [span]

/-- What a decoding load writes (R207): each lane the value of its element, and the flags of all of them. -/
theorem vldd_result {r : MemReq} {bs : List Byte} (sl : Slot) {fmt i0 per : Nat} (hop : r.op = .vldd) (hw : r.w = fmt)
    (hi : r.cmp.toNat = i0) (hlen : bs.length = 128 / vlddWidth fmt * per) :
    let wd := vlddWidth fmt
    let decoded (j : Nat) := decodeElement fmt (i0 + j) ((bs.drop (j * per)).take per)
    ∃ v fl, r.result bs sl = (sl.putV (regOf r.rd) v).addFlags fl
      ∧ (∀ j, j < 128 / wd → lane v j wd = (decoded j).1 % 2 ^ wd)
      ∧ fl = ((List.range (128 / wd)).map fun j => (decoded j).2).foldl (· ||| ·) 0 := by
  intro wd decoded
  have pos : 0 < 128 / wd := by
    rcases vlddWidth_cases fmt with h | h | h | h <;> simp [wd, h]
  have result : r.result bs sl = (sl.putV (regOf r.rd)
      (vecOf wd ((vlddLanes fmt i0 (bs.length / (128 / wd)) bs (128 / wd)).map (·.1)))).addFlags
        ((vlddLanes fmt i0 (bs.length / (128 / wd)) bs (128 / wd)).foldl (fun a p => a ||| p.2) 0) := by
    unfold MemReq.result
    rw [hop]
    dsimp only
    rw [hw, hi]
  have each : bs.length / (128 / wd) = per := by rw [hlen, Nat.mul_div_cancel_left _ pos]
  rw [each, vlddLanes_eq] at result
  refine ⟨_, _, result, fun j hj => ?_, ?_⟩
  · rw [lane_vecOf wd _ j (by simpa using hj) (by simpa using Nat.mul_div_le 128 wd)]
    simp [decoded]
  · simp [List.foldl_map, decoded]

/-- Settles O24: each instruction makes one local-store request, which completes in one pass or parks. -/
theorem localVectorAccesses : Obligations.LocalVectorAccesses := by
  intro s m g sound _ c ea single inside bytes parks loads stores register vector n size gather rows p fmt i0 wd per elements
  have loads_of {o : Out} {r : MemReq} {vas : List Nat} {result : List Byte → Slot → Prop} (hv : r.vas = vas)
      (ho : r.op = .ld ∨ r.op = .vld ∨ r.op = .vldd ∨ r.op = .vldt ∨ r.op = .vldx)
      (start : inside r.vas → o = localAccess s r) (written : inside vas → result (bytes vas) (r.result (bytes vas) s.me)) :
      loads o vas result := by
    subst hv
    intro hin
    rw [start hin]
    refine ⟨fun one => ?_, localAccess_load_many hin sound ho⟩
    obtain ⟨t, done, mine, rest⟩ := localAccess_load_inside hin sound ho one
    exact ⟨t, _, done, written hin, mine, rest⟩
  have stores_of {o : Out} {r : MemReq} {vas : List Nat} (hv : r.vas = vas) (ho : r.op = .st ∨ r.op = .vst ∨ r.op = .vstx)
      (start : inside r.vas → o = localAccess s r) (hlen : r.data.length = r.vas.length) : stores o vas r.data := by
    subst hv
    intro hin
    rw [start hin]
    refine ⟨fun one => ?_, localAccess_store_many hin sound ho⟩
    obtain ⟨t, done, h⟩ := localAccess_store_inside hin sound ho hlen one
    have full : r.data.length = (physOf r.vas).length :=
      hlen.trans (length_physOf fun a ha => isSome_lsPhys_of_lsOk (hin a ha)).symm
    exact ⟨t, done, h.slots, h.onlyBytes, fun i q hi last => h.byte full hi last⟩
  clear_value loads stores
  have length_bytes {vas : List Nat} (hin : inside vas) : (bytes vas).length = vas.length := by
    rw [List.length_map]
    exact length_physOf fun a ha => isSome_lsPhys_of_lsOk (hin a ha)
  have whole {d : Reg} {vas : List Nat} (hin : inside vas) (h16 : vas.length = 16) :
      register d (bytes vas) (s.me.putV (regOf d.toNat) (leVec (bytes vas))) :=
    ⟨_, by rw [regOf_toNat], fun k hk => byte_leVec ((length_bytes hin).trans h16) hk⟩
  have length_gather : gather.length = 16 := by
    have divides : size ∣ 16 := pow_dvd_pow 2 (show g.size.toNat ≤ 4 by omega)
    rw [← Nat.div_mul_cancel divides]
    exact length_flatMap_const fun i => length_span ..
  refine ⟨fun aligned => ⟨?vld, ?vst⟩, fun aligned group => ?vldt, fun aligned => ⟨?vldx, ?vstx⟩,
    fun known aligned sidecar => ?vldd⟩
  case vld =>
    exact loads_of (r := memReq .vld m (ea n) 16) rfl (.inr (.inl rfl)) (alignedAccess_inside rfl aligned)
      fun hin => whole hin (length_span ..)
  case vst =>
    rw [show vector (s.rv m.d) = toLe (s.rv m.d).toNat 16 from (vectorBytes _).symm]
    exact stores_of (r := vstReq s m) rfl (.inr (.inl rfl)) (exec_vst_inside aligned)
      ((length_toLe ..).trans (length_span ..).symm)
  case vldx =>
    exact loads_of (r := laneReq s .vldx g []) rfl (.inr (.inr (.inr (.inr rfl)))) (fun _ => laneAccess_aligned aligned)
      fun hin => whole hin length_gather
  case vstx =>
    rw [show vector (s.rv g.d) = toLe (s.rv g.d).toNat 16 from (vectorBytes _).symm]
    exact stores_of (r := laneReq s .vstx g (toLe (s.rv g.d).toNat 16)) rfl (.inr (.inr rfl)) (fun _ => laneAccess_aligned aligned)
      ((length_toLe ..).trans length_gather.symm)
  case vldt =>
    have hv : (tileReq s m).vas = rows := rfl
    refine loads_of hv (.inr (.inr (.inr (.inl rfl)))) (fun _ => exec_vldt_aligned aligned) fun _ => ?_
    obtain ⟨written, others, frame⟩ := putGroup_spec s.me group (fun j => vecOf 16 ((List.range 8).map fun i =>
      leNat (((bytes rows).drop (16 * i + 2 * j)).take 2))) (Nat.le_refl 8)
    refine ⟨fun i j hi hj => ?_, others, frame⟩
    rw [← regOf_add]
    exact (congrArg (lane · i 16) (written j hj)).trans (lane_tile _ _ hi)
  case vldd =>
    have start : inside elements → exec (.vldd m) s = localAccess s (vlddReq s m) := exec_vldd_aligned known aligned sidecar
    have hv : (vlddReq s m).vas = elements := rfl
    refine loads_of hv (.inr (.inr (.inl rfl))) start fun hin => ?_
    have hlen : (bytes elements).length = 128 / wd * (per 0).length := by
      rw [length_bytes hin]
      exact length_flatMap_const fun j => length_elementBytes ..
    rw [← regOf_toNat m.d]
    exact vldd_result s.me rfl rfl ((BitVec.toNat_ofNat ..).trans (Nat.mod_eq_of_lt (BitVec.isLt _))) hlen

end Sys2Proof.Machine

namespace Sys2Proof.Machine

/-! ## The waiters of a full/empty word -/

/-- The reply to a waiter whose context is installed writes the bytes and ends its wait (R200). -/
theorem deliverLds_installed {v : State} {c num k : Nat} {w : Waiter} {r : MemReq} (bs : List Byte) (who : w.who = .ctx c num)
    (hk : ctxSlot v c num = some k) (wait : (v.slot k).wait = .mem r) (plain : r.acq = false) :
    deliverLds v c w bs = finishCtx v c num (ldsResult r bs) := by
  have waits : (ctxOf v c num).map Slot.wait = some (.mem r) := by
    rw [ctxOf_eq v c num k hk]
    exact congrArg some wait
  unfold deliverLds
  rw [who]
  dsimp only
  rw [if_pos rfl, waits]
  dsimp only
  rw [plain, if_neg (by decide)]

/-- The state in which the oldest waiter `w` has left its queue and its word is empty again (R201). -/
def waiterTaken (u : State) (c word : Nat) (w : Waiter) : State :=
  u.modCore c fun co => setEmptyBit { co with waiters := co.waiters.erase w } word

theorem releaseWaiter_oldest {u : State} {c word : Nat} {w : Waiter}
    (oldest : (u.core c).waiters.find? (·.word == word) = some w) (nobody : (u.core c).parkedLds = []) :
    releaseWaiter u c word = deliverLds (waiterTaken u c word w) c w (waiterBytes u c w) := by
  have none_parked : ((waiterTaken u c word w).core c).parkedLds.length = 0 := by
    unfold waiterTaken
    rw [State.core_modCore_same]
    exact congrArg List.length nobody
  unfold releaseWaiter
  rw [oldest]
  show retryLds _ c ((waiterTaken u c word w).core c).parkedLds.length = _
  rw [none_parked]
  rfl

/-- A word set full with a waiter goes to the oldest one (R201): its slot goes on with the bytes, and the word is empty again. -/
theorem releaseWaiter_hands_over {u : State} {c word num k : Nat} {w : Waiter} {r : MemReq}
    (oldest : (u.core c).waiters.find? (·.word == word) = some w) (who : w.who = .ctx c num)
    (hk : ctxSlot u c num = some k) (wait : (u.slot k).wait = .mem r) (plain : r.acq = false)
    (hl : (u.slot k).longUntil ≤ u.cycle) (hr : (u.slot k).streamsRead = 0) (hh : (u.slot k).held = Held.none)
    (hs : (u.slot k).stopPending = false) (nobody : (u.core c).parkedLds = []) :
    let t := releaseWaiter u c word
    word ∈ (t.core c).emptyWords ∧ (t.core c).waiters = (u.core c).waiters.erase w ∧ (t.core c).ls = (u.core c).ls
      ∧ t.slot k = Slot.enter { ldsResult r (waiterBytes u c w) (u.slot k) with
          wait := .none, pc := (u.slot k).npc, bundle := 0 } u.cycle .ready := by
  intro t
  have slot : (waiterTaken u c word w).slot k = u.slot k := rfl
  have installed : ctxSlot (waiterTaken u c word w) c num = some k :=
    (ctxSlot_congr u _ c num fun _ => ⟨rfl, rfl⟩).trans hk
  have finish : t = finishCtx (waiterTaken u c word w) c num (ldsResult r (waiterBytes u c w)) :=
    (releaseWaiter_oldest oldest nobody).trans (deliverLds_installed _ who installed (slot ▸ wait) plain)
  have same := core_finishCtx (ldsResult r (waiterBytes u c w)) installed c
  rw [← finish] at same
  unfold Core.butTrace waiterTaken at same
  rw [State.core_modCore_same] at same
  refine ⟨?_, ?_, ?_, ?_⟩
  · rw [same]
    exact (mem_insWord ..).mpr (.inl rfl)
  · rw [same]
    rfl
  · rw [same]
    rfl
  · rw [finish, slot_finishCtx_same installed (by rw [slot]; exact (Slot.longUntil_putX ..).trans_le hl) (by simp [ldsResult, slot, hr])
      (by simp [ldsResult, slot, hs]) (by simp [ldsResult, slot, hh]) (by simp [ldsResult, slot, wait]), slot]
    simp [ldsResult]
    rfl

section
variable {s : State} {m : MemF} {a n : Nat} {phys : Nat → Nat}

/-- An LDS of an empty word parks its slot and joins the waiters (R200). -/
theorem ScalarSpan.exec_lds_empty (at_ : ScalarSpan s m a n phys) (hw : s.writable m.d) (ht : tySize m.w.toNat = n)
    (unflipped : s.flipped = []) (empty : phys a / 8 ∈ (s.core (coreOf s.cur)).emptyWords) :
    exec (.lds m) s = .next (joinWaiters (park (claimBanks s (coreOf s.cur)
      (1#8 <<< (((physOf (span a n)).head?).getD 0 / 16 % 8))) s.cur .waitMem (.mem (memReq .lds m a n))) (coreOf s.cur)
      { word := phys a / 8, who := .ctx (coreOf s.cur) s.me.ctxNum, world := s.me.world, off := a, size := n }) := by
  have isEmpty : isFull (s.core (coreOf s.cur)) (((physOf (span a n)).head?).getD 0 / 8) = false := by
    rw [at_.word]
    simpa [isFull] using empty
  rw [at_.exec_lds hw ht, localAccess_lds_empty s _ rfl at_.noFault isEmpty]
  show Host.Outcome.next (joinWaiters (park (singlePass s _ (physOf (span a n))) _ _ _) _
    { word := ((physOf (span a n)).head?).getD 0 / 8, who := _, world := _, off := _, size := (span a n).length }) = _
  rw [at_.word, ea_span (memReq .lds m a n) a n rfl at_.pos, length_span]
  unfold singlePass
  rw [lsCorrect_nil _ _ _ unflipped]

end

/-- The place of a new waiter: last in the queue while it has fewer than 64 entries, and without an entry after that. -/
theorem core_joinWaiters (s : State) (c : Nat) (w : Waiter) :
    (joinWaiters s c w).core c = if (s.core c).waiters.length < 64
      then { s.core c with waiters := (s.core c).waiters ++ [w] }
      else { s.core c with parkedLds := (s.core c).parkedLds ++ [w] } :=
  State.core_modCore_same ..

/-- The places of a span that lies in the share are those that the windows give. -/
theorem SpanOk.of_lsOk {s : State} {a n : Nat}
    (inside : ∀ i, i < n → lsOk s.me.lsbase.toNat s.me.lsbound.toNat (a + i) = true) :
    SpanOk s a n fun x => (lsPhys x).getD 0 := by
  refine ⟨fun i hi => ?_, inside⟩
  obtain ⟨p, place⟩ := Option.isSome_iff_exists.mp (isSome_lsPhys_of_lsOk (inside i hi))
  simp [place]

/-- Settles O25: the empty word parks its reader in the queue; the store that fills it hands it to the oldest waiter. -/
theorem fullEmptyWaiters : Obligations.FullEmptyWaiters := by
  intro s m sound unflipped c n a word aligned inside
  have ht : tySize m.w.toNat = n := tySize_pow _
  have at_ : ScalarSpan s m a n fun x => (lsPhys x).getD 0 := ⟨.of_lsOk inside, ht ▸ tySize_cases _, aligned, sound, rfl⟩
  refine ⟨fun hw _ empty => ?wait, fun w num k r oldest who hk _ wait plain hl hr hh hs nobody _ => ?handOver⟩
  case wait =>
    let w : Waiter := { word := word, who := .ctx c s.me.ctxNum, world := s.me.world, off := a, size := n }
    let u := claimBanks s c (1#8 <<< (((physOf (span a n)).head?).getD 0 / 16 % 8))
    let p := park u s.cur .waitMem (.mem (memReq .lds m a n))
    have same : (u.core c).butTrace (p.core c) := core_park ..
    obtain ⟨lsSame, waitersSame, parkedSame⟩ : (p.core c).ls = (s.core c).ls ∧ (p.core c).waiters = (s.core c).waiters
        ∧ (p.core c).parkedLds = (s.core c).parkedLds := by
      unfold Core.butTrace at same
      rw [same, show u.core c = _ from State.core_modCore_same ..]
      exact ⟨rfl, rfl, rfl⟩
    have me : (joinWaiters p c w).me = Slot.enter { s.me with wait := .mem (memReq .lds m a n) } s.cycle .waitMem :=
      (congrArg p.slot (cur_park ..)).trans (slot_park_same ..)
    have core := core_joinWaiters p c w
    refine ⟨joinWaiters p c w, at_.exec_lds_empty hw ht unflipped empty, ?_, ?_, ?_, ?_, ?_, ?_, ?_⟩
    · rw [me, state_enter]
    · rw [me, x_enter]
    · rw [me, v_enter]
    · rw [me, pc_enter]
    · intro k hk
      exact slot_park_other _ _ _ _ _ hk
    · rw [core]
      split <;> exact lsSame
    · rw [core, ← waitersSame, ← parkedSame]
      split <;> exact ⟨rfl, rfl⟩
  case handOver =>
    obtain ⟨u, done, stored⟩ := at_.exec_stf ht
    let v := u.modCore c fun co => setFullBit co word
    have core : v.core c = setFullBit (u.core c) word := State.core_modCore_same ..
    have same : (s.slot k).butSignatures (v.slot k) := stored.slots k
    have installed : ctxSlot v c num = some k := by
      refine (ctxSlot_congr s v c num fun j => ?_).trans hk
      have state := congrArg Slot.state (stored.slots j)
      have ctxNum := congrArg Slot.ctxNum (stored.slots j)
      exact ⟨state, ctxNum⟩
    have waiters : (v.core c).waiters = (s.core c).waiters := by
      rw [core]
      exact stored.waiters
    obtain ⟨emptied, left, lsSame, slot⟩ := releaseWaiter_hands_over (u := v) (waiters ▸ oldest) who installed
      ((congrArg Slot.wait same).trans wait) plain
      (by rw [show (v.slot k).longUntil = _ from congrArg Slot.longUntil same]; exact hl.trans_eq stored.cycle.symm)
      ((congrArg Slot.streamsRead same).trans hr) ((congrArg Slot.held same).trans hh)
      ((congrArg Slot.stopPending same).trans hs) (by rw [core]; exact stored.parkedLds.trans nobody)
    refine ⟨releaseWaiter v c word, done, emptied, left.trans (congrArg (·.erase w) waiters), ?_, ?_, ?_, fun i p place => ?_⟩
    · rw [slot, state_enter]
    · have npc := congrArg Slot.npc same
      rw [slot, pc_enter]
      exact npc
    · have x := congrArg Slot.x (putX_butSignatures (regOf r.rd) (extendTy r.w (waiterBytes v c w)) _ _ same)
      rw [slot, x_enter, lsSame]
      exact x
    · rw [lsSame, core]
      obtain ⟨hi, rfl⟩ : i < n ∧ p = (lsPhys (a + i)).getD 0 := by
        obtain ⟨hi, rfl⟩ := List.getElem?_eq_some_iff.mp (physOf_span at_.ok ▸ place)
        simpa using hi
      exact stored.span_byte at_.ok at_.size aligned hi

end Sys2Proof.Machine

namespace Sys2Proof.Machine

/-! ## One pass of an access of several -/

/-- The places that a pass serves: those whose chunk is among the chunks `now`. -/
def servedIdx (ps now : List Nat) : List Nat :=
  (List.range ps.length).filter fun i => now.contains ((ps[i]?).getD 0 / 16)

theorem mem_servedIdx {ps now : List Nat} {i p : Nat} (hi : ps[i]? = some p) : i ∈ servedIdx ps now ↔ p / 16 ∈ now := by
  obtain ⟨lt, -⟩ := List.getElem?_eq_some_iff.mp hi
  simp only [servedIdx, List.mem_filter, List.mem_range, lt, hi, true_and, List.contains_iff_mem, Option.getD_some]

theorem getElem?_of_mem_servedIdx {ps now : List Nat} {i : Nat} (h : i ∈ servedIdx ps now) :
    ps[i]? = some ((ps[i]?).getD 0) := by
  obtain ⟨lt, -⟩ := List.mem_filter.mp h
  rw [List.getElem?_eq_getElem (List.mem_range.mp lt)]
  rfl

theorem nodup_servedIdx {ps : List Nat} (now : List Nat) (h : ps.Nodup) :
    ((servedIdx ps now).map fun i => (ps[i]?).getD 0).Nodup := by
  have part : (servedIdx ps now).Sublist (List.range ps.length) := List.filter_sublist
  have whole := part.map fun i => (ps[i]?).getD 0
  rw [map_getD_range] at whole
  exact h.sublist whole

theorem find_foldl_set_other {α : Type} (g : NMap α) {l : List Nat} (f : Nat → α) {i : Nat} (h : i ∉ l) :
    NMap.find (l.foldl (fun g i => NMap.set g i (f i)) g) i = NMap.find g i := by
  induction l generalizing g with
  | nil => rfl
  | cons a l ih =>
    obtain ⟨ne, out⟩ := not_or.mp (mt List.mem_cons.mpr h)
    rw [List.foldl_cons, ih _ out, NMap.find_set_other _ _ _ _ ne]

/-- The bytes that a store of `data` at the places `ps` writes in the pass. -/
def servedBytes (ps now : List Nat) (data : List Byte) : List (Nat × Byte) :=
  (servedIdx ps now).map fun i => ((ps[i]?).getD 0, (data[i]?).getD 0)

/-- The bytes that a pass of a store has written. -/
theorem cellGet_lsPut_served {ps now : List Nat} (ls : List Host.Cell) (data : List Byte) (distinct : ps.Nodup) {i p : Nat}
    (hi : ps[i]? = some p) :
    cellGet (lsPut ls (servedBytes ps now data)) p
      = if p / 16 ∈ now then (data[i]?).getD 0 else cellGet ls p := by
  split
  case isTrue served =>
    obtain ⟨j, place⟩ := List.mem_iff_getElem?.mp ((mem_servedIdx hi).mpr served)
    have stands : ((servedIdx ps now).map fun i => (ps[i]?).getD 0)[j]? = some p := by
      rw [List.getElem?_map, place]
      simp [hi]
    have written := cellGet_lsPut_last ls (bs := (servedIdx ps now).map fun i => (data[i]?).getD 0) (by simp) stands
      (no_later_of_nodup (nodup_servedIdx now distinct) stands)
    rw [List.zip_map', List.getElem?_map, place] at written
    exact Option.some.inj written
  case isFalse unserved =>
    refine cellGet_lsPut_outside _ _ _ fun q hq e => unserved ?_
    obtain ⟨j, hj, rfl⟩ := List.mem_map.mp hq
    exact (mem_servedIdx ((getElem?_of_mem_servedIdx hj).trans (congrArg some e))).mp hj

/-- The bytes that a load has gathered, once those at the positions `idx` are read. -/
def gathered (ls : List Host.Cell) (ps : List Nat) (got : NMap Byte) (idx : List Nat) : NMap Byte :=
  idx.foldl (fun g i => NMap.set g i (cellGet ls ((ps[i]?).getD 0))) got

/-- What serving the chunks `now` of the request `r` has done (R153): a store writes their bytes, a load gathers them. -/
structure ServedPass (c : Nat) (r : MemReq) (now : List Nat) (s s1 : State) (r1 : MemReq) : Prop where
  slots : ∀ k, s1.slot k = s.slot k
  cycle : s1.cycle = s.cycle
  request : r1 = { r with got := r1.got }
  unstored : r.isStore = false → ∀ d, (s1.core d).ls = (s.core d).ls
  stored : r.isStore = true → (s1.core c).ls = lsPut (s.core c).ls (servedBytes (physOf r.vas) now r.data)
  gathered : r.isStore = false → ∀ i p : Nat, (physOf r.vas)[i]? = some p →
    NMap.find r1.got i = if p / 16 ∈ now then some (cellGet (s.core c).ls p) else NMap.find r.got i

theorem serveChunks_served {s : State} (c : Nat) (r : MemReq) (now : List Nat) (sound : s.poison = [])
    (unflipped : s.flipped = []) : ServedPass c r now s (serveChunks s c r now).1 (serveChunks s c r now).2 := by
  cases kind : r.isStore with
  | true =>
    obtain ⟨clusters, done⟩ := lsStore_frame s c ((servedIdx (physOf r.vas) now).map fun i => ((physOf r.vas)[i]?).getD 0)
      ((servedIdx (physOf r.vas) now).map fun i => (r.data[i]?).getD 0) sound
    have pass : serveChunks s c r now = (lsStore s c ((servedIdx (physOf r.vas) now).map fun i => ((physOf r.vas)[i]?).getD 0)
        ((servedIdx (physOf r.vas) now).map fun i => (r.data[i]?).getD 0), r) := by
      unfold serveChunks
      rw [if_pos kind]
      simp [servedIdx, Function.comp_def]
    rw [lsCorrect_nil _ _ _ unflipped, List.zip_map'] at done
    rw [pass, done]
    have ls := congrArg Core.ls
      (State.core_modCore_same s c fun co => { co with ls := lsPut co.ls (servedBytes (physOf r.vas) now r.data) })
    exact ⟨fun _ => rfl, rfl, rfl, by simp [kind], fun _ => ls, by simp [kind]⟩
  | false =>
    have pass : serveChunks s c r now = (s, { r with got := gathered (s.core c).ls (physOf r.vas) r.got (servedIdx (physOf r.vas) now) }) := by
      unfold serveChunks
      rw [kind, if_neg (by decide), lsCorrect_nil _ _ _ unflipped]
      rfl
    rw [pass]
    refine ⟨fun _ => rfl, rfl, rfl, fun _ _ => rfl, by simp [kind], fun _ i p hi => ?_⟩
    split
    case isTrue served =>
      exact (find_foldl_set _ _ _ i ((mem_servedIdx hi).mpr served)).trans (by rw [hi]; rfl)
    case isFalse unserved =>
      exact find_foldl_set_other _ _ fun h => unserved ((mem_servedIdx hi).mp h)

/-! ## Results, and what a slot waits for -/

/-- The second slot differs from the first in its registers and flags alone. -/
def Slot.RegsOnly (a b : Slot) : Prop := b = { a with x := b.x, v := b.v, present := b.present, fflags := b.fflags }

theorem Slot.RegsOnly.trans {a b c : Slot} (h : a.RegsOnly b) (h' : b.RegsOnly c) : a.RegsOnly c := by
  unfold Slot.RegsOnly at *
  rw [h', h]

theorem Slot.regsOnly_putX (sl : Slot) (d : Reg) (w : Word) : sl.RegsOnly (sl.putX d w) := by
  unfold Slot.RegsOnly Slot.putX
  split <;> rfl

theorem Slot.regsOnly_putV (sl : Slot) (d : Reg) (w : Vec) : sl.RegsOnly (sl.putV d w) := rfl

theorem Slot.regsOnly_addFlags (sl : Slot) (f : BitVec 5) : sl.RegsOnly (sl.addFlags f) := rfl

theorem Slot.regsOnly_foldl {α : Type} {f : Slot → α → Slot} (hf : ∀ x a, Slot.RegsOnly a (f a x)) (l : List α) (sl : Slot) :
    sl.RegsOnly (l.foldl f sl) := by
  induction l generalizing sl with
  | nil => rfl
  | cons x l ih => exact (hf x sl).trans (ih _)

theorem MemReq.result_regsOnly (r : MemReq) (bs : List Byte) (sl : Slot) : sl.RegsOnly (r.result bs sl) := by
  unfold MemReq.result
  cases r.op with
  | ld | lds | ldp | gstat => exact sl.regsOnly_putX _ _
  | vld | vldx => exact sl.regsOnly_putV _ _
  | vldd => exact (sl.regsOnly_putV _ _).trans (Slot.regsOnly_addFlags _ _)
  | amo => exact (sl.regsOnly_putX _ _).trans (Slot.regsOnly_addFlags _ _)
  | vldt => exact Slot.regsOnly_foldl (fun _ a => a.regsOnly_putV _ _) _ _
  | st | stf | sfe | vst | vstx | qpush | xred | sttk | fence | tdone | tyield => rfl

theorem Slot.putX_wait (sl : Slot) (w : Wait) (d : Reg) (x : Word) :
    ({ sl with wait := w } : Slot).putX d x = { sl.putX d x with wait := w } := by
  unfold Slot.putX
  split <;> rfl

theorem foldl_wait {α : Type} {f : Slot → α → Slot} {w : Wait}
    (hf : ∀ x (a : Slot), f { a with wait := w } x = { f a x with wait := w }) (l : List α) (sl : Slot) :
    l.foldl f { sl with wait := w } = { l.foldl f sl with wait := w } := by
  induction l generalizing sl with
  | nil => rfl
  | cons x l ih => rw [List.foldl_cons, hf, ih, List.foldl_cons]

/-- A result is the same whatever its slot waits for. -/
theorem MemReq.result_wait (r : MemReq) (bs : List Byte) (sl : Slot) (w : Wait) :
    r.result bs { sl with wait := w } = { r.result bs sl with wait := w } := by
  unfold MemReq.result
  cases r.op with
  | ld | lds | ldp | gstat => exact sl.putX_wait w _ _
  | amo =>
    dsimp only
    rw [sl.putX_wait w]
    rfl
  | vld | vldx | vldd => rfl
  | vldt => exact foldl_wait (fun _ _ => rfl) _ _
  | st | stf | sfe | vst | vstx | qpush | xred | sttk | fence | tdone | tyield => rfl

/-- The end of an access: the result is written and the bundle commits. -/
theorem slot_finishBundle_result {s : State} {k : Nat} {r : MemReq} (bs : List Byte) (hl : (s.slot k).longUntil ≤ s.cycle)
    (hr : (s.slot k).streamsRead = 0) (hh : (s.slot k).held = Held.none) (hs : (s.slot k).stopPending = false)
    (hw : (s.slot k).wait ≠ .longHalt) :
    let t := finishBundle (s.modSlot k (r.result bs)) k
    (t.slot k).state = .ready ∧ (t.slot k).pc = (s.slot k).npc ∧ (t.slot k).x = (r.result bs (s.slot k)).x
      ∧ (t.slot k).v = (r.result bs (s.slot k)).v := by
  intro t
  have same := r.result_regsOnly bs (s.slot k)
  have slot : (s.modSlot k (r.result bs)).slot k = r.result bs (s.slot k) := State.slot_modSlot_same ..
  have ended := slot_finishBundle_same (s.modSlot k (r.result bs)) k
  rw [slot] at ended
  generalize r.result bs (s.slot k) = u at *
  unfold Slot.RegsOnly at same
  rw [show t.slot k = _ from ended (by rw [same]; exact hl) (by rw [same]; exact hr) (by rw [same]; exact hs)
    (by rw [same]; exact hh), state_enter, pc_enter, x_enter, v_enter, if_neg (by rw [same]; exact hw)]
  exact ⟨rfl, by rw [same], rfl, rfl⟩

/-- A further pass (R153): the access waits on with the chunks that are left, and with none its bundle ends. -/
theorem exec_localStorePass {s : State} {k : Nat} {r : MemReq} (waits : (s.slot k).wait = .mem r) (more : r.chunks ≠ [])
    (notPush : r.op ≠ .qpush) (notRed : r.op ≠ .xred) (sound : s.poison = []) (unflipped : s.flipped = []) :
    let c := coreOf k
    let pass := onePass (if (s.core c).bankCycle + 1 = s.cycle then (s.core c).bankMask else 0) r.chunks
    ∃ s1 r1, ServedPass c r pass.1 s s1 r1
      ∧ let s2 := s1.modSlot k fun sl => { sl with wait := .mem { r1 with chunks := pass.2.1 } }
        exec (.localStorePass k) s
          = .next (if pass.2.1 = [] then finishBundle (s2.modSlot k (r1.result r1.bytes)) k else s2) := by
  intro c pass
  let s0 := s.modCore c fun x => { x with bankCycle := s.cycle - 1, bankMask := pass.2.2 }
  have served : ServedPass c r pass.1 s0 _ _ := serveChunks_served c r pass.1 sound unflipped
  have ls (d : Nat) : (s0.core d).ls = (s.core d).ls := by
    by_cases h : d = c
    · rw [h, State.core_modCore_same]
    · rw [State.core_modCore_other _ _ _ _ h]
  refine ⟨_, _, ⟨served.slots, served.cycle, served.request, fun h d => (served.unstored h d).trans (ls d),
    fun h => (served.stored h).trans (congrArg (lsPut · _) (ls c)), fun h i p hi => ls c ▸ served.gathered h i p hi⟩, ?_⟩
  have op : (serveChunks s0 c r pass.1).2.op = r.op := by rw [served.request]
  intro s2
  show execLocalStorePass k s = _
  unfold execLocalStorePass
  rw [waits]
  dsimp only
  refine (if_neg (by simpa using more)).trans ?_
  by_cases done : pass.2.1 = []
  · refine (if_pos (List.isEmpty_iff.mpr done)).trans ?_
    rw [if_pos done]
    split
    next push => exact absurd (op.symm.trans push) notPush
    next red => exact absurd (op.symm.trans red) notRed
    next => rfl
  · rw [if_neg done]
    exact if_neg (mt List.isEmpty_iff.mp done)

/-- Settles O26: the pass serves its chunks; with none left the access ends. -/
theorem localStorePasses : Obligations.LocalStorePasses := by
  intro s k r waits more sound unflipped notPush notRed c busy now rest
  obtain ⟨s1, r1, served, done⟩ := exec_localStorePass waits more notPush notRed sound unflipped
  let r' : MemReq := { r1 with chunks := rest }
  let s2 := s1.modSlot k fun sl => { sl with wait := .mem r' }
  have slot2 : s2.slot k = { s.slot k with wait := .mem r' } :=
    (State.slot_modSlot_same ..).trans (by rw [served.slots])
  obtain ⟨t, ht⟩ : ∃ t, t = if rest = [] then finishBundle (s2.modSlot k (r1.result r1.bytes)) k else s2 := ⟨_, rfl⟩
  have ls (d : Nat) : (t.core d).ls = (s1.core d).ls := by
    rw [ht]
    split
    · have same := congrArg Core.ls (core_finishBundle (s2.modSlot k (r1.result r1.bytes)) k d)
      exact same
    · rfl
  obtain ⟨op, vas, rd, w⟩ : r1.op = r.op ∧ r1.vas = r.vas ∧ r1.rd = r.rd ∧ r1.w = r.w := by
    rw [served.request]
    exact ⟨rfl, rfl, rfl, rfl⟩
  refine ⟨t, r', ht ▸ done, rfl, op, vas, rd, w, fun load d => (ls d).trans (served.unstored load d),
    fun store distinct => ⟨fun i p hi => ?_, fun p hp => ?_⟩, served.gathered, fun left => ?_,
    fun none_left hl hr hh hs => ?_, fun j hj => ?_⟩
  · rw [ls, served.stored store]
    exact cellGet_lsPut_served _ _ distinct hi
  · rw [ls, served.stored store]
    refine cellGet_lsPut_outside _ _ _ fun q hq e => hp ?_
    obtain ⟨i, hi, rfl⟩ := List.mem_map.mp hq
    exact List.mem_of_getElem? ((getElem?_of_mem_servedIdx hi).trans (congrArg some e))
  · rw [ht, if_neg left]
    exact slot2
  · rw [ht, if_pos none_left]
    have ended := slot_finishBundle_result (s := s2) (k := k) (r := r1) r1.bytes
    rw [slot2, r1.result_wait r1.bytes] at ended
    exact ended (hl.trans_eq served.cycle.symm) hr hh hs nofun
  · rw [ht]
    split
    · rw [slot_finishBundle_other _ _ _ hj, State.slot_modSlot_other _ _ _ _ hj, State.slot_modSlot_other _ _ _ _ hj,
        served.slots]
    · rw [State.slot_modSlot_other _ _ _ _ hj, served.slots]

end Sys2Proof.Machine

/-! PROOFS of O33. SEND by where its destination lies, and RECV by what the mailboxes of its world hold. -/

namespace Sys2Proof.Machine

/-! ## SEND -/

/-- A tag drawn while one is free is the lowest (R157), with the generation that it had; slots and memory stay. -/
theorem drawTag_lowest {s : State} {die : Nat} (who : ReplyTo) (module : Nat) (room : lowestFree (s.die die).tags 0 < tagCount) :
    ∃ u, drawTag s die who module = some (lowestFree (s.die die).tags 0, (getTag s die (lowestFree (s.die die).tags 0)).gen, u)
      ∧ u.cycle = s.cycle ∧ u.me = s.me ∧ (∀ k, u.slot k = s.slot k) ∧ u.mem = s.mem :=
  ⟨_, if_pos room, rfl, rfl, fun _ => rfl, rfl⟩

section
variable {s : State} {r : BitVec 1} {mb : BitVec 4} {d a b e : Reg}

/-- The slot of a SEND that has started its token (R59): a release takes the fence's pending release with it. -/
def sendStarted (r : BitVec 1) (d : Reg) (sl : Slot) : Slot :=
  { sl.startToken d with fenceRel := sl.fenceRel && !(r == 1) }

/-- The message of a SEND (R213). -/
def sendMsg (s : State) (r : BitVec 1) (mb : BitVec 4) (b e : Reg) (who : ReplyTo) : MailMsg :=
  { typ := 0, mbox := mb.toNat, sender := (endpoint s s.cur).toNat, world := s.me.world,
    d1 := (s.rv b).extractLsb' 0 64, d2 := (s.rv b).extractLsb' 64 64, d3 := s.rx e, sig := if r == 1 then s.me.acc else 0,
    rel := r == 1, from_ := who }

/-- What a SEND leaves behind but for the agenda: its token started, and no other slot and no memory changed. -/
structure SendStarted (r : BitVec 1) (d : Reg) (s t : State) : Prop where
  me : t.me = sendStarted r d s.me
  others : ∀ k, k ≠ s.cur → t.slot k = s.slot k
  mem : t.mem = s.mem

theorem sendStarted_modMe (s : State) (r : BitVec 1) (d : Reg) : SendStarted r d s (s.modMe (sendStarted r d)) :=
  ⟨State.me_modMe .., fun _ hk => State.slot_modSlot_other _ _ _ _ hk, rfl⟩

theorem send_no_cluster (hw : s.writable d) (out : 3200 ≤ (s.rx a).toNat % 2 ^ 34 / 64 % 4096) :
    exec (.send r mb d a b e) s = trapOut s 5 0x17 (BitVec.ofNat 64 ((s.rx a).toNat % 2 ^ 34)) := by
  show execSend r mb d a b e s = _
  unfold execSend
  rw [guardX_writable _ _ _ hw]
  exact if_pos out

variable (hw : s.writable d) (inside : (s.rx a).toNat % 2 ^ 34 / 64 % 4096 < 3200)
include hw inside

theorem send_own_die (here : (s.rx a).toNat % 2 ^ 34 / 4194304 = s.moduleNo)
    (own : dieOfCore ((s.rx a).toNat % 2 ^ 34 / 8 % 524288) = dieOf s.cur) :
    exec (.send r mb d a b e) s = .next ((s.modMe (sendStarted r d)).laterAfter Config.latMesh
      (sameMail ((s.rx a).toNat % 2 ^ 34 / 8 % 524288) (endpoint s s.cur).toNat)
      (.mailboxDataArrival ((s.rx a).toNat % 2 ^ 34 / 8 % 524288)
        (sendMsg s r mb b e (.token (coreOf s.cur) s.me.ctxNum d.toNat)))) := by
  show execSend r mb d a b e s = _
  unfold execSend
  rw [guardX_writable _ _ _ hw]
  exact (if_neg (Nat.not_le.mpr inside)).trans ((if_pos here).trans (if_pos own))

theorem send_no_path (away : (s.rx a).toNat % 2 ^ 34 / 4194304 ≠ s.moduleNo)
    (cut : hasPath s (dieOf s.cur) ((s.rx a).toNat % 2 ^ 34 / 4194304) = false) :
    exec (.send r mb d a b e) s = .next ((s.modMe (sendStarted r d)).next1
      (.completionWrite (coreOf s.cur) s.me.ctxNum d.toNat 0x05 0)) := by
  show execSend r mb d a b e s = _
  unfold execSend
  rw [guardX_writable _ _ _ hw]
  exact (if_neg (Nat.not_le.mpr inside)).trans ((if_neg away).trans (if_pos (by rw [cut]; rfl)))

theorem send_other_die (here : (s.rx a).toNat % 2 ^ 34 / 4194304 = s.moduleNo)
    (other : dieOfCore ((s.rx a).toNat % 2 ^ 34 / 8 % 524288) ≠ dieOf s.cur)
    (up : crossesDown s (dieOf s.cur) (dieOfCore ((s.rx a).toNat % 2 ^ 34 / 8 % 524288)) = false)
    (room : lowestFree (s.die (dieOf s.cur)).tags 0 < tagCount) :
    ∃ u, SendStarted r d s u ∧ u.cycle = s.cycle ∧ exec (.send r mb d a b e) s = .next (u.laterAfter Config.latMesh
      (sameMail ((s.rx a).toNat % 2 ^ 34 / 8 % 524288) (endpoint s s.cur).toNat)
      (.mailboxDataArrival ((s.rx a).toNat % 2 ^ 34 / 8 % 524288) (sendMsg s r mb b e
        (.tag (dieOf s.cur) (lowestFree (s.die (dieOf s.cur)).tags 0)
          (getTag s (dieOf s.cur) (lowestFree (s.die (dieOf s.cur)).tags 0)).gen)))) := by
  have begun := sendStarted_modMe s r d
  obtain ⟨u, drawn, cycle, me, slots, mem⟩ := drawTag_lowest (s := s.modMe (sendStarted r d))
    (.token (coreOf s.cur) s.me.ctxNum d.toNat) ((s.rx a).toNat % 2 ^ 34 / 4194304) room
  refine ⟨u, ⟨me.trans begun.me, fun k hk => (slots k).trans (begun.others k hk), mem.trans begun.mem⟩, cycle, ?_⟩
  show execSend r mb d a b e s = _
  unfold execSend
  rw [guardX_writable _ _ _ hw]
  refine (if_neg (Nat.not_le.mpr inside)).trans ((if_pos here).trans ((if_neg other).trans ?_))
  show (match drawTag (s.modMe (sendStarted r d)) (dieOf s.cur) (.token (coreOf s.cur) s.me.ctxNum d.toNat)
      ((s.rx a).toNat % 2 ^ 34 / 4194304) with
    | none => _
    | some (idx, gen, s2) => _) = _
  rw [drawn]
  dsimp only
  rw [up, if_neg (by decide)]
  rfl

end

/-! ## RECV and MBPEEK -/

section
variable {s : State} {q : BitVec 1} {d a : Reg}

/-- No mailbox is looked at where none is the world's own. -/
theorem checkMail_zero (s : State) (c k : Nat) : checkMail s c 0 k = s := by
  unfold checkMail
  split
  · rfl
  · simp

theorem checkMail_sound (sound : s.poison = []) (unflipped : s.flipped = []) (c mask k : Nat) : checkMail s c mask k = s :=
  if_pos (by simp [sound, unflipped])

/-- The mailboxes of a core whose messages a RECV of `a` may take (R213). -/
def recvMask (s : State) (a : Reg) : Nat := ownMail (s.core (coreOf s.cur)) s.me.world ((s.rx a).toNat % 65536)

def boxMsgs (co : Core) (i : Nat) : List MailMsg := ((co.mail.toList[i]?).map (·.msgs)).getD []

theorem recv_no_mailbox (empty : recvMask s a = 0) : exec (.recv q d a) s = trapOut s 7 0x11 (s.rx a) := by
  have untouched : checkMail s (coreOf s.cur) (recvMask s a) s.cur = s := empty ▸ checkMail_zero ..
  show execRecv q d a s = _
  unfold execRecv
  dsimp only
  rw [show ownMail _ _ _ = recvMask s a from rfl, untouched, if_pos empty]

/-- The mailbox that a RECV looks for: the first of the mask with a message. -/
theorem recv_box {co : Core} {mask i : Nat} (hi : i < 16) (set : mask / 2 ^ i % 2 = 1) (full : boxMsgs co i ≠ [])
    (first : ∀ j, j < i → mask / 2 ^ j % 2 = 1 → boxMsgs co j = []) :
    (List.range 16).find? (fun i => mask / 2 ^ i % 2 = 1 ∧ boxMsgs co i ≠ []) = some i := by
  rw [List.find?_range_eq_some]
  refine ⟨by simp [set, full], List.mem_range.mpr hi, fun j hj => ?_⟩
  simp only [Bool.not_eq_true', decide_eq_false_iff_not]
  rintro ⟨set, full⟩
  exact full (first j hj set)

/-- A RECV that finds a message takes the oldest of the lowest such mailbox (R215). -/
theorem recv_takes {i : Nat} {m : MailMsg} {rest : List MailMsg} (sound : s.poison = []) (unflipped : s.flipped = [])
    (own : recvMask s a ≠ 0) (hi : i < 16) (set : recvMask s a / 2 ^ i % 2 = 1)
    (oldest : boxMsgs (s.core (coreOf s.cur)) i = m :: rest)
    (first : ∀ j, j < i → recvMask s a / 2 ^ j % 2 = 1 → boxMsgs (s.core (coreOf s.cur)) j = []) :
    exec (.recv q d a) s =
      let s1 := s.modCore (coreOf s.cur) fun x => setMail x i fun y => { y with msgs := y.msgs.drop 1 }
      .next ((if q == 1 ∧ m.rel then acquireCtx s1 (coreOf s.cur) s.me.ctxNum m.sig else s1).modMe (mailResult d.toNat m)) := by
  have box := recv_box hi set (by rw [oldest]; exact nofun) first
  unfold boxMsgs at box oldest
  show execRecv q d a s = _
  unfold execRecv
  dsimp only
  rw [show ownMail _ _ _ = recvMask s a from rfl, checkMail_sound sound unflipped, if_neg own, box]
  dsimp only
  rw [oldest]

theorem recv_parks (sound : s.poison = []) (unflipped : s.flipped = []) (own : recvMask s a ≠ 0)
    (empty : ∀ j, j < 16 → recvMask s a / 2 ^ j % 2 = 1 → boxMsgs (s.core (coreOf s.cur)) j = []) :
    exec (.recv q d a) s = .next ((park s s.cur .waitRecv (.recv (recvMask s a) d.toNat (q == 1))).modCore (coreOf s.cur)
      fun x => { x with recvq := x.recvq ++ [s.me.ctxNum] }) := by
  have noBox : (List.range 16).find? (fun i => recvMask s a / 2 ^ i % 2 = 1 ∧ boxMsgs (s.core (coreOf s.cur)) i ≠ []) = none := by
    refine List.find?_eq_none.mpr fun j hj => ?_
    simp only [decide_eq_true_eq]
    rintro ⟨set, full⟩
    exact full (empty j (List.mem_range.mp hj) set)
  unfold boxMsgs at noBox
  show execRecv q d a s = _
  unfold execRecv
  dsimp only
  rw [show ownMail _ _ _ = recvMask s a from rfl, checkMail_sound sound unflipped, if_neg own, noBox]

end

/-- Settles O33: SEND by its destination, RECV by what its mailboxes hold. -/
theorem sendAndReceive : Obligations.SendAndReceive := by
  intro s r mb d a b e c die dst dest msg token sends mask msgs
  refine ⟨fun hw out => send_no_cluster hw out, fun hw inside here own => ?ownDie, fun hw inside here other up room => ?otherDie,
    fun hw inside away cut => ?noPath, fun q empty => recv_no_mailbox empty,
    fun q i m rest installed sound unflipped own hi set oldest first => ?takes,
    fun q sound unflipped own ready empty => ?parks, fun hw => writeX_of s d _ hw,
    fun hd => guardX_stream s d _ (Option.isSome_iff_ne_none.mpr hd)⟩
  case ownDie =>
    have begun := sendStarted_modMe s r d
    obtain ⟨due, late, queued⟩ := laterAfter_mem (s.modMe (sendStarted r d)) s.cycle Config.latMesh
      (sameMail dest (endpoint s s.cur).toNat) (.mailboxDataArrival dest (msg token)) rfl
    exact ⟨_, due, send_own_die hw inside here own, late, queued, begun.me, begun.others, begun.mem⟩
  case otherDie =>
    obtain ⟨u, begun, cycle, done⟩ := send_other_die (r := r) (mb := mb) (b := b) (e := e) hw inside here other up room
    obtain ⟨due, late, queued⟩ := laterAfter_mem u s.cycle Config.latMesh (sameMail dest (endpoint s s.cur).toNat)
      (.mailboxDataArrival dest (msg (.tag die (lowestFree (s.die die).tags 0) (getTag s die (lowestFree (s.die die).tags 0)).gen))) cycle
    exact ⟨_, due, done, late, queued, begun.me, begun.others, begun.mem⟩
  case noPath =>
    have begun := sendStarted_modMe s r d
    exact ⟨_, _, send_no_path hw inside away cut, Nat.lt_succ_self _, next1_mem .., begun.me, begun.others, begun.mem⟩
  case takes =>
    let s1 := s.modCore c fun x => setMail x i fun y => { y with msgs := y.msgs.drop 1 }
    obtain ⟨u, hu⟩ : ∃ u, u = if q == 1 ∧ m.rel then acquireCtx s1 c s.me.ctxNum m.sig else s1 := ⟨_, rfl⟩
    have acquired : Acquired s.cur s1 u := hu ▸ acquired_ite _ m.sig ((ctxSlot_congr s s1 c _ fun _ => ⟨rfl, rfl⟩).trans installed)
    have signed : s1.SigOnly u := by
      rw [hu]
      split
      · exact sigOnly_acquireCtx ..
      · exact .refl s1
    obtain ⟨acc, slot⟩ := acquired.slot
    have me : (u.modMe (mailResult d.toNat m)).me = mailResult d.toNat m { s.me with accCur := acc } := by
      rw [State.me_modMe]
      exact congrArg _ ((congrArg u.slot signed.cur).trans slot)
    refine ⟨u.modMe (mailResult d.toNat m), hu ▸ recv_takes sound unflipped own hi set oldest first, ?_, ?_, ?_, fun k hk => ?_,
      signed.mem, (acquired.core c).trans (State.core_modCore_same ..)⟩
    · rw [me, mailResult, regOf_toNat]
      rfl
    · rw [me]
      rfl
    · rw [me]
      rfl
    · exact (State.slot_modSlot_other _ _ _ _ (signed.cur ▸ hk)).trans (acquired.others k hk)
  case parks =>
    let t := park s s.cur .waitRecv (.recv mask d.toNat (q == 1))
    have me : t.me = Slot.enter { s.me with wait := .recv mask d.toNat (q == 1) } s.cycle .waitRecv :=
      (congrArg t.slot (cur_park ..)).trans (slot_park_same ..)
    refine ⟨t.modCore c fun x => { x with recvq := x.recvq ++ [s.me.ctxNum] }, recv_parks sound unflipped own empty, ?_⟩
    rw [State.me_modCore, me, State.core_modCore_same]
    exact ⟨state_enter .., wait_enter .., x_enter .., v_enter .., pc_enter .., fun k hk => slot_park_other _ _ _ _ _ hk,
      congrArg (· ++ _) (recvq_of_butTrace (core_park ..))⟩

end Sys2Proof.Machine

/-! PROOFS of O55. What the head of the service queue leaves behind as it goes, then each handler by the request that it
serves, the steal, and the hold replies. -/

namespace Sys2Proof.Machine

/-! ## The head of the service queue -/

/-- The request at the head has been served (R161): the oldest request of the mesh has moved up, slot 6 waits while nothing
is queued, and no other slot and no home memory has changed. -/
structure State.HeadGone (core : Nat) (rest : List ActiveMsg) (s t : State) : Prop where
  others : ∀ j, j ≠ core * 8 + 6 → t.slot j = s.slot j
  waits : rest = [] → (s.core core).mesh = [] → (s.slot (core * 8 + 6)).state = .ready →
    (t.slot (core * 8 + 6)).state = .waitRecv
  stays : rest ≠ [] ∨ (s.core core).mesh ≠ [] → t.slot (core * 8 + 6) = s.slot (core * 8 + 6)
  mem : t.mem = s.mem
  cycle : t.cycle = s.cycle
  svc : (t.core core).svc = rest ++ (s.core core).mesh.take 1
  mesh : (t.core core).mesh = (s.core core).mesh.drop 1

/-- The words of a local store, their full/empty bits and who waits for them are the same. -/
structure Core.SameWords (a b : Core) : Prop where
  ls : b.ls = a.ls
  emptyWords : b.emptyWords = a.emptyWords
  waiters : b.waiters = a.waiters
  parkedLds : b.parkedLds = a.parkedLds

theorem Core.SameWords.trans {a b d : Core} (h : a.SameWords b) (h' : b.SameWords d) : a.SameWords d :=
  ⟨h'.ls.trans h.ls, h'.emptyWords.trans h.emptyWords, h'.waiters.trans h.waiters, h'.parkedLds.trans h.parkedLds⟩

theorem State.HeadGone.congr {core : Nat} {rest : List ActiveMsg} {s t u : State} (h : s.HeadGone core rest t)
    (slots : ∀ k, u.slot k = t.slot k) (mem : u.mem = t.mem) (cycle : u.cycle = t.cycle)
    (queue : (u.core core).svc = (t.core core).svc ∧ (u.core core).mesh = (t.core core).mesh) : s.HeadGone core rest u :=
  ⟨fun j hj => (slots j).trans (h.others j hj), fun e e' ready => (congrArg Slot.state (slots _)).trans (h.waits e e' ready),
    fun some => (slots _).trans (h.stays some), mem.trans h.mem, cycle.trans h.cycle, queue.1.trans h.svc, queue.2.trans h.mesh⟩

theorem State.HeadGone.modCore {core : Nat} {rest : List ActiveMsg} {s t : State} (h : s.HeadGone core rest t) {f : Core → Core}
    (hf : ∀ co, (f co).svc = co.svc ∧ (f co).mesh = co.mesh) : s.HeadGone core rest (t.modCore core f) :=
  h.congr (fun _ => rfl) rfl rfl (by rw [State.core_modCore_same]; exact hf _)

section
variable {s : State} {c : Nat}

theorem idleService_frame (s : State) (c : Nat) : ∃ slots cores, idleService s c = { s with slots := slots, cores := cores } := by
  unfold idleService
  split
  · exact toState_frame ..
  · exact ⟨_, _, rfl⟩

theorem core_idleService (s : State) (c d : Nat) : (s.core d).butTrace ((idleService s c).core d) := by
  unfold idleService
  split
  · exact core_toState ..
  · exact Core.butTrace_refl _

theorem slot_idleService_other (s : State) (c : Nat) {j : Nat} (h : j ≠ c * 8 + 6) : (idleService s c).slot j = s.slot j := by
  unfold idleService
  split
  · exact slot_toState_other _ _ _ _ h
  · rfl

theorem slot_idleService_idle (empty : (s.core c).svc = []) (ready : (s.slot (c * 8 + 6)).state = .ready) :
    ((idleService s c).slot (c * 8 + 6)).state = .waitRecv := by
  unfold idleService
  rw [if_pos (by simp [empty, ready]), slot_toState_same, state_enter]

theorem idleService_busy (some : (s.core c).svc ≠ []) : idleService s c = s :=
  if_neg (by simp [some])

/-- The queue of a core without its head. -/
def queuePopped (co : Core) : Core := { co with svc := co.svc.drop 1 ++ co.mesh.take 1, mesh := co.mesh.drop 1 }

theorem core_popService (s : State) (c : Nat) : (queuePopped (s.core c)).butTrace ((popService s c).core c) := by
  have idle := core_idleService (s.modCore c queuePopped) c c
  rw [State.core_modCore_same] at idle
  exact idle

theorem popService_frame (s : State) (c : Nat) : ∃ slots cores, popService s c = { s with slots := slots, cores := cores } := by
  obtain ⟨slots, cores, h⟩ := idleService_frame (s.modCore c queuePopped) c
  exact ⟨slots, cores, h⟩

theorem headGone_popService {m : ActiveMsg} {rest : List ActiveMsg} (queue : (s.core c).svc = m :: rest) :
    s.HeadGone c rest (popService s c) := by
  have left : ((s.modCore c queuePopped).core c).svc = rest ++ (s.core c).mesh.take 1 := by
    rw [State.core_modCore_same, queuePopped, queue]
    rfl
  have same := core_popService s c
  unfold Core.butTrace at same
  obtain ⟨slots, cores, frame⟩ := popService_frame s c
  constructor
  case others => exact fun j hj => slot_idleService_other _ _ hj
  case waits =>
    intro empty noMesh ready
    have idle : ((s.modCore c queuePopped).core c).svc = [] := by
      rw [left, empty, noMesh]
      rfl
    exact slot_idleService_idle idle ready
  case stays =>
    intro some
    have busy : ((s.modCore c queuePopped).core c).svc ≠ [] := by
      rw [left]
      rcases some with h | h <;> simp [h]
    exact congrArg (·.slot (c * 8 + 6)) (idleService_busy busy)
  case mem => rw [frame]
  case cycle => rw [frame]
  case svc => rw [same]; exact (congrArg Core.svc (State.core_modCore_same s c queuePopped)).symm.trans left
  case mesh => rw [same]; rfl

theorem sameWords_popService (s : State) (c : Nat) : (s.core c).SameWords ((popService s c).core c) := by
  have same := core_popService s c
  unfold Core.butTrace at same
  rw [same]
  exact ⟨rfl, rfl, rfl, rfl⟩

/-- The state in which a handler acts on the head: it has gone, and the words are as they were. -/
structure State.Handles (core : Nat) (rest : List ActiveMsg) (s u : State) : Prop where
  gone : s.HeadGone core rest u
  words : (s.core core).SameWords (u.core core)
  poison : u.poison = s.poison

theorem State.Handles.congr {rest : List ActiveMsg} {t u : State} (h : s.Handles c rest t) (signed : t.SigOnly u)
    (slots : ∀ k, u.slot k = t.slot k) : s.Handles c rest u := by
  obtain ⟨_, _, _, _, same⟩ := signed.core c
  refine ⟨h.gone.congr slots signed.mem signed.cycle ?_, h.words.trans ?_, signed.poison.trans h.poison⟩
  · rw [same]
    exact ⟨rfl, rfl⟩
  · rw [same]
    exact ⟨rfl, rfl, rfl, rfl⟩

theorem slot_lsCorrect (s : State) (c : Nat) (ps : List Nat) (k : Nat) : (lsCorrect s c ps).slot k = s.slot k := by
  obtain ⟨_, _, h⟩ := lsCorrect_frame s c ps
  rw [h]
  rfl

section
variable {m : ActiveMsg} {rest : List ActiveMsg} (queue : (s.core c).svc = m :: rest)
include queue

theorem handles_claimBanks (mask : BitVec 8) : s.Handles c rest (claimBanks (popService s c) c mask) := by
  obtain ⟨slots, cores, frame⟩ := popService_frame s c
  have popped : s.Handles c rest (popService s c) := ⟨headGone_popService queue, sameWords_popService s c, by rw [frame]⟩
  exact popped.congr (sigOnly_claimBanks ..) fun _ => rfl

/-- A handler answers a request that faults with the first fault (R159). -/
theorem serve_fault {kind : SvcOp → Bool} {k : State → ActiveMsg → State} {code byte : Nat} (mine : kind m.op = true)
    (fault : serviceFault s c m = some (code, byte)) :
    ∃ u, s.Handles c rest u ∧ serve s c kind k = .next (answer u Config.latMesh m.from_ (.fault code byte) 0) := by
  refine ⟨_, handles_claimBanks queue ((lsBytes m.off m.size).foldl (fun b p => b ||| 1#8 <<< (p / 16 % 8)) 0), ?_⟩
  unfold serve
  rw [queue]
  dsimp only
  rw [if_pos mine, fault]

/-- A handler acts on a request that does not fault. -/
theorem serve_sound {kind : SvcOp → Bool} (k : State → ActiveMsg → State) (mine : kind m.op = true)
    (sound : serviceFault s c m = none) : ∃ u, s.Handles c rest u ∧ serve s c kind k = .next (k u m) := by
  refine ⟨_, (handles_claimBanks queue ((lsBytes m.off m.size).foldl (fun b p => b ||| 1#8 <<< (p / 16 % 8)) 0)).congr
    (sigOnly_lsCorrect _ c (lsBytes m.off m.size)) fun k => slot_lsCorrect .., ?_⟩
  unfold serve
  rw [queue]
  dsimp only
  rw [if_pos mine, sound]

end

theorem serve_empty {kind : SvcOp → Bool} {k : State → ActiveMsg → State} (empty : (s.core c).svc = []) :
    serve s c kind k = .next s := by
  unfold serve
  rw [empty]

theorem serviceFault_outside {m : ActiveMsg} {a : Nat}
    (out : lsFail (shareOf (s.core c) m.world).1 (shareOf (s.core c) m.world).2 m.off m.size = some a) :
    serviceFault s c m = some (0x11, a - m.off) := by
  unfold serviceFault
  dsimp only
  rw [out]

theorem serviceFault_none {m : ActiveMsg} (sound : s.poison = [])
    (inside : lsFail (shareOf (s.core c) m.world).1 (shareOf (s.core c) m.world).2 m.off m.size = none) :
    serviceFault s c m = none := by
  unfold serviceFault
  dsimp only
  rw [inside]
  dsimp only
  rw [Option.map_eq_none_iff]
  exact List.find?_eq_none.mpr fun _ _ => by simp [lsPoison, sound]

end

/-! ## What a handler does to the words -/

/-- What a store at core `c` has done to the state: the bytes stand there, and everything else but counts is the same. -/
structure StoredAt (c : Nat) (ps : List Nat) (bs : List Byte) (u t : State) : Prop where
  slots : ∀ k, t.slot k = u.slot k
  mem : t.mem = u.mem
  cycle : t.cycle = u.cycle
  core : ∃ a b d n, t.core c = { u.core c with
    ls := lsPut (u.core c).ls (ps.zip bs), pubSig := a, bankCycle := b, bankMask := d, softErrors := n }

theorem storedAt_lsStore {u : State} (sound : u.poison = []) (c : Nat) (ps : List Nat) (bs : List Byte) :
    StoredAt c ps bs u (lsStore u c ps bs) := by
  obtain ⟨clusters, done⟩ := lsStore_frame u c ps bs sound
  have corrected := sigOnly_lsCorrect u c ps
  obtain ⟨a, b, d, n, core⟩ := corrected.core c
  rw [done]
  have stored := State.core_modCore_same (lsCorrect u c ps) c fun co => { co with ls := lsPut co.ls (ps.zip bs) }
  rw [core] at stored
  exact ⟨slot_lsCorrect u c ps, corrected.mem, corrected.cycle, a, b, d, n, stored⟩

section
variable {c : Nat} {ps : List Nat} {bs : List Byte} {u t : State}

theorem StoredAt.emptyWords (h : StoredAt c ps bs u t) : (t.core c).emptyWords = (u.core c).emptyWords := by
  obtain ⟨_, _, _, _, core⟩ := h.core
  rw [core]

theorem StoredAt.waiters (h : StoredAt c ps bs u t) : (t.core c).waiters = (u.core c).waiters := by
  obtain ⟨_, _, _, _, core⟩ := h.core
  rw [core]

end

theorem StoredAt.headGone {c : Nat} {ps : List Nat} {bs : List Byte} {rest : List ActiveMsg} {s u t : State}
    (h : StoredAt c ps bs u t) (gone : s.HeadGone c rest u) : s.HeadGone c rest t := by
  obtain ⟨_, _, _, _, core⟩ := h.core
  refine gone.congr h.slots h.mem h.cycle ?_
  rw [core]
  exact ⟨rfl, rfl⟩

end Sys2Proof.Machine

namespace Sys2Proof.Machine

/-! ## The handlers of a request from a context -/

/-- The handlers but the steal are one: what serves the head if it is of their kind. -/
theorem handlers_serve (s : State) (core : Nat) :
    (∃ k, exec (.serviceLoad core) s = serve s core SvcOp.isLoad k)
      ∧ (∃ k, exec (.serviceStore core) s = serve s core (· == .store) k)
      ∧ (∃ k, exec (.serviceAtomic core) s = serve s core SvcOp.isAtomic k)
      ∧ (∃ k, exec (.serviceFill core) s = serve s core SvcOp.isFill k)
      ∧ ∃ k, exec (.serviceSyncLoad core) s = serve s core (· == .sync) k :=
  ⟨⟨_, show execServiceLoad core s = _ from rfl⟩, ⟨_, show execServiceStore core s = _ from rfl⟩,
    ⟨_, show execServiceAtomic core s = _ from rfl⟩, ⟨_, show execServiceFill core s = _ from rfl⟩,
    ⟨_, show execServiceSyncLoad core s = _ from rfl⟩⟩

section
variable {s : State} {core c2 num : Nat} {m : ActiveMsg} {rest : List ActiveMsg}

theorem servedReq_ctx (s : State) (from_ : m.from_ = .ctx c2 num) : servedReq s m.from_ = none := by
  rw [from_]
  rfl

theorem watchServed_ctx (s : State) (core p : Nat) (from_ : m.from_ = .ctx c2 num) : watchServed s core m p = s := by
  unfold watchServed
  rw [servedReq_ctx s from_]

theorem publishSent_zero (s : State) (core : Nat) (unsigned : m.sig = 0) : publishSent s core m = s := if_pos unsigned

variable (queue : (s.core core).svc = m :: rest) (sound : serviceFault s core m = none)
include queue sound

theorem exec_serviceFill (unsigned : m.sig = 0) (op : m.op = .fill) :
    let ps := lsBytes m.off m.size
    ∃ u, s.Handles core rest u ∧ exec (.serviceFill core) s
      = .next (answer (setFe (lsStore u core ps m.data) core ((ps.head?).getD 0 / 8) true) Config.latMesh m.from_ .done 0) := by
  intro ps
  obtain ⟨u, handles, done⟩ := serve_sound queue (kind := SvcOp.isFill) (fun t m =>
    let ps := lsBytes m.off m.size
    let word := (ps.head?).getD 0 / 8
    let t1 := publishSent t core m
    let t2 := if m.op = .fill then setFe (lsStore t1 core ps m.data) core word true
      else setFe t1 core word ((leWord m.data).getLsbD 0)
    answer t2 Config.latMesh m.from_ .done 0) (by rw [op]; rfl) sound
  refine ⟨u, handles, ?_⟩
  show execServiceFill core s = _
  unfold execServiceFill
  rw [done]
  dsimp only
  rw [publishSent_zero _ _ unsigned, if_pos op]

variable (from_ : m.from_ = .ctx c2 num)
include from_

theorem exec_serviceLoad (op : m.op = .load) : ∃ u sig, s.Handles core rest u ∧ exec (.serviceLoad core) s
    = .next (answer u Config.latMesh m.from_ (.data (lsRead u core (lsBytes m.off m.size))) sig) := by
  obtain ⟨u, handles, done⟩ := serve_sound queue (kind := SvcOp.isLoad) (fun t m =>
    let ps := lsBytes m.off m.size
    let bs := if m.op = .peek then toLe (ofBool (isFull (t.core core) ((ps.head?).getD 0 / 8))).toNat 8 else lsRead t core ps
    answer (watchServed t core m ((ps.head?).getD 0)) Config.latMesh m.from_ (.data bs) (sentSig t core m))
    (by rw [op]; rfl) sound
  refine ⟨u, sentSig u core m, handles, ?_⟩
  show execServiceLoad core s = _
  unfold execServiceLoad
  rw [done]
  dsimp only
  rw [watchServed_ctx _ _ _ from_, op, if_neg (by decide)]

theorem exec_serviceSyncLoad (op : m.op = .sync) :
    let ps := lsBytes m.off m.size
    let word := (ps.head?).getD 0 / 8
    ∃ u sig, s.Handles core rest u ∧ exec (.serviceSyncLoad core) s = .next (if isFull (u.core core) word then
        answer (u.modCore core fun co => setEmptyBit co word) Config.latMesh m.from_ (.data (lsRead u core ps)) sig
      else joinWaiters u core { word := word, who := m.from_, world := m.world, off := m.off, size := m.size }) := by
  intro ps word
  obtain ⟨u, handles, done⟩ := serve_sound queue (kind := (· == .sync)) (fun t m =>
    let ps := lsBytes m.off m.size
    let word := (ps.head?).getD 0 / 8
    if isFull (t.core core) word then
      answer (t.modCore core (fun co => setEmptyBit co word)) Config.latMesh m.from_ (.data (lsRead t core ps)) (sentSig t core m)
    else
      let t1 := holdRequest t (dieOfCore core) m.from_
      joinWaiters t1 core { word := word, who := m.from_, world := m.world, off := m.off, size := m.size })
    (by rw [op]; rfl) sound
  have held : holdRequest u (dieOfCore core) m.from_ = u := by
    rw [from_]
    rfl
  refine ⟨u, sentSig u core m, handles, ?_⟩
  show execServiceSyncLoad core s = _
  unfold execServiceSyncLoad
  rw [done]
  dsimp only
  rw [held]

variable (unsigned : m.sig = 0)
include unsigned

theorem exec_serviceStore (op : m.op = .store) : ∃ u, s.Handles core rest u ∧ exec (.serviceStore core) s
    = .next (answer (lsStore u core (lsBytes m.off m.size) m.data) Config.latMesh m.from_ .done 0) := by
  obtain ⟨u, handles, done⟩ := serve_sound queue (kind := (· == .store)) (fun t m =>
    answer (publishSent (lsStoreBut t ((servedReq t m.from_).map (·.2)) core (lsBytes m.off m.size) m.data) core m)
      Config.latMesh m.from_ .done 0) (by rw [op]; rfl) sound
  refine ⟨u, handles, ?_⟩
  show execServiceStore core s = _
  unfold execServiceStore
  rw [done, publishSent_zero _ _ unsigned, servedReq_ctx _ from_]
  rfl

theorem exec_serviceAtomic {f : Nat} (op : m.op = .atomic f) :
    let ps := lsBytes m.off m.size
    ∃ u sig, s.Handles core rest u ∧ exec (.serviceAtomic core) s = .next (answer
      (lsStore u core ps (toLe (amoNew (f % 16) (decide (16 ≤ f)) m.size (leNat (lsRead u core ps)) (leNat m.data) m.cmp.toNat).1 m.size))
      Config.latMesh m.from_ (.data (lsRead u core ps)) sig) := by
  intro ps
  obtain ⟨u, handles, done⟩ := serve_sound queue (kind := SvcOp.isAtomic) (fun t m =>
    let f := match m.op with | .atomic f => f | _ => 0
    let ps := lsBytes m.off m.size
    let old := lsRead t core ps
    let v := (amoNew (f % 16) (decide (16 ≤ f)) m.size (leNat old) (leNat m.data) m.cmp.toNat).1
    let t1 := publishSent (lsStoreBut t ((servedReq t m.from_).map (·.2)) core ps (toLe v m.size)) core m
    answer t1 Config.latMesh m.from_ (.data old) (sentSig t1 core m)) (by rw [op]; rfl) sound
  let t := lsStore u core ps (toLe (amoNew (f % 16) (decide (16 ≤ f)) m.size (leNat (lsRead u core ps)) (leNat m.data)
    m.cmp.toNat).1 m.size)
  refine ⟨u, sentSig t core m, handles, ?_⟩
  show execServiceAtomic core s = _
  unfold execServiceAtomic
  refine done.trans ?_
  dsimp only
  rw [publishSent_zero _ _ unsigned, servedReq_ctx _ from_, op]
  rfl

end

/-- The bytes of a local store that a handler has written to. -/
theorem StoredAt.bytes {c : Nat} {ps : List Nat} {bs : List Byte} {u t : State} (h : StoredAt c ps bs u t)
    (hl : bs.length = ps.length) (distinct : ps.Nodup) :
    (∀ i p : Nat, ps[i]? = some p → some (cellGet (t.core c).ls p) = bs[i]?)
      ∧ ∀ p, p ∉ ps → cellGet (t.core c).ls p = cellGet (u.core c).ls p := by
  obtain ⟨_, _, _, _, core⟩ := h.core
  rw [core]
  exact ⟨fun i p hi => cellGet_lsPut_last _ hl hi (no_later_of_nodup distinct hi),
    fun p hp => cellGet_lsPut_outside _ _ _ fun q hq e => hp (e ▸ (List.of_mem_zip hq).1)⟩

end Sys2Proof.Machine

namespace Sys2Proof.Machine

/-! ## Arrivals at the service queue -/

/-- An active message takes a place in the queue, or waits in the mesh (R161). -/
def serviceEnqueue (m : ActiveMsg) (co : Core) : Core :=
  if co.svc.length < 16 ∧ co.mesh.isEmpty then { co with svc := co.svc ++ [m] } else { co with mesh := co.mesh ++ [m] }

theorem serviceEnqueue_queues (m : ActiveMsg) (co : Core) :
    (serviceEnqueue m co).svc = (if co.svc.length < 16 ∧ co.mesh = [] then co.svc ++ [m] else co.svc)
      ∧ (serviceEnqueue m co).mesh = (if co.svc.length < 16 ∧ co.mesh = [] then [] else co.mesh ++ [m]) := by
  unfold serviceEnqueue
  by_cases room : co.svc.length < 16 ∧ co.mesh = []
  · obtain ⟨-, empty⟩ := id room
    rw [if_pos (by simpa using room), if_pos room, if_pos room]
    exact ⟨rfl, empty⟩
  · rw [if_neg (by simpa using room), if_neg room, if_neg room]
    exact ⟨rfl, rfl⟩

theorem core_traceClass_other (s : State) {k c : Nat} (cls : Nat) (h : c ≠ coreOf k) : (traceClass s k cls).core c = s.core c := by
  unfold traceClass traceKeep
  split
  · exact State.core_modCore_other _ _ _ _ h
  · rfl

theorem core_toState_other (s : State) {k c : Nat} (st : SlotState) (h : c ≠ coreOf k) : (s.toState k st).core c = s.core c := by
  unfold State.toState
  dsimp only
  split
  · rfl
  split
  · rfl
  · exact core_traceClass_other _ _ h

section
variable (s : State) (c : Nat)

theorem slot_wakeService_other {j : Nat} (h : j ≠ c * 8 + 6) : (wakeService s c).slot j = s.slot j := by
  unfold wakeService
  split
  · exact slot_toState_other _ _ _ _ h
  · rfl

theorem slot_wakeService_waiting (waits : (s.slot (c * 8 + 6)).state = .waitRecv) :
    ((wakeService s c).slot (c * 8 + 6)).state = .ready := by
  unfold wakeService
  rw [if_pos waits, slot_toState_same, state_enter]

theorem wakeService_busy (busy : (s.slot (c * 8 + 6)).state ≠ .waitRecv) : wakeService s c = s := if_neg busy

theorem core_wakeService (d : Nat) : (s.core d).butTrace ((wakeService s c).core d) := by
  unfold wakeService
  split
  · exact core_toState ..
  · exact Core.butTrace_refl _

theorem core_wakeService_other {d : Nat} (h : d ≠ c) : (wakeService s c).core d = s.core d := by
  unfold wakeService
  split
  · exact core_toState_other s _ (by unfold coreOf; omega)
  · rfl

end

/-! ## Steals -/

theorem lastOf_eq {p : TaskRec → Bool} {l l2 : List TaskRec} {r : TaskRec} (hr : p r = true) (last : ∀ x ∈ l2, p x = false) :
    lastOf p (l ++ r :: l2) = some r := by
  have above : l2.reverse.find? p = none := List.find?_eq_none.mpr fun x hx => by simp [last x (List.mem_reverse.mp hx)]
  unfold lastOf
  simp [above, hr]

theorem lastOf_none {p : TaskRec → Bool} {l : List TaskRec} (none_ : ∀ x ∈ l, p x = false) : lastOf p l = none :=
  List.find?_eq_none.mpr fun x hx => by simp [none_ x (List.mem_reverse.mp hx)]

theorem eraseLast_eq {l l2 : List TaskRec} {r : TaskRec} (h : r ∉ l2) : eraseLast r (l ++ r :: l2) = l ++ l2 := by
  unfold eraseLast
  rw [List.reverse_append, List.reverse_cons, List.append_assoc, List.erase_append_right _ (by simpa using h)]
  simp

/-- With nothing spilled, a thief takes from the deque. -/
theorem stealFrom_unspilled {co : Core} (p : TaskRec → Bool) (unspilled : co.spilled = []) :
    stealFrom co p = (lastOf p co.deque).map fun r => (r, { co with deque := eraseLast r co.deque }) := by
  unfold stealFrom
  rw [unspilled]
  rfl

section
variable {s : State} {core world : Nat} (unspilled : (s.core core).spilled = [])
include unspilled

theorem stealBack_top {l l2 : List TaskRec} {r : TaskRec} (deque : (s.core core).deque = l ++ r :: l2)
    (hr : stealable s world r = true) (last : ∀ x ∈ l2, stealable s world x = false) :
    stealBack s core world = (s.setCore core { s.core core with deque := l ++ l2 }, some r) := by
  have out : r ∉ l2 := fun h => by simp [last r h] at hr
  unfold stealBack
  rw [stealFrom_unspilled _ unspilled, deque, lastOf_eq hr last, Option.map_some, eraseLast_eq out]
  exact if_pos (by simp)

theorem stealBack_nothing (nothing : ∀ x ∈ (s.core core).deque, stealable s world x = false) :
    stealBack s core world = (s, none) := by
  unfold stealBack
  rw [stealFrom_unspilled _ unspilled, lastOf_none nothing, Option.map_none]

end

theorem stealable_popService (s : State) (c world : Nat) : stealable (popService s c) world = stealable s world := by
  obtain ⟨_, _, frame⟩ := popService_frame s c
  rw [frame]
  rfl

theorem exec_serviceSteal {s : State} {core c2 w2 : Nat} {m : ActiveMsg} {rest : List ActiveMsg}
    (queue : (s.core core).svc = m :: rest) (op : m.op = .steal) (from_ : m.from_ = .thief c2 w2) :
    exec (.serviceSteal core) s = .next ((stealBack (popService s core) core m.world).1.later Config.latMesh
      (.stealReplyArrival c2 ⟨w2, (stealBack (popService s core) core m.world).2⟩)) := by
  have thief : thiefOf s m.from_ = some (c2, w2) := by
    rw [from_]
    rfl
  show execServiceSteal core s = _
  unfold execServiceSteal
  rw [queue]
  dsimp only
  rw [if_pos op, thief]
  dsimp only
  generalize stealBack (popService s core) core m.world = back
  obtain ⟨t, r | r⟩ := back <;> rfl

/-! ## Hold replies -/

theorem getTag_setTag_same (s : State) (die idx : Nat) (t : Tag) : getTag (setTag s die idx t) die idx = t := by
  unfold getTag setTag
  rw [State.die_modDie_same, NMap.find_set_same]
  rfl

theorem exec_holdReply_live {s : State} {die idx module due : Nat} {who : ReplyTo}
    (live : (getTag s die idx).use = .live who module due) :
    exec (.holdReply die idx (getTag s die idx).gen) s = .next ((setTag s die idx
      { getTag s die idx with use := .live who module (s.cycle + Config.remoteTimeout) }).at_ (s.cycle + Config.remoteTimeout)
        (.remoteTimeout die idx (getTag s die idx).gen)) := by
  show execHoldReply die idx _ s = _
  unfold execHoldReply
  dsimp only
  rw [live]
  exact if_pos rfl

theorem exec_holdReply_stale {s : State} {die idx gen : Nat} (stale : (getTag s die idx).gen ≠ gen) :
    exec (.holdReply die idx gen) s = .next (lateReply s die idx gen) := by
  show execHoldReply die idx gen s = _
  unfold execHoldReply
  dsimp only
  split
  · exact if_neg stale
  · rfl

section
variable {s : State} {die n : Nat} {p : ParkedReq}

theorem exec_holdReplyResend_none (gone : (s.die die).parked.find? (·.n == n) = none) :
    exec (.holdReplyResend die n) s = .next s := by
  show execHoldReplyResend die n s = _
  unfold execHoldReplyResend
  rw [gone]

variable (found : (s.die die).parked.find? (·.n == n) = some p)
include found

theorem exec_holdReplyResend_parked (parked : stillParked s die p = true) (own : p.module = s.moduleNo) :
    exec (.holdReplyResend die n) s = .next ((s.later Config.latMesh (.holdReply p.die p.idx p.gen)).at_
      (s.cycle + Config.packetLifetime) (.holdReplyResend die n)) := by
  show execHoldReplyResend die n s = _
  unfold execHoldReplyResend
  rw [found]
  dsimp only
  rw [if_pos parked, if_pos own]

theorem exec_holdReplyResend_unparked (served : stillParked s die p = false) :
    exec (.holdReplyResend die n) s = .next (s.modDie die fun d => { d with parked := d.parked.filter (·.n != n) }) := by
  show execHoldReplyResend die n s = _
  unfold execHoldReplyResend
  rw [found]
  dsimp only
  rw [served, if_neg (by decide)]

end

end Sys2Proof.Machine

namespace Sys2Proof.Machine

/-- Settles O55: each handler by its law; the pop of the queue, the words written and the reply are read off the state it leaves. -/
theorem service : Obligations.Service := by
  intro s core c2 w2 num die idx gen n m rest co lo hi ps word head handler slot6 idles served keeps
  have idles_of {t : State} (gone : s.HeadGone core rest t) : idles t := ⟨gone.others, gone.waits, gone.stays⟩
  have served_of {i : Instr} {u : State} {r : Reply} {sig : Sig} (from_ : m.from_ = .ctx c2 num)
      (gone : s.HeadGone core rest u) (done : exec i s = .next (answer u Config.latMesh m.from_ r sig)) :
      served i (answer u Config.latMesh m.from_ r sig) r := by
    rw [from_] at done ⊢
    have gone := gone.congr (u := answer u Config.latMesh (.ctx c2 num) r sig) (fun _ => rfl) rfl rfl ⟨rfl, rfl⟩
    obtain ⟨due, late, queued⟩ := later_mem u s.cycle Config.latMesh (.remoteReply (.ctx c2 num) r sig) gone.cycle
    exact ⟨done, idles_of gone, gone.mem, gone.svc, gone.mesh, due, sig, late, queued⟩
  have keeps_of {t : State} (words : co.SameWords (t.core core)) : keeps t := ⟨words.ls, words.emptyWords⟩
  have read_of {u : State} (words : co.SameWords (u.core core)) : lsRead u core ps = ps.map (cellGet co.ls) :=
    congrArg (fun ls => ps.map (cellGet ls)) words.ls
  have popped : ((popService s core).core core).deque = co.deque ∧ ((popService s core).core core).spilled = co.spilled := by
    have same := core_popService s core
    unfold Core.butTrace at same
    rw [same]
    exact ⟨rfl, rfl⟩
  obtain ⟨⟨_, load⟩, ⟨_, store⟩, ⟨_, atomic⟩, ⟨_, fill⟩, ⟨_, sync⟩⟩ := handlers_serve s core
  refine ⟨?arrival, fun ⟨queue, from_⟩ a i ours out => ?fault, fun ⟨queue, from_⟩ inside sound unsigned distinct len _ =>
      ⟨fun op => ?load, fun op size => ?store, fun f op => ?atomic, fun op size nobody none_parked => ?fill,
        fun op full => ?syncFull, fun op empty room => ?syncEmpty⟩,
    fun empty => ?idle, fun queue op from_ unspilled => ⟨fun l r l2 deque hr last => ?stolen, fun nothing => ?notStolen⟩,
    fun who module due live fresh => ?hold, exec_holdReply_stale, exec_holdReplyResend_none,
    fun p found parked own => ?resend, fun p found unparked => exec_holdReplyResend_unparked found unparked⟩
  case arrival =>
    let u := s.modCore core (serviceEnqueue m)
    have queues := serviceEnqueue_queues m co
    have same := core_wakeService u core core
    unfold Core.butTrace at same
    rw [State.core_modCore_same] at same
    refine ⟨wakeService u core, rfl, fun j hj => slot_wakeService_other u core hj, fun waits => slot_wakeService_waiting u core waits,
      fun busy => congrArg (·.slot slot6) (wakeService_busy u core busy),
      fun j hj => (core_wakeService_other u core hj).trans (State.core_modCore_other _ _ _ _ hj), ?_, ?_⟩
    · rw [same]
      exact queues.1
    · rw [same]
      exact queues.2
  case fault =>
    have fault := serviceFault_outside out
    have answered {kind : SvcOp → Bool} {k : State → ActiveMsg → State} (mine : kind m.op = true)
        (goes : exec i s = serve s core kind k) : ∃ t, served i t (.fault 0x11 (a - m.off)) ∧ keeps t := by
      obtain ⟨u, handles, done⟩ := serve_fault (k := k) queue mine fault
      exact ⟨_, served_of from_ handles.gone (goes.trans done), keeps_of (by rw [core_answer]; exact handles.words)⟩
    rcases ours with ⟨rfl, op⟩ | ⟨rfl, op⟩ | ⟨rfl, f, op⟩ | ⟨rfl, op⟩ | ⟨rfl, op⟩
    · exact answered (by rw [op]; rfl) load
    · exact answered (by rw [op]; rfl) store
    · exact answered (by rw [op]; rfl) atomic
    · exact answered (by rw [op]; rfl) fill
    · exact answered (by rw [op]; rfl) sync
  case load =>
    obtain ⟨u, sig, handles, done⟩ := exec_serviceLoad queue (serviceFault_none sound inside) from_ op
    rw [read_of handles.words] at done
    exact ⟨_, served_of from_ handles.gone done, keeps_of (by rw [core_answer]; exact handles.words)⟩
  case store =>
    obtain ⟨u, handles, done⟩ := exec_serviceStore queue (serviceFault_none sound inside) from_ unsigned op
    have stored := storedAt_lsStore (handles.poison.trans sound) core ps m.data
    obtain ⟨written, outside⟩ := stored.bytes (size.trans len.symm) distinct
    refine ⟨_, served_of from_ (stored.headGone handles.gone) done, ?_⟩
    rw [core_answer]
    rw [handles.words.ls] at outside
    exact ⟨written, outside, (stored.emptyWords).trans handles.words.emptyWords⟩
  case atomic =>
    obtain ⟨u, sig, handles, done⟩ := exec_serviceAtomic queue (serviceFault_none sound inside) from_ unsigned op
    rw [read_of handles.words] at done
    have stored := storedAt_lsStore (handles.poison.trans sound) core ps (toLe (amoNew (f % 16) (decide (16 ≤ f)) m.size
      (leNat (ps.map (cellGet co.ls))) (leNat m.data) m.cmp.toNat).1 m.size)
    obtain ⟨written, outside⟩ := stored.bytes ((length_toLe ..).trans len.symm) distinct
    refine ⟨_, served_of from_ (stored.headGone handles.gone) done, ?_⟩
    rw [core_answer]
    rw [handles.words.ls] at outside
    refine ⟨fun i p hi => ?_, outside⟩
    have lt : i < m.size := len ▸ (List.getElem?_eq_some_iff.mp hi).1
    have byte := written i p hi
    rw [List.getElem?_eq_getElem (by rwa [length_toLe]), getElem_toLe _ _ _ lt] at byte
    exact Option.some.inj byte
  case fill =>
    obtain ⟨u, handles, done⟩ := exec_serviceFill queue (serviceFault_none sound inside) unsigned op
    have stored := storedAt_lsStore (handles.poison.trans sound) core ps m.data
    obtain ⟨written, outside⟩ := stored.bytes (size.trans len.symm) distinct
    rw [handles.words.ls] at outside
    rw [setFe_full_of_no_waiter (by rw [stored.waiters, handles.words.waiters, nobody]; rfl)] at done
    have gone := (stored.headGone handles.gone).modCore (f := fun co => setFullBit co word) fun _ => ⟨rfl, rfl⟩
    refine ⟨_, served_of from_ gone done, ?_⟩
    rw [core_answer, State.core_modCore_same]
    exact ⟨by simp [setFullBit], written, outside⟩
  case syncFull =>
    obtain ⟨u, sig, handles, done⟩ := exec_serviceSyncLoad queue (serviceFault_none sound inside) from_ op
    rw [if_pos ((isFull_iff ..).mpr (handles.words.emptyWords ▸ full)), read_of handles.words] at done
    have gone := handles.gone.modCore (f := fun co => setEmptyBit co word) fun _ => ⟨rfl, rfl⟩
    refine ⟨_, served_of from_ gone done, ?_⟩
    rw [core_answer, State.core_modCore_same]
    exact ⟨handles.words.ls, (mem_insWord ..).mpr (.inl rfl)⟩
  case syncEmpty =>
    obtain ⟨u, sig, handles, done⟩ := exec_serviceSyncLoad queue (serviceFault_none sound inside) from_ op
    rw [if_neg (mt (isFull_iff ..).mp (not_not.mpr (handles.words.emptyWords ▸ empty))), from_] at done
    have joined := core_joinWaiters u core { word := word, who := .ctx c2 num, world := m.world, off := m.off, size := m.size }
    rw [if_pos (handles.words.waiters ▸ room)] at joined
    have gone := handles.gone.congr (u := joinWaiters u core
      { word := word, who := .ctx c2 num, world := m.world, off := m.off, size := m.size }) (fun _ => rfl) rfl rfl
      (by rw [joined]; exact ⟨rfl, rfl⟩)
    refine ⟨_, done, ⟨?_, ?_⟩, ?_, idles_of gone⟩
    · rw [joined]
      exact handles.words.ls
    · rw [joined]
      exact handles.words.emptyWords
    · rw [joined]
      exact congrArg (· ++ _) handles.words.waiters
  case idle =>
    have idle : exec (.serviceSteal core) s = .next s := by
      show execServiceSteal core s = _
      unfold execServiceSteal
      rw [empty]
    rw [load, store, atomic, fill, sync]
    exact ⟨serve_empty empty, serve_empty empty, serve_empty empty, serve_empty empty, serve_empty empty, idle⟩
  case stolen =>
    have top := stealBack_top (s := popService s core) (core := core) (world := m.world) (popped.2.trans unspilled)
      (popped.1.trans deque) (by rw [stealable_popService]; exact hr) (by rw [stealable_popService]; exact last)
    have done := exec_serviceSteal queue op from_
    rw [top] at done
    obtain ⟨due, late, queued⟩ := later_mem ((popService s core).setCore core { (popService s core).core core with
      deque := l ++ l2 }) s.cycle Config.latMesh (.stealReplyArrival c2 ⟨w2, some r⟩) (headGone_popService queue).cycle
    refine ⟨_, due, done, ?_, late, queued, ?_⟩
    · exact congrArg Core.deque (State.core_setCore_same ..)
    · exact (congrArg Core.svc (State.core_setCore_same ..)).trans (headGone_popService queue).svc
  case notStolen =>
    have none_ := stealBack_nothing (s := popService s core) (core := core) (world := m.world) (popped.2.trans unspilled)
      (by rw [stealable_popService, popped.1]; exact nothing)
    have done := exec_serviceSteal queue op from_
    rw [none_] at done
    obtain ⟨due, late, queued⟩ := later_mem (popService s core) s.cycle Config.latMesh (.stealReplyArrival c2 ⟨w2, none⟩)
      (headGone_popService queue).cycle
    exact ⟨_, due, done, popped.1, late, queued⟩
  case hold =>
    subst fresh
    exact ⟨_, exec_holdReply_live live, congrArg Tag.use (getTag_setTag_same ..), at_mem .., rfl, rfl⟩
  case resend =>
    obtain ⟨due, late, queued⟩ := later_mem s s.cycle Config.latMesh (.holdReply p.die p.idx p.gen) rfl
    exact ⟨_, due, exec_holdReplyResend_parked found parked own, late, mem_agendaIns_of_mem _ _ _ _ queued, at_mem .., rfl⟩

end Sys2Proof.Machine

/-! PROOFS of O16 to O21. A V-op is a vector of lanes that `vOut` writes, or that `vLong` or a parked bundle holds (R65,
R173, R174): the lanes that a write leaves come first, then the lane functions of integers and of floating-point numbers,
the moves, the reductions, and last the results that are held. -/

namespace Sys2Proof

/-- The lane width of a V-op (R169). -/
abbrev VF.width (v : VF) : Nat := typeWidth v.ty.toNat

end Sys2Proof

namespace Sys2Proof.Machine

/-! ## The lanes that a V-op writes -/

/-- The flags of `n` lanes, ORed together (R171). -/
def orFlags (n : Nat) (g : Nat → BitVec 5) : BitVec 5 := ((List.range n).map g).foldl (· ||| ·) 0

/-- A V-op has written lanes `f i` of width `w` into its destination, ORed `fl` into sr.fflags, and changed nothing else. -/
def LanesFlag (s : State) (v : VF) (w : Nat) (o : Out) (f : Nat → Nat) (fl : BitVec 5) : Prop :=
  ∃ r, o = .next (s.modMe (fun sl => (sl.putV v.vd r).addFlags fl)) ∧ ∀ i, i < 128 / w → lane r i w = f i

/-- A V-op has written lanes `f i` of width `w` into its destination, and changed nothing else. -/
def LanesAre (s : State) (v : VF) (w : Nat) (o : Out) (f : Nat → Nat) : Prop :=
  ∃ r, o = .next (s.modMe (·.putV v.vd r)) ∧ ∀ i, i < 128 / w → lane r i w = f i

theorem orFlags_zero {n : Nat} {g : Nat → BitVec 5} (h : ∀ i, g i = 0) : orFlags n g = 0 := by
  obtain rfl : g = fun _ => 0 := funext h
  unfold orFlags
  induction n with
  | zero => rfl
  | succ n ih => rw [List.range_succ, List.map_append, List.foldl_append, ih]; simp

theorem LanesFlag.unflagged {s : State} {v : VF} {w : Nat} {o : Out} {f : Nat → Nat} {fl : BitVec 5}
    (h : LanesFlag s v w o f fl) (zero : fl = 0) : LanesAre s v w o f := by
  subst zero
  simpa [LanesFlag, LanesAre] using h

/-- A lane of a vector that is built of as many lanes as the type has. -/
theorem lane_vecOf_full {t : Nat} {as : List Nat} (hl : as.length = 128 / typeWidth t) {i : Nat} (hi : i < as.length) :
    lane (vecOf (typeWidth t) as) i (typeWidth t) = as[i] % 2 ^ typeWidth t :=
  lane_vecOf _ _ _ hi (by rw [hl]; exact le_of_eq (typeWidth_lanes t).1)

theorem lane_mod (v : Vec) (i w : Nat) : lane v i w % 2 ^ w = lane v i w := Nat.mod_eq_of_lt (lane_lt v i w)

theorem laneOp_congr {s : State} {v : VF} {f g : Nat → Nat → Nat → Nat × BitVec 5} (h : ∀ a b c, f a b c = g a b c) :
    laneOp s v f = laneOp s v g :=
  congrArg (laneOp s v) (funext₃ h)

section
variable {s : State} {v : VF} (idle : s.me.state.waiting = false)
include idle

/-- A V-op that raises no flag writes its register only. -/
theorem vOut_unflagged (r : Vec) : vOut s [(v.vd.toNat, r)] 0 = .next (s.modMe (·.putV v.vd r)) := by
  simpa using vOut_one s v.vd r 0 idle

theorem lanesFlag_vOut {t : Nat} {as : List Nat} {f : Nat → Nat} (fl : BitVec 5) (hl : as.length = 128 / typeWidth t)
    (hf : ∀ i (hi : i < as.length), as[i] % 2 ^ typeWidth t = f i) :
    LanesFlag s v (typeWidth t) (vOut s [(v.vd.toNat, vecOf (typeWidth t) as)] fl) f fl :=
  ⟨_, vOut_one s v.vd _ fl idle, fun i hi => (lane_vecOf_full hl (hl ▸ hi)).trans (hf i (hl ▸ hi))⟩

/-- A lane operation writes its function of the lanes of the same index (R174). -/
theorem lanesFlag_laneOp (f : Nat → Nat → Nat → Nat × BitVec 5) : LanesFlag s v v.width (laneOp s v f)
    (fun i => (f (lane (s.rv v.va) i v.width) (lane (s.rv v.vb) i v.width) (lane (s.rv v.vc) i v.width)).1 % 2 ^ v.width)
    (orFlags (128 / v.width) fun i =>
      (f (lane (s.rv v.va) i v.width) (lane (s.rv v.vb) i v.width) (lane (s.rv v.vc) i v.width)).2) := by
  obtain ⟨r, fl, next, lanes, rfl⟩ := laneOp_spec s v f idle
  exact ⟨r, next, lanes⟩

/-- A lane operation whose function raises no flag and fits in a lane. -/
theorem lanesAre_laneOp {f : Nat → Nat → Nat → Nat × BitVec 5} (g : Nat → Nat → Nat)
    (hf : ∀ a b c, a < 2 ^ v.width → b < 2 ^ v.width → f a b c = (g a b, 0))
    (fits : ∀ a b, a < 2 ^ v.width → g a b < 2 ^ v.width) :
    LanesAre s v v.width (laneOp s v f) (fun i => g (lane (s.rv v.va) i v.width) (lane (s.rv v.vb) i v.width)) := by
  have eq (i : Nat) := hf _ _ (lane (s.rv v.vc) i v.width) (lane_lt (s.rv v.va) i v.width) (lane_lt (s.rv v.vb) i v.width)
  obtain ⟨r, next, lanes⟩ := (lanesFlag_laneOp idle f).unflagged (orFlags_zero fun i => congrArg Prod.snd (eq i))
  refine ⟨r, next, fun i hi => ?_⟩
  calc lane r i v.width = _ := lanes i hi
    _ = g (lane (s.rv v.va) i v.width) (lane (s.rv v.vb) i v.width) % 2 ^ v.width :=
      congrArg (fun p => p.1 % 2 ^ v.width) (eq i)
    _ = _ := Nat.mod_eq_of_lt (fits _ _ (lane_lt ..))

end

/-! ## Logic and modular arithmetic -/

theorem lane_modPair (a b : Vec) (q : Nat) (f : Nat → Nat → Nat) {i : Nat} (hi : i < 2) :
    lane (vecOf 64 (((modLanes a q).zip (modLanes b q)).map fun p => f p.1 p.2)) i 64
      = f (lane a i 64 % q) (lane b i 64 % q) % 2 ^ 64 := by
  rw [lane_vecOf _ _ _ (by simpa [modLanes] using hi) (by simp [modLanes])]
  simp [modLanes]

theorem lane_modTriple (a b c : Vec) (q : Nat) (f : Nat → Nat → Nat → Nat) {i : Nat} (hi : i < 2) :
    lane (vecOf 64 ((zip3 (modLanes a q) (modLanes b q) (modLanes c q)).map fun p => f p.1 p.2.1 p.2.2)) i 64
      = f (lane a i 64 % q) (lane b i 64 % q) (lane c i 64 % q) % 2 ^ 64 := by
  rw [lane_vecOf _ _ _ (by simpa [modLanes, zip3] using hi) (by simp [modLanes, zip3])]
  simp [modLanes, zip3]

section
variable {s : State} {v : VF}

theorem exec_vmodadd : exec (.vmodadd v) s = modOp s v (fun q a b => (a + b) % q) (fun r => vOut s r 0) := rfl
theorem exec_vmodsub : exec (.vmodsub v) s = modOp s v (fun q a b => (a + q - b) % q) (fun r => vOut s r 0) := rfl
theorem exec_vmodmul : exec (.vmodmul v) s = modOp s v (fun q a b => a * b % q) (fun r => vLong s 20 r 0) := rfl
theorem exec_vbfly : exec (.vbfly v) s = execVbfly v s := rfl

theorem withModulus_zero (hq : s.rmodq = 0) (f : Nat → Out) : withModulus s f = trapOut s 6 0x0D 0 := if_pos hq

theorem withModulus_of (hq : s.rmodq ≠ 0) (f : Nat → Out) : withModulus s f = f s.rmodq := if_neg hq

theorem modOp_zero (hq : s.rmodq = 0) (f : Nat → Nat → Nat → Nat) (k : List (Nat × Vec) → Out) :
    modOp s v f k = trapOut s 6 0x0D 0 :=
  withModulus_zero hq _

theorem modOp_of (hq : s.rmodq ≠ 0) (f : Nat → Nat → Nat → Nat) (k : List (Nat × Vec) → Out) :
    modOp s v f k = k [(v.vd.toNat, vecOf 64 (((modLanes (s.rv v.va) s.rmodq).zip (modLanes (s.rv v.vb) s.rmodq)).map
      fun p => f s.rmodq p.1 p.2))] :=
  withModulus_of hq _

/-- What is reduced by the modulus fits in a lane. -/
theorem mod_rmodq_mod (hq : s.rmodq ≠ 0) (a : Nat) : a % s.rmodq % 2 ^ 64 = a % s.rmodq :=
  Nat.mod_eq_of_lt ((Nat.mod_lt a (Nat.pos_of_ne_zero hq)).trans (s.iss.snap.getD s.me).modq.isLt)

/-- The difference of two reduced numbers, with the modulus added against a borrow (R142, R192). -/
theorem sub_mod_eq {q : Nat} (hq : q ≠ 0) (a b : Nat) : (a % q + q - b % q) % q = (((a : Int) - b) % q).toNat := by
  have le : b % q ≤ a % q + q := (Nat.mod_lt b (Nat.pos_of_ne_zero hq)).le.trans (Nat.le_add_left ..)
  have cast : (((a % q + q - b % q) % q : Nat) : Int) = ((a : Int) - b) % q := by
    rw [Int.natCast_mod, Int.natCast_sub le, Nat.cast_add, Int.natCast_mod, Int.natCast_mod, add_sub_right_comm,
      Int.add_emod_right, ← Int.sub_emod]
  rw [← cast, Int.toNat_natCast]

theorem lanesAre_vmodadd (idle : s.me.state.waiting = false) (hq : s.rmodq ≠ 0) :
    LanesAre s v 64 (exec (.vmodadd v) s) (fun i => (lane (s.rv v.va) i 64 + lane (s.rv v.vb) i 64) % s.rmodq) := by
  rw [exec_vmodadd, modOp_of hq]
  refine ⟨_, vOut_unflagged idle _, fun i hi => ?_⟩
  rw [lane_modPair _ _ _ (fun a b => (a + b) % s.rmodq) hi, ← Nat.add_mod, mod_rmodq_mod hq]

theorem lanesAre_vmodsub (idle : s.me.state.waiting = false) (hq : s.rmodq ≠ 0) : LanesAre s v 64 (exec (.vmodsub v) s)
    (fun i => (((lane (s.rv v.va) i 64 : Int) - lane (s.rv v.vb) i 64) % s.rmodq).toNat) := by
  rw [exec_vmodsub, modOp_of hq]
  refine ⟨_, vOut_unflagged idle _, fun i hi => ?_⟩
  rw [lane_modPair _ _ _ (fun a b => (a + s.rmodq - b) % s.rmodq) hi, mod_rmodq_mod hq, sub_mod_eq hq]

end

/-- Settles O16: the bitwise V-ops are one write of V[vd], the modular ones act lane by lane or trap for want of a modulus. -/
theorem vectorLogic : Obligations.VectorLogic := by
  refine ⟨fun s v idle => ?_, fun s v idle => ⟨fun hq => ?_, fun hq => ?_⟩⟩
  · have written := vOut_unflagged (v := v) idle
    exact ⟨rfl, written _, written _, written _, written _, written _⟩
  · exact ⟨lanesAre_vmodadd idle hq, lanesAre_vmodsub idle hq⟩
  · exact ⟨exec_vmodadd.trans (modOp_zero hq _ _), exec_vmodsub.trans (modOp_zero hq _ _),
      exec_vmodmul.trans (modOp_zero hq _ _), exec_vbfly.trans (withModulus_zero hq _)⟩

/-! ## Integer lanes -/

/-- The least number of an integer type (R176). -/
def typeLo (t : Nat) : Int := if t < 4 then -2 ^ (typeWidth t - 1) else 0

/-- The greatest number of an integer type (R176). -/
def typeHi (t : Nat) : Int := if t < 4 then 2 ^ (typeWidth t - 1) - 1 else 2 ^ typeWidth t - 1

/-- A number clamped to the range of its type, as a pattern (R176). -/
def clampTo (t : Nat) (e : Int) : Nat := wrapTo (typeWidth t) (max (typeLo t) (min (typeHi t) e))

theorem signedOf_eq (w a : Nat) : signedOf w a = if 2 ^ (w - 1) ≤ a then (a : Int) - 2 ^ w else a := by
  unfold signedOf
  grind

theorem laneInt_eq_signedOf (t x : Nat) : laneInt t x = if t < 4 then signedOf (typeWidth t) x else x := by
  simp [laneInt, isSigned]

theorem laneInt_eq (t x : Nat) :
    laneInt t x = if t < 4 ∧ 2 ^ (typeWidth t - 1) ≤ x then (x : Int) - 2 ^ typeWidth t else x := by
  rw [laneInt_eq_signedOf, signedOf_eq]
  grind

theorem typeLo_le_typeHi (t : Nat) : typeLo t ≤ typeHi t := by
  have half : (1 : Int) ≤ 2 ^ (typeWidth t - 1) := one_le_pow₀ (by decide)
  have all : (1 : Int) ≤ 2 ^ typeWidth t := one_le_pow₀ (by decide)
  unfold typeLo typeHi
  split <;> omega

theorem intLane_plain (t : Nat) (e : Int) : intLane t false e = (wrapTo (typeWidth t) e, 0) := rfl

theorem intLane_sat (t : Nat) (e : Int) : intLane t true e = (clampTo t e, 0) := by
  have clamp : (if e < typeLo t then typeLo t else if typeHi t < e then typeHi t else e)
      = max (typeLo t) (min (typeHi t) e) := by
    have := typeLo_le_typeHi t
    grind
  rw [clampTo, ← clamp]
  by_cases signed : t < 4 <;> simp [intLane, isSigned, typeLo, typeHi, signed]

theorem wrapTo_lt (w : Nat) (e : Int) : wrapTo w e < 2 ^ w := by
  have := Int.emod_lt_of_pos e (show (0 : Int) < 2 ^ w by positivity)
  have cast : ((2 ^ w : Nat) : Int) = 2 ^ w := by norm_cast
  unfold wrapTo
  omega

theorem wrapTo_natCast {w a : Nat} (h : a < 2 ^ w) : wrapTo w a = a := by
  unfold wrapTo
  rw [Int.emod_eq_of_lt (Int.natCast_nonneg a) (by exact_mod_cast h), Int.toNat_natCast]

/-- A lane is the pattern of its number. -/
theorem wrapTo_laneInt {t a : Nat} (h : a < 2 ^ typeWidth t) : wrapTo (typeWidth t) (laneInt t a) = a := by
  rw [laneInt_eq]
  split
  · unfold wrapTo
    rw [Int.sub_emod_right]
    exact wrapTo_natCast h
  · exact wrapTo_natCast h

/-- The lesser of two lanes (R178). -/
theorem lesser_lane {t a b : Nat} (ha : a < 2 ^ typeWidth t) (hb : b < 2 ^ typeWidth t) :
    (if decide (laneInt t a < laneInt t b) == false then b else a)
      = wrapTo (typeWidth t) (min (laneInt t a) (laneInt t b)) := by
  by_cases h : laneInt t a < laneInt t b
  · rw [min_eq_left h.le, wrapTo_laneInt ha]; simp [h]
  · rw [min_eq_right (not_lt.mp h), wrapTo_laneInt hb]; simp [h]

/-- The greater of two lanes (R178). -/
theorem greater_lane {t a b : Nat} (ha : a < 2 ^ typeWidth t) (hb : b < 2 ^ typeWidth t) :
    (if decide (laneInt t a < laneInt t b) == true then b else a)
      = wrapTo (typeWidth t) (max (laneInt t a) (laneInt t b)) := by
  by_cases h : laneInt t a < laneInt t b
  · rw [max_eq_right h.le, wrapTo_laneInt hb]; simp [h]
  · rw [max_eq_left (not_lt.mp h), wrapTo_laneInt ha]; simp [h]

theorem mask_lt (w : Nat) (c : Bool) : mask w c < 2 ^ w := by
  have := Nat.two_pow_pos w
  unfold mask
  split <;> omega

theorem mask_decide (w : Nat) (c : Prop) [Decidable c] : mask w (decide c) = if c then 2 ^ w - 1 else 0 := by
  simp [mask]

section
variable {s : State} {v : VF}

theorem exec_vadd : exec (.vadd v) s = arith s v (fun a b => a + b) (fun rm a b => addF rm a b) := rfl
theorem exec_vsub : exec (.vsub v) s = arith s v (fun a b => a - b) (fun rm a b => addF rm a b.flip) := rfl
theorem exec_vmin : exec (.vmin v) s = minMax s v false := rfl
theorem exec_vmax : exec (.vmax v) s = minMax s v true := rfl
theorem exec_vcmpeq : exec (.vcmpeq v) s = compare s v (fun a b => decide (a = b)) (fun c => c == 0) true := rfl
theorem exec_vcmplt : exec (.vcmplt v) s
    = compare s v (fun a b => decide (a < b)) (fun c => decide (c < 0)) (v.mode == 1) := rfl
theorem exec_vcmple : exec (.vcmple v) s
    = compare s v (fun a b => decide (a ≤ b)) (fun c => decide (c ≤ 0)) (v.mode == 1) := rfl

theorem exec_vmul (hm : isI v.ty.toNat = false ∨ v.mode ≠ 2) :
    exec (.vmul v) s = arith s v (fun a b => a * b) (fun _ a b => mulF a b) :=
  if_neg fun h => by
    obtain ⟨isInt, hi⟩ := Bool.and_eq_true_iff.mp h
    exact hm.elim (fun e => absurd (e.symm.trans isInt) (by decide)) (· (beq_iff_eq.mp hi))

theorem exec_vsll : exec (.vsll v) s = laneOp s v fun a b _ => (a * 2 ^ (b % v.width) % 2 ^ v.width, 0) := rfl
theorem exec_vsrl : exec (.vsrl v) s = laneOp s v fun a b _ => (a / 2 ^ (b % v.width), 0) := rfl
theorem exec_vsra : exec (.vsra v) s = laneOp s v fun a b _ =>
    (wrapTo v.width ((if 2 ^ (v.width - 1) ≤ a then (a : Int) - 2 ^ v.width else a) / 2 ^ (b % v.width)), 0) := by
  change execVsra v s = _
  unfold execVsra
  exact laneOp_congr fun _ _ _ => by rw [signedOf_eq]

section
variable (isInt : isI v.ty.toNat = true)
include isInt

theorem exec_vmul_hi (hm : v.mode = 2) : exec (.vmul v) s = laneOp s v fun a b _ =>
    (wrapTo v.width (laneInt v.ty.toNat a * laneInt v.ty.toNat b / 2 ^ v.width), 0) :=
  if_pos (by rw [isInt, hm]; rfl)

theorem arith_int (i : Int → Int → Int) (f : RMode → FVal → FVal → FVal × BitVec 5) : arith s v i f
    = laneOp s v fun a b _ => intLane v.ty.toNat (v.mode == 1) (i (laneInt v.ty.toNat a) (laneInt v.ty.toNat b)) :=
  if_pos isInt

theorem minMax_int (isMax : Bool) : minMax s v isMax
    = laneOp s v fun a b _ => (if decide (laneInt v.ty.toNat a < laneInt v.ty.toNat b) == isMax then b else a, 0) := by
  unfold minMax
  exact laneOp_congr fun _ _ _ => if_pos isInt

theorem exec_vabs_int :
    exec (.vabs v) s = laneOp s v fun a _ _ => intLane v.ty.toNat (v.mode == 1) |laneInt v.ty.toNat a| := by
  change execVabs v s = _
  unfold execVabs
  exact laneOp_congr fun a _ _ => by rw [if_pos isInt, Int.natCast_natAbs]

theorem exec_vneg_int :
    exec (.vneg v) s = laneOp s v fun a _ _ => intLane v.ty.toNat (v.mode == 1) (-laneInt v.ty.toNat a) := by
  change execVneg v s = _
  unfold execVneg
  exact laneOp_congr fun _ _ _ => if_pos isInt

theorem compare_int (i : Int → Int → Bool) (f : Int → Bool) (quiet : Bool) : compare s v i f quiet
    = laneOp s v fun a b _ => (mask v.width (i (laneInt v.ty.toNat a) (laneInt v.ty.toNat b)), 0) := by
  unfold compare
  exact laneOp_congr fun _ _ _ => if_pos isInt

end
end

/-- Settles O17: each V-op is a lane operation (its equation above), whose function has the result of its rule. -/
theorem integerLanes : Obligations.IntegerLanes := by
  intro s v idle ht w num lo hi wrap clamp ones lanesAre
  have isInt : isI v.ty.toNat = true := decide_eq_true ht
  have hnum : num = laneInt v.ty.toNat := funext fun x => (laneInt_eq _ x).symm
  clear_value num
  subst hnum
  have unflagged {o : Out} {f : Nat → Nat → Nat → Nat × BitVec 5} (g : Nat → Nat → Nat) (ho : o = laneOp s v f)
      (hf : ∀ a b c, a < 2 ^ w → b < 2 ^ w → f a b c = (g a b, 0)) (fits : ∀ a b, a < 2 ^ w → g a b < 2 ^ w) :
      lanesAre o g := ho ▸ lanesAre_laneOp idle g hf fits
  have wrapped {o : Out} {f : Nat → Nat → Nat → Nat × BitVec 5} (e : Nat → Nat → Int) (ho : o = laneOp s v f)
      (hf : ∀ a b c, a < 2 ^ w → b < 2 ^ w → f a b c = (wrap (e a b), 0)) : lanesAre o (fun a b => wrap (e a b)) :=
    unflagged _ ho hf fun _ _ _ => wrapTo_lt ..
  have plain (hm : v.mode = 0) {o : Out} (e : Nat → Nat → Int)
      (ho : o = laneOp s v fun a b _ => intLane v.ty.toNat (v.mode == 1) (e a b)) :
      lanesAre o (fun a b => wrap (e a b)) := wrapped e ho fun _ _ _ _ _ => by rw [hm]; exact intLane_plain ..
  have sat (hm : v.mode = 1) {o : Out} (e : Nat → Nat → Int)
      (ho : o = laneOp s v fun a b _ => intLane v.ty.toNat (v.mode == 1) (e a b)) :
      lanesAre o (fun a b => clamp (e a b)) :=
    wrapped (fun a b => max lo (min hi (e a b))) ho fun _ _ _ _ _ => by rw [hm]; exact intLane_sat ..
  have compares (i : Int → Int → Prop) [DecidableRel i] {o : Out} {f : Int → Bool} {quiet : Bool}
      (ho : o = compare s v (fun a b => decide (i a b)) f quiet) :
      lanesAre o (fun a b => ones (i (laneInt v.ty.toNat a) (laneInt v.ty.toNat b))) :=
    unflagged _ (ho.trans (compare_int isInt ..)) (fun _ _ _ _ _ => congrArg (·, 0) (mask_decide ..))
      fun _ _ _ => (mask_decide ..).symm.trans_lt (mask_lt ..)
  clear_value lanesAre
  refine ⟨fun hm => ?_, fun hm => ?_, fun hm => wrapped _ (exec_vmul_hi isInt hm) fun _ _ _ _ _ => rfl⟩
  · have noHi : v.mode ≠ 2 := by rw [hm]; decide
    exact ⟨plain hm _ (exec_vadd.trans (arith_int isInt ..)), plain hm _ (exec_vsub.trans (arith_int isInt ..)),
      plain hm _ ((exec_vmul (.inr noHi)).trans (arith_int isInt ..)),
      wrapped _ (exec_vmin.trans (minMax_int isInt _)) fun _ _ _ ha hb => congrArg (·, 0) (lesser_lane ha hb),
      wrapped _ (exec_vmax.trans (minMax_int isInt _)) fun _ _ _ ha hb => congrArg (·, 0) (greater_lane ha hb),
      plain hm _ (exec_vabs_int isInt), plain hm _ (exec_vneg_int isInt),
      unflagged _ exec_vsll (fun _ _ _ _ _ => rfl) fun _ _ _ => Nat.mod_lt _ (Nat.two_pow_pos w),
      unflagged _ exec_vsrl (fun _ _ _ _ _ => rfl) fun a _ ha => (Nat.div_le_self a _).trans_lt ha,
      wrapped _ exec_vsra fun _ _ _ _ _ => rfl,
      compares (· = ·) exec_vcmpeq, compares (· < ·) exec_vcmplt, compares (· ≤ ·) exec_vcmple⟩
  · have noHi : v.mode ≠ 2 := by rw [hm]; decide
    exact ⟨sat hm _ (exec_vadd.trans (arith_int isInt ..)), sat hm _ (exec_vsub.trans (arith_int isInt ..)),
      sat hm _ ((exec_vmul (.inr noHi)).trans (arith_int isInt ..)), sat hm _ (exec_vabs_int isInt),
      sat hm _ (exec_vneg_int isInt)⟩

/-! ## Floating-point lanes -/

/-- A changed sign bit, or the canonical NaN (R179). -/
theorem signOp_eq (f : Fmt) (p q : Nat) : signOp f p q
    = if (decodeF f p).isNan then (f.nanPat, if (decodeF f p).isSnan then flNV else 0) else (q, 0) := by
  unfold signOp
  cases decodeF f p <;> rfl

section
variable {s : State} {v : VF}

theorem exec_vfma : exec (.vfma v) s = laneOp s v fun a b c => finishF (fmtOf v.ty.toNat) (roundingOf s v.mode)
    (fmaF (roundingOf s v.mode) (decodeF (fmtOf v.ty.toNat) a) (decodeF (fmtOf v.ty.toNat) b)
      (decodeF (fmtOf v.ty.toNat) c)) := rfl
theorem exec_vfms : exec (.vfms v) s = laneOp s v fun a b c => finishF (fmtOf v.ty.toNat) (roundingOf s v.mode)
    (fmaF (roundingOf s v.mode) (decodeF (fmtOf v.ty.toNat) a) (decodeF (fmtOf v.ty.toNat) b)
      (decodeF (fmtOf v.ty.toNat) c).flip) := rfl
theorem exec_vrcp : exec (.vrcp v) s = laneOp s v fun a _ _ => rcpF (fmtOf v.ty.toNat) a := rfl
theorem exec_vrsq : exec (.vrsq v) s = laneOp s v fun a _ _ => rsqF (fmtOf v.ty.toNat) a := rfl
theorem exec_vrcps : exec (.vrcps v) s = laneOp s v fun a b _ => stepF (fmtOf v.ty.toNat) (roundingOf s v.mode) 2 false
    (decodeF (fmtOf v.ty.toNat) a) (decodeF (fmtOf v.ty.toNat) b) := rfl
theorem exec_vrsqs : exec (.vrsqs v) s = laneOp s v fun a b _ => stepF (fmtOf v.ty.toNat) (roundingOf s v.mode) 3 true
    (decodeF (fmtOf v.ty.toNat) a) (decodeF (fmtOf v.ty.toNat) b) := rfl

section
variable (noInt : isI v.ty.toNat = false)
include noInt

theorem arith_float (i : Int → Int → Int) (f : RMode → FVal → FVal → FVal × BitVec 5) : arith s v i f
    = laneOp s v fun a b _ => finishF (fmtOf v.ty.toNat) (roundingOf s v.mode)
        (f (roundingOf s v.mode) (decodeF (fmtOf v.ty.toNat) a) (decodeF (fmtOf v.ty.toNat) b)) :=
  if_neg (ne_true_of_eq_false noInt)

theorem minMax_float (isMax : Bool) :
    minMax s v isMax = laneOp s v fun a b _ => minMaxF (fmtOf v.ty.toNat) isMax a b := by
  unfold minMax
  exact laneOp_congr fun _ _ _ => if_neg (ne_true_of_eq_false noInt)

theorem exec_vabs_float : exec (.vabs v) s
    = laneOp s v fun a _ _ => signOp (fmtOf v.ty.toNat) a (a % (fmtOf v.ty.toNat).signBit) := by
  change execVabs v s = _
  unfold execVabs
  exact laneOp_congr fun _ _ _ => if_neg (ne_true_of_eq_false noInt)

theorem exec_vneg_float : exec (.vneg v) s
    = laneOp s v fun a _ _ => signOp (fmtOf v.ty.toNat) a (a ^^^ (fmtOf v.ty.toNat).signBit) := by
  change execVneg v s = _
  unfold execVneg
  exact laneOp_congr fun _ _ _ => if_neg (ne_true_of_eq_false noInt)

/-- A compare is false where an operand is a NaN, which sets NV unless the compare is quiet and the NaN too (R182). -/
theorem compare_float (i : Int → Int → Bool) (f : Int → Bool) (quiet : Bool) : compare s v i f quiet
    = laneOp s v fun a b _ =>
      let x := decodeF (fmtOf v.ty.toNat) a
      let y := decodeF (fmtOf v.ty.toNat) b
      if x.isNan ∨ y.isNan then (0, if quiet = false ∨ x.isSnan ∨ y.isSnan then flNV else 0)
      else (if f (cmpF x y) then 2 ^ v.width - 1 else 0, 0) := by
  unfold compare
  apply laneOp_congr
  intro a b _
  rw [if_neg (ne_true_of_eq_false noInt)]
  simp only [flagIf, mask, Bool.or_eq_true, Bool.not_eq_true', or_assoc]

end
end

/-- Settles O18: each V-op is a lane operation (its equation above), which writes its lanes and ORs in their flags. -/
theorem floatLanes : Obligations.FloatLanes := by
  intro s v idle lo hi w fm rm val lanesAre nanOr ordered
  have noInt : isI v.ty.toNat = false := decide_eq_false (not_lt.mpr lo)
  have lanes {o : Out} {f : Nat → Nat → Nat → Nat × BitVec 5} (ho : o = laneOp s v f) : lanesAre o f :=
    ho ▸ lanesFlag_laneOp idle f
  clear_value lanesAre
  have sign {o : Out} (q : Nat → Nat) (ho : o = laneOp s v fun a _ _ => signOp fm a (q a)) :
      lanesAre o (fun a _ _ => nanOr a (q a)) := lanes (ho.trans (laneOp_congr fun _ _ _ => signOp_eq ..))
  exact ⟨lanes (exec_vadd.trans (arith_float noInt ..)), lanes (exec_vsub.trans (arith_float noInt ..)),
    lanes ((exec_vmul (.inl noInt)).trans (arith_float noInt ..)), lanes exec_vfma, lanes exec_vfms,
    lanes (exec_vmin.trans (minMax_float noInt _)), lanes (exec_vmax.trans (minMax_float noInt _)),
    sign _ (exec_vabs_float noInt), sign _ (exec_vneg_float noInt),
    lanes (exec_vcmpeq.trans (compare_float noInt ..)), lanes (exec_vcmplt.trans (compare_float noInt ..)),
    lanes (exec_vcmple.trans (compare_float noInt ..)), lanes exec_vrcp, lanes exec_vrsq, lanes exec_vrcps,
    lanes exec_vrsqs⟩

/-! ## Lane moves and conversion -/

theorem setAt_eq_set {α : Type} (as : List α) (k : Nat) (x : α) : setAt as k x = as.set k x := by
  induction as generalizing k with
  | nil => rfl
  | cons a as ih => cases k with
    | zero => rfl
    | succ k => exact congrArg (a :: ·) (ih k)

/-- A lane of the table that two vectors form (R184). -/
theorem getD_lanes_append (a b : Vec) (w j : Nat) : (lanes a w ++ lanes b w).getD j 0
    = if j < 128 / w then lane a j w else if j < 2 * (128 / w) then lane b (j - 128 / w) w else 0 := by
  by_cases low : j < 128 / w
  · rw [List.getD_append _ _ _ _ (by simpa using low), if_pos low]
    simp [List.getD, lanes, low]
  · rw [List.getD_append_right _ _ _ _ (by simpa using low), if_neg low, length_lanes]
    by_cases high : j < 2 * (128 / w)
    · rw [if_pos high]
      simp [List.getD, lanes, show j - 128 / w < 128 / w by omega]
    · rw [if_neg high]
      simp [List.getD, lanes, show 128 / w ≤ j - 128 / w by omega]

/-- `n` lanes from lane `k` up. -/
theorem lanes_window (x : Vec) {w k n : Nat} (fits : k + n ≤ 128 / w) :
    ((lanes x w).drop k).take n = (List.range n).map fun i => lane x (k + i) w := by
  refine List.ext_getElem (by simp; omega) fun i _ _ => ?_
  simp

/-- Part `p` of a vector of narrow lanes lies within it (R183). -/
theorem part_fits {narrow wide p : Nat} (hp : p < typeWidth wide / typeWidth narrow) :
    p * (128 / typeWidth wide) + 128 / typeWidth wide ≤ 128 / typeWidth narrow := by
  obtain ⟨-, pos⟩ := typeWidth_lanes wide
  calc p * (128 / typeWidth wide) + 128 / typeWidth wide = (p + 1) * (128 / typeWidth wide) := (Nat.succ_mul ..).symm
    _ ≤ typeWidth wide / typeWidth narrow * (128 / typeWidth wide) := Nat.mul_le_mul_right _ hp
    _ ≤ typeWidth wide * 128 / (typeWidth narrow * typeWidth wide) := Nat.div_mul_div_le ..
    _ = 128 / typeWidth narrow := by rw [Nat.mul_comm (typeWidth narrow), Nat.mul_div_mul_left _ _ pos]

/-- The whole of a vector is its lanes. -/
theorem lanes_take_all (x : Vec) (w : Nat) : (lanes x w).take (128 / w) = (List.range (128 / w)).map fun i => lane x i w :=
  List.take_of_length_le (by simp)

theorem length_splice {old new : List Nat} {k n : Nat} (hn : new.length = n) (fits : k + n ≤ old.length) :
    (old.take k ++ new ++ old.drop (k + n)).length = old.length := by
  simp only [List.length_append, List.length_take, List.length_drop, hn]
  omega

/-- A list in which the elements of places `k` to `k + n - 1` have been replaced. -/
theorem getElem_splice {old new : List Nat} {k n i : Nat} (hn : new.length = n) (fits : k + n ≤ old.length)
    (hi : i < (old.take k ++ new ++ old.drop (k + n)).length) :
    (old.take k ++ new ++ old.drop (k + n))[i] = if k ≤ i ∧ i < k + n then new.getD (i - k) 0 else old.getD i 0 := by
  have low : (old.take k).length = k := List.length_take_of_le (by omega)
  have both : (old.take k ++ new).length = k + n := by rw [List.length_append, low, hn]
  have inside : i < old.length := length_splice hn fits ▸ hi
  rcases lt_or_ge i k with before | from_
  · rw [List.getElem_append_left (by omega), List.getElem_append_left (by rwa [low]), List.getElem_take,
      if_neg (by omega), List.getD_eq_getElem _ _ inside]
  · rcases lt_or_ge i (k + n) with within | after
    · rw [List.getElem_append_left (by omega), List.getElem_append_right (by rwa [low]), if_pos ⟨from_, within⟩,
        List.getD_eq_getElem _ _ (by omega)]
      simp only [low]
    · rw [List.getElem_append_right (by omega), List.getElem_drop, if_neg (by omega), List.getD_eq_getElem _ _ inside]
      simp only [both, Nat.add_sub_cancel' after]

section
variable {s : State} {v : VF} (idle : s.me.state.waiting = false)
include idle

theorem lanesAre_vshuf : LanesAre s v v.width (exec (.vshuf v) s) (fun i =>
    let j := lane (s.rv v.vc) i v.width
    if j < 128 / v.width then lane (s.rv v.va) j v.width
    else if j < 2 * (128 / v.width) then lane (s.rv v.vb) (j - 128 / v.width) v.width else 0) := by
  refine (lanesFlag_vOut idle 0 (by simp) fun i hi => ?_).unflagged rfl
  rw [List.getElem_map, getElem_lanes, getD_lanes_append]
  refine Nat.mod_eq_of_lt ?_
  split_ifs
  · exact lane_lt ..
  · exact lane_lt ..
  · exact Nat.two_pow_pos _

theorem lanesAre_vbcast : LanesAre s v v.width (exec (.vbcast v) s) (fun _ => (s.rx v.va).toNat % 2 ^ v.width) := by
  refine (lanesFlag_vOut idle 0 (by simp) fun i hi => ?_).unflagged rfl
  rw [List.getElem_replicate, Nat.mod_mod]

theorem lanesAre_vins : LanesAre s v v.width (exec (.vins v) s) (fun i =>
    if i = v.vb.toNat then (s.rx v.va).toNat % 2 ^ v.width else lane (s.rv v.vd) i v.width) := by
  refine (lanesFlag_vOut idle 0 (by simp [setAt_eq_set]) fun i hi => ?_).unflagged rfl
  simp only [setAt_eq_set, List.getElem_set, getElem_lanes, eq_comm (a := v.vb.toNat)]
  split
  · exact Nat.mod_mod ..
  · exact lane_mod ..

theorem exec_vext (writable : s.writable v.vd) : exec (.vext v) s = .next (s.modMe (·.putX v.vd
    (if v.ty.toNat < 4 then BitVec.ofInt 64 (signedOf v.width (lane (s.rv v.va) v.vb.toNat v.width))
      else BitVec.ofNat 64 (lane (s.rv v.va) v.vb.toNat v.width)))) := by
  refine (guardX_of s v.vd _ writable).trans ?_
  unfold State.modMe State.modSlot
  simp only [State.me] at idle ⊢
  simp [vResult, idle, regOf, isSigned]

/-- A widening conversion fills the destination from part p of its source (R183). -/
theorem lanesFlag_vcvt_wide (wider : typeWidth v.vb.toNat < v.width) (hp : v.vc.toNat < v.width / typeWidth v.vb.toNat) :
    let conv (i : Nat) := convLane (roundingOf s v.mode) v.vb.toNat v.ty.toNat
      (lane (s.rv v.va) (v.vc.toNat * (128 / v.width) + i) (typeWidth v.vb.toNat))
    LanesFlag s v v.width (exec (.vcvt v) s) (fun i => (conv i).1 % 2 ^ v.width)
      (orFlags (128 / v.width) fun i => (conv i).2) := by
  intro conv
  have result : exec (.vcvt v) s = vOut s [(v.vd.toNat, vecOf v.width ((List.range (128 / v.width)).map fun i => (conv i).1))]
      (orFlags (128 / v.width) fun i => (conv i).2) := by
    change execVcvt v s = _
    unfold execVcvt
    simp only [Nat.max_eq_right wider.le, if_pos wider, lanes_window _ (part_fits hp), List.map_map, List.foldl_map, orFlags]
    rfl
  rw [result]
  exact lanesFlag_vOut idle _ (by simp) fun i hi => by simp

/-- A narrowing conversion fills part p of the destination (R183). -/
theorem lanesFlag_vcvt_narrow (noWider : v.width ≤ typeWidth v.vb.toNat)
    (hp : v.vc.toNat < typeWidth v.vb.toNat / v.width) :
    let m := 128 / typeWidth v.vb.toNat
    let conv (i : Nat) := convLane (roundingOf s v.mode) v.vb.toNat v.ty.toNat (lane (s.rv v.va) i (typeWidth v.vb.toNat))
    LanesFlag s v v.width (exec (.vcvt v) s)
      (fun i => if v.vc.toNat * m ≤ i ∧ i < v.vc.toNat * m + m then (conv (i - v.vc.toNat * m)).1 % 2 ^ v.width
        else lane (s.rv v.vd) i v.width)
      (orFlags m fun i => (conv i).2) := by
  intro m conv
  have result : exec (.vcvt v) s = vOut s [(v.vd.toNat, vecOf v.width ((lanes (s.rv v.vd) v.width).take (v.vc.toNat * m)
      ++ ((List.range m).map fun i => (conv i).1) ++ (lanes (s.rv v.vd) v.width).drop (v.vc.toNat * m + m)))]
      (orFlags m fun i => (conv i).2) := by
    change execVcvt v s = _
    unfold execVcvt
    simp only [Nat.max_eq_left noWider, if_neg (not_lt.mpr noWider), lanes_take_all, List.map_map, List.foldl_map, orFlags]
    rfl
  have fits : v.vc.toNat * m + m ≤ 128 / v.width := part_fits hp
  rw [result]
  have length := length_splice (old := lanes (s.rv v.vd) v.width) (new := (List.range m).map fun i => (conv i).1) (n := m)
    (by simp) (by simpa using fits)
  refine lanesFlag_vOut idle _ (length.trans (length_lanes ..)) fun i hi => ?_
  rw [getElem_splice (by simp) (by simpa using fits)]
  split
  · next within =>
    rw [List.getD_eq_getElem _ _ (by simp; omega)]
    simp
  · rw [List.getD_eq_getElem _ _ (length ▸ hi), getElem_lanes, lane_mod]

end

end Sys2Proof.Machine

namespace Sys2Proof

open Machine in
/-- Settles O19: each move and each conversion by the lanes of the vector that it builds. -/
theorem laneMoves : Obligations.LaneMoves := by
  intro s v idle w n ws rm conv lanesAre lanesFlag ored
  exact ⟨lanesAre_vshuf idle, lanesAre_vbcast idle, lanesAre_vins idle, exec_vext idle,
    lanesFlag_vcvt_wide idle, lanesFlag_vcvt_narrow idle⟩

end Sys2Proof

namespace Sys2Proof.Machine

/-! ## Reductions -/

/-- The fold of VMAXR chooses an element that none exceeds (R188). -/
theorem foldl_greatest (l : List Int) (a : Int) :
    let m := l.foldl (fun a b => if a < b then b else a) a
    (m = a ∨ m ∈ l) ∧ a ≤ m ∧ ∀ x ∈ l, x ≤ m := by
  induction l generalizing a with
  | nil => simp
  | cons b l ih =>
    obtain ⟨mem, first, rest⟩ := ih (if a < b then b else a)
    simp only [List.foldl_cons, List.mem_cons]
    generalize l.foldl (fun a b => if a < b then b else a) (if a < b then b else a) = m at mem first rest
    grind

/-- The greatest of `n` numbers is one of them. -/
theorem foldl_greatest_range {n : Nat} (pos : 0 < n) (f : Nat → Int) :
    ∃ j, j < n ∧ (∀ i, i < n → f i ≤ f j)
      ∧ ((List.range n).map f).foldl (fun a b => if a < b then b else a) (((List.range n).map f).headD 0) = f j := by
  obtain ⟨n, rfl⟩ := Nat.exists_eq_succ_of_ne_zero pos.ne'
  have head : ((List.range (n + 1)).map f).headD 0 = f 0 := by simp [List.range_succ_eq_map]
  rw [head]
  obtain ⟨mem, first, rest⟩ := foldl_greatest ((List.range (n + 1)).map f) (f 0)
  have ⟨j, hj, eq⟩ : ∃ j, j < n + 1
      ∧ f j = ((List.range (n + 1)).map f).foldl (fun a b => if a < b then b else a) (f 0) := by
    rcases mem with zero | among
    · exact ⟨0, n.succ_pos, zero.symm⟩
    · obtain ⟨j, hj, eq⟩ := List.mem_map.mp among
      exact ⟨j, List.mem_range.mp hj, eq⟩
  exact ⟨j, hj, fun i hi => eq ▸ rest _ (List.mem_map_of_mem (List.mem_range.mpr hi)), eq.symm⟩

theorem lanes_pos (t : Nat) : 0 < 128 / typeWidth t := by
  obtain ⟨full, -⟩ := typeWidth_lanes t
  exact Nat.pos_of_ne_zero fun none => by rw [none] at full; omega

theorem zip_lanes (a b : Vec) (w : Nat) :
    (lanes a w).zip (lanes b w) = (List.range (128 / w)).map fun i => (lane a i w, lane b i w) :=
  List.zip_map' ..

section
variable {s : State} {v : VF} (idle : s.me.state.waiting = false)
include idle

/-- An exact sum and the accumulator, wrapped into the low bits (R187). -/
theorem reduceI_eq (sum : Int) :
    let aw := if v.width = 64 then 64 else 32
    reduceI s v sum = .next (s.modMe (·.putV v.vd
      (BitVec.ofNat 128 ((sum + ((s.rv v.vc).toNat % 2 ^ aw : Nat)) % 2 ^ aw).toNat))) :=
  vOut_unflagged idle _

/-- The tree of R145 with the accumulator added at its root (R186). -/
theorem reduceF_eq (terms : List (FVal × BitVec 5)) :
    let f := accFmt v.ty.toNat
    let rm := roundingOf s v.mode
    let root := treeSum f rm 4 terms
    let sum := finishF f rm (addF rm (decodeF f ((s.rv v.vc).toNat % 2 ^ f.width)) root.1)
    reduceF s v terms = .next (s.modMe (fun sl => (sl.putV v.vd (BitVec.ofNat 128 sum.1)).addFlags (root.2 ||| sum.2))) :=
  vOut_one s v.vd _ _ idle

end

section
variable {s : State} {v : VF}

theorem exec_vdot_int (isInt : isI v.ty.toNat = true) : exec (.vdot v) s = reduceI s v ((List.range (128 / v.width)).map
    fun i => laneInt v.ty.toNat (lane (s.rv v.va) i v.width) * laneInt v.ty.toNat (lane (s.rv v.vb) i v.width)).sum := by
  change execVdot v s = _
  unfold execVdot
  rw [if_pos isInt, zip_lanes, List.map_map, ← List.sum_eq_foldl]
  rfl

theorem exec_vsumr_int (isInt : isI v.ty.toNat = true) : exec (.vsumr v) s = reduceI s v ((List.range (128 / v.width)).map
    fun i => laneInt v.ty.toNat (lane (s.rv v.va) i v.width)).sum := by
  change execVsumr v s = _
  unfold execVsumr
  rw [if_pos isInt, lanes, List.map_map, ← List.sum_eq_foldl]
  rfl

theorem exec_vdot_float (noInt : isI v.ty.toNat = false) : exec (.vdot v) s = reduceF s v ((List.range (128 / v.width)).map
    fun i => mulF (decodeF (fmtOf v.ty.toNat) (lane (s.rv v.va) i v.width))
      (decodeF (fmtOf v.ty.toNat) (lane (s.rv v.vb) i v.width))) := by
  change execVdot v s = _
  unfold execVdot
  rw [if_neg (ne_true_of_eq_false noInt), zip_lanes, List.map_map]
  rfl

theorem exec_vsumr_float (noInt : isI v.ty.toNat = false) : exec (.vsumr v) s = reduceF s v ((List.range (128 / v.width)).map
    fun i => (decodeF (fmtOf v.ty.toNat) (lane (s.rv v.va) i v.width), 0)) := by
  change execVsumr v s = _
  unfold execVsumr
  rw [if_neg (ne_true_of_eq_false noInt), lanes, List.map_map]
  rfl

/-- The measure that VMAXR orders integer lanes by (R188). -/
def maxMeasure (v : VF) (a : Nat) : Int := if v.mode = 1 then |laneInt v.ty.toNat a| else laneInt v.ty.toNat a

theorem exec_vmaxr_int (isInt : isI v.ty.toNat = true) :
    let ns := (List.range (128 / v.width)).map fun i => maxMeasure v (lane (s.rv v.va) i v.width)
    exec (.vmaxr v) s = vOut s [(v.vd.toNat, BitVec.ofNat 128
      (wrapTo v.width (ns.foldl (fun a b => if a < b then b else a) (ns.headD 0))))] 0 := by
  change execVmaxr v s = _
  unfold execVmaxr
  rw [if_pos isInt]
  by_cases hm : v.mode = 1
  · simp only [if_pos hm, lanes, List.map_map, maxMeasure, Int.natCast_natAbs]
    rfl
  · simp only [if_neg hm, lanes, List.map_map, maxMeasure]
    rfl

theorem exec_vmaxr_float (noInt : isI v.ty.toNat = false) :
    let top := maxFold (fmtOf v.ty.toNat) ((List.range (128 / v.width)).map fun i =>
      if v.mode = 1 then lane (s.rv v.va) i v.width % (fmtOf v.ty.toNat).signBit else lane (s.rv v.va) i v.width)
    exec (.vmaxr v) s = vOut s [(v.vd.toNat, BitVec.ofNat 128 top.1)] top.2 := by
  change execVmaxr v s = _
  unfold execVmaxr
  rw [if_neg (ne_true_of_eq_false noInt)]
  by_cases hm : v.mode = 1
  · simp only [if_pos hm, lanes, List.map_map]
    rfl
  · simp only [if_neg hm, lanes]

end

/-- Settles O20: a reduction of integers is an exact sum or the choice of a fold, one of floating-point numbers the tree or
the fold of the patterns. -/
theorem vectorReductions : Obligations.VectorReductions := by
  intro s v idle t w n va vb num aw acc result value f rm tree measure
  have hnum : num = laneInt t := funext fun x => (laneInt_eq_signedOf t x).symm
  clear_value num
  subst hnum
  refine ⟨fun ht => ?_, fun low _ => ?_⟩
  · have isInt : isI v.ty.toNat = true := decide_eq_true ht
    obtain ⟨j, hj, greatest, chosen⟩ := foldl_greatest_range (n := n) (lanes_pos t) fun i => measure (va i)
    refine ⟨(exec_vdot_int isInt).trans (reduceI_eq idle _), (exec_vsumr_int isInt).trans (reduceI_eq idle _), j, hj,
      greatest, (exec_vmaxr_int isInt).trans ((vOut_unflagged idle _).trans ?_)⟩
    rw [← chosen]
    rfl
  · have noInt : isI v.ty.toNat = false := decide_eq_false (not_lt.mpr low)
    exact ⟨(exec_vdot_float noInt).trans (reduceF_eq idle _), (exec_vsumr_float noInt).trans (reduceF_eq idle _),
      (exec_vmaxr_float noInt).trans (vOut_one s v.vd _ _ idle)⟩

/-! ## Results that are held -/

/-- A long-latency V-op has issued: the slot waits, its results `vs` and flags `fl` held, until they are due `lat` cycles
after issue (R53, R173), and nothing that a program reads has changed yet. -/
def HoldsLong (s : State) (o : Out) (lat : Nat) (vs : List (Nat × Vec)) (fl : BitVec 5) : Prop :=
  ∃ t, o = .next t
    ∧ t.me.state = .waitLong ∧ t.me.held.vregs = vs ∧ t.me.held.flags = fl ∧ s.cycle + lat + 1 ≤ t.me.longUntil
    ∧ (s.cycle + lat + 1, Event.longLatencyResult s.cur) ∈ t.agenda
    ∧ t.me.x = s.me.x ∧ t.me.v = s.me.v ∧ t.me.fflags = s.me.fflags ∧ t.me.pc = s.me.pc
    ∧ (∀ k, k ≠ s.cur → t.slot k = s.slot k) ∧ (s.unlogged s.cur → t.mem = s.mem ∧ t.cores = s.cores)

/-- The slot holds the results of a long-latency V-op, and may not issue before `due`. -/
def Slot.holdResults (sl : Slot) (due : Nat) (vs : List (Nat × Vec)) (fl : BitVec 5) : Slot :=
  { sl with
    longUntil := Nat.max sl.longUntil due
    held := { sl.held with vregs := sl.held.vregs ++ vs, flags := sl.held.flags ||| fl } }

section
variable {s : State} {v : VF}

section
variable (ready : s.me.state = .ready)
include ready

theorem vLong_ready (lat : Nat) (vs : List (Nat × Vec)) (fl : BitVec 5) : vLong s lat vs fl =
    .next ((park (s.modMe (·.holdResults (s.cycle + lat + 1) vs fl)) s.cur .waitLong (.long none)).at_ (s.cycle + lat + 1)
      (.longLatencyResult s.cur)) := by
  unfold vLong
  rw [ready]
  rfl

variable (empty : s.me.held = Held.none)
include empty

theorem holdsLong_vLong (lat : Nat) (vs : List (Nat × Vec)) (fl : BitVec 5) :
    HoldsLong s (vLong s lat vs fl) lat vs fl := by
  refine ⟨_, vLong_ready ready lat vs fl, ?_⟩
  generalize holding : s.modMe (·.holdResults (s.cycle + lat + 1) vs fl) = h
  have held : h.me = s.me.holdResults (s.cycle + lat + 1) vs fl := holding ▸ State.me_modMe s _
  have me : ((park h s.cur .waitLong (.long none)).at_ (s.cycle + lat + 1) (.longLatencyResult s.cur)).me
      = ({ s.me.holdResults (s.cycle + lat + 1) vs fl with wait := .long none } : Slot).enter s.cycle .waitLong := by
    subst holding
    rw [State.me_at_, State.me, cur_park, ← held]
    exact slot_park_same _ s.cur .waitLong (.long none)
  rw [me]
  refine ⟨by simp, ?_, ?_, ?_, mem_agendaIns _ _ _, by simp [Slot.holdResults], by simp [Slot.holdResults],
    by simp [Slot.holdResults], by simp [Slot.holdResults], fun k hk => ?_, fun hu => ?_⟩
  · simp [Slot.holdResults, empty, Held.none]
  · simp [Slot.holdResults, empty, Held.none]
  · simp [Slot.holdResults]
  · subst holding
    exact (slot_park_other _ s.cur k .waitLong (.long none) hk).trans (State.slot_modSlot_other s s.cur k _ hk)
  · subst holding
    obtain ⟨mem, cores, -⟩ := park_mem (s.modMe (·.holdResults (s.cycle + lat + 1) vs fl)) s.cur .waitLong (.long none) hu
    exact ⟨mem, cores⟩

/-- A function of each lane, held until it is due (R191). -/
theorem holdsLong_laneOpLong (lat : Nat) (f : Nat → Nat × BitVec 5) :
    ∃ r, HoldsLong s (laneOpLong s v lat f) lat [(v.vd.toNat, r)]
        (orFlags (128 / v.width) fun i => (f (lane (s.rv v.va) i v.width)).2)
      ∧ ∀ i, i < 128 / v.width → lane r i v.width = (f (lane (s.rv v.va) i v.width)).1 % 2 ^ v.width := by
  have eq : laneOpLong s v lat f = vLong s lat [(v.vd.toNat, vecOf v.width (((lanes (s.rv v.va) v.width).map f).map (·.1)))]
      (orFlags (128 / v.width) fun i => (f (lane (s.rv v.va) i v.width)).2) := by
    simp only [laneOpLong, packLanes, orFlags, lanes, List.foldl_map]
  rw [eq]
  refine ⟨_, holdsLong_vLong ready empty _ _ _, fun i hi => ?_⟩
  refine (lane_vecOf_full (by simp) (by simpa using hi)).trans ?_
  simp

theorem holdsLong_vmodmul (hq : s.rmodq ≠ 0) : ∃ r, HoldsLong s (exec (.vmodmul v) s) 20 [(v.vd.toNat, r)] 0
    ∧ ∀ i, i < 2 → lane r i 64 = lane (s.rv v.va) i 64 * lane (s.rv v.vb) i 64 % s.rmodq := by
  rw [exec_vmodmul, modOp_of hq]
  refine ⟨_, holdsLong_vLong ready empty _ _ _, fun i hi => ?_⟩
  rw [lane_modPair _ _ _ (fun a b => a * b % s.rmodq) hi, ← Nat.mul_mod, mod_rmodq_mod hq]

theorem holdsLong_vbfly (hq : s.rmodq ≠ 0) :
    let a (i : Nat) := lane (s.rv v.va) i 64
    let product (i : Nat) : Nat := lane (s.rv v.vc) i 64 * lane (s.rv v.vb) i 64
    ∃ up down, HoldsLong s (exec (.vbfly v) s) 20 [(v.vd.toNat, up), ((v.vd + 1).toNat, down)] 0
      ∧ ∀ i, i < 2 → lane up i 64 = (a i + product i) % s.rmodq
        ∧ lane down i 64 = (((a i : Int) - product i) % s.rmodq).toNat := by
  intro a product
  refine ⟨_, _, ((exec_vbfly (v := v)).trans (withModulus_of hq _)) ▸ holdsLong_vLong ready empty _ _ _,
    fun i hi => ⟨?_, ?_⟩⟩
  · rw [lane_modTriple _ _ _ _ (fun a b c => (a + c * b % s.rmodq) % s.rmodq) hi, ← Nat.mul_mod, ← Nat.add_mod,
      mod_rmodq_mod hq]
  · rw [lane_modTriple _ _ _ _ (fun a b c => (a + s.rmodq - c * b % s.rmodq) % s.rmodq) hi, ← Nat.mul_mod,
      mod_rmodq_mod hq, sub_mod_eq hq]

end

/-- Beside a parked A-op one result of a V-op is held, and nothing else has changed (R65). -/
def HoldsBeside (s : State) (v : VF) (o : Out) : Prop :=
  ∃ t r, o = .next t ∧ t.me.held.vregs = s.me.held.vregs ++ [(v.vd.toNat, r)]
    ∧ t.me = { s.me with held := t.me.held } ∧ (∀ k, k ≠ s.cur → t.slot k = s.slot k) ∧ s.sameBeside t

section
variable (parked : s.me.state.waiting = true)
include parked

theorem holdsBeside_vOut (r : Vec) (fl : BitVec 5) : HoldsBeside s v (vOut s [(v.vd.toNat, r)] fl) := by
  have me : (s.modMe (vResult [(v.vd.toNat, r)] none fl)).me = vResult [(v.vd.toNat, r)] none fl s.me := State.me_modMe s _
  refine ⟨_, r, rfl, ?_, ?_, fun k hk => State.slot_modSlot_other s s.cur k _ hk, rfl⟩ <;>
    rw [me, vResult, if_pos parked]

theorem holdsBeside_laneOp (f : Nat → Nat → Nat → Nat × BitVec 5) : HoldsBeside s v (laneOp s v f) :=
  holdsBeside_vOut parked _ _

theorem holdsBeside_compare (i : Int → Int → Bool) (f : Int → Bool) (quiet : Bool) :
    HoldsBeside s v (compare s v i f quiet) := by
  unfold compare
  exact holdsBeside_laneOp parked _

theorem holdsBeside_vadd : HoldsBeside s v (exec (.vadd v) s) := by
  rw [exec_vadd]
  cases ht : isI v.ty.toNat
  · rw [arith_float ht]
    exact holdsBeside_laneOp parked _
  · rw [arith_int ht]
    exact holdsBeside_laneOp parked _

theorem holdsBeside_vdot : HoldsBeside s v (exec (.vdot v) s) := by
  cases ht : isI v.ty.toNat
  · rw [exec_vdot_float ht]
    exact holdsBeside_vOut parked _ _
  · rw [exec_vdot_int ht]
    exact holdsBeside_vOut parked _ _

end
end

/-- Settles O21: what `vLong` holds until it is due, and what `vOut` holds beside a parked A-op. -/
theorem longVectorOps : Obligations.LongVectorOps := by
  refine ⟨fun s v ready empty => ?_, fun s v parked => ?_⟩
  · intro w fm q rm a product holds special
    exact ⟨holdsLong_laneOpLong ready empty 24 (exp2F fm rm), holdsLong_laneOpLong ready empty 24 (log2F fm rm), fun hq =>
      ⟨holdsLong_vmodmul ready empty hq.ne', holdsLong_vbfly ready empty hq.ne'⟩⟩
  · have one (r : Vec) (fl : BitVec 5) : HoldsBeside s v (vOut s [(v.vd.toNat, r)] fl) := holdsBeside_vOut parked r fl
    exact ⟨one _ _, holdsBeside_vadd parked, exec_vcmplt ▸ holdsBeside_compare parked .., one _ _, one _ _,
      holdsBeside_vdot parked, exec_vrcp ▸ holdsBeside_laneOp parked _⟩

end Sys2Proof.Machine

/-! PROOFS of O23, O27 and O28. An atomic on the own local store; a scalar access to translated memory, from its issue
to its home; and the copies and tags of requests that leave the die. -/

namespace Sys2Proof.Machine

/-! ## Atomics on the own local store -/

section
variable {s : State} {m : AmoF} {f n : Nat}

/-- The request of an atomic with operation code `f` on `n` bytes (R209). -/
def amoReq (s : State) (f : Nat) (m : AmoF) (n : Nat) : MemReq :=
  { MemReq.new .amo (f + if m.wide == 1 then 16 else 0) m.d.toNat (span (addr57 (s.rx m.s1)) n) with
    data := toLe (s.rx m.s2).toNat n, cmp := BitVec.ofNat 64 ((s.rx m.d).toNat % 2 ^ (8 * n))
    acq := acqPart m.order, rel := relPart m.order, scope := m.scope.toNat }

theorem atomic_writable (hw : s.writable m.d) :
    atomic f m s = alignedAccess s (amoReq s f m (amoSize f (m.wide == 1))) (amoSize f (m.wide == 1)) :=
  guardX_writable _ _ _ hw

theorem amoSize_cases (f : Nat) (wide : Bool) : amoSize f wide = 2 ∨ amoSize f wide = 4 ∨ amoSize f wide = 8 := by
  unfold amoSize
  split
  · split <;> simp
  · split <;> simp

/-- The code and the width that the request carries in one number. -/
theorem amoReq_code (hf : f < 16) :
    (amoReq s f m n).w % 16 = f ∧ decide (16 ≤ (amoReq s f m n).w) = (m.wide == 1) := by
  unfold amoReq MemReq.new
  dsimp only
  cases m.wide == 1
  · simp [hf, Nat.mod_eq_of_lt]
  · simp [hf, Nat.mod_eq_of_lt]

theorem pow_256_eq (n : Nat) : 256 ^ n = 2 ^ (8 * n) := (pow_mul 2 8 n).symm

/-- The operands that the request carries (R210). -/
theorem amoReq_operands : leNat (amoReq s f m n).data = (s.rx m.s2).toNat % 2 ^ (8 * n)
    ∧ (amoReq s f m n).cmp.toNat = (s.rx m.d).toNat % 2 ^ (8 * n) := by
  refine ⟨(leNat_toLe ..).trans (by rw [pow_256_eq]), (BitVec.toNat_ofNat ..).trans (Nat.mod_eq_of_lt ?_)⟩
  exact (Nat.mod_le ..).trans_lt (s.rx m.d).isLt

/-- The new value and the flags of an atomic that finds the value `old`. -/
def amoValue (s : State) (f : Nat) (m : AmoF) (n old : Nat) : Nat × BitVec 5 :=
  amoNew f (m.wide == 1) n old ((s.rx m.s2).toNat % 2 ^ (8 * n)) ((s.rx m.d).toNat % 2 ^ (8 * n))

theorem amoNew_amoReq (hf : f < 16) (old : Nat) :
    amoNew ((amoReq s f m n).w % 16) (decide (16 ≤ (amoReq s f m n).w)) n old (leNat (amoReq s f m n).data)
      (amoReq s f m n).cmp.toNat = amoValue s f m n old := by
  obtain ⟨code, wide⟩ := amoReq_code (s := s) (m := m) (n := n) hf
  obtain ⟨data, cmp⟩ := amoReq_operands (s := s) (f := f) (m := m) (n := n)
  rw [code, wide, data, cmp, amoValue]

/-- After a store, a change of the issuing slot that does not look at signatures. -/
theorem State.Stored.modMe {c : Nat} {ps : List Nat} {bs : List Byte} {t : State} (h : s.Stored c ps bs t) (cur : t.cur = s.cur)
    (g : Slot → Slot) (hg : ∀ a b : Slot, a.butSignatures b → (g a).butSignatures (g b)) :
    (g s.me).butSignatures (t.modMe g).me ∧ (∀ k, k ≠ s.cur → (s.slot k).butSignatures ((t.modMe g).slot k))
      ∧ s.OnlyBytes c ps (t.modMe g) := by
  refine ⟨?_, fun k hk => ?_, ⟨h.onlyBytes.mem, h.onlyBytes.others, h.onlyBytes.outside⟩⟩
  · rw [State.me_modMe, State.me_eq, State.me_eq, cur]
    exact hg _ _ (h.slots s.cur)
  · rw [State.modMe_eq, State.slot_modSlot_other _ _ _ _ (cur ▸ hk)]
    exact h.slots k

/-- An atomic on the own local store is complete at issue (R210): the old value in X[d], the new one in its bytes. -/
theorem atomic_local (sound : s.poison = []) (hw : s.writable m.d) (hf : f < 16) (size : amoSize f (m.wide == 1) = n)
    (aligned : addr57 (s.rx m.s1) % n = 0)
    (inside : ∀ i, i < n → lsOk s.me.lsbase.toNat s.me.lsbound.toNat (addr57 (s.rx m.s1) + i) = true) :
    let places := physOf (span (addr57 (s.rx m.s1)) n)
    let old := leNat (places.map (cellGet (s.core (coreOf s.cur)).ls))
    let new := amoValue s f m n old
    ∃ t, atomic f m s = .next t ∧ ((s.me.putX m.d (BitVec.ofNat 64 old)).addFlags new.2).butSignatures t.me
      ∧ (∀ k, k ≠ s.cur → (s.slot k).butSignatures (t.slot k)) ∧ s.OnlyBytes (coreOf s.cur) places t
      ∧ ∀ i p : Nat, places[i]? = some p → cellGet (t.core (coreOf s.cur)).ls p = BitVec.ofNat 8 (new.1 / 2 ^ (8 * i)) := by
  intro places old new
  have hn : n = 2 ∨ n = 4 ∨ n = 8 := size ▸ amoSize_cases ..
  have pos : 0 < n := by omega
  have ok := SpanOk.of_lsOk inside
  have length : places.length = n := (length_physOf_span ok).trans (length_span ..)
  have start : atomic f m s = localAccess s (amoReq s f m n) := by
    rw [atomic_writable hw, size]
    exact alignedAccess_local ok rfl pos aligned
  obtain ⟨u, passed, t, rest, done⟩ := localAccess_amo s (amoReq s f m n) rfl (localFault_span ok sound)
  have bytes : lsRead s (coreOf s.cur) (physOf (amoReq s f m n).vas) = places.map (cellGet (s.core (coreOf s.cur)).ls) := rfl
  have value := amoNew_amoReq (s := s) (m := m) hf (n := n) old
  rw [bytes, List.length_map, length, value] at rest
  have sound' : u.poison = [] := passed.poison.trans sound
  have stored := (State.Stored.of_lsStore (c := coreOf s.cur) (ps := places) (bs := toLe new.1 n) passed sound).sigOnly rest
  have cur : t.cur = s.cur := rest.cur.trans ((lsStore_slot u _ _ _ sound' 0).2.1.trans passed.cur)
  have result : (amoReq s f m n).result (places.map (cellGet (s.core (coreOf s.cur)).ls)) s.me
      = (s.me.putX m.d (BitVec.ofNat 64 old)).addFlags new.2 := by
    show Slot.addFlags (s.me.putX (regOf m.d.toNat) _) (amoNew _ _ (places.map _).length _ _ _).2 = _
    rw [List.length_map, length, value, regOf_toNat]
    rfl
  obtain ⟨mine, others, onlyBytes⟩ := stored.modMe cur _ fun _ _ h =>
    (amoReq s f m n).result_butSignatures (places.map (cellGet (s.core (coreOf s.cur)).ls)) h
  rw [result] at mine
  refine ⟨_, start.trans done, mine, others, onlyBytes, fun i p place => ?_⟩
  have hi : i < n := length ▸ (List.getElem?_eq_some_iff.mp place).1
  have byte := stored.byte ((length_toLe ..).trans length.symm) place
    (no_later_of_nodup (nodup_span ok (.inr hn) aligned) place)
  rw [List.getElem?_eq_getElem (by rwa [length_toLe]), getElem_toLe _ _ _ hi, pow_256_eq] at byte
  exact Option.some.inj byte

end

/-- Settles O23: each atomic by its code, whose row of `amoNew` is the value of its rule. -/
theorem localAtomics : Obligations.LocalAtomics := by
  intro s m sound hw c a performs n span num integer fm
  have performs_of {f size : Nat} {g : Nat → Nat → Nat × BitVec 5} (hf : f < 16) (hs : amoSize f (m.wide == 1) = size)
      (row : ∀ x b, amoNew f (m.wide == 1) size x b ((s.rx m.d).toNat % 2 ^ (8 * size)) = g x b) :
      performs (atomic f m s) size g := by
    intro aligned inside
    have done := atomic_local sound hw hf hs aligned inside
    simp only [amoValue, row] at done
    exact done
  have integer_of {f : Nat} {g : Nat → Nat → Nat} (hf : f < 10)
      (row : ∀ x b, amoNew f (m.wide == 1) n x b ((s.rx m.d).toNat % span) = (g x b, 0)) : integer (atomic f m s) g := by
    refine performs_of (hf.trans (by decide)) ?_ row
    simp only [amoSize, if_neg hf.ne, beq_iff_eq, n]
  have signed (x : Nat) : signedOf (8 * n) x = num x := by
    have pos : 8 * n ≠ 0 := by
      unfold n
      split <;> decide
    have half : span / 2 = 2 ^ (8 * n - 1) := (Nat.pow_sub_one (by decide) pos).symm
    simp only [signedOf, num, half, span]
    norm_cast
  clear_value integer performs
  refine ⟨?add, ?and, ?or, ?xor, ?swap, ?min, ?max, ?minu, ?maxu, ?cas, ?fadd⟩
  case add => exact integer_of (f := 0) (by decide) fun _ _ => rfl
  case and => exact integer_of (f := 1) (by decide) fun _ _ => rfl
  case or => exact integer_of (f := 2) (by decide) fun _ _ => rfl
  case xor => exact integer_of (f := 3) (by decide) fun _ _ => rfl
  case swap => exact integer_of (f := 4) (by decide) fun _ _ => rfl
  case min => exact integer_of (f := 5) (by decide) fun x b => by rw [← signed, ← signed]; rfl
  case max => exact integer_of (f := 6) (by decide) fun x b => by rw [← signed, ← signed]; rfl
  case minu => exact integer_of (f := 7) (by decide) fun _ _ => rfl
  case maxu => exact integer_of (f := 8) (by decide) fun _ _ => rfl
  case cas => exact integer_of (f := 9) (by decide) fun _ _ => rfl
  case fadd =>
    refine performs_of (f := 10) (by decide) (by simp [amoSize]) fun x b => ?_
    simp [amoNew, fm]

end Sys2Proof.Machine

namespace Sys2Proof.Machine

/-! ## Copies of remote lines -/

theorem exec_rdcFillArrival {s : State} {die line : Nat} {f : RdcFill}
    (found : (s.die die).fills.find? (fun f => f.line == line && !f.data.isEmpty) = some f) :
    exec (.rdcFillArrival die line) s = .next (fillArrived s die f f.data) := by
  show execRdcFillArrival die line s = _
  unfold execRdcFillArrival
  rw [found]

/-- The copy of a line that a fill has brought. -/
def RdcFill.copy (f : RdcFill) (now : Nat) : RdcLine := { line := f.line, world := f.world, data := f.data, filled := now }

/-- A fill that nobody waits for leaves those in flight, and its line is not kept, or kept for its lifetime (R261). -/
theorem fillArrived_alone {s : State} {die : Nat} {f : RdcFill} (alone : f.waiters = []) :
    let t := fillArrived s die f f.data
    (t.die die).fills = (s.die die).fills.erase f ∧ t.slots = s.slots ∧ t.mem = s.mem
      ∧ ((t.die die).rdc = (s.die die).rdc ∨ (f.install = true ∧ findCopy s die f.world f.line = none
        ∧ (t.die die).rdc = ((s.die die).rdc ++ [f.copy s.cycle]).drop ((s.die die).rdc.length + 1 - 393216)
        ∧ (s.cycle + 32768, Event.rdcCopyExpiry die f.line) ∈ t.agenda)) := by
  intro t
  obtain ⟨u, arrived⟩ : ∃ u, u = t := ⟨t, rfl⟩
  rw [← arrived]
  unfold t fillArrived at arrived
  rw [alone, List.foldl_nil] at arrived
  split at arrived
  case isTrue keep =>
    simp only [Bool.and_eq_true, Option.isNone_iff_eq_none] at keep
    obtain ⟨⟨install, -⟩, none_held⟩ := keep
    have here : u.die die = { s.die die with
        fills := (s.die die).fills.erase f, rdc := lastN rdcLines ((s.die die).rdc ++ [f.copy s.cycle]) } := by
      rw [arrived, die_at_, State.die_tick, State.die_modDie_same, State.die_modDie_same]
      rfl
    rw [here, arrived]
    refine ⟨rfl, rfl, rfl, .inr ⟨install, none_held, ?_, at_mem ..⟩⟩
    simp [lastN, rdcLines]
  case isFalse =>
    have here : u.die die = { s.die die with fills := (s.die die).fills.erase f } := by
      rw [arrived, State.die_tick, State.die_modDie_same]
    rw [here, arrived]
    exact ⟨rfl, rfl, rfl, .inl rfl⟩

theorem exec_rdcCopyExpiry (die line : Nat) (s : State) : exec (.rdcCopyExpiry die line) s = .next (s.modDie die fun d =>
    { d with rdc := d.rdc.filter fun l => !(l.line == line && decide (l.filled + 32768 ≤ s.cycle)) }) := rfl

/-! ## Tags of remote requests -/

theorem getTag_of_tags {s t : State} {die : Nat} (h : (t.die die).tags = (s.die die).tags) (idx : Nat) :
    getTag t die idx = getTag s die idx := by
  rw [getTag, h, getTag]

/-- The hatbox of a die is no part of its tags. -/
theorem tags_hatPost (s : State) (d kind code ep : Nat) (w x : Word) (die : Nat) :
    ((hatPost s d kind code ep w x).die die).tags = (s.die die).tags := by
  unfold hatPost
  by_cases h : die = d
  · rw [h, State.die_modDie_same]
  · rw [State.die_modDie_other _ _ _ _ h]

/-- A trap that the steward handles touches no tag. -/
theorem tags_stewardTrap (s : State) (k : Nat) (cause val : Word) (die : Nat) :
    ((stewardTrap s k cause val).die die).tags = (s.die die).tags := by
  unfold stewardTrap
  dsimp only
  split
  · rw [State.die_modPolder, tags_hatPost]
    exact congrArg Die.tags (die_toState ..)
  · rw [tags_hatPost]
    exact congrArg Die.tags (die_toState ..)

theorem agenda_stewardTrap (s : State) (k : Nat) (cause val : Word) : (stewardTrap s k cause val).agenda = s.agenda := by
  obtain ⟨_, _, _, _, _, h⟩ := stewardTrap_frame s k cause val
  rw [h]

/-- A request without a reply in its time: its access fails with cause 0x15, which the steward handles, at the address of
the access (R198, R382). -/
theorem timedOut_access {s : State} {c num k idx gen : Nat} {r : MemReq} (die : Nat) (hk : ctxSlot s c num = some k)
    (wait : (s.slot k).wait = .mem r) (tag : r.tag = some (idx, gen)) (unkeyed : r.key = none) (notRed : r.op ≠ .xred) :
    timedOut s die idx gen (.ctx c num) = stewardTrap (s.modSlot k fun sl => { sl with wait := .mem { r with tag := none } }) k
      0x15 (BitVec.ofNat 64 r.ea) := by
  have waits : waitsFor s c num = some r := by
    unfold waitsFor
    rw [ctxOf_eq s c num k hk, Option.map_some, wait]
  have untagged : setReq s c num { r with tag := none } = s.modSlot k fun sl => { sl with wait := .mem { r with tag := none } } :=
    modCtx_eq s c num k _ hk
  have kept : ctxSlot (s.modSlot k fun sl => { sl with wait := .mem { r with tag := none } }) c num = some k :=
    ctxSlot_modSlot hk fun _ => ⟨rfl, rfl⟩
  unfold timedOut
  dsimp only
  rw [waits]
  dsimp only
  rw [if_pos tag, untagged]
  have stampless (v : State) : dropStamp v c { r with tag := none } = v := by
    unfold dropStamp
    dsimp only
    rw [unkeyed]
  have fails (v : State) (x : Word) (h : ctxSlot v c num = some k) :
      faultAccess v c num { r with tag := none } 0x15 x = stewardTrap v k 0x15 x := by
    unfold faultAccess faultCtx
    rw [if_neg notRed, h]
    rfl
  unfold accessReply accessFault
  dsimp only
  rw [stampless, fails _ _ kept]
  rfl

theorem exec_remoteTimeout_due {s : State} {die idx module due : Nat} {who : ReplyTo}
    (live : (getTag s die idx).use = .live who module due) (late : due ≤ s.cycle) :
    exec (.remoteTimeout die idx (getTag s die idx).gen) s = .next (timedOut ((setTag s die idx
        { getTag s die idx with use := .quarantine (s.cycle + 2097152) }).at_ (s.cycle + 2097152) (.tagQuarantineEnd die idx))
      die idx (getTag s die idx).gen who) := by
  show execRemoteTimeout die idx _ s = _
  unfold execRemoteTimeout
  dsimp only
  rw [live]
  exact if_pos ⟨rfl, late⟩

theorem exec_remoteTimeout_stale {s : State} {die idx gen module due : Nat} {who : ReplyTo}
    (live : (getTag s die idx).use = .live who module due) (stale : (getTag s die idx).gen ≠ gen ∨ s.cycle < due) :
    exec (.remoteTimeout die idx gen) s = .next s := by
  show execRemoteTimeout die idx gen s = _
  unfold execRemoteTimeout
  dsimp only
  rw [live]
  exact if_neg fun h => stale.elim (fun other => other h.1) fun early => Nat.not_le.mpr early h.2

/-- The end of a store's way changes what is cached and what may be, and no tag. -/
theorem Die.stored_frame (d : Die) (idx : Nat) :
    ∃ storing rdc fills, d.stored idx = { d with storing := storing, rdc := rdc, fills := fills } := by
  unfold Die.stored
  dsimp only
  split <;> exact ⟨_, _, _, rfl⟩

/-- A tag is freed where no request waits for one (R382). -/
theorem freeTag_idle {s : State} {die idx : Nat} (idle : (s.die die).tagQueue = []) :
    let t := freeTag s die idx
    getTag t die idx = { getTag s die idx with use := .free } ∧ (∀ j, j ≠ idx → getTag t die j = getTag s die j)
      ∧ t.slots = s.slots ∧ t.mem = s.mem := by
  intro t
  obtain ⟨storing, rdc, fills, stored⟩ := (s.die die).stored_frame idx
  let u := s.modDie die fun d => { d.stored idx with
    tags := NMap.set d.tags idx { (NMap.find d.tags idx).getD Tag.reset with use := .free } }
  have here : u.die die = { s.die die with
      storing := storing, rdc := rdc, fills := fills, tags := NMap.set (s.die die).tags idx { getTag s die idx with use := .free } } := by
    rw [State.die_modDie_same, stored]
    rfl
  have empty : (u.die die).tagQueue = [] := (congrArg Die.tagQueue here).trans idle
  have freed : t = u := by
    unfold t freeTag
    dsimp only
    split
    · next waits => exact absurd (waits.symm.trans empty) (List.cons_ne_nil _ _)
    · rfl
  rw [freed]
  refine ⟨?_, fun j hj => ?_, rfl, rfl⟩
  · rw [getTag, here, NMap.find_set_same]
    rfl
  · rw [getTag, here, NMap.find_set_other _ _ _ _ hj]
    rfl

theorem exec_tagQuarantineEnd_due {s : State} {die idx due : Nat} (quarantined : (getTag s die idx).use = .quarantine due)
    (ended : due ≤ s.cycle) : exec (.tagQuarantineEnd die idx) s = .next (freeTag (setTag s die idx
      { getTag s die idx with gen := ((getTag s die idx).gen + 1) % 256 }) die idx) := by
  show execTagQuarantineEnd die idx s = _
  unfold execTagQuarantineEnd
  dsimp only
  rw [quarantined]
  exact if_pos ended

theorem getTag_setTag_other (s : State) (die idx : Nat) (t : Tag) {j : Nat} (h : j ≠ idx) :
    getTag (setTag s die idx t) die j = getTag s die j := by
  unfold getTag setTag
  rw [State.die_modDie_same, NMap.find_set_other _ _ _ _ h]

/-- Settles O28: a fill that arrives, a copy whose time is over, and the life of a tag, each by its law. -/
theorem copiesAndTags : Obligations.CopiesAndTags := by
  intro s die line idx gen d
  refine ⟨fun f found alone => ?fill, ?expiry, fun c num k r module due same live late hk wait tag unkeyed notRed _ => ?timeout,
    fun who module due live stale => exec_remoteTimeout_stale live stale, fun due same quarantined ended idle => ?quarantine⟩
  case fill =>
    have ours := List.find?_some found
    simp only [Bool.and_eq_true, beq_iff_eq] at ours
    obtain ⟨rfl, -⟩ := ours
    exact ⟨_, exec_rdcFillArrival found, fillArrived_alone alone⟩
  case expiry =>
    refine ⟨_, exec_rdcCopyExpiry die line s, rfl, rfl, ?_, fun l => ?_⟩
    · rw [State.die_modDie_same]
    · rw [State.die_modDie_same]
      simp [d, not_and_or, -not_and]
  case timeout =>
    let quarantined : Tag := { getTag s die idx with use := .quarantine (s.cycle + 2097152) }
    let u := (setTag s die idx quarantined).at_ (s.cycle + 2097152) (.tagQuarantineEnd die idx)
    let v := u.modSlot k fun sl => { sl with wait := .mem { r with tag := none } }
    subst same
    have failed := timedOut_access (s := u) die hk wait tag unkeyed notRed
    have slot : v.slot k = { s.slot k with wait := .mem { r with tag := none } } := State.slot_modSlot_same ..
    have trapped := slot_stewardTrap_same v k 0x15 (BitVec.ofNat 64 r.ea)
    have tags := getTag_of_tags (s := v) (tags_stewardTrap v k 0x15 (BitVec.ofNat 64 r.ea) die) idx
    have left : getTag v die idx = quarantined := getTag_setTag_same s die idx quarantined
    refine ⟨_, (exec_remoteTimeout_due live late).trans (congrArg _ failed), ?_⟩
    rw [trapped, tags, left, slot, agenda_stewardTrap]
    refine ⟨by simp, by simp, by simp, by simp, by simp, by simp, fun j hj => ?_, rfl, rfl, at_mem ..⟩
    exact (slot_stewardTrap_other v k j _ _ hj).trans (State.slot_modSlot_other u k j _ hj)
  case quarantine =>
    let next : Tag := { getTag s die idx with gen := ((getTag s die idx).gen + 1) % 256 }
    have idle' : ((setTag s die idx next).die die).tagQueue = [] :=
      (congrArg Die.tagQueue (State.die_modDie_same ..)).trans idle
    obtain ⟨freed, others, slots, mem⟩ := freeTag_idle (idx := idx) idle'
    subst same
    refine ⟨_, exec_tagQuarantineEnd_due quarantined ended, ?_, ?_, fun j hj => ?_, slots, mem⟩
    · rw [freed, getTag_setTag_same]
    · rw [freed]
    · rw [others j hj, getTag_setTag_other _ _ _ _ hj]

end Sys2Proof.Machine

namespace Sys2Proof.Machine

/-! ## The issue of an access to translated memory -/

/-- A context is found where it was, if each slot holds a context as before and under its number. -/
theorem ctxSlot_congr_holds {s t : State} {c num : Nat}
    (h : ∀ j, (t.slot j).state.holds j = (s.slot j).state.holds j ∧ (t.slot j).ctxNum = (s.slot j).ctxNum) :
    ctxSlot t c num = ctxSlot s c num := by
  unfold ctxSlot
  generalize c * 8 = k
  generalize 8 = n
  induction n generalizing k with
  | zero => rfl
  | succ n ih => rw [findSlot, findSlot, (h k).1, (h k).2, ih]

/-- A READY slot that waits for memory holds its context still. -/
theorem ctxSlot_park {s : State} {k : Nat} (w : Wait) (ready : (s.slot k).state = .ready) (c num : Nat) :
    ctxSlot (park s k .waitMem w) c num = ctxSlot s c num := by
  refine ctxSlot_congr_holds fun j => ?_
  by_cases h : j = k
  · rw [h, slot_park_same, state_enter, ready, ctxNum_enter]
    exact ⟨rfl, rfl⟩
  · rw [slot_park_other _ _ _ _ _ h]
    exact ⟨rfl, rfl⟩

/-- An entry of the cluster's buffer that has been used serves every further address that it covers (R300). -/
theorem tlbFind_tlbCluster {s : State} {cl world va : Nat} {e : TlbEntry} (covers : e.covers world va = true) :
    tlbFind ((tlbCluster s cl e).cluster cl).tlb world va = some e := by
  unfold tlbCluster
  rw [State.cluster_modCluster_same]
  exact List.find?_cons_of_pos covers

/-- The translation of bytes that one entry of the cluster's buffer covers, in a page that grants the access (R299). -/
theorem translateVas_page {core world lo hi : Nat} {need : Need} {e : TlbEntry} {s : State} {vas : List Nat}
    (range : ∀ va ∈ vas, translatedBase ≤ va ∧ va < 2 ^ 57)
    (held : ∀ va ∈ vas, tlbFind (s.cluster (clusterOfCore core)).tlb world va = some e)
    (grants : ∀ va ∈ vas, refuses s ⟨e.leaf⟩ world va need = false) :
    ∃ u, translateVas core world lo hi need s vas = (u, .ok (vas.map (targetOf s ⟨e.leaf⟩))) ∧ Translates s u := by
  induction vas generalizing s with
  | nil => exact ⟨s, rfl, .refl s⟩
  | cons va vas ih =>
    obtain ⟨low, high⟩ := range va (.head _)
    have found := held va (.head _)
    let t := tlbCluster s (clusterOfCore core) e
    have used : Translates s t := .tlbCluster ..
    have looked : lookup s core world va = (t, some ⟨e.leaf⟩) := by
      unfold lookup
      dsimp only
      rw [found]
    have covers (a : Nat) (h : a ∈ vas) : e.covers world a = true := by
      have := List.find?_some (held a (.tail _ h))
      exact this
    obtain ⟨u, rest, kept⟩ := ih (s := t) (fun a h => range a (.tail _ h)) (fun a h => tlbFind_tlbCluster (covers a h))
      (fun a h => by rw [used.refuses_eq]; exact grants a (.tail _ h))
    have granted : refuses t ⟨e.leaf⟩ world va need = false := by
      rw [used.refuses_eq]
      exact grants va (.head _)
    refine ⟨u, ?_, used.trans kept⟩
    unfold translateVas
    rw [if_neg (Nat.not_le.mpr high), if_neg (Nat.not_lt.mpr low), looked]
    dsimp only
    rw [granted, if_neg (by decide), rest, used.targetOf_eq]
    rfl

/-- A load is not counted for sampling where its core does not sample (R309). -/
theorem countSample_off {s : State} {c : Nat} (r : MemReq) (h : (s.core c).trace.extractLsb' 4 4 = 0) :
    countSample s c r = (s, false) := by
  have off : bits (s.core c).trace.toNat 7 4 = 0 := by
    have value := congrArg BitVec.toNat h
    simpa [BitVec.extractLsb'_toNat, bits] using value
  unfold countSample
  dsimp only
  rw [off]
  simp

section
variable {s : State} {c num : Nat} {pas : List Nat}

/-- At homes of its own die an access is performed by one request (R260). -/
theorem homeRun_own {die : Nat} (fromCopy : Bool) (own : ∀ pa ∈ pas, homeDie pa = die) :
    homeRun die fromCopy (pas.map Target.home) = pas.length := by
  have atOnce (l : List Nat) (h : ∀ pa ∈ l, homeDie pa = die) :
      homeRun.atOnce (fun pa => fromCopy && homeDie pa != die) (l.map Target.home) = l.length := by
    induction l with
    | nil => rfl
    | cons pa l ih =>
      rw [List.map_cons, homeRun.atOnce, ih fun p hp => h p (.tail _ hp)]
      simp [h pa (.head _), Nat.add_comm]
  cases pas with
  | nil => rfl
  | cons pa l =>
    have whole := atOnce (pa :: l) own
    unfold homeRun
    simpa [own pa (.head _)] using whole

/-- An access whose next parts all stand at homes of its die asks them for all of it (R260). -/
theorem advanceAccess_own {r : MemReq} (notToken : r.op ≠ .sttk) (rest : r.segs.drop r.pos = pas.map Target.home)
    (some_left : pas ≠ []) (own : ∀ pa ∈ pas, homeDie pa = dieOfCore c) :
    advanceAccess s c num r = (setReq s c num { r with asked := pas.length }).later Config.latReply
      (.remoteReply (.ctx c num) .home 0) := by
  have away (f : Target → Option Nat) (none_away : ∀ pa ∈ pas, f (.home pa) = none) :
      ((pas.map Target.home).take pas.length).filterMap f = [] := by
    rw [List.take_of_length_le (by simp), List.filterMap_eq_nil_iff]
    intro t ht
    obtain ⟨pa, hpa, rfl⟩ := List.mem_map.mp ht
    exact none_away pa hpa
  have run := homeRun_own (die := dieOfCore c) r.fromCopy own
  obtain ⟨pa, l, rfl⟩ := List.exists_cons_of_ne_nil some_left
  unfold advanceAccess
  dsimp only
  rw [if_neg notToken, rest, List.map_cons]
  dsimp only
  rw [← List.map_cons, run, away]
  exact fun p hp => if_pos (own p hp)

/-- A scalar access that has been translated to homes of its die goes there: no part of it leaves the module, and it is
no atomic (R197, R260). -/
theorem accessTranslated_own {r : MemReq} (scalar : r.op = .ld ∨ r.op = .st) (fresh : r.pos = 0) (unkeyed : r.key = none)
    (some_left : pas ≠ []) (own : ∀ pa ∈ pas, homeDie pa = dieOfCore c) :
    accessTranslated s c num r (pas.map Target.home) = (setReq s c num { r with
        segs := pas.map Target.home, translated := s.cycle, served := s.cycle, asked := pas.length }).later Config.latReply
      (.remoteReply (.ctx c num) .home 0) := by
  obtain ⟨notToken, notAtomic, notVector⟩ : r.op ≠ .sttk ∧ r.op ≠ .amo ∧ r.op ≠ .vst := by
    rcases scalar with h | h <;> rw [h] <;> decide
  have path : (pas.map Target.home).findSome? (noPathTo s (dieOfCore c)) = none := by
    rw [List.findSome?_eq_none_iff]
    intro t ht
    obtain ⟨pa, -, rfl⟩ := List.mem_map.mp ht
    rfl
  have key : atomicKey s c r = (s, none) := by
    unfold atomicKey
    rw [if_neg fun h => notAtomic h.1]
  let r1 : MemReq := { r with segs := pas.map Target.home, translated := s.cycle, served := s.cycle }
  have sound : storeFails s r1 = none := if_neg notVector
  have order : r1.farFirst = r1 := by
    unfold MemReq.farFirst
    dsimp only
    exact if_neg fun h => notVector h.1
  unfold accessTranslated
  dsimp only
  rw [if_neg notToken, path]
  dsimp only
  rw [sound, ite_self, key, ite_self]
  dsimp only
  have same : ({ r1 with key := none } : MemReq) = r1 := by simp [r1, unkeyed]
  rw [order, same, advanceAccess_own (r := r1) notToken (by unfold r1; rw [fresh]; rfl) some_left own]

end

section
variable {s : State} {k a n : Nat} {e : TlbEntry} {r : MemReq}

/-- The permission bit that a load or a store asks of a page (R299). -/
def Leaf.Grants (l : Leaf) (need : Need) : Prop := need = .load ∧ l.readable = true ∨ need = .store ∧ l.writable = true

/-- The physical address of a byte of a page. -/
def pageByte (e : TlbEntry) (va : Nat) : Nat := (Leaf.mk e.leaf).pa + va % (Leaf.mk e.leaf).size

/-- The issuing slot's access of `n` bytes from `a` up is to memory of its own die, in a page of its world that its
cluster's buffer holds (R299, R300). -/
structure PageHeld (s : State) (a n : Nat) (e : TlbEntry) : Prop where
  ready : s.me.state = .ready
  unsampled : (s.core (coreOf s.cur)).trace.extractLsb' 4 4 = 0
  low : 0x20000 ≤ a
  high : a + n ≤ 2 ^ 57
  pos : 0 < n
  held : ∀ i, i < n → tlbFind (s.cluster (clusterOf s.cur)).tlb s.me.world (a + i) = some e
  plain : (Leaf.mk e.leaf).kind = 0
  owned : ∀ i, i < n → ownerOf s (pageByte e (a + i)) = some s.me.world ∧ homeDie (pageByte e (a + i)) = dieOfCore (coreOf s.cur)

namespace PageHeld

variable (page : PageHeld s a n e)
include page

/-- The page grants what its permission bits grant (R299). -/
theorem not_refuses {need : Need} (grants : (Leaf.mk e.leaf).Grants need) {i : Nat} (hi : i < n) :
    refuses s ⟨e.leaf⟩ s.me.world (a + i) need = false := by
  have owner := (page.owned i hi).1
  unfold pageByte at owner
  unfold refuses
  dsimp only
  rw [owner, page.plain]
  rcases grants with ⟨rfl, h⟩ | ⟨rfl, h⟩
  · simp [Need.writes, h]
  · simp [Need.writes, h]

theorem target (va : Nat) : targetOf s ⟨e.leaf⟩ va = .home (pageByte e va) := by
  unfold targetOf pageByte
  rw [page.plain, if_neg (by decide), if_neg (by simp)]

/-- A granted access parks its slot and asks its home for all of its bytes (R197, R260). -/
theorem begins (hv : r.vas = span a n) (scalar : r.op = .ld ∨ r.op = .st) (fresh : r.pos = 0) (unkeyed : r.key = none)
    (grants : (Leaf.mk e.leaf).Grants r.need) :
    ∃ u r0, Translates s u ∧ r0.pos = 0
      ∧ r0.segs = (List.range n).map (fun i => Target.home (pageByte e (a + i))) ∧ r0.asked = n
      ∧ ∃ r1, beginAccess s r = .next ((setReq (park u s.cur .waitMem (.mem r1)) (coreOf s.cur) s.me.ctxNum r0).later
          Config.latReply (.remoteReply (.ctx (coreOf s.cur) s.me.ctxNum) .home 0)) := by
  have inPage {va : Nat} (h : va ∈ r.vas) : ∃ i, i < n ∧ va = a + i := by
    obtain ⟨i, hi, rfl⟩ := List.mem_map.mp (hv ▸ h)
    exact ⟨i, List.mem_range.mp hi, rfl⟩
  have notDecoding : r.op ≠ .vldd := by
    rcases scalar with h | h <;> rw [h] <;> decide
  have cluster : clusterOfCore (coreOf s.cur) = clusterOf s.cur := Nat.div_div_eq_div_mul ..
  obtain ⟨u, translated, kept⟩ := translateVas_page (core := coreOf s.cur) (lo := s.me.lsbase.toNat) (hi := s.me.lsbound.toNat)
    (need := r.need) (e := e) (s := s) (world := s.me.world) (vas := r.vas)
    (fun va h => by
      obtain ⟨i, hi, rfl⟩ := inPage h
      have := page.low
      have := page.high
      exact ⟨by unfold translatedBase; omega, by omega⟩)
    (fun va h => by
      obtain ⟨i, hi, rfl⟩ := inPage h
      rw [cluster]
      exact page.held i hi)
    (fun va h => by
      obtain ⟨i, hi, rfl⟩ := inPage h
      exact page.not_refuses grants hi)
  let pas := (List.range n).map fun i => pageByte e (a + i)
  have targets : r.vas.map (targetOf s ⟨e.leaf⟩) = pas.map Target.home := by
    rw [hv, span, List.map_map, List.map_map]
    exact List.map_congr_left fun i _ => page.target (a + i)
  have away : ¬ (r.vas.all fun x => decide (x < translatedBase)) = true := by
    intro all
    have first : a ∈ r.vas := hv ▸ List.mem_map.mpr ⟨0, List.mem_range.mpr page.pos, rfl⟩
    have lt := List.all_eq_true.mp all a first
    exact absurd (of_decide_eq_true lt) (Nat.not_lt.mpr page.low)
  have whole : translateReq s (coreOf s.cur) s.me r = (u, .ok (pas.map Target.home)) := by
    unfold translateReq
    dsimp only
    rw [if_neg notDecoding, translated, targets]
  have length : pas.length = n := by simp [pas]
  have some_left : pas ≠ [] := List.ne_nil_of_length_pos (length ▸ page.pos)
  have own : ∀ pa ∈ pas, homeDie pa = dieOfCore (coreOf s.cur) := by
    intro pa h
    obtain ⟨i, hi, rfl⟩ := List.mem_map.mp h
    exact (page.owned i (List.mem_range.mp hi)).2
  let r1 : MemReq := { r with issued := s.cycle, sampled := false }
  refine ⟨u, { r1 with segs := pas.map Target.home, translated := u.cycle, served := u.cycle, asked := pas.length }, kept, fresh,
    List.map_map .., length, r1, ?_⟩
  unfold beginAccess
  dsimp only
  rw [if_neg away, countSample_off r page.unsampled]
  dsimp only
  rw [whole]
  dsimp only
  rw [accessTranslated_own (r := r1) scalar fresh unkeyed some_left own, cycle_park]

/-- The slot of a granted access waits for its home, and nothing else of the slots has changed (R197). -/
theorem waits (hk : ctxSlot s (coreOf s.cur) s.me.ctxNum = some s.cur) (hv : r.vas = span a n)
    (scalar : r.op = .ld ∨ r.op = .st) (fresh : r.pos = 0) (unkeyed : r.key = none) (aligned : a % n = 0)
    (grants : (Leaf.mk e.leaf).Grants r.need) :
    ∃ t r0 due, alignedAccess s r n = .next t ∧ (t.slot s.cur).state = .waitMem ∧ (t.slot s.cur).wait = .mem r0
      ∧ r0.segs = (List.range n).map (fun i => Target.home (pageByte e (a + i))) ∧ r0.pos = 0 ∧ r0.asked = n ∧ s.cycle < due
      ∧ (due, Event.remoteReply (.ctx (coreOf s.cur) s.me.ctxNum) .home 0) ∈ t.agenda ∧ (t.slot s.cur).x = s.me.x
      ∧ (t.slot s.cur).pc = s.me.pc ∧ ∀ j, j ≠ s.cur → t.slot j = s.slot j := by
  obtain ⟨u, r0, kept, pos, segs, asked, r1, begun⟩ := page.begins hv scalar fresh unkeyed grants
  obtain ⟨dies, clusters, rfl⟩ := kept.frame
  let p := park { s with dies := dies, clusters := clusters } s.cur .waitMem (.mem r1)
  have found : ctxSlot p (coreOf s.cur) s.me.ctxNum = some s.cur :=
    (ctxSlot_park (s := { s with dies := dies, clusters := clusters }) _ page.ready ..).trans hk
  have set : setReq p (coreOf s.cur) s.me.ctxNum r0 = p.modSlot s.cur fun sl => { sl with wait := .mem r0 } := modCtx_eq _ _ _ _ _ found
  have slot : p.slot s.cur = Slot.enter { s.me with wait := .mem r1 } s.cycle .waitMem := slot_park_same ..
  obtain ⟨due, later, listed⟩ := later_mem (p.modSlot s.cur fun sl => { sl with wait := .mem r0 }) s.cycle Config.latReply
    (.remoteReply (.ctx (coreOf s.cur) s.me.ctxNum) .home 0) (park_cycle ..)
  have start : alignedAccess s r n = beginAccess s r :=
    if_neg (not_not.mpr (by rw [ea_span r a n hv page.pos]; exact aligned))
  rw [start, begun, set]
  refine ⟨_, r0, due, rfl, ?_, ?_, segs, pos, asked, later, listed, ?_, ?_, fun j hj => ?_⟩
  · rw [slot_later, State.slot_modSlot_same, slot]
    simp
  · rw [slot_later, State.slot_modSlot_same]
  · rw [slot_later, State.slot_modSlot_same, slot]
    simp
  · rw [slot_later, State.slot_modSlot_same, slot]
    simp
  · rw [slot_later, State.slot_modSlot_other _ _ _ _ hj]
    exact slot_park_other _ _ _ _ _ hj

end PageHeld

end

end Sys2Proof.Machine

namespace Sys2Proof.Machine

/-! ## An access performed at its home -/

section
variable {s : State} {c num k : Nat} {r : MemReq} {pas : List Nat}

/-- A store to homes of this module writes its bytes there; beside memory it touches copies in the dies alone (R260, R261). -/
theorem writeTargets_home (s : State) (c : Nat) (pas : List Nat) (bs : List Byte) :
    ∃ dies, writeTargets s c ((pas.map Target.home).zip bs) = { s with mem := lsPut s.mem (pas.zip bs), dies := dies } := by
  induction pas generalizing s bs with
  | nil => exact ⟨s.dies, rfl⟩
  | cons pa pas ih =>
    obtain _ | ⟨b, bs⟩ := bs
    · exact ⟨s.dies, rfl⟩
    · obtain ⟨dies, copies⟩ := updateCopies_frame (s.pokeMem pa [b]) (dieOfCore c) s.moduleNo pa [b]
      obtain ⟨dies', rest⟩ := ih { s.pokeMem pa [b] with dies := dies } bs
      refine ⟨dies', ?_⟩
      rw [List.map_cons, List.zip_cons_cons, writeTargets, writeTarget, copies, rest]
      rfl

/-- What performing an access at its home leaves: the bytes `bs` at the addresses `pas`, the accumulator of the context,
and every other byte, every other slot and every core as they were (R260, R268). -/
structure AtHome (k : Nat) (pas : List Nat) (bs : List Byte) (s u : State) : Prop where
  acquired : Acquired k s u
  bytes : ∀ i p : Nat, pas[i]? = some p → some (cellGet u.mem p) = bs[i]?
  outside : ∀ p, p ∉ pas → cellGet u.mem p = cellGet s.mem p

/-- A load leaves the bytes that stand at its home. -/
theorem atHome_load (s : State) (k : Nat) (pas : List Nat) : AtHome k pas (pas.map (cellGet s.mem)) s s :=
  ⟨⟨⟨_, rfl⟩, fun _ _ => rfl, fun _ => rfl, rfl⟩, fun i p hi => by rw [List.getElem?_map, hi]; rfl, fun _ _ => rfl⟩

/-- A store without a release, of a context that owes none, is recorded in its accumulator and in the watches (R268, R322). -/
theorem storePerformed_plain (hk : ctxSlot s c num = some k) (owes : (s.slot k).fenceRel = false) (ts : List Target) :
    storePerformed s c num false ts = hitWatches (s.modSlot k (·.addAcc (targetsSig s.moduleNo ts))) (homeLines ts) := by
  let w := s.modSlot k (·.addAcc (targetsSig s.moduleNo ts))
  obtain ⟨clusters, watches⟩ := hitWatches_frame w (homeLines ts)
  have there : ctxSlot w c num = some k := ctxSlot_modSlot hk fun _ => ⟨rfl, rfl⟩
  have kept : ctxSlot (hitWatches w (homeLines ts)) c num = some k := by
    rw [watches]
    exact there
  have here : w.slot k = (s.slot k).addAcc (targetsSig s.moduleNo ts) := State.slot_modSlot_same ..
  have slot : (hitWatches w (homeLines ts)).slot k = (s.slot k).addAcc (targetsSig s.moduleNo ts) := by
    rw [watches]
    exact here
  unfold storePerformed
  dsimp only
  rw [modCtx_eq s c num k _ hk, ctxOf_eq _ _ _ _ kept, slot]
  split
  · next e _ =>
    obtain rfl := Option.some.inj e
    exact if_neg (by simp [Slot.addAcc, owes])
  · rfl

/-- A store performed at its home (R260). -/
theorem atHome_store {bs : List Byte} (hk : ctxSlot s c num = some k) (owes : (s.slot k).fenceRel = false) (distinct : pas.Nodup)
    (length : bs.length = pas.length) :
    AtHome k pas bs s (storePerformed (writeTargets s c ((pas.map Target.home).zip bs)) c num false (pas.map Target.home)) := by
  obtain ⟨dies, written⟩ := writeTargets_home s c pas bs
  let w : State := { s with mem := lsPut s.mem (pas.zip bs), dies := dies }
  let sig := targetsSig s.moduleNo (pas.map Target.home)
  obtain ⟨clusters, watches⟩ := hitWatches_frame (w.modSlot k (·.addAcc sig)) (homeLines (pas.map Target.home))
  rw [written, storePerformed_plain (s := w) hk owes, watches]
  refine ⟨⟨⟨_, State.slot_modSlot_same w k (·.addAcc sig)⟩, fun j hj => State.slot_modSlot_other w k j (·.addAcc sig) hj,
    fun _ => rfl, rfl⟩, fun i p hi => ?_, fun p hp => ?_⟩
  · exact cellGet_lsPut_last s.mem length hi (no_later_of_nodup distinct hi)
  · exact cellGet_lsPut_outside (pas.zip bs) s.mem p fun q hq e => hp (e ▸ (List.of_mem_zip hq).1)

/-- The request `r` of a context, whose slot waits for the home of the bytes at `pas`, of its own die, in a machine where
no place is sealed, flipped or uncorrectable. -/
structure AwaitsHome (s : State) (c num k : Nat) (r : MemReq) (pas : List Nat) : Prop where
  installed : ctxSlot s c num = some k
  wait : (s.slot k).wait = .mem r
  live : (s.polder (s.slot k).world).state = .live
  tokens : (s.die (dieOfCore c)).tokens = []
  sound : s.poison = []
  unflipped : s.flipped = []
  unsealed : s.hbm = []
  segs : r.segs = pas.map Target.home
  some_bytes : pas ≠ []
  pos : r.pos = 0
  asked : r.asked = pas.length
  vas : r.vas.length = pas.length
  untagged : r.tag = none
  unkeyed : r.key = none
  noAcquire : r.acq = false
  noRelease : r.rel = false
  unsampled : r.sampled = false
  owes : (s.slot k).fenceRel = false
  own : ∀ p ∈ pas, homeDie p = dieOfCore c

/-- The bytes gathered by a request that reads all of them at once. -/
theorem bytes_take {bs : List Byte} (fresh : r.pos = 0) (length : bs.length = r.vas.length) : (r.take bs).bytes = bs := by
  have found (i : Nat) (hi : i < bs.length) : NMap.find (r.take bs).got i = some ((bs[i]?).getD 0) := by
    unfold MemReq.take
    simp only [fresh, Nat.zero_add]
    exact find_foldl_set r.got (List.range bs.length) (fun i => (bs[i]?).getD 0) i (List.mem_range.mpr hi)
  unfold MemReq.bytes
  rw [show (r.take bs).vas = r.vas from rfl, ← length]
  conv_rhs => rw [← map_getD_range bs 0]
  refine List.map_congr_left fun i hi => ?_
  rw [found i (List.mem_range.mp hi), Option.getD_some]

/-- The bytes that stand at homes of this module (R260). -/
theorem map_readTarget_home (s : State) (c : Nat) (pas : List Nat) :
    (pas.map Target.home).map (readTarget s c) = pas.map (cellGet s.mem) :=
  List.map_map ..

namespace AwaitsHome

variable (home : AwaitsHome s c num k r pas)
include home

/-- The targets that the home performs: all of them. -/
theorem targets : (r.segs.drop r.pos).take r.asked = pas.map Target.home := by
  rw [home.segs, home.pos, home.asked, List.drop_zero, List.take_of_length_le (by simp)]

theorem poison_none (ps : List Nat) : lsPoison s c ps = none := by
  unfold lsPoison
  rw [home.sound, Option.map_eq_none_iff]
  exact List.find?_eq_none.mpr fun _ _ => by simp

theorem performHome_load (ho : r.op = .ld ∨ r.op = .vld) :
    performHome s c num r = .ok (s, { r.take (pas.map (cellGet s.mem)) with
      level := homeLevel s (dieOfCore c) (pas.map Target.home), served := s.cycle }) := by
  unfold performHome
  dsimp only
  rw [home.targets, home.poison_none, fetchLines_plain _ home.sound home.unsealed home.unflipped]
  dsimp only
  rw [lsCorrect_nil _ _ _ home.unflipped, map_readTarget_home, home.noAcquire]
  rcases ho with h | h <;> rw [h] <;> rfl

theorem performHome_store (ho : r.op = .st ∨ r.op = .vst) :
    performHome s c num r = .ok (storePerformed (writeTargets s c ((pas.map Target.home).zip r.data)) c num false
      (pas.map Target.home), { r with pos := r.pos + r.asked, asked := 0, tag := none }) := by
  unfold performHome
  dsimp only
  rw [home.targets, home.poison_none, fetchLines_plain _ home.sound home.unsealed home.unflipped]
  dsimp only
  rw [lsCorrect_nil _ _ _ home.unflipped, home.noRelease, home.pos, List.drop_zero]
  rcases ho with h | h <;> rw [h]

theorem performHome_amo (ho : r.op = .amo) :
    let bytes := pas.map (cellGet s.mem)
    let new := amoNew (r.w % 16) (decide (16 ≤ r.w)) pas.length (leNat bytes) (leNat r.data) r.cmp.toNat
    performHome s c num r = .ok (storePerformed (writeTargets s c ((pas.map Target.home).zip (toLe new.1 pas.length))) c num
      false (pas.map Target.home), { r.take bytes with
        level := homeLevel s (dieOfCore c) (pas.map Target.home), served := s.cycle }) := by
  intro bytes new
  unfold performHome
  dsimp only
  rw [home.targets, home.poison_none, fetchLines_plain _ home.sound home.unsealed home.unflipped]
  dsimp only
  rw [lsCorrect_nil _ _ _ home.unflipped, map_readTarget_home, home.noAcquire, home.noRelease, ho, List.length_map]
  rfl

/-- The reply of the home performs the access at this instant (R260). -/
theorem exec_reply (ho : r.op = .ld ∨ r.op = .vld ∨ r.op = .st ∨ r.op = .vst ∨ r.op = .amo) :
    exec (.remoteReply (.ctx c num) .home 0) s = .next (accessAtHome s c num r) := by
  have ctx := ctxOf_eq s c num k home.installed
  have asked : ¬ r.asked = 0 := by
    rw [home.asked]
    exact mt List.eq_nil_of_length_eq_zero home.some_bytes
  have flushed : flushSttk s c num = s := by
    unfold flushSttk
    dsimp only
    rw [home.tokens]
    rfl
  have live : ctxGone s c num = false := by
    unfold ctxGone
    rw [ctx]
    dsimp only
    rw [home.live]
    rfl
  have waits : waitsFor s c num = some r := by
    unfold waitsFor
    rw [ctx, Option.map_some, home.wait]
  have go : memReply s c num r .home 0 = accessAtHome s c num r := by
    unfold memReply
    dsimp only
    rw [flushed]
    rcases ho with h | h | h | h | h <;> rw [h] <;> exact if_neg asked
  show Host.Outcome.next (ctxReply s c num .home 0) = _
  unfold ctxReply
  rw [live, if_neg (by decide), waits]
  exact congrArg _ go

/-- Once all of its parts are performed, the access ends (R197). -/
theorem accessAtHome_ends {u : State} {r1 : MemReq} (done : performHome s c num r = .ok (u, r1))
    (ho : r1.op = .ld ∨ r1.op = .vld ∨ r1.op = .st ∨ r1.op = .vst ∨ r1.op = .amo)
    (same : r1.segs = r.segs ∧ r1.sampled = r.sampled) (all : r1.pos = r.pos + r.asked) :
    accessAtHome s c num r = finishCtx u c num (r1.result r1.bytes) := by
  have none_left : r1.segs.drop r1.pos = [] := by
    rw [same.1, all, home.segs, home.pos, home.asked]
    simp
  have ended : advanceAccess u c num r1 = finishCtx u c num (r1.result r1.bytes) := by
    have finished : finishAccess u c num r1 = finishCtx u c num (r1.result r1.bytes) := by
      have unsampled : sampleRecord u c num r1 = u := by
        unfold sampleRecord
        rw [same.2, home.unsampled, if_neg (by decide)]
      unfold finishAccess
      rw [unsampled]
      rcases ho with h | h | h | h | h <;> rw [h]
    unfold advanceAccess
    dsimp only
    rw [none_left, ite_self]
    exact finished
  obtain ⟨pa, l, rfl⟩ := List.exists_cons_of_ne_nil home.some_bytes
  have first : r.segs.drop r.pos = Target.home pa :: l.map Target.home := by
    rw [home.segs, home.pos]
    rfl
  have here : ¬ (r.fromCopy = true ∧ homeDie pa ≠ dieOfCore c) := fun h => h.2 (home.own pa (.head _))
  unfold accessAtHome
  dsimp only
  rw [first, home.unkeyed]
  dsimp only
  rw [if_neg here, done]
  dsimp only
  rw [home.untagged]
  exact ended

/-- The bundle of an access that its home has performed commits: the result in the registers, the bytes at the home, and
no other slot changed (R197, R260). -/
theorem commits {u : State} {bs : List Byte} (r1 : MemReq) (read : List Byte)
    (performed : AtHome k pas bs s u) (hl : (s.slot k).longUntil ≤ s.cycle) (hr : (s.slot k).streamsRead = 0)
    (hh : (s.slot k).held = Held.none) (hs : (s.slot k).stopPending = false) (unlogged : s.unlogged k) :
    let t := finishCtx u c num (r1.result read)
    let x := r1.result read (s.slot k)
    (t.slot k).state = .ready ∧ (t.slot k).pc = (s.slot k).npc ∧ (t.slot k).x = x.x ∧ (t.slot k).v = x.v
      ∧ (t.slot k).fflags = x.fflags ∧ (∀ j, j ≠ k → t.slot j = s.slot j)
      ∧ (∀ i p : Nat, pas[i]? = some p → some (cellGet t.mem p) = bs[i]?)
      ∧ ∀ p, p ∉ pas → cellGet t.mem p = cellGet s.mem p := by
  intro t x
  obtain ⟨acquired, bytes, outside⟩ := performed
  have found : ctxSlot u c num = some k := (acquired.ctxSlot_eq c num).trans home.installed
  have memory : t.mem = u.mem := by
    have finish : t = finishBundle (u.modSlot k (r1.result read)) k := by
      show finishCtx u c num _ = _
      unfold finishCtx
      rw [found]
    have untraced : (u.modSlot k (r1.result read)).unlogged k := by
      unfold State.unlogged
      rw [State.core_modSlot, acquired.core]
      exact unlogged
    rw [finish, mem_finishBundle _ _ untraced]
    rfl
  have others (j : Nat) (hj : j ≠ k) : t.slot j = s.slot j := (slot_finishCtx_other _ found hj).trans (acquired.others j hj)
  obtain ⟨acc, slot⟩ := acquired.slot
  let y := r1.result read { s.slot k with accCur := acc }
  have regs : Slot.RegsOnly { s.slot k with accCur := acc } y := r1.result_regsOnly read _
  have alike : x.butSignatures y := r1.result_butSignatures read rfl
  have ended := slot_finishCtx_same (f := r1.result read) found
  rw [slot] at ended
  change y.longUntil ≤ u.cycle → y.streamsRead = 0 → y.stopPending = false → y.held = Held.none → y.wait ≠ .longHalt →
    t.slot k = Slot.enter { y with wait := .none, pc := y.npc, bundle := 0 } u.cycle .ready at ended
  have written := ended (by rw [regs, acquired.cycle]; exact hl) (by rw [regs]; exact hr) (by rw [regs]; exact hs)
    (by rw [regs]; exact hh) (by rw [regs]; simp [home.wait])
  rw [written, memory]
  refine ⟨by simp, ?_, ?_, ?_, ?_, others, bytes, outside⟩
  · rw [pc_enter, regs]
  · rw [x_enter, alike]
  · rw [v_enter, alike]
  · rw [fflags_enter, alike]

end AwaitsHome

end

/-- Settles O27: the issue by the translation of a page that the cluster holds, and the reply by what the home performs. -/
theorem homeAccesses : Obligations.HomeAccesses := by
  intro s c num k hk die
  refine ⟨?issue, ?reply⟩
  case issue =>
    intro m e cur core ctx ready unsampled n a pa aligned low high held plain owned waits
    subst cur core ctx
    have size : tySize m.w.toNat = n := tySize_pow _
    have page : PageHeld s a n e := ⟨ready, unsampled, low, high, Nat.two_pow_pos _, held, plain, owned⟩
    refine ⟨fun readable hw => ?_, fun writable => ?_⟩
    · have start : exec (.ld m) s = alignedAccess s (memReq .ld m a n) n := by
        show guardX s m.d (alignedAccess s (memReq .ld m (eaMem _ _ (tySize _)) (tySize _)) (tySize _)) = _
        rw [guardX_writable _ _ _ hw, size]
        rfl
      rw [start]
      exact page.waits hk rfl (.inl rfl) rfl rfl aligned (.inl ⟨rfl, readable⟩)
    · have start : exec (.st m) s = alignedAccess s { memReq .st m a n with data := toLe (s.rx m.d).toNat n } n := by
        show alignedAccess s { memReq .st m (eaMem _ _ (tySize _)) (tySize _) with data := toLe _ (tySize _) } (tySize _) = _
        rw [size]
        rfl
      rw [start]
      exact page.waits hk rfl (.inr rfl) rfl rfl aligned (.inr ⟨rfl, writable⟩)
  case reply =>
    intro r pas wait live tokens sound unflipped unsealed segs some_bytes pos asked vas untagged unkeyed noAcquire noRelease
      notSampled owes own distinct hl hr hh hs unlogged bytes new performs sl
    have home : AwaitsHome s c num k r pas := ⟨hk, wait, live, tokens, sound, unflipped, unsealed, segs, some_bytes, pos, asked,
      vas, untagged, unkeyed, noAcquire, noRelease, notSampled, owes, own⟩
    have ends {u : State} {d read : List Byte} {r1 : MemReq} {x : Slot} (done : performHome s c num r = .ok (u, r1))
        (ho : r.op = .ld ∨ r.op = .vld ∨ r.op = .st ∨ r.op = .vst ∨ r.op = .amo)
        (same : r1.op = r.op ∧ r1.segs = r.segs ∧ r1.sampled = r.sampled) (all : r1.pos = r.pos + r.asked)
        (got : r1.result r1.bytes sl = r.result read sl) (value : r.result read sl = x) (performed : AtHome k pas d s u) :
        performs d x := by
      refine ⟨_, (home.exec_reply ho).trans (congrArg _ (home.accessAtHome_ends done (same.1 ▸ ho) same.2 all)), ?_⟩
      rw [← value, ← got]
      exact home.commits r1 r1.bytes performed hl hr hh hs unlogged
    have length : bytes.length = pas.length := List.length_map ..
    have gathered {level now : Nat} : { r.take bytes with level := level, served := now }.bytes = bytes :=
      bytes_take pos (length.trans vas.symm)
    refine ⟨fun op => ?ld, fun op => ?vld, fun op len => ?st, fun op => ?amo⟩
    case ld =>
      have value : r.result bytes sl = sl.putX (BitVec.ofNat 5 r.rd) (extendTy r.w bytes) := by
        unfold MemReq.result
        rw [op]
        rfl
      exact ends (home.performHome_load (.inl op)) (.inl op) ⟨rfl, rfl, rfl⟩ rfl (congrArg (r.result · sl) gathered) value
        (atHome_load s k pas)
    case vld =>
      have value : r.result bytes sl = sl.putV (BitVec.ofNat 5 r.rd) (leVec bytes) := by
        unfold MemReq.result
        rw [op]
        rfl
      exact ends (home.performHome_load (.inr op)) (.inr (.inl op)) ⟨rfl, rfl, rfl⟩ rfl (congrArg (r.result · sl) gathered) value
        (atHome_load s k pas)
    case st =>
      have value (read : List Byte) : r.result read sl = sl := by
        unfold MemReq.result
        rcases op with h | h <;> rw [h]
      exact ends (read := []) (home.performHome_store op) (.inr (.inr (op.imp_right .inl))) ⟨rfl, rfl, rfl⟩ rfl
        ((value _).trans (value _).symm) (value _) (atHome_store hk owes distinct len)
    case amo =>
      have value : r.result bytes sl = (sl.putX (BitVec.ofNat 5 r.rd) (leWord bytes)).addFlags new.2 := by
        unfold MemReq.result
        rw [op]
        dsimp only
        rw [length]
        rfl
      exact ends (home.performHome_amo op) (.inr (.inr (.inr (.inr op)))) ⟨rfl, rfl, rfl⟩ rfl (congrArg (r.result · sl) gathered)
        value (atHome_store hk owes distinct (length_toLe ..))

end Sys2Proof.Machine

/-! PROOFS of O35 to O39 and O42. What scheduling, the rings and the engine's jobs leave as they were, and then the
obligations: the rings, the engine in time, the requests at issue, the copy hart and the tasks (R220 to R258, R320 to R333). -/

namespace Sys2Proof.Machine

/-! ## Operations that only schedule -/

/-- Only events have been scheduled: the agenda has lost nothing, and the counter of the free values may have moved. -/
structure State.Schedules (s t : State) : Prop where
  beside : t = { s with agenda := t.agenda, free := t.free }
  kept : s.agenda ⊆ t.agenda

namespace State.Schedules

variable {s t u : State}

theorem refl (s : State) : s.Schedules s := ⟨rfl, fun _ h => h⟩

theorem trans (h : s.Schedules t) (h' : t.Schedules u) : s.Schedules u := by
  refine ⟨?_, fun _ m => h'.kept (h.kept m)⟩
  rw [h'.beside, h.beside]

theorem at_ (s : State) (due : Nat) (e : Event) : s.Schedules (s.at_ due e) :=
  ⟨rfl, fun _ m => mem_agendaIns_of_mem _ _ _ _ m⟩

theorem next1 (s : State) (e : Event) : s.Schedules (s.next1 e) := at_ s _ e

theorem later (s : State) (path : Nat) (e : Event) : s.Schedules (s.later path e) :=
  ⟨rfl, fun _ m => mem_agendaIns_of_mem _ _ _ _ m⟩

theorem foldl {α : Type} {f : State → α → State} (hf : ∀ (s : State) a, s.Schedules (f s a)) (l : List α) (s : State) :
    s.Schedules (l.foldl f s) := by
  induction l generalizing s with
  | nil => exact refl s
  | cons a l ih => exact (hf s a).trans (ih _)

theorem cur (h : s.Schedules t) : t.cur = s.cur := by rw [h.beside]
theorem slots (h : s.Schedules t) : t.slots = s.slots := by rw [h.beside]
theorem mem (h : s.Schedules t) : t.mem = s.mem := by rw [h.beside]
theorem cycle (h : s.Schedules t) : t.cycle = s.cycle := by rw [h.beside]
theorem clusters (h : s.Schedules t) : t.clusters = s.clusters := by rw [h.beside]
theorem cluster (h : s.Schedules t) (k : Nat) : t.cluster k = s.cluster k := by
  unfold State.cluster
  rw [h.clusters]

end State.Schedules

theorem schedules_ringMoves (s : State) (cl q : Nat) : s.Schedules (ringMoves s cl q) := by
  have config : s.Schedules (if (ringOf (s.cluster cl) q).config.isEmpty then s else s.next1 (.qcfgApply cl q)) := by
    split
    · exact .refl s
    · exact .next1 s _
  unfold ringMoves
  dsimp only
  split
  · exact config
  · exact config.trans (.next1 _ _)

theorem schedules_pauseAt (s : State) (cl : Nat) : s.Schedules (pauseAt s cl) := by
  unfold pauseAt
  dsimp only
  split
  · split
    · exact .at_ s _ _
    · exact .refl s
  · exact .refl s

theorem schedules_sendToken (s : State) (core slot num reg : Nat) (status : Word) (who : ReplyTo) (world : Nat) (sig : Sig) :
    s.Schedules (sendToken s core slot num reg status who world sig) := .later s _ _

theorem schedules_recheckJobs (s : State) (cl : Nat) : s.Schedules (recheckJobs s cl) := by
  refine .foldl (fun t j => ?_) _ s
  split
  · exact .refl t
  · exact .next1 t _

/-- The TOKEN message of a completion (R162, R231): it comes to the requester's core, and names the slot, the register and
the context number. -/
theorem sendToken_message (s : State) (core slot num reg : Nat) (status : Word) (who : ReplyTo) (world : Nat) (sig : Sig) :
    ∃ m due, s.cycle < due ∧ (due, Event.tokenMessageArrival core m) ∈ (sendToken s core slot num reg status who world sig).agenda
      ∧ m.typ = 1 ∧ m.d1 = BitVec.ofNat 64 (num % 65536 * 65536 + reg * 256 + slot % 8) ∧ m.d2 = status := by
  obtain ⟨due, after, scheduled⟩ := later_mem s s.cycle Config.latMesh _ rfl
  exact ⟨_, due, after, scheduled, rfl, rfl, rfl⟩

/-! ## Rings -/

/-- What a change of one ring leaves in each ring of the cluster. -/
theorem ringOf_modRing (s : State) (cl q : Nat) (f : Ring → Ring) (i : Nat) :
    ringOf ((modRing s cl q f).cluster cl) i
      = if i = q ∧ q < 16 then f (ringOf (s.cluster cl) q) else ringOf (s.cluster cl) i := by
  unfold modRing ringOf
  rw [State.cluster_modCluster_same]
  by_cases hi : i < 16
  · by_cases e : i = q
    · subst e
      simp [hi]
    · simp [hi, e]
  · have outside : ¬ (i = q ∧ q < 16) := fun h => hi (h.1 ▸ h.2)
    simp [hi, outside]

theorem ringOf_modRing_same {q : Nat} (hq : q < 16) (s : State) (cl : Nat) (f : Ring → Ring) :
    ringOf ((modRing s cl q f).cluster cl) q = f (ringOf (s.cluster cl) q) := by
  rw [ringOf_modRing, if_pos ⟨rfl, hq⟩]

@[simp] theorem engine_modRing (s : State) (cl q : Nat) (f : Ring → Ring) :
    ((modRing s cl q f).cluster cl).engine = (s.cluster cl).engine := by
  unfold modRing
  rw [State.cluster_modCluster_same]

@[simp] theorem kicks_modRing (s : State) (cl q : Nat) (f : Ring → Ring) :
    ((modRing s cl q f).cluster cl).kicks = (s.cluster cl).kicks := by
  unfold modRing
  rw [State.cluster_modCluster_same]

/-! ## What the operations of the engine and of the rings leave as it was -/

/-- Slots, memory, the time and the store of cluster `cl` are as they were, and the agenda has lost nothing. -/
structure State.EngineStep (cl : Nat) (s t : State) : Prop where
  cur : t.cur = s.cur
  slots : t.slots = s.slots
  mem : t.mem = s.mem
  cycle : t.cycle = s.cycle
  store : (t.cluster cl).store = (s.cluster cl).store
  kept : s.agenda ⊆ t.agenda

namespace State.EngineStep

variable {cl : Nat} {s t u : State}

theorem refl (s : State) : s.EngineStep cl s := ⟨rfl, rfl, rfl, rfl, rfl, fun _ h => h⟩

theorem trans (h : s.EngineStep cl t) (h' : t.EngineStep cl u) : s.EngineStep cl u :=
  ⟨h'.cur.trans h.cur, h'.slots.trans h.slots, h'.mem.trans h.mem, h'.cycle.trans h.cycle, h'.store.trans h.store,
    fun _ m => h'.kept (h.kept m)⟩

theorem of_schedules (h : s.Schedules t) : s.EngineStep cl t :=
  ⟨h.cur, h.slots, h.mem, h.cycle, by rw [h.cluster], h.kept⟩

theorem modRing (s : State) (cl q : Nat) (f : Ring → Ring) : s.EngineStep cl (modRing s cl q f) :=
  ⟨rfl, rfl, rfl, rfl, by unfold Machine.modRing; rw [State.cluster_modCluster_same], fun _ h => h⟩

theorem modEngine (s : State) (cl : Nat) (f : Engine → Engine) : s.EngineStep cl (modEngine s cl f) :=
  ⟨rfl, rfl, rfl, rfl, by unfold Machine.modEngine; rw [State.cluster_modCluster_same], fun _ h => h⟩

theorem modJob (s : State) (cl id : Nat) (f : Job → Job) : s.EngineStep cl (modJob s cl id f) := modEngine s cl _

theorem publishCore (s : State) (c world : Nat) (sig : Sig) : s.EngineStep cl (publishCore s c world sig) :=
  ⟨rfl, rfl, rfl, rfl, rfl, fun _ h => h⟩

end State.EngineStep

/-! ## The jobs of an engine -/

/-- The engine with every job changed in one way. -/
def Engine.mapJobs (f : Job → Job) (e : Engine) : Engine := { e with normal := e.normal.map f, shadow := e.shadow.map f }

theorem find_mapJobs {f : Job → Job} (keepsId : ∀ j, (f j).id = j.id) (e : Engine) (id : Nat) :
    (e.mapJobs f).find id = (e.find id).map f := by
  have same : ((fun j : Job => j.id == id) ∘ f) = fun j => j.id == id := funext fun j => congrArg (· == id) (keepsId j)
  unfold Engine.find Engine.jobs Engine.mapJobs
  rw [← List.map_append, List.find?_map, same]

@[simp] theorem engine_modEngine (s : State) (cl : Nat) (f : Engine → Engine) :
    ((modEngine s cl f).cluster cl).engine = f (s.cluster cl).engine := by
  unfold modEngine
  rw [State.cluster_modCluster_same]

theorem modJob_eq (s : State) (cl id : Nat) (f : Job → Job) :
    modJob s cl id f = modEngine s cl (Engine.mapJobs fun j => if j.id = id then f j else j) := rfl

@[simp] theorem engine_modJob (s : State) (cl id : Nat) (f : Job → Job) :
    ((modJob s cl id f).cluster cl).engine = (s.cluster cl).engine.mapJobs fun j => if j.id = id then f j else j :=
  engine_modEngine s cl _

theorem ringOf_modEngine (s : State) (cl q : Nat) (f : Engine → Engine) :
    ringOf ((modEngine s cl f).cluster cl) q = ringOf (s.cluster cl) q := by
  unfold modEngine
  rw [State.cluster_modCluster_same]
  rfl

/-- A job, marked as having asked for its result tile if `asks` names it. -/
def Job.mark (asks : Nat → Bool) (j : Job) : Job := { j with asked := j.asked || asks j.id }

theorem Job.mark_asking {asks : Nat → Bool} {j : Job} (h : asks j.id = true) : j.mark asks = { j with asked := true } := by
  unfold Job.mark
  rw [h, Bool.or_true]

theorem Job.mark_other {asks : Nat → Bool} {j : Job} (h : asks j.id = false) : j.mark asks = j := by
  unfold Job.mark
  rw [h, Bool.or_false]

theorem mapJobs_mark_mark (a b : Nat → Bool) (e : Engine) :
    (e.mapJobs (Job.mark a)).mapJobs (Job.mark b) = e.mapJobs (Job.mark fun id => a id || b id) := by
  have both : Job.mark b ∘ Job.mark a = Job.mark fun id => a id || b id := by
    funext j
    simp [Job.mark, Bool.or_assoc]
  unfold Engine.mapJobs
  simp only [List.map_map, both]

theorem mapJobs_mark_none (e : Engine) : e.mapJobs (Job.mark fun _ => false) = e := by
  have none : Job.mark (fun _ => false) = id := by
    funext j
    simp [Job.mark]
  unfold Engine.mapJobs
  simp only [none, List.map_id]

/-- What asking for result tiles and waking the engine do beside scheduling: jobs are marked as having asked, requests wait
at rings, and the engine may begin its ramp-up. -/
structure State.Stirs (cl : Nat) (s t : State) : Prop extends s.EngineStep cl t where
  engine : ∃ asks ramp, (t.cluster cl).engine = { (s.cluster cl).engine.mapJobs (Job.mark asks) with ramp := ramp }
  rings : ∀ q, ∃ waiting, ringOf (t.cluster cl) q = { ringOf (s.cluster cl) q with waiting := waiting }

namespace State.Stirs

variable {cl : Nat} {s t u : State}

theorem of_schedules (h : s.Schedules t) : s.Stirs cl t :=
  ⟨.of_schedules h, ⟨fun _ => false, (s.cluster cl).engine.ramp, by rw [h.cluster, mapJobs_mark_none]⟩,
    fun q => ⟨(ringOf (s.cluster cl) q).waiting, by rw [h.cluster]⟩⟩

theorem trans (h : s.Stirs cl t) (h' : t.Stirs cl u) : s.Stirs cl u := by
  obtain ⟨a, _, ha⟩ := h.engine
  obtain ⟨b, ramp, hb⟩ := h'.engine
  refine ⟨h.toEngineStep.trans h'.toEngineStep, ⟨fun id => a id || b id, ramp, ?_⟩, fun q => ?_⟩
  · rw [hb, ha, ← mapJobs_mark_mark]
    rfl
  · obtain ⟨_, hq⟩ := h.rings q
    obtain ⟨w, hw⟩ := h'.rings q
    exact ⟨w, by rw [hw, hq]⟩

theorem foldl {α : Type} {f : State → α → State} (hf : ∀ (s : State) a, s.Stirs cl (f s a)) (l : List α) (s : State) :
    s.Stirs cl (l.foldl f s) := by
  induction l generalizing s with
  | nil => exact of_schedules (.refl s)
  | cons a l ih => exact (hf s a).trans (ih _)

theorem setRamp (s : State) (cl : Nat) (ramp : Ramp) : s.Stirs cl (modEngine s cl fun e => { e with ramp := ramp }) :=
  ⟨.modEngine s cl _, ⟨fun _ => false, ramp, by rw [engine_modEngine, mapJobs_mark_none]⟩,
    fun q => ⟨(ringOf (s.cluster cl) q).waiting, ringOf_modEngine ..⟩⟩

theorem markAsked (s : State) (cl id : Nat) : s.Stirs cl (modJob s cl id fun x => { x with asked := true }) := by
  refine ⟨.modJob s cl id _, ⟨(· == id), (s.cluster cl).engine.ramp, ?_⟩,
    fun q => ⟨(ringOf (s.cluster cl) q).waiting, ringOf_modEngine ..⟩⟩
  have same : (fun j : Job => if j.id = id then { j with asked := true } else j) = Job.mark (· == id) := by
    funext j
    by_cases e : j.id = id
    · rw [if_pos e, Job.mark_asking (by simp [e])]
    · rw [if_neg e, Job.mark_other (by simp [e])]
  rw [engine_modJob, same]
  rfl

theorem askRing (s : State) (cl q rank : Nat) (x : RingReq) : s.Stirs cl (askRing s cl q rank x) := by
  refine ⟨(EngineStep.modRing s cl q _).trans (.of_schedules (.next1 _ _)), ⟨fun _ => false, (s.cluster cl).engine.ramp, ?_⟩,
    fun i => ?_⟩
  · rw [mapJobs_mark_none]
    exact engine_modRing s cl q _
  · have after := ringOf_modRing s cl q (fun r => { r with waiting := askIns s.cycle rank x r.waiting }) i
    split at after
    next h => exact ⟨_, by rw [h.1]; exact h.1 ▸ after⟩
    next => exact ⟨_, after⟩

theorem askJobs (s : State) (cl : Nat) : s.Stirs cl (askJobs s cl) := by
  unfold Machine.askJobs
  exact foldl (fun t (j : Job) => (markAsked t cl j.id).trans (askRing _ cl j.qd (j.core % 8) (.job j.id))) _ s

theorem engineWake (s : State) (cl : Nat) : s.Stirs cl (engineWake s cl) := by
  unfold Machine.engineWake
  dsimp only
  split
  case h_1 =>
    split
    · exact (setRamp s cl _).trans (of_schedules (.at_ _ _ _))
    · exact of_schedules (.refl s)
  case h_2 => exact of_schedules (.refl s)
  case h_3 =>
    split
    · exact of_schedules (.next1 s _)
    · exact of_schedules (schedules_pauseAt s cl)
  case h_4 | h_5 =>
    split
    · exact of_schedules (.next1 s _)
    · exact of_schedules (.refl s)

end State.Stirs

end Sys2Proof.Machine

namespace Sys2Proof.Machine

/-! ## Grants of reservations (R221, R249) -/

section
variable {s : State} {cl q : Nat}

/-- Requests of this cycle wait for the next. -/
theorem grantLoop_of_waiting (late : ∀ x ∈ (ringOf (s.cluster cl) q).waiting, s.cycle ≤ x.1) (fuel : Nat) :
    grantLoop s cl q fuel = (s, []) := by
  cases fuel with
  | zero => rfl
  | succ n =>
    rw [grantLoop]
    dsimp only
    split
    next cyc _ x rest waiting =>
      have notYet : ¬ cyc < s.cycle := Nat.not_lt.mpr (late _ (by rw [waiting]; exact .head _))
      rw [if_neg fun h => notYet h.1, if_neg fun h => notYet h.1]
    next => rfl

/-- The oldest request is granted the next tile where it is due, admitted, and the ring has room. -/
theorem grantLoop_grants {cyc rank n : Nat} {x : RingReq} {rest : List (Nat × Nat × RingReq)}
    (waiting : (ringOf (s.cluster cl) q).waiting = (cyc, rank, x) :: rest) (due : cyc < s.cycle)
    (admitted : askerCheck s cl q x = 0) (room : tilesFrom (ringOf (s.cluster cl) q).head (ringOf (s.cluster cl) q).resv
      < (ringOf (s.cluster cl) q).cap) :
    let s1 := modRing s cl q fun y => { y with waiting := rest, resv := bump32 y.resv 1 }
    grantLoop s cl q (n + 1) = ((grantLoop s1 cl q n).1, (x, (ringOf (s.cluster cl) q).resv) :: (grantLoop s1 cl q n).2) := by
  intro s1
  rw [grantLoop, waiting]
  dsimp only
  rw [if_neg fun h => h.2 admitted, if_pos ⟨due, room⟩]

/-- An admitted request at a ring without room waits, and so do all behind it. -/
theorem grantLoop_full {x : Nat × Nat × RingReq} {rest : List (Nat × Nat × RingReq)}
    (waiting : (ringOf (s.cluster cl) q).waiting = x :: rest) (admitted : askerCheck s cl q x.2.2 = 0)
    (full : (ringOf (s.cluster cl) q).cap ≤ tilesFrom (ringOf (s.cluster cl) q).head (ringOf (s.cluster cl) q).resv)
    (fuel : Nat) : grantLoop s cl q fuel = (s, []) := by
  cases fuel with
  | zero => rfl
  | succ n =>
    rw [grantLoop, waiting]
    dsimp only
    rw [if_neg fun h => h.2 admitted, if_neg fun h => absurd h.2 (Nat.not_lt.mpr full)]

theorem exec_grant_of_none {n : Nat} (hn : (ringOf (s.cluster cl) q).waiting.length = n) (h : grantLoop s cl q n = (s, [])) :
    exec (.ringReservationGrant cl q) s = .next s := by
  show execRingReservationGrant cl q s = _
  unfold execRingReservationGrant
  rw [hn, h]
  rfl

/-- A copy's request is granted: the counter moves by one tile, and the copy fills that tile. -/
theorem exec_grant_copy (hq : q < 16) {cyc rank k : Nat} {rest : List (Nat × Nat × RingReq)}
    (waiting : (ringOf (s.cluster cl) q).waiting = (cyc, rank, .copy k) :: rest) (due : cyc < s.cycle)
    (room : tilesFrom (ringOf (s.cluster cl) q).head (ringOf (s.cluster cl) q).resv < (ringOf (s.cluster cl) q).cap)
    (admitted : ((s.cluster cl).kicks.find? (·.id == k)).map (fun x => ringCheck s cl q x.world none) = some 0)
    (late : ∀ x ∈ rest, s.cycle ≤ x.1) :
    exec (.ringReservationGrant cl q) s = .next (ringGranted
      (modRing s cl q fun y => { y with waiting := rest, resv := bump32 y.resv 1 }) cl (.copy k) (ringOf (s.cluster cl) q).resv) := by
  have passes : askerCheck s cl q (.copy k) = 0 := by
    obtain ⟨x, found, code⟩ := Option.map_eq_some_iff.mp admitted
    unfold askerCheck
    dsimp only
    rw [found]
    exact code
  have rest_waits := grantLoop_of_waiting (s := modRing s cl q fun y => { y with waiting := rest, resv := bump32 y.resv 1 })
    (cl := cl) (q := q) (by rw [ringOf_modRing_same hq]; exact late) rest.length
  show execRingReservationGrant cl q s = _
  unfold execRingReservationGrant
  rw [waiting, List.length_cons, grantLoop_grants waiting due passes room, rest_waits]
  rfl

end

theorem ring_ringGranted_copy (s : State) (cl q id idx : Nat) :
    ringOf ((ringGranted s cl (.copy id) idx).cluster cl) q = ringOf (s.cluster cl) q := by
  unfold ringGranted
  rw [cluster_next1, State.cluster_modCluster_same]
  rfl

theorem kicks_ringGranted_copy (s : State) (cl id idx : Nat) : ((ringGranted s cl (.copy id) idx).cluster cl).kicks
    = (s.cluster cl).kicks.map fun k => if k.id = id then { k with tile := some idx } else k := by
  unfold ringGranted
  rw [cluster_next1, State.cluster_modCluster_same]

/-! ## Publication (R221) -/

/-- Publishing a tile stirs the cluster beyond the change of its ring. -/
theorem stirs_publishTile (s : State) (cl q n : Nat) :
    (modRing s cl q fun r => r.publish n).Stirs cl (publishTile s cl q n) :=
  ((State.Stirs.of_schedules (schedules_ringMoves _ cl q)).trans (.askJobs _ cl)).trans (.engineWake _ cl)

/-- The oldest tile is published: the tail moves past it. -/
theorem publish_oldest {r : Ring} (none : r.published = []) :
    (r.publish r.tail).tail = (r.tail + 1) % 2 ^ 32 ∧ (r.publish r.tail).published = [] := by
  unfold Ring.publish
  rw [none]
  simp [runPast, bump32]

/-- A tile before which another is still to come is kept as published. -/
theorem publish_early {r : Ring} {n : Nat} (none : r.published = []) (early : n ≠ r.tail) :
    (r.publish n).tail = r.tail ∧ (r.publish n).published = [n] := by
  unfold Ring.publish
  rw [none]
  simp [runPast, early.symm]

/-! ## Configurations (R247) -/

section
variable {s : State} {cl q core num reg world : Nat} {w : Word} {rest : List (Nat × Nat × Nat × Nat × Word)}

/-- What an accepted configuration sets up. -/
theorem ringConfig_ok {c : Cluster} {n : Ring} (h : ringConfig c q world w = .ok n) :
    n = { Ring.reset with world := world, cap := bits w.toNat 28 17, tsz := bits w.toNat 16 10, base := bits w.toNat 9 0
                          waiting := (ringOf c q).waiting, config := (ringOf c q).config } := by
  unfold ringConfig at h
  dsimp only at h
  split at h
  · cases h
  split at h
  · cases h
  split at h
  · cases h
  split at h
  · cases h
  · exact (Except.ok.inj h).symm

/-- The codes by which a configuration is refused are not 0. -/
theorem ringConfig_error {c : Cluster} {code : Nat} (h : ringConfig c q world w = .error code) : code ≠ 0 := by
  unfold ringConfig at h
  dsimp only at h
  split at h
  · exact Except.error.inj h ▸ by decide
  split at h
  · exact Except.error.inj h ▸ by decide
  split at h
  · exact Except.error.inj h ▸ by decide
  split at h
  · exact Except.error.inj h ▸ by decide
  · cases h

/-- A configuration leaves its ring's queue, and `done` completes its register. -/
def configGone (s : State) (cl q : Nat) (rest : List (Nat × Nat × Nat × Nat × Word)) (done : Event) : State :=
  (modRing s cl q fun x => { x with config := rest }).next1 done

theorem ringOf_configGone (hq : q < 16) (s : State) (cl : Nat) (rest : List (Nat × Nat × Nat × Nat × Word)) (done : Event) :
    ringOf ((configGone s cl q rest done).cluster cl) q = { ringOf (s.cluster cl) q with config := rest } :=
  ringOf_modRing_same hq s cl _

theorem configGone_done (s : State) (cl q : Nat) (rest : List (Nat × Nat × Nat × Nat × Word)) (done : Event) :
    (s.cycle + 1, done) ∈ (configGone s cl q rest done).agenda := next1_mem _ done

/-- What goes on once a configuration has been settled: the next one, and the requests that wait. -/
theorem schedules_nextConfig (s : State) (cl q : Nat) (last : Bool) :
    s.Schedules ((if last then s else s.next1 (.qcfgApply cl q)).next1 (.ringReservationGrant cl q)) := by
  split
  · exact .next1 s _
  · exact (State.Schedules.next1 s _).trans (.next1 _ _)

variable (oldest : (ringOf (s.cluster cl) q).config = (core, num, reg, world, w) :: rest)
include oldest

theorem exec_qcfgApply_busy (busy : (ringOf (s.cluster cl) q).quiet = false) : exec (.qcfgApply cl q) s = .next s := by
  show execQcfgApply cl q s = _
  unfold execQcfgApply
  dsimp only
  rw [oldest]
  dsimp only
  rw [if_neg (by rw [busy]; decide)]

variable (quiet : (ringOf (s.cluster cl) q).quiet = true)
include quiet

theorem exec_qcfgApply_accepted {n : Ring} (accepted : ringConfig (s.cluster cl) q world w = .ok n) :
    ∃ t, exec (.qcfgApply cl q) s = .next t
      ∧ (configGone (modRing { s with poison := s.poison.filter (· != Place.ring cl q) } cl q fun _ => n) cl q rest
          (.completionWrite core num reg 0 0)).Schedules t := by
  show ∃ t, execQcfgApply cl q s = .next t ∧ _
  unfold execQcfgApply
  dsimp only
  rw [oldest]
  dsimp only
  rw [if_pos quiet, accepted]
  exact ⟨_, rfl, (schedules_recheckJobs _ cl).trans (schedules_nextConfig _ cl q _)⟩

theorem exec_qcfgApply_refused {code : Nat} (refused : ringConfig (s.cluster cl) q world w = .error code) :
    ∃ t, exec (.qcfgApply cl q) s = .next t
      ∧ (configGone s cl q rest (.completionWrite core num reg (BitVec.ofNat 64 code) 0)).Schedules t := by
  show ∃ t, execQcfgApply cl q s = .next t ∧ _
  unfold execQcfgApply
  dsimp only
  rw [oldest]
  dsimp only
  rw [if_pos quiet, refused]
  dsimp only
  rw [if_neg (ringConfig_error refused)]
  exact ⟨_, rfl, schedules_nextConfig _ cl q _⟩

end

/-- Settles O39: grants go in order while there is room; a publication stirs the cluster beyond its ring; the oldest
configuration of a quiet ring is accepted or refused by `ringConfig`, whose result `ringConfig_ok` gives. -/
theorem ringEvents : Obligations.RingEvents := by
  unfold Obligations.RingEvents
  intro s cl q idx hq r
  refine ⟨?grant, ?nobody, ?full, ?publish, ?oldest, ?early, ?config, ?fields⟩
  case grant =>
    intro cyc rank k rest waiting due room admitted late
    have granted := ringOf_modRing_same hq s cl fun y => { y with waiting := rest, resv := bump32 y.resv 1 }
    refine ⟨_, exec_grant_copy hq waiting due room admitted late, ?_, ?_, rfl, rfl, ?_⟩
    · exact (congrArg Ring.resv (ring_ringGranted_copy ..)).trans (congrArg Ring.resv granted)
    · exact (congrArg Ring.waiting (ring_ringGranted_copy ..)).trans (congrArg Ring.waiting granted)
    · exact (kicks_ringGranted_copy ..).trans (by rw [kicks_modRing])
  case nobody => exact fun none => exec_grant_of_none (congrArg List.length none) rfl
  case full => exact fun x rest waiting admitted full => exec_grant_of_none rfl (grantLoop_full waiting admitted full _)
  case publish =>
    have stirs := stirs_publishTile s cl q idx
    obtain ⟨w, ring⟩ := stirs.rings q
    rw [ringOf_modRing_same hq] at ring
    refine ⟨_, rfl, stirs.slots, stirs.mem, ?_, ?_, ?_, ?_, stirs.store.trans (State.EngineStep.modRing s cl q _).store⟩
    all_goals exact (congrArg _ ring).trans rfl
  case oldest =>
    rintro none rfl
    exact publish_oldest none
  case early => exact publish_early
  case config =>
    intro core num reg world w rest oldest
    refine ⟨exec_qcfgApply_busy oldest, fun quiet n ok => ?_, fun quiet code refused => ?_⟩
    · obtain ⟨t, done, sched⟩ := exec_qcfgApply_accepted oldest quiet ok
      refine ⟨t, done, ?_, sched.slots, sched.kept (configGone_done ..)⟩
      rw [sched.cluster, ringOf_configGone hq, ringOf_modRing_same hq]
    · obtain ⟨t, done, sched⟩ := exec_qcfgApply_refused oldest quiet refused
      refine ⟨t, done, ?_, sched.slots, sched.kept (configGone_done ..)⟩
      rw [sched.cluster, ringOf_configGone hq]
  case fields =>
    intro world w _ _ _ n ok
    rw [ringConfig_ok ok]
    exact ⟨rfl, rfl, rfl, rfl, rfl, rfl, rfl, rfl⟩

end Sys2Proof.Machine

namespace Sys2Proof.Machine

/-! ## What the engine runs next (R226) -/

/-- The job that the engine starts when it chooses: a ready shadow job, else the pick of the normal ones while none is
paused. -/
def nextJob (c : Cluster) (j : Job) : Prop :=
  shadowReady c = some j ∨ (shadowReady c = none ∧ c.engine.paused = none ∧ normalPick c = some j)

/-- Nothing is there to start or to resume. -/
def nothingNext (c : Cluster) : Prop := shadowReady c = none ∧ c.engine.paused = none ∧ normalPick c = none

section
variable {s : State} {cl : Nat}

theorem dropBadJobs_sound (sound : s.poison = []) (cl : Nat) : dropBadJobs s cl = s := by
  unfold dropBadJobs
  rw [sound]
  rfl

theorem engineChoose_next {j : Job} (sound : s.poison = []) (next : nextJob (s.cluster cl) j) :
    engineChoose s cl = startJob s cl j := by
  unfold engineChoose
  rw [dropBadJobs_sound sound]
  dsimp only
  obtain shadow | ⟨shadow, paused, normal⟩ := next
  · rw [shadow]
  · rw [shadow, paused, normal]
    rfl

theorem engineChoose_nothing (sound : s.poison = []) (nothing : nothingNext (s.cluster cl)) (on : (s.cluster cl).engine.ramp = .on) :
    engineChoose s cl = endBurst s cl := by
  obtain ⟨shadow, paused, normal⟩ := nothing
  unfold engineChoose
  rw [dropBadJobs_sound sound]
  dsimp only
  rw [shadow, paused, normal]
  exact if_pos on

/-! ## The start of a job -/

/-- Job `j` has started in cycle `s.cycle`, and its K steps end after its whole time. -/
structure Starts (cl : Nat) (j : Job) (s t : State) : Prop extends s.EngineStep cl t where
  running : (t.cluster cl).engine.running = some j.id
  ramp : (t.cluster cl).engine.ramp = .on
  paused : (t.cluster cl).engine.paused = (s.cluster cl).engine.paused
  ends : (s.cycle + j.total, Event.matrixJobStart cl) ∈ t.agenda

theorem starts_claimed {u : State} {j : Job} (claims : s.EngineStep cl u) (same : (u.cluster cl).engine = (s.cluster cl).engine)
    (f : Job → Job) (core : Engine → Nat) : Starts cl j s (pauseAt ((modEngine (modJob u cl j.id f) cl fun e =>
      { e with running := some j.id, ramp := .on, lastCore := core e }).at_ (s.cycle + j.total) (.matrixJobStart cl)) cl) := by
  let v := modEngine (modJob u cl j.id f) cl fun e => { e with running := some j.id, ramp := .on, lastCore := core e }
  have last := schedules_pauseAt (v.at_ (s.cycle + j.total) (.matrixJobStart cl)) cl
  have engine := engine_modEngine (modJob u cl j.id f) cl fun e =>
    { e with running := some j.id, ramp := .on, lastCore := core e }
  have steps : s.EngineStep cl v := (claims.trans (.modJob u cl j.id f)).trans (.modEngine _ cl _)
  refine ⟨(steps.trans (.of_schedules (.at_ v _ _))).trans (.of_schedules last), ?_, ?_, ?_, last.kept (at_mem v _ _)⟩
  · rw [last.cluster, cluster_at_, engine]
  · rw [last.cluster, cluster_at_, engine]
  · rw [last.cluster, cluster_at_, engine, engine_modJob, ← same]
    rfl

theorem starts_startJob (s : State) (cl : Nat) (j : Job) : Starts cl j s (startJob s cl j) := by
  have claimA := State.EngineStep.modRing s cl j.qa fun r => { r with claim := bump32 r.claim j.nk }
  have claimB (u : State) := State.EngineStep.modRing u cl j.qb fun r => { r with claim := bump32 r.claim j.nk }
  have claimC (u : State) := State.EngineStep.modRing u cl j.qc fun r => { r with claim := bump32 r.claim 1 }
  unfold startJob
  dsimp only
  split
  · exact starts_claimed ((claimA.trans (claimB _)).trans (claimC _)) (by simp only [engine_modRing]) _ _
  · exact starts_claimed (claimA.trans (claimB _)) (by simp only [engine_modRing]) _ _

/-! ## The end of a burst (R229) -/

theorem endBurst_warm (warm : s.cycle < (s.cluster cl).engine.warmUntil) : endBurst s cl
    = (modEngine s cl fun e => { e with ramp := .warm e.warmUntil }).at_ (s.cluster cl).engine.warmUntil (.engineWarmEnd cl) := by
  unfold endBurst
  exact if_pos warm

theorem endBurst_down (cold : (s.cluster cl).engine.warmUntil ≤ s.cycle) : endBurst s cl
    = (modEngine s cl fun e => { e with ramp := .down (s.cycle + rampCycles (s.cluster cl)) }).at_
      (s.cycle + rampCycles (s.cluster cl)) (.engineRampDownEnd cl) := by
  unfold endBurst
  exact if_neg (Nat.not_lt.mpr cold)

/-- With nothing to run the engine is warm until the end of its warm period, or ramps down. -/
structure Rests (cl : Nat) (s t : State) : Prop where
  warm : s.cycle < (s.cluster cl).engine.warmUntil →
    (t.cluster cl).engine = { (s.cluster cl).engine with ramp := .warm (s.cluster cl).engine.warmUntil }
      ∧ ((s.cluster cl).engine.warmUntil, Event.engineWarmEnd cl) ∈ t.agenda
  down : (s.cluster cl).engine.warmUntil ≤ s.cycle →
    (t.cluster cl).engine = { (s.cluster cl).engine with ramp := .down (s.cycle + rampCycles (s.cluster cl)) }
      ∧ (s.cycle + rampCycles (s.cluster cl), Event.engineRampDownEnd cl) ∈ t.agenda

theorem rests_endBurst (s : State) (cl : Nat) : Rests cl s (endBurst s cl) := by
  refine ⟨fun warm => ?_, fun cold => ?_⟩
  · rw [endBurst_warm warm]
    exact ⟨by rw [cluster_at_, engine_modEngine], at_mem ..⟩
  · rw [endBurst_down cold]
    exact ⟨by rw [cluster_at_, engine_modEngine], at_mem ..⟩

/-! ## A change of the ramp -/

theorem cluster_modEngine (s : State) (cl : Nat) (f : Engine → Engine) :
    (modEngine s cl f).cluster cl = { s.cluster cl with engine := f (s.cluster cl).engine } := State.cluster_modCluster_same ..

theorem nextJob_setRamp {j : Job} (r : Ramp) (next : nextJob (s.cluster cl) j) :
    nextJob ((modEngine s cl fun e => { e with ramp := r }).cluster cl) j := by
  rw [cluster_modEngine]
  exact next

theorem nothingNext_setRamp (r : Ramp) (nothing : nothingNext (s.cluster cl)) :
    nothingNext ((modEngine s cl fun e => { e with ramp := r }).cluster cl) := by
  rw [cluster_modEngine]
  exact nothing

theorem rests_setRamp (r : Ramp) {t : State} (rests : Rests cl (modEngine s cl fun e => { e with ramp := r }) t) : Rests cl s t := by
  obtain ⟨warm, down⟩ := rests
  rw [cluster_modEngine] at warm down
  exact ⟨warm, down⟩

/-! ## The steps of the engine -/

theorem exec_matrixJobStart_free (free : (s.cluster cl).engine.running = none) (powered : (s.cluster cl).engine.ramp = .on
    ∨ ∃ n, (s.cluster cl).engine.ramp = .warm n ∨ (s.cluster cl).engine.ramp = .down n) :
    exec (.matrixJobStart cl) s = .next (engineChoose s cl) := by
  have noSteps : endSteps s cl = s := by
    unfold endSteps
    dsimp only
    rw [free]
    rfl
  show execMatrixJobStart cl s = _
  unfold execMatrixJobStart
  dsimp only
  rw [noSteps, free]
  obtain on | ⟨n, warm | down⟩ := powered
  · rw [on]
    rfl
  · rw [warm]
    rfl
  · rw [down]
    rfl

theorem exec_engineRampUpEnd_due {n w : Nat} (up : (s.cluster cl).engine.ramp = .up n w) (due : n ≤ s.cycle) :
    exec (.engineRampUpEnd cl) s = .next (engineChoose (modEngine s cl fun e => { e with ramp := .on }) cl) := by
  show execEngineRampUpEnd cl s = _
  unfold execEngineRampUpEnd
  rw [up]
  exact if_pos due

theorem exec_engineWarmEnd_due {n : Nat} (warm : (s.cluster cl).engine.ramp = .warm n) (due : n ≤ s.cycle) :
    exec (.engineWarmEnd cl) s = .next (endBurst s cl) := by
  show execEngineWarmEnd cl s = _
  unfold execEngineWarmEnd
  rw [warm]
  exact if_pos due

theorem exec_engineWarmEnd_early {n : Nat} (warm : (s.cluster cl).engine.ramp = .warm n) (early : s.cycle < n) :
    exec (.engineWarmEnd cl) s = .next s := by
  show execEngineWarmEnd cl s = _
  unfold execEngineWarmEnd
  rw [warm]
  exact if_neg (Nat.not_le.mpr early)

theorem exec_engineRampDownEnd_idle {n : Nat} (down : (s.cluster cl).engine.ramp = .down n) (due : n ≤ s.cycle)
    (noWork : hasWork (s.cluster cl) = false) :
    exec (.engineRampDownEnd cl) s = .next (modEngine s cl fun e => { e with ramp := .idle }) := by
  have asleep : engineWake (modEngine s cl fun e => { e with ramp := .idle }) cl = modEngine s cl fun e => { e with ramp := .idle } := by
    unfold engineWake
    rw [cluster_modEngine]
    dsimp only
    exact if_neg (by rw [show hasWork { s.cluster cl with engine := { (s.cluster cl).engine with ramp := .idle } } = false from noWork]
                     decide)
  show execEngineRampDownEnd cl s = _
  unfold execEngineRampDownEnd
  rw [down]
  exact (if_pos due).trans (congrArg _ asleep)

theorem exec_normalJobResume_alone {j : Job} (free : (s.cluster cl).engine.running = none)
    (paused : (s.cluster cl).engine.paused.bind (s.cluster cl).engine.find = some j)
    (noShadow : shadowHead (s.cluster cl).engine = none) : exec (.normalJobResume cl) s
      = .next ((modEngine (modJob s cl j.id fun x => { x with since := s.cycle }) cl fun e =>
        { e with running := some j.id, paused := none }).at_ (s.cycle + (j.total - j.doneCycles)) (.matrixJobStart cl)) := by
  show execNormalJobResume cl s = _
  unfold execNormalJobResume
  dsimp only
  rw [free, paused, noShadow]

/-! ## A pause (R226) -/

theorem jobReady_congr {c d : Cluster} (rings : d.rings = c.rings) (j : Job) : jobReady d j = jobReady c j := by
  unfold jobReady jobOperands ringOf
  rw [rings]

/-- A change of jobs that keeps what readiness looks at changes the ready shadow job in the same way. -/
theorem shadowReady_mapped {c d : Cluster} {f : Job → Job} (rings : d.rings = c.rings)
    (shadow : d.engine.shadow = c.engine.shadow.map f) (started : ∀ j, (f j).started = j.started)
    (ready : ∀ j, jobReady c (f j) = jobReady c j) : shadowReady d = (shadowReady c).map f := by
  have waiting : ((fun j : Job => !j.started) ∘ f) = fun j => !j.started := funext fun j => congrArg (! ·) (started j)
  have same : jobReady d ∘ f = jobReady c := funext fun j => (jobReady_congr rings (f j)).trans (ready j)
  unfold shadowReady shadowHead
  rw [shadow, List.find?_map, waiting, Option.filter_map, same]

/-- The progress of a job that pauses. -/
def progressed (id n : Nat) (j : Job) : Job := if j.id = id then { j with doneCycles := n } else j

theorem id_progressed (id n : Nat) (j : Job) : (progressed id n j).id = j.id := by
  unfold progressed
  split <;> rfl

theorem started_progressed (id n : Nat) (j : Job) : (progressed id n j).started = j.started := by
  unfold progressed
  split <;> rfl

theorem jobReady_progressed (c : Cluster) (id n : Nat) (j : Job) : jobReady c (progressed id n j) = jobReady c j := by
  unfold progressed
  split <;> rfl

/-- The state in which the shadow job of a pause starts: the running job's progress is kept, and it is paused. -/
def pausing (s : State) (cl : Nat) (j : Job) : State :=
  modEngine (modJob s cl j.id fun x => { x with doneCycles := jobDone s j }) cl fun e => { e with running := none, paused := some j.id }

theorem exec_shadowPause_at {j h : Job} (runs : (s.cluster cl).engine.running.bind
    (fun id => (s.cluster cl).engine.normal.find? (·.id == id)) = some j) (shadow : shadowReady (s.cluster cl) = some h)
    (before : s.cycle < jobEnd j) (boundary : jobDone s j % boundaryCycles j.aty = 0) (after : j.since < s.cycle) :
    exec (.shadowPause cl) s = .next (engineChoose (pausing s cl j) cl) := by
  show execShadowPause cl s = _
  unfold execShadowPause
  dsimp only
  rw [runs, shadow]
  exact if_pos ⟨before, boundary, after⟩

theorem pausing_next (j : Job) {h : Job} (shadow : shadowReady (s.cluster cl) = some h) :
    nextJob ((pausing s cl j).cluster cl) (progressed j.id (jobDone s j) h) := by
  refine .inl ((shadowReady_mapped (c := s.cluster cl) (f := progressed j.id (jobDone s j)) ?_ ?_ (started_progressed _ _)
    (jobReady_progressed _ _ _)).trans (congrArg (Option.map _) shadow))
  · unfold pausing
    rw [cluster_modEngine, modJob_eq, cluster_modEngine]
  · unfold pausing
    rw [cluster_modEngine, engine_modJob]
    rfl

theorem paused_pausing (s : State) (cl : Nat) (j : Job) : ((pausing s cl j).cluster cl).engine.paused = some j.id :=
  congrArg Engine.paused (engine_modEngine ..)

/-! ## Retirement (R225, R244) -/

theorem correctTiles_sound (unflipped : s.flipped = []) (cl q : Nat) (ns : List Nat) : correctTiles s cl q ns = s := by
  unfold correctTiles
  rw [unflipped]
  rfl

/-- A job as it stands once it has retired. -/
def retired (j x : Job) : Job := if x.id = j.id then { x with done := true, started := true, acc := none, result := j.result } else x

theorem id_retired (j x : Job) : (retired j x).id = x.id := by
  unfold retired
  split <;> rfl

theorem done_retired {j x : Job} (h : x.id = j.id) : (retired j x).done = true := by
  unfold retired
  rw [if_pos h]

/-- Tiles of a ring pop. -/
def popTiles (s : State) (cl q a n : Nat) : State := ringMoves (modRing s cl q fun r => r.retire (tileNums a n)) cl q

theorem step_popTiles (s : State) (cl q a n : Nat) : s.EngineStep cl (popTiles s cl q a n) :=
  (State.EngineStep.modRing s cl q _).trans (.of_schedules (schedules_ringMoves _ cl q))

theorem engine_popTiles (s : State) (cl q a n : Nat) : ((popTiles s cl q a n).cluster cl).engine = (s.cluster cl).engine := by
  unfold popTiles
  rw [(schedules_ringMoves _ cl q).cluster, engine_modRing]

/-- What the retirement of job `j` with a status leaves: the job is done, its token message is on its way, and its entry
frees in the next cycle. -/
structure Finished (cl : Nat) (j : Job) (status : Nat) (s t : State) : Prop extends s.EngineStep cl t where
  engine : (t.cluster cl).engine = (s.cluster cl).engine.mapJobs (retired j)
  frees : (s.cycle + 1, Event.remoteReply (.job cl j.id) .done 0) ∈ t.agenda
  token : ∃ m due, s.cycle < due ∧ (due, Event.tokenMessageArrival j.core m) ∈ t.agenda ∧ m.d2 = BitVec.ofNat 64 status
    ∧ m.d1 = BitVec.ofNat 64 (j.ctx % 65536 * 65536 + j.rd * 256 + j.slot % 8)

theorem finished_popped {u v : State} {j : Job} (pops : s.EngineStep cl u) (same : (u.cluster cl).engine = (s.cluster cl).engine)
    (publishes : (modJob u cl j.id fun x => { x with done := true, started := true, acc := none, result := j.result }).EngineStep cl v)
    (kept : v.cluster cl
      = (modJob u cl j.id fun x => { x with done := true, started := true, acc := none, result := j.result }).cluster cl)
    (status : Nat) (sig : Sig) : Finished cl j status s ((sendToken v j.core j.slot j.ctx j.rd (BitVec.ofNat 64 status)
      (.job cl j.id) j.world sig).next1 (.remoteReply (.job cl j.id) .done 0)) := by
  let w := sendToken v j.core j.slot j.ctx j.rd (BitVec.ofNat 64 status) (.job cl j.id) j.world sig
  have steps : s.EngineStep cl v := (pops.trans (.modJob u cl j.id _)).trans publishes
  have sends : v.Schedules w := schedules_sendToken ..
  have frees := State.Schedules.next1 w (.remoteReply (.job cl j.id) .done 0)
  obtain ⟨m, due, after, scheduled, -, slot, code⟩ :=
    sendToken_message v j.core j.slot j.ctx j.rd (BitVec.ofNat 64 status) (.job cl j.id) j.world sig
  refine ⟨steps.trans (.of_schedules (sends.trans frees)), ?_, ?_, m, due, steps.cycle ▸ after, frees.kept scheduled, code, slot⟩
  · rw [frees.cluster, sends.cluster, kept, engine_modJob, same]
    rfl
  · rw [← steps.cycle, ← sends.cycle]
    exact next1_mem w _

theorem finished_finishJob (s : State) (cl : Nat) (j : Job) (status : Nat) : Finished cl j status s (finishJob s cl j status) := by
  let s1 := if j.started then popTiles (popTiles s cl j.qa j.claimA j.nk) cl j.qb j.claimB j.nk else s
  let s2 := if j.started ∧ j.cin = 1 then popTiles s1 cl j.qc j.claimC 1 else s1
  have operands : s.EngineStep cl s1 ∧ (s1.cluster cl).engine = (s.cluster cl).engine := by
    unfold s1
    split
    · exact ⟨(step_popTiles s cl _ _ _).trans (step_popTiles _ cl _ _ _), by rw [engine_popTiles, engine_popTiles]⟩
    · exact ⟨.refl s, rfl⟩
  have accumulator : s1.EngineStep cl s2 ∧ (s2.cluster cl).engine = (s1.cluster cl).engine := by
    unfold s2
    split
    · exact ⟨step_popTiles s1 cl _ _ _, engine_popTiles ..⟩
    · exact ⟨.refl s1, rfl⟩
  have publishes (x : State) : x.EngineStep cl (if j.rd = 0 then publishCore x j.core j.world j.sig else x)
      ∧ (if j.rd = 0 then publishCore x j.core j.world j.sig else x).cluster cl = x.cluster cl := by
    split
    · exact ⟨.publishCore x _ _ _, rfl⟩
    · exact ⟨.refl x, rfl⟩
  exact finished_popped (operands.1.trans accumulator.1) (accumulator.2.trans operands.2) (publishes _).1 (publishes _).2 status j.sig

/-- A tile that is written changes the cluster's store alone. -/
theorem cluster_writeTile (s : State) (cl q n : Nat) (bs : List Byte) : (writeTile s cl q n bs).cluster cl
    = { s.cluster cl with store := cellWrite (s.cluster cl).store ((ringOf (s.cluster cl) q).tileAt n) bs } := by
  unfold writeTile
  exact State.cluster_modCluster_same s cl fun c =>
    { c with store := cellWrite c.store ((ringOf (s.cluster cl) q).tileAt n) bs }

/-- The state in which a job's result stands in its tile and the tile is published. -/
def resultPublished (s : State) (cl : Nat) (j : Job) (out : List Byte) : State :=
  ringMoves (modRing (writeTile s cl j.qd (j.resv.getD 0) out) cl j.qd fun r => r.publish (j.resv.getD 0)) cl j.qd

theorem exec_matrixJobRetire_ring {id code : Nat} {j : Job} {out : List Byte} (unflipped : s.flipped = [])
    (found : (s.cluster cl).engine.find id = some j) (started : j.started = true) (open_ : j.done = false)
    (notRunning : (s.cluster cl).engine.running ≠ some id) (notPaused : (s.cluster cl).engine.paused ≠ some id)
    (fresh : j.result = []) (toRing : j.mem = none) (result : jobResult s cl j = some (out, code)) :
    exec (.matrixJobRetire cl id) s
      = .next (engineWake (askJobs (finishJob (resultPublished s cl j out) cl j code) cl) cl) := by
  show execMatrixJobRetire cl id s = _
  unfold execMatrixJobRetire
  dsimp only
  rw [found]
  dsimp only
  rw [started, open_, fresh, beq_false_of_ne notRunning, beq_false_of_ne notPaused, correctTiles_sound unflipped,
    correctTiles_sound unflipped, correctTiles_sound unflipped, result, toRing]
  rfl

theorem engine_resultPublished (s : State) (cl : Nat) (j : Job) (out : List Byte) :
    ((resultPublished s cl j out).cluster cl).engine = (s.cluster cl).engine := by
  unfold resultPublished
  rw [(schedules_ringMoves _ cl j.qd).cluster, engine_modRing]
  rw [cluster_writeTile]

/-- Beside its ring and the tile's bytes, the publication of a result leaves a cluster as it was. -/
theorem fields_resultPublished (s : State) (cl : Nat) (j : Job) (out : List Byte) :
    let t := resultPublished s cl j out
    t.slots = s.slots ∧ t.mem = s.mem ∧ t.cycle = s.cycle
      ∧ (t.cluster cl).store = cellWrite (s.cluster cl).store ((ringOf (s.cluster cl) j.qd).tileAt (j.resv.getD 0)) out := by
  have step := (State.EngineStep.modRing (writeTile s cl j.qd (j.resv.getD 0) out) cl j.qd fun r => r.publish (j.resv.getD 0)).trans
    (.of_schedules (schedules_ringMoves _ cl j.qd))
  exact ⟨step.slots, step.mem, step.cycle, step.store.trans (congrArg Cluster.store (cluster_writeTile ..))⟩

/-! ## The entry of a job that has retired (R225) -/

theorem clusterWaits_congr {t : State} {p : Wait → Bool} (slots : t.slots = s.slots)
    (cache : (t.cluster cl).cache = (s.cluster cl).cache) (spilled : (t.cluster cl).spilled = (s.cluster cl).spilled) :
    clusterWaits t cl p = clusterWaits s cl p := by
  unfold clusterWaits
  rw [slots, cache, spilled]

/-- A context that waits for an entry of a job queue. -/
def waitsForEntry (w : Wait) : Bool := match w with | .jobFull _ _ => true | _ => false

theorem admitJobs_none (none : clusterWaits s cl waitsForEntry = []) : admitJobs s cl = s := congrArg (List.foldl _ s) none

/-- The engine without the entry of a job. -/
def entryGone (s : State) (cl id : Nat) : State :=
  modEngine s cl fun e => { e with normal := e.normal.filter (·.id != id), shadow := e.shadow.filter (·.id != id) }

theorem exec_jobReply_done {id : Nat} {j : Job} (found : (s.cluster cl).engine.find id = some j) (done : j.done = true)
    (nobody : clusterWaits s cl waitsForEntry = []) : exec (.remoteReply (.job cl id) .done 0) s = .next (entryGone s cl id) := by
  have waits : clusterWaits (entryGone s cl id) cl waitsForEntry = [] := by
    refine (clusterWaits_congr (s := s) (t := entryGone s cl id) rfl ?_ ?_).trans nobody
    · unfold entryGone
      rw [cluster_modEngine]
    · unfold entryGone
      rw [cluster_modEngine]
  show Host.Outcome.next (jobReply s cl id .done) = _
  unfold jobReply jobOf
  rw [found]
  dsimp only
  rw [if_pos done]
  exact congrArg _ (admitJobs_none waits)

theorem find_entryGone (s : State) (cl id : Nat) : ((entryGone s cl id).cluster cl).engine.find id = none := by
  unfold entryGone Engine.find Engine.jobs
  rw [engine_modEngine]
  simp

end

/-- Settles O38: each step of the engine by its own equation above; a start is `starts_startJob`, the end of a burst
`rests_endBurst`, and a retirement `finished_finishJob`. -/
theorem engineEvents : Obligations.EngineEvents := by
  unfold Obligations.EngineEvents
  intro s cl id sound unflipped u e running starts rests
  have starting {o : Out} {j : Job} {v t : State} (step : s.EngineStep cl v) (ho : o = .next t) (h : Starts cl j v t) : starts o j :=
    ⟨t, ho, h.running, h.ramp, step.cycle ▸ h.ends, h.slots.trans step.slots, h.mem.trans step.mem, h.store.trans step.store⟩
  have resting {o : Out} {t : State} (ho : o = .next t) (h : Rests cl s t) : rests o :=
    ⟨fun warm => ⟨t, ho, h.warm warm⟩, fun cold => ⟨t, ho, h.down cold⟩⟩
  refine ⟨?start, ?idle, ?pause, ?resume, ?rampUp, ?warmEnd, ?warmOn, ?rampDown, ?retire, ?entry⟩
  case start =>
    intro j free powered next
    exact starting (.refl s) ((exec_matrixJobStart_free free powered).trans (congrArg _ (engineChoose_next sound next)))
      (starts_startJob s cl j)
  case idle =>
    intro free on noShadow noPaused noNormal
    exact resting ((exec_matrixJobStart_free free (.inl on)).trans
      (congrArg _ (engineChoose_nothing sound ⟨noShadow, noPaused, noNormal⟩ on))) (rests_endBurst s cl)
  case pause =>
    intro j h runs shadow before boundary after
    have start := starts_startJob (pausing s cl j) cl (progressed j.id (jobDone s j) h)
    refine ⟨_, (exec_shadowPause_at runs shadow before boundary after).trans
      (congrArg _ (engineChoose_next sound (pausing_next j shadow))), ?_, ?_, start.slots, start.mem⟩
    · exact start.running.trans (congrArg some (id_progressed ..))
    · exact start.paused.trans (paused_pausing s cl j)
  case resume =>
    intro j free paused noShadow
    refine ⟨_, exec_normalJobResume_alone free paused noShadow, ?_, ?_, at_mem .., rfl⟩
    · show ((State.at_ _ _ _).cluster cl).engine.running = _
      rw [cluster_at_, engine_modEngine]
    · rw [cluster_at_, engine_modEngine]
  case rampUp =>
    intro n w up due
    refine ⟨fun j next => ?_, fun noShadow noPaused noNormal => ?_⟩
    · exact starting (.modEngine s cl _) ((exec_engineRampUpEnd_due up due).trans
        (congrArg _ (engineChoose_next sound (nextJob_setRamp .on next)))) (starts_startJob _ cl j)
    · have on : ((modEngine s cl fun e => { e with ramp := .on }).cluster cl).engine.ramp = .on :=
        congrArg Engine.ramp (engine_modEngine ..)
      exact resting ((exec_engineRampUpEnd_due up due).trans (congrArg _ (engineChoose_nothing sound
        (nothingNext_setRamp .on ⟨noShadow, noPaused, noNormal⟩) on))) (rests_setRamp .on (rests_endBurst _ cl))
  case warmEnd => exact fun n warm due => resting (exec_engineWarmEnd_due warm due) (rests_endBurst s cl)
  case warmOn => exact fun n => exec_engineWarmEnd_early
  case rampDown => exact fun n => exec_engineRampDownEnd_idle
  case retire =>
    intro j out code found started open_ notRunning notPaused fresh toRing result
    have named : j.id = id := by simpa using List.find?_some found
    obtain ⟨slots, mem, cycle, store⟩ := fields_resultPublished s cl j out
    have ends := finished_finishJob (resultPublished s cl j out) cl j code
    have stirs := (State.Stirs.askJobs (finishJob (resultPublished s cl j out) cl j code) cl).trans (.engineWake _ cl)
    obtain ⟨m, due, after, sent, d2, d1⟩ := ends.token
    refine ⟨_, m, due, exec_matrixJobRetire_ring unflipped found started open_ notRunning notPaused fresh toRing result, ?_, ?_,
      (stirs.store.trans ends.store).trans store, cycle ▸ after, stirs.kept sent, d2, d1,
      (stirs.slots.trans ends.slots).trans slots, (stirs.mem.trans ends.mem).trans mem⟩
    · obtain ⟨asks, ramp, engine⟩ := stirs.engine
      refine ⟨(retired j j).mark asks, ?_, (done_retired rfl :)⟩
      rw [engine, ends.engine, engine_resultPublished]
      exact (find_mapJobs (f := Job.mark asks) (fun _ => rfl) _ id).trans (by rw [find_mapJobs (id_retired j), found]; rfl)
    · exact stirs.kept (named ▸ cycle ▸ ends.frees)
  case entry =>
    intro j found done nobody
    exact ⟨_, exec_jobReply_done found done nobody, find_entryGone s cl id, rfl, rfl⟩

end Sys2Proof.Machine

namespace Sys2Proof.Machine

/-! ## A request of the issuing slot starts its token (R57, R106) -/

/-- A started token changes the pending registers and the count of outstanding requests alone. -/
theorem startToken_fields (sl : Slot) (d : Reg) :
    sl.startToken d = { sl with pending := (sl.startToken d).pending, outstanding := sl.outstanding + 1 } := by
  unfold Slot.startToken Slot.pend
  split <;> rfl

/-- The state in which the issuing slot has started token `d` of a numbered request. -/
def tokenStarted (s : State) (d : Reg) : State := s.freshId.modSlot s.cur (·.startToken d)

section
variable {s : State} {d : Reg}

theorem modCtx_freshId (here : ctxSlot s (coreOf s.cur) s.me.ctxNum = some s.cur) :
    s.freshId.modCtx (coreOf s.cur) s.me.ctxNum (·.startToken (regOf d.toNat)) = tokenStarted s d := by
  rw [regOf_toNat]
  exact modCtx_eq s.freshId _ _ _ _ here

theorem slot_tokenStarted (s : State) (d : Reg) : (tokenStarted s d).slot s.cur = s.me.startToken d :=
  State.slot_modSlot_same ..

/-- What a request leaves in the slots: its token pends, the slot waits for it in the .wait form, and no other slot has
changed (R245, R333). -/
structure Requests (s : State) (d : Reg) (wait : Bool) (t : State) : Prop where
  x : t.me.x = s.me.x
  pending : t.me.pending = (s.me.startToken d).pending
  outstanding : t.me.outstanding = s.me.outstanding + 1
  others : ∀ k, k ≠ s.cur → t.slot k = s.slot k
  waits : if wait then t.me.state = .waitEngine ∧ t.me.wait = .engineToken (if d = 0 then 32 + s.nextId else d.toNat)
    else t.me.state = s.me.state ∧ t.me.wait = s.me.wait

/-- The slot of a .wait form waits for its request. -/
def waitFor (s : State) (d : Reg) (wait : Bool) (u : State) : State :=
  if wait then park u s.cur .waitEngine (.engineToken (waitKey d.toNat s.nextId)) else u

@[simp] theorem agenda_waitFor (s : State) (d : Reg) (wait : Bool) (u : State) : (waitFor s d wait u).agenda = u.agenda := by
  unfold waitFor
  split <;> simp

@[simp] theorem cluster_waitFor (s : State) (d : Reg) (wait : Bool) (u : State) (k : Nat) :
    (waitFor s d wait u).cluster k = u.cluster k := by
  unfold waitFor
  split <;> simp

theorem waitKey_toNat (d : Reg) (id : Nat) : waitKey d.toNat id = if d = 0 then 32 + id else d.toNat := by
  unfold waitKey
  simp only [← BitVec.toNat_inj]
  rfl

theorem requests_waitFor {u : State} (slots : u.slots = (tokenStarted s d).slots) (cur : u.cur = s.cur) (wait : Bool) :
    Requests s d wait (waitFor s d wait u) := by
  have mine : u.slot s.cur = s.me.startToken d := by
    rw [← slot_tokenStarted]
    unfold State.slot
    rw [slots]
  have others : ∀ k, k ≠ s.cur → u.slot k = s.slot k := by
    intro k hk
    refine Eq.trans ?_ (State.slot_modSlot_other s.freshId s.cur k (·.startToken d) hk)
    unfold State.slot
    rw [slots]
    rfl
  have fields := startToken_fields s.me d
  cases wait with
  | false =>
    have me : u.me = s.me.startToken d := by rw [State.me_eq, cur, mine]
    refine ⟨?_, ?_, ?_, others, ?_, ?_⟩ <;> rw [show (waitFor s d false u).me = _ from me]
    all_goals rw [fields]
  | true =>
    have me : (park u s.cur .waitEngine (.engineToken (waitKey d.toNat s.nextId))).me
        = ({ s.me.startToken d with wait := .engineToken (waitKey d.toNat s.nextId) } : Slot).enter u.cycle .waitEngine := by
      rw [State.me_eq, cur_park, cur, slot_park_same, mine]
    refine ⟨?_, ?_, ?_, fun k hk => (slot_park_other u s.cur k _ _ hk).trans (others k hk), ?_, ?_⟩
    all_goals rw [show (waitFor s d true u).me = _ from me]
    · rw [x_enter, fields]
    · rw [pending_enter]
    · rw [outstanding_enter, fields]
    · exact state_enter ..
    · rw [wait_enter, waitKey_toNat]

/-- What a slot that parks without a request keeps. -/
structure Parks (s : State) (st : SlotState) (w : Wait) (t : State) : Prop where
  state : t.me.state = st
  wait : t.me.wait = w
  pc : t.me.pc = s.me.pc
  x : t.me.x = s.me.x
  pending : t.me.pending = s.me.pending
  others : ∀ k, k ≠ s.cur → t.slot k = s.slot k

theorem parks_park (s : State) (st : SlotState) (w : Wait) : Parks s st w (park s s.cur st w) := by
  have me : (park s s.cur st w).me = ({ s.me with wait := w } : Slot).enter s.cycle st := by
    rw [State.me_eq, cur_park, slot_park_same]
    rfl
  refine ⟨?_, ?_, ?_, ?_, ?_, fun k hk => slot_park_other s s.cur k st w hk⟩ <;> rw [me]
  · exact state_enter ..
  · exact wait_enter ..
  · exact pc_enter ..
  · exact x_enter ..
  · exact pending_enter ..

/-! ## Requests for the copy hart (R230, R320) -/

variable (here : ctxSlot s (coreOf s.cur) s.me.ctxNum = some s.cur)

section
variable {r : CopyReq}

theorem gorBusy_tokenStarted (s : State) (d : Reg) (r : CopyReq) : gorBusy (tokenStarted s d) r = gorBusy s r := rfl

include here in
theorem ctxOf_tokenStarted : ctxOf (tokenStarted s d) (coreOf s.cur) s.me.ctxNum = some (s.me.startToken d) := by
  have same : ctxSlot (tokenStarted s d) (coreOf s.cur) s.me.ctxNum = some s.cur := by
    refine (ctxSlot_congr s (tokenStarted s d) _ _ fun j => ?_).trans here
    by_cases e : j = s.cur
    · have fields := startToken_fields s.me d
      rw [e, slot_tokenStarted, congrArg Slot.state fields, congrArg Slot.ctxNum fields]
      exact ⟨rfl, rfl⟩
    · rw [show (tokenStarted s d).slot j = s.slot j from State.slot_modSlot_other s.freshId _ _ _ e]
      exact ⟨rfl, rfl⟩
  rw [ctxOf_eq _ _ _ _ same, slot_tokenStarted]

include here in
/-- The checks of a graph request do not see the request's own token. -/
theorem gorCheck_tokenStarted (core : r.core = coreOf s.cur) (ctx : r.ctx = s.me.ctxNum) :
    gorCheck (tokenStarted s d) r = gorCheck s r := by
  have split : Slot.split (tokenStarted s d) (s.me.startToken d) = Slot.split s (s.slot s.cur) := by
    have fields := startToken_fields s.me d
    unfold Slot.split
    rw [congrArg Slot.world fields, congrArg Slot.launch fields]
    rfl
  have module : (tokenStarted s d).moduleNo = s.moduleNo := rfl
  unfold gorCheck
  rw [gorBusy_tokenStarted, core, ctx, ctxOf_tokenStarted here, ctxOf_eq s _ _ _ here]
  simp only [split, module]

theorem gorCheck_copy (copy : r.isGraph = false) : gorCheck s r = 0 := by
  unfold gorCheck
  rw [copy]
  rfl

theorem gorCheck_unaligned (graph : r.isGraph = true) (unaligned : r.gor % 64 ≠ 0) : gorCheck s r = 0x0F := by
  unfold gorCheck
  rw [graph]
  exact if_pos unaligned

end

section
variable {kind : CopyKind} {ring : Option Nat} {ops : List Word} {wait : Bool}

theorem issueReq_full (full : kickRoom s (coreOf s.cur) = false) : issueReq s (newReq s kind d ring ops) wait
    = .next (park s.freshId s.cur .waitEngine (.kickFull (newReq s kind d ring ops) wait)) := by
  unfold issueReq
  exact if_neg (by rw [show kickRoom s (newReq s kind d ring ops).core = false from full]; decide)

theorem issueReq_room (room : kickRoom s (coreOf s.cur) = true) : issueReq s (newReq s kind d ring ops) wait
    = .next (waitFor s d wait (kickArrive s.freshId (newReq s kind d ring ops))) := by
  unfold issueReq
  rw [show kickRoom s (newReq s kind d ring ops).core = true from room]
  rfl

include here

theorem kickArrive_accepted (sound : gorCheck s (newReq s kind d ring ops) = 0) :
    kickArrive s.freshId (newReq s kind d ring ops) = ((tokenStarted s d).modCluster (clusterOf s.cur) fun c =>
      { c with kicks := c.kicks ++ [newReq s kind d ring ops] }).later Config.latMesh (.copyKickTake (clusterOf s.cur)) := by
  have start : s.freshId.modCtx (newReq s kind d ring ops).core (newReq s kind d ring ops).ctx
      (·.startToken (regOf (newReq s kind d ring ops).rd)) = tokenStarted s d := modCtx_freshId here
  unfold kickArrive
  dsimp only
  rw [start, gorCheck_tokenStarted here rfl rfl, sound, ← clusterOfCore_coreOf]
  rfl

theorem kickArrive_refused (bad : gorCheck s (newReq s kind d ring ops) ≠ 0) : ∃ who,
    kickArrive s.freshId (newReq s kind d ring ops) = sendToken (tokenStarted s d) (coreOf s.cur) (s.cur % 8) s.me.ctxNum d.toNat
      (BitVec.ofNat 64 (gorCheck s (newReq s kind d ring ops))) who s.me.world 0 := by
  have start : s.freshId.modCtx (newReq s kind d ring ops).core (newReq s kind d ring ops).ctx
      (·.startToken (regOf (newReq s kind d ring ops).rd)) = tokenStarted s d := modCtx_freshId here
  unfold kickArrive
  dsimp only
  rw [start, gorCheck_tokenStarted here rfl rfl, if_pos bad]
  exact ⟨_, rfl⟩

end

end

/-- The requests that work on a graph operation record are those that are no copies. -/
theorem isGraph_eq_false_iff (r : CopyReq) :
    r.isGraph = false ↔ (r.kind = .cpy ∨ r.kind = .cpy2d ∨ r.kind = .cpyl ∨ r.kind = .cpyg) := by
  unfold CopyReq.isGraph
  cases r.kind <;> decide

/-- Settles O35: every form is one request that `issueReq` makes, by the checks of its record and by the room for it. -/
theorem copyRequests : Obligations.CopyRequests := by
  unfold Obligations.CopyRequests
  intro s f q w d a b e c cl is pends requests ring ready here
  have all (o : Out) (kind : CopyKind) (d : Reg) (ring : Option Nat) (ops : List Word) (wait : Bool)
      (ho : o = issueReq s (newReq s kind d ring ops) wait) : requests o kind d ring ops wait := by
    refine ⟨newReq s kind d ring ops, ⟨rfl, rfl, rfl, rfl, rfl, rfl, rfl, rfl, beq_eq_decide .., rfl, rfl, rfl⟩, ?accepted,
      ?refused, ?full, ?copies, ?unaligned⟩
    case accepted =>
      intro room sound
      rw [ho, issueReq_room room, kickArrive_accepted here sound]
      let u := (tokenStarted s d).modCluster cl fun c => { c with kicks := c.kicks ++ [newReq s kind d ring ops] }
      obtain ⟨due, after, scheduled⟩ := later_mem u s.cycle Config.latMesh (.copyKickTake cl) rfl
      have req := requests_waitFor (s := s) (d := d) (u := u.later Config.latMesh (.copyKickTake cl)) rfl rfl wait
      refine ⟨_, due, rfl, ?_, ⟨req.x, req.pending, req.outstanding, req.others⟩, after, by rwa [agenda_waitFor], ready ▸ req.waits⟩
      rw [cluster_waitFor, cluster_later, State.cluster_modCluster_same]
      rfl
    case refused =>
      intro room bad
      obtain ⟨who, arrive⟩ := kickArrive_refused here bad
      rw [ho, issueReq_room room, arrive]
      obtain ⟨m, due, after, scheduled, typ, d1, d2⟩ := sendToken_message (tokenStarted s d) c (s.cur % 8) s.me.ctxNum d.toNat
        (BitVec.ofNat 64 (gorCheck s (newReq s kind d ring ops))) who s.me.world 0
      have req := requests_waitFor (s := s) (d := d) (schedules_sendToken (tokenStarted s d) c (s.cur % 8) s.me.ctxNum d.toNat
        (BitVec.ofNat 64 (gorCheck s (newReq s kind d ring ops))) who s.me.world 0).slots rfl wait
      refine ⟨_, m, due, rfl, ?_, ⟨req.x, req.pending, req.outstanding, req.others⟩, after, by rwa [agenda_waitFor], typ, ?_, d2⟩
      · rw [cluster_waitFor]
        rfl
      · rw [d1, Nat.mod_mod]
    case full =>
      intro full
      rw [ho, issueReq_full full]
      have parks := parks_park s.freshId .waitEngine (.kickFull (newReq s kind d ring ops) wait)
      exact ⟨_, rfl, congrArg Cluster.kicks (cluster_park ..), parks.state, parks.wait, parks.x, parks.pending, parks.others⟩
    case copies => exact fun copy => gorCheck_copy ((isGraph_eq_false_iff (newReq s kind d ring ops)).mpr copy)
    case unaligned =>
      intro graph unaligned
      refine gorCheck_unaligned ?_ unaligned
      exact Bool.of_not_eq_false fun h => graph ((isGraph_eq_false_iff (newReq s kind d ring ops)).mp h)
  refine ⟨fun hd => ⟨?_, ?_, ?_⟩, fun hd => ⟨?_, ?_, ?_, ?_, ?_, ?_⟩⟩
  all_goals exact all _ _ _ _ _ _ (guardX_writable s _ _ hd)

end Sys2Proof.Machine

namespace Sys2Proof.Machine

/-! ## Jobs for the matrix engine at issue (R225, R241 to R245) -/

section
variable {s : State} {d : Reg} {ty modq : Nat} {desc nk : Word} {mem : Option Nat} {wait : Bool}

/-- The checks of a job do not see the request's own token. -/
theorem jobCheck_tokenStarted (s : State) (d : Reg) (j : Job) : jobCheck (tokenStarted s d) j = jobCheck s j := rfl

/-- A job at the end of its queue. -/
def Engine.accept (j : Job) (e : Engine) : Engine :=
  if j.shadow then { e with shadow := e.shadow ++ [j] } else { e with normal := e.normal ++ [j] }

theorem mem_accept (j : Job) (e : Engine) : j ∈ (e.accept j).jobs := by
  unfold Engine.accept Engine.jobs
  split <;> simp

theorem issueJob_full (full : hasRoom s (newJob s ty modq d desc nk mem) = false) :
    issueJob s (newJob s ty modq d desc nk mem) wait
      = .next (park s.freshId s.cur .waitEngine (.jobFull (newJob s ty modq d desc nk mem) wait)) := by
  unfold issueJob
  exact if_neg (by rw [full]; decide)

theorem issueJob_room (room : hasRoom s (newJob s ty modq d desc nk mem) = true) :
    issueJob s (newJob s ty modq d desc nk mem) wait
      = .next (waitFor s d wait (jobArrive s.freshId (newJob s ty modq d desc nk mem))) := by
  unfold issueJob
  rw [room]
  rfl

variable (here : ctxSlot s (coreOf s.cur) s.me.ctxNum = some s.cur)
include here

theorem jobArrive_accepted (sound : jobCheck s (newJob s ty modq d desc nk mem) = 0) :
    jobArrive s.freshId (newJob s ty modq d desc nk mem) = engineWake (askJobs (modEngine (tokenStarted s d) (clusterOf s.cur)
      (Engine.accept (newJob s ty modq d desc nk mem))) (clusterOf s.cur)) (clusterOf s.cur) := by
  have start : s.freshId.modCtx (newJob s ty modq d desc nk mem).core (newJob s ty modq d desc nk mem).ctx
      (·.startToken (regOf (newJob s ty modq d desc nk mem).rd)) = tokenStarted s d := modCtx_freshId here
  unfold jobArrive
  dsimp only
  rw [start, jobCheck_tokenStarted, sound, ← clusterOfCore_coreOf]
  rfl

theorem jobArrive_refused (bad : jobCheck s (newJob s ty modq d desc nk mem) ≠ 0) : ∃ who,
    jobArrive s.freshId (newJob s ty modq d desc nk mem) = sendToken (tokenStarted s d) (coreOf s.cur) (s.cur % 8) s.me.ctxNum
      d.toNat (BitVec.ofNat 64 (jobCheck s (newJob s ty modq d desc nk mem))) who s.me.world 0 := by
  have start : s.freshId.modCtx (newJob s ty modq d desc nk mem).core (newJob s ty modq d desc nk mem).ctx
      (·.startToken (regOf (newJob s ty modq d desc nk mem).rd)) = tokenStarted s d := modCtx_freshId here
  unfold jobArrive
  dsimp only
  rw [start, jobCheck_tokenStarted, if_pos bad]
  exact ⟨_, rfl⟩

end

/-- A job that its cluster has been stirred after still stands in a queue, at most marked as having asked for its tile. -/
theorem stirs_job {cl : Nat} {s t : State} {j : Job} (stirs : s.Stirs cl t) (queued : j ∈ (s.cluster cl).engine.jobs) :
    ∃ j' ∈ (t.cluster cl).engine.jobs, j' = { j with asked := j'.asked } := by
  obtain ⟨asks, ramp, engine⟩ := stirs.engine
  refine ⟨j.mark asks, ?_, rfl⟩
  rw [engine]
  show j.mark asks ∈ (s.cluster cl).engine.shadow.map (Job.mark asks) ++ (s.cluster cl).engine.normal.map (Job.mark asks)
  rw [← List.map_append]
  exact List.mem_map_of_mem queued

/-! ## MHINT (R229, R250) -/

/-- The cycles that an MHINT asks for. -/
def hintCycles (s : State) (a : Reg) : Nat := Nat.min (s.rx a).toNat 65535

section
variable {s : State} {a : Reg} (some_cycles : hintCycles s a ≠ 0)

theorem exec_mhint_zero (zero : hintCycles s a = 0) : exec (.mhint a) s = .next s := if_pos zero

include some_cycles

theorem exec_mhint_idle (idle : (s.cluster (clusterOf s.cur)).engine.ramp = .idle) : exec (.mhint a) s
    = .next ((modEngine s (clusterOf s.cur) fun e => { e with
        ramp := .up (s.cycle + rampCycles (s.cluster (clusterOf s.cur))) (hintCycles s a)
        warmUntil := s.cycle + rampCycles (s.cluster (clusterOf s.cur)) + hintCycles s a }).at_
          (s.cycle + rampCycles (s.cluster (clusterOf s.cur))) (.engineRampUpEnd (clusterOf s.cur))) := by
  show execMhint a s = _
  unfold execMhint
  dsimp only
  rw [if_neg (show ¬ Nat.min _ _ = 0 from some_cycles), idle]
  rfl

theorem exec_mhint_on (on : (s.cluster (clusterOf s.cur)).engine.ramp = .on) : exec (.mhint a) s
    = .next (modEngine s (clusterOf s.cur) fun e => { e with warmUntil := Nat.max e.warmUntil (s.cycle + hintCycles s a) }) := by
  show execMhint a s = _
  unfold execMhint
  dsimp only
  rw [if_neg (show ¬ Nat.min _ _ = 0 from some_cycles), on]
  rfl

theorem exec_mhint_warm_longer {u : Nat} (warm : (s.cluster (clusterOf s.cur)).engine.ramp = .warm u)
    (longer : s.cycle + hintCycles s a ≤ u) : exec (.mhint a) s = .next s := by
  show execMhint a s = _
  unfold execMhint
  dsimp only
  rw [if_neg (show ¬ Nat.min _ _ = 0 from some_cycles), warm]
  exact if_neg (Nat.not_lt.mpr longer)

theorem exec_mhint_extends {u : Nat} (ends : (s.cluster (clusterOf s.cur)).engine.ramp = .down u
      ∨ ((s.cluster (clusterOf s.cur)).engine.ramp = .warm u ∧ u < s.cycle + hintCycles s a)) :
    exec (.mhint a) s = .next ((modEngine s (clusterOf s.cur) fun e => { e with
      warmUntil := s.cycle + hintCycles s a, ramp := .warm (s.cycle + hintCycles s a) }).at_
        (s.cycle + hintCycles s a) (.engineWarmEnd (clusterOf s.cur))) := by
  show execMhint a s = _
  unfold execMhint
  dsimp only
  rw [if_neg (show ¬ Nat.min _ _ = 0 from some_cycles)]
  obtain down | ⟨warm, shorter⟩ := ends
  · rw [down]
    rfl
  · rw [warm]
    exact if_pos shorter

end

/-! ## QPUSH (R248) -/

section
variable {s : State} {q : BitVec 4} {d a : Reg} (hw : s.writable d)

/-- The tile that a QPUSH reads. -/
def pushTile (s : State) (q : BitVec 4) (a : Reg) : List Nat :=
  (List.range (ringOf (s.cluster (clusterOf s.cur)) q.toNat).tileBytes).map (addr57 (s.rx a) + ·)

include hw

theorem exec_qpush_badRing (bad : ringCheck s (clusterOf s.cur) q.toNat s.me.world none ≠ 0) : exec (.qpush q d a) s
    = .next ((s.modMe (·.startToken d)).next1 (.completionWrite (coreOf s.cur) s.me.ctxNum d.toNat
      (BitVec.ofNat 64 (ringCheck s (clusterOf s.cur) q.toNat s.me.world none)) 0)) := by
  show execQpush q d a s = _
  unfold execQpush
  rw [guardX_writable _ _ _ hw]
  exact if_pos bad

variable (sound : ringCheck s (clusterOf s.cur) q.toNat s.me.world none = 0)
include sound

theorem exec_qpush_unaligned (unaligned : addr57 (s.rx a) % 16 ≠ 0) :
    exec (.qpush q d a) s = trapOut s 7 0x04 (BitVec.ofNat 64 (addr57 (s.rx a))) := by
  show execQpush q d a s = _
  unfold execQpush
  rw [guardX_writable _ _ _ hw]
  dsimp only
  rw [if_neg (not_not.mpr sound)]
  exact if_pos unaligned

variable (aligned : addr57 (s.rx a) % 16 = 0)
include aligned

theorem exec_qpush_translated (far : translatedBase ≤ addr57 (s.rx a)) :
    exec (.qpush q d a) s = trapOut s 7 0x11 (BitVec.ofNat 64 (addr57 (s.rx a))) := by
  show execQpush q d a s = _
  unfold execQpush
  rw [guardX_writable _ _ _ hw]
  dsimp only
  rw [if_neg (not_not.mpr sound), if_neg (not_not.mpr aligned)]
  exact if_pos far

theorem exec_qpush_asks (near : addr57 (s.rx a) < translatedBase) (inside : localFault s (pushTile s q a) = none) :
    exec (.qpush q d a) s = .next (askRing (park s s.cur .waitEngine (.reservation q.toNat
      { MemReq.new .qpush 0 d.toNat (pushTile s q a) with cmp := BitVec.ofNat 64 q.toNat })) (clusterOf s.cur) q.toNat
        (coreOf s.cur % 8) (.slot (coreOf s.cur) s.me.ctxNum)) := by
  show execQpush q d a s = _
  unfold execQpush
  rw [guardX_writable _ _ _ hw]
  dsimp only
  rw [if_neg (not_not.mpr sound), if_neg (not_not.mpr aligned), if_neg (Nat.not_le.mpr near)]
  unfold pushTile at inside ⊢
  rw [inside]

end

theorem askRing_scheduled (s : State) (cl q rank : Nat) (x : RingReq) :
    (s.cycle + 1, Event.ringReservationGrant cl q) ∈ (askRing s cl q rank x).agenda := next1_mem _ _

/-- Settles O37: a job is accepted, refused or kept by `issueJob`; MHINT by the engine's ramp; QCFG and QPUSH by the checks
of their ring. -/
theorem engineRequests : Obligations.EngineRequests := by
  unfold Obligations.EngineRequests
  intro s m q w d a b e c cl en mem asks n hint up ring code ea tile
  have all (o : Out) (ty modq : Nat) (d a b r : Reg) (wait : Bool) (ready : s.me.state = .ready)
      (here : ctxSlot s c s.me.ctxNum = some s.cur)
      (ho : o = issueJob s (newJob s ty modq d (s.rx a) (s.rx b) (mem r)) wait) : asks o ty modq d a b r wait := by
    refine ⟨?accepted, ?refused, ?full⟩
    case accepted =>
      intro room sound
      rw [ho, issueJob_room room, jobArrive_accepted here sound]
      let v := modEngine (tokenStarted s d) cl (Engine.accept (newJob s ty modq d (s.rx a) (s.rx b) (mem r)))
      have stirs : v.Stirs cl (engineWake (askJobs v cl) cl) := (State.Stirs.askJobs v cl).trans (.engineWake _ cl)
      have req := requests_waitFor (s := s) (d := d) stirs.slots stirs.cur wait
      refine ⟨_, rfl, ⟨req.x, req.pending, req.others⟩, ready ▸ req.waits, ?_⟩
      rw [cluster_waitFor]
      refine stirs_job stirs ?_
      rw [engine_modEngine]
      exact mem_accept _ _
    case refused =>
      intro room bad
      obtain ⟨who, arrive⟩ := jobArrive_refused here bad
      rw [ho, issueJob_room room, arrive]
      obtain ⟨g, due, after, scheduled, -, d1, d2⟩ := sendToken_message (tokenStarted s d) c (s.cur % 8) s.me.ctxNum d.toNat
        (BitVec.ofNat 64 (jobCheck s (newJob s ty modq d (s.rx a) (s.rx b) (mem r)))) who s.me.world 0
      have req := requests_waitFor (s := s) (d := d) (schedules_sendToken (tokenStarted s d) c (s.cur % 8) s.me.ctxNum d.toNat
        (BitVec.ofNat 64 (jobCheck s (newJob s ty modq d (s.rx a) (s.rx b) (mem r)))) who s.me.world 0).slots rfl wait
      refine ⟨_, g, due, rfl, ⟨req.x, req.pending, req.others⟩, ready ▸ req.waits, ?_, after, by rwa [agenda_waitFor], d2, ?_⟩
      · rw [cluster_waitFor]
        rfl
      · rw [d1, Nat.mod_mod]
    case full =>
      intro full
      rw [ho, issueJob_full full]
      have parks := parks_park s.freshId .waitEngine (.jobFull (newJob s ty modq d (s.rx a) (s.rx b) (mem r)) wait)
      exact ⟨_, rfl, parks.state, parks.wait, parks.x, parks.pending, congrArg Cluster.engine (cluster_park ..), parks.others⟩
  refine ⟨fun ready here => ⟨fun hd => ?mma, fun hd modulus => ?mmam⟩, fun hd none => ?noModulus, exec_mhint_zero,
    exec_mhint_idle, exec_mhint_on, fun u some_ => exec_mhint_warm_longer some_, fun u some_ => exec_mhint_extends some_,
    fun hd => ?qcfg, exec_qpush_badRing, exec_qpush_unaligned, exec_qpush_translated,
    fun hd ready sound aligned near inside => ?qpush⟩
  case mma => exact all _ _ _ _ _ _ _ _ ready here (guardX_writable s _ _ hd)
  case mmam =>
    exact all _ _ _ _ _ _ _ _ ready here ((guardX_writable s _ _ hd).trans (if_neg modulus))
  case noModulus => exact (guardX_writable s _ _ hd).trans (if_pos none)
  case qcfg =>
    refine ⟨_, guardX_writable s _ _ hd, State.me_modMe s (·.startToken d),
      fun k hk => State.slot_modSlot_other s _ _ (·.startToken d) hk, ?_, next1_mem .., rfl⟩
    exact ringOf_modRing_same q.isLt _ cl _
  case qpush =>
    let r := { MemReq.new .qpush 0 d.toNat tile with cmp := BitVec.ofNat 64 q.toNat }
    have parks := parks_park s .waitEngine (.reservation q.toNat r)
    refine ⟨_, r, exec_qpush_asks hd sound aligned near inside, parks.state, parks.wait, rfl, rfl, parks.x, parks.pending,
      parks.others, ?_, ?_⟩
    · refine (congrArg Ring.waiting (ringOf_modRing_same q.isLt _ cl _)).trans ?_
      rw [cycle_park, cluster_park]
    · have asked := askRing_scheduled (park s s.cur .waitEngine (.reservation q.toNat r)) cl q.toNat (c % 8) (.slot c s.me.ctxNum)
      rwa [cycle_park] at asked

end Sys2Proof.Machine

namespace Sys2Proof.Machine

/-! ## The copy hart takes a request (R230, R231) -/

section
variable {s : State} {cl id : Nat} {r : CopyReq}

theorem cluster_modReq (s : State) (cl id : Nat) (f : CopyReq → CopyReq) : (modReq s cl id f).cluster cl
    = { s.cluster cl with kicks := (s.cluster cl).kicks.map fun r => if r.id = id then f r else r } :=
  State.cluster_modCluster_same ..

theorem kicks_modReq (s : State) (cl id : Nat) (f : CopyReq → CopyReq) : ((modReq s cl id f).cluster cl).kicks
    = (s.cluster cl).kicks.map fun r => if r.id = id then f r else r := congrArg Cluster.kicks (cluster_modReq ..)

/-- A request that ends carries its status. -/
theorem status_endReq {w : Word} {x : CopyReq} (mem : x ∈ ((endReq s cl r w).cluster cl).kicks) (named : x.id = r.id) :
    x.status = some w := by
  unfold endReq at mem
  rw [cluster_next1, kicks_modReq] at mem
  obtain ⟨y, -, rfl⟩ := List.mem_map.mp mem
  by_cases e : y.id = r.id
  · rw [if_pos e]
  · rw [if_neg e] at named
    contradiction

/-- A context that waits for a kick slot. -/
def waitsForKick (w : Wait) : Bool := match w with | .kickFull _ _ => true | _ => false

theorem admitKicks_none (none : clusterWaits s cl waitsForKick = []) : admitKicks s cl = s := congrArg (List.foldl _ s) none

/-- The state in which the copy hart runs a request. -/
def kickTaken (s : State) (cl id : Nat) : State :=
  modReq s cl id fun x => { x with taken := true, running := true, since := s.cycle }

theorem admitKicks_kickTaken (nobody : clusterWaits s cl waitsForKick = []) :
    admitKicks (kickTaken s cl id) cl = kickTaken s cl id := by
  refine admitKicks_none ((clusterWaits_congr (s := s) (t := kickTaken s cl id) rfl ?_ ?_).trans nobody)
  · exact (congrArg Cluster.cache (cluster_modReq ..)).trans rfl
  · exact (congrArg Cluster.spilled (cluster_modReq ..)).trans rfl

section
variable (sound : s.poison = []) (unflipped : s.flipped = [])
include sound unflipped

theorem checkKicks_sound (cl : Nat) : checkKicks s cl = s := by
  unfold checkKicks
  rw [sound, unflipped]
  rfl

theorem exec_copyKickTake_busy (busy : (s.cluster cl).kicks.any (·.running) = true) : exec (.copyKickTake cl) s = .next s := by
  show execCopyKickTake cl s = _
  unfold execCopyKickTake
  rw [checkKicks_sound sound unflipped]
  exact if_pos busy

theorem exec_copyKickTake_empty (empty : (s.cluster cl).kicks = []) : exec (.copyKickTake cl) s = .next s := by
  show execCopyKickTake cl s = _
  unfold execCopyKickTake nextReq
  rw [checkKicks_sound sound unflipped]
  dsimp only
  rw [empty]
  rfl

variable (free : (s.cluster cl).kicks.any (·.running) = false) (next : nextReq (s.cluster cl) = some r)
  (fresh : r.taken = false) (nobody : clusterWaits s cl waitsForKick = [])
include free next fresh nobody

/-- A request that is taken for the first time goes on, or ends with the code of the check that it fails. -/
theorem exec_copyKickTake_takes : exec (.copyKickTake cl) s = .next (if copyCheck s cl r = 0 then goOn (kickTaken s cl r.id) cl r.id
    else endReq (kickTaken s cl r.id) cl r (BitVec.ofNat 64 (copyCheck s cl r))) := by
  show execCopyKickTake cl s = _
  unfold execCopyKickTake
  rw [checkKicks_sound sound unflipped]
  dsimp only
  rw [if_neg (by rw [free]; decide), next]
  dsimp only
  rw [fresh, if_neg Bool.false_ne_true]
  exact congrArg (fun t => Host.Outcome.next (if copyCheck s cl r = 0 then goOn t cl r.id else endReq t cl r _))
    (admitKicks_kickTaken nobody)

end

/-! ## The end of a request, and a yield (R231) -/

/-- What the end of a request with a status leaves: its kick slot is free, its token message is on its way, and the copy
hart takes the next request. -/
theorem releaseReq_spec (s : State) (cl : Nat) (r : CopyReq) (w : Word) :
    let t := releaseReq s cl r w
    (t.cluster cl).kicks = (s.cluster cl).kicks.filter (·.id != r.id) ∧ t.slots = s.slots ∧ t.mem = s.mem
      ∧ (∃ m due, s.cycle < due ∧ (due, Event.tokenMessageArrival r.core m) ∈ t.agenda ∧ m.d2 = w
        ∧ m.d1 = BitVec.ofNat 64 (r.ctx % 65536 * 65536 + r.rd * 256 + r.slot % 8))
      ∧ (s.cycle + 1, Event.copyKickTake cl) ∈ t.agenda := by
  let s1 := s.modCluster cl fun c => { c with kicks := c.kicks.filter (·.id != r.id) }
  let s2 := sendToken s1 r.core r.slot r.ctx r.rd w (.copy cl r.id) r.world r.sig
  let s3 := if r.rd = 0 then publishCore s2 r.core r.world r.sig else s2
  have gone : (s1.cluster cl).kicks = (s.cluster cl).kicks.filter (·.id != r.id) :=
    congrArg Cluster.kicks (State.cluster_modCluster_same ..)
  have published : s3.clusters = s1.clusters ∧ s3.slots = s.slots ∧ s3.mem = s.mem ∧ s3.cycle = s.cycle ∧ s3.agenda = s2.agenda := by
    unfold s3
    split <;> exact ⟨rfl, rfl, rfl, rfl, rfl⟩
  obtain ⟨clusters, slots, mem, cycle, agenda⟩ := published
  obtain ⟨m, due, after, sent, -, d1, d2⟩ := sendToken_message s1 r.core r.slot r.ctx r.rd w (.copy cl r.id) r.world r.sig
  refine ⟨?_, slots, mem, ⟨m, due, after, mem_agendaIns_of_mem _ _ _ _ (agenda ▸ sent), d2, d1⟩, cycle ▸ next1_mem s3 _⟩
  rw [← gone]
  unfold State.cluster
  exact congrArg (fun c => Cluster.kicks ((NMap.find c cl).getD Cluster.reset)) clusters

theorem exec_copyRequestComplete_ended {w : Word} (found : (s.cluster cl).kicks.find? (·.id == id) = some r)
    (ended : r.status = some w) : exec (.copyRequestComplete cl id) s = .next (releaseReq s cl r w) := by
  show execCopyRequestComplete cl id s = _
  unfold execCopyRequestComplete reqOf
  rw [found]
  dsimp only
  rw [ended]

theorem exec_copyRequestComplete_open (found : (s.cluster cl).kicks.find? (·.id == id) = some r) (open_ : r.status = none) :
    exec (.copyRequestComplete cl id) s = .next s := by
  show execCopyRequestComplete cl id s = _
  unfold execCopyRequestComplete reqOf
  rw [found]
  dsimp only
  rw [open_]

theorem exec_copyYield_running (found : (s.cluster cl).kicks.find? (·.id == id) = some r) (running : r.running = true)
    (open_ : r.status = none) (between : r.acc = none) : exec (.copyYield cl id) s = .next ((s.modCluster cl fun u =>
      { u with kicks := u.kicks.filter (·.id != id) ++ [{ r with running := false }] }).next1 (.copyKickTake cl)) := by
  show execCopyYield cl id s = _
  unfold execCopyYield reqOf
  rw [found]
  exact if_pos ⟨running, open_, between⟩

theorem exec_copy_gone (gone : (s.cluster cl).kicks.find? (·.id == id) = none) :
    exec (.copyRequestComplete cl id) s = .next s ∧ exec (.copyYield cl id) s = .next s := by
  constructor
  · show execCopyRequestComplete cl id s = _
    unfold execCopyRequestComplete reqOf
    rw [gone]
  · show execCopyYield cl id s = _
    unfold execCopyYield reqOf
    rw [gone]

end

/-- Settles O36: the copy hart's turn is `exec_copyKickTake_takes`, the end of a request `releaseReq_spec`. -/
theorem copyHartTurns : Obligations.CopyHartTurns := by
  unfold Obligations.CopyHartTurns
  intro s cl id ks
  refine ⟨exec_copyKickTake_busy, exec_copyKickTake_empty, ?take, ?ended, ?open_, exec_copy_gone⟩
  case take =>
    intro r sound unflipped free next fresh nobody
    refine ⟨_, exec_copyKickTake_takes sound unflipped free next fresh nobody, ?_, ?_, fun passes => ?_, fun fails => ?_⟩
    · split <;> rfl
    · split <;> rfl
    · rw [if_pos passes]
      exact ⟨at_mem .., kicks_modReq ..⟩
    · rw [if_neg fails]
      exact ⟨next1_mem .., fun x => status_endReq⟩
  case ended =>
    intro r w found ended
    obtain ⟨kicks, slots, mem, ⟨m, due, after, sent, d2, d1⟩, takes⟩ := releaseReq_spec s cl r w
    exact ⟨_, m, due, exec_copyRequestComplete_ended found ended, kicks, slots, mem, after, sent, d2, d1, takes⟩
  case open_ =>
    exact fun r found => ⟨exec_copyRequestComplete_open found, exec_copyYield_running found⟩

end Sys2Proof.Machine

namespace Sys2Proof.Machine

/-! ## GBAR (R254, R255) -/

section
variable {s : State}

theorem findBarrier_named (s : State) (world h g : Nat) :
    (findBarrier s world h g).launch = h ∧ (findBarrier s world h g).group = g := by
  unfold findBarrier
  cases found : (s.polder world).barriers.find? (fun b => b.launch == h && b.group == g) with
  | none => exact ⟨rfl, rfl⟩
  | some b => simpa using List.find?_some found

theorem findBarrier_putBarrier (s : State) (world : Nat) (b : Barrier) :
    findBarrier (putBarrier s world b) world b.launch b.group = b := by
  unfold findBarrier putBarrier
  rw [State.polder_modPolder_same]
  have others : ((s.polder world).barriers.filter (fun x => !(x.launch == b.launch && x.group == b.group))).find?
      (fun x => x.launch == b.launch && x.group == b.group) = none := by
    rw [List.find?_eq_none]
    intro x mem
    have other := (List.mem_filter.mp mem).2
    rwa [Bool.not_eq_true', ← Bool.not_eq_true] at other
  rw [List.find?_append, others]
  simp

/-- The barrier of a group once the issuing task has arrived. -/
def arrivedAt (s : State) (sc : BitVec 3) (g : Nat) : Barrier :=
  let b := findBarrier s s.me.world (s.me.launch.toNat % 1024) g
  { b with
    arrived := b.arrived ++ [(s.me.arg1.toNat, coreOf s.cur, s.me.ctxNum, sc.toNat)]
    sig := if 3 ≤ sc.toNat then b.sig ||| s.me.acc else b.sig }

/-- A member of a group: GBAR's test of the groups of the issuing task. -/
def isMember (s : State) (g : Nat) : Bool :=
  (List.range 4).any (fun k => s.me.groups.getLsbD (32 + k) && bits s.me.groups.toNat (8 * k + 7) (8 * k) == g)

theorem exec_gbar_outsider {sc : BitVec 3} {a : Reg} (outsider : isMember s ((s.rx a).toNat % 256) = false) :
    exec (.gbar sc a) s = trapOut s 7 0x11 (BitVec.ofNat 64 ((s.rx a).toNat % 256)) := by
  show execGbar sc a s = _
  unfold execGbar
  exact if_neg (by rw [show (List.range 4).any _ = false from outsider]; decide)

theorem exec_gbar_member {sc : BitVec 3} {a : Reg} (member : isMember s ((s.rx a).toNat % 256) = true) :
    exec (.gbar sc a) s = .next ((park (putBarrier (s.modMe fun x => { x with fenceRel := false }) s.me.world
      (arrivedAt s sc ((s.rx a).toNat % 256))) s.cur .waitBarrier (.barrier ((s.rx a).toNat % 256) sc.toNat)).next1
        (.barrierComplete s.me.world (s.me.launch.toNat % 1024) ((s.rx a).toNat % 256))) := by
  show execGbar sc a s = _
  unfold execGbar
  exact if_pos member

end

/-! ## SPAWN (R329, R330) -/

theorem NMap.find_mapKeyed {α : Type} (m : NMap α) (f : Nat → α → α) (k : Nat) :
    NMap.find (m.map fun p => (p.1, f p.1 p.2)) k = (NMap.find m k).map (f k) := by
  induction m with
  | nil => rfl
  | cons p m ih =>
    obtain ⟨j, v⟩ := p
    simp only [List.map_cons, NMap.find]
    by_cases e : j = k
    · rw [if_pos e, if_pos e, e]
      rfl
    · rw [if_neg e, if_neg e, ih]

/-- A core of the die no longer waits to steal for a world. -/
def backoffEnded (die world c : Nat) (co : Core) : Core :=
  if dieOfCore c == die && (stealOf co world).backoff.isSome then setSteal co world { stealOf co world with backoff := none } else co

theorem deque_backoffEnded (die world c : Nat) (co : Core) : (backoffEnded die world c co).deque = co.deque := by
  unfold backoffEnded
  split <;> rfl

/-- The end of the waits of thieves changes cores alone, and no deque. -/
theorem endBackoff_spec (s : State) (die world : Nat) : ∃ cores, endBackoff s die world = { s with cores := cores }
    ∧ ∀ c, ((endBackoff s die world).core c).deque = (s.core c).deque := by
  unfold endBackoff
  dsimp only
  split
  case isFalse => exact ⟨s.cores, rfl, fun _ => rfl⟩
  case isTrue =>
    have keyed : (fun p : Nat × Core => if dieOfCore p.1 == die && (stealOf p.2 world).backoff.isSome then
        (p.1, setSteal p.2 world { stealOf p.2 world with backoff := none }) else p)
          = fun p => (p.1, backoffEnded die world p.1 p.2) := by
      funext p
      unfold backoffEnded
      split <;> rfl
    refine ⟨_, rfl, fun c => ?_⟩
    unfold State.core
    dsimp only
    rw [keyed, NMap.find_mapKeyed]
    cases NMap.find s.cores c with
    | none => rfl
    | some co => exact deque_backoffEnded die world c co

section
variable {s : State} {c : Nat} {r : TaskRec}

/-- A push to a deque with room: the record stands at the bottom, and waits from now on. -/
theorem pushRecord_room (room : (s.core c).deque.length < 64) : ∃ t, pushRecord s c r = some t
    ∧ t.slots = s.slots ∧ t.cur = s.cur ∧ t.cycle = s.cycle ∧ (t.core c).deque = { r with since := s.cycle } :: (s.core c).deque := by
  have made : makeRoom s c = some s := by
    unfold makeRoom
    exact if_pos room
  let u := becameReady (s.modCore c fun co => { co with deque := { r with since := s.cycle } :: co.deque }) c r.world
  obtain ⟨cores, ends, deque⟩ := endBackoff_spec u (dieOfCore c) r.world
  refine ⟨endBackoff u (dieOfCore c) r.world, ?_, by rw [ends]; rfl, by rw [ends]; rfl, by rw [ends]; rfl, (deque c).trans ?_⟩
  · unfold pushRecord pushAt putRecord
    rw [made]
    rfl
  · show ((s.modCore c fun co => { co with deque := { r with since := s.cycle } :: co.deque }).core c).deque = _
    rw [State.core_modCore_same]

theorem pushRecord_fails (full : 64 ≤ (s.core c).deque.length) (fails : Config.spillFails s.free = true) :
    pushRecord s c r = none := by
  have none : makeRoom s c = none := by
    unfold makeRoom
    dsimp only
    rw [if_neg (Nat.not_lt.mpr full), if_pos fails]
  unfold pushRecord pushAt putRecord
  rw [none]
  rfl

end

section
variable {s : State} {i : BitVec 1} {d a b e : Reg}

/-- The record that a SPAWN pushes, at the priority that the form gives it. -/
def spawnRec (s : State) (i : BitVec 1) (a b e : Reg) : TaskRec :=
  { world := s.me.world, prio := if i = 1 then s.me.prio else bits (s.rx a).toNat 63 58, pc := bits (s.rx a).toNat 56 0
    arg0 := s.rx b, arg1 := s.rx e, launch := s.me.launch.toNat % 1024, done := (s.rx (e + 1)).toNat, seeded := false
    logical := s.me.logical.toNat, codeLo := s.me.codeLo, codeHi := s.me.codeHi, since := s.cycle, sig := s.me.acc }

/-- The checks of a SPAWN, on its operands. -/
def spawnChecks (s : State) (i : BitVec 1) (a e : Reg) : Nat := spawnCode s (i == 1) (s.rx a).toNat (s.rx (e + 1)).toNat

/-- A SPAWN answers a code to its token register. -/
def spawnAnswer (s : State) (d : Reg) (x : Nat) (t : State) : State :=
  t.later Config.latMesh (.completionWrite (coreOf s.cur) s.me.ctxNum d.toNat (BitVec.ofNat 64 x) 0)

/-- The record has been pushed: a FENCE's pending release has gone with it (R270), and the launch has one task more. -/
def spawnPushed (s t : State) : State :=
  modLaunch (t.modMe fun x => { x with fenceRel := false }) s.me.world (s.me.launch.toNat % 1024) fun l => { l with live := l.live + 1 }

section
variable (hw : s.writable d)
include hw

theorem exec_spawn_refused (bad : spawnChecks s i a e ≠ 0) : exec (.spawn i d a b e) s
    = .next (spawnAnswer s d (spawnChecks s i a e) (s.modMe (·.startToken d))) := by
  show execSpawn i d a b e s = _
  unfold execSpawn
  rw [guardX_writable _ _ _ hw]
  exact if_pos bad

variable (sound : spawnChecks s i a e = 0) (ordinary : (spawnRec s i a b e).prio < 40)
include sound ordinary

theorem exec_spawn_pushes {t : State} (pushed : pushRecord (s.modMe (·.startToken d)) (coreOf s.cur) (spawnRec s i a b e) = some t) :
    exec (.spawn i d a b e) s = .next (spawnAnswer s d 0 (spawnPushed s t)) := by
  show execSpawn i d a b e s = _
  unfold execSpawn
  rw [guardX_writable _ _ _ hw]
  unfold spawnChecks at sound
  unfold spawnRec at ordinary pushed
  dsimp only at ordinary ⊢
  rw [if_neg (not_not.mpr sound), if_neg (Nat.not_le.mpr ordinary), pushed]
  rfl

theorem exec_spawn_spillFails (none : pushRecord (s.modMe (·.startToken d)) (coreOf s.cur) (spawnRec s i a b e) = none) :
    exec (.spawn i d a b e) s = .next (spawnAnswer s d 0x31 (spillFailed (s.modMe (·.startToken d)) (coreOf s.cur))) := by
  show execSpawn i d a b e s = _
  unfold execSpawn
  rw [guardX_writable _ _ _ hw]
  unfold spawnChecks at sound
  unfold spawnRec at ordinary none
  dsimp only at ordinary ⊢
  rw [if_neg (not_not.mpr sound), if_neg (Nat.not_le.mpr ordinary), none]
  rfl

end

/-- The issuing slot has started token `d`, and beside its signatures nothing of the slots has changed. -/
structure Spawning (s : State) (d : Reg) (u : State) : Prop where
  cycle : u.cycle = s.cycle
  x : u.me.x = s.me.x
  pending : u.me.pending = (s.me.startToken d).pending
  others : ∀ k, k ≠ s.cur → u.slot k = s.slot k

theorem spawning_started {u : State} (slots : u.slots = (s.modMe (·.startToken d)).slots) (cur : u.cur = s.cur)
    (cycle : u.cycle = s.cycle) : Spawning s d u := by
  have slot (k : Nat) : u.slot k = (s.modMe (·.startToken d)).slot k := by
    unfold State.slot
    rw [slots]
  have me : u.me = s.me.startToken d := by
    rw [State.me_eq, cur, slot]
    exact State.me_modMe s (·.startToken d)
  exact ⟨cycle, by rw [me, startToken_fields], by rw [me],
    fun k hk => (slot k).trans (State.slot_modSlot_other s _ _ (·.startToken d) hk)⟩

theorem Spawning.pushed {t : State} (h : Spawning s d t) (cur : t.cur = s.cur) : Spawning s d (spawnPushed s t) := by
  have me : (spawnPushed s t).me = { t.me with fenceRel := false } := State.me_modMe t fun x => { x with fenceRel := false }
  refine ⟨h.cycle, by rw [me]; exact h.x, by rw [me]; exact h.pending, fun k hk => ?_⟩
  exact (State.slot_modSlot_other t t.cur k (fun x => { x with fenceRel := false }) (cur ▸ hk)).trans (h.others k hk)

/-- What the answer to a SPAWN leaves behind. -/
theorem Spawning.answered {u : State} (h : Spawning s d u) (x : Nat) : ∃ due, s.cycle < due
    ∧ (due, Event.completionWrite (coreOf s.cur) s.me.ctxNum d.toNat (BitVec.ofNat 64 x) 0) ∈ (spawnAnswer s d x u).agenda
    ∧ Spawning s d (spawnAnswer s d x u) := by
  obtain ⟨due, after, scheduled⟩ := later_mem u s.cycle Config.latMesh
    (.completionWrite (coreOf s.cur) s.me.ctxNum d.toNat (BitVec.ofNat 64 x) 0) h.cycle
  exact ⟨due, after, scheduled, h.cycle, h.x, h.pending, h.others⟩

end

/-! ## TDONE and TYIELD (R331, R332) -/

/-- A request that drains a task before it ends: the first step waits for pending registers, the second for requests. -/
theorem drainOut_spec (s : State) (r : MemReq) : ∃ t phase, drainOut s r = .next t
    ∧ Parks s (if s.me.pending ≠ 0 then .waitToken else .waitMem) (.mem { r with phase := phase }) t
    ∧ (s.me.pending ≠ 0 → phase = r.phase) ∧ (s.me.pending = 0 → phase = 1)
    ∧ (s.me.pending = 0 → s.me.outstanding = 0 → ∃ due, s.cycle < due
      ∧ (due, Event.remoteReply (.ctx (coreOf s.cur) s.me.ctxNum) .done 0) ∈ t.agenda) := by
  unfold drainOut
  by_cases pending : s.me.pending = 0
  · rw [if_neg (not_not.mpr pending), if_neg (not_not.mpr pending)]
    have parks := parks_park s .waitMem (.mem { r with phase := 1 })
    by_cases quiet : s.me.outstanding = 0
    · let u := park s s.cur .waitMem (.mem { r with phase := 1 })
      have last := later_mem u s.cycle Config.latReply (.remoteReply (.ctx (coreOf s.cur) s.me.ctxNum) .done 0) (cycle_park ..)
      rw [if_neg (not_not.mpr quiet)]
      exact ⟨_, 1, rfl, ⟨parks.state, parks.wait, parks.pc, parks.x, parks.pending, parks.others⟩, fun h => absurd pending h,
        fun _ => rfl, fun _ _ => last⟩
    · rw [if_pos quiet]
      exact ⟨_, 1, rfl, parks, fun h => absurd pending h, fun _ => rfl, fun _ h => absurd h quiet⟩
  · rw [if_pos pending, if_pos pending]
    exact ⟨_, r.phase, rfl, parks_park s .waitToken (.mem r), fun _ => rfl, fun h => absurd h pending, fun h => absurd h pending⟩

/-- Settles O42: GBAR by `isMember`, SPAWN by its checks and by what a push to the deque does, TDONE and TYIELD by
`drainOut_spec`. -/
theorem taskInstructions : Obligations.TaskInstructions := by
  unfold Obligations.TaskInstructions
  intro s sc i d a b e c sl h g member entry prio code spawned drains
  have answers {u : State} {x : Nat} {ad : State → Prop} (ho : exec (.spawn i d a b e) s = .next (spawnAnswer s d x u))
      (spawning : Spawning s d u) (also : ad (spawnAnswer s d x u)) : spawned x ad := by
    obtain ⟨due, after, scheduled, kept⟩ := spawning.answered x
    exact ⟨_, due, ho, after, scheduled, kept.x, kept.pending, kept.others, also⟩
  have draining {o : Out} {r : MemReq} (ho : o = drainOut s r) (acq : r.acq = true) (rel : r.rel = true) (scope : r.scope = 4)
      (phase : r.phase = 0) : drains o r.op := by
    obtain ⟨t, n, out, parks, first, second, last⟩ := drainOut_spec s r
    refine ⟨t, { r with phase := n }, ho.trans out, parks.wait, rfl, acq, rel, scope, parks.x, parks.pc, parks.others,
      fun pending => ⟨?_, (first pending).trans phase⟩, fun none => ⟨?_, second none⟩, last⟩
    · exact parks.state.trans (if_pos pending)
    · exact parks.state.trans (if_neg (not_not.mpr none))
  have started := spawning_started (s := s) (d := d) (u := s.modMe (·.startToken d)) rfl rfl rfl
  refine ⟨exec_gbar_outsider, fun isIn ready => ?arrives, fun hd bad => ?refused, fun hd sound ordinary room => ?pushed,
    fun hd sound ordinary full fails => ?spill, fun six => if_pos six, fun general ready => ?tdone, fun hd ready => ?tyield⟩
  case arrives =>
    obtain ⟨launch, group⟩ := findBarrier_named s sl.world h g
    let u := putBarrier (s.modMe fun x => { x with fenceRel := false }) sl.world (arrivedAt s sc g)
    have me : u.me = { s.me with fenceRel := false } := State.me_modMe s fun x => { x with fenceRel := false }
    have parks := parks_park u .waitBarrier (.barrier g sc.toNat)
    refine ⟨_, exec_gbar_member isIn, parks.state, parks.wait, parks.x.trans (by rw [me]),
      fun k hk => (parks.others k hk).trans (State.slot_modSlot_other s _ _ (fun x => { x with fenceRel := false }) hk), ?_, ?_⟩
    · have wakes := next1_mem (park u s.cur .waitBarrier (.barrier g sc.toNat)) (.barrierComplete sl.world h g)
      rwa [cycle_park] at wakes
    · have kept : findBarrier ((park u s.cur .waitBarrier (.barrier g sc.toNat)).next1 (.barrierComplete sl.world h g)) sl.world h g
          = findBarrier u sl.world h g := by
        unfold findBarrier
        rw [polder_next1, polder_park]
      have put := findBarrier_putBarrier (s.modMe fun x => { x with fenceRel := false }) sl.world (arrivedAt s sc g)
      rw [show (arrivedAt s sc g).launch = h from launch, show (arrivedAt s sc g).group = g from group] at put
      exact congrArg Barrier.arrived (kept.trans put)
  case refused => exact answers (exec_spawn_refused hd bad) started ⟨rfl, rfl⟩
  case pushed =>
    obtain ⟨t, pushed, slots, cur, cycle, deque⟩ := pushRecord_room (s := s.modMe (·.startToken d)) (c := c)
      (r := spawnRec s i a b e) room
    refine answers (exec_spawn_pushes hd sound ordinary pushed) ((spawning_started slots cur cycle).pushed cur) ?_
    exact ⟨_, deque, rfl, rfl, by simp [spawnRec, bits, entry], rfl, rfl, rfl, rfl, rfl, rfl, rfl, rfl, rfl, rfl⟩
  case spill =>
    refine answers (exec_spawn_spillFails hd sound ordinary (pushRecord_fails full fails)) ?_ ⟨rfl, rfl⟩
    exact spawning_started rfl rfl rfl
  case tdone => exact draining (if_neg general) rfl rfl rfl rfl
  case tyield => exact draining (guardX_writable s _ _ hd) rfl rfl rfl rfl

end Sys2Proof.Machine
